-- ==== Sys2Proof/Word.lean ====
section
/-! DEFINITION. The word types of Lumust 3.1 and their plainest arithmetic: 64-bit register and
memory words (R636), 128-byte lines (R28), 1,152-bit stored beats (R585), and the widths of keys and tags. -/
namespace Sys2Proof

/-- A 64-bit register, scalar or memory word. -/
abbrev Word := BitVec 64
/-- One byte. -/
abbrev Byte := BitVec 8
/-- One 128-byte memory line; byte `j` in bits `[8j+7:8j]` (R585). -/
abbrev Line := BitVec 1024
/-- One stored line as the port carries it: 1,024 line bits and 128 sideband bits (R320, R585). -/
abbrev Beat := BitVec 1152
/-- A 256-bit key. -/
abbrev Key := BitVec 256
/-- A 384-bit digest. -/
abbrev Digest := BitVec 384
/-- A 64-byte tree node or counter block, read as a little-endian integer (R285). -/
abbrev Node := BitVec 512

/-- `n` bits of `w` from bit `lo`, as a number. -/
def field (w : BitVec k) (lo n : Nat) : Nat := (w.toNat >>> lo) % 2 ^ n

/-- One bit of `w`. -/
def bit (w : BitVec k) (i : Nat) : Bool := w.getLsbD i

/-- `w` with its `n` bits from bit `lo` replaced by `v`. -/
def setField (w : BitVec k) (lo n v : Nat) : BitVec k :=
  BitVec.ofNat k (w.toNat - ((w.toNat >>> lo) % 2 ^ n) * 2 ^ lo + (v % 2 ^ n) * 2 ^ lo)

/-- Saturating increment: `x + n`, at most `top`. -/
def satAdd (top x n : Nat) : Nat := min top (x + n)

/-- `⌈a ÷ b⌉`. -/
def ceilDiv (a b : Nat) : Nat := (a + b - 1) / b

/-- A word packed from fields: `(position, width, value)` each. -/
def packWord (fs : List (Nat × Nat × Nat)) : Word :=
  BitVec.ofNat 64 (fs.foldl (fun a f => a + (f.2.2 % 2 ^ f.2.1) * 2 ^ f.1) 0)

/-- A Bool as the number 0 or 1. -/
def b2n (b : Bool) : Nat := if b then 1 else 0

/-- `n` bytes, least significant first, of a bit vector. -/
def bytesOf (n : Nat) (w : BitVec k) : List Byte :=
  (List.range n).map fun i => BitVec.ofNat 8 (w.toNat >>> (8 * i))

/-- The number whose little-endian bytes these are. -/
def natOfBytes (bs : List Byte) : Nat := bs.foldr (fun b a => b.toNat + 256 * a) 0

/-- The first `n` bytes of a list, padded with zeros. -/
def takeBytes (n : Nat) (bs : List Byte) : List Byte := (bs ++ List.replicate n 0).take n

end Sys2Proof
end

