-- ==== Sys2Proof/Config.lean ====
section
/-! DEFINITION. What an implementation fixes: the build parameters and straps of a macro (R4, R14, R34 to R37,
R589, R619), and the free values the manual leaves open, each an opaque constant nothing can evaluate. -/
namespace Sys2Proof

/-- The build parameters and straps of one macro (R34, R14, R589, R605). -/
structure Cfg where
  /-- CLUSTERS (R4). -/
  clusters : Nat
  /-- ENGINES_PER_CLUSTER (R4). -/
  epc : Nat
  /-- HALVES (R34). -/
  halves : Nat
  /-- LINK_PORTS (R34). -/
  linkPorts : Nat
  /-- HOST_PORTS (R34). -/
  hostPorts : Nat
  /-- D2D: two dies (R37). -/
  d2d : Bool
  /-- The capacity strap code of each memory port (R589); ports beyond the list take 0b100. -/
  capCodes : List Nat
  /-- The host packet port tied secure by HPP_SEC_EN, if any (R57). -/
  secPort : Option Nat
  /-- More than one HPPp_SEC_EN is tied high (R616). -/
  multi : Bool
  /-- FC_CTL.DUP: the fault collector is built duplicated (R545). -/
  dup : Bool
  /-- JTAG_MFR[10:0], the manufacturer identity (R516, R628). -/
  jtagMfr : Nat
  deriving DecidableEq, Repr

namespace Config

/-- A free value of `w` bits, by draw number: nothing constrains it. -/
opaque freeBits (w : Nat) (draw : Nat) : BitVec w
/-- AES-256 of one block (FIPS 197); the manual names the standard, not its tables. -/
opaque aes256 : Key → BitVec 128 → BitVec 128
/-- SHA-384 (FIPS 180-4) of a byte string. -/
opaque sha384 : List Byte → Digest
/-- ECDSA P-384 verification: public key (96 bytes), message, signature (96 bytes). -/
opaque ecdsaVerify : List Byte → List Byte → List Byte → Bool
/-- ECDSA P-384 signature by a private key over a message. -/
opaque ecdsaSign : BitVec 384 → List Byte → List Byte
/-- The P-384 public key of a private scalar: X, then Y, each 48 bytes and most significant byte first. -/
opaque p384Public : BitVec 384 → List Byte
/-- Whether the last certificate of a DER chain carries a public key (R482). -/
opaque certCarries : List Byte → List Byte → Bool
/-- Whether the verify data of a FINISH holds for a session's secret and transcript hash (DSP0274). -/
opaque finishVerifies : Digest → Digest → List Byte → Bool
/-- ECDH P-384: private key and peer public key to the 384-bit shared secret; none for an invalid point. -/
opaque ecdh : BitVec 384 → List Byte → Option (BitVec 384)
/-- The bytes of an SPDM response (DMTF DSP0274), by message code and structured content. -/
opaque spdmBytes : Nat → List (List Byte) → List Byte
/-- The two Rovaost public keys of the boot ROM (R455): 0 production, 1 development. -/
opaque rovaostKey : Nat → List Byte
/-- SHA-384 of the boot ROM (R486). -/
opaque romDigest : Digest
/-- Elementary functions of the vector unit within the bounds of R97, by function code and operand bits. -/
opaque elementary : Nat → BitVec 32 → BitVec 32
/-- The result of a value the manual leaves open, as a function of a tag and its operands. -/
opaque openValue (w : Nat) : Nat → List Nat → BitVec w
/-- The set of the metadata cache that a sub-channel and line address select (R294 fixes 512 sets of 16 ways
and leaves the index open). -/
opaque cacheSet : Nat → Nat → Nat

end Config

/-- The LU-48 configuration (R7, R16, R34), one die, no secure host port. -/
def lu48 : Cfg :=
  { clusters := 48, epc := 4, halves := 2, linkPorts := 18, hostPorts := 4, d2d := false,
    capCodes := [], secPort := none, multi := false, dup := true, jtagMfr := 0 }

/-- Memory ports of a configuration (R4). -/
def Cfg.memPorts (c : Cfg) : Nat := (c.clusters + 1) / 2

/-- Clusters in half 0 (R35). -/
def Cfg.half0Clusters (c : Cfg) : Nat := if c.halves = 2 then (c.clusters + 3) / 4 * 2 else c.clusters

/-- Clusters in half 1 (R35, R37). -/
def Cfg.half1Clusters (c : Cfg) : Nat := c.clusters - c.half0Clusters

/-- Of `n` ports placed by R36, those in half 0. -/
def Cfg.portsHalf0 (c : Cfg) (n : Nat) : Nat := if c.halves = 2 then (n + 1) / 2 else n

/-- Half of a cluster (R35). -/
def Cfg.halfOfCluster (c : Cfg) (k : Nat) : Nat := if k < c.half0Clusters then 0 else 1

/-- Half of a memory port: its cluster pair's (R18, R35). -/
def Cfg.halfOfMem (c : Cfg) (m : Nat) : Nat := c.halfOfCluster (2 * m)

/-- Half of a link port (R36). -/
def Cfg.halfOfLink (c : Cfg) (i : Nat) : Nat := if i < c.portsHalf0 c.linkPorts then 0 else 1

/-- Half of a host packet port (R36). -/
def Cfg.halfOfHost (c : Cfg) (p : Nat) : Nat := if p < c.portsHalf0 c.hostPorts then 0 else 1

/-- An engine number that the configuration holds (R17). -/
def Cfg.hasEngine (c : Cfg) (e : Nat) : Bool := e / 4 < c.clusters && e % 4 < c.epc

/-- A wired sub-channel `s` of port `m` (R5, R582). -/
def Cfg.hasSub (c : Cfg) (m s : Nat) : Bool :=
  m < c.memPorts && s < (if c.clusters = 1 then 2 else 4)

/-- Every wired sub-channel index 4m + s (R39), ascending. -/
def Cfg.subs (c : Cfg) : List Nat :=
  (List.range (4 * c.memPorts)).filter fun i => c.hasSub (i / 4) (i % 4)

/-- Every engine number, ascending. -/
def Cfg.engineList (c : Cfg) : List Nat :=
  (List.range (4 * c.clusters)).filter fun e => c.hasEngine e

/-- CK_CONFIG (R14): CLUSTERS, MEM_PORTS, LINK_PORTS, HOST_PORTS, ENGINES_PER_CLUSTER, HALVES. -/
def Cfg.ckConfig (c : Cfg) : Word :=
  packWord [(40, 8, c.clusters), (32, 8, c.memPorts), (24, 8, c.linkPorts), (16, 8, c.hostPorts),
    (8, 8, c.epc), (0, 8, c.halves)]

/-- CK_TOPOLOGY (R37). -/
def Cfg.ckTopology (c : Cfg) : Word :=
  packWord [(16, 8, if c.halves = 2 then c.half1Clusters else 0), (8, 8, c.half0Clusters), (0, 1, b2n c.d2d)]

/-- CK_VERSION (R10). -/
def ckVersion : Word := 0x0000000000030001

/-- CAP of port `m` in 2 MiB units (R589); 0 for a reserved strap code. -/
def Cfg.cap (c : Cfg) (m : Nat) : Nat :=
  let code := c.capCodes.getD m 4
  if code ≤ 4 then 512 * 2 ^ code else 0

/-- The rows of R34 and R4 that a configuration meets. -/
def Cfg.legal (c : Cfg) : Bool :=
  (c.clusters = 1 || (c.clusters % 2 = 0 && 2 ≤ c.clusters && c.clusters ≤ 48)) &&
  (1 ≤ c.epc && c.epc ≤ 4) && (c.halves = 1 || c.halves = 2) &&
  (c.halves = 2 || c.clusters ≤ 24) && (c.halves = 1 || 4 ≤ c.clusters) &&
  (c.linkPorts ≤ 9 * c.halves) && (1 ≤ c.hostPorts && c.hostPorts ≤ 4 && c.hostPorts ≤ 2 * c.halves) &&
  (!c.d2d || c.halves = 2)

end Sys2Proof
end

