-- ==== Sys2Proof/Syntax.lean ====
section
/-! DEFINITION. The commands of the block: the rows of the table of operations and events, one constructor each,
with the operands that the outside (a requester, a licensee's controller, a MAC, a host, a pin) or a unit's own
schedule supplies. Everything else a command does is in its meaning under Machine/. -/
namespace Sys2Proof

/-- The attribute word of a fabric request (R26). `kind`: 0 engine, 1 link port, 2 host port, 3 background agent. -/
structure Attr where
  slice : Nat
  ctx : Nat
  gen : Nat
  keyid : Nat
  bwclass : Nat
  sec : Bool
  kind : Nat
  master : Nat
  deriving DecidableEq, Repr, Inhabited

/-- A translated request at a Selvage memory engine: attributes, port, sub-channel, local line index, and the entry of
the region table that translation found (none for a direct-form access of a background agent). -/
structure MemReq where
  attr : Attr
  port : Nat
  sub : Nat
  line : Nat
  region : Option Nat
  deriving DecidableEq, Repr, Inhabited

/-- What the licensee's medium does to the lines an access touches: stored bits that flipped before the access, as
`(local line, bits)` of the request's sub-channel, and lines that answer with CPL_ERR = 1 (R590). -/
structure Med where
  flips : List (Nat × Beat)
  errs : List Nat
  deriving DecidableEq, Repr, Inhabited

/-- A medium that answers every access without error. -/
def Med.good : Med := { flips := [], errs := [] }

/-- The frame of a Weft instruction without its opcode (R171): PNEG, PREG, FCLASS, OPERANDS. -/
structure Frame where
  pneg : Bool
  preg : Nat
  fclass : Nat
  ops : BitVec 112
  deriving DecidableEq, Repr, Inhabited

/-- The operations of a Tally bank (R269). -/
inductive TKind where
  | read | add | swap | write | max | seterr
  deriving DecidableEq, Repr, Inhabited

/-- Where a Tally operation's answer goes: nowhere; nowhere, for an engine's context; to a scalar register of an engine's context; or to a
requester outside the engines. -/
inductive TRet where
  | none
  | action (e ctx gen : Nat)
  | engine (e ctx gen reg : Nat)
  | requester
  deriving DecidableEq, Repr, Inhabited

/-- A Tally operation at a port (R267, R269): its word by byte offset in the half's Tally, the operand, the master
identifier it came from, and where its answer goes. `ticket` numbers it. -/
structure TOp where
  kind : TKind
  off : Nat
  val : Word
  master : Nat
  ctx : Nat
  ret : TRet
  ticket : Nat
  deriving DecidableEq, Repr, Inhabited

/-- The ring a Warp packet came from. -/
inductive RingId where
  | queue (q : Nat)
  | port (p : Nat)
  deriving DecidableEq, Repr, Inhabited

/-- The path by which a register access arrives: the control register port with CRP_SEC, a host packet port, or a JTAG
instrument (R612, R622, R629). -/
inductive Path where
  | crp (sec : Bool)
  | host (p : Nat)
  | jtag
  deriving DecidableEq, Repr, Inhabited

/-- What an IEEE 1687 access reaches (R505, R515): a class P register by its control offset; a class O monitor; a scratchpad word of an
engine, a Bolt word of a cluster, a Tally word of a half, by byte offset; scan of an engine's PC; halt or release of a firmware
processor; engine-level injection. -/
inductive Instrument where
  | reg (off : Nat)
  | monitor (n : Nat)
  | spad (e a : Nat)
  | bolt (c a : Nat)
  | tally (h a : Nat)
  | scan (e : Nat)
  | proc (k : Nat) (halt : Bool)
  | inject (e : Nat)
  deriving DecidableEq, Repr, Inhabited

/-- The commands of the table of operations and events. -/
inductive Instr where
  /-- Weft no-operation instruction issues and takes one ECLK. (R199) -/
  | nop (e : Nat) (f : Frame)
  /-- Closes the running tile once every scratchpad access and unit result of the tile has finished, invalidating views and statistics slots. (R152) -/
  | tend (e : Nat) (f : Frame)
  /-- Ends a tile segment and continues issue at its target while the tile stays open. (R153) -/
  | tlink (e : Nat) (f : Frame)
  /-- Ends the program at a boundary, sets ENDED and releases the engine. (R185) -/
  | pend (e : Nat) (f : Frame)
  /-- Branches by a signed offset when its predicate is true. (R200) -/
  | br (e : Nat) (f : Frame)
  /-- Sets a tensor view register, checking it when VALID is 1, and opens a tile. (R161) -/
  | tview (e : Nat) (f : Frame)
  /-- Writes one word of a descriptor register. (R200) -/
  | dsetw (e : Nat) (f : Frame)
  /-- Reads one word of a descriptor register into a scalar register. (R200) -/
  | dgetw (e : Nat) (f : Frame)
  /-- Moves a scalar register plus immediate into a scalar register. (R200) -/
  | smov (e : Nat) (f : Frame)
  /-- Adds two scalar operands modulo 2^64. (R200) -/
  | sadd (e : Nat) (f : Frame)
  /-- Subtracts two scalar operands modulo 2^64. (R200) -/
  | ssub (e : Nat) (f : Frame)
  /-- Multiplies two scalar operands, keeping the low 64 bits, with a 3-ECLK result latency. (R200) -/
  | smul (e : Nat) (f : Frame)
  /-- Bitwise AND of two scalar operands. (R200) -/
  | sand (e : Nat) (f : Frame)
  /-- Bitwise OR of two scalar operands. (R200) -/
  | sor (e : Nat) (f : Frame)
  /-- Bitwise XOR of two scalar operands. (R200) -/
  | sxor (e : Nat) (f : Frame)
  /-- Shifts a scalar operand left. (R200) -/
  | sshl (e : Nat) (f : Frame)
  /-- Shifts a scalar operand right logically. (R200) -/
  | sshr (e : Nat) (f : Frame)
  /-- Shifts a scalar operand right arithmetically. (R200) -/
  | ssra (e : Nat) (f : Frame)
  /-- Sets a predicate when two scalar operands are equal. (R200) -/
  | seq (e : Nat) (f : Frame)
  /-- Sets a predicate when two scalar operands differ. (R200) -/
  | sne (e : Nat) (f : Frame)
  /-- Sets a predicate on a signed less-than comparison. (R200) -/
  | slt (e : Nat) (f : Frame)
  /-- Sets a predicate on an unsigned less-than comparison. (R200) -/
  | sltu (e : Nat) (f : Frame)
  /-- Sets a predicate on a signed less-or-equal comparison. (R200) -/
  | sle (e : Nat) (f : Frame)
  /-- Sets a predicate on an unsigned less-or-equal comparison. (R200) -/
  | sleu (e : Nat) (f : Frame)
  /-- Sets a predicate from a truth table of two predicates. (R200) -/
  | plog (e : Nat) (f : Frame)
  /-- Reads the context STEP value into a scalar register. (R200) -/
  | rstep (e : Nat) (f : Frame)
  /-- Advances the context STEP value modulo 2^48. (R200) -/
  | astep (e : Nat) (f : Frame)
  /-- Copies a view extent from the Bolt region into the scratchpad. (R202) -/
  | ldb (e : Nat) (f : Frame)
  /-- Copies a view extent from the scratchpad into the Bolt region. (R202) -/
  | stb (e : Nat) (f : Frame)
  /-- Converts a scratchpad view and starts its asynchronous write to a memory tensor window, optionally compressing it. (R205) -/
  | st (e : Nat) (f : Frame)
  /-- Starts an asynchronous prefetch of a tensor window into a Bolt image, possibly bound to an expert condition word. (R203) -/
  | pref (e : Nat) (f : Frame)
  /-- Starts an asynchronous copy of a Bolt image back to a memory tensor window. (R203) -/
  | push (e : Nat) (f : Frame)
  /-- Starts an asynchronous gather of indexed tensor rows into the Bolt buffer. (R206) -/
  | gath (e : Nat) (f : Frame)
  /-- Starts an asynchronous scatter of Bolt image rows to indexed tensor rows. (R206) -/
  | scat (e : Nat) (f : Frame)
  /-- Waits at a boundary until a Tally word meets a condition against a value. (R210) -/
  | twait (e : Nat) (f : Frame)
  /-- A waiting TWAIT retires after a change of its word makes the condition true. (R210) -/
  | twaitRelease (e : Nat)
  /-- Waits at a boundary until a fence reaches a value or enters the error state. (R211) -/
  | fwait (e : Nat) (f : Frame)
  /-- A waiting FWAIT retires with result 0 or the fence error code after the fence changes. (R211) -/
  | fwaitRelease (e : Nat)
  /-- Reads a context word or fence value indivisibly at the Tally bank. (R213) -/
  | tld (e : Nat) (f : Frame)
  /-- Adds a value to a context word indivisibly and returns the previous value. (R213) -/
  | tadd (e : Nat) (f : Frame)
  /-- Swaps a value into a context word indivisibly and returns the previous value. (R213) -/
  | tswap (e : Nat) (f : Frame)
  /-- Signals a fence, raising its value to the maximum of value and operand. (R212) -/
  | fsig (e : Nat) (f : Frame)
  /-- Places a fence in the error state with a tenant code and releases its waiters. (R212) -/
  | ferr (e : Nat) (f : Frame)
  /-- Opens a receive window for the running context in the Bolt buffer or memory. (R216) -/
  | lpost (e : Nat) (f : Frame)
  /-- Releases a receive window so that later arrivals are refused. (R216) -/
  | lclose (e : Nat) (f : Frame)
  /-- Starts sending Bolt bytes to a remote receive window under a link key. (R217) -/
  | lput (e : Nat) (f : Frame)
  /-- Starts sending a memory tensor window to a remote window through transcryption. (R217) -/
  | lputm (e : Nat) (f : Frame)
  /-- Starts sending elements that the receiver combines into its window by add or maximum. (R217) -/
  | lred (e : Nat) (f : Frame)
  /-- Starts a request for bytes of a remote window, to be written into the Bolt region. (R217) -/
  | lget (e : Nat) (f : Frame)
  /-- Computes C (+)= A x B^T over sparse or dense operands with Heddle step walks. (R226) -/
  | mma (e : Nat) (f : Frame)
  /-- Applies per-tensor scales to an FP32 view, feeds statistics and converts to the output format. (R228) -/
  | epi (e : Nat) (f : Frame)
  /-- Writes zero to every byte of a destination view extent. (R234) -/
  | vzero (e : Nat) (f : Frame)
  /-- Converts a source view into the destination format. (R234) -/
  | vcvt (e : Nat) (f : Frame)
  /-- Adds two vector sources elementwise. (R234) -/
  | vadd (e : Nat) (f : Frame)
  /-- Subtracts two vector sources elementwise. (R234) -/
  | vsub (e : Nat) (f : Frame)
  /-- Multiplies two vector sources elementwise. (R234) -/
  | vmul (e : Nat) (f : Frame)
  /-- Takes the elementwise minimum of two vector sources. (R234) -/
  | vmin (e : Nat) (f : Frame)
  /-- Takes the elementwise maximum of two vector sources. (R234) -/
  | vmax (e : Nat) (f : Frame)
  /-- Computes a fused multiply-add of three vector sources with one rounding. (R234) -/
  | vfma (e : Nat) (f : Frame)
  /-- Applies a unary function chosen by FN to a vector source. (R234) -/
  | vun (e : Nat) (f : Frame)
  /-- Reduces each row of a source view by sum, maximum, minimum or absolute maximum. (R234) -/
  | vred (e : Nat) (f : Frame)
  /-- Applies dropout to a vector source using the stream generator. (R106) -/
  | vdrop (e : Nat) (f : Frame)
  /-- Writes uniform random values from the stream generator. (R234) -/
  | vrand (e : Nat) (f : Frame)
  /-- Attaches and clears a statistics slot with an EBASE. (R235) -/
  | satt (e : Nat) (f : Frame)
  /-- Makes a statistics slot observe every element of a view. (R236) -/
  | sobs (e : Nat) (f : Frame)
  /-- Captures a statistics slot and starts its asynchronous 160-byte record write. (R238) -/
  | sst (e : Nat) (f : Frame)
  /-- Starts an asynchronous scaling history update from statistics records. (R239) -/
  | hupd (e : Nat) (f : Frame)
  /-- Tests a Bolt condition word into a predicate and skips the tile chain when false with SKIP set. (R242) -/
  | ttest (e : Nat) (f : Frame)
  /-- Queues a Shuttle router call that selects top-k experts per token under capacity. (R245) -/
  | route (e : Nat) (f : Frame)
  /-- Queues a Shuttle gather of one expert's token rows. (R248) -/
  | xgath (e : Nat) (f : Frame)
  /-- Queues a Shuttle scatter-combine of expert outputs for a token range. (R249) -/
  | xscat (e : Nat) (f : Frame)
  /-- Queues a Shuttle top-k gradient compression with residual update. (R250) -/
  | topk (e : Nat) (f : Frame)
  /-- Queues a Shuttle expansion of top-k records into a dense destination. (R251) -/
  | texp (e : Nat) (f : Frame)
  /-- Shuttle starts the next queued operation after the previous one completes. (R244) -/
  | shuttleOperationStart (c : Nat)
  /-- A Shuttle operation completes and performs its completion action once. (R243) -/
  | shuttleOperationComplete (c : Nat)
  /-- A prefetch leaves the engine queue for the fabric, reading its condition word and possibly releasing itself. (R144) -/
  | prefetchDequeue (e : Nat)
  /-- An asynchronous operation completes and its completion action adds to a context word. (R190) -/
  | asyncOperationComplete (id : Nat)
  /-- An error returns for a request of a context and is handled as a fault flagged ASYNC. (R180) -/
  | requestErrorReturn (arrive : Option (Nat × Nat × Nat × Nat × Nat))
  /-- The tile budget count reaches 2,000 ECLK without TEND and the tile is abandoned. (R157) -/
  | tileOverrun (e : Nat)
  /-- A requested switch takes place at a closed-tile boundary, clearing the scratchpad and attaching the incoming context. (R183) -/
  | contextSwitch (e : Nat) (inc : Option Nat)
  /-- Released Bolt granules finish clearing and CLEARING is cleared. (R260) -/
  | boltRegionClearDone (c i : Nat)
  /-- The Tally bank performs a granted READ in one slot. (R269) -/
  | tallyRead (h : Nat) (arrive : List (Nat × TOp)) (chk : Nat)
  /-- The Tally bank performs a granted ADD and wakes waiters on the word. (R269) -/
  | tallyAdd (h : Nat) (arrive : List (Nat × TOp)) (chk : Nat)
  /-- The Tally bank performs a granted SWAP, resolving collisions. (R269) -/
  | tallySwap (h : Nat) (arrive : List (Nat × TOp)) (chk : Nat)
  /-- The Tally bank performs a granted WRITE, counting a losing write in FW_COLLIDE. (R269) -/
  | tallyWrite (h : Nat) (arrive : List (Nat × TOp)) (chk : Nat)
  /-- The Tally bank raises a fence value to a maximum or counts a stale signal. (R269) -/
  | tallyMax (h : Nat) (arrive : List (Nat × TOp)) (chk : Nat)
  /-- The Tally bank places a fence in the error state with a code. (R269) -/
  | tallySeterr (h : Nat) (arrive : List (Nat × TOp)) (chk : Nat)
  /-- A request reaching a Bolt buffer or Tally in retention starts its wake. (R276) -/
  | memoryWakeRequest (tally : Bool) (i : Nat)
  /-- A retained memory finishes waking and serves the waiting request. (R276) -/
  | memoryWakeDone (tally : Bool) (i : Nat)
  /-- TAMPER_N low starts the overwrite of both Tally secure parts and the erasure of key slots. (R277) -/
  | tamperWipe
  /-- The secure-part wipe ends and WIPED and LOST are set. (R277) -/
  | tamperWipeDone
  /-- A read reaches a Selvage memory engine, which decodes, decrypts and verifies the line. (R292) -/
  | selvageRead (r : MemReq) (med : Med) (late : Bool)
  /-- A full-line write is encrypted under a fresh counter and tagged. (R292) -/
  | selvageFullWrite (r : MemReq) (data : Line) (med : Med)
  /-- A partial write reads, verifies, merges, re-encrypts and writes the line as one access. (R297) -/
  | selvagePartialWrite (r : MemReq) (mask : BitVec 128) (data : Line) (med : Med) (late : Bool)
  /-- A missing tree node arrives and is verified before entering the metadata cache. (R293) -/
  | metadataCacheFill (port sub lvl i keyid : Nat) (med : Med)
  /-- A minor overflow re-encrypts the whole group under a raised MAJOR before the pending write applies. (R301) -/
  | groupReencryption (r : MemReq) (mask : BitVec 128) (data : Line) (med : Med)
  /-- USES of a key identifier reaches the use budget and a rekey sweep to a spare starts, or OVER is set. (R307) -/
  | sweepStart (keyid : Nat)
  /-- A background agent re-encrypts the next group of a sweep from key A to key B. (R308) -/
  | sweepVisit (port : Nat) (med : Med)
  /-- A background agent returns every line of a retired identifier's window to the zero state and erases its key. (R312) -/
  | keyidRetirement (keyid port : Nat)
  /-- Every member port finishes retirement and the identifier moves to ABSENT. (R312) -/
  | keyidRetirementDone (keyid : Nat)
  /-- A hop-sealed line is opened by the receiving engine or discarded on failure. (R317) -/
  | hopSealOpen (k : Nat) (flip : BitVec 128)
  /-- The patrol scrub reads and decodes the next stored line every INTERVAL FCLK, writing back corrections. (R327) -/
  | scrubAccess (port : Nat) (med : Med)
  /-- A failing group is copied to a spare group and remapped. (R336) -/
  | groupRetirement (port : Nat) (med : Med)
  /-- A row-repair request for a retired group is presented on the port sideband. (R337) -/
  | rowRepairRequest (port : Nat)
  /-- The licensee answers a row-repair request with DONE or REFUSED. (R595) -/
  | rowRepairAnswer (port id : Nat) (refused : Bool)
  /-- A completion arrives on a memory sub-channel with data, a write response or an error. (R590) -/
  | memoryCompletion (port sub tag : Nat) (write err : Bool) (data : Beat)
  /-- MPm_READY falls after reset and counts as an MP_ERR level source. (R592) -/
  | mpReadyFall (port : Nat)
  /-- MPm_READY rises and the port may issue requests. (R591) -/
  | mpReadyRise (port : Nat)
  /-- A link frame arrives whole and is checked, dropped or gathered into its group. (R346) -/
  | linkFrameReceive (p : Nat) (bad : Bool) (bytes : List Byte)
  /-- A received group's GCM tag is checked, and the group is dropped or applied under its SEQ. (R352) -/
  | groupVerify (k : Nat)
  /-- The receiver sends an ACK with CUM and SACK bitmap after a group's writes complete. (R354) -/
  | ackSend (src lkey : Nat)
  /-- A verified ACK frees acknowledged groups and may trigger fast retransmission. (R354) -/
  | ackReceive (k : Nat)
  /-- A GET_RSP group is written into the requester's Bolt region or dropped for an old generation. (R362) -/
  | getRspReceive (k : Nat)
  /-- An ERR group completes the named operation with its code. (R357) -/
  | errReceive (k : Nat)
  /-- A sending link engine seals and transmits the next group when the stream window has room and a port is usable. (R350) -/
  | groupSend (dest lkey : Nat) (op : Option Nat)
  /-- The retransmission timeout of a group expires and it is retransmitted. (R355) -/
  | rtoExpiry (dest lkey seq : Nat)
  /-- LPi_UP falls or rises, aborting a frame in progress or allowing frames to start. (R598) -/
  | linkUpChange (p : Nat) (up : Bool)
  /-- A half-bridge transfer arrives and its CRC, SEQ and credit are checked. (R601) -/
  | bridgeTransferReceive (h : Nat) (flit : List Byte) (ctl chk : Word) (freed : Nat)
  /-- HBPh_D2D_ERR rises and raises the FABRIC source. (R601) -/
  | d2dErr (h : Nat)
  /-- A new 4,096-FCLK regulation window begins, clearing USED and installing changed budgets. (R377) -/
  | regulationWindow (h : Nat)
  /-- The slice manager checks and claims resources for a new slice and sets it ACTIVE. (R48) -/
  | build (path : Path) (n : Nat)
  /-- The slice manager alters a live slice's hosts, engines, link ports, contexts or guarantees. (R48) -/
  | change (path : Path) (n : Nat)
  /-- A removed engine is released after its handover at the next closed-tile boundary. (R48) -/
  | changeEngineRelease (e : Nat)
  /-- The slice manager tears down every context of a slice, drops its keys and frees it. (R48) -/
  | dissolve (path : Path) (n : Nat)
  /-- A dissolving slice finishes draining and reaches FREE, handing its window to retirement. (R48) -/
  | dissolveDrainDone (n : Nat)
  /-- Copies a slice descriptor into the staging registers. (R48) -/
  | readDesc (path : Path) (n : Nat)
  /-- Checks and writes a region table entry and invalidates cached region entries. (R48) -/
  | regionWrite (path : Path) (i : Nat)
  /-- Copies a region entry into the staging registers. (R48) -/
  | regionRead (path : Path) (i : Nat)
  /-- A write to HP_DOORBELLp delivers a new TAIL to a queue or is dropped. (R429) -/
  | queueDoorbell (p queue tail : Nat)
  /-- A write to HP_PRING_TAILp delivers a new port ring TAIL and restarts a pending fetch. (R429) -/
  | portRingDoorbell (p tail : Nat)
  /-- A port ring packet fetched from host memory arrives and is processed. (R436) -/
  | portRingFetch (p : Nat)
  /-- Lumust writes a queue's HEAD to HEAD_ADDR after it changes. (R430) -/
  | headWrite (q : Nat)
  /-- Queue NOP packet completes without effect. (R435) -/
  | warpNop (r : RingId) (ws : List Word)
  /-- Opens a batch step, possibly waiting for a gang, and opens the queue's rod. (R391) -/
  | stepOpen (r : RingId) (ws : List Word)
  /-- Every gang member is ready and placeable, and all their steps start together. (R392) -/
  | gangStart (q : Nat) (place : List Nat)
  /-- A gang fails to assemble within GANG_WAIT and every member fails. (R392) -/
  | gangTimeout (q : Nat)
  /-- Closes a batch step, updates beads, writes the close record and optionally signals a fence. (R412) -/
  | stepClose (r : RingId) (ws : List Word)
  /-- Launches a tile program on behalf of a context after checking its header. (R169) -/
  | launch (r : RingId) (ws : List Word)
  /-- Supplies the extra arguments of the preceding LAUNCH. (R435) -/
  | launchExt (r : RingId) (ws : List Word)
  /-- Applies MAX to a fence from a queue or port ring. (R435) -/
  | signal (r : RingId) (ws : List Word)
  /-- Holds a queue, or sets a host wait, until a fence reaches a value or errs. (R435) -/
  | wait (r : RingId) (ws : List Word)
  /-- A WAIT packet or host wait is released with 0 or the fence code. (R440) -/
  | waitRelease (r : RingId) (i : Nat)
  /-- Places a fence in the error state with a tenant code. (R435) -/
  | error (r : RingId) (ws : List Word)
  /-- Invalidates stage-1 translation entries of the context and waits for drain. (R435) -/
  | invalidate (r : RingId) (ws : List Word)
  /-- Creates, changes or removes a queue's rod. (R408) -/
  | rodConfig (r : RingId) (ws : List Word)
  /-- Allocates a bead within the slice quota and returns its index. (R409) -/
  | beadAlloc (r : RingId) (ws : List Word)
  /-- Replaces a bead's KV list, page count and MAXPOS. (R409) -/
  | beadUpdate (r : RingId) (ws : List Word)
  /-- Makes a bead DONE or requests its leave at the next close. (R409) -/
  | beadLeave (r : RingId) (ws : List Word)
  /-- Frees a DONE or ERROR bead. (R409) -/
  | beadFree (r : RingId) (ws : List Word)
  /-- Negotiates the agreed feature bitmap of a port ring. (R438) -/
  | features (r : RingId) (ws : List Word)
  /-- Creates a context with its roots, Tally allocation, stream key and fault fence. (R426) -/
  | ctxCreate (r : RingId) (ws : List Word)
  /-- Starts the teardown of a context. (R446) -/
  | ctxDestroy (r : RingId) (ws : List Word)
  /-- A tearing context's requests have drained, its resources are released and its generation rises. (R446) -/
  | teardownDrainDone (c : Nat)
  /-- A teardown has not finished in 80,000 PCLK and the escalation ladder climbs. (R448) -/
  | teardownTimeout (c : Nat)
  /-- Creates a queue for a context on the arriving host port. (R436) -/
  | qCreate (r : RingId) (ws : List Word)
  /-- Destroys a queue, discarding its unstarted packets. (R436) -/
  | qDestroy (r : RingId) (ws : List Word)
  /-- Clears the error state of a queue of a LIVE context. (R437) -/
  | qReset (r : RingId) (ws : List Word)
  /-- Allocates the lowest free fence in a half. (R436) -/
  | fenceAlloc (r : RingId) (ws : List Word)
  /-- Releases a fence, abandoning its outstanding waits. (R443) -/
  | fenceFree (r : RingId) (ws : List Word)
  /-- Returns a fence in the error state to LIVE. (R443) -/
  | fenceClear (r : RingId) (ws : List Word)
  /-- Records a range of a region for one context. (R427) -/
  | memObj (r : RingId) (ws : List Word)
  /-- Releases a memory object. (R436) -/
  | memFree (r : RingId) (ws : List Word)
  /-- An engine run's quantum expires and firmware may request a switch. (R396) -/
  | quantumExpiry (e : Nat)
  /-- A context state record is saved to its spill area before its Bolt region is released. (R403) -/
  | stateRecordSpill (ctx c need : Nat)
  /-- A context state record is read back from its spill area into a new Bolt region. (R403) -/
  | stateRecordFill (ctx c i base : Nat)
  /-- Reads, verifies and starts a firmware image on all eight processors. (R457) -/
  | load (path : Path) (port : Nat)
  /-- Reads and verifies a firmware image and keeps it staged. (R457) -/
  | stage (path : Path) (port : Nat)
  /-- Activates the staged image or defers activation during an emergency. (R460) -/
  | activate (path : Path)
  /-- Both emergency signals have been high for 10 ms and a deferred activation begins. (R460) -/
  | deferredActivationStart
  /-- Drops the staged firmware image. (R457) -/
  | discard (path : Path)
  /-- The last image byte arrives and verification of a LOAD or STAGE ends. (R458) -/
  | imageReadDone (img : List Byte)
  /-- A firmware processor's watchdog expires and the processor crashes. (R462) -/
  | fwWatchdogExpiry (k : Nat)
  /-- A firmware processor crashes on an illegal instruction or uncorrectable memory word and is restarted. (R462) -/
  | fwProcessorCrash (k : Nat)
  /-- A crashed processor's restart completes or fails, setting STATE FAILED. (R462) -/
  | fwRestartDone (k : Nat) (ok : Bool)
  /-- Unwraps an ECDH-wrapped key for an open slice, wraps and pushes it. (R480) -/
  | importKey (path : Path)
  /-- Draws a memory key from the DRBG for an open slice. (R480) -/
  | generate (path : Path)
  /-- Erases a link key, or a memory key not named by any region, handing it to retirement. (R480) -/
  | erase (path : Path)
  /-- Records an owner's public key hash and key sub-ranges. (R480) -/
  | ownerBind (path : Path)
  /-- Loads a piece of the certificate chain and checks it on LAST. (R482) -/
  | certLoad (path : Path)
  /-- Returns the DevID public key. (R480) -/
  | devidRead (path : Path)
  /-- Returns the PIK public key. (R480) -/
  | pikRead (path : Path)
  /-- The background scan checks key slot CHK every 2^20 FCLK. (R479) -/
  | slotScan (blob : Nat) (slotOk blobOk : Bool)
  /-- The CTR_DRBG reseeds after 2^20 generate requests. (R467) -/
  | drbgReseed
  /-- A continuous entropy health test fails and the DRBG stops generating. (R468) -/
  | entropyHealthFail
  /-- SPDM GET_VERSION request answered with version 1.3. (R483) -/
  | getVersion (p : Nat)
  /-- SPDM GET_CAPABILITIES request answered. (R483) -/
  | getCapabilities (p : Nat)
  /-- SPDM NEGOTIATE_ALGORITHMS request answered. (R483) -/
  | negotiateAlgorithms (p : Nat)
  /-- SPDM GET_DIGESTS for slot 0 answered. (R483) -/
  | getDigests (p : Nat)
  /-- SPDM GET_CERTIFICATE for slot 0 answered. (R483) -/
  | getCertificate (p : Nat)
  /-- SPDM CHALLENGE answered with a DevID signature. (R485) -/
  | spdmChallenge (p : Nat)
  /-- Returns signed measurement blocks, including slice reports. (R486) -/
  | getMeasurements (p : Nat) (sess : Option Nat) (body : List Byte)
  /-- Starts a secured SPDM session, up to 64. (R484) -/
  | keyExchange (p : Nat)
  /-- Completes a secured SPDM session handshake. (R483) -/
  | finish (p sess : Nat) (body : List Byte)
  /-- Binds a secured session to a slice owner and derives its bounce key. (R490) -/
  | bind (p sess : Nat) (body : List Byte)
  /-- Installs a tenant key within the owner's sub-range. (R489) -/
  | keyPut (p sess : Nat) (body : List Byte)
  /-- Erases a tenant key as ERASE does. (R489) -/
  | keyErase (p sess : Nat) (body : List Byte)
  /-- Computes PROGRAM_DIGEST over the slice's read-only regions. (R493) -/
  | measure (p sess : Nat) (body : List Byte)
  /-- Sets an owner's ACCEPTED when its digest matches PROGRAM_DIGEST. (R489) -/
  | accept (p sess : Nat) (body : List Byte)
  /-- Returns one page of a slice report detail table. (R488) -/
  | reportDetail (p sess : Nat) (body : List Byte)
  /-- Ends a secured session and erases its session key. (R484) -/
  | close (p sess : Nat) (body : List Byte)
  /-- A DIR 0 bounce command reads host ciphertext, verifies it and writes slice memory. (R497) -/
  | bounceH2d (p : Nat) (data : List Byte)
  /-- A DIR 1 bounce command verifies CMDTAG, encrypts slice memory and writes it to the host buffer. (R497) -/
  | bounceD2h (p : Nat)
  /-- A bounce command's last byte is written and its fence is signalled. (R497) -/
  | bounceComplete (p : Nat)
  /-- Programs the OTP word of a life-cycle transition for the next reset. (R507) -/
  | transition (path : Path) (target : Nat) (miss : Word)
  /-- Programs a new minimum firmware SVN into an OTP slot. (R510) -/
  | raiseSvn (path : Path) (miss : Word)
  /-- Draws a fresh debug challenge. (R512) -/
  | dgChallenge (path : Path)
  /-- Verifies authorisation, tears down confidential and joint slices and opens debug. (R513) -/
  | debugOpen (path : Path)
  /-- Teardown of confidential and joint slices ends and OPEN and SCOPE are set. (R513) -/
  | debugOpenComplete
  /-- An IEEE 1687 instrument access takes effect after its Update-DR. (R629) -/
  | jtagInstrumentAccess (t : Instrument) (write : Bool) (v : Word)
  /-- A JTAG instruction is selected at the TAP. (R628) -/
  | jtagInstruction (code : Nat)
  /-- An error line event is counted, classified and may apply its reaction. (R520) -/
  | errorEvent (ext : Option (Nat × Nat × Nat))
  /-- A W1C write to FC_STATUS clears bits, releasing SAFE holds and FAULT_N. (R528) -/
  | fcStatusClear (path : Path) (v : Word)
  /-- A write of 1 to FC_CTL.LOCK takes the collector lock. (R642) -/
  | fcLock (path : Path)
  /-- Arms check-bit inversion for the next COUNT accesses of a cluster target. (R530) -/
  | fcInjectArm (path : Path) (v : Word)
  /-- Resets one engine, tearing down its running context. (R534) -/
  | engineReset (path : Path) (e : Nat)
  /-- The reset engine reports idle. (R534) -/
  | engineResetDone (e : Nat)
  /-- An engine reset times out and a slice reset or warm reset follows. (R533) -/
  | engrstTo (e : Nat)
  /-- Empties a slice's contexts and engines without dissolving it. (R535) -/
  | sliceReset (path : Path) (n : Nat)
  /-- A slice reset's outstanding requests drain and the slice returns to ACTIVE or DEGRADED. (R535) -/
  | sliceResetDone (n : Nat)
  /-- A slice reset times out and a block warm reset follows. (R533) -/
  | slrstTo (n : Nat)
  /-- Runs the block warm reset phases from capture to units leaving reset. (R536) -/
  | warmReset (path : Path)
  /-- A warm reset does not reach phase 5 within 11 s and a power cycle follows. (R533) -/
  | warmResetTimeout
  /-- A memory port is not ready 10 s after phase 3 and is fenced. (R537) -/
  | mpReadyTimeout (m : Nat)
  /-- All wired ports are ready and units leave reset with slice 0 DIRECT. (R536) -/
  | resetUnitsLeave
  /-- Drives TRAY_PWR_REQ until BLK_COLD_N falls. (R538) -/
  | powerCycle (path : Path)
  /-- Resets and returns a fenced engine, cluster, link port or host port to service. (R526) -/
  | unfence (path : Path) (kind index : Nat)
  /-- Writes a sealed checkpoint record of the slice state at one step. (R552) -/
  | capture (path : Path) (n : Nat)
  /-- Computes the content digest of a partner copy and writes a replica statement. (R554) -/
  | replicate (path : Path) (n : Nat)
  /-- Checks a record against a replica statement and marks the checkpoint VERIFIED. (R555) -/
  | confirm (path : Path) (n : Nat)
  /-- Verifies tensors, record and statement and restores small state and STEP. (R555) -/
  | restore (path : Path) (n : Nat)
  /-- A checkpoint command's hashing reads complete and the command finishes. (R551) -/
  | checkpointHashDone
  /-- Writing CP_OKEYs installs the checkpoint base of an open slice. (R547) -/
  | cpOkeyWrite (path : Path) (n w : Nat) (v : Word)
  /-- The rising edge of BLK_COLD_N starts the cold reset phases. (R575) -/
  | blkColdNRise
  /-- BLK_COLD_N falls, abandoning any warm reset. (R576) -/
  | blkColdNFall
  /-- A falling edge of BLK_WARM_N of at least 2 SCLK starts a warm reset. (R576) -/
  | blkWarmNFall
  /-- THERM_EMRG_N falls or rises, counting events and scheduling a duty change. (R573) -/
  | thermEmrgNChange (high : Bool)
  /-- PWR_EMRG_N falls or rises, counting events and scheduling a duty change. (R573) -/
  | pwrEmrgNChange (high : Bool)
  /-- A new throttle duty takes effect at a frame boundary. (R573) -/
  | dutyChange
  /-- ROOTCLK becomes absent and the monitor latches CLOCK and drives FAULT_N low. (R563) -/
  | rootclkLoss
  /-- ROOTCLK leaves its range and raises the CLOCK source. (R563) -/
  | rootclkOutOfRange
  /-- Two low samples of TAMPER_N start the tamper reactions. (R626) -/
  | tamperNFall
  /-- A write to CK_OPP changes the divider of ECLK, FCLK and PCLK. (R564) -/
  | oppChange (path : Path) (v : Word)
  /-- The clocks restart phase-aligned under the new operating point. (R564) -/
  | oppChangeDone
  /-- Places the block in retention or sets REFUSED. (R568) -/
  | retainBlock (path : Path)
  /-- A host write, BLK_WARM_N or TAMPER_N wakes the block from retention. (R568) -/
  | blockWake
  /-- An engine's idle threshold expires and it moves to OFF. (R567) -/
  | engineIdleThreshold (e : Nat)
  /-- A cluster's idle threshold expires and it enters retention. (R567) -/
  | clusterRetThreshold (c : Nat)
  /-- A half's idle threshold expires, metadata caches are written back and it enters retention. (R567) -/
  | halfRetThreshold (h : Nat)
  /-- A start of an OFF engine is requested from the wake governor. (R569) -/
  | engineStartRequest (e : Nat)
  /-- The wake governor grants an engine start within its window limit. (R570) -/
  | wakeGrant (e : Nat)
  /-- A granted engine finishes power-up, soft start and clear and may issue. (R569) -/
  | engineStartDone (e : Nat)
  /-- An inbound SPACE 0x1 read of slice memory is checked and answered. (R612) -/
  | hostSliceRead (p slice tag addr len : Nat)
  /-- An inbound SPACE 0x1 write of slice memory is checked and performed. (R612) -/
  | hostSliceWrite (p slice tag addr : Nat) (data : List Byte)
  /-- A completion beat of an outbound host read arrives, possibly with a read error. (R610) -/
  | hostReadCompletion (p tag beat : Nat) (last err : Bool) (data : Line)
  /-- HPPp_RST falls and credit counts restart at their initial values. (R620) -/
  | hppRstFall (p : Nat)
  /-- A write setting HP_PRING_CTLp.EN from 0 to 1 resets HEAD and TAIL. (R431) -/
  | portRingEnable (p : Nat) (en : Bool) (sizeCode : Nat)
  /-- A write to SC_SLCFGs is applied unless quotas would be exceeded. (R420) -/
  | slcfgWrite (path : Path) (n : Nat) (v : Word)
  /-- A write to SV_WIDEm sets the wide span and recomputes the geometry when allowed. (R282) -/
  | svWideWrite (path : Path) (m : Nat) (v : Word)
  /-- Software writes a retirement table entry to restore a known-bad group. (R335) -/
  | svRetWrite (path : Path) (m i : Nat) (v : Word)
  /-- Setting SWEEP_EN rechecks identifiers that reached their budget. (R307) -/
  | sweepEnSet (path : Path)
  /-- A write to LK_ROUTEi is applied unless it duplicates a destination. (R363) -/
  | routeWrite (path : Path) (i w : Nat) (v : Word)
  /-- A write to a register with no behaviour of its own updates writable fields. (R638) -/
  | registerWrite (path : Path) (off : Nat) (v : Word)
  /-- An instruction with an unassigned opcode or a reserved FCLASS issues and raises ILLEGAL_INSTRUCTION against the running context. (R172) -/
  | illegalInstruction (e opcode : Nat)
  /-- An instruction fetch leaves the code range, or fails translation or X permission, and raises a fault before any instruction issues. (R176) -/
  | fetchRange (e : Nat)
  /-- The licensee pulses an outbound request or inbound completion credit on a host packet port, raising the held credits or raising HP_ERR on overflow. (R607) -/
  | hostCreditReturn (p : Nat) (cpl : Bool)
  /-- TAMPER_N returns high, so the TAMPER level source stops latching and a block reset held after phase 2 continues. (R626) -/
  | tamperNRise
  /-- ROOTCLK returns within its range, so the CLOCK source stops raising events and CK_RESET.CLK_OK reads 1. (R563) -/
  | rootclkInRange
  deriving DecidableEq, Repr

end Sys2Proof
end

