-- ==== Sys2Proof/Decode.lean ====
section
/-! DEFINITION. Reading commands from words: the table of operations and events gives no row any bits, so no word of it spells a command; a
128-bit Weft instruction (R171, R172) spells the command of the engine that issues it. -/
namespace Sys2Proof

/-- The command that a word of `nbits` bits spells. No row of the table has bits, so there is none. -/
def decodeTableWord (_nbits _w : Nat) : Option Instr := none

/-! ## The Weft instruction word (R171, R172) -/

/-- OPCODE of an instruction word. -/
def opcodeOf (w : BitVec 128) : Nat := (w.extractLsb' 120 8).toNat

/-- The rest of the frame: PNEG, PREG, FCLASS and OPERANDS. -/
def frameOf (w : BitVec 128) : Frame :=
  ⟨w.getLsbD 119, (w.extractLsb' 116 3).toNat, (w.extractLsb' 112 4).toNat, w.extractLsb' 0 112⟩

/-- The word of a frame with an opcode. -/
def frameWord (op : Nat) (f : Frame) : BitVec 128 :=
  BitVec.ofNat 8 op ++ (BitVec.ofBool f.pneg ++ (BitVec.ofNat 3 f.preg ++ (BitVec.ofNat 4 f.fclass ++ f.ops)))

/-- The instructions to which the reference chapters assign opcodes: control and tile structure (R199), movement (R201), synchronisation (R209),
links (R215). -/
def weftMove : List (Nat × (Nat → Frame → Instr)) :=
  [(0x00, .nop), (0x01, .tend), (0x02, .tlink), (0x03, .pend), (0x04, .br), (0x05, .tview), (0x06, .dsetw), (0x07, .dgetw), (0x08, .smov),
   (0x09, .sadd), (0x0A, .ssub), (0x0B, .smul), (0x0C, .sand), (0x0D, .sor), (0x0E, .sxor), (0x0F, .sshl), (0x10, .sshr), (0x11, .ssra),
   (0x12, .seq), (0x13, .sne), (0x14, .slt), (0x15, .sltu), (0x16, .sle), (0x17, .sleu), (0x18, .plog), (0x19, .rstep), (0x1A, .astep),
   (0x20, .ldb), (0x21, .stb), (0x22, .st), (0x23, .pref), (0x24, .push), (0x25, .gath), (0x26, .scat),
   (0x40, .twait), (0x41, .fwait), (0x42, .tld), (0x43, .tadd), (0x44, .tswap), (0x45, .fsig), (0x46, .ferr),
   (0x60, .lpost), (0x61, .lclose), (0x62, .lput), (0x63, .lputm), (0x64, .lred), (0x65, .lget)]

/-- The opcodes of compute, vector and routing instructions (R222). -/
def weftCompute : List (Nat × (Nat → Frame → Instr)) :=
  [(0x80, .mma), (0x81, .epi), (0xC0, .vzero), (0xC1, .vcvt), (0xC2, .vadd), (0xC3, .vsub), (0xC4, .vmul), (0xC5, .vmin), (0xC6, .vmax),
   (0xC7, .vfma), (0xC8, .vun), (0xC9, .vred), (0xCA, .vdrop), (0xCB, .vrand), (0xD0, .satt), (0xD1, .sobs), (0xD2, .sst), (0xD3, .hupd),
   (0xE0, .ttest), (0xE1, .route), (0xE2, .xgath), (0xE3, .xscat), (0xE4, .topk), (0xE5, .texp)]

/-- Every assigned opcode with its instruction. -/
def weftTable : List (Nat × (Nat → Frame → Instr)) := weftMove ++ weftCompute

/-- An opcode to which the reference chapters assign an instruction. -/
def opcodeAssigned (o : Nat) : Bool := weftTable.any fun r => r.1 = o

/-- The command that engine `e` performs when it issues the instruction word `w`: that of its opcode; none where the opcode has no instruction,
and ILLEGAL_INSTRUCTION is raised (R172). -/
def decodeWeft (e : Nat) (w : BitVec 128) : Option Instr :=
  (weftTable.find? fun r => r.1 = opcodeOf w).map fun r => r.2 e (frameOf w)

end Sys2Proof
end

