-- ==== Sys2Proof/Machine/Maps.lean ====
section
/-! DEFINITION. Sparse tables: association lists in one canonical form (keys strictly rising, no entry equal to
what an unlisted key reads as), so that equal tables are equal data. On-chip and licensee memories, register
arrays and the per-unit records of the block are held this way. -/
namespace Sys2Proof.Machine

/-- What key `k` of a table reads as; `d` where it is unlisted. -/
def mget (d : α) : List (Nat × α) → Nat → α
  | [], _ => d
  | (a, v) :: t, k => if a = k then v else mget d t k

/-- The table without key `k`. -/
def mdel : List (Nat × α) → Nat → List (Nat × α)
  | [], _ => []
  | (a, v) :: t, k => if a = k then mdel t k else (a, v) :: mdel t k

/-- The table with an entry for `k` put in its place by key. -/
def minsert : List (Nat × α) → Nat → α → List (Nat × α)
  | [], k, v => [(k, v)]
  | (a, w) :: t, k, v =>
    if k < a then (k, v) :: (a, w) :: t
    else if a = k then (k, v) :: t
    else (a, w) :: minsert t k v

/-- Write `v` at key `k`; writing what an unlisted key reads as removes the entry. -/
def mset [DecidableEq α] (d : α) (m : List (Nat × α)) (k : Nat) (v : α) : List (Nat × α) :=
  if v = d then mdel m k else minsert m k v

/-- Update key `k` by `f`. -/
def mmod [DecidableEq α] (d : α) (m : List (Nat × α)) (k : Nat) (f : α → α) : List (Nat × α) :=
  mset d m k (f (mget d m k))

/-- Every key of a list lies above `k`. -/
def mabove (k : Nat) : List (Nat × α) → Bool
  | [] => true
  | (a, _) :: t => k < a && mabove k t

/-- The canonical form: keys strictly rising, no entry equal to the default. -/
def mwf [DecidableEq α] (d : α) : List (Nat × α) → Bool
  | [] => true
  | (a, v) :: t => mabove a t && v ≠ d && mwf d t

/-- A plain table (its values never compared with a default): keep the entries whose value passes. -/
def mfilter (p : Nat → α → Bool) (m : List (Nat × α)) : List (Nat × α) := m.filter fun e => p e.1 e.2

/-- The least key of an entry that passes. -/
def mfind (p : Nat → α → Bool) (m : List (Nat × α)) : Option Nat := (m.find? fun e => p e.1 e.2).map (·.1)

/-- `xs` with the element at `i` changed by `f` (nothing where the list is shorter). -/
def lmod (xs : List α) (i : Nat) (f : α → α) : List α :=
  match xs, i with
  | [], _ => []
  | x :: t, 0 => f x :: t
  | x :: t, n + 1 => x :: lmod t n f

/-! ## Byte memories: unlisted bytes read as zero -/

/-- One byte of a memory. -/
abbrev bget (m : List (Nat × Byte)) (a : Nat) : Byte := mget 0 m a

/-- Write one byte. -/
abbrev bset (m : List (Nat × Byte)) (a : Nat) (b : Byte) : List (Nat × Byte) := mset 0 m a b

/-- `n` bytes from `a`. -/
def bread (m : List (Nat × Byte)) (a n : Nat) : List Byte := (List.range n).map fun i => bget m (a + i)

/-- Write bytes from `a` up. -/
def bwrite (m : List (Nat × Byte)) (a : Nat) : List Byte → List (Nat × Byte)
  | [] => m
  | b :: t => bwrite (bset m a b) (a + 1) t

/-- Write the bytes whose mask bit is set, from `a` up. -/
def bwriteMask (m : List (Nat × Byte)) (a : Nat) : List (Option Byte) → List (Nat × Byte)
  | [] => m
  | none :: t => bwriteMask m (a + 1) t
  | some b :: t => bwriteMask (bset m a b) (a + 1) t

/-- Drop every byte in `[a, a+n)`: they read as zero. -/
def bclear (m : List (Nat × Byte)) (a n : Nat) : List (Nat × Byte) :=
  m.filter fun e => !(a ≤ e.1 && e.1 < a + n)

/-- The little-endian number in `n` bytes from `a`. -/
def bnat (m : List (Nat × Byte)) (a n : Nat) : Nat := natOfBytes (bread m a n)

/-! ## Sets of numbers: strictly rising lists -/

/-- Membership. -/
def smem (s : List Nat) (k : Nat) : Bool := s.contains k

/-- Insert into a rising list. -/
def sins : List Nat → Nat → List Nat
  | [], k => [k]
  | a :: t, k => if k < a then k :: a :: t else if a = k then a :: t else a :: sins t k

/-- Remove. -/
def sdel (s : List Nat) (k : Nat) : List Nat := s.filter (· ≠ k)

/-- Remove the elements in `[a, a+n)`. -/
def sclear (s : List Nat) (a n : Nat) : List Nat := s.filter fun k => !(a ≤ k && k < a + n)

end Sys2Proof.Machine
end

