-- ==== Sys2Proof/Machine/Operands.lean ====
section
/-! DEFINITION. Operand forms: the instruction frame and its register slots (R171, R173, R174), format and sparsity codes
(R74, R108, R112), tensor views (R160, R161), tensor and link descriptors and windows (R194 to R197), Tally references
(R187) and Shuttle addresses (R240). -/
namespace Sys2Proof.Machine

/-! ## The frame -/

/-- A register slot: file (0 s, 1 d, 2 p, 3 t) and number (R173). -/
def slotOf (f : Frame) (i : Nat) : Nat × Nat :=
  let v := field f.ops (105 - 7 * i) 7
  (v / 32, v % 32)

/-- Slot `i` as the seven bits it is. -/
def slotBits (f : Frame) (i : Nat) : Nat := field f.ops (105 - 7 * i) 7

/-- Bits [83:0] of the frame. -/
def lowBits (f : Frame) : BitVec 84 := f.ops.setWidth 84

/-- A field of bits [83:0]. -/
def lowField (f : Frame) (lo n : Nat) : Nat := field f.ops lo n

/-- The 64-bit immediate of class R and S instructions, and OFF of class B. -/
def imm64 (f : Frame) : Word := f.ops.setWidth 64

/-- What a slot may name (R174). -/
inductive SlotKind where
  | zero | s | d | p | t | st | td
  deriving DecidableEq, Repr

/-- A slot that names a register of an accepted file and a number its file has, or is zero where it must be (R174). -/
def slotLegal (f : Frame) (i : Nat) : SlotKind → Bool
  | .zero => slotBits f i = 0
  | .s => (slotOf f i).1 = 0
  | .d => (slotOf f i).1 = 1 && (slotOf f i).2 < 16
  | .p => (slotOf f i).1 = 2 && (slotOf f i).2 < 8
  | .t => (slotOf f i).1 = 3 && (slotOf f i).2 < 16
  | .st => (slotOf f i).1 = 0 || ((slotOf f i).1 = 3 && (slotOf f i).2 < 16)
  | .td => ((slotOf f i).1 = 3 || (slotOf f i).1 = 1) && (slotOf f i).2 < 16

/-- Bits set from `lo`, `n` of them. -/
def maskOf (fs : List (Nat × Nat)) : Nat := fs.foldl (fun a x => a ||| ((2 ^ x.2 - 1) * 2 ^ x.1)) 0

/-- The frame conditions of R174: the class, the four slots, and zero in every bit of [83:0] outside the fields. -/
def frameLegal (f : Frame) (fclass : Nat) (slots : List SlotKind) (fields : List (Nat × Nat)) : Bool :=
  f.fclass = fclass && slotLegal f 0 (slots.getD 0 .zero) && slotLegal f 1 (slots.getD 1 .zero) &&
  slotLegal f 2 (slots.getD 2 .zero) && slotLegal f 3 (slots.getD 3 .zero) &&
  (lowBits f).toNat &&& maskOf fields = (lowBits f).toNat

/-- The completion field CA and slot 3 (R189): CA is 0b00 with slot 3 zero, or 0b01. -/
def caLegal (f : Frame) : Bool :=
  (lowField f 82 2 = 0 && slotBits f 3 = 0) || lowField f 82 2 = 1

/-! ## Formats (R74, R78, R108, R112) -/

/-- Element width in bits; 0 for a reserved code. -/
def fmtWidth (c : Nat) : Nat :=
  match c with
  | 0 => 32
  | 1 | 2 => 16
  | 3 | 4 | 5 | 6 | 7 | 11 => 8
  | 8 | 9 => 6
  | 10 => 4
  | _ => 0

/-- The MX formats. -/
def isMx (c : Nat) : Bool := 6 ≤ c && c ≤ 11
/-- A format code that is not reserved. -/
def fmtLegal (c : Nat) : Bool := c ≤ 11
/-- A sparsity code that is not reserved (R108). -/
def spcLegal (c : Nat) : Bool := c ≤ 5
/-- Structured N:M forms. -/
def isNM (c : Nat) : Bool := 1 ≤ c && c ≤ 4

/-- N and log2 M of a structured form (R108). -/
def nmOf (c : Nat) : Nat × Nat :=
  match c with
  | 1 => (2, 2)
  | 2 => (1, 2)
  | 3 => (2, 3)
  | _ => (4, 4)

/-- Kept elements of a structured block (R108). -/
def nmKept (c : Nat) : Nat := 128 / 2 ^ (nmOf c).2 * (nmOf c).1

/-- Round up to a multiple of `k`. -/
def roundUp (n k : Nat) : Nat := ceilDiv n k * k

/-- The block stride of a structured form (R112). -/
def nmStride (c width : Nat) : Nat := 16 + roundUp (ceilDiv (nmKept c * width) 8) 16

/-! ## Views (R160, R161) -/

/-- A tensor view. -/
structure View where
  valid : Bool
  fmt : Nat
  spc : Nat
  rows : Nat
  cols : Nat
  pitch : Nat
  base : Nat
  deriving DecidableEq, Repr

/-- The fields of a view word; rows and columns are the counts. -/
def viewOf (w : Word) : View :=
  { valid := bit w 63, fmt := field w 59 4, spc := field w 56 3, rows := field w 43 13 + 1, cols := field w 30 13 + 1,
    pitch := field w 20 10, base := field w 0 20 }

/-- Bytes of a view's extent. -/
def View.extent (v : View) : Nat := v.rows * v.pitch * 64

/-- Extents of two views overlap. -/
def View.overlaps (a b : View) : Bool := a.base < b.base + b.extent && b.base < a.base + a.extent

/-- The fault of a view that breaks R161, R75 or R109: 1 ILLEGAL_INSTRUCTION, 5 VIEW_RANGE. `scale` reads it as a scale
view (R225). -/
def viewFault (v : View) (scale : Bool) : Option Nat :=
  if !v.valid then some 5
  else if !scale && (!fmtLegal v.fmt || !spcLegal v.spc) then some 1
  else if v.pitch = 0 || v.base % 64 ≠ 0 || 1048576 < v.base + v.extent then some 5
  else if (scale || v.spc = 0) && v.pitch * 512 < v.cols * (if scale then 8 else fmtWidth v.fmt) then some 5
  else none

/-- Start of row `r` of a view. -/
def View.row (v : View) (r : Nat) : Nat := v.base + 64 * v.pitch * r

/-! ## Tensor descriptors and windows (R194 to R196) -/

/-- A tensor descriptor. -/
structure Tensor where
  spc : Nat
  fmt : Nat
  base : Nat
  rows : Nat
  cols : Nat
  pitch : Nat
  aux : Nat
  spitch : Nat
  scale : Nat
  deriving DecidableEq, Repr

/-- Word `w` of a descriptor register. -/
def descWord (d : BitVec 256) (w : Nat) : Word := BitVec.ofNat 64 (d.toNat / 2 ^ (64 * w))

/-- The fields of a tensor descriptor. -/
def tensorOf (d : BitVec 256) : Tensor :=
  { spc := field d 56 3, fmt := field d 52 4, base := field d 0 52, rows := field d 108 20 + 1, cols := field d 88 20 + 1,
    pitch := field d 128 40, aux := field d 128 52, spitch := field d 244 12, scale := field d 192 52 }

/-- A descriptor that meets R195. -/
def tensorLegal (d : BitVec 256) : Bool :=
  let t := tensorOf d
  let w := fmtWidth t.fmt
  field d 62 2 = 0 && field d 59 3 = 0 && field d 64 24 = 0 && fmtLegal t.fmt && spcLegal t.spc &&
  (if t.spc = 5 then field d 180 12 = 0 else field d 168 24 = 0) &&
  t.base % 16 = 0 &&
  (if t.spc = 5 then t.aux % 4 = 0 else t.pitch % 16 = 0) &&
  (isMx t.fmt || field d 192 64 = 0) &&
  (t.spc ≠ 0 || t.cols * w ≤ 8 * t.pitch) &&
  (!isNM t.spc || ceilDiv t.cols 128 * nmStride t.spc w ≤ t.pitch) &&
  (!isMx t.fmt || (t.cols % 32 = 0 && t.cols / 32 ≤ 16 * t.spitch)) &&
  (w ≠ 6 || t.cols % 32 = 0) && (w ≠ 4 || t.cols % 2 = 0)

/-- A window: origin and size in rows and columns. -/
structure Win where
  row0 : Nat
  col0 : Nat
  rows : Nat
  cols : Nat
  deriving DecidableEq, Repr

/-- The window of an origin register and NROWS_M1, NCOLS_M1. -/
def winOf (origin : Word) (nrows ncols : Nat) : Win := ⟨field origin 32 32, field origin 0 32, nrows, ncols⟩

/-- A window that meets R196. -/
def winLegal (t : Tensor) (w : Win) : Bool :=
  w.row0 + w.rows ≤ t.rows && w.col0 + w.cols ≤ t.cols &&
  (!isMx t.fmt || (w.col0 % 32 = 0 && w.cols % 32 = 0)) &&
  (fmtWidth t.fmt ≠ 4 || (w.col0 % 2 = 0 && w.cols % 2 = 0)) &&
  (!isNM t.spc || (w.col0 % 128 = 0 && (w.cols % 128 = 0 || w.col0 + w.cols = t.cols))) &&
  (t.spc ≠ 5 || (w.col0 = 0 && w.cols = t.cols))

/-- Bytes that row part occupies in memory: dense or N:M (R198), unpadded. -/
def winRowBytes (t : Tensor) (w : Win) : Nat :=
  if isNM t.spc then ceilDiv w.cols 128 * nmStride t.spc (fmtWidth t.fmt) else ceilDiv (w.cols * fmtWidth t.fmt) 8

/-- The address in memory of row `r` of a window (R194). -/
def winRowAddr (t : Tensor) (w : Win) (r : Nat) : Nat :=
  t.base + (w.row0 + r) * t.pitch +
    (if isNM t.spc then w.col0 / 128 * nmStride t.spc (fmtWidth t.fmt) else w.col0 * fmtWidth t.fmt / 8)

/-- The address of row `r` of a window's scales (R194, R198). -/
def winScaleAddr (t : Tensor) (w : Win) (r : Nat) : Nat := t.scale + (w.row0 + r) * (16 * t.spitch) + w.col0 / 32

/-! ## Link descriptors (R197) -/

/-- A link descriptor. -/
structure LinkDesc where
  roff : Nat
  lkey : Nat
  rwin : Nat
  dest : Nat
  deriving DecidableEq, Repr

/-- The fields of a link descriptor. -/
def linkOf (d : BitVec 256) : LinkDesc :=
  { roff := field d 0 52, lkey := field d 92 8, rwin := field d 80 12, dest := field d 64 16 }

/-- A link descriptor with DKIND 0b01 and zero in every reserved field. -/
def linkLegal (d : BitVec 256) : Bool :=
  field d 62 2 = 1 && field d 52 10 = 0 && field d 100 28 = 0 && field d 128 128 = 0

/-! ## Shuttle addresses (R240) -/

/-- A place that a Shuttle address names: a Bolt offset or a context virtual address. -/
inductive ShAddr where
  | bolt (off : Nat)
  | va (a : Nat)
  deriving DecidableEq, Repr

/-- A Shuttle address; none where a bit that must be zero is set. -/
def shAddr (w : Word) : Option ShAddr :=
  if bit w 63 then (if field w 23 40 = 0 then some (.bolt (field w 0 23)) else none)
  else if field w 52 11 = 0 then some (.va (field w 0 52)) else none

end Sys2Proof.Machine
end

