-- ==== Sys2Proof/Machine/Bits.lean ====
section
/-! DEFINITION. Fixed computations on bits that the rules give or name: GF(16) of the symbol code (R321),
GF(2^128) of SP 800-38D (R292), CRC-32C, Philox4x32-10 (R104), and AES-GCM, HMAC and the key derivation built on
AES-256 and SHA-384 by their standards. -/
namespace Sys2Proof.Machine

/-! ## GF(16), polynomial x^4 + x + 1 (R321) -/

/-- Multiply by α. -/
def gfDouble (a : Nat) : Nat := if a < 8 then 2 * a else (2 * a) % 16 ^^^ 3

/-- Product in GF(16). -/
def gfMul (a b : Nat) : Nat :=
  (if b % 2 = 1 then a else 0) ^^^ (if b / 2 % 2 = 1 then gfDouble a else 0) ^^^
  (if b / 4 % 2 = 1 then gfDouble (gfDouble a) else 0) ^^^
  (if b / 8 % 2 = 1 then gfDouble (gfDouble (gfDouble a)) else 0)

/-- Inverse in GF(16): a^14. -/
def gfInv (a : Nat) : Nat :=
  let a2 := gfMul a a; let a4 := gfMul a2 a2; let a8 := gfMul a4 a4
  gfMul a8 (gfMul a4 a2)

/-- Quotient in GF(16). -/
def gfDiv (a b : Nat) : Nat := gfMul a (gfInv b)

/-! ## GF(2^128) of SP 800-38D: bit 127 of the vector is the most significant bit of byte 0 (R291) -/

/-- Multiply by x: a right shift of the vector with reduction by 0xE1. -/
def ghShift (v : BitVec 128) : BitVec 128 :=
  if v.getLsbD 0 then (v >>> 1) ^^^ (BitVec.ofNat 128 (0xE1 <<< 120)) else v >>> 1

/-- The product loop of SP 800-38D over the bits of `x` from bit `n - 1` down. -/
def ghLoop : Nat → BitVec 128 → BitVec 128 → BitVec 128 → BitVec 128
  | 0, _, _, z => z
  | n + 1, x, v, z => ghLoop n x (ghShift v) (if x.getLsbD n then z ^^^ v else z)

/-- Product in GF(2^128). -/
def ghMul (x y : BitVec 128) : BitVec 128 := ghLoop 128 x y 0

/-- The polynomial N[0]·H^n xor … xor N[n-1]·H over a list of blocks (R292, R293). -/
def ghPoly (h : BitVec 128) (blocks : List (BitVec 128)) : BitVec 128 :=
  blocks.foldl (fun y x => ghMul (y ^^^ x) h) 0

/-- The 16-byte block `j` of a byte string as a vector, byte 0 most significant (R291). -/
def blockOfBytes (bs : List Byte) : BitVec 128 :=
  BitVec.ofNat 128 ((takeBytes 16 bs).foldl (fun a b => 256 * a + b.toNat) 0)

/-- The bytes of a block, byte 0 from bits 127 to 120. -/
def bytesOfBlock (v : BitVec 128) : List Byte :=
  (List.range 16).map fun i => BitVec.ofNat 8 (v.toNat >>> (120 - 8 * i))

/-- A byte string cut into 16-byte blocks, the last zero-padded. -/
def blocksOf : Nat → List Byte → List (BitVec 128)
  | 0, _ => []
  | n + 1, bs => if bs = [] then [] else blockOfBytes bs :: blocksOf n (bs.drop 16)

/-- Byte string xor. -/
def xorBytes (a b : List Byte) : List Byte := List.zipWith (· ^^^ ·) a b

/-- The AES-256 counter keystream of `n` blocks from counter block `j0` (SP 800-38D inc32). -/
def ctrStream (k : Key) (j0 : BitVec 128) (n : Nat) : List Byte :=
  (List.range n).flatMap fun i =>
    bytesOfBlock (Config.aes256 k
      (BitVec.ofNat 128 (j0.toNat / 2 ^ 32 * 2 ^ 32 + (j0.toNat % 2 ^ 32 + 1 + i) % 2 ^ 32)))

/-- The pre-counter block of a 96-bit nonce. -/
def gcmJ0 (nonce : BitVec 96) : BitVec 128 := BitVec.ofNat 128 (nonce.toNat * 2 ^ 32 + 1)

/-- The GCM tag of a ciphertext under a key, nonce and additional data (SP 800-38D). -/
def gcmTag (k : Key) (nonce : BitVec 96) (aad ct : List Byte) : BitVec 128 :=
  let h := Config.aes256 k 0
  let lens := BitVec.ofNat 128 (8 * aad.length * 2 ^ 64 + 8 * ct.length)
  ghPoly h (blocksOf (aad.length + 1) aad ++ blocksOf (ct.length + 1) ct ++ [lens]) ^^^
    Config.aes256 k (gcmJ0 nonce)

/-- AES-256-GCM sealing: ciphertext and tag. -/
def gcmSeal (k : Key) (nonce : BitVec 96) (aad pt : List Byte) : List Byte × BitVec 128 :=
  let ct := xorBytes pt (ctrStream k (gcmJ0 nonce) (ceilDiv pt.length 16))
  (ct, gcmTag k nonce aad ct)

/-- AES-256-GCM opening: none when the tag does not verify. -/
def gcmOpen (k : Key) (nonce : BitVec 96) (aad ct : List Byte) (tag : BitVec 128) : Option (List Byte) :=
  if gcmTag k nonce aad ct = tag then some (xorBytes ct (ctrStream k (gcmJ0 nonce) (ceilDiv ct.length 16)))
  else none

/-! ## SHA-384 constructions -/

/-- The bytes of a vector, most significant first. -/
def beBytes (n : Nat) (w : BitVec k) : List Byte :=
  (List.range n).map fun i => BitVec.ofNat 8 (w.toNat >>> (8 * (n - 1 - i)))

/-- The number of a big-endian byte string. -/
def natOfBe (bs : List Byte) : Nat := bs.foldl (fun a b => 256 * a + b.toNat) 0

/-- HMAC-SHA-384 (FIPS 198-1), for keys of at most 128 bytes. -/
def hmac384 (key msg : List Byte) : Digest :=
  let k := takeBytes 128 key
  Config.sha384 (k.map (· ^^^ 0x5C) ++ beBytes 48 (Config.sha384 (k.map (· ^^^ 0x36) ++ msg)))

/-- The key derivation in counter mode with HMAC-SHA-384 (SP 800-108), `bits` output bits of at most 384. -/
def kdf384 (key label context : List Byte) (bits : Nat) : List Byte :=
  (beBytes 48 (hmac384 key (beBytes 4 (1 : BitVec 32) ++ label ++ [0] ++ context ++
    beBytes 4 (BitVec.ofNat 32 bits)))).take (bits / 8)

/-- A 256-bit key from its first 32 big-endian bytes. -/
def keyOfBytes (bs : List Byte) : Key := BitVec.ofNat 256 (natOfBe (takeBytes 32 bs))

/-! ## CRC-32C (reflected polynomial 0x82F63B78) -/

/-- Eight shift steps of the reflected CRC. -/
def crcSteps : Nat → BitVec 32 → BitVec 32
  | 0, c => c
  | n + 1, c => crcSteps n (if c.getLsbD 0 then (c >>> 1) ^^^ 0x82F63B78 else c >>> 1)

/-- CRC-32C of a byte string: initial value and final complement all ones. -/
def crc32c (bs : List Byte) : BitVec 32 :=
  (bs.foldl (fun c b => crcSteps 8 (c ^^^ b.setWidth 32)) 0xFFFFFFFF) ^^^ 0xFFFFFFFF

/-! ## Philox4x32-10 (R104) -/

/-- High and low halves of a 32 by 32 product. -/
def mulHiLo (a b : BitVec 32) : BitVec 32 × BitVec 32 :=
  (BitVec.ofNat 32 (a.toNat * b.toNat / 2 ^ 32), BitVec.ofNat 32 (a.toNat * b.toNat))

/-- The four words of a Philox counter or output. -/
abbrev Quad := BitVec 32 × BitVec 32 × BitVec 32 × BitVec 32

/-- One round of Philox4x32. -/
def philoxRound (c : Quad) (k0 k1 : BitVec 32) : Quad :=
  let (hi0, lo0) := mulHiLo 0xD2511F53 c.1
  let (hi1, lo1) := mulHiLo 0xCD9E8D57 c.2.2.1
  (hi1 ^^^ c.2.1 ^^^ k0, lo1, hi0 ^^^ c.2.2.2 ^^^ k1, lo0)

/-- `n` rounds with the Weyl key schedule. -/
def philoxRounds : Nat → Quad → BitVec 32 → BitVec 32 → Quad
  | 0, c, _, _ => c
  | n + 1, c, k0, k1 => philoxRounds n (philoxRound c k0 k1) (k0 + 0x9E3779B9) (k1 + 0xBB67AE85)

/-- Philox4x32-10 of a counter under a 64-bit key. -/
def philox (c : Quad) (key : Word) : Quad :=
  philoxRounds 10 c (key.setWidth 32) ((key >>> 32).setWidth 32)

/-- Word `i` of a Philox output. -/
def quadWord (q : Quad) (i : Nat) : BitVec 32 :=
  match i % 4 with
  | 0 => q.1
  | 1 => q.2.1
  | 2 => q.2.2.1
  | _ => q.2.2.2

end Sys2Proof.Machine
end

