-- ==== Sys2Proof/Machine/State.lean ====
section
/-! DEFINITION. The state of the block as plain data: every register, memory, queue, counter, mode and pin the rules
give it, in sub-structures by unit; the faults and refusals a command can stop with; and the state after reset. -/
namespace Sys2Proof.Machine

/-! ## Regions (02) -/

/-- A region entry (R59). -/
structure Region where
  secure : Bool
  slice : Nat
  owner : Nat
  wide : Bool
  wr : Bool
  host : Bool
  xlink : Bool
  keyid : Nat
  base : Nat
  size : Nat
  deriving DecidableEq, Repr, Inhabited

/-! ## Memory ports and their Selvage memory engines (09, 10, 21) -/

/-- One line of a metadata cache (R294): sub-channel, line address, KEYID of its last use; which of its two 64-byte
halves are held and which are dirty. A tag line holds both halves. -/
structure CLine where
  sub : Nat
  line : Nat
  keyid : Nat
  v0 : Bool
  v1 : Bool
  dirty0 : Bool
  dirty1 : Bool
  data : Line
  deriving DecidableEq, Repr, Inhabited

/-- SV_SWEEPm (R310), and the sub-channel position within NEXT; HELD is computed. -/
structure Sweep where
  active : Bool
  src : Nat
  dst : Nat
  next : Nat
  nextSub : Nat
  /-- Groups visited early by a write (R308), as 4·group + sub-channel. -/
  early : List Nat
  /-- The region entries rewritten from A to B when it started: the affected regions (R307, R308). -/
  rgns : List Nat
  deriving DecidableEq, Repr, Inhabited

/-- SV_HISTm_j (R329). -/
structure Hist where
  sub : Nat
  group : Nat
  count : Nat
  lastSym : Nat
  ue : Bool
  deriving DecidableEq, Repr, Inhabited

/-- SV_RETm_i (R334). -/
structure RetEnt where
  valid : Bool
  dead : Bool
  rowreq : Bool
  frm : Nat
  deriving DecidableEq, Repr, Inhabited

/-- A row-repair request (R337, R594): identifier, sub-channel, group, LASTSYM, table entry. -/
structure RowRep where
  id : Nat
  sub : Nat
  group : Nat
  sym : Nat
  entry : Nat
  deriving DecidableEq, Repr, Inhabited

/-- An access that waits for its medium read (R28): a read, or a partial write with its merge. -/
inductive Waiting where
  | read (r : MemReq)
  | partialWrite (r : MemReq) (mask : BitVec 128) (data : Line)
  deriving DecidableEq, Repr, Inhabited

/-- An outstanding tag of a sub-channel (R586): tag bits [9:0], the line on the port (after the remap), a write's beat
and the beat it replaced, whether it was reissued, the requester, the access that waits on a read, and the region entry
under which that access was translated (R70). -/
structure Tag where
  sub : Nat
  num : Nat
  line : Nat
  write : Bool
  beat : Beat
  old : Beat
  retried : Bool
  attr : Attr
  wait : Option Waiting
  rgn : Option Region
  deriving DecidableEq, Repr, Inhabited

/-- Where the patrol scrub stands (R326, R327). -/
structure Scrub where
  sub : Nat
  line : Nat
  passes : Nat
  interval : Nat
  /-- The accesses still due in the group being walked, as `(local line, metadata)`. -/
  todo : List (Nat × Bool)
  /-- The next group to enter once `todo` is empty. -/
  group : Nat
  /-- The nodes of levels 1 to 3 already scrubbed in this walk of the sub-channel, as (level, index). -/
  entered : List (Nat × Nat)
  deriving DecidableEq, Repr, Inhabited

/-- A memory port. -/
structure MemPort where
  /-- SV_WIDEm (R282). -/
  wideSize : Nat
  wideBase : Nat
  /-- SV_STATm (R319). -/
  lost : Bool
  treefail : Nat
  tagfail : Nat
  reenc : Nat
  /-- The sweeps at the port, oldest first: SV_SWEEPm shows the first. Each belongs to a slice of its own (R309). -/
  sweeps : List Sweep
  scrub : Scrub
  /-- SV_HISTm_j by j. -/
  hist : List (Nat × Hist)
  /-- SV_MEDPOLm (R331). -/
  ceLimit : Nat
  auto : Bool
  /-- SV_MEDCNTm (R332); SPARE_LEFT is computed. -/
  ce : Nat
  ue : Nat
  histLost : Nat
  rowRefused : Nat
  /-- SV_RETm_i by i. -/
  ret : List (Nat × RetEnt)
  /-- Groups whose retirement is due (R333), as `(sub-channel, group, LASTSYM, SPARE_OUT was raised for it)`. -/
  retireQ : List (Nat × Nat × Nat × Bool)
  /-- Row-repair requests outstanding and waiting (R337). -/
  rrOut : List RowRep
  rrWait : List RowRep
  /-- MPm_READY (R591) and SV_PORTm counts (R593). -/
  ready : Bool
  errRsp : Nat
  badCpl : Nat
  retry : Nat
  /-- The metadata cache, most recently used first. -/
  cache : List CLine
  /-- Outstanding tags (R586). -/
  tags : List Tag
  /-- Tags that were outstanding when their sub-channel was fenced: sub-channel, number, write (R604). -/
  left : List (Nat × Nat × Bool)
  deriving DecidableEq, Repr, Inhabited

/-- A memory port after a block reset, its reset values those of R326, R331 and R593; READY is the pin. -/
def MemPort.reset : MemPort :=
  { wideSize := 0, wideBase := 0, lost := false, treefail := 0, tagfail := 0, reenc := 0,
    sweeps := [], scrub := ⟨0, 0, 0, 0x40, [], 0, []⟩, hist := [], ceLimit := 0x10,
    auto := true, ce := 0, ue := 0, histLost := 0, rowRefused := 0, ret := [], retireQ := [], rrOut := [],
    rrWait := [], ready := true, errRsp := 0, badCpl := 0, retry := 0, cache := [], tags := [], left := [] }

/-- STATE of SV_KIDn (R305). -/
inductive KidState where
  | absent | installed | sweepSource | sweepTarget | retiring
  deriving DecidableEq, Repr, Inhabited

/-- A memory key identifier: SV_KIDn (R305), its installed key, and its part in retirement: the ports whose part is
done, and whether step 2 of R312 is due. -/
structure Kid where
  state : KidState
  overBudget : Bool
  partner : Nat
  uses : Nat
  key : Option Key
  owner : Nat
  retDone : List Nat
  retWindow : Bool
  deriving DecidableEq, Repr, Inhabited

/-- An absent identifier. -/
def Kid.zero : Kid :=
  { state := .absent, overBudget := false, partner := 0, uses := 0, key := none, owner := 0, retDone := [], retWindow := false }

/-! ## Tally memories (08) -/

/-- A fence entry (R264). `state`: 0 free, 1 live, 2 error. -/
structure Fence where
  value : Word
  state : Nat
  code : Nat
  stale : Nat
  slice : Nat
  ctx : Nat
  gen : Nat
  deriving DecidableEq, Repr, Inhabited

/-- A free fence entry. -/
def Fence.zero : Fence := { value := 0, state := 0, code := 0, stale := 0, slice := 0, ctx := 0, gen := 0 }

/-- A collision group of one word (R271): the tickets of its members not yet executed, and of its executed SWAPs and
WRITEs that are not yet losers, with their operations. -/
structure Coll where
  off : Nat
  members : List Nat
  done : List TOp
  deriving DecidableEq, Repr, Inhabited

/-- The Tally memory of one half. -/
structure Tally where
  /-- Fence entries by index within the half. -/
  fences : List (Nat × Fence)
  /-- The context word pool, by word index from Tally offset 0x0020_0000. -/
  pool : List (Nat × Word)
  /-- The secure part, by word index from Tally offset 0x0038_0000. -/
  sec : List (Nat × Word)
  /-- Words whose check bits are uncorrectable (R274), by byte offset. -/
  bad : List Nat
  /-- TL_ALLOCh_n (R265): granule base and size by context. -/
  alloc : List (Nat × (Nat × Nat))
  /-- The port queues, by port number, oldest first (R267). -/
  queues : List (Nat × List TOp)
  /-- The rotating pointer (R268). -/
  ptr : Nat
  colls : List Coll
  /-- Collision-word additions the bank still inserts (R271), by word index in the pool. -/
  inserted : List Nat
  /-- TL_STATUSh (R273). -/
  wiped : Bool
  wiping : Bool
  retained : Bool
  waking : Bool
  uncorr : Nat
  corr : Nat
  fwCollide : Nat
  deriving DecidableEq, Repr, Inhabited

/-- A cleared Tally memory. -/
def Tally.zero : Tally :=
  { fences := [], pool := [], sec := [], bad := [], alloc := [], queues := [], ptr := 0, colls := [],
    inserted := [], wiped := false, wiping := false, retained := false, waking := false, uncorr := 0, corr := 0,
    fwCollide := 0 }

/-! ## Slices (02) -/

/-- STATE of SL_SLICE_STATEn (R51). -/
inductive SlState where
  | free | direct | active | degraded | changing | dissolving
  deriving DecidableEq, Repr, Inhabited

/-! ## The fault collector (18) -/

/-- One event on an error line (R518, R519): source bit, instance, the slice it bears on, its detail, and whether it
was injected (R530). -/
structure ErrLine where
  src : Nat
  inst : Nat
  slice : Option Nat
  detail : Nat
  inj : Bool
  /-- The SCLK in which it was raised: it reaches the collector's latch at the next SCLK edge (R524). -/
  at' : Nat
  deriving DecidableEq, Repr, Inhabited

/-- The first record (R529, R545). -/
structure FirstRec where
  valid : Bool
  inj : Bool
  src : Nat
  react : Nat
  slice : Option Nat
  merge : Nat
  inst : Nat
  time : Nat
  detail : Nat
  deriving DecidableEq, Repr, Inhabited

/-- One copy of FC_CMD_STATUS (R545) and the operation its FC_CMD holds pending. -/
structure FcCopy where
  busy : Bool
  collide : Bool
  lastOp : Nat
  result : Nat
  /-- The operation that waits: OP, KIND, TARGET, and whether the secure world wrote it. -/
  cmd : Option (Nat × Nat × Nat × Bool)
  deriving DecidableEq, Repr, Inhabited

/-- A running step of the escalation ladder (R533): step number, its target, the SCLK it started in, and the copy of
FC_CMD it answers. -/
structure Ladder where
  step : Nat
  target : Nat
  start : Nat
  copy : Option Nat
  /-- Still to complete within a slice reset: engines not yet idle. -/
  engines : List Nat
  deriving DecidableEq, Repr, Inhabited

/-- The fault collector and concentrators (18). -/
structure Fc where
  /-- Error line events raised and not yet classified, oldest first (R518). -/
  lines : List ErrLine
  /-- FC_STATUS. -/
  status : Word
  first : FirstRec
  /-- FC_CTL.LOCK, and the SCLK in which it was written (R642). -/
  lock : Bool
  lockAt : Nat
  /-- FC_CFGb by b: W, N, REACT. -/
  cfg : List (Nat × (Nat × Nat × Nat))
  /-- FC_CNTb by b: EVENTS, SEVERE. -/
  cnt : List (Nat × (Nat × Nat))
  /-- The per-instance count and window start of R520, by 2048·b + instance: C, T0. -/
  inst : List (Nat × (Nat × Nat))
  /-- The collector's SCLK count. -/
  sclk : Nat
  /-- FC_FENCEw, by unit kind. -/
  engFenced : List Nat
  subFenced : List Nat
  linkFenced : List Nat
  hostFenced : List Nat
  clFenced : List Nat
  /-- Which latched source fenced which unit (R526), as (source, unit kind, unit). -/
  fencedBy : List (Nat × Nat × Nat)
  /-- SAFE holds (R523): source bit, unit kind, unit. -/
  safe : List (Nat × Nat × Nat)
  blockSafe : Bool
  /-- FC_CMD_STATUS copies by host port; 4 is the control register port's. -/
  copies : List (Nat × FcCopy)
  ladder : List Ladder
  /-- FC_INJECT and the injections left. -/
  inject : Word
  injLeft : Nat
  capBase : Word
  capPort : Nat
  capSize : Nat
  capSeq : Nat
  capFlags : Nat
  capBytes : Nat
  /-- A register word that failed its parity (R521), by FC_CFGb index. -/
  cfgBad : List Nat
  deriving DecidableEq, Repr, Inhabited

/-- A copy of FC_CMD_STATUS at reset. -/
def FcCopy.zero : FcCopy := { busy := false, collide := false, lastOp := 0, result := 0, cmd := none }

/-- N, W and REACT of R519 at cold reset, as (W, N, REACT). -/
def fcCfgReset (b : Nat) : Nat × Nat × Nat :=
  match b with
  | 0 | 2 | 4 | 12 => (2 ^ 24, 255, 1)
  | 7 | 8 | 15 | 18 | 20 => (1, 1, 4)
  | 9 | 33 | 34 | 37 => (1, 1, 3)
  | 11 => (1, 1, 2)
  | 16 => (100000, 4, 2)
  | 17 => (100000, 64, 1)
  | 19 => (100000, 4, 1)
  | _ => (1, 1, 1)

/-- The sources whose FC_CFGb is fixed (R519). -/
def fcFixed (b : Nat) : Bool := [28, 29, 30, 33, 34, 36, 37].contains b

/-- The fault collector at cold reset (R545). -/
def Fc.reset : Fc :=
  { lines := [], status := 0, first := ⟨false, false, 0, 0, none, 0, 0, 0, 0⟩, lock := false, lockAt := 0, cfg := [], cnt := [],
    inst := [], sclk := 0, engFenced := [], subFenced := [], linkFenced := [], hostFenced := [], clFenced := [],
    fencedBy := [], safe := [], blockSafe := false, copies := [], ladder := [], inject := 0x10000, injLeft := 0,
    capBase := 0, capPort := 0, capSize := 0, capSeq := 0, capFlags := 0, capBytes := 0, cfgBad := [] }

/-- The Selvage memory engines and the licensee's stored lines. -/
structure Selvage where
  /-- Memory ports by number. -/
  ports : List (Nat × MemPort)
  /-- The stored beats of the licensee's memory, by 2^29·port + 2^27·sub-channel + line. -/
  beats : List (Nat × Beat)
  /-- SV_KIDn by n. -/
  kids : List (Nat × Kid)
  /-- SV_CTL.SWEEP_EN (R306). -/
  sweepEn : Bool
  /-- Tree keys by sub-channel index (R289). -/
  treeKeys : List (Nat × Key)
  /-- The hop key (R316) and its per-source seal counts by engine code. -/
  hopKey : Key
  hopCount : List (Nat × Nat)
  /-- MODEL'S OWN: an access of the command met a line that an earlier access still holds (R28), or a memory in retention (R276), so that the
  command cannot occur yet. It is false in every state that a command answers. -/
  stuck : Bool
  deriving DecidableEq, Repr, Inhabited

/-! ## Slices, translation caches, retirement jobs (02, 09) -/

/-- A slice: its descriptor words (R39), state (R51), refusals counted (R55), and what a CHANGE or DISSOLVE still waits
for. -/
structure Slice where
  desc : List Word
  state : SlState
  refused : Nat
  /-- The state to return to after CHANGE. -/
  changeTo : List Word
  /-- Engines a CHANGE removes that are not yet released (R48). -/
  releasing : List Nat
  deriving DecidableEq, Repr, Inhabited

/-- A free slice. -/
def Slice.zero : Slice :=
  { desc := List.replicate 16 0, state := .free, refused := 0, changeTo := [], releasing := [] }

/-- The slice manager (R43 to R46): staging registers, SL_CMD_STATUS, and the staging words captured by the command
in progress. -/
structure Slm where
  stage : List (Nat × Word)
  busy : Bool
  collide : Bool
  target : Nat
  lastOp : Nat
  result : Nat
  captured : List Word
  /-- The RESULT of the command in progress once its checks and effect are done: BUSY falls at the next PCLK at which the requests of the
  slice in `drain` that were translated earlier have drained (R45, R48, R70). -/
  due : Option Nat
  drain : Option Nat
  /-- The build lock, and the PCLK in which it took effect (R642). -/
  buildLocked : Bool
  lockAt : Nat
  deriving DecidableEq, Repr, Inhabited

/-- A cached translation of an address translation unit (R70): the unit (cluster, or 64 + host port, or 96 + link
port), context and generation, the 64 KiB page, the slice physical page, W, X and HK. -/
structure AtuEnt where
  unit : Nat
  ctx : Nat
  gen : Nat
  page : Nat
  spage : Nat
  w : Bool
  x : Bool
  hk : Bool
  deriving DecidableEq, Repr, Inhabited

/-- A cached stage-2 page of a slice with tables (R66, R70). -/
structure S2Ent where
  unit : Nat
  slice : Nat
  page : Nat
  so : Nat
  w : Bool
  x : Bool
  deriving DecidableEq, Repr, Inhabited

/-- Identifiers and a window under retirement (R311, R312): the member sub-channels, the window in 2 MiB units, whether
step 2 applies, and the ports whose part is done. -/
structure RetJob where
  kids : List Nat
  subs : List Nat
  base : Nat
  size : Nat
  step2 : Bool
  done : List Nat
  deriving DecidableEq, Repr, Inhabited

/-! ## Engines (05, 06, 07, 08) -/

/-- A statistics slot (R99, R235): attached, EBASE, the bins, AMAX as FP32 bits, and the three counts. -/
structure StatSlot where
  ebase : Nat
  bins : List (Nat × Nat)
  amax : BitVec 32
  nan : Nat
  sat : Nat
  count : Nat
  deriving DecidableEq, Repr, Inhabited

/-- A wait of TWAIT or FWAIT (R210, R211): the half and byte offset of its word, whether it is a fence and which, the
value, COND, the result register, and the result once a change has released it. -/
structure WaitRec where
  half : Nat
  off : Nat
  fence : Option Nat
  value : Word
  cond : Nat
  reg : Nat
  ready : Option Word
  deriving DecidableEq, Repr, Inhabited

/-- Where an engine stands in power and reset (R255, R568, R569). -/
inductive EngPhase where
  | on | resetting | off | startReq | starting
  deriving DecidableEq, Repr, Inhabited

/-- An engine. -/
structure Engine where
  /-- The attached context and generation; none when idle. -/
  ctx : Option (Nat × Nat)
  s : List (Nat × Word)
  d : List (Nat × BitVec 256)
  p : List (Nat × Bool)
  t : List (Nat × Word)
  pc : Nat
  step : Nat
  hdr : Nat
  /-- ENDED of the state record: its program retired PEND (R184, R185). -/
  pended : Bool
  /-- BWCLASS, USES and CODE_BYTES of the running program (R167). -/
  bwclass : Nat
  uses : Nat
  codeBytes : Nat
  tileOpen : Bool
  tilePc : Nat
  stats : List (Nat × StatSlot)
  spad : List (Nat × Byte)
  /-- Uncorrectable scratchpad words by word index (R274, R646). -/
  spadBad : List Nat
  wait : Option WaitRec
  /-- Scalar registers that wait for a Tally answer (R213). -/
  pendRes : List Nat
  /-- Instruction cache entries: slice, context, generation (R178), and the 128-byte line of code. -/
  icache : List (Nat × Nat × Nat × Nat)
  switchReq : Bool
  /-- Whether the requested switch counts as a pre-emption (R416). -/
  preempt : Bool
  phase : EngPhase
  /-- Removed from its slice by a CHANGE once released (R48). -/
  removing : Bool
  /-- PCLK in which the current run began, that in which its quantum ends, from the first instruction issued in it on, and the class of the run
  (R396). While an engine starts, the PCLK and the SCLK of the start (R569). -/
  runStart : Nat
  quantum : Option Nat
  lcRun : Bool
  deriving DecidableEq, Repr, Inhabited

/-- An idle engine after its scratchpad is cleared. -/
def Engine.idle : Engine :=
  { ctx := none, s := [], d := [], p := [], t := [], pc := 0, step := 0, hdr := 0, pended := false, bwclass := 0, uses := 0, codeBytes := 0,
    tileOpen := false, tilePc := 0, stats := [], spad := [], spadBad := [], wait := none,
    pendRes := [], icache := [], switchReq := false, preempt := false, phase := .on, removing := false, runStart := 0,
    quantum := none, lcRun := false }

/-- What an asynchronous operation does (R188, R203 to R217, R238, R239), with the register values it took at issue; `amax` is the greatest
AMAX that an HUPD read when it left the queue.
`snap` holds the Bolt bytes at issue of an operation that reads the Bolt buffer (R193). -/
inductive AKind where
  | pref (desc : BitVec 256) (off : Nat) (origin : Word) (rows cols : Nat) (part : Bool) (exb : Option (Bool × Nat × Nat))
  | push (desc : BitVec 256) (off : Nat) (origin : Word) (rows cols : Nat) (part : Bool) (snap : List (Nat × Byte))
  | gath (desc : BitVec 256) (off : Nat) (idx : List Nat)
  | scat (desc : BitVec 256) (off : Nat) (idx : List Nat) (snap : List (Nat × Byte))
  | write (chunks : List (Nat × List Byte))
  | hupd (rec stats n : Nat) (amax : Option Nat)
  | lput (link : BitVec 256) (off len : Nat) (snap : List (Nat × Byte))
  | lputm (link desc : BitVec 256) (origin : Word) (rows cols len : Nat)
  | lred (link : BitVec 256) (off len rop efmt : Nat) (snap : List (Nat × Byte))
  | lget (link : BitVec 256) (off len : Nat)
  deriving DecidableEq, Repr, Inhabited

/-- An asynchronous operation that has not completed (R189 to R192). `word` is its completion word (half and pool
word index); `queued` while a prefetch is in its engine's queue (R144); `err` the error it carries. -/
structure AsyncOp where
  id : Nat
  eng : Nat
  ctx : Nat
  gen : Nat
  bwclass : Nat
  kind : AKind
  word : Option (Nat × Nat)
  queued : Bool
  /-- Bytes a prefetch reserves with the regulator while it counts in USED (R378, R385). -/
  reserved : Nat
  /-- Groups of a link operation handed to the link engine so far (R347), and the groups of an LGET's reply written (R362). -/
  groups : Nat
  got : List Nat
  /-- It reads the scratchpad of the tile that issued it, which is still open. -/
  tile : Bool
  /-- The tile whose scratchpad it reads was abandoned by a fault: it may stop at any line (R180). -/
  cut : Bool
  err : Option Nat
  /-- The error of a part of it that does not end it (R646). -/
  soft : Option Nat
  /-- Its bytes have moved, with the error that this gave: its requests came before those of a later operation (R27, R191). -/
  moved : Option (Option Nat)
  /-- The cluster's Bolt bytes before they moved (R163). -/
  past : List (Nat × Byte)
  /-- A history update that ran together with another one of the same record (R103). -/
  clash : Bool
  deriving DecidableEq, Repr, Inhabited

/-- A Shuttle operation (R148, R243): the raw bits [83:0] of its instruction and the values of its slots at issue; for
ROUTE from a view, the view, which the engine streams to Shuttle when the operation starts (R247). -/
structure ShOp where
  id : Nat
  op : Nat
  eng : Nat
  ctx : Nat
  gen : Nat
  bwclass : Nat
  low : BitVec 84
  v0 : Word
  v1 : Word
  v2 : Word
  desc : BitVec 256
  step : Nat
  key : Word
  view : Option Word
  word : Option (Nat × Nat)
  started : Bool
  /-- Bolt ranges that a started operation writes, as program offset and length, and the cluster's Bolt bytes before it (R163). -/
  wrote : List (Nat × Nat)
  past : List (Nat × Byte)
  err : Option Nat
  deriving DecidableEq, Repr, Inhabited

/-- CL_BOLT_REGIONc_i (R258). -/
structure BoltRegion where
  valid : Bool
  clearing : Bool
  ctx : Nat
  gen : Nat
  base : Nat
  size : Nat
  deriving DecidableEq, Repr, Inhabited

/-- A cluster: its Bolt buffer, Bolt region table and Shuttle queue, oldest first. -/
structure Cluster where
  bolt : List (Nat × Byte)
  boltBad : List Nat
  regions : List (Nat × BoltRegion)
  shuttle : List ShOp
  boltRet : Bool
  boltWaking : Bool
  /-- The cluster is in its retention state (R567). -/
  ret : Bool
  deriving DecidableEq, Repr, Inhabited

/-- A cleared cluster. -/
def Cluster.zero : Cluster :=
  { bolt := [], boltBad := [], regions := [], shuttle := [], boltRet := false, boltWaking := false,
    ret := false }

/-! ## Contexts, queues, port rings (14) -/

/-- STATE of SC_CTXn (R425). -/
inductive CtxState where
  | free | live | faulted | tearing
  deriving DecidableEq, Repr, Inhabited

/-- Where the status word of a port-ring packet goes: the port, the host bus address of word 7, and NOTIFY (R433, R436). -/
structure StatusAt where
  port : Nat
  addr : Nat
  notify : Bool
  deriving DecidableEq, Repr, Inhabited

/-- A teardown in progress (R446): the step reached, the PCLK of step 1, why (the code of its fences), the status word
it answers, and whether it makes the context LIVE again (R450) or skips step 3. -/
structure Teardown where
  step : Nat
  start : Nat
  code : Nat
  status : Option StatusAt
  relive : Bool
  /-- Its timeout has been raised (R448). -/
  late : Bool
  deriving DecidableEq, Repr, Inhabited

/-- A launched program that is not yet done (R434): its header address and fields (R167), its ring, the packets of the ring it
took, the status word of a port-ring LAUNCH, and whether it has ended, by PEND or by a fault. -/
structure Prog where
  hdr : Nat
  bwclass : Nat
  uses : Nat
  codeBytes : Nat
  ring : RingId
  packets : Nat
  status : Option StatusAt
  ended : Bool
  deriving DecidableEq, Repr, Inhabited

/-- SC_CTXACCn (R419) and the running wait. -/
structure CtxAcc where
  wait : Nat
  preempt : Nat
  steps : Nat
  fallback : Nat
  evict : Nat
  maxwait : Nat
  cur : Nat
  deriving DecidableEq, Repr, Inhabited

/-- A context identifier (R424 to R426). -/
structure Ctx where
  state : CtxState
  slice : Nat
  gen : Nat
  ffence : Nat
  root : Nat
  faultRec : Nat
  spill : Nat
  bolt : Nat
  key : Word
  merged : Nat
  faultCode : Nat
  prog : Option Prog
  /-- The engine it runs on. -/
  eng : Option Nat
  /-- The cluster whose Bolt region holds its state record; its record is in the spill area when `spilled`. -/
  home : Option Nat
  spilled : Bool
  /-- The wait in which it was switched out (R184, R440). -/
  waitOn : Option WaitRec
  tear : Option Teardown
  acc : CtxAcc
  /-- PCLK in which its last step ended (R402). -/
  lastEnd : Nat
  /-- Its home scheduler, given at CTX_CREATE (R453). -/
  sched : Nat
  deriving DecidableEq, Repr, Inhabited

/-- A free context identifier of generation 0. -/
def Ctx.zero : Ctx :=
  { state := .free, slice := 0, gen := 0, ffence := 0, root := 0, faultRec := 0, spill := 0, bolt := 0, key := 0,
    merged := 0, faultCode := 0, prog := none, eng := none, home := none, spilled := false, waitOn := none, tear := none,
    acc := ⟨0, 0, 0, 0, 0, 0, 0⟩, lastEnd := 0, sched := 0 }

/-- A WAIT packet's or host wait's fence and value, and its result once a change has released it (R440). -/
structure FenceWait where
  fence : Nat
  value : Word
  result : Option Nat
  deriving DecidableEq, Repr, Inhabited

/-- A queue (R432): SC_QUEUEq, its ring, the packet in progress, and its step and gang. -/
structure Queue where
  err : Bool
  lc : Bool
  port : Nat
  ctx : Nat
  gen : Nat
  code : Nat
  tail : Nat
  head : Nat
  base : Nat
  sizeCode : Nat
  headAddr : Nat
  /-- HEAD last written at HEAD_ADDR (R430). -/
  headSeen : Nat
  /-- A LAUNCH of the queue is in progress, a WAIT is held, a LAUNCH waits for its LAUNCH_EXT. -/
  busy : Bool
  held : Option FenceWait
  ext : Option (Nat × List Word)
  stepOpen : Bool
  /-- A STEP_OPEN that waits for its context to be placed on an engine (R391). -/
  opening : Bool
  /-- A STEP_OPEN that waits for its gang: the list and the PCLK of its arrival (R392). -/
  gang : Option (List Nat × Nat)
  /-- PCLK in which the packet at HEAD could first start (R396, R415). -/
  since : Nat
  deriving DecidableEq, Repr, Inhabited

/-- A memory object (R427): context, generation, region, base and size. -/
structure MemObj where
  ctx : Nat
  gen : Nat
  region : Nat
  base : Nat
  size : Nat
  deriving DecidableEq, Repr, Inhabited

/-- The scheduling registers of a slice (R419): SC_SLCFGs and SC_SLACCs. -/
structure SlSched where
  gangWait : Nat
  beadQuota : Nat
  qbe : Nat
  qlc : Nat
  wait : Nat
  preempt : Nat
  steps : Nat
  fallback : Nat
  gaps : Nat
  deriving DecidableEq, Repr, Inhabited

/-- SC_SLCFGs and SC_SLACCs at reset, for slices other than 0 (R419). -/
def SlSched.zero : SlSched :=
  { gangWait := 0x0A, beadQuota := 0, qbe := 0x64, qlc := 0x64, wait := 0, preempt := 0, steps := 0, fallback := 0, gaps := 0 }

/-- A bead (R405). `state`: 0 FREE, 1 WAITING, 2 RUNNING, 3 STARVED, 4 DONE, 5 ERROR. `upd` holds the values a RUNNING
bead takes at the next open (R409). -/
structure Bead where
  slice : Nat
  state : Nat
  leaveReq : Bool
  rod : Nat
  pos : Nat
  maxpos : Nat
  npages : Nat
  kvlist : Nat
  tag : Word
  upd : Option (Nat × Nat × Nat)
  deriving DecidableEq, Repr, Inhabited

/-- A free bead. -/
def Bead.zero : Bead := ⟨0, 0, false, 0, 0, 0, 0, 0, 0, none⟩

/-- A rod (R408, R419): SC_RODr, its ROD_STEP, the beads of its open manifest, and a configuration that waits for the
step close. -/
structure Rod where
  isOpen : Bool
  queue : Nat
  maxBeads : Nat
  reserve : Nat
  pageTokens : Nat
  manifest : Word
  steps : Nat
  beads : List Nat
  later : Option (Nat × Nat × Nat × Word)
  deriving DecidableEq, Repr, Inhabited

/-- The scheduling hardware and the bead store (13). -/
structure Sched where
  sl : List (Nat × SlSched)
  beads : List (Nat × Bead)
  rods : List (Nat × Rod)
  /-- WAITING beads in the order in which they became WAITING (R410). -/
  order : List Nat
  /-- Ready contexts in the order in which they became ready (R396). -/
  ready : List Nat
  /-- When a context last became ready: the PCLK, and the queue of a step about to start, else 8,192 (R396, R422). -/
  readyAt : List (Nat × (Nat × Nat))
  /-- The packets that doorbells posted to queues, oldest first, each as the queue and the TAIL that posted it (R417, R463). -/
  fifo : List (Nat × Nat)
  /-- SC_BEADSEL by host port; 4 is the control register port's copy (R639). -/
  beadSel : List (Nat × Nat)
  deriving DecidableEq, Repr, Inhabited

/-- A port ring and the port-ring registers of one host packet port (R431), its agreed bitmap (R438), and its packets
in progress. -/
structure PortRing where
  base : Word
  en : Bool
  sizeCode : Nat
  head : Nat
  tail : Nat
  foreign : Nat
  badtail : Nat
  badpkt : Nat
  fenceSel : Nat
  agreed : Option Nat
  /-- The packet at HEAD, once fetched; a LAUNCH in progress; a LAUNCH that waits for its LAUNCH_EXT: header, arguments, status. -/
  pkt : Option (List Word)
  busy : Bool
  ext : Option (Nat × List Word × StatusAt)
  /-- Host waits (R436) with their status words. -/
  waits : List (FenceWait × StatusAt)
  /-- A fetch that R610 or R630 left pending. -/
  fetchPending : Bool
  deriving DecidableEq, Repr, Inhabited

/-- A port ring after a block reset. -/
def PortRing.zero : PortRing :=
  { base := 0, en := false, sizeCode := 0, head := 0, tail := 0, foreign := 0, badtail := 0, badpkt := 0, fenceSel := 0,
    agreed := none, pkt := none, busy := false, ext := none, waits := [], fetchPending := false }

/-- An error returned for a request of a context, to be handled under R180: the context, generation and engine, the
fence code, and the address. -/
structure ReqErr where
  ctx : Nat
  gen : Nat
  eng : Nat
  code : Nat
  addr : Nat
  deriving DecidableEq, Repr, Inhabited

/-- Pins at the block's edge that events change (20, 22): the active-low inputs read true when high. -/
structure Pins where
  coldN : Bool
  thermN : Bool
  pwrN : Bool
  tamperN : Bool
  /-- ROOTCLK: 0 in range, 1 absent, 2 out of range (R563). -/
  rootclk : Nat
  /-- TRAY_PWR_REQ is driven active (R538). -/
  trayPwrReq : Bool
  deriving DecidableEq, Repr, Inhabited

/-- A receive window (R216). `base` is a Bolt offset or a context virtual address; `word` its Tally word (half, pool word);
`unit` the cluster of the engine that opened it. -/
structure RWin where
  ctx : Nat
  gen : Nat
  base : Nat
  len : Nat
  mem : Bool
  wr : Bool
  rd : Bool
  word : Option (Nat × Nat)
  eng : Nat
  deriving DecidableEq, Repr, Inhabited

/-! ## Bandwidth (12) -/

/-- A master's budget register (R387): BW_MBUDj or BW_HBUDp_s, a changed budget that the next window installs (R377), whether the master went
over budget in this window, its lines that R384 promoted in it, and a sealed master's lines beyond its budget, which wait for the next windows
(R383). -/
structure BwMaster where
  valid : Bool
  isSealed : Bool
  slice : Nat
  demoted : Nat
  used : Nat
  budget : Nat
  next : Option (Bool × Bool × Nat × Nat)
  wentOver : Bool
  promoted : Nat
  owed : Nat
  deriving DecidableEq, Repr, Inhabited

/-- A master without a budget. -/
def BwMaster.zero : BwMaster := ⟨false, false, 0, 0, 0, 0, none, false, 0, 0⟩

/-- The bandwidth regulators and their registers (R387). -/
structure Bw where
  /-- BW_SLICEs: SEALED, HOST_EFF, LINK_EFF, MEM_EFF. -/
  slices : List (Nat × (Bool × Nat × Nat × Nat))
  admission : Word
  /-- BW_SERVEDh_s_c and BW_BORROWEDh_s_c by 128·h + 8·s + c. -/
  served : List (Nat × (Nat × Nat))
  /-- BW_MBUDj by master identifier. -/
  masters : List (Nat × BwMaster)
  /-- BW_HBUDp_s by 16·p + s. -/
  hosts : List (Nat × BwMaster)
  /-- The FCLK in which each half's current window began (R377). -/
  winAt : List (Nat × Nat)
  deriving DecidableEq, Repr, Inhabited

/-- The regulators after a block reset (R387). -/
def Bw.reset : Bw := { slices := [], admission := 0, served := [], masters := [], hosts := [], winAt := [] }

/-! ## Firmware (15) -/

/-- A firmware processor (R466): PSTATE 0 RESET, 1 RUNNING, 2 RESTARTING, 3 IDLE. -/
structure FwProc where
  pstate : Nat
  restarts : Nat
  wdog : Nat
  /-- Held by a class I instrument (R505). -/
  halted : Bool
  deriving DecidableEq, Repr, Inhabited

/-- A processor in reset. -/
def FwProc.zero : FwProc := ⟨0, 0, 0, false⟩

/-- A verified firmware image (R454, R456): SVN, VERSION and measurement. -/
structure FwImage where
  svn : Nat
  version : Nat
  meas : Digest
  deriving DecidableEq, Repr, Inhabited

/-- The firmware unit (R466). `op` is the LOAD or STAGE whose image is still read, with its port; `state` and `staged` as their
fields' codes; `actBegan` the PCLK in which step 1 of an activation came. -/
structure Fw where
  addr : Word
  len : Nat
  busy : Bool
  collide : Bool
  state : Nat
  staged : Nat
  result : Nat
  op : Option (Nat × Nat)
  running : Option FwImage
  image : Option FwImage
  procs : List (Nat × FwProc)
  errFailed : Bool
  errDeferred : Bool
  actBegan : Nat
  deriving DecidableEq, Repr, Inhabited

/-- The firmware unit after a block reset (R466). -/
def Fw.reset : Fw :=
  { addr := 0, len := 0, busy := false, collide := false, state := 0, staged := 0, result := 0, op := none, running := none,
    image := none, procs := [], errFailed := false, errDeferred := false, actBegan := 0 }

/-! ## Key store and SPDM (16) -/

/-- What the key store and the report hold of a slice (R480, R487, R490, R493): owner hashes, sub-ranges (base, count) of memory and
link identifiers, BOUND and ACCEPTED bits by owner, the program digest, the stream base, REPORT_SEQ, the firmware measurement at
BUILD, emergencies since BUILD, and the checkpoint fields of the report (R558). -/
structure KSlice where
  hash : List (Nat × Digest)
  memSub : List (Nat × (Nat × Nat))
  linkSub : List (Nat × (Nat × Nat))
  bound : Nat
  accepted : Nat
  measured : Bool
  digest : Digest
  stream : Option Key
  seq : Nat
  fwBuild : Digest
  therm : Nat
  power : Nat
  cpStep : Nat
  cpOwn : Nat
  cpPartner : Nat
  cpStatus : Nat
  /-- Contexts that have lived since BUILD, by identifier. -/
  lived : List Nat
  /-- TAGFAIL, TREEFAIL, REENC, CE and UE of the slice's own lines. -/
  cnt : Nat × Nat × Nat × Nat × Nat
  deriving DecidableEq, Repr, Inhabited

/-- A slice of which the key store holds nothing. -/
def KSlice.zero : KSlice :=
  { hash := [], memSub := [], linkSub := [], bound := 0, accepted := 0, measured := false, digest := 0, stream := none, seq := 0,
    fwBuild := 0, therm := 0, power := 0, cpStep := 0, cpOwn := 0, cpPartner := 0, cpStatus := 0, lived := [],
    cnt := (0, 0, 0, 0, 0) }

/-- A secured SPDM session (R484, R490, R495): its host port, whether FINISH completed it, its slice and owner once bound, its host
session slot with bounce key and salts (H2D, D2H, CMD), the last accepted SEQ by direction, its export master secret and TH2 hash. -/
structure Session where
  port : Nat
  finished : Bool
  bound : Option (Nat × Nat)
  slot : Option (Nat × Key × BitVec 32 × BitVec 32 × BitVec 32)
  seqIn : Nat
  seqOut : Nat
  ems : Digest
  th2 : Digest
  deriving DecidableEq, Repr, Inhabited

/-- A link key identifier (R349 to R351, R365, R479): its installed transmit and receive keys, owner, BUDGET, FAILED, USES, and the
next group count by link engine. -/
structure LinkKey where
  tx : Option Key
  rx : Option Key
  owner : Nat
  slice : Nat
  budget : Bool
  failed : Bool
  uses : Nat
  ncount : List (Nat × Nat)
  deriving DecidableEq, Repr, Inhabited

/-- An absent link key identifier. -/
def LinkKey.zero : LinkKey := ⟨none, none, 0, 0, false, false, 0, []⟩

/-- A bounce command (R496), as its eight words. -/
abbrev Bounce := List Word

/-- The mailbox and bounce registers of a host packet port, and its SPDM connection: how far negotiation has come (0 none, 1
version, 2 capabilities, 3 algorithms) and the transcript (R483, R496, R499, R617). -/
structure HostKeys where
  mbxBusy : Bool
  mbxDone : Bool
  mbxStatus : Nat
  rspLen : Nat
  kind : Nat
  reqLen : Nat
  req : List (Nat × Byte)
  rsp : List (Nat × Byte)
  spdm : Nat
  transcript : List Byte
  bncCmd : List (Nat × Word)
  bncQueue : List Bounce
  /-- The host bytes of the oldest command have been read (DIR 0), or its buffer is written (DIR 1). -/
  bncMoved : Bool
  cause : Nat
  refused : Nat
  deriving DecidableEq, Repr, Inhabited

/-- A port's mailbox and bounce registers after a block reset. -/
def HostKeys.zero : HostKeys :=
  { mbxBusy := false, mbxDone := false, mbxStatus := 0, rspLen := 0, kind := 0, reqLen := 0, req := [], rsp := [], spdm := 0,
    transcript := [], bncCmd := [], bncQueue := [], bncMoved := false, cause := 0, refused := 0 }

/-- The key store (R467 to R482, R499). `root` is the ROOT field; `rootKey` the current state's root; `nonce` the boot nonce;
`wcount` the ladder's wrap count; `drbg` the generate requests since the last reseed. -/
structure Ks where
  stage : List (Nat × Word)
  busy : Bool
  collide : Bool
  lastOp : Nat
  result : Nat
  /-- The RESULT of a command that ends in the next PCLK (R45, R480). -/
  due : Option Nat
  root : Nat
  rootKey : Key
  nonce : Key
  wcount : Nat
  drbg : Nat
  entropyFail : Bool
  certBuf : List (Nat × Byte)
  cert : Option (List Byte)
  slotFail : Nat
  slices : List (Nat × KSlice)
  links : List (Nat × LinkKey)
  sessions : List (Nat × Session)
  ports : List (Nat × HostKeys)
  deriving DecidableEq, Repr, Inhabited

/-- The key store after a block reset whose root is `k` (R470, R499). -/
def Ks.reset (root : Nat) (k nonce : Key) : Ks :=
  { stage := [], busy := false, collide := false, lastOp := 0, result := 0, due := none, root := root, rootKey := k, nonce := nonce, wcount := 0,
    drbg := 0, entropyFail := false, certBuf := [], cert := none, slotFail := 0, slices := [], links := [], sessions := [],
    ports := [] }

/-! ## Host packet ports (22) -/

/-- What an outbound request beat carries: a posted write within one 128-byte line, a read under a tag, or an event behind the
writes before it (R608, R609, R615). -/
inductive OutItem where
  | write (addr : Nat) (bytes : List Byte)
  | read (tag addr len : Nat)
  | event (vec : Nat)
  deriving DecidableEq, Repr, Inhabited

/-- Who reads host memory (R610). -/
inductive Reader where
  | ring
  | firmware
  | bounce
  deriving DecidableEq, Repr, Inhabited

/-- An outstanding outbound read of an operation that reads `len` bytes at `addr`: tag, reader, the bytes that the operation's earlier reads brought
(R608: a read moves at most 4,096 bytes), the next beat, and all bytes that came. -/
structure HTag where
  num : Nat
  reader : Reader
  addr : Nat
  len : Nat
  done : Nat
  beat : Nat
  got : List Byte
  deriving DecidableEq, Repr, Inhabited

/-- An inbound completion beat (R612): tag, STATUS, REASON, data. -/
structure HCpl where
  tag : Nat
  status : Nat
  reason : Nat
  data : Option Line
  deriving DecidableEq, Repr, Inhabited

/-- A host packet port's edge: credits of outbound requests and inbound completions that Lumust holds, inbound request credits that
the host holds (R607); beats and completions that wait for a credit; outstanding tags, and those that a fence of the port ended (R630); HP_EDGEp's
counters (R619); HPPp_RST. -/
structure HPort where
  outCred : Nat
  cplCred : Nat
  reqCred : Nat
  outQ : List OutItem
  cplQ : List HCpl
  tags : List HTag
  left : List Nat
  nextTag : Nat
  rderr : Nat
  badcpl : Nat
  inbErr : Nat
  rst : Bool
  deriving DecidableEq, Repr, Inhabited

/-- A port when HPPp_RST falls after a block reset (R607, R619). -/
def HPort.reset : HPort :=
  { outCred := 0, cplCred := 0, reqCred := 64, outQ := [], cplQ := [], tags := [], left := [], nextTag := 0, rderr := 0, badcpl := 0,
    inbErr := 0, rst := false }

/-! ## Life cycle and debug (17), JTAG (22) -/

/-- An OTP write that runs (R507, R510): the code of the state whose word it programs, or 0 for an SVN slot; the word's or slot's number; the bits
to program, and those that do not take. -/
structure LcRun where
  target : Nat
  num : Nat
  want : Word
  miss : Word
  deriving DecidableEq, Repr, Inhabited

/-- The life-cycle controller, the OTP it decodes, the debug unit and the TAP (R501 to R516, R628). `words` are W0 to W4, `svn` the 32
SVN slots, `roots` the root slots by 2·(state code − 1) + slot (R469), each root and CHECK. -/
structure Lc where
  words : List Word
  svn : List (Nat × Word)
  roots : List (Nat × (Key × Word))
  current : Nat
  pend : Bool
  next : Nat
  arg : Nat
  collide : Bool
  result : Nat
  /-- The RESULT of a command that ends in the next SCLK, and the OTP write that one runs: either holds BUSY (R508). -/
  due : Option Nat
  run : Option LcRun
  token : List (Nat × Word)
  chal : Option Key
  dgOpen : Bool
  tearing : Bool
  scope : Nat
  fails : Nat
  dgResult : Nat
  /-- SCOPE to be granted when step 2 of R513 ends. -/
  grant : Nat
  /-- The selected TAP instruction. -/
  tap : Nat
  deriving DecidableEq, Repr, Inhabited

/-- A part whose OTP holds the words of `code` with root `k` in slot A, after a block reset. -/
def Lc.reset (words : List Word) (roots : List (Nat × (Key × Word))) (code : Nat) : Lc :=
  { words := words, svn := [], roots := roots, current := code, pend := false, next := 0, arg := 0, collide := false, result := 0, due := none, run := none,
    token := [], chal := none, dgOpen := false, tearing := false, scope := 0, fails := 0, dgResult := 0, grant := 0, tap := 1 }

/-! ## Links (11) -/

/-- What a sent group carries: group data of an asynchronous operation, of its engine, context and generation; a GET_REQ with its request
tag; a reply from a window to the GET_REQ of a SEQ; an ERR for a group (R347, R358, R362). -/
inductive LSrc where
  | op (id eng ctx gen bwclass : Nat) (kind : AKind)
  | getReq (id tag : Nat)
  | getRsp (seq tag : Nat) (win : RWin)
  | err (seq sub : Nat)
  deriving DecidableEq, Repr, Inhabited

/-- A group of a transmit stream: SEQ, what it carries, RWIN, ROFF, OPLEN, GIDX, the bits [6:5] of header byte 7, how often it was
sent, FCLK when it was last sent, whether a fast retransmission came since then, and whether it is acknowledged. -/
structure TxGroup where
  seq : Nat
  src : LSrc
  rwin : Nat
  roff : Nat
  oplen : Nat
  gidx : Nat
  red : Nat
  sends : Nat
  last : Nat
  fast : Bool
  acked : Bool
  deriving DecidableEq, Repr, Inhabited

/-- The transmit sequence state of a stream (R349, R353 to R356): the remote endpoint and LKEY, the next SEQ, its groups, ERR and
GET_RSP groups that wait to be sent, the highest CUM seen, FAILED, and the port last used. -/
structure TxStream where
  dest : Nat
  lkey : Nat
  next : Nat
  groups : List TxGroup
  todo : List TxGroup
  cum : Nat
  failed : Bool
  lastPort : Nat
  deriving DecidableEq, Repr, Inhabited

/-- The receive sequence state of a stream (R353): the remote endpoint and LKEY, CUM, the SEQs received above it, the verified groups
whose writes are not yet complete (R354), and whether an ACK is due, on which port the last group came. -/
structure RxStream where
  src : Nat
  lkey : Nat
  cum : Nat
  above : List Nat
  writing : List Nat
  ackDue : Bool
  port : Nat
  deriving DecidableEq, Repr, Inhabited

/-- A route (R363). -/
structure Route where
  valid : Bool
  dest : Nat
  ports : Nat
  dmac : Nat
  deriving DecidableEq, Repr, Inhabited

/-- A link port's registers (R365). -/
structure LPort where
  up : Bool
  smac : Nat
  authfail : Nat
  dup : Nat
  retx : Nat
  drop : Nat
  deriving DecidableEq, Repr, Inhabited

/-- A request tag (R362): the LGET it stands for. -/
structure LTag where
  id : Nat
  ctx : Nat
  gen : Nat
  off : Nat
  deriving DecidableEq, Repr, Inhabited

/-- Frames of one group gathered in a port's receive buffer (R352, R599): the port, and each frame's bytes from the transport header
on. -/
structure Gather where
  port : Nat
  frames : List (Nat × List Byte)
  deriving DecidableEq, Repr, Inhabited

/-- A verified ACK, GET_RSP or ERR group that is not yet handled: port, transport header of its first frame, data. -/
structure VGroup where
  port : Nat
  hdr : List Byte
  data : List Byte
  deriving DecidableEq, Repr, Inhabited

/-- The group for which a memory engine sends lines to a link engine (R315, R355, R362): group `gidx` of an LPUTM, the first time; a group
of a transmit stream that is sent again; the reply group `gidx` to the GET_REQ of `seq`. -/
inductive StageKey where
  | first (id gidx : Nat)
  | again (dest lkey seq : Nat)
  | reply (dest lkey seq gidx : Nat)
  deriving DecidableEq, Repr, Inhabited

/-- A line part on its way to a receive window in memory (R359, R361): port, context, generation, virtual address and number of its bytes,
their offset in the group's data; ROP and EFMT of a RED, with the bytes of an element that the line before it began; the window's Tally
word, and the group's LKEY, sender and SEQ. -/
structure HopPart where
  port : Nat
  ctx : Nat
  gen : Nat
  va : Nat
  bytes : Nat
  goff : Nat
  red : Option (Bool × Bool)
  carry : List Byte
  word : Option (Nat × Nat)
  lkey : Nat
  src : Nat
  seq : Nat
  deriving DecidableEq, Repr, Inhabited

/-- Where a hop-sealed line goes (R315): to a memory engine for a receive window, or to the link engine of a port for a group, at an
offset within the group's data, from an offset within the line. -/
inductive HopTo where
  | memory (p : HopPart)
  | link (port : Nat) (key : StageKey) (at' off n : Nat)
  deriving DecidableEq, Repr, Inhabited

/-- Opened bytes of a group at the link engine of a port. -/
structure Staged where
  key : StageKey
  port : Nat
  at' : Nat
  bytes : List Byte
  deriving DecidableEq, Repr, Inhabited

/-- A hop-sealed line in the fabric (R316): source engine code and count, ciphertext and tag. -/
structure Hop where
  code : Nat
  count : Nat
  /-- The memory identifier under which the line was read; 1,024 for a line on its way to memory. -/
  keyid : Nat
  ct : List Byte
  tag : BitVec 128
  dst : HopTo
  deriving DecidableEq, Repr, Inhabited

/-- The link unit. `stage` holds the opened bytes of groups that a link engine builds. -/
structure Links where
  self : Nat
  etype : Nat
  retry : Nat
  rto : Nat
  full : Nat
  ports : List (Nat × LPort)
  routes : List (Nat × Route)
  tx : List TxStream
  rx : List RxStream
  tags : List (Nat × LTag)
  gather : List Gather
  verified : List VGroup
  hops : List Hop
  stage : List Staged
  deriving DecidableEq, Repr, Inhabited

/-- A link port after a cold reset; UP is the pin. -/
def LPort.reset : LPort := ⟨false, 0, 0, 0, 0, 0⟩
/-- A route that is not in use. -/
def Route.zero : Route := ⟨false, 0, 0, 0⟩

/-- The link unit after a cold reset (R365). -/
def Links.reset : Links :=
  { self := 0, etype := 0, retry := 0x10, rto := 0x1F40, full := 0, ports := [], routes := [], tx := [], rx := [], tags := [],
    gather := [], verified := [], hops := [], stage := [] }

/-- The receiving end of a half bridge (R601): credits the far half holds, and the SEQ expected next. -/
structure Bridge where
  credits : Nat
  expect : Nat
  deriving DecidableEq, Repr, Inhabited

/-- A bridge after a block reset (R601). -/
def Bridge.reset : Bridge := ⟨128, 0⟩

/-! ## The checkpoint engine (19) -/

/-- A capture list (R549): references (BASE, BYTES), history addresses, statistics addresses. -/
structure CapList where
  refs : List (Nat × Nat)
  hist : List Nat
  stat : List Nat
  deriving DecidableEq, Repr, Inhabited

/-- One copy of CP_CMD, CP_CMD_STATUS and CP_STAGEw (R559); `cmd` is OP and SLICE of its pending command and
whether the secure world wrote it. -/
structure CpCopy where
  stage : List (Nat × Word)
  collide : Bool
  failIdx : Nat
  lastOp : Nat
  result : Nat
  cmd : Option (Nat × Nat × Bool)
  deriving DecidableEq, Repr, Inhabited

/-- A copy after a block reset. -/
def CpCopy.zero : CpCopy := ⟨[], false, 0, 0, 0, none⟩

/-- The checkpoint engine (R557, R559): its copies by host port (4 is the control register port's), the copy whose command runs with the
slice, its staging words and the list it reads, CP_FDTAG, and the words written to CP_OKEYs by 4·s + w. -/
structure Cp where
  copies : List (Nat × CpCopy)
  run : Option (Nat × Nat × Nat × List Word × CapList)
  fdtag : Nat
  okeys : List (Nat × Word)
  deriving DecidableEq, Repr, Inhabited

/-- The checkpoint engine after a cold reset. -/
def Cp.reset : Cp := ⟨[], none, 0, []⟩

/-! ## Clocks, reset and power (20) -/

/-- A block reset in progress (R536, R575): the phase it stands in (0 while BLK_COLD_N is low, 2 while TAMPER_N holds it, else 4), whether it is cold, the SCLK in
which it started and in which phase 3 ended. -/
structure RstRun where
  phase : Nat
  cold : Bool
  start : Nat
  ready : Nat
  deriving DecidableEq, Repr, Inhabited

/-- The clock, reset and power unit (R562 to R579). `sub` is the ROOTCLK count within an SCLK, `unitPos` within a throttle unit, `unit` the
unit within its frame; `thermHigh` and `pwrHigh` the SCLK for which each emergency pin has been high, `thermLow` and `pwrLow` for how
long it has not been high for good (R573); `gov` the governor's queue, `grants` the PCLK of its latest grants; `lastBusy` the PCLK in which a cluster (by number) or half (64 +
number) last failed the condition of its idle threshold. -/
structure Ck where
  divCode : Nat
  busy : Bool
  newDiv : Nat
  warmCount : Nat
  lastCause : Nat
  wakeWindow : Nat
  wakeLimit : Nat
  engOff : Nat
  clRet : Nat
  halfRet : Nat
  thermEvt : Nat
  pwrEvt : Nat
  duty : Nat
  refused : Bool
  sub : Nat
  unitPos : Nat
  unit : Nat
  thermHigh : Nat
  pwrHigh : Nat
  thermLow : Nat
  pwrLow : Nat
  gov : List Nat
  grants : List Nat
  lastBusy : List (Nat × Nat)
  halves : List Nat
  blockRet : Bool
  rst : Option RstRun
  /-- ROOTCLK has been absent since the last cold reset (R563). -/
  clkFault : Bool
  deriving DecidableEq, Repr, Inhabited

/-- The clock, reset and power unit at the end of a cold reset (R579). -/
def Ck.reset : Ck :=
  { divCode := 0, busy := false, newDiv := 0, warmCount := 0, lastCause := 1, wakeWindow := 0x320, wakeLimit := 4, engOff := 0x64,
    clRet := 0x3E8, halfRet := 0x2710, thermEvt := 0, pwrEvt := 0, duty := 0, refused := false, sub := 0, unitPos := 0, unit := 0,
    thermHigh := 1000, pwrHigh := 1000, thermLow := 0, pwrLow := 0, gov := [], grants := [], lastBusy := [], halves := [],
    blockRet := false, rst := none, clkFault := false }

/-! ## The state -/

/-- Reasons a command stops the run with a fault. -/
inductive Fault where
  /-- The command names a unit that this configuration does not hold (R34, R582): nothing outside can send it. Raised by
  the meaning of any command that names an instance. Safe: the model stops where no hardware exists. -/
  | absentUnit
  deriving DecidableEq, Repr

/-- Reasons a command is refused. -/
inductive Refusal where
  /-- The dispatch has no meaning for this row yet. Raised by Machine/Dispatch only. Safe. -/
  | notModelled (mnemonic : String)
  /-- An access of the command has to wait: for an earlier access to its line (R28), for a memory to leave retention (R276), for its port to
  take requests (R591), or for a sealed master's next window (R383). It is presented again when the wait is over. Raised by the meaning of a
  command that accesses memory. Safe: the model stops where the hardware goes on later. -/
  | accessWaits
  deriving DecidableEq, Repr

/-- What the block presented outside, or returned to a requester inside, newest first. -/
inductive Out where
  /-- The answer of a memory request to its master: a code of R442, and the line of a read. -/
  | reply (attr : Attr) (code : Nat) (data : Option Line)
  /-- The answer of a Tally operation to a requester outside the engines: the previous word where it returns one, and the status. -/
  | tally (half port : Nat) (value : Option Word) (denied collided : Bool)
  /-- A write to host memory through a host packet port: address and bytes. -/
  | hostWrite (port addr : Nat) (bytes : List Byte)
  /-- An event on a host packet port (R615). -/
  | event (port vec : Nat)
  /-- A read of host memory (R608). -/
  | hostRead (port tag addr len : Nat)
  /-- The completion of an inbound request (R612). -/
  | hostCpl (port : Nat) (c : HCpl)
  /-- A link frame handed to the MAC of a port (R343). -/
  | frame (port : Nat) (bytes : List Byte)
  /-- What an IEEE 1687 instrument shows (R505). -/
  | instrument (value : Word)
  /-- A row-repair request on a port's sideband (R594). -/
  | rowRepair (port id sub group sym : Nat)
  deriving DecidableEq, Repr

/-- The state of the block. -/
structure State where
  /-- Build parameters and straps. -/
  cfg : Cfg
  sv : Selvage
  /-- The Tally memories by half. -/
  tally : List (Nat × Tally)
  /-- The region table by index. -/
  regions : List (Nat × Region)
  slices : List (Nat × Slice)
  slm : Slm
  atu : List AtuEnt
  s2 : List S2Ent
  retJobs : List RetJob
  engines : List (Nat × Engine)
  clusters : List (Nat × Cluster)
  /-- Asynchronous operations not yet complete, in issue order. -/
  asyncs : List AsyncOp
  /-- Errors returned for requests and not yet handled (R180, R190). -/
  reqErrs : List ReqErr
  ctxs : List (Nat × Ctx)
  queues : List (Nat × Queue)
  memObjs : List (Nat × MemObj)
  rings : List (Nat × PortRing)
  /-- The edges of the host packet ports. -/
  hports : List (Nat × HPort)
  sched : Sched
  /-- Open receive windows by number. -/
  windows : List (Nat × RWin)
  bw : Bw
  pins : Pins
  fw : Fw
  ks : Ks
  lc : Lc
  links : Links
  /-- The receiving end of the half bridge, by half. -/
  bridge : List (Nat × Bridge)
  cp : Cp
  ck : Ck
  /-- MIN_SVN as the last reset read it from OTP (R510). -/
  minSvn : Nat
  /-- SCLK since both emergency pins were last high together without break (R460). -/
  emergQuiet : Nat
  /-- A tamper wipe is due (R277). -/
  wipeDue : Bool
  /-- PCLK since the block reset. -/
  pclk : Nat
  fc : Fc
  /-- What was presented, newest first. -/
  out : List Out
  /-- MODEL'S OWN: how many free values have been drawn. -/
  fresh : Nat
  /-- The commands waiting, first in first out. -/
  pending : List Instr
  deriving DecidableEq, Repr

/-! ## The state after reset (R52, R449) -/

/-- Window of slice 0 out of reset: DLIM of a port of capacity `cap` without a wide span (R52, R280). -/
def directWindow (cap : Nat) : Nat := cap - ceilDiv cap 15 - 1

/-- The descriptor of slice 0 out of reset, for a window of `win` units (R39, R52). -/
def directDesc (c : Cfg) (win : Nat) : List Word :=
  let engBits := c.engineList.foldl (fun a e => a + 2 ^ e) 0
  let subBits := c.subs.foldl (fun a i => a + 2 ^ i) 0
  [packWord [(38, 4, 2 ^ c.hostPorts - 1), (10, 11, 1)], packWord [(28, 18, 2 ^ c.linkPorts - 1)],
   BitVec.ofNat 64 engBits, BitVec.ofNat 64 (engBits / 2 ^ 64), BitVec.ofNat 64 (engBits / 2 ^ 128),
   BitVec.ofNat 64 (engBits / 2 ^ 192), BitVec.ofNat 64 subBits, BitVec.ofNat 64 (subBits / 2 ^ 64),
   packWord [(16, 14, win)], packWord [(12, 12, 2048)], 0, 0, 0, 0, 0, 0]

/-- Region 0 out of reset (R52). -/
def directRegion (n win : Nat) : Region := ⟨false, 0, 0, false, true, true, false, 0, 0, n * win⟩

/-- Context `p` of the hardwired dispatcher at generation `gen`, with its stream key (R449). -/
def directCtxAt (p gen : Nat) (key : Word) : Ctx :=
  { Ctx.zero with state := .live, gen := gen, ffence := 1024 * p, key := key }

/-- The Bolt regions of a cluster in direct mode (R261). -/
def directBolt (c : Cfg) (gen : Nat → Nat) : List (Nat × BoltRegion) :=
  (List.range c.hostPorts).map fun h => (h, ⟨true, false, h, gen h, 32 * h, 32⟩)

/-- The fences of the direct contexts at VALUE 0 (R449). -/
def directFences (c : Cfg) (gen : Nat → Nat) : List (Nat × Fence) :=
  (List.range c.hostPorts).flatMap fun p => (List.range 1024).map fun i => (1024 * p + i, ⟨0, 1, 0, 0, 0, p, gen p⟩)

/-- The Tally of half `h` at the end of a cold reset (R278, R449). -/
def directTally (c : Cfg) (h : Nat) : Tally :=
  { Tally.zero with fences := if h = 0 then directFences c fun _ => 0 else [],
                    alloc := (List.range c.hostPorts).map fun p => (p, (16 * p, 16)) }

/-- The machine at the end of phase 5 of a cold reset of the LU-48 configuration: slice 0 in direct mode. Keys that the DRBG draws are
free values. -/
def State.reset : State :=
  let c := lu48
  let win := directWindow (c.cap 0)
  let root : Key := Config.freeBits 256 0
  { cfg := c,
    sv := { ports := [], beats := [],
            kids := [(0, { Kid.zero with state := .installed, key := some (Config.freeBits 256 1) })], sweepEn := true,
            treeKeys := c.subs.map fun i => (i, Config.freeBits 256 (100 + i)), hopKey := Config.freeBits 256 2, hopCount := [],
            stuck := false },
    tally := (List.range c.halves).map fun h => (h, directTally c h),
    regions := [(0, directRegion c.subs.length win)],
    slices := [(0, { Slice.zero with desc := directDesc c win, state := .direct })],
    slm := { stage := [], busy := false, collide := false, target := 0, lastOp := 0, result := 0, captured := [], due := none,
             drain := none, buildLocked := false, lockAt := 0 },
    atu := [], s2 := [], retJobs := [], engines := [],
    clusters := (List.range c.clusters).map fun k => (k, { Cluster.zero with regions := directBolt c fun _ => 0 }),
    asyncs := [], reqErrs := [],
    ctxs := (List.range c.hostPorts).map fun p => (p, directCtxAt p 0 (Config.freeBits 64 (10 + p))),
    queues := [], memObjs := [], rings := [], hports := [],
    sched := { sl := [], beads := [], rods := [], order := [], ready := [], readyAt := [], fifo := [], beadSel := [] },
    windows := [], bw := Bw.reset,
    pins := { coldN := true, thermN := true, pwrN := true, tamperN := true, rootclk := 0, trayPwrReq := false },
    fw := Fw.reset, ks := Ks.reset 1 root (Config.freeBits 256 3),
    lc := Lc.reset [BitVec.allOnes 64, BitVec.allOnes 64, BitVec.allOnes 64, 0, 0]
      [(4, (root, BitVec.ofNat 64 ((Config.sha384 ((bytesOf 32 root).reverse ++ [3])).toNat / 2 ^ 320)))] 3,
    links := Links.reset, bridge := [], cp := Cp.reset, ck := Ck.reset,
    minSvn := 0, emergQuiet := 1000000, wipeDue := false, pclk := 0, fc := Fc.reset, out := [], fresh := 256, pending := [] }

end Sys2Proof.Machine
end

