-- ==== Sys2Proof/Machine/Ops.lean ====
section
/-! DEFINITION. Named operations over the state that every family uses: raising an error line, drawing a free value,
reading and changing one unit's record, and the answers of a command. -/
namespace Sys2Proof.Machine

/-- The outcome type of every meaning. -/
abbrev Res := Host.Outcome State Fault Refusal

/-- Answer the state that a command leaves; a command of which an access met a line that an earlier access still holds, or a memory in retention,
cannot occur yet: the memory engine takes the accesses to a line one after the other (R28), and a request waits for a wake (R276). -/
def settle (t : State) : Res :=
  if t.sv.stuck then .refused .accessWaits else .next t

/-- Run the effect `t` of an event where the condition that its rule gives holds in `s`; otherwise the event does not occur, and nothing changes. -/
def guardRes (s : State) (c : Bool) (t : State) : Res := if c then settle t else .next s

/-- As `guardRes`, for a command that names a unit the configuration may not hold. -/
def unitRes (present : Bool) (s : State) (c : Bool) (t : State) : Res :=
  if present then guardRes s c t else .fault .absentUnit

/-- An effect of a command that names a unit: a fault where the configuration does not hold it. -/
def hereRes (present : Bool) (t : State) : Res := if present then settle t else .fault .absentUnit

/-- An access of a command that names a unit: where it cannot start yet it waits. -/
def accessRes (present ready : Bool) (t : State) : Res :=
  if present then (if ready then settle t else .refused .accessWaits) else .fault .absentUnit

/-- Raise an event on an error line (R518): it waits for the collector's next classification. One instance presents at
most one event per SCLK on each line, so an event of the same line in this SCLK is the same event. -/
def raise (s : State) (src inst detail : Nat) (slice : Option Nat := none) (inj : Bool := false) : State :=
  if s.fc.lines.any (fun l => l.src = src && l.inst = inst && l.inj = inj && l.at' = s.fc.sclk) then s
  else { s with fc := { s.fc with lines := s.fc.lines ++ [⟨src, inst, slice, detail, inj, s.fc.sclk⟩] } }

/-- Draw a free value of `w` bits: the state counts the draws. -/
def draw (s : State) (w : Nat) : State × BitVec w :=
  ({ s with fresh := s.fresh + 1 }, Config.freeBits w s.fresh)

/-- Draw a free choice. -/
def drawBool (s : State) : State × Bool :=
  ((draw s 1).1, (draw s 1).2 = 1)

/-- Record what was presented. -/
def emit (s : State) (o : Out) : State := { s with out := o :: s.out }

/-! ## Memory ports -/

/-- The record of memory port `m`. -/
def portOf (s : State) (m : Nat) : MemPort := mget MemPort.reset s.sv.ports m

/-- Change the record of memory port `m`. -/
def modPort (s : State) (m : Nat) (f : MemPort → MemPort) : State :=
  { s with sv := { s.sv with ports := mmod MemPort.reset s.sv.ports m f } }

/-- The record of memory key identifier `n`. -/
def kidOf (s : State) (n : Nat) : Kid := mget Kid.zero s.sv.kids n

/-- Change the record of memory key identifier `n`. -/
def modKid (s : State) (n : Nat) (f : Kid → Kid) : State :=
  { s with sv := { s.sv with kids := mmod Kid.zero s.sv.kids n f } }

/-- The Tally memory of half `h`. -/
def tallyOf (s : State) (h : Nat) : Tally := mget Tally.zero s.tally h

/-- Change the Tally memory of half `h`. -/
def modTally (s : State) (h : Nat) (f : Tally → Tally) : State :=
  { s with tally := mmod Tally.zero s.tally h f }

/-- A valid region entry, if index `i` holds one. -/
def regionOf (s : State) (i : Nat) : Option Region :=
  (s.regions.find? fun e => e.1 = i).map (·.2)

/-- A fenced sub-channel (R525). -/
def subFenced (s : State) (m sub : Nat) : Bool := s.fc.subFenced.contains (4 * m + sub)

/-- A unit is held in its safe state (R523), alone or with the block: kind 1 an engine, 2 a cluster, 3 a link port, 4 a host port, 5 a
sub-channel, 6 a memory port. -/
def unitSafe (s : State) (kind u : Nat) : Bool := s.fc.blockSafe || s.fc.safe.any fun h => h.2.1 = kind && h.2.2 = u

/-! ## Slices and their descriptors (R39) -/

/-- Slice `n`. -/
def sliceOf (s : State) (n : Nat) : Slice := mget Slice.zero s.slices n

/-- Change slice `n`. -/
def modSlice (s : State) (n : Nat) (f : Slice → Slice) : State :=
  { s with slices := mmod Slice.zero s.slices n f }

/-- Word `w` of a descriptor. -/
def dw (d : List Word) (w : Nat) : Word := d.getD w 0
/-- HOSTS bitmap. -/
def dHosts (d : List Word) : Nat := field (dw d 0) 38 4
/-- KIND: 0 open, 1 confidential, 2 joint. -/
def dKind (d : List Word) : Nat := field (dw d 0) 36 2
/-- OWNERS_M1. -/
def dOwnersM1 (d : List Word) : Nat := field (dw d 0) 33 3
/-- SEALED. -/
def dSealed (d : List Word) : Bool := bit (dw d 0) 32
/-- SECURE. -/
def dSecure (d : List Word) : Bool := bit (dw d 0) 31
/-- KEYID_BASE. -/
def dKeyBase (d : List Word) : Nat := field (dw d 0) 21 10
/-- KEYID_COUNT. -/
def dKeyCount (d : List Word) : Nat := field (dw d 0) 10 11
/-- S2_TABLE. -/
def dS2Table (d : List Word) : Bool := bit (dw d 0) 9
/-- LINK_PORTS bitmap. -/
def dLinks (d : List Word) : Nat := field (dw d 1) 28 18
/-- LKEY_BASE. -/
def dLkeyBase (d : List Word) : Nat := field (dw d 1) 20 8
/-- LKEY_COUNT. -/
def dLkeyCount (d : List Word) : Nat := field (dw d 1) 11 9
/-- Whether engine `e` is in the bitmap. -/
def dHasEngine (d : List Word) (e : Nat) : Bool := bit (dw d (2 + e / 64)) (e % 64)
/-- Whether sub-channel index `i` is a member. -/
def dHasSub (d : List Word) (i : Nat) : Bool := if i < 64 then bit (dw d 6) i else i < 96 && bit (dw d 7) (i - 64)
/-- WIN_SIZE in 2 MiB units. -/
def dWinSize (d : List Word) : Nat := field (dw d 8) 16 14
/-- WIN_BASE in 2 MiB units. -/
def dWinBase (d : List Word) : Nat := field (dw d 8) 0 13
/-- CTX_COUNT. -/
def dCtxCount (d : List Word) : Nat := field (dw d 9) 12 12
/-- CTX_BASE. -/
def dCtxBase (d : List Word) : Nat := field (dw d 9) 0 11
/-- HOST_GUAR. -/
def dHostGuar (d : List Word) : Nat := field (dw d 10) 40 20
/-- LINK_GUAR. -/
def dLinkGuar (d : List Word) : Nat := field (dw d 10) 20 20
/-- MEM_GUAR. -/
def dMemGuar (d : List Word) : Nat := field (dw d 10) 0 20
/-- S2_ROOT as a set offset. -/
def dS2Root (d : List Word) : Nat := 131072 * field (dw d 11) 17 27

/-- Member sub-channels, ascending (R64). -/
def members (d : List Word) : List Nat := (List.range 96).filter (dHasSub d)
/-- Engines of a descriptor, ascending. -/
def dEngines (d : List Word) : List Nat := (List.range 256).filter (dHasEngine d)
/-- The slice, not FREE, in whose window a local line of a sub-channel lies. -/
def lineSlice (s : State) (m sub line : Nat) : Option Nat :=
  (List.range 16).find? fun n =>
    let x := sliceOf s n
    x.state ≠ .free && dHasSub x.desc (4 * m + sub) && dWinBase x.desc ≤ line / 16384 && line / 16384 < dWinBase x.desc + dWinSize x.desc

/-- The slice, not FREE, that holds a memory key identifier. -/
def sliceOfKey (s : State) (keyid : Nat) : Option Nat :=
  (List.range 16).find? fun n =>
    let x := sliceOf s n
    x.state ≠ .free && dKeyBase x.desc ≤ keyid && keyid < dKeyBase x.desc + dKeyCount x.desc

/-- The counts of a slice report's own lines: 0 TAGFAIL, 1 TREEFAIL, 2 REENC, 3 CE, 4 UE (R487). -/
def reportCount (s : State) (which : Nat) : Option Nat → State
  | none => s
  | some n =>
    let up (j x : Nat) : Nat := if j = which then satAdd (2 ^ 32 - 1) x 1 else x
    { s with ks := { s.ks with slices := mmod KSlice.zero s.ks.slices n fun k =>
        { k with cnt := (up 0 k.cnt.1, up 1 k.cnt.2.1, up 2 k.cnt.2.2.1, up 3 k.cnt.2.2.2.1, up 4 k.cnt.2.2.2.2) } } }

/-! ## Bandwidth counting (R377, R378, R387) -/

/-- The half whose regulator counts a master. -/
def masterHalf (c : Cfg) (kind master : Nat) : Nat :=
  match kind with
  | 0 => c.halfOfCluster (master / 4)
  | 1 => c.halfOfLink master
  | 2 => c.halfOfHost master
  | _ => c.halfOfMem (master % 32)

/-- The budget register of a requester. -/
def bwMaster (s : State) (a : Attr) : BwMaster :=
  if a.kind = 2 then mget BwMaster.zero s.bw.hosts (16 * a.master + a.slice)
  else mget BwMaster.zero s.bw.masters (256 * a.kind + (if a.kind = 3 then a.master % 32 else a.master))

/-- Change the budget register of a requester. -/
def modBwMaster (s : State) (a : Attr) (f : BwMaster → BwMaster) : State :=
  if a.kind = 2 then { s with bw := { s.bw with hosts := mmod BwMaster.zero s.bw.hosts (16 * a.master + a.slice) f } }
  else { s with bw := { s.bw with
    masters := mmod BwMaster.zero s.bw.masters (256 * a.kind + (if a.kind = 3 then a.master % 32 else a.master)) f } }

/-- Bytes held in a link port's receive buffer (R599). -/
def rxFill (s : State) (p : Nat) : Nat :=
  ((s.links.gather.filter fun g => g.port = p).map fun g => (g.frames.map fun f => f.2.length).foldl (· + ·) 0).foldl (· + ·) 0

/-- The urgency level of a buffer filled to `n` of `d` (R384). -/
def fillLevel (n d : Nat) : Nat := if 7 * d ≤ 8 * n then 3 else if 3 * d ≤ 4 * n then 2 else if d ≤ 2 * n then 1 else 0

/-- The urgency level of a link port: of its receive buffer of 256 KiB (R384, R599). -/
def linkUrg (s : State) (p : Nat) : Nat := fillLevel (rxFill s p) 262144

/-- The urgency level of a host port (R384). The model takes the 64 requests of R607 as the size of its request buffer and the 256 tags as that of
its completion buffer (DESIGN CHOICE, log 162). -/
def hostUrg (s : State) (p : Nat) : Nat :=
  let h := mget HPort.reset s.hports p
  max (fillLevel (64 - h.reqCred) 64) (fillLevel (h.tags.filter fun t => t.got ≠ []).length 256)

/-- The urgency level of a requester's port; other masters have none. -/
def urgOf (s : State) (a : Attr) : Nat := if a.kind = 1 then linkUrg s a.master else if a.kind = 2 then hostUrg s a.master else 0

/-- Over-budget lines of a window that go to tier 3 at an urgency level (R384). -/
def promotable (level budget : Nat) : Nat := if level = 2 then budget else if level = 3 then 3 * budget else 0

/-- Count `n` lines of a requester (R378, R387): those beyond its budget go over it, in tier 3 up to the allowance of R384 and else in tier 4. A
sealed slice does not borrow: its engines' and ports' requests beyond the budget wait for the next windows (R383), and a background agent's
reads for it are its own (R380). -/
def bwCount (s : State) (a : Attr) (n : Nat) : State :=
  let b := bwMaster s a
  let isSealed := b.isSealed || dSealed (sliceOf s a.slice).desc
  let waits := isSealed && a.kind ≠ 3
  let beyond := min n (b.used + n - b.budget)
  let up := min beyond (promotable (urgOf s a) b.budget - b.promoted)
  let s := modBwMaster s a fun b =>
    if waits then { b with used := max b.used (min b.budget (b.used + n)), owed := b.owed + beyond }
    else if isSealed then { b with used := satAdd 65535 b.used n }
    else { b with used := satAdd 65535 b.used n, wentOver := b.wentOver || beyond ≠ 0, promoted := b.promoted + up,
                  demoted := if beyond ≠ 0 && !b.wentOver then satAdd 65535 b.demoted 1 else b.demoted }
  let k := 128 * masterHalf s.cfg a.kind a.master + 8 * a.slice + a.bwclass
  { s with bw := { s.bw with served := mmod (0, 0) s.bw.served k fun c =>
      ((c.1 + n) % 2 ^ 64, if isSealed then c.2 else (c.2 + (beyond - up)) % 2 ^ 64) } }

/-- A sealed master with requests that wait for the next window: its later ones wait behind them (R383). -/
def bwWaits (s : State) (a : Attr) : Bool := (bwMaster s a).owed ≠ 0

/-! ## Ports of a Tally memory (R267) -/

/-- Clusters, link ports and host ports of half `h`, as counts. -/
def halfCounts (c : Cfg) (h : Nat) : Nat × Nat × Nat :=
  if h = 0 then (c.half0Clusters, c.portsHalf0 c.linkPorts, c.portsHalf0 c.hostPorts)
  else (c.half1Clusters, c.linkPorts - c.portsHalf0 c.linkPorts, c.hostPorts - c.portsHalf0 c.hostPorts)

/-- The number of Tally ports of half `h` (R267). -/
def tallyPorts (c : Cfg) (h : Nat) : Nat := let (a, b, d) := halfCounts c h; a + b + d + 3
/-- The half-bridge port of half `h`. -/
def bridgePort (c : Cfg) (h : Nat) : Nat := tallyPorts c h - 3
/-- The control port of half `h`. -/
def controlPort (c : Cfg) (h : Nat) : Nat := tallyPorts c h - 2
/-- The secure port of half `h`. -/
def securePort (c : Cfg) (h : Nat) : Nat := tallyPorts c h - 1

/-- A Tally memory in retention takes no access until its wake has ended (R275, R276), so that a command that accesses it cannot occur yet. -/
def awaitTally (s : State) (h : Nat) : State :=
  if (tallyOf s h).retained || (tallyOf s h).waking then { s with sv := { s.sv with stuck := true } } else s

/-- An operation of port `port` for which a command waits takes its slot: the pointer moves past the port (R268). -/
def portSlot (s : State) (h port : Nat) : State :=
  modTally (awaitTally s h) h fun t => { t with ptr := (port + 1) % tallyPorts s.cfg h }

/-! ## The slice reports (R487) -/

/-- What the key store holds of slice `n`. -/
def ksSlice (s : State) (n : Nat) : KSlice := mget KSlice.zero s.ks.slices n
/-- Change what the key store holds of slice `n`. -/
def modKsSlice (s : State) (n : Nat) (f : KSlice → KSlice) : State :=
  { s with ks := { s.ks with slices := mmod KSlice.zero s.ks.slices n f } }

/-- The content of the report of slice `n` changes, other than its counters: REPORT_SEQ rises (R487). -/
def reportChanged (s : State) (n : Nat) : State := modKsSlice s n fun k => { k with seq := k.seq + 1 }

/-- The reports of every slice that is not FREE change. -/
def reportsChanged (s : State) : State :=
  (List.range 16).foldl (fun t n => if (sliceOf t n).state = .free then t else reportChanged t n) s

/-! ## Error codes of R442 -/

/-- ABANDONED. -/
def cABANDONED : Nat := 0x0001
/-- TORN_DOWN. -/
def cTORN_DOWN : Nat := 0x0002
/-- PACKET_FORMAT. -/
def cPACKET_FORMAT : Nat := 0x0003
/-- PERMISSION. -/
def cPERMISSION : Nat := 0x0004
/-- NOT_NEGOTIATED. -/
def cNOT_NEGOTIATED : Nat := 0x0005
/-- EXHAUSTED. -/
def cEXHAUSTED : Nat := 0x0006
/-- STATE. -/
def cSTATE : Nat := 0x0007
/-- GANG_SIZE. -/
def cGANG_SIZE : Nat := 0x0008
/-- ROD_FULL. -/
def cROD_FULL : Nat := 0x0009
/-- BEAD_FULL. -/
def cBEAD_FULL : Nat := 0x000A
/-- TALLY_DATA. -/
def cTALLY_DATA : Nat := 0x000B
/-- FENCED_UNIT. -/
def cFENCED_UNIT : Nat := 0x000C
/-- DEBUG_TEARDOWN. -/
def cDEBUG_TEARDOWN : Nat := 0x000D
/-- GANG_LIST. -/
def cGANG_LIST : Nat := 0x000E
/-- GANG_TIMEOUT. -/
def cGANG_TIMEOUT : Nat := 0x000F
/-- POISON as a fence code: 0x0100 + CODE of R179. -/
def cPOISON : Nat := 0x0108
/-- ADDRESS with SUB as a fence code (R441). -/
def cADDRESS (sub : Nat) : Nat := 0x0200 + sub

/-- An ADDRESS code with the virtual address at which it arose, above bit 16 (R181); other codes carry none. -/
def codeAt (va c : Nat) : Nat := if 0x200 ≤ c && c < 0x300 then c + 65536 * va else c
/-- The code of R442 without the address it carries. -/
def codeKey (c : Nat) : Nat := c % 65536
/-- Return an error for a request of a context, to be handled under R180. -/
def pushErr (s : State) (ctx gen eng code : Nat) : State :=
  { s with reqErrs := s.reqErrs ++ [⟨ctx, gen, eng, codeKey code, code / 65536⟩] }

/-- The first of two errors. -/
def firstErr (a b : Option Nat) : Option Nat := if a.isSome then a else b

/-- Outcome of a translation, access or transfer: a value, or the error code of R442 that goes to the requester. -/
inductive Acc (α : Type) where
  | ok (a : α)
  | err (code : Nat)
  deriving DecidableEq, Repr

end Sys2Proof.Machine
end

