-- ==== Sys2Proof/Machine/Symbol.lean ====
section
/-! DEFINITION. The symbol code of the memory medium (R320 to R324), the beat layout (R585) and poison markers (R339). -/
namespace Sys2Proof.Machine

/-- The x of a codeword position (R321). -/
def symX (p : Nat) : Nat := if p < 32 then p % 16 else p - 32

/-- The y of a codeword position (R321). -/
def symY (p : Nat) : Nat := if p < 32 then p / 16 else if p = 35 then 3 else 2

/-- Symbol at codeword position `p` of stored word `k` of a beat (R320, R585). -/
def symAt (b : Beat) (k p : Nat) : Nat :=
  if p < 32 then field b (128 * k + 4 * p) 4 else field b (1024 + 16 * k + 4 * (p - 32)) 4

/-- A syndrome (S0, S1, S2, S3). -/
abbrev Syn := Nat × Nat × Nat × Nat

/-- The syndrome of the given positions (R321). -/
def synOf (v : Nat → Nat) : List Nat → Syn
  | [] => (0, 0, 0, 0)
  | p :: t =>
    let s := synOf v t
    let a := v p
    (s.1 ^^^ a, s.2.1 ^^^ gfMul a (symX p), s.2.2.1 ^^^ gfMul a (gfMul (symX p) (symX p)),
      s.2.2.2 ^^^ gfMul a (symY p))

/-- The syndrome of stored word `k`. -/
def wordSyn (b : Beat) (k : Nat) : Syn := synOf (symAt b k) (List.range 36)

/-- The check symbols of 32 data symbols, as the 16 sideband bits of a stored word (R322). -/
def checkBits (v : Nat → Nat) : Nat :=
  let P := synOf v (List.range 32)
  let c3 := P.2.2.2 ^^^ gfMul 2 P.1
  let A := P.1 ^^^ c3
  let B := P.2.1 ^^^ gfMul 3 c3
  let C := P.2.2.1 ^^^ gfMul (gfMul 2 2 ^^^ 1) c3
  let c2 := gfDiv (B ^^^ C) (gfMul 2 2 ^^^ 2)
  let c1 := B ^^^ gfMul 2 c2
  let c0 := A ^^^ c1 ^^^ c2
  c0 + 16 * c1 + 256 * c2 + 4096 * c3

/-- The sideband of a line. -/
def sideband (l : Line) : Nat :=
  (List.range 8).foldl (fun a k => a + checkBits (fun p => field l (128 * k + 4 * p) 4) * 2 ^ (16 * k)) 0

/-- The stored beat of a line (R320, R585). -/
def encodeBeat (l : Line) : Beat := BitVec.ofNat 1152 (l.toNat + sideband l * 2 ^ 1024)

/-- The line bits of a beat. -/
def beatLine (b : Beat) : Line := BitVec.ofNat 1024 b.toNat

/-- The poison marker: zero data, every word's check bits 0x1111 (R339, R588). -/
def poisonBeat : Beat :=
  BitVec.ofNat 1152 ((List.range 8).foldl (fun a k => a + 0x1111 * 2 ^ (16 * k)) 0 * 2 ^ 1024)

/-- What one stored word decodes to (R323). -/
inductive WordDec where
  | clean
  | fixed (p e : Nat)
  | bad
  deriving DecidableEq, Repr

/-- Decode a stored word by its syndrome (R323). -/
def decodeSyn (s : Syn) : WordDec :=
  if s = (0, 0, 0, 0) then .clean
  else if s.1 ≠ 0 && gfMul s.1 s.2.2.1 = gfMul s.2.1 s.2.1 then
    match (List.range 36).find? (fun p => symX p = gfDiv s.2.1 s.1 && symY p = gfDiv s.2.2.2 s.1) with
    | some p => .fixed p s.1
    | none => .bad
  else .bad

/-- What a stored line decodes to: its data; corrected, with the last corrected position; uncorrectable; or a poison
marker, clean or not (R323, R339). -/
inductive LineDec where
  | clean (l : Line)
  | corrected (l : Line) (sym : Nat)
  | uncorrectable
  | marker (whole : Bool)
  deriving DecidableEq, Repr

/-- The line with every corrected symbol restored. -/
def fixLine (l : Line) (ds : List (Nat × WordDec)) : Line :=
  ds.foldl (fun a d => match d.2 with
    | .fixed p e => if p < 32 then a ^^^ (BitVec.ofNat 1024 (e * 2 ^ (128 * d.1 + 4 * p))) else a
    | _ => a) l

/-- Decode a stored line (R323, R339). -/
def decodeBeat (b : Beat) : LineDec :=
  let syns := (List.range 8).map (wordSyn b)
  let marks := (syns.filter (· = (0, 0, 0, 1))).length
  if 7 ≤ marks then .marker (marks = 8)
  else
    let ds := ((List.range 8).zip (syns.map decodeSyn))
    if ds.any (fun d => d.2 = .bad) then .uncorrectable
    else match (ds.filterMap fun d => match d.2 with | .fixed p _ => some p | _ => none).getLast? with
      | some p => .corrected (fixLine (beatLine b) ds) p
      | none => .clean (beatLine b)

end Sys2Proof.Machine
end

