-- ==== Sys2Proof/Machine/Selvage.lean ====
section
/-! DEFINITION. The Selvage memory engine: geometry (R280 to R284), counters and the counter tree (R285 to R290), the
cipher and tags (R291 to R293), the metadata cache and node write-back (R294), stored-line reads with correction,
histories and poison (R323 to R340), and one access of each kind (R292, R297 to R303, R308). -/
namespace Sys2Proof.Machine

/-! ## Geometry -/

/-- 2 MiB. -/
def mib2 : Nat := 2097152

/-- PU for a capacity and a wide span (R280). -/
def puFor (cap wide : Nat) : Nat := cap - ceilDiv cap 15 - ceilDiv (37 * wide) 512

/-- Protected units of port `m` (R280, R281); 0 for a reserved strap (R589). -/
def puOf (s : State) (m : Nat) : Nat := if s.cfg.cap m = 0 then 0 else puFor (s.cfg.cap m) (portOf s m).wideSize

/-- DLIM of port `m` (R280). -/
def dlimOf (s : State) (m : Nat) : Nat := puOf s m - 1

/-- Round up to a 128-byte boundary. -/
def align128 (a : Nat) : Nat := ceilDiv a 128 * 128

/-- Nodes of level `k` (R284). -/
def nodesAt (s : State) (m : Nat) : Nat → Nat
  | 0 => 256 * puOf s m + 2048 * (portOf s m).wideSize
  | k + 1 => ceilDiv (nodesAt s m k) 64

/-- Start of the line tags: M0 (R284). -/
def tagBase (s : State) (m : Nat) : Nat := mib2 * puOf s m
/-- Start of the counter blocks. -/
def ctrBase (s : State) (m : Nat) : Nat := tagBase s m + 131072 * puOf s m
/-- Start of the wide counter blocks. -/
def wideBlkBase (s : State) (m : Nat) : Nat := ctrBase s m + 16384 * puOf s m
/-- Start of the array of level `k` nodes, for `k` from 1 (R284). -/
def levelBase (s : State) (m : Nat) : Nat → Nat
  | 0 => wideBlkBase s m + 131072 * (portOf s m).wideSize
  | 1 => align128 (wideBlkBase s m + 131072 * (portOf s m).wideSize)
  | k + 1 => align128 (levelBase s m k + 64 * nodesAt s m k)
/-- Start of the node tags. -/
def nodeTagBase (s : State) (m : Nat) : Nat := align128 (levelBase s m 3 + 64 * nodesAt s m 3)

/-- Local address of node `i` of level `lvl` (R284, R288). -/
def nodeAddr (s : State) (m lvl i : Nat) : Nat :=
  if lvl = 0 then
    if i < 256 * puOf s m then ctrBase s m + 64 * i else wideBlkBase s m + 64 * (i - 256 * puOf s m)
  else levelBase s m lvl + 64 * i

/-- Local address of the tag of node `i` of level `lvl` (R284). -/
def nodeTagAddr (s : State) (m lvl i : Nat) : Nat :=
  nodeTagBase s m + 8 * (((List.range lvl).map (nodesAt s m)).foldl (· + ·) 0 + i)

/-- Local address of the tag of local line `l`. -/
def lineTagAddr (s : State) (m l : Nat) : Nat := tagBase s m + 8 * l

/-! ## Stored lines -/

/-- Key of a stored line in the beat table. -/
def beatKey (m sub line : Nat) : Nat := 536870912 * m + 134217728 * sub + line

/-- The valid retirement entry that remaps a group (R334). -/
def retFor (s : State) (m sub group : Nat) : Option Nat :=
  mfind (fun i e => e.valid && e.frm = group && i / 256 % 4 = sub) (portOf s m).ret

/-- The line on the port after the retirement remap (R336, R585). -/
def physLine (s : State) (m sub line : Nat) : Nat :=
  match retFor s m sub (line / 64) with
  | some i => 64 * (256 * dlimOf s m + i % 256) + line % 64
  | none => line

/-- A sub-channel that takes no request now: its port is not ready (R591), a safe state holds it (R523), or its half is in RET (R276). -/
def portClosed (s : State) (m sub : Nat) : Bool :=
  !(portOf s m).ready || unitSafe s 6 m || unitSafe s 5 (4 * m + sub) || s.ck.halves.contains (s.cfg.halfOfMem m)

/-- An access begins at a line on the port: an earlier access that still waits for the line's beat comes first (R28), and the port takes requests. -/
def claimLine (s : State) (m sub phys : Nat) : State :=
  if portClosed s m sub || (portOf s m).tags.any fun t => t.sub = sub && t.line = phys && t.wait.isSome then
    { s with sv := { s.sv with stuck := true } }
  else s

/-- The stored beat of a line on the port. -/
def beatAt (s : State) (m sub phys : Nat) : Beat := mget 0 s.sv.beats (beatKey m sub phys)

/-- Store a beat. -/
def putBeat (s : State) (m sub phys : Nat) (b : Beat) : State :=
  { s with sv := { s.sv with beats := mset 0 s.sv.beats (beatKey m sub phys) b } }

/-- The medium's own changes before an access: bits that flipped (R320). -/
def applyMed (s : State) (m sub : Nat) (med : Med) : State :=
  med.flips.foldl (fun t f => putBeat t m sub f.1 (beatAt t m sub f.1 ^^^ f.2)) s

/-- Queue a retirement of a physical group (R333): with AUTO = 1, once, unless its sub-channel is fenced (R341). -/
def dueRetire (s : State) (m sub group sym : Nat) : State :=
  let p := portOf s m
  if p.auto && !(p.retireQ.any fun q => q.1 = sub && q.2.1 = group) then
    modPort s m fun p => { p with retireQ := p.retireQ ++ [(sub, group, sym, false)] }
  else s

/-- The history entry of a group, by index (R329). -/
def histFor (s : State) (m sub group : Nat) : Option Nat :=
  mfind (fun _ h => h.sub = sub && h.group = group) (portOf s m).hist

/-- The free history entry a new group takes: the lowest free, or the one of lowest COUNT, lowest index (R330). The
flag says that an entry is replaced. -/
def histSlot (h : List (Nat × Hist)) : Nat × Bool :=
  match (List.range 64).find? (fun j => !(h.any fun e => e.1 = j)) with
  | some j => (j, false)
  | none =>
    let low := h.foldl (fun a e => min a e.2.count) 255
    (((h.find? fun e => e.2.count = low).map (·.1)).getD 0, true)

/-- A corrected line (R330): CE, the error line, the history entry, and the retirement that CE_LIMIT starts (R333). -/
def noteCorrected (s : State) (m sub phys sym : Nat) : State :=
  let group := phys / 64
  let s := modPort s m fun p => { p with ce := satAdd 65535 p.ce 1 }
  let s := raise s 12 (4 * m + sub) (128 * phys)
  let p := portOf s m
  let (p, j) := match histFor s m sub group with
    | some j => (p, j)
    | none =>
      let (j, lost) := histSlot p.hist
      ({ p with histLost := if lost then satAdd 255 p.histLost 1 else p.histLost,
                hist := minsert p.hist j ⟨sub, group, 0, sym, false⟩ }, j)
  let h := mget ⟨sub, group, 0, sym, false⟩ p.hist j
  let h := { h with count := satAdd 255 h.count 1, lastSym := sym }
  let s := modPort s m fun _ => { p with hist := minsert p.hist j h }
  if max p.ceLimit 1 ≤ h.count then dueRetire s m sub group sym else s

/-- An uncorrectable line (R325, R332, R333). -/
def noteUncorrectable (s : State) (m sub phys : Nat) : State :=
  let group := phys / 64
  let s := modPort s m fun p =>
    { p with ue := satAdd 65535 p.ue 1,
             hist := p.hist.map fun e => if e.2.sub = sub && e.2.group = group then (e.1, { e.2 with ue := true }) else e }
  let s := raise s 13 (4 * m + sub) (128 * phys)
  let sym := ((portOf s m).hist.find? fun e => e.2.sub = sub && e.2.group = group).elim 0 (·.2.lastSym)
  dueRetire s m sub group sym

/-- What reading a stored line gives: line bits; a poison marker; uncorrectable; or an error response (R590). -/
inductive Stored where
  | data (l : Line)
  | marker
  | bad
  | cplErr
  deriving DecidableEq, Repr

/-- Read a stored line, data or metadata: decode, write a corrected line back, count, poison an uncorrectable data line
(R325, R339, R590). `errs` are the port lines that answer with CPL_ERR = 1. -/
def readStored (s : State) (m sub line : Nat) (isMeta : Bool) (errs : List Nat) : State × Stored :=
  let phys := physLine s m sub line
  let s := claimLine s m sub phys
  if errs.contains phys then
    (raise (modPort s m fun p => { p with errRsp := satAdd 65535 p.errRsp 1 }) 16 (4 * m + sub) (128 * phys), .cplErr)
  else match decodeBeat (beatAt s m sub phys) with
    | .clean l => (s, .data l)
    | .corrected l sym =>
      let s := if isMeta then s else reportCount s 3 (lineSlice s m sub line)
      (noteCorrected (putBeat s m sub phys (encodeBeat l)) m sub phys sym, .data l)
    | .marker whole => (if whole then s else putBeat s m sub phys poisonBeat, .marker)
    | .uncorrectable =>
      let s := noteUncorrectable (if isMeta then s else reportCount s 4 (lineSlice s m sub line)) m sub phys
      (if isMeta then s else putBeat s m sub phys poisonBeat, .bad)

/-- Take the response of an earlier write to a line on the port, so that a new request may go out (R587). -/
def settleLine (s : State) (m sub phys : Nat) : State :=
  modPort s m fun p => { p with tags := p.tags.filter fun t => !(t.sub = sub && t.line = phys && t.wait = none) }

/-- The lowest tag number free on a sub-channel (R586). -/
def freeTag (p : MemPort) (sub : Nat) : Nat :=
  ((List.range 1024).find? fun n => !(p.tags.any fun t => t.sub = sub && t.num = n)).getD 0

/-- Write a stored line, data or metadata, on the port: a request with a tag that its write response frees (R586, R590). -/
def writeLine (s : State) (m sub line : Nat) (attr : Attr) (b : Beat) : State :=
  let phys := physLine s m sub line
  let old := beatAt s m sub phys
  let s := settleLine (claimLine s m sub phys) m sub phys
  let s := modPort s m fun p =>
    { p with tags := p.tags ++ [⟨sub, freeTag p sub, phys, true, b, old, false, attr, none, none⟩] }
  putBeat s m sub phys b

/-- The attribute word of a port's background agent (R314): function 0 patrol scrub, 1 re-encryption and sweep, 2 retirement, 3 node
write-back, 4 checkpoint read. -/
def agentAttr (m fn keyid : Nat) : Attr :=
  { slice := 0, ctx := 0, gen := 0, keyid := keyid, bwclass := 0, sec := true, kind := 3, master := 32 * fn + m }

/-- Poison a data line (R339). -/
def poisonLine (s : State) (m sub line : Nat) : State := putBeat s m sub (physLine s m sub line) poisonBeat

/-! ## Cipher and tags -/

/-- The 34-bit LINE of a data line: bits [40:7] of its direct-form address (R63, R291). -/
def lineIndex (m sub line : Nat) : Nat := 2 ^ 29 * m + 2 ^ 27 * sub + line

/-- An AES input block (R291): DOM, KEYID, LINE, MINOR, BLK, MAJOR. -/
def aesBlock (dom keyid line minor blk major : Nat) : BitVec 128 :=
  BitVec.ofNat 128 (dom % 4 * 2 ^ 126 + keyid % 1024 * 2 ^ 116 + line % 2 ^ 34 * 2 ^ 82 + minor % 128 * 2 ^ 75 +
    blk % 8 * 2 ^ 72 + major % 2 ^ 64)

/-- A line counter: tree mode (MAJOR, MINOR) or wide mode. -/
structure Counter where
  wide : Bool
  major : Nat
  minor : Nat
  deriving DecidableEq, Repr

/-- The keystream of a line, as line bits (R292). -/
def keystream (k : Key) (keyid line : Nat) (c : Counter) : Line :=
  BitVec.ofNat 1024 (natOfBytes ((List.range 8).flatMap fun j =>
    bytesOfBlock (Config.aes256 k (aesBlock (b2n c.wide) keyid line c.minor j c.major))))

/-- Encrypt or decrypt a line (R292). -/
def cryptLine (k : Key) (keyid line : Nat) (c : Counter) (x : Line) : Line := x ^^^ keystream k keyid line c

/-- The 16-byte blocks of a byte string held in a vector. -/
def vecBlocks (n : Nat) (w : BitVec k) : List (BitVec 128) := blocksOf n (bytesOf (16 * n) w)

/-- A 64-bit tag over blocks under a key and a pad block (R292, R293). -/
def tagOf (k : Key) (blocks : List (BitVec 128)) (pad : BitVec 128) : Word :=
  let h := Config.aes256 k (BitVec.ofNat 128 (3 * 2 ^ 126))
  BitVec.ofNat 64 ((ghPoly h blocks ^^^ Config.aes256 k pad).toNat / 2 ^ 64)

/-- The tag of a ciphertext line (R292). -/
def lineTag (k : Key) (keyid line : Nat) (c : Counter) (ct : Line) : Word :=
  tagOf k (vecBlocks 8 ct) (aesBlock 2 keyid line c.minor 0 c.major)

/-- The tag of a node under its parent counter (R293). -/
def nodeTag (k : Key) (lvl i major minor : Nat) (n : Node) : Word :=
  tagOf k (vecBlocks 4 n) (aesBlock 2 lvl i minor 0 major)

/-- MAJOR of a counter block or node (R285). -/
def nMajor (n : Node) : Nat := field n 0 64
/-- MINOR[i] of a counter block or node. -/
def nMinor (n : Node) (i : Nat) : Nat := field n (64 + 7 * i) 7
/-- A node with MAJOR and every minor as given. -/
def mkNode (major : Nat) (minors : Nat → Nat) : Node :=
  BitVec.ofNat 512 ((List.range 64).foldl (fun a i => a + minors i % 128 * 2 ^ (64 + 7 * i)) (major % 2 ^ 64))
/-- A node with MINOR[i] set. -/
def setMinor (n : Node) (i v : Nat) : Node := setField n (64 + 7 * i) 7 v

/-! ## The tree roots (R288) -/

/-- Word index in the secure part of root entry `n` of sub-channel `sub` of port `m`. -/
def rootWord (s : State) (m sub n : Nat) : Nat :=
  let first := if s.cfg.halfOfMem m = 0 then 0 else s.cfg.half0Clusters / 2
  64 * (4 * (m - first) + sub) + n

/-- A root entry. -/
def rootOf (s : State) (m sub n : Nat) : Nat :=
  (mget 0 (tallyOf s (s.cfg.halfOfMem m)).sec (rootWord s m sub n)).toNat

/-- Add 1 to a root entry, through the secure port (R267); during a wipe the port answers DENIED (R277). -/
def bumpRoot (s : State) (m sub n : Nat) : State :=
  let h := s.cfg.halfOfMem m
  modTally (portSlot s h (securePort s.cfg h)) h fun t =>
    if t.wiping then t else { t with sec := mmod 0 t.sec (rootWord s m sub n) (· + 1) }

/-- The tree key of a sub-channel (R289). -/
def treeKey (s : State) (m sub : Nat) : Key := mget 0 s.sv.treeKeys (4 * m + sub)

/-! ## The metadata cache (R294) -/

/-- A cached line. -/
def cacheFind (p : MemPort) (sub line : Nat) : Option CLine := p.cache.find? fun c => c.sub = sub && c.line = line

/-- Whether a half of a cached line is held. -/
def CLine.held (c : CLine) (half : Nat) : Bool := if half = 0 then c.v0 else c.v1

/-- A half of a cached line as a node. -/
def CLine.node (c : CLine) (half : Nat) : Node := BitVec.ofNat 512 (c.data.toNat / 2 ^ (512 * half))

/-- Replace a half. -/
def CLine.setNode (c : CLine) (half : Nat) (n : Node) (dirty : Bool) : CLine :=
  let d := setField c.data (512 * half) 512 n.toNat
  if half = 0 then { c with data := d, v0 := true, dirty0 := c.dirty0 || dirty }
  else { c with data := d, v1 := true, dirty1 := c.dirty1 || dirty }

/-- Put a line at the front of the cache (most recently used). -/
def cacheTouch (p : MemPort) (c : CLine) : MemPort :=
  { p with cache := c :: p.cache.filter fun x => !(x.sub = c.sub && x.line = c.line) }

/-- Which node a cached half holds, by its local address: level and index, or none for a tag line (R284). -/
def nodeAtAddr (s : State) (m addr : Nat) : Option (Nat × Nat) :=
  if addr < ctrBase s m then none
  else if addr < wideBlkBase s m then some (0, (addr - ctrBase s m) / 64)
  else if addr < levelBase s m 0 then some (0, 256 * puOf s m + (addr - wideBlkBase s m) / 64)
  else if addr < levelBase s m 2 then some (1, (addr - levelBase s m 1) / 64)
  else if addr < levelBase s m 3 then some (2, (addr - levelBase s m 2) / 64)
  else if addr < nodeTagBase s m then some (3, (addr - levelBase s m 3) / 64)
  else none

/-- A failed node (R300), met for a request of a slice, if one is known. -/
def treeFail (s : State) (m sub detail : Nat) (slice : Option Nat) : State :=
  let s := reportCount s 1 slice
  raise (modPort s m fun p => { p with treefail := satAdd 65535 p.treefail 1 }) 11 (4 * m + sub) detail

/-- Overwrite `n` bits at a local address of a stored metadata line, keeping the rest, as the agent of function `fn` (R314). The line is read
as every stored line is (R325); of one that cannot be read nothing is kept, and it counts as a failed node. -/
def patchStored (s : State) (m sub addr n v fn keyid : Nat) : State :=
  let line := addr / 128
  let (s, r) := readStored s m sub line true []
  let put (s : State) (base : Line) : State :=
    writeLine s m sub line (agentAttr m fn keyid) (encodeBeat (setField base (8 * (addr % 128)) n v))
  match r with
  | .data l => put s l
  | _ => put (treeFail s m sub addr (sliceOfKey s keyid)) 0

/-- The 64-bit word of a stored metadata line at a local address, read as any stored line is. -/
def readStoredWord (s : State) (m sub addr : Nat) (errs : List Nat) : State × Stored × Nat :=
  match readStored s m sub (addr / 128) true errs with
  | (s, .data l) => (s, .data l, field l (8 * (addr % 128)) 64)
  | (s, r) => (s, r, 0)

/-- What fetching a node gives: the node, a verification failure, or an error response. -/
inductive NodeRes where
  | node (n : Node)
  | fail
  deriving DecidableEq, Repr


/-- A source of nodes: what `nodeGet` at a lower fuel provides to the operations it needs. -/
abbrev Getter := State → Nat → Nat → Nat → State × NodeRes

/-- Put a changed node into the cache; its line is there when it was just read. -/
def nodePut (s : State) (m sub lvl i keyid : Nat) (n : Node) : State :=
  let addr := nodeAddr s m lvl i
  modPort s m fun p =>
    let c := (cacheFind p sub (addr / 128)).getD ⟨sub, addr / 128, keyid, false, false, false, false, 0⟩
    cacheTouch p (c.setNode (addr / 64 % 2) n true)

/-- A stored node with its tag, read as every stored line is (R325), where the tag verifies under its parent counter (R293). -/
def readNode (s : State) (m sub lvl i major minor : Nat) (errs : List Nat) : State × Acc (Option Node) :=
  let addr := nodeAddr s m lvl i
  match readStored s m sub (addr / 128) true errs with
  | (s, .data l) =>
    let n : Node := BitVec.ofNat 512 (l.toNat / 2 ^ (512 * (addr / 64 % 2)))
    match readStoredWord s m sub (nodeTagAddr s m lvl i) errs with
    | (s, .data _, t) => (s, .ok (if (nodeTag (treeKey s m sub) lvl i major minor n).toNat = t then some n else none))
    | (s, .cplErr, _) => (s, .err 0)
    | (s, _, _) => (s, .ok none)
  | (s, .cplErr) => (s, .err 0)
  | (s, _) => (s, .ok none)

/-- Re-tag one written child of a node under minor 1 of the raised major (R303): its stored contents do not change. A child that does not verify
keeps its tag, so that it still fails (R300). -/
def retagChild (s : State) (m sub lvl ci oldMajor oldMinor major keyid : Nat) : State :=
  match readNode s m sub lvl ci oldMajor oldMinor [] with
  | (s, .ok (some n)) => patchStored s m sub (nodeTagAddr s m lvl ci) 64 (nodeTag (treeKey s m sub) lvl ci major 1 n).toNat 3 keyid
  | (s, _) => treeFail s m sub (nodeAddr s m lvl ci) (sliceOfKey s keyid)

/-- Re-tag, under minor 1 of the raised major, every written child of node `i` of level `lvl` (R303). -/
def retagChildren (s : State) (m sub lvl i : Nat) (n : Node) (major keyid : Nat) : State :=
  (List.range 64).foldl (fun t j =>
    if nMinor n j = 0 then t else retagChild t m sub (lvl - 1) (64 * i + j) (nMajor n) (nMinor n j) major keyid) s

/-- Raise the counter of a node in its parent, or the root entry of a level-3 node (R294), and give the counter the
node's new tag binds. A minor that would pass 127 raises the parent's MAJOR (R303). -/
def bumpParent (get : Getter) (s : State) (m sub lvl i keyid : Nat) : State × Option (Nat × Nat) :=
  if lvl = 3 then
    let s := bumpRoot s m sub i
    (s, some (rootOf s m sub i, 0))
  else match get s sub (lvl + 1) (i / 64) with
    | (s, .fail) => (s, none)
    | (s, .node p) =>
      let j := i % 64
      if nMinor p j < 127 then
        (nodePut s m sub (lvl + 1) (i / 64) keyid (setMinor p j (nMinor p j + 1)), some (nMajor p, nMinor p j + 1))
      else
        let s := retagChildren s m sub (lvl + 1) (i / 64) p (nMajor p + 1) keyid
        let q := mkNode (nMajor p + 1) fun c => if nMinor p c = 0 then 0 else 1
        (nodePut s m sub (lvl + 1) (i / 64) keyid q, some (nMajor p + 1, 1))

/-- Write a node back as the agent of function `fn`: raise its counter, store it, store its new tag (R294). -/
def writeBackNode (get : Getter) (s : State) (m sub lvl i keyid fn : Nat) (n : Node) : State :=
  match bumpParent get s m sub lvl i keyid with
  | (s, none) => s
  | (s, some (major, minor)) =>
    let s := patchStored s m sub (nodeAddr s m lvl i) 512 n.toNat fn keyid
    patchStored s m sub (nodeTagAddr s m lvl i) 64 (nodeTag (treeKey s m sub) lvl i major minor n).toNat fn keyid

/-- Write one dirty half of a cached line back, node or tags. -/
def writeBackHalf (get : Getter) (s : State) (m : Nat) (c : CLine) (half fn : Nat) : State :=
  let addr := 128 * c.line + 64 * half
  match nodeAtAddr s m addr with
  | some (lvl, i) => writeBackNode get s m c.sub lvl i c.keyid fn (c.node half)
  | none => patchStored s m c.sub addr 512 (c.node half).toNat fn c.keyid

/-- Write a cached line back (R294); with the roots lost nothing is written to protected lines (R290). -/
def writeBackLine (get : Getter) (s : State) (m : Nat) (c : CLine) (fn : Nat) : State :=
  if (portOf s m).lost then s
  else
    let s := if c.dirty0 then writeBackHalf get s m c 0 fn else s
    if c.dirty1 then writeBackHalf get s m c 1 fn else s

/-- Drop a line from the cache. -/
def cacheDrop (s : State) (m sub line : Nat) : State :=
  modPort s m fun p => { p with cache := p.cache.filter fun x => !(x.sub = sub && x.line = line) }

/-- The least recently used line of a full set (R294: 16 ways). -/
def victim (p : MemPort) (sub line : Nat) : Option CLine :=
  let set := p.cache.filter fun c => Config.cacheSet c.sub c.line % 512 = Config.cacheSet sub line % 512
  if set.length < 16 then none else set.getLast?

/-- Make room for a line: evict, write back first, each under the identifier of the evicted line (R294). -/
def makeRoom (get : Nat → Getter) : Nat → State → Nat → Nat → Nat → State
  | 0, s, _, _, _ => s
  | n + 1, s, m, sub, line =>
    match victim (portOf s m) sub line with
    | none => s
    | some c => makeRoom get n (writeBackLine (get c.keyid) (cacheDrop s m c.sub c.line) m c 3) m sub line

/-- Bring a node into the cache for a request under `keyid` and verify it against its parent counter (R288, R293, R300); `fuel` bounds the
chain of fetches and evictions that one fetch can start. -/
def nodeGet (errs : List Nat) (m : Nat) : Nat → Nat → Getter
  | 0, _, s, _, _, _ => (s, .fail)
  | fuel + 1, keyid, s, sub, lvl, i =>
    let get := nodeGet errs m fuel
    let addr := nodeAddr s m lvl i
    let half := addr / 64 % 2
    match cacheFind (portOf s m) sub (addr / 128) with
    | some c =>
      if c.held half then (modPort s m fun p => cacheTouch p { c with keyid := keyid }, .node (c.node half))
      else fetch get keyid s sub lvl i addr half
    | none => fetch get keyid s sub lvl i addr half
where
  /-- Put a verified node into the cache, making room for its line. -/
  insert (get : Nat → Getter) (keyid : Nat) (s : State) (sub addr half : Nat) (n : Node) : State :=
    let s := if (cacheFind (portOf s m) sub (addr / 128)).isSome then s else makeRoom get 4 s m sub (addr / 128)
    modPort s m fun p =>
      let c := (cacheFind p sub (addr / 128)).getD ⟨sub, addr / 128, keyid, false, false, false, false, 0⟩
      cacheTouch p ({ c with keyid := keyid }.setNode half n false)
  /-- Fetch a node that is not in the cache. -/
  fetch (get : Nat → Getter) (keyid : Nat) (s : State) (sub lvl i addr half : Nat) : State × NodeRes :=
    let (s, parent) : State × Option (Nat × Nat) :=
      if lvl = 3 then (s, some (rootOf s m sub i, 0))
      else match get keyid s sub (lvl + 1) (i / 64) with
        | (s, .node p) => (s, some (nMajor p, nMinor p (i % 64)))
        | (s, .fail) => (s, none)
    match parent with
    | none => (s, .fail)
    | some (major, minor) =>
      if (lvl = 3 && major = 0) || (lvl ≠ 3 && minor = 0) then (insert get keyid s sub addr half 0, .node 0)
      else match readNode s m sub lvl i major minor errs with
        | (s, .ok (some n)) => (insert get keyid s sub addr half n, .node n)
        | (s, .ok none) => (treeFail s m sub addr (sliceOfKey s keyid), .fail)
        | (s, .err _) => (s, .fail)

/-- The fuel of a fetch: four levels, each with its evictions. -/
def treeFuel : Nat := 24

/-- Fetch a level-0 node for an access under `keyid`. -/
def getCtr (s : State) (m sub i keyid : Nat) (errs : List Nat) : State × NodeRes :=
  nodeGet errs m treeFuel keyid s sub 0 i

/-- The node source that a write-back outside a fetch uses. -/
def wbGet (m keyid : Nat) : Getter := nodeGet [] m treeFuel keyid

/-- The tag of a line, through the metadata cache; none where the tag line cannot be read (R300, R325). -/
def getTag (s : State) (m sub line keyid : Nat) (errs : List Nat) : State × Option Nat :=
  let addr := lineTagAddr s m line
  match cacheFind (portOf s m) sub (addr / 128) with
  | some c => (modPort s m fun p => cacheTouch p { c with keyid := keyid }, some (field c.data (8 * (addr % 128)) 64))
  | none =>
    match readStored s m sub (addr / 128) true errs with
    | (s, .data l) =>
      let s := makeRoom (wbGet m) 4 s m sub (addr / 128)
      (modPort s m fun p => cacheTouch p ⟨sub, addr / 128, keyid, true, true, false, false, l⟩,
        some (field l (8 * (addr % 128)) 64))
    | (s, .cplErr) => (s, none)
    | (s, _) => (treeFail s m sub addr (sliceOfKey s keyid), none)

/-- Set the tag of a line in the metadata cache. A tag line that cannot be read is not cached (R300): the new tag is lost with it, and the line
stays unreadable. -/
def putTag (s : State) (m sub line keyid : Nat) (tag : Word) : State :=
  let addr := lineTagAddr s m line
  match getTag s m sub line keyid [] with
  | (s, none) => s
  | (s, some _) =>
    modPort s m fun p =>
      let c := (cacheFind p sub (addr / 128)).getD ⟨sub, addr / 128, keyid, true, true, false, false, 0⟩
      let c := { c with data := setField c.data (8 * (addr % 128)) 64 tag.toNat }
      cacheTouch p (if addr / 64 % 2 = 0 then { c with dirty0 := true } else { c with dirty1 := true })

/-! ## Line counters -/

/-- Whether a line of a request is in wide mode (R287): its region has WIDE = 1 and it lies in the wide span. -/
def wideMode (s : State) (r : MemReq) : Bool :=
  ((r.region.bind (regionOf s)).elim false (·.wide)) &&
    (portOf s r.port).wideBase ≤ r.line / 16384 &&
    r.line / 16384 < (portOf s r.port).wideBase + (portOf s r.port).wideSize

/-- The level-0 node of a line and the line's place in it (R285, R287). -/
def ctrPlace (s : State) (m line : Nat) (wide : Bool) : Nat × Nat :=
  if wide then
    (256 * puOf s m + 8 * (line / 64 - 256 * (portOf s m).wideBase) + line % 64 / 8, line % 8)
  else (line / 64, line % 64)

/-- The counter of a line in its node, and whether it is a zero line (R286, R287). -/
def ctrRead (n : Node) (i : Nat) (wide : Bool) : Counter × Bool :=
  if wide then
    let w := field n (64 * i) 64
    (⟨true, w % 2 ^ 63, 0⟩, w = 0 || 2 ^ 63 ≤ w)
  else (⟨false, nMajor n, nMinor n i⟩, nMinor n i = 0)

/-- Count one line encryption under an identifier (R305): USES, and OVER where the budget is reached and no sweep may
start because SWEEP_EN = 0 (R307). -/
def countUse (s : State) (keyid : Nat) : State :=
  modKid s keyid fun k =>
    let u := satAdd (2 ^ 49 - 1) k.uses 1
    { k with uses := u, overBudget := k.overBudget || (u ≥ 2 ^ 48 && !s.sv.sweepEn) }

/-- The key of an identifier, if one is installed (R56). -/
def keyFor (s : State) (keyid : Nat) : Option Key := (kidOf s keyid).key

/-- A tag failure (R298): TAGFAIL, the error line (engine code m, R316), and the poisoned line. -/
def tagFail (s : State) (m sub line : Nat) : State :=
  let s := reportCount s 0 (lineSlice s m sub line)
  poisonLine (raise (modPort s m fun p => { p with tagfail := satAdd 65535 p.tagfail 1 }) 10 m (128 * lineIndex m sub line))
    m sub line

/-- The plaintext of a stored, non-zero line under a counter; none where it is poison or fails (R292, R298, R339). An uncorrectable line that a
partial write would merge (`merge`) counts as a tag failure (R299, R341). -/
def openLine (s : State) (m sub line keyid : Nat) (c : Counter) (errs : List Nat) (merge : Bool := false) : State × Option Line :=
  match readStored s m sub line false errs with
  | (s, .bad) => (if merge then tagFail s m sub line else s, none)
  | (s, .data ct) =>
    match keyFor s keyid with
    | none => (s, none)
    | some k =>
      match getTag s m sub line keyid errs with
      | (s, none) => (s, none)
      | (s, some t) =>
        if (lineTag k keyid (lineIndex m sub line) c ct).toNat = t then
          (s, some (cryptLine k keyid (lineIndex m sub line) c ct))
        else (tagFail s m sub line, none)
  | (s, _) => (s, none)

/-- Encrypt, tag and store a line under a counter (R292). -/
def sealLine (s : State) (m sub line keyid : Nat) (attr : Attr) (c : Counter) (pt : Line) : State :=
  match keyFor s keyid with
  | none => s
  | some k =>
    let ct := cryptLine k keyid (lineIndex m sub line) c pt
    let s := countUse s keyid
    let s := putTag s m sub line keyid (lineTag k keyid (lineIndex m sub line) c ct)
    writeLine s m sub line attr (encodeBeat ct)


/-- Re-encrypt one line of a group from key `ka` to key `kb` between two counters; a line that fails stays poisoned. -/
def reencLine (s : State) (m sub line ka kb : Nat) (ca cb : Counter) (errs : List Nat) : State :=
  match openLine s m sub line ka ca errs with
  | (s, some pt) => sealLine s m sub line kb (agentAttr m 1 kb) cb pt
  | (s, none) => s

/-- Group re-encryption (R301) from key `ka` to key `kb`: every written line under minor 1 of the raised MAJOR, or, in
wide mode, under its next counter. Counts REENC (R319). With the roots lost it is not performed (R290, R318). -/
def reencGroup (s : State) (m sub g ka kb : Nat) (wide : Bool) (errs : List Nat) : State :=
  if (portOf s m).lost then s else
  let s := reportCount (modPort s m fun p => { p with reenc := satAdd 65535 p.reenc 1 }) 2 (lineSlice s m sub (64 * g))
  if wide then
    (List.range 64).foldl (fun t i =>
      let line := 64 * g + i
      let (nd, pos) := ctrPlace t m line true
      match getCtr t m sub nd kb errs with
      | (t, .fail) => t
      | (t, .node n) =>
        let (c, z) := ctrRead n pos true
        if z then t
        else
          let c' : Counter := { c with major := c.major + 1 }
          reencLine (nodePut t m sub 0 nd kb (setField n (64 * pos) 64 (c'.major % 2 ^ 63))) m sub line ka kb c c' errs) s
  else
    match getCtr s m sub g kb errs with
    | (s, .fail) => s
    | (s, .node n) =>
      let major := (nMajor n + 1) % 2 ^ 64
      let s := (List.range 64).foldl (fun t i =>
        if nMinor n i = 0 then t
        else reencLine t m sub (64 * g + i) ka kb ⟨false, nMajor n, nMinor n i⟩ ⟨false, major, 1⟩ errs) s
      nodePut s m sub 0 g kb (mkNode major fun i => if nMinor n i = 0 then 0 else 1)

/-! ## One access -/

/-- The answer of an access: a line, an accepted write, or an error code of R442. -/
inductive SvRes where
  | data (l : Line)
  | done
  | fail (code : Nat)
  deriving DecidableEq, Repr

/-- The sweep at the request's port whose region holds the line, if the line's group is not yet visited (R308). -/
def unvisited (s : State) (r : MemReq) : Option Sweep :=
  (portOf s r.port).sweeps.find? fun w =>
    w.dst = r.attr.keyid && r.region.elim false w.rgns.contains &&
    (w.next < r.line / 64 || (w.next = r.line / 64 && w.nextSub ≤ r.sub)) && !(w.early.contains (4 * (r.line / 64) + r.sub))

/-- The request with the identifier it is served under: once a sweep has started, one that still carries the source A is served under B, so
that no line is encrypted under A (R308). -/
def liveReq (s : State) (r : MemReq) : MemReq :=
  if (kidOf s r.attr.keyid).state = .sweepSource then { r with attr := { r.attr with keyid := (kidOf s r.attr.keyid).partner } } else r

/-- The checks before an access: a fenced or absent sub-channel (R525), the region's world (R58), LOST (R290), the key (R56). -/
def svCheck (s : State) (r : MemReq) : Option Nat :=
  if subFenced s r.port r.sub then some cFENCED_UNIT
  else if ((r.region.bind (regionOf s)).elim false (·.secure)) && !r.attr.sec then some (cADDRESS 6)
  else if (portOf s r.port).lost then some cPOISON
  else if (keyFor s r.attr.keyid).isNone then some (cADDRESS 7)
  else none

/-- Change the sweep to `dst` at a port. -/
def modSweep (s : State) (m dst : Nat) (f : Sweep → Sweep) : State :=
  modPort s m fun p => { p with sweeps := p.sweeps.map fun w => if w.dst = dst then f w else w }

/-- The group visit that a write to an unvisited group does first (R308). -/
def visitFirst (s : State) (r : MemReq) (errs : List Nat) : State :=
  match unvisited s r with
  | some w =>
    let s := reencGroup s r.port r.sub (r.line / 64) w.src r.attr.keyid (wideMode s r) errs
    modSweep s r.port w.dst fun w => { w with early := sins w.early (4 * (r.line / 64) + r.sub) }
  | none => s

/-- A read of one line (R292, R286, R298, R308), for a requester or for the merge of a partial write. -/
def svReadFor (merge : Bool) (s : State) (r : MemReq) (errs : List Nat) : State × SvRes :=
  let r := liveReq s r
  match svCheck s r with
  | some c => (s, .fail c)
  | none =>
    let s := claimLine s r.port r.sub (physLine s r.port r.sub r.line)
    let wide := wideMode s r
    let kid := (unvisited s r).elim r.attr.keyid (·.src)
    let (nd, pos) := ctrPlace s r.port r.line wide
    match getCtr s r.port r.sub nd r.attr.keyid errs with
    | (s, .fail) => (s, .fail cPOISON)
    | (s, .node n) =>
      let (c, z) := ctrRead n pos wide
      if z then (s, .data 0)
      else match openLine s r.port r.sub r.line kid c errs merge with
        | (s, some pt) => (s, .data pt)
        | (s, none) => (s, .fail cPOISON)

/-- A read of one line. -/
def svRead (s : State) (r : MemReq) (errs : List Nat) : State × SvRes := svReadFor false s r errs

/-- Raise a line's counter for a write and store the line (R286, R287, R292, R301): a minor that would pass 127
re-encrypts the group first. -/
def svStore (s : State) (r : MemReq) (pt : Line) (errs : List Nat) : State × SvRes :=
  let wide := wideMode s r
  let kid := r.attr.keyid
  let (nd, pos) := ctrPlace s r.port r.line wide
  match getCtr s r.port r.sub nd kid errs with
  | (s, .fail) => (s, .fail cPOISON)
  | (s, .node n) =>
    if wide then
      let v := (ctrRead n pos true).1.major + 1
      let s := nodePut s r.port r.sub 0 nd kid (setField n (64 * pos) 64 (v % 2 ^ 63))
      (sealLine s r.port r.sub r.line kid r.attr ⟨true, v, 0⟩ pt, .done)
    else
      let s := if nMinor n pos < 127 then s else reencGroup s r.port r.sub nd kid kid false errs
      match getCtr s r.port r.sub nd kid errs with
      | (s, .fail) => (s, .fail cPOISON)
      | (s, .node n) =>
        let v := nMinor n pos + 1
        let s := nodePut s r.port r.sub 0 nd kid (setMinor n pos v)
        (sealLine s r.port r.sub r.line kid r.attr ⟨false, nMajor n, v⟩ pt, .done)

/-- A write of a whole line (R292, R340: it clears poison). -/
def svWriteFull (s : State) (r : MemReq) (pt : Line) (errs : List Nat) : State × SvRes :=
  let r := liveReq s r
  match svCheck s r with
  | some c => (s, .fail c)
  | none => svStore (visitFirst (claimLine s r.port r.sub (physLine s r.port r.sub r.line)) r errs) r pt errs

/-- The bytes of a mask set in `new`, the others of `old`. -/
def mergeLine (mask : BitVec 128) (old new : Line) : Line :=
  BitVec.ofNat 1024 (natOfBytes ((List.range 128).map fun j =>
    if mask.getLsbD j then BitVec.ofNat 8 (new.toNat / 2 ^ (8 * j)) else BitVec.ofNat 8 (old.toNat / 2 ^ (8 * j))))

/-- A partial write (R297, R299): read, verify, merge, and store; not performed where the old line is poison. -/
def svWritePartial (s : State) (r : MemReq) (mask : BitVec 128) (new : Line) (errs : List Nat) : State × SvRes :=
  let r := liveReq s r
  match svCheck s r with
  | some c => (s, .fail c)
  | none =>
    match svReadFor true (visitFirst s r errs) r errs with
    | (s, .data old) => svStore s r (mergeLine mask old new) errs
    | (s, x) => (s, x)

end Sys2Proof.Machine
end

