-- ==== Sys2Proof/Machine/Translate.lean ====
section
/-! DEFINITION. Slice descriptors (R39), the interleave set (R63, R64), stage 2 (R65, R66), stage 1 and the entry format
(R67, R68), translation errors (R69) and the translation caches (R70); reads and writes of memory by slice physical
and by context virtual address. -/
namespace Sys2Proof.Machine

/-! ## Slices and their descriptors (R39) -/

/-- Set capacity in bytes (R64). -/
def capacity (d : List Word) : Nat := mib2 * ((members d).length * dWinSize d)

/-- The port, sub-channel and local address of a set offset (R64); SET_RANGE at or above the capacity. -/
def resolve (d : List Word) (so : Nat) : Acc (Nat × Nat × Nat) :=
  let ms := members d
  if capacity d ≤ so then .err (cADDRESS 5)
  else
    let g := so / 8192
    let sub := ms.getD (g % ms.length) 0
    .ok (sub / 4, sub % 4, mib2 * dWinBase d + 8192 * (g / ms.length) + so % 8192)

/-- The valid region of a slice that holds a slice physical address (R59, R62). -/
def regionAt (s : State) (slice spa : Nat) : Option (Nat × Region) :=
  s.regions.find? fun e => e.2.slice = slice && e.2.base ≤ spa / mib2 && spa / mib2 < e.2.base + e.2.size

/-! ## Requesters -/

/-- Who makes a request: its attribute word without KEYID, and the translation unit that serves it. -/
structure Who where
  attr : Attr
  unit : Nat
  /-- Its lines were counted with the regulator when it entered the prefetch queue, or it is a unit of the block that
  the regulator does not count (R378). -/
  counted : Bool := false
  deriving DecidableEq, Repr

/-- Context `n`. -/
def ctxOf (s : State) (n : Nat) : Ctx := mget Ctx.zero s.ctxs n

/-- Change context `n`. -/
def modCtx (s : State) (n : Nat) (f : Ctx → Ctx) : State := { s with ctxs := mmod Ctx.zero s.ctxs n f }

/-- The descriptor of a slice. -/
def descOf (s : State) (n : Nat) : List Word := (sliceOf s n).desc

/-- An engine's request for a context (R26, R57). -/
def engWho (s : State) (e ctx gen bwclass : Nat) : Who :=
  { attr := { slice := (ctxOf s ctx).slice, ctx := ctx, gen := gen, keyid := 0, bwclass := bwclass,
              sec := dSecure (descOf s (ctxOf s ctx).slice), kind := 0, master := e }, unit := e / 4 }

/-- A host packet port's request to a slice (R26, R57). -/
def hostWho (s : State) (p slice : Nat) : Who :=
  { attr := { slice := slice, ctx := 0, gen := 0, keyid := 0, bwclass := 0, sec := s.cfg.secPort = some p, kind := 2, master := p },
    unit := 64 + p }

/-- A link port's request for a context's receive window (R26, R57). -/
def linkWho (s : State) (i ctx gen : Nat) : Who :=
  { attr := { slice := (ctxOf s ctx).slice, ctx := ctx, gen := gen, keyid := 0, bwclass := 0,
              sec := dSecure (descOf s (ctxOf s ctx).slice), kind := 1, master := i }, unit := 96 + i }

/-- A request of a block unit (firmware, dispatcher, slice manager, checkpoint engine) on a slice's memory. R26 names no KIND and MASTER for it:
the model's choice is KIND 0b11, MASTER 0, SEC 1, and no count with the regulator (DESIGN CHOICE, log 145). -/
def blockWho (slice : Nat) : Who :=
  { attr := { slice := slice, ctx := 0, gen := 0, keyid := 0, bwclass := 0, sec := true, kind := 3, master := 0 }, unit := 127,
    counted := true }

/-! ## Table walks (R68) -/

/-- A table entry's fields. -/
structure Pte where
  v : Bool
  leaf : Bool
  w : Bool
  x : Bool
  hk : Bool
  addr : Nat
  deriving DecidableEq, Repr

/-- Decode an entry (R68). -/
def pteOf (w : Nat) : Pte :=
  { v := w % 2 = 1, leaf := w / 2 % 2 = 1, w := w / 32 % 2 = 1, x := w / 16 % 2 = 1, hk := w / 4 % 2 = 1,
    addr := w % 2 ^ 52 / 256 * 256 }

/-- A page found by a walk: its base, its size in bits, and its rights. -/
structure Page where
  base : Nat
  bits : Nat
  w : Bool
  x : Bool
  hk : Bool
  deriving DecidableEq, Repr

/-- Walk the levels of a table: for each, the shift of its index, the index width, and the page size in bits of a leaf
there (0 where a leaf is not legal). A pointer's table is aligned to its size (R67). `rd` reads an entry at a table address; `limit` bounds a
legal output. -/
def walk (rd : State → Nat → State × Acc Nat) (limit : Nat) :
    List (Nat × Nat × Nat) → State → Nat → Nat → State × Acc Page
  | [], s, _, _ => (s, .err (cADDRESS 3))
  | (shift, width, leafBits) :: rest, s, table, a =>
    match rd s (table + 8 * (a / 2 ^ shift % 2 ^ width)) with
    | (s, .err c) => (s, .err c)
    | (s, .ok w) =>
      let e := pteOf w
      if !e.v then (s, .err (cADDRESS 1))
      else if limit ≤ e.addr then (s, .err (cADDRESS 3))
      else if e.leaf then
        if leafBits = 0 || e.addr % 2 ^ leafBits ≠ 0 then (s, .err (cADDRESS 3))
        else (s, .ok ⟨e.addr, leafBits, e.w, e.x, e.hk⟩)
      else if e.addr % (8 * 2 ^ (rest.head?).elim 0 (·.2.1)) ≠ 0 then (s, .err (cADDRESS 3))
      else walk rd limit rest s e.addr a

/-- Stage-2 levels (R66). -/
def s2Levels : List (Nat × Nat × Nat) := [(30, 14, 0), (21, 9, 21), (16, 5, 16)]
/-- Stage-1 levels (R67). -/
def s1Levels : List (Nat × Nat × Nat) := [(39, 13, 0), (30, 9, 0), (21, 9, 21), (16, 5, 16)]

/-- The request for a set offset in a region, once resolved (R64). -/
def reqAt (s : State) (who : Who) (slice so rgn : Nat) (r : Region) : Acc MemReq :=
  match resolve (descOf s slice) so with
  | .err c => .err c
  | .ok (m, sub, loc) => .ok ⟨{ who.attr with keyid := r.keyid }, m, sub, loc / 128, some rgn⟩

/-- The 64-bit word at a byte offset of a line. -/
def lineWord (l : Line) (off : Nat) : Nat := field l (8 * off) 64

/-- Read a stage-2 table word at a set offset, under the key of the region that holds it (R66). R66 gives the read no SEC attribute: the model's
choice is SEC 1, as the slice manager's (DESIGN CHOICE, log 146). -/
def readS2Word (who : Who) (slice : Nat) (s : State) (so : Nat) : State × Acc Nat :=
  match regionAt s slice so with
  | none => (s, .err (cADDRESS 4))
  | some (i, r) =>
    match reqAt s who slice so i r with
    | .err c => (s, .err c)
    | .ok q =>
      match svRead s { q with attr := { q.attr with sec := true } } [] with
      | (s, .data l) => (s, .ok (lineWord l (so % 128)))
      | (s, .fail c) => (s, .err c)
      | (s, .done) => (s, .err (cADDRESS 1))

/-- The set offset of a slice physical address in a slice with tables (R66), with the page's rights. -/
def s2Walk (s : State) (who : Who) (slice spa : Nat) : State × Acc Page :=
  match walk (fun s a => readS2Word who slice s (a % 2 ^ 43)) (2 ^ 52) s2Levels s (dS2Root (descOf s slice)) spa with
  | (s, .ok p) =>
    if p.base / 2 ^ 43 ≠ 1 || capacity (descOf s slice) ≤ p.base % 2 ^ 43 then (s, .err (cADDRESS 5))
    else (s, .ok { p with base := p.base % 2 ^ 43 })
  | x => x

/-- Stage 2 of one access (R58, R62, R65, R66, R69, R491): the request at a Selvage memory engine. Where several errors of R69 apply the rules give no
order: the model's choice is NO_REGION, WORLD and the region's own rights before the table walk (DESIGN CHOICE, log 147). -/
def xlat2 (s : State) (who : Who) (spa : Nat) (wr fetch : Bool) : State × Acc MemReq :=
  let slice := who.attr.slice
  match regionAt s slice spa with
  | none => (s, .err (cADDRESS 4))
  | some (i, r) =>
    if r.secure && !who.attr.sec then (s, .err (cADDRESS 6))
    else if (wr && !r.wr) || (fetch && r.wr && dKind (descOf s slice) ≠ 0) then (s, .err (cADDRESS 2))
    else if dS2Table (descOf s slice) then
      let (s, walked) := s2Walk s who slice spa
      let old := s.s2.find? fun e => e.unit = who.unit && e.slice = slice && e.page = spa / 65536
      let (s, page) : State × Acc (Nat × Bool × Bool) := match walked, old with
        | .ok p, none => (s, .ok ((p.base + spa % 2 ^ p.bits) / 65536, p.w, p.x))
        | .err c, none => (s, .err c)
        | w, some o =>
          let fresh : Acc (Nat × Bool × Bool) := match w with
            | .ok p => .ok ((p.base + spa % 2 ^ p.bits) / 65536, p.w, p.x)
            | .err c => .err c
          if fresh = .ok (o.so, o.w, o.x) then (s, fresh)
          else
            let (s, b) := drawBool s
            (s, if b then .ok (o.so, o.w, o.x) else fresh)
      match page with
      | .err c => (s, .err c)
      | .ok (so, w, x) =>
        let s := { s with s2 := ⟨who.unit, slice, spa / 65536, so, w, x⟩ ::
          (s.s2.filter fun e => !(e.unit = who.unit && e.slice = slice && e.page = spa / 65536)) }
        if (wr && !w) || (fetch && !x) then (s, .err (cADDRESS 2))
        else (s, reqAt s who slice (65536 * so + spa % 65536) i r)
    else (s, reqAt s who slice spa i r)

/-- Read the aligned 128-byte line at a slice physical address. -/
def readSpaLine (s : State) (who : Who) (spa : Nat) (fetch : Bool) : State × Acc Line :=
  match xlat2 s who spa false fetch with
  | (s, .err c) => (s, .err c)
  | (s, .ok q) =>
    match svRead s q [] with
    | (s, .data l) => (s, .ok l)
    | (s, .fail c) => (s, .err c)
    | (s, .done) => (s, .err (cADDRESS 1))

/-- Read a stage-1 table word at a slice physical address. -/
def readS1Word (who : Who) (s : State) (spa : Nat) : State × Acc Nat :=
  match readSpaLine s who spa false with
  | (s, .ok l) => (s, .ok (lineWord l (spa % 128)))
  | (s, .err c) => (s, .err c)

/-- A context served by the hardwired dispatcher in direct mode: its stage 1 is the identity (R449). -/
def directCtx (s : State) (slice : Nat) : Bool := slice = 0 && (sliceOf s 0).state = .direct

/-- A translation that a cached entry may still serve: where the entry and the tables differ, either does (R70). -/
def cachedOr (s : State) (cached : Option AtuEnt) (fresh : Acc (Nat × Bool × Bool × Bool)) : State × Acc (Nat × Bool × Bool × Bool) :=
  match cached with
  | none => (s, fresh)
  | some o =>
    if fresh = .ok (o.spage, o.w, o.x, o.hk) then (s, fresh)
    else
      let (s, b) := drawBool s
      (s, if b then .ok (o.spage, o.w, o.x, o.hk) else fresh)

/-- Stage 1 of one access (R67 to R70, R449): the slice physical address of a context virtual address. A cached entry
that differs from the tables may still serve. `hk` asks for the right of Shuttle gather and scatter (R141). -/
def xlat1 (s : State) (who : Who) (va : Nat) (wr fetch hk : Bool) : State × Acc Nat :=
  if directCtx s who.attr.slice then
    (s, if 2 ^ 44 ≤ va then .err (cADDRESS 1) else .ok va)
  else if 2 ^ 52 ≤ va then (s, .err (cADDRESS 1))
  else
    let same : AtuEnt → Bool := fun e =>
      e.unit = who.unit && e.ctx = who.attr.ctx && e.gen = who.attr.gen && e.page = va / 65536
    let (s, walked) := walk (readS1Word who) (2 ^ 44) s1Levels s (ctxOf s who.attr.ctx).root va
    let fresh : Acc (Nat × Bool × Bool × Bool) := match walked with
      | .ok p => .ok ((p.base + va % 2 ^ p.bits) / 65536, p.w, p.x, p.hk)
      | .err c => .err c
    let (s, got) := cachedOr s (s.atu.find? same) fresh
    match got with
    | .err c => (s, .err c)
    | .ok (pg, w, x, h) =>
      let s := { s with atu := ⟨who.unit, who.attr.ctx, who.attr.gen, va / 65536, pg, w, x, h⟩ ::
        (s.atu.filter fun e => !same e) }
      if (wr && !w) || (fetch && !x) || (hk && !h) then (s, .err (cADDRESS 2))
      else (s, .ok (65536 * pg + va % 65536))

/-- Both stages of one access. -/
def xlat (s : State) (who : Who) (va : Nat) (wr fetch hk : Bool) : State × Acc MemReq :=
  match xlat1 s who va wr fetch hk with
  | (s, .err c) => (s, .err c)
  | (s, .ok spa) => xlat2 s who spa wr fetch

/-! ## Memory by address -/

/-- The parts of `[a, a+n)` by 128-byte line: line address, offset in the line, length. -/
def lineParts (a n : Nat) : List (Nat × Nat × Nat) :=
  if n = 0 then []
  else (List.range ((a + n - 1) / 128 - a / 128 + 1)).map fun i =>
    let base := (a / 128 + i) * 128
    let lo := max a base
    (base, lo - base, min (a + n) (base + 128) - lo)

/-- `n` bytes of a line from an offset. -/
def lineBytes (l : Line) (off n : Nat) : List Byte :=
  (List.range n).map fun i => BitVec.ofNat 8 (l.toNat / 2 ^ (8 * (off + i)))

/-- How a requester's addresses translate: by both stages, or from stage 2. -/
inductive Via where
  | va
  | vaHk
  | spa
  deriving DecidableEq, Repr

/-- Translate under `via`. -/
def xlatVia (s : State) (who : Who) (via : Via) (a : Nat) (wr fetch : Bool) : State × Acc MemReq :=
  match via with
  | .va => xlat s who a wr fetch false
  | .vaHk => xlat s who a wr fetch true
  | .spa => xlat2 s who a wr fetch

/-- An error of an access by virtual address carries the address (R181). -/
def viaCode (via : Via) (a c : Nat) : Nat :=
  match via with
  | .spa => c
  | .va | .vaHk => codeAt a c

/-- Count one line of a requester with its regulator; a line of a fenced sub-channel is none (R378, R386). -/
def countLine (s : State) (who : Who) (q : MemReq) : State :=
  if who.counted || subFenced s q.port q.sub then s else bwCount s who.attr 1

/-- Read one line part. -/
def readPart (s : State) (who : Who) (via : Via) (fetch : Bool) (p : Nat × Nat × Nat) : State × Acc (List Byte) :=
  match xlatVia s who via p.1 false fetch with
  | (s, .err c) => (s, .err (viaCode via (p.1 + p.2.1) c))
  | (s, .ok q) =>
    match svRead (countLine s who q) q [] with
    | (s, .data l) => (s, .ok (lineBytes l p.2.1 p.2.2))
    | (s, .fail c) => (s, .err (viaCode via (p.1 + p.2.1) c))
    | (s, .done) => (s, .ok [])

/-- Read line parts in ascending order; the first error ends the read. -/
def readParts (who : Who) (via : Via) (fetch : Bool) : State → List (Nat × Nat × Nat) → State × Acc (List Byte)
  | s, [] => (s, .ok [])
  | s, p :: t =>
    match readPart s who via fetch p with
    | (s, .err c) => (s, .err c)
    | (s, .ok b) =>
      match readParts who via fetch s t with
      | (s, .err c) => (s, .err c)
      | (s, .ok r) => (s, .ok (b ++ r))

/-- Read `n` bytes of memory. -/
def memRead (s : State) (who : Who) (via : Via) (a n : Nat) : State × Acc (List Byte) :=
  readParts who via false s (lineParts a n)

/-- Read `n` bytes as a little-endian number. -/
def memNat (s : State) (who : Who) (via : Via) (a n : Nat) : State × Acc Nat :=
  match memRead s who via a n with
  | (s, .ok b) => (s, .ok (natOfBytes b))
  | (s, .err c) => (s, .err c)

/-- The write mask of a line part. -/
def partMask (off n : Nat) : BitVec 128 := BitVec.ofNat 128 ((2 ^ n - 1) * 2 ^ off)

/-- Write one line part: a full line or a partial write (R297). -/
def writePart (s : State) (who : Who) (via : Via) (p : Nat × Nat × Nat) (bs : List Byte) : State × Acc Unit :=
  match xlatVia s who via p.1 true false with
  | (s, .err c) => (s, .err (viaCode via (p.1 + p.2.1) c))
  | (s, .ok q) =>
    let data : Line := BitVec.ofNat 1024 (natOfBytes bs * 2 ^ (8 * p.2.1))
    let s := countLine s who q
    match (if p.2.2 = 128 then svWriteFull s q data [] else svWritePartial s q (partMask p.2.1 p.2.2) data []) with
    | (s, .fail c) => (s, .err (viaCode via (p.1 + p.2.1) c))
    | (s, _) => (s, .ok ())

/-- Write line parts in ascending order. An error of one line does not stop the others (R190); the first error is
reported. -/
def writeParts (who : Who) (via : Via) : State → List (Nat × Nat × Nat) → List Byte → State × Option Nat
  | s, [], _ => (s, none)
  | s, p :: t, bs =>
    let (s, r) := writePart s who via p (bs.take p.2.2)
    let (s, e) := writeParts who via s t (bs.drop p.2.2)
    (s, match r with | .err c => some c | .ok _ => e)

/-- Write bytes to memory. -/
def memWrite (s : State) (who : Who) (via : Via) (a : Nat) (bs : List Byte) : State × Option Nat :=
  writeParts who via s (lineParts a bs.length) bs

/-- Little-endian bytes of a number. -/
def leBytes (n v : Nat) : List Byte := (List.range n).map fun i => BitVec.ofNat 8 (v / 2 ^ (8 * i))

/-- Bytes that the rules leave open. -/
def openBytes (s : State) (n : Nat) : State × List Byte :=
  let (s, v) := draw s (8 * n)
  (s, leBytes n v.toNat)

end Sys2Proof.Machine
end

