-- ==== Sys2Proof/Machine/Tally.lean ====
section
/-! DEFINITION. Tally memory (08): the bank's operations and arbitration, collisions, data errors, fences and the waits a
write releases, retention and the tamper wipe; Bolt region clears. -/
namespace Sys2Proof.Machine

/-! ## Words and fences (R263 to R266) -/

/-- Half and entry number of a fence index (R263). -/
def fenceHalf (f : Nat) : Nat := f / 131072 % 2
/-- A fence entry. -/
def fenceOf (s : State) (f : Nat) : Fence := mget Fence.zero (tallyOf s (fenceHalf f)).fences (f % 131072)
/-- Change a fence entry. -/
def modFence (s : State) (f : Nat) (g : Fence → Fence) : State :=
  modTally s (fenceHalf f) fun t => { t with fences := mmod Fence.zero t.fences (f % 131072) g }

/-- Start of the context word pool and of the secure part (R263). -/
def poolBase : Nat := 0x200000
/-- Start of the secure part (R263). -/
def secBase : Nat := 0x380000

/-- Word 1 of a fence entry (R264). -/
def Fence.word1 (f : Fence) : Word :=
  packWord [(62, 2, f.state), (46, 16, f.code), (30, 16, f.stale), (26, 4, f.slice), (15, 11, f.ctx), (7, 8, f.gen)]

/-- A fence entry with word 1 as given. -/
def Fence.ofWords (v w : Word) : Fence :=
  { value := v, state := field w 62 2, code := field w 46 16, stale := field w 30 16, slice := field w 26 4,
    ctx := field w 15 11, gen := field w 7 8 }

/-- The word at a byte offset of a half's Tally. -/
def tallyWord (s : State) (h off : Nat) : Word :=
  let t := tallyOf s h
  if off < poolBase then
    let f := mget Fence.zero t.fences (off / 16)
    if off / 8 % 2 = 0 then f.value else f.word1
  else if off < secBase then mget 0 t.pool ((off - poolBase) / 8)
  else mget 0 t.sec ((off - secBase) / 8)

/-- Write the word at a byte offset. -/
def putTallyWord (s : State) (h off : Nat) (v : Word) : State :=
  modTally s h fun t =>
    if off < poolBase then
      { t with fences := mmod Fence.zero t.fences (off / 16) fun f =>
          if off / 8 % 2 = 0 then { f with value := v } else Fence.ofWords f.value v }
    else if off < secBase then { t with pool := mset 0 t.pool ((off - poolBase) / 8) v }
    else { t with sec := mset 0 t.sec ((off - secBase) / 8) v }

/-- Byte offset of context word `j` of context `n` in half `h`, if the allocation holds it (R265). -/
def ctxWordOff (s : State) (h n j : Nat) : Option Nat :=
  let (base, size) := mget (0, 0) (tallyOf s h).alloc n
  if j < 64 * size then some (poolBase + 512 * base + 8 * j) else none

/-! ## Waits (R210, R211, R270, R440) -/

/-- Change engine `e`. -/
def modEng (s : State) (e : Nat) (f : Engine → Engine) : State := { s with engines := mmod Engine.idle s.engines e f }
/-- Engine `e`. -/
def engOf (s : State) (e : Nat) : Engine := mget Engine.idle s.engines e

/-- COND of TWAIT (R209, R210): ≥, =, ≠, <. -/
def condHolds (cond : Nat) (w v : Word) : Bool :=
  match cond with
  | 0 => v.toNat ≤ w.toNat
  | 1 => w = v
  | 2 => w ≠ v
  | _ => w.toNat < v.toNat

/-- What a wait gives in this state: none while it holds, or its result (R210, R211). -/
def waitResult (s : State) (w : WaitRec) : Option Word :=
  match w.fence with
  | some f =>
    let x := fenceOf s f
    if x.state = 2 then some (BitVec.ofNat 64 x.code)
    else if w.value.toNat ≤ x.value.toNat then some 0 else none
  | none => if condHolds w.cond (tallyWord s w.half w.off) w.value then some 0 else none

/-- Whether a wait is on the word, or fence entry, at `off` of half `h`. -/
def waitsOn (w : WaitRec) (h off : Nat) : Bool := w.half = h && w.off / 16 = off / 16 && (w.fence.isSome || w.off = off)

/-- A written word is presented to every engine that waits on it (R270); a fence wait of a context switched out in it is
released too, and so are WAIT packets and host waits (R440). A context that the word lets go on takes its place among the ready ones (R396). -/
def presentWord (s : State) (h off : Nat) : State :=
  let pass (w : FenceWait) : FenceWait :=
    if w.result.isNone && fenceHalf w.fence = h && 16 * (w.fence % 131072) / 16 = off / 16 then
      let x := fenceOf s w.fence
      { w with result := if x.state = 2 then some x.code else if w.value.toNat ≤ x.value.toNat then some 0 else none }
    else w
  let wake (w : WaitRec) : WaitRec :=
    if w.ready.isNone && waitsOn w h off then { w with ready := waitResult s w } else w
  let passed (x : Ctx) : Bool := x.state = .live && x.eng.isNone && (match x.waitOn with
    | some w => waitsOn w h off && (w.ready.isSome || (waitResult s w).isSome)
    | none => false)
  let nowReady := (s.ctxs.filter fun c => passed c.2 && !(s.sched.ready.contains c.1)).map (·.1)
  { s with
    sched := { s.sched with ready := s.sched.ready ++ nowReady,
                            readyAt := nowReady.foldl (fun m c => mset (0, 0) m c (s.pclk, 8192)) s.sched.readyAt },
    engines := s.engines.map fun e => (e.1, { e.2 with wait := e.2.wait.map wake }),
    ctxs := s.ctxs.map fun c => (c.1, { c.2 with waitOn := c.2.waitOn.map fun w => if w.fence.isSome then wake w else w }),
    queues := s.queues.map fun q => (q.1, { q.2 with held := q.2.held.map pass }),
    rings := s.rings.map fun r => (r.1, { r.2 with waits := r.2.waits.map fun w => (pass w.1, w.2) }) }

/-- Signal a fence: VALUE := max, a value at or below it is stale; nothing on a fence in error or free (R212, R269, R439). -/
def fenceMax (s : State) (f : Nat) (v : Word) : State :=
  let x := fenceOf s f
  if x.state ≠ 1 then s
  else
    let s := modFence s f fun x =>
      if v.toNat ≤ x.value.toNat then { x with stale := satAdd 65535 x.stale 1 } else { x with value := v }
    presentWord s (fenceHalf f) (16 * (f % 131072))

/-- Attach an error code to a fence (R269, R441): a later code replaces it. A free entry has no state to change. -/
def fenceErr (s : State) (f code : Nat) : State :=
  if (fenceOf s f).state = 0 then s
  else presentWord (modFence s f fun x => { x with state := 2, code := code }) (fenceHalf f) (16 * (f % 131072))

/-- A fence is orphaned: its owner is no longer LIVE or FAULTED at its generation (R445). -/
def orphaned (s : State) (f : Nat) : Bool :=
  let x := fenceOf s f
  let c := ctxOf s x.ctx
  !((c.state = .live || c.state = .faulted) && c.gen = x.gen)

/-! ## Ports (R267, R268) -/

/-- The Tally port of half `h` that carries the operations of engine `e`'s cluster. -/
def engPort (c : Cfg) (h e : Nat) : Nat :=
  if c.halfOfCluster (e / 4) = h then e / 4 - (if h = 0 then 0 else c.half0Clusters) else bridgePort c h

/-- The Tally port of half `h` that carries the operations of link port `i`. -/
def linkTallyPort (c : Cfg) (h i : Nat) : Nat :=
  if c.halfOfLink i = h then (halfCounts c h).1 + (i - if h = 0 then 0 else c.portsHalf0 c.linkPorts) else bridgePort c h

/-- The Tally port of half `h` that carries the operations of host packet port `i`. -/
def hostTallyPort (c : Cfg) (h i : Nat) : Nat :=
  let n := halfCounts c h
  if c.halfOfHost i = h then n.1 + n.2.1 + (i - if h = 0 then 0 else c.portsHalf0 c.hostPorts) else bridgePort c h

/-- Put an operation at the end of a port's queue, with a fresh ticket. -/
def tallyEnqueue (s : State) (h port : Nat) (o : TOp) : State :=
  let s' := modTally s h fun t =>
    { t with queues := mmod [] t.queues port fun q => q ++ [{ o with ticket := s.fresh }] }
  { s' with fresh := s.fresh + 1 }

/-- Add 1 to a pool word through the Tally port that `port` names in a half (R190, R216, R267), for engine `e` and its context. -/
def wordAction (s : State) (port : Nat → Nat) (e ctx gen : Nat) : Option (Nat × Nat) → State
  | none => s
  | some (h, j) => tallyEnqueue s h (port h) ⟨.add, poolBase + 8 * j, 1, e, ctx, .action e ctx gen, 0⟩

/-- The completion action of an operation of engine `e` (R190): it goes through its cluster's port. -/
def completionAction (s : State) (e ctx gen : Nat) (w : Option (Nat × Nat)) : State :=
  wordAction s (fun h => engPort s.cfg h e) e ctx gen w

/-- The port the bank grants next (R268). -/
def grantPort (c : Cfg) (h : Nat) (t : Tally) : Option Nat :=
  let n := tallyPorts c h
  ((List.range n).map fun k => (t.ptr + k) % n).find? fun p => mget [] t.queues p ≠ []

/-- An operation that changes its word. -/
def opChanges (o : TOp) : Bool := o.kind ≠ .read

/-- The operations at the heads of the ports. -/
def portHeads (t : Tally) : List TOp := t.queues.filterMap fun q => q.2.head?

/-- The half word index of a context's collision word in half `h` (R266). -/
def collisionWord (s : State) (h ctx : Nat) : Option Nat := (ctxWordOff s h ctx 0).map fun o => (o - poolBase) / 8

/-- Collision bookkeeping of a granted, changing operation (R271). It is one of the groups that it was a waiting member of; where there is none, it
is the first granted of a new group, of the operations on its word at the heads of the ports. A performed SWAP or WRITE makes losers of earlier
ones of its groups, each once; an operation that is not performed replaces nothing. -/
def collide (s : State) (h port : Nat) (o : TOp) (performed : Bool) : State :=
  if !(opChanges o) then s
  else
    let t := tallyOf s h
    let mine (c : Coll) : Bool := c.off = o.off && c.members.contains o.ticket
    let colls := if t.colls.any mine then t.colls
      else t.colls ++ [⟨o.off, ((portHeads t).filter fun x => x.off = o.off && opChanges x).map (·.ticket), []⟩]
    let trusted := port = controlPort s.cfg h || port = securePort s.cfg h
    let replaces := performed && (o.kind = .swap || o.kind = .write)
    let losers := if replaces then
        ((colls.filter mine).flatMap (·.done)).eraseDups.filter fun x => trusted || x.master ≠ o.master
      else []
    let after (c : Coll) : Coll :=
      { c with members := c.members.filter (· ≠ o.ticket),
               done := (c.done.filter fun x => !(losers.contains x)) ++ (if replaces && mine c then [o] else []) }
    let adds := losers.filterMap fun x => if x.kind = .swap then collisionWord s h x.ctx else none
    let nw := (losers.filter fun x => x.kind = .write).length
    let s := modTally s h fun t =>
      { t with colls := (colls.map after).filter fun c => c.members ≠ [],
               inserted := t.inserted ++ adds, fwCollide := satAdd 65535 t.fwCollide nw }
    (losers.filter fun x => x.kind = .write).foldl (fun a x => emit a (.tally h x.master none false true)) s

/-- Deliver the answer of an operation: the previous word of a READ, an ADD of TADD or a SWAP, and otherwise the status alone (R269). -/
def deliverTally (s : State) (h port : Nat) (o : TOp) (prev : Word) (denied : Bool) : State :=
  match o.ret with
  | .none | .action _ _ _ => s
  | .engine e ctx gen reg =>
    if (engOf s e).ctx = some (ctx, gen) then
      modEng s e fun g => { g with s := if reg = 0 then g.s else mset 0 g.s reg prev, pendRes := g.pendRes.filter (· ≠ reg) }
    else s
  | .requester => emit s (.tally h port (if o.kind = .read || o.kind = .swap then some prev else none) denied false)

/-- Perform an operation on good check bits. -/
def performOp (s : State) (h port : Nat) (o : TOp) : State :=
  let prev := tallyWord s h o.off
  match o.kind with
  | .read => deliverTally s h port o prev false
  | .add => deliverTally (presentWord (putTallyWord s h o.off (prev + o.val)) h o.off) h port o prev false
  | .swap | .write => deliverTally (presentWord (putTallyWord s h o.off o.val) h o.off) h port o prev false
  | .max => deliverTally (fenceMax s (131072 * h + o.off / 16) o.val) h port o prev false
  | .seterr => deliverTally (fenceErr s (131072 * h + o.off / 16) o.val.toNat) h port o prev false

/-- A word of which an access finds the check bits uncorrectable (R274): counted, and a fence takes the code TALLY_DATA. -/
def tallyBadWord (s : State) (h off : Nat) : State :=
  let s := raise (modTally s h fun t => { t with uncorr := satAdd 65535 t.uncorr 1, bad := sins t.bad off }) 5 h off
  if off < poolBase then fenceErr s (131072 * h + off / 16) cTALLY_DATA else s

/-- An operation that finds its word uncorrectable (R274): it is not performed, and its requester is told. -/
def tallyDataError (s : State) (h port : Nat) (o : TOp) : State :=
  let s := deliverTally (tallyBadWord s h o.off) h port o 0 (secBase ≤ o.off)
  match o.ret with
  | .engine e ctx gen _ | .action e ctx gen => pushErr s ctx gen e cPOISON
  | _ => s

/-- Whether a word, or either word of a fence entry, is uncorrectable. -/
def tallyBad (t : Tally) (off : Nat) : Bool := if off < poolBase then t.bad.any fun b => b / 16 = off / 16 else t.bad.contains off

/-- What the check bits of an operation's word show: 0 good, 1 a corrected bit, 2 an uncorrectable word. A WRITE stores fresh check bits over a
word that was found uncorrectable before (DESIGN CHOICE, log 163). -/
def tallyCheck (t : Tally) (o : TOp) (chk : Nat) : Nat :=
  if 2 ≤ chk || (tallyBad t o.off && !(o.kind = .write && poolBase ≤ o.off)) then 2 else chk

/-- Grant one operation: move the pointer, note collisions, and perform it. `chk` is what the word's check bits show: 0
good, 1 a corrected bit, more an uncorrectable word (R274). -/
def grantOp (s : State) (h port : Nat) (o : TOp) (chk : Nat) : State :=
  let foreign := secBase ≤ o.off && port ≠ securePort s.cfg h
  let denied := foreign || (secBase ≤ o.off && (tallyOf s h).wiping)
  let chk := tallyCheck (tallyOf s h) o chk
  let s := collide s h port o (!denied && chk < 2)
  let s := modTally s h fun t =>
    { t with queues := mmod [] t.queues port List.tail, ptr := (port + 1) % tallyPorts s.cfg h }
  if denied then deliverTally (if foreign then raise s 6 h o.off else s) h port o 0 true
  else if chk = 2 then tallyDataError s h port o
  else
    let s := if chk = 1 then raise (modTally s h fun t => { t with corr := satAdd 65535 t.corr 1 }) 4 h o.off else s
    performOp (modTally s h fun t => { t with bad := sdel t.bad o.off }) h port o

/-- An addition to a collision word, which the bank inserts (R266, R271): a bank operation like any other, of which no one awaits the answer. -/
def insertedAdd (s : State) (h j chk : Nat) : State :=
  let off := poolBase + 8 * j
  let o : TOp := ⟨.add, off, 1, 0, 0, .none, 0⟩
  let chk := tallyCheck (tallyOf s h) o chk
  if chk = 2 then tallyBadWord s h off
  else
    let s := if chk = 1 then raise (modTally s h fun t => { t with corr := satAdd 65535 t.corr 1 }) 4 h off else s
    performOp s h 0 o

/-- Put arriving operations at their ports. -/
def arriveOps (s : State) (h : Nat) (arrive : List (Nat × TOp)) : State :=
  arrive.foldl (fun t a => if a.1 < tallyPorts t.cfg h then tallyEnqueue t h a.1 a.2 else t) s

/-- One slot of a bank for an operation of kind `k` (R262, R268). -/
def tallySlot (k : TKind) (h : Nat) (arrive : List (Nat × TOp)) (chk : Nat) (s : State) : Res :=
  if s.cfg.halves ≤ h then .fault .absentUnit
  else
    let s := arriveOps s h arrive
    let t := tallyOf s h
    if t.retained || t.waking then .next s  -- the Tally memory is in retention
    else match t.inserted with
      | j :: rest =>
        guardRes s (k = .add)
          (insertedAdd (modTally s h fun t => { t with inserted := rest }) h j chk)
      | [] =>
        match grantPort s.cfg h t with
        | none => .next s  -- no operation waits at a port of the bank
        | some p =>
          match mget [] t.queues p with
          | [] => .next s  -- no operation waits at a port of the bank
          | o :: _ => guardRes s (o.kind = k) (grantOp s h p o chk)

/-- TALLY_READ (R269). -/
def execTallyRead (h : Nat) (arrive : List (Nat × TOp)) (chk : Nat) (s : State) : Res := tallySlot .read h arrive chk s
/-- TALLY_ADD (R269), the bank's own additions of R271 included. -/
def execTallyAdd (h : Nat) (arrive : List (Nat × TOp)) (chk : Nat) (s : State) : Res := tallySlot .add h arrive chk s
/-- TALLY_SWAP (R269, R271). -/
def execTallySwap (h : Nat) (arrive : List (Nat × TOp)) (chk : Nat) (s : State) : Res := tallySlot .swap h arrive chk s
/-- TALLY_WRITE (R269, R271). -/
def execTallyWrite (h : Nat) (arrive : List (Nat × TOp)) (chk : Nat) (s : State) : Res := tallySlot .write h arrive chk s
/-- TALLY_MAX (R269, R439). -/
def execTallyMax (h : Nat) (arrive : List (Nat × TOp)) (chk : Nat) (s : State) : Res := tallySlot .max h arrive chk s
/-- TALLY_SETERR (R269, R441). -/
def execTallySeterr (h : Nat) (arrive : List (Nat × TOp)) (chk : Nat) (s : State) : Res := tallySlot .seterr h arrive chk s

/-! ## Retention (R275, R276) and the tamper wipe (R277, R290) -/

/-- Cluster `c`. -/
def clOf (s : State) (c : Nat) : Cluster := mget Cluster.zero s.clusters c
/-- Change cluster `c`. -/
def modCl (s : State) (c : Nat) (f : Cluster → Cluster) : State := { s with clusters := mmod Cluster.zero s.clusters c f }

/-- A Bolt buffer in retention, or waking from it (R276). -/
def boltAsleep (s : State) (c : Nat) : Bool := (clOf s c).boltRet || (clOf s c).boltWaking

/-- An access to a cluster's Bolt buffer: in retention it takes none until its wake has ended (R275, R276). -/
def boltSlot (s : State) (c : Nat) : State := if boltAsleep s c then { s with sv := { s.sv with stuck := true } } else s

/-- Every half of the configuration. -/
def overHalves (s : State) (f : State → Nat → State) : State := (List.range s.cfg.halves).foldl f s
/-- Every memory port of the configuration. -/
def overPorts (s : State) (f : State → Nat → State) : State := (List.range s.cfg.memPorts).foldl f s

/-- What a slice keeps in the measurement and report area of the secure part, wiped (R263; DESIGN CHOICE which values lie there, log 166). -/
def KSlice.wiped (k : KSlice) : KSlice :=
  { k with measured := false, digest := 0, seq := 0, fwBuild := 0, therm := 0, power := 0, cpStep := 0, cpOwn := 0, cpPartner := 0,
           cpStatus := 0, cnt := (0, 0, 0, 0, 0) }

/-- What lies in the secure part beside roots and blobs goes with it: measurements and report state, and the certificate chain, which lives in
the security firmware's working area (R263, R482). -/
def wipeSecurity (s : State) : State :=
  { s with ks := { s.ks with cert := none, slices := s.ks.slices.map fun k => (k.1, k.2.wiped) } }

/-- TAMPER_WIPE (R277, R290, R500): both secure parts are overwritten with zeros, the secure port answers DENIED, every memory engine sets
LOST, and its key slots are erased. -/
def execTamperWipe (s : State) : Res :=
  guardRes s s.wipeDue
    (let s := overHalves s fun t h => modTally t h fun x =>
       { x with sec := [], bad := x.bad.filter (· < secBase), wiping := true }
     let s := overPorts s fun t m => modPort t m fun p => { p with lost := true }
     wipeSecurity { s with wipeDue := false, sv := { s.sv with kids := s.sv.kids.map fun k => (k.1, { k.2 with key := none }) } })

/-- TAMPER_WIPE_DONE (R277): WIPED in both TL_STATUS registers. -/
def execTamperWipeDone (s : State) : Res :=
  guardRes s (tallyOf s 0).wiping
    (overHalves s fun t h => modTally t h fun x => { x with wiping := false, wiped := true })

/-! ## Bolt regions (R258 to R260) -/

/-- Entry `i` of cluster `c`'s region table. -/
def boltRegion (s : State) (c i : Nat) : BoltRegion := mget ⟨false, false, 0, 0, 0, 0⟩ (clOf s c).regions i
/-- Change an entry. -/
def modBoltRegion (s : State) (c i : Nat) (f : BoltRegion → BoltRegion) : State :=
  modCl s c fun k => { k with regions := mmod ⟨false, false, 0, 0, 0, 0⟩ k.regions i f }

/-- Release a region (R260): its entry is no longer valid and its granules are being cleared. -/
def releaseRegion (s : State) (c i : Nat) : State :=
  modBoltRegion s c i fun r => if r.valid then { r with valid := false, clearing := true } else r

/-- Release every region of a context. -/
def releaseRegions (s : State) (ctx gen : Nat) : State :=
  (List.range s.cfg.clusters).foldl (fun t c =>
    (List.range 64).foldl (fun t i =>
      let r := boltRegion t c i
      if r.valid && r.ctx = ctx && r.gen = gen then releaseRegion t c i else t) t) s

/-- BOLT_REGION_CLEAR_DONE (R260): the released granules of entry `i` of cluster `c` are zero, and CLEARING is cleared. In direct mode the
dispatcher gives the entry to its LIVE context again (R261, R450). -/
def execBoltRegionClearDone (c i : Nat) (s : State) : Res :=
  unitRes (c < s.cfg.clusters) s (i < 64 && (boltRegion s c i).clearing)
    (let r := boltRegion s c i
     let s := modCl s c fun k =>
       { k with bolt := bclear k.bolt (65536 * r.base) (65536 * r.size),
                boltBad := sclear k.boltBad (8192 * r.base) (8192 * r.size) }
     modBoltRegion s c i fun _ =>
       if directCtx s 0 && i < s.cfg.hostPorts && (ctxOf s i).state = .live then ⟨true, false, i, (ctxOf s i).gen, 32 * i, 32⟩
       else ⟨false, false, 0, 0, 0, 0⟩)

end Sys2Proof.Machine
end

