-- ==== Sys2Proof/Machine/Context.lean ====
section
/-! DEFINITION. Contexts and engines: registers (R159), Bolt regions (R165, R259), the context state record (R184), outstanding
waits (R440), the first steps of a teardown (R446), and faults (R179 to R181, R437, R450). -/
namespace Sys2Proof.Machine

/-! ## Registers (R159) -/

/-- s register `r`; s0 reads 0. -/
def sGet (g : Engine) (r : Nat) : Word := if r = 0 then 0 else mget 0 g.s r
/-- Write s register `r`; writes to s0 are ignored. -/
def sPut (g : Engine) (r : Nat) (v : Word) : Engine := if r = 0 then g else { g with s := mset 0 g.s r v }
/-- d register `r`. -/
def dGet (g : Engine) (r : Nat) : BitVec 256 := mget 0 g.d r
/-- p register `r`; p0 reads 1. -/
def pGet (g : Engine) (r : Nat) : Bool := if r = 0 then true else mget false g.p r
/-- Write p register `r`; writes to p0 are ignored. -/
def pPut (g : Engine) (r : Nat) (v : Bool) : Engine := if r = 0 then g else { g with p := mset false g.p r v }
/-- t register `r`. -/
def tGet (g : Engine) (r : Nat) : Word := mget 0 g.t r

/-! ## Bolt regions (R165, R258, R259) -/

/-- The valid region of a context and generation in a cluster, by entry. -/
def regionIn (s : State) (c ctx gen : Nat) : Option BoltRegion :=
  ((clOf s c).regions.find? fun r => r.2.valid && !r.2.clearing && r.2.ctx = ctx && r.2.gen = gen).map (·.2)

/-- Cluster Bolt byte of the program base and the bytes a region offers to the program (R259). -/
def boltSpan (s : State) (c ctx gen : Nat) : Option (Nat × Nat) :=
  (regionIn s c ctx gen).map fun r => (65536 * r.base + 1024, 65536 * r.size - 1024)

/-- Cluster Bolt byte of program offset `o`, if `n` bytes from it lie in the region (R165). -/
def boltAt (s : State) (c ctx gen o n : Nat) : Option Nat :=
  match boltSpan s c ctx gen with
  | some (base, size) => if o + max n 1 ≤ size then some (base + o) else none
  | none => none

/-- The Bolt bytes from cluster byte `a`. -/
def boltRead (s : State) (c a n : Nat) : List Byte := bread (clOf s c).bolt a n

/-- Whether a 64-bit word of `[a, a+n)` is uncorrectable. -/
def anyBad (bad : List Nat) (a n : Nat) : Bool := bad.any fun w => n ≠ 0 && a / 8 ≤ w && w ≤ (a + n - 1) / 8

/-- A write over words some of which may be uncorrectable (R646): whole words take fresh check bits, a part-word write to an
uncorrectable word is not applied. Gives the memory, the bad words, and whether such a word was met. -/
def wordWrite (mem : List (Nat × Byte)) (bad : List Nat) (a : Nat) (bs : List Byte) :
    List (Nat × Byte) × List Nat × Bool :=
  let n := bs.length
  let whole (w : Nat) : Bool := a ≤ 8 * w && 8 * w + 8 ≤ a + n
  let stuck := bad.filter fun w => n ≠ 0 && a / 8 ≤ w && w ≤ (a + n - 1) / 8 && !(whole w)
  let mem := bwriteMask mem a ((List.range n).zipWith (fun i b => if stuck.contains ((a + i) / 8) then none else some b) bs)
  (mem, bad.filter fun w => !(n ≠ 0 && a ≤ 8 * w && 8 * w + 8 ≤ a + n), stuck ≠ [])

/-- Write Bolt bytes; the flag reports a part-word write to an uncorrectable word (R646). -/
def boltWrite (s : State) (c a : Nat) (bs : List Byte) : State × Bool :=
  let k := clOf s c
  let (m, b, e) := wordWrite k.bolt k.boltBad a bs
  (modCl s c fun k => { k with bolt := m, boltBad := b }, e)

/-- Combine `n` Bolt bytes with what arrives: a word that is uncorrectable stays as it is, and the flag reports it (R274). -/
def boltCombine (s : State) (c a n : Nat) (f : List Byte → List Byte) : State × Bool :=
  let new := f (boltRead s c a n)
  if anyBad (clOf s c).boltBad a n then
    (modCl s c fun k => { k with bolt := bwriteMask k.bolt a ((List.range n).zipWith
      (fun i b => if k.boltBad.contains ((a + i) / 8) then none else some b) new) }, true)
  else boltWrite s c a new

/-- Write Bolt bytes with uncorrectable check bits (R340). -/
def boltPoison (s : State) (c a n : Nat) : State :=
  if n = 0 then s
  else modCl s c fun k =>
    { k with boltBad := (List.range ((a + n - 1) / 8 - a / 8 + 1)).foldl (fun b i => sins b (a / 8 + i)) k.boltBad }

/-! ## Checked accesses and injection (R274, R530) -/

/-- One checked access of a target (R530): 0 good, 1 a corrected event, 2 an uncorrectable event; consumes an armed
injection. `target`: 1 scratchpad, 2 Bolt buffer. -/
def checkedAccess (s : State) (target cluster pos : Nat) : State × Nat :=
  let w := s.fc.inject
  if bit w 63 && field w 0 4 = target && field w 40 8 = cluster && (target ≠ 1 || field w 8 2 = pos) && s.fc.injLeft ≠ 0 then
    let left := s.fc.injLeft - 1
    let w := if left = 0 then setField w 63 1 0 else w
    let s := { s with fc := { s.fc with injLeft := left, inject := w } }
    let unc := field w 4 2 = 1
    let inst := if target = 1 then 4 * cluster + pos else cluster
    let src := (if target = 1 then 0 else 2) + b2n unc
    (raise s src inst 0 none true, if unc then 2 else 1)
  else (s, 0)

/-- One access that the logic checker of an engine (`target` 3) or cluster (4) sees (R530): an armed injection makes it fire. -/
def logicAccess (s : State) (target cluster pos : Nat) : State :=
  let w := s.fc.inject
  if bit w 63 && field w 0 4 = target && field w 40 8 = cluster && (target ≠ 3 || field w 8 2 = pos) && s.fc.injLeft ≠ 0 then
    let left := s.fc.injLeft - 1
    let w := if left = 0 then setField w 63 1 0 else w
    let s := { s with fc := { s.fc with injLeft := left, inject := w } }
    if target = 3 then raise s 7 (4 * cluster + pos) 0 none true else raise s 8 cluster 0 none true
  else s

/-! ## The state record (R184) -/

/-- The 1,024 bytes of the state record of an engine's registers. -/
def recordBytes (g : Engine) (waiting faulted : Bool) : List Byte :=
  ((List.range 32).flatMap fun r => leBytes 8 (sGet g r).toNat) ++
  ((List.range 16).flatMap fun r => leBytes 32 (dGet g r).toNat) ++
  leBytes 8 (1 + ((List.range 7).foldl (fun a r => a + b2n (pGet g (r + 1)) * 2 ^ (r + 1)) 0)) ++
  leBytes 8 g.pc ++ leBytes 8 (g.step % 2 ^ 48) ++ leBytes 8 g.hdr ++
  leBytes 1 (b2n waiting + 2 * b2n faulted + 4 * b2n g.pended) ++ List.replicate 223 0

/-- Fill a table from the values of keys below `n`, leaving out what an unlisted key reads as. -/
def tableOf [DecidableEq α] (d : α) (n : Nat) (f : Nat → α) : List (Nat × α) :=
  (List.range n).filterMap fun i => if f i = d then none else some (i, f i)

/-- An engine with the registers of a state record; every view is invalid. -/
def fromRecord (g : Engine) (bs : List Byte) : Engine :=
  let nat (o n : Nat) : Nat := natOfBytes ((bs.drop o).take n)
  { g with
    s := tableOf 0 32 fun r => if r = 0 then 0 else BitVec.ofNat 64 (nat (8 * r) 8),
    d := tableOf 0 16 fun r => BitVec.ofNat 256 (nat (256 + 32 * r) 32),
    p := tableOf false 8 fun r => r ≠ 0 && nat 768 1 / 2 ^ r % 2 = 1,
    t := [], pc := nat 776 8, step := nat 784 8 % 2 ^ 48, hdr := nat 792 8, pended := nat 800 1 / 4 % 2 = 1 }

/-- The state record of a context that runs on no engine: its Bolt region's first bytes, else all zero. -/
def savedRecord (s : State) (c : Nat) : List Byte :=
  let x := ctxOf s c
  match x.home.bind fun k => (regionIn s k c x.gen).map fun r => (k, r) with
  | some (k, r) => boltRead s k (65536 * r.base) 1024
  | none => List.replicate 1024 0

/-! ## Queues and the waits on fences (R440) -/

/-- Queue `q`, if it exists. -/
def queueOf (s : State) (q : Nat) : Option Queue := (s.queues.find? fun e => e.1 = q).map (·.2)
/-- Change an existing queue. -/
def modQueue (s : State) (q : Nat) (f : Queue → Queue) : State :=
  { s with queues := s.queues.map fun e => if e.1 = q then (e.1, f e.2) else e }
/-- The port ring of host port `p`. -/
def ringOf (s : State) (p : Nat) : PortRing := mget PortRing.zero s.rings p
/-- Change a port ring. -/
def modRing (s : State) (p : Nat) (f : PortRing → PortRing) : State :=
  { s with rings := mmod PortRing.zero s.rings p f }

/-- Whether a fence has an outstanding wait (R440). -/
def hasWait (s : State) (f : Nat) : Bool :=
  let on (w : WaitRec) : Bool := w.fence = some f && w.ready.isNone
  (s.engines.any fun e => e.2.wait.elim false on) || (s.ctxs.any fun c => c.2.waitOn.elim false on) ||
  (s.queues.any fun q => q.2.held.elim false fun h => h.fence = f && h.result.isNone) ||
  (s.rings.any fun r => r.2.waits.any fun w => w.1.fence = f && w.1.result.isNone)

/-- Queues of a context and generation. -/
def queuesOf (s : State) (c gen : Nat) : List (Nat × Queue) := s.queues.filter fun q => q.2.ctx = c && q.2.gen = gen

/-- The list of the gang for which a queue waits (R392). -/
def gangListOf (s : State) (q : Nat) : Option (List Nat) := (queueOf s q).bind fun x => x.gang.map (·.1)

/-- Place a queue in the error state (R437), and with it every queue that waits for the same gang (R392). -/
def queueErr (s : State) (q code : Nat) : State :=
  let l := gangListOf s q
  { s with queues := s.queues.map fun e =>
      if e.1 = q || (l.isSome && e.2.gang.map (·.1) = l) then
        (e.1, { e.2 with err := true, code := codeKey code, held := none, gang := none, ext := none, opening := false })
      else e }

/-! ## Teardown, steps 1 to 4 (R446) -/

/-- The fence that a packet of a ring would signal: a SIGNAL, or a STEP_CLOSE with SIG = 1 (R435). -/
def packetSignal (ws : List Word) : Option Nat :=
  match field (ws.getD 0 0) 0 8 with
  | 0x20 => some (field (ws.getD 1 0) 0 18)
  | 0x02 => if bit (ws.getD 2 0) 63 then some (field (ws.getD 2 0) 0 18) else none
  | _ => none

/-- The words of 64 bytes. -/
def wordsOf (bs : List Byte) : List Word := (List.range 8).map fun i => BitVec.ofNat 64 (natOfBytes ((bs.drop (8 * i)).take 8))

/-- Packet `k` of a queue's ring, read from the slice's memory (R427). -/
def ringPacket (s : State) (slice : Nat) (q : Queue) (k : Nat) : State × List Word :=
  match memRead s (blockWho slice) .spa (q.base + 64 * (k % (64 * 2 ^ q.sizeCode))) 64 with
  | (s, .ok bs) => (s, wordsOf bs)
  | (s, .err _) => (s, [])

/-- Discard the unstarted packets of a queue and attach `code` to the fences they would signal (R441, R446). -/
def discardPackets (s : State) (slice qn : Nat) (q : Queue) (code : Nat) : State :=
  let n := (2 ^ 32 + q.tail - q.head) % 2 ^ 32
  let first := q.head + b2n q.busy
  let s := (List.range (n - b2n q.busy)).foldl (fun t i =>
    match ringPacket t slice q (first + i) with
    | (t, ws) => match packetSignal ws with
      | some f => fenceErr t f code
      | none => t) s
  let s := match gangListOf s qn with
    | some l => (l.filter (· ≠ qn)).foldl (fun t m => if gangListOf t m = some l then queueErr t m code else t) s
    | none => s
  modQueue s qn fun x => { x with head := x.tail, held := none, gang := none, ext := none, opening := false }

/-- Whether any engine runs a context. -/
def runsOn (s : State) (c gen : Nat) : Bool := s.engines.any fun e => e.2.ctx = some (c, gen)

/-- Steps 3 and 4 of a teardown once no engine runs the context: its fences with waits are abandoned, its receive windows
close (R446). A dispatcher's teardown skips step 3 (R450). -/
def tearAdvance (s : State) (c : Nat) : State :=
  let x := ctxOf s c
  match x.tear with
  | some td =>
    if td.step = 2 && !runsOn s c x.gen then
      let s := if td.relive then s
        else (List.range s.cfg.halves).foldl (fun t h =>
          (tallyOf t h).fences.foldl (fun t f =>
            let i := 131072 * h + f.1
            if f.2.state = 1 && f.2.ctx = c && f.2.gen = x.gen && f.2.slice = x.slice && hasWait t i then
              fenceErr t i (if td.code = cDEBUG_TEARDOWN then td.code else cABANDONED) else t) t) s
      let s := { s with windows := s.windows.filter fun w => !(w.2.ctx = c && w.2.gen = x.gen) }
      modCtx s c fun y => { y with tear := some { td with step := 4 } }
    else s
  | none => s

/-- Start a teardown (R446 steps 1 and 2): `code` goes to the fences of discarded packets. -/
def tearStart (s : State) (c code : Nat) (status : Option StatusAt) (relive : Bool) : State :=
  let x := ctxOf s c
  let s := modCtx (reportChanged s x.slice) c fun y =>
    { y with state := .tearing, tear := some ⟨2, s.pclk, code, status, relive, false⟩, waitOn := none }
  let s := (queuesOf s c x.gen).foldl (fun t q => discardPackets t x.slice q.1 q.2 code) s
  let s := { s with
    engines := s.engines.map fun e =>
      if e.2.ctx = some (c, x.gen) then (e.1, { e.2 with switchReq := true, preempt := false, wait := none }) else e,
    asyncs := s.asyncs.filter fun a => !(a.ctx = c && a.gen = x.gen && a.queued),
    clusters := s.clusters.map fun k =>
      (k.1, { k.2 with shuttle := k.2.shuttle.filter fun o => !(o.ctx = c && o.gen = x.gen && !o.started) }),
    sched := { s.sched with ready := s.sched.ready.filter (· ≠ c) } }
  tearAdvance s c

/-! ## Faults (R179 to R181) -/

/-- The fence code of an engine fault (R441). -/
def faultFenceCode (code sub : Nat) : Nat := if code = 7 then 0x200 + sub else 0x100 + code

/-- The tile fault record (R181). -/
def faultRecord (code sub merged eng : Nat) (inTile async : Bool) (pc tilePc addr step eclk : Nat) : List Byte :=
  leBytes 1 code ++ leBytes 1 sub ++ leBytes 2 merged ++ leBytes 1 eng ++ leBytes 1 (b2n inTile + 2 * b2n async) ++
  leBytes 2 0 ++ leBytes 8 pc ++ leBytes 8 tilePc ++ leBytes 8 addr ++ leBytes 8 (step % 2 ^ 48) ++ leBytes 2 eclk ++
  List.replicate 22 0

/-- Write the fault record as a request of the context; a write that fails is not retried (R180). The direct-mode dispatcher
writes none (R449). -/
def writeFaultRecord (s : State) (e c gen : Nat) (bs : List Byte) (at' : Nat) : State :=
  if directCtx s (ctxOf s c).slice then s
  else (memWrite s (engWho s e c gen (engOf s e).bwclass) .va ((ctxOf s c).faultRec + at') bs).1

/-- Mark a context FAULTED (R180, R425, R437): its code, its queues in the error state, its fault fence, its program ended. -/
def markFaulted (s : State) (c fcode : Nat) : State :=
  let x := ctxOf s c
  let s := modCtx (reportChanged s x.slice) c fun y =>
    { y with state := .faulted, faultCode := fcode, prog := y.prog.map fun p => { p with ended := true } }
  let s := (queuesOf s c x.gen).foldl (fun t q => queueErr t q.1 fcode) s
  let s := { s with sched := { s.sched with ready := s.sched.ready.filter (· ≠ c) } }
  fenceErr s x.ffence fcode

/-- Abandon the open tile of a context on engine `e` and ask for the switch (R180): its views and statistics are gone, a ROUTE that is still in
issue has no effect, and the memory writes that read its scratchpad may stop at any line. -/
def abandonTile (s : State) (e c gen : Nat) : State :=
  let g := engOf s e
  if g.ctx = some (c, gen) then
    let s := modEng s e fun g => { g with tileOpen := false, t := [], stats := [], wait := none, pendRes := [], switchReq := true,
                                          preempt := false }
    { modCl s (e / 4) (fun k => { k with shuttle := k.shuttle.filter fun o => !(o.eng = e && o.view.isSome && !o.started) }) with
      asyncs := s.asyncs.map fun a => if a.eng = e && a.ctx = c && a.gen = gen && a.tile then { a with tile := false, cut := true } else a }
  else s

/-- In direct mode the dispatcher tears a faulted context down and makes it LIVE again (R450). -/
def directRecover (s : State) (c : Nat) : State :=
  if directCtx s (ctxOf s c).slice then tearStart s c cTORN_DOWN none true else s

/-- A fault against a context (R180), on engine `e`: abandon the tile and ask for a switch where the context runs there; then,
unless the context is TEARING, mark it FAULTED, write the record and attach the code; a FAULTED context only counts
MERGED. -/
def faultCtx (s : State) (e c gen code sub addr : Nat) (async : Bool) : State :=
  let g := engOf s e
  let running := g.ctx = some (c, gen)
  let x := ctxOf s c
  if x.gen ≠ gen then s
  else
    let (s, r) := draw s 11
    let eclk := if code = 3 then 2000 else if running && g.tileOpen then r.toNat % 2000 else 0
    let s := abandonTile s e c gen
    match x.state with
    | .live =>
      let saved := fromRecord Engine.idle (savedRecord s c)
      let pc := if running then g.pc else saved.pc
      let step := if running then g.step else saved.step
      let inTile := running && g.tileOpen
      let s := markFaulted s c (faultFenceCode code sub)
      let s := writeFaultRecord s e c gen
        (faultRecord code sub 0 e inTile async pc (if inTile then g.tilePc else 0) addr step eclk) 0
      directRecover s c
    | .faulted =>
      let m := satAdd 65535 x.merged 1
      writeFaultRecord (modCtx s c fun y => { y with merged := m }) e c gen (leBytes 2 m) 2
    | _ => s

/-- A context loses its unit (R523, R525): it becomes FAULTED with a code that has no engine fault record. -/
def failCtx (s : State) (c fcode : Nat) : State :=
  let x := ctxOf s c
  let s := match x.eng with
    | some e => abandonTile s e c x.gen
    | none => s
  match x.state with
  | .live => directRecover (markFaulted s c fcode) c
  | .faulted => modCtx s c fun y => { y with merged := satAdd 65535 y.merged 1 }
  | _ => s

/-- A fault of the instruction in issue on engine `e` (R180). -/
def engFault (s : State) (e code sub addr : Nat) (async : Bool) : State :=
  match (engOf s e).ctx with
  | some (c, gen) => faultCtx s e c gen code sub addr async
  | none => s

/-- CODE and SUB of a fence code that an error of a request carries (R441, R442). -/
def codeOfFence (fcode : Nat) : Nat × Nat :=
  let c := codeKey fcode
  if 0x200 ≤ c && c < 0x300 then (7, c - 0x200) else (c % 256, 0)

/-- An error returned for a request of a context (R180, R190): a fault of the instruction in issue where the context runs,
else the context is marked. FENCED_UNIT goes to the fault fence without a fault record (R523, R525). -/
def handleReqErr (s : State) (r : ReqErr) : State :=
  let x := ctxOf s r.ctx
  if x.gen ≠ r.gen || x.state = .free then s
  else if r.code < 0x100 then failCtx s r.ctx r.code
  else
    let (code, sub) := codeOfFence r.code
    faultCtx s ((x.eng).getD r.eng) r.ctx r.gen code sub r.addr true

/-- REQUEST_ERROR_RETURN (R180): the oldest error returned for a request of a context, or one that arrives now. -/
def execRequestErrorReturn (arrive : Option (Nat × Nat × Nat × Nat × Nat)) (s : State) : Res :=
  match arrive with
  | some (c, gen, e, code, addr) =>
    unitRes (s.cfg.hasEngine e) s  -- else: not an error of a request (R69, R179)
      ((0x201 ≤ code && code ≤ 0x207) || code = cPOISON || code = cFENCED_UNIT)
      (handleReqErr s ⟨c, gen, e, code, addr⟩)
  | none =>
    match s.reqErrs with
    | [] => .next s  -- no error was returned for a request
    | r :: rest => settle (handleReqErr { s with reqErrs := rest } r)

end Sys2Proof.Machine
end

