-- ==== Sys2Proof/Machine/Issue.lean ====
section
/-! DEFINITION. Issue of a Weft instruction (R151 to R155, R171 to R177): fetch, the frame conditions, the kind of the opcode, the
predicate, and the faults of the instruction in issue; and the end of a launched program (R434). -/
namespace Sys2Proof.Machine

/-- The kinds of R151. -/
inductive OpKind where
  | neutral | boundaryOnly | opening | closing
  deriving DecidableEq, Repr

/-- What the tables give an opcode: kind, class, slots, and the fields of bits [83:0] it uses. -/
structure OpInfo where
  kind : OpKind
  fclass : Nat
  slots : List SlotKind
  fields : List (Nat × Nat)

/-- What an instruction's body answers: it retired; it retired and set PC; a fault with CODE, SUB and ADDR (the state keeps only
what the checkers counted); or issue stalls. -/
inductive IRes where
  | ok (s : State)
  | jump (s : State) (pc : Nat)
  | fault (s : State) (code sub addr : Nat) (async : Bool := false)
  | stall

/-- The running context and generation of an engine; (0, 0) when idle. -/
def Engine.who (g : Engine) : Nat × Nat := g.ctx.getD (0, 0)

/-- The units of the block are clocked and out of reset: no reset, change of operating point, retention, loss of ROOTCLK, SCRAP or LOCKED state
holds them (R504, R563, R564, R568). -/
def blockRuns (s : State) : Bool :=
  s.ck.rst.isNone && !s.ck.busy && !s.ck.blockRet && !s.ck.clkFault && s.lc.current ≠ 5 && s.lc.current ≠ 15

/-- ROUTE is in issue on an engine until Shuttle has read its view (R247). -/
def routeInIssue (s : State) (e : Nat) : Bool := (clOf s (e / 4)).shuttle.any fun o => o.eng = e && o.view.isSome && !o.started

/-- An engine that may issue: powered and not held in reset by EXTEST, with a running program of a context that is not FAULTED, not waiting, with no
switch due at a boundary and no ROUTE still in issue (R176, R182, R247, R516). -/
def canIssue (s : State) (e : Nat) : Bool :=
  let g := engOf s e
  let x := ctxOf s g.who.1
  blockRuns s && s.lc.tap ≠ 3 && g.phase = .on && g.ctx.isSome && x.gen = g.who.2 && (x.state = .live || x.state = .tearing) &&
  x.prog.elim false (fun p => !p.ended) && g.wait.isNone && !(routeInIssue s e) &&
  !(g.switchReq && !g.tileOpen) && !(s.fc.engFenced.contains e) && !(s.fc.clFenced.contains (e / 4)) && !s.fc.blockSafe &&
  !(s.fc.safe.any fun h => (h.2.1 = 1 && h.2.2 = e) || (h.2.1 = 2 && h.2.2 = e / 4))

/-- PC within the code of the program (R176). -/
def pcInRange (g : Engine) : Bool := g.hdr + 64 ≤ g.pc && g.pc + 16 ≤ g.hdr + 64 + g.codeBytes

/-- Predicate of a frame (R175). -/
def predTrue (g : Engine) (f : Frame) : Bool := pGet g f.preg != f.pneg

/-- Scalar registers that a frame's slots name and that still wait for a Tally answer (R177, R213). -/
def waitsForResult (g : Engine) (f : Frame) (slots : List SlotKind) : Bool :=
  (List.range 4).any fun i => (slots.getD i .zero) ≠ .zero && (slotOf f i).1 = 0 && g.pendRes.contains (slotOf f i).2

/-- Fetch of the instruction at PC (R176, R178): translation with X = 1; an entry of the instruction cache for its line may serve it. -/
def fetch (s : State) (e : Nat) : State × Option Nat :=
  let g := engOf s e
  let (c, gen) := g.who
  let entry := ((ctxOf s c).slice, c, gen, g.pc / 128)
  match xlat s (engWho s e c gen g.bwclass) g.pc false true false with
  | (s, .ok _) => (modEng s e fun g => { g with icache := entry :: g.icache.filter (· ≠ entry) }, none)
  | (s, .err code) =>
    if g.icache.contains entry then
      let (s, b) := drawBool s
      (s, if b then none else some code)
    else (s, some code)

/-- Set PC. -/
def setPc (s : State) (e pc : Nat) : State := modEng s e fun g => { g with pc := pc % 2 ^ 52 }

/-- Open a tile with this instruction (R151, R235). -/
def openTile (s : State) (e : Nat) : State :=
  modEng s e fun g => if g.tileOpen then g else { g with tileOpen := true, tilePc := g.pc, stats := [] }

/-- The scheduling registers of a slice at reset (R419): slice 0 holds the whole bead quota. -/
def slSchedReset (n : Nat) : SlSched := if n = 0 then { SlSched.zero with beadQuota := 65536 } else SlSched.zero
/-- The scheduling registers of a slice. -/
def slSchedOf (s : State) (n : Nat) : SlSched :=
  match s.sched.sl.find? fun x => x.1 = n with
  | some x => x.2
  | none => slSchedReset n

/-- PCLK of a quantum that starts now on engine `e`: of the class of its run, under the registers as they stand (R396, R420). -/
def quantumOf (s : State) (e : Nat) : Nat :=
  let sl := slSchedOf s (ctxOf s (engOf s e).who.1).slice
  800 * max 1 (if (engOf s e).lcRun then sl.qlc else sl.qbe)

/-- The first instruction that a context issues on its engine starts its quantum (R396). -/
def startQuantum (s : State) (e : Nat) : State :=
  if (engOf s e).quantum.isSome then s else modEng s e fun g => { g with quantum := some (s.pclk + quantumOf s e) }

/-- Issue one instruction on engine `e` (R174, R175, R151): `extra` is what else R174 asks of the frame; `body` runs when the
predicate is true. An instruction that a register interlock holds back (R177) is not issued yet; one that stalls in issue stays the
instruction at PC, in the tile that it opened (R148, R191). -/
def issue (e : Nat) (f : Frame) (o : OpInfo) (extra : Bool) (body : State → Engine → IRes) (s : State) : Res :=
  if !(s.cfg.hasEngine e) then .fault .absentUnit
  else if !(canIssue s e && pcInRange (engOf s e)) then .next s  -- the engine issues no instruction here
  else
    match fetch s e with
    | (s, some code) => settle (engFault s e (codeOfFence code).1 (codeOfFence code).2 (engOf s e).pc false)
    | (s, none) =>
      let s := startQuantum (logicAccess s 3 (e / 4) (e % 4)) e
      if !(frameLegal f o.fclass o.slots o.fields && extra && f.preg < 8) then settle (engFault s e 1 0 0 false)
      else if (o.kind = .boundaryOnly || o.kind = .closing) && (f.pneg || f.preg ≠ 0) then settle (engFault s e 1 0 0 false)
      else if predTrue (engOf s e) f && waitsForResult (engOf s e) f o.slots then settle s
      else
        let s := if o.kind = .opening then openTile s e else s
        let g := engOf s e
        if !(predTrue g f) then settle (setPc s e (g.pc + 16))
        else if (o.kind = .boundaryOnly && g.tileOpen) || (o.kind = .closing && !g.tileOpen) then
          settle (engFault s e 4 0 0 false)
        else match body s g with
          | .ok s => settle (setPc s e (g.pc + 16))
          | .jump s pc => settle (setPc s e pc)
          | .fault s code sub addr async => settle (engFault s e code sub addr async)
          | .stall => settle s

/-- Scratchpad bytes that survive a TEND: each byte is kept or reads as zero from then on (R154). -/
def staleSpad (k : Nat) (m : List (Nat × Byte)) : List (Nat × Byte) :=
  (m.zipIdx.filter fun e => Config.freeBits 1 (k + e.2) = 1).map (·.1)

/-- Close the open tile (R154): views are invalid and statistics are gone; its operations have read the scratchpad (R152). -/
def closeTile (s : State) (e : Nat) : State :=
  let g := engOf s e
  { modEng s e fun h => { h with tileOpen := false, t := [], stats := [], spad := staleSpad s.fresh h.spad } with
    asyncs := s.asyncs.map fun a => if a.eng = e then { a with tile := false } else a, fresh := s.fresh + g.spad.length }

/-- Scalar source of a slot. -/
def srcS (g : Engine) (f : Frame) (i : Nat) : Word := sGet g (slotOf f i).2

/-- Change the issuing engine. -/
def onEng (s : State) (e : Nat) (h : Engine → Engine) : IRes := .ok (modEng s e h)

/-! ## Host memory writes and packets done (R434, R436) -/

/-- The edge of host packet port `p`. -/
def hportOf (s : State) (p : Nat) : HPort := mget HPort.reset s.hports p
/-- Change the edge of host packet port `p`. -/
def modHport (s : State) (p : Nat) (f : HPort → HPort) : State := { s with hports := mmod HPort.reset s.hports p f }

/-- What presenting an outbound item shows. -/
def outOf (p : Nat) : OutItem → Out
  | .write a bs => .hostWrite p a bs
  | .read t a n => .hostRead p t a n
  | .event v => .event p v

/-- Present waiting outbound items in order while credits last; an event needs none (R606, R607, R609). -/
def presentOut (p : Nat) : List OutItem → Nat → List Out → List OutItem × Nat × List Out
  | [], c, o => ([], c, o)
  | .event v :: t, c, o => presentOut p t c (.event p v :: o)
  | x :: t, 0, o => (x :: t, 0, o)
  | x :: t, c + 1, o => presentOut p t c (outOf p x :: o)

/-- Let a port's waiting outbound items go; in its safe state a port issues none (R523), and none before its half has left RET (R276). -/
def drainOut (s : State) (p : Nat) : State :=
  if unitSafe s 4 p || s.ck.halves.contains (s.cfg.halfOfHost p) then s else
  let h := hportOf s p
  let (q, c, o) := presentOut p h.outQ h.outCred s.out
  { modHport s p (fun h => { h with outQ := q, outCred := c }) with out := o }

/-- A host port that serves no request: fenced, or in its safe state (R523, R525). -/
def portDown (s : State) (p : Nat) : Bool := s.fc.hostFenced.contains p || unitSafe s 4 p

/-- A host port at which no request is performed: also while HPPp_RST is 1 (R612). -/
def portDead (s : State) (p : Nat) : Bool := portDown s p || (hportOf s p).rst

/-- An inbound request ends with a STATUS other than OK (R619): here ABORT, or NOT_READY while HPPp_RST is 1 (R612). -/
def inbAbort (s : State) (p : Nat) : State := modHport s p fun h => { h with inbErr := satAdd 65535 h.inbErr 1 }

/-- A write through a host packet port or the control register port wakes the block from retention (R568). -/
def awake (s : State) : State := if s.ck.blockRet then { s with ck := { s.ck with blockRet := false } } else s

/-- Work that reaches a half in RET starts its wake, and waits until MEMORY_WAKE_DONE (R276, R568). -/
def wakeHalf (s : State) (h : Nat) : State :=
  if s.ck.halves.contains h then modTally s h fun t => { t with waking := true } else s

/-- A command that needs a half in RET cannot occur before the half has left it (R276). -/
def awaitHalf (s : State) (h : Nat) : State :=
  if s.ck.halves.contains h then { s with sv := { s.sv with stuck := true } } else s

/-- Queue outbound items at a port; a fenced port takes none (R525, R630). -/
def pushOut (s : State) (p : Nat) (xs : List OutItem) : State :=
  if s.fc.hostFenced.contains p then s
  else drainOut (modHport (wakeHalf s (s.cfg.halfOfHost p)) p fun h => { h with outQ := h.outQ ++ xs }) p

/-- A posted write to host memory through port `p`, one beat for each 128-byte line (R608). -/
def hostPost (s : State) (p addr : Nat) (bs : List Byte) : State :=
  pushOut s p ((lineParts addr bs.length).map fun x =>
    .write (x.1 + x.2.1) ((bs.drop (x.1 + x.2.1 - addr)).take x.2.2))

/-- Present an event behind the port's earlier writes (R609, R615). -/
def hostEvent (s : State) (p vec : Nat) : State := pushOut s p [.event vec]

/-- Address and bytes of an operation's read in progress: it moves at most 4,096 bytes and crosses no 4 KiB boundary (R608). -/
def readSpan (t : HTag) : Nat × Nat := (t.addr + t.done, min (t.len - t.done) (4096 - (t.addr + t.done) % 4096))

/-- Issue an operation's read under the next tag. -/
def issueRead (s : State) (p : Nat) (t : HTag) : State :=
  let n := (hportOf s p).nextTag
  let s := modHport s p fun h =>
    { h with nextTag := (n + 1) % 256, tags := h.tags ++ [{ t with num := n, beat := 0 }], left := h.left.filter (· ≠ n) }
  pushOut s p [.read n (readSpan t).1 (readSpan t).2]

/-- Start to read host memory for an operation. -/
def hostFetch (s : State) (p : Nat) (r : Reader) (addr len : Nat) : State := issueRead s p ⟨0, r, addr, len, 0, 0, []⟩

/-- The last read of a reader's operation is out, and `data` begins with the bytes that came (R608). -/
def readOut (s : State) (p : Nat) (r : Reader) (data : List Byte) : Bool :=
  (hportOf s p).tags.any fun t =>
    t.reader = r && t.len ≤ t.done + (readSpan t).2 && t.got.isPrefixOf data &&
    !((hportOf s p).outQ.any fun x => match x with
      | .read n _ _ => n = t.num
      | _ => false)

/-- A status word (R436): DONE, CODE, RESULT. -/
def statusWord (code result : Nat) : Word := packWord [(63, 1, 1), (32, 16, code), (0, 32, result)]

/-- Write a status word and raise the completion event it asks for (R433, R436); a failing packet counts in BADPKT (R437). -/
def writeStatus (s : State) (a : StatusAt) (code result : Nat) : State :=
  let s := hostPost s a.port a.addr (leBytes 8 (statusWord code result).toNat)
  let s := if a.notify then hostEvent s a.port 0 else s
  if code = 0 then s else modRing s a.port fun r => { r with badpkt := satAdd 65535 r.badpkt 1 }

/-- Firmware processor `k`. -/
def procOf (s : State) (k : Nat) : FwProc := mget FwProc.zero s.fw.procs k
/-- A firmware processor that runs (R462, R505, R523). -/
def procUp (s : State) (k : Nat) : Bool := (procOf s k).pstate = 1 && !(procOf s k).halted && !s.fc.blockSafe
/-- Who processes the port rings (R436, R449, R451, R459, R464). -/
inductive Server where
  | nobody
  | dispatcher
  | firmware
  deriving DecidableEq, Repr

/-- Who processes the port rings now: in direct mode the hardwired dispatcher, then the management processor; the dispatcher for
BASE packets while that is absent; nobody until firmware has loaded. -/
def portServer (s : State) : Server :=
  if s.fc.blockSafe || !(blockRuns s) then .nobody
  else if directCtx s 0 then .dispatcher
  else if (sliceOf s 0).state = .dissolving then .nobody
  else if procUp s 7 then .firmware
  else if s.fw.running.isSome then .dispatcher else .nobody

/-- Host bus address of the slot of packet `k` of a port ring (R428). -/
def slotAddr (r : PortRing) (k : Nat) : Nat := (r.base.toNat + 64 * (k % (64 * 2 ^ r.sizeCode))) % 2 ^ 64

/-- Fetch the next packet of a port ring, one at a time (R428, R434, R610); after a LAUNCH with EXT = 1 the one behind it. -/
def ringFetch (s : State) (p : Nat) : State :=
  let r := ringOf s p
  let k := b2n r.ext.isSome
  if r.en && !r.busy && r.pkt.isNone && !r.fetchPending && k < (2 ^ 32 + r.tail - r.head) % 2 ^ 32 && portServer s ≠ .nobody &&
     !((hportOf s p).tags.any fun t => t.reader = .ring) && !(portDown s p) then
    hostFetch s p .ring (slotAddr r (r.head + k)) 64
  else s

/-- Finish `n` packets of a ring (R428, R434). -/
def finishRing (s : State) (n : Nat) : RingId → State
  | .queue q => modQueue s q fun x => { x with busy := false, ext := none, head := (x.head + n) % 2 ^ 32, since := s.pclk }
  | .port p =>
    ringFetch (modRing s p fun r => { r with busy := false, ext := none, pkt := none, head := (r.head + n) % 2 ^ 32 }) p

/-- Whether operations of a context are still outstanding. -/
def opsOutstanding (s : State) (c gen : Nat) : Bool :=
  (s.asyncs.any fun a => a.ctx = c && a.gen = gen) ||
  (s.clusters.any fun k => k.2.shuttle.any fun o => o.ctx = c && o.gen = gen)

/-- A LAUNCH is done when its program has ended and every operation it issued is complete (R434); outside a step it was a step of its own,
which ends here (R391, R402). -/
def checkDone (s : State) (c : Nat) : State :=
  let x := ctxOf s c
  match x.prog with
  | some p =>
    if p.ended && !(opsOutstanding s c x.gen) then
      let own : Bool := match p.ring with
        | .queue q => !(((queueOf s q).map (·.stepOpen)).getD false)
        | .port _ => true
      let s := modCtx s c fun y => { y with prog := none, lastEnd := if own then s.pclk else y.lastEnd }
      let s := match p.status with
        | some a => writeStatus s a (if x.state = .live then 0 else x.faultCode) 0
        | none => s
      finishRing s p.packets p.ring
    else s
  | none => s

end Sys2Proof.Machine
end

