-- ==== Sys2Proof/Machine/Control.lean ====
section
/-! DEFINITION. The control group 0x00 to 0x1A (R199, R200), and the instruction faults that have rows of their own (R172, R176). -/
namespace Sys2Proof.Machine

/-- Neutral instructions of class R with the given slots and modifier fields. -/
def infoR (slots : List SlotKind) (mods : List (Nat × Nat)) : OpInfo := ⟨.neutral, 1, slots, (0, 64) :: mods⟩

/-- Operand b of scalar and compare forms: s[slot2] + IMM (R200). -/
def operandB (g : Engine) (f : Frame) : Word := srcS g f 2 + imm64 f

/-- A scalar instruction s[slot0] := op s[slot1] b (R200). -/
def scalar (op : Word → Word → Word) (e : Nat) (f : Frame) (s : State) : Res :=
  issue e f (infoR [.s, .s, .s] []) true (fun s g =>
    onEng s e fun h => sPut h (slotOf f 0).2 (op (srcS g f 1) (operandB g f))) s

/-- A compare p[slot0] := op s[slot1] b (R200). -/
def compare (op : Word → Word → Bool) (e : Nat) (f : Frame) (s : State) : Res :=
  issue e f (infoR [.p, .s, .s] []) true (fun s g =>
    onEng s e fun h => pPut h (slotOf f 0).2 (op (srcS g f 1) (operandB g f))) s

/-- NOP. -/
def execNop (e : Nat) (f : Frame) (s : State) : Res := issue e f ⟨.neutral, 0, [], []⟩ true (fun s _ => .ok s) s

/-- TEND (R152, R154): closes the tile once its results have arrived. -/
def execTend (e : Nat) (f : Frame) (s : State) : Res :=
  issue e f ⟨.closing, 0, [], []⟩ true (fun s g => if g.pendRes ≠ [] then .stall else .ok (closeTile s e)) s

/-- TLINK (R153): issue continues at the target with the tile open. -/
def execTlink (e : Nat) (f : Frame) (s : State) : Res :=
  issue e f ⟨.closing, 2, [], [(0, 64)]⟩ (field f.ops 64 48 = 0 && field f.ops 0 4 = 0)
    (fun s g => .jump s ((BitVec.ofNat 64 g.pc + imm64 f).toNat)) s

/-- PEND (R185): the program has ended; the engine is released as for a switch. -/
def execPend (e : Nat) (f : Frame) (s : State) : Res :=
  issue e f ⟨.boundaryOnly, 0, [], []⟩ true (fun s g =>
    let s := modEng s e fun h => { h with switchReq := true, preempt := false, pended := true }
    let s := modCtx s g.who.1 fun x => { x with prog := x.prog.map fun p => { p with ended := true } }
    let s := { s with sched := { s.sched with ready := s.sched.ready.filter (· ≠ g.who.1) } }
    .ok (checkDone s g.who.1)) s

/-- BR (R200). -/
def execBr (e : Nat) (f : Frame) (s : State) : Res :=
  issue e f ⟨.neutral, 2, [], [(0, 64)]⟩ (field f.ops 64 48 = 0 && field f.ops 0 4 = 0)
    (fun s g => .jump s ((BitVec.ofNat 64 g.pc + imm64 f).toNat)) s

/-- TVIEW (R200, R161): checked here when VALID = 1. -/
def execTview (e : Nat) (f : Frame) (s : State) : Res :=
  issue e f ⟨.opening, 1, [.t, .s], [(0, 64)]⟩ true (fun s g =>
    let v := srcS g f 1 + imm64 f
    match (if bit v 63 then viewFault (viewOf v) false else none) with
    | some c => .fault s c 0 0
    | none => onEng s e fun h => { h with t := mset 0 h.t (slotOf f 0).2 v }) s

/-- DSETW: word w of d[slot0] := s[slot1] + IMM (R200). -/
def execDsetw (e : Nat) (f : Frame) (s : State) : Res :=
  issue e f (infoR [.d, .s] [(64, 2)]) true (fun s g =>
    let v := srcS g f 1 + imm64 f
    onEng s e fun h => { h with d := mset 0 h.d (slotOf f 0).2 (setField (dGet h (slotOf f 0).2) (64 * lowField f 64 2) 64 v.toNat) }) s

/-- DGETW: s[slot0] := word w of d[slot1] (R200). IMM has no use in it. -/
def execDgetw (e : Nat) (f : Frame) (s : State) : Res :=
  issue e f (infoR [.s, .d] [(64, 2)]) true (fun s g =>
    onEng s e fun h => sPut h (slotOf f 0).2 (descWord (dGet g (slotOf f 1).2) (lowField f 64 2))) s

/-- SMOV: s[slot0] := s[slot1] + IMM (R200). -/
def execSmov (e : Nat) (f : Frame) (s : State) : Res :=
  issue e f (infoR [.s, .s] []) true (fun s g => onEng s e fun h => sPut h (slotOf f 0).2 (srcS g f 1 + imm64 f)) s

/-- SADD (R200). -/
def execSadd (e : Nat) (f : Frame) (s : State) : Res := scalar (· + ·) e f s
/-- SSUB (R200). -/
def execSsub (e : Nat) (f : Frame) (s : State) : Res := scalar (· - ·) e f s
/-- SMUL (R200). -/
def execSmul (e : Nat) (f : Frame) (s : State) : Res := scalar (· * ·) e f s
/-- SAND (R200). -/
def execSand (e : Nat) (f : Frame) (s : State) : Res := scalar (· &&& ·) e f s
/-- SOR (R200). -/
def execSor (e : Nat) (f : Frame) (s : State) : Res := scalar (· ||| ·) e f s
/-- SXOR (R200). -/
def execSxor (e : Nat) (f : Frame) (s : State) : Res := scalar (· ^^^ ·) e f s
/-- SSHL by b mod 64 (R200). -/
def execSshl (e : Nat) (f : Frame) (s : State) : Res := scalar (fun a b => a <<< (b.toNat % 64)) e f s
/-- SSHR by b mod 64 (R200). -/
def execSshr (e : Nat) (f : Frame) (s : State) : Res := scalar (fun a b => a >>> (b.toNat % 64)) e f s
/-- SSRA by b mod 64, copying the sign bit (R200). -/
def execSsra (e : Nat) (f : Frame) (s : State) : Res := scalar (fun a b => a.sshiftRight (b.toNat % 64)) e f s
/-- SEQ (R200). -/
def execSeq (e : Nat) (f : Frame) (s : State) : Res := compare (fun a b => a = b) e f s
/-- SNE (R200). -/
def execSne (e : Nat) (f : Frame) (s : State) : Res := compare (fun a b => a ≠ b) e f s
/-- SLT, signed (R200). -/
def execSlt (e : Nat) (f : Frame) (s : State) : Res := compare (fun a b => a.slt b) e f s
/-- SLTU, unsigned (R200). -/
def execSltu (e : Nat) (f : Frame) (s : State) : Res := compare (fun a b => a.ult b) e f s
/-- SLE, signed (R200). -/
def execSle (e : Nat) (f : Frame) (s : State) : Res := compare (fun a b => a.sle b) e f s
/-- SLEU, unsigned (R200). -/
def execSleu (e : Nat) (f : Frame) (s : State) : Res := compare (fun a b => a.ule b) e f s

/-- PLOG: p[slot0] := TT[2·p[slot1] + p[slot2]] (R200). -/
def execPlog (e : Nat) (f : Frame) (s : State) : Res :=
  issue e f (infoR [.p, .p, .p] [(64, 4)]) true (fun s g =>
    let i := 2 * b2n (pGet g (slotOf f 1).2) + b2n (pGet g (slotOf f 2).2)
    onEng s e fun h => pPut h (slotOf f 0).2 (lowField f (64 + i) 1 = 1)) s

/-- RSTEP: s[slot0] := STEP (R200). -/
def execRstep (e : Nat) (f : Frame) (s : State) : Res :=
  issue e f (infoR [.s] []) true (fun s g => onEng s e fun h => sPut h (slotOf f 0).2 (BitVec.ofNat 64 (g.step % 2 ^ 48))) s

/-- ASTEP: STEP := (STEP + s[slot1] + IMM) mod 2^48 (R200). -/
def execAstep (e : Nat) (f : Frame) (s : State) : Res :=
  issue e f (infoR [.zero, .s] []) true (fun s g =>
    onEng s e fun h => { h with step := (h.step + (srcS g f 1 + imm64 f).toNat) % 2 ^ 48 }) s


/-- ILLEGAL_INSTRUCTION (R172, R179): an opcode to which no instruction is assigned issues. -/
def execIllegalInstruction (e opcode : Nat) (s : State) : Res :=
  unitRes (s.cfg.hasEngine e) s  -- else: the engine issues no instruction here, or the opcode is assigned
    (canIssue s e && pcInRange (engOf s e) && opcode < 256 && !(opcodeAssigned opcode))
    (match fetch s e with
     | (s, some code) => engFault s e (codeOfFence code).1 (codeOfFence code).2 (engOf s e).pc false
     | (s, none) => engFault s e 1 0 0 false)

/-- FETCH_RANGE (R176, R179): PC has left the code of the program. -/
def execFetchRange (e : Nat) (s : State) : Res :=
  unitRes (s.cfg.hasEngine e) s  -- else: the engine issues no instruction here, or PC lies in the code
    (canIssue s e && !(pcInRange (engOf s e))) (engFault s e 9 0 0 false)

/-- TILE_OVERRUN (R156, R157): 2,000 ECLK have been counted without TEND retiring; the tile is abandoned. -/
def execTileOverrun (e : Nat) (s : State) : Res :=
  unitRes (s.cfg.hasEngine e) s ((engOf s e).tileOpen && (engOf s e).ctx.isSome)
    (engFault s e 3 0 0 false)

end Sys2Proof.Machine
end

