-- ==== Sys2Proof/Machine/Flags.lean ====
section
/-! DEFINITION. Numbers of the engines: exact values of the formats of R74, their special encodings (R76), rounding and
conversion (R90 to R93), microscaling blocks (R79, R95), and what a conversion reports (saturation, R93). The block has no
condition flags; the saturation report is what its arithmetic flags. -/
namespace Sys2Proof.Machine

/-- An exact value: NaN, an infinity, or (−1)^neg · m · 2^e. -/
inductive FV where
  | nan
  | inf (neg : Bool)
  | fin (neg : Bool) (m : Nat) (e : Int)
  deriving DecidableEq, Repr, Inhabited

/-- +0. -/
def FV.zero : FV := .fin false 0 0
/-- 1. -/
def FV.one : FV := .fin false 1 0

/-- Kinds of encodings (R76): IEEE specials, the single NaN of E4M3, no specials, two's complement. -/
inductive FmtKind where
  | ieee | e4m3 | plain | int
  deriving DecidableEq, Repr

/-- Layout of a format: exponent bits, bias, mantissa bits, Max as m · 2^e (R74). `lsb` is the exponent of an integer's unit. -/
structure FmtInfo where
  kind : FmtKind
  eb : Nat
  bias : Nat
  mb : Nat
  maxM : Nat
  maxE : Int
  lsb : Int

/-- The layouts of R74; MX codes give their elements. -/
def fmtInfo (c : Nat) : FmtInfo :=
  match c with
  | 0 => ⟨.ieee, 8, 127, 23, 2 ^ 24 - 1, 104, 0⟩
  | 1 => ⟨.ieee, 8, 127, 7, 255, 120, 0⟩
  | 2 => ⟨.ieee, 5, 15, 10, 2047, 5, 0⟩
  | 3 | 6 => ⟨.e4m3, 4, 7, 3, 7, 6, 0⟩
  | 4 | 7 => ⟨.ieee, 5, 15, 2, 7, 13, 0⟩
  | 5 => ⟨.int, 0, 0, 0, 127, 0, 0⟩
  | 8 => ⟨.plain, 3, 3, 2, 7, 2, 0⟩
  | 9 => ⟨.plain, 2, 1, 3, 15, -1, 0⟩
  | 10 => ⟨.plain, 2, 1, 1, 3, 1, 0⟩
  | _ => ⟨.int, 0, 0, 0, 127, -6, -6⟩

/-- The value of an encoding (R74, R76, R77); of an MX code, its element. -/
def fmtDecode (c raw : Nat) : FV :=
  let f := fmtInfo c
  let w := fmtWidth c
  let raw := raw % 2 ^ w
  match f.kind with
  | .int => if 128 ≤ raw then .fin true (256 - raw) f.lsb else .fin false raw f.lsb
  | k =>
    let neg := 2 ^ (w - 1) ≤ raw
    let ex := raw / 2 ^ f.mb % 2 ^ f.eb
    let man := raw % 2 ^ f.mb
    let top := 2 ^ f.eb - 1
    if k = .ieee && ex = top then (if man = 0 then .inf neg else .nan)
    else if k = .e4m3 && ex = top && man = 2 ^ f.mb - 1 then .nan
    else if ex = 0 then .fin neg man (1 - (f.bias : Int) - f.mb)
    else .fin neg (2 ^ f.mb + man) ((ex : Int) - f.bias - f.mb)

/-! ## Comparing and combining exact values -/

/-- The signed integer of a finite value at exponent `e0` ≤ its own. -/
def scaledInt (neg : Bool) (m : Nat) (e e0 : Int) : Int :=
  let v : Int := (m : Int) * 2 ^ (e - e0).toNat
  if neg then -v else v

/-- A signed dyadic as a value; zero is +0. -/
def fvOfInt (v e : Int) : FV := .fin (v < 0) v.natAbs e

/-- Magnitude comparison m1·2^e1 < m2·2^e2. -/
def magLt (m1 : Nat) (e1 : Int) (m2 : Nat) (e2 : Int) : Bool :=
  let e0 := min e1 e2
  m1 * 2 ^ (e1 - e0).toNat < m2 * 2 ^ (e2 - e0).toNat

/-- The opposite. -/
def FV.neg : FV → FV
  | .nan => .nan
  | .inf n => .inf (!n)
  | .fin n m e => .fin (!n) m e

/-- The magnitude. -/
def FV.abs : FV → FV
  | .nan => .nan
  | .inf _ => .inf false
  | .fin _ m e => .fin false m e

/-- The exact product; infinity times zero is NaN. -/
def FV.mul : FV → FV → FV
  | .nan, _ | _, .nan => .nan
  | .inf a, .inf b => .inf (a != b)
  | .inf a, .fin b m _ => if m = 0 then .nan else .inf (a != b)
  | .fin a m _, .inf b => if m = 0 then .nan else .inf (a != b)
  | .fin a m e, .fin b n f => .fin (a != b) (m * n) (e + f)

/-- The exact sum with IEEE 754 specials under round to nearest: an exact zero is −0 only where both addends are. -/
def FV.add : FV → FV → FV
  | .nan, _ | _, .nan => .nan
  | .inf a, .inf b => if a = b then .inf a else .nan
  | .inf a, .fin _ _ _ => .inf a
  | .fin _ _ _, .inf b => .inf b
  | .fin a m e, .fin b n f =>
    let e0 := min e f
    let v := scaledInt a m e e0 + scaledInt b n f e0
    if v = 0 then .fin (a && b) 0 0 else fvOfInt v e0

/-- a < b in the order of R96: −0 below +0, infinities at the ends; for values that are not NaN. -/
def FV.lt : FV → FV → Bool
  | .nan, _ | _, .nan => false
  | .inf a, .inf b => a && !b
  | .inf a, .fin _ _ _ => a
  | .fin _ _ _, .inf b => !b
  | .fin a m e, .fin b n f =>
    let e0 := min e f
    let x := scaledInt a m e e0
    let y := scaledInt b n f e0
    x < y || (x = y && x = 0 && a && !b)

/-- MIN of R96. -/
def FV.min2 (a b : FV) : FV := if a = .nan then b else if b = .nan then a else if FV.lt b a then b else a
/-- MAX of R96. -/
def FV.max2 (a b : FV) : FV := if a = .nan then b else if b = .nan then a else if FV.lt a b then b else a

/-- Whether a finite value is zero. -/
def FV.isZero : FV → Bool
  | .fin _ m _ => m = 0
  | _ => false

/-! ## Rounding and conversion (R90 to R93) -/

/-- Round a magnitude to a multiple of 2^q under RND (R91, R92): 0 to nearest even, 1 toward zero, 2 stochastic with the 16
random bits `r`. Gives the number of units. -/
def roundMag (m : Nat) (e q : Int) (rnd r : Nat) : Nat :=
  if q ≤ e then m * 2 ^ (e - q).toNat
  else
    let sh := (q - e).toNat
    let t := m / 2 ^ sh
    let rem := m % 2 ^ sh
    match rnd with
    | 0 => if 2 ^ sh < 2 * rem || (2 * rem = 2 ^ sh && t % 2 = 1) then t + 1 else t
    | 2 => if 65536 ≤ rem * 65536 / 2 ^ sh + r then t + 1 else t
    | _ => t

/-- The exponent of the unit in the last place of a magnitude, with unbounded range above. -/
def ulpExp (f : FmtInfo) (m : Nat) (e : Int) : Int :=
  if f.kind = .int then f.lsb
  else max ((m.log2 : Int) + e) (1 - (f.bias : Int)) - f.mb

/-- Encode an exactly representable magnitude of `t` units of 2^q. -/
def packMag (f : FmtInfo) (w : Nat) (neg : Bool) (t : Nat) (q : Int) : Nat :=
  if f.kind = .int then (if neg then (256 - t % 256) % 256 else t % 256)
  else
    let s := if neg then 2 ^ (w - 1) else 0
    if t = 0 then s
    else
      let k := (t.log2 : Int) + q
      if k < 1 - (f.bias : Int) then s + (t * 2 ^ (q - (1 - (f.bias : Int) - f.mb)).toNat)
      else
        let man := (if q ≤ k - f.mb then t / 2 ^ ((k - f.mb) - q).toNat else t * 2 ^ (q - (k - f.mb)).toNat) - 2 ^ f.mb
        s + (k + f.bias).toNat * 2 ^ f.mb + man

/-- The canonical NaN (R76); 0 where the format has none. -/
def nanRaw (f : FmtInfo) : Nat :=
  match f.kind with
  | .ieee => (2 ^ f.eb - 1) * 2 ^ f.mb + 2 ^ (f.mb - 1)
  | .e4m3 => 0x7F
  | _ => 0

/-- An infinity of an IEEE format. -/
def infRaw (f : FmtInfo) (w : Nat) (neg : Bool) : Nat := (if neg then 2 ^ (w - 1) else 0) + (2 ^ f.eb - 1) * 2 ^ f.mb

/-- Saturated value with the sign of the input (R93): INT8 clamps to −128 or 127. -/
def satRaw (c : Nat) (neg : Bool) : Nat :=
  let f := fmtInfo c
  if c = 5 && neg then 0x80
  else if f.kind = .int then packMag f 8 neg 127 f.lsb
  else packMag f (fmtWidth c) neg f.maxM f.maxE

/-- Convert an exact value to a format under RND, SAT and the element's random bits (R90 to R93): the encoding, and whether
the conversion saturated or overflowed; an infinity clamped to a finite limit counts (DESIGN CHOICE, log 152). -/
def fmtEncode (c : Nat) (x : FV) (rnd : Nat) (sat : Bool) (r : Nat) : Nat × Bool :=
  let f := fmtInfo c
  let w := fmtWidth c
  match x with
  | .nan => (nanRaw f, false)
  | .inf neg =>
    if f.kind = .ieee && !isMx c then (infRaw f w neg, false)
    else if f.kind = .e4m3 && !isMx c && !sat then (nanRaw f, false)
    else (satRaw c neg, true)
  | .fin neg m e =>
    let q := ulpExp f m e
    let t := roundMag m e q rnd r
    let exceeds :=
      if c = 5 && neg then 128 < t
      else magLt f.maxM f.maxE t q
    if exceeds then
      if rnd = 1 || sat || isMx c || f.kind = .int then (satRaw c neg, true)
      else if f.kind = .ieee then (infRaw f w neg, true)
      else (nanRaw f, true)
    else (packMag f w neg t q, false)

/-- The value of an FP32 bit pattern. -/
def f32 (b : Nat) : FV := fmtDecode 0 b
/-- Round once to FP32 under RNE: the bit pattern. -/
def rnd32 (x : FV) : Nat := (fmtEncode 0 x 0 false 0).1
/-- Round once to FP32 under RNE: the value. -/
def rv32 (x : FV) : FV := f32 (rnd32 x)
/-- A finite value that rounds to an FP32 infinity, which counts as an overflow (R229). -/
def over32 (x : FV) : Bool := (fmtEncode 0 x 0 false 0).2

/-! ## Microscaling blocks (R79, R95) -/

/-- Element value times 2^(scale − 127); NaN under a 0xFF scale (R79). -/
def mxValue (c raw scale : Nat) : FV :=
  if scale = 255 then .nan
  else match fmtDecode c raw with
    | .fin n m e => .fin n m (e + scale - 127)
    | v => v

/-- EMAX of R95. -/
def mxEmax (c : Nat) : Int :=
  match c with
  | 6 => 8
  | 7 => 15
  | 8 => 4
  | 9 | 10 => 2
  | _ => 0

/-- floor(log2) of a non-zero magnitude. -/
def flog2 (m : Nat) (e : Int) : Int := (m.log2 : Int) + e

/-- Clamp. -/
def clampI (lo hi v : Int) : Int := max lo (min hi v)

/-- Magnitude of a finite value, as (m, e). -/
def FV.magOf : FV → Nat × Int
  | .fin _ m e => (m, e)
  | _ => (0, 0)

/-- Quantise one block (R95): its scale byte and the elements with their saturation. `rs` gives the random bits. -/
def mxQuant (c : Nat) (xs : List FV) (rnd : Nat) (sat : Bool) (rs : List Nat) : Nat × List (Nat × Bool) :=
  if xs.any fun x => match x with | .fin _ _ _ => false | _ => true then (255, xs.map fun _ => (0, false))
  else
    let a := xs.foldl (fun (p : Nat × Int) x => if magLt p.1 p.2 x.magOf.1 x.magOf.2 then x.magOf else p) (0, 0)
    if a.1 = 0 then (127, xs.map fun _ => (0, false))
    else
      let e := clampI (-127) 127 (flog2 a.1 a.2 - mxEmax c)
      ((e + 127).toNat, xs.zipIdx.map fun xi =>
        match xi.1 with
        | .fin n m k => fmtEncode c (.fin n m (k - e)) rnd sat (rs.getD xi.2 0)
        | _ => (0, false))

/-! ## Packing (R78) -/

/-- Element `i` of width `w` of a little-endian number. -/
def elemOf (w n i : Nat) : Nat := n / 2 ^ (w * i) % 2 ^ w

/-- Elements of width `w` packed into a little-endian number. -/
def packElems (w : Nat) (xs : List Nat) : Nat := xs.foldr (fun x a => x % 2 ^ w + 2 ^ w * a) 0

/-- Elements packed into bytes, zero padded to whole bytes. -/
def packBytes (w : Nat) (xs : List Nat) : List Byte :=
  (List.range (ceilDiv (xs.length * w) 8)).map fun i => BitVec.ofNat 8 (packElems w xs / 2 ^ (8 * i))

/-- `n` elements of width `w` from bytes. -/
def unpackBytes (w : Nat) (bs : List Byte) (n : Nat) : List Nat :=
  let v := natOfBytes bs
  (List.range n).map fun i => elemOf w v i

end Sys2Proof.Machine
end

