-- ==== Sys2Proof/Machine/Arith.lean ====
section
/-! DEFINITION. The arithmetic units (03): the MMA step (R82, R83) and the step walk (R123), the vector unit (R96 to R98, R234),
the epilogue (R88), the stream generator (R104, R106), statistics (R99, R100) and the scaling history (R101, R102). -/
namespace Sys2Proof.Machine

/-! ## The MMA step (R82, R83) -/

/-- A pair of a step: element values and E8M0 scale bytes, 127 for a non-MX operand. -/
structure MmaPair where
  a : FV
  b : FV
  ea : Nat
  eb : Nat
  deriving DecidableEq, Repr

/-- The product of a pair, exact. A NaN scale makes it NaN. -/
def MmaPair.product (p : MmaPair) : FV :=
  if p.ea = 255 || p.eb = 255 then .nan
  else match FV.mul p.a p.b with
    | .fin n m e => .fin n m (e + p.ea + p.eb - 254)
    | v => v

/-- Truncate a magnitude to a multiple of 2^q. -/
def truncTo (q : Int) : FV → FV
  | .fin n m e => if q ≤ e then .fin n m e else .fin n (m / 2 ^ (q - e).toNat) q
  | v => v

/-- Greatest magnitude of a list of finite values, as (m, e). -/
def maxMag (xs : List FV) : Nat × Int :=
  xs.foldl (fun p x => if magLt p.1 p.2 x.magOf.1 x.magOf.2 then x.magOf else p) (0, 0)

/-- The exact sum of finite values; an exact zero is −0 only where every addend is. -/
def exactSum : List FV → FV
  | [] => .zero
  | [x] => x
  | x :: t => FV.add x (exactSum t)

/-- One step: accumulator and at most G products. `integer` selects R83, which truncates nothing; the sign
of its zero is that of the signed sum (DESIGN CHOICE, log 153). -/
def mmaStep (c : FV) (ps : List MmaPair) (integer : Bool) : FV :=
  let adds := c :: ps.map MmaPair.product
  if adds.contains .nan then .nan
  else if adds.contains (.inf false) && adds.contains (.inf true) then .nan
  else if adds.contains (.inf false) then .inf false
  else if adds.contains (.inf true) then .inf true
  else
    let (m, e) := maxMag adds
    if m = 0 then .fin (adds.all fun x => match x with | .fin n _ _ => n | _ => false) 0 0
    else
      let xs := if integer then adds else adds.map (truncTo (flog2 m e - 31))
      match exactSum xs with
      | .fin n k j => if k = 0 then .zero else rv32 (.fin n k j)
      | v => v

/-- Matched positions of one step from `pos` (R123), and where the walk stands after it. `fuel` bounds the scan 4·G. -/
def oneStep (ok : Nat → Bool) (k g : Nat) : Nat → Nat → List Nat → List Nat × Nat
  | 0, pos, acc => (acc.reverse, pos)
  | fuel + 1, pos, acc =>
    if k ≤ pos || acc.length = g then (acc.reverse, pos)
    else oneStep ok k g fuel (pos + 1) (if ok pos then pos :: acc else acc)

/-- The steps of a work item (R123): the matched positions of each. -/
def stepWalk (ok : Nat → Bool) (k g : Nat) : Nat → Nat → List (List Nat)
  | 0, _ => []
  | fuel + 1, pos =>
    if k ≤ pos then []
    else let (st, nx) := oneStep ok k g (4 * g) pos []
         st :: stepWalk ok k g fuel nx

/-- Accumulate the steps of a work item (R226). -/
def runSteps (c : FV) (steps : List (List Nat)) (pair : Nat → MmaPair) (integer : Bool) : FV :=
  steps.foldl (fun c st => if st = [] then c else mmaStep c (st.map pair) integer) c

/-- Step group and integer class of a pairing (R80); none for a pairing not in the table. -/
def pairing (fa fb : Nat) : Option (Nat × Bool) :=
  let fp8 (c : Nat) : Bool := c = 3 || c = 4 || (6 ≤ c && c ≤ 9)
  if fp8 fa && fp8 fb then some (128, false)
  else if fa = 10 && fb = 10 then some (256, false)
  else if (fa = 10 && fp8 fb) || (fp8 fa && fb = 10) then some (128, false)
  else if fa = fb && (fa = 5 || fa = 11) then some (128, true)
  else if (fa = 1 || fa = 2) && (fb = 1 || fb = 2) then some (32, false)
  else none

/-! ## Elementary functions: approximations in units of 2^−128, far closer than the bounds of R97 -/

/-- ln 2 · 2^128. -/
def cLn2 : Nat := 235865763225513294137944142764154484399
/-- log2 e · 2^128. -/
def cLog2e : Nat := 490923683258796565746369346286093237521
/-- 2/√π · 2^128. -/
def cErf : Nat := 383967533763538142977158567454335403656

/-- Σ y^k/k! for y in units of 2^−128: `n` further terms from term `k`. -/
def expSeries (y : Nat) : Nat → Nat → Nat → Nat
  | 0, _, _ => 0
  | n + 1, k, t => t + expSeries y n (k + 1) (t * y / 2 ^ 128 / (k + 1))

/-- 2^f for a fraction f in units of 2^−128, in units of 2^−128. -/
def exp2Frac (f : Nat) : Nat := expSeries (f * cLn2 / 2 ^ 128) 48 0 (2 ^ 128)

/-- A dyadic v·2^e as an integer in units of 2^−128, truncated. -/
def fix128 (v e : Int) : Int :=
  if -128 ≤ e then v * 2 ^ (e + 128).toNat else v / 2 ^ (-128 - e).toNat

/-- 2^x for x in units of 2^−128: a dyadic. -/
def exp2Fix (x : Int) : Nat × Int := (exp2Frac (x % 2 ^ 128).toNat, x / 2 ^ 128 - 128)

/-- e^x for x in units of 2^−128. -/
def expFix (x : Int) : Nat × Int := exp2Fix (x * cLog2e / 2 ^ 128)

/-- Bits of log2 of a mantissa in [1, 2) in units of 2^−128, by repeated squaring. -/
def log2Bits : Nat → Nat → Nat → Nat
  | 0, _, acc => acc
  | n + 1, x, acc =>
    let y := x * x / 2 ^ 128
    if 2 ^ 129 ≤ y then log2Bits n (y / 2) (2 * acc + 1) else log2Bits n y (2 * acc)

/-- log2 of a positive dyadic in units of 2^−96. -/
def log2Fix (m : Nat) (e : Int) : Int :=
  let k := flog2 m e
  k * 2 ^ 96 + log2Bits 96 (m * 2 ^ 128 / 2 ^ m.log2) 0

/-- Terms of Σ (−1)^n x^(2n+1)/(n!(2n+1)) in units of 2^−128; `t` is x^(2n+1)/n!. -/
def erfSeries (x2 : Nat) : Nat → Nat → Nat → Int
  | 0, _, _ => 0
  | n + 1, k, t => (if k % 2 = 0 then (1 : Int) else -1) * ((t / (2 * k + 1) : Nat) : Int) +
      erfSeries x2 n (k + 1) (t * x2 / 2 ^ 128 / (k + 1))

/-- erf of a magnitude in units of 2^−128, in the same units. -/
def erfFix (x : Nat) : Nat :=
  if 6 * 2 ^ 128 ≤ x then 2 ^ 128 else (erfSeries (x * x / 2 ^ 128) 160 0 x * cErf / 2 ^ 128).toNat

/-- tanh of a magnitude in units of 2^−128, in the same units. -/
def tanhFix (x : Nat) : Nat :=
  if 40 * 2 ^ 128 ≤ x then 2 ^ 128
  else
    let (m, e) := expFix (2 * x)
    let p := (fix128 m e).toNat
    (p - 2 ^ 128) * 2 ^ 128 / (p + 2 ^ 128)

/-- |a − b| for dyadics, as a dyadic. -/
def absDiff (a b : FV) : Nat × Int :=
  match FV.add a b.neg with
  | .fin _ m e => (m, e)
  | _ => (0, 0)

/-- A free FP32 result within a bound of an approximation (R97): the free candidate where it lies within the bound, else the
approximation rounded once. -/
def openWithin (fn : Nat) (x : Nat) (y : FV) (bm : Nat) (be : Int) : FV :=
  let cand := f32 (Config.elementary fn (BitVec.ofNat 32 x)).toNat
  match cand with
  | .fin _ _ _ => let d := absDiff cand y; if magLt bm be d.1 d.2 then rv32 y else cand
  | _ => rv32 y

/-- `n` ulp of a result y (R97). -/
def ulpBound (n : Nat) (y : FV) : Nat × Int := (n, max (flog2 y.magOf.1 y.magOf.2) (-126) - 23)

/-- A quotient a·2^e ÷ b to more than 64 bits. -/
def quot (a b : Nat) (e : Int) : Nat × Int :=
  let sh := 200 + b.log2
  (a * 2 ^ sh / b, e - sh)

/-- 2^x or e^x for an exponent in units of 2^−128: within 3 ulp (`n` = 3, EXP up to 88 in magnitude), else within 2 ulp, or 2^−149 for a
subnormal result (R97). A result beyond the FP32 range is the infinity (DESIGN CHOICE, log 155). -/
def expResult (fn x n : Nat) (v : Int) : FV :=
  if 200 * 2 ^ 128 ≤ v then .inf false
  else if v ≤ -200 * 2 ^ 128 then openWithin fn x (.fin false 0 0) 1 (-149)
  else
    let (m, e) := exp2Fix v
    let y : FV := .fin false m e
    if over32 y then .inf false
    else
      let b := if flog2 m e < -126 && n ≠ 3 then (1, -149) else ulpBound n y
      openWithin fn x y b.1 b.2

/-- Result of log2 or ln within its bound (R97): 2^−22 absolute for x in [0.5, 2], else `n` ulp. -/
def logResult (fn x n m : Nat) (e : Int) (y : FV) : FV :=
  let near := !(magLt m e 1 (-1)) && !(magLt 2 0 m e)
  let b := if near then (1, -22) else ulpBound n y
  openWithin fn x y b.1 b.2

/-- A VUN function of one FP32 bit pattern (R97, R98, R234). -/
def vun (fn x : Nat) : FV :=
  let a := f32 x
  match fn, a with
  | _, .nan => .nan
  | 9, _ => a.abs
  | 10, _ => a.neg
  | 0, .inf n => if n then .nan else .inf false
  | 0, .fin n m e =>
    if m = 0 then a else if n then .nan
    else
      -- 2k + e even, m·4^100 keeps enough bits; a remainder becomes a sticky bit
      let (m, e) := if e % 2 = 0 then (m, e) else (2 * m, e - 1)
      let v := m * 4 ^ 100
      let q := Nat.sqrt v
      rv32 (.fin false (2 * q + (if q * q = v then 0 else 1)) (e / 2 - 101))
  | 1, .inf n => .fin n 0 0
  | 1, .fin n m e =>
    if m = 0 then .inf n
    else
      let (k, j) := quot 1 m (-e)
      let y : FV := .fin n k j
      if over32 y then .inf n else let b := ulpBound 1 y; openWithin 1 x y b.1 b.2
  | 2, .inf n => if n then .nan else .zero
  | 2, .fin n m e =>
    if m = 0 then .inf n else if n then .nan
    else
      let (m, e) := if e % 2 = 0 then (m, e) else (2 * m, e - 1)
      let (k, j) := quot (2 ^ 200) (Nat.sqrt (m * 4 ^ 200)) (-(e / 2))
      let y : FV := .fin false k j
      let b := ulpBound 2 y
      openWithin 2 x y b.1 b.2
  | 3, .inf n => if n then .zero else .inf false
  | 3, .fin n m e => expResult 3 x 2 (if flog2 m e < 10 then fix128 (if n then -(m : Int) else m) e else if n then -(2 ^ 138) else 2 ^ 138)
  | 4, .inf n => if n then .zero else .inf false
  | 4, .fin n m e =>
    let v := if flog2 m e < 10 then fix128 (if n then -(m : Int) else m) e else if n then -(2 ^ 138) else 2 ^ 138
    expResult 4 x (if magLt 88 0 m e then 2 else 3) (v * cLog2e / 2 ^ 128)
  | 5, .inf n => if n then .nan else .inf false
  | 5, .fin n m e => if m = 0 then .inf true else if n then .nan else logResult 5 x 2 m e (fvOfInt (log2Fix m e) (-96))
  | 6, .inf n => if n then .nan else .inf false
  | 6, .fin n m e =>
    if m = 0 then .inf true else if n then .nan
    else logResult 6 x 3 m e (fvOfInt (log2Fix m e * cLn2) (-224))
  | 7, .inf n => .fin n 1 0
  | 7, .fin n m e =>
    openWithin 7 x (.fin n (tanhFix (if flog2 m e < 10 then (fix128 m e).toNat else 2 ^ 138)) (-128)) 1 (-21)
  | _, .inf n => .fin n 1 0
  | _, .fin n m e =>
    openWithin 8 x (.fin n (erfFix (if flog2 m e < 10 then (fix128 m e).toNat else 2 ^ 138)) (-128)) 1 (-22)

/-! ## Reductions (R234) -/

/-- One level of the pairwise tree. -/
def sumLevel : List FV → List FV
  | a :: b :: t => rv32 (FV.add a b) :: sumLevel t
  | t => t

/-- The pairwise tree of SUM: `fuel` levels. -/
def treeSum : Nat → List FV → FV
  | _, [] => .zero
  | _, [x] => x
  | 0, x :: _ => x
  | n + 1, xs => treeSum n (sumLevel xs)

/-- A VRED reduction of one row. -/
def vred (fn : Nat) (xs : List FV) : FV :=
  match fn with
  | 0 => treeSum xs.length xs
  | _ =>
    match xs.filter (· ≠ .nan) with
    | [] => .nan
    | x :: t =>
      match fn with
      | 1 => t.foldl FV.max2 x
      | 2 => t.foldl FV.min2 x
      | _ => (t.map FV.abs).foldl FV.max2 x.abs

/-! ## Stream generator and dropout (R104, R106) -/

/-- The 16 random bits of element ELEM. -/
def streamBits (key : Word) (step stream elem : Nat) : Nat :=
  let c := elem / 8
  let q := philox (BitVec.ofNat 32 c, BitVec.ofNat 32 (c / 2 ^ 32), BitVec.ofNat 32 (step % 65536 * 65536 + stream % 65536),
    BitVec.ofNat 32 (step / 65536)) key
  (quadWord q (elem % 8 / 2)).toNat / 2 ^ (16 * (elem % 2)) % 65536

/-- Dropout of one element. -/
def dropElem (x : FV) (r t : Nat) (g : FV) : FV := if r < t then .zero else rv32 (FV.mul x g)

/-! ## Statistics (R99, R100) -/

/-- Greatest value of the 32-bit counts. -/
def top32 : Nat := 2 ^ 32 - 1

/-- The bin of a value that is not NaN. -/
def statBin (ebase : Int) : FV → Nat
  | .inf _ => 31
  | .nan => 0
  | .fin _ m e =>
    if m = 0 then 0
    else
      let k := flog2 m e
      if k < ebase then 0 else if ebase + 30 ≤ k then 31 else (k - ebase).toNat + 1

/-- EBASE as a signed byte. -/
def signed8 (n : Nat) : Int := if n % 256 < 128 then (n % 256 : Nat) else (n % 256 : Nat) - 256

end Sys2Proof.Machine
end

