-- ==== Sys2Proof/Machine/Sync.lean ====
section
/-! DEFINITION. Synchronisation and Tally atomics 0x40 to 0x46 (R187, R188, R209 to R214), and the release of waits (R210, R211, R270). -/
namespace Sys2Proof.Machine

/-- What a Tally reference names: a context word (half, pool word index) or a fence. -/
inductive TRef where
  | word (half idx : Nat)
  | fence (f : Nat)
  deriving DecidableEq, Repr

/-- Resolve a Tally reference of context `c` (R187, R188): SUB 1 NOT_MAPPED, SUB 2 PERMISSION. -/
def tallyRef (s : State) (c : Nat) (w : Word) : Except Nat TRef :=
  if field w 18 44 ≠ 0 then .error 1
  else match field w 62 2 with
    | 0 =>
      let h := field w 16 1
      if bit w 17 || s.cfg.halves ≤ h then .error 1
      else match ctxWordOff s h c (field w 0 16) with
        | some o => .ok (.word h ((o - poolBase) / 8))
        | none => .error 1
    | 1 =>
      let f := field w 0 18
      if s.cfg.halves ≤ fenceHalf f then .error 1
      else if (fenceOf s f).state ≠ 0 && (fenceOf s f).slice = (ctxOf s c).slice then .ok (.fence f)
      else .error 2
    | _ => .error 1

/-- A reference that must name a context word (R188). -/
def wordRef (s : State) (c : Nat) (w : Word) : Except Nat (Nat × Nat) :=
  match tallyRef s c w with
  | .ok (.word h i) => .ok (h, i)
  | .ok (.fence _) => .error 2
  | .error x => .error x

/-- A reference that must name a fence (R188). -/
def fenceRef (s : State) (c : Nat) (w : Word) : Except Nat Nat :=
  match tallyRef s c w with
  | .ok (.fence f) => .ok f
  | .ok (.word _ _) => .error 2
  | .error x => .error x

/-- Put an operation of an engine at its Tally port. -/
def engTally (s : State) (e h : Nat) (kind : TKind) (off : Nat) (v : Word) (ret : TRet) : State :=
  tallyEnqueue s h (engPort s.cfg h e) ⟨kind, off, v, e, (engOf s e).who.1, ret, 0⟩

/-- A Tally memory that takes accesses (R276). -/
def tallyAwake (s : State) (h : Nat) : Bool := !(tallyOf s h).retained && !(tallyOf s h).waking

/-- TWAIT (R210): retires when the condition holds, else the engine waits. A word in a Tally memory in retention is waited for (R276); an
uncorrectable one is a POISON fault (R274). -/
def execTwait (e : Nat) (f : Frame) (s : State) : Res :=
  issue e f ⟨.boundaryOnly, 6, [.s, .s], [(0, 64), (82, 2)]⟩ true (fun s g =>
    let v := srcS g f 1 + imm64 f
    let at_ (h off : Nat) : IRes :=
      if !(tallyAwake s h) then .stall
      else if tallyBad (tallyOf s h) off then .fault (tallyBadWord s h off) 8 0 0
      else if condHolds (lowField f 82 2) (tallyWord s h off) v then .ok s
      else .jump (modEng s e fun x => { x with wait := some ⟨h, off, none, v, lowField f 82 2, 0, none⟩ }) g.pc
    match tallyRef s g.who.1 (srcS g f 0) with
    | .error sub => .fault s 7 sub 0
    | .ok (.word h i) => at_ h (poolBase + 8 * i)
    | .ok (.fence n) => at_ (fenceHalf n) (16 * (n % 131072))) s

/-- A wait on an orphaned fence whose VALUE does not satisfy it puts the fence in ABANDONED at once (R445). -/
def orphanCheck (s : State) (f : Nat) (v : Word) : State :=
  if (fenceOf s f).state = 1 && (fenceOf s f).value.toNat < v.toNat && orphaned s f then fenceErr s f cABANDONED else s

/-- FWAIT (R211, R445): retires with 0 or the fence's code, else the engine waits. -/
def execFwait (e : Nat) (f : Frame) (s : State) : Res :=
  issue e f ⟨.boundaryOnly, 6, [.s, .s, .s], [(0, 64)]⟩ true (fun s g =>
    match fenceRef s g.who.1 (srcS g f 0) with
    | .error sub => .fault s 7 sub 0
    | .ok n =>
      let (h, off) := (fenceHalf n, 16 * (n % 131072))
      if !(tallyAwake s h) then .stall
      else if tallyBad (tallyOf s h) off then .fault (tallyBadWord s h off) 8 0 0
      else
        let v := srcS g f 1 + imm64 f
        let s := orphanCheck s n v
        let w : WaitRec := ⟨fenceHalf n, 16 * (n % 131072), some n, v, 0, (slotOf f 2).2, none⟩
        match waitResult s w with
        | some r => .ok (modEng s e fun x => sPut x w.reg r)
        | none => .jump (modEng s e fun x => { x with wait := some w }) g.pc) s

/-- Release a wait of an engine (R210, R211): its result is written and the instruction retires. -/
def releaseWait (s : State) (e : Nat) (w : WaitRec) (r : Word) : State :=
  modEng s e fun x =>
    let x := { x with wait := none, pc := (x.pc + 16) % 2 ^ 52 }
    if w.fence.isSome then sPut x w.reg r else x

/-- TWAIT_RELEASE (R210): the change that made the condition true has reached the engine. -/
def execTwaitRelease (e : Nat) (s : State) : Res :=
  match (engOf s e).wait with
  | some w =>
    match w.ready with
    | some r => unitRes (s.cfg.hasEngine e) s w.fence.isNone (releaseWait s e w r)
    | none => .next s  -- no change has made the condition true
  | none => .next s  -- the engine does not wait

/-- FWAIT_RELEASE (R211, R440): the value was reached or the fence entered its error state. -/
def execFwaitRelease (e : Nat) (s : State) : Res :=
  match (engOf s e).wait with
  | some w =>
    match w.ready with
    | some r => unitRes (s.cfg.hasEngine e) s w.fence.isSome (releaseWait s e w r)
    | none => .next s  -- the fence has not reached the value
  | none => .next s  -- the engine does not wait

/-- A register that a Tally operation answers into waits for it. -/
def pendReg (s : State) (e r : Nat) : State :=
  if r = 0 then s else modEng s e fun x => { x with pendRes := sins x.pendRes r }

/-- Issue a Tally operation that returns its previous word into slot 2 (R213). -/
def tallyReturning (s : State) (g : Engine) (e : Nat) (f : Frame) (h : Nat) (kind : TKind) (off : Nat) (v : Word) : IRes :=
  let r := (slotOf f 2).2
  .ok (pendReg (engTally s e h kind off v (.engine e g.who.1 g.who.2 r)) e r)

/-- TLD (R213). -/
def execTld (e : Nat) (f : Frame) (s : State) : Res :=
  issue e f ⟨.opening, 6, [.s, .zero, .s], [(0, 64)]⟩ true (fun s g =>
    match tallyRef s g.who.1 (srcS g f 0) with
    | .error sub => .fault s 7 sub 0
    | .ok (.word h i) => tallyReturning s g e f h .read (poolBase + 8 * i) 0
    | .ok (.fence n) => tallyReturning s g e f (fenceHalf n) .read (16 * (n % 131072)) 0) s

/-- TADD (R213). -/
def execTadd (e : Nat) (f : Frame) (s : State) : Res :=
  issue e f ⟨.opening, 6, [.s, .s, .s], [(0, 64)]⟩ true (fun s g =>
    match wordRef s g.who.1 (srcS g f 0) with
    | .error sub => .fault s 7 sub 0
    | .ok (h, i) => tallyReturning s g e f h .add (poolBase + 8 * i) (srcS g f 1 + imm64 f)) s

/-- TSWAP (R213). -/
def execTswap (e : Nat) (f : Frame) (s : State) : Res :=
  issue e f ⟨.opening, 6, [.s, .s, .s], [(0, 64)]⟩ true (fun s g =>
    match wordRef s g.who.1 (srcS g f 0) with
    | .error sub => .fault s 7 sub 0
    | .ok (h, i) => tallyReturning s g e f h .swap (poolBase + 8 * i) (srcS g f 1 + imm64 f)) s

/-- FSIG (R212): a MAX of the fence. -/
def execFsig (e : Nat) (f : Frame) (s : State) : Res :=
  issue e f ⟨.opening, 6, [.s, .s], [(0, 64)]⟩ true (fun s g =>
    match fenceRef s g.who.1 (srcS g f 0) with
    | .error sub => .fault s 7 sub 0
    | .ok n => .ok (engTally s e (fenceHalf n) .max (16 * (n % 131072)) (srcS g f 1 + imm64 f) (.action e g.who.1 g.who.2))) s

/-- FERR (R212): a SETERR of the fence with a tenant's code; a code below 0x8000 is an illegal instruction. -/
def execFerr (e : Nat) (f : Frame) (s : State) : Res :=
  issue e f ⟨.opening, 6, [.s], [(0, 16)]⟩ (0x8000 ≤ lowField f 0 16) (fun s g =>
    match fenceRef s g.who.1 (srcS g f 0) with
    | .error sub => .fault s 7 sub 0
    | .ok n => .ok (engTally s e (fenceHalf n) .seterr (16 * (n % 131072)) (BitVec.ofNat 64 (lowField f 0 16))
        (.action e g.who.1 g.who.2))) s

end Sys2Proof.Machine
end

