-- ==== Sys2Proof/Machine/Movement.lean ====
section
/-! DEFINITION. Data movement 0x20 to 0x26 (R201 to R208): Bolt images (R198), transfers between memory, Bolt buffer and scratchpad,
the prefetch queue (R144, R385), and the memory side of asynchronous operations (R189 to R193, R340, R646). -/
namespace Sys2Proof.Machine

/-! ## Checked reads of the scratchpad and the Bolt buffer (R274, R530) -/

/-- Read Bolt bytes through the checker: the flag reports an uncorrectable word. -/
def boltChecked (s : State) (c a n : Nat) : State × Bool :=
  let (s, r) := checkedAccess s 2 c 0
  if anyBad (clOf s c).boltBad a n then (raise s 3 c a, true) else (s, r = 2)

/-- Read scratchpad bytes of engine `e` through the checker. -/
def spadChecked (s : State) (e a n : Nat) : State × Bool :=
  let (s, r) := checkedAccess s 1 (e / 4) (e % 4)
  if anyBad (engOf s e).spadBad a n then (raise s 1 e a, true) else (s, r = 2)

/-- Read scratchpad extents through the checker: one checked access for the instruction. -/
def spadCheckedAll (s : State) (e : Nat) (xs : List (Nat × Nat)) : State × Bool :=
  let (s, r) := checkedAccess s 1 (e / 4) (e % 4)
  if xs.any fun x => anyBad (engOf s e).spadBad x.1 x.2 then (raise s 1 e 0, true) else (s, r = 2)

/-- Write scratchpad bytes; the flag reports a part-word write to an uncorrectable word (R646). -/
def spadWrite (s : State) (e a : Nat) (bs : List Byte) : State × Bool :=
  let g := engOf s e
  let (m, b, x) := wordWrite g.spad g.spadBad a bs
  (modEng s e fun g => { g with spad := m, spadBad := b }, x)

/-- Write several runs of scratchpad bytes. -/
def spadWrites (e : Nat) : State → List (Nat × List Byte) → State × Bool
  | s, [] => (s, false)
  | s, (a, bs) :: t =>
    let (s, x) := spadWrite s e a bs
    let (s, y) := spadWrites e s t
    (s, x || y)

/-! ## Bolt images (R198) -/

/-- The pieces of a window: address in memory, offset in the image, bytes; the image's size; and its padding. -/
structure Layout where
  segs : List (Nat × Nat × Nat)
  size : Nat
  pads : List (Nat × Nat)
  deriving DecidableEq, Repr

/-- Rows of `rb` bytes at the given addresses, each padded to a multiple of 64 bytes in the image. -/
def rowsLayout (rb : Nat) (addrs : List Nat) : Layout :=
  let rp := roundUp rb 64
  { segs := addrs.zipIdx.map fun a => (a.1, a.2 * rp, rb), size := addrs.length * rp,
    pads := if rp = rb then [] else addrs.zipIdx.map fun a => (a.2 * rp + rb, rp - rb) }

/-- The layout of a dense or N:M window, or of its scales (R194, R198). -/
def winLayout (t : Tensor) (w : Win) (part : Bool) : Layout :=
  if part then rowsLayout (w.cols / 32) ((List.range w.rows).map (winScaleAddr t w))
  else rowsLayout (winRowBytes t w) ((List.range w.rows).map (winRowAddr t w))

/-- Heddle blocks of a fibre (R110). -/
def blocksOfK (k : Nat) : Nat := ceilDiv k 128

/-- Set bits of a number below 2^128. -/
def popcount128 (m : Nat) : Nat := (List.range 128).foldl (fun a i => a + m / 2 ^ i % 2) 0

/-- Bytes of a bitmap block with `p` kept elements of width `w` (R116). -/
def bitmapBlockBytes (p w : Nat) : Nat := 16 + roundUp (ceilDiv (p * w) 8) 16

/-- Bytes of an offset array, padded (R198). -/
def offsetBytes (rows : Nat) : Nat := roundUp (4 * rows) 16

/-- Lines touched by memory runs. -/
def touchedLines (segs : List (Nat × Nat × Nat)) : List Nat :=
  (segs.flatMap fun x => (lineParts x.1 x.2.2).map (·.1)).eraseDups

/-- How many of a requester's lines the regulator counts: a request to a fenced sub-channel is no line (R386). -/
def openLines (who : Who) (s : State) (lines : List Nat) : State × Nat :=
  if s.fc.subFenced = [] then (s, lines.length)
  else lines.foldl (fun acc a =>
    match xlat acc.1 who a false false false with
    | (t, .ok q) => (t, if subFenced t q.port q.sub then acc.2 else acc.2 + 1)
    | (t, .err _) => (t, acc.2 + 1)) (s, 0)

/-! ## Bytes in transit -/

/-- The entries of a byte table in `[a, a+n)`. -/
def snapOf (m : List (Nat × Byte)) (a n : Nat) : List (Nat × Byte) := m.filter fun e => a ≤ e.1 && e.1 < a + n

/-- Bolt bytes of an operation that may read them at any time since issue (R193): each is the byte at issue or the byte now. -/
def snapMix (c : Nat) (snap : List (Nat × Byte)) : State → Nat → Nat → State × List Byte
  | s, _, 0 => (s, [])
  | s, a, n + 1 =>
    let old := bget snap a
    let cur := bget (clOf s c).bolt a
    let (s, b) := if old = cur then (s, cur) else (fun r : State × Bool => (r.1, if r.2 then old else cur)) (drawBool s)
    let (s, t) := snapMix c snap s (a + 1) n
    (s, b :: t)

/-- Copy memory runs into the Bolt buffer from cluster byte `at'` (R203, R340): the lines of an error are not copied, a poisoned line
leaves uncorrectable words, and the first error is reported. -/
def copyIn (who : Who) (via : Via) (c at' : Nat) : State → List (Nat × Nat × Nat) → State × Option Nat
  | s, [] => (s, none)
  | s, (va, io, n) :: rest =>
    let (s, err) := (lineParts va n).foldl (fun (acc : State × Option Nat) p =>
      let o := at' + io + (p.1 + p.2.1 - va)
      match readPart acc.1 who via false p with
      | (t, .ok bs) =>
        let (t, bad) := boltWrite t c o bs
        (t, if acc.2.isSome then acc.2 else if bad then some cPOISON else none)
      | (t, .err code) =>
        let t := if code = cPOISON then boltPoison t c o p.2.2 else t
        (t, if acc.2.isSome then acc.2 else some code)) (s, none)
    let (s, err') := copyIn who via c at' s rest
    (s, if err.isSome then err else err')

/-- Zero padding of an image in the Bolt buffer. -/
def padIn (c at' : Nat) (s : State) (pads : List (Nat × Nat)) : State × Bool :=
  pads.foldl (fun acc p =>
    let (t, bad) := boltWrite acc.1 c (at' + p.1) (List.replicate p.2 0)
    (t, acc.2 || bad)) (s, false)

/-- Write a memory line as a poisoned line (R339, R646). -/
def writePoisonPart (s : State) (who : Who) (via : Via) (p : Nat × Nat × Nat) : State × Acc Unit :=
  match xlatVia s who via p.1 true false with
  | (s, .err c) => (s, .err (viaCode via (p.1 + p.2.1) c))
  | (s, .ok q) =>
    match svWriteFull (countLine s who q) q 0 [] with
    | (s, .fail c) => (s, .err (viaCode via (p.1 + p.2.1) c))
    | (s, _) => (poisonLine s q.port q.sub q.line, .ok ())

/-- Write one line part of a transfer: not at all where the transfer was cut and the line had not started (R180), as poison where
its source was uncorrectable. -/
def outPart (who : Who) (via : Via) (cut : Bool) (s : State) (p : Nat × Nat × Nat) (bs : List Byte) (bad : Bool) :
    State × Option Nat :=
  let (s, skip) := if cut then drawBool s else (s, false)
  if skip then (s, none)
  else if bad then
    match writePoisonPart s who via p with
    | (s, .err c) => (s, some c)
    | (s, .ok _) => (s, some cPOISON)
  else match writePart s who via p bs with
    | (s, .err c) => (s, some c)
    | (s, .ok _) => (s, none)

/-- Copy Bolt runs to memory (R203, R193, R646); the first error is reported. -/
def copyOut (who : Who) (via : Via) (c at' : Nat) (snap : List (Nat × Byte)) (cut : Bool) :
    State → List (Nat × Nat × Nat) → State × Option Nat
  | s, [] => (s, none)
  | s, (va, io, n) :: rest =>
    let (s, err) := (lineParts va n).foldl (fun (acc : State × Option Nat) p =>
      let o := at' + io + (p.1 + p.2.1 - va)
      let bad := anyBad (clOf acc.1 c).boltBad o p.2.2
      let t := if bad then raise acc.1 3 c o else acc.1
      let (t, bs) := snapMix c snap t o p.2.2
      let (t, e) := outPart who via cut t p bs bad
      (t, if acc.2.isSome then acc.2 else e)) (s, none)
    let (s, err') := copyOut who via c at' snap cut s rest
    (s, if err.isSome then err else err')

/-- Write chunks of bytes to memory, each in lines that a cut may leave unwritten. -/
def writeChunks (who : Who) (via : Via) (cut : Bool) : State → List (Nat × List Byte) → State × Option Nat
  | s, [] => (s, none)
  | s, (a, bs) :: rest =>
    let (s, err) := (lineParts a bs.length).foldl (fun (acc : State × Option Nat) p =>
      let (t, e) := outPart who via cut acc.1 p ((bs.drop (p.1 + p.2.1 - a)).take p.2.2) false
      (t, if acc.2.isSome then acc.2 else e)) (s, none)
    let (s, err') := writeChunks who via cut s rest
    (s, if err.isSome then err else err')

/-! ## Bitmap images (R117, R198, R203) -/

/-- BOLT_RANGE as the code an asynchronous error carries (R441). -/
def cBOLT_RANGE : Nat := 0x106

/-- Length in bytes of a bitmap fibre in memory: the masks of its blocks are read one after another by `rd`. Where a mask cannot be read, the
length of the blocks before it and the error. -/
def fibreLen (rd : State → Nat → State × Acc Nat) (w : Nat) : Nat → State → Nat → State × Nat × Option Nat
  | 0, s, _ => (s, 0, none)
  | n + 1, s, a =>
    match rd s a with
    | (s, .err c) => (s, 0, some c)
    | (s, .ok m) =>
      let b := bitmapBlockBytes (popcount128 m) w
      let (s, k, e) := fibreLen rd w n s (a + b)
      (s, b + k, e)

/-- Length in bytes of a bitmap fibre in a byte table. -/
def fibreLenIn (m : List (Nat × Byte)) (w : Nat) : Nat → Nat → Nat
  | 0, _ => 0
  | n + 1, a =>
    let b := bitmapBlockBytes (popcount128 (bnat m a 16)) w
    b + fibreLenIn m w n (a + b)

/-- The Bolt bytes that the rest of a line at memory address `a` fills from image byte `pos` on take uncorrectable check bits where the line
is poisoned (R340); at most `n` bytes. -/
def poisonRest (s : State) (c at' pos a n code : Nat) : State :=
  if code = cPOISON then boltPoison s c (at' + pos) (min n (128 - a % 128)) else s

/-- Prefetch a bitmap window: each fibre's segment follows the last, and its offset entry names it. An offset entry or a mask that cannot be
read ends the image there, since the place of what follows is not known; the lines before it are written. The lines of the offset array were
counted at issue; those of the segments count as they are read (R378). -/
def bitmapIn (who : Who) (t : Tensor) (w : Win) (c at' limit : Nat) : State → Nat → Nat → Nat → State × Option Nat
  | s, 0, _, _ => (s, none)
  | s, n + 1, r, pos =>
    let entry := t.aux + 4 * (w.row0 + r)
    match memNat s { who with counted := true } .va entry 4 with
    | (s, .err code) => (poisonRest s c at' (4 * r) entry (4 * (n + 1)) code, some code)
    | (s, .ok off) =>
      let seg := t.base + 16 * off
      let (s, len, e0) := fibreLen (fun s a => memNat s { who with counted := true } .va a 16) (fmtWidth t.fmt) (blocksOfK t.cols) s seg
      if limit < pos + len then (s, some cBOLT_RANGE)
      else
        let (s, e1) := copyIn { who with counted := false } .va c at' s [(seg, pos, len)]
        let (s, bad) := boltWrite s c (at' + 4 * r) (leBytes 4 (pos / 16))
        match e0 with
        | some code => (poisonRest s c at' (pos + len) (seg + len) (limit - (pos + len)) code, if e1.isSome then e1 else e0)
        | none =>
          let (s, e2) := bitmapIn who t w c at' limit s n (r + 1) (pos + len)
          (s, if e1.isSome then e1 else if bad then some cPOISON else e2)

/-- Push a bitmap image: each fibre goes to the segment offset that its entry gives, and the entry is written. -/
def bitmapOut (who : Who) (t : Tensor) (w : Win) (c at' limit : Nat) (snap : List (Nat × Byte)) (cut : Bool) :
    State → Nat → Nat → State × Option Nat
  | s, 0, _ => (s, none)
  | s, n + 1, r =>
    let off := bnat (clOf s c).bolt (at' + 4 * r) 4
    let len := fibreLenIn (clOf s c).bolt (fmtWidth t.fmt) (blocksOfK t.cols) (at' + 16 * off)
    if limit < 16 * off + len then (s, some cBOLT_RANGE)
    else
      let (s, e1) := copyOut who .va c at' snap cut s [(t.base + 16 * off, 16 * off, len)]
      let (s, e2) := copyOut who .va c at' snap cut s [(t.aux + 4 * (w.row0 + r), 4 * r, 4)]
      let (s, e3) := bitmapOut who t w c at' limit snap cut s n (r + 1)
      (s, if e1.isSome then e1 else if e2.isSome then e2 else e3)

/-- Extent of a Bolt operand to the end of the region, for images whose size is in their data. -/
def regionRest (s : State) (c ctx gen o : Nat) : Nat := (boltSpan s c ctx gen).elim 0 fun x => x.2 - o

/-- Bytes of a whole tensor row. -/
def rowBytes (t : Tensor) : Nat := ceilDiv (t.cols * fmtWidth t.fmt) 8

/-! ## What a transfer does when its bytes move -/

/-- Move the bytes of a memory and Bolt transfer; gives its error. -/
def moveAsync (s : State) (a : AsyncOp) : State × Option Nat :=
  let c := a.eng / 4
  let who := engWho s a.eng a.ctx a.gen a.bwclass
  match a.kind with
  | .pref d o org rows cols part _ =>
    let t := tensorOf d
    let w := winOf org rows cols
    let who := { who with counted := true }
    if t.spc = 5 && !part then
      match boltAt s c a.ctx a.gen o (offsetBytes rows) with
      | none => (s, none)
      | some at' =>
        let (s, bad) := boltWrite s c at' (List.replicate (offsetBytes rows) 0)
        let (s, e) := bitmapIn who t w c at' (regionRest s c a.ctx a.gen o) s rows 0 (offsetBytes rows)
        (s, if e.isSome then e else if bad then some cPOISON else none)
    else
      let lay := winLayout t w part
      match boltAt s c a.ctx a.gen o lay.size with
      | none => (s, none)
      | some at' =>
        let (s, bad) := padIn c at' s lay.pads
        let (s, e) := copyIn who .va c at' s lay.segs
        (s, if e.isSome then e else if bad then some cPOISON else none)
  | .push d o org rows cols part snap =>
    let t := tensorOf d
    let w := winOf org rows cols
    if t.spc = 5 && !part then
      match boltAt s c a.ctx a.gen o (offsetBytes rows) with
      | none => (s, none)
      | some at' => bitmapOut who t w c at' (regionRest s c a.ctx a.gen o) snap a.cut s rows 0
    else
      let lay := winLayout t w part
      match boltAt s c a.ctx a.gen o lay.size with
      | none => (s, none)
      | some at' => copyOut who .va c at' snap a.cut s lay.segs
  | .gath d o idx =>
    let t := tensorOf d
    let rp := roundUp (rowBytes t) 64
    match boltAt s c a.ctx a.gen o (idx.length * rp) with
    | none => (s, none)
    | some at' =>
      let good := (idx.zipIdx.filter fun x => x.1 < t.rows).map fun x => (t.base + x.1 * t.pitch, x.2 * rp, rowBytes t)
      let pads := if rp = rowBytes t then [] else good.map fun x => (x.2.1 + rowBytes t, rp - rowBytes t)
      let (s, bad) := padIn c at' s pads
      let (s, e) := copyIn who .va c at' s good
      (s, if e.isSome then e else if bad then some cPOISON
          else if idx.any fun i => i ≠ 0xFFFFFFFF && t.rows ≤ i then some (cADDRESS 5) else none)
  | .scat d o idx snap =>
    let t := tensorOf d
    let rp := roundUp (rowBytes t) 64
    match boltAt s c a.ctx a.gen o (idx.length * rp) with
    | none => (s, none)
    | some at' =>
      let good := (idx.zipIdx.filter fun x => x.1 < t.rows).map fun x => (t.base + x.1 * t.pitch, x.2 * rp, rowBytes t)
      let (s, e) := copyOut who .va c at' snap a.cut s good
      (s, if e.isSome then e else if idx.any fun i => i ≠ 0xFFFFFFFF && t.rows ≤ i then some (cADDRESS 5) else none)
  | .write chunks => writeChunks who .va a.cut s chunks
  | _ => (s, none)

/-! ## Bolt reads while transfers are under way (R163) -/

/-- Where a transfer into the Bolt buffer writes, as program offset and length. -/
def intoBolt (s : State) (a : AsyncOp) : Option (Nat × Nat) :=
  match a.kind with
  | .pref d o org rows cols part _ =>
    let t := tensorOf d
    some (o, if t.spc = 5 && !part then regionRest s (a.eng / 4) a.ctx a.gen o else (winLayout t (winOf org rows cols) part).size)
  | .gath d o idx => some (o, idx.length * roundUp (rowBytes (tensorOf d)) 64)
  | _ => none

/-- The bytes of a table of earlier bytes in the given program ranges, and the bytes now elsewhere. -/
def pastBytes (s : State) (c : Nat) (past : List (Nat × Byte)) (ranges : List (Nat × Nat)) (o a n : Nat) : List Byte :=
  (List.range n).map fun i =>
    if ranges.any fun r => r.1 ≤ o + i && o + i < r.1 + r.2 then bget past (a + i) else bget (clOf s c).bolt (a + i)

/-- What the incomplete transfers of a context may leave at program offset `o`, cluster byte `a`: the bytes that a transfer still under way
writes, and those that were there before one whose bytes have moved. -/
def boltAlts (s : State) (c ctx gen o a n : Nat) : List (List Byte) :=
  (s.asyncs.filterMap fun x =>
    if x.ctx = ctx && x.gen = gen && x.eng / 4 = c && !x.queued && x.err.isNone then
      (intoBolt s x).map fun r =>
        if x.moved.isSome then pastBytes s c x.past [r] o a n else boltRead (moveAsync s x).1 c a n
    else none) ++
  ((clOf s c).shuttle.filter fun x => x.ctx = ctx && x.gen = gen && x.started).map fun x => pastBytes s c x.past x.wrote o a n

/-- One of a byte and its alternatives, freely. -/
def pickByte : State → Byte → List Byte → State × Byte
  | s, b, [] => (s, b)
  | s, b, x :: t =>
    if x = b then pickByte s b t
    else
      let (s, y) := drawBool s
      pickByte s (if y then x else b) t

/-- Choose each byte among the lists. -/
def pickBytes (alts : List (List Byte)) : State → Nat → List Byte → State × List Byte
  | s, _, [] => (s, [])
  | s, i, b :: t =>
    let (s, b) := pickByte s b (alts.map fun l => l.getD i b)
    let (s, t) := pickBytes alts s (i + 1) t
    (s, b :: t)

/-- Bolt bytes as a read of a context sees them (R163): of a byte that an incomplete transfer is writing, its old or its new value. -/
def boltSeen (s : State) (c ctx gen o a n : Nat) : State × List Byte :=
  let alts := boltAlts s c ctx gen o a n
  if alts = [] then (s, boltRead s c a n) else pickBytes alts s 0 (boltRead s c a n)

/-- The condition of an expert-bound prefetch or tile test (R143): its word is a count, or one bit of it counts. -/
def condTrue (bs : List Byte) (mask : Bool) (bitNo : Nat) : Bool :=
  if mask then natOfBytes bs / 2 ^ bitNo % 2 = 1 else natOfBytes bs ≠ 0

/-- Bytes of a condition word. -/
def condBytes (mask : Bool) : Nat := if mask then 8 else 2

/-! ## Issue of asynchronous operations (R189, R191) -/

/-- The completion word of an instruction with CA (R188, R189). -/
def completionWord (s : State) (g : Engine) (f : Frame) : Except Nat (Option (Nat × Nat)) :=
  if lowField f 82 2 = 1 then
    match wordRef s g.who.1 (srcS g f 3) with
    | .ok w => .ok (some w)
    | .error x => .error x
  else .ok none

/-- Operations of engine `e` that count toward the limit of 16 (R191). -/
def asyncCount (s : State) (e : Nat) : Nat := (s.asyncs.filter fun a => a.eng = e).length

/-- An operation that writes what it reads from the scratchpad. -/
def readsSpad : AKind → Bool
  | .write _ => true
  | _ => false

/-- Start an asynchronous operation after its Tally reference is checked. A queued one of a context that is being torn down is dropped at once
(R446). -/
def startAsync (s : State) (g : Engine) (e : Nat) (f : Frame) (kind : AKind) (queued : Bool) (reserved : Nat) : IRes :=
  match completionWord s g f with
  | .error sub => .fault s 7 sub 0
  | .ok w =>
    if 16 ≤ asyncCount s e then .stall
    else if queued && (ctxOf s g.who.1).state = .tearing then .ok s
    else
      let a : AsyncOp := { id := s.fresh, eng := e, ctx := g.who.1, gen := g.who.2, bwclass := g.bwclass, kind := kind, word := w,
                           queued := queued, reserved := reserved, groups := 0, got := [], tile := readsSpad kind, cut := false,
                           err := none, soft := none,
                           moved := none, past := [], clash := false }
      let s := if reserved = 0 then s else bwCount s (engWho s e g.who.1 g.who.2 g.bwclass).attr reserved
      .ok { s with asyncs := s.asyncs ++ [a], fresh := s.fresh + 1 }

/-- Program offset of a Bolt operand (R202). -/
def boltOperand (g : Engine) (f : Frame) (i add : Nat) : Nat := (srcS g f i).toNat + add

/-- Instruction classes of the movement group. -/
def infoM (slots : List SlotKind) (fields : List (Nat × Nat)) : OpInfo := ⟨.opening, 3, slots, fields⟩

/-- PREF (R203, R204). -/
def execPref (e : Nat) (f : Frame) (s : State) : Res :=
  issue e f (infoM [.d, .s, .s, .s] [(82, 2), (81, 1), (80, 1), (74, 6), (52, 22), (51, 1), (13, 13), (0, 13)])
    (caLegal f &&
      (if lowField f 81 1 = 1 then lowField f 80 1 = 0 || lowField f 52 2 = 0
       else lowField f 80 1 = 0 && lowField f 74 6 = 0 && lowField f 52 22 = 0)) (fun s g =>
    let d := dGet g (slotOf f 0).2
    let t := tensorOf d
    let origin := srcS g f 2
    let w := winOf origin (lowField f 13 13 + 1) (lowField f 0 13 + 1)
    let part := lowField f 51 1 = 1
    if !(tensorLegal d) || !(winLegal t w) || (part && !isMx t.fmt) then .fault s 2 0 0
    else
      let o := boltOperand g f 1 0
      let bitmap := t.spc = 5 && !part
      let lay := winLayout t w part
      let need := if bitmap then offsetBytes w.rows else lay.size
      match boltAt s (e / 4) g.who.1 g.who.2 o need with
      | none => .fault s 6 0 0
      | some _ =>
        let exb := if lowField f 81 1 = 1 then some (decide (lowField f 80 1 = 1), lowField f 74 6, 2 * lowField f 52 22) else none
        let bad := exb.elim false fun x => (boltAt s (e / 4) g.who.1 g.who.2 x.2.2 (if x.1 then 8 else 2)).isNone
        if bad then .fault s 6 0 0
        else
          let lines := touchedLines (if bitmap then [(t.aux + 4 * w.row0, 0, 4 * w.rows)] else lay.segs)
          let (s, n) := openLines (engWho s e g.who.1 g.who.2 g.bwclass) s lines
          startAsync s g e f (.pref d o origin w.rows w.cols part exb) true n) s

/-- PUSH (R203). -/
def execPush (e : Nat) (f : Frame) (s : State) : Res :=
  issue e f (infoM [.d, .s, .s, .s] [(82, 2), (51, 1), (13, 13), (0, 13)]) (caLegal f) (fun s g =>
    let d := dGet g (slotOf f 0).2
    let t := tensorOf d
    let origin := srcS g f 2
    let w := winOf origin (lowField f 13 13 + 1) (lowField f 0 13 + 1)
    let part := lowField f 51 1 = 1
    if !(tensorLegal d) || !(winLegal t w) || (part && !isMx t.fmt) then .fault s 2 0 0
    else
      let o := boltOperand g f 1 0
      let bitmap := t.spc = 5 && !part
      let need := if bitmap then offsetBytes w.rows else (winLayout t w part).size
      match boltAt s (e / 4) g.who.1 g.who.2 o need with
      | none => .fault s 6 0 0
      | some a =>
        let n := if bitmap then regionRest s (e / 4) g.who.1 g.who.2 o else need
        startAsync s g e f (.push d o origin w.rows w.cols part (snapOf (clOf s (e / 4)).bolt a n)) false 0) s

/-- The tensor of a row operation: dense and not MX (R206). -/
def rowTensorLegal (d : BitVec 256) : Bool := tensorLegal d && (tensorOf d).spc = 0 && !isMx (tensorOf d).fmt

/-- Issue of GATH and SCAT: the checks, the index list, and the operation that `mk` makes of the Bolt place and the list. -/
def issueRows (e : Nat) (f : Frame) (mk : State → BitVec 256 → Nat → Nat → List Nat → AKind) (s : State) : Res :=
  issue e f (infoM [.d, .s, .s, .s] [(82, 2), (0, 13)]) (caLegal f) (fun s g =>
    let d := dGet g (slotOf f 0).2
    let n := lowField f 0 13 + 1
    if !(rowTensorLegal d) then .fault s 2 0 0
    else
      let o := boltOperand g f 1 0
      let size := n * roundUp (rowBytes (tensorOf d)) 64
      match boltAt s (e / 4) g.who.1 g.who.2 o size, boltAt s (e / 4) g.who.1 g.who.2 (srcS g f 2).toNat (4 * n) with
      | some a, some l =>
        let (s, bad) := boltChecked s (e / 4) l (4 * n)
        if bad then .fault s 8 0 0
        else
          -- the index list is read at issue (R206)
          let (s, bs) := boltSeen s (e / 4) g.who.1 g.who.2 (srcS g f 2).toNat l (4 * n)
          startAsync s g e f (mk s d o a (unpackBytes 32 bs n)) false 0
      | _, _ => .fault s 6 0 0) s

/-- GATH (R206). -/
def execGath (e : Nat) (f : Frame) (s : State) : Res := issueRows e f (fun _ d o _ idx => .gath d o idx) s

/-- SCAT (R206). -/
def execScat (e : Nat) (f : Frame) (s : State) : Res :=
  issueRows e f (fun s d o a idx =>
    .scat d o idx (snapOf (clOf s (e / 4)).bolt a (idx.length * roundUp (rowBytes (tensorOf d)) 64))) s

/-! ## LDB and STB (R202) -/

/-- LDB: the view's extent from the Bolt buffer into the scratchpad. -/
def execLdb (e : Nat) (f : Frame) (s : State) : Res :=
  issue e f (infoM [.t, .s] [(0, 23)]) true (fun s g =>
    let v := viewOf (tGet g (slotOf f 0).2)
    match viewFault v false with
    | some c => .fault s c 0 0
    | none =>
      let o := boltOperand g f 1 (lowField f 0 23)
      match boltAt s (e / 4) g.who.1 g.who.2 o v.extent with
      | none => .fault s 6 0 0
      | some a =>
        let (s, bad) := boltChecked s (e / 4) a v.extent
        if bad then .fault s 8 0 0
        else
          let (s, bs) := boltSeen s (e / 4) g.who.1 g.who.2 o a v.extent
          .ok (spadWrite s e v.base bs).1) s

/-- STB: the view's extent from the scratchpad into the Bolt buffer. -/
def execStb (e : Nat) (f : Frame) (s : State) : Res :=
  issue e f (infoM [.t, .s] [(0, 23)]) true (fun s g =>
    let v := viewOf (tGet g (slotOf f 0).2)
    match viewFault v false with
    | some c => .fault s c 0 0
    | none =>
      match boltAt s (e / 4) g.who.1 g.who.2 (boltOperand g f 1 (lowField f 0 23)) v.extent with
      | none => .fault s 6 0 0
      | some a =>
        let (s, bad) := spadChecked s e v.base v.extent
        if bad then .fault s 8 0 0
        else
          let (s, part) := boltWrite s (e / 4) a (bread (engOf s e).spad v.base v.extent)
          if part then .fault s 8 0 0 else .ok s) s

/-! ## Views as numbers -/

/-- Bytes of one row of a dense view. -/
def View.rowBytes (v : View) : Nat := ceilDiv (v.cols * fmtWidth v.fmt) 8

/-- Element encodings of row `r` of a dense view. -/
def rowRaws (g : Engine) (v : View) (r : Nat) : List Nat :=
  unpackBytes (fmtWidth v.fmt) (bread g.spad (v.row r) v.rowBytes) v.cols

/-- Element values of row `r` of a dense view (R90). -/
def rowVals (g : Engine) (v : View) (r : Nat) : List FV := (rowRaws g v r).map (fmtDecode v.fmt)

/-- The random bits of an element of the running context (R104). -/
def elemBits (s : State) (g : Engine) (stream elem : Nat) : Nat := streamBits (ctxOf s g.who.1).key g.step stream elem

/-! ## ST (R205, R120) -/

/-- Convert a row of values to a format: encodings, and for an MX format the scale of each block of 32 (R95). `rb` gives the random
bits by column. -/
def convRow (fmt : Nat) (xs : List FV) (rnd : Nat) (sat : Bool) (rb : Nat → Nat) : List Nat × List Nat :=
  if isMx fmt then
    let blocks := (List.range (ceilDiv xs.length 32)).map fun b =>
      mxQuant fmt ((xs.drop (32 * b)).take 32) rnd sat ((List.range 32).map fun i => rb (32 * b + i))
    (blocks.flatMap fun q => q.2.map (·.1), blocks.map (·.1))
  else
    (xs.zipIdx.map fun x => (fmtEncode fmt x.1 (if fmt = 0 then 0 else rnd) sat (rb x.2)).1, [])

/-- An encoding that is zero (R119): +0 or −0, and not under a NaN scale. -/
def rawIsZero (fmt raw scale : Nat) : Bool :=
  scale ≠ 255 && (raw = 0 || ((fmtInfo fmt).kind ≠ .int && raw = 2 ^ (fmtWidth fmt - 1)))

/-- One bitmap block of encodings (R116, R120): its bytes. -/
def bitmapBlock (fmt : Nat) (raws : List (Nat × Nat)) : List Byte :=
  let w := fmtWidth fmt
  let keep := raws.map fun x => !(rawIsZero fmt x.1 x.2)
  let mask := keep.foldr (fun b a => b2n b + 2 * a) 0
  let vals := (raws.filter fun x => !(rawIsZero fmt x.1 x.2)).map (·.1)
  leBytes 16 mask ++ takeBytes (roundUp (ceilDiv (vals.length * w) 8) 16) (packBytes w vals)

/-- One fibre in bitmap form. -/
def bitmapFibre (fmt : Nat) (raws scales : List Nat) : List Byte :=
  let xs := raws.zipIdx.map fun x => (x.1, scales.getD (x.2 / 32) 0)
  (List.range (blocksOfK raws.length)).flatMap fun b => bitmapBlock fmt ((xs.drop (128 * b)).take 128)

/-- Fibres of a compressing store from a segment offset in 16-byte units: chunks to write, and the next offset. An entry holds the low 32 bits
of an offset (DESIGN CHOICE, log 157). -/
def compressFibres (t : Tensor) (row0 : Nat) : List (List Nat × List Nat) → Nat → Nat → List (Nat × List Byte) × Nat
  | [], _, seg => ([], seg)
  | x :: rest, r, seg =>
    let bs := bitmapFibre t.fmt x.1 x.2
    let (cs, nx) := compressFibres t row0 rest (r + 1) (seg + bs.length / 16)
    ((t.aux + 4 * (row0 + r), leBytes 4 (seg % 2 ^ 32)) :: (t.base + 16 * seg, bs) :: cs, nx)

/-- Whether ST's source and destination meet R205, R195, R196 and R120. -/
def storeLegal (v : View) (d : BitVec 256) (w : Win) (cmp : Bool) (crow0 : Nat) : Bool :=
  let t := tensorOf d
  !isMx v.fmt && v.spc = 0 && tensorLegal d && !isNM t.spc && (cmp == (t.spc = 5)) &&
  (if cmp then v.cols = t.cols && crow0 + v.rows ≤ t.rows else winLegal t w)

/-- ST (R205): converts the source view now; the chunks of memory it writes follow as an asynchronous operation. -/
def execSt (e : Nat) (f : Frame) (s : State) : Res :=
  issue e f (infoM [.t, .d, .s, .s] [(82, 2), (80, 2), (79, 1), (78, 1), (58, 20)])
    (caLegal f && lowField f 80 2 ≠ 3 && (lowField f 78 1 = 1 || lowField f 58 20 = 0)) (fun s g =>
    let v := viewOf (tGet g (slotOf f 0).2)
    match viewFault v false with
    | some c => .fault s c 0 0
    | none =>
      let d := dGet g (slotOf f 1).2
      let t := tensorOf d
      let cmp := lowField f 78 1 = 1
      let w := winOf (srcS g f 2) v.rows v.cols
      if !(storeLegal v d w cmp (lowField f 58 20)) then .fault s 2 0 0
      else
        let (s, bad) := spadChecked s e v.base v.extent
        if bad then .fault s 8 0 0
        else
          let sat := lowField f 79 1 = 1
          let rows := (List.range v.rows).map fun r =>
            convRow t.fmt (rowVals g v r) (lowField f 80 2) sat (fun c => elemBits s g 0 (r * v.cols + c))
          let row0 := if cmp then lowField f 58 20 else w.row0
          let tw : Win := { w with row0 := row0, col0 := if cmp then 0 else w.col0 }
          let scales := if isMx t.fmt then
              rows.zipIdx.map fun x => (winScaleAddr t tw x.2, x.1.2.map fun b => BitVec.ofNat 8 b)
            else []
          let (body, seg) := if cmp then compressFibres t row0 rows 0 (srcS g f 2).toNat
            else (rows.zipIdx.map fun x => (winRowAddr t tw x.2, packBytes (fmtWidth t.fmt) x.1.1), 0)
          match startAsync s g e f (.write (body ++ scales)) false 0 with
          | .ok s => .ok (if cmp then modEng s e fun x => sPut x (slotOf f 2).2 (BitVec.ofNat 64 seg) else s)
          | r => r) s

/-! ## The prefetch queue (R144, R385) -/

/-- Remove an asynchronous operation. -/
def dropAsync (s : State) (id : Nat) : State := { s with asyncs := s.asyncs.filter fun a => a.id ≠ id }

/-- Return a released prefetch's reservation (R385); lines of it that a sealed master still holds back are returned first. -/
def returnReservation (s : State) (a : AsyncOp) : State :=
  if a.reserved = 0 then s
  else modBwMaster s (engWho s a.eng a.ctx a.gen a.bwclass).attr fun b =>
    { b with owed := b.owed - a.reserved, used := b.used - (a.reserved - b.owed) }

/-- End an asynchronous operation: its completion action once, through the Tally port that `port` names, its error to the context, and a
program that is done (R190, R267, R434). -/
def finishVia (s : State) (a : AsyncOp) (port : Nat → Nat) (err : Option Nat) : State :=
  let s := wordAction (dropAsync s a.id) port a.eng a.ctx a.gen a.word
  let s := match (if a.err.isSome then a.err else if a.soft.isSome then a.soft else err) with
    | some c => pushErr s a.ctx a.gen a.eng c
    | none => s
  if (ctxOf s a.ctx).gen = a.gen then checkDone s a.ctx else s

/-- End an asynchronous operation of an engine's own. -/
def finishAsync (s : State) (a : AsyncOp) (err : Option Nat) : State := finishVia s a (fun h => engPort s.cfg h a.eng) err

/-- Greatest AMAX of `n` consecutive statistics records in memory. -/
def maxAmax (who : Who) : State → Nat → Nat → Nat → State × Acc Nat
  | s, _, 0, m => (s, .ok m)
  | s, a, n + 1, m =>
    match memNat s who .va (a + 128) 4 with
    | (s, .err c) => (s, .err c)
    | (s, .ok v) => maxAmax who s (a + 160) n (max m v)

/-- An HUPD leaves its engine's queue for the fabric: it reads its statistics records (R239). -/
def readStats (s : State) (id : Nat) : State :=
  match s.asyncs.find? fun a => a.id = id with
  | none => s
  | some a =>
    match a.kind with
    | .hupd r st n none =>
      let (s, m) := maxAmax (engWho s a.eng a.ctx a.gen a.bwclass) s st n 0
      { s with asyncs := s.asyncs.map fun x =>
          if x.id ≠ id then x
          else match m with
            | .ok v => { x with kind := .hupd r st n (some v) }
            | .err c => { x with err := some c } }
    | _ => s

/-- The operations of engine `e` that stand behind no queued one enter the fabric (R191, R239). -/
def enterFabric (s : State) (e : Nat) : State :=
  ((s.asyncs.filter fun a => a.eng = e).takeWhile fun a => !a.queued).foldl (fun t a => readStats t a.id) s

/-- PREFETCH_DEQUEUE (R144): the oldest prefetch of the engine's queue leaves it. An expert-bound one reads its condition word; a false
condition completes it without a request and releases its reservation. -/
def execPrefetchDequeue (e : Nat) (s : State) : Res :=
  match s.asyncs.find? fun a => a.eng = e && a.queued with
  | none => .next s  -- no prefetch is queued at the engine
  | some a =>
    unitRes (s.cfg.hasEngine e) s true
      (let leave (s : State) : State :=
        { s with asyncs := s.asyncs.map fun x => if x.id = a.id then { x with queued := false } else x }
       flip enterFabric e <| match a.kind with
       | .pref _ _ _ _ _ _ (some (mask, cbit, coff)) =>
         match boltAt s (e / 4) a.ctx a.gen coff (condBytes mask) with
         | none => finishAsync s a (some cBOLT_RANGE)
         | some p =>
           let (s, bad) := boltChecked s (e / 4) p (condBytes mask)
           if bad then finishAsync s a (some cPOISON)
           else
             let (s, bs) := boltSeen s (e / 4) a.ctx a.gen coff p (condBytes mask)
             if condTrue bs mask cbit then leave s else finishAsync (returnReservation s a) a none
       | _ => leave s)

end Sys2Proof.Machine
end

