-- ==== Sys2Proof/Machine/Compute.lean ====
section
/-! DEFINITION. Matrix, vector and statistics instructions and the tile test (R222 to R242): MMA with Heddle selection
(R108 to R124), EPI (R88, R228, R229), the vector group (R230 to R234), statistics and the scaling history (R99 to R102,
R235 to R239), TTEST (R143, R241, R242). -/
namespace Sys2Proof.Machine

/-! ## Operand fibres (R112 to R119, R225) -/

/-- A fibre by position: the element kept there, or none where the mask bit is clear. -/
abbrev Fibre := List (Option FV)

/-- A dense fibre: with zero detection, zero elements are dropped (R119); `scales` by block of 32, empty for non-MX. -/
def denseFibre (fmt : Nat) (zd : Bool) (raws scales : List Nat) : Fibre :=
  raws.zipIdx.map fun x =>
    if zd && rawIsZero fmt x.1 (scales.getD (x.2 / 32) 0) then none else some (fmtDecode fmt x.1)

/-- A block of 128 positions from kept elements given as (position, encoding) pairs. -/
def scatterBlock (fmt : Nat) (kept : List (Nat × Nat)) : Fibre :=
  (List.range 128).map fun p => (kept.find? fun x => x.1 = p).map fun x => fmtDecode fmt x.2

/-- A number list that rises strictly. -/
def rising : List Nat → Bool
  | a :: b :: t => a < b && rising (b :: t)
  | _ => true

/-- An N:M block from its index field and kept encodings (R112 to R114); none where a group is not ascending, one at absent positions
included (DESIGN CHOICE, log 156). -/
def nmBlock (spc fmt idx : Nat) (vals : List Nat) : Option Fibre :=
  let (n, c) := nmOf spc
  let groups := (List.range (128 / 2 ^ c)).map fun g => (List.range n).map fun j => idx / 2 ^ (n * c * g + c * j) % 2 ^ c
  if groups.all rising then
    let kept := groups.zipIdx.flatMap fun g => g.1.zipIdx.map fun x => (2 ^ c * g.2 + x.1, vals.getD (n * g.2 + x.2) 0)
    some (scatterBlock fmt kept)
  else none

/-- An N:M fibre at a scratchpad byte, over its blocks. -/
def nmFibre (m : List (Nat × Byte)) (spc fmt k a : Nat) : Option Fibre :=
  let w := fmtWidth fmt
  let st := nmStride spc w
  ((List.range (blocksOfK k)).mapM fun b =>
    nmBlock spc fmt (bnat m (a + b * st) 16) (unpackBytes w (bread m (a + b * st + 16) (st - 16)) (nmKept spc))).map fun bs =>
      bs.flatten.take k

/-- A bitmap fibre at a scratchpad byte (R116 to R118); an error is OPERAND_FORMAT 2 or VIEW_RANGE 5. -/
def bitmapFibreAt (m : List (Nat × Byte)) (fmt k limit : Nat) : Nat → Nat → Nat → Except Nat Fibre
  | 0, _, _ => .ok []
  | n + 1, b, a =>
    if limit < a + 16 then .error 5
    else
      let mask := bnat m a 16
      let p := popcount128 mask
      let len := bitmapBlockBytes p (fmtWidth fmt)
      if limit < a + len then .error 5
      else if k < 128 * (b + 1) && mask / 2 ^ (k - 128 * b) ≠ 0 then .error 2
      else
        let vals := unpackBytes (fmtWidth fmt) (bread m (a + 16) (len - 16)) p
        let pos := (List.range 128).filter fun i => mask / 2 ^ i % 2 = 1
        match bitmapFibreAt m fmt k limit n (b + 1) (a + len) with
        | .error e => .error e
        | .ok t => .ok (scatterBlock fmt (pos.zip vals) ++ t)

/-- Fibre `r` of an operand view. -/
def operandFibre (g : Engine) (v : View) (zd : Bool) (scales : List Nat) (r : Nat) : Except Nat Fibre :=
  if v.spc = 0 then .ok (denseFibre v.fmt zd (rowRaws g v r) scales)
  else if v.spc = 5 then
    let off := bnat g.spad (v.base + 4 * r) 4
    (bitmapFibreAt g.spad v.fmt v.cols (v.base + v.extent) (blocksOfK v.cols) 0 (v.base + 16 * off)).map (·.take v.cols)
  else (nmFibre g.spad v.spc v.fmt v.cols (v.row r)).elim (.error 2) .ok

/-- All fibres of an operand view, or the first error. -/
def operandFibres (g : Engine) (v : View) (zd : Bool) (scales : Nat → List Nat) : Except Nat (List Fibre) :=
  (List.range v.rows).mapM fun r => operandFibre g v zd (scales r) r

/-! ## Writing a view -/

/-- Write the encodings of each row of a dense view; a part-word write to an uncorrectable word raises POISON (R646). -/
def writeRows (s : State) (e : Nat) (v : View) (rows : List (List Nat)) : IRes :=
  let (s, bad) := spadWrites e s (rows.zipIdx.map fun x => (v.row x.2, packBytes (fmtWidth v.fmt) x.1))
  if bad then .fault s 8 0 0 else .ok s

/-! ## MMA (R223 to R226) -/

/-- Scales of row `r` of a scale view (R225). -/
def scaleRow (g : Engine) (v : View) (r : Nat) : List Nat := (bread g.spad (v.row r) v.cols).map (·.toNat)

/-- The first fault of an MMA's views in the order of R224; `va` and `vb` are A and B, `sa` and `sb` their scale views. -/
def mmaFault (vc va vb sa sb : View) (zda zdb : Bool) (asv bsv : Nat) : Option Nat :=
  let mxa := isMx va.fmt
  let mxb := isMx vb.fmt
  match viewFault vc false, viewFault va false, viewFault vb false with
  | some c, _, _ => some c
  | _, some c, _ => some c
  | _, _, some c => some c
  | none, none, none =>
    if vc.fmt ≠ 0 || vc.spc ≠ 0 || vc.rows ≠ va.rows || vc.cols ≠ vb.rows || va.cols ≠ vb.cols ||
        (pairing va.fmt vb.fmt).isNone || !(vb.spc = 0 || vb.spc = 5) || ((mxa || mxb) && va.cols % 32 ≠ 0) ||
        (zda && va.spc ≠ 0) || (zdb && vb.spc ≠ 0) || (asv ≠ 0 && !mxa) || (bsv ≠ 0 && !mxb) then some 2
    else
      match (if mxa then viewFault sa true else none), (if mxb then viewFault sb true else none) with
      | some c, _ => some c
      | _, some c => some c
      | none, none =>
        if (mxa && (sa.rows ≠ va.rows || sa.cols ≠ va.cols / 32)) || (mxb && (sb.rows ≠ vb.rows || sb.cols ≠ vb.cols / 32)) then
          some 2
        else if (isNM va.spc && va.pitch * 64 < blocksOfK va.cols * nmStride va.spc (fmtWidth va.fmt)) ||
            vc.overlaps va || vc.overlaps vb || (mxa && vc.overlaps sa) || (mxb && vc.overlaps sb) then some 5
        else none

/-- One output element (R226). -/
def mmaElem (c : FV) (fa fb : Fibre) (sa sb : List Nat) (mxa mxb : Bool) (k g : Nat) (integer : Bool) : FV :=
  let ok (p : Nat) : Bool := (fa.getD p none).isSome && (fb.getD p none).isSome
  let pair (p : Nat) : MmaPair :=
    ⟨(fa.getD p none).getD .zero, (fb.getD p none).getD .zero, if mxa then sa.getD (p / 32) 127 else 127,
      if mxb then sb.getD (p / 32) 127 else 127⟩
  runSteps c (stepWalk ok k g k 0) pair integer

/-- MMA: C (+)= A × Bᵀ. -/
def execMma (e : Nat) (f : Frame) (s : State) : Res :=
  issue e f ⟨.opening, 4, [.t, .t, .t], [(10, 1), (9, 1), (8, 1), (4, 4), (0, 4)]⟩ true (fun s g =>
    let vc := viewOf (tGet g (slotOf f 0).2)
    let va := viewOf (tGet g (slotOf f 1).2)
    let vb := viewOf (tGet g (slotOf f 2).2)
    let sa := viewOf (tGet g (lowField f 4 4))
    let sb := viewOf (tGet g (lowField f 0 4))
    let zda := lowField f 9 1 = 1
    let zdb := lowField f 10 1 = 1
    let acc := lowField f 8 1 = 1
    match mmaFault vc va vb sa sb zda zdb (lowField f 4 4) (lowField f 0 4) with
    | some c => .fault s c 0 0
    | none =>
      let mxa := isMx va.fmt
      let mxb := isMx vb.fmt
      let reads := [(va.base, va.extent), (vb.base, vb.extent)] ++ (if mxa then [(sa.base, sa.extent)] else []) ++
        (if mxb then [(sb.base, sb.extent)] else []) ++ (if acc then [(vc.base, vc.extent)] else [])
      let scA (r : Nat) : List Nat := if mxa then scaleRow g sa r else []
      let scB (r : Nat) : List Nat := if mxb then scaleRow g sb r else []
      match operandFibres g va zda scA, operandFibres g vb zdb scB with
      | .error c, _ => .fault s c 0 0
      | _, .error c => .fault s c 0 0
      | .ok fas, .ok fbs =>
        let (s, bad) := spadCheckedAll s e reads
        if bad then .fault s 8 0 0
        else
          let (gr, int) := (pairing va.fmt vb.fmt).getD (1, false)
          let rows := fas.zipIdx.map fun a =>
            let old := if acc then rowVals g vc a.2 else []
            fbs.zipIdx.map fun b =>
              rnd32 (mmaElem (if acc then old.getD b.2 .zero else .zero) a.1 b.1 (scA a.2) (scB b.2) mxa mxb va.cols gr int)
          writeRows s e vc rows) s

/-! ## Statistics slots (R99, R235) -/

/-- A cleared slot. -/
def StatSlot.fresh (ebase : Nat) : StatSlot := { ebase := ebase, bins := [], amax := 0, nan := 0, sat := 0, count := 0 }

/-- An attached slot of the running tile. -/
def statOf (g : Engine) (i : Nat) : Option StatSlot := (g.stats.find? fun x => x.1 = i).map (·.2)

/-- Attach or replace a slot. -/
def statPut (g : Engine) (i : Nat) (x : StatSlot) : Engine := { g with stats := minsert g.stats i x }

/-- One observed value (R99). -/
def StatSlot.observe (x : StatSlot) (v : FV) : StatSlot :=
  let x := { x with count := satAdd (2 ^ 64 - 1) x.count 1 }
  if v = .nan then { x with nan := satAdd top32 x.nan 1 }
  else
    let a := rnd32 v.abs
    { x with amax := if x.amax.toNat < a then BitVec.ofNat 32 a else x.amax,
             bins := mmod 0 x.bins (statBin (signed8 x.ebase) v) fun n => satAdd top32 n 1 }

/-- The statistics record of a slot (R100). -/
def statRecord (x : StatSlot) : List Byte :=
  ((List.range 32).flatMap fun i => leBytes 4 (mget 0 x.bins i)) ++ leBytes 4 x.amax.toNat ++ leBytes 4 x.nan ++
  leBytes 4 x.sat ++ leBytes 4 (x.ebase % 256) ++ leBytes 8 x.count ++ leBytes 8 0

/-! ## EPI (R228, R229) -/

/-- A scale carried by an s register: 1.0 for s0 (R228). -/
def scaleOperand (g : Engine) (f : Frame) (i lo : Nat) : FV :=
  if (slotOf f i).2 = 0 then .one else f32 (field (srcS g f i) lo 32)

/-- One of the six formats of the vector unit, dense. -/
def vecView (v : View) : Bool := v.fmt < 6 && v.spc = 0

/-- The same view (R232). -/
def sameView (a b : View) : Bool :=
  a.base = b.base && a.pitch = b.pitch && a.rows = b.rows && a.cols = b.cols && fmtWidth a.fmt = fmtWidth b.fmt

/-- Convert an FP32 value for a destination (R231): RND and SAT do not act on FP32 (R91). -/
def storeElem (fmt : Nat) (y : FV) (rnd : Nat) (sat : Bool) (r : Nat) : Nat × Bool :=
  fmtEncode fmt y (if fmt = 0 then 0 else rnd) sat r

/-- EPI: scales, statistics and conversion. A y that rounded to an infinity counts for an FP32 Y (DESIGN CHOICE, log 154). -/
def execEpi (e : Nat) (f : Frame) (s : State) : Res :=
  issue e f ⟨.opening, 4, [.t, .t, .s, .s], [(80, 2), (79, 1), (63, 16), (2, 1), (0, 2)]⟩ (lowField f 80 2 ≠ 3) (fun s g =>
    let vy := viewOf (tGet g (slotOf f 0).2)
    let vc := viewOf (tGet g (slotOf f 1).2)
    match viewFault vy false, viewFault vc false with
    | some c, _ => .fault s c 0 0
    | _, some c => .fault s c 0 0
    | none, none =>
      let stat := lowField f 2 1 = 1
      let slot := statOf g (lowField f 0 2)
      if !(vecView vy) || vc.fmt ≠ 0 || vc.spc ≠ 0 || vy.rows ≠ vc.rows || vy.cols ≠ vc.cols || (stat && slot.isNone) then
        .fault s 2 0 0
      else if vy.overlaps vc && !(vy.fmt = 0 && sameView vy vc) then .fault s 5 0 0
      else
        let (s, bad) := spadChecked s e vc.base vc.extent
        if bad then .fault s 8 0 0
        else
          let p := FV.mul (scaleOperand g f 2 0) (scaleOperand g f 2 32)
          let inv := scaleOperand g f 3 0
          let cells := (List.range vc.rows).map fun r =>
            (rowVals g vc r).zipIdx.map fun x =>
              let q := FV.mul x.1 p
              let y := FV.mul q inv
              let (raw, sat) := storeElem vy.fmt (rv32 y) (lowField f 80 2) (lowField f 79 1 = 1)
                (elemBits s g (lowField f 63 16) (r * vc.cols + x.2))
              (rv32 q, raw, sat || (vy.fmt = 0 && over32 y))
          let s := match (if stat then slot else none) with
            | some x =>
              let x := cells.flatten.foldl (fun x c =>
                let x := x.observe c.1
                if c.2.2 then { x with sat := satAdd top32 x.sat 1 } else x) x
              modEng s e fun h => statPut h (lowField f 0 2) x
            | none => s
          writeRows s e vy (cells.map fun r => r.map fun c => c.2.1)) s

/-! ## The vector group (R230 to R234) -/

/-- A source: a view, or a value for every element (R231). -/
inductive Src where
  | view (v : View)
  | scalar (x : FV)

/-- The source that a slot names. -/
def srcOf (g : Engine) (f : Frame) (i : Nat) : Src :=
  if (slotOf f i).1 = 3 then .view (viewOf (tGet g (slotOf f i).2)) else .scalar (f32 (field (srcS g f i) 0 32))

/-- The views among sources. -/
def srcViews (xs : List Src) : List View := xs.filterMap fun x => match x with | .view v => some v | .scalar _ => none

/-- Values of row `r` of a source. -/
def srcRow (g : Engine) (cols r : Nat) : Src → List FV
  | .view v => rowVals g v r
  | .scalar x => List.replicate cols x

/-- The first fault of the views of a vector instruction in slot order (R252). -/
def firstViewFault (vs : List View) : Option Nat := vs.findSome? fun v => viewFault v false

/-- Fields of a vector instruction: RND, SAT, STREAM, and FN where it has a function. -/
def vecFields (fn : Bool) : List (Nat × Nat) := [(80, 2), (79, 1), (63, 16)] ++ (if fn then [(0, 4)] else [])

/-- An elementwise vector instruction: `op` gives the value of an element from its source values and its element index
before the write of R231. -/
def vector (slots : List SlotKind) (srcs : List Nat) (fn : Bool) (extra : Frame → Bool)
    (op : State → Engine → Frame → List FV → Nat → FV) (e : Nat) (f : Frame) (s : State) : Res :=
  issue e f ⟨.opening, 5, slots, vecFields fn⟩ (lowField f 80 2 ≠ 3 && extra f) (fun s g =>
    let vd := viewOf (tGet g (slotOf f 0).2)
    let xs := srcs.map (srcOf g f)
    let vs := srcViews xs
    match firstViewFault (vd :: vs) with
    | some c => .fault s c 0 0
    | none =>
      if !(vecView vd) || vs.any fun v => !(vecView v) || v.rows ≠ vd.rows || v.cols ≠ vd.cols then .fault s 2 0 0
      else if vs.any fun v => vd.overlaps v && !(sameView vd v) then .fault s 5 0 0
      else
        let (s, bad) := spadCheckedAll s e (vs.map fun v => (v.base, v.extent))
        if bad then .fault s 8 0 0
        else
          let rows := (List.range vd.rows).map fun r =>
            let cols := xs.map (srcRow g vd.cols r)
            (List.range vd.cols).map fun c =>
              let i := r * vd.cols + c
              (storeElem vd.fmt (rv32 (op s g f (cols.map fun l => l.getD c .zero) i)) (lowField f 80 2) (lowField f 79 1 = 1)
                (elemBits s g (lowField f 63 16) i)).1
          writeRows s e vd rows) s

/-- First value of a list. -/
def v0 (xs : List FV) : FV := xs.getD 0 .zero
/-- Second value of a list. -/
def v1 (xs : List FV) : FV := xs.getD 1 .zero
/-- Third value of a list. -/
def v2 (xs : List FV) : FV := xs.getD 2 .zero

/-- VZERO: every byte of the extent becomes zero; any view is accepted (R231). -/
def execVzero (e : Nat) (f : Frame) (s : State) : Res :=
  issue e f ⟨.opening, 5, [.t], []⟩ true (fun s g =>
    let v := viewOf (tGet g (slotOf f 0).2)
    match viewFault v false with
    | some c => .fault s c 0 0
    | none => .ok (spadWrite s e v.base (List.replicate v.extent 0)).1) s

/-- VCVT. -/
def execVcvt (e : Nat) (f : Frame) (s : State) : Res :=
  vector [.t, .st] [1] false (fun _ => true) (fun _ _ _ xs _ => v0 xs) e f s
/-- VADD (R96). -/
def execVadd (e : Nat) (f : Frame) (s : State) : Res :=
  vector [.t, .st, .st] [1, 2] false (fun _ => true) (fun _ _ _ xs _ => FV.add (v0 xs) (v1 xs)) e f s
/-- VSUB (R96). -/
def execVsub (e : Nat) (f : Frame) (s : State) : Res :=
  vector [.t, .st, .st] [1, 2] false (fun _ => true) (fun _ _ _ xs _ => FV.add (v0 xs) (v1 xs).neg) e f s
/-- VMUL (R96). -/
def execVmul (e : Nat) (f : Frame) (s : State) : Res :=
  vector [.t, .st, .st] [1, 2] false (fun _ => true) (fun _ _ _ xs _ => FV.mul (v0 xs) (v1 xs)) e f s
/-- VMIN (R96). -/
def execVmin (e : Nat) (f : Frame) (s : State) : Res :=
  vector [.t, .st, .st] [1, 2] false (fun _ => true) (fun _ _ _ xs _ => FV.min2 (v0 xs) (v1 xs)) e f s
/-- VMAX (R96). -/
def execVmax (e : Nat) (f : Frame) (s : State) : Res :=
  vector [.t, .st, .st] [1, 2] false (fun _ => true) (fun _ _ _ xs _ => FV.max2 (v0 xs) (v1 xs)) e f s
/-- VFMA: one rounding (R96). -/
def execVfma (e : Nat) (f : Frame) (s : State) : Res :=
  vector [.t, .st, .st, .st] [1, 2, 3] false (fun _ => true) (fun _ _ _ xs _ => FV.add (FV.mul (v0 xs) (v1 xs)) (v2 xs)) e f s
/-- VUN: the function FN (R97, R98, R234). -/
def execVun (e : Nat) (f : Frame) (s : State) : Res :=
  vector [.t, .st] [1] true (fun f => lowField f 0 4 ≤ 10) (fun _ _ f xs _ => vun (lowField f 0 4) (rnd32 (v0 xs))) e f s
/-- VDROP: dropout with g and T from slot 2 (R106). -/
def execVdrop (e : Nat) (f : Frame) (s : State) : Res :=
  vector [.t, .st, .s] [1] false (fun _ => true) (fun s g f xs i =>
    dropElem (v0 xs) (elemBits s g (lowField f 63 16) i) (field (srcS g f 2) 32 16) (f32 (field (srcS g f 2) 0 32))) e f s
/-- VRAND: r · 2^−16 (R234). -/
def execVrand (e : Nat) (f : Frame) (s : State) : Res :=
  vector [.t] [] false (fun _ => true) (fun s g f _ i => .fin false (elemBits s g (lowField f 63 16) i) (-16)) e f s

/-- VRED: one value per row of the source, written to column 0 (R234). A scalar source has no rows to match. -/
def execVred (e : Nat) (f : Frame) (s : State) : Res :=
  issue e f ⟨.opening, 5, [.t, .st], vecFields true⟩ (lowField f 80 2 ≠ 3 && lowField f 0 4 ≤ 3) (fun s g =>
    let vd := viewOf (tGet g (slotOf f 0).2)
    let x := srcOf g f 1
    match firstViewFault (vd :: srcViews [x]) with
    | some c => .fault s c 0 0
    | none =>
      match x with
      | .scalar _ => .fault s 2 0 0
      | .view v =>
        if !(vecView vd) || !(vecView v) || vd.cols ≠ 1 || vd.rows ≠ v.rows || vd.overlaps v then .fault s 2 0 0
        else
          let (s, bad) := spadChecked s e v.base v.extent
          if bad then .fault s 8 0 0
          else
            let rows := (List.range vd.rows).map fun r =>
              [(storeElem vd.fmt (rv32 (vred (lowField f 0 4) (rowVals g v r))) (lowField f 80 2) (lowField f 79 1 = 1)
                (elemBits s g (lowField f 63 16) r)).1]
            writeRows s e vd rows) s

/-! ## Statistics instructions (R235 to R239) -/

/-- SATT: attaches and clears slot SLOT with EBASE. -/
def execSatt (e : Nat) (f : Frame) (s : State) : Res :=
  issue e f ⟨.opening, 5, [], [(8, 8), (0, 2)]⟩ true (fun s _ =>
    onEng s e fun h => statPut h (lowField f 0 2) (StatSlot.fresh (lowField f 8 8))) s

/-- SOBS: the slot observes every element of the view. -/
def execSobs (e : Nat) (f : Frame) (s : State) : Res :=
  issue e f ⟨.opening, 5, [.zero, .t], [(0, 2)]⟩ true (fun s g =>
    let v := viewOf (tGet g (slotOf f 1).2)
    match viewFault v false with
    | some c => .fault s c 0 0
    | none =>
      match statOf g (lowField f 0 2) with
      | none => .fault s 2 0 0
      | some x =>
        if !(vecView v) then .fault s 2 0 0
        else
          let (s, bad) := spadChecked s e v.base v.extent
          if bad then .fault s 8 0 0
          else
            let x := ((List.range v.rows).flatMap (rowVals g v)).foldl StatSlot.observe x
            onEng s e fun h => statPut h (lowField f 0 2) x) s

/-- SST: captures the slot's record, clears the slot, and starts its asynchronous write. -/
def execSst (e : Nat) (f : Frame) (s : State) : Res :=
  issue e f ⟨.opening, 5, [.s, .zero, .zero, .s], [(82, 2), (0, 2)]⟩ (caLegal f) (fun s g =>
    let a := (srcS g f 0).toNat
    match statOf g (lowField f 0 2) with
    | none => .fault s 2 0 0
    | some x =>
      if a % 32 ≠ 0 then .fault s 2 0 0
      else match startAsync s g e f (.write [(a, statRecord x)]) false 0 with
        | .ok s => onEng s e fun h => statPut h (lowField f 0 2) (StatSlot.fresh x.ebase)
        | r => r) s

/-- HUPD: starts a history update. -/
def execHupd (e : Nat) (f : Frame) (s : State) : Res :=
  issue e f ⟨.opening, 5, [.s, .s, .zero, .s], [(82, 2), (0, 8)]⟩ (caLegal f) (fun s g =>
    let a := (srcS g f 0).toNat
    let b := (srcS g f 1).toNat
    if a % 128 ≠ 0 || b % 32 ≠ 0 then .fault s 2 0 0
    else
      let twin (x : AsyncOp) : Bool := match x.kind with
        | .hupd r _ _ _ => r = a && x.ctx = g.who.1 && x.gen = g.who.2
        | _ => false
      let clash := s.asyncs.any twin
      let s := if clash then { s with asyncs := s.asyncs.map fun x => if twin x then { x with clash := true } else x } else s
      match startAsync s g e f (.hupd a b (lowField f 0 8 + 1) none) false 0 with
      | .ok t =>
        .ok (enterFabric { t with asyncs := t.asyncs.map fun x => if x.id = s.fresh then { x with clash := clash } else x } e)
      | x => x) s

/-- Max of R74 for the formats that HUPD serves (R102). -/
def histFmt (c : Nat) : Bool := 1 ≤ c && c ≤ 5

/-- ceil(log2(h ÷ FMAX)) of two non-zero magnitudes, exact. -/
def ceilLog2Quot (hm : Nat) (he : Int) (fm : Nat) (fe : Int) : Int :=
  let k := flog2 hm he - flog2 fm fe
  if magLt fm (fe + k) hm he then k + 1 else k

/-- Rewrite a scaling history record with the greatest AMAX of the listed statistics records (R101, R102). -/
def historyUpdate (bs : List Byte) (amax : Nat) : List Byte :=
  let nat (o n : Nat) : Nat := natOfBytes ((bs.drop o).take n)
  let put (xs : List Byte) (o : Nat) (v : List Byte) : List Byte := xs.take o ++ v ++ xs.drop (o + v.length)
  let fmt := nat 71 1 % 16
  match f32 amax with
  | .fin _ m _ =>
    if m = 0 || !histFmt fmt then put bs 76 (leBytes 4 (satAdd top32 (nat 76 4) 1))
    else
      let head := (nat 68 1 % 16 + 1) % 16
      let bs' := put (put bs 68 (leBytes 1 head)) (4 * head) (leBytes 4 amax)
      let hist := (List.range 16).map fun i => natOfBytes ((bs'.drop (4 * i)).take 4)
      let h := if nat 69 1 = 1 then amax else hist.foldl max 0
      let hv := (f32 h).magOf
      let fi := fmtInfo fmt
      let e := clampI (-126) 127 (ceilLog2Quot hv.1 hv.2 fi.maxM fi.maxE + signed8 (nat 70 1))
      put (put bs' 64 (leBytes 4 ((e + 127).toNat * 2 ^ 23))) 72 (leBytes 4 (satAdd top32 (nat 72 4) 1))
  | _ => put bs 76 (leBytes 4 (satAdd top32 (nat 76 4) 1))

/-- The memory side of HUPD: the record is read and rewritten as one line (R102, R239). Of two updates of a record that ran together one is lost
and the history is not defined (R103): the line then takes a free value. -/
def moveHupd (s : State) (a : AsyncOp) (rec stats n : Nat) (amax : Option Nat) : State × Option Nat :=
  let who := engWho s a.eng a.ctx a.gen a.bwclass
  match (match amax with | some m => (s, Acc.ok m) | none => maxAmax who s stats n 0) with
  | (s, .err c) => (s, some c)
  | (s, .ok m) =>
    match memRead s who .va rec 128 with
    | (s, .err c) => (s, some c)
    | (s, .ok bs) =>
      let (s, bs) := if a.clash then openBytes s 128 else (s, historyUpdate bs m)
      memWrite s who .va rec bs

/-! ## TTEST (R143, R241, R242) -/


/-- TTEST. With SKIP set it must open its tile; a false result then ends the tile and sets PC to the skip target. -/
def execTtest (e : Nat) (f : Frame) (s : State) : Res :=
  let wasOpen := (engOf s e).tileOpen
  let skip := lowField f 83 1 = 1
  let cform := lowField f 80 1 = 1
  issue e f ⟨.opening, 7, [.p], [(83, 1), (80, 1), (74, 6), (52, 22), (0, 32)]⟩
    ((!cform || lowField f 52 2 = 0) && lowField f 0 4 = 0 && (skip || lowField f 0 32 = 0)) (fun s g =>
    if skip && wasOpen then .fault s 4 0 0
    else match boltAt s (e / 4) g.who.1 g.who.2 (2 * lowField f 52 22) (condBytes cform) with
      | none => .fault s 6 0 0
      | some a =>
        let (s, bad) := boltChecked s (e / 4) a (condBytes cform)
        if bad then .fault s 8 0 0
        else
          let (s, bs) := boltSeen s (e / 4) g.who.1 g.who.2 (2 * lowField f 52 22) a (condBytes cform)
          let r := condTrue bs cform (lowField f 74 6)
          let s := modEng s e fun h => pPut h (slotOf f 0).2 r
          if r || !skip then .ok s
          else .jump (closeTile s e) ((BitVec.ofNat 64 g.pc + (BitVec.ofNat 32 (lowField f 0 32)).signExtend 64).toNat)) s

end Sys2Proof.Machine
end

