-- ==== Sys2Proof/Machine/Links.lean ====
section
/-! DEFINITION. Links (06, 11): receive windows and link instructions 0x60 to 0x65, groups and their sealing, streams, sequencing,
acknowledgement and retransmission, delivery at the receiver, and transcryption under the hop key. -/
namespace Sys2Proof.Machine

/-! ## The link unit's records -/

/-- Change the link unit. -/
def modLinks (s : State) (f : Links → Links) : State := { s with links := f s.links }
/-- The registers of link port `i`. -/
def lportOf (s : State) (i : Nat) : LPort := mget LPort.reset s.links.ports i
/-- Change them. -/
def modLport (s : State) (i : Nat) (f : LPort → LPort) : State := modLinks s fun l => { l with ports := mmod LPort.reset l.ports i f }
/-- A link key identifier. -/
def lkeyOf (s : State) (k : Nat) : LinkKey := mget LinkKey.zero s.ks.links k
/-- Change it. -/
def modLkey (s : State) (k : Nat) (f : LinkKey → LinkKey) : State :=
  { s with ks := { s.ks with links := mmod LinkKey.zero s.ks.links k f } }

/-- A port that starts frames (R364, R523, R525). -/
def lportUsable (s : State) (i : Nat) : Bool :=
  i < s.cfg.linkPorts && (lportOf s i).up && !(s.fc.linkFenced.contains i) && !(unitSafe s 3 i)

/-- The slice that holds link key identifier `k` (R39). -/
def lkeySlice (s : State) (k : Nat) : Option Nat :=
  (List.range 16).find? fun n =>
    let d := descOf s n
    (sliceOf s n).state ≠ .free && dLkeyBase d ≤ k && k < dLkeyBase d + dLkeyCount d

/-- The valid route to an endpoint (R363). -/
def routeTo (s : State) (dest : Nat) : Option Route :=
  (s.links.routes.find? fun r => r.2.valid && r.2.dest = dest).map (·.2)

/-- The port of the next group: of the route's ports that belong to the slice of LKEY and are usable, in rotation (R364). -/
def choosePort (s : State) (r : Route) (lkey last : Nat) : Option Nat :=
  let links := (lkeySlice s lkey).elim 0 fun n => dLinks (descOf s n)
  let ok := (List.range 18).filter fun i => r.ports / 2 ^ i % 2 = 1 && links / 2 ^ i % 2 = 1 && lportUsable s i
  match ok.find? (last < ·) with
  | some i => some i
  | none => ok.head?

/-- FCLK counted: two for each PCLK (R562). -/
def fclkNow (s : State) : Nat := 2 * s.pclk

/-! ## Streams (R349, R353) -/

/-- The transmit stream to an endpoint under an LKEY. -/
def txOf (s : State) (dest lkey : Nat) : Option TxStream := s.links.tx.find? fun t => t.dest = dest && t.lkey = lkey
/-- Change a transmit stream. -/
def modTx (s : State) (dest lkey : Nat) (f : TxStream → TxStream) : State :=
  modLinks s fun l => { l with tx := l.tx.map fun t => if t.dest = dest && t.lkey = lkey then f t else t }
/-- The receive stream of an endpoint under an LKEY. -/
def rxOf (s : State) (src lkey : Nat) : Option RxStream := s.links.rx.find? fun t => t.src = src && t.lkey = lkey
/-- Change a receive stream. -/
def modRx (s : State) (src lkey : Nat) (f : RxStream → RxStream) : State :=
  modLinks s fun l => { l with rx := l.rx.map fun t => if t.src = src && t.lkey = lkey then f t else t }

/-- Live stream entries. -/
def streamCount (s : State) : Nat := s.links.tx.length + s.links.rx.length
/-- A group dropped or refused for a full table (R349). -/
def countFull (s : State) : State := modLinks s fun l => { l with full := satAdd 65535 l.full 1 }

/-- Make sure a transmit stream exists; false where the table is full. -/
def needTx (s : State) (dest lkey : Nat) : State × Bool :=
  if (txOf s dest lkey).isSome then (s, true)
  else if 4096 ≤ streamCount s then (countFull s, false)
  else (modLinks s fun l => { l with tx := l.tx ++ [⟨dest, lkey, 1, [], [], 0, false, 18⟩] }, true)

/-- Make sure a receive stream exists; false where the table is full. -/
def needRx (s : State) (src lkey port : Nat) : State × Bool :=
  if (rxOf s src lkey).isSome then (s, true)
  else if 4096 ≤ streamCount s then (countFull s, false)
  else (modLinks s fun l => { l with rx := l.rx ++ [⟨src, lkey, 0, [], [], false, port⟩] }, true)

/-- Give an asynchronous operation its error: it completes with it (R218). -/
def opError (s : State) (id code : Nat) : State :=
  { s with asyncs := s.asyncs.map fun a => if a.id = id && a.err.isNone then { a with err := some code } else a }

/-- Note an error of a part of an operation whose other parts go on (R646). -/
def opSoft (s : State) (id code : Nat) : State :=
  { s with asyncs := s.asyncs.map fun a => if a.id = id && a.soft.isNone then { a with soft := some code } else a }

/-- The link descriptor of an operation. -/
def opLink : AKind → Option LinkDesc
  | .lput l _ _ _ => some (linkOf l)
  | .lputm l _ _ _ _ _ => some (linkOf l)
  | .lred l _ _ _ _ _ => some (linkOf l)
  | .lget l _ _ => some (linkOf l)
  | _ => none

/-- An operation that belongs to the stream to `dest` under `lkey`. -/
def opOn (dest lkey : Nat) (a : AsyncOp) : Bool := (opLink a.kind).elim false fun d => d.dest = dest && d.lkey = lkey

/-- Forget the lines on their way to a link engine, and its opened bytes, for the groups that `p` names. -/
def dropStages (s : State) (p : StageKey → Bool) : State :=
  modLinks s fun l => { l with
    stage := l.stage.filter fun x => !(p x.key),
    hops := l.hops.filter fun h => match h.dst with
      | .link _ k _ _ _ => !(p k)
      | .memory _ => true }

/-- A group of a transmit stream to `dest`, or to any endpoint, under `lkey`. -/
def stageOn (dest : Option Nat) (lkey : Nat) : StageKey → Bool
  | .first _ _ => false
  | .again d k _ => dest.getD d = d && k = lkey
  | .reply d k _ _ => dest.getD d = d && k = lkey

/-- Free the streams of a link key identifier (R349, R372): outstanding operations complete with NOT_MAPPED. -/
def freeStreams (s : State) (lkey : Nat) : State :=
  let s := { s with asyncs := s.asyncs.map fun a =>
    if (opLink a.kind).elim false (fun d => d.lkey = lkey) && a.err.isNone then { a with err := some (cADDRESS 1) } else a }
  modLinks (dropStages s (stageOn none lkey)) fun l => { l with
    tx := l.tx.filter fun t => t.lkey ≠ lkey, rx := l.rx.filter fun t => t.lkey ≠ lkey }

/-- A stream fails (R356). -/
def failStream (s : State) (dest lkey : Nat) : State :=
  let s := modTx (dropStages s (stageOn (some dest) lkey)) dest lkey fun t => { t with failed := true, groups := [], todo := [] }
  let s := reportChanged (modLkey s lkey fun k => { k with failed := true }) (lkeyOf s lkey).slice
  { s with asyncs := s.asyncs.map fun a => if opOn dest lkey a && a.err.isNone then { a with err := some (cADDRESS 1) } else a }

/-! ## Headers and sealing (R344, R345, R350) -/

/-- What the transport headers of a group hold besides FIDX, FCNT, SPORT, NCOUNT and FLEN. -/
structure GHead where
  ty : Nat
  op : Nat
  dest : Nat
  src : Nat
  lkey : Nat
  red : Nat
  seq : Nat
  rwin : Nat
  tag : Nat
  roff : Nat
  oplen : Nat
  gidx : Nat
  deriving DecidableEq, Repr

/-- A transport header (R345). -/
def headBytes (h : GHead) (fidx fcnt sport ncount flen : Nat) : List Byte :=
  leBytes 1 (16 + h.ty) ++ leBytes 1 (16 * h.op + 4 * fidx + (fcnt - 1)) ++ leBytes 2 h.dest ++ leBytes 2 h.src ++ leBytes 1 h.lkey ++
  leBytes 1 (32 * h.red + sport) ++ leBytes 6 h.seq ++ leBytes 2 h.rwin ++ leBytes 6 ncount ++ leBytes 2 flen ++
  leBytes 8 (h.tag * 2 ^ 52 + h.roff) ++ leBytes 4 h.oplen ++ leBytes 4 h.gidx ++ List.replicate 8 0

/-- The IV of a group (R350): SRC, SPORT, three zero bytes, NCOUNT. -/
def groupIv (src sport ncount : Nat) : BitVec 96 := BitVec.ofNat 96 (src * 2 ^ 80 + sport * 2 ^ 72 + ncount % 2 ^ 48)

/-- Frames of a group: FIDX, offset and bytes of each (R347). -/
def frameCuts (n : Nat) : List (Nat × Nat × Nat) :=
  (List.range (max 1 (ceilDiv n 4096))).map fun f => (f, 4096 * f, min 4096 (n - 4096 * f))

/-- Seal a group and hand its frames to the MAC of `port` (R343, R344, R350, R351). -/
def emitGroup (s : State) (port : Nat) (dmac : Nat) (h : GHead) (data : List Byte) : State :=
  let k := lkeyOf s h.lkey
  match k.tx with
  | none => s
  | some key =>
    let nc := mget 1 k.ncount port
    let uses := satAdd (2 ^ 45 - 1) k.uses 1
    let s := modLkey s h.lkey fun k =>
      { k with ncount := mset 1 k.ncount port (nc + 1), uses := uses, budget := k.budget || 2 ^ 44 ≤ uses }
    let s := if k.budget || uses < 2 ^ 44 then s else reportChanged s k.slice
    let cuts := frameCuts data.length
    let heads := cuts.map fun c => headBytes h c.1 cuts.length port nc c.2.2
    let (ct, tag) := gcmSeal key (groupIv h.src port nc) heads.flatten data
    let mac := beBytes 6 (BitVec.ofNat 48 dmac) ++ beBytes 6 (BitVec.ofNat 48 (lportOf s port).smac) ++
      beBytes 2 (BitVec.ofNat 16 s.links.etype)
    (cuts.zip heads).foldl (fun t c =>
      emit t (.frame port (mac ++ c.2 ++ (ct.drop c.1.2.1).take c.1.2.2 ++
        (if c.1.1 + 1 = cuts.length then bytesOfBlock tag else [])))) s

/-! ## The hop seal (R315 to R317) -/

/-- Seal a line under the hop key and send it (R316); `keyid` is the memory identifier under which it was read. -/
def hopSend (s : State) (code keyid : Nat) (line : List Byte) (dst : HopTo) : State :=
  let n := mget 0 s.sv.hopCount code
  let (ct, tag) := gcmSeal s.sv.hopKey (BitVec.ofNat 96 (code * 2 ^ 88 + n % 2 ^ 88)) [] (takeBytes 128 line)
  let s := { s with sv := { s.sv with hopCount := mset 0 s.sv.hopCount code (n + 1) } }
  modLinks s fun l => { l with hops := l.hops ++ [⟨code, n, keyid, ct, tag, dst⟩] }

/-- Translate for transcryption under `lkey`: the region must carry XLINK = 1 (R59, R218), and in a joint slice the owner of the link key
(R634 entry 11). -/
def xlatXlink (s : State) (who : Who) (lkey va : Nat) (wr : Bool) : State × Acc MemReq :=
  match xlat s who va wr false false with
  | (s, .err c) => (s, .err c)
  | (s, .ok q) =>
    let joint := dKind (descOf s who.attr.slice) = 2
    if (q.region.bind (regionOf s)).elim false fun r => r.xlink && (!joint || r.owner = (lkeyOf s lkey).owner) then (s, .ok q)
    else (s, .err (cADDRESS 2))

/-- Read one line part for transcryption. -/
def readXlink (s : State) (who : Who) (lkey : Nat) (p : Nat × Nat × Nat) : State × Acc (MemReq × List Byte) :=
  match xlatXlink s who lkey p.1 false with
  | (s, .err c) => (s, .err (codeAt (p.1 + p.2.1) c))
  | (s, .ok q) =>
    match svRead (countLine s who q) q [] with
    | (s, .data l) => (s, .ok (q, bytesOf 128 l))
    | (s, .fail c) => (s, .err (codeAt (p.1 + p.2.1) c))
    | (s, .done) => (s, .err cPOISON)

/-- Read line parts for transcryption in ascending order, where the bytes stay at the memory engine's side: the offset entries and masks by
which a bitmap image is cut (DESIGN CHOICE, log 158). -/
def readXlinks (who : Who) (lkey : Nat) : State → List (Nat × Nat × Nat) → State × Acc (List Byte)
  | s, [] => (s, .ok [])
  | s, p :: t =>
    match readXlink s who lkey p with
    | (s, .err c) => (s, .err c)
    | (s, .ok (_, line)) =>
      match readXlinks who lkey s t with
      | (s, .err c) => (s, .err c)
      | (s, .ok r) => (s, .ok ((line.drop p.2.1).take p.2.2 ++ r))

/-- The number at `n` bytes of a region with XLINK = 1. -/
def natXlink (who : Who) (lkey n : Nat) (s : State) (a : Nat) : State × Acc Nat :=
  match readXlinks who lkey s (lineParts a n) with
  | (s, .ok b) => (s, .ok (natOfBytes b))
  | (s, .err c) => (s, .err c)

/-! ## Images of LPUTM (R198, R217) -/

/-- An image to send: memory runs (address, offset, bytes), literal bytes by offset, and its size. -/
structure Image where
  segs : List (Nat × Nat × Nat)
  lits : List (Nat × List Byte)
  size : Nat
  deriving DecidableEq, Repr

/-- The fibres of a bitmap image from row `r` at offset `pos`. -/
def bitmapImage (who : Who) (lkey : Nat) (t : Tensor) (w : Win) : State → Nat → Nat → Nat → State × Acc Image
  | s, 0, _, pos => (s, .ok ⟨[], [], pos⟩)
  | s, n + 1, r, pos =>
    match natXlink who lkey 4 s (t.aux + 4 * (w.row0 + r)) with
    | (s, .err c) => (s, .err c)
    | (s, .ok off) =>
      match fibreLen (natXlink who lkey 16) (fmtWidth t.fmt) (blocksOfK t.cols) s (t.base + 16 * off) with
      | (s, _, some c) => (s, .err c)
      | (s, len, none) =>
        match bitmapImage who lkey t w s n (r + 1) (pos + len) with
        | (s, .err c) => (s, .err c)
        | (s, .ok i) => (s, .ok { i with segs := (t.base + 16 * off, pos, len) :: i.segs, lits := (4 * r, leBytes 4 (pos / 16)) :: i.lits })

/-- The image of an LPUTM's window. -/
def imageOf (s : State) (who : Who) (lkey : Nat) (desc : BitVec 256) (origin : Word) (rows cols : Nat) : State × Acc Image :=
  let t := tensorOf desc
  let w := winOf origin rows cols
  if t.spc = 5 then bitmapImage who lkey t w s rows 0 (offsetBytes rows)
  else
    let l := winLayout t w false
    (s, .ok ⟨l.segs, [], l.size⟩)

/-- The parts by memory line of an image's bytes `[a, a+n)`: line address, offset in the line, bytes, offset from `a`. -/
def imageParts (i : Image) (a n : Nat) : List (Nat × Nat × Nat × Nat) :=
  i.segs.flatMap fun g =>
    let lo := max a g.2.1
    let hi := min (a + n) (g.2.1 + g.2.2)
    if hi ≤ lo then [] else
      (lineParts (g.1 + (lo - g.2.1)) (hi - lo)).map fun p => (p.1, p.2.1, p.2.2, p.1 + p.2.1 - (g.1 + (lo - g.2.1)) + (lo - a))

/-- Overlay pieces `(offset, bytes)` on `n` zero bytes. -/
def overlay (n : Nat) (xs : List (Nat × List Byte)) : List Byte :=
  let m := xs.foldl (fun m x => bwrite m x.1 x.2) []
  bread m 0 n

/-- The literal bytes of an image within `[a, a+n)`, as offsets from `a`. -/
def imageLits (i : Image) (a n : Nat) : List (Nat × List Byte) :=
  i.lits.filterMap fun x => if a ≤ x.1 && x.1 + x.2.length ≤ a + n then some (x.1 - a, x.2) else none

/-! ## Data of a group -/

/-- Bytes of an operation, OPLEN (R345). -/
def opLen : AKind → Nat
  | .lput _ _ n _ => n
  | .lred _ _ n _ _ _ => n
  | .lget _ _ n => n
  | .lputm _ _ _ _ _ n => n
  | _ => 0

/-- Groups of an operation (R347); a GET_REQ is one. -/
def groupCount (n : Nat) (get : Bool) : Nat := if get then 1 else max 1 (ceilDiv n 16384)

/-- Bytes of group `g`. -/
def groupBytes (n g : Nat) : Nat := min 16384 (n - 16384 * g)

/-- Bolt source bytes of a group (R193, R646): those at issue in `snap`, where there is one, or those now; the rules leave open those of a source
that no longer exists when a group is sent again. -/
def boltGroup (s : State) (eng ctx gen off n : Nat) (snap : Option (List (Nat × Byte))) : State × Acc (List Byte) :=
  match boltAt s (eng / 4) ctx gen off n with
  | none =>
    let (s, bs) := openBytes s n
    (s, .ok bs)
  | some a =>
    let s := boltSlot s (eng / 4)
    if n ≠ 0 && anyBad (clOf s (eng / 4)).boltBad a n then (raise s 3 (eng / 4) a, .err cPOISON)
    else match snap with
      | some m =>
        let (s, bs) := snapMix (eng / 4) m s a n
        (s, .ok bs)
      | none => (s, .ok (boltRead s (eng / 4) a n))

/-! ## Transcryption (R315, R366) -/

/-- The key under which the lines of a group are gathered at a link engine: a group of an LPUTM, or of a reply from a window in memory; none
for a group whose data is at hand. `again` says that the group was sent before (R355). -/
def stageKeyOf (dest lkey : Nat) (g : TxGroup) (again : Bool) : Option StageKey :=
  match g.src with
  | .op id _ _ _ _ (.lputm _ _ _ _ _ _) => some (if again then .again dest lkey g.seq else .first id g.gidx)
  | .getRsp seq _ w => if w.mem then some (if again then .again dest lkey g.seq else .reply dest lkey seq g.gidx) else none
  | _ => none

/-- What a group is gathered from: its requester, its memory lines (line address, offset in the line, bytes, offset in the group), and the
bytes that are no source bytes. -/
structure GroupLines where
  who : Who
  parts : List (Nat × Nat × Nat × Nat)
  lits : List (Nat × List Byte)
  deriving DecidableEq, Repr

/-- The lines of a group, as `port` gathers them. -/
def hopLinesOf (s : State) (port lkey : Nat) (g : TxGroup) : State × Acc GroupLines :=
  let n := groupBytes g.oplen g.gidx
  match g.src with
  | .op _ eng ctx gen bw (.lputm _ d o r c _) =>
    let who := engWho s eng ctx gen bw
    if (ctxOf s ctx).gen ≠ gen then
      let (s, bs) := openBytes s n
      (s, .ok ⟨who, [], [(0, bs)]⟩)
    else match imageOf s who lkey d o r c with
      | (s, .ok i) => (s, .ok ⟨who, imageParts i (16384 * g.gidx) n, imageLits i (16384 * g.gidx) n⟩)
      | (s, .err c) => (s, .err c)
  | .getRsp _ _ w =>
    let a := w.base + g.roff + 16384 * g.gidx
    (s, .ok ⟨linkWho s port w.ctx w.gen, (lineParts a n).map fun p => (p.1, p.2.1, p.2.2, p.1 + p.2.1 - a), []⟩)
  | _ => (s, .ok ⟨linkWho s port 0 0, [], []⟩)

/-- Read lines for transcryption: each is sealed under the hop key and sent to the link engine of `port` (R315); the first error ends it. -/
def hopLines (who : Who) (lkey port : Nat) (key : StageKey) : State → List (Nat × Nat × Nat × Nat) → State × Option Nat
  | s, [] => (s, none)
  | s, p :: rest =>
    match readXlink s who lkey (p.1, p.2.1, p.2.2.1) with
    | (t, .err c) => (t, some c)
    | (t, .ok (q, line)) =>
      hopLines who lkey port key (hopSend t q.port q.attr.keyid line (.link port key p.2.2.2 p.2.1 p.2.2.1)) rest

/-- Whether the gathering of a group has begun. -/
def staging (s : State) (key : StageKey) : Bool := s.links.stage.any fun x => x.key = key

/-- Lines of a group that are still under their hop seals. -/
def underSeal (s : State) (key : StageKey) : Bool :=
  s.links.hops.any fun h => match h.dst with
    | .link _ k _ _ _ => k = key
    | .memory _ => false

/-- Begin to gather a group at the link engine of `port` (R315, R366); its error, after which nothing of it is kept. A sealed master of which
requests wait reads nothing before the next window (R383). -/
def startStage (s : State) (port lkey : Nat) (key : StageKey) (g : TxGroup) : State × Option Nat :=
  match hopLinesOf s port lkey g with
  | (s, .err c) => (s, some c)
  | (s, .ok l) =>
    let s := if bwWaits s l.who.attr then { s with sv := { s.sv with stuck := true } } else s
    let s := modLinks s fun k => { k with stage := k.stage ++ ⟨key, port, 0, []⟩ :: l.lits.map fun x => ⟨key, port, x.1, x.2⟩ }
    match hopLines l.who lkey port key s l.parts with
    | (s, none) => (s, none)
    | (s, some c) => (dropStages s (· = key), some c)

/-- The port and the `n` bytes of a group that is gathered whole. -/
def stagedGroup (s : State) (key : StageKey) (n : Nat) : Option (Nat × List Byte) :=
  if underSeal s key then none
  else
    let xs := s.links.stage.filter fun x => x.key = key
    xs.head?.map fun x => (x.port, overlay n (xs.map fun y => (y.at', y.bytes)))

/-- The data of a group that is not gathered, as it stands now. -/
def groupData (s : State) (g : TxGroup) : State × Acc (List Byte) :=
  let n := groupBytes g.oplen g.gidx
  match g.src with
  | .op _ eng ctx gen _ (.lput _ off _ snap) => boltGroup s eng ctx gen (off + 16384 * g.gidx) n (some snap)
  | .op _ eng ctx gen _ (.lred _ off _ _ _ snap) => boltGroup s eng ctx gen (off + 16384 * g.gidx) n (some snap)
  | .op _ _ _ _ _ _ => (s, .ok [])
  | .getReq _ _ => (s, .ok [])
  | .getRsp _ _ w => boltGroup s w.eng w.ctx w.gen (w.base + g.roff + 16384 * g.gidx) n none
  | .err q sub => (s, .ok (leBytes 6 q ++ leBytes 1 sub ++ List.replicate 9 0))

/-- OP of a group. -/
def srcOp : LSrc → Nat
  | .op _ _ _ _ _ (.lred _ _ _ _ _ _) => 2
  | .op _ _ _ _ _ _ => 1
  | .getReq _ _ => 3
  | .getRsp _ _ _ => 4
  | .err _ _ => 5

/-- TAG of a group. -/
def srcTag : LSrc → Nat
  | .getReq _ t => t
  | .getRsp _ t _ => t
  | _ => 0

/-- The header content of a group; an ERR uses no window fields. -/
def groupHead (s : State) (dest lkey : Nat) (g : TxGroup) : GHead :=
  let err := srcOp g.src = 5
  { ty := 1, op := srcOp g.src, dest := dest, src := s.links.self, lkey := lkey, red := g.red, seq := g.seq,
    rwin := if err || srcOp g.src = 4 then 0 else g.rwin, tag := srcTag g.src, roff := if err then 0 else g.roff,
    oplen := if err then 0 else g.oplen, gidx := if err then 0 else g.gidx }

/-- Transmit or retransmit a group of a stream with data read now; false where no port is usable. -/
def sendGroup (s : State) (dest lkey : Nat) (g : TxGroup) (data : List Byte) (port dmac : Nat) (again : Bool) : State :=
  let s := emitGroup s port dmac (groupHead s dest lkey g) data
  let s := if again then modLport s port fun p => { p with retx := satAdd 65535 p.retx 1 } else s
  modTx s dest lkey fun t => { t with
    lastPort := port,
    groups := t.groups.map fun x => if x.seq = g.seq then { x with sends := x.sends + 1, last := fclkNow s } else x }

/-- The operation of a group of a transmit stream. -/
def srcId : LSrc → Option Nat
  | .op id _ _ _ _ _ => some id
  | .getReq id _ => some id
  | _ => none

/-- An error met while a group that was sent before is built again (R355, R317): its operation completes with it at this end; for a reply,
POISON goes to the context that owns the window. -/
def againError (s : State) (g : TxGroup) (code : Nat) : State :=
  match g.src with
  | .getRsp _ _ w => if code = cPOISON then pushErr s w.ctx w.gen w.eng code else s
  | x => (srcId x).elim s fun id => opError s id code

/-- The port over which a group gathered at `port` leaves: that port, or where it is not usable another one of the route (R364). -/
def leavePort (s : State) (r : Route) (lkey port last : Nat) : Option Nat :=
  if lportUsable s port && r.ports / 2 ^ port % 2 = 1 then some port else choosePort s r lkey last

/-- A group that was gathered to be sent again leaves once no line of it is under its seal (R355). -/
def finishAgain (s : State) (dest lkey seq : Nat) : State :=
  match txOf s dest lkey, routeTo s dest with
  | some t, some r =>
    match t.groups.find? fun g => g.seq = seq && !g.acked with
    | none => dropStages s (· = .again dest lkey seq)
    | some g =>
      match stagedGroup s (.again dest lkey seq) (groupBytes g.oplen g.gidx) with
      | none => s
      | some (p, data) =>
        let s := dropStages s (· = .again dest lkey seq)
        match leavePort s r lkey p t.lastPort with
        | some port => sendGroup s dest lkey g data port r.dmac true
        | none => s
  | _, _ => dropStages s (· = .again dest lkey seq)

/-- Retransmit a group (R355). Where no port is usable it waits and its RTO keeps running (R364); under a key that is absent or at its budget
the send completes its operation with KEY_ABSENT (R218, R351). -/
def resendGroup (s : State) (dest lkey : Nat) (g : TxGroup) : State :=
  let waitOn (s : State) : State := modTx s dest lkey fun t => { t with
    groups := t.groups.map fun x => if x.seq = g.seq then { x with sends := x.sends + 1, last := fclkNow s } else x }
  match txOf s dest lkey, routeTo s dest with
  | some t, some r =>
    if (lkeyOf s lkey).tx.isNone || (lkeyOf s lkey).budget then waitOn ((srcId g.src).elim s fun id => opError s id (cADDRESS 7))
    else match choosePort s r lkey t.lastPort with
      | none => waitOn s
      | some port =>
        match stageKeyOf dest lkey g true with
        | some key =>
          if staging s key then waitOn s
          else match startStage s port lkey key g with
            | (t, none) => if t.sv.stuck then waitOn s else finishAgain t dest lkey g.seq
            | (t, some c) => if t.sv.stuck then waitOn s else waitOn (againError t g c)
        | none =>
          match groupData s g with
          | (s, .ok data) => sendGroup s dest lkey g data port r.dmac true
          | (s, .err c) => waitOn (againError s g c)
  | _, _ => waitOn s

/-! ## GROUP_SEND (R347, R350, R351, R353, R356) -/

/-- The lowest free request tag (R362). -/
def freeLtag (s : State) : Nat := ((List.range 4096).find? fun n => !(s.links.tags.any fun t => t.1 = n)).getD 0

/-- Unacknowledged groups of a stream. -/
def unacked (t : TxStream) : Nat := (t.groups.filter fun g => !g.acked).length

/-- Note a group as handed to the link engine. -/
def noteHanded (s : State) (id : Nat) : State :=
  { s with asyncs := s.asyncs.map fun a => if a.id = id then { a with groups := a.groups + 1 } else a }

/-- Put a new group into its stream and send it. -/
def newGroup (s : State) (dest lkey : Nat) (g : TxGroup) (data : List Byte) (port dmac : Nat) : State :=
  let t := (txOf s dest lkey).getD ⟨dest, lkey, 1, [], [], 0, false, 18⟩
  let g := { g with seq := t.next }
  let s := modTx s dest lkey fun t => { t with next := t.next + 1, groups := t.groups ++ [g] }
  sendGroup s dest lkey g data port dmac false

/-- An LGET. -/
def isGet : AKind → Bool
  | .lget _ _ _ => true
  | _ => false

/-- An LPUTM. -/
def isPutm : AKind → Bool
  | .lputm _ _ _ _ _ _ => true
  | _ => false

/-- The next group of an operation. -/
def nextGroup (a : AsyncOp) (d : LinkDesc) : TxGroup :=
  let red : Nat := match a.kind with
    | .lred _ _ _ rop ef _ => 2 * ef + rop
    | _ => 0
  { seq := 0, src := .op a.id a.eng a.ctx a.gen a.bwclass a.kind, rwin := d.rwin, roff := d.roff, oplen := opLen a.kind, gidx := a.groups,
    red := red, sends := 0, last := 0, fast := false, acked := false }

/-- Begin to gather the next group of an LPUTM where it has one and a port is usable (R315, R366); an error completes the operation. -/
def feedStage (s : State) (id : Nat) : State :=
  match s.asyncs.find? fun a => a.id = id && isPutm a.kind && a.err.isNone with
  | none => s
  | some a =>
    match opLink a.kind with
    | none => s
    | some d =>
      if groupCount (opLen a.kind) false ≤ a.groups || staging s (.first id a.groups) then s
      else match (routeTo s d.dest).bind fun r => choosePort s r d.lkey ((txOf s d.dest d.lkey).elim 18 (·.lastPort)) with
        | none => s
        | some port =>
          match startStage s port d.lkey (.first id a.groups) (nextGroup a d) with
          | (s, none) => s
          | (s, some c) => opError s id c

/-- Begin to gather the next group where its reads can begin now; a later GROUP_SEND gathers it otherwise. -/
def tryFeed (s : State) (id : Nat) : State :=
  let t := feedStage s id
  if t.sv.stuck then s else t

/-- Send the next group of an operation. -/
def sendOp (s : State) (a : AsyncOp) (d : LinkDesc) (r : Route) (port : Nat) : Res :=
  let base := nextGroup a d
  match a.kind with
  | .lget _ off _ =>
    let tag := freeLtag s
    let s := modLinks s fun l => { l with tags := minsert l.tags tag ⟨a.id, a.ctx, a.gen, off⟩ }
    settle (newGroup (noteHanded s a.id) d.dest d.lkey { base with src := .getReq a.id tag } [] port r.dmac)
  | .lputm _ _ _ _ _ n =>
    let key : StageKey := .first a.id a.groups
    match stagedGroup s key (groupBytes n a.groups) with
    | some (p, data) =>
      let port := (leavePort s r d.lkey p 18).getD port
      settle (tryFeed (newGroup (noteHanded (dropStages s (· = key)) a.id) d.dest d.lkey base data port r.dmac) a.id)
    | none =>
      if staging s key then .next s else settle (feedStage s a.id)
  | _ =>
    match groupData s base with
    | (s, .err c) => settle (opError s a.id c)
    | (s, .ok data) => settle (newGroup (noteHanded s a.id) d.dest d.lkey base data port r.dmac)

/-- The reply to a GET_REQ that cannot be read becomes an ERR (R218, R358): the code of R69 as its SUB; for POISON, which no SUB names, one that
the rules leave open, and POISON to the context that owns the window (R317). -/
def failReply (s : State) (dest lkey : Nat) (g : TxGroup) (seq : Nat) (w : RWin) (c : Nat) : State :=
  let (s, sub) : State × Nat := if 0x200 ≤ codeKey c && codeKey c < 0x300 then (s, codeKey c - 0x200)
    else (fun x : State × BitVec 3 => (x.1, 1 + x.2.toNat % 7)) (draw s 3)
  let s := if c = cPOISON then pushErr s w.ctx w.gen w.eng c else s
  let s := dropStages s fun k => match k with
    | .reply d l q _ => d = dest && l = lkey && q = seq
    | _ => false
  modTx s dest lkey fun t => { t with
    todo := (t.todo.filter fun x => match x.src with | .getRsp q _ _ => q ≠ seq | _ => true) ++
      [{ g with src := .err seq sub, gidx := 0, oplen := 16, roff := 0 }] }

/-- Send the first ERR or GET_RSP group that waits in a stream; the lines of a reply from memory are gathered first (R362). -/
def sendTodo (s : State) (dest lkey : Nat) (t : TxStream) (g : TxGroup) (rest : List TxGroup) (r : Route) (port : Nat) : Res :=
  let pop (s : State) : State := modTx s dest lkey fun t => { t with todo := rest }
  match stageKeyOf dest lkey g false, g.src with
  | some key, .getRsp seq _ w =>
    match stagedGroup s key (groupBytes g.oplen g.gidx) with
    | some (p, data) =>
      settle (newGroup (pop (dropStages s (· = key))) dest lkey g data ((leavePort s r lkey p t.lastPort).getD port) r.dmac)
    | none =>
      if staging s key then .next s  -- a line of the reply is still under its hop seal
      else match startStage s port lkey key g with
        | (s, none) => settle s
        | (s, some c) => settle (failReply s dest lkey g seq w c)
  | _, .getRsp seq _ w =>
    match groupData s g with
    | (s, .ok data) => settle (newGroup (pop s) dest lkey g data port r.dmac)
    | (s, .err c) => settle (failReply s dest lkey g seq w c)
  | _, _ =>
    match groupData s g with
    | (s, .ok data) => settle (newGroup (pop s) dest lkey g data port r.dmac)
    | (s, .err _) => settle (pop s)

/-- GROUP_SEND: the next group of operation `op`, or the first ERR or GET_RSP group that waits in the stream, is sealed and sent when the
stream has room and a port is usable. A send that cannot be made completes its operation with the error of R218. -/
def execGroupSend (dest lkey : Nat) (op : Option Nat) (s : State) : Res :=
  let k := lkeyOf s lkey
  match op with
  | some id =>
    match s.asyncs.find? fun a => a.id = id && opOn dest lkey a && a.err.isNone && !a.queued with
    | none => .next s  -- no such operation sends on the stream
    | some a =>
      match routeTo s dest, opLink a.kind with
      | some r, some d =>
        if k.tx.isNone || k.budget then settle (opError s id (cADDRESS 7))
        else if (txOf s dest lkey).elim false (·.failed) then settle (opError s id (cADDRESS 1))
        else match needTx s dest lkey with
          | (u, false) => settle (opError u id (cADDRESS 1))
          | (u, true) =>
            let t := (txOf u dest lkey).getD ⟨dest, lkey, 1, [], [], 0, false, 18⟩
            if groupCount (opLen a.kind) (isGet a.kind) ≤ a.groups then .next s  -- every group of the operation has been sent
            else match choosePort u r lkey t.lastPort with
              | none => .next s
              | some port => if 256 ≤ unacked t then .next s else sendOp u a d r port
      | _, _ => settle (opError s id (cADDRESS 1))
  | none =>
    match txOf s dest lkey, routeTo s dest with
    | some t, some r =>
      match t.todo, choosePort s r lkey t.lastPort with
      | g :: rest, some port =>
        if t.failed || k.tx.isNone || k.budget || 256 ≤ unacked t then .next s  -- the stream takes no group
        else sendTodo s dest lkey t g rest r port
      | _, _ => .next s  -- nothing waits in the stream, or no port of its route is usable
    | _, _ => .next s  -- there is no such stream or no route to it

/-! ## Instructions (R215 to R217, R348) -/

/-- A link instruction's frame: class H. -/
def infoL (slots : List SlotKind) (fields : List (Nat × Nat)) : OpInfo := ⟨.opening, 7, slots, fields⟩

/-- A LEN that R348 admits. -/
def lenLegal (n : Nat) : Bool := n % 64 = 0 && n ≤ 0xFFFFFFC0

/-- LKEY lies within the slice's range (R218). -/
def lkeyInRange (s : State) (c k : Nat) : Bool :=
  let d := descOf s (ctxOf s c).slice
  dLkeyBase d ≤ k && k < dLkeyBase d + dLkeyCount d

/-- LPOST (R216). -/
def execLpost (e : Nat) (f : Frame) (s : State) : Res :=
  issue e f (infoL [.s, .s, .s, .s] [(81, 1), (80, 1), (79, 1)]) true (fun s g =>
    let n := field (srcS g f 0) 0 12
    let base := (srcS g f 1).toNat
    let len := (srcS g f 2).toNat
    let mem := lowField f 81 1 = 1
    if !(lenLegal len) then .fault s 2 0 0
    else match wordRef s g.who.1 (srcS g f 3) with
      | .error sub => .fault s 7 sub 0
      | .ok w =>
        if !mem && (boltAt s (e / 4) g.who.1 g.who.2 base len).isNone then .fault s 6 0 0
        else if s.windows.any fun x => x.1 = n && !(x.2.ctx = g.who.1 && x.2.gen = g.who.2) then .fault s 7 2 0
        else
          let win : RWin := ⟨g.who.1, g.who.2, base, len, mem, lowField f 80 1 = 1, lowField f 79 1 = 1, some w, e⟩
          .ok { s with windows := minsert s.windows n win }) s

/-- LCLOSE (R216). -/
def execLclose (e : Nat) (f : Frame) (s : State) : Res :=
  issue e f (infoL [.s] []) true (fun s g =>
    let n := field (srcS g f 0) 0 12
    if s.windows.any fun x => x.1 = n && !(x.2.ctx = g.who.1 && x.2.gen = g.who.2) then .fault s 7 2 0
    else .ok { s with windows := mdel s.windows n }) s

/-- The checks that LPUT, LRED and LGET share at issue (R197, R218, R348, R165); `mk` makes the operation from the cluster byte of its
Bolt bytes. -/
def issueLink (e : Nat) (f : Frame) (fields : List (Nat × Nat)) (extra : Bool)
    (mk : State → Engine → BitVec 256 → Nat → Nat → Nat → AKind) (s : State) : Res :=
  issue e f (infoL [.d, .s, .s, .s] ((82, 2) :: fields)) (caLegal f && extra) (fun s g =>
    let d := dGet g (slotOf f 0).2
    let off := (srcS g f 1).toNat
    let len := (srcS g f 2).toNat
    if !(linkLegal d) || !(lenLegal len) then .fault s 2 0 0
    else if !(lkeyInRange s g.who.1 (linkOf d).lkey) then .fault s 7 2 0 true
    else match boltAt s (e / 4) g.who.1 g.who.2 off len with
      | none => .fault s 6 0 0
      | some a => startAsync s g e f (mk s g d off len a) false 0) s

/-- LPUT (R217). -/
def execLput (e : Nat) (f : Frame) (s : State) : Res :=
  issueLink e f [] true (fun s _ d off len a => .lput d off len (snapOf (clOf s (e / 4)).bolt a len)) s

/-- LRED (R217): reserved ROP and EFMT codes are not legal. -/
def execLred (e : Nat) (f : Frame) (s : State) : Res :=
  issueLink e f [(80, 2), (76, 4)] (lowField f 80 2 ≤ 1 && lowField f 76 4 ≤ 1) (fun s _ d off len a =>
    .lred d off len (lowField f 80 2) (lowField f 76 4) (snapOf (clOf s (e / 4)).bolt a len)) s

/-- LGET (R217). -/
def execLget (e : Nat) (f : Frame) (s : State) : Res :=
  issueLink e f [] true (fun _ _ d off len _ => .lget d off len) s

/-- LPUTM (R217): its LEN is the size of the image, which for a bitmap source the masks give; the transcryption of its first group starts at
once where a port is usable. An image that cannot be read ends the operation with its error. -/
def execLputm (e : Nat) (f : Frame) (s : State) : Res :=
  issue e f (infoL [.d, .d, .s, .s] [(82, 2), (13, 13), (0, 13)]) (caLegal f) (fun s g =>
    let l := dGet g (slotOf f 0).2
    let d := dGet g (slotOf f 1).2
    let rows := lowField f 13 13 + 1
    let cols := lowField f 0 13 + 1
    let w := winOf (srcS g f 2) rows cols
    if !(linkLegal l) || !(tensorLegal d) || !(winLegal (tensorOf d) w) then .fault s 2 0 0
    else if !(lkeyInRange s g.who.1 (linkOf l).lkey) then .fault s 7 2 0 true
    else
      match imageOf s (engWho s e g.who.1 g.who.2 g.bwclass) (linkOf l).lkey d (srcS g f 2) rows cols with
      | (s, .err c) =>
        match startAsync s g e f (.lputm l d (srcS g f 2) rows cols 0) false 0 with
        | .ok t => .ok (opError t s.fresh c)
        | x => x
      | (s, .ok i) =>
        if !(lenLegal i.size) then .fault s 2 0 0
        else match startAsync s g e f (.lputm l d (srcS g f 2) rows cols i.size) false 0 with
          | .ok t => .ok (tryFeed t s.fresh)
          | x => x) s

/-! ## Receiving frames (R346, R599) -/

/-- The little-endian field of a header. -/
def hfield (h : List Byte) (at' n : Nat) : Nat := natOfBytes ((h.drop at').take n)
/-- TYPE. -/
def hType (h : List Byte) : Nat := hfield h 0 1 % 16
/-- OP. -/
def hOp (h : List Byte) : Nat := hfield h 1 1 / 16
/-- FIDX. -/
def hFidx (h : List Byte) : Nat := hfield h 1 1 / 4 % 4
/-- FCNT. -/
def hFcnt (h : List Byte) : Nat := hfield h 1 1 % 4 + 1
/-- SRC. -/
def hSrc (h : List Byte) : Nat := hfield h 4 2
/-- LKEY. -/
def hLkey (h : List Byte) : Nat := hfield h 6 1
/-- SPORT. -/
def hSport (h : List Byte) : Nat := hfield h 7 1 % 32
/-- SEQ. -/
def hSeq (h : List Byte) : Nat := hfield h 8 6
/-- RWIN. -/
def hRwin (h : List Byte) : Nat := hfield h 14 2
/-- NCOUNT. -/
def hNcount (h : List Byte) : Nat := hfield h 16 6
/-- FLEN. -/
def hFlen (h : List Byte) : Nat := hfield h 22 2
/-- TAG. -/
def hTag (h : List Byte) : Nat := hfield h 24 8 / 2 ^ 52
/-- ROFF. -/
def hRoff (h : List Byte) : Nat := hfield h 24 8 % 2 ^ 52
/-- OPLEN. -/
def hOplen (h : List Byte) : Nat := hfield h 32 4
/-- GIDX. -/
def hGidx (h : List Byte) : Nat := hfield h 36 4

/-- A transport header without a reserved code or bit and with an FLEN of R345 (R346). -/
def headLegal (h : List Byte) : Bool :=
  let op := hOp h
  let data := hType h = 1
  let ack := hType h = 2
  let b7 := hfield h 7 1
  hfield h 0 1 / 16 = 1 && (data || ack) && (if data then 1 ≤ op && op ≤ 5 else op = 0) &&
  b7 / 128 = 0 && hfield h 14 2 / 4096 = 0 && hfield h 40 8 = 0 &&
  (if ack then hFlen h = 32
   else if op = 3 then hFlen h = 0
   else if op = 5 then hFlen h = 16
   else hFlen h ≤ 4096 && hFlen h % 64 = 0) &&
  hFidx h < hFcnt h && (!(ack || op = 3 || op = 5) || hFcnt h = 1)

/-- A frame that R346 lets pass, from its transport header on. -/
def frameOk (s : State) (p : Nat) (x : List Byte) : Bool :=
  let h := x.take 48
  48 ≤ x.length && headLegal h &&
  x.length = 48 + hFlen h + (if hFidx h + 1 = hFcnt h then 16 else 0) &&
  hfield h 2 2 = s.links.self && (routeTo s (hSrc h)).isSome && (lkeyOf s (hLkey h)).rx.isSome &&
  ((lkeySlice s (hLkey h)).elim false fun n => dLinks (descOf s n) / 2 ^ p % 2 = 1)

/-- Two frames of one group. -/
def sameGroup (a b : List Byte) : Bool :=
  hSrc a = hSrc b && hSport a = hSport b && hLkey a = hLkey b && hNcount a = hNcount b && hFcnt a = hFcnt b

/-- LINK_FRAME_RECEIVE (R346, R599): a frame arrives whole at port `p`; `bad` says that it ended with RX_ERR or broke the framing of R599.
Frames at a fenced port or in its safe state are dropped (R523). -/
def execLinkFrameReceive (p : Nat) (bad : Bool) (bytes : List Byte) (s : State) : Res :=
  let x := bytes.drop 14
  let s := awaitHalf s (s.cfg.halfOfLink p)
  let dead := s.fc.linkFenced.contains p || unitSafe s 3 p || !(blockRuns s)
  hereRes (p < s.cfg.linkPorts)
    (if dead then s
     else if bad || bytes.length < 62 || 4174 < bytes.length || 262144 < rxFill s p + 4174 || !(frameOk s p x) then
       modLport s p fun r => { r with drop := satAdd 65535 r.drop 1 }
     else
       let same (g : Gather) : Bool := g.port = p && g.frames.any fun f => sameGroup f.2 x
       let f := (hFidx x, x)
       modLinks s fun l =>
         if l.gather.any same then { l with gather := l.gather.map fun g => if same g then { g with frames := minsert g.frames f.1 f.2 } else g }
         else { l with gather := l.gather ++ [⟨p, [f]⟩] })

/-! ## Applying a group (R353, R358 to R362) -/

/-- Put a group of a receive stream whose writes are complete into its record, CUM and the bitmap (R353), for an acknowledgement that is due
(R354). -/
def record (t : RxStream) (seq : Nat) : RxStream :=
  let above := sins t.above seq
  let go := above.foldl (fun c x => if x = c + 1 then c + 1 else c) t.cum
  { t with cum := go, above := above.filter fun x => go < x, writing := t.writing.filter (· ≠ seq), ackDue := true }

/-- Whether a SEQ is a duplicate, or new and in range, or above it. -/
def seqClass (t : RxStream) (seq : Nat) : Nat :=
  if seq ≤ t.cum || t.above.contains seq || t.writing.contains seq then 0 else if seq ≤ t.cum + 256 then 1 else 2

/-- A group of a receive stream is handled whole: it is recorded, and its acknowledgement is due. -/
def groupAck (s : State) (src lkey seq : Nat) : State :=
  modRx s src lkey fun t => if t.writing.contains seq then record t seq else t

/-- Queue a group in the reverse stream; nothing where the stream table is full or the stream has failed. -/
def queueBack (s : State) (src lkey : Nat) (gs : List TxGroup) : State :=
  match needTx s src lkey with
  | (s, false) => s
  | (s, true) => modTx s src lkey fun t => if t.failed then t else { t with todo := t.todo ++ gs }

/-- Refuse a group: acknowledge it and send an ERR (R358). -/
def refuseGroup (s : State) (src lkey seq sub : Nat) : State :=
  queueBack (groupAck s src lkey seq) src lkey [{ seq := 0, src := .err seq sub, rwin := 0, roff := 0, oplen := 16, gidx := 0, red := 0,
                                                  sends := 0, last := 0, fast := false, acked := false }]

/-- The checks of R358 on a whole operation, in their order: SUB of the first that fails. -/
def windowFault (s : State) (w : Option RWin) (op lkey roff oplen : Nat) : Option Nat :=
  match w with
  | none => some 1
  | some w =>
    let d := descOf s (ctxOf s w.ctx).slice
    if !(if op = 3 then w.rd else w.wr) then some 1
    else if !(dLkeyBase d ≤ lkey && lkey < dLkeyBase d + dLkeyCount d) then some 2
    else if w.len < roff + oplen then some 5
    else none

/-- Combine one element (R217, R361): FP32 or BF16, add or maximum (R96). -/
def redElem (bf16 mx : Bool) (a b : Nat) : Nat :=
  let c := if bf16 then 1 else 0
  let x := fmtDecode c a
  let y := fmtDecode c b
  (fmtEncode c (rv32 (if mx then FV.max2 x y else FV.add y x)) 0 false 0).1

/-- Combine the bytes of a contribution with those at the destination. -/
def redBytes (bf16 mx : Bool) (old new : List Byte) : List Byte :=
  let w := if bf16 then 16 else 32
  let n := new.length / (w / 8)
  packBytes w ((unpackBytes w old n).zipWith (redElem bf16 mx) (unpackBytes w new n))

/-- EFMT and ROP of a RED group (R345). -/
def groupRed (h : List Byte) : Option (Bool × Bool) :=
  if hOp h = 2 then some (hfield h 7 1 / 64 % 2 = 1, hfield h 7 1 / 32 % 2 = 1) else none

/-- A group that arrived at link port `p` is written: the window's Tally word rises through that port, and its ACK is due (R267, R354, R359). -/
def groupDone (s : State) (p e ctx gen : Nat) (word : Option (Nat × Nat)) (lkey src seq : Nat) : State :=
  groupAck (wordAction s (fun h => linkTallyPort s.cfg h p) e ctx gen word) src lkey seq

/-- Check that every line of a memory window's range can be written through transcryption. -/
def xlinkFault (who : Who) (lkey : Nat) : State → List (Nat × Nat × Nat) → State × Option Nat
  | s, [] => (s, none)
  | s, p :: rest =>
    match xlatXlink s who lkey p.1 true with
    | (s, .err c) => (s, some c)
    | (s, .ok _) => xlinkFault who lkey s rest

/-- Apply a PUT or RED group to its window (R358 to R361): the Bolt bytes at once; memory lines under the hop seal. -/
def applyWrite (s : State) (port : Nat) (w : RWin) (h data : List Byte) : State :=
  let src := hSrc h
  let lkey := hLkey h
  let off := w.base + hRoff h + 16384 * hGidx h
  let red := groupRed h
  if w.mem then
    let who := linkWho s port w.ctx w.gen
    let parts := lineParts off data.length
    match xlinkFault who lkey s parts with
    | (s, some c) => refuseGroup s src lkey (hSeq h) (if 0x200 ≤ c && c < 0x300 then c - 0x200 else 1)
    | (s, none) =>
      if parts = [] then groupDone s port w.eng w.ctx w.gen w.word lkey src (hSeq h)
      else parts.foldl (fun t p =>
        let goff := p.1 + p.2.1 - off
        hopSend t (0x40 + port) 1024 (List.replicate p.2.1 0 ++ (data.drop goff).take p.2.2)
          (.memory ⟨port, w.ctx, w.gen, p.1 + p.2.1, p.2.2, goff, red, [], w.word, lkey, src, hSeq h⟩)) s
  else
    match boltAt s (w.eng / 4) w.ctx w.gen off data.length with
    | none => groupDone s port w.eng w.ctx w.gen w.word lkey src (hSeq h)
    | some a =>
      let s := boltSlot s (w.eng / 4)
      let (s, bad) := match red with
        | some (bf, mx) => boltCombine s (w.eng / 4) a data.length fun old => redBytes bf mx old data
        | none => boltWrite s (w.eng / 4) a data
      let s := if bad then pushErr s w.ctx w.gen w.eng cPOISON else s
      groupDone s port w.eng w.ctx w.gen w.word lkey src (hSeq h)

/-- The reply groups of a GET_REQ (R362). -/
def replyGroups (h : List Byte) (w : RWin) : List TxGroup :=
  (List.range (groupCount (hOplen h) false)).map fun j =>
    { seq := 0, src := .getRsp (hSeq h) (hTag h) w, rwin := 0, roff := hRoff h, oplen := hOplen h, gidx := j, red := 0, sends := 0, last := 0,
      fast := false, acked := false }

/-- Apply a verified PUT, RED or GET_REQ group (R358). -/
def applyGroup (s : State) (port : Nat) (h data : List Byte) : State :=
  let w := (s.windows.find? fun x => x.1 = hRwin h).map (·.2)
  match windowFault s w (hOp h) (hLkey h) (hRoff h) (hOplen h), w with
  | some sub, _ => refuseGroup s (hSrc h) (hLkey h) (hSeq h) sub
  | none, none => s
  | none, some w =>
    if hOp h = 3 then queueBack (groupAck s (hSrc h) (hLkey h) (hSeq h)) (hSrc h) (hLkey h) (replyGroups h w)
    else applyWrite s port w h data

/-- Handle a verified group under its SEQ (R353): `apply` runs for a new one, which is recorded once its writes are complete. -/
def underSeq (s : State) (port : Nat) (h : List Byte) (apply : State → State) : State :=
  let src := hSrc h
  let lkey := hLkey h
  match needRx s src lkey port with
  | (s, false) => s
  | (s, true) =>
    match (rxOf s src lkey).map fun t => seqClass t (hSeq h) with
    | some 0 =>
      modRx (modLport s port fun p => { p with dup := satAdd 65535 p.dup 1 }) src lkey fun t => { t with ackDue := true }
    | some 1 => apply (modRx s src lkey fun t => { t with writing := sins t.writing (hSeq h), port := port })
    | _ => s

/-- A GET_RSP group. -/
def isRsp (h : List Byte) : Bool := hType h = 1 && hOp h = 4

/-- GROUP_VERIFY (R352): the tag of the gathered group at place `k` is checked; a PUT, RED or GET_REQ group is handled under its SEQ; an
ACK, GET_RSP or ERR waits for its own step. Groups are applied in the order in which they verify (R360), so none is verified for applying
while a GET_RSP verified before it waits. -/
def execGroupVerify (k : Nat) (s : State) : Res :=
  match s.links.gather[k]? with
  | none => .next s  -- no such group is gathered
  | some g =>
    let h := ((g.frames.head?.map (·.2)).getD []).take 48
    let data := (g.frames.map fun f => (f.2.drop 48).take (hFlen f.2)).flatten
    let aad := (g.frames.map fun f => f.2.take 48).flatten
    let last := (g.frames.getLast?.map (·.2)).getD []
    let later := hType h = 2 || hOp h = 4 || hOp h = 5
    guardRes s  -- else: frames of the group are missing, or an earlier group is not applied
      (g.frames.length = hFcnt h && blockRuns s && (later || !(s.links.verified.any fun v => isRsp v.hdr)))
      (let s := modLinks s fun l => { l with gather := l.gather.eraseIdx k }
       match (lkeyOf s (hLkey h)).rx with
       | none => modLport s g.port fun p => { p with drop := satAdd 65535 p.drop 1 }
       | some key =>
         match gcmOpen key (groupIv (hSrc h) (hSport h) (hNcount h)) aad data (blockOfBytes (last.drop (last.length - 16))) with
         | none => raise (modLport s g.port fun p => { p with authfail := satAdd 65535 p.authfail 1 }) 17 g.port 0
         | some pt =>
           if later then modLinks s fun l => { l with verified := l.verified ++ [⟨g.port, h, pt⟩] }
           else underSeq s g.port h fun t => applyGroup t g.port h pt)

/-! ## Acknowledgement (R354, R355) -/

/-- The SACK bitmap of a receive stream. -/
def sackBytes (t : RxStream) : List Byte := leBytes 32 (t.above.foldl (fun a x => a + 2 ^ (x - t.cum - 1)) 0)

/-- ACK_SEND (R354): an ACK with CUM and the bitmap leaves in the reverse stream. -/
def execAckSend (src lkey : Nat) (s : State) : Res :=
  match rxOf s src lkey, routeTo s src with
  | some t, some r =>
    match choosePort s r lkey t.port with
    | none => .next s  -- no port of the route is usable
    | some port =>
      guardRes s  -- else: no acknowledgement is due, or the transmit key is absent
        (t.ackDue && (lkeyOf s lkey).tx.isSome && !(lkeyOf s lkey).budget)
        (modRx (emitGroup s port r.dmac ⟨2, 0, src, s.links.self, lkey, 0, t.cum, 0, 0, 0, 0, 0⟩ (sackBytes t)) src lkey
          fun t => { t with ackDue := false, port := port })
  | _, _ => .next s  -- there is no such stream or no route to it

/-- Take a verified group of the given kind at place `k`; one that is written goes in the order of verification (R360). -/
def takeVerified (k : Nat) (ok : List Byte → Bool) (f : State → VGroup → State) (s : State) : Res :=
  match s.links.verified[k]? with
  | none => .next s  -- no such verified group waits
  | some v =>
    guardRes s  -- else: the verified group is of another kind, or an earlier one is not applied
      (ok v.hdr && !(isRsp v.hdr && (s.links.verified.take k).any fun x => isRsp x.hdr))
      (f (modLinks s fun l => { l with verified := l.verified.eraseIdx k }) v)

/-- Groups of an operation that may be forgotten once acknowledged: ERR and GET_RSP groups. -/
def forgettable : LSrc → Bool
  | .getRsp _ _ _ => true
  | .err _ _ => true
  | _ => false

/-- ACK_RECEIVE (R354, R355): acknowledged groups are freed; a group below three acknowledged ones is retransmitted once per RTO. -/
def execAckReceive (k : Nat) (s : State) : Res :=
  takeVerified k (fun h => hType h = 2) (fun s v =>
    let dest := hSrc v.hdr
    let lkey := hLkey v.hdr
    let cum := hSeq v.hdr
    let bits := natOfBytes v.data
    let has (q : Nat) : Bool := q ≤ cum || (cum < q && q ≤ cum + 256 && bits / 2 ^ (q - cum - 1) % 2 = 1)
    match txOf s dest lkey with
    | none => s
    | some t =>
      if cum < t.cum || t.failed then s
      else
        let s := modTx s dest lkey fun t => { t with
          cum := cum,
          groups := (t.groups.map fun g => if has g.seq then { g with acked := true } else g).filter fun g => !(g.acked && forgettable g.src) }
        let higher (q : Nat) : Nat := ((List.range 256).filter fun b => bits / 2 ^ b % 2 = 1 && q < cum + 1 + b).length
        let late := ((txOf s dest lkey).elim [] (·.groups)).filter fun g => !g.acked && !g.fast && 0 < g.sends && 3 ≤ higher g.seq
        late.foldl (fun u g =>
          resendGroup (modTx u dest lkey fun t => { t with
            groups := t.groups.map fun x => if x.seq = g.seq then { x with fast := true } else x }) dest lkey g) s) s

/-- RTO_EXPIRY (R355, R356): RTO FCLK have passed since a group was last sent: it is retransmitted, or its stream fails when it has been
sent RETRY + 1 times. -/
def execRtoExpiry (dest lkey seq : Nat) (s : State) : Res :=
  match txOf s dest lkey with
  | none => .next s  -- there is no such stream
  | some t =>
    match t.groups.find? fun g => g.seq = seq && !g.acked with
    | none => .next s  -- the group is not outstanding
    | some g =>
      guardRes s (g.last + s.links.rto ≤ fclkNow s && blockRuns s)
        (if max 1 s.links.retry + 1 ≤ g.sends then failStream s dest lkey
         else
           let s := modTx s dest lkey fun t => { t with
             groups := t.groups.map fun x => if x.seq = seq then { x with fast := false } else x }
           resendGroup s dest lkey g)

/-- GET_RSP_RECEIVE (R362, R370): the reply bytes go into the requester's Bolt region; a reply whose tag names an older generation is not
written; both are acknowledged. -/
def execGetRspReceive (k : Nat) (s : State) : Res :=
  takeVerified k isRsp (fun s v =>
    underSeq s v.port v.hdr fun s =>
      let s := groupAck s (hSrc v.hdr) (hLkey v.hdr) (hSeq v.hdr)
      match (s.links.tags.find? fun t => t.1 = hTag v.hdr).map (·.2) with
      | none => s
      | some t =>
        if (ctxOf s t.ctx).gen ≠ t.gen then s
        else match s.asyncs.find? fun a => a.id = t.id with
          | none => s
          | some a =>
            let s := { s with asyncs := s.asyncs.map fun x => if x.id = a.id then { x with got := sins x.got (hGidx v.hdr) } else x }
            match boltAt s (a.eng / 4) t.ctx t.gen (t.off + 16384 * hGidx v.hdr) v.data.length with
            | none => s
            | some p =>
              let (s, bad) := boltWrite s (a.eng / 4) p v.data
              if bad then opSoft s a.id cPOISON else s) s

/-- ERR_RECEIVE (R357): the operation that the ERR names completes with its code. -/
def execErrReceive (k : Nat) (s : State) : Res :=
  takeVerified k (fun h => hType h = 1 && hOp h = 5) (fun s v =>
    underSeq s v.port v.hdr fun s =>
      let s := groupAck s (hSrc v.hdr) (hLkey v.hdr) (hSeq v.hdr)
      let seq := hfield v.data 0 6
      match (txOf s (hSrc v.hdr) (hLkey v.hdr)).bind fun t => (t.groups.find? fun g => g.seq = seq).bind fun g => srcId g.src with
      | some id => opError s id (cADDRESS (hfield v.data 6 1))
      | none => s) s

/-! ## Hop seals opened (R317) -/

/-- Whether lines of a received group are still under their seals. -/
def hopsLeft (s : State) (lkey src seq : Nat) : Bool :=
  s.links.hops.any fun h => match h.dst with
    | .memory p => p.lkey = lkey && p.src = src && p.seq = seq
    | .link _ _ _ _ _ => false

/-- Change the lines of a received group that are still under their seals. -/
def modParts (s : State) (lkey src seq : Nat) (f : HopPart → HopPart) : State :=
  modLinks s fun l => { l with hops := l.hops.map fun h => match h.dst with
    | .memory p => if p.lkey = lkey && p.src = src && p.seq = seq then { h with dst := .memory (f p) } else h
    | .link _ _ _ _ _ => h }

/-- What a line part of a RED combines (R361): the address and the bytes of whole elements, with those of the element that the line before began,
and the bytes of an element that ends in the next line. Of an element whose first bytes did not arrive nothing is combined. -/
def redRun (p : HopPart) (bf : Bool) (bs : List Byte) : Nat × List Byte × List Byte :=
  let w := if bf then 2 else 4
  let lead := if p.carry = [] then (w - p.goff % w) % w else 0
  let run := p.carry ++ bs.drop lead
  let n := run.length / w * w
  (p.va + lead - p.carry.length, run.take n, run.drop n)

/-- Write one opened line part to memory, or combine it there, as one access to its line (R297, R361); its error. -/
def hopWrite (s : State) (p : HopPart) (bs : List Byte) : State × Option Nat :=
  let who := linkWho s p.port p.ctx p.gen
  match p.red with
  | none => memWrite s who .va p.va bs
  | some (bf, mx) =>
    let (a, run, rest) := redRun p bf bs
    let s := modParts s p.lkey p.src p.seq fun q => if q.goff = p.goff + bs.length then { q with carry := rest } else q
    match memRead s who .va a run.length with
    | (s, .err c) => (s, some c)
    | (s, .ok old) => memWrite s { who with counted := true } .va a (redBytes bf mx old run)

/-- The engine of a receive window of a context. -/
def windowEng (s : State) (c gen : Nat) : Nat := ((s.windows.find? fun w => w.2.ctx = c && w.2.gen = gen).map fun w => w.2.eng).getD 0

/-- A line for a receive window in memory reaches its memory engine: `line` is what the seal opened to, none where it does not verify (R317). -/
def openPart (s : State) (p : HopPart) (line : Option (List Byte)) : State :=
  let eng := windowEng s p.ctx p.gen
  match line with
  | some l =>
    let (s, e) := if (ctxOf s p.ctx).gen = p.gen then hopWrite s p ((l.drop (p.va % 128)).take p.bytes) else (s, none)
    let s := match e with
      | some code => pushErr s p.ctx p.gen eng code
      | none => s
    if hopsLeft s p.lkey p.src p.seq then s else groupDone s p.port eng p.ctx p.gen p.word p.lkey p.src p.seq
  | none =>
    let (s, m) := match xlat s (linkWho s p.port p.ctx p.gen) p.va true false false with
      | (t, .ok q) => (t, q.port)
      | (t, .err _) => (t, 0)
    let s := modParts (raise s 10 m 0) p.lkey p.src p.seq fun q => { q with word := none }
    let s := pushErr s p.ctx p.gen eng cPOISON
    if hopsLeft s p.lkey p.src p.seq then s else groupAck s p.src p.lkey p.seq

/-- A line for a group reaches the link engine of `port`: its bytes are placed into the group, which leaves where it is sent again (R355, R366). A
seal that does not verify ends the gathering (R317): the link engine raises its line, and the operation ends with POISON at this end. -/
def openForGroup (s : State) (port : Nat) (key : StageKey) (at' off n : Nat) (line : Option (List Byte)) : State :=
  match line with
  | some l =>
    let s := modLinks s fun k => { k with stage := k.stage ++ [⟨key, port, at', (l.drop off).take n⟩] }
    match key with
    | .again dest lkey seq => finishAgain s dest lkey seq
    | _ => s
  | none =>
    let s := raise (dropStages s (· = key)) 10 (0x40 + port) 0
    match key with
    | .first id _ => opError s id cPOISON
    | .again dest lkey seq =>
      ((txOf s dest lkey).bind fun t => t.groups.find? fun g => g.seq = seq).elim s fun g => againError s g cPOISON
    | .reply dest lkey seq _ =>
      match (txOf s dest lkey).bind fun t => t.todo.find? fun g => (stageKeyOf dest lkey g false) = some key with
      | some g =>
        match g.src with
        | .getRsp _ _ w => failReply s dest lkey g seq w cPOISON
        | _ => s
      | none => s

/-- HOP_SEAL_OPEN (R315, R317): the hop-sealed line at place `k` is opened; `flip` is what changed of its tag on the way. Lines for memory are
opened in the order in which they were sealed: groups in the order in which they verified, each in ascending address (R360). -/
def execHopSealOpen (k : Nat) (flip : BitVec 128) (s : State) : Res :=
  match s.links.hops[k]? with
  | none => .next s  -- no such hop-sealed line is in flight
  | some h =>
    let earlier := (s.links.hops.take k).any fun x => match x.dst with
      | .memory _ => true
      | .link _ _ _ _ _ => false
    let s := modLinks s fun l => { l with hops := l.hops.eraseIdx k }
    let pt := gcmOpen s.sv.hopKey (BitVec.ofNat 96 (h.code * 2 ^ 88 + h.count % 2 ^ 88)) [] h.ct (h.tag ^^^ flip)
    match h.dst with
    | .link port key at' off n => settle (openForGroup s port key at' off n pt)
    | .memory p =>
      guardRes s  -- else: an earlier line for memory is not opened, or the port's requests wait for a window
        (!earlier && !(bwWaits s (linkWho s p.port p.ctx p.gen).attr)) (openPart s p pt)

/-! ## Ports, routes, bridge -/

/-- LINK_UP_CHANGE (R598): LPi_UP falls or rises. -/
def execLinkUpChange (p : Nat) (up : Bool) (s : State) : Res :=
  unitRes (p < s.cfg.linkPorts) s ((lportOf s p).up ≠ up) (modLport s p fun r => { r with up := up })

/-- BRIDGE_TRANSFER_RECEIVE (R601): a transfer arrives at half `h`; its CRC, SEQ and credit are checked. `freed` is the number of credits that
the half returned since the last one. In the block safe state the bridge takes nothing. -/
def execBridgeTransferReceive (h : Nat) (flit : List Byte) (ctl chk : Word) (freed : Nat) (s : State) : Res :=
  let b := mget Bridge.reset s.bridge h
  let cred := min 128 (b.credits + freed)
  let bad := (crc32c (takeBytes 4096 flit ++ bytesOf 8 ctl)).toNat ≠ field chk 0 32 || field chk 48 16 ≠ b.expect || cred = 0
  unitRes (h < s.cfg.halves && s.cfg.halves = 2) s (blockRuns s && !s.fc.blockSafe)
    (let s := { s with bridge := mset Bridge.reset s.bridge h ⟨cred - 1, (b.expect + 1) % 65536⟩ }
     if bad then raise s 9 h (field chk 48 16) else s)

/-- D2D_ERR (R601): HBPh_D2D_ERR rises; on one die it is tied to 0. -/
def execD2dErr (h : Nat) (s : State) : Res :=
  hereRes (h < s.cfg.halves && s.cfg.d2d) (raise s 9 h 0)

/-- ROUTE_WRITE (R363): a write to word `w` of route `i` by the secure world; one that would give two valid entries the same DEST is
ignored. -/
def putRoute (s : State) (i w : Nat) (v : Word) : State :=
  let r := mget Route.zero s.links.routes i
  let r' : Route := if w = 0 then ⟨bit v 63, field v 32 16, field v 0 18, r.dmac⟩ else { r with dmac := field v 0 48 }
  if r'.valid && (s.links.routes.any fun x => x.1 ≠ i && x.2.valid && x.2.dest = r'.dest) then s
  else modLinks s fun l => { l with routes := mset Route.zero l.routes i r' }

end Sys2Proof.Machine
end

