-- ==== Sys2Proof/Machine/Async.lean ====
section
/-! DEFINITION. Completion of asynchronous operations (R190, R192, R357), and the order in which their requests reach memory (R27, R191). -/
namespace Sys2Proof.Machine

/-- Whether a link operation is complete (R357): it has an error, or every group is handed over and acknowledged and, for an LGET, every
group of its reply is written. -/
def linkComplete (s : State) (a : AsyncOp) : Bool :=
  a.err.isSome ||
  (groupCount (opLen a.kind) (isGet a.kind) ≤ a.groups &&
   (s.links.tx.all fun t => t.groups.all fun g => g.acked || srcId g.src ≠ some a.id) &&
   (!(isGet a.kind) || a.got.length = groupCount (opLen a.kind) false))

/-- What the link unit keeps for an operation goes when it completes. -/
def linkForget (s : State) (id : Nat) : State :=
  let s := dropStages s fun k => match k with
    | .first j _ => j = id
    | _ => false
  modLinks s fun l => { l with
    tx := l.tx.map fun t => { t with groups := t.groups.filter fun g => !(g.acked && srcId g.src = some id) },
    tags := l.tags.filter fun t => t.2.id ≠ id }

/-- The Tally port of half `h` for the completion of a link operation: that of the port its stream used last (R267). -/
def linkDonePort (s : State) (a : AsyncOp) (h : Nat) : Nat :=
  let last := ((opLink a.kind).bind fun d => txOf s d.dest d.lkey).elim 18 (·.lastPort)
  if last < s.cfg.linkPorts then linkTallyPort s.cfg h last else engPort s.cfg h a.eng

/-- The virtual lines of memory that a transfer touches; none where only its data tell. -/
def opLines (a : AsyncOp) : Option (List Nat) :=
  let lines (xs : List (Nat × Nat)) : List Nat := xs.flatMap fun x => (lineParts x.1 x.2).map (·.1)
  let window (d : BitVec 256) (org : Word) (rows cols : Nat) (part : Bool) : Option (List Nat) :=
    let t := tensorOf d
    if t.spc = 5 && !part then none
    else some (lines ((winLayout t (winOf org rows cols) part).segs.map fun x => (x.1, x.2.2)))
  let rows (d : BitVec 256) (idx : List Nat) : List Nat :=
    lines ((idx.filter (· < (tensorOf d).rows)).map fun i => ((tensorOf d).base + i * (tensorOf d).pitch, rowBytes (tensorOf d)))
  match a.kind with
  | .pref d _ org r c part _ => window d org r c part
  | .push d _ org r c part _ => window d org r c part
  | .gath d _ idx => some (rows d idx)
  | .scat d _ idx _ => some (rows d idx)
  | .write cs => some (lines (cs.map fun x => (x.1, x.2.length)))
  | .hupd r st n _ => some (lines [(r, 128), (st, 160 * n)])
  | _ => some []

/-- Two operations of one engine that may touch one line: addresses of two contexts are not compared, and every line of a bitmap tensor may be
the line. -/
def mayShare (a b : AsyncOp) : Bool :=
  match opLines a, opLines b with
  | some x, some y => x ≠ [] && y ≠ [] && (a.ctx ≠ b.ctx || x.any y.contains)
  | _, _ => true

/-- The operations, of those issued before in order of age from the youngest, whose requests come before those of `set` (R27). -/
def before : List AsyncOp → List AsyncOp → List AsyncOp
  | [], set => set
  | b :: rest, set => if set.any fun x => mayShare b x then before rest (b :: set) else before rest set

/-- Move the bytes of one operation of memory; its error. -/
def moveOne (s : State) (a : AsyncOp) : State × Option Nat :=
  match a.kind with
  | .hupd r st n m => moveHupd s a r st n m
  | _ => moveAsync s a

/-- Move the bytes of operations that have not moved, in order (R27, R191). -/
def moveList (s : State) (as : List AsyncOp) : State :=
  as.foldl (fun t a =>
    if a.moved.isSome || a.err.isSome then t
    else
      let past := if (intoBolt t a).isSome then (clOf t (a.eng / 4)).bolt else []
      let (t, e) := moveOne t a
      { t with asyncs := t.asyncs.map fun x => if x.id = a.id then { x with moved := some e, past := past } else x }) s

/-- Complete a transfer: the bytes of earlier operations of its engine on the same lines move first, then its own (R27). -/
def completeMove (s : State) (a : AsyncOp) : State :=
  let older := (s.asyncs.takeWhile fun x => x.id ≠ a.id).filter fun x => x.eng = a.eng && (opLink x.kind).isNone
  let s := moveList s (before older.reverse [a])
  finishAsync s a ((s.asyncs.find? fun x => x.id = a.id).bind fun x => x.moved.join)

/-- ASYNC_OPERATION_COMPLETE (R190): a transfer moves its bytes and completes; a link operation completes under R357. The completion
action takes place once, an error goes to the context. Operations enter the fabric in issue order (R191), so one behind a queued prefetch of its
engine does not complete. -/
def execAsyncOperationComplete (id : Nat) (s : State) : Res :=
  match s.asyncs.find? fun a => a.id = id with
  | none => .next s  -- no such asynchronous operation is outstanding
  | some a =>
    if a.queued || !(blockRuns s) then .next s  -- the operation is still in its engine's queue, or nothing runs
    else match a.kind with
      | .lput _ _ _ _ | .lputm _ _ _ _ _ _ | .lred _ _ _ _ _ _ | .lget _ _ _ =>
        guardRes s (linkComplete s a)
          (finishVia (linkForget s a.id) a (linkDonePort s a) none)
      | .hupd _ _ _ _ | .pref _ _ _ _ _ _ _ | .push _ _ _ _ _ _ _ | .gath _ _ _ | .scat _ _ _ _ | .write _ =>
        guardRes s  -- else: an earlier operation is still in the engine's queue, or the engine's requests wait for a window
          (!((s.asyncs.takeWhile fun x => x.id ≠ id).any fun x => x.eng = a.eng && x.queued) &&
           !(bwWaits s (engWho s a.eng a.ctx a.gen a.bwclass).attr)) (completeMove s a)

end Sys2Proof.Machine
end

