-- ==== Sys2Proof/Machine/Rods.lean ====
section
/-! DEFINITION. The bead store (R405 to R413): beads, rods, the manifest and the close record; the start of a step (R391, R410). -/
namespace Sys2Proof.Machine

/-- The lowest-numbered cluster that holds an engine of a slice. -/
def homeCluster (s : State) (slice : Nat) : Nat := ((dEngines (descOf s slice)).head?.getD 0) / 4
/-- The lowest engine of a slice in a cluster (R403). -/
def lowestEng (s : State) (slice c : Nat) : Nat :=
  (((dEngines (descOf s slice)).filter fun e => e / 4 = c).head?).getD (4 * c)

/-! ## The bead store -/

/-- Bead `b`. -/
def beadOf (s : State) (b : Nat) : Bead := mget Bead.zero s.sched.beads b
/-- Change bead `b`. -/
def modBead (s : State) (b : Nat) (f : Bead → Bead) : State :=
  { s with sched := { s.sched with beads := mmod Bead.zero s.sched.beads b f } }
/-- Beads that a slice holds. -/
def beadCount (s : State) (slice : Nat) : Nat := (s.sched.beads.filter fun b => b.2.state ≠ 0 && b.2.slice = slice).length
/-- The rod of a queue, with its number. -/
def rodOf (s : State) (q : Nat) : Option (Nat × Rod) := s.sched.rods.find? fun r => r.2.queue = q
/-- Write rod `r`. -/
def putRod (s : State) (r : Nat) (x : Rod) : State := { s with sched := { s.sched with rods := minsert s.sched.rods r x } }
/-- Remove rod `r`. -/
def dropRod (s : State) (r : Nat) : State := { s with sched := { s.sched with rods := mdel s.sched.rods r } }

/-- A bead becomes WAITING, last in the order (R410). -/
def beadWaits (s : State) (b : Nat) : State :=
  let s := modBead s b fun x => { x with state := 1 }
  { s with sched := { s.sched with order := (s.sched.order.filter (· ≠ b)) ++ [b] } }

/-- Set a bead's STATE to one other than WAITING. -/
def beadState (s : State) (b st : Nat) : State :=
  let s := modBead s b fun x => { x with state := st }
  { s with sched := { s.sched with order := s.sched.order.filter (· ≠ b) } }

/-- Beads of a queue's rod in a STATE, ascending. -/
def beadsIn (s : State) (slice q st : Nat) : List Nat :=
  (s.sched.beads.filter fun b => b.2.state = st && b.2.rod = q && b.2.slice = slice).map (·.1)

/-- The condition on a bead's pages (R410). -/
def beadFits (r : Rod) (b : Bead) : Bool := b.pos + r.reserve ≤ b.npages * r.pageTokens

/-- Build the rod of a step (R410): the state, the RUNNING beads ascending, and those flagged NEW. -/
def buildRod (s : State) (slice q : Nat) (r : Rod) : State × List Nat × List Nat :=
  let running := beadsIn s slice q 2
  let s := running.foldl (fun t b => modBead t b fun x => match x.upd with
    | some (kv, n, m) => { x with kvlist := kv, npages := n, maxpos := m, upd := none }
    | none => x) s
  let stay := running.filter fun b => beadFits r (beadOf s b)
  let s := (running.filter fun b => !(beadFits r (beadOf s b))).foldl (fun t b => beadState t b 3) s
  let s := ((stay.drop r.maxBeads).reverse).foldl beadWaits s
  let stay := stay.take r.maxBeads
  let s := ((beadsIn s slice q 3).filter fun b => beadFits r (beadOf s b)).foldl beadWaits s
  let waiting := s.sched.order.filter fun b => (beadOf s b).rod = q && (beadOf s b).slice = slice && (beadOf s b).state = 1
  let s := (waiting.filter fun b => !(beadFits r (beadOf s b))).foldl (fun t b => beadState t b 3) s
  let join := (waiting.filter fun b => beadFits r (beadOf s b)).take (r.maxBeads - stay.length)
  let s := join.foldl (fun t b => beadState t b 2) s
  (s, join.foldl sins stay, join)

/-- The manifest (R411). -/
def manifestBytes (s : State) (r : Rod) (all new : List Nat) : List Byte :=
  leBytes 2 all.length ++ leBytes 2 new.length ++ leBytes 4 0 ++ leBytes 8 (r.steps + 1) ++ List.replicate 48 0 ++
  all.flatMap fun b =>
    let x := beadOf s b
    leBytes 2 b ++ leBytes 1 (b2n (new.contains b)) ++ leBytes 1 0 ++ leBytes 4 x.pos ++ leBytes 4 0 ++ leBytes 4 x.npages ++
    leBytes 8 x.kvlist ++ leBytes 8 x.tag.toNat

/-- Write bytes at a Shuttle address of a context (R240): memory, or its Bolt region in the cluster of its last run. -/
def rodWrite (s : State) (slice c gen : Nat) (a : Word) (bs : List Byte) : State × Option Nat :=
  match shAddr a with
  | none => (s, some cPACKET_FORMAT)
  | some (.va va) => memWrite s (engWho s (lowestEng s slice (homeCluster s slice)) c gen 0) .va va bs
  | some (.bolt o) =>
    let k := ((ctxOf s c).home).getD (homeCluster s slice)
    match boltAt s k c gen o bs.length with
    | none => (s, some cBOLT_RANGE)
    | some p => let (s, bad) := boltWrite (boltSlot s k) k p bs; (s, if bad then some cPOISON else none)

/-- Read bytes at a Shuttle address of a context. -/
def rodRead (s : State) (slice c gen : Nat) (a : Word) (n : Nat) : State × Acc (List Byte) :=
  match shAddr a with
  | none => (s, .err cPACKET_FORMAT)
  | some (.va va) => memRead s (engWho s (lowestEng s slice (homeCluster s slice)) c gen 0) .va va n
  | some (.bolt o) =>
    let k := ((ctxOf s c).home).getD (homeCluster s slice)
    match boltAt s k c gen o n with
    | none => (s, .err cBOLT_RANGE)
    | some p =>
      let (s, bad) := boltChecked (boltSlot s k) k p n
      (s, if bad then .err cPOISON else .ok (boltRead s k p n))

/-- Open the rod of a queue (R410, R411): a manifest that cannot be written leaves every bead unchanged. -/
def openRod (s : State) (slice c gen q : Nat) : State × Option Nat :=
  match rodOf s q with
  | none => (s, none)
  | some (i, r) =>
    let (t, all, new) := buildRod s slice q r
    match rodWrite t slice c gen r.manifest (manifestBytes t r all new) with
    | (t, none) => (putRod t i { r with isOpen := true, steps := r.steps + 1, beads := all }, none)
    | (t, some code) => ({ t with sched := s.sched }, some code)

/-- The reason for which a bead leaves at a close, and the bead after it (R412). -/
def closeBead (x : Bead) (flags adv : Nat) : Bead × Option Nat :=
  if flags / 4 % 2 = 1 || 2 ^ 32 - 1 < x.pos + adv then ({ x with state := 5, leaveReq := false }, some 3)
  else
    let y := { x with pos := x.pos + adv }
    if flags / 2 % 2 = 1 then ({ y with state := 4, leaveReq := false }, some 0)
    else if y.maxpos ≠ 0 && y.maxpos ≤ y.pos then ({ y with state := 4, leaveReq := false }, some 1)
    else if y.leaveReq then ({ y with state := 4, leaveReq := false }, some 2)
    else (y, none)

/-- The close record (R413). -/
def closeRecord (leavers : List (Nat × Nat)) : List Byte :=
  leBytes 4 leavers.length ++ leBytes 4 0 ++ leavers.flatMap fun x => leBytes 4 (x.1 + x.2 * 2 ^ 30)

/-- Close a rod's open step: the beads updated from FLAGS and ADV, or all set to ERROR; those that leave with their reasons. -/
def closeRod (s : State) (slice c gen : Nat) (r : Rod) (err : Bool) : State × List (Nat × Nat) :=
  let n := r.beads.length
  let (s, got) : State × Option (List Byte) :=
    if err then (s, none)
    else match rodRead s slice c gen r.manifest (64 + 32 * n) with
      | (s, .ok bs) => (s, some bs)
      | (s, .err _) => (s, none)
  r.beads.zipIdx.foldl (fun acc x =>
    let (t, out) := acc
    let b := x.1
    let (y, why) := match got with
      | some bs => closeBead (beadOf t b) (natOfBytes ((bs.drop (64 + 32 * x.2 + 2)).take 1)) (natOfBytes ((bs.drop (64 + 32 * x.2 + 8)).take 4))
      | none => ({ beadOf t b with state := 5, leaveReq := false }, some 3)
    (modBead t b fun _ => y, match why with | some w => out ++ [(b, w)] | none => out)) (s, [])

/-- A rod after its close: a later configuration takes effect (R408). -/
def settleRod (s : State) (i : Nat) (r : Rod) : State :=
  let r := { r with isOpen := false, beads := [] }
  putRod s i (match r.later with
    | some (m, pt, rs, man) => { r with maxBeads := m, pageTokens := pt, reserve := rs, manifest := man, later := none }
    | none => r)

/-- A queue's step starts (R391): its rod opens, and its STEP_OPEN is done; a manifest that cannot be written fails the packet (R411). -/
def startStep (s : State) (q : Nat) : State :=
  match queueOf s q with
  | none => s
  | some x =>
    match openRod s (ctxOf s x.ctx).slice x.ctx x.gen q with
    | (s, some code) => finishRing (queueErr s q code) 1 (.queue q)
    | (s, none) => finishRing (modQueue s q fun y => { y with stepOpen := true, opening := false, gang := none }) 1 (.queue q)

end Sys2Proof.Machine
end

