-- ==== Sys2Proof/Machine/Switch.lean ====
section
/-! DEFINITION. Scheduling (13): homes and shares, the choice of a context for an engine, the context switch (R182 to R184), quantum
expiry (R396), and the spill and fill of a context state record with its Bolt region (R400 to R403). -/
namespace Sys2Proof.Machine

/-! ## Firmware processors and homes (R22, R452, R453) -/

/-- The scheduler that owns the lowest-numbered cluster of a slice: the home scheduler that its new contexts are given (R22, R453). -/
def homeSched (s : State) (slice : Nat) : Nat := homeCluster s slice / 8
/-- The home scheduler of a context is present; in direct mode the hardwired dispatcher serves (R417, R453, R459). -/
def schedUp (s : State) (c : Nat) : Bool := !(directCtx s (ctxOf s c).slice) && procUp s (ctxOf s c).sched

/-- A fenced engine, alone or with its cluster (R525). -/
def engFencedAny (s : State) (e : Nat) : Bool := s.fc.engFenced.contains e || s.fc.clFenced.contains (e / 4)
/-- An engine that a context may be placed on. -/
def engFree (s : State) (e : Nat) : Bool :=
  (engOf s e).ctx.isNone && (engOf s e).phase = .on && !(engFencedAny s e) && !s.fc.blockSafe && !(engOf s e).removing && s.lc.tap ≠ 3
/-- Idle engines of a slice. -/
def idleEngines (s : State) (slice : Nat) : List Nat := (dEngines (descOf s slice)).filter (engFree s)

/-! ## Scheduling accounts (R415, R419) -/

/-- Change the scheduling registers of a slice. -/
def modSlSched (s : State) (n : Nat) (f : SlSched → SlSched) : State :=
  { s with sched := { s.sched with sl := minsert s.sched.sl n (f (slSchedOf s n)) } }
/-- Change the account of a context. -/
def modAcc (s : State) (c : Nat) (f : CtxAcc → CtxAcc) : State := modCtx s c fun x => { x with acc := f x.acc }

/-- The scheduling class of the step that a context runs, or is about to start (R390): latency-critical or not. -/
def ctxLc (s : State) (c : Nat) : Bool :=
  match (ctxOf s c).prog with
  | some p => match p.ring with
    | .queue q => ((queueOf s q).map (·.lc)).getD false
    | .port _ => false
  | none => (((queuesOf s c (ctxOf s c).gen).find? fun q => q.2.opening || q.2.stepOpen).map fun q => q.2.lc).getD false

/-- A queue whose packet at HEAD can start (R415, R434). -/
def queueCanStart (q : Queue) : Bool := q.head ≠ q.tail && !q.busy && q.held.isNone && q.gang.isNone && !q.opening

/-- A context whose queues are of both classes runs one step at a time (R390): whether another queue than `q` has a step open, or about to
start. -/
def otherStep (s : State) (c q : Nat) : Bool :=
  let qs := queuesOf s c (ctxOf s c).gen
  (qs.any fun x => x.2.lc) && (qs.any fun x => !x.2.lc) && qs.any fun x => x.1 ≠ q && (x.2.stepOpen || x.2.opening)

/-- A context has a step open: of a queue, or its program's own where its LAUNCH stands outside a step (R391). -/
def stepOpenOf (s : State) (c : Nat) : Bool := (ctxOf s c).prog.isSome || (queuesOf s c (ctxOf s c).gen).any fun q => q.2.stepOpen

/-- A context is ready (R415). -/
def ctxReady (s : State) (c : Nat) : Bool :=
  let x := ctxOf s c
  x.state = .live && x.eng.isNone &&
  ((stepOpenOf s c && x.waitOn.isNone) || (queuesOf s c x.gen).any fun q => q.2.opening || queueCanStart q.2)

/-! ## Regions of contexts (R400 to R403) -/

/-- Granules of a cluster that a slice's firmware may hold (R401). -/
def shareOf (s : State) (slice c : Nat) : Nat :=
  128 * ((dEngines (descOf s slice)).filter fun e => e / 4 = c).length / s.cfg.epc

/-- Granules of a cluster held for a slice's contexts by regions that `keep` picks. -/
def heldFor (s : State) (slice c : Nat) (keep : BoltRegion → Bool) : Nat :=
  (clOf s c).regions.foldl (fun a r =>
    if (r.2.valid || r.2.clearing) && (ctxOf s r.2.ctx).slice = slice && keep r.2 then a + r.2.size else a) 0

/-- Granules of a cluster held for a slice's contexts. -/
def heldBy (s : State) (slice c : Nat) : Nat := heldFor s slice c fun _ => true

/-- A context that firmware may take a region from in cluster `c` (R402, R259). -/
def mayLose (s : State) (c n : Nat) : Bool :=
  let x := ctxOf s n
  (regionIn s c n x.gen).isSome && !(stepOpenOf s n) && x.eng.isNone && x.state ≠ .tearing &&
  !(s.asyncs.any fun a => a.ctx = n && a.gen = x.gen) &&
  !(s.clusters.any fun k => k.2.shuttle.any fun o => o.ctx = n && o.gen = x.gen)

/-- Whether firmware can give a context a region in a cluster of its slice, with the regions that R402 lets it release (R401, R402). -/
def canGive (s : State) (c k : Nat) : Bool :=
  let x := ctxOf s c
  let stays (r : BoltRegion) : Bool := r.clearing || (r.valid && !((ctxOf s r.ctx).slice = x.slice && mayLose s k r.ctx))
  (dEngines (descOf s x.slice)).any (fun e => e / 4 = k) && heldFor s x.slice k stays + x.bolt ≤ shareOf s x.slice k &&
  (List.range 128).any fun b => b + x.bolt ≤ 128 &&
    (clOf s k).regions.all fun r => !(stays r.2) || b + x.bolt ≤ r.2.base || r.2.base + r.2.size ≤ b

/-! ## Placement (R166, R395, R396, R400, R463) -/

/-- A context whose wait, if it was switched out in one, its condition would now end (R184). -/
def waitOver (s : State) (x : Ctx) : Bool :=
  match x.waitOn with
  | some w => w.ready.isSome || (waitResult s w).isSome
  | none => true

/-- A context that waits for an engine: it runs a program, or a step of it is about to start (R391), and it is in no wait. -/
def wantsEngine (s : State) (c : Nat) : Bool :=
  let x := ctxOf s c
  x.state = .live && x.eng.isNone && waitOver s x &&
  (match x.prog with
   | some p => !p.ended
   | none => (queuesOf s c x.gen).any fun q => q.2.opening)

/-- A context that can be placed on engine `e` (R166, R394). -/
def placeable (s : State) (e c : Nat) : Bool :=
  let x := ctxOf s c
  wantsEngine s c && dHasEngine (descOf s x.slice) e && (regionIn s (e / 4) c x.gen).isSome

/-- The engine that R400 chooses for a context: an idle one where it holds a region, in the cluster of its last run before others; then none
while an idle engine of another cluster can take it with a new region; then any that R397 obtains. -/
def chosen (s : State) (e c : Nat) : Bool :=
  let x := ctxOf s c
  let idle := idleEngines s x.slice
  let near := idle.filter fun i => (regionIn s (i / 4) c x.gen).isSome
  let last := near.filter fun i => x.home = some (i / 4)
  if last ≠ [] then last.contains e
  else if near ≠ [] then near.contains e
  else !(idle.any fun i => canGive s c (i / 4))

/-- The engines on which a context's steps are placed: while its scheduler is absent those of the scheduler's clusters (R463), in direct mode
all (R449). -/
def reaches (s : State) (c e : Nat) : Bool := schedUp s c || directCtx s (ctxOf s c).slice || e / 32 = (ctxOf s c).sched

/-- A context that can take engine `e` now; the dispatcher places without the order of R400. -/
def canTake (s : State) (e c : Nat) : Bool :=
  placeable s e c && reaches s c e && (!(schedUp s c) || chosen s e c)

/-- Whether context `c` is the one that takes engine `e` next, of those in the order in which they became ready: under firmware the first ready
context of its class, a best-effort one only where no ready latency-critical context can take the engine (R395, R396); under the dispatcher the
first of all (R463). -/
def takesNext (s : State) (e c : Nat) : Bool :=
  let cands := s.sched.ready.filter fun x => canTake s e x && (ctxOf s x).slice = (ctxOf s c).slice && schedUp s x == schedUp s c
  if schedUp s c then
    (cands.filter (ctxLc s)).head? = some c || ((cands.filter (ctxLc s)) = [] && cands.head? = some c)
  else cands.head? = some c

/-- `a` is no later than `b`: by PCLK, and in one PCLK by queue number (R422). -/
def noLater (a b : Nat × Nat) : Bool := a.1 < b.1 || (a.1 = b.1 && a.2 ≤ b.2)

/-- Put a context that became ready at `k` into the order in which contexts became ready (R396). -/
def addReadyAt (s : State) (c : Nat) (k : Nat × Nat) : State :=
  if s.sched.ready.contains c then s
  else
    let ahead := s.sched.ready.takeWhile fun d => noLater (mget (0, 0) s.sched.readyAt d) k
    { s with sched := { s.sched with ready := ahead ++ c :: s.sched.ready.drop ahead.length, readyAt := mset (0, 0) s.sched.readyAt c k } }

/-- A context becomes ready now, last in the order. -/
def addReady (s : State) (c : Nat) : State := addReadyAt s c (s.pclk, 8192)

/-- A context becomes ready for the step or LAUNCH at the head of a queue: since that packet could start (R396, R415). -/
def addReadyFor (s : State) (c : Nat) (r : RingId) : State :=
  match r with
  | .queue q => addReadyAt s c (((queueOf s q).map (·.since)).getD s.pclk, q)
  | .port _ => addReady s c

/-- Take a context from the ready order. -/
def dropReady (s : State) (c : Nat) : State :=
  { s with sched := { s.sched with ready := s.sched.ready.filter (· ≠ c) } }

/-- The engine that a latency-critical step takes from best-effort work (R397): among the BE engines of the slice outside `used`, first those in
a cluster where the context holds a region, the one whose run is longest. -/
def victimEngine (s : State) (used : List Nat) (c : Nat) : Option Nat :=
  let x := ctxOf s c
  let be := (dEngines (descOf s x.slice)).filter fun e =>
    let g := engOf s e
    g.ctx.isSome && !g.lcRun && !g.switchReq && !(engFencedAny s e) && !(used.contains e)
  let near := be.filter fun e => (regionIn s (e / 4) c x.gen).isSome
  let pick (l : List Nat) : Option Nat := l.foldl (fun b e => match b with
    | none => some e
    | some o => if (engOf s e).runStart < (engOf s o).runStart then some e else some o) none
  if near = [] then pick be else pick near

/-- An engine of a slice outside `used` that a context can take without a further request: idle, where it holds or can be given a region; or
about to switch, or in a wait, where it holds one (R397, R400). -/
def openEngine (s : State) (used : List Nat) (c : Nat) : Option Nat :=
  let x := ctxOf s c
  (dEngines (descOf s x.slice)).find? fun e =>
    let g := engOf s e
    let has := (regionIn s (e / 4) c x.gen).isSome
    !(used.contains e) && !g.removing &&
    ((engFree s e && (has || canGive s c (e / 4))) || (g.ctx.isSome && (g.switchReq || g.wait.isSome) && has))

/-- The requests of R397 for the ready latency-critical steps of a slice, in the order in which they became ready: where a step finds no engine
open to it, a best-effort engine is asked to switch. Each engine serves one of them. -/
def requestsForLc (slice : Nat) (s : State) : State :=
  let cs := s.sched.ready.filter fun c => (ctxOf s c).slice = slice && schedUp s c && wantsEngine s c && ctxLc s c
  (cs.foldl (fun (acc : State × List Nat) c =>
    match openEngine acc.1 acc.2 c with
    | some e => (acc.1, e :: acc.2)
    | none => match victimEngine acc.1 acc.2 c with
      | some e => (modEng acc.1 e fun g => { g with switchReq := true, preempt := true }, e :: acc.2)
      | none => acc) (s, [])).1

/-- The requests of R397 in every slice that has a ready context. -/
def lcRequests (s : State) : State :=
  if s.sched.ready = [] then s
  else ((s.sched.ready.map fun c => (ctxOf s c).slice).eraseDups).foldl (fun t n => requestsForLc n t) s

/-! ## The switch (R182 to R184) -/

/-- The context on an engine runs no program: its step has just started, or is between two LAUNCHes, or its last one is done. -/
def noProgram (s : State) (g : Engine) : Bool := (ctxOf s g.who.1).prog.isNone

/-- An engine at which a switch takes place now: idle; or asked to switch with its tile closed; or in a wait, which any ready
context may end (R182, R397); or holding a context without a program, which gives way to any ready context, and to none once no step of it is
open (DESIGN CHOICE, log 164). -/
def switchPoint (s : State) (g : Engine) (someIn : Bool) : Bool :=
  match g.ctx with
  | none => someIn
  | some _ => !g.tileOpen && (g.switchReq || (g.wait.isSome && someIn) || (noProgram s g && (someIn || !(stepOpenOf s g.who.1))))

/-- Save the state record of the outgoing context into its region of the cluster (R184). -/
def saveRecord (s : State) (e c gen : Nat) : State :=
  let g := engOf s e
  let x := ctxOf s c
  match regionIn s (e / 4) c gen with
  | some r => (boltWrite s (e / 4) (65536 * r.base) (recordBytes g g.wait.isSome (x.state = .faulted))).1
  | none => s

/-- Detach the context of an engine: its record saved, its registers gone from the engine, its scratchpad cleared (R183, R255). -/
def detach (s : State) (e : Nat) : State :=
  let g := engOf s e
  match g.ctx with
  | none => s
  | some (c, gen) =>
    let s := if (ctxOf s c).gen = gen then saveRecord s e c gen else s
    let s := modEng s e fun g => { Engine.idle with icache := g.icache, phase := g.phase, removing := g.removing, runStart := s.pclk }
    let x := ctxOf s c
    if x.gen ≠ gen then s
    else
      let s := modCtx s c fun y => { y with eng := none, home := some (e / 4), spilled := false,
                                            waitOn := if y.state = .live then g.wait else none }
      let going := x.state = .live && (x.prog.map fun p => !p.ended).getD false
      let s := if going && waitOver s (ctxOf s c) then addReady s c else s
      let s := if going && g.wait.isNone && g.preempt then
          modSlSched (modAcc s c fun a => { a with preempt := satAdd 0xFFFFFFFF a.preempt 1 }) x.slice fun a =>
            { a with preempt := satAdd 0xFFFFFFFF a.preempt 1 }
        else s
      tearAdvance (checkDone s c) c

/-- The word of a state record that cannot be read makes the switch carry POISON to the context (R274). -/
def recordBad (s : State) (c : Nat) : Bool :=
  let x := ctxOf s c
  match x.home.bind fun k => (regionIn s k c x.gen).map fun r => (k, r) with
  | some (k, r) => anyBad (clOf s k).boltBad (65536 * r.base) 1024
  | none => false

/-- Attach a context to an idle engine (R183, R184): its registers from the state record, its program's header fields, and the wait in
which it was switched out, evaluated again. The scratchpad is clear, whatever an instrument wrote into it (R183, R255). -/
def attach (s : State) (e c : Nat) : State :=
  let x := ctxOf s c
  let p := x.prog.getD ⟨0, 0, 0, 0, .port 0, 0, none, true⟩
  let w := x.waitOn.map fun w => { w with ready := waitResult s w }
  let lc := ctxLc s c
  let rec' := savedRecord s c
  let s := if recordBad s c then pushErr s c x.gen e cPOISON else s
  let s := modEng s e fun g =>
    { fromRecord g rec' with
      ctx := some (c, x.gen), bwclass := p.bwclass, uses := p.uses, codeBytes := p.codeBytes, wait := w, spad := [], spadBad := [],
      icache := if g.icache.all fun k => k.1 = x.slice then g.icache else [],
      runStart := s.pclk, quantum := none, lcRun := lc }
  let s := modCtx s c fun y => { y with eng := some e, home := some (e / 4), waitOn := none,
                                        acc := { y.acc with cur := 0 } }
  dropReady s c

/-- Place a context on an idle engine: the step whose STEP_OPEN waited for that starts (R391). -/
def place (s : State) (e c : Nat) : State :=
  ((queuesOf s c (ctxOf s c).gen).filter fun q => q.2.opening).foldl (fun t q => startStep t q.1) (attach s e c)

/-- CONTEXT_SWITCH (R182, R183): engine `e` gives up its context at a closed-tile boundary and takes `inc`, if one is named. -/
def execContextSwitch (e : Nat) (inc : Option Nat) (s : State) : Res :=
  unitRes (s.cfg.hasEngine e) s  -- else: no switch is due at the engine, or the context cannot take it
    (switchPoint s (engOf s e) inc.isSome && (engOf s e).phase = .on && !(boltAsleep s (e / 4)) &&
     (match inc with
      | none => true
      | some c => !(engFencedAny s e) && !s.fc.blockSafe && s.lc.tap ≠ 3 && !(engOf s e).removing && canTake s e c && takesNext s e c))
    (match inc with
     | none => lcRequests (detach s e)
     | some c => lcRequests (place (detach s e) e c))

/-- QUANTUM_EXPIRY (R396): the quantum of the engine's run, which its first instruction started, has passed; a switch is requested where another
context of the class is ready and holds or can be given a region there, else a new quantum starts. -/
def execQuantumExpiry (e : Nat) (s : State) : Res :=
  let g := engOf s e
  let slice := (ctxOf s g.who.1).slice
  let rival := s.sched.ready.any fun c =>
    c ≠ g.who.1 && (ctxOf s c).slice = slice && ctxLc s c = g.lcRun && wantsEngine s c &&
    ((regionIn s (e / 4) c (ctxOf s c).gen).isSome || canGive s c (e / 4))
  unitRes (s.cfg.hasEngine e) s  -- else: no quantum of the engine has expired under a scheduler
    (g.ctx.isSome && schedUp s g.who.1 && !g.switchReq && g.quantum.elim false (· ≤ s.pclk))
    (if rival then modEng s e fun g => { g with switchReq := true, preempt := true }
     else modEng s e fun g => { g with quantum := some (s.pclk + quantumOf s e) })

/-! ## The state record in the spill area (R403) -/

/-- STATE_RECORD_SPILL (R402, R403): context `need` needs a region in cluster `c` and the slice's share is full; the region of the
context whose last step ended longest ago is released after the cluster has saved its state record to the spill area. -/
def execStateRecordSpill (ctx c need : Nat) (s : State) : Res :=
  let x := ctxOf s ctx
  let y := ctxOf s need
  unitRes (c < s.cfg.clusters) s  -- else: firmware releases no such region here
    (schedUp s need && mayLose s c ctx && x.slice = y.slice && y.state = .live && need ≠ ctx &&
     (regionIn s c need y.gen).isNone && shareOf s x.slice c < heldBy s x.slice c + y.bolt &&
     (clOf s c).regions.all fun r => !(mayLose s c r.2.ctx && (ctxOf s r.2.ctx).slice = x.slice && (ctxOf s r.2.ctx).lastEnd < x.lastEnd))
    (let i := ((clOf s c).regions.find? fun r => r.2.valid && r.2.ctx = ctx && r.2.gen = x.gen).map (·.1)
     let s := if x.home = some c then
         let e := lowestEng s x.slice c
         let (t, err) := memWrite (boltSlot s c) (engWho s e ctx x.gen 0) .spa x.spill (savedRecord s ctx)
         let t := match firstErr err (if recordBad s ctx then some cPOISON else none) with
           | some code => pushErr t ctx x.gen e code
           | none => t
         modCtx t ctx fun z => { z with home := none, spilled := true }
       else s
     let s := match i with
       | some i => releaseRegion s c i
       | none => s
     modAcc s ctx fun a => { a with evict := satAdd 0xFFFF a.evict 1 })

/-- STATE_RECORD_FILL (R400, R401, R403): firmware gives a context a region in a cluster, entry `i` at granule `base`; the cluster
reads a spilled state record back into its first bytes. -/
def execStateRecordFill (ctx c i base : Nat) (s : State) : Res :=
  let x := ctxOf s ctx
  unitRes (c < s.cfg.clusters) s  -- else: firmware gives no such region here
    (schedUp s ctx && x.state = .live && i < 64 && base + x.bolt ≤ 128 && (regionIn s c ctx x.gen).isNone &&
     ((dEngines (descOf s x.slice)).any fun e => e / 4 = c) &&
     !(boltRegion s c i).valid && !(boltRegion s c i).clearing &&
     ((clOf s c).regions.all fun r => !((r.2.valid || r.2.clearing) && r.2.base < base + x.bolt && base < r.2.base + r.2.size)) &&
     heldBy s x.slice c + x.bolt ≤ shareOf s x.slice c)
    (let s := modBoltRegion (boltSlot s c) c i fun _ => ⟨true, false, ctx, x.gen, base, x.bolt⟩
     if x.spilled then
       let who := engWho s (lowestEng s x.slice c) ctx x.gen 0
       let (s, got) := memRead s who .spa x.spill 1024
       let s := match got with
         | .ok bs => (boltWrite s c (65536 * base) bs).1
         | .err code => pushErr s ctx x.gen who.attr.master code
       modCtx s ctx fun y => { y with spilled := false, home := some c }
     else if x.home.isNone then modCtx s ctx fun y => { y with home := some c }
     else s)

end Sys2Proof.Machine
end

