-- ==== Sys2Proof/Machine/Rings.lean ====
section
/-! DEFINITION. Rings and Warp packets (14): doorbells, fetches, the checks that every packet meets (R433 to R438), launches (R169,
R170), fence packets, invalidation and negotiation. -/
namespace Sys2Proof.Machine

/-! ## Doorbells (R71, R428, R429) -/

/-- TAIL − HEAD of two free-running counts. -/
def countDiff (a b : Nat) : Nat := (2 ^ 32 + a - b % 2 ^ 32) % 2 ^ 32

/-- A new TAIL that R429 accepts. -/
def tailOk (cap tail oldTail head : Nat) : Bool := countDiff tail head ≤ cap && countDiff tail oldTail ≤ cap

/-- Bit `p` of HOSTS of a slice that is not FREE. -/
def portMay (s : State) (p slice : Nat) : Bool :=
  (sliceOf s slice).state ≠ .free && dHosts (descOf s slice) / 2 ^ p % 2 = 1

/-- The packets that one doorbell posted to a queue, up to its TAIL, are not all done. -/
def unspent (s : State) (x : Nat × Nat) : Bool :=
  match queueOf s x.1 with
  | some q => countDiff q.tail x.2 < countDiff q.tail q.head
  | none => false

/-- A doorbell's packets join the order in which packets were posted (R417, R463), after those of state `old` that are not done. -/
def posted (s old : State) (q tail : Nat) : State :=
  { s with sched := { s.sched with fifo := old.sched.fifo.filter (unspent old) ++ [(q, tail)] } }

/-- QUEUE_DOORBELL (R71, R429): host port `p` writes HP_DOORBELLp. -/
def execQueueDoorbell (p queue tail : Nat) (s : State) : Res :=
  let s := awake s
  let tail := tail % 2 ^ 32
  let foreign := modRing s p fun r => { r with foreign := satAdd 65535 r.foreign 1 }
  hereRes (p < s.cfg.hostPorts)
    (if portDead s p then inbAbort s p else match queueOf s (queue % 8192) with
     | none => foreign
     | some q =>
       let x := ctxOf s q.ctx
       if q.port ≠ p || !(portMay s p x.slice) || x.state = .tearing || (sliceOf s x.slice).state = .dissolving then foreign
       else if !(tailOk (64 * 2 ^ q.sizeCode) tail q.tail q.head) then
         modRing s p fun r => { r with badtail := satAdd 65535 r.badtail 1 }
       else posted (modQueue s (queue % 8192) fun q => { q with tail := tail, since := if q.head = q.tail then s.pclk else q.since }) s (queue % 8192) tail)

/-- PORT_RING_DOORBELL (R429, R431): host port `p` writes HP_PRING_TAILp; an accepted one restarts a pending fetch. -/
def execPortRingDoorbell (p tail : Nat) (s : State) : Res :=
  let s := awake s
  let tail := tail % 2 ^ 32
  let r := ringOf s p
  hereRes (p < s.cfg.hostPorts)
    (if portDead s p then inbAbort s p else if !r.en then s
     else if !(tailOk (64 * 2 ^ r.sizeCode) tail r.tail r.head) then
       modRing s p fun r => { r with badtail := satAdd 65535 r.badtail 1 }
     else ringFetch (modRing s p fun r => { r with tail := tail, fetchPending := false }) p)

/-- PORT_RING_ENABLE (R431): a write to HP_PRING_CTLp; EN from 0 to 1 sets HEAD and TAIL to 0. -/
def execPortRingEnable (p : Nat) (en : Bool) (sizeCode : Nat) (s : State) : Res :=
  let s := awake s
  hereRes (p < s.cfg.hostPorts)
    (if portDead s p then inbAbort s p else if 12 < sizeCode % 16 then s
     else modRing s p fun r =>
       if r.en then { r with en := en }
       else if en then { r with en := true, sizeCode := sizeCode % 16, head := 0, tail := 0, fetchPending := false }
       else { r with sizeCode := sizeCode % 16 })

/-- PORT_RING_FETCH (R434, R436): the packet at the ring's HEAD has arrived from host memory; its processing follows. -/
def execPortRingFetch (p : Nat) (s : State) : Res :=
  unitRes (p < s.cfg.hostPorts) s  -- else: no packet of the port ring has arrived
    (((hportOf s p).tags.any fun t => t.reader = .ring && t.got.length = 64) && (ringOf s p).pkt.isNone)
    (match (hportOf s p).tags.find? fun t => t.reader = .ring with
     | some t =>
       let s := modHport s p fun h => { h with tags := h.tags.filter fun x => x.num ≠ t.num }
       modRing s p fun r => { r with pkt := some (wordsOf t.got) }
     | none => s)

/-- HEAD_WRITE (R430): a queue's HEAD is written at HEAD_ADDR after it changed. -/
def execHeadWrite (q : Nat) (s : State) : Res :=
  match queueOf s q with
  | none => .next s  -- no such queue
  | some x =>
    guardRes s (x.head ≠ x.headSeen)
      (modQueue (memWrite s (blockWho (ctxOf s x.ctx).slice) .spa x.headAddr (leBytes 8 x.head)).1 q fun y =>
        { y with headSeen := x.head })

/-! ## Packets (R433 to R438) -/

/-- What the packet tables give a TYPE: its feature, and the bits of each word it assigns beyond TYPE and NOTIFY on a queue
ring and on a port ring; none where that kind of ring does not take it. -/
structure PktInfo where
  feature : Nat
  queue : Option (List Nat)
  port : Option (List Nat)

/-- `n` ones from bit `lo`. -/
def ones (lo n : Nat) : Nat := (2 ^ n - 1) * 2 ^ lo

/-- The packet tables of R435, R436 and R438. -/
def pktInfo (ty : Nat) : Option PktInfo :=
  let w := ones 0 64
  let f := ones 0 18
  match ty with
  | 0x00 => some ⟨0, some [], some []⟩
  | 0x01 => some ⟨1, some [ones 16 8, w], none⟩
  | 0x02 => some ⟨1, some [0, w, ones 63 1 + f, w], none⟩
  | 0x10 => some ⟨0, some [ones 18 46 + ones 16 1, w, w, w, w, w, w, w], some [ones 18 46 + ones 16 1, w, w, w, w, w, w]⟩
  | 0x11 => some ⟨0, some [0, w], some [0, w, w]⟩
  | 0x20 => some ⟨0, some [0, f, w], some [0, f, w]⟩
  | 0x21 => some ⟨0, some [0, f, w], some [0, f, w]⟩
  | 0x22 => some ⟨0, some [ones 16 16, f], some [ones 16 16, f]⟩
  | 0x30 => some ⟨1, some [ones 16 1, w, ones 0 32], none⟩
  | 0x40 => some ⟨2, some [ones 16 1, ones 0 13 + ones 16 32, w], none⟩
  | 0x41 => some ⟨2, some [0, w, ones 0 32, ones 0 52, w, w], none⟩
  | 0x42 => some ⟨2, some [ones 16 16, w, ones 0 52], none⟩
  | 0x43 => some ⟨2, some [ones 16 16], none⟩
  | 0x44 => some ⟨2, some [ones 16 16], none⟩
  | 0x80 => some ⟨0, none, some [0, w, w, 0, 0, w, w]⟩
  | 0x81 => some ⟨1, none, some [ones 16 11 + ones 28 5, w, w, w, ones 0 30, w]⟩
  | 0x82 => some ⟨1, none, some [ones 16 11 + ones 32 8]⟩
  | 0x83 => some ⟨1, none, some [ones 16 11 + ones 32 9 + ones 44 4, w, w]⟩
  | 0x84 => some ⟨1, none, some [ones 16 13]⟩
  | 0x85 => some ⟨1, none, some [ones 16 13]⟩
  | 0x86 => some ⟨1, none, some [ones 16 11 + ones 32 9, w]⟩
  | 0x87 => some ⟨1, none, some [0, f]⟩
  | 0x88 => some ⟨0, none, some [0, f]⟩
  | 0x89 => some ⟨1, none, some [ones 16 11 + ones 32 16, w, w]⟩
  | 0x8A => some ⟨1, none, some [ones 16 12]⟩
  | _ => none

/-- Every bit outside the assigned ones is zero, in the first `n` words (R433). -/
def bitsLegal (ws : List Word) (masks : List Nat) (n : Nat) : Bool :=
  (List.range n).all fun i =>
    let m := masks.getD i 0 + (if i = 0 then 511 else 0)
    (ws.getD i 0).toNat &&& m = (ws.getD i 0).toNat

/-- What a packet's body answers: done, with RESULT; failed with a code, no effect taken; its effect is under way and the ring
holds it; HEAD passes it and its status follows; it cannot start yet. -/
inductive PRes where
  | done (s : State) (result : Nat)
  | fail (s : State) (code : Nat)
  | hold (s : State)
  | pass (s : State)
  | stall (s : State)

/-- A packet being processed: its ring and words; the port, slice, context and generation it acts for; the code of a queue in the
error state. -/
structure Pkt where
  ring : RingId
  ws : List Word
  port : Nat
  slice : Nat
  ctx : Nat
  gen : Nat
  err : Option Nat

/-- Word `i` of a packet. -/
def Pkt.w (k : Pkt) (i : Nat) : Word := k.ws.getD i 0

/-- The packets that a queue in the error state skips (R437). -/
def skipped (ty : Nat) : Bool := [0x10, 0x11, 0x01, 0x21, 0x30, 0x40, 0x41, 0x42, 0x43, 0x44].contains ty

/-- Where the status word of a port ring's packet goes (R436). -/
def statusOf (s : State) (p k : Nat) (ws : List Word) : StatusAt :=
  ⟨p, slotAddr (ringOf s p) (k) + 56, bit (ws.getD 0 0) 8⟩

/-- Complete a packet of a ring (R434, R436, R437). -/
def endPacket (k : Pkt) : PRes → Res
  | .stall s => settle s
  | .hold s => settle s
  | .pass s => settle (finishRing s 1 k.ring)
  | .done s result =>
    match k.ring with
    | .queue _ => settle (finishRing s 1 k.ring)
    | .port p => settle (finishRing (writeStatus s (statusOf s p (ringOf s p).head k.ws) 0 result) 1 k.ring)
  | .fail s code =>
    match k.ring with
    | .queue q => settle (finishRing (queueErr s q code) 1 k.ring)
    | .port p => settle (finishRing (writeStatus s (statusOf s p (ringOf s p).head k.ws) (codeKey code) 0) 1 k.ring)

/-- A feature in a port's agreed bitmap (R438). -/
def agreedHas (s : State) (p feature : Nat) : Bool := ((ringOf s p).agreed.getD 0) / 2 ^ feature % 2 = 1

/-- The feature that a packet needs (R438). -/
def featureOf (i : PktInfo) (ty : Nat) (ws : List Word) : Nat := if ty = 1 && field (ws.getD 0 0) 16 8 ≠ 0 then 3 else i.feature

/-- The first check of a packet that fails (R433, R438, R442). -/
def packetFault (s : State) (k : Pkt) (ty : Nat) : Option Nat :=
  let isPort := match k.ring with | .port _ => true | .queue _ => false
  if isPort && (ringOf s k.port).agreed.isNone && ty ≠ 0x80 then some cNOT_NEGOTIATED
  else match pktInfo ty with
    | none => some cPACKET_FORMAT
    | some i =>
      if ty ≠ 0x80 && !(agreedHas s k.port (featureOf i ty k.ws)) then some cNOT_NEGOTIATED
      else if isPort && (ty = 0x10 || ty = 0x11) && !(directCtx s 0) then some cPACKET_FORMAT
      else match (if isPort then i.port else i.queue) with
        | none => some cPACKET_FORMAT
        | some m => if bitsLegal k.ws m (if isPort then 7 else 8) then none else some cPACKET_FORMAT

/-- A LAUNCH with EXT = 1 that no LAUNCH_EXT follows fails with PACKET_FORMAT (R435). -/
def dropExt (s : State) (k : Pkt) (follows : Bool) : State :=
  if follows then s
  else match k.ring with
    | .queue q =>
      if ((queueOf s q).map (·.ext.isSome)).getD false then finishRing (queueErr s q cPACKET_FORMAT) 1 k.ring else s
    | .port p => match (ringOf s p).ext with
      | some (_, _, at') =>
        let s := writeStatus s at' cPACKET_FORMAT 0
        modRing s p fun r => { r with ext := none, head := (r.head + 1) % 2 ^ 32 }
      | none => s

/-- The engine and cluster a launch uses: those of the context where it is on an engine already; in direct mode the lowest-numbered idle
engine (R449); else a cluster where the context holds a Bolt region, its last one first (R400). -/
def launchPlace (s : State) (c : Nat) : Option (Nat × Nat) :=
  let x := ctxOf s c
  if let some e := x.eng then some (e, e / 4)
  else if directCtx s x.slice then (idleEngines s x.slice).head?.map fun e => (e, e / 4)
  else
    let has (k : Nat) : Bool := (regionIn s k c x.gen).isSome
    match x.home.filter has with
    | some k => some (lowestEng s x.slice k, k)
    | none => ((List.range s.cfg.clusters).find? has).map fun k => (lowestEng s x.slice k, k)

/-- Queue `q` waits for the packet at the head of queue `j` under one absent scheduler (R463): the packet can start, and its context runs no
program, is in no other step and has an engine to run on. -/
def waitsFor (s : State) (q j : Nat) : Bool :=
  match queueOf s q, queueOf s j with
  | some x, some y =>
    let c := ctxOf s y.ctx
    c.gen = y.gen && c.sched = (ctxOf s x.ctx).sched && (c.state = .live || c.state = .faulted) && (sliceOf s c.slice).state ≠ .dissolving &&
    queueCanStart y && c.prog.isNone && !(otherStep s y.ctx j) && (launchPlace s y.ctx).isSome
  | _, _ => false

/-- Whether queue `q` may start the packet at its head: under its scheduler always; under the dispatcher first in, first out across the queues of
that scheduler (R417, R463; DEDUCED, log 188). -/
def queueTurn (s : State) (q : Nat) : Bool :=
  schedUp s (((queueOf s q).map (·.ctx)).getD 0) ||
  ((s.sched.fifo.filter (unspent s)).takeWhile fun y => y.1 ≠ q).all fun y => !(waitsFor s q y.1)

/-- Process the packet of TYPE `ty` that stands at the head of ring `r`, with words `ws`, one packet at a time (R434). -/
def packet (ok : Nat → Bool) (r : RingId) (ws : List Word) (body : State → Pkt → PRes) (s : State) : Res :=
  let ty := field (ws.getD 0 0) 0 8
  if !(ok ty) then .next s  -- the packet is of another TYPE
  else match r with
    | .queue q =>
      match queueOf s q with
      | none => .next s  -- no such queue
      | some x =>
        let c := ctxOf s x.ctx
        if !(queueCanStart x && queueTurn s q && c.gen = x.gen && (c.state = .live || c.state = .faulted) &&
             (sliceOf s c.slice).state ≠ .dissolving && (x.ext.isNone || 2 ≤ countDiff x.tail x.head)) then
          .next s  -- no packet of the queue can start
        else
          let k : Pkt := ⟨r, ws, x.port, c.slice, x.ctx, x.gen, none⟩
          let s := dropExt s k (ty = 0x11 && (packetFault s k ty).isNone)
          let k := { k with err := ((queueOf s q).bind fun y => if y.err then some y.code else none) }
          if k.err.isSome && skipped ty then endPacket k (.done s 0)
          else match packetFault s k ty with
            | some code => endPacket k (.fail s code)
            | none => endPacket k (body s k)
    | .port p =>
      let x := ringOf s p
      if s.cfg.hostPorts ≤ p then .fault .absentUnit
      else if !(x.en && !x.busy && x.pkt = some ws && portServer s ≠ .nobody &&
                (directCtx s 0 || portServer s = .firmware || ((pktInfo ty).map fun i => decide (i.feature = 0)).getD false)) then
        .next s  -- no packet of the port ring is processed
      else
        let k : Pkt := ⟨r, ws, p, 0, p, (ctxOf s p).gen, none⟩
        let s := dropExt s k (ty = 0x11 && (packetFault s k ty).isNone)
        match packetFault s k ty with
        | some code => endPacket k (.fail s code)
        | none => endPacket k (body s k)

/-- WARP_NOP (R435): no effect; a packet of a TYPE that no row has is completed here with PACKET_FORMAT. -/
def execWarpNop (r : RingId) (ws : List Word) (s : State) : Res :=
  packet (fun ty => ty = 0 || (pktInfo ty).isNone) r ws (fun s _ => .done s 0) s

/-! ## Launch (R167 to R170, R434, R435, R449) -/

/-- A slice holds a Shuttle: it holds every engine of some cluster (R40). -/
def hasShuttle (s : State) (slice : Nat) : Bool :=
  (List.range s.cfg.clusters).any fun k => (List.range s.cfg.epc).all fun j => dHasEngine (descOf s slice) (4 * k + j)

/-- The header fields of a program whose header meets R167 and R170: BWCLASS, USES, CODE_BYTES and ENTRY. -/
def headerOf (bs : List Byte) (boltBytes : Nat) (desc : List Word) (shuttle : Bool) : Option (Nat × Nat × Nat × Nat) :=
  let n (o l : Nat) : Nat := natOfBytes ((bs.drop o).take l)
  let code := n 8 4
  let entry := n 12 4
  let uses := n 6 1
  if n 0 4 = 0x57460031 && n 4 1 = 1 && n 5 1 < 8 && uses < 8 && n 7 1 = 0 && code % 16 = 0 && 16 ≤ code && code ≤ 2 ^ 24 &&
     entry % 16 = 0 && 64 ≤ entry && entry ≤ 64 + code - 16 && n 16 4 ≤ boltBytes && n 20 2 ≤ field ckVersion 0 16 &&
     n 22 42 = 0 && (uses / 2 % 2 = 0 || dLinks desc ≠ 0) && (uses % 2 = 0 || shuttle) then
    some (n 5 1, uses, code, entry)
  else none

/-- The registers of a program at its launch (R169): s1 to s8, PC and STEP. -/
def launchRegs (hdr entry step : Nat) (args : List Word) : Engine :=
  { Engine.idle with s := tableOf 0 32 fun r => if 1 ≤ r && r ≤ 8 then args.getD (r - 1) 0 else 0,
                     pc := hdr + entry, step := step, hdr := hdr }

/-- The engine that holds a context has been asked to give it up, by PEND among others, and the switch is due (R182, R185). -/
def leaving (s : State) (c : Nat) : Bool := (ctxOf s c).eng.any fun e => (engOf s e).switchReq

/-- Start a checked program: on the engine that holds the context, in a step between two LAUNCHes; else from the state record in its Bolt
region, in direct mode at once on its engine and under firmware once it is placed (R169, R184, R391). -/
def startProgram (s : State) (c e k base : Nat) (held : Bool) (regs : Engine) : State :=
  let x := ctxOf s c
  let p := x.prog.getD ⟨0, 0, 0, 0, .port 0, 0, none, true⟩
  if held then
    modEng s e fun g =>
      { g with s := regs.s, d := regs.d, p := regs.p, t := [], pc := regs.pc, step := regs.step, hdr := regs.hdr, pended := false,
               bwclass := p.bwclass, uses := p.uses, codeBytes := p.codeBytes }
  else
    let s := (boltWrite s k base (recordBytes regs false false)).1
    if directCtx s x.slice then attach s e c else lcRequests (addReadyFor s c p.ring)

/-- A queue's LAUNCH meets another step of its context that is open or about to start (R390). -/
def launchBarred (s : State) (r : RingId) (c : Nat) : Bool :=
  match r with
  | .queue q => otherStep s c q
  | .port _ => false

/-- Launch a program for context `c` (R169, R170): a header that breaks a rule faults the context and starts nothing. -/
def startLaunch (s : State) (r : RingId) (c hdr : Nat) (args : List Word) (packets : Nat) (status : Option StatusAt) : PRes :=
  let x := ctxOf s c
  if x.prog.isSome then .stall s  -- the context runs a program
  else if x.state ≠ .live then .stall s  -- the context is not LIVE
  else if leaving s c then .stall s  -- the context has not left its engine
  else if launchBarred s r c then .stall s  -- another step of the context is open
  else match launchPlace s c with
    | none => .stall s  -- no engine is idle, or the context holds no Bolt region yet
    | some (e, k) =>
      match regionIn s k c x.gen with
      | none => .stall s  -- the context's Bolt region is being cleared
      | some rg =>
        let step := match x.eng with
          | some e => (engOf s e).step
          | none => (fromRecord Engine.idle (savedRecord s c)).step
        let s := modCtx s c fun y => { y with prog := some ⟨hdr, 0, 0, 0, r, packets, status, false⟩, home := some k }
        let s := match r with
          | .queue q => modQueue s q fun y => { y with busy := true }
          | .port p => modRing s p fun y => { y with busy := true }
        match memRead s (engWho s e c x.gen 0) .va hdr 64 with
        | (s, .err code) =>
          .hold (checkDone (faultCtx s e c x.gen (codeOfFence code).1 (codeOfFence code).2 hdr false) c)
        | (s, .ok bs) =>
          match headerOf bs (65536 * rg.size - 1024) (descOf s x.slice) (hasShuttle s x.slice) with
          | none => .hold (checkDone (faultCtx s e c x.gen 10 0 0 false) c)
          | some (bw, uses, code, entry) =>
            let s := modCtx s c fun y => { y with prog := some ⟨hdr, bw, uses, code, r, packets, status, false⟩ }
            .hold (startProgram s c e k (65536 * rg.base) x.eng.isSome (launchRegs hdr entry step args))

/-- Header address of a LAUNCH. -/
def launchHdr (k : Pkt) : Nat := field (k.w 0) 18 46 * 64

/-- LAUNCH (R435): with EXT = 1 it waits for the LAUNCH_EXT behind it. -/
def execLaunch (r : RingId) (ws : List Word) (s : State) : Res :=
  packet (· = 0x10) r ws (fun s k =>
    match r with
    | .queue q =>
      let args := (List.range 7).map fun i => k.w (i + 1)
      if bit (k.w 0) 16 then .hold (modQueue s q fun x => { x with ext := some (launchHdr k, args) })
      else startLaunch s r k.ctx (launchHdr k) args 1 none
    | .port p =>
      let args := (List.range 6).map fun i => k.w (i + 1)
      let at' := statusOf s p (ringOf s p).head ws
      if bit (k.w 0) 16 then
        .hold (ringFetch (modRing s p fun x => { x with ext := some (launchHdr k, args, at'), pkt := none }) p)
      else startLaunch s r p (launchHdr k) args 1 (some at')) s

/-- LAUNCH_EXT (R435): supplies s8, and on a port ring s7; without a LAUNCH with EXT = 1 before it, PACKET_FORMAT. -/
def execLaunchExt (r : RingId) (ws : List Word) (s : State) : Res :=
  packet (· = 0x11) r ws (fun s k =>
    match r with
    | .queue q =>
      match (queueOf s q).bind (·.ext) with
      | some (hdr, args) => startLaunch s r k.ctx hdr (args ++ [k.w 1]) 2 none
      | none => .fail s cPACKET_FORMAT
    | .port p =>
      match (ringOf s p).ext with
      | some (hdr, args, at') =>
        match startLaunch s r p hdr (args ++ [k.w 2, k.w 1]) 2 (some at') with
        | .hold t => .hold (writeStatus t (statusOf s p ((ringOf s p).head + 1) ws) 0 0)
        | x => x
      | none => .fail s cPACKET_FORMAT) s

/-! ## Fence packets (R435, R436, R439 to R445) -/

/-- Whether a packet may name a fence (R435, R436, R443): it exists, in the queue's slice or in a slice that lists the port. -/
def fenceMay (s : State) (k : Pkt) (f : Nat) : Bool :=
  let x := fenceOf s f
  fenceHalf f < s.cfg.halves && x.state ≠ 0 &&
  (match k.ring with | .queue _ => x.slice = k.slice | .port p => portMay s p x.slice)

/-- A fence operation of a packet of host port `p` goes to its bank through the Tally port of the host port (R267, R269). -/
def fenceOp (s : State) (p f : Nat) (kind : TKind) (v : Word) : State :=
  let h := fenceHalf f
  tallyEnqueue s h (hostTallyPort s.cfg h p) ⟨kind, 16 * (f % 131072), v, 0, 0, .none, 0⟩

/-- A fence that firmware or the dispatcher reads through the control port (R267, R269): one of which a word is uncorrectable takes its code
(R274). -/
def fenceRead (s : State) (f : Nat) : State :=
  let h := fenceHalf f
  let off := 16 * (f % 131072)
  let s := portSlot s h (controlPort s.cfg h)
  if tallyBad (tallyOf s h) off then tallyBadWord s h off else s

/-- SIGNAL (R435): MAX of the fence; from a queue in the error state the queue's code is attached instead (R437). -/
def execSignal (r : RingId) (ws : List Word) (s : State) : Res :=
  packet (· = 0x20) r ws (fun s k =>
    let f := field (k.w 1) 0 18
    if !(fenceMay s k f) then .fail s cPERMISSION
    else match k.err with
      | some code => .done (fenceOp s k.port f .seterr (BitVec.ofNat 64 code)) 0
      | none => .done (fenceOp s k.port f .max (k.w 2)) 0) s

/-- What a WAIT of `v` on a fence finds at once: its result, if it is released (R440, R445). -/
def waitNow (s : State) (f : Nat) (v : Word) : Option Nat :=
  let x := fenceOf s f
  if x.state = 2 then some x.code else if v.toNat ≤ x.value.toNat then some 0 else none

/-- WAIT (R435, R436, R445): holds a queue, or becomes a host wait that holds nothing. -/
def execWait (r : RingId) (ws : List Word) (s : State) : Res :=
  packet (· = 0x21) r ws (fun s k =>
    let f := field (k.w 1) 0 18
    if !(fenceMay s k f) then .fail s cPERMISSION
    else
      let s := orphanCheck (fenceRead s f) f (k.w 2)
      let w : FenceWait := ⟨f, k.w 2, waitNow s f (k.w 2)⟩
      match r with
      | .queue q => .hold (modQueue s q fun x => { x with held := some w })
      | .port p => .pass (modRing s p fun x => { x with waits := x.waits ++ [(w, statusOf s p x.head ws)] })) s

/-- WAIT_RELEASE (R440): a held WAIT of a queue, or host wait `i` of a port, is released with 0 or with the fence's code. -/
def execWaitRelease (r : RingId) (i : Nat) (s : State) : Res :=
  match r with
  | .queue q =>
    match (queueOf s q).bind (·.held) with
    | some ⟨_, _, some code⟩ =>
      let s := if code = 0 then modQueue s q fun x => { x with held := none } else queueErr s q code
      settle (finishRing s 1 r)
    | _ => .next s  -- no WAIT of the queue is released
  | .port p =>
    if s.cfg.hostPorts ≤ p then .fault .absentUnit
    else match (ringOf s p).waits[i]? with
      | some (⟨_, _, some code⟩, at') =>
        settle (writeStatus (modRing s p fun x => { x with waits := x.waits.eraseIdx i }) at' code 0)
      | _ => .next s  -- no host wait is released

/-- ERROR (R435): the fence enters the error state with a tenant's code; CODE lies in 0x8000 to 0xFFFF. -/
def execError (r : RingId) (ws : List Word) (s : State) : Res :=
  packet (· = 0x22) r ws (fun s k =>
    let f := field (k.w 1) 0 18
    let code := field (k.w 0) 16 16
    if code < 0x8000 then .fail s cPACKET_FORMAT
    else if !(fenceMay s k f) then .fail s cPERMISSION
    else .done (fenceOp s k.port f .seterr (BitVec.ofNat 64 code)) 0) s

/-- FENCE_CLEAR (R443): an error returns to LIVE with CODE 0, VALUE unchanged. -/
def execFenceClear (r : RingId) (ws : List Word) (s : State) : Res :=
  packet (· = 0x88) r ws (fun s k =>
    let f := field (k.w 1) 0 18
    if !(fenceMay s k f) then .fail s cPERMISSION
    else
      let s := portSlot s (fenceHalf f) (controlPort s.cfg (fenceHalf f))
      .done (if (fenceOf s f).state = 2 then modFence s f fun x => { x with state := 1, code := 0 } else s) 0) s

/-! ## Invalidation and negotiation (R70, R435, R438) -/

/-- Requests of a context translated earlier have drained (R70): none of them still waits for its line. -/
def drainedCtx (s : State) (c : Nat) : Bool :=
  s.sv.ports.all fun p => p.2.tags.all fun t => t.wait.isNone || t.attr.ctx ≠ c || t.attr.slice ≠ (ctxOf s c).slice || t.attr.kind = 3

/-- INVALIDATE (R70, R435): cached stage-1 translations of the context go, all or those of the named pages. -/
def execInvalidate (r : RingId) (ws : List Word) (s : State) : Res :=
  packet (· = 0x30) r ws (fun s k =>
    let all := bit (k.w 0) 16
    let va := (k.w 1).toNat
    let n := field (k.w 2) 0 32
    if (all && (va ≠ 0 || n ≠ 0)) || va % 65536 ≠ 0 then .fail s cPACKET_FORMAT
    else if !(drainedCtx s k.ctx) then .stall s  -- requests of the context translated earlier have not drained
    else .done { s with atu := s.atu.filter fun a =>
      !(a.ctx = k.ctx && a.gen = k.gen && (all || (va / 65536 ≤ a.page && a.page < va / 65536 + n))) } 0) s

/-- The features that whoever processes the port rings offers (R438). -/
def offer (s : State) : Nat := if portServer s = .firmware then 0xF else 1

/-- FEATURES (R438): the agreed bitmap is the AND of the offer and the driver's, written into W5 and W6. -/
def execFeatures (r : RingId) (ws : List Word) (s : State) : Res :=
  packet (· = 0x80) r ws (fun s k =>
    match (ringOf s k.port).agreed with
    | some _ => .fail s cSTATE
    | none =>
      let a := offer s &&& ((k.w 1).toNat + (k.w 2).toNat * 2 ^ 64)
      let s := modRing s k.port fun x => { x with agreed := some a }
      .done (hostPost s k.port (slotAddr (ringOf s k.port) (ringOf s k.port).head + 40) (leBytes 16 a)) 0) s

end Sys2Proof.Machine
end

