-- ==== Sys2Proof/Machine/Beads.lean ====
section
/-! DEFINITION. Batch steps, gangs, rods and beads (R391, R392, R405 to R414, R420, R437). -/
namespace Sys2Proof.Machine

/-! ## Steps (R391, R412, R413, R435) -/

/-- Count a step close (R416). -/
def countStep (s : State) (slice c : Nat) : State :=
  let s := modSlSched s slice fun a => { a with steps := satAdd 0xFFFFFFFF a.steps 1 }
  let s := modAcc s c fun a => { a with steps := satAdd 0xFFFFFFFF a.steps 1, cur := 0 }
  modCtx s c fun x => { x with lastEnd := s.pclk }

/-- The rod of a closing step, if one is open: its beads settle and its close record is written at `rec'` (R412, R413). -/
def closeStep (s : State) (k : Pkt) (rod : Option (Nat × Rod)) (rec' : Nat) : State × Option Nat :=
  match rod with
  | some (i, rd) =>
    if rd.isOpen then
      let (t, leavers) := closeRod s k.slice k.ctx k.gen rd k.err.isSome
      let (t, e) := memWrite t (engWho t (lowestEng t k.slice (homeCluster t k.slice)) k.ctx k.gen 0) .va rec' (closeRecord leavers)
      (settleRod t i rd, e)
    else (s, none)
  | none => (s, none)

/-- STEP_CLOSE (R412, R413, R435, R437). -/
def execStepClose (r : RingId) (ws : List Word) (s : State) : Res :=
  packet (· = 2) r ws (fun s k =>
    match r with
    | .port _ => .fail s cPACKET_FORMAT
    | .queue q =>
      let rec' := (k.w 1).toNat
      let sig := bit (k.w 2) 63
      let f := field (k.w 2) 0 18
      let rod := rodOf s q
      if rec' % 8 ≠ 0 || (rod.isSome && rec' = 0) then .fail s cPACKET_FORMAT
      else if sig && !(fenceMay s k f) then .fail s cPERMISSION
      else if !(((queueOf s q).map (·.stepOpen)).getD false) && k.err.isNone then .fail s cSTATE
      else
        let wasOpen := ((queueOf s q).map (·.stepOpen)).getD false
        let (t, werr) := closeStep s k rod rec'
        match werr, k.err with
        | some code, none => .fail { t with sched := s.sched } code
        | _, _ =>
          let t := modQueue t q fun x => { x with stepOpen := false }
          let t := if wasOpen then countStep t k.slice k.ctx else t
          .done (if sig then fenceOp t k.port f (if k.err.isSome then .seterr else .max)
                   (match k.err with | some code => BitVec.ofNat 64 code | none => k.w 3) else t) 0) s

/-- The next step of a queue may start: at once where an engine holds its context and keeps it, else when its context is placed (R391). -/
def beginStep (s : State) (q c : Nat) : State :=
  if (ctxOf s c).eng.isSome && !(leaving s c) then startStep s q
  else lcRequests (addReadyFor (modQueue s q fun x => { x with opening := true }) c (.queue q))

/-- Queues that wait for a gang whose list names queue `q`, or for the list `l` itself (R392). -/
def gangMates (s : State) (q : Nat) (l : List Nat) : List Nat :=
  (s.queues.filter fun x => match x.2.gang with | some g => g.1.contains q || g.1 = l | none => false).map (·.1)

/-- Every waiting member of a gang fails with a code: its STEP_OPEN is completed and its queue enters the error state (R392). -/
def failGang (s : State) (qs : List Nat) (code : Nat) : State :=
  qs.foldl (fun t q => finishRing (queueErr t q code) 1 (.queue q)) s

/-- Queue numbers of a gang list. -/
def gangList (bs : List Byte) (n : Nat) : List Nat := (List.range n).map fun i => natOfBytes ((bs.drop (2 * i)).take 2)

/-- A gang list that R392 accepts for queue `q` of a slice. -/
def gangListOk (s : State) (slice q : Nat) (l : List Nat) : Bool :=
  l.contains q && ((l.zip l.tail).all fun p => p.1 < p.2) &&
  (l.all fun x => match queueOf s x with
    | some y => !y.err && (ctxOf s y.ctx).slice = slice
    | none => false) &&
  (s.queues.all fun x => match x.2.gang with | some g => !(g.1.contains q) || g.1 = l | none => true)

/-- STEP_OPEN (R390 to R392, R410): the step starts, with its rod, once its context is on an engine and no other step of it is open; or waits for
its gang. -/
def execStepOpen (r : RingId) (ws : List Word) (s : State) : Res :=
  packet (· = 1) r ws (fun s k =>
    match r with
    | .port _ => .fail s cPACKET_FORMAT
    | .queue q =>
      let n := field (k.w 0) 16 8
      let va := (k.w 1).toNat
      if (n = 0 && va ≠ 0) || 192 < n || va % 8 ≠ 0 then .fail s cPACKET_FORMAT
      else if ((queueOf s q).map (·.stepOpen)).getD false then .fail s cSTATE
      else if otherStep s k.ctx q then .stall s  -- another step of the context is open
      else if n = 0 then .hold (beginStep s q k.ctx)
      else if (dEngines (descOf s k.slice)).length < n then
        .fail (failGang s (gangMates s q []) cGANG_SIZE) cGANG_SIZE
      else match memRead s (engWho s (lowestEng s k.slice (homeCluster s k.slice)) k.ctx k.gen 0) .va va (2 * n) with
        | (s, .err code) => .fail (failGang s (gangMates s q []) code) code
        | (s, .ok bs) =>
          let l := gangList bs n
          if !(gangListOk s k.slice q l) then .fail (failGang s (gangMates s q l) cGANG_LIST) cGANG_LIST
          else .hold (modQueue s q fun x => { x with gang := some (l, s.pclk) })) s

/-- The gang that queue `q` waits for. -/
def gangOf (s : State) (q : Nat) : Option (List Nat × Nat) := (queueOf s q).bind (·.gang)

/-- Place the members of a gang on their engines and start their steps (R392), or none where the rod of one of them cannot open. -/
def startGang (s : State) (l engs : List Nat) : State :=
  let (t, code) := (l.zip engs).foldl (fun (acc : State × Option Nat) m =>
    match acc.2, queueOf acc.1 m.1 with
    | none, some x =>
      let t := attach acc.1 m.2 x.ctx
      openRod t (ctxOf t x.ctx).slice x.ctx x.gen m.1
    | _, _ => acc) (s, none)
  match code with
  | some code => failGang { t with engines := s.engines, ctxs := s.ctxs, sched := s.sched, reqErrs := s.reqErrs } l code
  | none => l.foldl (fun t q => finishRing (modQueue t q fun x => { x with stepOpen := true, gang := none }) 1 (.queue q)) t

/-- A member of a gang whose step is ready (R392): it waits for the list `l`, its context runs nothing and has no other step open. -/
def gangReady (s : State) (l : List Nat) (q : Nat) : Bool :=
  match queueOf s q with
  | some y =>
    let c := ctxOf s y.ctx
    y.gang.map (·.1) = some l && c.state = .live && c.eng.isNone && c.prog.isNone && !(otherStep s y.ctx q)
  | none => false

/-- Engine `e` can take the context of queue `q` (R166, R394). -/
def gangPlace (s : State) (q e : Nat) : Bool :=
  match queueOf s q with
  | some y =>
    let slice := (ctxOf s y.ctx).slice
    engFree s e && dHasEngine (descOf s slice) e && reaches s y.ctx e && (regionIn s (e / 4) y.ctx y.gen).isSome && !(boltAsleep s (e / 4))
  | none => false

/-- The contexts of a gang's members. -/
def gangCtxs (s : State) (l : List Nat) : List Nat := l.filterMap fun q => (queueOf s q).map (·.ctx)

/-- GANG_START (R392, R463): every member of the gang that queue `q` waits for is at its STEP_OPEN, and `engs` names an engine for
each in list order, all idle at once; each member's step runs in a context of its own. -/
def execGangStart (q : Nat) (engs : List Nat) (s : State) : Res :=
  match gangOf s q with
  | none => .next s  -- the queue waits for no gang
  | some (l, _) =>
    guardRes s  -- else: the gang is not assembled, or its members cannot all be placed
      (engs.length = l.length && engs.eraseDups.length = engs.length && (gangCtxs s l).eraseDups.length = l.length && s.cfg.halves ≠ 0 &&
       ((l.zip engs).all fun x => gangReady s l x.1 && gangPlace s x.1 x.2))
      (startGang s l engs)

/-- GANG_TIMEOUT (R392): GANG_WAIT has passed since the first member's STEP_OPEN reached its queue's head. -/
def execGangTimeout (q : Nat) (s : State) : Res :=
  match gangOf s q with
  | none => .next s  -- the queue waits for no gang
  | some (l, _) =>
    let slice := (ctxOf s (((queueOf s q).map (·.ctx)).getD 0)).slice
    let wait := (slSchedOf s slice).gangWait
    let mates := (s.queues.filter fun x => (x.2.gang.map (·.1)) = some l)
    let first := mates.foldl (fun a x => min a ((x.2.gang.map (·.2)).getD a)) s.pclk
    guardRes s (wait ≠ 0 && first + 800000 * wait ≤ s.pclk) (failGang s (mates.map (·.1)) cGANG_TIMEOUT)

/-! ## Rod and bead packets (R406 to R409) -/

/-- ROD_CONFIG (R408, R435). -/
def execRodConfig (r : RingId) (ws : List Word) (s : State) : Res :=
  packet (· = 0x40) r ws (fun s k =>
    match r with
    | .port _ => .fail s cPACKET_FORMAT
    | .queue q =>
      let stepOpen := ((queueOf s q).map (·.stepOpen)).getD false
      let m := field (k.w 1) 0 13 + 1
      let pt := field (k.w 1) 16 16
      let rs := field (k.w 1) 32 16
      if bit (k.w 0) 16 then
        match rodOf s q with
        | some (i, _) => if stepOpen then .fail s cSTATE else .done (dropRod s i) 0
        | none => .fail s cSTATE
      else if pt = 0 || (shAddr (k.w 2)).isNone then .fail s cPACKET_FORMAT
      else match rodOf s q with
        | some (i, rd) =>
          if rd.isOpen then .done (putRod s i { rd with later := some (m, pt, rs, k.w 2) }) 0
          else .done (putRod s i { rd with maxBeads := m, pageTokens := pt, reserve := rs, manifest := k.w 2 }) 0
        | none =>
          match (List.range 1024).find? fun i => !(s.sched.rods.any fun x => x.1 = i) with
          | none => .fail s cROD_FULL
          | some i => .done (putRod s i ⟨false, q, m, rs, pt, k.w 2, 0, [], none⟩) 0) s

/-- BEAD_ALLOC (R406, R409, R435): the lowest free index within the slice's quota, written at RESULT. -/
def execBeadAlloc (r : RingId) (ws : List Word) (s : State) : Res :=
  packet (· = 0x41) r ws (fun s k =>
    match r with
    | .port _ => .fail s cPACKET_FORMAT
    | .queue q =>
      if (k.w 3).toNat % 8 ≠ 0 || (k.w 5).toNat % 4 ≠ 0 then .fail s cPACKET_FORMAT
      else if (slSchedOf s k.slice).beadQuota ≤ beadCount s k.slice then .fail s cBEAD_FULL
      else match (List.range 65536).find? fun b => (beadOf s b).state = 0 with
        | none => .fail s cBEAD_FULL
        | some b =>
          match memWrite s (engWho s (lowestEng s k.slice (homeCluster s k.slice)) k.ctx k.gen 0) .va (k.w 5).toNat (leBytes 4 b) with
          | (s, some code) => .fail s code
          | (s, none) =>
            let s := modBead s b fun _ =>
              { slice := k.slice, state := 1, leaveReq := false, rod := q, pos := field (k.w 1) 0 32, maxpos := field (k.w 1) 32 32,
                npages := field (k.w 2) 0 32, kvlist := (k.w 3).toNat, tag := k.w 4, upd := none }
            .done (beadWaits s b) 0) s

/-- A bead packet: PERMISSION for a bead of another slice or a FREE one, STATE where its STATE does not allow it (R409). -/
def beadPacket (ty : Nat) (ok : Nat → Bool) (f : State → Nat → Pkt → State) (r : RingId) (ws : List Word) (s : State) : Res :=
  packet (· = ty) r ws (fun s k =>
    let b := field (k.w 0) 16 16
    let x := beadOf s b
    if x.state = 0 || x.slice ≠ k.slice then .fail s cPERMISSION
    else if !(ok x.state) then .fail s cSTATE
    else .done (f s b k) 0) s

/-- BEAD_UPDATE (R409): KVLIST, NPAGES and MAXPOS are replaced; a RUNNING bead takes them at the next open. -/
def execBeadUpdate (r : RingId) (ws : List Word) (s : State) : Res :=
  if field (ws.getD 0 0) 0 8 = 0x42 && (ws.getD 2 0).toNat % 8 ≠ 0 then
    packet (· = 0x42) r ws (fun s _ => .fail s cPACKET_FORMAT) s
  else
    beadPacket 0x42 (fun st => st = 1 || st = 2 || st = 3) (fun s b k =>
      let kv := (k.w 2).toNat
      let n := field (k.w 1) 0 32
      let m := field (k.w 1) 32 32
      modBead s b fun x => if x.state = 2 then { x with upd := some (kv, n, m) }
        else { x with kvlist := kv, npages := n, maxpos := m }) r ws s

/-- BEAD_LEAVE (R409): a WAITING or STARVED bead is DONE at once, a RUNNING one leaves at the close. -/
def execBeadLeave (r : RingId) (ws : List Word) (s : State) : Res :=
  beadPacket 0x43 (fun st => st = 1 || st = 2 || st = 3) (fun s b _ =>
    if (beadOf s b).state = 2 then modBead s b fun x => { x with leaveReq := true } else beadState s b 4) r ws s

/-- BEAD_FREE (R409): a DONE or ERROR bead becomes FREE. -/
def execBeadFree (r : RingId) (ws : List Word) (s : State) : Res :=
  beadPacket 0x44 (fun st => st = 4 || st = 5) (fun s b _ => modBead s b fun _ => Bead.zero) r ws s

/-! ## SC_SLCFGs (R420) -/

/-- The secure world of an access path (R57, R613, R628). A JTAG instrument acts in the secure world for DG_ registers only. -/
def pathSecure (c : Cfg) : Path → Bool
  | .crp sec => sec
  | .host p => c.secPort = some p
  | .jtag => false

/-- A path over which a register write reaches its register: a host packet port must exist, serve requests and be out of reset. -/
def pathUp (s : State) : Path → Bool
  | .host p => p < s.cfg.hostPorts && !(portDead s p)
  | _ => true

/-- What a write does that reaches no register: its host packet port answers ABORT or NOT_READY (R612, R620, R630). -/
def offPath (s : State) : Path → Res
  | .host p => hereRes (p < s.cfg.hostPorts) (inbAbort s p)
  | _ => .next s

/-- Registers other than the collector's take no write: in a block reset (R622), after the loss of ROOTCLK (R563), in SCRAP and LOCKED (R504). -/
def regHeld (s : State) : Bool := s.ck.rst.isSome || s.ck.clkFault || s.lc.current = 5 || s.lc.current = 15

/-- A write to a register of the secure world (R613). -/
def secWrite (path : Path) (f : State → State) (s : State) : Res :=
  let s := awake s
  if !(pathUp s path) then offPath s path else settle (if pathSecure s.cfg path && !(regHeld s) then f s else s)

/-- As `secWrite`, for an array of registers: an offset that names none is answered with UR or UNMAPPED, and one of an instance that the
configuration does not hold is ignored (R637). -/
def secWriteAt (named present : Bool) (path : Path) (f : State → State) (s : State) : Res :=
  if named then secWrite path (fun s => if present then f s else s) s else offPath (awake s) path

/-- The sum of the bead quotas with slice `n`'s replaced. -/
def quotaSum (s : State) (n v : Nat) : Nat :=
  (List.range 16).foldl (fun a i => a + if i = n then v else (slSchedOf s i).beadQuota) 0

/-- SLCFG_WRITE (R419, R420): a write to SC_SLCFGs; ignored where the quotas would exceed 0x1_0000 or the slice's beads. -/
def execSlcfgWrite (path : Path) (n : Nat) (v : Word) (s : State) : Res :=
  let quota := field v 32 17
  secWriteAt (n < 16) true path (fun s =>
    if 65536 < quotaSum s n quota || quota < beadCount s n then s
    else modSlSched s n fun x =>
      { x with gangWait := field v 56 8, beadQuota := quota, qbe := field v 16 16, qlc := field v 0 16 }) s

end Sys2Proof.Machine
end

