-- ==== Sys2Proof/Machine/Objects.lean ====
section
/-! DEFINITION. Contexts, queues, fences and memory objects (R423 to R427, R436, R437, R443), and the end of a teardown (R446, R450). -/
namespace Sys2Proof.Machine

/-! ## Keys of a slice (R473, R494) -/

/-- Owners of a slice. -/
def ownersOf (d : List Word) : Nat := dOwnersM1 d + 1

/-- Every key identifier named by a valid region of a slice, of one owner or of all, has a key. -/
def keysPresent (s : State) (n : Nat) (owner : Option Nat) : Bool :=
  s.regions.all fun r =>
    r.2.slice ≠ n || (match owner with | some o => r.2.owner ≠ o | none => false) || (kidOf s r.2.keyid).key.isSome

/-- RUNNABLE (R494); an open slice has no condition (R54). -/
def runnable (s : State) (n : Nat) : Bool :=
  dKind (descOf s n) = 0 ||
  ((ksSlice s n).measured && (ksSlice s n).accepted = 2 ^ ownersOf (descOf s n) - 1 && keysPresent s n none && (ksSlice s n).stream.isSome)

/-- LU-STREAM as ASCII. -/
def asciiBytes (cs : String) : List Byte := cs.toList.map fun c => BitVec.ofNat 8 c.toNat

/-- The stream key of a context (R426, R473): the packet's for an open slice, else derived from the slice's stream base. -/
def streamKeyOf (s : State) (slice ctx : Nat) (given : Word) : Word :=
  if dKind (descOf s slice) = 0 then given
  else match (ksSlice s slice).stream with
    | some k => BitVec.ofNat 64 (natOfBe (kdf384 (beBytes 32 k) (asciiBytes "LU-STREAM") (beBytes 2 (BitVec.ofNat 16 ctx)) 64))
    | none => 0

/-! ## Allocation -/

/-- The lowest base at which `n` granules of a Tally pool are free (R265). -/
def tallyFit (t : Tally) (n : Nat) : Option Nat :=
  let cands := (0 :: t.alloc.map fun a => a.2.1 + a.2.2)
  let ok := cands.filter fun b => b + n ≤ 3072 && t.alloc.all fun a => a.2.2 = 0 || b + n ≤ a.2.1 || a.2.1 + a.2.2 ≤ b
  ok.foldl (fun m b => match m with | none => some b | some x => some (min x b)) none

/-- Words of a Tally pool zeroed, granules `b` to `b + n − 1` (R265). -/
def zeroGranules (t : Tally) (b n : Nat) : Tally :=
  { t with pool := t.pool.filter fun e => !(64 * b ≤ e.1 && e.1 < 64 * (b + n)),
           bad := t.bad.filter fun o => !(poolBase + 512 * b ≤ o && o < poolBase + 512 * (b + n)) }

/-- Give context `c` `n` granules in half `h`, zeroed. -/
def giveTally (s : State) (h c n : Nat) : Option State :=
  if n = 0 then some s
  else if s.cfg.halves ≤ h then none
  else (tallyFit (tallyOf s h) n).map fun b =>
    modTally (portSlot s h (controlPort s.cfg h)) h fun t => { zeroGranules t b n with alloc := mset (0, 0) t.alloc c (b, n) }

/-- The lowest free fence index in half `h`. -/
def freeFence (s : State) (h : Nat) : Option Nat :=
  if s.cfg.halves ≤ h then none
  else ((List.range 131072).find? fun i => (mget Fence.zero (tallyOf s h).fences i).state = 0).map (· + 131072 * h)

/-- Write both words of a fence entry through the control port (R267, R269): fresh check bits, and the words are presented (R270). -/
def writeFence (s : State) (f : Nat) (x : Fence) : State :=
  let h := fenceHalf f
  let i := f % 131072
  let s := modFence (portSlot s h (controlPort s.cfg h)) f fun _ => x
  presentWord (modTally s h fun t => { t with bad := t.bad.filter fun b => b / 16 ≠ i }) h (16 * i)

/-- Allocate a fence: LIVE, of a slice, owned by a context and generation. -/
def putFence (s : State) (f : Nat) (v : Word) (slice ctx gen : Nat) : State := writeFence s f ⟨v, 1, 0, 0, slice, ctx, gen⟩

/-! ## Contexts (R426, R446) -/

/-- A slice that takes objects. -/
def sliceLive (s : State) (n : Nat) : Bool := (sliceOf s n).state = .active || (sliceOf s n).state = .degraded

/-- CTX_CREATE (R424, R426, R436, R494). -/
def execCtxCreate (r : RingId) (ws : List Word) (s : State) : Res :=
  packet (· = 0x81) r ws (fun s k =>
    let c := field (k.w 0) 16 11
    let n := field (k.w 0) 28 4
    let fh := field (k.w 0) 32 1
    let bolt := field (k.w 4) 0 8
    let t0 := field (k.w 4) 8 11
    let t1 := field (k.w 4) 19 11
    let root := (k.w 1).toNat
    let frec := (k.w 2).toNat
    let spill := (k.w 3).toNat
    let d := descOf s n
    let x := ctxOf s c
    if root % 65536 ≠ 0 || frec % 64 ≠ 0 || spill % 1024 ≠ 0 || 2 ^ 44 ≤ root || 2 ^ 52 ≤ frec || 2 ^ 44 ≤ spill ||
       bolt = 0 || 128 < bolt || 1024 < t0 || 1024 < t1 then .fail s cPACKET_FORMAT
    else if !(portMay s k.port n) || c < dCtxBase d || dCtxBase d + dCtxCount d ≤ c then .fail s cPERMISSION
    else if !(sliceLive s n) || x.state ≠ .free || !(runnable s n) || (regionAt s n root).isNone || (regionAt s n spill).isNone then
      .fail s cSTATE
    else match giveTally s 0 c t0 with
      | none => .fail s cEXHAUSTED
      | some s1 => match giveTally s1 1 c t1 with
        | none => .fail s cEXHAUSTED
        | some s2 => match freeFence s2 fh with
          | none => .fail s cEXHAUSTED
          | some f =>
            let s := putFence s2 f 0 n c x.gen
            let s := modCtx s c fun _ =>
              { Ctx.zero with state := .live, slice := n, gen := x.gen, ffence := f, root := root, faultRec := frec, spill := spill,
                              bolt := bolt, key := streamKeyOf s n c (k.w 5), lastEnd := s.pclk,
                              sched := homeSched s n }
            let s := reportChanged (modKsSlice s n fun y => { y with lived := sins y.lived c }) n
            .done s (f + 2 ^ 18 * x.gen)) s

/-- Whether a packet may name context `c` with generation `gen`: PERMISSION where its slice does not list the port, STATE where the
generation is not current or the context is not LIVE or FAULTED (R436). -/
def ctxFault (s : State) (k : Pkt) (c gen : Nat) (faulted : Bool) : Option Nat :=
  let x := ctxOf s c
  if x.state = .free then some cSTATE
  else if !(portMay s k.port x.slice) then some cPERMISSION
  else if x.gen ≠ gen || !(x.state = .live || (faulted && x.state = .faulted)) then some cSTATE
  else none

/-- CTX_DESTROY (R446): the teardown starts; the packet's status follows when it ends. -/
def execCtxDestroy (r : RingId) (ws : List Word) (s : State) : Res :=
  packet (· = 0x82) r ws (fun s k =>
    let c := field (k.w 0) 16 11
    match ctxFault s k c (field (k.w 0) 32 8) true with
    | some code => .fail s code
    | none =>
      .hold (tearStart (modRing s k.port fun x => { x with busy := true }) c cTORN_DOWN
        (some (statusOf s k.port (ringOf s k.port).head ws)) false)) s

/-- End the rods of a queue that goes (R422): RUNNING beads of an open rod become ERROR, and no close record is written. -/
def endRod (s : State) (q : Nat) : State :=
  match rodOf s q with
  | some (i, r) =>
    let s := if r.isOpen then r.beads.foldl (fun t b => if (beadOf t b).state = 2 then modBead t b fun x => { x with state := 5, leaveReq := false } else t) s
      else s
    dropRod s i
  | none => s

/-- Steps 5 and 6 of a teardown (R446): root, translations, memory objects, queues, rods, Tally and Bolt regions go; the generation
rises and the state is FREE. A dispatcher's teardown makes the context LIVE again (R450). -/
def tearEnd (s : State) (c : Nat) : State :=
  let x := ctxOf s c
  let relive := (x.tear.map (·.relive)).getD false && directCtx s 0
  let gen' := (x.gen + 1) % 256
  let s := { s with
    atu := s.atu.filter fun a => !(a.ctx = c && a.gen = x.gen),
    engines := s.engines.map fun e => (e.1, { e.2 with icache := e.2.icache.filter fun k => !(k.2.1 = c && k.2.2 = x.gen) }),
    memObjs := s.memObjs.filter fun o => !(o.2.ctx = c && o.2.gen = x.gen) }
  let s := (queuesOf s c x.gen).foldl (fun t q => endRod t q.1) s
  let s := { s with queues := s.queues.filter fun q => !(q.2.ctx = c && q.2.gen = x.gen) }
  let s := (List.range s.cfg.halves).foldl (fun t h => modTally t h fun y =>
    let a := mget (0, 0) y.alloc c
    if relive then zeroGranules y a.1 a.2 else { y with alloc := mdel y.alloc c }) s
  let s := releaseRegions s c x.gen
  let s := match x.prog with
    | some p => match p.ring with
      | .port _ =>
        let s := match p.status with
          | some at' => writeStatus s at' cTORN_DOWN 0
          | none => s
        finishRing s p.packets p.ring
      | .queue _ => s
    | none => s
  let s := if relive then
      (List.range s.cfg.halves).foldl (fun t h => modTally t h fun y =>
        { y with fences := y.fences.map fun f =>
            if f.2.state ≠ 0 && f.2.ctx = c && f.2.gen = x.gen && f.2.slice = 0 then (f.1, { f.2 with gen := gen' }) else f }) s
    else s
  let s := modCtx (reportChanged s x.slice) c fun y =>
    if relive then
      { Ctx.zero with state := .live, gen := gen', ffence := y.ffence, key := y.key, acc := y.acc, lastEnd := y.lastEnd, sched := y.sched }
    else { Ctx.zero with gen := gen', slice := y.slice, acc := y.acc, ffence := y.ffence }
  match x.tear.bind (·.status) with
  | some at' => finishRing (writeStatus s at' 0 0) 1 (.port at'.port)
  | none => s

/-- Nothing of a context is outstanding (R446 step 4). -/
def drained (s : State) (c : Nat) : Bool :=
  let x := ctxOf s c
  !(opsOutstanding s c x.gen) && !(runsOn s c x.gen) && !(s.reqErrs.any fun r => r.ctx = c && r.gen = x.gen)

/-- TEARDOWN_DRAIN_DONE (R446): every request of a tearing context has completed or returned. -/
def execTeardownDrainDone (c : Nat) (s : State) : Res :=
  guardRes s  -- else: the context is not being torn down, or has requests outstanding
    (((ctxOf s c).tear.map fun t => decide (t.step = 4)).getD false && drained s c) (tearEnd s c)

/-! ## Queues (R436, R437) -/

/-- Q_CREATE (R436): the lowest free queue number; at most 16 queues of a context. -/
def execQCreate (r : RingId) (ws : List Word) (s : State) : Res :=
  packet (· = 0x83) r ws (fun s k =>
    let c := field (k.w 0) 16 11
    let gen := field (k.w 0) 32 8
    let sz := field (k.w 0) 44 4
    let base := (k.w 1).toNat
    let ha := (k.w 2).toNat
    if 12 < sz || base % (4096 * 2 ^ sz) ≠ 0 || 2 ^ 44 ≤ base || ha % 8 ≠ 0 || 2 ^ 44 ≤ ha then .fail s cPACKET_FORMAT
    else match ctxFault s k c gen false with
      | some code => .fail s code
      | none =>
        if 16 ≤ (queuesOf s c gen).length then .fail s cEXHAUSTED
        else match (List.range 8192).find? fun q => (queueOf s q).isNone with
          | none => .fail s cEXHAUSTED
          | some q =>
            let x : Queue := { err := false, lc := bit (k.w 0) 40, port := k.port, ctx := c, gen := gen, code := 0, tail := 0, head := 0,
                               base := base, sizeCode := sz, headAddr := ha, headSeen := 0, busy := false, held := none, ext := none,
                               stepOpen := false, opening := false, gang := none, since := 0 }
            .done { s with queues := minsert s.queues q x } q) s

/-- The queue a packet names: STATE where there is none, PERMISSION where its slice does not list the port (R436). -/
def queueFault (s : State) (k : Pkt) (q : Nat) : Option Nat :=
  match queueOf s q with
  | none => some cSTATE
  | some x => if portMay s k.port (ctxOf s x.ctx).slice then none else some cPERMISSION

/-- Q_DESTROY (R436, R441): its unstarted packets are discarded with TORN_DOWN; a queue with a launch in progress is in a state that
does not allow it. -/
def execQDestroy (r : RingId) (ws : List Word) (s : State) : Res :=
  packet (· = 0x84) r ws (fun s k =>
    let q := field (k.w 0) 16 13
    match queueFault s k q, queueOf s q with
    | some code, _ => .fail s code
    | none, none => .fail s cSTATE
    | none, some x =>
      if x.busy then .fail s cSTATE
      else
        let s := endRod (discardPackets s (ctxOf s x.ctx).slice q x cTORN_DOWN) q
        .done { s with queues := mdel s.queues q } 0) s

/-- Q_RESET (R437): clears the error state of a queue of a LIVE context; the queue resumes at HEAD. -/
def execQReset (r : RingId) (ws : List Word) (s : State) : Res :=
  packet (· = 0x85) r ws (fun s k =>
    let q := field (k.w 0) 16 13
    match queueFault s k q, queueOf s q with
    | some code, _ => .fail s code
    | none, none => .fail s cSTATE
    | none, some x =>
      if (ctxOf s x.ctx).state = .live && (ctxOf s x.ctx).gen = x.gen then .done (modQueue s q fun y => { y with err := false, code := 0 }) 0
      else .fail s cSTATE) s

/-! ## Fences (R436, R443) -/

/-- FENCE_ALLOC (R436): the lowest free index in a half, owned by the named context. -/
def execFenceAlloc (r : RingId) (ws : List Word) (s : State) : Res :=
  packet (· = 0x86) r ws (fun s k =>
    let c := field (k.w 0) 16 11
    let gen := field (k.w 0) 32 8
    match ctxFault s k c gen true with
    | some code => .fail s code
    | none => match freeFence s (field (k.w 0) 40 1) with
      | none => .fail s cEXHAUSTED
      | some f => .done (putFence s f (k.w 1) (ctxOf s c).slice c gen) f) s

/-- FENCE_FREE (R443): outstanding waits are released with ABANDONED; STATE is free and VALUE 0. -/
def execFenceFree (r : RingId) (ws : List Word) (s : State) : Res :=
  packet (· = 0x87) r ws (fun s k =>
    let f := field (k.w 1) 0 18
    if !(fenceMay s k f) then .fail s cPERMISSION
    else .done (writeFence (if hasWait s f then fenceErr s f cABANDONED else s) f Fence.zero) 0) s

/-! ## Memory objects (R427, R436) -/

/-- MEM_OBJ (R427, R436): records a range of a region for one context. -/
def execMemObj (r : RingId) (ws : List Word) (s : State) : Res :=
  packet (· = 0x89) r ws (fun s k =>
    let c := field (k.w 0) 16 11
    let gen := field (k.w 0) 32 8
    let rg := field (k.w 0) 40 8
    let base := (k.w 1).toNat
    let size := (k.w 2).toNat
    if base % 65536 ≠ 0 || size % 65536 ≠ 0 || size = 0 then .fail s cPACKET_FORMAT
    else match ctxFault s k c gen false with
      | some code => .fail s code
      | none =>
        let slice := (ctxOf s c).slice
        let inside := match regionOf s rg with
          | some x => x.slice = slice && mib2 * x.base ≤ base && base + size ≤ mib2 * (x.base + x.size)
          | none => false
        let clash := s.memObjs.any fun o =>
          !(o.2.ctx = c && o.2.gen = gen) && (ctxOf s o.2.ctx).slice = slice && o.2.base < base + size && base < o.2.base + o.2.size
        if !inside || clash then .fail s cSTATE
        else match (List.range 4096).find? fun h => !(s.memObjs.any fun o => o.1 = h) with
          | none => .fail s cEXHAUSTED
          | some h => .done { s with memObjs := minsert s.memObjs h ⟨c, gen, rg, base, size⟩ } h) s

/-- MEM_FREE (R436): releases a memory object. -/
def execMemFree (r : RingId) (ws : List Word) (s : State) : Res :=
  packet (· = 0x8A) r ws (fun s k =>
    let h := field (k.w 0) 16 12
    match s.memObjs.find? fun o => o.1 = h with
    | none => .fail s cSTATE
    | some o =>
      if portMay s k.port (ctxOf s o.2.ctx).slice then .done { s with memObjs := mdel s.memObjs h } 0 else .fail s cPERMISSION) s

end Sys2Proof.Machine
end

