-- ==== Sys2Proof/Machine/Firmware.lean ====
section
/-! DEFINITION. The firmware unit (15): loading, staging and activation of images, and crashes and restarts of its processors. -/
namespace Sys2Proof.Machine

/-! ## Images (R454 to R456) -/

/-- KEYSEL values that a life-cycle state accepts (R455). -/
def keyselOk (lc sel : Nat) : Bool := (sel = 0 && (lc = 2 || lc = 3)) || (sel = 1 && (lc = 1 || lc = 2 || lc = 4))

/-- A processor image size (R454). -/
def imageSizeOk (n : Nat) : Bool := n % 64 = 0 && 64 ≤ n && n ≤ 2 ^ 20

/-- SHA-384 as 48 bytes. -/
def shaBytes (bs : List Byte) : List Byte := beBytes 48 (Config.sha384 bs)

/-- Verify an image against LEN, the life-cycle state and MIN_SVN (R455): its RESULT, or the image. -/
def verifyImage (len lc minSvn : Nat) (bs : List Byte) : Nat ⊕ FwImage :=
  let n (o l : Nat) : Nat := natOfBytes ((bs.drop o).take l)
  let sizes := [n 12 4, n 16 4, n 20 4]
  let legal := n 0 4 = 0x46574C31 && n 4 1 = 1 && n 5 1 ≤ 1 && sizes.all imageSizeOk && n 168 88 = 0 &&
    bs.length = 256 + n 12 4 + n 16 4 + n 20 4 && bs.length = len
  if !legal then .inl 1
  else if !(keyselOk lc (n 5 1)) then .inl 7
  else if !(Config.ecdsaVerify (Config.rovaostKey (n 5 1)) (shaBytes (bs.take 72)) ((bs.drop 72).take 96)) then .inl 2
  else if shaBytes (bs.drop 256) ≠ (bs.drop 24).take 48 then .inl 3
  else if n 6 2 < minSvn then .inl 4
  else .inr ⟨n 6 2, n 8 4, Config.sha384 (bs.take 72)⟩

/-! ## Sessions that end (R484) -/

/-- End a secured session: its host session key goes with it. -/
def endSession (s : State) (id : Nat) : State :=
  { s with ks := { s.ks with sessions := s.ks.sessions.filter fun x => x.1 ≠ id } }

/-- Clear blob `b` (R476). -/
def clearBlob (s : State) (b : Nat) : State :=
  modTally s 0 fun t => { t with sec := t.sec.filter fun e => !(8192 + 8 * b ≤ e.1 && e.1 < 8192 + 8 * b + 8) }

/-- The first blob of link transmit keys, link receive keys, host session keys and stream bases (R476). -/
def blobTx : Nat := 1024
/-- Link receive keys. -/
def blobRx : Nat := 1280
/-- Host session keys. -/
def blobSession : Nat := 1536
/-- Stream bases. -/
def blobStream : Nat := 1600

/-- End a session and clear its host session key's blob (R484). -/
def closeSession (s : State) (id : Nat) : State :=
  let slot := (s.ks.sessions.find? fun x => x.1 = id).bind fun x => x.2.slot.map (·.1)
  let s := endSession s id
  match slot with
  | some k => clearBlob s (blobSession + k)
  | none => s

/-- End every session (R464, R484). -/
def endSessions (s : State) : State :=
  let t := s.ks.sessions.foldl (fun t x => match x.2.slot with
    | some k => clearBlob t (blobSession + k.1)
    | none => t) s
  { t with ks := { t.ks with sessions := [] } }

/-- The mailbox and bounce registers of port `p`. -/
def hkOf (s : State) (p : Nat) : HostKeys := mget HostKeys.zero s.ks.ports p
/-- Change them. -/
def modHk (s : State) (p : Nat) (f : HostKeys → HostKeys) : State :=
  { s with ks := { s.ks with ports := mmod HostKeys.zero s.ks.ports p f } }

/-- End a mailbox request with a STATUS and no response; DONE raises event 0x1 (R618). -/
def mbxEnd (s : State) (p status : Nat) : State :=
  hostEvent (modHk s p fun h => { h with mbxBusy := false, mbxDone := true, mbxStatus := status, rspLen := 0 }) p 1

/-- Requests in progress are cut short (R618). -/
def mbxAbort (s : State) : State :=
  (List.range s.cfg.hostPorts).foldl (fun t p => if (hkOf t p).mbxBusy then mbxEnd t p 4 else t) s

/-! ## Processors (R22, R459, R462) -/

/-- Change a firmware processor. -/
def modProc (s : State) (k : Nat) (f : FwProc → FwProc) : State :=
  { s with fw := { s.fw with procs := mmod FwProc.zero s.fw.procs k f } }

/-- A scheduler processor that owns no cluster: it is held in reset (R22). -/
def ownerless (c : Cfg) (k : Nat) : Bool := k < 6 && c.clusters ≤ 8 * k

/-- PSTATE as a reader sees it: a scheduler processor that owns no cluster reports itself IDLE (R22), and so does a running one that stays idle
while slice 0 is DIRECT (R459; DEDUCED, log 187). -/
def shownPstate (s : State) (k : Nat) : Nat :=
  if ownerless s.cfg k || (k < 6 && (procOf s k).pstate = 1 && directCtx s 0) then 3 else (procOf s k).pstate

/-- The firmware processors that run firmware. -/
def runningProcs (c : Cfg) : List Nat := (List.range 8).filter fun k => !(ownerless c k)

/-- Start every processor. -/
def startProcs (s : State) : State := (runningProcs s.cfg).foldl (fun t k => modProc t k fun p => { p with pstate := 1 }) s

/-- The secure host packet port hears of a SC_ERR bit, and the collector of FW_EVENT (R466, R519, R615). -/
def fwEvent (s : State) : State :=
  let s := raise s 27 0 0
  match s.cfg.secPort with
  | some p => hostEvent s p 3
  | none => s

/-- An outage of scheduler `k` affects a slice (R417): a context of it is at home with the scheduler, or it has none yet and they would be
(DEDUCED, log 186). -/
def gapAffects (s : State) (k n : Nat) : Bool :=
  let cs := (List.range 2048).filter fun c => (ctxOf s c).slice = n && (ctxOf s c).state ≠ .free
  (sliceOf s n).state ≠ .free && (sliceOf s n).state ≠ .direct &&
  (if cs = [] then homeSched s n = k else cs.any fun c => (ctxOf s c).sched = k)

/-- GAPS of the slices that an outage of scheduler `k` affects (R417). -/
def countGap (s : State) (k : Nat) : State :=
  (List.range 16).foldl (fun t n =>
    if gapAffects t k n then
      modSlSched t n fun a => { a with gaps := satAdd 0xFFFFFFFF a.gaps 1 }
    else t) s

/-- The first packet of every port ring must be FEATURES again (R438). -/
def negotiationEvent (s : State) : State :=
  { s with rings := s.rings.map fun r => (r.1, { r.2 with agreed := none }) }

/-- Port rings go on once someone processes them. -/
def resumeRings (s : State) : State := (List.range s.cfg.hostPorts).foldl ringFetch s

/-! ## Load, stage, activate (R457 to R461) -/

/-- Accept an operation of SC_FWCMD (R457): ignored from the non-secure world, dropped while BUSY, RESULT 0x06 where it is not allowed. -/
def fwCmd (path : Path) (allowed : State → Bool) (f : State → State) (s : State) : Res :=
  let s := awake s
  if !(pathUp s path) then offPath s path
  else if !(pathSecure s.cfg path) || s.fc.blockSafe then .next s
  else if s.fw.busy then settle { s with fw := { s.fw with collide := true } }
  else if !(allowed s) then settle { s with fw := { s.fw with result := 6 } }
  else settle (f s)

/-- Start to read an image through a host packet port. -/
def readImage (s : State) (op port : Nat) : State :=
  let s := { s with fw := { s.fw with busy := true, op := some (op, port) } }
  hostFetch s port .firmware s.fw.addr.toNat s.fw.len

/-- LOAD (R457): allowed when STATE is ABSENT or FAILED. -/
def execLoad (path : Path) (port : Nat) (s : State) : Res :=
  fwCmd path (fun s => s.fw.state = 0 || s.fw.state = 3)
    (fun s => if s.cfg.hostPorts ≤ port || portDown s port then { s with fw := { s.fw with result := 5 } }
      else readImage { s with fw := { s.fw with state := 1 } } 1 port) s

/-- STAGE (R457): allowed when STATE is RUNNING and STAGED is NONE. -/
def execStage (path : Path) (port : Nat) (s : State) : Res :=
  fwCmd path (fun s => s.fw.state = 2 && s.fw.staged = 0)
    (fun s => if s.cfg.hostPorts ≤ port || portDown s port then { s with fw := { s.fw with result := 5 } }
      else readImage { s with fw := { s.fw with staged := 1 } } 2 port) s

/-- Activation (R461): every processor stops and restarts on the staged image, which is the running image at once. -/
def activate (s : State) : State :=
  let s := (List.range 6).foldl (fun t k => if procUp t k then countGap t k else t) s
  let s := (runningProcs s.cfg).foldl (fun t k => modProc t k fun p => { p with pstate := 2 }) s
  reportsChanged { s with fw := { s.fw with running := s.fw.image, image := none, staged := 4, actBegan := s.pclk } }

/-- Both emergency pins have been high for 1,000,000 SCLK (R460). -/
def emergOver (s : State) : Bool := s.pins.thermN && s.pins.pwrN && 1000000 ≤ s.emergQuiet

/-- ACTIVATE (R460, R461): deferred while an emergency holds or is less than 10 ms past. -/
def execActivate (path : Path) (s : State) : Res :=
  fwCmd path (fun s => s.fw.staged = 2)
    (fun s => if emergOver s then activate { s with fw := { s.fw with result := 0 } }
      else fwEvent { s with fw := { s.fw with staged := 3, result := 8, errDeferred := true } }) s

/-- DEFERRED_ACTIVATION_START (R460). -/
def execDeferredActivationStart (s : State) : Res :=
  guardRes s (s.fw.staged = 3 && emergOver s) (activate s)

/-- DISCARD (R457): drops the staged image. -/
def execDiscard (path : Path) (s : State) : Res :=
  fwCmd path (fun s => s.fw.staged = 2 || s.fw.staged = 3)
    (fun s => { s with fw := { s.fw with staged := 0, image := none, result := 0 } }) s

/-- A LOAD or STAGE ends with a RESULT and changes nothing else. -/
def fwFail (s : State) (op result : Nat) : State :=
  { s with fw := { s.fw with busy := false, op := none, result := result,
                             state := if op = 1 then (if s.fw.running.isSome then 3 else 0) else s.fw.state,
                             staged := if op = 2 then 0 else s.fw.staged } }

/-- The tags of the firmware's reads are free again. -/
def dropFwTags (s : State) : State :=
  { s with hports := s.hports.map fun h => (h.1, { h.2 with tags := h.2.tags.filter fun t => t.reader ≠ .firmware }) }

/-- IMAGE_READ_DONE (R455, R457 to R459): the last byte of a LOAD's or STAGE's image has arrived, and verification ends. -/
def execImageReadDone (img : List Byte) (s : State) : Res :=
  match s.fw.op with
  | none => .next s  -- no image is being read
  | some (op, port) =>
    guardRes s  -- else: the bytes are not LEN bytes or not those that came, or their last read is not out
      (img.length = s.fw.len && readOut s port .firmware img)
      (match verifyImage s.fw.len s.lc.current s.minSvn img with
       | .inl result => fwFail (dropFwTags s) op result
       | .inr im =>
         let s := dropFwTags s
         if op = 1 then
           let s := startProcs { s with fw := { s.fw with busy := false, op := none, result := 0, state := 2, running := some im } }
           resumeRings (reportsChanged (if (sliceOf s 0).state = .direct then s else negotiationEvent s))
         else { s with fw := { s.fw with busy := false, op := none, result := 0, staged := 2, image := some im } })

/-! ## Watchdogs, crashes, restart (R462 to R465) -/

/-- A processor crashes (R462, R464): its error line, a restart, GAPS once for an outage; with the security processor every session
ends. -/
def crash (s : State) (k : Nat) : State :=
  let up := procUp s k
  let s := raise s (if k < 6 then 24 else if k = 6 then 25 else 26) k 0
  let s := if up && k < 6 then countGap s k else s
  let s := if k = 6 then endSessions (mbxAbort s) else s
  modProc s k fun p => { p with pstate := 2, restarts := satAdd 65535 p.restarts 1 }

/-- FW_WATCHDOG_EXPIRY (R462). -/
def execFwWatchdogExpiry (k : Nat) (s : State) : Res :=
  guardRes s (k < 8 && procUp s k) (crash (modProc s k fun p => { p with wdog := satAdd 65535 p.wdog 1 }) k)

/-- FW_PROCESSOR_CRASH (R462, R465): an illegal instruction or an uncorrectable word, also during a restart. -/
def execFwProcessorCrash (k : Nat) (s : State) : Res :=
  guardRes s (k < 8 && ((procOf s k).pstate = 1 || (procOf s k).pstate = 2)) (crash s k)

/-- FW_RESTART_DONE (R461, R462): a restart completes, or its DIGEST check fails or its time runs out. An activation ends with the last
restart. -/
def execFwRestartDone (k : Nat) (ok : Bool) (s : State) : Res :=
  guardRes s (k < 8 && (procOf s k).pstate = 2)
    (let s := modProc s k fun p => { p with pstate := b2n ok }
     let s := if ok then s else fwEvent { s with fw := { s.fw with state := 3, errFailed := true } }
     let s := if s.fw.staged = 4 && (List.range 8).all fun j => (procOf s j).pstate ≠ 2 then
         { s with fw := { s.fw with staged := 0 } } else s
     resumeRings s)

end Sys2Proof.Machine
end

