-- ==== Sys2Proof/Machine/Bandwidth.lean ====
section
/-! DEFINITION. Bandwidth regulation (12): loads and admission (R373 to R375), effective guarantees and budgets (R376, R386), the
regulation window (R377), and the state of slices whose units are fenced (R32, R51). -/
namespace Sys2Proof.Machine

/-! ## Resources of a descriptor -/

/-- Link ports of a descriptor, ascending. -/
def dLinkList (d : List Word) : List Nat := (List.range 18).filter fun i => dLinks d / 2 ^ i % 2 = 1
/-- Host packet ports of a descriptor, ascending. -/
def dHostList (d : List Word) : List Nat := (List.range 4).filter fun p => dHosts d / 2 ^ p % 2 = 1

/-- MEM, LINK and HOST in effect (R386). -/
def effOf (s : State) (d : List Word) : Nat × Nat × Nat :=
  let part (g n up : Nat) : Nat := if n = 0 then g else g * up / n
  let ms := members d
  let ls := dLinkList d
  let hs := dHostList d
  (part (dMemGuar d) ms.length (ms.filter fun i => !(s.fc.subFenced.contains i)).length,
   part (dLinkGuar d) ls.length (ls.filter fun i => !(s.fc.linkFenced.contains i)).length,
   part (dHostGuar d) hs.length (hs.filter fun p => !(s.fc.hostFenced.contains p)).length)

/-- Lines per window of one of `n` masters that share an effective guarantee (R376). -/
def budgetOf (eff n : Nat) : Nat := 2 * eff / n

/-! ## Admission (R374, R375) -/

/-- The load of a slice on resource `i` of a kind: 1 sub-channel, 2 link port, 3 host port, 4 cluster, 5 half bridge (R374). -/
def loadOn (c : Cfg) (d : List Word) (kind i : Nat) : Nat :=
  let ms := members d
  let es := dEngines d
  match kind with
  | 1 => if dHasSub d i then ceilDiv (dMemGuar d + dLinkGuar d + dHostGuar d) ms.length else 0
  | 2 => if (dLinkList d).contains i then ceilDiv (dLinkGuar d) (dLinkList d).length else 0
  | 3 => if (dHostList d).contains i then ceilDiv (dHostGuar d) (dHostList d).length else 0
  | 4 => ceilDiv (dMemGuar d * (es.filter fun e => e / 4 = i).length) es.length
  | _ =>
    let e0 := (es.filter fun e => c.halfOfCluster (e / 4) = 0).length
    let n0 := (ms.filter fun i => c.halfOfMem (i / 4) = 0).length
    ceilDiv (dMemGuar d * (e0 * (ms.length - n0) + (es.length - e0) * n0)) (es.length * ms.length)

/-- The admission limit of a kind of resource (R373). -/
def limitOf (kind : Nat) : Nat :=
  match kind with
  | 1 => 1575
  | 2 => 882
  | 3 => 1710
  | 4 => 6840
  | _ => 55800

/-- The resources in the order of R374. -/
def resources (c : Cfg) : List (Nat × Nat) :=
  (c.subs.map fun i => (1, i)) ++ ((List.range c.linkPorts).map fun i => (2, i)) ++
  ((List.range c.hostPorts).map fun i => (3, i)) ++ ((List.range c.clusters).map fun i => (4, i)) ++
  (if c.halves = 2 then [(5, 0), (5, 1)] else [])

/-- Descriptors of the slices that are not FREE, with `d` in the place of slice `n`. -/
def withSlice (s : State) (n : Nat) (d : List Word) : List (List Word) :=
  (List.range 16).filterMap fun m => if m = n then some d else if (sliceOf s m).state = .free then none else some (descOf s m)

/-- Why slice `n` with descriptor `d` is not admitted, as KIND, INDEX, LOAD and LIMIT of BW_ADMIT; none where it is (R375). -/
def admission (s : State) (n : Nat) (d : List Word) : Option (Nat × Nat × Nat × Nat) :=
  let (mem, link, host) := effOf s d
  let starved (g : Nat) (k : Nat) : Bool := k ≠ 0 && budgetOf g k = 0
  if dSealed d && (starved mem (dEngines d).length || starved link (dLinkList d).length || starved host (dHostList d).length) then
    some (6, 0, 0, 0)
  else if dLinkGuar d ≠ 0 && (dLinkList d).isEmpty then some (7, 0, 0, 0)
  else (resources s.cfg).findSome? fun r =>
    let load := (withSlice s n d).foldl (fun a x => a + loadOn s.cfg x r.1 r.2) 0
    if limitOf r.1 < load then some (r.1, r.2, load, limitOf r.1) else none

/-- The 16 bits of an amount that fits; an amount that does not is not stated, and any bits stand for it. -/
def bits16 (n : Nat) (s : State) : State × BitVec 16 :=
  if n / 2 ^ 16 = 0 then (s, BitVec.ofNat 16 n) else draw s 16

/-- Write BW_ADMIT. A LOAD that its 16 bits do not hold reads as a free value. -/
def putAdmit (s : State) (a : Nat × Nat × Nat × Nat) : State :=
  let (s, v) := bits16 a.2.2.1 s
  { s with bw := { s.bw with admission := packWord [(60, 4, a.1), (52, 8, a.2.1), (16, 16, v.toNat), (0, 16, a.2.2.2)] } }

/-! ## Budgets (R376, R377, R386) -/

/-- VALID, SEALED, SLICE and BUDGET that a master should have: engine `j`. -/
def engBudget (s : State) (j : Nat) : Bool × Bool × Nat × Nat :=
  match (List.range 16).find? fun n => (sliceOf s n).state ≠ .free && (sliceOf s n).state ≠ .direct && dHasEngine (descOf s n) j with
  | some n => (true, dSealed (descOf s n), n, budgetOf (effOf s (descOf s n)).1 (dEngines (descOf s n)).length)
  | none => (false, false, 0, 0)

/-- The same of link port `i`. -/
def linkBudget (s : State) (i : Nat) : Bool × Bool × Nat × Nat :=
  match (List.range 16).find? fun n =>
    (sliceOf s n).state ≠ .free && (sliceOf s n).state ≠ .direct && (dLinkList (descOf s n)).contains i with
  | some n => (true, dSealed (descOf s n), n, budgetOf (effOf s (descOf s n)).2.1 (dLinkList (descOf s n)).length)
  | none => (false, false, 0, 0)

/-- The same of host port `p` for slice `n`. -/
def hostBudget (s : State) (p n : Nat) : Bool × Bool × Nat × Nat :=
  if (sliceOf s n).state ≠ .free && (sliceOf s n).state ≠ .direct && (dHostList (descOf s n)).contains p then
    (true, dSealed (descOf s n), n, budgetOf (effOf s (descOf s n)).2.2 (dHostList (descOf s n)).length)
  else (false, false, 0, 0)

/-- A budget that the next window installs, where it differs from the installed one. -/
def BwMaster.due (b : BwMaster) (x : Bool × Bool × Nat × Nat) : BwMaster :=
  { b with next := if (b.valid, b.isSealed, b.slice, b.budget) = x then none else some x }

/-- The slice manager recomputes BW_SLICEs and every budget (R376, R386, R389). -/
def updateBudgets (s : State) : State :=
  let eff := (List.range 16).filterMap fun n =>
    if (sliceOf s n).state = .free || (sliceOf s n).state = .direct then none
    else
      let e := effOf s (descOf s n)
      some (n, (dSealed (descOf s n), e.2.2, e.2.1, e.1))
  let masters := s.cfg.engineList.foldl (fun m j => mmod BwMaster.zero m j fun b => b.due (engBudget s j)) s.bw.masters
  let masters := (List.range s.cfg.linkPorts).foldl (fun m i =>
    mmod BwMaster.zero m (256 + i) fun b => b.due (linkBudget s i)) masters
  let hosts := (List.range s.cfg.hostPorts).foldl (fun m p =>
    (List.range 16).foldl (fun m n => mmod BwMaster.zero m (16 * p + n) fun b => b.due (hostBudget s p n)) m) s.bw.hosts
  { s with bw := { s.bw with slices := eff, masters := masters, hosts := hosts } }

/-- What a window does to a master's register (R377): USED is zero, a changed budget is installed, and requests of a sealed master that waited
are issued up to the budget (R383). A master handed to another slice has none that wait. -/
def BwMaster.window (b : BwMaster) : BwMaster :=
  let b : BwMaster := match b.next with
    | some (v, sl, n, x) => { b with valid := v, isSealed := sl, slice := n, budget := x, next := none, owed := if sl && (n = b.slice || !b.valid) then b.owed else 0 }
    | none => b
  { b with used := min b.owed b.budget, owed := b.owed - b.budget, wentOver := false, promoted := 0 }

/-- Apply `f` to every entry, keeping the canonical form. -/
def mmapAll [DecidableEq α] (d : α) (f : Nat → α → α) (m : List (Nat × α)) : List (Nat × α) :=
  m.filterMap fun e => if f e.1 e.2 = d then none else some (e.1, f e.1 e.2)

/-- REGULATION_WINDOW (R377, R376): a window of half `h` begins, 4,096 FCLK after the one before. -/
def execRegulationWindow (h : Nat) (s : State) : Res :=
  unitRes (h < s.cfg.halves) s (blockRuns s && mget 0 s.bw.winAt h + 4096 ≤ fclkNow s)
    (let mine (k : Nat) : Bool := masterHalf s.cfg (k / 256) (k % 256) = h
     let agents := (List.range s.cfg.memPorts).filter fun m => s.cfg.halfOfMem m = h
     let masters := mmapAll BwMaster.zero (fun k b => if mine k then b.window else b) s.bw.masters
     let masters := agents.foldl (fun t m => mmod BwMaster.zero t (768 + m) fun b => { b with valid := true, budget := 160 }) masters
     { s with
       bw := { s.bw with
         winAt := mmod 0 s.bw.winAt h (· + 4096), masters := masters,
         hosts := mmapAll BwMaster.zero (fun k b => if s.cfg.halfOfHost (k / 16) = h then b.window else b) s.bw.hosts },
       asyncs := s.asyncs.map fun a => if s.cfg.halfOfCluster (a.eng / 4) = h then { a with reserved := 0 } else a })

/-! ## Fenced units of a slice (R32, R51) -/

/-- FENCED_SUBCH, FENCED_ENG, FENCED_LP and FENCED_HP, as the lists of units. -/
def fencedUnits (s : State) (n : Nat) : List Nat × List Nat × List Nat × List Nat :=
  let d := descOf s n
  ((members d).filter s.fc.subFenced.contains, (dEngines d).filter (engFencedAny s),
   (dLinkList d).filter s.fc.linkFenced.contains, (dHostList d).filter s.fc.hostFenced.contains)

/-- Any unit of the slice is fenced. -/
def anyFenced (s : State) (n : Nat) : Bool := let u := fencedUnits s n; !(u.1.isEmpty && u.2.1.isEmpty && u.2.2.1.isEmpty && u.2.2.2.isEmpty)

/-- Slices follow a change of what is fenced since `old` (R32, R51, R386): ACTIVE and DEGRADED, effective guarantees, the report. -/
def refreshSlices (old s : State) : State :=
  let s := (List.range 16).foldl (fun t n =>
    let x := sliceOf t n
    let t := if x.state ≠ .free && fencedUnits old n ≠ fencedUnits t n then reportChanged t n else t
    match x.state with
    | .active => if anyFenced t n then modSlice t n fun y => { y with state := .degraded } else t
    | .degraded => if anyFenced t n then t else modSlice t n fun y => { y with state := .active }
    | _ => t) s
  updateBudgets s

end Sys2Proof.Machine
end

