-- ==== Sys2Proof/Machine/Medium.lean ====
section
/-! DEFINITION. Care of the memory medium (10) and the memory ports' edge (21): the accesses of the memory engine as
commands, patrol scrub, group retirement, row repair, completions and readiness. -/
namespace Sys2Proof.Machine

/-! ## Demand accesses -/

/-- A port that may issue requests (R523, R591). -/
def portReady (s : State) (m : Nat) : Bool := (portOf s m).ready && !(unitSafe s 6 m)

/-- The error of a request goes to the fault fence of the context that made it, when an engine made it (R69, R190). A memory engine knows no
virtual address. -/
def noteReqErr (s : State) (a : Attr) (code : Nat) : State := if a.kind = 0 then pushErr s a.ctx a.gen a.master code else s

/-- Answer a memory request. -/
def answer (s : State) (a : Attr) : SvRes → State
  | .data l => emit s (.reply a 0 (some l))
  | .done => emit s (.reply a 0 none)
  | .fail c => emit (noteReqErr s a c) (.reply a c none)

/-- Add an outstanding read tag for an access that waits for its beat (R28, R586, R587). -/
def holdRead (s : State) (r : MemReq) (w : Waiting) : State :=
  let phys := physLine s r.port r.sub r.line
  let s := settleLine s r.port r.sub phys
  modPort s r.port fun p =>
    { p with tags := p.tags ++ [⟨r.sub, freeTag p r.sub, phys, false, 0, 0, false, r.attr, some w, r.region.bind (regionOf s)⟩] }

/-- Whether an access has to wait: an earlier access to the line still waits for its beat (R28). -/
def lineBusy (s : State) (r : MemReq) : Bool :=
  (portOf s r.port).tags.any fun t => t.sub = r.sub && t.line = physLine s r.port r.sub r.line && t.wait.isSome

/-- An access may be performed now: the port is ready, no safe state holds it (R523), and no earlier access holds the line; at a fenced
sub-channel it completes at once (R525). -/
def accessReady (s : State) (r : MemReq) : Bool :=
  subFenced s r.port r.sub || (portReady s r.port && !(unitSafe s 5 (4 * r.port + r.sub)) && !lineBusy s r)

/-- Count a request that reaches the port with its master's regulator (R378); a line of a fenced sub-channel is none (R386). -/
def countReq (s : State) (r : MemReq) : State := if subFenced s r.port r.sub then s else bwCount s r.attr 1

/-- SELVAGE_READ (R292): a read, answered at once, or held until its beat arrives when the medium is `late`. -/
def execSelvageRead (r : MemReq) (med : Med) (late : Bool) (s : State) : Res :=
  accessRes (s.cfg.hasSub r.port r.sub) (accessReady s r)
    (if late && (svCheck s r).isNone then holdRead (countReq s r) r (.read r)
     else
      let (s, x) := svRead (applyMed (countReq s r) r.port r.sub med) r med.errs
      answer s r.attr x)

/-- SELVAGE_FULL_WRITE (R292). -/
def execSelvageFullWrite (r : MemReq) (data : Line) (med : Med) (s : State) : Res :=
  accessRes (s.cfg.hasSub r.port r.sub) (accessReady s r)
    (let (s, x) := svWriteFull (applyMed (countReq s r) r.port r.sub med) r data med.errs
     answer s r.attr x)

/-- SELVAGE_PARTIAL_WRITE (R297), held until the old beat arrives when the medium is `late`. -/
def execSelvagePartialWrite (r : MemReq) (mask : BitVec 128) (data : Line) (med : Med) (late : Bool) (s : State) : Res :=
  accessRes (s.cfg.hasSub r.port r.sub) (accessReady s r)
    (if late && (svCheck s r).isNone then holdRead (countReq s r) r (.partialWrite r mask data)
     else
      let (s, x) := svWritePartial (applyMed (countReq s r) r.port r.sub med) r mask data med.errs
      answer s r.attr x)

/-- METADATA_CACHE_FILL (R293): node `i` of level `lvl` is fetched and verified before it enters the metadata cache. -/
def execMetadataCacheFill (port sub lvl i keyid : Nat) (med : Med) (s : State) : Res :=
  unitRes (s.cfg.hasSub port sub) s  -- else: no such node, the port is not ready, or the roots are lost
    (lvl < 4 && i < nodesAt s port lvl && portReady s port && !subFenced s port sub && !(portOf s port).lost)
    (nodeGet med.errs port treeFuel keyid (applyMed s port sub med) sub lvl i).1

/-- The line's minor is 127 in tree mode: the next write overflows it (R301). -/
def atOverflow (s : State) (r : MemReq) : Bool :=
  !wideMode s r &&
  match getCtr s r.port r.sub (r.line / 64) r.attr.keyid [] with
  | (_, .node n) => nMinor n (r.line % 64) = 127
  | (_, .fail) => false

/-- GROUP_REENCRYPTION (R301): a write whose minor would pass 127 re-encrypts its group and is then applied. A full mask
is a write of the whole line. -/
def execGroupReencryption (r : MemReq) (mask : BitVec 128) (data : Line) (med : Med) (s : State) : Res :=
  unitRes (s.cfg.hasSub r.port r.sub) s  -- else: no minor of the group overflows by this write, or the line waits
    (accessReady s r && (svCheck s r).isNone && atOverflow s r)
    (let s := applyMed s r.port r.sub med
     let (s, x) := if mask = BitVec.allOnes 128 then svWriteFull s r data med.errs else svWritePartial s r mask data med.errs
     answer s r.attr x)

/-! ## Completions of the port (R590) -/

/-- Run an access of a request under the region entry with which it was translated (R70). -/
def underEntry (s : State) (i : Option Nat) (old : Option Region) (f : State → State) : State :=
  match i, old with
  | some i, some x => { f { s with regions := minsert s.regions i x } with regions := s.regions }
  | _, _ => f s

/-- Finish an access whose beat has arrived. -/
def finishWaiting (s : State) (rgn : Option Region) (errs : List Nat) : Waiting → State
  | .read r => underEntry s r.region rgn fun s => let (s, x) := svRead s r errs; answer s r.attr x
  | .partialWrite r mask d =>
    underEntry s r.region rgn fun s => let (s, x) := svWritePartial s r mask d errs; answer s r.attr x

/-- Drop one outstanding tag. -/
def dropTag (s : State) (m sub num : Nat) : State :=
  modPort s m fun p => { p with tags := p.tags.filter fun t => !(t.sub = sub && t.num = num) }

/-- A discarded completion (R590). -/
def badCompletion (s : State) (m sub : Nat) : State :=
  raise (modPort s m fun p => { p with badCpl := satAdd 65535 p.badCpl 1 }) 16 (4 * m + sub) 0

/-- Count an error response (R590). -/
def errResponse (s : State) (m sub detail : Nat) : State :=
  raise (modPort s m fun p => { p with errRsp := satAdd 65535 p.errRsp 1 }) 16 (4 * m + sub) detail

/-- The effect of a completion on the tag it names. -/
def completeTag (s : State) (m sub : Nat) (t : Tag) (err : Bool) (data : Beat) : State :=
  if t.write then
    if !err then dropTag s m sub t.num
    else if !t.retried then
      errResponse (modPort s m fun p =>
        { p with retry := satAdd 65535 p.retry 1,
                 tags := p.tags.map fun u => if u.sub = sub && u.num = t.num then { u with retried := true } else u })
        m sub (128 * t.line)
    else
      let s := errResponse (dropTag (putBeat s m sub t.line t.old) m sub t.num) m sub (128 * t.line)
      noteReqErr s t.attr cPOISON
  else
    let s := dropTag s m sub t.num
    let s := if err then s else putBeat s m sub t.line data
    match t.wait with
    | some w => finishWaiting s t.rgn (if err then [t.line] else []) w
    | none => s

/-- MEMORY_COMPLETION (R590, R604): a completion on sub-channel `sub` of port `port` with its 12-bit tag, CPL_WRITE, CPL_ERR and
CPL_DATA; one of a tag that a fence of the sub-channel ended is discarded. -/
def execMemoryCompletion (port sub tag : Nat) (write err : Bool) (data : Beat) (s : State) : Res :=
  hereRes (s.cfg.hasSub port sub)
    (match (portOf s port).tags.find? fun t => tag / 1024 = sub && t.sub = sub && t.num = tag % 1024 && t.write = write with
     | some t => completeTag s port sub t err data
     | none =>
       if tag / 1024 = sub && (portOf s port).left.contains (sub, tag % 1024, write) then
         modPort s port fun p => { p with left := p.left.erase (sub, tag % 1024, write) }
       else badCompletion s port sub)

/-- One MP_ERR event for each wired sub-channel of a port (R519, R591). -/
def mpErrAll (s : State) (m : Nat) : State :=
  (List.range 4).foldl (fun t i => if t.cfg.hasSub m i then raise t 16 (4 * m + i) 0 else t) s

/-- The memory ports whose low MPm_READY is an MP_ERR event in every SCLK: outside block resets, and not for a reserved strap (R589, R591). -/
def lowPorts (s : State) : List Nat :=
  if s.ck.rst.isSome then [] else (List.range s.cfg.memPorts).filter fun m => !((portOf s m).ready) && s.cfg.cap m ≠ 0

/-- MP_READY_FALL (R591, R592): outside block resets a low level is an MP_ERR event in every SCLK; this is its first. -/
def execMpReadyFall (port : Nat) (s : State) : Res :=
  unitRes (port < s.cfg.memPorts) s (portOf s port).ready
    (let s := modPort s port fun p => { p with ready := false }
     if (lowPorts s).contains port then mpErrAll s port else s)

/-- MP_READY_RISE (R591). -/
def execMpReadyRise (port : Nat) (s : State) : Res :=
  unitRes (port < s.cfg.memPorts) s (!(portOf s port).ready)
    (modPort s port fun p => { p with ready := true })

/-! ## Which stored lines are in use (R286, R288, R327, R336) -/

/-- A node as it stands in the metadata cache or, unverified, in its stored bits: what is left of the tree once the roots are lost (R290). -/
def rawNode (s : State) (m sub lvl i : Nat) : Option Node :=
  let addr := nodeAddr s m lvl i
  let half := addr / 64 % 2
  let stored : Option Node := match decodeBeat (beatAt s m sub (physLine s m sub (addr / 128))) with
    | .clean l | .corrected l _ => some (BitVec.ofNat 512 (l.toNat / 2 ^ (512 * half)))
    | _ => none
  match cacheFind (portOf s m) sub (addr / 128) with
  | some c => if c.held half then some (c.node half) else stored
  | none => stored

/-- A node's contents, if it verifies. -/
def nodeView (s : State) (m sub lvl i : Nat) : Option Node :=
  if (portOf s m).lost then rawNode s m sub lvl i
  else match nodeGet [] m treeFuel 0 s sub lvl i with
    | (_, .node n) => some n
    | (_, .fail) => none

/-- A node has been written to memory: its parent counter is not 0; with the roots lost a root entry of 0 does not mark an unwritten child (R290). -/
def nodeWritten (s : State) (m sub lvl i : Nat) : Bool :=
  if lvl = 3 then (portOf s m).lost || rootOf s m sub i ≠ 0
  else (nodeView s m sub (lvl + 1) (i / 64)).elim false fun n => nMinor n (i % 64) ≠ 0

/-- The wide blocks of a group, as level-0 nodes (R287); none outside the wide span. -/
def wideNodes (s : State) (m g : Nat) : List Nat :=
  let p := portOf s m
  if p.wideBase ≤ g / 256 && g / 256 < p.wideBase + p.wideSize then
    (List.range 8).map fun j => 256 * puOf s m + 8 * (g - 256 * p.wideBase) + j
  else []

/-- The level-0 nodes of a group that have been written: its counter block and its wide blocks. -/
def groupNodes (s : State) (m sub g : Nat) : List Nat := (g :: wideNodes s m g).filter (nodeWritten s m sub 0)

/-- A line is live: its counter is not that of a zero line (R286, R287, R327). -/
def lineLive (s : State) (m sub line : Nat) : Bool :=
  (nodeWritten s m sub 0 (line / 64) && (nodeView s m sub 0 (line / 64)).elim false fun n => nMinor n (line % 64) ≠ 0) ||
  (((wideNodes s m (line / 64))[line % 64 / 8]?).elim false fun w =>
    nodeWritten s m sub 0 w && (nodeView s m sub 0 w).elim false fun n => !(ctrRead n (line % 8) true).2)

/-- A stored line of the metadata area holds something written: the tag of a live line, a written node, or the tag of one (R336). -/
def metaWritten (s : State) (m sub line : Nat) : Bool :=
  let addr := 128 * line
  if addr < ctrBase s m then (List.range 16).any fun k => lineLive s m sub ((addr - tagBase s m) / 8 + k)
  else if addr < nodeTagBase s m then
    (List.range 2).any fun h => (nodeAtAddr s m (addr + 64 * h)).elim false fun x => nodeWritten s m sub x.1 x.2
  else (List.range 16).any fun k =>
    (List.range 4).any fun lvl =>
      let before := ((List.range lvl).map (nodesAt s m)).foldl (· + ·) 0
      let j := (addr - nodeTagBase s m) / 8 + k
      before ≤ j && j - before < nodesAt s m lvl && nodeWritten s m sub lvl (j - before)

/-! ## Patrol scrub (R326, R327) -/

/-- The written nodes of levels 1 to 3 above a group, from the top. -/
def scrubNodes (s : State) (m sub g : Nat) : List (Nat × Nat) :=
  let low := groupNodes s m sub g
  (([3, 2, 1].flatMap fun lvl => low.map fun i => (lvl, i / 64 ^ lvl)).eraseDups).filter fun x => nodeWritten s m sub x.1 x.2

/-- The scrub accesses of a group (R327), each as `(local line, metadata)`: the nodes above it that this walk has not scrubbed yet, its counter
line or wide blocks, the tag lines of its live lines, its live lines. -/
def scrubList (s : State) (m sub g : Nat) (entered : List (Nat × Nat)) : List (Nat × Bool) :=
  let live : List Nat := (List.range 64).filter fun i => lineLive s m sub (64 * g + i)
  let tags := ((live.map fun i => lineTagAddr s m (64 * g + i) / 128).eraseDups).map fun l => (l, true)
  (((scrubNodes s m sub g).filter fun x => !(entered.contains x)).map fun x => (nodeAddr s m x.1 x.2 / 128, true)) ++
    ((groupNodes s m sub g).map fun i => (nodeAddr s m 0 i / 128, true)) ++ tags ++ live.map fun i => (64 * g + i, false)

/-- The end of a scrub pass (R330): PASSES, every COUNT halved, entries at 0 freed; the next pass starts at S0. -/
def scrubPassEnd (s : State) (m : Nat) : State :=
  modPort s m fun p =>
    { p with scrub := { p.scrub with passes := satAdd 65535 p.scrub.passes 1, sub := 0, line := 0, group := 0, todo := [], entered := [] },
             hist := (p.hist.map fun e => (e.1, { e.2 with count := e.2.count / 2 })).filter fun e => e.2.count ≠ 0 }

/-- The next group with scrub accesses in the rest of a pass: sub-channel, group. A group whose parent counters are 0 is skipped. -/
def nextScrub (s : State) (m : Nat) : Option (Nat × Nat) :=
  let w := (portOf s m).scrub
  ((List.range 4).filter fun j => w.sub ≤ j && s.cfg.hasSub m j && !subFenced s m j).findSome? fun j =>
    let first := if j = w.sub then w.group else 0
    ((List.range (256 * puOf s m - first)).find? fun k => groupNodes s m j (first + k) ≠ []).map fun k => (j, first + k)

/-- The scrub enters a group: its accesses are due, and LINE is the first of them. -/
def scrubEnter (s : State) (m j g : Nat) : State :=
  let w := (portOf s m).scrub
  let seen := if j = w.sub then w.entered else []
  let todo := scrubList s m j g seen
  modPort s m fun p =>
    { p with scrub := { p.scrub with sub := j, group := g + 1, todo := todo, line := (todo.head?).elim 0 (·.1),
                                     entered := seen ++ (scrubNodes s m j g).filter fun x => !(seen.contains x) } }

/-- The scrub moves to its next group; where none is left the pass ends, and the next one begins. -/
def scrubAdvance (s : State) (m : Nat) : State :=
  match nextScrub s m with
  | some (j, g) => scrubEnter s m j g
  | none =>
    let s := scrubPassEnd s m
    match nextScrub s m with
    | some (j, g) => scrubEnter s m j g
    | none => s

/-- Read a stored line to scrub or copy it (R325): an uncorrectable metadata line counts as a failed node (R300). -/
def careRead (s : State) (m sub line : Nat) (errs : List Nat) : State × Stored :=
  let isMeta := decide (16384 * puOf s m ≤ line)
  match readStored s m sub line isMeta errs with
  | (s, .bad) => (if isMeta then treeFail s m sub (128 * line) none else s, .bad)
  | x => x

/-- SCRUB_ACCESS (R327): one scrub access; LINE then names the next line to visit. The pass ends when nothing is left. -/
def execScrubAccess (port : Nat) (med : Med) (s : State) : Res :=
  unitRes (port < s.cfg.memPorts) s  -- else: the scrub is stopped, the port is not ready or its strap is reserved
    ((portOf s port).scrub.interval ≠ 0 && portReady s port && s.cfg.cap port ≠ 0)
    (let s := if (portOf s port).scrub.todo = [] then scrubAdvance s port else s
     let w := (portOf s port).scrub
     match w.todo with
     | [] => s
     | (line, _) :: rest =>
       let s := modPort s port fun p => { p with scrub := { p.scrub with todo := rest, line := (rest.head?).elim line (·.1) } }
       let s := if subFenced s port w.sub then s
         else (careRead (applyMed (bwCount s (agentAttr port 0 0) 1) port w.sub med) port w.sub line med.errs).1
       if rest = [] then scrubAdvance s port else s)

/-! ## Retirement (R333 to R337) -/

/-- The lowest free retirement entry of a sub-channel (R336). -/
def freeRet (s : State) (m sub : Nat) : Option Nat :=
  (List.range 256).findSome? fun k =>
    let i := 256 * sub + k
    let e := mget ⟨false, false, false, 0⟩ (portOf s m).ret i
    if e.valid || e.dead then none else some i

/-- Change retirement entry `i`. -/
def modRet (s : State) (m i : Nat) (f : RetEnt → RetEnt) : State :=
  modPort s m fun p => { p with ret := mmod ⟨false, false, false, 0⟩ p.ret i f }

/-- Copy a stored line to the spare (R336) as the retirement agent: decoded, with fresh check bits, or as poison. -/
def copyLine (s : State) (m sub src dst : Nat) (errs : List Nat) : State :=
  match careRead s m sub src errs with
  | (s, .data l) => writeLine s m sub dst (agentAttr m 2 0) (encodeBeat l)
  | (s, _) => writeLine s m sub dst (agentAttr m 2 0) poisonBeat

/-- The lines of a local group that a retirement moves (R336): its live lines, or its written metadata lines. -/
def groupLines (s : State) (m sub g : Nat) : List Nat :=
  (List.range 64).filter fun k =>
    if 64 * g + k < 16384 * puOf s m then lineLive s m sub (64 * g + k) else metaWritten s m sub (64 * g + k)

/-- Retire physical group `g` of a sub-channel onto the spare of entry `i` (R333, R336). A spare group that retires gives
up its own entry, which becomes DEAD. -/
def retireOnto (s : State) (m sub g sym i : Nat) (errs : List Nat) : State :=
  let d := dlimOf s m
  let old := if g / 256 = d then some (256 * sub + g % 256) else none
  let frm := match old with
    | some j => (mget ⟨false, false, false, 0⟩ (portOf s m).ret j).frm
    | none => g
  let spare := 256 * d + i % 256
  let s := (groupLines s m sub frm).foldl (fun t k => copyLine t m sub (64 * frm + k) (64 * spare + k) errs) s
  let s := match old with
    | some j => modRet s m j fun e => { e with valid := false, dead := true }
    | none => s
  let s := modRet s m i fun _ => ⟨true, false, false, frm⟩
  modPort s m fun p =>
    { p with retireQ := p.retireQ.filter fun q => !(q.1 = sub && q.2.1 = g),
             rrWait := p.rrWait ++ [⟨0, sub, frm, sym, i⟩] }

/-- The due retirement that the port acts on next: the oldest of a sub-channel that is not fenced (R341) and that has a free entry, or for which
SPARE_OUT has not been raised yet (R336). -/
def dueRetirement (s : State) (m : Nat) : Option (Nat × Nat × Nat × Bool) :=
  (portOf s m).retireQ.find? fun q => !subFenced s m q.1 && ((freeRet s m q.1).isSome || !q.2.2.2)

/-- An access to the group still waits for its beat: the retirement of the group comes after it (R28, R336). -/
def groupHeld (s : State) (m sub g : Nat) : Bool :=
  (portOf s m).tags.any fun t => t.sub = sub && t.line / 64 = g && t.wait.isSome

/-- GROUP_RETIREMENT (R336): the oldest due retirement of the port, or SPARE_OUT where its sub-channel has no free entry; it is then tried again
when an entry becomes free. -/
def execGroupRetirement (port : Nat) (med : Med) (s : State) : Res :=
  unitRes (port < s.cfg.memPorts) s  -- else: no retirement is due at the port, or an access to the group comes first
    (portReady s port && (dueRetirement s port).elim false fun q => !groupHeld s port q.1 q.2.1)
    (match dueRetirement s port with
     | none => s
     | some (sub, g, sym, _) =>
       let s := applyMed s port sub med
       match freeRet s port sub with
       | some i => retireOnto s port sub g sym i med.errs
       | none =>
         let s := modPort s port fun p =>
           { p with retireQ := p.retireQ.map fun q => if q.1 = sub && q.2.1 = g then (q.1, q.2.1, q.2.2.1, true) else q }
         raise s 14 (4 * port + sub) (8192 * g))

/-- LASTSYM of a group's history, or of the time its retirement fell due where it has no entry any more (R329, R337). -/
def lastSymOf (s : State) (m : Nat) (r : RowRep) : Nat :=
  ((portOf s m).hist.find? fun e => e.2.sub = r.sub && e.2.group = r.group).elim r.sym (·.2.lastSym)

/-- ROW_REPAIR_REQUEST (R337, R594): the oldest waiting request goes out while at most 4 are outstanding, and its entry shows ROWREQ. -/
def execRowRepairRequest (port : Nat) (s : State) : Res :=
  let p := portOf s port
  unitRes (port < s.cfg.memPorts) s  -- else: no row-repair request waits, or four are outstanding
    (p.rrWait ≠ [] && p.rrOut.length < 4 && ((p.rrWait.head?).elim false fun r => !subFenced s port r.sub))
    (match p.rrWait with
     | [] => s
     | r :: rest =>
       let id := ((List.range 4).find? fun n => !(p.rrOut.any fun o => o.id = n)).getD 0
       let r := { r with id := id, sym := lastSymOf s port r }
       let s := modPort s port fun p => { p with rrWait := rest, rrOut := p.rrOut ++ [r] }
       emit (modRet s port r.entry fun e => { e with rowreq := true }) (.rowRepair port id r.sub r.group r.sym))

/-- ROW_REPAIR_ANSWER (R337, R338, R595): DONE or REFUSED; an answer to no request is discarded and counts as MP_ERR, at the port's sub-channel 0
since it names none (DESIGN CHOICE, log 169). -/
def execRowRepairAnswer (port id : Nat) (refused : Bool) (s : State) : Res :=
  hereRes (port < s.cfg.memPorts)
    (match (portOf s port).rrOut.find? fun r => r.id = id with
     | some r =>
       let s := modRet s port r.entry fun e => { e with rowreq := false }
       modPort s port fun p =>
         { p with rrOut := p.rrOut.filter fun o => o.id ≠ id,
                  rowRefused := if refused then satAdd 255 p.rowRefused 1 else p.rowRefused }
     | none => raise s 16 (4 * port) id)

/-! ## Key use and the rekey sweep (R305 to R309) -/

/-- The spare of R307 for identifier `a` of slice `n`. -/
def spareFor (s : State) (n a : Nat) : Option Nat :=
  let d := descOf s n
  (List.range (dKeyCount d)).findSome? fun k =>
    let b := dKeyBase d + k
    let kb := kidOf s b
    if b ≠ a && kb.state = .installed && kb.uses < 2 ^ 47 && !(s.regions.any fun e => e.2.keyid = b) &&
      (dKind d ≠ 2 || kb.owner = (kidOf s a).owner) then some b else none

/-- A sweep of the slice is active (R309). -/
def sweepActive (s : State) (n : Nat) : Bool :=
  let d := descOf s n
  (List.range (dKeyCount d)).any fun k => (kidOf s (dKeyBase d + k)).state = .sweepSource

/-- The member ports of a slice. -/
def memberPorts (d : List Word) : List Nat := ((members d).map (· / 4)).eraseDups

/-- The set offset of a group of a member sub-channel (the inverse of R64), if it lies in the slice's window. -/
def groupSo (d : List Word) (i g : Nat) : Option Nat :=
  let ms := members d
  if 256 * dWinBase d ≤ g && g < 256 * (dWinBase d + dWinSize d) then
    (ms.findIdx? (· = i)).map fun k => 8192 * ((g - 256 * dWinBase d) * ms.length + k)
  else none

/-- The region of slice `n` whose pages map onto a group: by the linear stage 2, or by its tables (R65, R66). -/
def groupRegion (s : State) (n i g : Nat) : Option (Nat × Region) :=
  let d := descOf s n
  match groupSo d i g with
  | none => none
  | some so =>
    if dS2Table d then
      s.regions.find? fun e => e.2.slice = n &&
        (List.range (32 * e.2.size)).any fun k =>
          match s2Walk s (blockWho n) n (mib2 * e.2.base + 65536 * k) with
          | (_, .ok p) => (p.base + (mib2 * e.2.base + 65536 * k) % 2 ^ p.bits) / 65536 = so / 65536
          | (_, .err _) => false
    else regionAt s n so

/-- The next group of a sweep at a port, from where it stands: local group, sub-channel, and whether its region is wide (R308). -/
def nextSweep (s : State) (n m : Nat) (w : Sweep) : Option (Nat × Nat × Bool) :=
  let d := descOf s n
  (List.range (256 * (dWinBase d + dWinSize d) - w.next)).findSome? fun k =>
    let g := w.next + k
    (List.range 4).findSome? fun j =>
      if k = 0 && j < w.nextSub then none
      else match groupRegion s n (4 * m + j) g with
        | some (i, r) => if w.rgns.contains i then some (g, j, r.wide) else none
        | none => none

/-- NEXT moves to the first group not yet visited, or past the window (R308, R310). -/
def sweepAdvance (s : State) (n m dst : Nat) : State :=
  match (portOf s m).sweeps.find? fun w => w.dst = dst with
  | none => s
  | some w => match nextSweep s n m w with
    | some (g, j, _) => modSweep s m dst fun w => { w with next := g, nextSub := j }
    | none => modSweep s m dst fun w => { w with next := 256 * (dWinBase (descOf s n) + dWinSize (descOf s n)), nextSub := 0 }

/-- Start a sweep from `a` to `b` (R307): regions rewritten, states and partners, and a sweep at every member port. -/
def startSweep (s : State) (n a b : Nat) : State :=
  let rgns := (s.regions.filter fun e => e.2.keyid = a).map (·.1)
  let s := { s with regions := s.regions.map fun e => if e.2.keyid = a then (e.1, { e.2 with keyid := b }) else e }
  let s := modKid s a fun k => { k with state := .sweepSource, partner := b }
  let s := reportChanged (modKid s b fun k => { k with state := .sweepTarget, partner := a }) n
  (memberPorts (descOf s n)).foldl (fun t m =>
    sweepAdvance (modPort t m fun p =>
      { p with sweeps := p.sweeps ++ [⟨true, a, b, 256 * dWinBase (descOf s n), 0, [], rgns⟩] }) n m b) s

/-- SWEEP_START (R307): the use budget of `keyid` is reached; without a spare, or with SWEEP_EN = 0, OVER is set. -/
def execSweepStart (keyid : Nat) (s : State) : Res :=
  match sliceOfKey s keyid with
  | none => .next s  -- no slice holds the identifier
  | some n =>
    guardRes s  -- else: the identifier is not at its use budget, or a sweep of the slice is active
      ((kidOf s keyid).state = .installed && 2 ^ 48 ≤ (kidOf s keyid).uses && !sweepActive s n)
      (match (if s.sv.sweepEn then spareFor s n keyid else none) with
       | some b => startSweep s n keyid b
       | none => reportChanged (modKid s keyid fun k => { k with overBudget := true }) n)

/-- The end of a sweep (R309): the source retires without step 2, the target is an installed identifier again. -/
def endSweep (s : State) (n a b : Nat) : State :=
  let s := modKid s a fun k => { k with state := .retiring, partner := 0 }
  let s := reportChanged (modKid s b fun k => { k with state := .installed, partner := 0 }) n
  { s with retJobs := s.retJobs ++ [⟨[a], members (descOf s n), dWinBase (descOf s n), dWinSize (descOf s n), false, []⟩] }

/-- A sweep is held at a port while a member sub-channel of its slice there is fenced (R310, R318). -/
def sweepHeld (s : State) (m : Nat) (w : Sweep) : Bool :=
  (sliceOfKey s w.dst).elim false fun n => (members (descOf s n)).any fun i => i / 4 = m && s.fc.subFenced.contains i

/-- The sweep a port works on: the oldest that is active and not held. -/
def sweepAt (s : State) (m : Nat) : Option Sweep := (portOf s m).sweeps.find? fun w => w.active && !(sweepHeld s m w)

/-- A port has visited every group of a sweep; with every member port done the sweep ends (R309). -/
def sweepPortDone (s : State) (n m : Nat) (w : Sweep) : State :=
  let s := modPort s m fun p => { p with sweeps := p.sweeps.filter fun x => x.dst ≠ w.dst }
  if (memberPorts (descOf s n)).any fun k => (portOf s k).sweeps.any fun x => x.dst = w.dst then s else endSweep s n w.src w.dst

/-- SWEEP_VISIT (R308, R309): the port's background agent re-encrypts the next group; with none left, and no request under A waiting, the port
is done. -/
def execSweepVisit (port : Nat) (med : Med) (s : State) : Res :=
  match sweepAt s port with
  | none => unitRes (port < s.cfg.memPorts) s false s
  | some w => match sliceOfKey s w.dst with
    | none => .next s  -- no slice holds the sweep's identifiers
    | some n =>
      unitRes (port < s.cfg.memPorts) s  -- else: the port is not ready, or a request under the source identifier waits
        (portReady s port && ((nextSweep s n port w).isSome || !((portOf s port).tags.any fun t => t.wait.isSome && t.attr.keyid = w.src)))
        (match nextSweep s n port w with
         | some (g, j, wide) =>
           let s := if w.early.contains (4 * g + j) then s
             else reencGroup (applyMed s port j med) port j g w.src w.dst wide med.errs
           sweepAdvance (modSweep s port w.dst fun w => { w with next := g, nextSub := j + 1 }) n port w.dst
         | none => sweepPortDone s n port w)

/-! ## Retiring identifiers and windows (R311 to R313) -/

/-- A retirement rewrites the nodes on a group's path that do not verify (R300), from the top: what such a node held is gone, and its children
read as never written. -/
def repairPath (s : State) (m sub node keyid : Nat) : State :=
  [3, 2, 1, 0].foldl (fun t lvl =>
    match nodeGet [] m treeFuel keyid t sub lvl (node / 64 ^ lvl) with
    | (t, .node _) => t
    | (t, .fail) => nodePut t m sub lvl (node / 64 ^ lvl) keyid (mkNode 1 fun _ => 0)) s

/-- A retirement rewrites the tag lines of a group that cannot be read (R300). -/
def repairTags (s : State) (m sub g keyid : Nat) : State :=
  (List.range 4).foldl (fun t k =>
    match getTag t m sub (64 * g + 16 * k) keyid [] with
    | (t, some _) => t
    | (t, none) => modPort t m fun p => cacheTouch p ⟨sub, lineTagAddr t m (64 * g + 16 * k) / 128, keyid, true, true, true, true, 0⟩) s

/-- Return every line of a group to the zero state (R312 step 2): MAJOR + 1 and all minors 0; in the wide span also ZERO in
every word of its wide blocks, with the counters kept. -/
def zeroGroup (s : State) (m sub g keyid : Nat) : State :=
  let s := repairTags (repairPath s m sub g keyid) m sub g keyid
  let s := match getCtr s m sub g keyid [] with
    | (s, .node n) => nodePut s m sub 0 g keyid (mkNode ((nMajor n + 1) % 2 ^ 64) fun _ => 0)
    | (s, .fail) => s
  (wideNodes s m g).foldl (fun t i =>
    match getCtr (repairPath t m sub i keyid) m sub i keyid [] with
    | (t, .node n) => nodePut t m sub 0 i keyid ((List.range 8).foldl (fun a k => setField a (64 * k + 63) 1 1) n)
    | (t, .fail) => t) s

/-- Write back and drop the cache entries tagged with one of the identifiers, the oldest first. -/
def flushOnce (s : State) (m : Nat) (kids : List Nat) : State :=
  ((portOf s m).cache.filter fun c => kids.contains c.keyid).reverse.foldl (fun t c =>
    match cacheFind (portOf t m) c.sub c.line with
    | some c => writeBackLine (wbGet m c.keyid) (cacheDrop t m c.sub c.line) m c 2
    | none => t) s

/-- Write back and drop every cache entry tagged with one of the identifiers (R312 step 3): the write-back of a line brings its parent node in
under its identifier, which goes in the next round, so that five rounds reach the roots. -/
def flushKeys (s : State) (m : Nat) (kids : List Nat) : State := (List.range 5).foldl (fun t _ => flushOnce t m kids) s

/-- The retirement job that a port still has to do for an identifier (R312). -/
def retJobFor (s : State) (keyid port : Nat) : Option RetJob :=
  s.retJobs.find? fun j => j.kids.contains keyid && !(j.done.contains port) && j.subs.any fun i => i / 4 = port

/-- A request with one of the identifiers is outstanding at a port, or a line of it is on its way to a link (R312 step 1, R318). -/
def keyBusy (s : State) (m : Nat) (kids : List Nat) : Bool :=
  ((portOf s m).tags.any fun t => kids.contains t.attr.keyid) || s.links.hops.any fun h => h.code = m && kids.contains h.keyid

/-- KEYID_RETIREMENT (R312): a port does its part of the retirement of an identifier or window; with the roots lost the lines are not touched
(R290). -/
def execKeyidRetirement (keyid port : Nat) (s : State) : Res :=
  match retJobFor s keyid port with
  | none => .next s  -- the port has no part in a retirement of the identifier
  | some j =>
    unitRes (port < s.cfg.memPorts) s  -- else: a request with the identifier is outstanding, or the port is fenced or not ready
      (portReady s port && !(keyBusy s port j.kids) && !(j.subs.any fun i => i / 4 = port && s.fc.subFenced.contains i))
      (let s := if j.step2 && !(portOf s port).lost then
          (j.subs.filter fun i => i / 4 = port).foldl (fun t i =>
            (List.range (256 * j.size)).foldl (fun t k => zeroGroup t port (i % 4) (256 * j.base + k) keyid) t) s
        else s
       let s := flushKeys s port j.kids
       { s with retJobs := s.retJobs.map fun x => if x = j then { x with done := x.done ++ [port] } else x })

/-- KEYID_RETIREMENT_DONE (R312, R50): every member port has finished; the identifiers move to ABSENT without keys, and the
window is free to be claimed. -/
def execKeyidRetirementDone (keyid : Nat) (s : State) : Res :=
  match s.retJobs.find? fun j => j.kids.contains keyid with
  | none => .next s  -- the identifier is not being retired
  | some j =>
    guardRes s (j.subs.all fun i => j.done.contains (i / 4))
      (let s := j.kids.foldl (fun t k => modKid t k fun _ => Kid.zero) s
       let s := (sliceOfKey s keyid).elim s (reportChanged s)
       { s with retJobs := s.retJobs.filter (· ≠ j) })

end Sys2Proof.Machine
end

