-- ==== Sys2Proof/Machine/Slicemgr.lean ====
section
/-! DEFINITION. The slice manager (02): BUILD, CHANGE, DISSOLVE, the region table, and what a dissolved slice hands to retirement. -/
namespace Sys2Proof.Machine

/-! ## Descriptors (R39, R47) -/

/-- The bits of each descriptor word that R39 gives a field; the others are reserved. -/
def descMask (w : Nat) : Nat :=
  match w with
  | 0 => 2 ^ 42 - 2 ^ 9
  | 1 => 2 ^ 46 - 2 ^ 11
  | 2 | 3 | 4 | 5 | 6 => 2 ^ 64 - 1
  | 7 => 2 ^ 32 - 1
  | 8 => 0x3FFF0000 + 0x1FFF
  | 9 => 0xFFF000 + 0x7FF
  | 10 => 2 ^ 60 - 1
  | 11 => 2 ^ 44 - 2 ^ 17
  | _ => 0

/-- The sixteen staged words. -/
def stagedWords (s : State) : List Word := (List.range 16).map fun w => mget 0 s.slm.stage w

/-- A staged descriptor with its reserved bits zero. -/
def stagedDesc (ws : List Word) : List Word := (List.range 16).map fun w => ws.getD w 0 &&& BitVec.ofNat 64 (descMask w)

/-- A descriptor field inconsistent (R47, 0x06). -/
def descBad (d : List Word) : Bool :=
  dKind d = 3 || (dKind d ≠ 2 && dOwnersM1 d ≠ 0) || (dKind d = 2 && dOwnersM1 d = 0) || dHosts d = 0 || (dS2Table d && dKind d ≠ 0) ||
  dKeyCount d = 0 || 1024 < dKeyBase d + dKeyCount d || 256 < dLkeyCount d || 256 < dLkeyBase d + dLkeyCount d ||
  dWinSize d = 0 || 8192 < dWinBase d + dWinSize d || dCtxCount d = 0 || 2048 < dCtxBase d + dCtxCount d

/-- A resource that does not exist in this configuration, or a window beyond DLIM (R47 0x03, R283). -/
def descAbsent (s : State) (d : List Word) : Bool :=
  (dEngines d).any (fun e => !(s.cfg.hasEngine e)) || (members d).any (fun i => !(s.cfg.hasSub (i / 4) (i % 4))) ||
  (dLinkList d).any (fun i => s.cfg.linkPorts ≤ i) || (dHostList d).any (fun p => s.cfg.hostPorts ≤ p) ||
  (members d).any fun i => dlimOf s (i / 4) < dWinBase d + dWinSize d

/-- Two ranges, as base and count, intersect. -/
def meets (a n b m : Nat) : Bool := a < b + m && b < a + n && n ≠ 0 && m ≠ 0

/-- Two windows overlap (R47). -/
def windowsMeet (d : List Word) (subs : List Nat) (base size : Nat) : Bool :=
  (members d).any subs.contains && meets (dWinBase d) (dWinSize d) base size

/-- A requested resource belongs to another slice (R47, 0x02). -/
def descTaken (s : State) (n : Nat) (d : List Word) : Bool :=
  (List.range 16).any fun m =>
    let x := descOf s m
    m ≠ n && (sliceOf s m).state ≠ .free &&
    ((dEngines d).any (dHasEngine x) || windowsMeet d (members x) (dWinBase x) (dWinSize x) ||
     (dLinkList d).any (dLinkList x).contains || meets (dKeyBase d) (dKeyCount d) (dKeyBase x) (dKeyCount x) ||
     meets (dLkeyBase d) (dLkeyCount d) (dLkeyBase x) (dLkeyCount x) || meets (dCtxBase d) (dCtxCount d) (dCtxBase x) (dCtxCount x))

/-- A requested key identifier or window is still being retired (R47 0x08, R50). That a CHANGE ends so as well, for its slice's own
identifiers, is the model's choice (DESIGN CHOICE, log 150). -/
def descRetiring (s : State) (d : List Word) : Bool :=
  ((List.range (dKeyCount d)).any fun k => (kidOf s (dKeyBase d + k)).state = .retiring) ||
  s.retJobs.any fun j => j.step2 && windowsMeet d j.subs j.base j.size

/-- The conditions of R47 from 0x06 on, in their order: the code, and what BW_ADMIT then names. -/
def descResult (s : State) (n : Nat) (d : List Word) : Nat × Option (Nat × Nat × Nat × Nat) :=
  if 16 ≤ n || descBad d then (6, none)
  else if descAbsent s d then (3, none)
  else if dSecure d && dKind d ≠ 0 then (5, none)
  else if descTaken s n d then (2, none)
  else if descRetiring s d then (8, none)
  else match admission s n d with
    | some a => (4, some a)
    | none => (0, none)

/-! ## Commands (R42 to R46) -/

/-- The last step of a command is due (R45, R48): it holds BUSY, and at the next PCLK at which nothing has to drain it reports its RESULT. -/
def slmEnd (s : State) (result : Nat) : State := { s with slm := { s.slm with busy := true, due := some result } }

/-- A write to SL_CMD (R42, R45, R46): OP and TARGET. -/
def slCmd (path : Path) (op n : Nat) (body : State → State) (s : State) : Res :=
  let s := awake s
  if !(pathUp s path) then offPath s path
  else if !(pathSecure s.cfg path) then .next (raise s 23 0 0)
  else if s.fc.blockSafe || !(blockRuns s) then .next s
  else if s.slm.busy then .next { s with slm := { s.slm with collide := true } }
  else settle (body { s with slm := { s.slm with target := n % 256, lastOp := op, captured := stagedWords s } })

/-- End a command that its checks turned away. -/
def slmRefuse (s : State) (r : Nat × Option (Nat × Nat × Nat × Nat)) : State :=
  slmEnd (match r.2 with | some a => putAdmit s a | none => s) r.1

/-! ## BUILD (R48, R53) -/

/-- BUILD is not allowed in this state (R47 0x01, R53, R566, R513). -/
def buildBarred (s : State) (n : Nat) (d : List Word) : Bool :=
  (sliceOf s (n % 16)).state ≠ .free || (sliceOf s 0).state = .direct || s.ck.divCode ≠ 0 ||
  ((dKind d = 1 || dKind d = 2) && (s.ks.root ≠ 1 || s.lc.current = 0 || s.lc.dgOpen || s.lc.tearing))

/-- Claim the resources and set the slice ACTIVE (R48, R642). -/
def buildSlice (s : State) (n : Nat) (d : List Word) : State :=
  let s := modSlice s n fun _ => { Slice.zero with desc := d, state := .active }
  let s := { s with slm := { s.slm with buildLocked := true, lockAt := if s.slm.buildLocked then s.slm.lockAt else s.pclk },
                    s2 := s.s2.filter fun e => e.slice ≠ n }
  let s := modKsSlice s n fun _ => { KSlice.zero with fwBuild := (s.fw.running.map (·.meas)).getD 0 }
  let s := modSlSched s n fun a => { a with wait := 0, preempt := 0, steps := 0, fallback := 0, gaps := 0 }
  slmEnd (refreshSlices s s) 0

/-- What BUILD does with the captured descriptor (R48). -/
def buildWith (n : Nat) (d : List Word) (s : State) : State :=
  if buildBarred s n d then slmEnd s 1
  else match descResult s n d with
    | (0, _) => buildSlice s n d
    | r => slmRefuse s r

/-- BUILD (R48). -/
def execBuild (path : Path) (n : Nat) (s : State) : Res :=
  slCmd path 1 n (fun s => buildWith n (stagedDesc s.slm.captured) s) s

/-! ## CHANGE (R48, R49) -/

/-- A descriptor word with the bits that CHANGE may alter cleared (R49). -/
def fixedBits (d : List Word) : List Word :=
  (List.range 16).map fun w =>
    let keep : Nat := match w with
      | 0 => descMask 0 - 0xF * 2 ^ 38 - 2 ^ 32
      | 1 => descMask 1 - 0x3FFFF * 2 ^ 28
      | 2 | 3 | 4 | 5 | 10 => 0
      | 9 => 0x7FF
      | w => descMask w
    dw d w &&& BitVec.ofNat 64 keep

/-- Contexts of a slice that count as live (R49, R51, R61): those that are not FREE. That FAULTED and TEARING contexts count is the model's choice
(DESIGN CHOICE, log 148). -/
def liveCtxs (s : State) (n : Nat) : List Nat := (s.ctxs.filter fun c => c.2.slice = n && c.2.state ≠ .free).map (·.1)

/-- CHANGE is not allowed in this state (R48, R49). -/
def changeBarred (s : State) (n : Nat) (d : List Word) : Bool :=
  !(sliceLive s (n % 16)) ||
  (dCtxBase d = dCtxBase (descOf s (n % 16)) && (liveCtxs s (n % 16)).any fun c => dCtxBase d + dCtxCount d ≤ c)

/-- The engines that a CHANGE to `d` removes from the slice. -/
def changeRemoves (s : State) (n : Nat) (d : List Word) : List Nat := (dEngines (descOf s n)).filter fun e => !(dHasEngine d e)

/-- The removed engines that still hold a context: their release waits for its handover (R48, R29). -/
def changeWaits (s : State) (n : Nat) (d : List Word) : List Nat := (changeRemoves s n d).filter fun e => (engOf s e).ctx.isSome

/-- The removed engines of a CHANGE may take contexts again, or no more (R394). -/
def markRemoving (s : State) (engs : List Nat) (on : Bool) : State := engs.foldl (fun t e => modEng t e fun g => { g with removing := on }) s

/-- An accepted CHANGE starts: its slice is CHANGING, no engine that it removes takes a context any more, and each that holds one is asked to leave
(R48, R49, R394). -/
def changeStart (n : Nat) (d : List Word) (s : State) : State :=
  let wait := changeWaits s n d
  let s := markRemoving { s with slm := { s.slm with busy := true } } (changeRemoves s n d) true
  let s := modSlice s n fun x => { x with state := .changing, changeTo := d, releasing := wait }
  wait.foldl (fun t e => modEng t e fun g => { g with switchReq := true, preempt := true }) s

/-- The last steps of a CHANGE: added resources and guarantees, cached translations invalidated, the state set back (R48, R70). -/
def changeEnd (s : State) (n : Nat) : State :=
  let t := markRemoving s (changeRemoves s n (sliceOf s n).changeTo) false
  let t := modSlice t n fun x => { x with desc := x.changeTo, changeTo := [], releasing := [], state := .active }
  let t := reportChanged (refreshSlices s { t with s2 := t.s2.filter fun e => e.slice ≠ n }) n
  { t with slm := { t.slm with busy := false, result := 0 } }

/-- What CHANGE does with the captured descriptor (R48, R49). -/
def changeWith (n : Nat) (d : List Word) (s : State) : State :=
  if changeBarred s n d then slmEnd s 1
  else if fixedBits d ≠ fixedBits (descOf s (n % 16)) then slmEnd s 7
  else match descResult s n d with
    | (0, _) => changeStart n d s
    | r => slmRefuse s r

/-- Requests of a slice translated earlier have drained (R70): none of an engine, link port or host port still waits for its line. -/
def drainedOf (s : State) (n : Nat) : Bool :=
  s.sv.ports.all fun p => p.2.tags.all fun t => t.wait.isNone || t.attr.slice ≠ n || t.attr.kind = 3

/-- The frames in flight at a link port have drained (R48): no group is being gathered, waits to be handled or is on its way to memory. -/
def linkDrained (s : State) (i : Nat) : Bool :=
  (s.links.gather.all fun g => g.port ≠ i) && (s.links.verified.all fun v => v.port ≠ i) && s.links.hops.all fun h => h.code ≠ 0x40 + i

/-- A CHANGE may end: every removed engine is released, and what its link ports and its earlier translations still carry has drained (R48, R70). -/
def changeReady (s : State) (n : Nat) : Bool :=
  let x := sliceOf s n
  x.state = .changing && x.releasing.isEmpty && drainedOf s n &&
  ((dLinkList x.desc).filter fun i => !((dLinkList x.changeTo).contains i)).all (linkDrained s)

/-- One PCLK of the slice manager (R45, R48): a command whose last step is due ends once its slice's earlier requests have drained, and a CHANGE
ends once what it removes is released. -/
def slmDrive (s : State) : State :=
  if !s.slm.busy then s
  else match s.slm.due with
    | some r =>
      if s.slm.drain.all (drainedOf s) then { s with slm := { s.slm with busy := false, result := r, due := none, drain := none } } else s
    | none => if s.slm.lastOp = 2 && changeReady s (s.slm.target % 16) then changeEnd s (s.slm.target % 16) else s

/-- CHANGE (R48, R49). -/
def execChange (path : Path) (n : Nat) (s : State) : Res :=
  slCmd path 2 n (fun s => changeWith n (stagedDesc s.slm.captured) s) s

/-- CHANGE_ENGINE_RELEASE (R48, R29): engine `e` reaches a closed-tile boundary and leaves its slice. -/
def execChangeEngineRelease (e : Nat) (s : State) : Res :=
  match (List.range 16).find? fun n => (sliceOf s n).releasing.contains e with
  | none => .next s  -- no CHANGE removes the engine
  | some n =>
    guardRes s (blockRuns s && !(engOf s e).tileOpen)
      (let s := modEng (detach s e) e fun g => { g with switchReq := false, icache := [], runStart := s.pclk }
       modSlice s n fun x => { x with releasing := x.releasing.filter (· ≠ e) })

/-! ## DISSOLVE (R48, R446, R421) -/

/-- Start the teardown of every context of a slice. A dispatcher's teardown in progress no longer makes its context LIVE again. -/
def tearSlice (s : State) (n code : Nat) : State :=
  (liveCtxs s n).foldl (fun t c =>
    match (ctxOf t c).tear with
    | some _ => modCtx t c fun x => { x with tear := x.tear.map fun y => { y with relive := false } }
    | none => tearStart t c code none false) s

/-- A CHANGE of a slice that is dissolved meanwhile ends with RESULT 0x01; the engines it was to remove stay. -/
def dropChange (s : State) (n : Nat) : State :=
  if (sliceOf s n).changeTo.isEmpty then s
  else
    let s := markRemoving s (changeRemoves s n (sliceOf s n).changeTo) false
    slmEnd (modSlice s n fun x => { x with changeTo := [], releasing := [] }) 1

/-- DISSOLVE, a debug opening or a slice reset ends the checkpoint command of its slice with 0x01 (R561). -/
def cpStateEnd (s : State) (n : Nat) : State :=
  match s.cp.run with
  | some (k, _, m, _, _) =>
    if m = n then
      { s with cp := { s.cp with run := none, copies := mmod CpCopy.zero s.cp.copies k fun c => { c with cmd := none, result := 1 } } }
    else s
  | none => s

/-- The sweeps of a slice, at each of its ports. -/
def modSweeps (s : State) (n : Nat) (f : List Sweep → List Sweep) : State :=
  let d := descOf s n
  let own (w : Sweep) : Bool := dKeyBase d ≤ w.src && w.src < dKeyBase d + dKeyCount d
  (memberPorts d).foldl (fun t m => modPort t m fun p => { p with sweeps := p.sweeps.flatMap fun w => if own w then f [w] else [w] }) s

/-- Start to dissolve a slice; its sweeps visit no further group (R318), and fences of discarded packets take `code`. -/
def dissolveStart (s : State) (n code : Nat) : State :=
  let s := modSweeps (dropChange (cpStateEnd s n) n) n fun l => l.map fun w => { w with active := false }
  tearSlice (modSlice s n fun x => { x with state := .dissolving }) n code

/-- DISSOLVE (R48). -/
def execDissolve (path : Path) (n : Nat) (s : State) : Res :=
  slCmd path 3 n (fun s =>
    let st := (sliceOf s (n % 16)).state
    if !(st = .active || st = .degraded || st = .direct) then slmEnd s 1
    else if 16 ≤ n then slmEnd s 6
    else dissolveStart { s with slm := { s.slm with busy := true, due := none } } n cTORN_DOWN) s

/-- Keys, blobs and sessions of a slice are dropped (R48, R484, R500). Its memory keys go with their retirement. -/
def dropKeys (s : State) (n : Nat) : State :=
  let d := descOf s n
  let s := (List.range (dKeyCount d)).foldl (fun t k => clearBlob t (dKeyBase d + k)) s
  let s := (List.range (dLkeyCount d)).foldl (fun t k =>
    let k := dLkeyBase d + k
    modLkey (freeStreams (clearBlob (clearBlob t (blobTx + k)) (blobRx + k)) k) k fun _ => LinkKey.zero) s
  let s := (s.ks.sessions.filter fun x => (x.2.bound.map fun b => decide (b.1 = n)).getD false).foldl (fun t x => closeSession t x.1) s
  modKsSlice (clearBlob s (blobStream + n)) n fun _ => KSlice.zero

/-- Sweeps of a slice are dropped (R318, R634). -/
def stopSweeps (s : State) (n : Nat) : State := modSweeps s n fun _ => []

/-- The window and memory key identifiers of a slice go to retirement (R48, R311). -/
def handOver (s : State) (n : Nat) : State :=
  let d := descOf s n
  let kids := (List.range (dKeyCount d)).map (dKeyBase d + ·)
  let s := kids.foldl (fun t k => modKid t k fun x => { x with state := .retiring, partner := 0, overBudget := false }) (stopSweeps s n)
  { s with retJobs := (s.retJobs.filter fun j => j.step2 || !(j.kids.any kids.contains)) ++
                        [⟨kids, members d, dWinBase d, dWinSize d, true, []⟩] }

/-- The fences, beads and region entries of a slice are freed (R48, R421). -/
def freeObjects (s : State) (n : Nat) : State :=
  let s := { s with
    tally := s.tally.map fun (t : Nat × Tally) => (t.1, { t.2 with fences := (t.2.fences.filter fun f => f.2.slice ≠ n || f.2.state = 0) }),
    regions := s.regions.filter fun r => r.2.slice ≠ n,
    s2 := s.s2.filter fun e => e.slice ≠ n }
  { s with sched := { s.sched with
      beads := s.sched.beads.filter fun b => b.2.slice ≠ n || b.2.state = 0,
      order := s.sched.order.filter fun b => (beadOf s b).slice ≠ n || (beadOf s b).state = 0 } }

/-- A dissolving slice of which no context lives. -/
def dissolved (s : State) (n : Nat) : Bool := (sliceOf s n).state = .dissolving && (liveCtxs s n).isEmpty

/-- A slice reaches FREE (R48): its window goes to retirement, its budgets end with the next window. -/
def freeSlice (s : State) (n : Nat) : State :=
  let s := handOver (freeObjects (dropKeys s n) n) n
  updateBudgets (modSlice s n fun _ => Slice.zero)

/-- DISSOLVE_DRAIN_DONE (R48): the last context is FREE. When slice 0 leaves direct mode, firmware or the dispatcher takes over and the port
rings negotiate again (R438, R451, R459). -/
def execDissolveDrainDone (n : Nat) (s : State) : Res :=
  guardRes s (n < 16 && dissolved s n && drainedOf s n)
    (let first := n = 0 && !s.slm.buildLocked
     let s := freeSlice s n
     let s := if s.slm.busy && s.slm.due.isNone && s.slm.lastOp = 3 && s.slm.target = n then slmEnd s 0 else s
     if first then resumeRings (negotiationEvent s) else s)

/-! ## READ_DESC and regions (R48, R59 to R62, R283, R493, R635) -/

/-- Put words into the first staging registers. -/
def putStage (s : State) (ws : List Word) : State :=
  { s with slm := { s.slm with stage := ws.zipIdx.foldl (fun m x => mset 0 m x.2 x.1) s.slm.stage } }

/-- READ_DESC (R48). -/
def execReadDesc (path : Path) (n : Nat) (s : State) : Res :=
  slCmd path 4 n (fun s =>
    if 16 ≤ n then slmEnd s 6
    else slmEnd (putStage s (if (sliceOf s n).state = .free then List.replicate 16 0 else descOf s n)) 0) s

/-- The fields of a staged region entry (R59). -/
def regionFields (w0 w1 : Word) : Region :=
  { secure := bit w0 62, slice := field w0 58 4, owner := field w0 55 3, wide := bit w0 54, wr := bit w0 53, host := bit w0 52,
    xlink := bit w0 51, keyid := field w0 40 10, base := field w0 0 23, size := field w1 0 23 }

/-- Words 0 and 1 of a valid region entry. -/
def regionWords (r : Region) : List Word :=
  [packWord [(63, 1, 1), (62, 1, b2n r.secure), (58, 4, r.slice), (55, 3, r.owner), (54, 1, b2n r.wide), (53, 1, b2n r.wr),
     (52, 1, b2n r.host), (51, 1, b2n r.xlink), (40, 10, r.keyid), (0, 23, r.base)], packWord [(0, 23, r.size)]]

/-- A slice whose regions are fixed: confidential or joint with live contexts, or MEASURED (R61, R493). -/
def regionsFixed (s : State) (n : Nat) : Bool :=
  (sliceOf s n).state ≠ .free && dKind (descOf s n) ≠ 0 && (!(liveCtxs s n).isEmpty || (ksSlice s n).measured)

/-- A REGION_WRITE that its state checks turn away (R48, R61, R318, R493, R635). -/
def regionBarred (s : State) (i : Nat) (valid : Bool) (r : Region) : Bool :=
  let old := regionOf s i
  (valid && !(sliceLive s r.slice)) || regionsFixed s r.slice ||
  (old.elim false fun x => x.slice ≠ r.slice || regionsFixed s x.slice || (kidOf s x.keyid).state = .sweepTarget || (valid && x.wide ≠ r.wide))

/-- A REGION_WRITE that its field checks turn away (R60, R283). -/
def regionBad (s : State) (i : Nat) (r : Region) : Bool :=
  let d := descOf s r.slice
  let others := s.regions.filter fun x => x.1 ≠ i && x.2.slice = r.slice
  r.size = 0 || (members d).length * dWinSize d < r.base + r.size || others.any (fun x => meets r.base r.size x.2.base x.2.size) ||
  r.keyid < dKeyBase d || dKeyBase d + dKeyCount d ≤ r.keyid ||
  (dKind d = 2 && others.any fun x => x.2.keyid = r.keyid && x.2.owner ≠ r.owner) ||
  (if dKind d = 2 then dOwnersM1 d < r.owner else r.owner ≠ 0) ||
  (r.wide && (memberPorts d).any fun m =>
    dWinBase d < (portOf s m).wideBase || (portOf s m).wideBase + (portOf s m).wideSize < dWinBase d + dWinSize d)

/-- What the report of a slice shows of its key identifiers through the region table (R487, R494). -/
def keyShape (s : State) (n : Nat) : List Bool := (List.range 8).map fun o => keysPresent s n (some o)

/-- REGION_WRITE (R48): the entry is written, cached entries of the slice are invalidated, and the command ends when the requests translated
under the old entry have drained (R70). An entry written with VALID = 0 is not held to the field checks (DESIGN CHOICE, log 149). -/
def execRegionWrite (path : Path) (i : Nat) (s : State) : Res :=
  slCmd path 5 i (fun s =>
    let w0 := s.slm.captured.getD 0 0
    let r := regionFields w0 (s.slm.captured.getD 1 0)
    let i := i % 256
    let valid := bit w0 63
    if regionBarred s i valid r then slmEnd s 1
    else if valid && regionBad s i r then slmEnd s 6
    else
      let t := { s with regions := if valid then minsert s.regions i r else mdel s.regions i,
                        s2 := s.s2.filter fun e => e.slice ≠ r.slice }
      let t := if keyShape s r.slice = keyShape t r.slice then t else reportChanged t r.slice
      slmEnd { t with slm := { t.slm with drain := some r.slice } } 0) s

/-- REGION_READ (R48). -/
def execRegionRead (path : Path) (i : Nat) (s : State) : Res :=
  slCmd path 6 i (fun s =>
    slmEnd (putStage s (match regionOf s (i % 256) with
      | some r => regionWords r
      | none => [0, 0])) 0) s

end Sys2Proof.Machine
end

