-- ==== Sys2Proof/Machine/Keys.lean ====
section
/-! DEFINITION. The key store (16): derived keys (R472 to R474), blobs (R476, R477), installing and erasing keys (R478 to R480), the key
store commands, the slot scan, the DRBG and the entropy source. -/
namespace Sys2Proof.Machine

/-! ## Random values (R467, R468) -/

/-- Draw a value from the DRBG: free, and one generate request. -/
def drbg (s : State) (w : Nat) : State × BitVec w :=
  draw { s with ks := { s.ks with drbg := s.ks.drbg + 1 } } w

/-- DRBG_RESEED (R467): after 2^20 generate requests. -/
def execDrbgReseed (s : State) : Res :=
  guardRes s (2 ^ 20 ≤ s.ks.drbg) { s with ks := { s.ks with drbg := 0 } }

/-- ENTROPY_HEALTH_FAIL (R468): the DRBG generates nothing until a start-up test passes. -/
def execEntropyHealthFail (s : State) : Res :=
  settle (raise { s with ks := { s.ks with entropyFail := true } } 22 0 0)

/-! ## Derived keys (R472 to R474) -/

/-- The key derivation of R472 for up to two output blocks. -/
def kdfLong (key label context : List Byte) (bits : Nat) : List Byte :=
  let block (i : Nat) : List Byte :=
    beBytes 48 (hmac384 key (beBytes 4 (BitVec.ofNat 32 i) ++ label ++ [0] ++ context ++ beBytes 4 (BitVec.ofNat 32 bits)))
  (block 1 ++ block 2).take (bits / 8)

/-- The order of P-384. -/
def p384Order : Nat :=
  0xFFFFFFFFFFFFFFFFFFFFFFFFFFFFFFFFFFFFFFFFFFFFFFFFC7634D81F4372DDF581A0DB248B0A77AECEC196ACCC52973

/-- A private scalar of the root (R474): of DevID or PIK, by label. -/
def scalarOf (root : Key) (label : String) : BitVec 384 :=
  BitVec.ofNat 384 (natOfBe (kdfLong (beBytes 32 root) (asciiBytes label) [] 448) % (p384Order - 1) + 1)

/-- DevID. -/
def devId (s : State) : BitVec 384 := scalarOf s.ks.rootKey "LU-DEVID"
/-- PIK. -/
def pik (s : State) : BitVec 384 := scalarOf s.ks.rootKey "LU-IMPORT"
/-- KWK. -/
def kwk (s : State) : Key :=
  keyOfBytes (kdf384 (beBytes 32 s.ks.rootKey) (asciiBytes "LU-WRAP") (beBytes 32 s.ks.nonce) 256)

/-! ## Blobs (R476, R477) -/

/-- The bitmap of a list of small numbers. -/
def bitmap (xs : List Nat) : Nat := xs.foldl (fun a i => a ||| 2 ^ i) 0

/-- ATTR of a key of kind 1 memory, 2 link transmit, 3 link receive, 4 host session, 5 stream base (R477, R478). -/
def attrWord (s : State) (kind slice owner : Nat) (tenant : Bool) (port : Nat) : Word :=
  let d := descOf s slice
  packWord [(60, 4, kind), (56, 4, slice), (53, 3, owner), (52, 1, b2n tenant), (48, 4, if kind = 4 then 2 ^ port else 0),
    (24, 24, if kind = 1 then bitmap (memberPorts d) else 0), (6, 18, if kind = 2 || kind = 3 then dLinks d else 0)]

/-- Wrap a key into blob `b` of the secure part (R476), through the secure port (R267): WCOUNT rises by one. During a wipe the port answers
DENIED (R277). -/
def wrapBlob (s : State) (b : Nat) (attr : Word) (key : Key) : State :=
  let head := leBytes 8 attr.toNat ++ leBytes 8 s.ks.wcount
  let iv : BitVec 96 := BitVec.ofNat 96 (b * 2 ^ 64 + s.ks.wcount % 2 ^ 64)
  let sealed' := gcmSeal (kwk s) iv head (beBytes 32 key)
  let bytes := head ++ sealed'.1 ++ bytesOfBlock sealed'.2
  let s := (List.range 8).foldl (fun t w => modTally t 0 fun y =>
    if y.wiping then y else { y with sec := mset 0 y.sec (8192 + 8 * b + w) (BitVec.ofNat 64 (natOfBytes ((bytes.drop (8 * w)).take 8))) })
    (portSlot s 0 (securePort s.cfg 0))
  { s with ks := { s.ks with wcount := s.ks.wcount + 1 } }

/-! ## Identifiers and ranges -/

/-- Identifier `k` lies in a range. -/
def inRange (base count k : Nat) : Bool := base ≤ k && k < base + count

/-- A memory identifier named by a valid region, RETIRING, or in a sweep (R481, R500). -/
def kidHeld (s : State) (k : Nat) (regions : Bool) : Bool :=
  (regions && s.regions.any fun r => r.2.keyid = k) || (kidOf s k).state = .retiring || (kidOf s k).state = .sweepSource ||
  (kidOf s k).state = .sweepTarget

/-- Start the sweeps that identifiers over their budget wait for (R307). -/
def recheckOver (s : State) (n : Nat) : State :=
  let d := descOf s n
  if !s.sv.sweepEn || sweepActive s n then s
  else
    let due := (List.range (dKeyCount d)).findSome? fun k =>
      let a := dKeyBase d + k
      if (kidOf s a).state = .installed && (kidOf s a).overBudget then (spareFor s n a).map fun b => (a, b) else none
    match due with
    | some (a, b) => modKid (startSweep s n a b) a fun k => { k with overBudget := false }
    | none => s

/-- Install a key in blob, slots and identifier (R305, R349 to R351, R476, R478): kind 1, 2, 3 or 5. -/
def installKey (s : State) (kind slice owner id : Nat) (tenant : Bool) (key : Key) : State :=
  let attr := attrWord s kind slice owner tenant 0
  let s := match kind with
    | 1 =>
      recheckOver (modKid (wrapBlob s id attr key) id fun _ =>
        { Kid.zero with state := .installed, key := some key, owner := owner }) slice
    | 2 =>
      modLkey (freeStreams (wrapBlob s (blobTx + id) attr key) id) id fun k =>
        { k with tx := some key, owner := owner, slice := slice, budget := false, failed := false, uses := 0, ncount := [] }
    | 3 =>
      modLkey (freeStreams (wrapBlob s (blobRx + id) attr key) id) id fun k =>
        { k with rx := some key, owner := owner, slice := slice, failed := false }
    | _ => modKsSlice (wrapBlob s (blobStream + slice) attr key) slice fun k => { k with stream := some key }
  reportChanged s slice

/-- Erase a link key at once (R480, R349). -/
def eraseLink (s : State) (kind slice id : Nat) : State :=
  let s := clearBlob (freeStreams s id) ((if kind = 2 then blobTx else blobRx) + id)
  reportChanged (modLkey s id fun k =>
    let k := if kind = 2 then { k with tx := none } else { k with rx := none }
    if k.tx.isNone && k.rx.isNone then LinkKey.zero else k) slice

/-- Hand a memory identifier to retirement (R480, R311). -/
def eraseMemory (s : State) (slice id : Nat) : State :=
  let d := descOf s slice
  let s := modKid (clearBlob s id) id fun k => { k with state := .retiring, overBudget := false }
  reportChanged { s with retJobs := s.retJobs ++ [⟨[id], members d, dWinBase d, dWinSize d, false, []⟩] } slice

/-- ERASE's effect or its RESULT, for kind 1, 2 or 3 (R480, R481). -/
def eraseKey (s : State) (kind slice id : Nat) : State × Nat :=
  if kind = 1 then
    if kidHeld s id true then (s, 6)
    else if (kidOf s id).state ≠ .installed then (s, 1)
    else (eraseMemory s slice id, 0)
  else if (if kind = 2 then (lkeyOf s id).tx.isNone else (lkeyOf s id).rx.isNone) then (s, 1)
  else (eraseLink s kind slice id, 0)

/-! ## Commands (R480, R481) -/

/-- The 32 staged words. -/
def ksWords (s : State) : List Word := (List.range 32).map fun w => mget 0 s.ks.stage w

/-- A write to KS_CMD (R480, R481, R45): RESULT 0x05 without a root. The command holds BUSY until the next PCLK, which reports its RESULT. -/
def ksCmd (path : Path) (op : Nat) (body : State → List Word → State × Nat) (s : State) : Res :=
  let s := awake s
  if !(pathUp s path) then offPath s path
  else if !(pathSecure s.cfg path) || s.fc.blockSafe || !(blockRuns s) then .next s
  else if s.ks.busy then settle { s with ks := { s.ks with collide := true } }
  else
    let (t, r) := if s.ks.root ≠ 1 then (s, 5) else body s (ksWords s)
    settle { t with ks := { t.ks with lastOp := op, busy := true, due := some r } }

/-- One PCLK of the key store: a command whose RESULT is due ends (R45, R480). -/
def ksDrive (s : State) : State :=
  match s.ks.due with
  | some r => { s with ks := { s.ks with busy := false, due := none, result := r } }
  | none => s

/-- KIND, SLICE, OWNER and the identifier of stage word 0. -/
def ksFields (ws : List Word) : Nat × Nat × Nat × Nat :=
  let w := ws.getD 0 0
  (field w 60 4, field w 56 4, field w 53 3, field w 0 10)

/-- Bytes of staged words, each least significant byte first. -/
def wordsLe (ws : List Word) (a n : Nat) : List Byte := ((ws.drop a).take n).flatMap fun w => leBytes 8 w.toNat

/-- Checks that the commands for open slices share: the RESULT, if one of them fails. -/
def openFault (s : State) (kind slice id : Nat) : Option Nat :=
  let d := descOf s slice
  if !(sliceLive s slice) then some 1
  else if dKind d ≠ 0 then some 3
  else if kind = 0 || 3 < kind then some 3
  else if (if kind = 1 then !(inRange (dKeyBase d) (dKeyCount d) id) else !(inRange (dLkeyBase d) (dLkeyCount d) id)) then some 2
  else none

/-- IMPORT (R480): an ECDH-wrapped key for an open slice. -/
def execImportKey (path : Path) (s : State) : Res :=
  ksCmd path 1 (fun s ws =>
    let (kind, slice, _, id) := ksFields ws
    match openFault s kind slice id with
    | some r => (s, r)
    | none =>
      if kind = 1 && kidHeld s id false then (s, 6)
      else match Config.ecdh (pik s) (wordsLe ws 1 12) with
        | none => (s, 4)
        | some x =>
          let k := keyOfBytes (kdf384 (beBytes 48 x) (asciiBytes "LU-IMPORT-WRAP") (beBytes 8 (ws.getD 0 0)) 256)
          match gcmOpen k 0 (wordsLe ws 0 1) (wordsLe ws 13 4) (blockOfBytes (wordsLe ws 17 2)) with
          | none => (s, 4)
          | some key => (installKey s kind slice 0 id false (keyOfBytes key), 0)) s

/-- GENERATE (R480): a memory key drawn from the DRBG. -/
def execGenerate (path : Path) (s : State) : Res :=
  ksCmd path 2 (fun s ws =>
    let (kind, slice, _, id) := ksFields ws
    match openFault s kind slice id with
    | some r => (s, r)
    | none =>
      if kind ≠ 1 then (s, 3)
      else if kidHeld s id false then (s, 6)
      else if s.ks.entropyFail then (s, 5)
      else
        let (s, k) := drbg s 256
        (installKey s 1 slice 0 id false k, 0)) s

/-- ERASE (R480). -/
def execErase (path : Path) (s : State) : Res :=
  ksCmd path 3 (fun s ws =>
    let (kind, slice, _, id) := ksFields ws
    match openFault s kind slice id with
    | some r => (s, r)
    | none => eraseKey s kind slice id) s

/-- Another owner's sub-range meets this one. -/
def subMeets (xs : List (Nat × (Nat × Nat))) (owner base count : Nat) : Bool :=
  xs.any fun x => x.1 ≠ owner && meets base count x.2.1 x.2.2

/-- OWNER_BIND (R480): an owner's hash and key sub-ranges, before MEASURE. -/
def execOwnerBind (path : Path) (s : State) : Res :=
  ksCmd path 4 (fun s ws =>
    let (_, slice, owner, _) := ksFields ws
    let d := descOf s slice
    let k := ksSlice s slice
    let (mb, mc) := (field (ws.getD 7 0) 0 10, field (ws.getD 7 0) 10 11)
    let (lb, lc) := (field (ws.getD 8 0) 0 8, field (ws.getD 8 0) 8 9)
    if !(sliceLive s slice) || k.measured then (s, 1)
    else if dKind d = 0 then (s, 3)
    else if dOwnersM1 d < owner || (mc ≠ 0 && (mb < dKeyBase d || dKeyBase d + dKeyCount d < mb + mc)) ||
            (lc ≠ 0 && (lb < dLkeyBase d || dLkeyBase d + dLkeyCount d < lb + lc)) || subMeets k.memSub owner mb mc ||
            subMeets k.linkSub owner lb lc then (s, 2)
    else
      (reportChanged (modKsSlice s slice fun k =>
        { k with hash := mset 0 k.hash owner (BitVec.ofNat 384 (natOfBe (wordsLe ws 1 6))),
                 memSub := mset (0, 0) k.memSub owner (mb, mc), linkSub := mset (0, 0) k.linkSub owner (lb, lc) }) slice, 0)) s

/-- CERT_LOAD (R480, R482): a piece of the chain; on LAST the chain must carry the DevID public key. -/
def execCertLoad (path : Path) (s : State) : Res :=
  ksCmd path 5 (fun s ws =>
    let w := ws.getD 0 0
    let off := field w 0 16
    let len := field w 16 8
    if !(procUp s 6) then (s, 8)
    else if len = 0 || 248 < len || 8192 < off + len then (s, 7)
    else
      let buf := bwrite s.ks.certBuf off ((wordsLe ws 1 31).take len)
      let chain := bread buf 0 (off + len)
      if !(bit w 24) then ({ s with ks := { s.ks with certBuf := buf } }, 0)
      else if Config.certCarries chain (Config.p384Public (devId s)) then ({ s with ks := { s.ks with certBuf := buf, cert := some chain } }, 0)
      else (s, 7)) s

/-- Put a public key, X and Y, into stage words 0 to 11. -/
def stageKey (s : State) (pub : List Byte) : State :=
  { s with ks := { s.ks with stage := (List.range 12).foldl (fun m w =>
      mset 0 m w (BitVec.ofNat 64 (natOfBytes ((pub.drop (8 * w)).take 8)))) s.ks.stage } }

/-- DEVID_READ (R480). -/
def execDevidRead (path : Path) (s : State) : Res :=
  ksCmd path 6 (fun s _ => (stageKey s (Config.p384Public (devId s)), 0)) s

/-- PIK_READ (R480). -/
def execPikRead (path : Path) (s : State) : Res :=
  ksCmd path 7 (fun s _ => (stageKey s (Config.p384Public (pik s)), 0)) s

/-! ## The slot scan (R479) -/

/-- A key stands in the slot of blob `b`. -/
def slotHolds (s : State) (b : Nat) : Bool :=
  if b < blobTx then (kidOf s b).key.isSome
  else if b < blobRx then (lkeyOf s (b - blobTx)).tx.isSome
  else if b < blobSession then (lkeyOf s (b - blobRx)).rx.isSome
  else if b < blobStream then s.ks.sessions.any fun x => (x.2.slot.map fun y => decide (y.1 = b - blobSession)).getD false
  else b < 1616 && (ksSlice s (b - blobStream)).stream.isSome

/-- A key whose slot and blob both fail is gone (R479): its identifier is ABSENT until a key is installed again. -/
def loseKey (s : State) (b : Nat) : State :=
  if b < blobTx then
    let s := modKid s b fun k => { k with state := .absent, key := none }
    (sliceOfKey s b).elim s (reportChanged s)
  else if b < blobRx then reportChanged (modLkey s (b - blobTx) fun k => { k with tx := none }) (lkeyOf s (b - blobTx)).slice
  else if b < blobSession then reportChanged (modLkey s (b - blobRx) fun k => { k with rx := none }) (lkeyOf s (b - blobRx)).slice
  else if b < blobStream then
    { s with ks := { s.ks with sessions := s.ks.sessions.map fun x =>
        if (x.2.slot.map fun y => decide (y.1 = b - blobSession)).getD false then (x.1, { x.2 with slot := none }) else x } }
  else reportChanged (modKsSlice s (b - blobStream) fun k => { k with stream := none }) (b - blobStream)

/-- SLOT_SCAN (R479): the scan of the key of blob `blob` in one engine: `slotOk` says that CHK holds, `blobOk` that the blob verifies. -/
def execSlotScan (blob : Nat) (slotOk blobOk : Bool) (s : State) : Res :=
  guardRes s (blob < 1616 && slotHolds s blob)
    (if slotOk then s
     else
       let s := raise { s with ks := { s.ks with slotFail := satAdd 65535 s.ks.slotFail 1 } } 21 0 0
       if blobOk then s else loseKey s blob)

end Sys2Proof.Machine
end

