-- ==== Sys2Proof/Machine/Spdm.lean ====
section
/-! DEFINITION. The security processor (16): SPDM over the mailbox (R483 to R486, R617, R618), the slice report (R487, R488), and the
key-delivery messages (R489 to R494). -/
namespace Sys2Proof.Machine

/-! ## The slice report (R487, R488) -/

/-- The state code of a context in a report. -/
def ctxCode : CtxState → Nat
  | .free => 0
  | .live => 1
  | .faulted => 2
  | .tearing => 3

/-- STATE of SV_KIDn. -/
def kidCode : KidState → Nat
  | .absent => 0
  | .installed => 1
  | .sweepSource => 2
  | .sweepTarget => 3
  | .retiring => 4

/-- One entry of the context table (R488). -/
def ctxEntry (s : State) (c : Nat) : List Byte :=
  let x := ctxOf s c
  let a := x.acc
  leBytes 2 c ++ leBytes 1 x.gen ++ leBytes 1 (ctxCode x.state) ++ leBytes 4 a.preempt ++ leBytes 8 a.wait ++ leBytes 8 a.fallback ++
  leBytes 4 a.steps ++ leBytes 4 a.maxwait ++ leBytes 2 a.evict ++ List.replicate 6 0

/-- The context table of a slice, as entries. -/
def ctxTable (s : State) (n : Nat) : List (List Byte) := (ksSlice s n).lived.map (ctxEntry s)

/-- The entry of a memory identifier. -/
def memKeyEntry (s : State) (k : Nat) : List Byte :=
  let x := kidOf s k
  leBytes 1 1 ++ leBytes 2 k ++ leBytes 1 x.owner ++ leBytes 1 (kidCode x.state) ++ leBytes 1 (b2n x.overBudget) ++ leBytes 2 x.partner ++
  leBytes 8 x.uses

/-- The entry of a link identifier. -/
def linkKeyEntry (s : State) (k : Nat) : List Byte :=
  let x := lkeyOf s k
  leBytes 1 2 ++ leBytes 2 k ++ leBytes 1 x.owner ++ leBytes 1 (b2n (x.tx.isSome || x.rx.isSome)) ++
  leBytes 1 (2 * b2n x.budget + 4 * b2n x.failed) ++ leBytes 2 0 ++ leBytes 8 x.uses

/-- The key table of a slice, as entries: memory identifiers first. -/
def keyTable (s : State) (n : Nat) : List (List Byte) :=
  let d := descOf s n
  ((List.range (dKeyCount d)).map fun k => memKeyEntry s (dKeyBase d + k)) ++
  ((List.range (dLkeyCount d)).map fun k => linkKeyEntry s (dLkeyBase d + k))

/-- KEYS of a slice: a bit per owner (R494). -/
def keysBits (s : State) (n : Nat) : Nat :=
  bitmap ((List.range (ownersOf (descOf s n))).filter fun o => keysPresent s n (some o))

/-- Owner state bytes: BOUND, KEYS, ACCEPTED. -/
def ownerBytes (s : State) (n : Nat) : List Byte :=
  let k := ksSlice s n
  (List.range 8).flatMap fun o =>
    if o < ownersOf (descOf s n) && dKind (descOf s n) ≠ 0 then
      leBytes 1 (k.bound / 2 ^ o % 2 + 2 * (keysBits s n / 2 ^ o % 2) + 4 * (k.accepted / 2 ^ o % 2))
    else [0]

/-- The measurement of the running firmware; zero while none runs. -/
def fwMeas (s : State) : Digest := (s.fw.running.map (·.meas)).getD 0

/-- The slice report (R487). -/
def sliceReport (s : State) (n : Nat) : List Byte :=
  let d := descOf s n
  let k := ksSlice s n
  let a := slSchedOf s n
  let e := effOf s d
  let (fs, _, fl, fh) := fencedUnits s n
  let notInd := k.cpStatus / 2 % 2
  let ct := ctxTable s n
  let kt := keyTable s n
  leBytes 4 0x53524C31 ++ leBytes 1 1 ++ leBytes 1 n ++ leBytes 1 (dKind d) ++
  leBytes 1 (b2n (dSealed d) + 2 * b2n (anyFenced s n) + 4 * b2n k.measured + 8 * b2n (runnable s n) + 16 * notInd +
             32 * b2n (decide (fwMeas s ≠ k.fwBuild))) ++
  leBytes 8 k.seq ++ (List.range 16).flatMap (fun w => leBytes 8 (dw d w).toNat) ++
  leBytes 4 (dMemGuar d) ++ leBytes 4 (dLinkGuar d) ++ leBytes 4 (dHostGuar d) ++ leBytes 4 e.1 ++ leBytes 4 e.2.1 ++ leBytes 4 e.2.2 ++
  leBytes 12 (bitmap fs) ++ leBytes 4 (bitmap fl + 2 ^ 24 * bitmap fh) ++
  beBytes 48 k.digest ++ beBytes 48 k.fwBuild ++ beBytes 48 (fwMeas s) ++
  (List.range 8).flatMap (fun o => beBytes 48 (mget 0 k.hash o)) ++ ownerBytes s n ++
  leBytes 8 a.wait ++ leBytes 8 a.fallback ++ leBytes 4 a.preempt ++ leBytes 4 a.steps ++ leBytes 4 a.gaps ++
  leBytes 4 (min 65535 k.therm + 65536 * min 65535 k.power) ++
  (List.range 2).flatMap (fun h => (List.range 8).flatMap fun c =>
    let x := mget (0, 0) s.bw.served (128 * h + 8 * n + c)
    leBytes 8 x.1 ++ leBytes 8 x.2) ++
  leBytes 4 (min (2 ^ 32 - 1) (sliceOf s n).refused) ++ leBytes 4 k.cnt.1 ++ leBytes 4 k.cnt.2.1 ++ leBytes 4 k.cnt.2.2.1 ++
  leBytes 4 k.cnt.2.2.2.1 ++ leBytes 4 k.cnt.2.2.2.2 ++
  leBytes 8 k.cpStep ++ leBytes 2 k.cpOwn ++ leBytes 2 k.cpPartner ++ leBytes 1 k.cpStatus ++ List.replicate 3 0 ++
  shaBytes ct.flatten ++ shaBytes kt.flatten ++ leBytes 4 (ct.length % 65536 + 65536 * (kt.length % 65536)) ++ List.replicate 4 0

/-! ## The mailbox (R617, R618) -/

/-- Byte `i` of the request at port `p`. -/
def reqByte (s : State) (p i : Nat) : Nat := (bget (hkOf s p).req i).toNat
/-- The request at port `p`. -/
def reqBytes (s : State) (p : Nat) : List Byte := bread (hkOf s p).req 0 (hkOf s p).reqLen

/-- Complete a mailbox request with a response (R618): RSP_LEN, STATUS 0, DONE, event 0x1. -/
def respond (s : State) (p : Nat) (rsp : List Byte) : State :=
  let rsp := rsp.take 4096
  hostEvent (modHk s p fun h =>
    { h with mbxBusy := false, mbxDone := true, mbxStatus := 0, rspLen := rsp.length, rsp := bwrite [] 0 rsp }) p 1

/-- SPDM error codes of DSP0274: InvalidRequest, UnexpectedRequest, UnsupportedRequest, SessionLimitExceeded, DecryptError. -/
def spdmErr (code : Nat) : List Byte := Config.spdmBytes 0x7F [leBytes 1 code]

/-- Answer an SPDM request that its transcript takes in: the request and the response join it. -/
def spdmAnswer (s : State) (p code : Nat) (content : List (List Byte)) : State :=
  let rsp := Config.spdmBytes code content
  let s := modHk s p fun h => { h with transcript := h.transcript ++ reqBytes s p ++ rsp }
  respond s p rsp

/-- Answer with an SPDM error. -/
def answerErr (s : State) (p code : Nat) : State := respond s p (spdmErr code)

/-- A life-cycle state with a root: the mailbox answers more than GET_VERSION (R471). -/
def mailboxFull (s : State) : Bool := s.ks.root = 1

/-- In RAW, SCRAP and LOCKED, where no firmware runs, the mailbox answers GET_VERSION (R471, R504). -/
def romAnswers (s : State) : Bool := (s.lc.current = 0 || s.lc.current = 5 || s.lc.current = 15) && s.ck.rst.isNone

/-- An SPDM request with a code is in progress at port `p` (R618). -/
def spdmAt (s : State) (p code : Nat) : Bool :=
  (hkOf s p).mbxBusy && (hkOf s p).kind = 1 && reqByte s p 1 = code &&
  ((procUp s 6 && blockRuns s) || (code = 0x84 && romAnswers s))

/-- An SPDM request event: refused where no such request stands at the port. -/
def spdmReq (p code : Nat) (body : State → State) (s : State) : Res :=
  unitRes (p < s.cfg.hostPorts) s (spdmAt s p code) (body s)

/-- GET_VERSION (R483): negotiation and transcript start again. -/
def execGetVersion (p : Nat) (s : State) : Res :=
  spdmReq p 0x84 (fun s =>
    spdmAnswer (modHk s p fun h => { h with spdm := 1, transcript := [] }) p 0x04 [leBytes 2 0x1300]) s

/-- GET_CAPABILITIES (R483). -/
def execGetCapabilities (p : Nat) (s : State) : Res :=
  spdmReq p 0xE1 (fun s =>
    if !(mailboxFull s) then answerErr s p 7
    else if (hkOf s p).spdm ≠ 1 then answerErr s p 4
    else spdmAnswer (modHk s p fun h => { h with spdm := 2 }) p 0x61 [leBytes 4 4096, leBytes 4 4096]) s

/-- NEGOTIATE_ALGORITHMS (R483). -/
def execNegotiateAlgorithms (p : Nat) (s : State) : Res :=
  spdmReq p 0xE3 (fun s =>
    if !(mailboxFull s) then answerErr s p 7
    else if (hkOf s p).spdm ≠ 2 then answerErr s p 4
    else spdmAnswer (modHk s p fun h => { h with spdm := 3 }) p 0x63 []) s

/-- A request that needs negotiated algorithms. -/
def negotiated (p : Nat) (body : State → State) (s : State) : State :=
  if !(mailboxFull s) then answerErr s p 7 else if (hkOf s p).spdm ≠ 3 then answerErr s p 4 else body s

/-- GET_DIGESTS (R483): slot 0. -/
def execGetDigests (p : Nat) (s : State) : Res :=
  spdmReq p 0x81 (negotiated p fun s => spdmAnswer s p 0x01 (match s.ks.cert with
    | some c => [shaBytes c]
    | none => [])) s

/-- GET_CERTIFICATE (R482, R483): slot 0; an error until a chain is loaded. -/
def execGetCertificate (p : Nat) (s : State) : Res :=
  spdmReq p 0x82 (negotiated p fun s =>
    match s.ks.cert with
    | none => answerErr s p 1
    | some c =>
      let off := reqByte s p 4 + 256 * reqByte s p 5
      let len := reqByte s p 6 + 256 * reqByte s p 7
      if reqByte s p 2 % 16 ≠ 0 || c.length ≤ off then answerErr s p 1
      else
        let part := (c.drop off).take (min len 4096)
        spdmAnswer s p 0x02 [part, leBytes 2 part.length, leBytes 2 (c.length - off - part.length)]) s

/-! ## Measurements (R485, R486) -/

/-- The value of a measurement block for a request on port `p`; none where it does not exist. -/
def measValue (s : State) (p i : Nat) : Option (List Byte) :=
  if i = 1 then some (beBytes 48 Config.romDigest)
  else if i = 2 then some (beBytes 48 (fwMeas s))
  else if i = 3 then some (leBytes 8 ckVersion.toNat ++ leBytes 8 s.cfg.ckConfig.toNat ++ leBytes 8 s.cfg.ckTopology.toNat)
  else if i = 4 then
    some (leBytes 2 s.lc.current ++ leBytes 2 s.minSvn ++ leBytes 2 ((s.fw.running.map (·.svn)).getD 0) ++ leBytes 2 (b2n s.lc.dgOpen))
  else if 0x10 ≤ i && i ≤ 0x1F && portMay s p (i - 0x10) then some (sliceReport s (i - 0x10))
  else none

/-- The measurement blocks that an operation asks for; index 0xFF is 1 to 4. -/
def measBlocks (s : State) (p op : Nat) : Option (List (List Byte)) :=
  if op = 0xFF then some ([1, 2, 3, 4].filterMap fun i => (measValue s p i).map fun v => leBytes 1 i ++ v)
  else (measValue s p op).map fun v => [leBytes 1 op ++ v]

/-- The number of measurement blocks. -/
def measCount (s : State) (p : Nat) : Nat := 4 + ((List.range 16).filter (portMay s p)).length

/-- SPDM_CHALLENGE (R483, R485): signed with DevID over the transcript; it waits for the DRBG. -/
def execSpdmChallenge (p : Nat) (s : State) : Res :=
  spdmReq p 0x83 (negotiated p fun s =>
    match s.ks.cert with
    | none => answerErr s p 1
    | some c =>
      if s.ks.entropyFail then s
      else if reqByte s p 2 % 16 ≠ 0 || !(reqByte s p 3 = 0 || reqByte s p 3 = 0xFF) then answerErr s p 1
      else
        let (s, nonce) := drbg s 256
        let sum := if reqByte s p 3 = 0 then [] else shaBytes ((measBlocks s p 0xFF).getD []).flatten
        let content := [shaBytes c, beBytes 32 nonce, sum]
        let sig := Config.ecdsaSign (devId s) ((hkOf s p).transcript ++ reqBytes s p ++ Config.spdmBytes 0x03 content)
        spdmAnswer s p 0x03 (content ++ [sig])) s

/-! ## Sessions (R484) -/

/-- Session `k`, if it lives. -/
def sessionOf (s : State) (k : Nat) : Option Session := (s.ks.sessions.find? fun x => x.1 = k).map (·.2)
/-- Change a session. -/
def modSession (s : State) (k : Nat) (f : Session → Session) : State :=
  { s with ks := { s.ks with sessions := s.ks.sessions.map fun x => if x.1 = k then (x.1, f x.2) else x } }

/-- A secured message of session `k` is in progress at port `p`; `done` asks for a finished handshake. -/
def securedAt (s : State) (p k : Nat) (done : Bool) : Bool :=
  (hkOf s p).mbxBusy && (hkOf s p).kind = 2 && procUp s 6 && blockRuns s && reqByte s p 2 + 256 * reqByte s p 3 = k &&
  ((sessionOf s k).map fun x => decide (x.port = p) && (x.finished == done)).getD false

/-- Complete a secured request: the response is a secured message of the session (DSP0277). -/
def respondSecured (s : State) (p k code : Nat) (content : List (List Byte)) : State :=
  respond s p (Config.spdmBytes (0x100 + code) (leBytes 2 k :: content))

/-- KEY_EXCHANGE (R483, R484): a new session, at most 64; it waits for the DRBG. -/
def execKeyExchange (p : Nat) (s : State) : Res :=
  spdmReq p 0xE4 (negotiated p fun s =>
    match s.ks.cert with
    | none => answerErr s p 1
    | some _ =>
      if 64 ≤ s.ks.sessions.length then answerErr s p 0x0A
      else if s.ks.entropyFail then s
      else
        let k := ((List.range 64).find? fun k => (sessionOf s k).isNone).getD 0
        let (s, ems) := drbg s 384
        let x : Session := { port := p, finished := false, bound := none, slot := none, seqIn := 0, seqOut := 0, ems := ems, th2 := 0 }
        let s := { s with ks := { s.ks with sessions := minsert s.ks.sessions k x } }
        let (s, d) := drbg s 384
        let content := [leBytes 2 k, Config.p384Public d]
        let sig := Config.ecdsaSign (devId s) ((hkOf s p).transcript ++ reqBytes s p ++ Config.spdmBytes 0x64 content)
        spdmAnswer s p 0x64 (content ++ [sig])) s

/-- FINISH (R483): `body` is the opened message; verify data that does not hold ends the session with DecryptError. -/
def execFinish (p sess : Nat) (body : List Byte) (s : State) : Res :=
  unitRes (p < s.cfg.hostPorts) s  -- else: no FINISH of the session is in progress at the port
    (securedAt s p sess false && (body.getD 1 0).toNat = 0xE5)
    (let ems := ((sessionOf s sess).map (·.ems)).getD 0
     let th2 := Config.sha384 ((hkOf s p).transcript ++ body)
     if Config.finishVerifies ems th2 body then
       respondSecured (modSession s sess fun x => { x with finished := true, th2 := th2 }) p sess 0x65 []
     else answerErr (closeSession s sess) p 6)

/-- GET_MEASUREMENTS (R485, R486): outside a session, or inside session `sess` with the opened request `body`. Signed on request, over a
nonce that waits for the DRBG. -/
def execGetMeasurements (p : Nat) (sess : Option Nat) (body : List Byte) (s : State) : Res :=
  let req := match sess with
    | none => reqBytes s p
    | some _ => body
  let at' : Bool := match sess with
    | none => spdmAt s p 0xE0
    | some k => securedAt s p k true && (body.getD 1 0).toNat = 0xE0
  let err (s : State) (c : Nat) : State := match sess with
    | none => answerErr s p c
    | some k => respondSecured s p k 0x7F [leBytes 1 c]
  unitRes (p < s.cfg.hostPorts) s at'
    (if !(mailboxFull s) then err s 7
     else if (hkOf s p).spdm ≠ 3 then err s 4
     else
       let op := (req.getD 3 0).toNat
       let signed := (req.getD 2 0).toNat % 2 = 1
       match (if op = 0 then some [leBytes 1 (measCount s p)] else measBlocks s p op) with
       | none => err s 1
       | some blocks =>
         if s.ks.entropyFail then s
         else
           let (s, nonce) := drbg s 256
           let content := blocks ++ [beBytes 32 nonce]
           let sig := if signed then
               [Config.ecdsaSign (devId s) ((hkOf s p).transcript ++ req ++ Config.spdmBytes 0x60 content)] else []
           match sess with
           | none => spdmAnswer s p 0x60 (content ++ sig)
           | some k => respondSecured s p k 0x60 (content ++ sig))

/-! ## Key-delivery messages (R489 to R494) -/

/-- Answer a key-delivery message: the same code, a status, and its body. -/
def deliver (s : State) (p k code status : Nat) (body : List Byte) : State :=
  respondSecured s p k 0xFE [leBytes 1 code ++ leBytes 1 status ++ leBytes 2 body.length ++ body]

/-- A failing status that the manual does not name: a free RESULT of R481. -/
def freeStatus (s : State) : State × Nat :=
  let (s, r) := draw s 8
  (s, 1 + r.toNat % 9)

/-- A key-delivery message of a session: the message is taken, and its status and answer sent. -/
def message (p sess code : Nat) (body : State → State × Nat × List Byte) (s : State) : Res :=
  unitRes (p < s.cfg.hostPorts) s (securedAt s p sess true)
    (let (t, status, rsp) := body s
     deliver t p sess code status rsp)

/-- A message that needs a bound session, of a slice that is not dissolving (R489, R500). -/
def boundMessage (p sess code : Nat) (body : State → Nat → Nat → State × Nat × List Byte) (s : State) : Res :=
  message p sess code (fun s =>
    match (sessionOf s sess).bind (·.bound) with
    | some (n, o) => if sliceLive s n || (sliceOf s n).state = .changing then body s n o else (s, 1, [])
    | none => (s, 1, [])) s

/-- BIND (R490, R514): `body` holds slice, owner, X, Y, r and s. -/
def execBind (p sess : Nat) (body : List Byte) (s : State) : Res :=
  message p sess 1 (fun s =>
    let n := (body.getD 0 0).toNat
    let o := (body.getD 1 0).toNat
    let pub := (body.drop 2).take 96
    let hash := mget 0 (ksSlice s n).hash o
    match sessionOf s sess with
    | none => (s, 1, [])
    | some x =>
      if x.bound.isSome || 16 ≤ n || !(sliceLive s n) || s.lc.dgOpen then (s, 1, [])
      else if body.length ≠ 194 || hash = 0 || beBytes 48 hash ≠ shaBytes (4 :: pub) ||
              !(Config.ecdsaVerify pub (shaBytes (asciiBytes "LU-BIND" ++ beBytes 48 x.th2)) (body.drop 98)) || !(portMay s p n) then
        let (s, r) := freeStatus s
        (s, r, [])
      else
        let slot := ((List.range 64).find? fun k =>
          !(s.ks.sessions.any fun y => (y.2.slot.map fun z => decide (z.1 = k)).getD false)).getD 0
        let m := kdf384 (beBytes 48 x.ems) (asciiBytes "LU-BOUNCE") (leBytes 1 n ++ leBytes 1 o ++ leBytes 1 p) 352
        let salt (i : Nat) : BitVec 32 := BitVec.ofNat 32 (natOfBe ((m.drop (32 + 4 * i)).take 4))
        let key := keyOfBytes (m.take 32)
        let s := modSession s sess fun x =>
          { x with bound := some (n, o), slot := some (slot, key, salt 0, salt 1, salt 2), seqIn := 0, seqOut := 0 }
        let s := wrapBlob s (blobSession + slot) (attrWord s 4 n o true p) key
        (reportChanged (modKsSlice s n fun k => { k with bound := k.bound ||| 2 ^ o }) n, 0, [])) s

/-- The sub-range of an owner: memory or link identifiers (R480, R489). -/
def subRange (s : State) (kind n o : Nat) : Nat × Nat :=
  if kind = 1 then mget (0, 0) (ksSlice s n).memSub o else mget (0, 0) (ksSlice s n).linkSub o

/-- KEY_PUT (R489, R514): `body` holds KIND, identifier and key. -/
def execKeyPut (p sess : Nat) (body : List Byte) (s : State) : Res :=
  boundMessage p sess 2 (fun s n o =>
    let kind := (body.getD 0 0).toNat
    let id := natOfBytes ((body.drop 1).take 2)
    let key := keyOfBytes (body.drop 3)
    let r := subRange s kind n o
    if s.lc.dgOpen then (s, 1, [])
    else if body.length ≠ 35 || !(kind = 1 || kind = 2 || kind = 3 || kind = 5) || (kind = 5 && o ≠ 0) then
      let (s, r) := freeStatus s
      (s, r, [])
    else if kind ≠ 5 && !(inRange r.1 r.2 id) then (s, 2, [])
    else if kind = 1 && kidHeld s id false then (s, 6, [])
    else (installKey s kind n o id true key, 0, [])) s

/-- KEY_ERASE (R489): as ERASE, within the owner's sub-range. -/
def execKeyErase (p sess : Nat) (body : List Byte) (s : State) : Res :=
  boundMessage p sess 3 (fun s n o =>
    let kind := (body.getD 0 0).toNat
    let id := natOfBytes ((body.drop 1).take 2)
    let r := subRange s kind n o
    if kind = 0 || 3 < kind then (s, 3, [])
    else if !(inRange r.1 r.2 id) then (s, 2, [])
    else
      let (s, c) := eraseKey s kind n id
      (s, c, [])) s

/-- The plaintext of a region, in ascending address; none where a line cannot be read. -/
def regionPlain (s : State) (n : Nat) (r : Region) : State × Option (List Byte) :=
  match memRead s (blockWho n) .spa (mib2 * r.base) (mib2 * r.size) with
  | (s, .ok bs) => (s, some bs)
  | (s, .err _) => (s, none)

/-- The plaintext of every region of a slice with WR = 0, in ascending index (R493). -/
def programPlain (s : State) (n : Nat) : State × Option (List Byte) :=
  (s.regions.filter fun r => r.2.slice = n && !r.2.wr).foldl (fun acc r =>
    match acc.2 with
    | none => acc
    | some bs => match regionPlain acc.1 n r.2 with
      | (t, some x) => (t, some (bs ++ x))
      | (t, none) => (t, none)) (s, some [])

/-- MEASURE (R493): a program that cannot be read has no digest. -/
def execMeasure (p sess : Nat) (_body : List Byte) (s : State) : Res :=
  boundMessage p sess 4 (fun s n _ =>
    if !(liveCtxs s n).isEmpty || (ksSlice s n).measured then (s, 1, [])
    else match programPlain s n with
      | (s, some bs) =>
        (reportChanged (modKsSlice s n fun k => { k with measured := true, digest := Config.sha384 bs }) n, 0, [])
      | (s, none) =>
        let (s, r) := freeStatus s
        (s, r, [])) s

/-- ACCEPT (R489): sets ACCEPTED when the digest equals PROGRAM_DIGEST. -/
def execAccept (p sess : Nat) (body : List Byte) (s : State) : Res :=
  boundMessage p sess 5 (fun s n o =>
    if (ksSlice s n).measured && body.length = 48 && beBytes 48 (ksSlice s n).digest = body then
      (reportChanged (modKsSlice s n fun k => { k with accepted := k.accepted ||| 2 ^ o }) n, 0, [])
    else (s, 1, [])) s

/-- REPORT_DETAIL (R488): `body` holds the table, 0 contexts or 1 keys, and the page of 64 entries. -/
def execReportDetail (p sess : Nat) (body : List Byte) (s : State) : Res :=
  boundMessage p sess 6 (fun s n _ =>
    let table := (body.getD 0 0).toNat
    let page := natOfBytes ((body.drop 1).take 2)
    let all := if table = 0 then ctxTable s n else keyTable s n
    if 1 < table then
      let (s, r) := freeStatus s
      (s, r, [])
    else (s, 0, ((all.drop (64 * page)).take 64).flatten)) s

/-- CLOSE (R484, R489): the session ends and its host session key is erased. -/
def execClose (p sess : Nat) (_body : List Byte) (s : State) : Res :=
  message p sess 7 (fun s => (closeSession s sess, 0, [])) s

end Sys2Proof.Machine
end

