-- ==== Sys2Proof/Machine/Bounce.lean ====
section
/-! DEFINITION. Bounce buffers (16): bounce commands of a host packet port, their checks and transfers (R495 to R499). -/
namespace Sys2Proof.Machine

/-- Word `i` of a bounce command. -/
def bw (b : Bounce) (i : Nat) : Word := b.getD i 0
/-- DIR. -/
def bDir (b : Bounce) : Nat := field (bw b 0) 8 1
/-- SESSION. -/
def bSlot (b : Bounce) : Nat := field (bw b 0) 16 6
/-- LEN. -/
def bLen (b : Bounce) : Nat := field (bw b 0) 32 32
/-- SEQ. -/
def bSeq (b : Bounce) : Nat := (bw b 1).toNat
/-- The slice physical address. -/
def bSpa (b : Bounce) : Nat := field (bw b 3) 0 44
/-- FENCE. -/
def bFence (b : Bounce) : Nat := field (bw b 4) 0 18

/-- A command with VER 1, LEN and addresses within R496 and every other bit zero. -/
def bounceLegal (b : Bounce) : Bool :=
  field (bw b 0) 0 8 = 1 && (bw b 0).toNat &&& (2 ^ 32 - 1 - 0xFF - 0x100 - 0x3F0000) = 0 && 64 ≤ bLen b && bLen b ≤ 65536 && bLen b % 64 = 0 &&
  (bw b 2).toNat % 16 = 0 && (bw b 3).toNat < 2 ^ 44 && bSpa b % 64 = 0 && (bw b 4).toNat < 2 ^ 18 &&
  (bDir b = 1 || (bw b 6 = 0 && bw b 7 = 0))

/-- The AAD: words 0 to 5. -/
def bounceAad (b : Bounce) : List Byte := (List.range 6).flatMap fun i => leBytes 8 (bw b i).toNat

/-- The GCM IV of a salt: SALT, then SEQ as 8 bytes. -/
def bounceIv (salt : BitVec 32) (b : Bounce) : BitVec 96 := BitVec.ofNat 96 (salt.toNat * 2 ^ 64 + bSeq b)

/-- The session whose host session slot a command names, with its slot's keys. -/
def bounceSession (s : State) (p : Nat) (b : Bounce) : Option (Nat × Session × Nat × Nat × Key × BitVec 32 × BitVec 32 × BitVec 32) :=
  s.ks.sessions.findSome? fun x =>
    match x.2.slot, x.2.bound with
    | some (k, key, h2d, d2h, cmd), some (n, o) => if k = bSlot b && x.2.port = p then some (x.1, x.2, n, o, key, h2d, d2h, cmd) else none
    | _, _ => none

/-- The region that R498 asks for: the valid region of the slice that holds the whole range. -/
def bounceRegion (s : State) (n o : Nat) (b : Bounce) : Option Region :=
  (s.regions.find? fun r =>
    r.2.slice = n && mib2 * r.2.base ≤ bSpa b && bSpa b + bLen b ≤ mib2 * (r.2.base + r.2.size) && r.2.host && r.2.owner = o &&
    (bDir b = 1 || r.2.wr)).map (·.2)

/-- A command of a sealed slice waits while earlier requests of its master do (R383). -/
def bounceWaits (s : State) (p : Nat) (b : Bounce) : Bool :=
  match bounceSession s p b with
  | some (_, _, n, _) => bwWaits s (hostWho s p n).attr
  | none => false

/-- The CAUSE for which a command is refused before its data is looked at (R498). -/
def bounceFault (s : State) (p : Nat) (b : Bounce) : Option Nat :=
  match bounceSession s p b with
  | none => some 3
  | some (_, x, n, o, _) =>
    if bSeq b ≤ (if bDir b = 0 then x.seqIn else x.seqOut) then some 2
    else match bounceRegion s n o b with
      | none => some 4
      | some r => if (kidOf s r.keyid).key.isNone then some 5 else none

/-- The command at the head of a port's queue starts: DIR 0 reads its buffer and tag. -/
def bounceStart (s : State) (p : Nat) : State :=
  match (hkOf s p).bncQueue with
  | b :: _ =>
    if bDir b = 0 && bounceLegal b && !((hportOf s p).tags.any fun t => t.reader = .bounce) then
      hostFetch s p .bounce (bw b 2).toNat (bLen b + 16)
    else s
  | [] => s

/-- Take the oldest command off the queue and start the next. -/
def bouncePop (s : State) (p : Nat) : State :=
  bounceStart (modHport (modHk s p fun h => { h with bncQueue := h.bncQueue.tail, bncMoved := false }) p fun h =>
    { h with tags := h.tags.filter fun t => t.reader ≠ .bounce }) p

/-- Count a refusal of a command with its CAUSE; PERMISSION goes to its fence where that belongs to the slice (R498). -/
def bounceRefused (s : State) (p cause : Nat) (b : Bounce) : State :=
  let s := modHk s p fun h => { h with cause := cause, refused := satAdd (2 ^ 32 - 1) h.refused 1 }
  match bounceSession s p b with
  | some (_, _, n, _) =>
    if (fenceOf s (bFence b)).slice = n && (fenceOf s (bFence b)).state ≠ 0 then
      fenceOp s p (bFence b) .seterr (BitVec.ofNat 64 cPERMISSION)
    else s
  | none => s

/-- Submit a command (R496): refused with CAUSE 0x06 where eight are queued. -/
def bounceSubmit (s : State) (p : Nat) (b : Bounce) : State :=
  if 8 ≤ (hkOf s p).bncQueue.length then bounceRefused s p 6 b
  else
    let first := (hkOf s p).bncQueue.isEmpty
    let s := modHk s p fun h => { h with bncQueue := h.bncQueue ++ [b] }
    if first then bounceStart s p else s

/-- Refuse the oldest command. -/
def bounceRefuse (s : State) (p cause : Nat) (b : Bounce) : State := bouncePop (bounceRefused s p cause b) p

/-- A refusal whose CAUSE the manual does not name is one of its seven. -/
def bounceRefuseFree (s : State) (p : Nat) (b : Bounce) : State :=
  let (s, r) := draw s 8
  bounceRefuse s p (1 + r.toNat % 7) b

/-- The oldest command of a port, of a direction, that has not yet moved its data. -/
def bounceHead (s : State) (p dir : Nat) : Option Bounce :=
  match (hkOf s p).bncQueue with
  | b :: _ => if bDir b = dir && !(hkOf s p).bncMoved then some b else none
  | [] => none

/-- Record an accepted SEQ and that the data has moved. -/
def bounceMoved (s : State) (p k dir seq : Nat) : State :=
  modHk (modSession s k fun x => if dir = 0 then { x with seqIn := seq } else { x with seqOut := seq }) p fun h => { h with bncMoved := true }

/-- BOUNCE_H2D (R497): the ciphertext and tag of a DIR 0 command have been read as `data`; it is opened, and the slice memory written. -/
def execBounceH2d (p : Nat) (data : List Byte) (s : State) : Res :=
  match bounceHead s p 0 with
  | none => .next s  -- no DIR 0 command is at the head of the port's queue
  | some b =>
    unitRes (p < s.cfg.hostPorts) s  -- else: the bytes are not the buffer's, their last read is not out, or the write waits for the next window
      (blockRuns s && !(bounceWaits s p b) && (!(bounceLegal b) || (data.length = bLen b + 16 && readOut s p .bounce data)))
      (if !(bounceLegal b) then bounceRefuseFree s p b
       else match bounceFault s p b, bounceSession s p b with
         | some cause, _ => bounceRefuse s p cause b
         | none, none => bounceRefuse s p 3 b
         | none, some (k, _, n, _, key, h2d, _, _) =>
           match gcmOpen key (bounceIv h2d b) (bounceAad b) (data.take (bLen b)) (blockOfBytes (data.drop (bLen b))) with
           | none => bounceRefuse s p 1 b
           | some pt =>
             match memWrite s (hostWho s p n) .spa (bSpa b) pt with
             | (s, none) => bounceMoved s p k 0 (bSeq b)
             | (s, some _) => bounceRefuseFree s p b)

/-- BOUNCE_D2H (R497): CMDTAG of a DIR 1 command is verified, and slice memory goes to the buffer as ciphertext and tag. -/
def execBounceD2h (p : Nat) (s : State) : Res :=
  match bounceHead s p 1 with
  | none => .next s  -- no DIR 1 command is at the head of the port's queue
  | some b =>
    unitRes (p < s.cfg.hostPorts) s (blockRuns s && !(bounceWaits s p b))
      (if !(bounceLegal b) then bounceRefuseFree s p b
       else match bounceFault s p b, bounceSession s p b with
         | some cause, _ => bounceRefuse s p cause b
         | none, none => bounceRefuse s p 3 b
         | none, some (k, _, n, _, key, _, d2h, cmd) =>
           if gcmTag key (bounceIv cmd b) (bounceAad b) [] ≠ blockOfBytes (leBytes 8 (bw b 6).toNat ++ leBytes 8 (bw b 7).toNat) then
             bounceRefuse s p 1 b
           else match memRead s (hostWho s p n) .spa (bSpa b) (bLen b) with
             | (s, .err _) => bounceRefuseFree s p b
             | (s, .ok pt) =>
               let x := gcmSeal key (bounceIv d2h b) (bounceAad b) pt
               bounceMoved (hostPost s p (bw b 2).toNat (x.1 ++ bytesOfBlock x.2)) p k 1 (bSeq b))

/-- BOUNCE_COMPLETE (R497): the last byte of the oldest command is written; its fence, where it is the slice's, is signalled with VALUE. -/
def execBounceComplete (p : Nat) (s : State) : Res :=
  match (hkOf s p).bncQueue with
  | [] => .next s  -- the port executes no bounce command
  | b :: _ =>
    unitRes (p < s.cfg.hostPorts) s  -- else: the command has not moved its data, or its writes wait for credits
      ((hkOf s p).bncMoved && (hportOf s p).outQ.isEmpty)
      (let s := match bounceSession s p b with
         | some (_, _, n, _) =>
           if (fenceOf s (bFence b)).slice = n && (fenceOf s (bFence b)).state ≠ 0 then fenceOp s p (bFence b) .max (bw b 5) else s
         | none => s
       bouncePop s p)

end Sys2Proof.Machine
end

