-- ==== Sys2Proof/Machine/Fences.lean ====
section
/-! DEFINITION. The fault collector (18): units of the sources, safe states (R523), fences (R525), classification (R520), the first record
(R529), and the error events. -/
namespace Sys2Proof.Machine

/-! ## Units (R519) -/

/-- The unit that a source and instance name: kind (1 engine, 2 cluster, 3 link port, 4 host port, 5 sub-channel, 6 memory port) and
number; none for a source without one. -/
def srcUnit (b inst : Nat) : Option (Nat × Nat) :=
  match b with
  | 0 | 1 | 7 => some (1, inst)
  | 2 | 3 | 8 => some (2, inst)
  | 10 => if inst < 64 then some (6, inst) else some (3, inst - 64)
  | 11 => some (6, inst / 4)
  | 12 | 13 | 14 | 16 => some (5, inst)
  | 15 => some (6, inst)
  | 17 | 18 => some (3, inst)
  | 19 | 20 => some (4, inst)
  | _ => none

/-- A unit that the configuration holds. -/
def hasUnit (c : Cfg) (k i : Nat) : Bool :=
  match k with
  | 1 => c.hasEngine i
  | 2 => i < c.clusters
  | 3 => i < c.linkPorts
  | 4 => i < c.hostPorts
  | 5 => c.hasSub (i / 4) (i % 4)
  | 6 => i < c.memPorts
  | _ => false

/-- Wired sub-channel indices of a memory port. -/
def portSubs (c : Cfg) (m : Nat) : List Nat := ((List.range 4).filter (c.hasSub m)).map (4 * m + ·)

/-- A unit is fenced; an engine also with its cluster, a memory port with all its sub-channels. -/
def unitFenced (s : State) (k i : Nat) : Bool :=
  match k with
  | 1 => engFencedAny s i
  | 2 => s.fc.clFenced.contains i
  | 3 => s.fc.linkFenced.contains i
  | 4 => s.fc.hostFenced.contains i
  | 5 => s.fc.subFenced.contains i
  | _ => (portSubs s.cfg i).all s.fc.subFenced.contains

/-- A unit is in reset (R546). -/
def unitResetting (s : State) (k i : Nat) : Bool := s.ck.rst.isSome || (k = 1 && (engOf s i).phase = .resetting)

/-- The slices, not FREE, that hold a unit. -/
def unitHolders (s : State) (k i : Nat) : List Nat :=
  (List.range 16).filter fun n =>
    let d := descOf s n
    (sliceOf s n).state ≠ .free &&
    (match k with
     | 1 => dHasEngine d i
     | 2 => (dEngines d).any fun e => e / 4 = i
     | 3 => (dLinkList d).contains i
     | 4 => (dHostList d).contains i
     | 5 => dHasSub d i
     | _ => (memberPorts d).contains i)

/-- SLICE of a record: the slice the event bears on, else the one slice that holds the unit (R545). -/
def recordSlice (s : State) (l : ErrLine) : Option Nat :=
  match l.slice, srcUnit l.src l.inst with
  | some n, _ => some n
  | none, some (k, i) =>
    match unitHolders s k i with
    | [n] => some n
    | _ => none
  | none, none => none

/-! ## Safe states (R523) -/

/-- The running context of an engine becomes FAULTED with FENCED_UNIT. -/
def failEngine (s : State) (e : Nat) : State :=
  match (engOf s e).ctx with
  | some (c, gen) => if (ctxOf s c).gen = gen then failCtx s c cFENCED_UNIT else abandonTile s e c gen
  | none => s

/-- Every engine of a cluster fails. -/
def failCluster (s : State) (k : Nat) : State := (List.range 4).foldl (fun t i => failEngine t (4 * k + i)) s

/-- Frames gathered at a link port are dropped. -/
def dropFrames (s : State) (i : Nat) : State := modLinks s fun l => { l with gather := l.gather.filter fun g => g.port ≠ i }

/-- A write that a sub-channel presents and the licensee has not accepted becomes the poison marker (R588). Whether the newest request of the
sub-channel is accepted already is the licensee's choice: a free value (DESIGN CHOICE, log 170). -/
def poisonPresented (s : State) (i : Nat) : State :=
  match ((portOf s (i / 4)).tags.filter fun t => t.sub = i % 4).getLast? with
  | some t =>
    if t.write then
      let (s, b) := drawBool s
      if b then putBeat s (i / 4) (i % 4) t.line poisonBeat else s
    else s
  | none => s

/-- What a unit's safe state does at once; what it stops is stopped where it starts. -/
def enterSafe (s : State) (k i : Nat) : State :=
  match k with
  | 1 => failEngine s i
  | 2 => failCluster s i
  | 3 => dropFrames s i
  | 5 => poisonPresented s i
  | 6 => (portSubs s.cfg i).foldl poisonPresented s
  | _ => s

/-- A safe state held while bit `b` is set (R522). -/
def holdUnit (s : State) (b k i : Nat) : State :=
  let s := { s with fc := { s.fc with safe := if s.fc.safe.contains (b, k, i) then s.fc.safe else s.fc.safe ++ [(b, k, i)] } }
  enterSafe s k i

/-- The block safe state of every unit but the memory ports' presented writes (R523): also what holds while ROOTCLK is absent (R563). -/
def holdBlock (s : State) : State :=
  if s.fc.blockSafe then s
  else
    let s := { s with fc := { s.fc with blockSafe := true } }
    let s := s.cfg.engineList.foldl failEngine s
    (List.range s.cfg.linkPorts).foldl dropFrames s

/-- The block safe state (R523, R588): every unit's, until a block reset. -/
def enterBlockSafe (s : State) : State :=
  if s.fc.blockSafe then s else (holdBlock s).cfg.subs.foldl poisonPresented (holdBlock s)

/-! ## Fences (R525, R630) -/

/-- An engine leaves service; its request at the wake governor is withdrawn (R570). -/
def fenceEngine (s : State) (e : Nat) : State :=
  let s := failEngine s e
  let s := if (engOf s e).phase = .startReq then modEng s e fun g => { g with phase := .off } else s
  { s with ck := { s.ck with gov := s.ck.gov.filter (· ≠ e) }, fc := { s.fc with engFenced := sins s.fc.engFenced e } }

/-- A cluster leaves service: its engines' contexts and those whose Bolt region lies in it fail, and queued Shuttle operations end with
FENCED_UNIT. -/
def fenceCluster (s : State) (k : Nat) : State :=
  let s := failCluster s k
  let homes := ((clOf s k).regions.filter fun r => r.2.valid && (ctxOf s r.2.ctx).gen = r.2.gen).map (·.2.ctx)
  let s := homes.foldl (fun t c => if (ctxOf t c).state = .live then failCtx t c cFENCED_UNIT else t) s
  let gone := ((clOf s k).shuttle.filter fun o => !o.started).map fun o => (o.ctx, o.gen)
  let s := modCl s k fun x => { x with shuttle := x.shuttle.filter (·.started) }
  let s := gone.foldl (fun t o => if (ctxOf t o.1).gen = o.2 then checkDone t o.1 else t) s
  let s := { s with ck := { s.ck with gov := s.ck.gov.filter fun e => e / 4 ≠ k },
                    engines := s.engines.map fun (e : Nat × Engine) =>
                      if e.1 / 4 = k && e.2.phase = EngPhase.startReq then (e.1, { e.2 with phase := .off }) else e }
  { s with fc := { s.fc with clFenced := sins s.fc.clFenced k } }

/-- The answer of an access that waits at a sub-channel when it is fenced. -/
def failWaiting (s : State) : Waiting → State
  | .read r => answer s r.attr (.fail cFENCED_UNIT)
  | .partialWrite r _ _ => answer s r.attr (.fail cFENCED_UNIT)

/-- A sub-channel leaves service: waiting accesses end with FENCED_UNIT, and later completions of its tags are discarded (R604); a sweep of a slice
it belongs to is then held at its port (R318). -/
def fenceSub (s : State) (i : Nat) : State :=
  let m := i / 4
  let mine := (portOf s m).tags.filter fun t => t.sub = i % 4
  let s := modPort s m fun p =>
    { p with tags := p.tags.filter fun t => t.sub ≠ i % 4, left := p.left ++ mine.map fun t => (t.sub, t.num, t.write) }
  (mine.filterMap (·.wait)).foldl failWaiting { s with fc := { s.fc with subFenced := sins s.fc.subFenced i } }

/-- A bounce command whose port is fenced ends with FENCED_UNIT on its fence, where that belongs to the slice (R630). -/
def bounceFenced (s : State) (p : Nat) (b : Bounce) : State :=
  match bounceSession s p b with
  | some (_, _, n, _) => if (fenceOf s (bFence b)).slice = n then fenceErr s (bFence b) cFENCED_UNIT else s
  | none => s

/-- A host port leaves service (R525, R630): bounce commands and firmware reads end, and a port ring's outstanding fetch is left pending. -/
def fenceHost (s : State) (p : Nat) : State :=
  let s := if (hportOf s p).tags.any fun t => t.reader = .ring then modRing s p fun r => { r with fetchPending := true } else s
  let s := (hkOf s p).bncQueue.foldl (fun t b => bounceFenced t p b) s
  let s := modHk s p fun h => { h with bncQueue := [], bncMoved := false }
  let s := match s.fw.op with
    | some (op, q) => if q = p then fwFail s op 5 else s
    | none => s
  let s := modHport s p fun h => { h with outQ := [], tags := [], left := h.left ++ h.tags.map (·.num) }
  { s with fc := { s.fc with hostFenced := sins s.fc.hostFenced p } }

/-- Fence a unit. -/
def fenceUnit (s : State) (k i : Nat) : State :=
  match k with
  | 1 => fenceEngine s i
  | 2 => fenceCluster s i
  | 3 => { dropFrames s i with fc := { s.fc with linkFenced := sins s.fc.linkFenced i } }
  | 4 => fenceHost s i
  | 5 => fenceSub s i
  | _ => (portSubs s.cfg i).foldl fenceSub s

/-- Fence a unit for a source (R525, R526): slices follow. -/
def fenceBy (s : State) (b k i : Nat) : State :=
  let t := fenceUnit s k i
  refreshSlices s { t with fc := { t.fc with fencedBy := t.fc.fencedBy ++ [(b, k, i)] } }

/-! ## Classification and reaction (R520, R522, R529) -/

/-- W, N and REACT in force for a source (R519, R521), as (W, N, REACT). -/
def fcCfg (s : State) (b : Nat) : Nat × Nat × Nat :=
  if fcFixed b then fcCfgReset b else if s.fc.cfgBad.contains b then (1, 1, 1) else mget (fcCfgReset b) s.fc.cfg b

/-- FAULT_N is low: FC_STATUS is non-zero, or ROOTCLK has been absent since the last cold reset (R527, R563); high while BLK_COLD_N is
low (R625). -/
def faultLow (s : State) : Bool := s.pins.coldN && (s.fc.status ≠ 0 || s.ck.clkFault)

/-- Set bits of FC_STATUS; leaving zero, it raises event 0x2 at the secure host port (R615). -/
def setStatus (s : State) (bits : Nat) : State :=
  let was := s.fc.status
  let s := { s with fc := { s.fc with status := was ||| BitVec.ofNat 64 bits } }
  match s.cfg.secPort with
  | some p => if was = 0 && bits ≠ 0 then hostEvent s p 2 else s
  | none => s

/-- Latch a severe event and write or merge the first record (R529). -/
def latchEvent (s : State) (l : ErrLine) (r : Nat) : State :=
  let f : FirstRec :=
    if s.fc.status = 0 then ⟨true, l.inj, l.src, r, recordSlice s l, 0, l.inst, s.fc.sclk, l.detail⟩
    else { s.fc.first with merge := satAdd 65535 s.fc.first.merge 1 }
  setStatus { s with fc := { s.fc with first := f } } (2 ^ l.src)

/-- A severe CP_ERR ends the running checkpoint command with 0x09 (19). -/
def cpErrEnd (s : State) : State :=
  match s.cp.run with
  | some (k, _, _, _, _) =>
    { s with cp := { s.cp with run := none, copies := mmod CpCopy.zero s.cp.copies k fun c => { c with cmd := none, result := 9 } } }
  | none => s

/-- The reaction of a severe event (R522, R546). -/
def react (s : State) (l : ErrLine) (r : Nat) : State :=
  if r = 0 then s
  else
    let s := latchEvent s l r
    let s := if l.src = 38 then cpErrEnd s else s
    if r < 2 || 4 < r then s
    else match srcUnit l.src l.inst with
      | none => if r = 2 then s else enterBlockSafe s
      | some (k, i) =>
        if unitFenced s k i || unitResetting s k i then s
        else
          let s := if r = 2 then s else holdUnit s l.src k i
          if r = 3 then s else fenceBy s l.src k i

/-- Count an event in its instance's window (R520); a severe one reacts. -/
def classify (s : State) (l : ErrLine) : State :=
  let (w, n, r) := fcCfg s l.src
  let t := s.fc.sclk
  let key := 2048 * l.src + l.inst
  let (c, t0) := mget (0, 0) s.fc.inst key
  let c := if max w 1 ≤ t - t0 then 0 else c
  let t0 := if c = 0 then t else t0
  let severe := max n 1 ≤ c + 1
  let s := { s with fc := { s.fc with
    inst := mset (0, 0) s.fc.inst key (if severe then (0, 0) else (c + 1, t0)),
    cnt := mmod (0, 0) s.fc.cnt l.src fun x => (satAdd (2 ^ 32 - 1) x.1 1, if severe then satAdd 65535 x.2 1 else x.2) } }
  if severe then react s l r else s

/-- Sources whose checkers report from outside what commands do: soft errors, logic checkers, the collector's own protection. -/
def fromOutside (c : Cfg) (b inst detail : Nat) : Bool :=
  match b with
  | 0 | 1 | 7 => c.hasEngine inst && (b ≠ 1 || detail < 2 ^ 20)
  | 2 | 3 | 8 => inst < c.clusters && (b ≠ 3 || detail < 2 ^ 23)
  | 9 => inst < c.halves
  | 15 => inst < c.memPorts
  | 18 => inst < c.linkPorts
  | 20 => inst < c.hostPorts
  | 35 | 38 | 39 => inst = 0
  | 36 => inst = 0 && !c.dup && detail < 67
  | 37 => inst = 0 && c.dup
  | _ => false

/-- What such an event finds: an uncorrectable word at a byte offset of the scratchpad or Bolt buffer; a register of the collector that
failed its parity, FC_CFGb by b, a half of FC_STATUS as 64 or 65, or any other as 66 (R521). -/
def outsideEffect (s : State) (b inst detail : Nat) : State :=
  match b with
  | 1 => modEng s inst fun g => { g with spadBad := sins g.spadBad (detail / 8) }
  | 3 => modCl s inst fun k => { k with boltBad := sins k.boltBad (detail / 8) }
  | 36 =>
    if detail < 64 then { s with fc := { s.fc with cfgBad := sins s.fc.cfgBad detail } }
    else if detail = 66 then s
    else setStatus s (if detail = 64 then 2 ^ 32 - 1 else 0xFF * 2 ^ 32)
  | _ => s

/-- The event that the collector takes next: of those of the earliest SCLK, the one with the lowest bit number (R529). -/
def nextEvent (ls : List ErrLine) : Option ErrLine :=
  ls.head?.map fun h => (ls.filter fun l => l.at' = h.at').foldl (fun a l => if l.src < a.src then l else a) h

/-- ERROR_EVENT (R518, R520, R524): the collector classifies the next event of an earlier SCLK, or one that a checker raises now as source,
INST and DETAIL. It counts on SCLK, which stops while ROOTCLK is absent (R563). -/
def execErrorEvent (ext : Option (Nat × Nat × Nat)) (s : State) : Res :=
  match ext with
  | some (b, inst, detail) =>
    guardRes s (fromOutside s.cfg b inst detail && s.pins.coldN && s.pins.rootclk ≠ 1)
      (outsideEffect (classify s ⟨b, inst, none, detail, false, s.fc.sclk⟩) b inst detail)
  | none =>
    match nextEvent s.fc.lines with
    | none => .next s  -- no event waits on an error line
    | some l =>
      guardRes s (l.at' < s.fc.sclk && s.pins.rootclk ≠ 1)
        (classify { s with fc := { s.fc with lines := s.fc.lines.erase l } } l)

end Sys2Proof.Machine
end

