-- ==== Sys2Proof/Machine/Reset.lean ====
section
/-! DEFINITION. Block resets (17, 18, 20): the state capture (R541 to R543), the decode of OTP (R502, R509), root selection (R470), what a
reset keeps and loses (R544), and the units' state when they leave reset (R52, R449). -/
namespace Sys2Proof.Machine

/-! ## OTP (R501, R502, R509) -/

/-- A life-cycle word: 0 clear, 1 torn, 2 set. -/
def lcWord (w : Word) : Nat := if w = 0 then 0 else if w = BitVec.allOnes 64 then 2 else 1

/-- The code of the state that W0 to W4 encode (R502). -/
def decodeLc (ws : List Word) : Nat :=
  let k (i : Nat) : Nat := lcWord (ws.getD i 0)
  let n := ((List.range 4).takeWhile fun i => k i = 2).length
  if k 4 = 1 then 15
  else if k 4 = 2 then 5
  else if (List.range 4).all fun i => k i = if i < n then 2 else 0 then n
  else 15

/-- A valid SVN slot (R509). -/
def svnValid (w : Word) : Bool := field w 32 32 = 0 && field w 16 16 = 65535 - field w 0 16

/-- SVN slot `i`. -/
def svnSlot (l : Lc) (i : Nat) : Word := mget 0 l.svn i

/-- MIN_SVN (R509). -/
def minSvnOf (l : Lc) : Nat :=
  (List.range 32).foldl (fun a i => if svnValid (svnSlot l i) then max a (field (svnSlot l i) 0 16) else a) 0

/-- A torn life-cycle word or SVN slot (R519 source 35). -/
def otpTorn (l : Lc) : Bool :=
  ((List.range 5).any fun i => lcWord (l.words.getD i 0) = 1) ||
  (List.range 32).any fun i => svnSlot l i ≠ 0 && !(svnValid (svnSlot l i))

/-- CHECK of a root (R469). -/
def rootCheck (root : Key) (code : Nat) : Word :=
  BitVec.ofNat 64 ((Config.sha384 (beBytes 32 root ++ [BitVec.ofNat 8 code])).toNat / 2 ^ 320)

/-- Root slot 0 (A) or 1 (B) of a state. -/
def rootSlot (l : Lc) (code slot : Nat) : Key × Word := mget (0, 0) l.roots (2 * (code - 1) + slot)

/-- Root selection (R470): the first valid slot, else a root drawn into a blank slot, else FAIL. Gives the ROOT field and the root. -/
def selectRoot (s : State) : State × Nat × Key :=
  let c := s.lc.current
  if c = 0 || 4 < c then (s, 0, 0)
  else
    let ok (i : Nat) : Bool := (rootSlot s.lc c i).2 = rootCheck (rootSlot s.lc c i).1 c
    let blank (i : Nat) : Bool := rootSlot s.lc c i = (0, 0)
    if ok 0 then (s, 1, (rootSlot s.lc c 0).1)
    else if ok 1 then (s, 1, (rootSlot s.lc c 1).1)
    else if blank 0 || blank 1 then
      let (s, k) := drbg s 256
      let i := 2 * (c - 1) + if blank 0 then 0 else 1
      ({ s with lc := { s.lc with roots := mset (0, 0) s.lc.roots i (k, rootCheck k c) } }, 1, k)
    else (s, 3, 0)

/-! ## The capture (R541 to R543) -/

/-- STEP of a context: its engine's while it runs, else its state record's, which may lie in the spill area. -/
def ctxStep (s : State) (c : Nat) : Nat :=
  match (ctxOf s c).eng with
  | some e => (engOf s e).step % 2 ^ 48
  | none =>
    let x := ctxOf s c
    if x.spilled then
      match (memNat s (blockWho x.slice) .spa (x.spill + 784) 6).2 with
      | .ok v => v
      | .err _ => 0
    else natOfBytes (((savedRecord s c).drop 784).take 8) % 2 ^ 48

/-- A context entry. -/
def capCtx (s : State) (c : Nat) : List Byte :=
  let x := ctxOf s c
  leBytes 2 c ++ leBytes 1 x.gen ++ leBytes 1 (ctxCode x.state) ++ leBytes 4 x.ffence ++ leBytes 6 (ctxStep s c) ++ leBytes 2 0

/-- An engine entry. -/
def capEng (s : State) (e : Nat) : List Byte :=
  let g := engOf s e
  leBytes 1 e ++ leBytes 1 (b2n g.ctx.isSome + 2 * b2n g.tileOpen + 4 * b2n (engFencedAny s e)) ++ leBytes 2 g.who.1 ++ leBytes 1 g.who.2 ++
  leBytes 3 0 ++ leBytes 8 g.pc

/-- A queue entry. -/
def capQueue (q : Nat × Queue) : List Byte :=
  leBytes 2 q.1 ++ leBytes 2 q.2.ctx ++ leBytes 1 q.2.gen ++ leBytes 1 (b2n q.2.err + 2 * b2n q.2.lc) ++ leBytes 2 q.2.code ++
  leBytes 4 q.2.head ++ leBytes 4 q.2.tail

/-- A fence entry. -/
def capFence (f : Nat × Fence) : List Byte :=
  leBytes 4 f.1 ++ leBytes 1 f.2.state ++ leBytes 1 0 ++ leBytes 2 f.2.code ++ leBytes 8 f.2.value.toNat

/-- Fences of a slice that are not free, by index. -/
def sliceFences (s : State) (n : Nat) : List (Nat × Fence) :=
  (List.range s.cfg.halves).flatMap fun h =>
    ((tallyOf s h).fences.filter fun f => f.2.slice = n && f.2.state ≠ 0).map fun f => (131072 * h + f.1, f.2)

/-- The queues of a slice. -/
def sliceQueues (s : State) (n : Nat) : List (Nat × Queue) :=
  s.queues.filter fun q => (ctxOf s q.2.ctx).slice = n && (ctxOf s q.2.ctx).gen = q.2.gen

/-- The section header and body of a slice. -/
def capSection (s : State) (n : Nat) : List Byte × List Byte :=
  let d := descOf s n
  let cs := liveCtxs s n
  let es := dEngines d
  let qs := sliceQueues s n
  let fs := sliceFences s n
  (leBytes 1 n ++ leBytes 1 (dKind d) ++ leBytes 1 (b2n (dSealed d)) ++ leBytes 1 0 ++ leBytes 2 cs.length ++ leBytes 2 es.length ++
   leBytes 2 qs.length ++ leBytes 2 0 ++ leBytes 4 fs.length ++ leBytes 4 (16 * (cs.length + es.length + qs.length + fs.length)) ++
   List.replicate 12 0,
   cs.flatMap (capCtx s) ++ es.flatMap (capEng s) ++ qs.flatMap capQueue ++ fs.flatMap capFence)

/-- A section as written: sealed under the stream base for a confidential or joint slice (R543); none where that has no stream base or
a tamper wipe has begun (R546). -/
def sealSection (s : State) (n seq : Nat) (head8 : List Byte) : Option (List Byte) :=
  let (h, b) := capSection s n
  if dKind (descOf s n) = 0 then some (h ++ b)
  else if s.wipeDue || !s.pins.tamperN || (tallyOf s 0).wiping then none
  else (ksSlice s n).stream.map fun k =>
    let key := keyOfBytes (kdf384 (beBytes 32 k) (asciiBytes "LU-CAPTURE") (beBytes 4 (BitVec.ofNat 32 seq) ++ leBytes 1 n) 256)
    let iv := BitVec.ofNat 96 (natOfBe (leBytes 3 0 ++ leBytes 1 n ++ leBytes 4 0 ++ leBytes 4 seq))
    let x := gcmSeal key iv (head8 ++ h) b
    h ++ x.1 ++ bytesOfBlock x.2

/-- Bytes of the section of a slice that would be written. -/
def sectionSize (s : State) (n : Nat) : Nat :=
  let (h, b) := capSection s n
  h.length + b.length + if dKind (descOf s n) = 0 then 0 else 16

/-- The longest prefix of slices whose sections fit. -/
def fitting (size : Nat → Nat) : Nat → List Nat → List Nat
  | _, [] => []
  | room, n :: t => if size n ≤ room then n :: fitting size (room - size n) t else []

/-- FC_FIRST_W0 (R545). -/
def firstW0 (f : FirstRec) : Word :=
  packWord [(63, 1, b2n f.valid), (62, 1, b2n f.inj), (56, 6, f.src), (53, 3, f.react), (52, 1, b2n f.slice.isSome),
    (48, 4, f.slice.getD 0), (32, 16, f.merge), (16, 11, f.inst)]

/-- Write a capture of slices (R541): CAUSE; `last` where nothing that waits for a credit will still be presented, so that a capture whose
writes outrun the credits is INCOMPLETE. -/
def capture (s : State) (cause : Nat) (slices : List Nat) (last : Bool) : State :=
  if s.fc.capSize = 0 then s
  else
    let p := s.fc.capPort
    let seq := (s.fc.capSeq + 1) % 2 ^ 32
    let some' := slices.filter fun n => (sealSection s n seq []).isSome
    let lost := some'.length ≠ slices.length
    let fit := if s.fc.capSize < 64 then [] else fitting (sectionSize s) (s.fc.capSize - 64) some'
    let total := if s.fc.capSize < 64 then 0 else 64 + fit.foldl (fun a n => a + sectionSize s n) 0
    let noPort := s.cfg.hostPorts ≤ p || portDead s p
    let short := last && (hportOf s p).outCred < ((lineParts s.fc.capBase.toNat total).length + (hportOf s p).outQ.length)
    let flags := b2n (!(procUp s 7)) + 2 * b2n (lost || noPort || short) + 4 * b2n (fit.length ≠ some'.length || s.fc.capSize < 64)
    let head8 := leBytes 4 0x43415031 ++ leBytes 1 1 ++ leBytes 1 cause ++ leBytes 1 flags ++ leBytes 1 fit.length
    let f := s.fc.first
    let bytes := head8 ++ leBytes 4 seq ++ leBytes 4 total ++ leBytes 8 s.fc.status.toNat ++ leBytes 8 (firstW0 f).toNat ++
      leBytes 8 f.time ++ leBytes 8 f.detail ++ List.replicate 16 0 ++ fit.flatMap fun n => (sealSection s n seq head8).getD []
    let s := { s with fc := { s.fc with capSeq := seq, capFlags := flags, capBytes := if noPort then 0 else total } }
    if noPort || s.fc.capSize < 64 then s else hostPost s p s.fc.capBase.toNat bytes

/-- The slices that are not FREE. -/
def usedSlices (s : State) : List Nat := (List.range 16).filter fun n => (sliceOf s n).state ≠ .free

/-! ## What a block reset keeps and loses (R544, R575) -/

/-- Memory ports after phase 2: the retirement table of R335 survives a warm reset. -/
def resetPorts (s : State) (cold : Bool) : List (Nat × MemPort) :=
  (List.range s.cfg.memPorts).foldl (fun t m =>
    mset MemPort.reset t m { MemPort.reset with
      ready := (portOf s m).ready
      ret := if cold then [] else (portOf s m).ret.map fun e => (e.1, { e.2 with rowreq := false }) }) []

/-- A Tally memory after phase 2 (R278, R544); `wipe` that a tamper wipe was due or in progress (R277). -/
def resetTally (cold wipe : Bool) (t : Tally) : Tally :=
  if cold then Tally.zero
  else { Tally.zero with fences := t.fences, pool := t.pool, bad := t.bad.filter (· < secBase), wiped := t.wiped || wipe }

/-- The link unit after phase 2 (R371, R544). -/
def resetLinks (cold : Bool) (l : Links) : Links :=
  let ups := mmapAll LPort.reset (fun _ p => { LPort.reset with up := p.up, smac := if cold then 0 else p.smac }) l.ports
  if cold then { Links.reset with ports := ups }
  else { Links.reset with self := l.self, etype := l.etype, retry := l.retry, rto := l.rto, routes := l.routes, ports := ups }

/-- Context identifiers after phase 2: a warm reset raises every generation (R540). -/
def resetCtxs (s : State) (cold : Bool) : List (Nat × Ctx) :=
  if cold then []
  else (List.range 2048).foldl (fun t c => mset Ctx.zero t c { Ctx.zero with gen := ((ctxOf s c).gen + 1) % 256 }) []

/-- The fault collector after phase 2 (R544, R545): fences and holds are released, the lock ends. -/
def resetFc (cold : Bool) (f : Fc) : Fc :=
  if cold then { Fc.reset with blockSafe := true }
  else { f with lock := false, engFenced := [], subFenced := [], linkFenced := [], hostFenced := [], clFenced := [], fencedBy := [],
                safe := [], blockSafe := true }

/-- The clock, reset and power unit (R575, R579). -/
def resetCk (cold : Bool) (k : Ck) : Ck :=
  if cold then { Ck.reset with duty := k.duty, thermHigh := k.thermHigh, pwrHigh := k.pwrHigh, thermLow := k.thermLow, pwrLow := k.pwrLow }
  else { Ck.reset with divCode := if k.busy then k.newDiv else k.divCode, warmCount := k.warmCount, lastCause := k.lastCause, wakeWindow := k.wakeWindow,
                       wakeLimit := k.wakeLimit, engOff := k.engOff, clRet := k.clRet, halfRet := k.halfRet, thermEvt := k.thermEvt,
                       pwrEvt := k.pwrEvt, duty := k.duty, sub := k.sub, unitPos := if k.busy then 0 else k.unitPos,
                       unit := if k.busy then 0 else k.unit,
                       thermHigh := k.thermHigh, pwrHigh := k.pwrHigh, thermLow := k.thermLow, pwrLow := k.pwrLow, clkFault := k.clkFault }

/-- A severe MP_ERR that fences a sub-channel whatever FC_CFGb holds (R537, R589). -/
def mpErrFence (s : State) (i detail : Nat) : State :=
  let l : ErrLine := ⟨16, i, none, detail, false, s.fc.sclk⟩
  let s := { s with fc := { s.fc with cnt := mmod (0, 0) s.fc.cnt 16 fun x => (satAdd (2 ^ 32 - 1) x.1 1, satAdd 65535 x.2 1) } }
  fenceBy (latchEvent s l 2) 16 5 i

/-- Ports with a reserved capacity strap are fenced at the end of phase 3 (R589). -/
def fenceReserved (s : State) : State :=
  (List.range s.cfg.memPorts).foldl (fun t m =>
    if t.cfg.cap m = 0 then (portSubs t.cfg m).foldl (fun t i => mpErrFence t i (t.cfg.capCodes.getD m 4)) t else t) s

/-- Every unit in reset but the collector, the OTP and the clock, reset and power unit (R536, R575 phase 2). -/
def resetUnits2 (s : State) (cold : Bool) : State :=
  { s with
    sv := { s.sv with ports := resetPorts s cold, kids := [], sweepEn := true, treeKeys := [], hopKey := 0, hopCount := [], stuck := false },
    tally := (List.range s.cfg.halves).map fun h => (h, resetTally cold (s.wipeDue || (tallyOf s 0).wiping) (tallyOf s h)),
    regions := [], slices := [],
    slm := { stage := [], busy := false, collide := false, target := 0, lastOp := 0, result := 0, captured := [], due := none,
             drain := none, buildLocked := false, lockAt := 0 },
    atu := [], s2 := [], retJobs := [],
    engines := if cold then [] else s.engines.filterMap fun (e : Nat × Engine) =>
      if e.2.phase = EngPhase.off || e.2.phase = EngPhase.startReq then some (e.1, { Engine.idle with phase := .off }) else none,
    clusters := [], asyncs := [], reqErrs := [], ctxs := resetCtxs s cold,
    queues := [], memObjs := [], rings := [],
    hports := (List.range s.cfg.hostPorts).map fun p => (p, { HPort.reset with rst := true }),
    sched := { sl := [], beads := [], rods := [], order := [], ready := [], readyAt := [], fifo := [], beadSel := [] },
    windows := [], bw := Bw.reset, fw := Fw.reset, links := resetLinks cold s.links, bridge := [],
    cp := if cold then Cp.reset else { Cp.reset with fdtag := s.cp.fdtag },
    ck := resetCk cold s.ck, wipeDue := false, pclk := 0, fc := resetFc cold s.fc }

/-! ## OTP writes (R507, R510, R517) -/

/-- A command of the life-cycle controller runs. -/
def lcBusy (l : Lc) : Bool := l.due.isSome || l.run.isSome

/-- What the word or slot that an OTP write programs holds. -/
def otpWord (l : Lc) (r : LcRun) : Word := if r.target = 0 then svnSlot l r.num else l.words.getD r.num 0

/-- The bits `bits` of an OTP write are programmed: a bit only moves from 0 to 1. MIN_SVN follows at once. -/
def otpProgram (s : State) (r : LcRun) (bits : Word) : State :=
  let v := otpWord s.lc r ||| (r.want &&& ~~~r.miss &&& bits)
  let l := if r.target = 0 then { s.lc with svn := mset 0 s.lc.svn r.num v } else { s.lc with words := lmod s.lc.words r.num fun _ => v }
  { s with lc := { l with run := none, due := none }, minSvn := minSvnOf l }

/-- The programming of an OTP write stops at its current bit (R517): which bits are programmed by then is open, since R507 gives them no order
(DESIGN CHOICE, log 185). -/
def otpStop (s : State) : State :=
  match s.lc.run with
  | none => s
  | some r =>
    let (s, bits) := draw s 64
    let s := otpProgram s r bits
    { s with lc := { s.lc with due := some 7 } }

/-- One SCLK of the life-cycle controller (R507, R508, R510): its OTP write ends with the readback, or its RESULT is due. -/
def lcDrive (s : State) : State :=
  match s.lc.run, s.lc.due with
  | some r, _ =>
    let s := otpProgram s r (BitVec.allOnes 64)
    if otpWord s.lc r ≠ r.want then { s with lc := { s.lc with result := 4 } }
    else if r.target = 0 then { s with lc := { s.lc with result := 0 } }
    else { s with lc := { s.lc with pend := true, next := r.target, result := 0 } }
  | none, some c => { s with lc := { s.lc with due := none, result := c } }
  | none, none => s

/-- The life-cycle controller and the debug unit at a block reset, in a life-cycle state (R509, R515): OTP and the TAP stay. -/
def lcUnit (s : State) (code : Nat) : Lc := { Lc.reset s.lc.words s.lc.roots code with svn := s.lc.svn, tap := s.lc.tap }

/-- OTP decode (R503, R509, R515 phase 3). -/
def resetLc (s : State) : State :=
  let l := lcUnit s (decodeLc s.lc.words)
  let s := { s with lc := l, minSvn := minSvnOf l }
  if otpTorn l then raise s 35 0 0 else s

/-- Keys drawn at a block reset: the boot nonce, the hop key and the tree keys (R289, R316, R473). -/
def drawKeys (s : State) : State :=
  let (s, root, k) := selectRoot s
  let (s, nonce) := drbg s 256
  let (s, hop) := drbg s 256
  let s := { s with ks := { Ks.reset root k nonce with drbg := s.ks.drbg }, sv := { s.sv with hopKey := hop } }
  s.cfg.subs.foldl (fun t i =>
    let (t, k) := drbg t 256
    { t with sv := { t.sv with treeKeys := mset 0 t.sv.treeKeys i k } }) s

/-- Mailbox requests that a warm reset cuts short end with STATUS 0x4 (R618). -/
def resetMailboxes (s : State) (cold : Bool) : List (Nat × HostKeys) :=
  (List.range s.cfg.hostPorts).filterMap fun p =>
    if !cold && (hkOf s p).mbxBusy then some (p, { HostKeys.zero with mbxDone := true, mbxStatus := 4 }) else none

/-- Inbound requests that have no completion yet when phase 2 starts end NOT_READY, and need no credit (R612, R620). -/
def answerHeld (s : State) : State :=
  (List.range s.cfg.hostPorts).foldl (fun t p =>
    (mget HPort.reset s.hports p).cplQ.foldl (fun t c => emit t (.hostCpl p ⟨c.tag, 5, 0, none⟩)) t) s

/-- Phase 2 of a block reset (R536, R575); it ends an OTP write that runs (R517). -/
def resetPhase2 (s : State) (cold : Bool) : State :=
  let boxes := resetMailboxes s cold
  let s := answerHeld (otpStop s)
  { resetUnits2 s cold with ks := { Ks.reset 0 0 0 with ports := boxes }, lc := lcUnit s s.lc.current }

/-- Phase 3 (R536, R575): OTP decode and root selection; phase 4 begins. -/
def resetPhase3 (s : State) : State :=
  let t := fenceReserved (drawKeys (resetLc s))
  { t with ks := { t.ks with ports := s.ks.ports },
           ck := { t.ck with rst := t.ck.rst.map fun r => { r with phase := 4, ready := t.fc.sclk } } }

/-- Phases 2 and 3 of a block reset; while TAMPER_N is low it holds at the end of phase 2 (R626). -/
def resetUnits (s : State) (cold : Bool) : State :=
  let t := resetPhase2 s cold
  let t := { t with ck := { t.ck with rst := some ⟨2, cold, t.fc.sclk, 0⟩ } }
  if t.pins.tamperN then resetPhase3 t else t

/-! ## Phase 5 -/

/-- WIN_SIZE of slice 0 (R52): the smallest DLIM among the wired sub-channels that are not fenced. -/
def windowNow (s : State) : Nat :=
  let ds := (s.cfg.subs.filter fun i => !(s.fc.subFenced.contains i)).map fun i => dlimOf s (i / 4)
  match ds with
  | [] => 0
  | d :: t => t.foldl min d

/-- The direct contexts, their fences, Bolt regions and Tally allocations (R261, R449): VALUE of a fence is kept. -/
def directSetup (s : State) : State :=
  let gen (p : Nat) : Nat := (ctxOf s p).gen
  let s := (List.range s.cfg.hostPorts).foldl (fun t p =>
    let (t, k) := drbg t 64
    let t := { t with ctxs := minsert t.ctxs p { directCtxAt p (gen p) k with lastEnd := t.pclk } }
    modTally t 0 fun y => { y with fences := (List.range 1024).foldl (fun m i =>
      minsert m (1024 * p + i) ⟨(mget Fence.zero m (1024 * p + i)).value, 1, 0, 0, 0, p, gen p⟩) y.fences }) s
  let s := (List.range s.cfg.halves).foldl (fun t h =>
    modTally t h fun y => { y with alloc := (List.range t.cfg.hostPorts).map fun p => (p, (16 * p, 16)) }) s
  { s with clusters := (List.range s.cfg.clusters).map fun k => (k, { Cluster.zero with regions := directBolt s.cfg gen }) }

/-- Units leave reset (R52, R620): slice 0 is DIRECT under a fresh ephemeral key, the block safe state ends; a block in SCRAP or LOCKED
stays held (R504). -/
def leaveReset (s : State) : State :=
  let s := { s with ck := { s.ck with rst := none }, fc := { s.fc with blockSafe := false } }
  if s.lc.current = 5 || s.lc.current = 15 then s
  else
    let win := windowNow s
    let (s, k) := drbg s 256
    let s := { s with
      sv := { s.sv with kids := [(0, { Kid.zero with state := .installed, key := some k })] },
      regions := [(0, directRegion s.cfg.subs.length win)],
      slices := [(0, { Slice.zero with desc := directDesc s.cfg win, state := .direct })] }
    directSetup s

/-- Every wired memory port is ready or fenced (R536 phase 4). -/
def portsReady (s : State) : Bool := (List.range s.cfg.memPorts).all fun m => (portOf s m).ready || unitFenced s 6 m

end Sys2Proof.Machine
end

