-- ==== Sys2Proof/Machine/Faults.lean ====
section
/-! DEFINITION. Recovery (18): the escalation ladder (R533), engine, slice and warm resets (R534 to R537), the operations of FC_CMD (R539),
UNFENCE (R526), and the writes to FC_STATUS, FC_CTL and FC_INJECT (R528, R530). -/
namespace Sys2Proof.Machine

/-! ## Copies of FC_CMD (R539, R545) -/

/-- The copy of a path: host ports by number, 4 for the control register port. -/
def copyKey : Path → Nat
  | .host p => p
  | _ => 4

/-- A copy of FC_CMD_STATUS. -/
def fcCopyOf (s : State) (k : Nat) : FcCopy := mget FcCopy.zero s.fc.copies k

/-- Change a copy. -/
def modFcCopy (s : State) (k : Nat) (f : FcCopy → FcCopy) : State :=
  { s with fc := { s.fc with copies := mmod FcCopy.zero s.fc.copies k f } }

/-- End the operation of a copy with a RESULT. -/
def fcEnd (s : State) (copy : Option Nat) (result : Nat) : State :=
  match copy with
  | some k => modFcCopy s k fun c => { c with busy := false, cmd := none, result := result }
  | none => s

/-! ## The ladder (R533) -/

/-- A running step. -/
def ladderOf (s : State) (step target : Nat) : Option Ladder := s.fc.ladder.find? fun l => l.step = step && l.target = target

/-- Drop a running step. -/
def dropLadder (s : State) (step target : Nat) : State :=
  { s with fc := { s.fc with ladder := s.fc.ladder.filter fun l => !(l.step = step && l.target = target) } }

/-- End steps with a RESULT for their copies. -/
def endSteps (s : State) (which : Ladder → Bool) (result : Nat) : State :=
  let s' := { s with fc := { s.fc with ladder := s.fc.ladder.filter fun l => !(which l) } }
  (s.fc.ladder.filter which).foldl (fun t l => fcEnd t l.copy result) s'

/-- Record a new step. -/
def pushLadder (s : State) (l : Ladder) : State := { s with fc := { s.fc with ladder := s.fc.ladder ++ [l] } }

/-- A step already running for the same target answers the copy too. -/
def joinLadder (s : State) (step target : Nat) (copy : Option Nat) : State :=
  { s with fc := { s.fc with ladder := s.fc.ladder.map fun l =>
      if l.step = step && l.target = target then { l with copy := if copy.isSome then copy else l.copy } else l } }

/-- The slice, not FREE, of an engine. -/
def engSlice (s : State) (e : Nat) : Option Nat := (unitHolders s 1 e).head?

/-! ## Engine reset (R534) -/

/-- Steps 1 and 3 of an engine reset: the engine is empty and in reset; the context it ran runs no more. -/
def engClear (s : State) (e : Nat) : State :=
  let who := (engOf s e).ctx
  let s := modEng s e fun g => { Engine.idle with phase := .resetting, removing := g.removing, runStart := s.pclk }
  match who with
  | some (c, gen) => if (ctxOf s c).gen = gen then modCtx s c fun x => { x with eng := none, home := some (e / 4), spilled := false } else s
  | none => s

/-- An engine reset (R534): the running context is torn down, unless it is already; in direct mode it comes back LIVE (R450). -/
def engineReset (s : State) (e : Nat) : State :=
  let who := (engOf s e).ctx
  let s := { s with ck := { s.ck with gov := s.ck.gov.filter (· ≠ e) } }
  match who with
  | some (c, gen) =>
    let x := ctxOf s c
    if x.gen ≠ gen then engClear s e
    else
      let s := if x.state = .tearing then s else tearStart s c cTORN_DOWN none (directCtx s x.slice)
      tearAdvance (engClear s e) c
  | none => engClear s e

/-- Start step 2 of the ladder for an engine, on behalf of a copy. -/
def startEngineReset (s : State) (e : Nat) (copy : Option Nat) : State :=
  if (ladderOf s 2 e).isSome then joinLadder s 2 e copy
  else engineReset (pushLadder s ⟨2, e, s.fc.sclk, copy, []⟩) e

/-! ## Slice reset (R535) -/

/-- Requests of a context that are outstanding when a slice reset cuts them: transfers may have written any of their lines, everything else
is dropped, and its requests' errors with it (R180, R535). -/
def cutOps (s : State) (c gen : Nat) : State :=
  let mine := s.asyncs.filter fun a => a.ctx = c && a.gen = gen && !a.queued && a.moved.isNone
  let s := mine.foldl (fun t a =>
    match a.kind with
    | .push _ _ _ _ _ _ _ | .scat _ _ _ _ | .write _ => (moveAsync t { a with cut := true }).1
    | .hupd r st n m =>
      let (t, b) := drawBool t
      if b then (moveHupd t a r st n m).1 else t
    | _ => t) s
  let s := mine.foldl (fun t a => linkForget t a.id) s
  { s with
    asyncs := s.asyncs.filter fun a => !(a.ctx = c && a.gen = gen),
    reqErrs := s.reqErrs.filter fun r => !(r.ctx = c && r.gen = gen),
    clusters := s.clusters.map fun k => (k.1, { k.2 with shuttle := k.2.shuttle.filter fun o => !(o.ctx = c && o.gen = gen) }) }

/-- Steps 1, 3 and 5 of R446 for a context at once (R535 step 3). -/
def cutCtx (s : State) (c : Nat) : State :=
  let x := ctxOf s c
  let s := if x.state = .tearing then s else tearStart s c cTORN_DOWN none (directCtx s x.slice)
  tearEnd (tearAdvance (cutOps s c x.gen) c) c

/-- Clusters every engine of which a slice holds. -/
def wholeClusters (c : Cfg) (d : List Word) : List Nat :=
  (List.range c.clusters).filter fun k => (List.range c.epc).all fun i => dHasEngine d (4 * k + i)

/-- Steps 1 to 4 of a slice reset. A DIRECT slice stays DIRECT; one that is CHANGING or DISSOLVING stays so. -/
def sliceReset (s : State) (n : Nat) : State :=
  let s := capture s 4 [n] false
  let d := descOf s n
  let s := modSlice s n fun x => { x with state := if x.state = .active || x.state = .degraded then .changing else x.state }
  let lives := liveCtxs s n
  let s := lives.foldl (fun t c => if (ctxOf t c).state = .tearing then t else tearStart t c cTORN_DOWN none (directCtx t n)) s
  let s := (dEngines d).foldl engClear s
  let s := lives.foldl cutCtx s
  let s := (wholeClusters s.cfg d).foldl (fun t k => modCl t k fun x => { x with bolt := [], boltBad := [], shuttle := [] }) s
  (List.range (dLkeyCount d)).foldl (fun t i => freeStreams t (dLkeyBase d + i)) s

/-- Start step 3 of the ladder for a slice; engine resets of the slice that run are superseded. -/
def startSliceReset (s : State) (n : Nat) (copy : Option Nat) : State :=
  if (ladderOf s 3 n).isSome then joinLadder s 3 n copy
  else
    let d := descOf s n
    let s := endSteps s (fun l => l.step = 2 && dHasEngine d l.target) 5
    cpStateEnd (sliceReset (pushLadder s ⟨3, n, s.fc.sclk, copy, dEngines d⟩) n) n

/-! ## Warm reset (R536) -/

/-- A block warm reset with its CAUSE for the capture and for CK_RESET; lower steps are superseded. -/
def warmReset (s : State) (capCause lastCause : Nat) (copy : Option Nat) : State :=
  let s := endSteps s (fun _ => true) 5
  let s := pushLadder s ⟨4, 0, s.fc.sclk, copy, []⟩
  let s := capture s capCause (usedSlices s) true
  let s := resetUnits s false
  { s with ck := { s.ck with warmCount := satAdd (2 ^ 32 - 1) s.ck.warmCount 1, lastCause := lastCause } }

/-- Start step 4 of the ladder, unless a block reset runs. -/
def startWarmReset (s : State) (capCause lastCause : Nat) (copy : Option Nat) : State :=
  if s.ck.rst.isSome then joinLadder s 4 0 copy else warmReset s capCause lastCause copy

/-- Start a power cycle (R538). -/
def startPowerCycle (s : State) : State := { s with pins := { s.pins with trayPwrReq := true } }

/-! ## UNFENCE (R526) -/

/-- Reset and return a unit to service. -/
def unfenceUnit (s : State) (k i : Nat) : State :=
  let clear (t : State) (e : Nat) : State := if t.cfg.hasEngine e then modEng (engineReset t e) e fun g => { g with phase := .on } else t
  match k with
  | 1 => { clear s i with fc := { (clear s i).fc with engFenced := sdel (clear s i).fc.engFenced i } }
  | 2 =>
    let s := (List.range 4).foldl (fun t j => clear t (4 * i + j)) s
    { modCl s i (fun x => { x with shuttle := [] }) with fc := { s.fc with clFenced := sdel s.fc.clFenced i } }
  | 3 => { dropFrames s i with fc := { s.fc with linkFenced := sdel s.fc.linkFenced i } }
  | _ =>
    let s := modHport s i fun h => { h with outQ := [], tags := [] }
    { s with fc := { s.fc with hostFenced := sdel s.fc.hostFenced i } }

/-- RESULT of an UNFENCE and its effect (R526, R546). -/
def unfence (s : State) (kind i : Nat) : State × Nat :=
  if !(1 ≤ kind && kind ≤ 4 && hasUnit s.cfg kind i) then (s, 3)
  else
    let own := match kind with
      | 1 => s.fc.engFenced.contains i
      | k => unitFenced s k i
    let busy := s.fc.ladder.any fun l => 4 ≤ l.step || (kind = 1 && l.step = 2 && l.target = i) ||
      (kind = 2 && l.step = 2 && l.target / 4 = i) || (l.step = 3 && (unitHolders s kind i).contains l.target && kind ≤ 2)
    if !own || busy then (s, 1)
    else if s.fc.fencedBy.any fun f => f.2 = (kind, i) && bit s.fc.status f.1 then (s, 4)
    else
      let t := unfenceUnit s kind i
      (refreshSlices s { t with fc := { t.fc with fencedBy := t.fc.fencedBy.filter fun f => f.2 ≠ (kind, i) } }, 0)

/-! ## FC_CMD (R539) -/

/-- A write of an operation may come from this copy (R539). -/
def fcMay (s : State) (k : Nat) (sec : Bool) (slice : Option Nat) : Bool :=
  sec || (k < 4 && (slice.map fun n => portMay s k n).getD false)

/-- Run the pending operation of a copy. -/
def fcRun (s : State) (k : Nat) : State :=
  match (fcCopyOf s k).cmd with
  | none => s
  | some (op, kind, target, sec) =>
    let s := modFcCopy s k fun c => { c with cmd := none }
    let ending (r : Nat) : State := fcEnd s (some k) r
    if op = 0 || 5 < op then ending 7
    else if s.fc.blockSafe && op ≠ 3 && op ≠ 4 then ending 1
    else match op with
      | 1 =>
        if !(s.cfg.hasEngine target) then ending 3
        else if !(fcMay s k sec (engSlice s target)) then ending 2
        else if s.fc.ladder.any fun l => 4 ≤ l.step || (l.step = 3 && engSlice s target = some l.target) then ending 5
        else startEngineReset s target (some k)
      | 2 =>
        if 16 ≤ target then ending 3
        else if !(fcMay s k sec (some target)) then ending 2
        else if s.fc.ladder.any fun l => 4 ≤ l.step then ending 5
        else if (sliceOf s target).state = .free then ending 1
        else startSliceReset s target (some k)
      | 3 => if sec then startWarmReset s 1 3 (some k) else ending 2
      | 4 => if sec then fcEnd (startPowerCycle s) (some k) 0 else ending 2
      | _ =>
        if !sec then ending 2
        else
          let (t, r) := unfence s kind target
          fcEnd t (some k) r

/-- Take waiting copies while no operation runs: the control register port's first, then the host ports' in ascending number. -/
def fcDrive : Nat → State → State
  | 0, s => s
  | n + 1, s =>
    if s.fc.ladder.any fun l => l.copy.isSome then s
    else match [4, 0, 1, 2, 3].find? fun k => (fcCopyOf s k).cmd.isSome with
      | some k => fcDrive n (fcRun s k)
      | none => s

/-- In SCRAP and LOCKED every write is ignored (R504). -/
def lcOpen (s : State) : Bool := s.lc.current ≠ 5 && s.lc.current ≠ 15

/-- A write to FC_CMD (R539, R545). -/
def fcCmd (path : Path) (op kind target : Nat) (s : State) : Res :=
  let s := awake s
  if !(pathUp s path) then offPath s path
  else if path = .jtag || !(lcOpen s) then .next s
  else
    let k := copyKey path
    if (fcCopyOf s k).busy then settle (modFcCopy s k fun c => { c with collide := true })
    else settle (fcDrive 5 (modFcCopy s k fun c =>
      { c with busy := true, lastOp := op, cmd := some (op, kind, target, pathSecure s.cfg path) }))

/-- A write to a register of the collector from the secure world (R545). -/
def fcWrite (path : Path) (f : State → State) (s : State) : Res :=
  let s := awake s
  if !(pathUp s path) then offPath s path
  else settle (if pathSecure s.cfg path && lcOpen s then f s else s)

/-! ## The commands -/

/-- ENGINE_RESET (R534, R539). -/
def execEngineReset (path : Path) (e : Nat) (s : State) : Res := fcCmd path 1 0 e s

/-- ENGINE_RESET_DONE (R534): the reset engine reports idle; a slice reset notes it too. -/
def execEngineResetDone (e : Nat) (s : State) : Res :=
  unitRes (s.cfg.hasEngine e) s ((engOf s e).phase = .resetting && s.ck.rst.isNone)
    (let s := modEng s e fun g => { g with phase := .on, runStart := s.pclk }
     let s := { s with fc := { s.fc with ladder := s.fc.ladder.map fun l => if l.step = 3 then { l with engines := l.engines.filter (· ≠ e) } else l } }
     match ladderOf s 2 e with
     | some l => fcDrive 5 (fcEnd (dropLadder s 2 e) l.copy 0)
     | none => s)

/-- ENGRST_TO (R533): an engine reset has run 200,000 SCLK. -/
def execEngrstTo (e : Nat) (s : State) : Res :=
  match ladderOf s 2 e with
  | none => .next s  -- no engine reset of the engine runs
  | some l =>
    guardRes s (200000 + l.start ≤ s.fc.sclk)
      (let s := raise s 29 e 0 (engSlice s e)
       let s := fcEnd (dropLadder s 2 e) l.copy 6
       fcDrive 5 (match engSlice s e with
         | some n => startSliceReset s n none
         | none => startWarmReset s 3 4 none))

/-- SLICE_RESET (R535, R539). -/
def execSliceReset (path : Path) (n : Nat) (s : State) : Res := fcCmd path 2 0 n s

/-- The slice for which a line crosses between a memory and a link engine. -/
def hopSlice (s : State) (h : Hop) : Option Nat :=
  match h.dst with
  | .memory p => some (ctxOf s p.ctx).slice
  | .link _ _ _ _ _ => sliceOfKey s h.keyid

/-- SLICE_RESET_DONE (R535 steps 5 and 6): every engine is idle and nothing of the slice is outstanding. -/
def execSliceResetDone (n : Nat) (s : State) : Res :=
  match ladderOf s 3 n with
  | none => .next s  -- no reset of the slice runs
  | some l =>
    guardRes s  -- else: engines of the slice are still in reset, or requests of the slice wait at a memory port
      (l.engines.isEmpty && s.ck.rst.isNone && (s.sv.ports.all fun p => p.2.tags.all fun t => t.attr.slice ≠ n || t.attr.kind = 3) &&
       s.links.hops.all fun h => hopSlice s h ≠ some n)
      (let s := fcEnd (dropLadder s 3 n) l.copy 0
       let x := sliceOf s n
       let s := if x.state = .changing then
           (if x.changeTo.isEmpty then refreshSlices s (modSlice s n fun y => { y with state := .active }) else changeEnd s n)
         else s
       fcDrive 5 s)

/-- SLRST_TO (R533): a slice reset has run 2,000,000 SCLK. -/
def execSlrstTo (n : Nat) (s : State) : Res :=
  match ladderOf s 3 n with
  | none => .next s  -- no reset of the slice runs
  | some l =>
    guardRes s (2000000 + l.start ≤ s.fc.sclk)
      (fcDrive 5 (startWarmReset (fcEnd (dropLadder (raise s 30 n 0 (some n)) 3 n) l.copy 6) 3 4 none))

/-- TEARDOWN_TIMEOUT (R448, R533): a teardown has run 80,000 PCLK; every engine that still runs the context is reset, or, where none does,
its slice. -/
def execTeardownTimeout (c : Nat) (s : State) : Res :=
  let x := ctxOf s c
  match x.tear with
  | none => .next s  -- the context is not being torn down
  | some td =>
    guardRes s (!td.late && 80000 + td.start ≤ s.pclk)
      (let s := raise (modCtx s c fun y => { y with tear := some { td with late := true } }) 28 c 0 (some x.slice)
       let es := s.cfg.engineList.filter fun e => (engOf s e).ctx = some (c, x.gen)
       match es with
       | [] => startSliceReset s x.slice none
       | _ => es.foldl (fun t e => startEngineReset t e none) s)

/-- WARM_RESET (R536, R539). -/
def execWarmReset (path : Path) (s : State) : Res := fcCmd path 3 0 0 s

/-- WARM_RESET_TIMEOUT (R533): a warm reset has not reached phase 5 in 11 s; a power cycle follows. -/
def execWarmResetTimeout (s : State) : Res :=
  match ladderOf s 4 0 with
  | none => .next s  -- no warm reset runs
  | some l =>
    guardRes s (1100000000 + l.start ≤ s.fc.sclk)
      (fcDrive 5 (startPowerCycle (fcEnd (dropLadder s 4 0) l.copy 6)))

/-- POWER_CYCLE (R538, R539). -/
def execPowerCycle (path : Path) (s : State) : Res := fcCmd path 4 0 0 s

/-- MP_READY_TIMEOUT (R537): a port is not ready 10 s after phase 3; it is fenced and MP_ERR latched. -/
def execMpReadyTimeout (m : Nat) (s : State) : Res :=
  unitRes (m < s.cfg.memPorts) s  -- else: no block reset waits for the port, or not yet 10 s
    ((s.ck.rst.map fun r => decide (r.phase = 4 && 1000000000 + r.ready ≤ s.fc.sclk)).getD false && !((portOf s m).ready) &&
     !(unitFenced s 6 m))
    ((portSubs s.cfg m).foldl (fun t i => mpErrFence t i 0) s)

/-- RESET_UNITS_LEAVE (R536, R575): every wired memory port is ready or fenced; phase 5 ends. -/
def execResetUnitsLeave (s : State) : Res :=
  guardRes s  -- else: no block reset waits in phase 4, or a memory port is not ready
    ((s.ck.rst.map fun r => decide (r.phase = 4)).getD false && portsReady s && s.pins.coldN && !s.ck.clkFault)
    (let s := leaveReset s
     match ladderOf s 4 0 with
     | some l => fcDrive 5 (fcEnd (dropLadder s 4 0) l.copy 0)
     | none => s)

/-- UNFENCE (R526, R539). -/
def execUnfence (path : Path) (kind index : Nat) (s : State) : Res := fcCmd path 5 kind index s

/-! ## FC_STATUS, FC_CTL, FC_INJECT (R528, R530, R642) -/

/-- Bits of FC_STATUS whose level cause is asserted (R519, R591). -/
def levelBits (s : State) : List Nat :=
  (if lowPorts s = [] then [] else [16]) ++ (if s.ks.entropyFail then [22] else []) ++ (if s.pins.thermN then [] else [31]) ++ (if s.pins.pwrN then [] else [32]) ++
  (if s.pins.tamperN then [] else [33]) ++ (if s.pins.rootclk = 0 then [] else [34])

/-- FC_STATUS_CLEAR (R528, R529): a write of 1 clears a bit unless its level cause is asserted; holds of cleared bits end. -/
def execFcStatusClear (path : Path) (v : Word) (s : State) : Res :=
  fcWrite path (fun s =>
    let stay := (levelBits s).foldl (fun a b => a ||| 2 ^ b) 0
    let st := s.fc.status &&& ~~~(v &&& ~~~(BitVec.ofNat 64 stay))
    let s := { s with fc := { s.fc with
      status := st, first := if st = 0 then { s.fc.first with valid := false } else s.fc.first,
      safe := s.fc.safe.filter fun h => bit st h.1, fencedBy := s.fc.fencedBy.filter fun h => bit st h.1 } }
    resumeRings ((List.range s.cfg.hostPorts).foldl drainOut s)) s

/-- FC_LOCK (R545, R642): FC_CFGb lock until the next block reset. -/
def execFcLock (path : Path) (s : State) : Res :=
  fcWrite path (fun s => { s with fc := { s.fc with lock := true, lockAt := if s.fc.lock then s.fc.lockAt else s.fc.sclk } }) s

/-- The writable bits of FC_INJECT. -/
def injectMask : Nat := 2 ^ 63 + 0xFF * 2 ^ 40 + 0xFF * 2 ^ 16 + 0x33F

/-- FC_INJECT_ARM (R530): a write to FC_INJECT; with ARM the next COUNT accesses of the target are injected. -/
def execFcInjectArm (path : Path) (v : Word) (s : State) : Res :=
  fcWrite path (fun s =>
    let w := v &&& BitVec.ofNat 64 injectMask
    { s with fc := { s.fc with inject := w, injLeft := if bit w 63 then max 1 (field w 16 8) else 0 } }) s

end Sys2Proof.Machine
end

