-- ==== Sys2Proof/Machine/Power.lean ====
section
/-! DEFINITION. Clocks, reset and power (20): the reset pins (R575, R576), emergency throttling (R572 to R574), the clock monitor (R563), the
tamper pin (R626), operating points (R564), retention (R567, R568) and the wake governor (R569, R570). -/
namespace Sys2Proof.Machine

/-- Change the clock, reset and power unit. -/
def modCk (s : State) (f : Ck → Ck) : State := { s with ck := f s.ck }
/-- Change the pins. -/
def modPins (s : State) (f : Pins → Pins) : State := { s with pins := f s.pins }

/-! ## The clock monitor (R563) -/

/-- What the monitor does on its own oscillator once ROOTCLK is absent: it latches bit 34 and its first record, FAULT_N is low until BLK_COLD_N
falls, and the block safe state holds until a cold reset. -/
def clockLost (s : State) : State :=
  let s := latchEvent (modPins s fun p => { p with rootclk := 1 }) ⟨34, 0, none, 0, false, s.fc.sclk⟩ 3
  modCk (holdBlock s) fun k => { k with clkFault := true }

/-- ROOTCLK_LOSS (R563): ROOTCLK becomes absent. -/
def execRootclkLoss (s : State) : Res :=
  guardRes s (s.pins.rootclk ≠ 1 && s.pins.coldN) (clockLost s)

/-- ROOTCLK_OUT_OF_RANGE (R563): ROOTCLK is present outside its range; the collector handles CLOCK as any other source. -/
def execRootclkOutOfRange (s : State) : Res :=
  guardRes s (s.pins.rootclk ≠ 2) (raise (modPins s fun p => { p with rootclk := 2 }) 34 0 0)

/-- ROOTCLK_IN_RANGE (R563): ROOTCLK is within its range again; after an absence the block still waits for a cold reset. -/
def execRootclkInRange (s : State) : Res :=
  guardRes s (s.pins.rootclk ≠ 0) (modPins s fun p => { p with rootclk := 0 })

/-! ## The reset pins (R538, R575, R576, R625, R627) -/

/-- BLK_COLD_N_FALL (R576): any warm reset and running step is abandoned; until the pin rises the block is held, TRAY_PWR_REQ is low, and FAULT_N
is high. -/
def execBlkColdNFall (s : State) : Res :=
  guardRes s s.pins.coldN
    { s with
      pins := { s.pins with coldN := false, trayPwrReq := false },
      hports := (List.range s.cfg.hostPorts).map fun p => (p, { HPort.reset with rst := true, cplQ := (hportOf s p).cplQ }),
      ck := { s.ck with rst := some ⟨0, true, s.fc.sclk, 0⟩, clkFault := false, blockRet := false },
      fc := { s.fc with blockSafe := true, ladder := [] } }

/-- BLK_COLD_N_RISE (R575, R626): phases 1 to 3 of a cold reset run; phase 4 waits for the memory ports. With ROOTCLK absent the monitor acts at
once. -/
def execBlkColdNRise (s : State) : Res :=
  guardRes s (!s.pins.coldN)
    (let s := resetUnits s true
     let s := { s with pins := { s.pins with coldN := true }, ck := { s.ck with lastCause := 1 } }
     if s.pins.rootclk = 1 then clockLost s else s)

/-- BLK_WARM_N_FALL (R576, R627): a warm reset, ignored while a block reset runs, BLK_COLD_N is low, TRAY_PWR_REQ is high, or ROOTCLK has been lost.
A block in retention wakes. -/
def execBlkWarmNFall (s : State) : Res :=
  settle (if s.pins.trayPwrReq || s.ck.rst.isSome || s.ck.clkFault || !s.pins.coldN then s else startWarmReset (awake s) 2 2 none)

/-! ## Emergency throttling (R572 to R574) -/

/-- The slices that have been built. -/
def builtSlices (s : State) : List Nat :=
  (List.range 16).filter fun n => (sliceOf s n).state ≠ .free && (sliceOf s n).state ≠ .direct

/-- THERM_EMRG_N_CHANGE (R573, R574): a fall counts, in the slice reports too. -/
def execThermEmrgNChange (high : Bool) (s : State) : Res :=
  guardRes s (s.pins.thermN ≠ high)
    (let s := modPins s fun p => { p with thermN := high }
     if high then s
     else
       let s := { modCk s (fun k => { k with thermEvt := satAdd 65535 k.thermEvt 1, thermHigh := 0,
                                             thermLow := if 1000 ≤ k.thermHigh then 0 else k.thermLow }) with emergQuiet := 0 }
       (builtSlices s).foldl (fun t n => modKsSlice t n fun k => { k with therm := k.therm + 1 }) s)

/-- PWR_EMRG_N_CHANGE (R573, R574). -/
def execPwrEmrgNChange (high : Bool) (s : State) : Res :=
  guardRes s (s.pins.pwrN ≠ high)
    (let s := modPins s fun p => { p with pwrN := high }
     if high then s
     else
       let s := { modCk s (fun k => { k with pwrEvt := satAdd 65535 k.pwrEvt 1, pwrHigh := 0,
                                             pwrLow := if 1000 ≤ k.pwrHigh then 0 else k.pwrLow }) with emergQuiet := 0 }
       (builtSlices s).foldl (fun t n => modKsSlice t n fun k => { k with power := k.power + 1 }) s)

/-- The duty that a frame beginning now runs under (R572, R573): a signal counts from 2 SCLK after its fall until it has been high for 1,000 SCLK. -/
def wantedDuty (k : Ck) : Nat :=
  if k.pwrHigh < 1000 && 2 ≤ k.pwrLow then 2 else if k.thermHigh < 1000 && 2 ≤ k.thermLow then 1 else 0

/-- DUTY_CHANGE (R573): a new duty takes effect at a frame boundary. -/
def execDutyChange (s : State) : Res :=
  guardRes s (s.ck.unit = 0 && s.ck.unitPos = 0 && wantedDuty s.ck ≠ s.ck.duty)
    (modCk s fun k => { k with duty := wantedDuty k })

/-! ## Tamper (R277, R484, R626) -/

/-- The running checkpoint command is lost, and every checkpoint base with it (19). -/
def cpLost (s : State) : State :=
  let copies := match s.cp.run with
    | some (k, _) => mmod CpCopy.zero s.cp.copies k fun c => { c with cmd := none }
    | none => s.cp.copies
  { s with cp := { s.cp with run := none, okeys := [], copies := copies } }

/-- Link key slots are cleared and their streams fail (11). -/
def clearLinkKeys (s : State) : State :=
  let s := s.links.tx.foldl (fun t x => failStream t x.dest x.lkey) s
  { s with ks := { s.ks with links := s.ks.links.map fun (k : Nat × LinkKey) => (k.1, { k.2 with tx := none, rx := none }) } }

/-- TAMPER_N_FALL (R626): the wipe of R277 is due; sessions end, mailbox requests, a LOAD or STAGE and the checkpoint command are cut short; link keys
and stream bases go. A block in retention wakes. -/
def execTamperNFall (s : State) : Res :=
  guardRes s s.pins.tamperN
    (let s := raise { awake s with wipeDue := true, pins := { (awake s).pins with tamperN := false } } 33 0 0
     let s := mbxAbort (endSessions s)
     let s := match s.fw.op with
       | some (op, _) => fwFail (dropFwTags s) op 6
       | none => s
     let s := clearLinkKeys (cpLost (otpStop s))
     { s with ks := { s.ks with slices := s.ks.slices.map fun (k : Nat × KSlice) => (k.1, { k.2 with stream := none }) } })

/-- TAMPER_N_RISE (R626): a block reset that was held at the end of its phase 2 continues. -/
def execTamperNRise (s : State) : Res :=
  guardRes s (!s.pins.tamperN)
    (let s := modPins s fun p => { p with tamperN := true }
     if s.ck.rst.any fun r => r.phase = 2 then resetPhase3 s else s)

/-! ## Operating points (R564) -/

/-- State of an engine in PM_ENGSTATE (R566, R579): 0 OFF, 2 IDLE, 3 ACTIVE. -/
def engState (g : Engine) : Nat :=
  match g.phase with
  | .off | .startReq => 0
  | _ => if g.ctx.isSome && g.wait.isNone then 3 else 2

/-- OPP_CHANGE (R564): a write to CK_OPP; ignored unless every slice is FREE or DIRECT and every engine IDLE or OFF. -/
def execOppChange (path : Path) (v : Word) (s : State) : Res :=
  secWrite path (fun s =>
    let code := field v 0 3
    let quiet := ((List.range 16).all fun n => (sliceOf s n).state = .free || (sliceOf s n).state = .direct) &&
      s.cfg.engineList.all fun e => engState (engOf s e) ≠ 3
    if quiet && code ≤ 5 && !s.ck.busy then modCk s fun k => { k with busy := true, newDiv := code } else s) s

/-- OPP_CHANGE_DONE (R564, R572): the clocks restart under the new D, and units and frames count anew. -/
def execOppChangeDone (s : State) : Res :=
  guardRes s (s.ck.busy && s.ck.rst.isNone)
    (modCk s fun k => { k with busy := false, divCode := k.newDiv, unit := 0, unitPos := 0 })

/-! ## Retention (R567, R568) -/

/-- The cluster conditions of R567: every engine OFF, the Shuttle empty, no Bolt transfer outstanding. -/
def clusterQuiet (s : State) (k : Nat) : Bool :=
  ((s.cfg.engineList.filter fun e => e / 4 = k).all fun e => (engOf s e).phase = .off) && (clOf s k).shuttle.isEmpty &&
  s.asyncs.all fun a => a.eng / 4 ≠ k

/-- The half conditions of R567 but the write-back of the metadata caches. -/
def halfQuiet (s : State) (h : Nat) : Bool :=
  ((List.range s.cfg.clusters).all fun k => s.cfg.halfOfCluster k ≠ h || (clOf s k).ret) &&
  ((List.range s.cfg.memPorts).all fun m => s.cfg.halfOfMem m ≠ h || (portOf s m).tags.isEmpty) &&
  ((List.range s.cfg.hostPorts).all fun p => s.cfg.halfOfHost p ≠ h ||
    ((hportOf s p).outQ.isEmpty && (hportOf s p).cplQ.isEmpty && (hportOf s p).tags.isEmpty)) &&
  (s.links.tx.all fun t => t.groups.all (·.acked) && t.todo.isEmpty) && (s.links.gather.all fun g => s.cfg.halfOfLink g.port ≠ h) &&
  (s.links.verified.all fun g => s.cfg.halfOfLink g.port ≠ h) && s.links.hops.isEmpty && (tallyOf s h).queues.all fun q => q.2.isEmpty

/-- A threshold of `n` units of 800 PCLK has passed since `since`; 0 disables. -/
def thresholdOver (s : State) (n since : Nat) : Bool := n ≠ 0 && since + 800 * n ≤ s.pclk

/-- ENGINE_IDLE_THRESHOLD (R567): an IDLE engine without a context goes OFF, and nothing of it is retained. -/
def execEngineIdleThreshold (e : Nat) (s : State) : Res :=
  let g := engOf s e
  unitRes (s.cfg.hasEngine e) s  -- else: the engine is not idle, is fenced, or its threshold has not passed
    (g.phase = .on && g.ctx.isNone && !(engFencedAny s e) && thresholdOver s s.ck.engOff g.runStart && s.ck.rst.isNone)
    (modEng s e fun _ => { Engine.idle with phase := .off })

/-- CLUSTER_RET_THRESHOLD (R567): the cluster enters RET; its Bolt buffer is retained. -/
def execClusterRetThreshold (c : Nat) (s : State) : Res :=
  unitRes (c < s.cfg.clusters) s  -- else: the cluster is in RET, is not quiet, or its threshold has not passed
    (!(clOf s c).ret && clusterQuiet s c && thresholdOver s s.ck.clRet (mget 0 s.ck.lastBusy c) && s.ck.rst.isNone)
    (modCl s c fun k => { k with ret := true, boltRet := true, boltWaking := false })

/-- The identifiers that a port's metadata cache holds lines of. -/
def cachedKids (p : MemPort) : List Nat := (p.cache.map (·.keyid)).eraseDups

/-- HALF_RET_THRESHOLD (R567): the memory engines of the half write back and drop their metadata caches; with no request left outstanding the
half enters RET, and its Tally is retained. -/
def execHalfRetThreshold (h : Nat) (s : State) : Res :=
  unitRes (h < s.cfg.halves) s  -- else: the half is in RET, is not quiet, or its threshold has not passed
    (!(s.ck.halves.contains h) && halfQuiet s h && thresholdOver s s.ck.halfRet (mget 0 s.ck.lastBusy (64 + h)) && s.ck.rst.isNone)
    (let ports := (List.range s.cfg.memPorts).filter fun m => s.cfg.halfOfMem m = h
     let s := ports.foldl (fun t m => flushKeys t m (cachedKids (portOf t m))) s
     if ports.all fun m => (portOf s m).tags.isEmpty && (portOf s m).cache.isEmpty then
       modTally { s with ck := { s.ck with halves := sins s.ck.halves h } } h fun t => { t with retained := true, waking := false }
     else s)

/-- MEMORY_WAKE_REQUEST (R276): a request reaches a memory in retention and starts its wake. `tally` selects the Tally of
half `i`, else the Bolt buffer of cluster `i`. -/
def execMemoryWakeRequest (tally : Bool) (i : Nat) (s : State) : Res :=
  if tally then
    unitRes (i < s.cfg.halves) s ((tallyOf s i).retained && !(tallyOf s i).waking)
      (modTally s i fun t => { t with waking := true })
  else
    unitRes (i < s.cfg.clusters) s ((clOf s i).boltRet && !(clOf s i).boltWaking)
      (modCl s i fun c => { c with boltWaking := true })

/-- MEMORY_WAKE_DONE (R276, R567): the wake ends, and with it the retention of the half or cluster; the contents are kept. What waited at
the half's host ports goes out. -/
def execMemoryWakeDone (tally : Bool) (i : Nat) (s : State) : Res :=
  if tally then
    unitRes (i < s.cfg.halves) s (tallyOf s i).waking
      (let s := modTally { s with ck := { s.ck with halves := sdel s.ck.halves i } } i fun t => { t with waking := false, retained := false }
       ((List.range s.cfg.hostPorts).filter fun p => s.cfg.halfOfHost p = i).foldl drainOut s)
  else
    unitRes (i < s.cfg.clusters) s (clOf s i).boltWaking
      (modCl s i fun c => { c with boltWaking := false, boltRet := false, ret := false })

/-- RETAIN_BLOCK (R568): accepted with slice 0 DIRECT, every ring empty and every half in RET; else REFUSED. -/
def execRetainBlock (path : Path) (s : State) : Res :=
  secWrite path (fun s =>
    let empty := (s.rings.all fun r => !r.2.en || r.2.head = r.2.tail) && s.queues.all fun q => q.2.head = q.2.tail
    if (sliceOf s 0).state = .direct && empty && (List.range s.cfg.halves).all s.ck.halves.contains then
      modCk s fun k => { k with blockRet := true }
    else modCk s fun k => { k with refused := true }) s

/-- BLOCK_WAKE (R568). -/
def execBlockWake (s : State) : Res := guardRes s s.ck.blockRet (awake s)

/-! ## Engine starts (R569, R570) -/

/-- Put a request behind those of earlier PCLK and, within its PCLK, in ascending engine number (R570). -/
def govInsert (s : State) (e : Nat) : List Nat → List Nat
  | [] => [e]
  | x :: t => if (engOf s x).runStart = s.pclk && e < x then e :: x :: t else x :: govInsert s e t

/-- ENGINE_START_REQUEST (R569): firmware or the dispatcher places a start with the governor; a cluster or half in RET begins its wake. -/
def execEngineStartRequest (e : Nat) (s : State) : Res :=
  unitRes (s.cfg.hasEngine e) s  -- else: the engine is not OFF, or is fenced
    ((engOf s e).phase = .off && !(engFencedAny s e) && blockRuns s)
    (let s := modCk s fun k => { k with gov := govInsert s e k.gov }
     let s := modEng s e fun g => { g with phase := .startReq, runStart := s.pclk }
     let s := modCl s (e / 4) fun k => { k with boltWaking := k.boltRet }
     modTally s (s.cfg.halfOfCluster (e / 4)) fun t => { t with waking := t.retained })

/-- The governor may grant now: WINDOW PCLK have passed since the LIMIT-th last grant (R570). -/
def mayGrant (k : Ck) (pclk : Nat) : Bool :=
  match k.grants[max 1 k.wakeLimit - 1]? with
  | some t => t + max 1 k.wakeWindow ≤ pclk
  | none => true

/-- WAKE_GRANT (R570): the oldest request is granted, never that of a fenced engine. -/
def execWakeGrant (e : Nat) (s : State) : Res :=
  unitRes (s.cfg.hasEngine e) s  -- else: the engine is not the next to be granted, or the window is full
    (s.ck.gov.head? = some e && !(engFencedAny s e) && mayGrant s.ck s.pclk && blockRuns s)
    (let s := modCk s fun k => { k with gov := k.gov.drop 1, grants := (s.pclk :: k.grants).take 255 }
     modEng s e fun g => { g with phase := .starting, runStart := s.pclk, quantum := some s.fc.sclk })

/-- ENGINE_START_DONE (R569): 40 SCLK of power-up and 96 PCLK of soft start and clear have passed and the cluster and half are awake; the engine is
IDLE. -/
def execEngineStartDone (e : Nat) (s : State) : Res :=
  let g := engOf s e
  unitRes (s.cfg.hasEngine e) s  -- else: the engine is not starting, or its start takes longer
    (g.phase = .starting && g.quantum.getD 0 + 40 ≤ s.fc.sclk && g.runStart + 96 ≤ s.pclk && !(clOf s (e / 4)).ret &&
     !(s.ck.halves.contains (s.cfg.halfOfCluster (e / 4))) && blockRuns s)
    (modEng s e fun _ => { Engine.idle with runStart := s.pclk })

end Sys2Proof.Machine
end

