-- ==== Sys2Proof/Machine/Checkpoint.lean ====
section
/-! DEFINITION. The checkpoint engine (19): capture lists and digests (R549, R550), sealed records (R552), replica statements (R554), the checks
of CONFIRM and RESTORE (R555, R556), and the registers of R559. -/
namespace Sys2Proof.Machine

/-! ## Copies and bases (R547, R559) -/

/-- A copy of the checkpoint engine's registers. -/
def cpCopyOf (s : State) (k : Nat) : CpCopy := mget CpCopy.zero s.cp.copies k
/-- Change a copy. -/
def modCpCopy (s : State) (k : Nat) (f : CpCopy → CpCopy) : State :=
  { s with cp := { s.cp with copies := mmod CpCopy.zero s.cp.copies k f } }

/-- End the command of a copy with a RESULT. -/
def cpEnd (s : State) (k result : Nat) : State :=
  modCpCopy { s with cp := { s.cp with run := none } } k fun c => { c with cmd := none, result := result }

/-- End it with a RESULT and the index of the failing entry; where no entry of a list failed the manual gives FAILIDX no value. -/
def cpFail (s : State) (k result : Nat) (idx : Option Nat) : State :=
  match idx with
  | some i => modCpCopy (cpEnd s k result) k fun c => { c with failIdx := i % 4096 }
  | none =>
    let (s, r) := draw s 12
    modCpCopy (cpEnd s k result) k fun c => { c with failIdx := r.toNat }

/-- The checkpoint base of a slice (R547): the stream base; in an open slice the four words of CP_OKEYs, once written. -/
def cpBase (s : State) (n : Nat) : Option Key :=
  if dKind (descOf s n) ≠ 0 then (ksSlice s n).stream
  else
    let w (i : Nat) : Option Word := (s.cp.okeys.find? fun x => x.1 = 4 * n + i).map (·.2)
    match w 0, w 1, w 2, w 3 with
    | some a, some b, some c, some d => some (keyOfBytes ([a, b, c, d].flatMap fun x => leBytes 8 x.toNat))
    | _, _, _, _ => none

/-- The seal key of a NONCE (R548). -/
def sealKey (base : Key) (nonce : List Byte) : Key := keyOfBytes (kdf384 (beBytes 32 base) (asciiBytes "LU-CKPT") nonce 256)
/-- The replica key (R548). -/
def replicaKey (base : Key) : List Byte := kdf384 (beBytes 32 base) (asciiBytes "LU-REPLICA") [] 384

/-! ## Reads (R551) -/

/-- A read of one line part for a slice, as a background agent of the port that serves it. -/
def cpLine (s : State) (n : Nat) (p : Nat × Nat × Nat) : State × Acc (List Byte) :=
  match xlat2 s (blockWho n) p.1 false false with
  | (s, .err c) => (s, .err c)
  | (s, .ok q) =>
    let a := { q.attr with master := 128 + q.port }
    match svRead (if subFenced s q.port q.sub then s else bwCount s a 1) { q with attr := a } [] with
    | (s, .data l) => (s, .ok (lineBytes l p.2.1 p.2.2))
    | (s, .fail c) => (s, .err c)
    | (s, .done) => (s, .ok [])

/-- Read line parts in ascending order. -/
def cpLines (n : Nat) : State → List (Nat × Nat × Nat) → State × Acc (List Byte)
  | s, [] => (s, .ok [])
  | s, p :: t =>
    match cpLine s n p with
    | (s, .err c) => (s, .err c)
    | (s, .ok b) =>
      match cpLines n s t with
      | (s, .err c) => (s, .err c)
      | (s, .ok r) => (s, .ok (b ++ r))

/-- Read a range of a slice. -/
def cpRead (s : State) (n a len : Nat) : State × Acc (List Byte) := cpLines n s (lineParts a len)

/-- RESULT of an error of a read or write (R560). -/
def cpCode (code : Nat) : Nat := if code = cPOISON || code = cFENCED_UNIT then 9 else 3

/-- Read ranges in list order; the first that fails gives its RESULT and index. -/
def cpReads (n : Nat) : Nat → State → List (Nat × Nat) → State × (List (List Byte) ⊕ Nat × Nat)
  | _, s, [] => (s, .inl [])
  | i, s, x :: t =>
    match cpRead s n x.1 x.2 with
    | (s, .err c) => (s, .inr (cpCode c, i))
    | (s, .ok b) =>
      match cpReads n (i + 1) s t with
      | (s, .inr e) => (s, .inr e)
      | (s, .inl r) => (s, .inl (b :: r))

/-! ## Capture lists (R549) -/

/-- A range that lies wholly in one valid region of a slice, writable where asked. -/
def inRegion (s : State) (n a len : Nat) (wr : Bool) : Bool :=
  (regionAt s n a).elim false fun r => a + len ≤ mib2 * (r.2.base + r.2.size) && (!wr || r.2.wr)

/-- Bytes `[o, o+n)` as a little-endian number. -/
def bNat (bs : List Byte) (o n : Nat) : Nat := natOfBytes ((bs.drop o).take n)

/-- The list that the bytes spell. -/
def capListOf (bs : List Byte) (nref nhist nstat : Nat) : CapList :=
  let at16 (i : Nat) : Nat := bNat bs (16 + 16 * i) 8
  { refs := (List.range nref).map fun i => (at16 i, bNat bs (24 + 16 * i) 8),
    hist := (List.range nhist).map fun i => at16 (nref + i),
    stat := (List.range nstat).map fun i => at16 (nref + nhist + i) }

/-- The ranges of a list, in its order. -/
def capRanges (l : CapList) : List (Nat × Nat) := l.refs ++ l.hist.map (·, 128) ++ l.stat.map (·, 160)

/-- The first entry of a list that breaks R549. -/
def capListFault (s : State) (n : Nat) (bs : List Byte) (l : CapList) : Option Nat :=
  let nr := l.refs.length
  let nh := l.hist.length
  (List.range (capRanges l).length).find? fun i =>
    let (a, len) := (capRanges l).getD i (0, 0)
    !(inRegion s n a len false) ||
    (if i < nr then a % 128 ≠ 0 || len = 0 || len % 128 ≠ 0
     else bNat bs (24 + 16 * i) 8 ≠ 0 || (if i < nr + nh then a % 128 ≠ 0 else a % 32 ≠ 0))

/-- Read and check a capture list; a failure gives RESULT and index. -/
def readCapList (s : State) (n a : Nat) : State × (CapList ⊕ Nat × Option Nat) :=
  match cpRead s n a 16 with
  | (s, .err c) => (s, .inr (cpCode c, none))
  | (s, .ok h) =>
    let nr := bNat h 0 2; let nh := bNat h 2 2; let ns := bNat h 4 2
    let size := 16 + 16 * (nr + nh + ns)
    if 4096 < nr || 4096 < nh || 4096 < ns || bNat h 6 10 ≠ 0 || !(inRegion s n a size false) then (s, .inr (3, none))
    else match cpRead s n a size with
      | (s, .err c) => (s, .inr (cpCode c, none))
      | (s, .ok bs) =>
        let l := capListOf bs nr nh ns
        match capListFault s n bs l with
        | some i => (s, .inr (3, some i))
        | none => (s, .inl l)

/-! ## Records and statements (R550, R552, R554) -/

/-- The content digest (R550): tensor digests with their BYTES, then the history and statistics records. -/
def contentDigest (step cursor cps : Nat) (tensors : List (Nat × Digest)) (small : List (List Byte)) : Digest :=
  Config.sha384 (leBytes 6 step ++ leBytes 8 cursor ++ leBytes 4 cps ++
    (tensors.flatMap fun t => leBytes 8 t.1 ++ beBytes 48 t.2) ++ small.flatten)

/-- The contexts of a record: LIVE or FAULTED, ascending. -/
def recordCtxs (s : State) (n : Nat) : List Nat :=
  (List.range 2048).filter fun c => (ctxOf s c).slice = n && ((ctxOf s c).state = .live || (ctxOf s c).state = .faulted)

/-- Bytes of a record. -/
def recordSize (l : CapList) (nctx : Nat) : Nat :=
  192 + 64 * l.refs.length + 136 * l.hist.length + 168 * l.stat.length + 16 * nctx

/-- PROGRAM_DIGEST as a record holds it. -/
def recordProgram (s : State) (n : Nat) : Digest := if dKind (descOf s n) = 0 then 0 else (ksSlice s n).digest

/-- A sealed record (R552). -/
def sealedRecord (s : State) (n : Nat) (base : Key) (nonce : List Byte) (step cursor cps : Nat) (l : CapList) (data : List (List Byte)) : List Byte :=
  let nr := l.refs.length
  let nh := l.hist.length
  let cs := recordCtxs s n
  let tens := (List.range nr).map fun i => ((l.refs.getD i (0, 0)).2, Config.sha384 (data.getD i []))
  let head := leBytes 4 0x434B5031 ++ leBytes 1 1 ++ leBytes 1 n ++ leBytes 1 (dKind (descOf s n)) ++ leBytes 1 0 ++ nonce ++
    leBytes 6 step ++ leBytes 2 0 ++ leBytes 8 cursor ++ leBytes 4 cps ++ leBytes 2 s.cp.fdtag ++ leBytes 2 nr ++ leBytes 2 nh ++
    leBytes 2 l.stat.length ++ leBytes 2 cs.length ++ leBytes 4 (recordSize l cs.length) ++ List.replicate 22 0 ++
    beBytes 48 (recordProgram s n)
  let body :=
    ((List.range nr).flatMap fun i => leBytes 8 (l.refs.getD i (0, 0)).1 ++ leBytes 8 (l.refs.getD i (0, 0)).2 ++
      beBytes 48 (tens.getD i (0, 0)).2) ++
    ((List.range nh).flatMap fun i => leBytes 8 (l.hist.getD i 0) ++ data.getD (nr + i) []) ++
    ((List.range l.stat.length).flatMap fun i => leBytes 8 (l.stat.getD i 0) ++ data.getD (nr + nh + i) []) ++
    (cs.flatMap fun c => leBytes 2 c ++ leBytes 6 0 ++ leBytes 8 (ctxOf s c).key.toNat) ++
    beBytes 48 (contentDigest step cursor cps tens (data.drop nr))
  let x := gcmSeal (sealKey base nonce) 0 head body
  head ++ x.1 ++ bytesOfBlock x.2

/-- A replica statement (R554). -/
def replicaStatement (base : Key) (step cursor fdtag : Nat) (cd : Digest) : List Byte :=
  let b := leBytes 4 0x52504C31 ++ leBytes 1 1 ++ leBytes 3 0 ++ leBytes 6 step ++ leBytes 2 0 ++ leBytes 8 cursor ++ leBytes 2 fdtag ++
    leBytes 6 0 ++ beBytes 48 cd
  b ++ beBytes 48 (hmac384 (replicaKey base) b)

/-- What an opened record holds. -/
structure OpenRecord where
  step : Nat
  cursor : Nat
  cps : Nat
  /-- BASE, BYTES and tensor digest of each reference. -/
  refs : List (Nat × Nat × List Byte)
  /-- Address and bytes of each history record, then of each statistics record. -/
  small : List (Nat × List Byte)
  /-- Contexts with their stream keys. -/
  ctxs : List (Nat × Word)
  cd : List Byte

/-- Open a record (R555); none where it is refused. -/
def openRecord (s : State) (n : Nat) (base : Key) (bs : List Byte) : Option OpenRecord :=
  let head := bs.take 128
  let nr := bNat head 46 2; let nh := bNat head 48 2; let ns := bNat head 50 2; let nc := bNat head 52 2
  let body := (bs.drop 128).take (bs.length - 144)
  match gcmOpen (sealKey base ((head.drop 8).take 16)) 0 head body (blockOfBytes (bs.drop (bs.length - 16))) with
  | none => none
  | some pt =>
    if bNat head 0 4 ≠ 0x434B5031 || bNat head 4 1 ≠ 1 || bNat head 5 1 ≠ n || head.drop 80 ≠ beBytes 48 (recordProgram s n) then none
    else
      let h0 := 64 * nr
      let s0 := h0 + 136 * nh
      let c0 := s0 + 168 * ns
      some {
        step := bNat head 24 6, cursor := bNat head 32 8, cps := bNat head 40 4,
        refs := (List.range nr).map fun i => (bNat pt (64 * i) 8, bNat pt (64 * i + 8) 8, (pt.drop (64 * i + 16)).take 48),
        small := ((List.range nh).map fun i => (bNat pt (h0 + 136 * i) 8, (pt.drop (h0 + 136 * i + 8)).take 128)) ++
          (List.range ns).map fun i => (bNat pt (s0 + 168 * i) 8, (pt.drop (s0 + 168 * i + 8)).take 160),
        ctxs := (List.range nc).map fun i => (bNat pt (c0 + 16 * i) 2 % 2048, BitVec.ofNat 64 (bNat pt (c0 + 16 * i + 8) 8)),
        cd := (pt.drop (c0 + 16 * nc)).take 48 }

/-- A statement that verifies and agrees with a record (R555). -/
def statementOk (base : Key) (r : OpenRecord) (st : List Byte) : Bool :=
  st.drop 80 = beBytes 48 (hmac384 (replicaKey base) (st.take 80)) && bNat st 8 6 = r.step && bNat st 16 8 = r.cursor && (st.drop 32).take 48 = r.cd

/-- NOT_INDEPENDENT of a partner's tag (R557). -/
def notIndependent (s : State) (tag : Nat) : Nat := b2n (tag / 256 % 256 = s.cp.fdtag / 256 % 256)

/-- The restored STEP and SKEW (R556); none where the skew check fails. -/
def restoredStep (r : OpenRecord) (swStep swCursor : Nat) (realign : Bool) : Option (Nat × Nat) :=
  if swStep = r.step && swCursor = r.cursor then some (r.step, 0)
  else if realign && r.cursor ≤ swCursor && (swCursor - r.cursor) % r.cps = 0 then
    some ((r.step + (swCursor - r.cursor) / r.cps) % 2 ^ 48, 1)
  else none

/-! ## Running a command -/

/-- Staging word `w` of a command. -/
def cpW (ws : List Word) (w : Nat) : Nat := (ws.getD w 0).toNat

/-- Report fields of a success (R558). -/
def cpReport (s : State) (n : Nat) (f : KSlice → KSlice) : State := reportChanged (modKsSlice s n f) n

/-- What a CAPTURE or REPLICATE writes: the sealed record under a fresh nonce, or the replica statement (R551, R554). -/
def cpPayload (s : State) (op n : Nat) (ws : List Word) (l : CapList) (base : Key) (data : List (List Byte)) : State × List Byte :=
  let step := cpW ws 3 % 2 ^ 48
  let cursor := cpW ws 4
  let cps := cpW ws 5 % 2 ^ 32
  let nr := l.refs.length
  if op = 1 then
    let (s, nonce) := drbg s 128
    (s, sealedRecord s n base (beBytes 16 nonce) step cursor cps l data)
  else
    let tens := (List.range nr).map fun i => ((l.refs.getD i (0, 0)).2, Config.sha384 (data.getD i []))
    (s, replicaStatement base step cursor s.cp.fdtag (contentDigest step cursor cps tens (data.drop nr)))

/-- CAPTURE and REPLICATE once their data is read. -/
def cpWriteOut (s : State) (k op n : Nat) (ws : List Word) (l : CapList) (base : Key) : State :=
  match cpReads n 0 s (capRanges l) with
  | (s, .inr (e, i)) => cpFail s k e (some i)
  | (s, .inl data) =>
    let step := cpW ws 3 % 2 ^ 48
    let (s, bytes) := cpPayload s op n ws l base data
    match memWrite s (blockWho n) .spa (cpW ws 1) bytes with
    | (s, some c) => cpFail s k (cpCode c) none
    | (s, none) =>
      let s := cpReport s n fun x =>
        if op = 1 then { x with cpStep := step, cpOwn := s.cp.fdtag, cpPartner := 0, cpStatus := 0 } else x
      cpEnd s k 0

/-- Set STEP in a context's state record (R184, R555): in its Bolt region, else in its spill area. -/
def setStepOf (s : State) (c step : Nat) : State :=
  let x := ctxOf s c
  match x.home.bind fun k => (regionIn s k c x.gen).map fun r => (k, r) with
  | some (k, r) => (boltWrite s k (65536 * r.base + 784) (leBytes 8 step)).1
  | none =>
    if x.spilled then (memWrite s (blockWho x.slice) .spa (x.spill + 784) (leBytes 8 step)).1
    else
      let s := (memWrite s (blockWho x.slice) .spa x.spill (List.replicate 784 0 ++ leBytes 8 step ++ List.replicate 232 0)).1
      modCtx s c fun y => { y with spilled := true }

/-- No context of a slice has a step open. -/
def noStepOpen (s : State) (n : Nat) : Bool := (recordCtxs s n).all fun c => (ctxOf s c).state ≠ .live || !(stepOpenOf s c)

/-- Write small records back, in order; the first error, with its index. -/
def writeSmall (n : Nat) : Nat → State → List (Nat × List Byte) → State × Option (Nat × Nat)
  | _, s, [] => (s, none)
  | i, s, x :: t =>
    match memWrite s (blockWho n) .spa x.1 x.2 with
    | (s, some c) => (s, some (cpCode c, i))
    | (s, none) => writeSmall n (i + 1) s t

/-- RESTORE past its record and statement (R555, R556, R558). -/
def cpRestore (s : State) (k n : Nat) (ws : List Word) (r : OpenRecord) (tag : Nat) : State :=
  match cpReads n 0 s (r.refs.map fun x => (x.1, x.2.1)) with
  | (s, .inr (e, i)) => cpFail s k e (some i)
  | (s, .inl data) =>
    match (List.range r.refs.length).find? fun i => beBytes 48 (Config.sha384 (data.getD i [])) ≠ (r.refs.getD i (0, 0, [])).2.2 with
    | some i => cpFail s k 6 (some i)
    | none =>
      match restoredStep r (cpW ws 5 % 2 ^ 48) (cpW ws 4) (cpW ws 6 % 2 = 1) with
      | none => cpEnd s k 8
      | some (step, skew) =>
        let ready := (r.ctxs.all fun c => (ctxOf s c.1).state = .live && (ctxOf s c.1).slice = n && (ctxOf s c.1).prog.isNone) && noStepOpen s n
        if !ready then cpEnd s k 1
        else
          match writeSmall n r.refs.length s r.small with
          | (_, some (e, i)) => cpFail s k e (some i)
          | (s, none) =>
            let s := r.ctxs.foldl (fun t c => setStepOf (modCtx t c.1 fun x => { x with key := c.2 }) c.1 step) s
            let s := cpReport s n fun x =>
              { x with cpStep := step, cpOwn := s.cp.fdtag, cpPartner := tag, cpStatus := 1 + 2 * notIndependent s tag + 4 * skew }
            cpEnd s k 0

/-- CONFIRM and RESTORE (R555, R558). -/
def cpOpen (s : State) (k op n : Nat) (ws : List Word) (base : Key) : State :=
  let a := cpW ws 1
  if !(inRegion s n a 128 false) then cpFail s k 3 none
  else match cpRead s n a 128 with
    | (s, .err c) => cpFail s k (cpCode c) none
    | (s, .ok head) =>
      let nr := bNat head 46 2; let nh := bNat head 48 2; let ns := bNat head 50 2; let nc := bNat head 52 2
      let size := 192 + 64 * nr + 136 * nh + 168 * ns + 16 * nc
      if 4096 < nr || 4096 < nh || 4096 < ns || 2048 < nc then cpEnd s k 5
      else if !(inRegion s n a size false) || !(inRegion s n (cpW ws 2) 128 false) then cpFail s k 3 none
      else match cpRead s n a size with
        | (s, .err c) => cpFail s k (cpCode c) none
        | (s, .ok bs) =>
          match openRecord s n base bs with
          | none => cpEnd s k 5
          | some r =>
            match cpRead s n (cpW ws 2) 128 with
            | (s, .err c) => cpFail s k (cpCode c) none
            | (s, .ok st) =>
              if !(statementOk base r st) then cpEnd s k 7
              else
                let tag := bNat st 24 2
                if op = 4 then cpRestore s k n ws r tag
                else if (ksSlice s n).cpStep ≠ r.step then cpEnd s k 1
                else
                  let s := cpReport s n fun x =>
                    { x with cpOwn := s.cp.fdtag, cpPartner := tag, cpStatus := 1 + 2 * notIndependent s tag + 4 * (x.cpStatus / 4 % 2) }
                  cpEnd s k 0

/-- The checks before any data is read (R549, R552, R559, R560): a command that passes them runs. -/
def cpStart (s : State) (k op n : Nat) (sec : Bool) : State :=
  let ws := (List.range 7).map fun w => mget 0 (cpCopyOf s k).stage w
  let run (s : State) (l : CapList) : State := { s with cp := { s.cp with run := some (k, op, n, ws, l) } }
  if op = 0 || 4 < op then cpEnd s k 11
  else if !(if k < 4 then portMay s k n else sec && dKind (descOf s n) = 0) then cpEnd s k 2
  else if (sliceOf s n).state ≠ .active && (sliceOf s n).state ≠ .degraded then cpEnd s k 1
  else if (cpBase s n).isNone then cpEnd s k 4
  else if op = 1 && (liveCtxs s n).any (fun c => (ctxOf s c).state = .live && ctxStep s c ≠ cpW ws 3 % 2 ^ 48) then cpEnd s k 10
  else if 2 < op then run s ⟨[], [], []⟩
  else match readCapList s n (cpW ws 0) with
    | (s, .inr (e, i)) => cpFail s k e i
    | (s, .inl l) =>
      if inRegion s n (cpW ws 1) (if op = 1 then recordSize l (recordCtxs s n).length else 128) true then run s l else cpFail s k 3 none

/-- Take waiting copies while no command runs: the control register port's first, then the host ports' in ascending number (R559); one whose
first reads have to wait (R28) stays waiting. -/
def cpDrive : Nat → State → State
  | 0, s => s
  | i + 1, s =>
    if s.cp.run.isSome then s
    else match [4, 0, 1, 2, 3].find? fun k => (cpCopyOf s k).cmd.isSome with
      | some k =>
        match (cpCopyOf s k).cmd with
        | some (op, n, sec) =>
          let t := cpStart s k op n sec
          if t.sv.stuck then s else cpDrive i t
        | none => s
      | none => s

/-- A write to CP_CMD (R559). -/
def cpCmd (path : Path) (op n : Nat) (s : State) : Res :=
  let s := awake s
  if !(pathUp s path) then offPath s path
  else if path = .jtag || regHeld s then .next s
  else
    let k := copyKey path
    if (cpCopyOf s k).cmd.isSome then settle (modCpCopy s k fun c => { c with collide := true })
    else settle (cpDrive 5 (modCpCopy s k fun c => { c with lastOp := op % 16, cmd := some (op % 16, n % 16, pathSecure s.cfg path) }))

/-- CAPTURE (R552). -/
def execCapture (path : Path) (n : Nat) (s : State) : Res := cpCmd path 1 n s
/-- REPLICATE (R554). -/
def execReplicate (path : Path) (n : Nat) (s : State) : Res := cpCmd path 2 n s
/-- CONFIRM (R555). -/
def execConfirm (path : Path) (n : Nat) (s : State) : Res := cpCmd path 3 n s
/-- RESTORE (R555). -/
def execRestore (path : Path) (n : Nat) (s : State) : Res := cpCmd path 4 n s

/-- CHECKPOINT_HASH_DONE (R551): the reads of the running command complete, and the command ends; a CAPTURE waits for its NONCE while the
entropy source has failed (R468). -/
def execCheckpointHashDone (s : State) : Res :=
  match s.cp.run with
  | none => .next s  -- no checkpoint command runs
  | some (k, op, n, ws, l) =>
    guardRes s  -- else: the checkpoint engine is stopped, or waits for the entropy source
      (blockRuns s && !s.fc.blockSafe && !(op = 1 && s.ks.entropyFail))
      (cpDrive 5 (match cpBase s n with
        | none => cpEnd s k 4
        | some base => if op ≤ 2 then cpWriteOut s k op n ws l base else cpOpen s k op n ws base))

/-- CP_OKEY_WRITE (R547, R559): a word of CP_OKEYs, ignored for slices of another kind. -/
def execCpOkeyWrite (path : Path) (n w : Nat) (v : Word) (s : State) : Res :=
  secWriteAt (n < 16 && w < 4) true path (fun s =>
    if dKind (descOf s n) ≠ 0 then s else { s with cp := { s.cp with okeys := minsert s.cp.okeys (4 * n + w) v } }) s

end Sys2Proof.Machine
end

