-- ==== Sys2Proof/Machine/Ports.lean ====
section
/-! DEFINITION. The edges of the host packet ports (22): credits (R607), outbound read completions (R608, R610), inbound requests to slice memory
(R611, R612), and the port reset (R620). -/
namespace Sys2Proof.Machine

/-! ## Inbound completions (R607, R612) -/

/-- Present inbound completions while credits last; each gives its request credit back. -/
def presentCpl (p : Nat) : List HCpl → Nat → Nat → List Out → List HCpl × Nat × Nat × List Out
  | [], c, r, o => ([], c, r, o)
  | x :: t, 0, r, o => (x :: t, 0, r, o)
  | x :: t, c + 1, r, o => presentCpl p t c (min 64 (r + 1)) (.hostCpl p x :: o)

/-- Let a port's waiting completions go. -/
def drainCpl (s : State) (p : Nat) : State :=
  let h := hportOf s p
  let (q, c, r, o) := presentCpl p h.cplQ h.cplCred h.reqCred s.out
  { modHport s p (fun h => { h with cplQ := q, cplCred := c, reqCred := r }) with out := o }

/-- Answer an accepted inbound request; a STATUS other than OK counts in INB_ERR (R619). -/
def complete (s : State) (p : Nat) (c : HCpl) : State :=
  let s := if c.status = 0 then s else inbAbort s p
  drainCpl (modHport s p fun h => { h with reqCred := h.reqCred - 1, cplQ := h.cplQ ++ [c] }) p

/-- A beat or pulse that breaks R607 is discarded: BADCPL and an HP_ERR event. -/
def badBeat (s : State) (p : Nat) : State :=
  raise (modHport s p fun h => { h with badcpl := satAdd 65535 h.badcpl 1 }) 19 p 0

/-- HOST_CREDIT_RETURN (R607): a pulse of the licensee on the outbound request channel, or on the inbound completion channel. While HPPp_RST is 1
the counts stay for its fall (R620). -/
def execHostCreditReturn (p : Nat) (cpl : Bool) (s : State) : Res :=
  let h := hportOf s p
  hereRes (p < s.cfg.hostPorts)
    (if h.rst then s
     else if cpl then
       (if 255 ≤ h.cplCred then badBeat s p else drainCpl (modHport s p fun h => { h with cplCred := h.cplCred + 1 }) p)
     else if 255 ≤ h.outCred then badBeat s p
     else drainOut (modHport s p fun h => { h with outCred := h.outCred + 1 }) p)

/-- HPP_RST_FALL (R607, R620): every credit count takes its initial value, and traffic may start. -/
def execHppRstFall (p : Nat) (s : State) : Res :=
  unitRes (p < s.cfg.hostPorts) s ((hportOf s p).rst && s.ck.rst.isNone)
    (resumeRings (modHport s p fun h => { h with outCred := 0, cplCred := 0, reqCred := 64, rst := false }))

/-! ## Outbound reads (R608 to R610) -/

/-- The lines that a read returns, one beat each (R608). -/
def readBeats (t : HTag) : List (Nat × Nat × Nat) := lineParts (readSpan t).1 (readSpan t).2

/-- The bytes that the next beat of a read brings (R608): those of its 128-byte line that the range asks for. -/
def beatBytes (t : HTag) (data : Line) : List Byte := ((readBeats t)[t.beat]?).elim [] fun x => lineBytes data x.2.1 x.2.2

/-- What the reader of a failed read does (R610). -/
def readFailed (s : State) (p : Nat) (t : HTag) : State :=
  let s := modHport s p fun h => { h with tags := h.tags.filter fun x => x.num ≠ t.num, rderr := satAdd 65535 h.rderr 1 }
  let s := raise s 19 p 0
  match t.reader with
  | .ring => modRing s p fun r => { r with fetchPending := true }
  | .firmware => match s.fw.op with
    | some (op, _) => fwFail s op 5
    | none => s
  | .bounce => match (hkOf s p).bncQueue with
    | b :: _ => bounceRefuse s p 7 b
    | [] => s

/-- A completion header that fits its tag: the next BEAT, with LAST on the last one. -/
def beatFits (t : HTag) (beat : Nat) (last : Bool) : Bool :=
  beat = t.beat && beat < (readBeats t).length && last = (beat + 1 = (readBeats t).length : Bool)

/-- A beat of a read arrives; after its last one the operation's next read goes out. -/
def takeBeat (s : State) (p : Nat) (t : HTag) (last : Bool) (data : Line) : State :=
  let u := { t with beat := t.beat + 1, got := t.got ++ beatBytes t data }
  if last && t.done + (readSpan t).2 < t.len then
    issueRead (modHport s p fun h => { h with tags := h.tags.filter fun x => x.num ≠ t.num }) p { u with done := t.done + (readSpan t).2 }
  else modHport s p fun h => { h with tags := h.tags.map fun x => if x.num = t.num then u else x }

/-- HOST_READ_COMPLETION (R607, R610): a completion beat arrives; while the port is fenced or in reset it is discarded (R620), and so is one of a
tag that a fence of the port ended (R630). -/
def execHostReadCompletion (p tag beat : Nat) (last err : Bool) (data : Line) (s : State) : Res :=
  hereRes (p < s.cfg.hostPorts)
    (if (hportOf s p).rst || s.fc.hostFenced.contains p then s
     else match (hportOf s p).tags.find? fun t => t.num = tag with
       | none =>
         if (hportOf s p).left.contains tag then
           (if last then modHport s p fun h => { h with left := h.left.filter (· ≠ tag) } else s)
         else badBeat s p
       | some t =>
         if !(beatFits t beat last) then badBeat s p
         else if err then readFailed s p t
         else takeBeat s p t last data)

/-! ## Inbound requests to slice memory (R54, R55, R611, R612) -/

/-- STATUS and REASON of an error of the access. -/
def cplOfCode (code : Nat) : Nat × Nat :=
  if code = cPOISON then (3, 0) else if code = cFENCED_UNIT then (2, 11) else (2, code % 16)

/-- The REASON for which R612 refuses an access before it is translated: HOSTS, R55, no region, HOST = 0. -/
def hostRefusal (s : State) (p slice addr : Nat) : Option Nat :=
  if !(portMay s p slice) then some 8
  else if dKind (descOf s slice) ≠ 0 then some 10
  else match regionAt s slice addr with
    | none => some 4
    | some (_, r) => if r.host then none else some 9

/-- An access that R611 does not allow: it crosses a 128-byte boundary or has bits above the slice physical address. -/
def badInbound (addr len : Nat) : Bool := len = 0 || 128 < addr % 128 + len || 2 ^ 44 ≤ addr

/-- Serve an inbound request to slice memory; `body` performs the access at its memory engine. -/
def hostSlice (p slice tag addr len : Nat) (wr : Bool) (body : State → MemReq → State × SvRes) (s : State) : Res :=
  let slice := slice % 16
  let tag := tag % 256
  if s.cfg.hostPorts ≤ p then .fault .absentUnit
  else if (hportOf s p).rst then settle (emit (inbAbort s p) (.hostCpl p ⟨tag, 5, 0, none⟩))
  else
    let s := awake s
    let fail (t : State) (st re : Nat) : Res := settle (complete t p ⟨tag, st, re, none⟩)
    if (hportOf s p).reqCred = 0 then settle (badBeat s p)
    else if portDown s p then fail s 4 0
    else if !(blockRuns s) then .refused .accessWaits
    else if badInbound addr len then fail s 1 0
    else match hostRefusal s p slice addr with
      | some r =>
        fail (if dKind (descOf s slice) ≠ 0 then modSlice s slice fun x => { x with refused := satAdd (2 ^ 32 - 1) x.refused 1 } else s) 2 r
      | none =>
        let s := awaitHalf s (s.cfg.halfOfHost p)
        match xlat2 s (hostWho s p slice) addr wr false with
        | (s, .err c) => fail s (cplOfCode c).1 (cplOfCode c).2
        | (s, .ok q) =>
          if !(accessReady s q) || bwWaits s (hostWho s p slice).attr then
            .refused .accessWaits
          else
            match body (countLine s (hostWho s p slice) q) q with
            | (s, .fail c) => fail s (cplOfCode c).1 (cplOfCode c).2
            | (s, .data l) =>
              settle (complete s p ⟨tag, 0, 0, some (BitVec.ofNat 1024 (l.toNat / 2 ^ (8 * (addr % 128)) % 2 ^ (8 * len) * 2 ^ (8 * (addr % 128))))⟩)
            | (s, .done) => settle (complete s p ⟨tag, 0, 0, none⟩)

/-- HOST_SLICE_READ (R612). -/
def execHostSliceRead (p slice tag addr len : Nat) (s : State) : Res :=
  hostSlice p slice tag addr len false (fun s q => svRead s q []) s

/-- HOST_SLICE_WRITE (R612): fewer than 128 bytes are a partial write (R297). -/
def execHostSliceWrite (p slice tag addr : Nat) (data : List Byte) (s : State) : Res :=
  let o := addr % 128
  hostSlice p slice tag addr data.length true (fun s q =>
    let line : Line := BitVec.ofNat 1024 (natOfBytes data * 2 ^ (8 * o))
    if data.length = 128 then svWriteFull s q line [] else svWritePartial s q (partMask o data.length) line []) s

end Sys2Proof.Machine
end

