-- ==== Sys2Proof/Machine/Lifecycle.lean ====
section
/-! DEFINITION. Life cycle and debug authorisation (17): transitions and SVN slots in OTP (R506 to R510), debug tokens and opening (R511 to
R514), and the selected JTAG instruction (R516, R628). -/
namespace Sys2Proof.Machine

/-! ## Tokens (R511, R512) -/

/-- The 184 bytes of DG_TOKEN. -/
def tokenBytes (s : State) : List Byte := (List.range 23).flatMap fun w => leBytes 8 (mget 0 s.lc.token w).toNat

/-- The layout of a token fits a purpose: MAGIC, PURPOSE, SCOPE, zero bytes. -/
def tokenLegal (t : List Byte) (purpose : Nat) : Bool :=
  let n (o l : Nat) : Nat := natOfBytes ((t.drop o).take l)
  n 0 4 = 0x44544B31 && n 4 1 = purpose && (if purpose = 1 then n 5 1 < 4 else n 5 1 = 0) && n 6 2 = 0

/-- Verify the token for a purpose (R512): RESULT, 0 when it is accepted. -/
def tokenResult (s : State) (purpose : Nat) : Nat :=
  let t := tokenBytes s
  match s.lc.chal with
  | none => 1
  | some c =>
    if (t.drop 8).take 32 ≠ leBytes 32 c.toNat then 1
    else if !(tokenLegal t purpose) then 2
    else if (t.drop 40).take 48 ≠ shaBytes (4 :: Config.p384Public (devId s)) then 4
    else if !(Config.ecdsaVerify (Config.rovaostKey 0) (shaBytes (t.take 88)) (t.drop 88)) then 3
    else 0

/-- A verification consumes the challenge; a refusal counts in FAILS. -/
def verifyToken (s : State) (purpose : Nat) : State × Nat :=
  let r := tokenResult s purpose
  ({ s with lc := { s.lc with chal := none, fails := if r = 0 then s.lc.fails else satAdd 255 s.lc.fails 1 } }, r)

/-! ## LC_CMD (R506 to R510) -/

/-- The word that a transition programs, and the PURPOSE of its token (0: none) (R506). -/
def transitionWord (frm target : Nat) : Option (Nat × Nat) :=
  match frm, target with
  | 0, 1 => some (0, 0)
  | 1, 2 => some (1, 0)
  | 2, 3 => some (2, 0)
  | 3, 4 => some (3, 2)
  | 3, 5 => some (4, 3)
  | 0, 5 | 1, 5 | 2, 5 | 4, 5 => some (4, 0)
  | _, _ => none

/-- A write to LC_CMD (R508, R45): the command holds BUSY until the next SCLK or until its OTP write ends; a write under BUSY is dropped. -/
def lcCmd (path : Path) (body : State → State × Nat) (s : State) : Res :=
  let s := awake s
  if !(pathUp s path) then offPath s path
  else if !(pathSecure s.cfg path) || s.fc.blockSafe || regHeld s then .next s
  else if lcBusy s.lc then settle { s with lc := { s.lc with collide := true } }
  else
    let (t, r) := body s
    settle (if t.lc.run.isSome then t else { t with lc := { t.lc with due := some r } })

/-- Start an OTP write; with TAMPER_N low its programming stops (R517). -/
def otpStart (s : State) (r : LcRun) : State × Nat :=
  let s := { s with lc := { s.lc with run := some r } }
  (if s.pins.tamperN then s else otpStop s, 7)

/-- TRANSITION (R507): `miss` holds the bits of the word that do not take. -/
def execTransition (path : Path) (target : Nat) (miss : Word) (s : State) : Res :=
  lcCmd path (fun s =>
    match transitionWord s.lc.current target with
    | none => (s, 1)
    | some (w, purpose) =>
      if s.lc.pend then (s, 3)
      else
        let (s, r) := if purpose = 0 then (s, 0) else verifyToken s purpose
        if r ≠ 0 then (s, 2) else otpStart s ⟨target, w, BitVec.allOnes 64, miss⟩) s

/-- RAISE_SVN (R510): the lowest slot that is entirely zero takes LC_ARG.SVN. -/
def execRaiseSvn (path : Path) (miss : Word) (s : State) : Res :=
  lcCmd path (fun s =>
    let v := s.lc.arg % 65536
    if !(2 ≤ s.lc.current && s.lc.current ≤ 4) then (s, 1)
    else if v ≤ s.minSvn || (match s.fw.running with | some im => im.svn < v | none => true) then (s, 6)
    else match (List.range 32).find? fun i => svnSlot s.lc i = 0 with
      | none => (s, 5)
      | some i => otpStart s ⟨0, i, BitVec.ofNat 64 (v + 65536 * (65535 - v)), miss⟩) s

/-! ## DG_CMD (R512 to R514) -/

/-- DG registers: the secure world, and the class P instrument of JTAG (R505, R628). -/
def dgSecure (c : Cfg) (path : Path) : Bool := path = .jtag || pathSecure c path

/-- A write to DG_CMD (R515). -/
def dgCmd (path : Path) (body : State → State × Nat) (s : State) : Res :=
  if path = .jtag && s.lc.tap ≠ 0x10 then .next s
  else
    let s := awake s
    if !(pathUp s path) then offPath s path
    else if !(dgSecure s.cfg path) || s.ck.rst.isSome || s.ck.clkFault then .next s
    else
      let (t, r) := if lcOpen s then body s else (s, 5)
      settle { t with lc := { t.lc with dgResult := r } }

/-- DG_CHALLENGE (R512); while the entropy source has failed the request waits (R468). -/
def execDgChallenge (path : Path) (s : State) : Res :=
  dgCmd path (fun s =>
    if s.ks.entropyFail then (s, s.lc.dgResult)
    else
      let (s, c) := drbg s 256
      ({ s with lc := { s.lc with chal := some c } }, 0)) s

/-- A confidential or joint slice that is not FREE. -/
def guarded (s : State) (n : Nat) : Bool := (sliceOf s n).state ≠ .free && dKind (descOf s n) ≠ 0

/-- Steps 1 and 2 of R513: TEARING, and every confidential and joint slice is dissolved. -/
def startDebug (s : State) (scope : Nat) : State :=
  let s := { s with lc := { s.lc with tearing := true, grant := scope } }
  (List.range 16).foldl (fun t n =>
    if guarded t n && (sliceOf t n).state ≠ .dissolving then dissolveStart t n cDEBUG_TEARDOWN else t) s

/-- What DEBUG_OPEN does, and its RESULT (R513). -/
def openDebug (s : State) : State × Nat :=
  if s.lc.dgOpen || s.lc.tearing then (s, 6)
  else if s.lc.current ≠ 3 then (startDebug s 3, 0)
  else
    let v := verifyToken s 1
    if v.2 = 0 then (startDebug v.1 ((tokenBytes s).getD 5 0).toNat, 0) else v

/-- DEBUG_OPEN (R513): in PRODUCTION with a token, elsewhere with SCOPE 0x03. -/
def execDebugOpen (path : Path) (s : State) : Res := dgCmd path openDebug s

/-- DEBUG_OPEN_COMPLETE (R513 step 3): no confidential or joint slice remains. -/
def execDebugOpenComplete (s : State) : Res :=
  guardRes s  -- else: debug is not opening, or confidential or joint slices remain
    (s.lc.tearing && s.ck.rst.isNone && (List.range 16).all fun n => !(guarded s n))
    { s with lc := { s.lc with tearing := false, dgOpen := true, scope := s.lc.grant } }

/-! ## JTAG (R516, R628) -/

/-- Every engine is in reset while EXTEST is selected: what it held is gone, and its context is as last saved. -/
def extestHold (s : State) : State :=
  s.cfg.engineList.foldl (fun t e =>
    match (engOf t e).ctx with
    | some (c, gen) =>
      let t := modEng (engClear (abandonTile t e c gen) e) e fun g => { g with phase := .on }
      let t := if (ctxOf t c).state = .live then addReady t c else t
      tearAdvance t c
    | none => modEng t e fun g => { g with spad := [], spadBad := [], icache := [] }) s

/-- IDCODE (R516). -/
def idcode (c : Cfg) : Word := packWord [(28, 4, 1), (12, 16, 0x4C55), (1, 11, c.jtagMfr), (0, 1, 1)]

/-- JTAG_INSTRUCTION (R628): an instruction is selected; codes beyond the table are BYPASS. IDCODE is shifted out. -/
def execJtagInstruction (code : Nat) (s : State) : Res :=
  let c := if code = 1 || code = 2 || code = 3 || code = 0x10 then code else 0xFF
  let s := { s with lc := { s.lc with tap := c } }
  settle (if c = 3 then extestHold s else if c = 1 then emit s (.instrument (idcode s.cfg)) else s)

end Sys2Proof.Machine
end

