-- ==== Sys2Proof/Machine/RegMap.lean ====
section
/-! DEFINITION. The register map (24): which register an offset names (R636, R637, R640), and what a read of it returns on a path (R51, R72,
R613, R638, R639). -/
namespace Sys2Proof.Machine

/-- The registers of R640, by instance. -/
inductive Reg where
  | ckVersion | ckConfig | ckTopology | ckLock
  | slCmd | slCmdStatus | slStage (i : Nat) | slState (n : Nat)
  | clRegion (c i : Nat) | tlAlloc (h n : Nat) | tlStatus (h : Nat)
  | svGeom (m : Nat) | svWide (m : Nat) | svStat (m : Nat) | svSweep (m : Nat) | svScrub (m : Nat) | svMedpol (m : Nat) | svMedcnt (m : Nat)
  | svPort (m : Nat) | svCtl | svKid (n : Nat) | svRet (m i : Nat) | svHist (m j : Nat)
  | lkSelf | lkEtype | lkTimer | lkStatus | lkRoute (i w : Nat) | lkPort (i : Nat) | lkPstat (i : Nat) | lkKey (n : Nat)
  | bwSlice (s : Nat) | bwAdmit | bwServed (h s c : Nat) (borrowed : Bool) | bwMbud (j : Nat) | bwHbud (p s : Nat)
  | scSlcfg (s : Nat) | scSlacc (s w : Nat) | scBeadsel | scBeaddata (w : Nat) | scCtxacc (n w : Nat) | scRod (r w : Nat) | scCtx (n : Nat)
  | scQueue (q w : Nat)
  | fwAddr | fwLen | fwCmd | fwStatus | fwInfo | fwStaged | fwProc (k : Nat) | fwMeas (w : Nat) | scErr
  | ksCmd | ksCmdStatus | ksStatus | ksSlice (s : Nat) | ksStage (i : Nat)
  | lcState | lcCmd | lcArg | lcCmdStatus | dgChal (w : Nat) | dgToken (w : Nat) | dgCmd | dgStatus
  | hpBase (p : Nat) | hpCtl (p : Nat) | hpTail (p : Nat) | hpDoorbell (p : Nat) | hpErr (p : Nat) | hpFencesel (p : Nat)
  | hpFencedata (p w : Nat) | hpEdge (p : Nat) | hpBnc (p w : Nat) | hpBncstat (p : Nat) | hpMbxctl (p : Nat) | hpMbxreq (p w : Nat)
  | hpMbxrsp (p w : Nat)
  | fcStatus | fcFirst (w : Nat) | fcCtl | fcCmd | fcCmdStatus | fcInject | fcCapbase | fcCapctl | fcCapstat | fcFence (w : Nat)
  | fcCfg (b : Nat) | fcCnt (b : Nat)
  | cpCmd | cpCmdStatus | cpStage (w : Nat) | cpFdtag | cpOkey (s w : Nat)
  | ckOpp | ckReset | pmWake | pmPolicy | pmCmd | pmStatus | pmEngstate (w : Nat) | pmClstate
  deriving DecidableEq, Repr

/-! ## Decoding (R637, R640) -/

/-- The instance of a register array that an offset names. -/
def inst1 (off base stride n : Nat) (f : Nat → Reg) : Option Reg :=
  if base ≤ off && (off - base) % stride = 0 && (off - base) / stride < n then some (f ((off - base) / stride)) else none

/-- The instance of a register array with an inner array. -/
def inst2 (off base s1 n1 s2 n2 : Nat) (f : Nat → Nat → Reg) : Option Reg :=
  if base ≤ off && (off - base) / s1 < n1 && (off - base) % s1 % s2 = 0 && (off - base) % s1 / s2 < n2 then
    some (f ((off - base) / s1) ((off - base) % s1 / s2))
  else none

/-- Registers below the scheduling hardware. -/
def regLow (off : Nat) : List (Option Reg) :=
  [inst1 off 0x0 8 1 fun _ => .ckVersion, inst1 off 0x8 8 1 fun _ => .ckConfig, inst1 off 0x10 8 1 fun _ => .ckTopology,
   inst1 off 0x18 8 1 fun _ => .ckLock,
   inst1 off 0x20000 8 1 fun _ => .slCmd, inst1 off 0x20008 8 1 fun _ => .slCmdStatus, inst1 off 0x20080 8 16 .slStage,
   inst1 off 0x20100 8 16 .slState,
   inst2 off 0x40000 0x200 48 8 64 .clRegion, inst2 off 0x60000 0x10000 2 8 2048 .tlAlloc, inst1 off 0x68000 0x10000 2 .tlStatus,
   inst1 off 0x80000 0x40 24 .svGeom, inst1 off 0x80008 0x40 24 .svWide, inst1 off 0x80010 0x40 24 .svStat, inst1 off 0x80018 0x40 24 .svSweep,
   inst1 off 0x80020 0x40 24 .svScrub, inst1 off 0x80028 0x40 24 .svMedpol, inst1 off 0x80030 0x40 24 .svMedcnt,
   inst1 off 0x80038 0x40 24 .svPort, inst1 off 0x81000 8 1 fun _ => .svCtl, inst1 off 0x82000 8 1024 .svKid,
   inst2 off 0x88000 0x2000 24 8 1024 .svRet, inst2 off 0xB8000 0x200 24 8 64 .svHist,
   inst1 off 0xC0000 8 1 fun _ => .lkSelf, inst1 off 0xC0008 8 1 fun _ => .lkEtype, inst1 off 0xC0010 8 1 fun _ => .lkTimer,
   inst1 off 0xC0018 8 1 fun _ => .lkStatus, inst2 off 0xC1000 16 1024 8 2 .lkRoute, inst1 off 0xC6000 0x40 18 .lkPort,
   inst1 off 0xC6008 0x40 18 .lkPstat, inst1 off 0xC8000 8 256 .lkKey,
   inst1 off 0xE0000 8 16 .bwSlice, inst1 off 0xE0080 8 1 fun _ => .bwAdmit,
   inst2 off 0xE1000 0x80 64 8 16 (fun x y => .bwServed (x / 32) (x % 32) (y / 2) (y % 2 = 1)),
   inst1 off 0xE4000 8 1024 .bwMbud, inst2 off 0xE6000 0x80 4 8 16 .bwHbud]

/-- Registers of the scheduling hardware, firmware unit, key store, life cycle and debug. -/
def regMid (off : Nat) : List (Option Reg) :=
  [inst1 off 0x100000 8 16 .scSlcfg, inst2 off 0x100100 32 16 8 4 .scSlacc, inst1 off 0x100400 8 1 fun _ => .scBeadsel,
   inst1 off 0x100408 8 4 .scBeaddata, inst2 off 0x110000 32 2048 8 4 .scCtxacc, inst2 off 0x120000 16 1024 8 2 .scRod,
   inst1 off 0x130000 8 2048 .scCtx, inst2 off 0x140000 16 4096 8 2 .scQueue,
   (if 0x151000 ≤ off then inst2 off 0x140000 16 8192 8 2 .scQueue else none), inst2 off 0x300000 16 8192 8 2 .scQueue,
   inst1 off 0x150000 8 1 fun _ => .fwAddr, inst1 off 0x150008 8 1 fun _ => .fwLen, inst1 off 0x150010 8 1 fun _ => .fwCmd,
   inst1 off 0x150018 8 1 fun _ => .fwStatus, inst1 off 0x150020 8 1 fun _ => .fwInfo, inst1 off 0x150028 8 1 fun _ => .fwStaged,
   inst1 off 0x150100 8 8 .fwProc, inst1 off 0x150200 8 6 .fwMeas, inst1 off 0x150300 8 1 fun _ => .scErr,
   inst1 off 0x160000 8 1 fun _ => .ksCmd, inst1 off 0x160008 8 1 fun _ => .ksCmdStatus, inst1 off 0x160010 8 1 fun _ => .ksStatus,
   inst1 off 0x160080 8 16 .ksSlice, inst1 off 0x160100 8 32 .ksStage,
   inst1 off 0x170000 8 1 fun _ => .lcState, inst1 off 0x170008 8 1 fun _ => .lcCmd, inst1 off 0x170010 8 1 fun _ => .lcArg,
   inst1 off 0x170018 8 1 fun _ => .lcCmdStatus, inst1 off 0x178000 8 4 .dgChal, inst1 off 0x178100 8 23 .dgToken,
   inst1 off 0x178200 8 1 fun _ => .dgCmd, inst1 off 0x178208 8 1 fun _ => .dgStatus]

/-- Registers of the host ports, fault collector, checkpoint engine, clocks and power. -/
def regHigh (off : Nat) : List (Option Reg) :=
  [inst1 off 0x180000 0x1000 4 .hpBase, inst1 off 0x180008 0x1000 4 .hpCtl, inst1 off 0x180010 0x1000 4 .hpTail,
   inst1 off 0x180018 0x1000 4 .hpDoorbell, inst1 off 0x180020 0x1000 4 .hpErr, inst1 off 0x180028 0x1000 4 .hpFencesel,
   inst2 off 0x180030 0x1000 4 8 2 .hpFencedata, inst1 off 0x180040 0x1000 4 .hpEdge, inst2 off 0x180100 0x1000 4 8 8 .hpBnc,
   inst1 off 0x180140 0x1000 4 .hpBncstat, inst1 off 0x180200 0x1000 4 .hpMbxctl, inst2 off 0x190000 0x2000 4 8 512 .hpMbxreq,
   inst2 off 0x191000 0x2000 4 8 512 .hpMbxrsp,
   inst1 off 0x1A0000 8 1 fun _ => .fcStatus, inst1 off 0x1A0008 8 3 .fcFirst, inst1 off 0x1A0020 8 1 fun _ => .fcCtl,
   inst1 off 0x1A0028 8 1 fun _ => .fcCmd, inst1 off 0x1A0030 8 1 fun _ => .fcCmdStatus, inst1 off 0x1A0038 8 1 fun _ => .fcInject,
   inst1 off 0x1A0040 8 1 fun _ => .fcCapbase, inst1 off 0x1A0048 8 1 fun _ => .fcCapctl, inst1 off 0x1A0050 8 1 fun _ => .fcCapstat,
   inst1 off 0x1A0080 8 8 .fcFence, inst1 off 0x1A0100 8 64 .fcCfg, inst1 off 0x1A0300 8 64 .fcCnt,
   inst1 off 0x1C0000 8 1 fun _ => .cpCmd, inst1 off 0x1C0008 8 1 fun _ => .cpCmdStatus, inst1 off 0x1C0040 8 7 .cpStage,
   inst1 off 0x1C0800 8 1 fun _ => .cpFdtag, inst2 off 0x1C1000 0x20 16 8 4 .cpOkey,
   inst1 off 0x1E0000 8 1 fun _ => .ckOpp, inst1 off 0x1E0008 8 1 fun _ => .ckReset, inst1 off 0x1E0010 8 1 fun _ => .pmWake,
   inst1 off 0x1E0018 8 1 fun _ => .pmPolicy, inst1 off 0x1E0020 8 1 fun _ => .pmCmd, inst1 off 0x1E0028 8 1 fun _ => .pmStatus,
   inst1 off 0x1E0100 8 8 .pmEngstate, inst1 off 0x1E0140 8 1 fun _ => .pmClstate]

/-- The SERVED array gives 16 slices to a half at a stride of 0x1000: the offsets between are no register. -/
def servedHole : Reg → Bool
  | .bwServed _ s _ _ => 16 ≤ s
  | _ => false

/-- The register that an offset names. -/
def regAt (off : Nat) : Option Reg :=
  ((regLow off ++ regMid off ++ regHigh off).findSome? id).filter fun r => !(servedHole r)

/-- An instance that the configuration holds (R637). -/
def regPresent (c : Cfg) : Reg → Bool
  | .clRegion k _ => k < c.clusters
  | .tlAlloc h _ | .tlStatus h | .bwServed h _ _ _ => h < c.halves
  | .svGeom m | .svWide m | .svStat m | .svSweep m | .svScrub m | .svMedpol m | .svMedcnt m | .svPort m | .svRet m _ | .svHist m _ => m < c.memPorts
  | .lkPort i | .lkPstat i => i < c.linkPorts
  | .bwHbud p _ | .hpBase p | .hpCtl p | .hpTail p | .hpDoorbell p | .hpErr p | .hpFencesel p | .hpFencedata p _ | .hpEdge p | .hpBnc p _
  | .hpBncstat p | .hpMbxctl p | .hpMbxreq p _ | .hpMbxrsp p _ => p < c.hostPorts
  | _ => true

/-- A register every field of which has World S (R640). -/
def regSecure : Reg → Bool
  | .slCmd | .slCmdStatus | .slStage _ | .clRegion _ _ | .tlAlloc _ _ | .tlStatus _ | .svWide _ | .svStat _ | .svSweep _ | .svScrub _ | .svMedpol _
  | .svMedcnt _ | .svPort _ | .svCtl | .svKid _ | .svRet _ _ | .svHist _ _ | .lkSelf | .lkEtype | .lkTimer | .lkStatus | .lkRoute _ _ | .lkPort _
  | .lkPstat _ | .lkKey _ | .bwAdmit | .bwMbud _ | .bwHbud _ _ | .scSlcfg _ | .scRod _ _ | .fwAddr | .fwLen | .fwCmd | .scErr | .ksCmd
  | .ksCmdStatus | .ksStage _ | .lcCmd | .lcArg | .lcCmdStatus | .dgChal _ | .dgToken _ | .dgCmd | .fcStatus | .fcFirst _ | .fcCtl | .fcInject
  | .fcCapbase | .fcCapctl | .fcCapstat | .fcFence _ | .fcCfg _ | .fcCnt _ | .cpFdtag | .cpOkey _ _ | .ckOpp | .pmWake | .pmPolicy | .pmCmd
  | .pmEngstate _ | .pmClstate => true
  | _ => false

/-- A DG_ register (R628). -/
def regDebug : Reg → Bool
  | .dgChal _ | .dgToken _ | .dgCmd | .dgStatus => true
  | _ => false

/-- The world of a path at a register (R613, R628). -/
def pathSec (c : Cfg) (path : Path) (r : Reg) : Bool := pathSecure c path || (path = .jtag && regDebug r)

/-- A host port's own copy of the HP_ registers, or the control register port (R431, R639). -/
def ownPort (path : Path) (p : Nat) : Bool :=
  match path with
  | .host q => q = p
  | .crp _ => true
  | .jtag => false

/-- A path that sees the state of a slice (R51): host ports in its HOSTS, and the control register port. -/
def seesSlice (s : State) (path : Path) (n : Nat) : Bool :=
  match path with
  | .host p => portMay s p n
  | .crp _ => true
  | .jtag => false

/-! ## Values -/

/-- STATE of SL_SLICE_STATEn. -/
def slCode : SlState → Nat
  | .free => 0
  | .direct => 1
  | .active => 2
  | .degraded => 3
  | .changing => 4
  | .dissolving => 5

/-- SPARE_LEFT (R332, R589). -/
def spareLeft (s : State) (m : Nat) : Nat :=
  if s.cfg.cap m = 0 then 0
  else 256 * (portSubs s.cfg m).length - ((portOf s m).ret.filter fun e => (e.2.valid || e.2.dead) && s.cfg.hasSub m (e.1 / 256)).length

/-- The bytes of a bead (R405). -/
def beadBytes (b : Bead) : List Byte :=
  leBytes 1 (16 * b.slice + b.state) ++ leBytes 1 (b2n b.leaveReq) ++ leBytes 2 b.rod ++ leBytes 4 b.pos ++ leBytes 4 b.maxpos ++
  leBytes 4 b.npages ++ leBytes 8 b.kvlist ++ leBytes 8 b.tag.toNat

/-- Word 1 of a fence entry (R264). -/
def fenceWord1 (f : Fence) : Word :=
  packWord [(62, 2, f.state), (46, 16, f.code), (30, 16, f.stale), (26, 4, f.slice), (15, 11, f.ctx), (7, 8, f.gen)]

/-- STEP of FC_CMD_STATUS: the highest step of the ladder that runs. -/
def ladderStep (s : State) : Nat :=
  if s.pins.trayPwrReq then 5
  else
    let top := s.fc.ladder.foldl (fun a l => max a l.step) 0
    if top ≠ 0 then top else if s.ctxs.any fun c => c.2.tear.isSome then 1 else 0

/-- A budget register (R387). -/
def bwWord (b : BwMaster) (urg : Nat) : Word :=
  packWord [(63, 1, b2n b.valid), (62, 1, b2n b.isSealed), (58, 4, b.slice), (48, 2, urg), (32, 16, b.demoted), (16, 16, b.used), (0, 16, b.budget)]

/-- Values of the slice manager, Tally and memory engine registers. -/
def readLow (s : State) : Reg → Word
  | .ckVersion => ckVersion
  | .ckConfig => s.cfg.ckConfig
  | .ckTopology => s.cfg.ckTopology
  | .ckLock => packWord [(1, 1, b2n s.fc.lock), (0, 1, b2n s.slm.buildLocked)]
  | .slCmdStatus => packWord [(63, 1, b2n s.slm.busy), (62, 1, b2n s.slm.collide), (16, 8, s.slm.target), (8, 4, s.slm.lastOp), (0, 8, s.slm.result)]
  | .slStage i => mget 0 s.slm.stage i
  | .clRegion c i =>
    let r := boltRegion s c i
    packWord [(63, 1, b2n r.valid), (62, 1, b2n r.clearing), (40, 11, r.ctx), (32, 8, r.gen), (8, 7, r.base), (0, 8, r.size)]
  | .tlAlloc h n => let a := mget (0, 0) (tallyOf s h).alloc n; packWord [(12, 12, a.1), (0, 11, a.2)]
  | .tlStatus h =>
    let t := tallyOf s h
    packWord [(63, 1, b2n t.wiped), (62, 1, b2n t.retained), (61, 1, b2n t.waking), (32, 16, t.uncorr), (16, 16, t.corr), (0, 16, t.fwCollide)]
  | .svGeom m => packWord [(32, 14, dlimOf s m), (16, 14, puOf s m), (0, 14, s.cfg.cap m)]
  | .svWide m => packWord [(16, 14, (portOf s m).wideSize), (0, 13, (portOf s m).wideBase)]
  | .svStat m => let p := portOf s m; packWord [(63, 1, b2n p.lost), (32, 16, p.treefail), (16, 16, p.tagfail), (0, 16, p.reenc)]
  | .svSweep m =>
    match (portOf s m).sweeps.find? (·.active) with
    | some w => packWord [(63, 1, 1), (62, 1, b2n (sweepHeld s m w)), (52, 10, w.src), (42, 10, w.dst), (0, 21, w.next)]
    | none => 0
  | .svScrub m => let b := (portOf s m).scrub; packWord [(60, 2, b.sub), (32, 27, b.line), (16, 16, b.passes), (0, 16, b.interval)]
  | .svMedpol m => packWord [(8, 8, (portOf s m).ceLimit), (0, 1, b2n (portOf s m).auto)]
  | .svMedcnt m =>
    let p := portOf s m
    packWord [(48, 16, p.ce), (32, 16, p.ue), (24, 8, p.histLost), (16, 8, p.rowRefused), (0, 11, spareLeft s m)]
  | .svPort m => let p := portOf s m; packWord [(63, 1, b2n p.ready), (32, 16, p.errRsp), (16, 16, p.badCpl), (0, 16, p.retry)]
  | .svCtl => packWord [(0, 1, b2n s.sv.sweepEn)]
  | .svKid n => let k := kidOf s n; packWord [(61, 3, kidCode k.state), (60, 1, b2n k.overBudget), (50, 10, k.partner), (0, 49, k.uses)]
  | .svRet m i =>
    let e := mget ⟨false, false, false, 0⟩ (portOf s m).ret i
    packWord [(63, 1, b2n e.valid), (62, 1, b2n e.dead), (61, 1, b2n e.rowreq), (0, 21, e.frm)]
  | .svHist m j =>
    match ((portOf s m).hist.find? fun e => e.1 = j).map (·.2) with
    | some h => packWord [(63, 1, 1), (61, 2, h.sub), (40, 21, h.group), (32, 8, h.count), (26, 6, h.lastSym), (25, 1, b2n h.ue)]
    | none => 0
  | _ => 0

/-- Values of the link, bandwidth and scheduling registers. -/
def readMid (s : State) (path : Path) : Reg → Word
  | .slState n =>
    if !(seesSlice s path n) then 0
    else
      let (fs, fe, fl, fh) := fencedUnits s n
      packWord [(41, 3, fh.length), (36, 5, fl.length), (28, 8, fe.length), (16, 12, (liveCtxs s n).length), (4, 8, fs.length),
        (0, 4, slCode (sliceOf s n).state)]
  | .lkSelf => BitVec.ofNat 64 s.links.self
  | .lkEtype => BitVec.ofNat 64 s.links.etype
  | .lkTimer => packWord [(32, 8, s.links.retry), (0, 24, s.links.rto)]
  | .lkStatus => packWord [(32, 13, streamCount s), (0, 16, s.links.full)]
  | .lkRoute i w =>
    let r := mget Route.zero s.links.routes i
    if w = 0 then packWord [(63, 1, b2n r.valid), (32, 16, r.dest), (0, 18, r.ports)] else BitVec.ofNat 64 r.dmac
  | .lkPort i => let p := lportOf s i; packWord [(63, 1, b2n p.up), (0, 48, p.smac)]
  | .lkPstat i => let p := lportOf s i; packWord [(48, 16, p.authfail), (32, 16, p.dup), (16, 16, p.retx), (0, 16, p.drop)]
  | .lkKey n =>
    let k := mget LinkKey.zero s.ks.links n
    packWord [(63, 1, b2n k.tx.isSome), (62, 1, b2n k.rx.isSome), (61, 1, b2n k.budget), (60, 1, b2n k.failed), (0, 45, k.uses)]
  | .bwSlice n =>
    if !(seesSlice s path n) then 0
    else let e := mget (false, 0, 0, 0) s.bw.slices n; packWord [(63, 1, b2n e.1), (40, 20, e.2.1), (20, 20, e.2.2.1), (0, 20, e.2.2.2)]
  | .bwAdmit => s.bw.admission
  | .bwServed h n c b =>
    if !(seesSlice s path n) then 0
    else let x := mget (0, 0) s.bw.served (128 * h + 8 * n + c); BitVec.ofNat 64 (if b then x.2 else x.1)
  | .scSlcfg n =>
    let a := slSchedOf s n
    packWord [(56, 8, a.gangWait), (32, 17, a.beadQuota), (16, 16, a.qbe), (0, 16, a.qlc)]
  | .scSlacc n w =>
    if !(seesSlice s path n) then 0
    else
      let a := slSchedOf s n
      match w with
      | 0 => BitVec.ofNat 64 a.wait
      | 1 => packWord [(32, 32, a.preempt), (0, 32, a.steps)]
      | 2 => BitVec.ofNat 64 a.fallback
      | _ => packWord [(32, 32, a.gaps), (0, 17, beadCount s n)]
  | .scBeadsel => BitVec.ofNat 64 (mget 0 s.sched.beadSel (copyKey path))
  | .scBeaddata w =>
    let b := beadOf s (mget 0 s.sched.beadSel (copyKey path))
    if seesSlice s path b.slice then BitVec.ofNat 64 (natOfBytes (((beadBytes b).drop (8 * w)).take 8)) else 0
  | .scCtxacc n w =>
    let x := ctxOf s n
    if !(seesSlice s path x.slice) then 0
    else match w with
      | 0 => BitVec.ofNat 64 x.acc.wait
      | 1 => packWord [(32, 32, x.acc.preempt), (0, 32, x.acc.steps)]
      | 2 => BitVec.ofNat 64 x.acc.fallback
      | _ => packWord [(48, 16, x.acc.evict), (0, 32, x.acc.maxwait)]
  | .scRod r w =>
    match (s.sched.rods.find? fun e => e.1 = r).map (·.2) with
    | none => 0
    | some d =>
      if w = 0 then packWord [(63, 1, 1), (62, 1, b2n d.isOpen), (45, 13, d.queue), (32, 13, d.maxBeads - 1), (16, 16, d.reserve), (0, 16, d.pageTokens)]
      else d.manifest
  | .scCtx n =>
    let x := ctxOf s n
    if seesSlice s path x.slice then
      packWord [(61, 3, ctxCode x.state), (57, 4, x.slice), (49, 8, x.gen), (31, 18, x.ffence)] else 0
  | .scQueue q w =>
    match queueOf s q with
    | none => 0
    | some x =>
      if !(seesSlice s path (ctxOf s x.ctx).slice) then 0
      else if w = 0 then
        packWord [(63, 1, 1), (62, 1, b2n x.err), (61, 1, b2n x.lc), (59, 2, x.port), (48, 11, x.ctx), (40, 8, x.gen), (0, 16, if x.err then x.code else 0)]
      else packWord [(32, 32, x.tail), (0, 32, x.head)]
  | _ => 0

/-- Values of the firmware, key store, life-cycle and debug registers. -/
def readUnits (s : State) (path : Path) (sec : Bool) : Reg → Word
  | .fwAddr => s.fw.addr
  | .fwLen => BitVec.ofNat 64 s.fw.len
  | .fwStatus =>
    packWord [(63, 1, b2n s.fw.busy), (62, 1, b2n (s.fw.collide && sec)), (59, 3, s.fw.state), (56, 3, s.fw.staged), (0, 8, s.fw.result)]
  | .fwInfo =>
    packWord [(48, 16, (s.fw.running.map (·.svn)).getD 0), (32, 16, s.minSvn), (0, 32, (s.fw.running.map (·.version)).getD 0)]
  | .fwStaged => packWord [(48, 16, (s.fw.image.map (·.svn)).getD 0), (0, 32, (s.fw.image.map (·.version)).getD 0)]
  | .fwProc k => let p := procOf s k; packWord [(62, 2, shownPstate s k), (32, 16, p.restarts), (16, 16, p.wdog)]
  | .fwMeas w => BitVec.ofNat 64 (natOfBytes (((beBytes 48 (fwMeas s)).drop (8 * w)).take 8))
  | .scErr => packWord [(1, 1, b2n s.fw.errFailed), (0, 1, b2n s.fw.errDeferred)]
  | .ksCmdStatus => packWord [(63, 1, b2n s.ks.busy), (62, 1, b2n s.ks.collide), (8, 4, s.ks.lastOp), (0, 8, s.ks.result)]
  | .ksStatus =>
    packWord [(62, 2, s.ks.root), (61, 1, b2n s.ks.entropyFail), (60, 1, b2n s.ks.cert.isSome), (32, 7, s.ks.sessions.length),
      (0, 16, if sec then s.ks.slotFail else 0)]
  | .ksSlice n =>
    if !(seesSlice s path n) then 0
    else
      let k := ksSlice s n
      packWord [(63, 1, b2n k.measured), (62, 1, b2n (runnable s n)), (16, 8, k.accepted), (8, 8, keysBits s n), (0, 8, k.bound)]
  | .ksStage i => mget 0 s.ks.stage i
  | .lcState => packWord [(12, 1, b2n s.lc.pend), (8, 4, s.lc.next), (0, 4, s.lc.current)]
  | .lcArg => BitVec.ofNat 64 s.lc.arg
  | .lcCmdStatus => packWord [(63, 1, b2n (lcBusy s.lc)), (62, 1, b2n s.lc.collide), (0, 8, s.lc.result)]
  | .dgChal w => BitVec.ofNat 64 (natOfBytes (((leBytes 32 (s.lc.chal.getD 0).toNat).drop (8 * w)).take 8))
  | .dgStatus =>
    packWord [(63, 1, b2n s.lc.dgOpen), (62, 1, b2n s.lc.tearing), (61, 1, b2n s.lc.chal.isSome), (48, 8, s.lc.scope), (8, 8, s.lc.fails),
      (0, 8, s.lc.dgResult)]
  | _ => 0

/-- Values of a host port's registers (R431, R499, R617, R619). -/
def readPort (s : State) (path : Path) : Reg → Word
  | .hpBase p => (ringOf s p).base
  | .hpCtl p => let r := ringOf s p; packWord [(63, 1, b2n r.en), (32, 4, r.sizeCode), (0, 32, r.head)]
  | .hpErr p => let r := ringOf s p; packWord [(48, 16, r.foreign), (32, 16, r.badtail), (16, 16, r.badpkt)]
  | .hpFencesel p => BitVec.ofNat 64 (ringOf s p).fenceSel
  | .hpFencedata p w =>
    let f := fenceOf s (ringOf s p).fenceSel
    if !(portMay s p f.slice) then 0 else if w = 0 then f.value else fenceWord1 f
  | .hpEdge p =>
    let h := hportOf s p
    packWord [(63, 1, b2n (s.cfg.secPort = some p)), (62, 1, b2n s.cfg.multi), (32, 16, h.rderr), (16, 16, h.badcpl), (0, 16, h.inbErr)]
  | .hpBncstat p => let h := hkOf s p; packWord [(56, 8, h.cause), (52, 4, h.bncQueue.length), (0, 32, h.refused)]
  | .hpMbxctl p =>
    let h := hkOf s p
    if copyKey path = 4 then 0
    else packWord [(63, 1, b2n h.mbxBusy), (62, 1, b2n h.mbxDone), (52, 4, h.mbxStatus), (32, 13, h.rspLen), (16, 4, h.kind), (0, 13, h.reqLen)]
  | .hpMbxrsp p w => if copyKey path = 4 then 0 else BitVec.ofNat 64 (bnat (hkOf s p).rsp (8 * w) 8)
  | _ => 0

/-- The port whose HP_ register it is. -/
def regPort : Reg → Option Nat
  | .hpBase p | .hpCtl p | .hpTail p | .hpDoorbell p | .hpErr p | .hpFencesel p | .hpFencedata p _ | .hpEdge p | .hpBnc p _ | .hpBncstat p
  | .hpMbxctl p | .hpMbxreq p _ | .hpMbxrsp p _ => some p
  | _ => none

/-- Values of the collector, checkpoint, clock and power registers. -/
def readHigh (s : State) (path : Path) (sec : Bool) : Reg → Word
  | .fcStatus => s.fc.status
  | .fcFirst w => if w = 0 then firstW0 s.fc.first else BitVec.ofNat 64 (if w = 1 then s.fc.first.time else s.fc.first.detail)
  | .fcCtl => packWord [(1, 1, b2n s.cfg.dup), (0, 1, b2n s.fc.lock)]
  | .fcCmdStatus =>
    let c := fcCopyOf s (copyKey path)
    packWord [(63, 1, b2n c.busy), (62, 1, b2n c.collide), (59, 3, ladderStep s), (8, 4, c.lastOp), (0, 8, c.result)]
  | .fcInject => s.fc.inject
  | .fcCapbase => s.fc.capBase
  | .fcCapctl => packWord [(32, 2, s.fc.capPort), (0, 32, s.fc.capSize)]
  | .fcCapstat => packWord [(32, 32, s.fc.capSeq), (24, 8, s.fc.capFlags), (0, 24, s.fc.capBytes)]
  | .fcFence w =>
    if w < 4 then BitVec.ofNat 64 (bitmap (s.fc.engFenced.filter fun e => e / 64 = w) / 2 ^ (64 * w))
    else if w < 6 then BitVec.ofNat 64 (bitmap (s.fc.subFenced.filter fun i => i / 64 = w - 4) / 2 ^ (64 * (w - 4)))
    else if w = 6 then packWord [(0, 18, bitmap s.fc.linkFenced), (24, 4, bitmap s.fc.hostFenced)]
    else packWord [(0, 48, bitmap s.fc.clFenced)]
  | .fcCfg b => if 40 ≤ b then 0 else let (w, n, r) := mget (fcCfgReset b) s.fc.cfg b; packWord [(32, 25, w), (16, 8, n), (0, 3, r)]
  | .fcCnt b => let x := mget (0, 0) s.fc.cnt b; packWord [(32, 32, x.1), (16, 16, x.2)]
  | .cpCmdStatus =>
    let c := cpCopyOf s (copyKey path)
    packWord [(63, 1, b2n c.cmd.isSome), (62, 1, b2n c.collide), (32, 12, c.failIdx), (8, 4, c.lastOp), (0, 8, c.result)]
  | .cpStage w => mget 0 (cpCopyOf s (copyKey path)).stage w
  | .cpFdtag => BitVec.ofNat 64 s.cp.fdtag
  | .ckOpp => packWord [(63, 1, b2n s.ck.busy), (0, 3, s.ck.divCode)]
  | .ckReset => packWord [(32, 32, s.ck.warmCount), (4, 4, s.ck.lastCause), (0, 1, b2n (s.pins.rootclk = 0))]
  | .pmWake => packWord [(32, 16, s.ck.wakeWindow), (0, 8, s.ck.wakeLimit)]
  | .pmPolicy => packWord [(32, 16, s.ck.engOff), (16, 16, s.ck.clRet), (0, 16, s.ck.halfRet)]
  | .pmStatus =>
    packWord [(48, 16, s.ck.thermEvt), (32, 16, s.ck.pwrEvt), (30, 2, s.ck.duty), (28, 1, b2n (s.ck.refused && sec)),
      (16, 12, if sec then s.ck.gov.length else 0), (0, 2, if sec then bitmap s.ck.halves else 0)]
  | .pmEngstate w =>
    BitVec.ofNat 64 ((s.cfg.engineList.filter fun e => e / 32 = w).foldl (fun a e => a + engState (engOf s e) * 4 ^ (e % 32)) 0)
  | .pmClstate => packWord [(0, 48, bitmap ((List.range s.cfg.clusters).filter fun c => (clOf s c).ret))]
  | _ => 0

/-- The current URG of a master of BW_MBUDj (R387): ports only, and a quiet port shows 0. -/
def mbudWord (s : State) (j : Nat) : Word :=
  if j / 256 = 2 then 0 else bwWord (mget BwMaster.zero s.bw.masters j) (if j / 256 = 1 then linkUrg s (j % 256) else 0)

/-- What a read of a register returns on a path (R51, R613, R637 to R639); a write-only register reads zero. -/
def regValue (s : State) (path : Path) (r : Reg) : Word :=
  let sec := pathSec s.cfg path r
  if !(regPresent s.cfg r) || (regSecure r && !sec) || (regPort r).any (fun p => !(ownPort path p)) then 0
  else match r with
    | .bwMbud j => mbudWord s j
    | .bwHbud p n => bwWord (mget BwMaster.zero s.bw.hosts (16 * p + n)) (hostUrg s p)
    | r => readLow s r ||| readMid s path r ||| readUnits s path sec r ||| readPort s path r ||| readHigh s path sec r

/-- A read of an offset (R637): none where it names no register. -/
def regRead (s : State) (path : Path) (off : Nat) : Option Word := (regAt off).map (regValue s path)

end Sys2Proof.Machine
end

