-- ==== Sys2Proof/Machine/Registers.lean ====
section
/-! DEFINITION. Register writes (R638, R640 to R643) with those that have a behaviour of their own, and IEEE 1687 instrument accesses (R505, R629). -/
namespace Sys2Proof.Machine

/-! ## Locks (R642) -/

/-- The build lock bars a write: one in the PCLK of the lock event itself is applied. -/
def buildBars (s : State) : Bool := s.slm.buildLocked && s.slm.lockAt ≠ s.pclk
/-- The collector lock bars a write: it takes effect in the SCLK after the write of LOCK, and a write in that SCLK is applied. -/
def collectorBars (s : State) : Bool := s.fc.lock && s.fc.lockAt + 1 < s.fc.sclk

/-! ## SV_ and LK_ registers (R282, R307, R335, R363) -/

/-- A port in the fresh state of R289: its roots cleared and its metadata cache empty. -/
def freshPort (s : State) (m : Nat) : State :=
  let h := s.cfg.halfOfMem m
  let lo := rootWord s m 0 0
  let s := modTally s h fun t => { t with sec := t.sec.filter fun e => !(lo ≤ e.1 && e.1 < lo + 256),
                                          bad := t.bad.filter fun b => !(secBase + 8 * lo ≤ b && b < secBase + 8 * (lo + 256)) }
  modPort s m fun p => { p with cache := [] }

/-- SV_WIDE_WRITE (R282): applied before the build lock, with every slice FREE and no retirement in progress, where the span fits. -/
def execSvWideWrite (path : Path) (m : Nat) (v : Word) (s : State) : Res :=
  secWriteAt (m < 24) (m < s.cfg.memPorts) path (fun s =>
    let size := field v 16 14
    let base := field v 0 13
    let free := (List.range 16).all fun n => (sliceOf s n).state = .free
    if buildBars s || !free || !s.retJobs.isEmpty || puFor (s.cfg.cap m) size - 1 < base + size then s
    else freshPort (modPort s m fun p => { p with wideSize := size, wideBase := base }) m) s

/-- SV_RET_WRITE (R335): ignored where FROM is valid in another entry of the sub-channel, or lies in the spare unit. -/
def execSvRetWrite (path : Path) (m i : Nat) (v : Word) (s : State) : Res :=
  secWriteAt (m < 24 && i < 1024) (m < s.cfg.memPorts) path (fun s =>
    let frm := field v 0 21
    let taken := (portOf s m).ret.any fun e => e.1 ≠ i && e.1 / 256 = i / 256 && e.2.valid && e.2.frm = frm
    if buildBars s || taken || frm / 256 = dlimOf s m then s
    else modPort s m fun p => { p with ret := mmod ⟨false, false, false, 0⟩ p.ret i fun e =>
      { e with valid := bit v 63, dead := bit v 62, frm := frm } }) s

/-- SWEEP_EN_SET (R306, R307): identifiers over their budget are checked again. -/
def execSweepEnSet (path : Path) (s : State) : Res :=
  secWrite path (fun s => (List.range 16).foldl (fun t n => if (sliceOf t n).state ≠ .free then recheckOver t n else t)
    { s with sv := { s.sv with sweepEn := true } }) s

/-- ROUTE_WRITE (R363). -/
def execRouteWrite (path : Path) (i w : Nat) (v : Word) (s : State) : Res :=
  secWriteAt (i < 1024 && w < 2) true path (fun s => putRoute s i w v) s

/-! ## Mailbox and bounce registers (R496, R617, R618) -/

/-- An SPDM request code that Lumust answers outside a session (R483). -/
def spdmKnown (code : Nat) : Bool := [0x84, 0xE1, 0xE3, 0x81, 0x82, 0x83, 0xE0, 0xE4].contains code

/-- GO: a request that no service waits for ends at once (R618). -/
def mbxGo (s : State) (p : Nat) : State :=
  let h := hkOf s p
  if h.mbxBusy then s
  else
    let s := modHk s p fun h => { h with mbxBusy := true }
    let code := reqByte s p 1
    let k := reqByte s p 2 + 256 * reqByte s p 3
    if h.reqLen = 0 || 4096 < h.reqLen then mbxEnd s p 2
    else if h.kind ≠ 1 && h.kind ≠ 2 then mbxEnd s p 3
    else if !(procUp s 6) && !(h.kind = 1 && code = 0x84 && romAnswers s) then mbxEnd s p 1
    else if h.kind = 1 && !(spdmKnown code) then answerErr s p 7
    else if h.kind = 2 && !((sessionOf s k).map fun x => decide (x.port = p)).getD false then answerErr s p 2
    else s

/-- A write to HP_MBXCTLp: KIND and REQ_LEN, DONE, then GO. -/
def mbxCtl (s : State) (p : Nat) (v : Word) : State :=
  let s := modHk s p fun h => { h with kind := field v 16 4, reqLen := field v 0 13, mbxDone := h.mbxDone && !(bit v 62) }
  if bit v 61 then mbxGo s p else s

/-- A write to HP_BNC_CMDp_w: word 7 submits the command. -/
def bncWrite (s : State) (p w : Nat) (v : Word) : State :=
  let s := modHk s p fun h => { h with bncCmd := mset 0 h.bncCmd w v }
  if w = 7 then bounceSubmit s p ((List.range 8).map fun i => mget 0 (hkOf s p).bncCmd i) else s

/-! ## Writes by register -/

/-- Fields of secure registers that only hold what is written. -/
def writeSecure (s : State) (r : Reg) (v : Word) : State :=
  match r with
  | .slCmdStatus => if bit v 62 then { s with slm := { s.slm with collide := false } } else s
  | .tlStatus h => if bit v 63 then modTally s h fun t => { t with wiped := false } else s
  | .svScrub m => modPort s m fun p => { p with scrub := { p.scrub with interval := field v 0 16 } }
  | .svMedpol m => modPort s m fun p => { p with ceLimit := field v 8 8, auto := bit v 0 }
  | .svCtl => { s with sv := { s.sv with sweepEn := false } }
  | .lkSelf => if buildBars s then s else modLinks s fun l => { l with self := field v 0 16 }
  | .lkEtype => if buildBars s then s else modLinks s fun l => { l with etype := field v 0 16 }
  | .lkTimer => modLinks s fun l => { l with retry := field v 32 8, rto := field v 0 24 }
  | .lkPort i => modLport s i fun p => { p with smac := field v 0 48 }
  | .fwAddr => { s with fw := { s.fw with addr := v } }
  | .fwLen => { s with fw := { s.fw with len := field v 0 32 } }
  | .fwStatus => if bit v 62 then { s with fw := { s.fw with collide := false } } else s
  | .scErr => { s with fw := { s.fw with errFailed := s.fw.errFailed && !(bit v 1), errDeferred := s.fw.errDeferred && !(bit v 0) } }
  | .ksCmdStatus => if bit v 62 then { s with ks := { s.ks with collide := false } } else s
  | .ksStage i => { s with ks := { s.ks with stage := mset 0 s.ks.stage i v } }
  | .lcArg => { s with lc := { s.lc with arg := field v 0 16 } }
  | .lcCmdStatus => if bit v 62 then { s with lc := { s.lc with collide := false } } else s
  | .dgToken w => { s with lc := { s.lc with token := mset 0 s.lc.token w v } }
  | .cpFdtag => if buildBars s then s else { s with cp := { s.cp with fdtag := field v 0 16 } }
  | .pmWake => if buildBars s then s else modCk s fun k => { k with wakeWindow := field v 32 16, wakeLimit := field v 0 8 }
  | .pmPolicy => modCk s fun k => { k with engOff := field v 32 16, clRet := field v 16 16, halfRet := field v 0 16 }
  | .pmStatus => if bit v 28 then modCk s fun k => { k with refused := false } else s
  | _ => s

/-- Fields of the collector's secure registers (R545, R642). -/
def writeCollector (s : State) (r : Reg) (v : Word) : State :=
  match r with
  | .fcCapbase => { s with fc := { s.fc with capBase := v } }
  | .fcCapctl => { s with fc := { s.fc with capPort := field v 32 2, capSize := field v 0 32 } }
  | .fcCfg b =>
    if collectorBars s || fcFixed b || 40 ≤ b then s
    else { s with fc := { s.fc with cfg := minsert s.fc.cfg b (field v 32 25, field v 16 8, field v 0 3), cfgBad := sdel s.fc.cfgBad b } }
  | _ => s

/-- Fields that either world writes, in the path's own copy (R639). -/
def writeOpen (s : State) (path : Path) (r : Reg) (v : Word) : State :=
  let k := copyKey path
  match r with
  | .scBeadsel => { s with sched := { s.sched with beadSel := mset 0 s.sched.beadSel k (field v 0 16) } }
  | .cpCmdStatus => if bit v 62 then modCpCopy s k fun c => { c with collide := false } else s
  | .cpStage w => modCpCopy s k fun c => { c with stage := mset 0 c.stage w v }
  | .fcCmdStatus => if bit v 62 then modFcCopy s k fun c => { c with collide := false } else s
  | .hpBase p => modRing s p fun r => if r.en then r else { r with base := v }
  | .hpFencesel p => modRing s p fun r => { r with fenceSel := field v 0 18 }
  | .hpBnc p w => bncWrite s p w v
  | _ => s

/-- Writes of the mailbox, which SCRAP and LOCKED answer too (R504). -/
def writeMailbox (s : State) (r : Reg) (v : Word) : State :=
  match r with
  | .hpMbxctl p => mbxCtl s p v
  | .hpMbxreq p w => modHk s p fun h => { h with req := bwrite h.req (8 * w) (leBytes 8 v.toNat) }
  | _ => s

/-- A register of the collector (R622). -/
def regCollector : Reg → Bool
  | .fcStatus | .fcFirst _ | .fcCtl | .fcCmd | .fcCmdStatus | .fcInject | .fcCapbase | .fcCapctl | .fcCapstat | .fcFence _ | .fcCfg _ | .fcCnt _ => true
  | _ => false

/-- A mailbox register (R617). -/
def regMailbox : Reg → Bool
  | .hpMbxctl _ | .hpMbxreq _ _ => true
  | _ => false

/-- Command registers and others whose write is a row of its own; `none` for the rest. -/
def writeCommand (path : Path) (r : Reg) (v : Word) (s : State) : Option Res :=
  match r with
  | .slCmd =>
    let n := field v 16 8
    some (match field v 0 4 with
      | 1 => execBuild path n s
      | 2 => execChange path n s
      | 3 => execDissolve path n s
      | 4 => execReadDesc path n s
      | 5 => execRegionWrite path n s
      | 6 => execRegionRead path n s
      | op => slCmd path op n (fun s => slmEnd s 9) s)
  | .fwCmd =>
    some (match field v 0 4 with
      | 1 => execLoad path (field v 4 2) s
      | 2 => execStage path (field v 4 2) s
      | 3 => execActivate path s
      | 4 => execDiscard path s
      | _ => fwCmd path (fun _ => false) id s)
  | .ksCmd =>
    some (match field v 0 4 with
      | 1 => execImportKey path s
      | 2 => execGenerate path s
      | 3 => execErase path s
      | 4 => execOwnerBind path s
      | 5 => execCertLoad path s
      | 6 => execDevidRead path s
      | 7 => execPikRead path s
      | op => ksCmd path op (fun s _ => (s, 9)) s)
  | .lcCmd =>
    some (match field v 0 4 with
      | 1 => execTransition path (field v 4 4) 0 s
      | 2 => execRaiseSvn path 0 s
      | _ => lcCmd path (fun s => (s, 8)) s)
  | .dgCmd =>
    some (match field v 0 4 with
      | 1 => execDgChallenge path s
      | 2 => execDebugOpen path s
      | _ => dgCmd path (fun s => (s, 7)) s)
  | .fcCmd => some (fcCmd path (field v 0 4) (field v 8 8) (field v 16 16) s)
  | .cpCmd => some (cpCmd path (field v 0 4) (field v 16 4) s)
  | .pmCmd => if field v 0 4 = 1 then some (execRetainBlock path s) else some (secWrite path id s)
  | .fcStatus => some (execFcStatusClear path v s)
  | .fcCtl => if bit v 0 then some (execFcLock path s) else some (fcWrite path id s)
  | .fcInject => some (execFcInjectArm path v s)
  | .svWide m => some (execSvWideWrite path m v s)
  | .svRet m i => some (execSvRetWrite path m i v s)
  | .svCtl => if bit v 0 then some (execSweepEnSet path s) else none
  | .lkRoute i w => some (execRouteWrite path i w v s)
  | .scSlcfg n => some (execSlcfgWrite path n v s)
  | .cpOkey n w => some (execCpOkeyWrite path n w v s)
  | .ckOpp => some (execOppChange path v s)
  | .hpTail p => some (execPortRingDoorbell p (field v 0 32) s)
  | .hpDoorbell p => some (execQueueDoorbell p (field v 32 13) (field v 0 32) s)
  | .hpCtl p => some (execPortRingEnable p (bit v 63) (field v 32 4) s)
  | _ => none

/-- A write that reaches a register of its configuration. -/
def writeReg (path : Path) (r : Reg) (v : Word) (s : State) : Res :=
  match (regPort r) with
  | some p =>
    if path ≠ .host p || (regHeld s && !(regMailbox r && s.ck.rst.isNone && !s.ck.clkFault)) then .next s
    else match writeCommand path r v s with
      | some x => x
      | none => settle (writeMailbox (writeOpen s path r v) r v)
  | none =>
    match writeCommand path r v s with
    | some x => x
    | none =>
      if regCollector r then settle (if lcOpen s then (if pathSec s.cfg path r then writeCollector (writeOpen s path r v) r v else writeOpen s path r v) else s)
      else if regHeld s then .next s
      else
        let s := writeOpen s path r v
        if pathSec s.cfg path r then
          settle (match r with
            | .slStage i => { s with slm := { s.slm with stage := mset 0 s.slm.stage i v } }
            | _ => writeSecure s r v)
        else match r with
          | .slStage _ => settle (raise s 23 0 0)
          | _ => .next s

/-- REGISTER_WRITE (R637, R638): an offset that names no register, or is misaligned, is answered with UR or UNMAPPED; a register that the
configuration does not hold ignores the write. A command register's write is its command. -/
def execRegisterWrite (path : Path) (off : Nat) (v : Word) (s : State) : Res :=
  let s := awake s
  if !(pathUp s path) then offPath s path
  else match regAt off with
    | none => offPath s path
    | some r => if regPresent s.cfg r then writeReg path r v s else .next s

/-! ## IEEE 1687 instruments (R505, R628, R629) -/

/-- The unit that an instrument names exists. -/
def instPresent (c : Cfg) : Instrument → Bool
  | .reg _ | .monitor _ => true
  | .spad e _ | .scan e | .inject e => c.hasEngine e
  | .bolt k _ => k < c.clusters
  | .tally h _ => h < c.halves
  | .proc k _ => k < 8

/-- Class I instruments are reached only while debug is open with SCOPE bit 1. -/
def intrusive (s : State) : Bool := s.lc.dgOpen && s.lc.scope / 2 % 2 = 1

/-- Class O instruments: while closed in RAW and TEST (R504), and while open with SCOPE bit 0. -/
def observing (s : State) : Bool := if s.lc.dgOpen then s.lc.scope % 2 = 1 else s.lc.current ≤ 1

/-- A class P register: LC_STATE and the DG_ registers. -/
def classP : Reg → Bool
  | .lcState => true
  | r => regDebug r

/-- An access to the word of a memory at a byte offset; a word outside it is not there. -/
def instWord (write : Bool) (read : Word) (put : State) (s : State) : State := if write then put else emit s (.instrument read)

/-- Write a word of the non-secure Tally areas through the instrument: the word is whole again, and is presented (R270). -/
def putInstTally (s : State) (h a : Nat) (v : Word) : State :=
  presentWord (modTally (putTallyWord s h a v) h fun t => { t with bad := sdel t.bad a }) h a

/-- A class I access (R505); injection is for TEST alone (R504). -/
def instIntrusive (t : Instrument) (write : Bool) (v : Word) (s : State) : State :=
  match t with
  | .spad e a =>
    let a := a / 8 * 8
    if 2 ^ 20 ≤ a then s
    else instWord write (BitVec.ofNat 64 (bnat (engOf s e).spad a 8))
      (modEng s e fun g => { g with spad := bwrite g.spad a (leBytes 8 v.toNat), spadBad := sdel g.spadBad (a / 8) }) s
  | .bolt c a =>
    let a := a / 8 * 8
    if 2 ^ 23 ≤ a then s
    else
      let s := boltSlot s c
      instWord write (BitVec.ofNat 64 (bnat (clOf s c).bolt a 8)) (boltWrite s c a (leBytes 8 v.toNat)).1 s
  | .tally h a =>
    let a := a / 8 * 8
    if secBase ≤ a then s
    else
      let s := awaitTally s h
      instWord write (tallyWord s h a) (putInstTally s h a v) s
  | .scan e => instWord write (BitVec.ofNat 64 (engOf s e).pc) (setPc s e v.toNat) s
  | .proc k halt => modProc s k fun p => { p with halted := halt }
  | .inject e => if s.lc.current = 1 then raise s 7 e 0 none true else s
  | _ => s

/-- JTAG_INSTRUMENT_ACCESS (R505, R628, R629): an access through the instrument network; one that R505 does not permit has no effect. A monitor
shows a value that the manual leaves open. -/
def execJtagInstrumentAccess (t : Instrument) (write : Bool) (v : Word) (s : State) : Res :=
  if !(instPresent s.cfg t) then .fault .absentUnit
  else if s.lc.tap ≠ 0x10 then .next s  -- the TAP does not select the instrument network
  else match t with
    | .reg off =>
      match regAt off with
      | some r =>
        if !(classP r) then .next s
        else if write then writeReg .jtag r v s
        else settle (emit s (.instrument (regValue s .jtag r)))
      | none => .next s
    | .monitor _ =>
      if observing s && !write then
        let (s, w) := draw s 64
        settle (emit s (.instrument w))
      else .next s
    | t => settle (if intrusive s then instIntrusive t write v s else s)

end Sys2Proof.Machine
end

