-- ==== Sys2Proof/Machine/Clock.lean ====
section
/-! DEFINITION. One ROOTCLK cycle of the block (R562, R572, R574): what advances when no command waits. -/
namespace Sys2Proof.Machine

/-- The unit clocks run: not stopped for a change of operating point, not in block RET, with ROOTCLK never lost and BLK_COLD_N not low
(R563, R564, R568, R575). -/
def unitsClocked (s : State) : Bool :=
  !s.ck.busy && !s.ck.blockRet && !s.ck.clkFault && s.pins.coldN &&
  !(s.ck.rst.any fun r => r.phase = 0)

/-- A throttle unit that runs under a duty (R572). -/
def unitRuns (duty unit : Nat) : Bool :=
  if duty = 0 then true else if duty = 1 then unit % 2 = 0 else unit % 4 = 0

/-- One PCLK of waiting in an account (R415). -/
def CtxAcc.waitOne (a : CtxAcc) (absent : Bool) : CtxAcc :=
  { a with wait := a.wait + 1, fallback := a.fallback + b2n absent, cur := a.cur + 1,
           maxwait := max a.maxwait (satAdd (2 ^ 32 - 1) a.cur 1) }

/-- The accounts of one context for one PCLK (R415). -/
def accountCtx (s : State) (c : Nat) : State :=
  if ctxReady s c then
    let n := (ctxOf s c).slice
    let absent := !(schedUp s c)
    modSlSched (modAcc s c fun a => a.waitOne absent) n fun a => { a with wait := a.wait + 1, fallback := a.fallback + b2n absent }
  else if (ctxOf s c).acc.cur = 0 then s
  else modAcc s c fun a => { a with cur := 0 }

/-- The clusters, then the halves (64 + number), that fail the condition of their idle threshold in this PCLK (R567). -/
def busyDomains (s : State) : List Nat :=
  ((List.range s.cfg.clusters).filter fun k => !(clusterQuiet s k)) ++
  (((List.range s.cfg.halves).filter fun h => !(halfQuiet s h)).map (64 + ·))

/-- What one PCLK that runs does (R45, R397, R415, R559, R567). -/
def pclkEdge (s : State) : State :=
  if s.ck.rst.isSome then s
  else
    let s := { s with pclk := s.pclk + 1 }
    let s := (s.ctxs.map (·.1)).foldl accountCtx s
    let s := (busyDomains s).foldl (fun t d => modCk t fun k => { k with lastBusy := mset 0 k.lastBusy d s.pclk }) s
    let s := if blockRuns s then lcRequests (slmDrive (ksDrive s)) else s
    if s.cp.run.isNone && blockRuns s then cpDrive 5 s else s

/-- Whether the entropy source has just passed a new start-up test (R468): the rules leave the moment open (DESIGN CHOICE, log 168). -/
def entropyRetest (s : State) : State :=
  if !s.ks.entropyFail then s
  else
    let (s, r) := draw s 1
    if r = 1 then { s with ks := { s.ks with entropyFail := false } } else s

/-- What one SCLK does (R460, R468, R519, R573): the collector counts, a level cause is an event, and the emergency pins are timed. -/
def sclkEdge (s : State) : State :=
  let s := { s with fc := { s.fc with sclk := s.fc.sclk + 1 },
                    emergQuiet := if s.pins.thermN && s.pins.pwrN then satAdd 1000000 s.emergQuiet 1 else 0 }
  let s := modCk s fun k => { k with thermHigh := if s.pins.thermN then satAdd 1000 k.thermHigh 1 else 0,
                                     pwrHigh := if s.pins.pwrN then satAdd 1000 k.pwrHigh 1 else 0,
                                     thermLow := satAdd 1000 k.thermLow 1, pwrLow := satAdd 1000 k.pwrLow 1 }
  let s := entropyRetest (lcDrive s)
  let s := (lowPorts s).foldl mpErrAll s
  ((levelBits s).filter (· ≠ 16)).foldl (fun t b => raise t b 0 0) s

/-- The unit counters after a ROOTCLK cycle: a unit holds 6 × D cycles, a frame 8 units (R572). -/
def unitNext (k : Ck) : Ck :=
  if k.unitPos + 1 < 6 * 2 ^ k.divCode then { k with unitPos := k.unitPos + 1 }
  else { k with unitPos := 0, unit := (k.unit + 1) % 8 }

/-- One ROOTCLK cycle (R562): nothing moves while ROOTCLK is absent (R563). SCLK is ROOTCLK ÷ 48; each throttle unit that runs has its one PCLK
at its first cycle. -/
def tick (s : State) : State :=
  if s.pins.rootclk = 1 then s
  else
    let s := if unitsClocked s then
        let s' := if s.ck.unitPos = 0 && unitRuns s.ck.duty s.ck.unit then pclkEdge s else s
        modCk s' unitNext
      else s
    if s.ck.sub + 1 < 48 then modCk s fun k => { k with sub := k.sub + 1 }
    else sclkEdge (modCk s fun k => { k with sub := 0 })

end Sys2Proof.Machine
end

