-- ==== Sys2Proof/Machine/Shuttle.lean ====
section
/-! DEFINITION. The Shuttle router (R128 to R149, R240 to R251): ROUTE, XGATH, XSCAT, TOPK, TEXP, their queue in the cluster, and the
start and completion of its operations. -/
namespace Sys2Proof.Machine

/-! ## Shuttle addresses in use (R240, R141) -/

/-- Read `n` bytes at a Shuttle address for an operation; an address outside the region is ADDRESS, flagged ASYNC (R240). -/
def shRead (s : State) (o : ShOp) (a : ShAddr) (add n : Nat) : State × Acc (List Byte) :=
  match a with
  | .bolt off =>
    match boltAt s (o.eng / 4) o.ctx o.gen (off + add) n with
    | none => (s, .err (cADDRESS 1))
    | some p =>
      let (s, bad) := boltChecked s (o.eng / 4) p n
      if bad then (s, .err cPOISON)
      else
        let (s, bs) := boltSeen s (o.eng / 4) o.ctx o.gen (off + add) p n
        (s, .ok bs)
  | .va v => memRead s (engWho s o.eng o.ctx o.gen o.bwclass) .vaHk (v + add) n

/-- Read a little-endian number at a Shuttle address. -/
def shNat (s : State) (o : ShOp) (a : ShAddr) (add n : Nat) : State × Acc Nat :=
  match shRead s o a add n with
  | (s, .ok bs) => (s, .ok (natOfBytes bs))
  | (s, .err c) => (s, .err c)

/-- Write bytes at a Shuttle address; gives the error. -/
def shWrite (s : State) (o : ShOp) (a : ShAddr) (add : Nat) (bs : List Byte) : State × Option Nat :=
  match a with
  | .bolt off =>
    match boltAt s (o.eng / 4) o.ctx o.gen (off + add) bs.length with
    | none => (s, some (cADDRESS 1))
    | some p =>
      let (s, bad) := boltWrite s (o.eng / 4) p bs
      (s, if bad then some cPOISON else none)
  | .va v => memWrite s (engWho s o.eng o.ctx o.gen o.bwclass) .vaHk (v + add) bs

/-- An error that ends an operation, and one that it carries on with: a write that met an uncorrectable word writes its other bytes (R646). -/
def hardErr (e : Option Nat) : Option Nat := if e = some cPOISON then none else e

/-- The Bolt range of a Shuttle address, for R163. -/
def shRange (a : ShAddr) (add n : Nat) : List (Nat × Nat) :=
  match a with
  | .bolt off => [(off + add, n)]
  | .va _ => []

/-- A field of an operation's instruction. -/
def ShOp.fld (o : ShOp) (lo n : Nat) : Nat := field o.low lo n

/-- The Shuttle address in a register value that issue has checked. -/
def shAddrD (w : Word) : ShAddr := (shAddr w).getD (.va 0)

/-! ## Issue (R148, R243, R252) -/

/-- Shuttle operations of engine `e` outstanding in its cluster (R148). -/
def shuttleCount (s : State) (e : Nat) : Nat := ((clOf s (e / 4)).shuttle.filter fun o => o.eng = e).length

/-- Issue a Shuttle operation once its OPERAND_FORMAT conditions hold: the Shuttle addresses with their sizes, then the Tally
reference, then the Bolt ranges; then it enters the queue. Of a context that is being torn down it is dropped at once (R149, R446). One with a
view stays in issue until Shuttle has read the view (R247). -/
def shIssue (s : State) (g : Engine) (e : Nat) (f : Frame) (op : Nat) (vals : Word × Word × Word) (desc : BitVec 256)
    (view : Option Word) (needs : List (Word × Nat)) (boltNeeds : List (Nat × Nat)) : IRes :=
  if needs.any fun x => (shAddr x.1).isNone then .fault s 7 1 0
  else match completionWord s g f with
    | .error sub => .fault s 7 sub 0
    | .ok w =>
      let ranges := boltNeeds ++ needs.flatMap fun x => shRange (shAddrD x.1) 0 x.2
      if ranges.any fun r => (boltAt s (e / 4) g.who.1 g.who.2 r.1 r.2).isNone then .fault s 6 0 0
      else if 4 ≤ shuttleCount s e then .stall
      else if (ctxOf s g.who.1).state = .tearing then .ok s
      else
        let o : ShOp := { id := s.fresh, op := op, eng := e, ctx := g.who.1, gen := g.who.2, bwclass := g.bwclass,
                          low := lowBits f, v0 := vals.1, v1 := vals.2.1, v2 := vals.2.2, desc := desc, step := g.step,
                          key := (ctxOf s g.who.1).key, view := view, word := w, started := false, wrote := [], past := [],
                          err := none }
        let s := { modCl s (e / 4) (fun k => { k with shuttle := k.shuttle ++ [o] }) with fresh := s.fresh + 1 }
        if view.isSome then .jump s g.pc else .ok s

/-- A Shuttle instruction's frame: class H. -/
def infoH (slots : List SlotKind) (fields : List (Nat × Nat)) : OpInfo := ⟨.opening, 7, slots, fields⟩

/-- Bytes of a result area (R137). -/
def areaBytes (t k : Nat) : Nat := 1600 + 16 * t * k

/-- ROUTE (R245 to R247). -/
def execRoute (e : Nat) (f : Frame) (s : State) : Res :=
  issue e f (infoH [.td, .s, .s, .s] [(82, 2), (81, 1), (80, 1), (77, 3)]) (caLegal f) (fun s g =>
    let p := srcS g f 2
    let t := field p 24 13 + 1
    let ex := field p 16 8 + 1
    let k := lowField f 77 3 + 1
    let area := srcS g f 1
    let bad := ex < k || field p 37 27 ≠ 0 || field area 0 7 ≠ 0
    let go (desc : BitVec 256) (view : Option Word) : IRes := shIssue s g e f 0xE1 (0, area, p) desc view [(area, areaBytes t k)] []
    if (slotOf f 0).1 = 3 then
      let v := viewOf (tGet g (slotOf f 0).2)
      match viewFault v false with
      | some c => .fault s c 0 0
      | none =>
        if bad || 1 < v.fmt || v.spc ≠ 0 || v.rows ≠ t || v.cols ≠ ex then .fault s 2 0 0
        else go 0 (some (tGet g (slotOf f 0).2))
    else
      let d := dGet g (slotOf f 0).2
      let x := tensorOf d
      if bad || !(tensorLegal d) || 1 < x.fmt || x.spc ≠ 0 || x.rows ≠ t || x.cols ≠ ex then .fault s 2 0 0
      else go d none) s

/-- The token or output tensor of XGATH and XSCAT (R248, R249). -/
def shTensorLegal (d : BitVec 256) : Bool := rowTensorLegal d && rowBytes (tensorOf d) ≤ 65536

/-- XGATH (R248). -/
def execXgath (e : Nat) (f : Frame) (s : State) : Res :=
  issue e f (infoH [.d, .s, .s, .s] [(82, 2), (0, 23)]) (caLegal f) (fun s g =>
    let d := dGet g (slotOf f 0).2
    let area := srcS g f 1
    let x := srcS g f 2
    if !(shTensorLegal d) || field area 0 7 ≠ 0 || field x 8 56 ≠ 0 || lowField f 0 23 % 8 ≠ 0 then .fault s 2 0 0
    else shIssue s g e f 0xE2 (0, area, x) d none [(area, 1600)] [(lowField f 0 23, 2048)]) s

/-- XSCAT (R249). -/
def execXscat (e : Nat) (f : Frame) (s : State) : Res :=
  issue e f (infoH [.d, .s, .s, .s] [(82, 2), (80, 2), (79, 1), (63, 16), (62, 1), (0, 23)])
    (caLegal f && lowField f 80 2 ≠ 3) (fun s g =>
    let d := dGet g (slotOf f 0).2
    let area := srcS g f 1
    let x := srcS g f 2
    if !(rowTensorLegal d) || field area 0 7 ≠ 0 || field x 29 35 ≠ 0 || field x 13 3 ≠ 0 || lowField f 0 23 % 8 ≠ 0 then
      .fault s 2 0 0
    else shIssue s g e f 0xE3 (0, area, x) d none [(area, 1600)] [(lowField f 0 23, 2048)]) s

/-- k of a KCODE, format of a VFMT and its bytes (R250). -/
def vfmtOf (c : Nat) : Nat × Nat :=
  match c with
  | 0 => (0, 4)
  | 1 => (1, 2)
  | 2 => (2, 2)
  | _ => (4, 1)

/-- Bytes of one top-k record (R128, R250). -/
def topkBytes (k v : Nat) : Nat := 16 * ceilDiv (k * (1 + v)) 16

/-- TOPK (R250). -/
def execTopk (e : Nat) (f : Frame) (s : State) : Res :=
  issue e f (infoH [.s, .s, .s, .s] [(82, 2), (80, 2), (79, 1), (63, 16), (62, 1), (59, 3), (57, 2), (0, 24)])
    (caLegal f && lowField f 80 2 ≠ 3 && lowField f 59 3 ≤ 5) (fun s g =>
    let l := lowField f 0 24 + 1
    let (gr, re, rc) := (srcS g f 0, srcS g f 1, srcS g f 2)
    if field gr 0 6 ≠ 0 || field re 0 6 ≠ 0 || field rc 0 4 ≠ 0 then .fault s 2 0 0
    else shIssue s g e f 0xE4 (gr, re, rc) 0 none
      [(gr, l * (if lowField f 62 1 = 1 then 2 else 4)), (re, 4 * l),
       (rc, ceilDiv l 128 * topkBytes (2 ^ lowField f 59 3) (vfmtOf (lowField f 57 2)).2)] []) s

/-- TEXP (R251). -/
def execTexp (e : Nat) (f : Frame) (s : State) : Res :=
  issue e f (infoH [.s, .s, .zero, .s] [(82, 2), (59, 3), (57, 2), (0, 24)])
    (caLegal f && lowField f 59 3 ≤ 5) (fun s g =>
    let l := lowField f 0 24 + 1
    let (rc, ds) := (srcS g f 0, srcS g f 1)
    if field ds 0 6 ≠ 0 then .fault s 2 0 0
    else shIssue s g e f 0xE5 (rc, ds, 0) 0 none
      [(rc, ceilDiv l 128 * topkBytes (2 ^ lowField f 59 3) (vfmtOf (lowField f 57 2)).2), (ds, 4 * l)] []) s

/-! ## ROUTE in Shuttle (R132 to R138) -/

/-- Numeric order of two logits, with no difference between the zeros (R134). -/
def numLt (a b : FV) : Bool := FV.lt a b && !(a.isZero && b.isZero)

/-- The selected experts of a token by rank: the largest logits, ties to the lower index (R134). -/
def selectTop (ls : List FV) : Nat → List Nat → List Nat
  | 0, _ => []
  | n + 1, used =>
    let best := (List.range ls.length).foldl (fun (b : Option Nat) e =>
      if used.contains e then b
      else match b with
        | none => some e
        | some x => if numLt (ls.getD x .nan) (ls.getD e .nan) then some e else b) none
    match best with
    | none => []
    | some x => x :: selectTop ls n (x :: used)

/-- A nonnegative dyadic m·2^e in units of 2^−1000, truncated. -/
def fix1000 (m : Nat) (e : Int) : Nat := if -1000 ≤ e then m * 2 ^ (e + 1000).toNat else m / 2 ^ (-1000 - e).toNat

/-- e^d in units of 2^−1000 for a difference d ≤ 0; 0 below e^−1000 and for −inf. -/
def expDiff (d : FV) : Nat :=
  match d with
  | .fin n m e =>
    if magLt 1000 0 m e then 0
    else let x := expFix (fix128 (if n then -(m : Int) else m) e); fix1000 x.1 x.2
  | _ => 0

/-- Scores p_e in one common unit: softmax over all, or the sigmoid of each (R135). Where the greatest logit is below −200, the ratios of the
sigmoids are those of e^l to more than 280 bits. -/
def scores (sigmoid : Bool) (ls : List FV) (of_ : List Nat) (renorm : Bool) : Nat → Nat :=
  let top := of_.foldl (fun a e => FV.max2 a (ls.getD e .nan)) .nan
  let rel (e : Nat) : Nat := expDiff (FV.add (ls.getD e .nan) top.neg)
  if sigmoid && !(renorm && numLt top (.fin true 200 0)) then
    fun e =>
      let l := ls.getD e .nan
      let x := expDiff (match l.abs with | .fin _ m k => .fin true m k | v => v)
      match l with
      | .fin false _ _ => 2 ^ 2000 / (2 ^ 1000 + x)
      | .fin true _ _ => x * 2 ^ 1000 / (2 ^ 1000 + x)
      | _ => 0
  else rel

/-- The weight of selected expert `e` as a dyadic within 2^−100 of it and 2^−390 (R135). -/
def weightApprox (sigmoid renorm : Bool) (ls : List FV) (sel : List Nat) (e : Nat) : FV :=
  let p := scores sigmoid ls (if renorm then sel else List.range ls.length) renorm
  let den := if renorm then (sel.map p).foldl (· + ·) 0
    else if sigmoid then 2 ^ 1000 else ((List.range ls.length).map p).foldl (· + ·) 0
  if den = 0 then .zero else .fin false (p e * 2 ^ 400 / den) (-400)

/-- A free FP32 weight within R135 of the exact one: |w − w_exact| ≤ 2^−19 · w_exact + 2^−126, where w_exact is known as closely as
`weightApprox` gives it. -/
def weightWithin (cand : Nat) (y : FV) : FV :=
  match f32 cand, y with
  | .fin n m e, .fin _ k j =>
    let d := absDiff (.fin n m e) y
    let b := FV.add (FV.add (.fin false k (j - 19)) (.fin false k (j - 90))) (FV.add (.fin false 1 (-126)) (.fin false 1 (-300)))
    if magLt b.magOf.1 b.magOf.2 d.1 d.2 then rv32 y else .fin n m e
  | _, _ => rv32 y

/-- The weight of a selected expert: a logit of −inf receives 0 (R134). -/
def weightOf (sigmoid renorm : Bool) (ls : List FV) (sel : List Nat) (cand e : Nat) : FV :=
  if ls.getD e .nan = .inf true then .zero else weightWithin cand (weightApprox sigmoid renorm ls sel e)

/-- One assignment of a router call: token, rank, expert, its place in the expert's list when assigned, and the weight's bits. -/
structure RSlot where
  tok : Nat
  rank : Nat
  expert : Nat
  place : Option Nat
  weight : Nat
  deriving DecidableEq, Repr

/-- Run the assignments of tokens in ascending order (R136). `counts` holds the list lengths. -/
def assignAll (cap : Nat) : List (Nat × Nat × Nat × Nat) → List (Nat × Nat) → List RSlot
  | [], _ => []
  | (tok, rank, ex, w) :: rest, counts =>
    let n := mget 0 counts ex
    if n < cap then ⟨tok, rank, ex, some n, w⟩ :: assignAll cap rest (minsert counts ex (n + 1))
    else ⟨tok, rank, ex, none, w⟩ :: assignAll cap rest counts

/-- Capacity of R133. -/
def routeCap (capf t k ex : Nat) : Nat := if capf = 0 then t else min t (max 1 (ceilDiv (capf * t * k) (256 * ex)))

/-- The result area of a router call over the logits of its tokens (R137, R138); `free` gives the weight candidates by slot. -/
def routeArea (sigmoid renorm : Bool) (k capf ex : Nat) (rows : List (List FV)) (free : Nat → Nat) : List Byte × List Nat :=
  let t := rows.length
  let cap := routeCap capf t k ex
  let badTok (ls : List FV) : Bool := ls.any fun l => l = .nan || l = .inf false
  let picks := rows.zipIdx.flatMap fun r =>
    if badTok r.1 then []
    else
      let sel := selectTop r.1 k []
      sel.zipIdx.map fun x =>
        (r.2, x.2, x.1, rnd32 (weightOf sigmoid renorm r.1 sel (free (r.2 * k + x.2)) x.1))
  let slots := assignAll cap picks []
  let lists := (List.range 256).map fun e => slots.filter fun x => x.expert = e && x.place.isSome
  let counts := lists.map List.length
  let assigned := counts.foldl (· + ·) 0
  let ordered := lists.flatten
  let pad (n : Nat) (xs : List Nat) : List Byte := takeBytes (4 * n) (xs.flatMap fun v => leBytes 4 v)
  let slotAt (i : Nat) : Option RSlot := slots.find? fun x => x.tok * k + x.rank = i
  let head := leBytes 2 t ++ leBytes 1 k ++ leBytes 1 (b2n sigmoid + 2 * b2n renorm) ++ leBytes 2 ex ++ leBytes 2 cap ++
    leBytes 4 assigned ++ leBytes 4 (slots.length - assigned) ++ leBytes 2 (rows.filter badTok).length ++
    leBytes 2 ((counts.take ex).filter (· = 0)).length ++ List.replicate 44 0
  let offs := (List.range 256).map fun e => if ex ≤ e then assigned else (counts.take e).foldl (· + ·) 0
  (head ++ (counts.flatMap fun c => leBytes 2 c) ++ (offs.flatMap fun o => leBytes 4 o) ++
    pad (t * k) (ordered.map fun x => x.rank * 8192 + x.tok) ++ pad (t * k) (ordered.map (·.weight)) ++
    ((List.range (t * k)).flatMap fun i => leBytes 4 (match slotAt i with
      | some x => (match x.place with | some p => 2 ^ 31 + p * 256 | none => 0) + 2 ^ 30 + x.expert
      | none => 0)) ++
    ((List.range (t * k)).flatMap fun i => leBytes 4 ((slotAt i).elim 0 (·.weight))),
   (List.range ex).filter fun e => counts.getD e 0 = 0)

/-- Read the rows of a dense tensor in memory as raw bytes; the first error ends it. -/
def readRows (rd : State → Nat → State × Acc (List Byte)) : State → List Nat → State × Acc (List (List Byte))
  | s, [] => (s, .ok [])
  | s, a :: t =>
    match rd s a with
    | (s, .err c) => (s, .err c)
    | (s, .ok b) =>
      match readRows rd s t with
      | (s, .err c) => (s, .err c)
      | (s, .ok r) => (s, .ok (b :: r))

/-- Result of running an operation: the Bolt ranges it writes and its error. -/
abbrev ShRun := State × List (Nat × Nat) × Option Nat

/-- ROUTE when Shuttle runs it. -/
def runRoute (s : State) (o : ShOp) : ShRun :=
  let t := field o.v2 24 13 + 1
  let ex := field o.v2 16 8 + 1
  let k := o.fld 77 3 + 1
  let x := tensorOf o.desc
  let area := shAddrD o.v1
  let (s, got) : State × Acc (Nat × List (List Byte)) := match o.view with
    | some w =>
      let v := viewOf w
      (s, .ok (v.fmt, (List.range v.rows).map fun r => bread (engOf s o.eng).spad (v.row r) v.rowBytes))
    | none =>
      match readRows (fun s a => memRead s (engWho s o.eng o.ctx o.gen o.bwclass) .vaHk a (rowBytes x)) s
        ((List.range t).map fun r => x.base + r * x.pitch) with
      | (s, .ok rows) => (s, .ok (x.fmt, rows))
      | (s, .err c) => (s, .err c)
  match got with
  | .err c => (s, [], some c)
  | .ok (fmt, rows) =>
    let vals := rows.map fun bs => (unpackBytes (fmtWidth fmt) bs ex).map (fmtDecode fmt)
    let n := s.fresh
    let (bytes, _) := routeArea (o.fld 81 1 = 1) (o.fld 80 1 = 1) k (field o.v2 0 16) ex vals
      (fun i => (Config.freeBits 32 (n + i)).toNat)
    let s := { s with fresh := n + t * k }
    let (s, e) := shWrite s o area 0 bytes
    (s, shRange area 0 bytes.length, e)

/-! ## XGATH and XSCAT in Shuttle (R139, R140) -/

/-- Row pitch of expert rows (R248). -/
def rowPitch (t : Tensor) : Nat := roundUp (rowBytes t) 64

/-- The base table entry of expert `x` (R139, R248): a Shuttle address. -/
def baseEntry (s : State) (o : ShOp) (x : Nat) : State × Acc ShAddr :=
  match shNat s o (.bolt (o.fld 0 23)) (8 * x) 8 with
  | (s, .err c) => (s, .err c)
  | (s, .ok w) => (s, match shAddr (BitVec.ofNat 64 w) with | some a => .ok a | none => .err (cADDRESS 1))

/-- Copy one token row to an expert's row: poison of a source line marks the Bolt bytes (R340). -/
def gatherRow (s : State) (o : ShOp) (src : Nat) (dst : ShAddr) (add n : Nat) : State × Option Nat :=
  let who := engWho s o.eng o.ctx o.gen o.bwclass
  match dst with
  | .bolt off =>
    match boltAt s (o.eng / 4) o.ctx o.gen (off + add) n with
    | none => (s, some (cADDRESS 1))
    | some p => copyIn who .vaHk (o.eng / 4) p s [(src, 0, n)]
  | .va v =>
    match memRead s who .vaHk src n with
    | (s, .err c) => (s, some c)
    | (s, .ok bs) => memWrite s who .vaHk (v + add) bs

/-- Gather the listed rows; an index beyond the tensor ends the operation with SET_RANGE. -/
def gatherRows (o : ShOp) (t : Tensor) (dst : ShAddr) : State → List Nat → Nat → State × Option Nat
  | s, [], _ => (s, none)
  | s, tok :: rest, i =>
    if t.rows ≤ tok then (s, some (cADDRESS 5))
    else
      let (s, e) := gatherRow s o (t.base + tok * t.pitch) dst (i * rowPitch t) (rowBytes t)
      let (s, e') := gatherRows o t dst s rest (i + 1)
      (s, firstErr e e')

/-- XGATH when Shuttle runs it. -/
def runXgath (s : State) (o : ShOp) : ShRun :=
  let t := tensorOf o.desc
  let area := shAddrD o.v1
  let x := field o.v2 0 8
  match shNat s o area (64 + 2 * x) 2 with
  | (s, .err c) => (s, [], some c)
  | (s, .ok n) =>
    if n = 0 then (s, [], none)
    else match shNat s o area (576 + 4 * x) 4 with
      | (s, .err c) => (s, [], some c)
      | (s, .ok off) =>
        match shRead s o area (1600 + 4 * off) (4 * n) with
        | (s, .err c) => (s, [], some c)
        | (s, .ok bs) =>
          match baseEntry s o x with
          | (s, .err c) => (s, [], some c)
          | (s, .ok dst) =>
            let toks := (unpackBytes 32 bs n).map (· % 8192)
            let (s, e) := gatherRows o t dst s toks 0
            (s, shRange dst 0 (n * rowPitch t), e)

/-- Accumulate the rows of one token's assigned slots (R140). -/
def combineSlots (o : ShOp) (t : Tensor) : State → List (Nat × Nat) → List FV → State × Acc (List FV)
  | s, [], acc => (s, .ok acc)
  | s, (slot, w) :: rest, acc =>
    if slot / 2 ^ 31 % 2 = 0 then combineSlots o t s rest acc
    else match baseEntry s o (slot % 256) with
      | (s, .err c) => (s, .err c)
      | (s, .ok src) =>
        match shRead s o src (slot / 256 % 8192 * rowPitch t) (rowBytes t) with
        | (s, .err c) => (s, .err c)
        | (s, .ok bs) =>
          let row := (unpackBytes (fmtWidth t.fmt) bs t.cols).map (fmtDecode t.fmt)
          combineSlots o t s rest (acc.zipWith (fun a x => rv32 (FV.add (FV.mul (f32 w) x) a)) row)

/-- One output token row (R140). -/
def scatterToken (s : State) (o : ShOp) (t : Tensor) (t' k tok : Nat) : State × Option Nat :=
  let who := engWho s o.eng o.ctx o.gen o.bwclass
  let area := shAddrD o.v1
  if t.rows ≤ tok then (s, some (cADDRESS 5))
  else
    let addr := t.base + tok * t.pitch
    let (s, old) : State × Acc (List FV) :=
      if o.fld 62 1 = 1 then
        match memRead s who .vaHk addr (rowBytes t) with
        | (s, .ok bs) => (s, .ok ((unpackBytes (fmtWidth t.fmt) bs t.cols).map (fmtDecode t.fmt)))
        | (s, .err c) => (s, .err c)
      else (s, .ok (List.replicate t.cols .zero))
    match old with
    | .err c => (s, some c)
    | .ok acc =>
      match shRead s o area (1600 + 8 * t' * k + 4 * tok * k) (4 * k) with
      | (s, .err c) => (s, some c)
      | (s, .ok sl) =>
        match shRead s o area (1600 + 12 * t' * k + 4 * tok * k) (4 * k) with
        | (s, .err c) => (s, some c)
        | (s, .ok sw) =>
          match combineSlots o t s ((unpackBytes 32 sl k).zip (unpackBytes 32 sw k)) acc with
          | (s, .err c) => (s, some c)
          | (s, .ok vals) =>
            let raws := vals.zipIdx.map fun x =>
              (storeElem t.fmt x.1 (o.fld 80 2) (o.fld 79 1 = 1)
                (streamBits o.key o.step (o.fld 63 16) (tok * t.cols + x.2))).1
            memWrite s who .vaHk addr (packBytes (fmtWidth t.fmt) raws)

/-- XSCAT when Shuttle runs it. -/
def runXscat (s : State) (o : ShOp) : ShRun :=
  let t := tensorOf o.desc
  let area := shAddrD o.v1
  match shRead s o area 0 3 with
  | (s, .err c) => (s, [], some c)
  | (s, .ok hd) =>
    let t' := natOfBytes (hd.take 2)
    let k := natOfBytes (hd.drop 2)
    let t0 := field o.v2 0 13
    let nt := field o.v2 16 13 + 1
    if t' < t0 + nt then (s, [], some (cADDRESS 5))
    else
      let (s, e) := (List.range nt).foldl (fun (acc : State × Option Nat) i =>
        if acc.2.isSome then acc else scatterToken acc.1 o t t' k (t0 + i)) (s, none)
      (s, [], e)

/-! ## TOPK and TEXP in Shuttle (R128 to R131) -/

/-- Magnitude order of R129: NaN above +inf above every finite value. -/
def magAbove (a b : FV) : Bool :=
  match a, b with
  | .nan, .nan => false
  | .nan, _ => true
  | _, .nan => false
  | a, b => FV.lt b.abs a.abs

/-- The k positions with the largest magnitudes, ties to the lower position. -/
def topPositions (xs : List FV) : Nat → List Nat → List Nat
  | 0, used => used
  | n + 1, used =>
    let best := (List.range xs.length).foldl (fun (b : Option Nat) i =>
      if used.contains i then b
      else match b with
        | none => some i
        | some j => if magAbove (xs.getD i .zero) (xs.getD j .zero) then some i else b) none
    match best with
    | none => used
    | some i => topPositions xs n (i :: used)

/-- One block of TOPK (R129): the record and the new residuals. `free` fills the entries of a final partial block that has fewer
than k positions. -/
def topkBlock (k vfmt v : Nat) (rnd : Nat) (sat : Bool) (bits : Nat → Nat) (gs rs : List FV) (free : Nat → Byte) :
    List Byte × List Nat :=
  let xs := (gs.zip rs).map fun p => rv32 (FV.add p.1 p.2)
  let sel := (List.range xs.length).filter fun i => (topPositions xs k []).contains i
  let enc (i : Nat) : Nat := (storeElem vfmt (xs.getD i .zero) rnd sat (bits i)).1
  let lack := k - sel.length
  let idx := sel.map (fun i => BitVec.ofNat 8 i) ++ (List.range lack).map free
  let vals := sel.flatMap (fun i => leBytes v (enc i)) ++ (List.range (lack * v)).map fun i => free (lack + i)
  let res := xs.zipIdx.map fun x =>
    if sel.contains x.2 then rnd32 (FV.add x.1 (fmtDecode vfmt (enc x.2)).neg) else rnd32 x.1
  (takeBytes (topkBytes k v) (idx ++ vals), res)

/-- The blocks of TOPK from block `b`. -/
def topkBlocks (o : ShOp) (l : Nat) : Nat → State → Nat → State × Option Nat
  | 0, s, _ => (s, none)
  | n + 1, s, b =>
    let gb := if o.fld 62 1 = 1 then 2 else 4
    let cnt := min 128 (l - 128 * b)
    let k := 2 ^ o.fld 59 3
    let (vfmt, v) := vfmtOf (o.fld 57 2)
    match shRead s o (shAddrD o.v0) (128 * b * gb) (cnt * gb) with
    | (s, .err c) => (s, some c)
    | (s, .ok gbs) =>
      match shRead s o (shAddrD o.v1) (512 * b) (4 * cnt) with
      | (s, .err c) => (s, some c)
      | (s, .ok rbs) =>
        let gs := (unpackBytes (8 * gb) gbs cnt).map (fmtDecode (if gb = 2 then 1 else 0))
        let rs := (unpackBytes 32 rbs cnt).map f32
        let m := s.fresh
        let (rec, res) := topkBlock k vfmt v (o.fld 80 2) (o.fld 79 1 = 1)
          (fun i => streamBits o.key o.step (o.fld 63 16) (128 * b + i)) gs rs (fun i => Config.freeBits 8 (m + i))
        let s := { s with fresh := m + k * (1 + v) }
        let (s, e1) := shWrite s o (shAddrD o.v2) (b * topkBytes k v) rec
        if (hardErr e1).isSome then (s, e1)
        else
          let (s, e2) := shWrite s o (shAddrD o.v1) (512 * b) (res.flatMap fun r => leBytes 4 r)
          if (hardErr e2).isSome then (s, firstErr e1 e2)
          else
            let (s, e3) := topkBlocks o l n s (b + 1)
            (s, firstErr (firstErr e1 e2) e3)

/-- TOPK when Shuttle runs it. -/
def runTopk (s : State) (o : ShOp) : ShRun :=
  let l := o.fld 0 24 + 1
  let (s, e) := topkBlocks o l (ceilDiv l 128) s 0
  (s, shRange (shAddrD o.v1) 0 (4 * l) ++
    shRange (shAddrD o.v2) 0 (ceilDiv l 128 * topkBytes (2 ^ o.fld 59 3) (vfmtOf (o.fld 57 2)).2), e)

/-- Add one entry to element `p` of the destination: an uncorrectable word stays as it is (R646). -/
def expandOne (s : State) (o : ShOp) (p : Nat) (x : FV) : State × Option Nat :=
  match shNat s o (shAddrD o.v1) (4 * p) 4 with
  | (s, .err c) => (s, some c)
  | (s, .ok old) => shWrite s o (shAddrD o.v1) (4 * p) (leBytes 4 (rnd32 (FV.add (f32 old) x)))

/-- Add the entries of one record in order (R131, R251). -/
def expandEntries (o : ShOp) (l : Nat) : State → List (Nat × FV) → State × Option Nat
  | s, [] => (s, none)
  | s, (p, x) :: rest =>
    if l ≤ p then (s, some (cADDRESS 5))
    else
      let (s, e) := expandOne s o p x
      if (hardErr e).isSome then (s, e)
      else
        let (s, e') := expandEntries o l s rest
        (s, firstErr e e')

/-- The records of TEXP from block `b`. -/
def expandBlocks (o : ShOp) (l : Nat) : Nat → State → Nat → State × Option Nat
  | 0, s, _ => (s, none)
  | n + 1, s, b =>
    let k := 2 ^ o.fld 59 3
    let (vfmt, v) := vfmtOf (o.fld 57 2)
    match shRead s o (shAddrD o.v0) (b * topkBytes k v) (topkBytes k v) with
    | (s, .err c) => (s, some c)
    | (s, .ok bs) =>
      let entries := (List.range k).map fun i =>
        (128 * b + natOfBytes ((bs.drop i).take 1), fmtDecode vfmt (natOfBytes ((bs.drop (k + v * i)).take v)))
      let (s, e) := expandEntries o l s entries
      if (hardErr e).isSome then (s, e)
      else
        let (s, e') := expandBlocks o l n s (b + 1)
        (s, firstErr e e')

/-- TEXP when Shuttle runs it. -/
def runTexp (s : State) (o : ShOp) : ShRun :=
  let l := o.fld 0 24 + 1
  let (s, e) := expandBlocks o l (ceilDiv l 128) s 0
  (s, shRange (shAddrD o.v1) 0 (4 * l), e)

/-! ## Start and completion (R148, R149, R243, R145) -/

/-- Run an operation. -/
def runShuttle (s : State) (o : ShOp) : ShRun :=
  match o.op with
  | 0xE1 => runRoute s o
  | 0xE2 => runXgath s o
  | 0xE3 => runXscat s o
  | 0xE4 => runTopk s o
  | _ => runTexp s o

/-- Run the oldest operation of a cluster: what it writes is written, and it completes later. -/
def startShuttle (s : State) (c : Nat) (o : ShOp) : State :=
  let past := (clOf s c).bolt
  let (s, wrote, e) := runShuttle s o
  modCl s c fun k => { k with shuttle := k.shuttle.map fun x =>
    if x.id = o.id then { x with started := true, wrote := wrote, past := past, err := e } else x }

/-- SHUTTLE_OPERATION_START (R148): the oldest queued operation of cluster `c` starts; one runs at a time. Its engine streams the view of a ROUTE
to it, which ends the issue of the instruction; an uncorrectable word of the view is a fault of that instruction (R247, R274). -/
def execShuttleOperationStart (c : Nat) (s : State) : Res :=
  match (clOf s c).shuttle with
  | [] => .next s  -- no Shuttle operation is queued
  | o :: _ =>
    unitRes (c < s.cfg.clusters) s  -- else: an operation runs, the cluster is held, or its engine's requests wait for a window
      (!o.started && blockRuns s && !(s.fc.clFenced.contains c) && !s.fc.blockSafe && !(s.fc.safe.any fun h => h.2.1 = 2 && h.2.2 = c) &&
       !(bwWaits s (engWho s o.eng o.ctx o.gen o.bwclass).attr))
      (let s := logicAccess s 4 c 0
       match o.view with
       | none => startShuttle s c o
       | some w =>
         let v := viewOf w
         let (s, poison) := spadChecked s o.eng v.base v.extent
         if poison then engFault s o.eng 8 0 0 false
         else
           let s := startShuttle s c o
           setPc s o.eng ((engOf s o.eng).pc + 16))

/-- Experts with a zero count of a completed router call (R145), as its result area says. -/
def zeroExperts (s : State) (o : ShOp) : List Nat :=
  match shAddrD o.v1 with
  | .bolt off =>
    match boltAt s (o.eng / 4) o.ctx o.gen off 1600 with
    | some p => (List.range (field o.v2 16 8 + 1)).filter fun e => bnat (clOf s (o.eng / 4)).bolt (p + 64 + 2 * e) 2 = 0
    | none => []
  | .va _ => []

/-- Release the reservations of queued expert-bound prefetches of the calling engine that name those experts' count words (R145,
R385). -/
def releaseZero (s : State) (o : ShOp) : State :=
  match shAddrD o.v1 with
  | .va _ => s
  | .bolt off =>
    let z := zeroExperts s o
    let hit (a : AsyncOp) : Bool := a.eng = o.eng && a.ctx = o.ctx && a.gen = o.gen && a.queued && a.reserved ≠ 0 && (match a.kind with
      | .pref _ _ _ _ _ _ (some (false, _, coff)) => z.any fun e => coff = off + 64 + 2 * e
      | _ => false)
    let s := (s.asyncs.filter hit).foldl returnReservation s
    { s with asyncs := s.asyncs.map fun a => if hit a then { a with reserved := 0 } else a }

/-- SHUTTLE_OPERATION_COMPLETE (R243): the running operation is complete; its completion action is performed once, an error goes to
the context, and a router call reports its empty experts. -/
def execShuttleOperationComplete (c : Nat) (s : State) : Res :=
  match (clOf s c).shuttle with
  | [] => .next s  -- no Shuttle operation runs
  | o :: rest =>
    unitRes (c < s.cfg.clusters) s o.started
      (let s := modCl s c fun k => { k with shuttle := rest }
       let s := if o.op = 0xE1 && o.err.isNone then releaseZero s o else s
       let s := completionAction s o.eng o.ctx o.gen o.word
       let s := match o.err with
         | some e => pushErr s o.ctx o.gen o.eng e
         | none => s
       if (ctxOf s o.ctx).gen = o.gen then checkDone s o.ctx else s)

end Sys2Proof.Machine
end

