-- ==== Sys2Proof/Machine/Dispatch.lean ====
section
/-! DEFINITION. The command dispatch: one arm per row of the table of operations and events, each a direct call of that
row's meaning. -/
namespace Sys2Proof.Machine

def exec (i : Instr) (s : State) : Host.Outcome State Fault Refusal :=
  match i with
  | .nop e f => Sys2Proof.Machine.execNop e f s
  | .tend e f => Sys2Proof.Machine.execTend e f s
  | .tlink e f => Sys2Proof.Machine.execTlink e f s
  | .pend e f => Sys2Proof.Machine.execPend e f s
  | .br e f => Sys2Proof.Machine.execBr e f s
  | .tview e f => Sys2Proof.Machine.execTview e f s
  | .dsetw e f => Sys2Proof.Machine.execDsetw e f s
  | .dgetw e f => Sys2Proof.Machine.execDgetw e f s
  | .smov e f => Sys2Proof.Machine.execSmov e f s
  | .sadd e f => Sys2Proof.Machine.execSadd e f s
  | .ssub e f => Sys2Proof.Machine.execSsub e f s
  | .smul e f => Sys2Proof.Machine.execSmul e f s
  | .sand e f => Sys2Proof.Machine.execSand e f s
  | .sor e f => Sys2Proof.Machine.execSor e f s
  | .sxor e f => Sys2Proof.Machine.execSxor e f s
  | .sshl e f => Sys2Proof.Machine.execSshl e f s
  | .sshr e f => Sys2Proof.Machine.execSshr e f s
  | .ssra e f => Sys2Proof.Machine.execSsra e f s
  | .seq e f => Sys2Proof.Machine.execSeq e f s
  | .sne e f => Sys2Proof.Machine.execSne e f s
  | .slt e f => Sys2Proof.Machine.execSlt e f s
  | .sltu e f => Sys2Proof.Machine.execSltu e f s
  | .sle e f => Sys2Proof.Machine.execSle e f s
  | .sleu e f => Sys2Proof.Machine.execSleu e f s
  | .plog e f => Sys2Proof.Machine.execPlog e f s
  | .rstep e f => Sys2Proof.Machine.execRstep e f s
  | .astep e f => Sys2Proof.Machine.execAstep e f s
  | .ldb e f => Sys2Proof.Machine.execLdb e f s
  | .stb e f => Sys2Proof.Machine.execStb e f s
  | .st e f => Sys2Proof.Machine.execSt e f s
  | .pref e f => Sys2Proof.Machine.execPref e f s
  | .push e f => Sys2Proof.Machine.execPush e f s
  | .gath e f => Sys2Proof.Machine.execGath e f s
  | .scat e f => Sys2Proof.Machine.execScat e f s
  | .twait e f => Sys2Proof.Machine.execTwait e f s
  | .twaitRelease e => Sys2Proof.Machine.execTwaitRelease e s
  | .fwait e f => Sys2Proof.Machine.execFwait e f s
  | .fwaitRelease e => Sys2Proof.Machine.execFwaitRelease e s
  | .tld e f => Sys2Proof.Machine.execTld e f s
  | .tadd e f => Sys2Proof.Machine.execTadd e f s
  | .tswap e f => Sys2Proof.Machine.execTswap e f s
  | .fsig e f => Sys2Proof.Machine.execFsig e f s
  | .ferr e f => Sys2Proof.Machine.execFerr e f s
  | .lpost e f => Sys2Proof.Machine.execLpost e f s
  | .lclose e f => Sys2Proof.Machine.execLclose e f s
  | .lput e f => Sys2Proof.Machine.execLput e f s
  | .lputm e f => Sys2Proof.Machine.execLputm e f s
  | .lred e f => Sys2Proof.Machine.execLred e f s
  | .lget e f => Sys2Proof.Machine.execLget e f s
  | .mma e f => Sys2Proof.Machine.execMma e f s
  | .epi e f => Sys2Proof.Machine.execEpi e f s
  | .vzero e f => Sys2Proof.Machine.execVzero e f s
  | .vcvt e f => Sys2Proof.Machine.execVcvt e f s
  | .vadd e f => Sys2Proof.Machine.execVadd e f s
  | .vsub e f => Sys2Proof.Machine.execVsub e f s
  | .vmul e f => Sys2Proof.Machine.execVmul e f s
  | .vmin e f => Sys2Proof.Machine.execVmin e f s
  | .vmax e f => Sys2Proof.Machine.execVmax e f s
  | .vfma e f => Sys2Proof.Machine.execVfma e f s
  | .vun e f => Sys2Proof.Machine.execVun e f s
  | .vred e f => Sys2Proof.Machine.execVred e f s
  | .vdrop e f => Sys2Proof.Machine.execVdrop e f s
  | .vrand e f => Sys2Proof.Machine.execVrand e f s
  | .satt e f => Sys2Proof.Machine.execSatt e f s
  | .sobs e f => Sys2Proof.Machine.execSobs e f s
  | .sst e f => Sys2Proof.Machine.execSst e f s
  | .hupd e f => Sys2Proof.Machine.execHupd e f s
  | .ttest e f => Sys2Proof.Machine.execTtest e f s
  | .route e f => Sys2Proof.Machine.execRoute e f s
  | .xgath e f => Sys2Proof.Machine.execXgath e f s
  | .xscat e f => Sys2Proof.Machine.execXscat e f s
  | .topk e f => Sys2Proof.Machine.execTopk e f s
  | .texp e f => Sys2Proof.Machine.execTexp e f s
  | .shuttleOperationStart c => Sys2Proof.Machine.execShuttleOperationStart c s
  | .shuttleOperationComplete c => Sys2Proof.Machine.execShuttleOperationComplete c s
  | .prefetchDequeue e => Sys2Proof.Machine.execPrefetchDequeue e s
  | .asyncOperationComplete id => Sys2Proof.Machine.execAsyncOperationComplete id s
  | .requestErrorReturn arrive => Sys2Proof.Machine.execRequestErrorReturn arrive s
  | .tileOverrun e => Sys2Proof.Machine.execTileOverrun e s
  | .contextSwitch e inc => Sys2Proof.Machine.execContextSwitch e inc s
  | .boltRegionClearDone c ix => Sys2Proof.Machine.execBoltRegionClearDone c ix s
  | .tallyRead h arrive chk => Sys2Proof.Machine.execTallyRead h arrive chk s
  | .tallyAdd h arrive chk => Sys2Proof.Machine.execTallyAdd h arrive chk s
  | .tallySwap h arrive chk => Sys2Proof.Machine.execTallySwap h arrive chk s
  | .tallyWrite h arrive chk => Sys2Proof.Machine.execTallyWrite h arrive chk s
  | .tallyMax h arrive chk => Sys2Proof.Machine.execTallyMax h arrive chk s
  | .tallySeterr h arrive chk => Sys2Proof.Machine.execTallySeterr h arrive chk s
  | .memoryWakeRequest tally ix => Sys2Proof.Machine.execMemoryWakeRequest tally ix s
  | .memoryWakeDone tally ix => Sys2Proof.Machine.execMemoryWakeDone tally ix s
  | .tamperWipe => Sys2Proof.Machine.execTamperWipe s
  | .tamperWipeDone => Sys2Proof.Machine.execTamperWipeDone s
  | .selvageRead r med late => Sys2Proof.Machine.execSelvageRead r med late s
  | .selvageFullWrite r data med => Sys2Proof.Machine.execSelvageFullWrite r data med s
  | .selvagePartialWrite r mask data med late => Sys2Proof.Machine.execSelvagePartialWrite r mask data med late s
  | .metadataCacheFill port sub lvl ix keyid med => Sys2Proof.Machine.execMetadataCacheFill port sub lvl ix keyid med s
  | .groupReencryption r mask data med => Sys2Proof.Machine.execGroupReencryption r mask data med s
  | .sweepStart keyid => Sys2Proof.Machine.execSweepStart keyid s
  | .sweepVisit port med => Sys2Proof.Machine.execSweepVisit port med s
  | .keyidRetirement keyid port => Sys2Proof.Machine.execKeyidRetirement keyid port s
  | .keyidRetirementDone keyid => Sys2Proof.Machine.execKeyidRetirementDone keyid s
  | .hopSealOpen k flip => Sys2Proof.Machine.execHopSealOpen k flip s
  | .scrubAccess port med => Sys2Proof.Machine.execScrubAccess port med s
  | .groupRetirement port med => Sys2Proof.Machine.execGroupRetirement port med s
  | .rowRepairRequest port => Sys2Proof.Machine.execRowRepairRequest port s
  | .rowRepairAnswer port id refused => Sys2Proof.Machine.execRowRepairAnswer port id refused s
  | .memoryCompletion port sub tag write err data => Sys2Proof.Machine.execMemoryCompletion port sub tag write err data s
  | .mpReadyFall port => Sys2Proof.Machine.execMpReadyFall port s
  | .mpReadyRise port => Sys2Proof.Machine.execMpReadyRise port s
  | .linkFrameReceive p bad bytes => Sys2Proof.Machine.execLinkFrameReceive p bad bytes s
  | .groupVerify k => Sys2Proof.Machine.execGroupVerify k s
  | .ackSend src lkey => Sys2Proof.Machine.execAckSend src lkey s
  | .ackReceive k => Sys2Proof.Machine.execAckReceive k s
  | .getRspReceive k => Sys2Proof.Machine.execGetRspReceive k s
  | .errReceive k => Sys2Proof.Machine.execErrReceive k s
  | .groupSend dest lkey op => Sys2Proof.Machine.execGroupSend dest lkey op s
  | .rtoExpiry dest lkey seq => Sys2Proof.Machine.execRtoExpiry dest lkey seq s
  | .linkUpChange p up => Sys2Proof.Machine.execLinkUpChange p up s
  | .bridgeTransferReceive h flit ctl chk freed => Sys2Proof.Machine.execBridgeTransferReceive h flit ctl chk freed s
  | .d2dErr h => Sys2Proof.Machine.execD2dErr h s
  | .regulationWindow h => Sys2Proof.Machine.execRegulationWindow h s
  | .build path n => Sys2Proof.Machine.execBuild path n s
  | .change path n => Sys2Proof.Machine.execChange path n s
  | .changeEngineRelease e => Sys2Proof.Machine.execChangeEngineRelease e s
  | .dissolve path n => Sys2Proof.Machine.execDissolve path n s
  | .dissolveDrainDone n => Sys2Proof.Machine.execDissolveDrainDone n s
  | .readDesc path n => Sys2Proof.Machine.execReadDesc path n s
  | .regionWrite path ix => Sys2Proof.Machine.execRegionWrite path ix s
  | .regionRead path ix => Sys2Proof.Machine.execRegionRead path ix s
  | .queueDoorbell p queue tail => Sys2Proof.Machine.execQueueDoorbell p queue tail s
  | .portRingDoorbell p tail => Sys2Proof.Machine.execPortRingDoorbell p tail s
  | .portRingFetch p => Sys2Proof.Machine.execPortRingFetch p s
  | .headWrite q => Sys2Proof.Machine.execHeadWrite q s
  | .warpNop r ws => Sys2Proof.Machine.execWarpNop r ws s
  | .stepOpen r ws => Sys2Proof.Machine.execStepOpen r ws s
  | .gangStart q place => Sys2Proof.Machine.execGangStart q place s
  | .gangTimeout q => Sys2Proof.Machine.execGangTimeout q s
  | .stepClose r ws => Sys2Proof.Machine.execStepClose r ws s
  | .launch r ws => Sys2Proof.Machine.execLaunch r ws s
  | .launchExt r ws => Sys2Proof.Machine.execLaunchExt r ws s
  | .signal r ws => Sys2Proof.Machine.execSignal r ws s
  | .wait r ws => Sys2Proof.Machine.execWait r ws s
  | .waitRelease r ix => Sys2Proof.Machine.execWaitRelease r ix s
  | .error r ws => Sys2Proof.Machine.execError r ws s
  | .invalidate r ws => Sys2Proof.Machine.execInvalidate r ws s
  | .rodConfig r ws => Sys2Proof.Machine.execRodConfig r ws s
  | .beadAlloc r ws => Sys2Proof.Machine.execBeadAlloc r ws s
  | .beadUpdate r ws => Sys2Proof.Machine.execBeadUpdate r ws s
  | .beadLeave r ws => Sys2Proof.Machine.execBeadLeave r ws s
  | .beadFree r ws => Sys2Proof.Machine.execBeadFree r ws s
  | .features r ws => Sys2Proof.Machine.execFeatures r ws s
  | .ctxCreate r ws => Sys2Proof.Machine.execCtxCreate r ws s
  | .ctxDestroy r ws => Sys2Proof.Machine.execCtxDestroy r ws s
  | .teardownDrainDone c => Sys2Proof.Machine.execTeardownDrainDone c s
  | .teardownTimeout c => Sys2Proof.Machine.execTeardownTimeout c s
  | .qCreate r ws => Sys2Proof.Machine.execQCreate r ws s
  | .qDestroy r ws => Sys2Proof.Machine.execQDestroy r ws s
  | .qReset r ws => Sys2Proof.Machine.execQReset r ws s
  | .fenceAlloc r ws => Sys2Proof.Machine.execFenceAlloc r ws s
  | .fenceFree r ws => Sys2Proof.Machine.execFenceFree r ws s
  | .fenceClear r ws => Sys2Proof.Machine.execFenceClear r ws s
  | .memObj r ws => Sys2Proof.Machine.execMemObj r ws s
  | .memFree r ws => Sys2Proof.Machine.execMemFree r ws s
  | .quantumExpiry e => Sys2Proof.Machine.execQuantumExpiry e s
  | .stateRecordSpill ctx c need => Sys2Proof.Machine.execStateRecordSpill ctx c need s
  | .stateRecordFill ctx c ix base => Sys2Proof.Machine.execStateRecordFill ctx c ix base s
  | .load path port => Sys2Proof.Machine.execLoad path port s
  | .stage path port => Sys2Proof.Machine.execStage path port s
  | .activate path => Sys2Proof.Machine.execActivate path s
  | .deferredActivationStart => Sys2Proof.Machine.execDeferredActivationStart s
  | .discard path => Sys2Proof.Machine.execDiscard path s
  | .imageReadDone img => Sys2Proof.Machine.execImageReadDone img s
  | .fwWatchdogExpiry k => Sys2Proof.Machine.execFwWatchdogExpiry k s
  | .fwProcessorCrash k => Sys2Proof.Machine.execFwProcessorCrash k s
  | .fwRestartDone k ok => Sys2Proof.Machine.execFwRestartDone k ok s
  | .importKey path => Sys2Proof.Machine.execImportKey path s
  | .generate path => Sys2Proof.Machine.execGenerate path s
  | .erase path => Sys2Proof.Machine.execErase path s
  | .ownerBind path => Sys2Proof.Machine.execOwnerBind path s
  | .certLoad path => Sys2Proof.Machine.execCertLoad path s
  | .devidRead path => Sys2Proof.Machine.execDevidRead path s
  | .pikRead path => Sys2Proof.Machine.execPikRead path s
  | .slotScan blob slotOk blobOk => Sys2Proof.Machine.execSlotScan blob slotOk blobOk s
  | .drbgReseed => Sys2Proof.Machine.execDrbgReseed s
  | .entropyHealthFail => Sys2Proof.Machine.execEntropyHealthFail s
  | .getVersion p => Sys2Proof.Machine.execGetVersion p s
  | .getCapabilities p => Sys2Proof.Machine.execGetCapabilities p s
  | .negotiateAlgorithms p => Sys2Proof.Machine.execNegotiateAlgorithms p s
  | .getDigests p => Sys2Proof.Machine.execGetDigests p s
  | .getCertificate p => Sys2Proof.Machine.execGetCertificate p s
  | .spdmChallenge p => Sys2Proof.Machine.execSpdmChallenge p s
  | .getMeasurements p sess body => Sys2Proof.Machine.execGetMeasurements p sess body s
  | .keyExchange p => Sys2Proof.Machine.execKeyExchange p s
  | .finish p sess body => Sys2Proof.Machine.execFinish p sess body s
  | .bind p sess body => Sys2Proof.Machine.execBind p sess body s
  | .keyPut p sess body => Sys2Proof.Machine.execKeyPut p sess body s
  | .keyErase p sess body => Sys2Proof.Machine.execKeyErase p sess body s
  | .measure p sess body => Sys2Proof.Machine.execMeasure p sess body s
  | .accept p sess body => Sys2Proof.Machine.execAccept p sess body s
  | .reportDetail p sess body => Sys2Proof.Machine.execReportDetail p sess body s
  | .close p sess body => Sys2Proof.Machine.execClose p sess body s
  | .bounceH2d p data => Sys2Proof.Machine.execBounceH2d p data s
  | .bounceD2h p => Sys2Proof.Machine.execBounceD2h p s
  | .bounceComplete p => Sys2Proof.Machine.execBounceComplete p s
  | .transition path target miss => Sys2Proof.Machine.execTransition path target miss s
  | .raiseSvn path miss => Sys2Proof.Machine.execRaiseSvn path miss s
  | .dgChallenge path => Sys2Proof.Machine.execDgChallenge path s
  | .debugOpen path => Sys2Proof.Machine.execDebugOpen path s
  | .debugOpenComplete => Sys2Proof.Machine.execDebugOpenComplete s
  | .jtagInstrumentAccess t write v => Sys2Proof.Machine.execJtagInstrumentAccess t write v s
  | .jtagInstruction code => Sys2Proof.Machine.execJtagInstruction code s
  | .errorEvent ext => Sys2Proof.Machine.execErrorEvent ext s
  | .fcStatusClear path v => Sys2Proof.Machine.execFcStatusClear path v s
  | .fcLock path => Sys2Proof.Machine.execFcLock path s
  | .fcInjectArm path v => Sys2Proof.Machine.execFcInjectArm path v s
  | .engineReset path e => Sys2Proof.Machine.execEngineReset path e s
  | .engineResetDone e => Sys2Proof.Machine.execEngineResetDone e s
  | .engrstTo e => Sys2Proof.Machine.execEngrstTo e s
  | .sliceReset path n => Sys2Proof.Machine.execSliceReset path n s
  | .sliceResetDone n => Sys2Proof.Machine.execSliceResetDone n s
  | .slrstTo n => Sys2Proof.Machine.execSlrstTo n s
  | .warmReset path => Sys2Proof.Machine.execWarmReset path s
  | .warmResetTimeout => Sys2Proof.Machine.execWarmResetTimeout s
  | .mpReadyTimeout m => Sys2Proof.Machine.execMpReadyTimeout m s
  | .resetUnitsLeave => Sys2Proof.Machine.execResetUnitsLeave s
  | .powerCycle path => Sys2Proof.Machine.execPowerCycle path s
  | .unfence path kind index => Sys2Proof.Machine.execUnfence path kind index s
  | .capture path n => Sys2Proof.Machine.execCapture path n s
  | .replicate path n => Sys2Proof.Machine.execReplicate path n s
  | .confirm path n => Sys2Proof.Machine.execConfirm path n s
  | .restore path n => Sys2Proof.Machine.execRestore path n s
  | .checkpointHashDone => Sys2Proof.Machine.execCheckpointHashDone s
  | .cpOkeyWrite path n w v => Sys2Proof.Machine.execCpOkeyWrite path n w v s
  | .blkColdNRise => Sys2Proof.Machine.execBlkColdNRise s
  | .blkColdNFall => Sys2Proof.Machine.execBlkColdNFall s
  | .blkWarmNFall => Sys2Proof.Machine.execBlkWarmNFall s
  | .thermEmrgNChange high => Sys2Proof.Machine.execThermEmrgNChange high s
  | .pwrEmrgNChange high => Sys2Proof.Machine.execPwrEmrgNChange high s
  | .dutyChange => Sys2Proof.Machine.execDutyChange s
  | .rootclkLoss => Sys2Proof.Machine.execRootclkLoss s
  | .rootclkOutOfRange => Sys2Proof.Machine.execRootclkOutOfRange s
  | .tamperNFall => Sys2Proof.Machine.execTamperNFall s
  | .oppChange path v => Sys2Proof.Machine.execOppChange path v s
  | .oppChangeDone => Sys2Proof.Machine.execOppChangeDone s
  | .retainBlock path => Sys2Proof.Machine.execRetainBlock path s
  | .blockWake => Sys2Proof.Machine.execBlockWake s
  | .engineIdleThreshold e => Sys2Proof.Machine.execEngineIdleThreshold e s
  | .clusterRetThreshold c => Sys2Proof.Machine.execClusterRetThreshold c s
  | .halfRetThreshold h => Sys2Proof.Machine.execHalfRetThreshold h s
  | .engineStartRequest e => Sys2Proof.Machine.execEngineStartRequest e s
  | .wakeGrant e => Sys2Proof.Machine.execWakeGrant e s
  | .engineStartDone e => Sys2Proof.Machine.execEngineStartDone e s
  | .hostSliceRead p slice tag addr len => Sys2Proof.Machine.execHostSliceRead p slice tag addr len s
  | .hostSliceWrite p slice tag addr data => Sys2Proof.Machine.execHostSliceWrite p slice tag addr data s
  | .hostReadCompletion p tag beat last err data => Sys2Proof.Machine.execHostReadCompletion p tag beat last err data s
  | .hppRstFall p => Sys2Proof.Machine.execHppRstFall p s
  | .portRingEnable p en sizeCode => Sys2Proof.Machine.execPortRingEnable p en sizeCode s
  | .slcfgWrite path n v => Sys2Proof.Machine.execSlcfgWrite path n v s
  | .svWideWrite path m v => Sys2Proof.Machine.execSvWideWrite path m v s
  | .svRetWrite path m ix v => Sys2Proof.Machine.execSvRetWrite path m ix v s
  | .sweepEnSet path => Sys2Proof.Machine.execSweepEnSet path s
  | .routeWrite path ix w v => Sys2Proof.Machine.execRouteWrite path ix w v s
  | .registerWrite path off v => Sys2Proof.Machine.execRegisterWrite path off v s
  | .illegalInstruction e opcode => Sys2Proof.Machine.execIllegalInstruction e opcode s
  | .fetchRange e => Sys2Proof.Machine.execFetchRange e s
  | .hostCreditReturn p cpl => Sys2Proof.Machine.execHostCreditReturn p cpl s
  | .tamperNRise => Sys2Proof.Machine.execTamperNRise s
  | .rootclkInRange => Sys2Proof.Machine.execRootclkInRange s

end Sys2Proof.Machine
end

