-- ==== Sys2Proof/Safety.lean ====
section
/-! DEFINITION. What counts as a safe run of the block, in the terms that the statements use: the part of the state that no command changes,
the canonical form of every addressed memory, and completion. -/
namespace Sys2Proof.Machine

/-- What no command changes: the build parameters and straps (R34), and the queue of waiting commands (the model's own). -/
def State.fixed (s : State) : Cfg × List Instr := (s.cfg, s.pending)

/-- An outcome that, where it is a next state, has the fixed part of `s`. -/
def Keeps (s : State) : Res → Prop
  | .next t => t.fixed = s.fixed
  | .fault _ => True
  | .refused _ => True

/-- A command completes: it answers a next state. -/
def Completes (i : Instr) (s : State) : Prop := ∃ t, exec i s = .next t

/-- A command answers a next state, and `P` holds of it. -/
def Ends (i : Instr) (s : State) (P : State → Prop) : Prop := ∃ t, exec i s = .next t ∧ P t

/-- No access that led to this state waits for an earlier one to its line, or for a memory to leave retention (R28, R276). -/
def clear (s : State) : Bool := !s.sv.stuck

/-! ## Weft instructions in issue -/

/-- The state in which engine `e` has fetched an instruction: seen by the engine's checker, its quantum started. -/
def fetched (e : Nat) (s : State) : State := startQuantum (logicAccess (fetch s e).1 3 (e / 4) (e % 4)) e

/-- The state in which the body of an instruction runs: fetched, its tile opened where it opens one. -/
def atIssue (o : OpInfo) (e : Nat) (s : State) : State := if o.kind = .opening then openTile (fetched e s) e else fetched e s

/-- Engine `e` fetches the frame `f` here: it may issue, the fetch is permitted and waits for no earlier access, and the frame is legal (R174) with
what else `extra` asks of it. -/
def issuesHere (o : OpInfo) (extra : Bool) (e : Nat) (f : Frame) (s : State) : Bool :=
  s.cfg.hasEngine e && canIssue s e && pcInRange (engOf s e) && (fetch s e).2.isNone && clear (atIssue o e s) &&
  frameLegal f o.fclass o.slots o.fields && extra && f.preg < 8

/-- Engine `e` fetches the frame `f` and its body runs: its place relative to the tile is the one its kind asks for (R151), its predicate is true
(R175), and no result that it names is outstanding (R177). -/
def issues (o : OpInfo) (extra : Bool) (e : Nat) (f : Frame) (s : State) : Bool :=
  let g := engOf (atIssue o e s) e
  issuesHere o extra e f s && !(waitsForResult (engOf (fetched e s) e) f o.slots) &&
  (!(o.kind = .boundaryOnly || o.kind = .closing) || (!f.pneg && f.preg = 0)) &&
  (o.kind ≠ .boundaryOnly || !g.tileOpen) && (o.kind ≠ .closing || g.tileOpen) && predTrue g f

/-- The same place, with a predicate that is false. -/
def skips (o : OpInfo) (extra : Bool) (e : Nat) (f : Frame) (s : State) : Bool :=
  issuesHere o extra e f s && o.kind ≠ .boundaryOnly && o.kind ≠ .closing && !(predTrue (engOf (atIssue o e s) e) f)

/-- `t` is `u` but for the record of engine `e`. -/
def OnlyEngine (e : Nat) (u t : State) : Prop := { t with engines := u.engines } = u ∧ ∀ k, k ≠ e → engOf t k = engOf u k

/-- The instruction of engine `e` has retired: PC stands behind it. -/
def Retired (e : Nat) (u t : State) : Prop := (engOf t e).pc = ((engOf u e).pc + 16) % 2 ^ 52

/-- An asynchronous operation of the running context of engine `e` has started (R189 to R191): it stands last in issue order, the instruction has
retired, of the engine's record only PC has changed, and of the rest of the state only the bandwidth counters and the draw counter. -/
def Started (e : Nat) (w : Option (Nat × Nat)) (queued : Bool) (kind : AKind) (u t : State) : Prop :=
  (∃ a : AsyncOp, t.asyncs = u.asyncs ++ [a] ∧ a.eng = e ∧ (a.ctx, a.gen) = (engOf u e).who ∧ a.kind = kind ∧ a.word = w ∧
    a.queued = queued ∧ a.err = none ∧ a.cut = false) ∧
  Retired e u t ∧ { engOf t e with pc := (engOf u e).pc } = engOf u e ∧ (∀ k, k ≠ e → engOf t k = engOf u k) ∧
  { t with asyncs := u.asyncs, engines := u.engines, bw := u.bw, fresh := u.fresh } = u

/-- What issue asks of a Shuttle operation (R148, R240, R243): its Shuttle addresses are addresses, the Bolt ranges they and `boltNeeds` name lie
in the region, the engine holds fewer than 4 operations, and its context is not being torn down. -/
def shuttleMay (u : State) (e : Nat) (needs : List (Word × Nat)) (boltNeeds : List (Nat × Nat)) : Bool :=
  let g := engOf u e
  (needs.all fun x => (shAddr x.1).isSome) &&
  ((boltNeeds ++ needs.flatMap fun x => shRange (shAddrD x.1) 0 x.2).all fun r => (boltAt u (e / 4) g.who.1 g.who.2 r.1 r.2).isSome) &&
  shuttleCount u e < 4 && (ctxOf u g.who.1).state ≠ .tearing

/-- A Shuttle operation has joined the queue of its cluster (R148), of the engine's record only PC has changed, and the instruction has retired,
unless Shuttle has yet to read a view: then it stays in issue (R247). -/
def ShuttleQueued (e : Nat) (f : Frame) (op : Nat) (vals : Word × Word × Word) (desc : BitVec 256) (view : Option Word) (w : Option (Nat × Nat))
    (u t : State) : Prop :=
  (∃ o : ShOp, (clOf t (e / 4)).shuttle = (clOf u (e / 4)).shuttle ++ [o] ∧ o.op = op ∧ o.eng = e ∧ (o.ctx, o.gen) = (engOf u e).who ∧
    o.bwclass = (engOf u e).bwclass ∧ o.step = (engOf u e).step ∧ o.key = (ctxOf u (engOf u e).who.1).key ∧
    o.low = lowBits f ∧ (o.v0, o.v1, o.v2) = vals ∧ o.desc = desc ∧ o.view = view ∧ o.word = w ∧ o.started = false ∧ o.err = none) ∧
  { clOf t (e / 4) with shuttle := (clOf u (e / 4)).shuttle } = clOf u (e / 4) ∧ (∀ k, k ≠ e / 4 → clOf t k = clOf u k) ∧
  (engOf t e).pc = ((engOf u e).pc + (if view.isSome then 0 else 16)) % 2 ^ 52 ∧
  { engOf t e with pc := (engOf u e).pc } = engOf u e ∧ (∀ k, k ≠ e → engOf t k = engOf u k) ∧
  { t with clusters := u.clusters, engines := u.engines, fresh := u.fresh } = u

/-- No event injection is armed (R530). -/
def quiet (s : State) : Bool := !(bit s.fc.inject 63)

/-- What an access of a memory engine leaves as it was: of the state only the memory engines' records and stored lines, the roots and the wake of
the Tally halves, the counts of the slice reports, waiting error events, bandwidth counters, presented answers and returned errors may change. -/
def MemoryOnly (s t : State) : Prop :=
  { t with sv := s.sv, tally := s.tally, ks := { t.ks with slices := s.ks.slices }, fc := { t.fc with lines := s.fc.lines }, bw := s.bw,
           out := s.out, reqErrs := s.reqErrs } = s

/-- What a request of the slice manager, the firmware or another unit presented last. -/
def presented (t : State) : Option Out := t.out.head?

/-- Every Tally half keeps its pool and its fences. -/
def SameWords (s t : State) : Prop := ∀ h, (tallyOf t h).pool = (tallyOf s h).pool ∧ (tallyOf t h).fences = (tallyOf s h).fences

/-- A write over `path` reaches the secure world's registers: the path is up, it is the secure world's, and registers are not held. -/
def secReach (path : Path) (s : State) : Bool := pathUp (awake s) path && pathSecure s.cfg path && !(regHeld (awake s))

/-- A command register's write over `path` reaches its unit: the path is up, it is the secure world's, and the block runs outside its safe state. -/
def cmdReach (path : Path) (s : State) : Bool :=
  pathUp (awake s) path && pathSecure s.cfg path && !(awake s).fc.blockSafe && blockRuns (awake s)

/-- The state in which the slice manager has taken a command, with the staged words captured (R46). -/
def slmTaken (op n : Nat) (s : State) : State :=
  { awake s with slm := { s.slm with target := n % 256, lastOp := op, captured := stagedWords s } }

/-- The packet that stands at the head of queue `q`, as its processing sees it. -/
def queuePkt (s : State) (q : Nat) (x : Queue) (ws : List Word) : Pkt := ⟨.queue q, ws, x.port, (ctxOf s x.ctx).slice, x.ctx, x.gen, none⟩

/-- Queue `q`, in record `x`, starts the packet `ws` now (R434): it holds packets and nothing holds it, it is its turn, its context and slice take work, it is not in
the error state, and the packet meets every check (R433, R438). -/
def queueTakes (s : State) (q : Nat) (x : Queue) (ws : List Word) : Bool :=
  let c := ctxOf s x.ctx
  let ty := field (ws.getD 0 0) 0 8
  queueOf s q = some x && queueCanStart x && queueTurn s q && c.gen = x.gen && (c.state = .live || c.state = .faulted) &&
  (sliceOf s c.slice).state ≠ .dissolving && (x.ext.isNone || (ty = 0x11 && 2 ≤ countDiff x.tail x.head)) && !x.err &&
  (packetFault s (queuePkt s q x ws) ty).isNone

/-- The packet of a port ring, as its processing sees it. -/
def portPkt (s : State) (p : Nat) (ws : List Word) : Pkt := ⟨.port p, ws, p, 0, p, (ctxOf s p).gen, none⟩

/-- Whoever serves the port rings processes the packet `ws` of port `p` now (R434, R436), and it meets every check (R433, R438). -/
def portTakes (s : State) (p : Nat) (ws : List Word) : Bool :=
  let x := ringOf s p
  let ty := field (ws.getD 0 0) 0 8
  p < s.cfg.hostPorts && x.en && !x.busy && x.pkt = some ws && (x.ext.isNone || ty = 0x11) && portServer s ≠ .nobody &&
  (directCtx s 0 || portServer s = .firmware || ((pktInfo ty).map fun i => decide (i.feature = 0)).getD false) &&
  (packetFault s (portPkt s p ws) ty).isNone

/-- A packet of port ring `p` has been answered with CODE and RESULT in its status word after its effect left `u` (R434, R436). -/
def Answered (p : Nat) (ws : List Word) (code result : Nat) (u t : State) : Prop :=
  t = finishRing (writeStatus u (statusOf u p (ringOf u p).head ws) code result) 1 (.port p)

/-- A packet of queue `q` is done: the queue's HEAD has moved past it and nothing holds the queue. -/
def QueuePassed (q : Nat) (x : Queue) (t : State) : Prop :=
  ∃ y, queueOf t q = some y ∧ y.head = (x.head + 1) % 2 ^ 32 ∧ y.tail = x.tail ∧ y.busy = false ∧ y.ext = none

/-- Every other queue than `q` is as before. -/
def OnlyQueue (q : Nat) (s t : State) : Prop := ∀ k, k ≠ q → queueOf t k = queueOf s k

/-- The Tally memories are awake, and no access waits. -/
def tallyReady (s : State) : Bool :=
  clear s && (List.range s.cfg.halves).all fun h => !(tallyOf s h).retained && !(tallyOf s h).waking

/-- An operation of host port `p` on fence `f` stands last in the Tally queue of that port, and the Tally memories are else as before (R267). -/
def FenceOpQueued (p f : Nat) (kind : TKind) (v : Word) (s t : State) : Prop :=
  ∀ h, { tallyOf t h with queues := (tallyOf s h).queues } = tallyOf s h ∧
    ∀ k, mget [] (tallyOf t h).queues k = mget [] (tallyOf s h).queues k ++
      if h = fenceHalf f ∧ k = hostTallyPort s.cfg h p then [⟨kind, 16 * (f % 131072), v, 0, 0, .none, s.fresh⟩] else []

/-- What a WAIT of `v` on fence `f` finds at once: the code of a fence in error, 0 where VALUE has reached `v` (R440). -/
def foundNow (s : State) (f : Nat) (v : Word) : Option Nat :=
  if (fenceOf s f).state = 2 then some (fenceOf s f).code else if v.toNat ≤ (fenceOf s f).value.toNat then some 0 else none

/-! ## Launches (R169, R170) -/

/-- The state in which a launch reads its header: the context has its program, and the ring is busy. -/
def launchTaken (s : State) (r : RingId) (c hdr packets k : Nat) (status : Option StatusAt) : State :=
  let s := modCtx s c fun y => { y with prog := some ⟨hdr, 0, 0, 0, r, packets, status, false⟩, home := some k }
  match r with
  | .queue q => modQueue s q fun y => { y with busy := true }
  | .port p => modRing s p fun y => { y with busy := true }

/-- Context `c` takes the program at `hdr` now: it is LIVE, runs none, is not leaving its engine, has a place (engine `e`, cluster `k`, region `rg`)
and no other step bars it; and the header reads `bs`, which meets its rules. -/
def launchMay (s : State) (r : RingId) (c hdr packets : Nat) (status : Option StatusAt) (e k : Nat) (rg : BoltRegion) (bs : List Byte)
    (bw uses code entry : Nat) : Prop :=
  let x := ctxOf s c
  x.prog = none ∧ x.state = .live ∧ leaving s c = false ∧ launchBarred s r c = false ∧ launchPlace s c = some (e, k) ∧
  regionIn s k c x.gen = some rg ∧ (memRead (launchTaken s r c hdr packets k status) (engWho s e c x.gen 0) .va hdr 64).2 = .ok bs ∧
  clear (memRead (launchTaken s r c hdr packets k status) (engWho s e c x.gen 0) .va hdr 64).1 = true ∧
  headerOf bs (65536 * rg.size - 1024) (descOf s x.slice) (hasShuttle s x.slice) = some (bw, uses, code, entry)

/-- The program has started: the context records it; its registers hold `args` in s1 to s8 and PC at ENTRY, on the engine that holds the context or
in the state record of its Bolt region (R169, R184); in direct mode the context is then on its engine (R449). -/
def Launched (s : State) (c hdr packets e k : Nat) (rg : BoltRegion) (bw uses code entry : Nat) (args : List Word) (t : State) : Prop :=
  let x := ctxOf s c
  let step := match x.eng with
    | some e => (engOf s e).step
    | none => (fromRecord Engine.idle (savedRecord s c)).step
  let regs := launchRegs hdr entry step args
  (∃ p, (ctxOf t c).prog = some p ∧ p.hdr = hdr ∧ p.bwclass = bw ∧ p.uses = uses ∧ p.codeBytes = code ∧ p.packets = packets ∧ p.ended = false) ∧
  (x.eng ≠ none → (engOf t e).s = regs.s ∧ (engOf t e).d = [] ∧ (engOf t e).p = [] ∧ (engOf t e).t = [] ∧ (engOf t e).pc = hdr + entry) ∧
  (x.eng = none → boltRead t k (65536 * rg.base) 1024 = recordBytes regs false false ∧
    (directCtx s x.slice = true → (engOf t e).ctx = some (c, x.gen)) ∧ (directCtx s x.slice = false → c ∈ t.sched.ready))

/-- The state in which a copy of FC_CMD holds the operation written over `path` (R539). -/
def fcTaken (path : Path) (op kind target : Nat) (s : State) : State :=
  modFcCopy (awake s) (copyKey path) fun c => { c with busy := true, lastOp := op, cmd := some (op, kind, target, pathSecure s.cfg path) }

/-- A write over `path` reaches a copy of FC_CMD that takes it: the path is up and one of the copies', the part is in neither SCRAP nor LOCKED, the
copy is not busy, no other copy holds an operation, and no step that runs was asked for by one (R539). -/
def fcFree (path : Path) (s : State) : Bool :=
  pathUp (awake s) path && path ≠ .jtag && lcOpen s && copyKey path ≤ 4 && !(fcCopyOf s (copyKey path)).busy &&
  ([4, 0, 1, 2, 3].all fun k => (fcCopyOf s k).cmd.isNone) && s.fc.ladder.all fun l => l.copy.isNone

/-- The copy of `path` has ended the operation `op` with RESULT `r` (R539). -/
def fcAnswered (path : Path) (op r : Nat) (t : State) : Prop :=
  (fcCopyOf t (copyKey path)).busy = false ∧ (fcCopyOf t (copyKey path)).lastOp = op ∧ (fcCopyOf t (copyKey path)).result = r

/-- The mailbox of port `p` has completed its request with STATUS 0 and the response `rsp`, up to 4,096 bytes (R618). -/
def Responds (p : Nat) (rsp : List Byte) (t : State) : Prop :=
  (hkOf t p).mbxBusy = false ∧ (hkOf t p).mbxDone = true ∧ (hkOf t p).mbxStatus = 0 ∧ (hkOf t p).rspLen = (rsp.take 4096).length ∧
  bread (hkOf t p).rsp 0 (hkOf t p).rspLen = rsp.take 4096

/-- A key-delivery message of session `k` has been answered under its code with a status and a body (R489). -/
def Delivered (p k code status : Nat) (body : List Byte) (t : State) : Prop :=
  Responds p (Config.spdmBytes (0x100 + 0xFE) [leBytes 2 k, leBytes 1 code ++ leBytes 1 status ++ leBytes 2 body.length ++ body]) t

/-- Every scratchpad, Bolt buffer, Tally memory and stored line of the licensee's memory is in canonical form. -/
def State.memWf (s : State) : Bool :=
  (s.engines.all fun e => mwf 0 e.2.spad) && (s.clusters.all fun c => mwf 0 c.2.bolt) &&
  (s.tally.all fun t => mwf 0 t.2.pool && mwf 0 t.2.sec && mwf Fence.zero t.2.fences) && mwf 0 s.sv.beats

end Sys2Proof.Machine
end

