-- ==== Sys2Proof/Certificates/Slice0/Obligations.lean ====
section
/-! DEFINITION. The statements for the provers, one definition each, with the rules they formalise. -/
section
open Sys2Proof Sys2Proof.Machine

/-- A step takes the command at the front of the queue and runs it with the queue's rest. For every command c, queue rest and state s whose
queue is c followed by rest, step s is exec c on s with the queue rest. (opcode_table.json, 95_what_each_step_holds.md) -/
def Obligations.StepRunsFrontCommand : Prop :=
  ∀ (c : Sys2Proof.Instr) (rest : List Sys2Proof.Instr) (s : State), s.pending = c :: rest →
    step s = exec c { s with pending := rest }

/-- Every step keeps the build parameters legal and their registers the same, leaves no access waiting, and takes one command off the queue.
From every state whose build parameters are a legal configuration, a step that answers a next state leaves a legal configuration,
CK_VERSION, CK_CONFIG and CK_TOPOLOGY read as before over every path, and the queue is the old queue without its front. Where no access
waited before the step, none is left waiting for an earlier access to its line or for a wake. It holds of all 267 commands and of a clock
tick. (R4, R34, R10, R14, R37, R28, R276) -/
def Obligations.StepKeepsBuildParameters : Prop :=
  ∀ s t : State, s.cfg.legal = true → step s = .next t →
    t.cfg.legal = true ∧ t.pending = s.pending.drop 1 ∧ (clear s = true → clear t = true) ∧
    (∀ path : Sys2Proof.Path, regValue t path .ckVersion = regValue s path .ckVersion ∧
      regValue t path .ckConfig = regValue s path .ckConfig ∧ regValue t path .ckTopology = regValue s path .ckTopology)

/-- The state after reset has a legal configuration and an empty queue, and CK_VERSION reads version 3.1. State.reset has legal build
parameters, no waiting command, its memories in canonical form, no access waiting, and CK_VERSION reads 0x0000_0000_0003_0001 over the
control register ports and every host packet port. That the configuration is LU-48 is the model's choice (log entry 1). (R4, R34, R10) -/
def Obligations.ResetIsLegalAndIdle : Prop :=
  State.reset.cfg.legal = true ∧ State.reset.pending = [] ∧ State.reset.memWf = true ∧ clear State.reset = true ∧
    (∀ path : Sys2Proof.Path, regValue State.reset path .ckVersion = 0x0000000000030001)

/-- Scalar arithmetic and compare instructions complete: each writes its s register or predicate and PC, and nothing else. SADD, SSUB, SMUL,
SAND, SOR, SXOR, SSHL, SSHR, SSRA: where the engine issues the legal frame with a true predicate, exec answers a next state in which
register slot 0 holds the result (s0 discards it), PC stands 16 bytes on, and every other register of the engine, every other engine and the
rest of the state are as at issue. Shift counts are taken mod 64. SEQ, SNE, SLT, SLTU, SLE, SLEU: where the engine issues the legal frame
with a true predicate, exec answers a next state in which predicate register slot 0 holds the comparison (p0 stays 1), PC stands 16 bytes
on, and every other register of the engine, every other engine and the rest of the state are as at issue. SLT and SLE compare signed values.
(R200, R175, R177) -/
def Obligations.ScalarAndCompareInstructionsWriteTheirResult : Prop :=
  (
  ∀ p ∈ ([(.sadd, fun a b => a + b), (.ssub, fun a b => a - b), (.smul, fun a b => a * b), (.sand, fun a b => a &&& b),
      (.sor, fun a b => a ||| b), (.sxor, fun a b => a ^^^ b), (.sshl, fun a b => a <<< (b.toNat % 64)),
      (.sshr, fun a b => a >>> (b.toNat % 64)), (.ssra, fun a b => a.sshiftRight (b.toNat % 64))] :
      List ((Nat → Frame → Sys2Proof.Instr) × (Sys2Proof.Word → Sys2Proof.Word → Sys2Proof.Word))),
    ∀ (e : Nat) (f : Frame) (s : State), issues (infoR [.s, .s, .s] []) true e f s = true →
      Ends (p.1 e f) s fun t =>
        let u := atIssue (infoR [.s, .s, .s] []) e s
        OnlyEngine e u t ∧ Retired e u t ∧
        (∀ r, sGet (engOf t e) r = if r = (slotOf f 0).2 ∧ r ≠ 0 then p.2 (srcS (engOf u e) f 1) (srcS (engOf u e) f 2 + imm64 f)
          else sGet (engOf u e) r) ∧
        { engOf t e with s := (engOf u e).s, pc := (engOf u e).pc } = engOf u e) ∧
  (
  ∀ p ∈ ([(.seq, fun a b => decide (a = b)), (.sne, fun a b => decide (a ≠ b)), (.slt, fun a b => decide (a.toInt < b.toInt)),
      (.sltu, fun a b => decide (a.toNat < b.toNat)), (.sle, fun a b => decide (a.toInt ≤ b.toInt)),
      (.sleu, fun a b => decide (a.toNat ≤ b.toNat))] :
      List ((Nat → Frame → Sys2Proof.Instr) × (Sys2Proof.Word → Sys2Proof.Word → Bool))),
    ∀ (e : Nat) (f : Frame) (s : State), issues (infoR [.p, .s, .s] []) true e f s = true →
      Ends (p.1 e f) s fun t =>
        let u := atIssue (infoR [.p, .s, .s] []) e s
        OnlyEngine e u t ∧ Retired e u t ∧
        (∀ r, pGet (engOf t e) r = if r = (slotOf f 0).2 ∧ r ≠ 0 then p.2 (srcS (engOf u e) f 1) (srcS (engOf u e) f 2 + imm64 f)
          else pGet (engOf u e) r) ∧
        { engOf t e with p := (engOf u e).p, pc := (engOf u e).pc } = engOf u e)

/-- Moves to s registers, descriptor moves, STEP moves and predicate logic complete with their one register and PC. Where the engine issues the
legal frame with a true predicate, SMOV writes s[slot1] + IMM, DGETW the selected word of d[slot1] and RSTEP the 48-bit STEP to s[slot0] (s0
discards it); PC stands 16 bytes on, and every other register, every other engine and the rest of the state are as at issue. Where the
engine issues the legal frame with a true predicate: NOP changes PC only; DSETW writes s[slot1] + IMM to one 64-bit word of d[slot0] and
keeps its other words; ASTEP adds s[slot1] + IMM to STEP mod 2^48; PLOG writes TT[2 p[slot1] + p[slot2]] to p[slot0] (p0 stays 1). PC stands
16 bytes on and the rest of the state is as at issue. (R200, R199) -/
def Obligations.MovesDescriptorStepAndPredicateLogic : Prop :=
  (
  ∀ p ∈ ([(.smov, infoR [.s, .s] [], fun g f => srcS g f 1 + imm64 f),
      (.dgetw, infoR [.s, .d] [(64, 2)], fun g f => BitVec.ofNat 64 ((dGet g (slotOf f 1).2).toNat / 2 ^ (64 * lowField f 64 2))),
      (.rstep, infoR [.s] [], fun g _ => BitVec.ofNat 64 (g.step % 2 ^ 48))] :
      List ((Nat → Frame → Sys2Proof.Instr) × OpInfo × (Engine → Frame → Sys2Proof.Word))),
    ∀ (e : Nat) (f : Frame) (s : State), issues p.2.1 true e f s = true →
      Ends (p.1 e f) s fun t =>
        let u := atIssue p.2.1 e s
        OnlyEngine e u t ∧ Retired e u t ∧
        (∀ r, sGet (engOf t e) r = if r = (slotOf f 0).2 ∧ r ≠ 0 then p.2.2 (engOf u e) f else sGet (engOf u e) r) ∧
        { engOf t e with s := (engOf u e).s, pc := (engOf u e).pc } = engOf u e) ∧
  (
  (∀ (e : Nat) (f : Frame) (s : State), issues ⟨.neutral, 0, [], []⟩ true e f s = true →
    Ends (.nop e f) s fun t =>
      let u := atIssue ⟨.neutral, 0, [], []⟩ e s
      OnlyEngine e u t ∧ Retired e u t ∧ { engOf t e with pc := (engOf u e).pc } = engOf u e) ∧
  (∀ (e : Nat) (f : Frame) (s : State), issues (infoR [.d, .s] [(64, 2)]) true e f s = true →
    Ends (.dsetw e f) s fun t =>
      let u := atIssue (infoR [.d, .s] [(64, 2)]) e s
      OnlyEngine e u t ∧ Retired e u t ∧ { engOf t e with d := (engOf u e).d, pc := (engOf u e).pc } = engOf u e ∧
      (∀ r, r ≠ (slotOf f 0).2 → dGet (engOf t e) r = dGet (engOf u e) r) ∧
      (∀ w < 4, descWord (dGet (engOf t e) (slotOf f 0).2) w =
        if w = lowField f 64 2 then srcS (engOf u e) f 1 + imm64 f else descWord (dGet (engOf u e) (slotOf f 0).2) w)) ∧
  (∀ (e : Nat) (f : Frame) (s : State), issues (infoR [.zero, .s] []) true e f s = true →
    Ends (.astep e f) s fun t =>
      let u := atIssue (infoR [.zero, .s] []) e s
      OnlyEngine e u t ∧ Retired e u t ∧ { engOf t e with step := (engOf u e).step, pc := (engOf u e).pc } = engOf u e ∧
      (engOf t e).step = ((engOf u e).step + (srcS (engOf u e) f 1 + imm64 f).toNat) % 2 ^ 48) ∧
  (∀ (e : Nat) (f : Frame) (s : State), issues (infoR [.p, .p, .p] [(64, 4)]) true e f s = true →
    Ends (.plog e f) s fun t =>
      let u := atIssue (infoR [.p, .p, .p] [(64, 4)]) e s
      OnlyEngine e u t ∧ Retired e u t ∧ { engOf t e with p := (engOf u e).p, pc := (engOf u e).pc } = engOf u e ∧
      (∀ r, pGet (engOf t e) r = if r = (slotOf f 0).2 ∧ r ≠ 0 then
          f.ops.getLsbD (64 + 2 * (pGet (engOf u e) (slotOf f 1).2).toNat + (pGet (engOf u e) (slotOf f 2).2).toNat)
        else pGet (engOf u e) r)))

/-- Branches set only PC; a scalar instruction whose predicate is false only moves PC past it. Where the engine issues the legal frame (BR with
a true predicate, TLINK in an open tile), exec answers a next state in which PC is the PC of the instruction plus the signed 64-bit offset,
mod 2^52, and everything else is as at issue; TLINK leaves the tile open. For the scalar, compare, SMOV, descriptor, predicate-logic and
step instructions, where the engine issues the legal frame and its predicate is false, exec answers a next state in which PC stands 16 bytes
on and everything else is as at issue. (R153, R200, R175) -/
def Obligations.BranchesAndFalsePredicatesMovePc : Prop :=
  (
  ∀ p ∈ ([(.br, ⟨.neutral, 2, [], [(0, 64)]⟩), (.tlink, ⟨.closing, 2, [], [(0, 64)]⟩)] :
      List ((Nat → Frame → Sys2Proof.Instr) × OpInfo)),
    ∀ (e : Nat) (f : Frame) (s : State),
      issues p.2 (field f.ops 64 48 = 0 && field f.ops 0 4 = 0) e f s = true →
      Ends (p.1 e f) s fun t =>
        let u := atIssue p.2 e s
        OnlyEngine e u t ∧ { engOf t e with pc := (engOf u e).pc } = engOf u e ∧
        (engOf t e).pc = (BitVec.ofNat 64 (engOf u e).pc + imm64 f).toNat % 2 ^ 52) ∧
  (
  ∀ p ∈ ([(.sadd, infoR [.s, .s, .s] []), (.ssub, infoR [.s, .s, .s] []), (.smul, infoR [.s, .s, .s] []), (.sand, infoR [.s, .s, .s] []),
      (.sor, infoR [.s, .s, .s] []), (.sxor, infoR [.s, .s, .s] []), (.sshl, infoR [.s, .s, .s] []), (.sshr, infoR [.s, .s, .s] []),
      (.ssra, infoR [.s, .s, .s] []), (.seq, infoR [.p, .s, .s] []), (.sne, infoR [.p, .s, .s] []), (.slt, infoR [.p, .s, .s] []),
      (.sltu, infoR [.p, .s, .s] []), (.sle, infoR [.p, .s, .s] []), (.sleu, infoR [.p, .s, .s] []), (.smov, infoR [.s, .s] []),
      (.dsetw, infoR [.d, .s] [(64, 2)]), (.dgetw, infoR [.s, .d] [(64, 2)]), (.plog, infoR [.p, .p, .p] [(64, 4)]),
      (.rstep, infoR [.s] []), (.astep, infoR [.zero, .s] [])] : List ((Nat → Frame → Sys2Proof.Instr) × OpInfo)),
    ∀ (e : Nat) (f : Frame) (s : State), skips p.2 true e f s = true →
      Ends (p.1 e f) s fun t =>
        let u := atIssue p.2 e s
        OnlyEngine e u t ∧ Retired e u t ∧ { engOf t e with pc := (engOf u e).pc } = engOf u e)

/-- TVIEW completes with t[slot0] := s[slot1] + IMM in an open tile where the view is invalid or meets its rules. Where the engine issues a
legal TVIEW and the value is a view with VALID = 0 or one that R161 accepts, exec answers a next state in which the tile is open, t[slot0]
holds the value, PC stands 16 bytes on, and every other register, every other engine and the rest of the state are as at issue. (R161, R200) -/
def Obligations.TviewLoadsAView : Prop :=
  ∀ (e : Nat) (f : Frame) (s : State), issues ⟨.opening, 1, [.t, .s], [(0, 64)]⟩ true e f s = true →
    let u := atIssue ⟨.opening, 1, [.t, .s], [(0, 64)]⟩ e s
    let v := srcS (engOf u e) f 1 + imm64 f
    (bit v 63 = false ∨ viewFault (viewOf v) false = none) →
    Ends (.tview e f) s fun t =>
      OnlyEngine e u t ∧ Retired e u t ∧ { engOf t e with t := (engOf u e).t, pc := (engOf u e).pc } = engOf u e ∧
      (engOf t e).tileOpen = true ∧
      ∀ r, tGet (engOf t e) r = if r = (slotOf f 0).2 then v else tGet (engOf u e) r

/-- TEND closes the open tile; PEND ends the program at a boundary and requests a switch. Where an open tile issues a legal TEND and no result
of the tile is outstanding, exec answers a next state with the tile closed, no statistics slot, every t register 0, PC 16 bytes on, s, d, p
and STEP as before, and each scratchpad byte as before or 0 (which one is free). Its outstanding operations no longer read the scratchpad;
nothing else outside the engine's record and the draw counter changes. The scratchpad is taken in its canonical form. Where the engine
issues a legal PEND outside a tile, exec answers a next state in which the engine asks for a switch without preemption, PC stands 16 bytes
on, the program of the context that ran (if it still stands) is ended, the context is in no place of the ready order, and every other engine
is as at issue. (R152, R154, R185, R434) -/
def Obligations.TendClosesTheTileAndPendEndsTheProgram : Prop :=
  (
  ∀ (e : Nat) (f : Frame) (s : State), issues ⟨.closing, 0, [], []⟩ true e f s = true →
    let u := atIssue ⟨.closing, 0, [], []⟩ e s
    (engOf u e).pendRes = [] → mwf 0 (engOf u e).spad = true →
    Ends (.tend e f) s fun t =>
      OnlyEngine e u { t with fresh := u.fresh, asyncs := u.asyncs } ∧
      (t.asyncs = u.asyncs.map fun a => if a.eng = e then { a with tile := false } else a) ∧ Retired e u t ∧ (engOf t e).tileOpen = false ∧ (engOf t e).stats = [] ∧
      (∀ r, tGet (engOf t e) r = 0) ∧
      (∀ a, bget (engOf t e).spad a = bget (engOf u e).spad a ∨ bget (engOf t e).spad a = 0) ∧
      (engOf t e).s = (engOf u e).s ∧ (engOf t e).d = (engOf u e).d ∧ (engOf t e).p = (engOf u e).p ∧
      (engOf t e).step = (engOf u e).step ∧ (engOf t e).ctx = (engOf u e).ctx) ∧
  (
  ∀ (e : Nat) (f : Frame) (s : State), issues ⟨.boundaryOnly, 0, [], []⟩ true e f s = true →
    let u := atIssue ⟨.boundaryOnly, 0, [], []⟩ e s
    let c := (engOf u e).who.1
    Ends (.pend e f) s fun t =>
      (engOf t e).switchReq = true ∧ (engOf t e).preempt = false ∧ Retired e u t ∧ (engOf t e).s = (engOf u e).s ∧
      (∀ p, (ctxOf t c).prog = some p → p.ended = true) ∧ c ∉ t.sched.ready ∧ (∀ k, k ≠ e → engOf t k = engOf u k))

/-- TILE_OVERRUN, FETCH_RANGE and ILLEGAL_INSTRUCTION complete by faulting the LIVE context with codes 3, 9 and 1. For an engine that runs a
LIVE context at its generation, each of the three events, where it can occur, answers the next state that writes a 64-byte fault record with
that CODE (at FAULT_REC, as a request of the context; none in direct mode) after a state in which the context is FAULTED with fence code
0x100 + CODE, the engine's tile is closed with no views, and a switch is requested; every other engine keeps its s registers and PC; in
direct mode the dispatcher then starts the teardown that makes the context LIVE again. ILLEGAL_INSTRUCTION follows a permitted fetch. The
accesses of each wait for no earlier one. (R156, R157, R172, R176, R179, R180, R181) -/
def Obligations.EngineFaultsMarkTheContext : Prop :=
  let runs (e c gen : Nat) (u : State) : Prop := (engOf u e).ctx = some (c, gen) ∧ (ctxOf u c).gen = gen ∧
    (ctxOf u c).state = .live
  let after (e c gen code : Nat) (u t : State) : Prop := ∃ (v : State) (bs : List Sys2Proof.Byte),
    t = directRecover (writeFaultRecord v e c gen bs 0) c ∧ bs.length = 64 ∧ bs.head? = some (BitVec.ofNat 8 code) ∧
    (ctxOf v c).state = .faulted ∧ (ctxOf v c).faultCode = 0x100 + code ∧ (engOf v e).tileOpen = false ∧ (engOf v e).t = [] ∧
    (engOf v e).switchReq = true ∧ ∀ k, k ≠ e → (engOf v k).s = (engOf u k).s ∧ (engOf v k).pc = (engOf u k).pc
  (∀ (e c gen : Nat) (s : State), s.cfg.hasEngine e = true → runs e c gen s → (engOf s e).tileOpen = true →
    clear (engFault s e 3 0 0 false) = true → Ends (.tileOverrun e) s (after e c gen 3 s)) ∧
  (∀ (e c gen : Nat) (s : State), s.cfg.hasEngine e = true → runs e c gen s → canIssue s e = true → pcInRange (engOf s e) = false →
    clear (engFault s e 9 0 0 false) = true → Ends (.fetchRange e) s (after e c gen 9 s)) ∧
  (∀ (e c gen op : Nat) (s : State), s.cfg.hasEngine e = true → canIssue s e = true → pcInRange (engOf s e) = true →
    op < 256 → opcodeAssigned op = false → (fetch s e).2 = none → runs e c gen (fetch s e).1 →
    clear (engFault (fetch s e).1 e 1 0 0 false) = true → Ends (.illegalInstruction e op) s (after e c gen 1 (fetch s e).1))

/-- TLD, TADD, TSWAP, FSIG and FERR complete by putting their operation at the engine's Tally port of the referenced half. Where the engine
issues the legal frame and the reference in s[slot0] resolves (TLD a word or fence; TADD and TSWAP a context word; FSIG and FERR a fence),
exec answers a next state in which one operation of the kind, offset, value and master stands at the end of that port's queue, the
destination register of TLD, TADD and TSWAP (unless s0) waits for its answer, PC stands 16 bytes on; no Tally word changes and nothing
outside the Tally memories, the engine's record and the draw counter does. (R187, R188, R212, R213) -/
def Obligations.TallyOperationsJoinTheirPort : Prop :=
  let o (slots : List SlotKind) (w : Nat) : OpInfo := ⟨.opening, 6, slots, [(0, w)]⟩
  let joins (u t : State) (e h : Nat) (k : TKind) (off : Nat) (v : Sys2Proof.Word) (ret : TRet) : Prop :=
    mget [] (tallyOf t h).queues (engPort u.cfg h e) =
      mget [] (tallyOf u h).queues (engPort u.cfg h e) ++ [⟨k, off, v, e, (engOf u e).who.1, ret, u.fresh⟩] ∧
    Retired e u t ∧ { engOf t e with pendRes := (engOf u e).pendRes, pc := (engOf u e).pc } = engOf u e ∧
    (∀ k, k ≠ e → engOf t k = engOf u k) ∧ SameWords u t ∧
    { t with tally := u.tally, engines := u.engines, fresh := u.fresh } = u ∧
    (∀ r, r ∈ (engOf t e).pendRes ↔ r ∈ (engOf u e).pendRes ∨ (r ≠ 0 ∧ ∃ c g, ret = .engine e c g r))
  (∀ (e h i : Nat) (f : Frame) (s : State), issues (o [.s, .zero, .s] 64) true e f s = true →
    let u := atIssue (o [.s, .zero, .s] 64) e s
    let g := engOf u e
    tallyRef u g.who.1 (srcS g f 0) = .ok (.word h i) →
    Ends (.tld e f) s fun t => joins u t e h .read (poolBase + 8 * i) 0 (.engine e g.who.1 g.who.2 (slotOf f 2).2)) ∧
  (∀ (e n : Nat) (f : Frame) (s : State), issues (o [.s, .zero, .s] 64) true e f s = true →
    let u := atIssue (o [.s, .zero, .s] 64) e s
    let g := engOf u e
    tallyRef u g.who.1 (srcS g f 0) = .ok (.fence n) →
    Ends (.tld e f) s fun t => joins u t e (fenceHalf n) .read (16 * (n % 131072)) 0 (.engine e g.who.1 g.who.2 (slotOf f 2).2)) ∧
  (∀ p ∈ ([(.tadd, .add), (.tswap, .swap)] : List ((Nat → Frame → Sys2Proof.Instr) × TKind)),
    ∀ (e h i : Nat) (f : Frame) (s : State), issues (o [.s, .s, .s] 64) true e f s = true →
    let u := atIssue (o [.s, .s, .s] 64) e s
    let g := engOf u e
    tallyRef u g.who.1 (srcS g f 0) = .ok (.word h i) →
    Ends (p.1 e f) s fun t =>
      joins u t e h p.2 (poolBase + 8 * i) (srcS g f 1 + imm64 f) (.engine e g.who.1 g.who.2 (slotOf f 2).2)) ∧
  (∀ (e n : Nat) (f : Frame) (s : State), issues (o [.s, .s] 64) true e f s = true →
    let u := atIssue (o [.s, .s] 64) e s
    let g := engOf u e
    tallyRef u g.who.1 (srcS g f 0) = .ok (.fence n) →
    Ends (.fsig e f) s fun t => joins u t e (fenceHalf n) .max (16 * (n % 131072)) (srcS g f 1 + imm64 f) (.action e g.who.1 g.who.2)) ∧
  (∀ (e n : Nat) (f : Frame) (s : State), issues (o [.s] 16) (0x8000 ≤ lowField f 0 16) e f s = true →
    let u := atIssue (o [.s] 16) e s
    let g := engOf u e
    tallyRef u g.who.1 (srcS g f 0) = .ok (.fence n) →
    Ends (.ferr e f) s fun t => joins u t e (fenceHalf n) .seterr (16 * (n % 131072)) (BitVec.ofNat 64 (lowField f 0 16)) (.action e g.who.1 g.who.2))

/-- TWAIT and FWAIT retire or hold the engine, and a wait is released when its condition holds. Where the engine issues the legal frame outside
a tile and the reference resolves to a word (TWAIT) or a fence (both) that is readable (its Tally memory is awake, R276, and no bit error
stands in it, R274): TWAIT retires and changes only PC where the word meets COND against s[slot1] + IMM, else it only records the wait and
PC stays. FWAIT writes 0 where VALUE reached the operand, or the error code where the fence is in error, to s[slot2] and retires; else it
only records the wait. On an orphaned fence that is in use and whose VALUE is below the operand, FWAIT attaches ABANDONED to the fence,
writes that code and retires. For an engine whose wait a change has ended with result r, TWAIT_RELEASE (the wait of a TWAIT) and
FWAIT_RELEASE (that of an FWAIT) answer a next state in which the engine waits no more, PC stands 16 bytes on, FWAIT's register (unless s0)
holds r, and every other register, every other engine and the rest of the state are as before. (R210, R211, R274, R276, R445, R440) -/
def Obligations.WaitsRetireHoldAndAreReleased : Prop :=
  (
  (∀ (e h off : Nat) (f : Frame) (s : State), issues ⟨.boundaryOnly, 6, [.s, .s], [(0, 64), (82, 2)]⟩ true e f s = true →
    let u := atIssue ⟨.boundaryOnly, 6, [.s, .s], [(0, 64), (82, 2)]⟩ e s
    let g := engOf u e
    let v := srcS g f 1 + imm64 f
    ((∃ i, tallyRef u g.who.1 (srcS g f 0) = .ok (.word h i) ∧ off = poolBase + 8 * i) ∨
     (∃ n, tallyRef u g.who.1 (srcS g f 0) = .ok (.fence n) ∧ h = fenceHalf n ∧ off = 16 * (n % 131072))) →
    tallyAwake u h = true → tallyBad (tallyOf u h) off = false →
    Ends (.twait e f) s fun t => OnlyEngine e u t ∧
      (if condHolds (lowField f 82 2) (tallyWord u h off) v then
        Retired e u t ∧ { engOf t e with pc := g.pc } = g
       else (engOf t e).wait = some ⟨h, off, none, v, lowField f 82 2, 0, none⟩ ∧ (engOf t e).pc = g.pc % 2 ^ 52 ∧
        { engOf t e with wait := g.wait, pc := g.pc } = g)) ∧
  (∀ (e n : Nat) (f : Frame) (s : State), issues ⟨.boundaryOnly, 6, [.s, .s, .s], [(0, 64)]⟩ true e f s = true →
    let u := atIssue ⟨.boundaryOnly, 6, [.s, .s, .s], [(0, 64)]⟩ e s
    let g := engOf u e
    let v := srcS g f 1 + imm64 f
    let w : WaitRec := ⟨fenceHalf n, 16 * (n % 131072), some n, v, 0, (slotOf f 2).2, none⟩
    tallyRef u g.who.1 (srcS g f 0) = .ok (.fence n) → tallyAwake u (fenceHalf n) = true →
    tallyBad (tallyOf u (fenceHalf n)) (16 * (n % 131072)) = false →
    (orphaned u n = false ∨ (fenceOf u n).state ≠ 1 ∨ v.toNat ≤ (fenceOf u n).value.toNat →
      Ends (.fwait e f) s fun t => OnlyEngine e u t ∧
        (match waitResult u w with
         | some r => Retired e u t ∧ ∀ k, sGet (engOf t e) k = if k = (slotOf f 2).2 ∧ k ≠ 0 then r else sGet g k
         | none => (engOf t e).wait = some w ∧ (engOf t e).pc = g.pc % 2 ^ 52 ∧ { engOf t e with wait := g.wait, pc := g.pc } = g)) ∧
    (orphaned u n = true → (fenceOf u n).state = 1 → (fenceOf u n).value.toNat < v.toNat →
      Ends (.fwait e f) s fun t => Retired e u t ∧ (fenceOf t n).state = 2 ∧ (fenceOf t n).code = cABANDONED ∧
        ∀ k, sGet (engOf t e) k = if k = (slotOf f 2).2 ∧ k ≠ 0 then BitVec.ofNat 64 cABANDONED else sGet g k))) ∧
  (
  (∀ (e : Nat) (w : WaitRec) (r : Sys2Proof.Word) (s : State), s.cfg.hasEngine e = true → clear s = true →
    (engOf s e).wait = some w → w.ready = some r → w.fence = none →
    Ends (.twaitRelease e) s fun t => OnlyEngine e s t ∧ Retired e s t ∧ (engOf t e).wait = none ∧
      { engOf t e with wait := (engOf s e).wait, pc := (engOf s e).pc } = engOf s e) ∧
  (∀ (e n : Nat) (w : WaitRec) (r : Sys2Proof.Word) (s : State), s.cfg.hasEngine e = true → clear s = true →
    (engOf s e).wait = some w → w.ready = some r → w.fence = some n →
    Ends (.fwaitRelease e) s fun t => OnlyEngine e s t ∧ Retired e s t ∧ (engOf t e).wait = none ∧
      (∀ k, sGet (engOf t e) k = if k = w.reg ∧ k ≠ 0 then r else sGet (engOf s e) k) ∧
      { engOf t e with s := (engOf s e).s, wait := (engOf s e).wait, pc := (engOf s e).pc } = engOf s e))

/-- LDB and STB complete: bytes move between the scratchpad and the Bolt buffer of the engine, and no other byte changes. Where the engine
issues a legal LDB, the view in t[slot0] meets R161, the Bolt bytes lie in the context's region, the words read and written hold no bit
error and no injection is armed, exec answers a next state in which scratchpad byte base + i is Bolt byte i of the operand for i below the
extent (of a byte that an incomplete transfer writes, its value before or after it, R163), every other scratchpad byte and register, the
Bolt buffers and the rest of the state but the draw counter are as at issue, and PC stands 16 bytes on. Where the engine issues a legal STB,
the view in t[slot0] meets R161, the Bolt bytes lie in the context's region, the words read and written hold no bit error and no injection
is armed, exec answers a next state in which Bolt byte a + i of the engine's cluster (a is where the operand lies) is scratchpad byte base +
i for i below the extent, every other Bolt byte, every other cluster, every register and the scratchpad are as at issue, and PC stands 16
bytes on. (R202, R163, R165, R274) -/
def Obligations.LdbAndStbMoveBoltBytes : Prop :=
  (
  ∀ (e a : Nat) (f : Frame) (s : State), issues (infoM [.t, .s] [(0, 23)]) true e f s = true →
    let u := atIssue (infoM [.t, .s] [(0, 23)]) e s
    let g := engOf u e
    let v := viewOf (tGet g (slotOf f 0).2)
    let o := (srcS g f 1).toNat + lowField f 0 23
    let now := fun x => bget (clOf u (e / 4)).bolt (a + (x - v.base))
    viewFault v false = none → boltAt u (e / 4) g.who.1 g.who.2 o v.extent = some a →
    quiet u = true → anyBad (clOf u (e / 4)).boltBad a v.extent = false → anyBad g.spadBad v.base v.extent = false →
    Ends (.ldb e f) s fun t => OnlyEngine e u { t with fresh := u.fresh } ∧ Retired e u t ∧
      (∀ x, v.base ≤ x ∧ x < v.base + v.extent → bget (engOf t e).spad x = now x ∨
        ∃ l ∈ boltAlts u (e / 4) g.who.1 g.who.2 o a v.extent, bget (engOf t e).spad x = l.getD (x - v.base) (now x)) ∧
      (∀ x, ¬ (v.base ≤ x ∧ x < v.base + v.extent) → bget (engOf t e).spad x = bget g.spad x) ∧
      { engOf t e with spad := g.spad, pc := g.pc } = g) ∧
  (
  ∀ (e a : Nat) (f : Frame) (s : State), issues (infoM [.t, .s] [(0, 23)]) true e f s = true →
    let u := atIssue (infoM [.t, .s] [(0, 23)]) e s
    let g := engOf u e
    let v := viewOf (tGet g (slotOf f 0).2)
    viewFault v false = none → boltAt u (e / 4) g.who.1 g.who.2 ((srcS g f 1).toNat + lowField f 0 23) v.extent = some a →
    quiet u = true → anyBad (clOf u (e / 4)).boltBad a v.extent = false → anyBad g.spadBad v.base v.extent = false →
    Ends (.stb e f) s fun t => OnlyEngine e u { t with clusters := u.clusters } ∧ Retired e u t ∧
      (∀ x, bget (clOf t (e / 4)).bolt x = if a ≤ x ∧ x < a + v.extent then bget g.spad (v.base + (x - a))
        else bget (clOf u (e / 4)).bolt x) ∧
      (∀ k, k ≠ e / 4 → clOf t k = clOf u k) ∧ { clOf t (e / 4) with bolt := (clOf u (e / 4)).bolt } = clOf u (e / 4) ∧
      { engOf t e with pc := g.pc } = g)

/-- PREF, PUSH, GATH and SCAT complete by starting their asynchronous operation. Where the engine issues the legal frame, the descriptor meets
R195, the window R196, a part window is of an MX format, the Bolt range lies in the region (for an expert-bound PREF the condition word
too), the completion reference resolves, the context of a PREF is not being torn down (R446), the look-up of its lines, which only a fenced
sub-channel asks for (R386), waits for no earlier access, and fewer than 16 operations are outstanding, exec answers a next state in which
the operation stands last in issue order (PREF in the prefetch queue), PC stands 16 bytes on, no other register changes, and no Bolt,
memory, Tally or context state changes. Where the engine issues the legal frame, the descriptor is a dense tensor that is not MX, the rows
and the index list lie in the context's region, the words of the list hold no bit error, no injection is armed, the completion reference
resolves and fewer than 16 operations are outstanding, exec answers a next state in which the operation with the N_M1 + 1 indices of the
list (of a byte that an incomplete transfer writes, its value before or after it, R163) stands last in issue order, PC stands 16 bytes on,
no other register changes, and no Bolt, memory, Tally or context state changes. (R203, R189, R191, R196, R385, R386, R446, R206, R163, R165) -/
def Obligations.PrefetchPushGatherAndScatterStart : Prop :=
  (
  (∀ (e : Nat) (w : Option (Nat × Nat)) (f : Frame) (s : State),
    let o := infoM [.d, .s, .s, .s] [(82, 2), (81, 1), (80, 1), (74, 6), (52, 22), (51, 1), (13, 13), (0, 13)]
    issues o (caLegal f && (if lowField f 81 1 = 1 then lowField f 80 1 = 0 || lowField f 52 2 = 0
      else lowField f 80 1 = 0 && lowField f 74 6 = 0 && lowField f 52 22 = 0)) e f s = true →
    let u := atIssue o e s
    let g := engOf u e
    let d := dGet g (slotOf f 0).2
    let win := winOf (srcS g f 2) (lowField f 13 13 + 1) (lowField f 0 13 + 1)
    let part := decide (lowField f 51 1 = 1)
    let off := (srcS g f 1).toNat
    let exb := if lowField f 81 1 = 1 then some (decide (lowField f 80 1 = 1), lowField f 74 6, 2 * lowField f 52 22) else none
    tensorLegal d = true → winLegal (tensorOf d) win = true → (part = true → isMx (tensorOf d).fmt = true) →
    (boltAt u (e / 4) g.who.1 g.who.2 off (if (tensorOf d).spc = 5 ∧ part = false then offsetBytes win.rows
      else (winLayout (tensorOf d) win part).size)).isSome = true →
    (∀ x, exb = some x → (boltAt u (e / 4) g.who.1 g.who.2 x.2.2 (if x.1 then 8 else 2)).isSome = true) →
    let v := (openLines (engWho u e g.who.1 g.who.2 g.bwclass) u (touchedLines (if (tensorOf d).spc = 5 ∧ part = false then
      [((tensorOf d).aux + 4 * win.row0, 0, 4 * win.rows)] else (winLayout (tensorOf d) win part).segs))).1
    clear v = true → (ctxOf v g.who.1).state ≠ .tearing → completionWord v g f = .ok w → asyncCount v e < 16 →
    Ends (.pref e f) s fun t => Started e w true (.pref d off (srcS g f 2) win.rows win.cols part exb) v t) ∧
  (∀ (e a : Nat) (w : Option (Nat × Nat)) (f : Frame) (s : State),
    let o := infoM [.d, .s, .s, .s] [(82, 2), (51, 1), (13, 13), (0, 13)]
    issues o (caLegal f) e f s = true →
    let u := atIssue o e s
    let g := engOf u e
    let d := dGet g (slotOf f 0).2
    let win := winOf (srcS g f 2) (lowField f 13 13 + 1) (lowField f 0 13 + 1)
    let part := decide (lowField f 51 1 = 1)
    let off := (srcS g f 1).toNat
    let need := if (tensorOf d).spc = 5 ∧ part = false then offsetBytes win.rows else (winLayout (tensorOf d) win part).size
    let len := if (tensorOf d).spc = 5 ∧ part = false then regionRest u (e / 4) g.who.1 g.who.2 off else need
    tensorLegal d = true → winLegal (tensorOf d) win = true → (part = true → isMx (tensorOf d).fmt = true) →
    boltAt u (e / 4) g.who.1 g.who.2 off need = some a → completionWord u g f = .ok w → asyncCount u e < 16 →
    Ends (.push e f) s fun t =>
      Started e w false (.push d off (srcS g f 2) win.rows win.cols part (snapOf (clOf u (e / 4)).bolt a len)) u t)) ∧
  (
  ∀ (e a l : Nat) (w : Option (Nat × Nat)) (f : Frame) (s : State),
    let o := infoM [.d, .s, .s, .s] [(82, 2), (0, 13)]
    issues o (caLegal f) e f s = true →
    let u := atIssue o e s
    let g := engOf u e
    let d := dGet g (slotOf f 0).2
    let n := lowField f 0 13 + 1
    let off := (srcS g f 1).toNat
    let size := n * roundUp (rowBytes (tensorOf d)) 64
    let o := (srcS g f 2).toNat
    let list := fun (bs : List Sys2Proof.Byte) => bs.length = 4 * n ∧ ∀ i < 4 * n,
      bs.getD i 0 = bget (clOf u (e / 4)).bolt (l + i) ∨
      ∃ x ∈ boltAlts u (e / 4) g.who.1 g.who.2 o l (4 * n), bs.getD i 0 = x.getD i (bget (clOf u (e / 4)).bolt (l + i))
    rowTensorLegal d = true → boltAt u (e / 4) g.who.1 g.who.2 off size = some a →
    boltAt u (e / 4) g.who.1 g.who.2 o (4 * n) = some l →
    quiet u = true → anyBad (clOf u (e / 4)).boltBad l (4 * n) = false → completionWord u g f = .ok w → asyncCount u e < 16 →
    Ends (.gath e f) s (fun t => ∃ bs, list bs ∧ Started e w false (.gath d off (unpackBytes 32 bs n)) u t) ∧
    Ends (.scat e f) s (fun t => ∃ bs, list bs ∧
      Started e w false (.scat d off (unpackBytes 32 bs n) (snapOf (clOf u (e / 4)).bolt a size)) u t))

/-- ST completes by starting a write of the view's converted rows to the window's addresses. Where the engine issues a legal ST, the source view
meets R161, source, descriptor and window meet R205, the view's words hold no bit error, no injection is armed, the completion reference
resolves and fewer than 16 operations are outstanding, exec answers a next state in which an asynchronous write of byte chunks stands last
in issue order; without CMP its first chunks are, row by row, the window's row address and the row converted to the tensor's format under
RND and SAT. PC stands 16 bytes on; with CMP they are the fibres in bitmap form and their offset entries from segment s[slot2] on, and
s[slot2] (unless s0) takes the segment behind them; no other register changes. (R205, R120, R189, R191) -/
def Obligations.StoreConvertsItsView : Prop :=
  ∀ (e : Nat) (w : Option (Nat × Nat)) (f : Frame) (s : State),
    let o := infoM [.t, .d, .s, .s] [(82, 2), (80, 2), (79, 1), (78, 1), (58, 20)]
    issues o (caLegal f && lowField f 80 2 ≠ 3 && (lowField f 78 1 = 1 || lowField f 58 20 = 0)) e f s = true →
    let u := atIssue o e s
    let g := engOf u e
    let v := viewOf (tGet g (slotOf f 0).2)
    let d := dGet g (slotOf f 1).2
    let tn := tensorOf d
    let win := winOf (srcS g f 2) v.rows v.cols
    viewFault v false = none → storeLegal v d win (lowField f 78 1 = 1) (lowField f 58 20) = true →
    quiet u = true → anyBad g.spadBad v.base v.extent = false → completionWord u g f = .ok w → asyncCount u e < 16 →
    Ends (.st e f) s fun t => ∃ (chunks : List (Nat × List Sys2Proof.Byte)) (a : AsyncOp),
      t.asyncs = u.asyncs ++ [a] ∧ a.eng = e ∧ (a.ctx, a.gen) = g.who ∧ a.kind = .write chunks ∧ a.word = w ∧ a.queued = false ∧
      (lowField f 78 1 = 0 → chunks.take v.rows = (List.range v.rows).map fun r =>
        (winRowAddr tn win r, packBytes (fmtWidth tn.fmt) (convRow tn.fmt (rowVals g v r) (lowField f 80 2) (lowField f 79 1 = 1)
          (fun c => elemBits u g 0 (r * v.cols + c))).1)) ∧
      (lowField f 78 1 = 1 →
        let c := compressFibres tn (lowField f 58 20) ((List.range v.rows).map fun r =>
          convRow tn.fmt (rowVals g v r) (lowField f 80 2) (lowField f 79 1 = 1) (fun c => elemBits u g 0 (r * v.cols + c))) 0
          (srcS g f 2).toNat
        chunks.take c.1.length = c.1 ∧
          ∀ r, sGet (engOf t e) r = if r = (slotOf f 2).2 ∧ r ≠ 0 then BitVec.ofNat 64 c.2 else sGet g r) ∧
      Retired e u t ∧ (lowField f 78 1 = 0 → (engOf t e).s = g.s) ∧
      { engOf t e with s := g.s, pc := g.pc } = g ∧ (∀ k, k ≠ e → engOf t k = engOf u k) ∧ t.clusters = u.clusters ∧ t.sv = u.sv

/-- LPUT, LRED, LGET and LPUTM start their link operation; LPOST opens and LCLOSE closes a receive window. Where the engine issues the legal
frame, the link descriptor meets R197, its LKEY lies in the slice's range, the length (LPUTM: descriptor and window) is legal, the Bolt
range of LPUT, LRED and LGET lies in the region, LPUTM's image can be cut (a bitmap source by its masks, whose reads wait for no earlier
access) and is legal in length, the completion reference resolves and fewer than 16 operations are outstanding, exec answers a next state in
which the operation with that descriptor, offset and length stands last in issue order and PC stands 16 bytes on; LPUTM's first group is
then gathered where its reads can begin. Where the engine issues the legal frame and the named window is not open for another context: LPOST
with a legal length, a resolved Tally reference and (for a Bolt window) a range in the region records the window's context, generation,
base, length, kind, rights and word; LCLOSE removes the entry. Every other window, every register but PC, every other engine and the rest of
the state are as at issue. (R217, R218, R197, R198, R348, R366, R189, R216) -/
def Obligations.LinkOperationsAndReceiveWindowsStart : Prop :=
  (
  (∀ p ∈ ([(.lput, [], fun _ => true, fun s _ f d off len a => .lput d off len (snapOf (clOf s (f.2 / 4)).bolt a len)),
      (.lget, [], fun _ => true, fun _ _ _ d off len _ => .lget d off len),
      (.lred, [(80, 2), (76, 4)], fun f => lowField f 80 2 ≤ 1 && lowField f 76 4 ≤ 1, fun s _ f d off len a =>
        .lred d off len (lowField f.1 80 2) (lowField f.1 76 4) (snapOf (clOf s (f.2 / 4)).bolt a len))] :
      List ((Nat → Frame → Sys2Proof.Instr) × List (Nat × Nat) × (Frame → Bool) ×
        (State → Engine → Frame × Nat → BitVec 256 → Nat → Nat → Nat → AKind))),
    ∀ (e a : Nat) (w : Option (Nat × Nat)) (f : Frame) (s : State),
    let o := infoL [.d, .s, .s, .s] ((82, 2) :: p.2.1)
    issues o (caLegal f && p.2.2.1 f) e f s = true →
    let u := atIssue o e s
    let g := engOf u e
    let d := dGet g (slotOf f 0).2
    let off := (srcS g f 1).toNat
    let len := (srcS g f 2).toNat
    linkLegal d = true → lenLegal len = true → lkeyInRange u g.who.1 (linkOf d).lkey = true →
    boltAt u (e / 4) g.who.1 g.who.2 off len = some a → completionWord u g f = .ok w → asyncCount u e < 16 →
    Ends (p.1 e f) s fun t => Started e w false (p.2.2.2 u g (f, e) d off len a) u t) ∧
  (∀ (e : Nat) (w : Option (Nat × Nat)) (f : Frame) (s : State),
    let o := infoL [.d, .d, .s, .s] [(82, 2), (13, 13), (0, 13)]
    issues o (caLegal f) e f s = true →
    let u := atIssue o e s
    let g := engOf u e
    let l := dGet g (slotOf f 0).2
    let d := dGet g (slotOf f 1).2
    let rows := lowField f 13 13 + 1
    let cols := lowField f 0 13 + 1
    let win := winOf (srcS g f 2) rows cols
    let im := imageOf u (engWho u e g.who.1 g.who.2 g.bwclass) (linkOf l).lkey d (srcS g f 2) rows cols
    linkLegal l = true → tensorLegal d = true → winLegal (tensorOf d) win = true → lkeyInRange u g.who.1 (linkOf l).lkey = true →
    ∀ i : Image, im.2 = .ok i → lenLegal i.size = true → clear im.1 = true → completionWord im.1 g f = .ok w → asyncCount im.1 e < 16 →
    Ends (.lputm e f) s fun t => ∃ v : State, t = setPc (tryFeed v im.1.fresh) e (g.pc + 16) ∧
      Started e w false (.lputm l d (srcS g f 2) rows cols i.size) im.1 (setPc v e (g.pc + 16)))) ∧
  (
  (∀ (e h i : Nat) (f : Frame) (s : State),
    let o := infoL [.s, .s, .s, .s] [(81, 1), (80, 1), (79, 1)]
    issues o true e f s = true →
    let u := atIssue o e s
    let g := engOf u e
    let n := field (srcS g f 0) 0 12
    let base := (srcS g f 1).toNat
    let len := (srcS g f 2).toNat
    lenLegal len = true → tallyRef u g.who.1 (srcS g f 3) = .ok (.word h i) →
    (lowField f 81 1 = 1 ∨ (boltAt u (e / 4) g.who.1 g.who.2 base len).isSome = true) →
    (∀ x ∈ u.windows, x.1 = n → (x.2.ctx, x.2.gen) = g.who) →
    Ends (.lpost e f) s fun t => OnlyEngine e u { t with windows := u.windows } ∧ Retired e u t ∧ { engOf t e with pc := g.pc } = g ∧
      ∀ (k : Nat) (d : RWin), mget d t.windows k = if k = n then
        ⟨g.who.1, g.who.2, base, len, lowField f 81 1 = 1, lowField f 80 1 = 1, lowField f 79 1 = 1, some (h, i), e⟩
        else mget d u.windows k) ∧
  (∀ (e : Nat) (f : Frame) (s : State), issues (infoL [.s] []) true e f s = true →
    let u := atIssue (infoL [.s] []) e s
    let g := engOf u e
    let n := field (srcS g f 0) 0 12
    (∀ x ∈ u.windows, x.1 = n → (x.2.ctx, x.2.gen) = g.who) →
    Ends (.lclose e f) s fun t => OnlyEngine e u { t with windows := u.windows } ∧ Retired e u t ∧ { engOf t e with pc := g.pc } = g ∧
      ∀ (k : Nat) (d : RWin), mget d t.windows k = if k = n then d else mget d u.windows k))

/-- Vector instructions, VZERO and VRED complete: every element of the destination is as computed and nothing else changes. VCVT, VADD, VSUB,
VMUL, VMIN, VMAX, VFMA, VUN, VDROP, VRAND: where the engine issues the legal frame, every view named meets R161 and is dense in a vector
format, sources match the destination's shape and overlap it only as the same view, no word of them holds a bit error and no injection is
armed, exec answers a next state in which row r of the destination holds the packed encodings of the operation's results under RND, SAT and
STREAM, every scratchpad byte outside the destination's extent, every register but PC, every other engine and the rest of the state are as
at issue. Where the engine issues a legal VZERO on a view that R161 accepts and of which no word holds a bit error, every byte of the extent
reads 0 afterwards. Where it issues a legal VRED from a dense source view to a one-column view of the same rows that it does not overlap, no
word of them holds a bit error and no injection is armed, row r of the destination holds the converted reduction of source row r. In both,
scratchpad bytes outside the extent, every register but PC, every other engine and the rest of the state are as at issue. (R96, R97, R98,
R106, R230, R231, R232, R234) -/
def Obligations.VectorInstructionsWriteTheirDestination : Prop :=
  (
  ∀ p ∈ ([(.vcvt, [.t, .st], [1], false, fun _ => true, fun _ _ _ xs _ => v0 xs),
      (.vadd, [.t, .st, .st], [1, 2], false, fun _ => true, fun _ _ _ xs _ => FV.add (v0 xs) (v1 xs)),
      (.vsub, [.t, .st, .st], [1, 2], false, fun _ => true, fun _ _ _ xs _ => FV.add (v0 xs) (v1 xs).neg),
      (.vmul, [.t, .st, .st], [1, 2], false, fun _ => true, fun _ _ _ xs _ => FV.mul (v0 xs) (v1 xs)),
      (.vmin, [.t, .st, .st], [1, 2], false, fun _ => true, fun _ _ _ xs _ => FV.min2 (v0 xs) (v1 xs)),
      (.vmax, [.t, .st, .st], [1, 2], false, fun _ => true, fun _ _ _ xs _ => FV.max2 (v0 xs) (v1 xs)),
      (.vfma, [.t, .st, .st, .st], [1, 2, 3], false, fun _ => true, fun _ _ _ xs _ => FV.add (FV.mul (v0 xs) (v1 xs)) (v2 xs)),
      (.vun, [.t, .st], [1], true, fun f => lowField f 0 4 ≤ 10, fun _ _ f xs _ => vun (lowField f 0 4) (rnd32 (v0 xs))),
      (.vdrop, [.t, .st, .s], [1], false, fun _ => true, fun s g f xs i => dropElem (v0 xs) (elemBits s g (lowField f 63 16) i)
        (field (srcS g f 2) 32 16) (f32 (field (srcS g f 2) 0 32))),
      (.vrand, [.t], [], false, fun _ => true, fun s g f _ i => .fin false (elemBits s g (lowField f 63 16) i) (-16))] :
      List ((Nat → Frame → Sys2Proof.Instr) × List SlotKind × List Nat × Bool × (Frame → Bool) ×
        (State → Engine → Frame → List FV → Nat → FV))),
    ∀ (e : Nat) (f : Frame) (s : State),
    let o : OpInfo := ⟨.opening, 5, p.2.1, vecFields p.2.2.2.1⟩
    issues o (lowField f 80 2 ≠ 3 && p.2.2.2.2.1 f) e f s = true →
    let u := atIssue o e s
    let g := engOf u e
    let vd := viewOf (tGet g (slotOf f 0).2)
    let xs := p.2.2.1.map (srcOf g f)
    let vs := srcViews xs
    (∀ v ∈ vd :: vs, viewFault v false = none ∧ vecView v = true ∧ v.rows = vd.rows ∧ v.cols = vd.cols) →
    (∀ v ∈ vs, vd.overlaps v = true → sameView vd v = true) → quiet u = true →
    (∀ v ∈ vd :: vs, anyBad g.spadBad v.base v.extent = false) →
    Ends (p.1 e f) s fun t => OnlyEngine e u t ∧ Retired e u t ∧ { engOf t e with spad := g.spad, pc := g.pc } = g ∧
      (∀ r < vd.rows, bread (engOf t e).spad (vd.row r) vd.rowBytes = packBytes (fmtWidth vd.fmt) ((List.range vd.cols).map fun c =>
        (fmtEncode vd.fmt (rv32 (p.2.2.2.2.2 u g f (xs.map fun x => (srcRow g vd.cols r x).getD c .zero) (r * vd.cols + c)))
          (if vd.fmt = 0 then 0 else lowField f 80 2) (lowField f 79 1 = 1) (elemBits u g (lowField f 63 16) (r * vd.cols + c))).1)) ∧
      (∀ x, (x < vd.base ∨ vd.base + vd.extent ≤ x) → bget (engOf t e).spad x = bget g.spad x)) ∧
  (
  (∀ (e : Nat) (f : Frame) (s : State),
    let o : OpInfo := ⟨.opening, 5, [.t], []⟩
    issues o true e f s = true →
    let u := atIssue o e s
    let g := engOf u e
    let v := viewOf (tGet g (slotOf f 0).2)
    viewFault v false = none → anyBad g.spadBad v.base v.extent = false →
    Ends (.vzero e f) s fun t => OnlyEngine e u t ∧ Retired e u t ∧ { engOf t e with spad := g.spad, pc := g.pc } = g ∧
      ∀ x, bget (engOf t e).spad x = if v.base ≤ x ∧ x < v.base + v.extent then 0 else bget g.spad x) ∧
  (∀ (e : Nat) (v : View) (f : Frame) (s : State),
    let o : OpInfo := ⟨.opening, 5, [.t, .st], vecFields true⟩
    issues o (lowField f 80 2 ≠ 3 && lowField f 0 4 ≤ 3) e f s = true →
    let u := atIssue o e s
    let g := engOf u e
    let vd := viewOf (tGet g (slotOf f 0).2)
    (slotOf f 1).1 = 3 → v = viewOf (tGet g (slotOf f 1).2) → viewFault vd false = none → viewFault v false = none →
    vecView vd = true → vecView v = true → vd.cols = 1 → vd.rows = v.rows → vd.overlaps v = false →
    quiet u = true → anyBad g.spadBad vd.base vd.extent = false → anyBad g.spadBad v.base v.extent = false →
    Ends (.vred e f) s fun t => OnlyEngine e u t ∧ Retired e u t ∧ { engOf t e with spad := g.spad, pc := g.pc } = g ∧
      (∀ r < vd.rows, bread (engOf t e).spad (vd.row r) vd.rowBytes = packBytes (fmtWidth vd.fmt)
        [(fmtEncode vd.fmt (rv32 (vred (lowField f 0 4) (rowVals g v r))) (if vd.fmt = 0 then 0 else lowField f 80 2)
          (lowField f 79 1 = 1) (elemBits u g (lowField f 63 16) r)).1]) ∧
      (∀ x, (x < vd.base ∨ vd.base + vd.extent ≤ x) → bget (engOf t e).spad x = bget g.spad x)))

/-- MMA completes with every element of C the Heddle walk of its fibres of A and B, added to the old element where ACC is set. Where the engine
issues a legal MMA whose views raise no fault of R224, whose operand fibres read without error, of whose views no word holds a bit error,
with no injection armed, exec answers a next state in which row r of C holds the FP32 encodings of the elements that the steps of the paired
fibres of row r of A and the rows of B give, starting from the old element with ACC and from zero without; scratchpad bytes outside C's
extent, every register but PC, every other engine and the rest of the state are as at issue. (R82, R83, R88, R223, R224, R225, R226) -/
def Obligations.MmaComputesEveryOutputElement : Prop :=
  ∀ (e : Nat) (fas fbs : List Fibre) (f : Frame) (s : State),
    let o : OpInfo := ⟨.opening, 4, [.t, .t, .t], [(10, 1), (9, 1), (8, 1), (4, 4), (0, 4)]⟩
    issues o true e f s = true →
    let u := atIssue o e s
    let g := engOf u e
    let vc := viewOf (tGet g (slotOf f 0).2)
    let va := viewOf (tGet g (slotOf f 1).2)
    let vb := viewOf (tGet g (slotOf f 2).2)
    let sa := viewOf (tGet g (lowField f 4 4))
    let sb := viewOf (tGet g (lowField f 0 4))
    let scA := fun r => if isMx va.fmt then scaleRow g sa r else []
    let scB := fun r => if isMx vb.fmt then scaleRow g sb r else []
    let acc := lowField f 8 1 = 1
    let pr := (pairing va.fmt vb.fmt).getD (1, false)
    mmaFault vc va vb sa sb (lowField f 9 1 = 1) (lowField f 10 1 = 1) (lowField f 4 4) (lowField f 0 4) = none →
    operandFibres g va (lowField f 9 1 = 1) scA = .ok fas → operandFibres g vb (lowField f 10 1 = 1) scB = .ok fbs →
    quiet u = true → (∀ v ∈ [vc, va, vb] ++ (if isMx va.fmt then [sa] else []) ++ (if isMx vb.fmt then [sb] else []),
      anyBad g.spadBad v.base v.extent = false) →
    Ends (.mma e f) s fun t => OnlyEngine e u t ∧ Retired e u t ∧ { engOf t e with spad := g.spad, pc := g.pc } = g ∧
      (∀ r < vc.rows, bread (engOf t e).spad (vc.row r) vc.rowBytes = packBytes 32 ((List.range vc.cols).map fun c =>
        rnd32 (mmaElem (if acc then (rowVals g vc r).getD c .zero else .zero) (fas.getD r []) (fbs.getD c []) (scA r) (scB c)
          (isMx va.fmt) (isMx vb.fmt) va.cols pr.1 pr.2))) ∧
      (∀ x, (x < vc.base ∨ vc.base + vc.extent ≤ x) → bget (engOf t e).spad x = bget g.spad x)

/-- EPI completes with every destination element the scaled source element converted, and its statistics slot has observed them. Where the
engine issues a legal EPI from an FP32 view to a dense vector-format view of the same shape that overlaps it only as the same FP32 view, a
named statistics slot is attached, no word of the views holds a bit error and no injection is armed, exec answers a next state in which row
r of the destination holds the conversions of each source element times the two scales of slot 2 times the scale of slot 3. With STAT the
slot has observed, in row order, each source element times the scales of slot 2, and its saturation count rose by one for each conversion
that saturated (for FP32, each result beyond the range: the model's choice, log entry 154); without STAT no slot changes. Scratchpad bytes
outside the destination's extent, every other slot, the registers but PC, every other engine and the rest of the state are as at issue.
(R88, R99, R228, R229) -/
def Obligations.EpiScalesAndConverts : Prop :=
  ∀ (e : Nat) (f : Frame) (s : State),
    let o : OpInfo := ⟨.opening, 4, [.t, .t, .s, .s], [(80, 2), (79, 1), (63, 16), (2, 1), (0, 2)]⟩
    issues o (lowField f 80 2 ≠ 3) e f s = true →
    let u := atIssue o e s
    let g := engOf u e
    let vy := viewOf (tGet g (slotOf f 0).2)
    let vc := viewOf (tGet g (slotOf f 1).2)
    let slot := lowField f 0 2
    let q := fun r c => FV.mul ((rowVals g vc r).getD c .zero) (FV.mul (scaleOperand g f 2 0) (scaleOperand g f 2 32))
    let y := fun r c => FV.mul (q r c) (scaleOperand g f 3 0)
    let cell := fun r c => fmtEncode vy.fmt (rv32 (y r c)) (if vy.fmt = 0 then 0 else lowField f 80 2) (lowField f 79 1 = 1)
      (elemBits u g (lowField f 63 16) (r * vc.cols + c))
    let sees := fun (x : StatSlot) (p : Nat × Nat) =>
      let x := x.observe (rv32 (q p.1 p.2))
      if (cell p.1 p.2).2 || (vy.fmt = 0 && over32 (y p.1 p.2)) then { x with sat := satAdd top32 x.sat 1 } else x
    viewFault vy false = none → viewFault vc false = none → vecView vy = true → vc.fmt = 0 → vc.spc = 0 → vy.rows = vc.rows →
    vy.cols = vc.cols → (lowField f 2 1 = 1 → (statOf g slot).isSome = true) →
    (vy.overlaps vc = true → vy.fmt = 0 ∧ sameView vy vc = true) → quiet u = true →
    anyBad g.spadBad vy.base vy.extent = false → anyBad g.spadBad vc.base vc.extent = false →
    Ends (.epi e f) s fun t => OnlyEngine e u t ∧ Retired e u t ∧
      { engOf t e with spad := g.spad, stats := g.stats, pc := g.pc } = g ∧ (lowField f 2 1 = 0 → (engOf t e).stats = g.stats) ∧
      (∀ j, j ≠ slot → statOf (engOf t e) j = statOf g j) ∧
      (∀ x, lowField f 2 1 = 1 → statOf g slot = some x → statOf (engOf t e) slot =
        some (((List.range vy.rows).flatMap fun r => (List.range vy.cols).map fun c => (r, c)).foldl sees x)) ∧
      (∀ r < vy.rows, bread (engOf t e).spad (vy.row r) vy.rowBytes =
        packBytes (fmtWidth vy.fmt) ((List.range vy.cols).map fun c => (cell r c).1)) ∧
      (∀ x, (x < vy.base ∨ vy.base + vy.extent ≤ x) → bget (engOf t e).spad x = bget g.spad x)

/-- Statistics instructions change their slot or write its record; TTEST reads its condition word. Where the engine issues the legal frame and
the operands meet the rules: SATT leaves slot SLOT with EBASE and zero counts; SOBS leaves it with every element of the view observed in row
order; SST starts an asynchronous write of the slot's 160-byte record to the 32-byte aligned address and clears the slot; HUPD puts an
update of the 128-byte aligned history record from N_M1 + 1 statistics records last in issue order (marked, with every outstanding update of
that record, where there is one, R103) and lets what stands behind no queued prefetch into the fabric, where its reads wait for no earlier
access. PC stands 16 bytes on; SATT, SOBS and SST leave every other slot, register and engine as at issue. Where the engine issues a legal
TTEST, with SKIP outside a tile, the condition word lies in the context's region, holds no bit error and no injection is armed: p[slot0]
(unless p0) holds whether the count is not 0 or the selected mask bit is 1 (of a byte that an incomplete transfer writes, its value before
or after it, R163). Without SKIP or with a true condition PC stands 16 bytes on and the tile is open; with SKIP and a false condition the
tile is closed, no view is left, and PC is the PC of the instruction plus the sign-extended OFF. (R99, R100, R103, R235, R236, R238, R239,
R189, R143, R163, R241, R242) -/
def Obligations.StatisticsAndTileTests : Prop :=
  (
  let put (g : Engine) (i : Nat) (x : StatSlot) (h : Engine) : Prop :=
    { h with stats := g.stats, pc := g.pc } = g ∧ ∀ (j : Nat) (d : StatSlot), mget d h.stats j = if j = i then x else mget d g.stats j
  (∀ (e : Nat) (f : Frame) (s : State), issues ⟨.opening, 5, [], [(8, 8), (0, 2)]⟩ true e f s = true →
    let u := atIssue ⟨.opening, 5, [], [(8, 8), (0, 2)]⟩ e s
    Ends (.satt e f) s fun t => OnlyEngine e u t ∧ Retired e u t ∧
      put (engOf u e) (lowField f 0 2) ⟨lowField f 8 8, [], 0, 0, 0, 0⟩ (engOf t e)) ∧
  (∀ (e : Nat) (x : StatSlot) (f : Frame) (s : State), issues ⟨.opening, 5, [.zero, .t], [(0, 2)]⟩ true e f s = true →
    let u := atIssue ⟨.opening, 5, [.zero, .t], [(0, 2)]⟩ e s
    let g := engOf u e
    let v := viewOf (tGet g (slotOf f 1).2)
    viewFault v false = none → vecView v = true → statOf g (lowField f 0 2) = some x → quiet u = true →
    anyBad g.spadBad v.base v.extent = false →
    Ends (.sobs e f) s fun t => OnlyEngine e u t ∧ Retired e u t ∧
      put g (lowField f 0 2) (((List.range v.rows).flatMap (rowVals g v)).foldl StatSlot.observe x) (engOf t e)) ∧
  (∀ (e : Nat) (x : StatSlot) (w : Option (Nat × Nat)) (f : Frame) (s : State),
    let o : OpInfo := ⟨.opening, 5, [.s, .zero, .zero, .s], [(82, 2), (0, 2)]⟩
    issues o (caLegal f) e f s = true →
    let u := atIssue o e s
    let g := engOf u e
    statOf g (lowField f 0 2) = some x → (srcS g f 0).toNat % 32 = 0 → completionWord u g f = .ok w → asyncCount u e < 16 →
    Ends (.sst e f) s fun t => Retired e u t ∧ put g (lowField f 0 2) ⟨x.ebase, [], 0, 0, 0, 0⟩ (engOf t e) ∧
      OnlyEngine e u { t with asyncs := u.asyncs, fresh := u.fresh } ∧
      ∃ a : AsyncOp, t.asyncs = u.asyncs ++ [a] ∧ a.eng = e ∧ (a.ctx, a.gen) = g.who ∧ a.kind = .write [((srcS g f 0).toNat, statRecord x)] ∧
        a.word = w ∧ a.queued = false) ∧
  (∀ (e : Nat) (w : Option (Nat × Nat)) (f : Frame) (s : State),
    let o : OpInfo := ⟨.opening, 5, [.s, .s, .zero, .s], [(82, 2), (0, 8)]⟩
    issues o (caLegal f) e f s = true →
    let u := atIssue o e s
    let g := engOf u e
    let hist := (srcS g f 0).toNat
    let twin := fun (x : AsyncOp) => match x.kind with
      | .hupd r _ _ _ => decide (r = hist ∧ (x.ctx, x.gen) = g.who)
      | _ => false
    let a : AsyncOp :=
      { id := u.fresh, eng := e, ctx := g.who.1, gen := g.who.2, bwclass := g.bwclass, word := w, queued := false, reserved := 0,
        kind := .hupd hist (srcS g f 1).toNat (lowField f 0 8 + 1) none, groups := 0, got := [], tile := false, cut := false,
        err := none, soft := none, moved := none, past := [], clash := false }
    let v : State :=
      { u with
        fresh := u.fresh + 1
        asyncs := ((u.asyncs.map fun x => if twin x then { x with clash := true } else x) ++ [a]).map fun x =>
          if x.id = u.fresh then { x with clash := u.asyncs.any twin } else x }
    hist % 128 = 0 → (srcS g f 1).toNat % 32 = 0 → completionWord u g f = .ok w → asyncCount u e < 16 →
    clear (enterFabric v e) = true → Ends (.hupd e f) s fun t => t = setPc (enterFabric v e) e (g.pc + 16))) ∧
  (
  ∀ (e a : Nat) (f : Frame) (s : State),
    let o : OpInfo := ⟨.opening, 7, [.p], [(83, 1), (80, 1), (74, 6), (52, 22), (0, 32)]⟩
    let skip := lowField f 83 1 = 1
    let mask := decide (lowField f 80 1 = 1)
    issues o ((!mask || lowField f 52 2 = 0) && lowField f 0 4 = 0 && (lowField f 83 1 = 1 || lowField f 0 32 = 0)) e f s = true →
    (skip → (engOf s e).tileOpen = false) →
    let u := atIssue o e s
    let g := engOf u e
    boltAt u (e / 4) g.who.1 g.who.2 (2 * lowField f 52 22) (if mask then 8 else 2) = some a →
    let n := if mask then 8 else 2
    quiet u = true → anyBad (clOf u (e / 4)).boltBad a n = false →
    Ends (.ttest e f) s fun t => ∃ bs : List Sys2Proof.Byte, bs.length = n ∧
      (∀ i < n, bs.getD i 0 = bget (clOf u (e / 4)).bolt (a + i) ∨
        ∃ x ∈ boltAlts u (e / 4) g.who.1 g.who.2 (2 * lowField f 52 22) a n, bs.getD i 0 = x.getD i (bget (clOf u (e / 4)).bolt (a + i))) ∧
      let r := condTrue bs mask (lowField f 74 6)
      (∀ k, k ≠ e → engOf t k = engOf u k) ∧ { t with engines := u.engines, asyncs := u.asyncs, fresh := u.fresh } = u ∧
      (∀ k, pGet (engOf t e) k = if k = (slotOf f 0).2 ∧ k ≠ 0 then r else pGet g k) ∧ (engOf t e).s = g.s ∧ (engOf t e).d = g.d ∧
      (r = true ∨ ¬ skip → Retired e u t ∧ t.asyncs = u.asyncs ∧ (engOf t e).tileOpen = true ∧ (engOf t e).t = g.t ∧ (engOf t e).spad = g.spad) ∧
      (r = false ∧ skip → (t.asyncs = u.asyncs.map fun a => if a.eng = e then { a with tile := false } else a) ∧
        (engOf t e).tileOpen = false ∧ (engOf t e).t = [] ∧
        (engOf t e).pc = (BitVec.ofNat 64 g.pc + (BitVec.ofNat 32 (lowField f 0 32)).signExtend 64).toNat % 2 ^ 52))

/-- ROUTE, XGATH, XSCAT, TOPK and TEXP complete by joining the Shuttle queue of their cluster with their operands. Where the engine issues the
legal frame, the descriptor or view, the alignments and reserved bits of the operands meet the instruction's rules, its Shuttle addresses
and Bolt ranges lie where they may, the completion reference resolves, fewer than 4 Shuttle operations of the engine are outstanding and its
context is not being torn down, exec answers a next state in which an operation with the opcode, operand values, descriptor or view, step
and completion word stands last in the cluster's queue, not started. PC stands 16 bytes on, but for a ROUTE from a view, which stays in
issue; the rest of the state but the draw counter is as at issue. (R148, R240, R243, R245, R248, R249, R250, R251) -/
def Obligations.ShuttleInstructionsJoinTheQueue : Prop :=
  (∀ (e : Nat) (w : Option (Nat × Nat)) (f : Frame) (s : State),
    let o := infoH [.td, .s, .s, .s] [(82, 2), (81, 1), (80, 1), (77, 3)]
    issues o (caLegal f) e f s = true →
    let u := atIssue o e s
    let g := engOf u e
    let p := srcS g f 2
    let t := field p 24 13 + 1
    let ex := field p 16 8 + 1
    let k := lowField f 77 3 + 1
    let v := viewOf (tGet g (slotOf f 0).2)
    let x := tensorOf (dGet g (slotOf f 0).2)
    k ≤ ex → field p 37 27 = 0 → field (srcS g f 1) 0 7 = 0 → shuttleMay u e [(srcS g f 1, areaBytes t k)] [] = true →
    completionWord u g f = .ok w →
    ((slotOf f 0).1 = 3 → viewFault v false = none → v.fmt ≤ 1 → v.spc = 0 → v.rows = t → v.cols = ex →
      Ends (.route e f) s (ShuttleQueued e f 0xE1 (0, srcS g f 1, p) 0 (some (tGet g (slotOf f 0).2)) w u)) ∧
    ((slotOf f 0).1 ≠ 3 → tensorLegal (dGet g (slotOf f 0).2) = true → x.fmt ≤ 1 → x.spc = 0 → x.rows = t → x.cols = ex →
      Ends (.route e f) s (ShuttleQueued e f 0xE1 (0, srcS g f 1, p) (dGet g (slotOf f 0).2) none w u))) ∧
  (∀ (e : Nat) (w : Option (Nat × Nat)) (f : Frame) (s : State),
    let o := infoH [.d, .s, .s, .s] [(82, 2), (0, 23)]
    issues o (caLegal f) e f s = true →
    let u := atIssue o e s
    let g := engOf u e
    shTensorLegal (dGet g (slotOf f 0).2) = true → field (srcS g f 1) 0 7 = 0 → field (srcS g f 2) 8 56 = 0 → lowField f 0 23 % 8 = 0 →
    shuttleMay u e [(srcS g f 1, 1600)] [(lowField f 0 23, 2048)] = true → completionWord u g f = .ok w →
    Ends (.xgath e f) s (ShuttleQueued e f 0xE2 (0, srcS g f 1, srcS g f 2) (dGet g (slotOf f 0).2) none w u)) ∧
  (∀ (e : Nat) (w : Option (Nat × Nat)) (f : Frame) (s : State),
    let o := infoH [.d, .s, .s, .s] [(82, 2), (80, 2), (79, 1), (63, 16), (62, 1), (0, 23)]
    issues o (caLegal f && lowField f 80 2 ≠ 3) e f s = true →
    let u := atIssue o e s
    let g := engOf u e
    rowTensorLegal (dGet g (slotOf f 0).2) = true → field (srcS g f 1) 0 7 = 0 → field (srcS g f 2) 29 35 = 0 →
    field (srcS g f 2) 13 3 = 0 → lowField f 0 23 % 8 = 0 →
    shuttleMay u e [(srcS g f 1, 1600)] [(lowField f 0 23, 2048)] = true → completionWord u g f = .ok w →
    Ends (.xscat e f) s (ShuttleQueued e f 0xE3 (0, srcS g f 1, srcS g f 2) (dGet g (slotOf f 0).2) none w u)) ∧
  (∀ (e : Nat) (w : Option (Nat × Nat)) (f : Frame) (s : State),
    let o := infoH [.s, .s, .s, .s] [(82, 2), (80, 2), (79, 1), (63, 16), (62, 1), (59, 3), (57, 2), (0, 24)]
    issues o (caLegal f && lowField f 80 2 ≠ 3 && lowField f 59 3 ≤ 5) e f s = true →
    let u := atIssue o e s
    let g := engOf u e
    let l := lowField f 0 24 + 1
    field (srcS g f 0) 0 6 = 0 → field (srcS g f 1) 0 6 = 0 → field (srcS g f 2) 0 4 = 0 →
    shuttleMay u e [(srcS g f 0, l * (if lowField f 62 1 = 1 then 2 else 4)), (srcS g f 1, 4 * l),
      (srcS g f 2, ceilDiv l 128 * topkBytes (2 ^ lowField f 59 3) (vfmtOf (lowField f 57 2)).2)] [] = true →
    completionWord u g f = .ok w →
    Ends (.topk e f) s (ShuttleQueued e f 0xE4 (srcS g f 0, srcS g f 1, srcS g f 2) 0 none w u)) ∧
  (∀ (e : Nat) (w : Option (Nat × Nat)) (f : Frame) (s : State),
    let o := infoH [.s, .s, .zero, .s] [(82, 2), (59, 3), (57, 2), (0, 24)]
    issues o (caLegal f && lowField f 59 3 ≤ 5) e f s = true →
    let u := atIssue o e s
    let g := engOf u e
    let l := lowField f 0 24 + 1
    field (srcS g f 1) 0 6 = 0 →
    shuttleMay u e [(srcS g f 0, ceilDiv l 128 * topkBytes (2 ^ lowField f 59 3) (vfmtOf (lowField f 57 2)).2), (srcS g f 1, 4 * l)] [] = true →
    completionWord u g f = .ok w →
    Ends (.texp e f) s (ShuttleQueued e f 0xE5 (srcS g f 0, srcS g f 1, 0) 0 none w u))

/-- Shuttle runs one operation of a cluster at a time, and asynchronous operations complete once. In a cluster that runs, is not fenced and
holds no SAFE hold, where the oldest operation o has not started, its engine's requests wait for no window and no access of it waits, START
answers what running o leaves (after reading the view of a ROUTE, whose words have no uncorrectable error, which also retires the ROUTE),
with o marked started, its ranges and its error noted. Where o has started and no access waits, COMPLETE answers a next state in which the
cluster's queue is the rest, the errors of requests are the old ones and o's, and the Tally ports' queues are as before but for one ADD of 1
to o's completion word at the end of its engine's port. For an operation that is outstanding and not queued, while the block runs and no
access waits, ASYNC_OPERATION_COMPLETE answers a next state: of a link operation complete under R357, or of another operation with none of
its engine queued before it and no request that waits for a window. The outstanding operations are then the old ones without it, and an ADD
of 1 to its completion word stands last in its Tally port's queue. For the oldest queued prefetch of an engine, where no access waits,
PREFETCH_DEQUEUE answers a next state: without a condition the prefetch is queued no more and every other operation stands; with a condition
whose word in the Bolt buffer has no error, it is queued no more where the condition is true and is complete where it is false. (R148, R190,
R243, R247, R144, R191, R267, R357) -/
def Obligations.ShuttleAndAsynchronousOperationsComplete : Prop :=
  (
  (∀ (c : Nat) (o : ShOp) (rest : List ShOp) (s : State), c < s.cfg.clusters → (clOf s c).shuttle = o :: rest → o.started = false →
    blockRuns s = true → s.fc.clFenced.contains c = false → s.fc.blockSafe = false → (∀ h ∈ s.fc.safe, ¬ (h.2.1 = 2 ∧ h.2.2 = c)) →
    bwWaits s (engWho s o.eng o.ctx o.gen o.bwclass).attr = false →
    let u := logicAccess s 4 c 0
    let v := match o.view with
      | some w => (spadChecked u o.eng (viewOf w).base (viewOf w).extent).1
      | none => u
    (∀ w, o.view = some w → (spadChecked u o.eng (viewOf w).base (viewOf w).extent).2 = false) →
    let r : ShRun := runShuttle v o
    clear r.1 = true →
    Ends (.shuttleOperationStart c) s fun t =>
      (clOf t c).shuttle = ((clOf r.1 c).shuttle.map fun x =>
        if x.id = o.id then { x with started := true, wrote := r.2.1, past := (clOf v c).bolt, err := r.2.2 } else x) ∧
      { clOf t c with shuttle := (clOf r.1 c).shuttle } = clOf r.1 c ∧ (∀ k, k ≠ c → clOf t k = clOf r.1 k) ∧
      { t with clusters := r.1.clusters, engines := r.1.engines } = r.1 ∧ (∀ k, k ≠ o.eng → engOf t k = engOf r.1 k) ∧
      { engOf t o.eng with pc := (engOf r.1 o.eng).pc } = engOf r.1 o.eng ∧
      (o.view = none → (engOf t o.eng).pc = (engOf r.1 o.eng).pc) ∧ (o.view ≠ none → Retired o.eng r.1 t)) ∧
  (∀ (c : Nat) (o : ShOp) (rest : List ShOp) (s : State), c < s.cfg.clusters → (clOf s c).shuttle = o :: rest → o.started = true →
    clear s = true →
    Ends (.shuttleOperationComplete c) s fun t => (clOf t c).shuttle = rest ∧ (∀ k, k ≠ c → clOf t k = clOf s k) ∧
      { clOf t c with shuttle := (clOf s c).shuttle } = clOf s c ∧
      t.reqErrs = s.reqErrs ++ (match o.err with | some x => [⟨o.ctx, o.gen, o.eng, codeKey x, x / 65536⟩] | none => []) ∧
      ∀ h p, mget [] (tallyOf t h).queues p = mget [] (tallyOf s h).queues p ++ (match o.word with
        | some (k, j) => if k = h ∧ p = engPort s.cfg h o.eng then
            [⟨.add, poolBase + 8 * j, 1, o.eng, o.ctx, .action o.eng o.ctx o.gen, s.fresh⟩] else []
        | none => []))) ∧
  (
  let link : AKind → Bool := fun k => match k with
    | .lput _ _ _ _ | .lputm _ _ _ _ _ _ | .lred _ _ _ _ _ _ | .lget _ _ _ => true
    | .pref _ _ _ _ _ _ _ | .push _ _ _ _ _ _ _ | .gath _ _ _ | .scat _ _ _ _ | .write _ | .hupd _ _ _ _ => false
  (∀ (id : Nat) (a : AsyncOp) (s : State), (s.asyncs.find? fun x => x.id = id) = some a → a.queued = false → blockRuns s = true →
    (link a.kind = true → linkComplete s a = true ∧ clear s = true) →
    (link a.kind = false → (∀ x ∈ s.asyncs.takeWhile (fun x => x.id ≠ id), ¬ (x.eng = a.eng ∧ x.queued = true)) ∧
      bwWaits s (engWho s a.eng a.ctx a.gen a.bwclass).attr = false ∧ clear (completeMove s a) = true) →
    Ends (.asyncOperationComplete id) s fun t =>
      (t.asyncs.map fun x => x.id) = ((s.asyncs.filter fun x => x.id ≠ id).map fun x => x.id) ∧
      (link a.kind = true → t.asyncs = s.asyncs.filter fun x => x.id ≠ id) ∧
      (∀ h j, a.word = some (h, j) → ∃ q n,
        mget [] (tallyOf t h).queues (if link a.kind then linkDonePort s a h else engPort s.cfg h a.eng) =
          q ++ [⟨.add, poolBase + 8 * j, 1, a.eng, a.ctx, .action a.eng a.ctx a.gen, n⟩])) ∧
  (∀ (e : Nat) (a : AsyncOp) (s : State), s.cfg.hasEngine e = true → (s.asyncs.find? fun x => x.eng = e && x.queued) = some a →
    let out : State → State := fun u => { u with asyncs := u.asyncs.map fun x => if x.id = a.id then { x with queued := false } else x }
    (∀ d m org r c part, a.kind = .pref d m org r c part none → clear (enterFabric (out s) e) = true →
      Ends (.prefetchDequeue e) s fun t => t = enterFabric (out s) e ∧
        (t.asyncs.map fun x => (x.id, x.queued)) = (out s).asyncs.map fun x => (x.id, x.queued)) ∧
    (∀ d m org r c part mask cbit coff p, a.kind = .pref d m org r c part (some (mask, cbit, coff)) →
      boltAt s (e / 4) a.ctx a.gen coff (condBytes mask) = some p → (boltChecked s (e / 4) p (condBytes mask)).2 = false →
      let v := boltSeen (boltChecked s (e / 4) p (condBytes mask)).1 (e / 4) a.ctx a.gen coff p (condBytes mask)
      (condTrue v.2 mask cbit = true → clear (enterFabric (out v.1) e) = true →
        Ends (.prefetchDequeue e) s fun t => (t.asyncs.map fun x => (x.id, x.queued)) = (out s).asyncs.map fun x => (x.id, x.queued)) ∧
      (condTrue v.2 mask cbit = false → clear (enterFabric (finishAsync (returnReservation v.1 a) a none) e) = true →
        Ends (.prefetchDequeue e) s fun t => (t.asyncs.map fun x => (x.id, x.queued)) =
          (s.asyncs.filter fun x => x.id ≠ a.id).map fun x => (x.id, x.queued)))))

/-- A context switch detaches one context and attaches another; the end of a quantum asks for a switch. At an engine that is on and at a switch
point, with its cluster's Bolt buffer awake and no access waiting, CONTEXT_SWITCH without an incoming context answers a next state in which
the engine's record is that of an idle engine (its instruction cache, power phase and hand-over mark kept, its run starting now). With an
incoming context that can take the engine and is the next to do so, where the engine is not fenced, held, in EXTEST or being removed, the
engine holds that context at its generation with the s, d and p registers, PC, STEP and header address of its state record, no view and a
clear scratchpad; the context names the engine and is no longer among the ready ones. For an engine that runs a context of a slice whose
scheduler is present, with no switch requested and the quantum of the run at its end, where no access waits, exec answers a next state in
which only the engine's record changes: switch request and preemption are set where another ready context of the slice and class that waits
for an engine holds or can be given a region in the cluster, else a quantum of the run's class under the slice's registers (at least 1 us of
PCLK) starts at the present PCLK. (R166, R182, R183, R184, R255, R396, R420) -/
def Obligations.ContextSwitchesFollowRequestsAndQuanta : Prop :=
  (
  (∀ (e c gen : Nat) (s : State), s.cfg.hasEngine e = true → (engOf s e).ctx = some (c, gen) → switchPoint s (engOf s e) false = true →
    (engOf s e).phase = .on → boltAsleep s (e / 4) = false → clear (detach s e) = true →
    Ends (.contextSwitch e none) s fun t => engOf t e =
      { Engine.idle with icache := (engOf s e).icache, phase := .on, removing := (engOf s e).removing, runStart := s.pclk }) ∧
  (∀ (e c : Nat) (s : State), s.cfg.hasEngine e = true → switchPoint s (engOf s e) true = true → (engOf s e).phase = .on →
    boltAsleep s (e / 4) = false → engFencedAny s e = false → s.fc.blockSafe = false → s.lc.tap ≠ 3 → (engOf s e).removing = false →
    canTake s e c = true → takesNext s e c = true → clear (place (detach s e) e c) = true →
    let r := fromRecord (engOf (detach s e) e) (savedRecord (detach s e) c)
    Ends (.contextSwitch e (some c)) s fun t => (engOf t e).ctx = some (c, (ctxOf (detach s e) c).gen) ∧ (engOf t e).s = r.s ∧
      (engOf t e).d = r.d ∧ (engOf t e).p = r.p ∧ (engOf t e).t = [] ∧ (engOf t e).pc = r.pc ∧ (engOf t e).step = r.step ∧
      (engOf t e).hdr = r.hdr ∧ (engOf t e).spad = [] ∧ (engOf t e).spadBad = [] ∧ (ctxOf t c).eng = some e ∧ c ∉ t.sched.ready)) ∧
  (
  ∀ (e due : Nat) (s : State),
    let g := engOf s e
    let slice := (ctxOf s g.who.1).slice
    let q := 800 * max 1 (if g.lcRun then (slSchedOf s slice).qlc else (slSchedOf s slice).qbe)
    let rival : Nat → Prop := fun c => c ∈ s.sched.ready ∧ c ≠ g.who.1 ∧ (ctxOf s c).slice = slice ∧ ctxLc s c = g.lcRun ∧
      wantsEngine s c = true ∧ ((regionIn s (e / 4) c (ctxOf s c).gen).isSome = true ∨ canGive s c (e / 4) = true)
    s.cfg.hasEngine e = true → g.ctx.isSome = true → schedUp s g.who.1 = true → g.switchReq = false → g.quantum = some due →
    due ≤ s.pclk → clear s = true →
    Ends (.quantumExpiry e) s fun t => OnlyEngine e s t ∧
      ((∃ c, rival c) → engOf t e = { g with switchReq := true, preempt := true }) ∧
      ((∀ c, ¬ rival c) → engOf t e = { g with quantum := some (s.pclk + q) }))

/-- STATE_RECORD_SPILL, STATE_RECORD_FILL and BOLT_REGION_CLEAR_DONE complete with the region table entry they change. Where firmware may take
the region of a context (the one whose last step ended longest ago) for another, and no access waits, SPILL answers a next state in which
that entry of the cluster's table is no longer valid and is being cleared, the others stand, and the context counts an eviction and, where
the cluster held its record, has it in the spill area. Where a context may be given granules of a free entry within the slice's share, and
no access waits, FILL leaves the entry valid with that context, generation, base and size and the others standing. CLEAR_DONE leaves an
entry outside direct mode all zero, the Bolt bytes of its granules 0, every other Bolt byte and entry as before, and nothing outside the
cluster changed. (R258, R260, R400, R401, R402, R403) -/
def Obligations.BoltRegionsSpillFillAndClear : Prop :=
  (∀ (ctx c need i : Nat) (r : BoltRegion) (s : State),
    let x := ctxOf s ctx
    let y := ctxOf s need
    c < s.cfg.clusters → schedUp s need = true → mayLose s c ctx = true → x.slice = y.slice → y.state = .live → need ≠ ctx →
    regionIn s c need y.gen = none → shareOf s x.slice c < heldBy s x.slice c + y.bolt →
    (∀ q ∈ (clOf s c).regions, ¬ (mayLose s c q.2.ctx = true ∧ (ctxOf s q.2.ctx).slice = x.slice ∧ (ctxOf s q.2.ctx).lastEnd < x.lastEnd)) →
    ((clOf s c).regions.find? fun q => q.2.valid && q.2.ctx = ctx && q.2.gen = x.gen) = some (i, r) → boltRegion s c i = r →
    clear (if x.home = some c then
      (memWrite (boltSlot s c) (engWho s (lowestEng s x.slice c) ctx x.gen 0) .spa x.spill (savedRecord s ctx)).1 else s) = true →
    Ends (.stateRecordSpill ctx c need) s fun t => boltRegion t c i = { r with valid := false, clearing := true } ∧
      (∀ j, j ≠ i → boltRegion t c j = boltRegion s c j) ∧ (ctxOf t ctx).acc.evict = satAdd 0xFFFF x.acc.evict 1 ∧
      (x.home = some c → (ctxOf t ctx).home = none ∧ (ctxOf t ctx).spilled = true)) ∧
  (∀ (ctx c i base : Nat) (s : State),
    let x := ctxOf s ctx
    c < s.cfg.clusters → schedUp s ctx = true → x.state = .live → i < 64 → base + x.bolt ≤ 128 → regionIn s c ctx x.gen = none →
    (∃ e ∈ dEngines (descOf s x.slice), e / 4 = c) → (boltRegion s c i).valid = false → (boltRegion s c i).clearing = false →
    (∀ q ∈ (clOf s c).regions, (q.2.valid = true ∨ q.2.clearing = true) → base + x.bolt ≤ q.2.base ∨ q.2.base + q.2.size ≤ base) →
    heldBy s x.slice c + x.bolt ≤ shareOf s x.slice c →
    let u := modBoltRegion (boltSlot s c) c i fun _ => ⟨true, false, ctx, x.gen, base, x.bolt⟩
    clear (if x.spilled then (memRead u (engWho u (lowestEng u x.slice c) ctx x.gen 0) .spa x.spill 1024).1 else u) = true →
    Ends (.stateRecordFill ctx c i base) s fun t => boltRegion t c i = ⟨true, false, ctx, x.gen, base, x.bolt⟩ ∧
      (∀ j, j ≠ i → boltRegion t c j = boltRegion s c j) ∧ (ctxOf t ctx).spilled = false) ∧
  (∀ (c i : Nat) (s : State), c < s.cfg.clusters → i < 64 → (boltRegion s c i).clearing = true → directCtx s 0 = false → clear s = true →
    let r := boltRegion s c i
    Ends (.boltRegionClearDone c i) s fun t => boltRegion t c i = ⟨false, false, 0, 0, 0, 0⟩ ∧
      (∀ j, j ≠ i → boltRegion t c j = boltRegion s c j) ∧ (∀ k, k ≠ c → clOf t k = clOf s k) ∧ { t with clusters := s.clusters } = s ∧
      (mwf 0 (clOf s c).bolt = true → ∀ a, bget (clOf t c).bolt a = if 65536 * r.base ≤ a ∧ a < 65536 * (r.base + r.size) then 0
        else bget (clOf s c).bolt a))

/-- The Tally banks perform word operations, raise fences and place errors, in the order of their ports. In a bank that is awake and inserts no
collision addition, where the port granted next (after what arrives) holds an operation of the row's kind at its head on context word i, the
word's check bits show no uncorrectable error and no access waits, exec answers a next state in which the operation has left its queue, the
pointer stands behind the port, the word holds the old value (READ), the sum mod 2^64 (ADD) or the operand (SWAP, WRITE), every other
context word and the half's fences and secure words are as before. A running engine that asked by READ, ADD or SWAP has the old value in its
register, which no longer waits; a requester is told, with the old value of a READ or SWAP. In a bank that is awake and inserts no collision
addition, where the port granted next (after what arrives) holds a MAX or SETERR at its head on the fence entry k where neither word of the
entry shows an uncorrectable error and no access waits, exec answers a next state in which the operation has left its queue. MAX on a LIVE
fence: VALUE is the greater of both, STALE counts (to 65,535) where the operand did not exceed it; on any other fence the entry stays.
SETERR: an entry not free is in error with the code; a free one stays. Every other fence of the half keeps its entry and context words are
as before. (R262, R268, R269, R270, R274, R212, R439, R441) -/
def Obligations.TallyBankPerformsItsOperations : Prop :=
  (
  ∀ p ∈ ([(.tallyRead, .read), (.tallyAdd, .add), (.tallySwap, .swap), (.tallyWrite, .write)] :
      List ((Nat → List (Nat × TOp) → Nat → Sys2Proof.Instr) × TKind)),
    ∀ (h port i chk : Nat) (arrive : List (Nat × TOp)) (o : TOp) (rest : List TOp) (s : State),
    let v := arriveOps s h arrive
    let old := mget 0 (tallyOf v h).pool i
    h < s.cfg.halves → (tallyOf v h).retained = false → (tallyOf v h).waking = false → (tallyOf v h).inserted = [] →
    grantPort s.cfg h (tallyOf v h) = some port → mget [] (tallyOf v h).queues port = o :: rest → o.kind = p.2 →
    o.off = poolBase + 8 * i → o.off < secBase → tallyCheck (tallyOf v h) o chk ≤ 1 → clear s = true →
    Ends (p.1 h arrive chk) s fun t =>
      mget [] (tallyOf t h).queues port = rest ∧ (tallyOf t h).ptr = (port + 1) % tallyPorts s.cfg h ∧
      (∀ j, mget 0 (tallyOf t h).pool j = if j = i then (if p.2 = .read then old else if p.2 = .add then old + o.val else o.val)
        else mget 0 (tallyOf v h).pool j) ∧
      (tallyOf t h).fences = (tallyOf v h).fences ∧ (tallyOf t h).sec = (tallyOf v h).sec ∧
      (∀ e c g r, o.ret = .engine e c g r → r ≠ 0 → p.2 ≠ .write → (engOf v e).ctx = some (c, g) → sGet (engOf t e) r = old ∧ r ∉ (engOf t e).pendRes) ∧
      (o.ret = .requester → presented t = some (.tally h port (if p.2 = .read ∨ p.2 = .swap then some old else none) false false))) ∧
  (
  ∀ p ∈ ([(.tallyMax, .max), (.tallySeterr, .seterr)] : List ((Nat → List (Nat × TOp) → Nat → Sys2Proof.Instr) × TKind)),
    ∀ (h port k chk : Nat) (arrive : List (Nat × TOp)) (o : TOp) (rest : List TOp) (s : State),
    let v := arriveOps s h arrive
    let x := mget Fence.zero (tallyOf v h).fences k
    h < s.cfg.halves → h < 2 → k < 131072 → (tallyOf v h).retained = false → (tallyOf v h).waking = false → (tallyOf v h).inserted = [] →
    grantPort s.cfg h (tallyOf v h) = some port → mget [] (tallyOf v h).queues port = o :: rest → o.kind = p.2 →
    o.off = 16 * k → chk ≤ 1 → tallyBad (tallyOf v h) o.off = false → clear s = true →
    Ends (p.1 h arrive chk) s fun t =>
      mget [] (tallyOf t h).queues port = rest ∧ (tallyOf t h).pool = (tallyOf v h).pool ∧
      (∀ j, j ≠ k → mget Fence.zero (tallyOf t h).fences j = mget Fence.zero (tallyOf v h).fences j) ∧
      mget Fence.zero (tallyOf t h).fences k =
        if p.2 = .max then
          (if x.state ≠ 1 then x else if o.val.toNat ≤ x.value.toNat then { x with stale := satAdd 65535 x.stale 1 } else { x with value := o.val })
        else (if x.state = 0 then x else { x with state := 2, code := o.val.toNat }))

/-- Retained memories wake on request, and a tamper event erases the secure parts. For a Tally half or a cluster's Bolt buffer of the
configuration, where no access waits: a request to one in retention that is not waking answers a next state that only marks it waking; the
end of a wake answers a next state in which it is neither waking nor retained (a cluster leaves RET with its buffer, a half leaves the
retained halves and what waited at its host ports goes out), with every word, fence and byte kept and every other memory as before. Where a
wipe is due and no access waits, TAMPER_WIPE answers a next state in which every secure word of both halves reads 0 and the secure port
answers DENIED, every memory engine has LOST set, no key identifier has a key, the certificate chain and the slices' measurements are gone,
and pool words, fences, clusters and engines are as before; TAMPER_WIPE_DONE, while a wipe is in progress in half 0, sets WIPED in every
half and ends the wipe. TAMPER_N_FALL makes a wipe due, ends every secure session and removes every link key; TAMPER_N_RISE sets the level
where the accesses of a reset that it lets go on do not wait. (R275, R276, R567, R277, R290, R482, R484, R626) -/
def Obligations.MemoriesWakeAndTamperErases : Prop :=
  (
  (∀ (h : Nat) (s : State), h < s.cfg.halves → (tallyOf s h).retained = true → (tallyOf s h).waking = false → clear s = true →
    Ends (.memoryWakeRequest true h) s fun t => tallyOf t h = { tallyOf s h with waking := true } ∧
      (∀ k, k ≠ h → tallyOf t k = tallyOf s k) ∧ { t with tally := s.tally } = s) ∧
  (∀ (c : Nat) (s : State), c < s.cfg.clusters → (clOf s c).boltRet = true → (clOf s c).boltWaking = false → clear s = true →
    Ends (.memoryWakeRequest false c) s fun t => clOf t c = { clOf s c with boltWaking := true } ∧
      (∀ k, k ≠ c → clOf t k = clOf s k) ∧ { t with clusters := s.clusters } = s) ∧
  (∀ (h : Nat) (s : State), h < s.cfg.halves → (tallyOf s h).waking = true → clear s = true →
    Ends (.memoryWakeDone true h) s fun t => tallyOf t h = { tallyOf s h with waking := false, retained := false } ∧
      (∀ k, k ≠ h → tallyOf t k = tallyOf s k) ∧ h ∉ t.ck.halves ∧
      { t with tally := s.tally, ck := { t.ck with halves := s.ck.halves }, hports := s.hports, out := s.out } = s) ∧
  (∀ (c : Nat) (s : State), c < s.cfg.clusters → (clOf s c).boltWaking = true → clear s = true →
    Ends (.memoryWakeDone false c) s fun t => clOf t c = { clOf s c with boltWaking := false, boltRet := false, ret := false } ∧
      (∀ k, k ≠ c → clOf t k = clOf s k) ∧ { t with clusters := s.clusters } = s)) ∧
  (
  (∀ s : State, s.wipeDue = true → clear s = true →
    Ends .tamperWipe s fun t => t.wipeDue = false ∧
      (∀ h < s.cfg.halves, (∀ j, mget 0 (tallyOf t h).sec j = 0) ∧ (tallyOf t h).wiping = true ∧ (tallyOf t h).pool = (tallyOf s h).pool ∧
        (tallyOf t h).fences = (tallyOf s h).fences) ∧
      (∀ m < s.cfg.memPorts, (portOf t m).lost = true) ∧ (∀ n, (kidOf t n).key = none) ∧ t.ks.cert = none ∧
      (∀ n, (ksSlice t n).measured = false ∧ (ksSlice t n).digest = 0) ∧ t.clusters = s.clusters ∧ t.engines = s.engines) ∧
  (∀ s : State, (tallyOf s 0).wiping = true → clear s = true →
    Ends .tamperWipeDone s fun t => ∀ h < s.cfg.halves, (tallyOf t h).wiped = true ∧ (tallyOf t h).wiping = false ∧
      (tallyOf t h).pool = (tallyOf s h).pool) ∧
  (∀ s : State, s.pins.tamperN = true → clear s = true →
    Ends .tamperNFall s fun t => t.pins.tamperN = false ∧ t.wipeDue = true ∧ t.ks.sessions = [] ∧
      (∀ k ∈ t.ks.links, k.2.tx = none ∧ k.2.rx = none)) ∧
  (∀ s : State, s.pins.tamperN = false →
    let u := modPins s fun p => { p with tamperN := true }
    clear (if s.ck.rst.any fun r => r.phase = 2 then resetPhase3 u else u) = true →
    Ends .tamperNRise s fun t => t.pins.tamperN = true))

/-- SELVAGE_READ completes: a late beat is waited for; else zero lines read 0, agreeing tags give the plaintext, others POISON. For a wired sub-
channel where the access is ready and no access waits, exec answers a next state that leaves all but the memory side as it was. A late
access with no check failing is held by a tag that carries the request. Otherwise the answer presented is: the code of the first check that
fails; POISON where the counter node does not verify; 128 bytes of zeros for a zero line; for a stored line whose tag agrees under its key
and counter, the line decrypted; POISON for a line that is no data or whose tag line cannot be read; and for a line whose tag does not
agree, POISON, and the stored line becomes the poison marker. (R292, R286, R298, R56, R300, R308, R339) -/
def Obligations.SelvageReadsVerifyBeforeAnswering : Prop :=
  ∀ (r : MemReq) (med : Med) (late : Bool) (s : State),
    let u := applyMed (countReq s r) r.port r.sub med
    let q := liveReq u r
    let v := claimLine u r.port r.sub (physLine u r.port r.sub r.line)
    let wide := wideMode v q
    let place := ctrPlace v r.port r.line wide
    let node := getCtr v r.port r.sub place.1 q.attr.keyid med.errs
    let kid := (unvisited v q).elim q.attr.keyid (·.src)
    s.cfg.hasSub r.port r.sub = true → accessReady s r = true →
    (late = true → svCheck s r = none → clear s = true →
      Ends (.selvageRead r med late) s fun t => MemoryOnly s t ∧
        ∃ g ∈ (portOf t r.port).tags, g.wait = some (.read r) ∧ g.sub = r.sub ∧ g.line = physLine t r.port r.sub r.line ∧ t.out = s.out) ∧
    ((late = false ∨ svCheck s r ≠ none) → clear (svRead u r med.errs).1 = true →
      Ends (.selvageRead r med late) s fun t => MemoryOnly s t ∧
        (∀ c, svCheck u q = some c → presented t = some (.reply r.attr c none)) ∧
        (svCheck u q = none → node.2 = .fail → presented t = some (.reply r.attr cPOISON none)) ∧
        (∀ n, svCheck u q = none → node.2 = .node n →
          let c := (ctrRead n place.2 wide).1
          ((ctrRead n place.2 wide).2 = true → presented t = some (.reply r.attr 0 (some 0))) ∧
          ((ctrRead n place.2 wide).2 = false →
            let st := readStored node.1 r.port r.sub r.line false med.errs
            ((∀ ct, st.2 ≠ .data ct) → presented t = some (.reply r.attr cPOISON none)) ∧
            ∀ (ct : Line) (k : Key), st.2 = .data ct → keyFor st.1 kid = some k →
              let tag := (getTag st.1 r.port r.sub r.line kid med.errs).2
              let x := (lineTag k kid (lineIndex r.port r.sub r.line) c ct).toNat
              (tag = none → presented t = some (.reply r.attr cPOISON none)) ∧
              (tag = some x → presented t = some (.reply r.attr 0 (some (cryptLine k kid (lineIndex r.port r.sub r.line) c ct)))) ∧
              (∀ y, tag = some y → y ≠ x → presented t = some (.reply r.attr cPOISON none) ∧
                beatAt t r.port r.sub (physLine t r.port r.sub r.line) = poisonBeat))))

/-- SELVAGE_FULL_WRITE, SELVAGE_PARTIAL_WRITE and GROUP_REENCRYPTION complete; a stored line is encrypted under its counter raised by one. For a
wired sub-channel where the access is ready and no access waits, each command answers a next state that leaves all but the memory side as it
was, and a check that fails is what a full or partial write answers. A full write in tree mode whose node verifies with a minor below 127,
outside a sweep and with its key installed, is answered without an error, and the stored line is the data encrypted under MAJOR and the
minor plus 1. A partial write that is not late, outside a sweep, answers the error of reading the old line, or stores that line with the
masked bytes replaced; a late one waits under a tag. A whole-line write at a minor of 127 counts one group re-encryption. (R292, R286, R287,
R297, R299, R301, R319) -/
def Obligations.SelvageWritesRaiseTheCounter : Prop :=
  (∀ (r : MemReq) (data : Line) (med : Med) (s : State),
    let u := applyMed (countReq s r) r.port r.sub med
    let q := liveReq u r
    let v := claimLine u r.port r.sub (physLine u r.port r.sub r.line)
    s.cfg.hasSub r.port r.sub = true → accessReady s r = true → clear (svWriteFull u r data med.errs).1 = true →
    Ends (.selvageFullWrite r data med) s fun t => MemoryOnly s t ∧
      (∀ c, svCheck u q = some c → presented t = some (.reply r.attr c none)) ∧
      (∀ (x y : State) (n m : Node) (k : Key), svCheck u q = none → unvisited v q = none → wideMode v q = false →
        keyFor v q.attr.keyid = some k → getCtr v r.port r.sub (r.line / 64) q.attr.keyid med.errs = (x, .node n) →
        getCtr x r.port r.sub (r.line / 64) q.attr.keyid med.errs = (y, .node m) → nMinor n (r.line % 64) < 127 →
        presented t = some (.reply r.attr 0 none) ∧
        beatAt t r.port r.sub (physLine t r.port r.sub r.line) =
          encodeBeat (cryptLine k q.attr.keyid (lineIndex r.port r.sub r.line) ⟨false, nMajor m, nMinor m (r.line % 64) + 1⟩ data))) ∧
  (∀ (r : MemReq) (mask : BitVec 128) (data : Line) (med : Med) (late : Bool) (s : State),
    let u := applyMed (countReq s r) r.port r.sub med
    let q := liveReq u r
    s.cfg.hasSub r.port r.sub = true → accessReady s r = true →
    (late = true → svCheck s r = none → clear s = true →
      Ends (.selvagePartialWrite r mask data med late) s fun t => MemoryOnly s t ∧
        ∃ g ∈ (portOf t r.port).tags, g.wait = some (.partialWrite r mask data) ∧ g.line = physLine t r.port r.sub r.line ∧ t.out = s.out) ∧
    ((late = false ∨ svCheck s r ≠ none) → clear (svWritePartial u r mask data med.errs).1 = true →
      Ends (.selvagePartialWrite r mask data med late) s fun t => MemoryOnly s t ∧
        (∀ c, svCheck u q = some c → presented t = some (.reply r.attr c none)) ∧
        (svCheck u q = none → unvisited u q = none → ∀ x : State,
          (∀ c, svReadFor true u q med.errs = (x, .fail c) → presented t = some (.reply r.attr c none)) ∧
          (∀ old, svReadFor true u q med.errs = (x, .data old) → t.sv = (svStore x q (mergeLine mask old data) med.errs).1.sv)))) ∧
  (∀ (r : MemReq) (mask : BitVec 128) (data : Line) (med : Med) (s : State),
    let u := applyMed s r.port r.sub med
    let q := liveReq u r
    let v := claimLine u r.port r.sub (physLine u r.port r.sub r.line)
    s.cfg.hasSub r.port r.sub = true → accessReady s r = true → svCheck s r = none → atOverflow s r = true →
    clear (if mask = BitVec.allOnes 128 then (svWriteFull u r data med.errs).1 else (svWritePartial u r mask data med.errs).1) = true →
    Ends (.groupReencryption r mask data med) s fun t => MemoryOnly s t ∧ (∃ c d, presented t = some (.reply r.attr c d)) ∧
      (∀ (x : State) (n : Node), mask = BitVec.allOnes 128 → svCheck u q = none → unvisited v q = none → wideMode v q = false →
        getCtr v r.port r.sub (r.line / 64) q.attr.keyid med.errs = (x, .node n) → nMinor n (r.line % 64) = 127 →
        (portOf t r.port).reenc = satAdd 65535 (portOf s r.port).reenc 1))

/-- METADATA_CACHE_FILL leaves a verified node in the cache; HOP_SEAL_OPEN takes the line off the fabric and opens or refuses it. A fetch of an
existing node of a ready, not fenced port with its roots, of which no access waits, answers a next state that leaves all but the memory side
as it was; a node that it gives is in the cache. HOP_SEAL_OPEN, where no access waits, of a line bound for a link engine answers a next
state in which the line is off the fabric; for a group sent for the first time, a seal that verifies stages the bytes asked for with nothing
else changed, and one that does not leaves nothing of the group staged and gives its operation an error. Of the first line bound for memory,
with no request of its port waiting for a window, it answers a next state in which that line is off the fabric. (R293, R288, R300, R315,
R317, R360) -/
def Obligations.MetadataFillsAndHopSealsAreVerified : Prop :=
  (∀ (port sub lvl i keyid : Nat) (med : Med) (s : State),
    let x := nodeGet med.errs port treeFuel keyid (applyMed s port sub med) sub lvl i
    s.cfg.hasSub port sub = true → lvl < 4 → i < nodesAt s port lvl → portReady s port = true → subFenced s port sub = false →
    (portOf s port).lost = false → clear x.1 = true →
    Ends (.metadataCacheFill port sub lvl i keyid med) s fun t => MemoryOnly s t ∧ t.out = s.out ∧
      ∀ n, x.2 = .node n → ∃ c, cacheFind (portOf t port) sub (nodeAddr t port lvl i / 128) = some c ∧
        c.held (nodeAddr t port lvl i / 64 % 2) = true ∧ c.node (nodeAddr t port lvl i / 64 % 2) = n) ∧
  (∀ (k : Nat) (flip : BitVec 128) (h : Hop) (s : State), s.links.hops[k]? = some h →
    let pt := gcmOpen s.sv.hopKey (BitVec.ofNat 96 (h.code * 2 ^ 88 + h.count % 2 ^ 88)) [] h.ct (h.tag ^^^ flip)
    let u := modLinks s fun l => { l with hops := l.hops.eraseIdx k }
    (∀ (p : Nat) (key : StageKey) (at' off n : Nat), h.dst = .link p key at' off n → clear (openForGroup u p key at' off n pt) = true →
      Ends (.hopSealOpen k flip) s fun t => (∀ x ∈ t.links.hops, x ∈ s.links.hops.eraseIdx k) ∧
        ∀ (id g : Nat), key = .first id g →
          (∀ line, pt = some line → t = modLinks u fun l => { l with stage := l.stage ++ [⟨key, p, at', (line.drop off).take n⟩] }) ∧
          (pt = none → (∀ x ∈ t.links.stage, x.key ≠ key) ∧ ∀ a ∈ t.asyncs, a.id = id → a.err ≠ none)) ∧
    (∀ p : HopPart, h.dst = .memory p → (∀ x ∈ s.links.hops.take k, ∀ q, x.dst ≠ .memory q) →
      bwWaits u (linkWho u p.port p.ctx p.gen).attr = false → clear (openPart u p pt) = true →
      Ends (.hopSealOpen k flip) s fun t => t.links.hops.length = s.links.hops.length - 1))

/-- Re-key sweeps move the lines of an identifier, and retired identifiers become ABSENT. For an installed identifier at its budget in a slice
without a sweep, where no access waits: with SWEEP_EN and a spare, it becomes the sweep's source and the spare its target, every region that
named it names the spare, and every member port holds an active sweep of those regions; otherwise only OVER is set. The SWEEP_EN write sets
that bit. For the oldest active sweep that is not held, of a ready port and with no access waiting: with a group left, its position passes
that group and nothing but the memory side changes; with none left and no request under the source waiting, the port's part ends, and with
it, where no other member port has one, the source starts retiring and the target is installed. Where a ready member port with no request
under the identifiers outstanding has a part in the identifier's retirement, no sub-channel of it is fenced and no access waits, the command
answers a next state in which that job lists the port as done and nothing else but the memory side changes. When every port of the job has
finished, the identifiers of the job are ABSENT with no key and no use counted, the job is gone, and no other identifier or job changes.
(R305, R307, R308, R309, R310, R311, R312, R313, R318, R50) -/
def Obligations.RekeySweepsAndRetirementsMoveIdentifiers : Prop :=
  (
  (∀ (keyid n : Nat) (s : State), sliceOfKey s keyid = some n → (kidOf s keyid).state = .installed → 2 ^ 48 ≤ (kidOf s keyid).uses →
    sweepActive s n = false → clear s = true →
    Ends (.sweepStart keyid) s fun t =>
      (∀ b, s.sv.sweepEn = true → spareFor s n keyid = some b →
        (kidOf t keyid).state = .sweepSource ∧ (kidOf t b).state = .sweepTarget ∧ (kidOf t keyid).partner = b ∧
        (kidOf t b).partner = keyid ∧ (∀ e ∈ t.regions, e.2.keyid ≠ keyid) ∧
        (∀ m ∈ memberPorts (descOf s n), ∃ w ∈ (portOf t m).sweeps, w.active = true ∧ w.src = keyid ∧ w.dst = b ∧
          w.rgns = (s.regions.filter fun e => e.2.keyid = keyid).map fun e => e.1) ∧
        { t with regions := s.regions, sv := s.sv, ks := s.ks } = s) ∧
      ((s.sv.sweepEn = false ∨ spareFor s n keyid = none) →
        kidOf t keyid = { kidOf s keyid with overBudget := true } ∧ (∀ k, k ≠ keyid → kidOf t k = kidOf s k) ∧
        { t with sv := { t.sv with kids := s.sv.kids }, ks := s.ks } = s)) ∧
  (∀ (port n : Nat) (w : Sweep) (med : Med) (s : State), sweepAt s port = some w → sliceOfKey s w.dst = some n → port < s.cfg.memPorts →
    portReady s port = true →
    (∀ g j x, nextSweep s n port w = some (g, j, x) →
      clear (if w.early.contains (4 * g + j) then s
        else reencGroup (applyMed s port j med) port j g w.src w.dst x med.errs) = true →
      Ends (.sweepVisit port med) s fun t => MemoryOnly s t ∧ t.out = s.out ∧ t.bw = s.bw ∧ t.reqErrs = s.reqErrs ∧
        ∀ y ∈ (portOf t port).sweeps, y.dst = w.dst → g < y.next ∨ (g = y.next ∧ j < y.nextSub)) ∧
    (nextSweep s n port w = none → (∀ t ∈ (portOf s port).tags, t.wait ≠ none → t.attr.keyid ≠ w.src) → clear s = true →
      Ends (.sweepVisit port med) s fun t =>
        (portOf t port).sweeps = ((portOf s port).sweeps.filter fun x => x.dst ≠ w.dst) ∧ t.regions = s.regions ∧
        { t with sv := s.sv, ks := s.ks, retJobs := s.retJobs } = s ∧
        ((∀ m ∈ memberPorts (descOf s n), m = port ∨ ∀ x ∈ (portOf s m).sweeps, x.dst ≠ w.dst) → w.src ≠ w.dst →
          (kidOf t w.src).state = .retiring ∧ (kidOf t w.dst).state = .installed ∧ ∃ j ∈ t.retJobs, j.kids = [w.src]))) ∧
  (∀ (path : Sys2Proof.Path) (s : State), secReach path s = true → clear s = true →
    Ends (.sweepEnSet path) s fun t => t.sv.sweepEn = true)) ∧
  (
  (∀ (keyid port : Nat) (j : RetJob) (s : State), retJobFor s keyid port = some j → port < s.cfg.memPorts → portReady s port = true →
    keyBusy s port j.kids = false →
    (j.subs.any fun i => i / 4 = port && s.fc.subFenced.contains i) = false →
    let u := if j.step2 && !(portOf s port).lost then
        (j.subs.filter fun i => i / 4 = port).foldl (fun t i =>
          (List.range (256 * j.size)).foldl (fun t k => zeroGroup t port (i % 4) (256 * j.base + k) keyid) t) s
      else s
    clear (flushKeys u port j.kids) = true →
    Ends (.keyidRetirement keyid port) s fun t =>
      t.retJobs = (s.retJobs.map fun x => if x = j then { x with done := x.done ++ [port] } else x) ∧
      MemoryOnly s { t with retJobs := s.retJobs } ∧ t.out = s.out) ∧
  (∀ (keyid : Nat) (j : RetJob) (s : State), (s.retJobs.find? fun j => j.kids.contains keyid) = some j →
    (∀ i ∈ j.subs, i / 4 ∈ j.done) → clear s = true →
    Ends (.keyidRetirementDone keyid) s fun t =>
      (∀ k ∈ j.kids, kidOf t k = Kid.zero) ∧ (∀ k, k ∉ j.kids → kidOf t k = kidOf s k) ∧ j ∉ t.retJobs ∧
      (∀ x ∈ s.retJobs, x ≠ j → x ∈ t.retJobs) ∧
      { t with sv := { t.sv with kids := s.sv.kids }, retJobs := s.retJobs, ks := { t.ks with slices := s.ks.slices } } = s))

/-- SCRUB_ACCESS, GROUP_RETIREMENT, ROW_REPAIR_REQUEST and ROW_REPAIR_ANSWER complete, each with the effect of its rule. Each where no access
waits. A running scrub of a ready port with a wired capacity and more than one access left in its group answers a next state in which the
first is done, LINE is the next one and only the memory side has changed. A due retirement of a ready port whose group no request holds:
with a free entry, the retirement leaves the due list and its entry is VALID with a row-repair request waiting; without one, the group still
is due and SPARE_OUT is raised. A waiting row-repair request goes out with a free identifier while fewer than four are out, and its entry
shows ROWREQ. An answer ends the request it names, clears ROWREQ, and REFUSED counts; an answer to none only raises MP_ERR. (R326, R327,
R333, R336, R337, R338, R594, R595) -/
def Obligations.TheMediumIsScrubbedRetiredAndRepaired : Prop :=
  (∀ (port : Nat) (a b : Nat × Bool) (rest : List (Nat × Bool)) (med : Med) (s : State), port < s.cfg.memPorts →
    (portOf s port).scrub.interval ≠ 0 → portReady s port = true → s.cfg.cap port ≠ 0 → (portOf s port).scrub.todo = a :: b :: rest →
    let w := (portOf s port).scrub
    let u := modPort s port fun p => { p with scrub := { w with todo := b :: rest, line := b.1 } }
    clear (if subFenced s port w.sub then u
      else (careRead (applyMed (bwCount u (agentAttr port 0 0) 1) port w.sub med) port w.sub a.1 med.errs).1) = true →
    Ends (.scrubAccess port med) s fun t => MemoryOnly s t ∧ t.out = s.out ∧
      (portOf t port).scrub = { w with todo := b :: rest, line := b.1 }) ∧
  (∀ (port sub g sym : Nat) (tried : Bool) (med : Med) (s : State), port < s.cfg.memPorts → portReady s port = true →
    dueRetirement s port = some (sub, g, sym, tried) → groupHeld s port sub g = false →
    (∀ i, freeRet s port sub = some i → clear (retireOnto (applyMed s port sub med) port sub g sym i med.errs) = true →
      Ends (.groupRetirement port med) s fun t => MemoryOnly s t ∧ t.out = s.out ∧
        (∃ frm, mget ⟨false, false, false, 0⟩ (portOf t port).ret i = ⟨true, false, false, frm⟩ ∧
          ∃ x ∈ (portOf t port).rrWait, x.sub = sub ∧ x.group = frm ∧ x.sym = sym ∧ x.entry = i) ∧
        ∀ q ∈ (portOf t port).retireQ, ¬ (q.1 = sub ∧ q.2.1 = g)) ∧
    (freeRet s port sub = none → clear s = true →
      Ends (.groupRetirement port med) s fun t => MemoryOnly s t ∧ t.out = s.out ∧ (sub, g, sym, true) ∈ (portOf t port).retireQ ∧
        ∃ l ∈ t.fc.lines, l.src = 14 ∧ l.inst = 4 * port + sub)) ∧
  (∀ (port : Nat) (r : RowRep) (rest : List RowRep) (s : State), port < s.cfg.memPorts → (portOf s port).rrWait = r :: rest →
    (portOf s port).rrOut.length < 4 → subFenced s port r.sub = false → clear s = true →
    Ends (.rowRepairRequest port) s fun t => ∃ id, id < 4 ∧ (∀ o ∈ (portOf s port).rrOut, o.id ≠ id) ∧
      (portOf t port).rrWait = rest ∧ (portOf t port).rrOut = (portOf s port).rrOut ++ [{ r with id := id, sym := lastSymOf s port r }] ∧
      (mget ⟨false, false, false, 0⟩ (portOf t port).ret r.entry).rowreq = true ∧
      t.out = .rowRepair port id r.sub r.group (lastSymOf s port r) :: s.out) ∧
  (∀ (port id : Nat) (refused : Bool) (s : State), port < s.cfg.memPorts → clear s = true →
    Ends (.rowRepairAnswer port id refused) s fun t =>
      (∀ r, ((portOf s port).rrOut.find? fun r => r.id = id) = some r →
        (∀ o ∈ (portOf t port).rrOut, o.id ≠ id) ∧
        (mget ⟨false, false, false, 0⟩ (portOf t port).ret r.entry).rowreq = false ∧
        (portOf t port).rowRefused = if refused then satAdd 255 (portOf s port).rowRefused 1 else (portOf s port).rowRefused) ∧
      (((portOf s port).rrOut.find? fun r => r.id = id) = none → t = raise s 16 (4 * port) id))

/-- MEMORY_COMPLETION, MP_READY_FALL and MP_READY_RISE complete; a completion that fits no tag is counted and discarded. A completion on a wired
sub-channel, where no access waits, answers a next state: one whose tag is out as a write, without error, only frees the tag; a write's
first error is retried under the same tag; the beat that a held read waits for lets that read answer; one that fits no tag and none that a
fence ended counts in BAD_CPL and raises MP_ERR only. MP_READY falls only from high and rises only from low and changes that level; a fall
may raise events and leaves stored lines as they are. (R590, R591, R592, R604) -/
def Obligations.PortCompletionsAndReadinessChangeThePort : Prop :=
  (∀ (port sub tag : Nat) (write err : Bool) (data : Beat) (s : State), s.cfg.hasSub port sub = true →
    let hit := (portOf s port).tags.find? fun t => tag / 1024 = sub && t.sub = sub && t.num = tag % 1024 && t.write = write
    (∀ g, hit = some g → write = true → err = false → clear s = true →
      Ends (.memoryCompletion port sub tag write err data) s fun t =>
        t = modPort s port fun p => { p with tags := p.tags.filter fun x => !(x.sub = sub && x.num = tag % 1024) }) ∧
    (∀ g, hit = some g → write = true → err = true → g.retried = false → clear s = true →
      Ends (.memoryCompletion port sub tag write err data) s fun t =>
        (portOf t port).retry = satAdd 65535 (portOf s port).retry 1 ∧ (portOf t port).errRsp = satAdd 65535 (portOf s port).errRsp 1 ∧
        (portOf t port).tags = ((portOf s port).tags.map fun x => if x.sub = sub && x.num = tag % 1024 then { x with retried := true } else x) ∧
        t.sv.beats = s.sv.beats) ∧
    (∀ g q, hit = some g → write = false → g.wait = some (.read q) → clear (completeTag s port sub g err data) = true →
      Ends (.memoryCompletion port sub tag write err data) s fun t => MemoryOnly s t ∧ ∃ c d, presented t = some (.reply q.attr c d)) ∧
    (hit = none → (sub, tag % 1024, write) ∉ (portOf s port).left → clear s = true →
      Ends (.memoryCompletion port sub tag write err data) s fun t =>
        t = raise (modPort s port fun p => { p with badCpl := satAdd 65535 p.badCpl 1 }) 16 (4 * port + sub) 0)) ∧
  (∀ (port : Nat) (s : State), port < s.cfg.memPorts → (portOf s port).ready = true → clear s = true →
    Ends (.mpReadyFall port) s fun t => portOf t port = { portOf s port with ready := false } ∧ (∀ k, k ≠ port → portOf t k = portOf s k) ∧
      t.sv.beats = s.sv.beats ∧ MemoryOnly s t) ∧
  (∀ (port : Nat) (s : State), port < s.cfg.memPorts → (portOf s port).ready = false → clear s = true →
    Ends (.mpReadyRise port) s fun t => t = modPort s port fun p => { p with ready := true })

/-- GROUP_SEND, LINK_FRAME_RECEIVE, GROUP_VERIFY and ACK_SEND complete: sequence numbers and NCOUNT rise, failed tags only count. Each where no
access waits. A group of an LPUT whose route, transmit key, stream, port and data stand is sent: a frame goes to the chosen port, its NCOUNT
and the stream's next SEQ rise by one, the operation counts the group. A frame at a usable port of a running block, in a half that is not
retained, is dropped and counted where R346 or R599 says so, else gathered. A gathered group whose frames are complete, with no GET_RSP
waiting before it or itself an ACK, GET_RSP or ERR, leaves the buffer: without a receive key it is dropped and counted, with a tag that
fails AUTHFAIL counts and the error line rises, a verified ACK, GET_RSP or ERR waits for its step, a duplicate is only counted and
acknowledged, and a new group that its window refuses is recorded. A due acknowledgement with its key leaves as one frame and is due no
more. (R346, R347, R350, R351, R352, R353, R354, R358, R364, R599) -/
def Obligations.LinkGroupsAreSentGatheredAndVerified : Prop :=
  (∀ (dest lkey port : Nat) (a : AsyncOp) (l : BitVec 256) (off len : Nat) (snap : List (Nat × Byte)) (r : Route) (x : TxStream)
      (data : List Byte) (s : State),
    (s.asyncs.find? fun y => y.id = a.id && opOn dest lkey y && y.err.isNone && !y.queued) = some a →
    a.kind = .lput l off len snap → routeTo s dest = some r → (lkeyOf s lkey).tx ≠ none → (lkeyOf s lkey).budget = false →
    txOf s dest lkey = some x → x.failed = false → a.groups < groupCount len false → choosePort s r lkey x.lastPort = some port →
    unacked x < 256 →
    let b := boltGroup s a.eng a.ctx a.gen (off + 16384 * a.groups) (groupBytes len a.groups) (some snap)
    b.2 = .ok data → clear b.1 = true →
    Ends (.groupSend dest lkey (some a.id)) s fun t =>
      (∃ bytes, presented t = some (.frame port bytes)) ∧
      mget 1 (lkeyOf t lkey).ncount port = mget 1 (lkeyOf s lkey).ncount port + 1 ∧
      (∃ y g, txOf t dest lkey = some y ∧ y.next = x.next + 1 ∧ y.lastPort = port ∧ g ∈ y.groups ∧ g.seq = x.next ∧ g.gidx = a.groups ∧
        g.sends = 1 ∧ g.acked = false) ∧
      t.asyncs = (s.asyncs.map fun y => if y.id = a.id then { y with groups := y.groups + 1 } else y) ∧ t.ctxs = s.ctxs ∧
      t.engines = s.engines ∧ t.sv = s.sv) ∧
  (∀ (p : Nat) (bad : Bool) (bytes : List Byte) (s : State),
    let drop := bad || bytes.length < 62 || 4174 < bytes.length || 262144 < rxFill s p + 4174 || !(frameOk s p (bytes.drop 14))
    p < s.cfg.linkPorts → s.fc.linkFenced.contains p = false → unitSafe s 3 p = false → blockRuns s = true →
    s.ck.halves.contains (s.cfg.halfOfLink p) = false → clear s = true →
    Ends (.linkFrameReceive p bad bytes) s fun t =>
      (drop = true → t = modLport s p fun r => { r with drop := satAdd 65535 r.drop 1 }) ∧
      (drop = false → (∃ g ∈ t.links.gather, g.port = p ∧ (hFidx (bytes.drop 14), bytes.drop 14) ∈ g.frames) ∧
        { t with links := { t.links with gather := s.links.gather } } = s)) ∧
  (∀ (k : Nat) (g : Gather) (s : State), s.links.gather[k]? = some g →
    let h := ((g.frames.head?.map (·.2)).getD []).take 48
    let last := (g.frames.getLast?.map (·.2)).getD []
    let u := modLinks s fun l => { l with gather := l.gather.eraseIdx k }
    let opened (key : Key) := gcmOpen key (groupIv (hSrc h) (hSport h) (hNcount h)) (g.frames.map fun f => f.2.take 48).flatten
      (g.frames.map fun f => (f.2.drop 48).take (hFlen f.2)).flatten (blockOfBytes (last.drop (last.length - 16)))
    let later : Prop := hType h = 2 ∨ hOp h = 4 ∨ hOp h = 5
    g.frames.length = hFcnt h → blockRuns s = true → (later ∨ ∀ v ∈ s.links.verified, isRsp v.hdr = false) → clear s = true →
    ((lkeyOf s (hLkey h)).rx = none →
      Ends (.groupVerify k) s fun t => t = modLport u g.port fun p => { p with drop := satAdd 65535 p.drop 1 }) ∧
    (∀ key, (lkeyOf s (hLkey h)).rx = some key →
      (opened key = none → Ends (.groupVerify k) s fun t =>
        t = raise (modLport u g.port fun p => { p with authfail := satAdd 65535 p.authfail 1 }) 17 g.port 0) ∧
      (∀ pt, opened key = some pt →
        (later → Ends (.groupVerify k) s fun t => t = modLinks u fun l => { l with verified := l.verified ++ [⟨g.port, h, pt⟩] }) ∧
        (∀ x, ¬ later → rxOf s (hSrc h) (hLkey h) = some x →
          (seqClass x (hSeq h) = 0 → Ends (.groupVerify k) s fun t =>
            t = modRx (modLport u g.port fun p => { p with dup := satAdd 65535 p.dup 1 }) (hSrc h) (hLkey h) fun y => { y with ackDue := true }) ∧
          (∀ sub, seqClass x (hSeq h) = 1 →
            windowFault s ((s.windows.find? fun y => y.1 = hRwin h).map (·.2)) (hOp h) (hLkey h) (hRoff h) (hOplen h) = some sub →
            Ends (.groupVerify k) s fun t => rxOf t (hSrc h) (hLkey h) =
              some (record { x with writing := sins x.writing (hSeq h), port := g.port } (hSeq h)) ∧
              t.clusters = s.clusters ∧ t.sv = s.sv ∧ t.tally = s.tally))))) ∧
  (∀ (src lkey port : Nat) (x : RxStream) (r : Route) (s : State), rxOf s src lkey = some x → routeTo s src = some r →
    choosePort s r lkey x.port = some port → x.ackDue = true → (lkeyOf s lkey).tx ≠ none → (lkeyOf s lkey).budget = false → clear s = true →
    Ends (.ackSend src lkey) s fun t =>
      (∃ bytes, t.out = .frame port bytes :: s.out) ∧
      (∃ y, rxOf t src lkey = some y ∧ y.ackDue = false ∧ y.cum = x.cum ∧ y.above = x.above) ∧
      mget 1 (lkeyOf t lkey).ncount port = mget 1 (lkeyOf s lkey).ncount port + 1 ∧ t.asyncs = s.asyncs ∧ t.sv = s.sv)

/-- ACK_RECEIVE, GET_RSP_RECEIVE, ERR_RECEIVE and RTO_EXPIRY complete by the stream's rules. Each where no access waits. A waiting verified ACK
is taken: with no stream nothing else changes, and one whose bitmap is empty acknowledges the groups up to its CUM and leaves those above. A
waiting GET_RSP that no other one precedes, or ERR, is taken; a duplicate is only counted and acknowledged, one above the range of the
stream changes nothing else; a new one is recorded; a GET_RSP whose tag names an older generation writes nothing, and an ERR that names an
operation's group gives the operation its code. When RTO has passed for an outstanding group in a running block: sent RETRY + 1 times, it
makes its stream fail, which then has no groups, and its key and the stream are marked FAILED with their operations in error; sent less
often and without a route, it waits with its timer started again. (R354, R355, R356, R357, R362, R370) -/
def Obligations.AcknowledgementsRepliesAndTimeoutsAreHandled : Prop :=
  (∀ (k : Nat) (v : VGroup) (s : State), s.links.verified[k]? = some v → hType v.hdr = 2 → clear s = true →
    (txOf s (hSrc v.hdr) (hLkey v.hdr) = none →
      Ends (.ackReceive k) s fun t => t = modLinks s fun l => { l with verified := l.verified.eraseIdx k }) ∧
    (∀ x, txOf s (hSrc v.hdr) (hLkey v.hdr) = some x → x.cum ≤ hSeq v.hdr → x.failed = false → natOfBytes v.data = 0 →
      Ends (.ackReceive k) s fun t =>
        ∃ y, txOf t (hSrc v.hdr) (hLkey v.hdr) = some y ∧ y.cum = hSeq v.hdr ∧ y.next = x.next ∧
          (∀ g ∈ y.groups, g.seq ≤ hSeq v.hdr → g.acked = true) ∧
          (∀ g ∈ x.groups, hSeq v.hdr < g.seq → g.acked = false → g ∈ y.groups))) ∧
  (∀ (k : Nat) (v : VGroup) (x : RxStream) (s : State), s.links.verified[k]? = some v → hType v.hdr = 1 → hOp v.hdr = 4 →
    (∀ w ∈ s.links.verified.take k, isRsp w.hdr = false) → clear s = true →
    let u := modLinks s fun l => { l with verified := l.verified.eraseIdx k }
    rxOf s (hSrc v.hdr) (hLkey v.hdr) = some x →
    Ends (.getRspReceive k) s fun t =>
      (seqClass x (hSeq v.hdr) = 0 →
        t = modRx (modLport u v.port fun p => { p with dup := satAdd 65535 p.dup 1 }) (hSrc v.hdr) (hLkey v.hdr) fun y => { y with ackDue := true }) ∧
      (seqClass x (hSeq v.hdr) = 2 → t = u) ∧
      (seqClass x (hSeq v.hdr) = 1 →
        rxOf t (hSrc v.hdr) (hLkey v.hdr) = some (record { x with writing := sins x.writing (hSeq v.hdr), port := v.port } (hSeq v.hdr)) ∧
        (∀ g, ((s.links.tags.find? fun t => t.1 = hTag v.hdr).map (·.2)) = some g → (ctxOf s g.ctx).gen ≠ g.gen →
          t.clusters = s.clusters ∧ t.asyncs = s.asyncs))) ∧
  (∀ (k : Nat) (v : VGroup) (x : RxStream) (s : State), s.links.verified[k]? = some v → hType v.hdr = 1 → hOp v.hdr = 5 → clear s = true →
    let u := modLinks s fun l => { l with verified := l.verified.eraseIdx k }
    rxOf s (hSrc v.hdr) (hLkey v.hdr) = some x →
    Ends (.errReceive k) s fun t =>
      (seqClass x (hSeq v.hdr) = 0 →
        t = modRx (modLport u v.port fun p => { p with dup := satAdd 65535 p.dup 1 }) (hSrc v.hdr) (hLkey v.hdr) fun y => { y with ackDue := true }) ∧
      (seqClass x (hSeq v.hdr) = 2 → t = u) ∧
      (seqClass x (hSeq v.hdr) = 1 →
        rxOf t (hSrc v.hdr) (hLkey v.hdr) = some (record { x with writing := sins x.writing (hSeq v.hdr), port := v.port } (hSeq v.hdr)) ∧
        ∀ (y : TxStream) (g : TxGroup) (id : Nat), txOf s (hSrc v.hdr) (hLkey v.hdr) = some y →
          (y.groups.find? fun g => g.seq = hfield v.data 0 6) = some g → srcId g.src = some id →
          t.asyncs = s.asyncs.map fun a => if a.id = id && a.err.isNone then { a with err := some (cADDRESS (hfield v.data 6 1)) } else a)) ∧
  (∀ (dest lkey seq : Nat) (x : TxStream) (g : TxGroup) (s : State), txOf s dest lkey = some x →
    (x.groups.find? fun g => g.seq = seq && !g.acked) = some g → g.last + s.links.rto ≤ fclkNow s → blockRuns s = true → clear s = true →
    (max 1 s.links.retry + 1 ≤ g.sends →
      Ends (.rtoExpiry dest lkey seq) s fun t =>
        (∃ y, txOf t dest lkey = some y ∧ y.failed = true ∧ y.groups = [] ∧ y.todo = []) ∧ (lkeyOf t lkey).failed = true ∧
        (∀ a ∈ t.asyncs, opOn dest lkey a = true → a.err ≠ none) ∧ t.out = s.out) ∧
    (g.sends < max 1 s.links.retry + 1 → routeTo s dest = none →
      Ends (.rtoExpiry dest lkey seq) s fun t =>
        (∃ y h, txOf t dest lkey = some y ∧ y.failed = x.failed ∧ h ∈ y.groups ∧ h.seq = seq ∧ h.sends = g.sends + 1 ∧
          h.last = fclkNow s) ∧ t.asyncs = s.asyncs ∧ t.out = s.out))

/-- LINK_UP_CHANGE, BRIDGE_TRANSFER_RECEIVE, D2D_ERR, ROUTE_WRITE and REGULATION_WINDOW complete with exactly the change of their rule. Each
where no access waits. A link's level changes to the other level. On two halves of a running block outside the safe state, a bridge transfer
takes a credit and the next expected number, and raises FABRIC exactly when CRC, number or credit is wrong; D2D_ERR on two dies raises
FABRIC. A secure write to a route word is applied unless it would give two valid routes one destination. When a window of 4,096 FCLK has
ended, the next starts: every engine and link budget of the half counts only the requests of a sealed master that waited, up to its budget,
a changed budget is installed, and no reservation stands; the other half's budgets stay. (R598, R601, R363, R376, R377, R383) -/
def Obligations.LinkPortsBridgeRoutesAndWindowsChange : Prop :=
  (∀ (p : Nat) (up : Bool) (s : State), p < s.cfg.linkPorts → (lportOf s p).up ≠ up → clear s = true →
    Ends (.linkUpChange p up) s fun t => t = modLport s p fun r => { r with up := up }) ∧
  (∀ (h : Nat) (flit : List Byte) (ctl chk : Word) (freed : Nat) (s : State), h < s.cfg.halves → s.cfg.halves = 2 → blockRuns s = true →
    s.fc.blockSafe = false → clear s = true →
    let b := mget Bridge.reset s.bridge h
    let cred := min 128 (b.credits + freed)
    let bad := (crc32c (takeBytes 4096 flit ++ bytesOf 8 ctl)).toNat ≠ field chk 0 32 ∨ field chk 48 16 ≠ b.expect ∨ cred = 0
    Ends (.bridgeTransferReceive h flit ctl chk freed) s fun t =>
      mget Bridge.reset t.bridge h = ⟨cred - 1, (b.expect + 1) % 65536⟩ ∧
      (∀ k, k ≠ h → mget Bridge.reset t.bridge k = mget Bridge.reset s.bridge k) ∧
      (¬ bad → { t with bridge := s.bridge } = s) ∧ (bad → { t with bridge := s.bridge } = raise s 9 h (field chk 48 16))) ∧
  (∀ (h : Nat) (s : State), h < s.cfg.halves → s.cfg.d2d = true → clear s = true → Ends (.d2dErr h) s fun t => t = raise s 9 h 0) ∧
  (∀ (path : Sys2Proof.Path) (i w : Nat) (v : Sys2Proof.Word) (s : State), secReach path s = true → i < 1024 → w < 2 → clear s = true →
    let old := mget Route.zero (awake s).links.routes i
    let new : Route := if w = 0 then ⟨bit v 63, field v 32 16, field v 0 18, old.dmac⟩ else { old with dmac := field v 0 48 }
    let twice := new.valid && (s.links.routes.any fun x => x.1 ≠ i && x.2.valid && x.2.dest = new.dest)
    Ends (.routeWrite path i w v) s fun t =>
      (twice = true → t = awake s) ∧
      (twice = false → mget Route.zero t.links.routes i = new ∧
        (∀ k, k ≠ i → mget Route.zero t.links.routes k = mget Route.zero s.links.routes k) ∧
        { t with links := { t.links with routes := s.links.routes } } = awake s)) ∧
  (∀ (h : Nat) (s : State), h < s.cfg.halves → blockRuns s = true → mget 0 s.bw.winAt h + 4096 ≤ fclkNow s → clear s = true →
    Ends (.regulationWindow h) s fun t =>
      mget 0 t.bw.winAt h = mget 0 s.bw.winAt h + 4096 ∧
      (mwf BwMaster.zero s.bw.masters = true → ∀ k < 512, mget BwMaster.zero t.bw.masters k =
        if masterHalf s.cfg (k / 256) (k % 256) = h then (mget BwMaster.zero s.bw.masters k).window else mget BwMaster.zero s.bw.masters k) ∧
      (∀ b : BwMaster, b.window.used ≤ b.owed ∧ b.window.wentOver = false ∧ b.window.next = none ∧
        ∀ x, b.next = some x → (b.window.valid, b.window.isSealed, b.window.slice, b.window.budget) = x) ∧
      (∀ a ∈ t.asyncs, s.cfg.halfOfCluster (a.eng / 4) = h → a.reserved = 0) ∧
      { t with bw := s.bw, asyncs := s.asyncs } = s)

/-- BUILD, CHANGE, DISSOLVE, READ_DESC, REGION_WRITE and REGION_READ from the secure world complete with the RESULT that is due and their
effect. With an idle slice manager and no access waiting, where RESULT is what is due at the next PCLK: a barred BUILD ends with 0x01 and,
but for the command registers, nothing changes; one whose checks pass makes the slice ACTIVE (or DEGRADED) with that descriptor; another
ends with the code of its first failing check and changes no slice, region, engine or key. A barred CHANGE ends with 0x01, one of a fixed
field with 0x07; one whose checks pass makes its slice CHANGING towards the new descriptor, removed engines take no context and those that
hold one are asked to switch. DISSOLVE of an ACTIVE, DEGRADED or DIRECT slice starts its dissolving, of another ends with 0x01. READ_DESC
stages the slice's words. A barred or bad REGION_WRITE ends with 0x01 or 0x06; an accepted one writes that entry only. REGION_READ stages
the entry's words. (R44, R45, R46, R47, R48, R49, R60, R61, R70, R394) -/
def Obligations.SliceManagerCommandsChangeNothingOrDoTheirOperation : Prop :=
  ∀ (path : Sys2Proof.Path) (n : Nat) (s : State), cmdReach path s = true → s.slm.busy = false → clear s = true →
    let d (op : Nat) := stagedDesc (slmTaken op n s).slm.captured
    (buildBarred (slmTaken 1 n s) n (d 1) = true → Ends (.build path n) s fun t => t = slmEnd (slmTaken 1 n s) 1) ∧
    (∀ r a, buildBarred (slmTaken 1 n s) n (d 1) = false → descResult (slmTaken 1 n s) n (d 1) = (r, a) →
      Ends (.build path n) s fun t => t.slm.due = some r ∧ t.slm.busy = true ∧ t.engines = s.engines ∧ t.ctxs = s.ctxs ∧
        t.regions = s.regions ∧ t.sv = s.sv ∧
        (r ≠ 0 → t.slices = s.slices ∧ t.ks = s.ks) ∧
        (r = 0 → (sliceOf t n).desc = d 1 ∧ ((sliceOf t n).state = .active ∨ (sliceOf t n).state = .degraded) ∧ t.slm.buildLocked = true)) ∧
    (changeBarred (slmTaken 2 n s) n (d 2) = true → Ends (.change path n) s fun t => t = slmEnd (slmTaken 2 n s) 1) ∧
    (changeBarred (slmTaken 2 n s) n (d 2) = false → fixedBits (d 2) ≠ fixedBits (descOf s (n % 16)) →
      Ends (.change path n) s fun t => t = slmEnd (slmTaken 2 n s) 7) ∧
    (∀ a, changeBarred (slmTaken 2 n s) n (d 2) = false → fixedBits (d 2) = fixedBits (descOf s (n % 16)) →
      descResult (slmTaken 2 n s) n (d 2) = (0, a) →
      Ends (.change path n) s fun t => t.ctxs = s.ctxs ∧ t.regions = s.regions ∧ t.slm.busy = true ∧
        sliceOf t n = { sliceOf s n with state := .changing, changeTo := d 2, releasing := changeWaits s n (d 2) } ∧
        (∀ k, k ≠ n → sliceOf t k = sliceOf s k) ∧
        (∀ e ∈ changeRemoves s n (d 2), (engOf t e).removing = true) ∧ (∀ e ∈ changeWaits s n (d 2), (engOf t e).switchReq = true) ∧
        ∀ e, e ∉ changeRemoves s n (d 2) → engOf t e = engOf s e) ∧
    (n < 16 → ((sliceOf s n).state = .active ∨ (sliceOf s n).state = .degraded ∨ (sliceOf s n).state = .direct) →
      let u := slmTaken 3 n s
      clear (dissolveStart { u with slm := { u.slm with busy := true, due := none } } n cTORN_DOWN) = true →
      Ends (.dissolve path n) s fun t => (sliceOf t n).state = .dissolving ∧ (sliceOf t n).desc = descOf s n ∧
        (∀ k, k ≠ n → sliceOf t k = sliceOf s k) ∧ t.regions = s.regions) ∧
    (((sliceOf s (n % 16)).state ≠ .active ∧ (sliceOf s (n % 16)).state ≠ .degraded ∧ (sliceOf s (n % 16)).state ≠ .direct) →
      Ends (.dissolve path n) s fun t => t = slmEnd (slmTaken 3 n s) 1) ∧
    (n < 16 → (descOf s n).length = 16 → Ends (.readDesc path n) s fun t => t.slm.due = some 0 ∧
      (∀ w < 16, mget 0 t.slm.stage w = if (sliceOf s n).state = .free then 0 else dw (descOf s n) w) ∧ { t with slm := s.slm } = awake s) ∧
    (let u := slmTaken 5 n s
     let w0 := u.slm.captured.getD 0 0
     let r := regionFields w0 (u.slm.captured.getD 1 0)
     Ends (.regionWrite path n) s fun t =>
       (regionBarred u (n % 256) (bit w0 63) r = true → t = slmEnd u 1) ∧
       (regionBarred u (n % 256) (bit w0 63) r = false → bit w0 63 = true → regionBad u (n % 256) r = true → t = slmEnd u 6) ∧
       (regionBarred u (n % 256) (bit w0 63) r = false → (bit w0 63 = true → regionBad u (n % 256) r = false) →
         t.slm.due = some 0 ∧ t.slm.drain = some r.slice ∧ regionOf t (n % 256) = (if bit w0 63 then some r else none) ∧
         (∀ k, k ≠ n % 256 → regionOf t k = regionOf s k) ∧ { t with regions := s.regions, s2 := s.s2, slm := s.slm, ks := s.ks } = awake s)) ∧
    (Ends (.regionRead path n) s fun t => t.slm.due = some 0 ∧
      mget 0 t.slm.stage 0 = (match regionOf s (n % 256) with | some r => (regionWords r).getD 0 0 | none => 0) ∧
      mget 0 t.slm.stage 1 = (match regionOf s (n % 256) with | some r => (regionWords r).getD 1 0 | none => 0) ∧
      { t with slm := s.slm } = awake s)

/-- CHANGE_ENGINE_RELEASE takes an engine from its slice at a boundary; DISSOLVE_DRAIN_DONE frees the slice and hands it to retirement. An
engine that a CHANGE removes is released when its tile is closed in a running block and no access of its detaching waits: its context is
detached, its instruction cache is empty, and of the slice only the list of engines still to release loses it. A dissolving slice without a
live context and with no earlier request to drain becomes FREE with an empty descriptor: it has no regions or beads, its memory key
identifiers are retiring, and one retirement job with step 2 covers them and its window; engines, contexts and other slices stay. (R29, R48,
R70, R311, R421) -/
def Obligations.SlicesReleaseEnginesAndBecomeFree : Prop :=
  (∀ (e n : Nat) (s : State), ((List.range 16).find? fun n => (sliceOf s n).releasing.contains e) = some n → blockRuns s = true →
    (engOf s e).tileOpen = false → clear (detach s e) = true →
    Ends (.changeEngineRelease e) s fun t =>
      (engOf t e).switchReq = false ∧ (engOf t e).icache = [] ∧ ((engOf s e).ctx ≠ none → (engOf t e).ctx = none ∧ (engOf t e).spad = []) ∧
      (∀ k, k ≠ e → (engOf t k).ctx = (engOf s k).ctx ∧ (engOf t k).pc = (engOf s k).pc ∧ (engOf t k).spad = (engOf s k).spad) ∧
      t.regions = s.regions ∧
      sliceOf t n = { sliceOf s n with releasing := (sliceOf s n).releasing.filter fun k => k ≠ e } ∧
      ∀ k, k ≠ n → sliceOf t k = sliceOf s k) ∧
  (∀ (n : Nat) (s : State), n < 16 → dissolved s n = true → drainedOf s n = true → (n ≠ 0 ∨ s.slm.buildLocked = true) → clear s = true →
    let d := descOf s n
    Ends (.dissolveDrainDone n) s fun t =>
      (sliceOf t n).state = .free ∧ (sliceOf t n).desc = Slice.zero.desc ∧ (∀ k, k ≠ n → sliceOf t k = sliceOf s k) ∧
      (∀ r ∈ t.regions, r.2.slice ≠ n) ∧ (∀ r ∈ s.regions, r.2.slice ≠ n → r ∈ t.regions) ∧
      (∀ b ∈ t.sched.beads, b.2.slice = n → b.2.state = 0) ∧
      (∀ k, dKeyBase d ≤ k → k < dKeyBase d + dKeyCount d → (kidOf t k).state = .retiring) ∧
      (∃ j ∈ t.retJobs, j.step2 = true ∧ j.base = dWinBase d ∧ j.size = dWinSize d ∧ j.subs = members d ∧ j.done = [] ∧
        ∀ k, dKeyBase d ≤ k → k < dKeyBase d + dKeyCount d → k ∈ j.kids) ∧
      t.engines = s.engines ∧ t.ctxs = s.ctxs)

/-- QUEUE_DOORBELL, PORT_RING_DOORBELL, PORT_RING_ENABLE, PORT_RING_FETCH and HEAD_WRITE complete with exactly the counts of their rules. At a
host port that serves requests, where no access waits: a doorbell for a queue of that port whose context may take work sets TAIL where R429
accepts it and puts the packets it posts behind those posted before and not done, else counts in BADTAIL; one for another's queue or none
counts in FOREIGN and nothing else changes. A port ring that is on takes a TAIL that R429 accepts and may fetch, else counts BADTAIL; one
that is off changes nothing. Setting EN of a ring that was off sets HEAD and TAIL to 0 with the size written. When a packet's 64 bytes have
arrived, the ring holds its words and the tag is free. A queue whose HEAD changed has it written in memory, where that access does not wait,
and counts it as seen. (R71, R428, R429, R430, R431, R434) -/
def Obligations.DoorbellsRingsAndHeadWritesMoveTheirCounts : Prop :=
  (∀ (p queue tail : Nat) (s : State), p < s.cfg.hostPorts → portDead (awake s) p = false → clear s = true →
    Ends (.queueDoorbell p queue tail) s fun t =>
      let u := awake s
      let c (x : Queue) := ctxOf s x.ctx
      let foreign (x : Queue) := x.port ≠ p || !(portMay u p (c x).slice) || (c x).state = .tearing || (sliceOf s (c x).slice).state = .dissolving
      (queueOf s (queue % 8192) = none → t = modRing u p fun r => { r with foreign := satAdd 65535 r.foreign 1 }) ∧
      (∀ x, queueOf s (queue % 8192) = some x →
        (foreign x = true → t = modRing u p fun r => { r with foreign := satAdd 65535 r.foreign 1 }) ∧
        (foreign x = false → tailOk (64 * 2 ^ x.sizeCode) (tail % 2 ^ 32) x.tail x.head = false →
          t = modRing u p fun r => { r with badtail := satAdd 65535 r.badtail 1 }) ∧
        (foreign x = false → tailOk (64 * 2 ^ x.sizeCode) (tail % 2 ^ 32) x.tail x.head = true →
          queueOf t (queue % 8192) = some { x with tail := tail % 2 ^ 32, since := if x.head = x.tail then s.pclk else x.since } ∧ OnlyQueue (queue % 8192) s t ∧
          t.sched.fifo = s.sched.fifo.filter (unspent s) ++ [(queue % 8192, tail % 2 ^ 32)] ∧
          { t with queues := s.queues, sched := s.sched } = u ∧ { t.sched with fifo := s.sched.fifo } = s.sched))) ∧
  (∀ (p tail : Nat) (s : State), p < s.cfg.hostPorts → portDead (awake s) p = false → clear s = true →
    Ends (.portRingDoorbell p tail) s fun t =>
      let r := ringOf s p
      (r.en = false → t = awake s) ∧
      (r.en = true → tailOk (64 * 2 ^ r.sizeCode) (tail % 2 ^ 32) r.tail r.head = false →
        t = modRing (awake s) p fun r => { r with badtail := satAdd 65535 r.badtail 1 }) ∧
      (r.en = true → tailOk (64 * 2 ^ r.sizeCode) (tail % 2 ^ 32) r.tail r.head = true →
        ringOf t p = { r with tail := tail % 2 ^ 32, fetchPending := false } ∧ (∀ k, k ≠ p → ringOf t k = ringOf s k) ∧
        { t with rings := s.rings, hports := s.hports, out := s.out, tally := s.tally } = awake s)) ∧
  (∀ (p sizeCode : Nat) (s : State), p < s.cfg.hostPorts → portDead (awake s) p = false → sizeCode % 16 ≤ 12 → (ringOf s p).en = false →
    clear s = true →
    Ends (.portRingEnable p true sizeCode) s fun t =>
      ringOf t p = { ringOf s p with en := true, sizeCode := sizeCode % 16, head := 0, tail := 0, fetchPending := false } ∧
      (∀ k, k ≠ p → ringOf t k = ringOf s k) ∧ { t with rings := s.rings } = awake s) ∧
  (∀ (p : Nat) (g : HTag) (s : State), p < s.cfg.hostPorts → ((hportOf s p).tags.find? fun t => t.reader = .ring) = some g →
    g.got.length = 64 → (ringOf s p).pkt = none → clear s = true →
    Ends (.portRingFetch p) s fun t =>
      ringOf t p = { ringOf s p with pkt := some (wordsOf g.got) } ∧ (∀ k, k ≠ p → ringOf t k = ringOf s k) ∧
      (∀ x ∈ (hportOf t p).tags, x.num ≠ g.num) ∧ { t with rings := s.rings, hports := s.hports } = s) ∧
  (∀ (q : Nat) (x : Queue) (s : State), queueOf s q = some x → x.head ≠ x.headSeen →
    let u := (memWrite s (blockWho (ctxOf s x.ctx).slice) .spa x.headAddr (leBytes 8 x.head)).1
    clear u = true →
    Ends (.headWrite q) s fun t => queueOf t q = some { x with headSeen := x.head } ∧ OnlyQueue q s t ∧ { t with queues := u.queues } = u)

/-- WARP_NOP, SIGNAL, ERROR, WAIT, WAIT_RELEASE and INVALIDATE complete on a queue and, but for INVALIDATE, on a port ring. Where a ring starts
the packet and no access waits (the Tally memories awake for a WAIT): NOP changes the ring alone. SIGNAL and ERROR, with a fence that may be
named and for ERROR a tenant code, put a MAX or SETERR of the value or code last in the Tally queue of the ring's host port. WAIT holds the
queue, or leaves a host wait at the port ring, with what the fence shows at once. INVALIDATE with legal words, once the context's earlier
requests have drained, leaves no cached stage-1 translation of it in the named pages and keeps every other. A queue's HEAD passes each but a
WAIT; a port ring answers NOP, SIGNAL and ERROR with code 0. A held WAIT that is released lets the queue pass, with a code in the error
state with it; a released host wait is one no longer. (R70, R267, R434, R435, R436, R437, R440, R441, R445) -/
def Obligations.WarpPacketsPassWithTheirEffect : Prop :=
  (∀ (q : Nat) (x : Queue) (ws : List Sys2Proof.Word) (s : State), queueTakes s q x ws = true → clear s = true →
    let ty := field (ws.getD 0 0) 0 8
    let f := field (ws.getD 1 0) 0 18
    let v := ws.getD 2 0
    (ty = 0x00 → Ends (.warpNop (.queue q) ws) s fun t => QueuePassed q x t ∧ OnlyQueue q s t ∧ { t with queues := s.queues } = s) ∧
    (ty = 0x20 → fenceMay s (queuePkt s q x ws) f = true →
      Ends (.signal (.queue q) ws) s fun t => QueuePassed q x t ∧ OnlyQueue q s t ∧ FenceOpQueued x.port f .max v s t ∧
        { t with queues := s.queues, tally := s.tally, fresh := s.fresh } = s) ∧
    (ty = 0x22 → fenceMay s (queuePkt s q x ws) f = true → 0x8000 ≤ field (ws.getD 0 0) 16 16 →
      Ends (.error (.queue q) ws) s fun t => QueuePassed q x t ∧ OnlyQueue q s t ∧
        FenceOpQueued x.port f .seterr (BitVec.ofNat 64 (field (ws.getD 0 0) 16 16)) s t ∧
        { t with queues := s.queues, tally := s.tally, fresh := s.fresh } = s) ∧
    (ty = 0x21 → fenceMay s (queuePkt s q x ws) f = true → tallyReady s = true →
      let u := orphanCheck (fenceRead s f) f v
      Ends (.wait (.queue q) ws) s fun t => queueOf t q = some { x with held := some ⟨f, v, foundNow u f v⟩ } ∧ OnlyQueue q u t ∧
        { t with queues := u.queues } = u) ∧
    (ty = 0x30 → (ws.getD 1 0).toNat % 65536 = 0 → (bit (ws.getD 0 0) 16 = false ∨ ((ws.getD 1 0).toNat = 0 ∧ field v 0 32 = 0)) →
      drainedCtx s x.ctx = true →
      Ends (.invalidate (.queue q) ws) s fun t => QueuePassed q x t ∧ OnlyQueue q s t ∧ { t with queues := s.queues, atu := s.atu } = s ∧
        ∀ a, a ∈ t.atu ↔ a ∈ s.atu ∧ ¬ (a.ctx = x.ctx ∧ a.gen = x.gen ∧ (bit (ws.getD 0 0) 16 = true ∨
          ((ws.getD 1 0).toNat / 65536 ≤ a.page ∧ a.page < (ws.getD 1 0).toNat / 65536 + field v 0 32))))) ∧
  (∀ (p : Nat) (ws : List Sys2Proof.Word) (s : State), portTakes s p ws = true → clear s = true →
    let ty := field (ws.getD 0 0) 0 8
    let f := field (ws.getD 1 0) 0 18
    let v := ws.getD 2 0
    (ty = 0x00 → Ends (.warpNop (.port p) ws) s fun t => Answered p ws 0 0 s t) ∧
    (ty = 0x20 → fenceMay s (portPkt s p ws) f = true →
      Ends (.signal (.port p) ws) s fun t => ∃ u, Answered p ws 0 0 u t ∧ FenceOpQueued p f .max v s u ∧
        { u with tally := s.tally, fresh := s.fresh } = s) ∧
    (ty = 0x22 → fenceMay s (portPkt s p ws) f = true → 0x8000 ≤ field (ws.getD 0 0) 16 16 →
      Ends (.error (.port p) ws) s fun t => ∃ u, Answered p ws 0 0 u t ∧
        FenceOpQueued p f .seterr (BitVec.ofNat 64 (field (ws.getD 0 0) 16 16)) s u ∧ { u with tally := s.tally, fresh := s.fresh } = s) ∧
    (ty = 0x21 → fenceMay s (portPkt s p ws) f = true → tallyReady s = true →
      let u := orphanCheck (fenceRead s f) f v
      Ends (.wait (.port p) ws) s fun t => (ringOf t p).head = ((ringOf s p).head + 1) % 2 ^ 32 ∧ (ringOf t p).pkt = none ∧
        (ringOf t p).waits = (ringOf u p).waits ++ [(⟨f, v, foundNow u f v⟩, statusOf s p (ringOf s p).head ws)])) ∧
  (∀ (q code f i : Nat) (v : Sys2Proof.Word) (x : Queue) (s : State), queueOf s q = some x → x.held = some ⟨f, v, some code⟩ → clear s = true →
    Ends (.waitRelease (.queue q) i) s fun t => QueuePassed q x t ∧
      (∃ y, queueOf t q = some y ∧ y.held = none ∧ (code = 0 → y.err = x.err) ∧ (code ≠ 0 → y.err = true ∧ y.code = code % 65536)) ∧
      { t with queues := s.queues } = s) ∧
  (∀ (p code f i : Nat) (v : Sys2Proof.Word) (a : StatusAt) (s : State), p < s.cfg.hostPorts → (ringOf s p).waits[i]? = some (⟨f, v, some code⟩, a) →
    clear s = true →
    Ends (.waitRelease (.port p) i) s fun t => (ringOf t p).waits = (ringOf s p).waits.eraseIdx i ∧
      { t with rings := s.rings, hports := s.hports, out := s.out, tally := s.tally } = s)

/-- LAUNCH and LAUNCH_EXT start the context's program on a queue or a port ring; FEATURES fixes the agreed bitmap of the port. Where a ring
starts a LAUNCH with EXT = 1 and no access waits, it keeps the header address and arguments for the next packet. Where it starts a LAUNCH
with EXT = 0, or the LAUNCH_EXT behind a kept one, for a LIVE context that runs no program, is not leaving its engine, is not barred by
another step and has a place with a Bolt region, and the header reads without a wait and meets its rules, the context records the program,
its fields and how many packets it stands for, its registers hold the arguments in s1 to s8 and PC at ENTRY, and the ring is busy. Where the
server of a port ring processes FEATURES before any agreement, the agreed bitmap is the AND of the offer and the words. (R167, R169, R170,
R434, R435, R436, R438, R449) -/
def Obligations.LaunchesAndNegotiationComplete : Prop :=
  (∀ (q : Nat) (x : Queue) (ws : List Sys2Proof.Word) (s : State), queueTakes s q x ws = true → field (ws.getD 0 0) 0 8 = 0x10 →
    bit (ws.getD 0 0) 16 = true → clear s = true →
    Ends (.launch (.queue q) ws) s fun t =>
      queueOf t q = some { x with ext := some (field (ws.getD 0 0) 18 46 * 64, (List.range 7).map fun i => ws.getD (i + 1) 0) } ∧
      OnlyQueue q s t ∧ { t with queues := s.queues } = s) ∧
  (∀ (p : Nat) (ws : List Sys2Proof.Word) (s : State), portTakes s p ws = true → field (ws.getD 0 0) 0 8 = 0x10 →
    bit (ws.getD 0 0) 16 = true → clear s = true →
    Ends (.launch (.port p) ws) s fun t =>
      (ringOf t p).ext = some (field (ws.getD 0 0) 18 46 * 64, (List.range 6).map fun i => ws.getD (i + 1) 0, statusOf s p (ringOf s p).head ws) ∧
      (ringOf t p).head = (ringOf s p).head ∧ (ringOf t p).pkt = none ∧ t.ctxs = s.ctxs ∧ t.queues = s.queues) ∧
  (∀ (q hdr : Nat) (x : Queue) (ws args : List Sys2Proof.Word) (ext : Bool) (e k bw uses code entry : Nat) (rg : BoltRegion)
      (bs : List Sys2Proof.Byte) (s : State),
    queueTakes s q x ws = true → field (ws.getD 0 0) 0 8 = (if ext then 0x11 else 0x10) →
    (ext = true → ∃ a, x.ext = some (hdr, a) ∧ args = a ++ [ws.getD 1 0]) →
    (ext = false → bit (ws.getD 0 0) 16 = false ∧ hdr = field (ws.getD 0 0) 18 46 * 64 ∧ args = (List.range 7).map fun i => ws.getD (i + 1) 0) →
    launchMay s (.queue q) x.ctx hdr (if ext then 2 else 1) none e k rg bs bw uses code entry →
    Ends (if ext then .launchExt (.queue q) ws else .launch (.queue q) ws) s fun t =>
      Launched s x.ctx hdr (if ext then 2 else 1) e k rg bw uses code entry args t ∧ ∃ y, queueOf t q = some y ∧ y.busy = true ∧ y.head = x.head) ∧
  (∀ (p hdr : Nat) (ws args : List Sys2Proof.Word) (ext : Bool) (at' : StatusAt) (e k bw uses code entry : Nat) (rg : BoltRegion)
      (bs : List Sys2Proof.Byte) (s : State),
    portTakes s p ws = true → field (ws.getD 0 0) 0 8 = (if ext then 0x11 else 0x10) →
    (ext = true → ∃ a, (ringOf s p).ext = some (hdr, a, at') ∧ args = a ++ [ws.getD 2 0, ws.getD 1 0]) →
    (ext = false → bit (ws.getD 0 0) 16 = false ∧ hdr = field (ws.getD 0 0) 18 46 * 64 ∧ at' = statusOf s p (ringOf s p).head ws ∧
      args = (List.range 6).map fun i => ws.getD (i + 1) 0) →
    launchMay s (.port p) p hdr (if ext then 2 else 1) (some at') e k rg bs bw uses code entry →
    Ends (if ext then .launchExt (.port p) ws else .launch (.port p) ws) s fun t =>
      Launched s p hdr (if ext then 2 else 1) e k rg bw uses code entry args t ∧ (ringOf t p).busy = true ∧ (ringOf t p).head = (ringOf s p).head) ∧
  (∀ (p : Nat) (ws : List Sys2Proof.Word) (s : State), portTakes s p ws = true → field (ws.getD 0 0) 0 8 = 0x80 → (ringOf s p).agreed = none →
    clear s = true →
    Ends (.features (.port p) ws) s fun t =>
      (ringOf t p).agreed = some (offer s &&& ((ws.getD 1 0).toNat + (ws.getD 2 0).toNat * 2 ^ 64)) ∧
      (ringOf t p).head = ((ringOf s p).head + 1) % 2 ^ 32 ∧ (ringOf t p).pkt = none ∧
      { t with rings := s.rings, hports := s.hports, out := s.out, tally := s.tally } = s)

/-- CTX_CREATE, Q_CREATE, Q_DESTROY, Q_RESET, FENCE_ALLOC, FENCE_FREE, FENCE_CLEAR, MEM_OBJ and MEM_FREE complete and report their RESULT. Where
the server of port p processes the packet, the Tally memories are awake and no access waits (of Q_DESTROY, not the reads of the packets it
discards): CTX_CREATE whose words, slice, roots, Tally and fence are as R426 asks makes the context LIVE with them and reports the fault
fence and generation; Q_CREATE for a LIVE context below 16 queues adds the lowest free queue and reports its number; Q_DESTROY of a queue
without a launch in progress removes it; Q_RESET of a queue of a LIVE context clears its error; FENCE_ALLOC makes the lowest free fence LIVE
with the value given; FENCE_FREE frees it; FENCE_CLEAR makes an errored fence LIVE with CODE 0 and leaves another; MEM_OBJ of a legal range
records it under the lowest free handle; MEM_FREE removes it. (R424, R426, R427, R436, R437, R443) -/
def Obligations.PortRingPacketsManageObjects : Prop :=
  ∀ (p : Nat) (ws : List Sys2Proof.Word) (s : State), portTakes s p ws = true → tallyReady s = true →
    let w (i : Nat) := ws.getD i 0
    let k := portPkt s p ws
    let ty := field (w 0) 0 8
    let c := field (w 0) 16 11
    let gen := field (w 0) 32 8
    let f := field (w 1) 0 18
    let q := field (w 0) 16 13
    (ty = 0x81 → ∀ (s1 s2 : State) (ff : Nat),
      let n := field (w 0) 28 4
      (w 1).toNat % 65536 = 0 → (w 1).toNat < 2 ^ 44 → (w 2).toNat % 64 = 0 → (w 2).toNat < 2 ^ 52 → (w 3).toNat % 1024 = 0 →
      (w 3).toNat < 2 ^ 44 → 0 < field (w 4) 0 8 → field (w 4) 0 8 ≤ 128 → field (w 4) 8 11 ≤ 1024 → field (w 4) 19 11 ≤ 1024 →
      portMay s p n = true → dCtxBase (descOf s n) ≤ c → c < dCtxBase (descOf s n) + dCtxCount (descOf s n) → sliceLive s n = true →
      (ctxOf s c).state = .free → runnable s n = true → regionAt s n (w 1).toNat ≠ none → regionAt s n (w 3).toNat ≠ none →
      giveTally s 0 c (field (w 4) 8 11) = some s1 → giveTally s1 1 c (field (w 4) 19 11) = some s2 → freeFence s2 (field (w 0) 32 1) = some ff →
      Ends (.ctxCreate (.port p) ws) s fun t => ∃ u, Answered p ws 0 (ff + 2 ^ 18 * (ctxOf s c).gen) u t ∧
        ctxOf u c = { Ctx.zero with state := .live, slice := n, gen := (ctxOf s c).gen, ffence := ff, root := (w 1).toNat, faultRec := (w 2).toNat,
                                    spill := (w 3).toNat, bolt := field (w 4) 0 8, key := streamKeyOf s n c (w 5), lastEnd := s.pclk,
                                    sched := homeSched s n } ∧
        fenceOf u ff = ⟨0, 1, 0, 0, n, c, (ctxOf s c).gen⟩ ∧ (∀ j, j ≠ c → { ctxOf u j with waitOn := (ctxOf s j).waitOn } = ctxOf s j)) ∧
    (ty = 0x83 → field (w 0) 44 4 ≤ 12 → (w 1).toNat % (4096 * 2 ^ field (w 0) 44 4) = 0 → (w 1).toNat < 2 ^ 44 → (w 2).toNat % 8 = 0 →
      (w 2).toNat < 2 ^ 44 → ctxFault s k c gen false = none → (queuesOf s c gen).length < 16 →
      ∀ n, ((List.range 8192).find? fun q => (queueOf s q).isNone) = some n →
      Ends (.qCreate (.port p) ws) s fun t => ∃ u x, Answered p ws 0 n u t ∧ queueOf u n = some x ∧ x.ctx = c ∧ x.gen = gen ∧ x.port = p ∧
        x.head = 0 ∧ x.tail = 0 ∧ x.base = (w 1).toNat ∧ x.sizeCode = field (w 0) 44 4 ∧ x.headAddr = (w 2).toNat ∧ x.lc = bit (w 0) 40 ∧
        x.err = false ∧ OnlyQueue n s u ∧ { u with queues := s.queues } = s) ∧
    (ty = 0x84 → ∀ x, queueOf s q = some x → portMay s p (ctxOf s x.ctx).slice = true → x.busy = false →
      clear (discardPackets s (ctxOf s x.ctx).slice q x cTORN_DOWN) = true →
      Ends (.qDestroy (.port p) ws) s fun t => ∃ u, Answered p ws 0 0 u t ∧ queueOf u q = none) ∧
    (ty = 0x85 → ∀ x, queueOf s q = some x → portMay s p (ctxOf s x.ctx).slice = true → (ctxOf s x.ctx).state = .live →
      (ctxOf s x.ctx).gen = x.gen →
      Ends (.qReset (.port p) ws) s fun t => ∃ u, Answered p ws 0 0 u t ∧ queueOf u q = some { x with err := false, code := 0 } ∧
        OnlyQueue q s u ∧ { u with queues := s.queues } = s) ∧
    (ty = 0x86 → ctxFault s k c gen true = none → ∀ n, freeFence s (field (w 0) 40 1) = some n →
      Ends (.fenceAlloc (.port p) ws) s fun t => ∃ u, Answered p ws 0 n u t ∧ fenceOf u n = ⟨w 1, 1, 0, 0, (ctxOf s c).slice, c, gen⟩) ∧
    (ty = 0x87 → fenceMay s k f = true →
      Ends (.fenceFree (.port p) ws) s fun t => ∃ u, Answered p ws 0 0 u t ∧ fenceOf u f = Fence.zero) ∧
    (ty = 0x88 → fenceMay s k f = true →
      Ends (.fenceClear (.port p) ws) s fun t => ∃ u, Answered p ws 0 0 u t ∧ { u with tally := s.tally } = s ∧
        fenceOf u f = if (fenceOf s f).state = 2 then { fenceOf s f with state := 1, code := 0 } else fenceOf s f) ∧
    (ty = 0x89 → ∀ r h, (w 1).toNat % 65536 = 0 → (w 2).toNat % 65536 = 0 → (w 2).toNat ≠ 0 → ctxFault s k c gen false = none →
      regionOf s (field (w 0) 40 8) = some r → r.slice = (ctxOf s c).slice → mib2 * r.base ≤ (w 1).toNat →
      (w 1).toNat + (w 2).toNat ≤ mib2 * (r.base + r.size) →
      (∀ o ∈ s.memObjs, (o.2.ctx = c ∧ o.2.gen = gen) ∨ (ctxOf s o.2.ctx).slice ≠ (ctxOf s c).slice ∨ (w 1).toNat + (w 2).toNat ≤ o.2.base ∨
        o.2.base + o.2.size ≤ (w 1).toNat) →
      ((List.range 4096).find? fun h => !(s.memObjs.any fun o => o.1 = h)) = some h →
      Ends (.memObj (.port p) ws) s fun t => ∃ u, Answered p ws 0 h u t ∧ { u with memObjs := s.memObjs } = s ∧
        (h, (⟨c, gen, field (w 0) 40 8, (w 1).toNat, (w 2).toNat⟩ : MemObj)) ∈ u.memObjs ∧ ∀ o ∈ s.memObjs, o ∈ u.memObjs) ∧
    (ty = 0x8A → ∀ o, (s.memObjs.find? fun o => o.1 = field (w 0) 16 12) = some o → portMay s p (ctxOf s o.2.ctx).slice = true →
      Ends (.memFree (.port p) ws) s fun t => ∃ u, Answered p ws 0 0 u t ∧ { u with memObjs := s.memObjs } = s ∧
        ∀ y, y ∈ u.memObjs ↔ y ∈ s.memObjs ∧ y.1 ≠ field (w 0) 16 12)

/-- CTX_DESTROY starts a teardown; TEARDOWN_DRAIN_DONE frees the context under the next generation. Where the server of port p processes
CTX_DESTROY of a LIVE or FAULTED context it may name, and no access that the teardown starts with waits, the context is TEARING, its queued
asynchronous operations and unstarted Shuttle operations are gone, engines that run it are asked to switch, and the ring is busy. When
nothing of a context at step 4 is outstanding and no access waits, the end of the teardown leaves it FREE (or LIVE again for the
dispatcher's own) with its generation risen by one modulo 256, with no queue, memory object, cached translation or valid Bolt region of the
old generation, and every other context as before. (R446, R450) -/
def Obligations.TeardownsReleaseTheContextAndRaiseItsGeneration : Prop :=
  (∀ (p : Nat) (ws : List Sys2Proof.Word) (s : State), portTakes s p ws = true → field (ws.getD 0 0) 0 8 = 0x82 →
    let c := field (ws.getD 0 0) 16 11
    ctxFault s (portPkt s p ws) c (field (ws.getD 0 0) 32 8) true = none →
    clear (tearStart (modRing s p fun x => { x with busy := true }) c cTORN_DOWN (some (statusOf s p (ringOf s p).head ws)) false) = true →
    Ends (.ctxDestroy (.port p) ws) s fun t =>
      (ctxOf t c).state = .tearing ∧ (∃ d, (ctxOf t c).tear = some d ∧ d.relive = false) ∧ (ringOf t p).busy = true ∧
      (∀ a ∈ t.asyncs, a.ctx = c → a.gen = (ctxOf s c).gen → a.queued = false) ∧
      (∀ k o, o ∈ (clOf t k).shuttle → o.ctx = c → o.gen = (ctxOf s c).gen → o.started = true) ∧
      (∀ e g, (e, g) ∈ t.engines → g.ctx = some (c, (ctxOf s c).gen) → g.switchReq = true)) ∧
  (∀ (c : Nat) (td : Teardown) (s : State), (ctxOf s c).tear = some td → td.step = 4 → drained s c = true → clear s = true →
    Ends (.teardownDrainDone c) s fun t =>
      (ctxOf t c).gen = ((ctxOf s c).gen + 1) % 256 ∧ (ctxOf t c).tear = none ∧
      (ctxOf t c).state = (if td.relive && directCtx s 0 then .live else .free) ∧
      (∀ q ∈ t.queues, ¬ (q.2.ctx = c ∧ q.2.gen = (ctxOf s c).gen)) ∧ (∀ o ∈ t.memObjs, ¬ (o.2.ctx = c ∧ o.2.gen = (ctxOf s c).gen)) ∧
      (∀ a ∈ t.atu, ¬ (a.ctx = c ∧ a.gen = (ctxOf s c).gen)) ∧
      (∀ k i, k < s.cfg.clusters → i < 64 → ¬ ((boltRegion t k i).valid = true ∧ (boltRegion t k i).ctx = c ∧
        (boltRegion t k i).gen = (ctxOf s c).gen)) ∧
      ∀ k, k ≠ c → ctxOf t k = ctxOf s k)

/-- STEP_OPEN, GANG_START, GANG_TIMEOUT and STEP_CLOSE complete: steps open and close, gangs start together or fail together. Where a queue
starts STEP_OPEN with COUNT 0 and neither it nor, by R390, another queue of the context has a step open: on an engine that holds the context
and keeps it, where the rod (if any) opens without a wait, the step is open, HEAD passes and an opened rod counts the step; else the queue
waits for its context, which is ready, to be placed. With a legal list that the slice's engines can serve, read without a wait, it waits for
that gang. A gang whose members are all ready, of distinct contexts, can be placed at once on the engines named and have no rods starts:
each context is on its engine, every step is open and HEAD passes. When GANG_WAIT has passed, every waiting member is in the error state
with GANG_TIMEOUT. STEP_CLOSE of an open step without a rod or signal, in a queue without an error, closes it, counts it in context and
slice, and HEAD passes. (R390, R391, R392, R410, R412, R413, R416, R435) -/
def Obligations.StepsAndGangsOpenAndClose : Prop :=
  (∀ (q : Nat) (x : Queue) (ws : List Sys2Proof.Word) (s : State), queueTakes s q x ws = true → field (ws.getD 0 0) 0 8 = 1 →
    field (ws.getD 0 0) 16 8 = 0 → ws.getD 1 0 = 0 → x.stepOpen = false → otherStep s x.ctx q = false →
    (∀ u, (ctxOf s x.ctx).eng.isSome = true → leaving s x.ctx = false → openRod s (ctxOf s x.ctx).slice x.ctx x.gen q = (u, none) →
      clear u = true →
      Ends (.stepOpen (.queue q) ws) s fun t => QueuePassed q x t ∧ (∃ y, queueOf t q = some y ∧ y.stepOpen = true ∧ y.gang = none) ∧
        (rodOf s q = none → { t with queues := s.queues } = s) ∧
        (∀ i r, rodOf s q = some (i, r) → ∃ r', (i, r') ∈ t.sched.rods ∧ r'.isOpen = true ∧ r'.steps = r.steps + 1)) ∧
    (((ctxOf s x.ctx).eng.isSome = false ∨ leaving s x.ctx = true) → clear s = true →
      Ends (.stepOpen (.queue q) ws) s fun t => queueOf t q = some { x with opening := true } ∧ OnlyQueue q s t ∧ x.ctx ∈ t.sched.ready ∧
        { t with queues := s.queues, sched := s.sched, engines := s.engines } = s)) ∧
  (∀ (q : Nat) (x : Queue) (ws : List Sys2Proof.Word) (bs : List Sys2Proof.Byte) (s : State), queueTakes s q x ws = true →
    field (ws.getD 0 0) 0 8 = 1 →
    let n := field (ws.getD 0 0) 16 8
    let va := (ws.getD 1 0).toNat
    let sl := (ctxOf s x.ctx).slice
    let r := memRead s (engWho s (lowestEng s sl (homeCluster s sl)) x.ctx x.gen 0) .va va (2 * n)
    0 < n → n ≤ 192 → va % 8 = 0 → x.stepOpen = false → otherStep s x.ctx q = false → n ≤ (dEngines (descOf s sl)).length → r.2 = .ok bs →
    gangListOk r.1 sl q (gangList bs n) = true → clear r.1 = true →
    Ends (.stepOpen (.queue q) ws) s fun t => queueOf t q = some { x with gang := some (gangList bs n, s.pclk) } ∧
      OnlyQueue q s t ∧ { t with queues := r.1.queues } = r.1) ∧
  (∀ (q at' : Nat) (l place : List Nat) (s : State), gangOf s q = some (l, at') → place.length = l.length →
    place.eraseDups.length = place.length → l.Nodup → (gangCtxs s l).eraseDups.length = l.length → s.cfg.halves ≠ 0 →
    (∀ m ∈ l, rodOf s m = none) → (∀ m e, (m, e) ∈ l.zip place → gangReady s l m = true ∧ gangPlace s m e = true) → clear s = true →
    Ends (.gangStart q place) s fun t =>
      (∀ m e y, (m, e) ∈ l.zip place → queueOf s m = some y →
        (∃ z, queueOf t m = some z ∧ z.stepOpen = true ∧ z.gang = none ∧ z.head = (y.head + 1) % 2 ^ 32) ∧
        (ctxOf t y.ctx).eng = some e ∧ (engOf t e).ctx = some (y.ctx, (ctxOf s y.ctx).gen)) ∧
      { t with queues := s.queues, ctxs := s.ctxs, engines := s.engines, sched := s.sched, reqErrs := s.reqErrs } = s) ∧
  (∀ (q at' : Nat) (l : List Nat) (x : Queue) (s : State), queueOf s q = some x → x.gang = some (l, at') →
    (slSchedOf s (ctxOf s x.ctx).slice).gangWait ≠ 0 →
    (∃ m ∈ s.queues, m.2.gang.map (·.1) = some l ∧
      (m.2.gang.map (·.2)).getD 0 + 800000 * (slSchedOf s (ctxOf s x.ctx).slice).gangWait ≤ s.pclk) → clear s = true →
    Ends (.gangTimeout q) s fun t =>
      (∀ m ∈ t.queues, m.2.gang.map (·.1) ≠ some l) ∧
      (∀ m y, queueOf s m = some y → y.gang.map (·.1) = some l →
        ∃ z, queueOf t m = some z ∧ z.err = true ∧ z.code = cGANG_TIMEOUT ∧ z.gang = none) ∧ { t with queues := s.queues } = s) ∧
  (∀ (q : Nat) (x : Queue) (ws : List Sys2Proof.Word) (s : State), queueTakes s q x ws = true → field (ws.getD 0 0) 0 8 = 2 →
    (ws.getD 1 0).toNat % 8 = 0 → bit (ws.getD 2 0) 63 = false → x.stepOpen = true → rodOf s q = none → clear s = true →
    Ends (.stepClose (.queue q) ws) s fun t => QueuePassed q x t ∧ OnlyQueue q s t ∧ (∃ y, queueOf t q = some y ∧ y.stepOpen = false) ∧
      (slSchedOf t (ctxOf s x.ctx).slice).steps = satAdd 0xFFFFFFFF (slSchedOf s (ctxOf s x.ctx).slice).steps 1 ∧
      (ctxOf t x.ctx).lastEnd = s.pclk ∧ (ctxOf t x.ctx).acc.steps = satAdd 0xFFFFFFFF (ctxOf s x.ctx).acc.steps 1 ∧
      (ctxOf t x.ctx).acc.cur = 0 ∧ (∀ k, k ≠ x.ctx → ctxOf t k = ctxOf s k) ∧
      { t with queues := s.queues, ctxs := s.ctxs, sched := s.sched } = s)

/-- ROD_CONFIG, BEAD_ALLOC, BEAD_UPDATE, BEAD_LEAVE, BEAD_FREE and SLCFG_WRITE complete with their change of the rod, bead or quota. Where a
queue starts the packet and no access waits (for BEAD_ALLOC, not the write of its index): ROD_CONFIG of a queue without a rod creates the
lowest free rod with its parameters. BEAD_ALLOC below the quota, with its index written, makes the lowest free bead WAITING in the queue's
rod. BEAD_UPDATE replaces a bead's KV list, pages and MAXPOS, at the next open where it is RUNNING. BEAD_LEAVE makes a WAITING or STARVED
bead DONE and marks a RUNNING one. BEAD_FREE frees a DONE or ERROR bead. A secure SLCFG_WRITE within the quotas changes exactly the slice's
four fields. (R406, R408, R409, R410, R419, R420) -/
def Obligations.RodsAndBeadsFollowTheirPackets : Prop :=
  (∀ (q : Nat) (x : Queue) (ws : List Sys2Proof.Word) (s : State), queueTakes s q x ws = true → clear s = true →
    let ty := field (ws.getD 0 0) 0 8
    let sl := (ctxOf s x.ctx).slice
    let b := field (ws.getD 0 0) 16 16
    let y := beadOf s b
    let only (t : State) : Prop := { t with queues := s.queues, sched := s.sched } = s ∧ OnlyQueue q s t ∧ ∀ k, k ≠ b → beadOf t k = beadOf s k
    (ty = 0x40 → ∀ i, bit (ws.getD 0 0) 16 = false → field (ws.getD 1 0) 16 16 ≠ 0 → (shAddr (ws.getD 2 0)).isSome = true →
      rodOf s q = none → ((List.range 1024).find? fun i => !(s.sched.rods.any fun x => x.1 = i)) = some i →
      Ends (.rodConfig (.queue q) ws) s fun t => QueuePassed q x t ∧
        (i, (⟨false, q, field (ws.getD 1 0) 0 13 + 1, field (ws.getD 1 0) 32 16, field (ws.getD 1 0) 16 16, ws.getD 2 0, 0, [], none⟩ : Rod))
          ∈ t.sched.rods ∧ t.sched.beads = s.sched.beads ∧ OnlyQueue q s t ∧ { t with queues := s.queues, sched := s.sched } = s) ∧
    (ty = 0x41 → ∀ n, (ws.getD 3 0).toNat % 8 = 0 → (ws.getD 5 0).toNat % 4 = 0 → beadCount s sl < (slSchedOf s sl).beadQuota →
      ((List.range 65536).find? fun b => (beadOf s b).state = 0) = some n →
      let u := memWrite s (engWho s (lowestEng s sl (homeCluster s sl)) x.ctx x.gen 0) .va (ws.getD 5 0).toNat (leBytes 4 n)
      u.2 = none → clear u.1 = true →
      Ends (.beadAlloc (.queue q) ws) s fun t => QueuePassed q x t ∧ OnlyQueue q s t ∧
        beadOf t n = { slice := sl, state := 1, leaveReq := false, rod := q, pos := field (ws.getD 1 0) 0 32,
                       maxpos := field (ws.getD 1 0) 32 32, npages := field (ws.getD 2 0) 0 32, kvlist := (ws.getD 3 0).toNat,
                       tag := ws.getD 4 0, upd := none } ∧
        t.sched.order.getLast? = some n ∧ (∀ k, k ≠ n → beadOf t k = beadOf s k) ∧
        { t with queues := u.1.queues, sched := u.1.sched } = u.1) ∧
    (y.slice = sl →
      (ty = 0x42 → (ws.getD 2 0).toNat % 8 = 0 → (y.state = 1 ∨ y.state = 2 ∨ y.state = 3) →
        Ends (.beadUpdate (.queue q) ws) s fun t => QueuePassed q x t ∧ only t ∧
          beadOf t b = (if y.state = 2 then
              { y with upd := some ((ws.getD 2 0).toNat, field (ws.getD 1 0) 0 32, field (ws.getD 1 0) 32 32) }
            else { y with kvlist := (ws.getD 2 0).toNat, npages := field (ws.getD 1 0) 0 32, maxpos := field (ws.getD 1 0) 32 32 })) ∧
      (ty = 0x43 → (y.state = 1 ∨ y.state = 2 ∨ y.state = 3) →
        Ends (.beadLeave (.queue q) ws) s fun t => QueuePassed q x t ∧ only t ∧
          beadOf t b = (if y.state = 2 then { y with leaveReq := true } else { y with state := 4 })) ∧
      (ty = 0x44 → (y.state = 4 ∨ y.state = 5) →
        Ends (.beadFree (.queue q) ws) s fun t => QueuePassed q x t ∧ only t ∧ beadOf t b = Bead.zero))) ∧
  (∀ (path : Sys2Proof.Path) (n : Nat) (v : Sys2Proof.Word) (s : State), secReach path s = true → n < 16 →
    quotaSum s n (field v 32 17) ≤ 65536 → beadCount s n ≤ field v 32 17 → clear s = true →
    Ends (.slcfgWrite path n v) s fun t =>
      slSchedOf t n = { slSchedOf s n with gangWait := field v 56 8, beadQuota := field v 32 17, qbe := field v 16 16, qlc := field v 0 16 } ∧
      (∀ k, k ≠ n → slSchedOf t k = slSchedOf s k) ∧ { t with sched := s.sched } = awake s)

/-- LOAD, STAGE, ACTIVATE, DISCARD, IMAGE_READ_DONE, watchdogs, crashes and restarts complete with the firmware states of their rules. Where no
access waits, from the secure world, with the unit not busy: LOAD in ABSENT or FAILED and STAGE with an image running and none staged start
the read of LEN bytes through a working port; ACTIVATE of a staged image stops every processor that owns a cluster or serves the block and
runs the image at once, or is deferred with 0x08 in an emergency; DISCARD drops it. When the last read is out and the bytes agree with those
that came, a failed check gives its RESULT, a LOAD runs the image, a STAGE keeps it. A watchdog or a crash puts the processor into restart
and counts; a finished restart runs it or stops it and sets FAILED. (R22, R455, R457, R458, R459, R460, R461, R462, R464) -/
def Obligations.FirmwareImagesAndProcessorsChangeState : Prop :=
  (∀ (path : Sys2Proof.Path) (port : Nat) (s : State), pathUp (awake s) path = true → pathSecure s.cfg path = true →
    (awake s).fc.blockSafe = false → s.fw.busy = false → clear s = true →
    ((s.fw.state = 0 ∨ s.fw.state = 3) → port < s.cfg.hostPorts → portDown (awake s) port = false →
      Ends (.load path port) s fun t => t.fw = { s.fw with busy := true, op := some (1, port), state := 1 } ∧
        ∃ g ∈ (hportOf t port).tags, g.reader = .firmware ∧ g.len = s.fw.len ∧ g.addr = s.fw.addr.toNat) ∧
    (s.fw.state = 2 → s.fw.staged = 0 → port < s.cfg.hostPorts → portDown (awake s) port = false →
      Ends (.stage path port) s fun t => t.fw = { s.fw with busy := true, op := some (2, port), staged := 1 } ∧
        ∃ g ∈ (hportOf t port).tags, g.reader = .firmware ∧ g.len = s.fw.len ∧ g.addr = s.fw.addr.toNat) ∧
    (s.fw.staged = 2 →
      Ends (.activate path) s fun t =>
        (emergOver s = true → t.fw.staged = 4 ∧ t.fw.running = s.fw.image ∧ t.fw.image = none ∧ t.fw.result = 0 ∧
          ∀ k, (procOf t k).pstate = if k ∈ runningProcs s.cfg then 2 else (procOf s k).pstate) ∧
        (emergOver s = false → t.fw = { s.fw with staged := 3, result := 8, errDeferred := true })) ∧
    ((s.fw.staged = 2 ∨ s.fw.staged = 3) →
      Ends (.discard path) s fun t => t = { awake s with fw := { s.fw with staged := 0, image := none, result := 0 } })) ∧
  (∀ s : State, s.fw.staged = 3 → emergOver s = true → clear s = true →
    Ends .deferredActivationStart s fun t => t.fw.staged = 4 ∧ t.fw.running = s.fw.image ∧ t.fw.image = none ∧
      ∀ k, (procOf t k).pstate = if k ∈ runningProcs s.cfg then 2 else (procOf s k).pstate) ∧
  (∀ (img : List Sys2Proof.Byte) (op port : Nat) (s : State), s.fw.op = some (op, port) → img.length = s.fw.len →
    readOut s port .firmware img = true → clear s = true →
    Ends (.imageReadDone img) s fun t => t.fw.busy = false ∧ t.fw.op = none ∧
      (∀ r, verifyImage s.fw.len s.lc.current s.minSvn img = .inl r → t.fw.result = r ∧ t.fw.running = s.fw.running ∧ t.fw.procs = s.fw.procs) ∧
      (∀ im, verifyImage s.fw.len s.lc.current s.minSvn img = .inr im → t.fw.result = 0 ∧
        (op = 1 → t.fw.state = 2 ∧ t.fw.running = some im ∧
          ∀ k, (procOf t k).pstate = if k ∈ runningProcs s.cfg then 1 else (procOf s k).pstate) ∧
        (op ≠ 1 → t.fw.staged = 2 ∧ t.fw.image = some im ∧ t.fw.running = s.fw.running ∧ t.fw.procs = s.fw.procs))) ∧
  (∀ (k : Nat) (s : State), k < 8 → procUp s k = true → clear s = true →
    Ends (.fwWatchdogExpiry k) s fun t => (procOf t k).pstate = 2 ∧ (procOf t k).wdog = satAdd 65535 (procOf s k).wdog 1 ∧
      (procOf t k).restarts = satAdd 65535 (procOf s k).restarts 1 ∧ ∀ j, j ≠ k → procOf t j = procOf s j) ∧
  (∀ (k : Nat) (s : State), k < 8 → ((procOf s k).pstate = 1 ∨ (procOf s k).pstate = 2) → clear s = true →
    Ends (.fwProcessorCrash k) s fun t => (procOf t k).pstate = 2 ∧ (procOf t k).restarts = satAdd 65535 (procOf s k).restarts 1 ∧
      (k = 6 → t.ks.sessions = []) ∧ ∀ j, j ≠ k → procOf t j = procOf s j) ∧
  (∀ (k : Nat) (ok : Bool) (s : State), k < 8 → (procOf s k).pstate = 2 → clear s = true →
    Ends (.fwRestartDone k ok) s fun t => (procOf t k).pstate = (if ok then 1 else 0) ∧
      (ok = false → t.fw.state = 3 ∧ t.fw.errFailed = true) ∧ ∀ j, j ≠ k → procOf t j = procOf s j)

/-- The key store's commands, DRBG_RESEED, ENTROPY_HEALTH_FAIL and SLOT_SCAN complete with their effect and the RESULT due next. From the secure
world in a running block with a root, the store idle and the Tally memories awake, each command records its OP, sets BUSY and leaves the
RESULT it ends with. IMPORT, GENERATE and ERASE refuse a slice, kind or identifier by R480 and change nothing then; an IMPORT that does not
end with 0 changes nothing; a GENERATE for a free memory identifier installs a key with no use counted. ERASE of a held identifier ends with
0x06, of one without a key with 0x01, else a memory key is retiring and a link key gone. OWNER_BIND before MEASURE of an accepted owner
records hash and sub-ranges; CERT_LOAD of a piece that fits keeps its bytes; DEVID_READ and PIK_READ stage the public keys. A slot scan that
finds a slot and blob of a memory key bad loses that key only. (R45, R467, R468, R476, R478, R479, R480, R481, R482) -/
def Obligations.KeyStoreCommandsInstallEraseAndReport : Prop :=
  (∀ (path : Sys2Proof.Path) (s : State), cmdReach path s = true → s.ks.busy = false → s.ks.root = 1 → tallyReady s = true →
    let ws := ksWords s
    let f := ksFields ws
    let id := f.2.2.2
    let took (op r : Nat) (t : State) : Prop := t.ks.lastOp = op ∧ t.ks.busy = true ∧ t.ks.due = some r
    let refused (op r : Nat) (t : State) : Prop := t = { awake s with ks := { s.ks with lastOp := op, busy := true, due := some r } }
    (∀ r, openFault s f.1 f.2.1 id = some r →
      Ends (.importKey path) s (refused 1 r) ∧ Ends (.generate path) s (refused 2 r) ∧ Ends (.erase path) s (refused 3 r)) ∧
    (openFault s f.1 f.2.1 id = none →
      (Ends (.importKey path) s fun t => ∃ r, took 1 r t ∧ (r ≠ 0 → refused 1 r t) ∧ (f.1 = 1 → kidHeld s id false = true → r = 6) ∧
        (r = 0 → (f.1 = 1 → s.sv.sweepEn = false → (kidOf t id).state = .installed ∧ (kidOf t id).key ≠ none) ∧
          (f.1 = 2 → (lkeyOf t id).tx ≠ none) ∧ (f.1 = 3 → (lkeyOf t id).rx ≠ none))) ∧
      (f.1 = 1 → kidHeld s id false = false → s.ks.entropyFail = false → s.sv.sweepEn = false →
        Ends (.generate path) s fun t => took 2 0 t ∧ (∃ k, kidOf t id = { Kid.zero with state := .installed, key := some k }) ∧
          (∀ k, k ≠ id → kidOf t k = kidOf s k) ∧ t.ks.drbg = s.ks.drbg + 1 ∧ t.ks.wcount = s.ks.wcount + 1) ∧
      (f.1 = 1 → Ends (.erase path) s fun t =>
        (kidHeld s id true = true → refused 3 6 t) ∧
        (kidHeld s id true = false → (kidOf s id).state ≠ .installed → refused 3 1 t) ∧
        (kidHeld s id true = false → (kidOf s id).state = .installed → took 3 0 t ∧ (kidOf t id).state = .retiring ∧
          ∀ k, k ≠ id → kidOf t k = kidOf s k)) ∧
      (f.1 = 2 → Ends (.erase path) s fun t => ((lkeyOf s id).tx = none → refused 3 1 t) ∧
        ((lkeyOf s id).tx ≠ none → took 3 0 t ∧ (lkeyOf t id).tx = none ∧ (lkeyOf t id).rx = (lkeyOf s id).rx ∧ t.sv = s.sv)) ∧
      (f.1 = 3 → Ends (.erase path) s fun t => ((lkeyOf s id).rx = none → refused 3 1 t) ∧
        ((lkeyOf s id).rx ≠ none → took 3 0 t ∧ (lkeyOf t id).rx = none ∧ (lkeyOf t id).tx = (lkeyOf s id).tx ∧ t.sv = s.sv))) ∧
    (Ends (.ownerBind path) s fun t => ∃ r, took 4 r t ∧
      ((sliceLive s f.2.1 = false ∨ (ksSlice s f.2.1).measured = true) → r = 1) ∧ (r ≠ 0 → refused 4 r t) ∧
      (r = 0 → mget 0 (ksSlice t f.2.1).hash f.2.2.1 = BitVec.ofNat 384 (natOfBe (wordsLe ws 1 6)) ∧
        mget (0, 0) (ksSlice t f.2.1).memSub f.2.2.1 = (field (ws.getD 7 0) 0 10, field (ws.getD 7 0) 10 11) ∧
        mget (0, 0) (ksSlice t f.2.1).linkSub f.2.2.1 = (field (ws.getD 8 0) 0 8, field (ws.getD 8 0) 8 9) ∧ t.sv = s.sv)) ∧
    (procUp s 6 = true → field (ws.getD 0 0) 16 8 ≠ 0 → field (ws.getD 0 0) 16 8 ≤ 248 →
      field (ws.getD 0 0) 0 16 + field (ws.getD 0 0) 16 8 ≤ 8192 → bit (ws.getD 0 0) 24 = false →
      Ends (.certLoad path) s fun t => took 5 0 t ∧ t.ks.cert = s.ks.cert ∧
        t.ks.certBuf = bwrite s.ks.certBuf (field (ws.getD 0 0) 0 16) ((wordsLe ws 1 31).take (field (ws.getD 0 0) 16 8))) ∧
    (Ends (.devidRead path) s fun t => took 6 0 t ∧
      (∀ i < 12, mget 0 t.ks.stage i = BitVec.ofNat 64 (natOfBytes (((Config.p384Public (devId s)).drop (8 * i)).take 8)))) ∧
    (Ends (.pikRead path) s fun t => took 7 0 t ∧
      (∀ i < 12, mget 0 t.ks.stage i = BitVec.ofNat 64 (natOfBytes (((Config.p384Public (pik s)).drop (8 * i)).take 8))))) ∧
  (∀ s : State, 2 ^ 20 ≤ s.ks.drbg → clear s = true → Ends .drbgReseed s fun t => t = { s with ks := { s.ks with drbg := 0 } }) ∧
  (∀ s : State, clear s = true → Ends .entropyHealthFail s fun t => t.ks = { s.ks with entropyFail := true } ∧ ∃ l ∈ t.fc.lines, l.src = 22) ∧
  (∀ (blob : Nat) (slotOk blobOk : Bool) (s : State), blob < 1616 → slotHolds s blob = true → clear s = true →
    Ends (.slotScan blob slotOk blobOk) s fun t =>
      (slotOk = true → t = s) ∧
      (slotOk = false → t.ks.slotFail = satAdd 65535 s.ks.slotFail 1 ∧ (∃ l ∈ t.fc.lines, l.src = 21) ∧
        (blobOk = true → t.sv = s.sv ∧ t.ks.links = s.ks.links) ∧
        (blobOk = false → blob < blobTx → (kidOf t blob).key = none ∧ (kidOf t blob).state = .absent ∧
          ∀ k, k ≠ blob → kidOf t k = kidOf s k)))

/-- The SPDM requests and FINISH complete: each is answered under its code, in the order of negotiation, or with the error of its state. For a
request in progress at a host port, where no access waits and, but for GET_VERSION, the block has a root, exec answers a next state in which
the mailbox has its response. GET_VERSION starts negotiation again; GET_CAPABILITIES and NEGOTIATE_ALGORITHMS follow in order and out of
order are answered with the error 4; GET_DIGESTS, GET_CERTIFICATE, CHALLENGE, GET_MEASUREMENTS and KEY_EXCHANGE need negotiated algorithms;
GET_CERTIFICATE without a chain is answered with the error 1; CHALLENGE is answered with the digest and a DevID signature; GET_MEASUREMENTS
with its blocks; KEY_EXCHANGE adds an unfinished session at the port; FINISH finishes the session where its data verifies, else ends it.
(R482, R483, R484, R485, R486, R618) -/
def Obligations.MailboxRequestsAreAnsweredInOrder : Prop :=
  (∀ (p : Nat) (s : State), p < s.cfg.hostPorts → clear s = true →
    (spdmAt s p 0x84 = true → Ends (.getVersion p) s fun t => Responds p (Config.spdmBytes 0x04 [leBytes 2 0x1300]) t ∧
      (hkOf t p).spdm = 1 ∧ t.ks.sessions = s.ks.sessions) ∧
    (spdmAt s p 0xE1 = true → mailboxFull s = true → Ends (.getCapabilities p) s fun t =>
      ((hkOf s p).spdm = 1 → Responds p (Config.spdmBytes 0x61 [leBytes 4 4096, leBytes 4 4096]) t ∧ (hkOf t p).spdm = 2) ∧
      ((hkOf s p).spdm ≠ 1 → Responds p (spdmErr 4) t ∧ (hkOf t p).spdm = (hkOf s p).spdm)) ∧
    (spdmAt s p 0xE3 = true → mailboxFull s = true → Ends (.negotiateAlgorithms p) s fun t =>
      ((hkOf s p).spdm = 2 → Responds p (Config.spdmBytes 0x63 []) t ∧ (hkOf t p).spdm = 3) ∧
      ((hkOf s p).spdm ≠ 2 → Responds p (spdmErr 4) t ∧ (hkOf t p).spdm = (hkOf s p).spdm)) ∧
    (spdmAt s p 0x81 = true → mailboxFull s = true → Ends (.getDigests p) s fun t =>
      ((hkOf s p).spdm ≠ 3 → Responds p (spdmErr 4) t) ∧
      (∀ c, (hkOf s p).spdm = 3 → s.ks.cert = some c → Responds p (Config.spdmBytes 0x01 [shaBytes c]) t)) ∧
    (spdmAt s p 0x82 = true → mailboxFull s = true → (hkOf s p).spdm = 3 → Ends (.getCertificate p) s fun t =>
      (s.ks.cert = none → Responds p (spdmErr 1) t) ∧
      (∀ c, s.ks.cert = some c → reqByte s p 2 % 16 = 0 → reqByte s p 4 + 256 * reqByte s p 5 < c.length →
        ∃ rest, Responds p (Config.spdmBytes 0x02 (((c.drop (reqByte s p 4 + 256 * reqByte s p 5)).take
          (min (reqByte s p 6 + 256 * reqByte s p 7) 4096)) :: rest)) t)) ∧
    (∀ c, spdmAt s p 0x83 = true → mailboxFull s = true → (hkOf s p).spdm = 3 → s.ks.cert = some c → s.ks.entropyFail = false →
      reqByte s p 2 % 16 = 0 → (reqByte s p 3 = 0 ∨ reqByte s p 3 = 0xFF) →
      Ends (.spdmChallenge p) s fun t => t.ks.drbg = s.ks.drbg + 1 ∧
        ∃ (nonce : BitVec 256) (sum sig : List Sys2Proof.Byte), Responds p (Config.spdmBytes 0x03 [shaBytes c, beBytes 32 nonce, sum, sig]) t ∧
          (reqByte s p 3 = 0 → sum = []) ∧ ∃ msg, sig = Config.ecdsaSign (devId s) msg) ∧
    (∀ blocks, spdmAt s p 0xE0 = true → mailboxFull s = true → (hkOf s p).spdm = 3 → s.ks.entropyFail = false →
      let op := ((reqBytes s p).getD 3 0).toNat
      op ≠ 0 → measBlocks s p op = some blocks →
      Ends (.getMeasurements p none []) s fun t => ∃ (nonce : BitVec 256) (sig : List (List Sys2Proof.Byte)),
        Responds p (Config.spdmBytes 0x60 (blocks ++ [beBytes 32 nonce] ++ sig)) t ∧
        (((reqBytes s p).getD 2 0).toNat % 2 = 0 → sig = [])) ∧
    (∀ c, spdmAt s p 0xE4 = true → mailboxFull s = true → (hkOf s p).spdm = 3 → s.ks.cert = some c → s.ks.sessions.length < 64 →
      s.ks.entropyFail = false →
      Ends (.keyExchange p) s fun t => ∃ k x, sessionOf t k = some x ∧ x.port = p ∧ x.finished = false ∧ x.bound = none ∧
        (hkOf t p).mbxDone = true ∧ (hkOf t p).mbxBusy = false)) ∧
  (∀ (p k : Nat) (body : List Sys2Proof.Byte) (x : Session) (s : State), p < s.cfg.hostPorts → securedAt s p k false = true →
    (body.getD 1 0).toNat = 0xE5 → sessionOf s k = some x → clear s = true →
    let th2 := Config.sha384 ((hkOf s p).transcript ++ body)
    Ends (.finish p k body) s fun t =>
      (Config.finishVerifies x.ems th2 body = true → sessionOf t k = some { x with finished := true, th2 := th2 } ∧
        Responds p (Config.spdmBytes 0x165 [leBytes 2 k]) t) ∧
      (Config.finishVerifies x.ems th2 body = false → sessionOf t k = none ∧ Responds p (spdmErr 6) t))

/-- BIND, KEY_PUT, KEY_ERASE, MEASURE, ACCEPT, REPORT_DETAIL and CLOSE complete: status 0 with the effect, or a status and nothing changed. For
a message of a finished session at a host port, with the Tally memories awake: BIND whose slice, key hash, signature and port are as R490
asks binds the session to the slice owner with a host session slot. In a session bound to a live slice: KEY_PUT of a memory key within the
owner's sub-range installs it; outside it is answered with 2 and changes no key. KEY_ERASE is answered as ERASE is. MEASURE of a slice
without live contexts whose regions read without a wait records the digest of its read-only regions. ACCEPT sets the owner's bit exactly
when the digest agrees. REPORT_DETAIL returns a page of 64 entries. CLOSE ends the session. (R487, R488, R489, R490, R493, R494, R500, R514) -/
def Obligations.KeyDeliveryMessagesAreAnsweredWithTheirEffect : Prop :=
  ∀ (p k : Nat) (body : List Sys2Proof.Byte) (x : Session) (s : State), p < s.cfg.hostPorts → securedAt s p k true = true →
    sessionOf s k = some x → tallyReady s = true →
    (let n := (body.getD 0 0).toNat
     let o := (body.getD 1 0).toNat
     let pub := (body.drop 2).take 96
     let hash := mget 0 (ksSlice s n).hash o
     x.bound = none → n < 16 → sliceLive s n = true → s.lc.dgOpen = false → body.length = 194 → hash ≠ 0 →
     beBytes 48 hash = shaBytes (4 :: pub) →
     Config.ecdsaVerify pub (shaBytes (asciiBytes "LU-BIND" ++ beBytes 48 x.th2)) (body.drop 98) = true → portMay s p n = true →
     Ends (.bind p k body) s fun t => Delivered p k 1 0 [] t ∧
       ∃ y, sessionOf t k = some y ∧ y.bound = some (n, o) ∧ y.slot ≠ none ∧ y.seqIn = 0 ∧ y.seqOut = 0 ∧
         (ksSlice t n).bound / 2 ^ o % 2 = 1) ∧
    (Ends (.close p k body) s fun t => Delivered p k 7 0 [] t ∧ sessionOf t k = none) ∧
    (x.bound = none →
      (Ends (.keyPut p k body) s fun t => Delivered p k 2 1 [] t ∧ t.sv = s.sv) ∧
      (Ends (.measure p k body) s fun t => Delivered p k 4 1 [] t)) ∧
    (∀ n o, x.bound = some (n, o) → (sliceLive s n = true ∨ (sliceOf s n).state = .changing) →
      let kind := (body.getD 0 0).toNat
      let id := natOfBytes ((body.drop 1).take 2)
      (s.lc.dgOpen = false → body.length = 35 → kind = 1 →
        Ends (.keyPut p k body) s fun t =>
          (inRange (subRange s 1 n o).1 (subRange s 1 n o).2 id = false → Delivered p k 2 2 [] t ∧ t.sv = s.sv) ∧
          (inRange (subRange s 1 n o).1 (subRange s 1 n o).2 id = true → kidHeld s id false = true →
            Delivered p k 2 6 [] t ∧ t.sv = s.sv) ∧
          (inRange (subRange s 1 n o).1 (subRange s 1 n o).2 id = true → kidHeld s id false = false → s.sv.sweepEn = false →
            Delivered p k 2 0 [] t ∧ kidOf t id = { Kid.zero with state := .installed, key := some (keyOfBytes (body.drop 3)), owner := o } ∧
            ∀ j, j ≠ id → kidOf t j = kidOf s j)) ∧
      (kind = 1 → inRange (subRange s 1 n o).1 (subRange s 1 n o).2 id = true →
        Ends (.keyErase p k body) s fun t => Delivered p k 3 (eraseKey s 1 n id).2 [] t ∧ t.sv = (eraseKey s 1 n id).1.sv) ∧
      (∀ u bs, liveCtxs s n = [] → (ksSlice s n).measured = false → programPlain s n = (u, some bs) → clear u = true →
        Ends (.measure p k body) s fun t => Delivered p k 4 0 [] t ∧ (ksSlice t n).measured = true ∧ (ksSlice t n).digest = Config.sha384 bs) ∧
      (Ends (.accept p k body) s fun t =>
        ((ksSlice s n).measured = true → body.length = 48 → beBytes 48 (ksSlice s n).digest = body →
          Delivered p k 5 0 [] t ∧ (ksSlice t n).accepted = (ksSlice s n).accepted ||| 2 ^ o) ∧
        ((ksSlice s n).measured = false → Delivered p k 5 1 [] t ∧ (ksSlice t n).accepted = (ksSlice s n).accepted)) ∧
      (kind ≤ 1 → Ends (.reportDetail p k body) s fun t =>
        Delivered p k 6 0 ((((if kind = 0 then ctxTable s n else keyTable s n).drop (64 * id)).take 64).flatten) t ∧
        t.ks.slices = s.ks.slices ∧ t.ctxs = s.ctxs))

/-- BOUNCE_H2D, BOUNCE_D2H and BOUNCE_COMPLETE complete; inbound slice accesses, read completions, credits and HPP_RST_FALL complete. Where no
access waits: a legal bounce command at the head of its port's queue that fails a check is refused with that CAUSE and leaves it; one that
meets every check, with its bytes and tag good, moves its data between the buffer and slice memory and records its SEQ. A moved command
whose writes are out leaves the queue; its fence, where the slice's, has a MAX of VALUE queued. An inbound slice access that R611 or R612
does not allow is answered with STATUS and REASON and touches no memory; one that is translated and ready is performed and answered. A
completion beat that fits no tag counts in BADCPL, or ends a tag that a fence left; one that fits is taken, and behind an operation's last
one its next read goes out. A returned credit adds one up to 255. The fall of HPP_RST gives the initial counts. (R267, R496, R497, R498,
R607, R608, R610, R611, R612, R620) -/
def Obligations.BounceCommandsMoveAndSignal : Prop :=
  (∀ (p cause : Nat) (data : List Sys2Proof.Byte) (b : Bounce) (rest : List Bounce) (s : State), (hkOf s p).bncQueue = b :: rest →
    (hkOf s p).bncMoved = false → p < s.cfg.hostPorts → blockRuns s = true → bounceLegal b = true → bounceWaits s p b = false → clear s = true →
    bounceFault s p b = some cause →
    (bDir b = 0 → data.length = bLen b + 16 → readOut s p .bounce data = true →
      Ends (.bounceH2d p data) s fun t => (hkOf t p).cause = cause ∧ (hkOf t p).refused = satAdd (2 ^ 32 - 1) (hkOf s p).refused 1 ∧
        (hkOf t p).bncQueue = rest ∧ t.sv = s.sv ∧ t.ks.sessions = s.ks.sessions) ∧
    (bDir b = 1 →
      Ends (.bounceD2h p) s fun t => (hkOf t p).cause = cause ∧ (hkOf t p).refused = satAdd (2 ^ 32 - 1) (hkOf s p).refused 1 ∧
        (hkOf t p).bncQueue = rest ∧ t.sv = s.sv ∧ t.ks.sessions = s.ks.sessions)) ∧
  (∀ (p k n o : Nat) (data pt : List Sys2Proof.Byte) (b : Bounce) (rest : List Bounce) (x : Session) (key : Key) (h2d d2h cmd : BitVec 32) (s : State),
    (hkOf s p).bncQueue = b :: rest → (hkOf s p).bncMoved = false → p < s.cfg.hostPorts → blockRuns s = true → bounceLegal b = true →
    bounceWaits s p b = false → bounceFault s p b = none → bounceSession s p b = some (k, x, n, o, key, h2d, d2h, cmd) →
    (let u := memWrite s (hostWho s p n) .spa (bSpa b) pt
     bDir b = 0 → data.length = bLen b + 16 → readOut s p .bounce data = true →
     gcmOpen key (bounceIv h2d b) (bounceAad b) (data.take (bLen b)) (blockOfBytes (data.drop (bLen b))) = some pt → u.2 = none → clear u.1 = true →
     Ends (.bounceH2d p data) s fun t => (hkOf t p).bncMoved = true ∧ (hkOf t p).bncQueue = b :: rest ∧
      { t with ks := u.1.ks } = u.1 ∧ ∀ y, sessionOf t k = some y → y.seqIn = bSeq b) ∧
    (let u := memRead s (hostWho s p n) .spa (bSpa b) (bLen b)
     bDir b = 1 → gcmTag key (bounceIv cmd b) (bounceAad b) [] = blockOfBytes (leBytes 8 (bw b 6).toNat ++ leBytes 8 (bw b 7).toNat) →
     u.2 = .ok pt → clear u.1 = true →
     Ends (.bounceD2h p) s fun t => (hkOf t p).bncMoved = true ∧ (hkOf t p).bncQueue = b :: rest ∧
      (let x := gcmSeal key (bounceIv d2h b) (bounceAad b) pt
       { t with ks := u.1.ks } = hostPost u.1 p (bw b 2).toNat (x.1 ++ bytesOfBlock x.2)) ∧ ∀ y, sessionOf t k = some y → y.seqOut = bSeq b)) ∧
  (∀ (p : Nat) (b : Bounce) (rest : List Bounce) (s : State), (hkOf s p).bncQueue = b :: rest → p < s.cfg.hostPorts →
    (hkOf s p).bncMoved = true → (hportOf s p).outQ = [] → clear s = true →
    Ends (.bounceComplete p) s fun t => (hkOf t p).bncQueue = rest ∧ (hkOf t p).bncMoved = false ∧ t.sv = s.sv ∧
      ∀ g, bounceSession s p b = some g → (fenceOf s (bFence b)).slice = g.2.2.1 → (fenceOf s (bFence b)).state ≠ 0 → ∀ h k,
        mget [] (tallyOf t h).queues k = mget [] (tallyOf s h).queues k ++
          if h = fenceHalf (bFence b) ∧ k = hostTallyPort s.cfg h p then [⟨.max, 16 * (bFence b % 131072), bw b 5, 0, 0, .none, s.fresh⟩] else []) ∧
  (∀ (p slice tag addr len : Nat) (data : List Sys2Proof.Byte) (s : State), p < s.cfg.hostPorts → (hportOf s p).rst = false →
    portDown (awake s) p = false → blockRuns (awake s) = true → 0 < (hportOf s p).reqCred → clear s = true →
    let u := awake s
    (badInbound addr len = true → Ends (.hostSliceRead p slice tag addr len) s fun t => t = complete u p ⟨tag % 256, 1, 0, none⟩) ∧
    (badInbound addr data.length = true → Ends (.hostSliceWrite p slice tag addr data) s fun t => t = complete u p ⟨tag % 256, 1, 0, none⟩) ∧
    (∀ r, hostRefusal u p (slice % 16) addr = some r →
      let v := if dKind (descOf s (slice % 16)) ≠ 0 then modSlice u (slice % 16) fun x => { x with refused := satAdd (2 ^ 32 - 1) x.refused 1 } else u
      (badInbound addr len = false → Ends (.hostSliceRead p slice tag addr len) s fun t => t = complete v p ⟨tag % 256, 2, r, none⟩) ∧
      (badInbound addr data.length = false →
        Ends (.hostSliceWrite p slice tag addr data) s fun t => t = complete v p ⟨tag % 256, 2, r, none⟩)) ∧
    (∀ q, hostRefusal u p (slice % 16) addr = none → s.cfg.halfOfHost p ∉ s.ck.halves →
      let who (x : State) := hostWho x p (slice % 16)
      let o := addr % 128
      (let x := xlat2 u (who u) addr false false
       let y := svRead (countLine x.1 (who x.1) q) q []
       badInbound addr len = false → x.2 = .ok q → accessReady x.1 q = true → bwWaits x.1 (who x.1).attr = false → clear y.1 = true →
       Ends (.hostSliceRead p slice tag addr len) s fun t => ∀ l, y.2 = .data l →
         t = complete y.1 p ⟨tag % 256, 0, 0, some (BitVec.ofNat 1024 (l.toNat / 2 ^ (8 * o) % 2 ^ (8 * len) * 2 ^ (8 * o)))⟩) ∧
      (let x := xlat2 u (who u) addr true false
       let line : Line := BitVec.ofNat 1024 (natOfBytes data * 2 ^ (8 * o))
       let c := countLine x.1 (who x.1) q
       let y := if data.length = 128 then svWriteFull c q line [] else svWritePartial c q (partMask o data.length) line []
       badInbound addr data.length = false → x.2 = .ok q → accessReady x.1 q = true → bwWaits x.1 (who x.1).attr = false → clear y.1 = true →
       Ends (.hostSliceWrite p slice tag addr data) s fun t => y.2 = .done → t = complete y.1 p ⟨tag % 256, 0, 0, none⟩))) ∧
  (∀ (p tag beat : Nat) (last err : Bool) (data : Line) (s : State), p < s.cfg.hostPorts → (hportOf s p).rst = false →
    s.fc.hostFenced.contains p = false → clear s = true →
    Ends (.hostReadCompletion p tag beat last err data) s fun t =>
      (((hportOf s p).tags.find? fun t => t.num = tag) = none →
        (tag ∉ (hportOf s p).left → t = badBeat s p) ∧
        (tag ∈ (hportOf s p).left → { t with hports := s.hports } = s ∧ (last = true → tag ∉ (hportOf t p).left))) ∧
      (∀ g, ((hportOf s p).tags.find? fun t => t.num = tag) = some g →
        let more := last && decide (g.done + (readSpan g).2 < g.len)
        (beatFits g beat last = false → t = badBeat s p) ∧
        (beatFits g beat last = true → err = false → more = false → { t with hports := s.hports } = s ∧
          ((hportOf t p).tags.find? fun t => t.num = tag) = some { g with beat := g.beat + 1, got := g.got ++ beatBytes g data }) ∧
        (beatFits g beat last = true → err = false → more = true → ∃ n,
          { g with num := n, beat := 0, done := g.done + (readSpan g).2, got := g.got ++ beatBytes g data } ∈ (hportOf t p).tags) ∧
        (beatFits g beat last = true → err = true → (hportOf t p).rderr = satAdd 65535 (hportOf s p).rderr 1 ∧ t.sv = s.sv))) ∧
  (∀ (p : Nat) (cpl : Bool) (s : State), p < s.cfg.hostPorts → (hportOf s p).rst = false → clear s = true →
    Ends (.hostCreditReturn p cpl) s fun t =>
      (255 ≤ (if cpl then (hportOf s p).cplCred else (hportOf s p).outCred) → t = badBeat s p) ∧
      (cpl = true → (hportOf s p).cplCred < 255 → (hportOf s p).cplQ = [] → (hportOf t p).cplCred = (hportOf s p).cplCred + 1) ∧
      (cpl = false → (hportOf s p).outCred < 255 → (hportOf s p).outQ = [] → (hportOf t p).outCred = (hportOf s p).outCred + 1) ∧
      { t with hports := s.hports, out := s.out, fc := s.fc } = s) ∧
  (∀ (p : Nat) (s : State), p < s.cfg.hostPorts → (hportOf s p).rst = true → s.ck.rst = none → clear s = true →
    Ends (.hppRstFall p) s fun t => (hportOf t p).rst = false ∧ (hportOf t p).cplCred = 0 ∧ (hportOf t p).reqCred = 64 ∧
      t.queues = s.queues ∧ t.ctxs = s.ctxs ∧ t.sv = s.sv)

/-- TRANSITION, RAISE_SVN, DG_CHALLENGE, DEBUG_OPEN, DEBUG_OPEN_COMPLETE, JTAG_INSTRUCTION and JTAG_INSTRUMENT_ACCESS complete. Where no access
waits, over a secure path that reaches an idle LC_CMD: a TRANSITION of no edge of the life cycle ends with RESULT 1 at the next SCLK and
programs no word; one without a token starts to program its word, and the next SCLK of the controller leaves that word all ones, where every
bit takes, and the transition pending, the state of this boot unchanged. RAISE_SVN outside TEST to RMA ends with 1; else a value above
MIN_SVN that the running image allows goes with its complement into the lowest blank slot. DG_CHALLENGE holds a fresh challenge. DEBUG_OPEN
in another state than PRODUCTION starts to open with SCOPE 3, in PRODUCTION with the token's SCOPE or is refused with its RESULT; a second
one ends with 6. DEBUG_OPEN_COMPLETE opens debug with the granted scope. JTAG_INSTRUCTION selects its code, codes beyond the table BYPASS;
EXTEST takes every engine's context. An instrument of class I reads or writes its scratchpad word while debug is open with SCOPE bit 1 and
does nothing else. (R505, R506, R507, R508, R510, R512, R513, R515, R516, R628) -/
def Obligations.LifeCycleDebugAndJtagCommandsComplete : Prop :=
  (∀ (path : Sys2Proof.Path) (target : Nat) (miss : Sys2Proof.Word) (s : State), secReach path s = true → s.fc.blockSafe = false →
    lcBusy s.lc = false → clear s = true →
    (transitionWord s.lc.current target = none → Ends (.transition path target miss) s fun t =>
      t = { awake s with lc := { s.lc with due := some 1 } } ∧ lcDrive t = { awake s with lc := { s.lc with result := 1 } }) ∧
    (∀ w, transitionWord s.lc.current target = some (w, 0) → s.lc.pend = false → s.pins.tamperN = true → w < s.lc.words.length →
      Ends (.transition path target miss) s fun t =>
        t = { awake s with lc := { s.lc with run := some ⟨target, w, BitVec.allOnes 64, miss⟩ } } ∧
        (s.lc.words.getD w 0 ||| ~~~miss = BitVec.allOnes 64 →
          let u := lcDrive t
          u.lc.words.getD w 0 = BitVec.allOnes 64 ∧ (∀ k, k ≠ w → u.lc.words.getD k 0 = s.lc.words.getD k 0) ∧ u.lc.pend = true ∧
          u.lc.next = target ∧ u.lc.result = 0 ∧ u.lc.current = s.lc.current ∧ lcBusy u.lc = false ∧
          { u with lc := s.lc, minSvn := s.minSvn } = awake s))) ∧
  (∀ (path : Sys2Proof.Path) (miss : Sys2Proof.Word) (s : State), secReach path s = true → s.fc.blockSafe = false →
    lcBusy s.lc = false → clear s = true →
    ((s.lc.current < 2 ∨ 4 < s.lc.current) → Ends (.raiseSvn path miss) s fun t => t = { awake s with lc := { s.lc with due := some 1 } }) ∧
    (∀ i im, 2 ≤ s.lc.current → s.lc.current ≤ 4 → s.minSvn < s.lc.arg % 65536 → s.fw.running = some im → s.lc.arg % 65536 ≤ im.svn →
      i < 32 → svnSlot s.lc i = 0 → (∀ j, j < i → svnSlot s.lc j ≠ 0) → s.pins.tamperN = true →
      let v := BitVec.ofNat 64 (s.lc.arg % 65536 + 65536 * (65535 - s.lc.arg % 65536))
      Ends (.raiseSvn path miss) s fun t => t = { awake s with lc := { s.lc with run := some ⟨0, i, v, miss⟩ } } ∧
        svnSlot (lcDrive t).lc i = v &&& ~~~miss ∧ (∀ j, j ≠ i → svnSlot (lcDrive t).lc j = svnSlot s.lc j) ∧
        (lcDrive t).lc.words = s.lc.words)) ∧
  (∀ (path : Sys2Proof.Path) (s : State), pathUp (awake s) path = true → (path = .jtag → s.lc.tap = 0x10) → dgSecure s.cfg path = true →
    s.ck.rst = none → s.ck.clkFault = false → lcOpen s = true → clear s = true →
    (s.ks.entropyFail = false → Ends (.dgChallenge path) s fun t => t.lc.chal.isSome = true ∧ t.lc.dgResult = 0 ∧ t.ks.drbg = s.ks.drbg + 1) ∧
    (s.lc.dgOpen = true → Ends (.debugOpen path) s fun t => t = { awake s with lc := { s.lc with dgResult := 6 } }) ∧
    (s.lc.dgOpen = false → s.lc.tearing = false → s.lc.current ≠ 3 → clear (startDebug (awake s) 3) = true →
      Ends (.debugOpen path) s fun t => t.lc.tearing = true ∧ t.lc.grant = 3 ∧ t.lc.dgResult = 0 ∧ t.lc.dgOpen = false) ∧
    (s.lc.dgOpen = false → s.lc.tearing = false → s.lc.current = 3 → clear (openDebug (awake s)).1 = true →
      Ends (.debugOpen path) s fun t => t.lc.dgOpen = false ∧ t.lc.chal = none ∧ t.lc.dgResult = tokenResult s 1 ∧
        (tokenResult s 1 = 0 → t.lc.tearing = true ∧ t.lc.grant = ((tokenBytes s).getD 5 0).toNat) ∧
        (tokenResult s 1 ≠ 0 → t.lc.tearing = false ∧ t.lc.fails = satAdd 255 s.lc.fails 1 ∧ t.slices = s.slices))) ∧
  (∀ (s : State), s.lc.tearing = true → s.ck.rst = none → (∀ n < 16, guarded s n = false) → clear s = true →
    Ends .debugOpenComplete s fun t => t = { s with lc := { s.lc with tearing := false, dgOpen := true, scope := s.lc.grant } }) ∧
  (∀ (code : Nat) (s : State), clear s = true → Ends (.jtagInstruction code) s fun t =>
    t.lc.tap = (if code = 1 ∨ code = 2 ∨ code = 3 ∨ code = 0x10 then code else 0xFF) ∧
    (code ≠ 3 → { t with lc := s.lc, out := s.out } = s) ∧ (code = 3 → ∀ e ∈ s.cfg.engineList, (engOf t e).ctx = none)) ∧
  (∀ (e a : Nat) (write : Bool) (v : Sys2Proof.Word) (s : State), s.cfg.hasEngine e = true → s.lc.tap = 0x10 → a % 8 = 0 → a < 2 ^ 20 →
    clear s = true →
    Ends (.jtagInstrumentAccess (.spad e a) write v) s fun t =>
      (intrusive s = false → t = s) ∧
      (intrusive s = true → write = false → t = emit s (.instrument (BitVec.ofNat 64 (bnat (engOf s e).spad a 8)))) ∧
      (intrusive s = true → write = true → OnlyEngine e s t ∧ (engOf t e).spad = bwrite (engOf s e).spad a (leBytes 8 v.toNat) ∧
        (engOf t e).spadBad.contains (a / 8) = false))

/-- Writes of SL_CMD and the staging registers from the non-secure world change nothing but the world-violation error line. Over a register path
of the non-secure world that is up, each of the six slice manager commands, any write to SL_CMD at offset 0x20000, and any write to a
staging register at 0x20080 + 8i answer the next state in which nothing has changed but that an event of source 23 waits on its error line
(and a block in retention has woken); of a staging register where registers are not held and no access waits. A write of a staging register
from the secure world puts the word there. (R42) -/
def Obligations.NonSecureSliceManagerWritesRaiseTheWorldViolation : Prop :=
  (∀ (path : Sys2Proof.Path) (n : Nat) (v : Sys2Proof.Word) (s : State), path ≠ .jtag → pathUp (awake s) path = true →
    pathSecure s.cfg path = false →
    (∀ c ∈ ([.build path n, .change path n, .dissolve path n, .readDesc path n, .regionWrite path n, .regionRead path n,
        .registerWrite path 0x20000 v] : List Sys2Proof.Instr),
      Ends c s fun t => { t with fc := { t.fc with lines := s.fc.lines } } = awake s ∧
        (t.fc.lines.any fun l => l.src = 23) = true ∧ ∀ l ∈ s.fc.lines, l ∈ t.fc.lines) ∧
    (∀ i < 16, regHeld (awake s) = false → clear s = true →
      Ends (.registerWrite path (0x20080 + 8 * i) v) s fun t => { t with fc := { t.fc with lines := s.fc.lines } } = awake s ∧
        (t.fc.lines.any fun l => l.src = 23) = true ∧ ∀ l ∈ s.fc.lines, l ∈ t.fc.lines)) ∧
  (∀ (path : Sys2Proof.Path) (i : Nat) (v : Sys2Proof.Word) (s : State), secReach path s = true → i < 16 → clear s = true →
    Ends (.registerWrite path (0x20080 + 8 * i) v) s fun t => mget 0 t.slm.stage i = v ∧ { t with slm := s.slm } = awake s ∧
      ∀ j, j ≠ i → mget 0 t.slm.stage j = mget 0 s.slm.stage j)

/-- A slice physical address in no valid region of its slice fails with ADDRESS, SUB NO_REGION (fence code 0x0204). For every requester and
every slice physical address that no valid region of the requester's slice holds (regions span units of 2 MiB), stage 2 answers the error
0x0204 and changes nothing, whatever the access; a read of bytes that begins there fails with it and changes nothing, and a write of bytes
that begins there fails with it. (R62) -/
def Obligations.AddressesInNoRegionFailWithNoRegion : Prop :=
  ∀ (who : Who) (a : Nat) (s : State),
    (∀ x ∈ s.regions, x.2.slice = who.attr.slice → ¬(2 ^ 21 * x.2.base ≤ a ∧ a < 2 ^ 21 * (x.2.base + x.2.size))) →
    (∀ wr fetch, xlat2 s who a wr fetch = (s, .err 0x204)) ∧
    (∀ n, 0 < n → memRead s who .spa a n = (s, .err 0x204)) ∧
    (∀ bs, bs ≠ [] → (memWrite s who .spa a bs).2 = some 0x204)

/-- A memory request whose key identifier has no installed key is answered with KEY_ABSENT (fence code 0x0207) and is not performed. For a
request at a wired sub-channel that is ready and not fenced, in a region that its world may use, of a port whose roots are not lost, whose
key identifier holds no key and is not the source of a sweep (whose requests are served under its destination, R308), in a state where no
access waits: SELVAGE_READ, SELVAGE_FULL_WRITE and SELVAGE_PARTIAL_WRITE answer next states in which the requester is answered the error
0x0207; for an engine's request the error also waits for the fault fence of its context; no node, root or record of a memory engine has
changed but by the medium's own flips before the access. (R56) -/
def Obligations.RequestsWithoutAKeyFailWithKeyAbsent : Prop :=
  ∀ (r : MemReq) (med : Med) (late : Bool) (mask : BitVec 128) (data : Line) (s : State), s.cfg.hasSub r.port r.sub = true →
    accessReady s r = true → subFenced s r.port r.sub = false →
    (((r.region.bind (regionOf s)).elim false (·.secure)) = true → r.attr.sec = true) → (portOf s r.port).lost = false →
    (kidOf s r.attr.keyid).key = none → (kidOf s r.attr.keyid).state ≠ .sweepSource → clear s = true →
    ∀ c ∈ ([.selvageRead r med late, .selvageFullWrite r data med, .selvagePartialWrite r mask data med late] : List Sys2Proof.Instr),
      Ends c s fun t => presented t = some (.reply r.attr 0x207 none) ∧ t.sv = (applyMed (countReq s r) r.port r.sub med).sv ∧
        t.tally = s.tally ∧ t.reqErrs = (if r.attr.kind = 0 then
          s.reqErrs ++ [⟨r.attr.ctx, r.attr.gen, r.attr.master, 0x207, 128 * lineIndex r.port r.sub r.line⟩] else s.reqErrs)

/-- ERROR_EVENT, FC_STATUS_CLEAR, FC_LOCK, FC_INJECT_ARM and REQUEST_ERROR_RETURN complete. With ROOTCLK not absent, the collector takes the
next event of an earlier SCLK and counts it under its source; where it is the N-th of its instance's window and REACT is not 0, its
FC_STATUS bit is set; where it is not, or REACT is 0, FC_STATUS stays and only the collector changes. An event that a checker raises now is
counted likewise. Over a secure path outside SCRAP and LOCKED: a write of 1 clears a status bit unless its level cause is asserted; FC_LOCK
sets the lock; FC_INJECT holds the writable bits and arms COUNT accesses, at least 1. A returned ADDRESS error of a LIVE context outside
direct mode marks it FAULTED with that code and writes the fault record with CODE 7, that SUB, ASYNC and the address; an error under a stale
generation does nothing. Each in states, or for an error that reacts leaving a state, where no access waits. (R518, R520, R522, R528, R529,
R530, R545, R642, R180, R181, R190, R441) -/
def Obligations.ErrorEventsAndRequestErrorsAreHandled : Prop :=
  let before (s : State) (l : ErrLine) : Nat :=
    let x := mget (0, 0) s.fc.inst (2048 * l.src + l.inst)
    if max (fcCfg s l.src).1 1 ≤ s.fc.sclk - x.2 then 0 else x.1
  let severe (s : State) (l : ErrLine) : Bool := max (fcCfg s l.src).2.1 1 ≤ before s l + 1
  let counted (s t : State) (l : ErrLine) : Prop :=
    (mget (0, 0) t.fc.cnt l.src).1 = satAdd (2 ^ 32 - 1) (mget (0, 0) s.fc.cnt l.src).1 1 ∧
    (mget (0, 0) t.fc.cnt l.src).2 = (if severe s l then satAdd 65535 (mget (0, 0) s.fc.cnt l.src).2 1 else (mget (0, 0) s.fc.cnt l.src).2) ∧
    (l.src < 40 → severe s l = true → (fcCfg s l.src).2.2 ≠ 0 → bit t.fc.status l.src = true)
  (∀ (l : ErrLine) (s : State), nextEvent s.fc.lines = some l → l.at' < s.fc.sclk → s.pins.rootclk ≠ 1 →
    clear (classify { s with fc := { s.fc with lines := s.fc.lines.erase l } } l) = true →
    Ends (.errorEvent none) s fun t => counted s t l ∧
      (severe s l = false ∨ (fcCfg s l.src).2.2 = 0 → { t with fc := s.fc } = s ∧ t.fc.status = s.fc.status ∧
        t.fc.lines = s.fc.lines.erase l)) ∧
  (∀ (b inst detail : Nat) (s : State), fromOutside s.cfg b inst detail = true → s.pins.coldN = true → s.pins.rootclk ≠ 1 →
    clear (outsideEffect (classify s ⟨b, inst, none, detail, false, s.fc.sclk⟩) b inst detail) = true →
    Ends (.errorEvent (some (b, inst, detail))) s fun t => counted s t ⟨b, inst, none, detail, false, s.fc.sclk⟩) ∧
  (∀ (path : Sys2Proof.Path) (v : Sys2Proof.Word) (s : State), pathUp (awake s) path = true → pathSecure s.cfg path = true →
    lcOpen s = true → clear s = true →
    (Ends (.fcStatusClear path v) s fun t => ∀ b < 64,
      bit t.fc.status b = (bit s.fc.status b && (!(bit v b) || (levelBits s).contains b))) ∧
    (Ends (.fcLock path) s fun t => { t with fc := s.fc } = awake s ∧ t.fc.lock = true ∧ { t.fc with lock := s.fc.lock, lockAt := s.fc.lockAt } = s.fc) ∧
    (Ends (.fcInjectArm path v) s fun t =>
      let left := if bit v 63 then max 1 (field v 16 8) else 0
      t = { awake s with fc := { s.fc with inject := v &&& BitVec.ofNat 64 injectMask, injLeft := left } })) ∧
  (∀ (c gen e code addr : Nat) (s : State), s.cfg.hasEngine e = true → 0x201 ≤ code → code ≤ 0x207 →
    ((ctxOf s c).gen ≠ gen → clear s = true → Ends (.requestErrorReturn (some (c, gen, e, code, addr))) s fun t => t = s) ∧
    ((ctxOf s c).gen = gen → (ctxOf s c).state = .live → directCtx s (ctxOf s c).slice = false →
      clear (handleReqErr s ⟨c, gen, e, code, addr⟩) = true →
      Ends (.requestErrorReturn (some (c, gen, e, code, addr))) s fun t => ∃ (v : State) (k : Nat) (inTile : Bool) (pc tpc step eclk : Nat),
        t = writeFaultRecord v k c gen (faultRecord 7 (code - 0x200) 0 k inTile true pc tpc addr step eclk) 0 ∧
        (ctxOf v c).state = .faulted ∧ (ctxOf v c).faultCode = code)) ∧
  (∀ (r : ReqErr) (rest : List ReqErr) (s : State), s.reqErrs = r :: rest → (ctxOf s r.ctx).gen ≠ r.gen → clear s = true →
    Ends (.requestErrorReturn none) s fun t => t = { s with reqErrs := rest })

/-- ENGINE_RESET, SLICE_RESET, WARM_RESET and POWER_CYCLE start; their ends and timeouts complete, and units leave reset. Where a copy of FC_CMD
takes a write: ENGINE_RESET, from who may, puts the engine in reset as step 2 of the ladder; SLICE_RESET starts step 3 for its slice; from
the secure world WARM_RESET starts a warm block reset (CAUSE 3, counted) and POWER_CYCLE asks for the power cycle. ENGINE_RESET_DONE and
SLICE_RESET_DONE end their step and answer RESULT 0 to the copy that asked; a slice that was CHANGING by its reset is ACTIVE or DEGRADED
again. ENGRST_TO escalates to a reset of the engine's slice, or of the block where none holds it; SLRST_TO to a warm reset;
WARM_RESET_TIMEOUT to a power cycle; TEARDOWN_TIMEOUT resets each engine that runs the context, else its slice. MP_READY_TIMEOUT fences the
port and latches MP_ERR. RESET_UNITS_LEAVE ends the reset and leaves slice 0 DIRECT under a key. No other operation of FC_CMD waits, and no
access waits where the command ends. (R533, R534, R535, R536, R537, R538, R539, R448, R52, R575) -/
def Obligations.ResetsRunTheirStepsAndEnd : Prop :=
  let idle (s : State) : Prop := (∀ k ∈ [4, 0, 1, 2, 3], (fcCopyOf s k).cmd = none)
  (∀ (path : Sys2Proof.Path) (s : State), fcFree path s = true →
    (∀ e, s.cfg.hasEngine e = true → fcMay s (copyKey path) (pathSecure s.cfg path) (engSlice s e) = true → s.fc.blockSafe = false →
      (s.fc.ladder.any fun l => 4 ≤ l.step || (l.step = 3 && engSlice s e = some l.target) || (l.step = 2 && l.target = e)) = false →
      clear (fcDrive 5 (fcTaken path 1 0 e s)) = true → Ends (.engineReset path e) s fun t =>
      (engOf t e).phase = .resetting ∧ (engOf t e).ctx = none ∧ ladderOf t 2 e = some ⟨2, e, s.fc.sclk, some (copyKey path), []⟩ ∧
      (fcCopyOf t (copyKey path)).busy = true ∧ (fcCopyOf t (copyKey path)).lastOp = 1) ∧
    (∀ n < 16, fcMay s (copyKey path) (pathSecure s.cfg path) (some n) = true → s.fc.blockSafe = false →
      (s.fc.ladder.any fun l => 4 ≤ l.step || (l.step = 3 && l.target = n)) = false → (sliceOf s n).state ≠ .free →
      clear (fcDrive 5 (fcTaken path 2 0 n s)) = true → Ends (.sliceReset path n) s fun t =>
      ladderOf t 3 n = some ⟨3, n, s.fc.sclk, some (copyKey path), dEngines (descOf s n)⟩ ∧
      (fcCopyOf t (copyKey path)).busy = true ∧ (fcCopyOf t (copyKey path)).lastOp = 2) ∧
    (pathSecure s.cfg path = true → s.ck.rst = none → Ends (.warmReset path) s fun t =>
      t.ck.rst = some (if s.pins.tamperN then ⟨4, false, s.fc.sclk, s.fc.sclk⟩ else ⟨2, false, s.fc.sclk, 0⟩) ∧ t.ck.lastCause = 3 ∧
      t.ck.warmCount = satAdd (2 ^ 32 - 1) s.ck.warmCount 1 ∧ (ladderOf t 4 0).isSome = true) ∧
    (pathSecure s.cfg path = true → clear s = true → Ends (.powerCycle path) s fun t =>
      t.pins = { s.pins with trayPwrReq := true } ∧ fcAnswered path 4 0 t ∧ { t with pins := s.pins, fc := s.fc } = awake s)) ∧
  (∀ (e : Nat) (s : State), s.cfg.hasEngine e = true → idle s →
    ((engOf s e).phase = .resetting → s.ck.rst = none → clear s = true → Ends (.engineResetDone e) s fun t =>
      (engOf t e).phase = .on ∧ OnlyEngine e { s with fc := t.fc } t ∧ ladderOf t 2 e = none ∧
      ∀ l k, ladderOf s 2 e = some l → l.copy = some k → (fcCopyOf t k).busy = false ∧ (fcCopyOf t k).result = 0) ∧
    (∀ l, ladderOf s 2 e = some l → 200000 + l.start ≤ s.fc.sclk → clear s = true →
      (∀ n, engSlice s e = some n → clear (startSliceReset (fcEnd (dropLadder (raise s 29 e 0 (some n)) 2 e) l.copy 6) n none) = true) →
      Ends (.engrstTo e) s fun t => ladderOf t 2 e = none ∧
      (∀ n, engSlice s e = some n → (ladderOf t 3 n).isSome = true) ∧
      (engSlice s e = none → s.ck.rst = none → t.ck.rst.isSome = true ∧ t.ck.lastCause = 4))) ∧
  (∀ (n : Nat) (l : Ladder) (s : State), ladderOf s 3 n = some l → idle s → s.ck.rst = none →
    (l.engines = [] → (∀ p ∈ s.sv.ports, ∀ g ∈ p.2.tags, g.attr.slice ≠ n ∨ g.attr.kind = 3) →
      (∀ h ∈ s.links.hops, hopSlice s h ≠ some n) → n < 16 → clear s = true →
      Ends (.sliceResetDone n) s fun t => ladderOf t 3 n = none ∧
        (∀ k, l.copy = some k → (fcCopyOf t k).busy = false ∧ (fcCopyOf t k).result = 0) ∧
        ((sliceOf s n).state = .changing → (sliceOf s n).changeTo = [] → (sliceOf t n).state = .active ∨ (sliceOf t n).state = .degraded)) ∧
    (2000000 + l.start ≤ s.fc.sclk → Ends (.slrstTo n) s fun t => ladderOf t 3 n = none ∧ t.ck.rst.isSome = true ∧
      t.ck.lastCause = 4)) ∧
  (∀ (l : Ladder) (s : State), ladderOf s 4 0 = some l → idle s → 1100000000 + l.start ≤ s.fc.sclk → clear s = true →
    Ends .warmResetTimeout s fun t => t.pins = { s.pins with trayPwrReq := true } ∧ ladderOf t 4 0 = none ∧
      { t with pins := s.pins, fc := s.fc } = s) ∧
  (∀ (c : Nat) (td : Teardown) (s : State), (ctxOf s c).tear = some td → td.late = false → 80000 + td.start ≤ s.pclk →
    let es := s.cfg.engineList.filter fun e => (engOf s e).ctx = some (c, (ctxOf s c).gen)
    let u := raise (modCtx s c fun y => { y with tear := some { td with late := true } }) 28 c 0 (some (ctxOf s c).slice)
    clear (if es = [] then startSliceReset u (ctxOf s c).slice none else es.foldl (fun v e => startEngineReset v e none) u) = true →
    Ends (.teardownTimeout c) s fun t => (es = [] → (ladderOf t 3 (ctxOf s c).slice).isSome = true) ∧
      ∀ e ∈ es, (ladderOf t 2 e).isSome = true) ∧
  (∀ (m : Nat) (r : RstRun) (s : State), m < s.cfg.memPorts → s.ck.rst = some r → r.phase = 4 → 1000000000 + r.ready ≤ s.fc.sclk →
    (portOf s m).ready = false → unitFenced s 6 m = false → clear s = true →
    Ends (.mpReadyTimeout m) s fun t => unitFenced t 6 m = true ∧ bit t.fc.status 16 = true ∧ t.ck.rst = s.ck.rst) ∧
  (∀ (r : RstRun) (s : State), s.ck.rst = some r → r.phase = 4 → portsReady s = true → s.pins.coldN = true →
    s.ck.clkFault = false → idle s → clear s = true →
    Ends .resetUnitsLeave s fun t => t.ck.rst = none ∧ t.fc.blockSafe = false ∧ ladderOf t 4 0 = none ∧
      (s.lc.current ≠ 5 → s.lc.current ≠ 15 → (sliceOf t 0).state = .direct ∧ (kidOf t 0).state = .installed ∧ (kidOf t 0).key.isSome = true))

/-- UNFENCE completes: a fenced unit whose source is cleared returns to service with RESULT 0, an unfenced one is answered 1. Over a secure path
whose copy of FC_CMD takes the write, with no step of the ladder running and the block safe state not held, where no access waits: UNFENCE
of an engine, cluster, link port or host port that is not fenced ends with RESULT 1 and changes nothing else; of a fenced one with no
latched source that fenced it, it ends with RESULT 0, the unit is no longer fenced and every other fence of its kind stays; with such a
source still latched it ends with RESULT 4; a unit that does not exist is answered 3; over a non-secure path RESULT is 2. (R526, R539, R546) -/
def Obligations.UnfenceReturnsUnitsToService : Prop :=
  ∀ (path : Sys2Proof.Path) (kind i : Nat) (s : State), fcFree path s = true → s.fc.ladder = [] → s.fc.blockSafe = false →
    clear (fcDrive 5 (fcTaken path 5 kind i s)) = true →
    let fenced (u : State) : List Nat :=
      if kind = 1 then u.fc.engFenced else if kind = 2 then u.fc.clFenced else if kind = 3 then u.fc.linkFenced else u.fc.hostFenced
    Ends (.unfence path kind i) s fun t =>
      (pathSecure s.cfg path = false → fcAnswered path 5 2 t ∧ { t with fc := s.fc } = awake s) ∧
      (pathSecure s.cfg path = true →
        (kind = 0 ∨ 4 < kind ∨ hasUnit s.cfg kind i = false → fcAnswered path 5 3 t ∧ { t with fc := s.fc } = awake s) ∧
        (1 ≤ kind → kind ≤ 4 → hasUnit s.cfg kind i = true →
          ((fenced s).contains i = false → fcAnswered path 5 1 t ∧ { t with fc := s.fc } = awake s) ∧
          ((fenced s).contains i = true → (∃ f ∈ s.fc.fencedBy, f.2 = (kind, i) ∧ bit s.fc.status f.1 = true) →
            fcAnswered path 5 4 t ∧ { t with fc := s.fc } = awake s) ∧
          ((fenced s).contains i = true → (∀ f ∈ s.fc.fencedBy, f.2 = (kind, i) → bit s.fc.status f.1 = false) →
            fcAnswered path 5 0 t ∧ fenced t = (fenced s).filter (· ≠ i))))

/-- CAPTURE, REPLICATE, CONFIRM and RESTORE start to run or end with their RESULT; the hash ends the command; CP_OKEY writes its word. Over a
path that may command the slice (a host port of it; for an open slice the control register port's secure world), the slice ACTIVE or
DEGRADED, registers not held, no checkpoint command waiting or running and no access waiting: without a checkpoint base each of the four
ends with RESULT 4 and does not run; with one, CONFIRM and RESTORE run with their staged words, CAPTURE (every live context at the staged
STEP) and REPLICATE with the list they have read, where the destination lies in one writable region. When the hash is done, unless the
engine is stopped or a CAPTURE waits for entropy, the command has ended; a REPLICATE or CAPTURE whose reads and write succeed ends with
RESULT 0, and a CAPTURE's STEP and tag are in the report. A word of CP_OKEY of an open slice is written, of another slice's ignored. (R547,
R549, R551, R552, R554, R555, R558, R559, R560) -/
def Obligations.CheckpointCommandsRunAndEnd : Prop :=
  (∀ (path : Sys2Proof.Path) (n : Nat) (s : State), pathUp (awake s) path = true → path ≠ .jtag → copyKey path ≤ 4 → n < 16 →
    regHeld (awake s) = false → s.cp.run = none → (∀ k ∈ [4, 0, 1, 2, 3], (cpCopyOf s k).cmd = none) → clear s = true →
    let k := copyKey path
    (if k < 4 then portMay s k n = true else pathSecure s.cfg path = true ∧ dKind (descOf s n) = 0) →
    ((sliceOf s n).state = .active ∨ (sliceOf s n).state = .degraded) →
    let ws := (List.range 7).map fun w => mget 0 (cpCopyOf s k).stage w
    let taken (op : Nat) : State := modCpCopy (awake s) k fun c => { c with lastOp := op, cmd := some (op, n, pathSecure s.cfg path) }
    (cpBase s n = none → ∀ c ∈ ([.capture path n, .replicate path n, .confirm path n, .restore path n] : List Sys2Proof.Instr),
      Ends c s fun t => t.cp.run = none ∧ (cpCopyOf t k).cmd = none ∧ (cpCopyOf t k).result = 4 ∧ { t with cp := s.cp } = awake s) ∧
    ((cpBase s n).isSome = true →
      (Ends (.confirm path n) s fun t => t.cp.run = some (k, 3, n, ws, ⟨[], [], []⟩) ∧ { t with cp := s.cp } = awake s) ∧
      (Ends (.restore path n) s fun t => t.cp.run = some (k, 4, n, ws, ⟨[], [], []⟩) ∧ { t with cp := s.cp } = awake s) ∧
      (∀ (u : State) (l : CapList), (∀ c ∈ liveCtxs s n, (ctxOf s c).state = .live → ctxStep (taken 1) c = cpW ws 3 % 2 ^ 48) →
        readCapList (taken 1) n (cpW ws 0) = (u, .inl l) → clear u = true →
        inRegion u n (cpW ws 1) (recordSize l (recordCtxs u n).length) true = true →
        Ends (.capture path n) s fun t => t = { u with cp := { u.cp with run := some (k, 1, n, ws, l) } }) ∧
      (∀ (u : State) (l : CapList), readCapList (taken 2) n (cpW ws 0) = (u, .inl l) → clear u = true →
        inRegion u n (cpW ws 1) 128 true = true →
        Ends (.replicate path n) s fun t => t = { u with cp := { u.cp with run := some (k, 2, n, ws, l) } }))) ∧
  (∀ (k op n : Nat) (ws : List Sys2Proof.Word) (l : CapList) (s : State), s.cp.run = some (k, op, n, ws, l) → blockRuns s = true →
    s.fc.blockSafe = false → (op = 1 → s.ks.entropyFail = false) → (∀ j ∈ [4, 0, 1, 2, 3], j ≠ k → (cpCopyOf s j).cmd = none) → k ≤ 4 →
    clear s = true →
    (∀ base, cpBase s n = some base →
      clear (if op ≤ 2 then cpWriteOut s k op n ws l base else cpOpen s k op n ws base) = true) →
    Ends .checkpointHashDone s fun t => t.cp.run = none ∧ (cpCopyOf t k).cmd = none ∧
      (cpBase s n = none → (cpCopyOf t k).result = 4) ∧
      (∀ base u data v, op = 1 ∨ op = 2 → cpBase s n = some base → cpReads n 0 s (capRanges l) = (u, .inl data) →
        memWrite (cpPayload u op n ws l base data).1 (blockWho n) .spa (cpW ws 1) (cpPayload u op n ws l base data).2 = (v, none) →
        (cpCopyOf t k).result = 0 ∧ t.sv = v.sv ∧
        (op = 1 → (ksSlice t n).cpStep = cpW ws 3 % 2 ^ 48 ∧ (ksSlice t n).cpOwn = v.cp.fdtag))) ∧
  (∀ (path : Sys2Proof.Path) (n w : Nat) (v : Sys2Proof.Word) (s : State), secReach path s = true → n < 16 → w < 4 → clear s = true →
    Ends (.cpOkeyWrite path n w v) s fun t => { t with cp := s.cp } = awake s ∧
      (dKind (descOf s n) ≠ 0 → t.cp = s.cp) ∧
      (dKind (descOf s n) = 0 → mget 0 t.cp.okeys (4 * n + w) = v ∧ { t.cp with okeys := s.cp.okeys } = s.cp ∧
        ∀ j, j ≠ 4 * n + w → mget 0 t.cp.okeys j = mget 0 s.cp.okeys j))

/-- REGISTER_WRITE, SV_WIDE_WRITE and SV_RET_WRITE complete: the register takes the word over a path that may write it, and nothing else
changes. Over the control register port, a write to an offset that names no register changes nothing. Where no access waits and registers
are not held: a KS_STAGE word takes the value over a secure path and keeps it over a non-secure one; a CP_STAGE word takes it in the path's
own copy from either world; LK_SELF, PM_POLICY and SV_MEDPOL of a memory port take their fields over a secure path, LK_SELF not under the
build lock. FC_CFGb of a source whose configuration is not fixed takes W, N and REACT over a secure path outside SCRAP and LOCKED unless the
collector's lock bars it. SV_WIDE is taken where the build lock does not bar it, every slice is FREE, no retirement runs and the span fits:
the port's roots are then cleared and its metadata cache is empty; else nothing changes. SV_RET is taken where the build lock does not bar
it and FROM stands in no other valid entry of its sub-channel and not in the spare unit; else nothing changes. An instance that the
configuration does not hold ignores the write. (R282, R289, R335, R545, R613, R637, R638, R639, R640, R642) -/
def Obligations.RegisterWritesChangeTheirRegister : Prop :=
  (∀ (sec : Bool) (off : Nat) (v : Sys2Proof.Word) (s : State), regAt off = none →
    Ends (.registerWrite (.crp sec) off v) s fun t => t = awake s) ∧
  (∀ (path : Sys2Proof.Path) (i : Nat) (v : Sys2Proof.Word) (s : State), path ≠ .jtag → pathUp (awake s) path = true → regHeld (awake s) = false →
    clear s = true →
    (i < 32 → Ends (.registerWrite path (0x160100 + 8 * i) v) s fun t =>
      (pathSecure s.cfg path = true → t = { awake s with ks := { s.ks with stage := mset 0 s.ks.stage i v } }) ∧
      (pathSecure s.cfg path = false → t = awake s)) ∧
    (i < 7 → Ends (.registerWrite path (0x1C0040 + 8 * i) v) s fun t => { t with cp := s.cp } = awake s ∧
      { t.cp with copies := s.cp.copies } = s.cp ∧
      (cpCopyOf t (copyKey path)) = { cpCopyOf s (copyKey path) with stage := mset 0 (cpCopyOf s (copyKey path)).stage i v } ∧
      ∀ k, k ≠ copyKey path → cpCopyOf t k = cpCopyOf s k)) ∧
  (∀ (path : Sys2Proof.Path) (v : Sys2Proof.Word) (s : State), secReach path s = true → clear s = true →
    (Ends (.registerWrite path 0xC0000 v) s fun t =>
      t = if buildBars s then awake s else { awake s with links := { s.links with self := field v 0 16 } }) ∧
    (Ends (.registerWrite path 0x1E0018 v) s fun t =>
      t = modCk (awake s) fun k => { k with engOff := field v 32 16, clRet := field v 16 16, halfRet := field v 0 16 }) ∧
    (∀ m < 24, Ends (.registerWrite path (0x80028 + 0x40 * m) v) s fun t =>
      t = if m < s.cfg.memPorts then modPort (awake s) m fun p => { p with ceLimit := field v 8 8, auto := bit v 0 } else awake s)) ∧
  (∀ (path : Sys2Proof.Path) (b : Nat) (v : Sys2Proof.Word) (s : State), pathUp (awake s) path = true → pathSecure s.cfg path = true →
    lcOpen s = true → b < 40 → fcFixed b = false → clear s = true →
    Ends (.registerWrite path (0x1A0100 + 8 * b) v) s fun t => { t with fc := s.fc } = awake s ∧
      (collectorBars s = true → t = awake s) ∧
      (collectorBars s = false → fcCfg t b = (field v 32 25, field v 16 8, field v 0 3) ∧ ∀ k, k ≠ b → fcCfg t k = fcCfg s k)) ∧
  (∀ (path : Sys2Proof.Path) (m : Nat) (v : Sys2Proof.Word) (s : State), secReach path s = true → m < 24 → clear s = true →
    let fits := m < s.cfg.memPorts ∧ buildBars s = false ∧ (∀ n < 16, (sliceOf s n).state = .free) ∧ s.retJobs = [] ∧
      field v 0 13 + field v 16 14 ≤ puFor (s.cfg.cap m) (field v 16 14) - 1
    Ends (.svWideWrite path m v) s fun t => { t with sv := s.sv, tally := s.tally } = awake s ∧
      (¬fits → t = awake s) ∧
      (fits → portOf t m = { portOf s m with wideSize := field v 16 14, wideBase := field v 0 13, cache := [] } ∧
        (∀ k, k ≠ m → portOf t k = portOf s k) ∧
        ∀ j < 256, mget 0 (tallyOf t (s.cfg.halfOfMem m)).sec (rootWord s m 0 0 + j) = 0)) ∧
  (∀ (path : Sys2Proof.Path) (m i : Nat) (v : Sys2Proof.Word) (s : State), secReach path s = true → m < 24 → i < 1024 → clear s = true →
    let taken := m < s.cfg.memPorts ∧ buildBars s = false ∧ field v 0 21 / 256 ≠ dlimOf s m ∧
      ∀ e ∈ (portOf s m).ret, e.1 ≠ i → e.1 / 256 = i / 256 → e.2.valid = true → e.2.frm ≠ field v 0 21
    let ent (u : State) : RetEnt := mget ⟨false, false, false, 0⟩ (portOf u m).ret i
    Ends (.svRetWrite path m i v) s fun t => { t with sv := s.sv } = awake s ∧
      (¬taken → t = awake s) ∧
      (taken → ent t = { ent s with valid := bit v 63, dead := bit v 62, frm := field v 0 21 } ∧
        { portOf t m with ret := (portOf s m).ret } = portOf s m ∧ ∀ k, k ≠ m → portOf t k = portOf s k))

/-- The reset, emergency and clock pins complete: cold and warm resets, throttle duty, loss of ROOTCLK and changes of operating point.
BLK_COLD_N falling holds the block in reset with the power request low; rising it runs a cold reset to phase 4, or with TAMPER_N low to the
end of phase 2, and leaves no region and no key. BLK_WARM_N falling starts a warm reset (CAUSE 2), and is ignored while a reset runs,
BLK_COLD_N is low, a power cycle is asked for or ROOTCLK has been lost. An emergency pin falling counts once, in the report of every built
slice too; rising changes the pin alone. DUTY_CHANGE takes the wanted duty at a frame boundary. Loss of ROOTCLK latches bit 34 and holds the
block safe state, and no cycle changes anything then. ROOTCLK out of its range raises the event of bit 34. OPP_CHANGE from the secure world
stops the clocks for the new divider where every slice is FREE or DIRECT, no engine ACTIVE, the code one of 0 to 5 and no change running,
else changes nothing; its end takes the divider. Where no access waits, or ROOTCLK's loss leaves none waiting. (R538, R563, R564, R572,
R573, R574, R575, R576, R625, R626, R627) -/
def Obligations.PinsAndClocksChangeTheBlock : Prop :=
  (∀ (s : State), s.pins.coldN = true → clear s = true → Ends .blkColdNFall s fun t =>
    t.pins = { s.pins with coldN := false, trayPwrReq := false } ∧ t.ck.rst = some ⟨0, true, s.fc.sclk, 0⟩ ∧ t.fc.blockSafe = true ∧
    t.fc.ladder = [] ∧ t.lc = s.lc ∧ blockRuns t = false ∧
    { t with pins := s.pins, hports := s.hports, ck := s.ck, fc := s.fc } = s) ∧
  (∀ (s : State), s.pins.coldN = false → Ends .blkColdNRise s fun t => t.pins.coldN = true ∧
    t.ck.rst = some ⟨if s.pins.tamperN then 4 else 2, true, 0, 0⟩ ∧
    t.ck.lastCause = 1 ∧ t.regions = [] ∧ t.sv.kids = [] ∧ t.fc.blockSafe = true ∧ (s.pins.rootclk = 1 → t.ck.clkFault = true)) ∧
  (∀ (s : State), clear s = true → Ends .blkWarmNFall s fun t =>
    ((s.pins.trayPwrReq = true ∨ s.ck.rst ≠ none ∨ s.ck.clkFault = true ∨ s.pins.coldN = false) → t = s) ∧
    (s.pins.trayPwrReq = false → s.ck.rst = none → s.ck.clkFault = false → s.pins.coldN = true →
      t.ck.rst = some (if s.pins.tamperN then ⟨4, false, s.fc.sclk, s.fc.sclk⟩ else ⟨2, false, s.fc.sclk, 0⟩) ∧
      t.ck.lastCause = 2 ∧ t.ck.warmCount = satAdd (2 ^ 32 - 1) s.ck.warmCount 1)) ∧
  (∀ (s : State), clear s = true →
    (s.pins.thermN = false → Ends (.thermEmrgNChange true) s fun t => t = { s with pins := { s.pins with thermN := true } }) ∧
    (s.pins.thermN = true → Ends (.thermEmrgNChange false) s fun t => t.pins = { s.pins with thermN := false } ∧
      t.ck.thermEvt = satAdd 65535 s.ck.thermEvt 1 ∧ t.ck.pwrEvt = s.ck.pwrEvt ∧
      ∀ n, (ksSlice t n).therm = (ksSlice s n).therm + (if n ∈ builtSlices s then 1 else 0)) ∧
    (s.pins.pwrN = false → Ends (.pwrEmrgNChange true) s fun t => t = { s with pins := { s.pins with pwrN := true } }) ∧
    (s.pins.pwrN = true → Ends (.pwrEmrgNChange false) s fun t => t.pins = { s.pins with pwrN := false } ∧
      t.ck.pwrEvt = satAdd 65535 s.ck.pwrEvt 1 ∧ t.ck.thermEvt = s.ck.thermEvt ∧
      ∀ n, (ksSlice t n).power = (ksSlice s n).power + (if n ∈ builtSlices s then 1 else 0)) ∧
    (s.ck.unit = 0 → s.ck.unitPos = 0 → wantedDuty s.ck ≠ s.ck.duty →
      Ends .dutyChange s fun t => t = { s with ck := { s.ck with duty := wantedDuty s.ck } })) ∧
  (∀ (s : State),
    (s.pins.rootclk ≠ 1 → s.pins.coldN = true → clear (clockLost s) = true → Ends .rootclkLoss s fun t => t.pins.rootclk = 1 ∧
      t.ck.clkFault = true ∧ t.fc.blockSafe = true ∧ bit t.fc.status 34 = true ∧ tick t = t) ∧
    (s.pins.rootclk ≠ 2 → clear s = true → Ends .rootclkOutOfRange s fun t => t.pins = { s.pins with rootclk := 2 } ∧
      (t.fc.lines.any fun l => l.src = 34) = true ∧ { t with pins := s.pins, fc := { t.fc with lines := s.fc.lines } } = s) ∧
    (s.pins.rootclk ≠ 0 → clear s = true → Ends .rootclkInRange s fun t => t = { s with pins := { s.pins with rootclk := 0 } })) ∧
  (∀ (path : Sys2Proof.Path) (v : Sys2Proof.Word) (s : State), secReach path s = true → clear s = true →
    let may := (∀ n < 16, (sliceOf s n).state = .free ∨ (sliceOf s n).state = .direct) ∧
      (∀ e ∈ s.cfg.engineList, engState (engOf s e) ≠ 3) ∧ field v 0 3 ≤ 5 ∧ s.ck.busy = false
    Ends (.oppChange path v) s fun t =>
      (may → t = { awake s with ck := { (awake s).ck with busy := true, newDiv := field v 0 3 } }) ∧ (¬may → t = awake s)) ∧
  (∀ (s : State), s.ck.busy = true → s.ck.rst = none → clear s = true → Ends .oppChangeDone s fun t =>
    t = { s with ck := { s.ck with busy := false, divCode := s.ck.newDiv, unit := 0, unitPos := 0 } })

/-- The idle thresholds, RETAIN_BLOCK, BLOCK_WAKE and the three steps of an engine start complete. Where no access waits: RETAIN_BLOCK from the
secure world holds the block in RET with slice 0 DIRECT, every enabled ring and every queue empty and every half in RET, and else sets
REFUSED; BLOCK_WAKE ends it. An idle engine over its threshold goes OFF holding nothing; a quiet cluster enters RET with its Bolt bytes
kept; a quiet half writes its metadata caches back and, with no request left, enters RET with its Tally retained. A start request joins the
governor's order, behind those of earlier PCLK and in ascending engine number within its own, the engine waits for its grant, and its
cluster and half begin to wake where they are in retention; WAKE_GRANT takes the oldest request and starts that engine; ENGINE_START_DONE,
40 SCLK and 96 PCLK later with cluster and half awake, makes it idle. (R276, R566, R567, R568, R569, R570) -/
def Obligations.RetentionAndTheWakeGovernorMoveUnits : Prop :=
  (∀ (path : Sys2Proof.Path) (s : State), secReach path s = true → clear s = true →
    let empty := (s.rings.all fun r => !r.2.en || r.2.head = r.2.tail) && s.queues.all fun q => q.2.head = q.2.tail
    let may := (sliceOf s 0).state = .direct ∧ empty = true ∧ ∀ h < s.cfg.halves, h ∈ s.ck.halves
    Ends (.retainBlock path) s fun t => (may → t = { s with ck := { s.ck with blockRet := true } }) ∧
      (¬may → t = { awake s with ck := { (awake s).ck with refused := true } })) ∧
  (∀ (s : State), s.ck.blockRet = true → clear s = true → Ends .blockWake s fun t => t = { s with ck := { s.ck with blockRet := false } }) ∧
  (∀ (e : Nat) (s : State), s.cfg.hasEngine e = true → clear s = true →
    ((engOf s e).phase = .on → (engOf s e).ctx = none → engFencedAny s e = false → thresholdOver s s.ck.engOff (engOf s e).runStart = true →
      s.ck.rst = none → Ends (.engineIdleThreshold e) s fun t => OnlyEngine e s t ∧ engOf t e = { Engine.idle with phase := .off }) ∧
    ((engOf s e).phase = .off → engFencedAny s e = false → blockRuns s = true → Ends (.engineStartRequest e) s fun t =>
      engOf t e = { engOf s e with phase := .startReq, runStart := s.pclk } ∧ (∀ k, k ≠ e → engOf t k = engOf s k) ∧
      (∃ a b, s.ck.gov = a ++ b ∧ t.ck.gov = a ++ e :: b ∧ (∀ x ∈ a, (engOf s x).runStart = s.pclk → x ≤ e) ∧
        ∀ x, b.head? = some x → (engOf s x).runStart = s.pclk ∧ e < x) ∧
      (clOf t (e / 4)).boltWaking = (clOf s (e / 4)).boltRet ∧
      (tallyOf t (s.cfg.halfOfCluster (e / 4))).waking = (tallyOf s (s.cfg.halfOfCluster (e / 4))).retained) ∧
    (s.ck.gov.head? = some e → engFencedAny s e = false → mayGrant s.ck s.pclk = true → blockRuns s = true →
      Ends (.wakeGrant e) s fun t => engOf t e = { engOf s e with phase := .starting, runStart := s.pclk, quantum := some s.fc.sclk } ∧
        (∀ k, k ≠ e → engOf t k = engOf s k) ∧ t.ck.gov = s.ck.gov.tail ∧ t.ck.grants = (s.pclk :: s.ck.grants).take 255 ∧
        { t with engines := s.engines, ck := s.ck } = s) ∧
    (∀ g, (engOf s e).phase = .starting → (engOf s e).quantum = some g → g + 40 ≤ s.fc.sclk → (engOf s e).runStart + 96 ≤ s.pclk →
      (clOf s (e / 4)).ret = false → s.cfg.halfOfCluster (e / 4) ∉ s.ck.halves → blockRuns s = true →
      Ends (.engineStartDone e) s fun t => OnlyEngine e s t ∧ engOf t e = { Engine.idle with runStart := s.pclk })) ∧
  (∀ (c : Nat) (s : State), c < s.cfg.clusters → (clOf s c).ret = false → clusterQuiet s c = true →
    thresholdOver s s.ck.clRet (mget 0 s.ck.lastBusy c) = true → s.ck.rst = none → clear s = true →
    Ends (.clusterRetThreshold c) s fun t => clOf t c = { clOf s c with ret := true, boltRet := true, boltWaking := false } ∧
      (∀ k, k ≠ c → clOf t k = clOf s k) ∧ { t with clusters := s.clusters } = s) ∧
  (∀ (h : Nat) (s : State), h < s.cfg.halves → h ∉ s.ck.halves → halfQuiet s h = true →
    thresholdOver s s.ck.halfRet (mget 0 s.ck.lastBusy (64 + h)) = true → s.ck.rst = none →
    let ports := (List.range s.cfg.memPorts).filter fun m => s.cfg.halfOfMem m = h
    let u := ports.foldl (fun t m => flushKeys t m (cachedKids (portOf t m))) s
    clear u = true → Ends (.halfRetThreshold h) s fun t =>
      ((∀ m ∈ ports, (portOf u m).tags = [] ∧ (portOf u m).cache = []) → h ∈ t.ck.halves ∧ (tallyOf t h).retained = true ∧
        (tallyOf t h).waking = false ∧ (tallyOf t h).pool = (tallyOf u h).pool ∧ t.sv = u.sv) ∧
      ((∃ m ∈ ports, (portOf u m).tags ≠ [] ∨ (portOf u m).cache ≠ []) → t = u))

/-- Decode of encode is the instruction for every Weft instruction, encode of decode is the word, and unassigned opcodes decode to none. For
every engine, every row of the Weft opcode table and every frame whose PREG and FCLASS fit their fields, the 128-bit word that OPCODE, PNEG,
PREG, FCLASS and OPERANDS spell decodes to that row's instruction with that frame; a word whose opcode stands in no row decodes to none; no
opcode stands in two rows; and every 128-bit word is the one that its own fields spell, so that no bit is dropped. (R171, R172, R199, R201,
R209, R215, R222) -/
def Obligations.WeftWordsEncodeAndDecode : Prop :=
  (∀ (e : Nat) (r : Nat × (Nat → Sys2Proof.Frame → Sys2Proof.Instr)) (f : Sys2Proof.Frame), r ∈ weftTable → f.preg < 8 → f.fclass < 16 →
    decodeWeft e (frameWord r.1 f) = some (r.2 e f)) ∧
  (∀ (e op : Nat) (f : Sys2Proof.Frame), op < 256 → opcodeAssigned op = false → decodeWeft e (frameWord op f) = none) ∧
  (weftTable.map (·.1)).Nodup ∧
  (∀ (w : BitVec 128), frameWord (opcodeOf w) (frameOf w) = w)

end
end

