-- ==== Sys2Proof/Laws/Maps.lean ====
section
/-! SUPPORT. Laws of the sparse tables and byte memories: a read after a write, the frame of a write, and that every memory operation keeps
the canonical form. -/
namespace Sys2Proof.Machine

variable {α : Type}

/-! ## Reads after writes -/

@[simp] theorem mget_mdel_same (d : α) (m : List (Nat × α)) (k : Nat) : mget d (mdel m k) k = d := by
  induction m with
  | nil => rfl
  | cons e t ih => by_cases h : e.1 = k <;> simp [mdel, mget, h, ih]

theorem mget_mdel_other (d : α) (m : List (Nat × α)) {k j : Nat} (h : j ≠ k) : mget d (mdel m k) j = mget d m j := by
  induction m with
  | nil => rfl
  | cons e t ih =>
    by_cases h1 : e.1 = k
    · have h2 : ¬ k = j := fun x => h x.symm
      simp [mdel, mget, h1, ih, h2]
    · simp [mdel, mget, h1, ih]

@[simp] theorem mget_minsert_same (d : α) (m : List (Nat × α)) (k : Nat) (v : α) : mget d (minsert m k v) k = v := by
  induction m with
  | nil => simp [minsert, mget]
  | cons e t ih =>
    obtain ⟨a, w⟩ := e
    by_cases h : k < a
    · simp [minsert, mget, h]
    · by_cases h1 : a = k <;> simp [minsert, mget, h, h1, ih]

theorem mget_minsert_other (d : α) (m : List (Nat × α)) {k j : Nat} (v : α) (h : j ≠ k) :
    mget d (minsert m k v) j = mget d m j := by
  have hk : ¬ k = j := fun x => h x.symm
  induction m with
  | nil => simp [minsert, mget, hk]
  | cons e t ih =>
    obtain ⟨a, w⟩ := e
    by_cases h0 : k < a
    · simp [minsert, mget, h0, hk]
    · by_cases h1 : a = k
      · subst h1; simp [minsert, mget, hk]
      · simp [minsert, mget, h0, h1, ih]

variable [DecidableEq α]

@[simp] theorem mget_mset_same (d : α) (m : List (Nat × α)) (k : Nat) (v : α) : mget d (mset d m k v) k = v := by
  by_cases h : v = d <;> simp [mset, h]

theorem mget_mset_other (d : α) (m : List (Nat × α)) {k j : Nat} (v : α) (h : j ≠ k) :
    mget d (mset d m k v) j = mget d m j := by
  unfold mset
  split
  · exact mget_mdel_other d m h
  · exact mget_minsert_other d m v h

@[simp] theorem mget_mmod_same (d : α) (m : List (Nat × α)) (k : Nat) (f : α → α) :
    mget d (mmod d m k f) k = f (mget d m k) := by simp [mmod]

theorem mget_mmod_other (d : α) (m : List (Nat × α)) {k j : Nat} (f : α → α) (h : j ≠ k) :
    mget d (mmod d m k f) j = mget d m j := by simp [mmod, mget_mset_other _ _ _ h]

/-! ## The canonical form -/

omit [DecidableEq α] in
theorem mabove_mono {a b : Nat} (h : a ≤ b) : ∀ m : List (Nat × α), mabove b m = true → mabove a m = true
  | [], _ => rfl
  | e :: t, hb => by
    simp only [mabove, Bool.and_eq_true, decide_eq_true_eq] at hb ⊢
    exact ⟨by omega, mabove_mono h t hb.2⟩

omit [DecidableEq α] in
theorem mabove_mdel {a : Nat} (m : List (Nat × α)) (k : Nat) (h : mabove a m = true) : mabove a (mdel m k) = true := by
  induction m with
  | nil => rfl
  | cons e t ih =>
    simp only [mabove, Bool.and_eq_true] at h
    by_cases h1 : e.1 = k <;> simp [mdel, mabove, h1, ih h.2]
    exact of_decide_eq_true h.1

omit [DecidableEq α] in
theorem mabove_minsert {a : Nat} (m : List (Nat × α)) (k : Nat) (v : α) (h : mabove a m = true) (hk : a < k) :
    mabove a (minsert m k v) = true := by
  induction m with
  | nil => simp [minsert, mabove, hk]
  | cons e t ih =>
    obtain ⟨b, w⟩ := e
    simp only [mabove, Bool.and_eq_true, decide_eq_true_eq] at h
    by_cases h0 : k < b
    · simp [minsert, mabove, h0, hk, h]
    · by_cases h1 : b = k <;> simp [minsert, mabove, h0, h1, hk, h, ih h.2]

omit [DecidableEq α] in
theorem mabove_filter {a : Nat} (p : Nat × α → Bool) (m : List (Nat × α)) (h : mabove a m = true) :
    mabove a (m.filter p) = true := by
  induction m with
  | nil => rfl
  | cons e t ih =>
    simp only [mabove, Bool.and_eq_true] at h
    by_cases hp : p e <;> simp [hp, mabove, ih h.2]
    exact of_decide_eq_true h.1

theorem mwf_mdel (d : α) (m : List (Nat × α)) (k : Nat) (h : mwf d m = true) : mwf d (mdel m k) = true := by
  induction m with
  | nil => rfl
  | cons e t ih =>
    simp only [mwf, Bool.and_eq_true] at h
    by_cases h1 : e.1 = k
    · simp [mdel, h1, ih h.2]
    · simp [mdel, h1, mwf, ih h.2, mabove_mdel t k h.1.1]
      exact of_decide_eq_true h.1.2

theorem mwf_minsert (d : α) (m : List (Nat × α)) (k : Nat) (v : α) (h : mwf d m = true) (hv : v ≠ d) :
    mwf d (minsert m k v) = true := by
  induction m with
  | nil => simp [minsert, mwf, mabove, hv]
  | cons e t ih =>
    obtain ⟨a, w⟩ := e
    have h' := h
    simp only [mwf, Bool.and_eq_true, decide_eq_true_eq] at h
    by_cases h0 : k < a
    · simp [minsert, h0, mwf, mabove, hv, h, mabove_mono (Nat.le_of_lt h0) t h.1.1]
    · by_cases h1 : a = k
      · subst h1; simp [minsert, mwf, hv, h]
      · have : a < k := by omega
        simp [minsert, h0, h1, mwf, h, ih h.2, mabove_minsert t k v h.1.1 this]

/-- A write keeps the canonical form. -/
theorem mwf_mset (d : α) (m : List (Nat × α)) (k : Nat) (v : α) (h : mwf d m = true) : mwf d (mset d m k v) = true := by
  unfold mset
  split
  · exact mwf_mdel d m k h
  · exact mwf_minsert d m k v h ‹_›

theorem mwf_mmod (d : α) (m : List (Nat × α)) (k : Nat) (f : α → α) (h : mwf d m = true) : mwf d (mmod d m k f) = true :=
  mwf_mset d m k _ h

theorem mwf_filter (d : α) (p : Nat × α → Bool) (m : List (Nat × α)) (h : mwf d m = true) : mwf d (m.filter p) = true := by
  induction m with
  | nil => rfl
  | cons e t ih =>
    simp only [mwf, Bool.and_eq_true] at h
    by_cases hp : p e
    · simp [hp, mwf, ih h.2, mabove_filter p t h.1.1]
      exact of_decide_eq_true h.1.2
    · simp [hp, ih h.2]

/-! ## Byte memories -/

theorem mwf_bwrite (m : List (Nat × Byte)) (a : Nat) (bs : List Byte) (h : mwf 0 m = true) : mwf 0 (bwrite m a bs) = true := by
  induction bs generalizing m a with
  | nil => exact h
  | cons b t ih => exact ih _ _ (mwf_mset 0 m a b h)

theorem mwf_bwriteMask (m : List (Nat × Byte)) (a : Nat) (bs : List (Option Byte)) (h : mwf 0 m = true) :
    mwf 0 (bwriteMask m a bs) = true := by
  induction bs generalizing m a with
  | nil => exact h
  | cons b t ih =>
    cases b with
    | none => exact ih _ _ h
    | some b => exact ih _ _ (mwf_mset 0 m a b h)

theorem mwf_bclear (m : List (Nat × Byte)) (a n : Nat) (h : mwf 0 m = true) : mwf 0 (bclear m a n) = true := mwf_filter 0 _ m h

/-- A byte outside what is written reads as before. -/
theorem bget_bwrite_outside (m : List (Nat × Byte)) (a : Nat) (bs : List Byte) (x : Nat) (h : x < a ∨ a + bs.length ≤ x) :
    bget (bwrite m a bs) x = bget m x := by
  induction bs generalizing m a with
  | nil => rfl
  | cons b t ih =>
    simp only [List.length_cons] at h
    rw [bwrite, ih _ _ (by omega)]
    exact mget_mset_other 0 m b (by omega)

/-- A byte that is written reads as the byte written. -/
theorem bget_bwrite_inside (m : List (Nat × Byte)) (a : Nat) (bs : List Byte) (j : Nat) (h : j < bs.length) :
    bget (bwrite m a bs) (a + j) = bs.getD j 0 := by
  induction bs generalizing m a j with
  | nil => simp at h
  | cons b t ih =>
    cases j with
    | zero =>
      rw [bwrite, Nat.add_zero, bget_bwrite_outside _ _ _ _ (by omega)]
      simp
    | succ j =>
      simp only [List.length_cons] at h
      have := ih (bset m a b) (a + 1) j (by omega)
      rw [bwrite, show a + (j + 1) = a + 1 + j by omega, this]
      simp

end Sys2Proof.Machine
end

