-- ==== Sys2Proof/Laws/State.lean ====
section
/-! SUPPORT. Laws of the named operations over the state: what each leaves alone, field by field, and what the accessor of its own record
reads afterwards. -/
namespace Sys2Proof.Machine

variable (s : State)

/-! ## Every other field is left alone -/

@[simp] theorem modPort_cfg (m : Nat) (f : MemPort → MemPort) : (modPort s m f).cfg = s.cfg := rfl
@[simp] theorem modPort_tally (m : Nat) (f : MemPort → MemPort) : (modPort s m f).tally = s.tally := rfl
@[simp] theorem modPort_regions (m : Nat) (f : MemPort → MemPort) : (modPort s m f).regions = s.regions := rfl
@[simp] theorem modPort_slices (m : Nat) (f : MemPort → MemPort) : (modPort s m f).slices = s.slices := rfl
@[simp] theorem modPort_slm (m : Nat) (f : MemPort → MemPort) : (modPort s m f).slm = s.slm := rfl
@[simp] theorem modPort_atu (m : Nat) (f : MemPort → MemPort) : (modPort s m f).atu = s.atu := rfl
@[simp] theorem modPort_s2 (m : Nat) (f : MemPort → MemPort) : (modPort s m f).s2 = s.s2 := rfl
@[simp] theorem modPort_retJobs (m : Nat) (f : MemPort → MemPort) : (modPort s m f).retJobs = s.retJobs := rfl
@[simp] theorem modPort_engines (m : Nat) (f : MemPort → MemPort) : (modPort s m f).engines = s.engines := rfl
@[simp] theorem modPort_clusters (m : Nat) (f : MemPort → MemPort) : (modPort s m f).clusters = s.clusters := rfl
@[simp] theorem modPort_asyncs (m : Nat) (f : MemPort → MemPort) : (modPort s m f).asyncs = s.asyncs := rfl
@[simp] theorem modPort_reqErrs (m : Nat) (f : MemPort → MemPort) : (modPort s m f).reqErrs = s.reqErrs := rfl
@[simp] theorem modPort_ctxs (m : Nat) (f : MemPort → MemPort) : (modPort s m f).ctxs = s.ctxs := rfl
@[simp] theorem modPort_queues (m : Nat) (f : MemPort → MemPort) : (modPort s m f).queues = s.queues := rfl
@[simp] theorem modPort_memObjs (m : Nat) (f : MemPort → MemPort) : (modPort s m f).memObjs = s.memObjs := rfl
@[simp] theorem modPort_rings (m : Nat) (f : MemPort → MemPort) : (modPort s m f).rings = s.rings := rfl
@[simp] theorem modPort_hports (m : Nat) (f : MemPort → MemPort) : (modPort s m f).hports = s.hports := rfl
@[simp] theorem modPort_sched (m : Nat) (f : MemPort → MemPort) : (modPort s m f).sched = s.sched := rfl
@[simp] theorem modPort_windows (m : Nat) (f : MemPort → MemPort) : (modPort s m f).windows = s.windows := rfl
@[simp] theorem modPort_bw (m : Nat) (f : MemPort → MemPort) : (modPort s m f).bw = s.bw := rfl
@[simp] theorem modPort_pins (m : Nat) (f : MemPort → MemPort) : (modPort s m f).pins = s.pins := rfl
@[simp] theorem modPort_fw (m : Nat) (f : MemPort → MemPort) : (modPort s m f).fw = s.fw := rfl
@[simp] theorem modPort_ks (m : Nat) (f : MemPort → MemPort) : (modPort s m f).ks = s.ks := rfl
@[simp] theorem modPort_lc (m : Nat) (f : MemPort → MemPort) : (modPort s m f).lc = s.lc := rfl
@[simp] theorem modPort_links (m : Nat) (f : MemPort → MemPort) : (modPort s m f).links = s.links := rfl
@[simp] theorem modPort_bridge (m : Nat) (f : MemPort → MemPort) : (modPort s m f).bridge = s.bridge := rfl
@[simp] theorem modPort_cp (m : Nat) (f : MemPort → MemPort) : (modPort s m f).cp = s.cp := rfl
@[simp] theorem modPort_ck (m : Nat) (f : MemPort → MemPort) : (modPort s m f).ck = s.ck := rfl
@[simp] theorem modPort_minSvn (m : Nat) (f : MemPort → MemPort) : (modPort s m f).minSvn = s.minSvn := rfl
@[simp] theorem modPort_emergQuiet (m : Nat) (f : MemPort → MemPort) : (modPort s m f).emergQuiet = s.emergQuiet := rfl
@[simp] theorem modPort_wipeDue (m : Nat) (f : MemPort → MemPort) : (modPort s m f).wipeDue = s.wipeDue := rfl
@[simp] theorem modPort_pclk (m : Nat) (f : MemPort → MemPort) : (modPort s m f).pclk = s.pclk := rfl
@[simp] theorem modPort_fc (m : Nat) (f : MemPort → MemPort) : (modPort s m f).fc = s.fc := rfl
@[simp] theorem modPort_out (m : Nat) (f : MemPort → MemPort) : (modPort s m f).out = s.out := rfl
@[simp] theorem modPort_fresh (m : Nat) (f : MemPort → MemPort) : (modPort s m f).fresh = s.fresh := rfl
@[simp] theorem modPort_pending (m : Nat) (f : MemPort → MemPort) : (modPort s m f).pending = s.pending := rfl

@[simp] theorem modKid_cfg (n : Nat) (f : Kid → Kid) : (modKid s n f).cfg = s.cfg := rfl
@[simp] theorem modKid_tally (n : Nat) (f : Kid → Kid) : (modKid s n f).tally = s.tally := rfl
@[simp] theorem modKid_regions (n : Nat) (f : Kid → Kid) : (modKid s n f).regions = s.regions := rfl
@[simp] theorem modKid_slices (n : Nat) (f : Kid → Kid) : (modKid s n f).slices = s.slices := rfl
@[simp] theorem modKid_slm (n : Nat) (f : Kid → Kid) : (modKid s n f).slm = s.slm := rfl
@[simp] theorem modKid_atu (n : Nat) (f : Kid → Kid) : (modKid s n f).atu = s.atu := rfl
@[simp] theorem modKid_s2 (n : Nat) (f : Kid → Kid) : (modKid s n f).s2 = s.s2 := rfl
@[simp] theorem modKid_retJobs (n : Nat) (f : Kid → Kid) : (modKid s n f).retJobs = s.retJobs := rfl
@[simp] theorem modKid_engines (n : Nat) (f : Kid → Kid) : (modKid s n f).engines = s.engines := rfl
@[simp] theorem modKid_clusters (n : Nat) (f : Kid → Kid) : (modKid s n f).clusters = s.clusters := rfl
@[simp] theorem modKid_asyncs (n : Nat) (f : Kid → Kid) : (modKid s n f).asyncs = s.asyncs := rfl
@[simp] theorem modKid_reqErrs (n : Nat) (f : Kid → Kid) : (modKid s n f).reqErrs = s.reqErrs := rfl
@[simp] theorem modKid_ctxs (n : Nat) (f : Kid → Kid) : (modKid s n f).ctxs = s.ctxs := rfl
@[simp] theorem modKid_queues (n : Nat) (f : Kid → Kid) : (modKid s n f).queues = s.queues := rfl
@[simp] theorem modKid_memObjs (n : Nat) (f : Kid → Kid) : (modKid s n f).memObjs = s.memObjs := rfl
@[simp] theorem modKid_rings (n : Nat) (f : Kid → Kid) : (modKid s n f).rings = s.rings := rfl
@[simp] theorem modKid_hports (n : Nat) (f : Kid → Kid) : (modKid s n f).hports = s.hports := rfl
@[simp] theorem modKid_sched (n : Nat) (f : Kid → Kid) : (modKid s n f).sched = s.sched := rfl
@[simp] theorem modKid_windows (n : Nat) (f : Kid → Kid) : (modKid s n f).windows = s.windows := rfl
@[simp] theorem modKid_bw (n : Nat) (f : Kid → Kid) : (modKid s n f).bw = s.bw := rfl
@[simp] theorem modKid_pins (n : Nat) (f : Kid → Kid) : (modKid s n f).pins = s.pins := rfl
@[simp] theorem modKid_fw (n : Nat) (f : Kid → Kid) : (modKid s n f).fw = s.fw := rfl
@[simp] theorem modKid_ks (n : Nat) (f : Kid → Kid) : (modKid s n f).ks = s.ks := rfl
@[simp] theorem modKid_lc (n : Nat) (f : Kid → Kid) : (modKid s n f).lc = s.lc := rfl
@[simp] theorem modKid_links (n : Nat) (f : Kid → Kid) : (modKid s n f).links = s.links := rfl
@[simp] theorem modKid_bridge (n : Nat) (f : Kid → Kid) : (modKid s n f).bridge = s.bridge := rfl
@[simp] theorem modKid_cp (n : Nat) (f : Kid → Kid) : (modKid s n f).cp = s.cp := rfl
@[simp] theorem modKid_ck (n : Nat) (f : Kid → Kid) : (modKid s n f).ck = s.ck := rfl
@[simp] theorem modKid_minSvn (n : Nat) (f : Kid → Kid) : (modKid s n f).minSvn = s.minSvn := rfl
@[simp] theorem modKid_emergQuiet (n : Nat) (f : Kid → Kid) : (modKid s n f).emergQuiet = s.emergQuiet := rfl
@[simp] theorem modKid_wipeDue (n : Nat) (f : Kid → Kid) : (modKid s n f).wipeDue = s.wipeDue := rfl
@[simp] theorem modKid_pclk (n : Nat) (f : Kid → Kid) : (modKid s n f).pclk = s.pclk := rfl
@[simp] theorem modKid_fc (n : Nat) (f : Kid → Kid) : (modKid s n f).fc = s.fc := rfl
@[simp] theorem modKid_out (n : Nat) (f : Kid → Kid) : (modKid s n f).out = s.out := rfl
@[simp] theorem modKid_fresh (n : Nat) (f : Kid → Kid) : (modKid s n f).fresh = s.fresh := rfl
@[simp] theorem modKid_pending (n : Nat) (f : Kid → Kid) : (modKid s n f).pending = s.pending := rfl

@[simp] theorem modTally_cfg (h : Nat) (f : Tally → Tally) : (modTally s h f).cfg = s.cfg := rfl
@[simp] theorem modTally_sv (h : Nat) (f : Tally → Tally) : (modTally s h f).sv = s.sv := rfl
@[simp] theorem modTally_regions (h : Nat) (f : Tally → Tally) : (modTally s h f).regions = s.regions := rfl
@[simp] theorem modTally_slices (h : Nat) (f : Tally → Tally) : (modTally s h f).slices = s.slices := rfl
@[simp] theorem modTally_slm (h : Nat) (f : Tally → Tally) : (modTally s h f).slm = s.slm := rfl
@[simp] theorem modTally_atu (h : Nat) (f : Tally → Tally) : (modTally s h f).atu = s.atu := rfl
@[simp] theorem modTally_s2 (h : Nat) (f : Tally → Tally) : (modTally s h f).s2 = s.s2 := rfl
@[simp] theorem modTally_retJobs (h : Nat) (f : Tally → Tally) : (modTally s h f).retJobs = s.retJobs := rfl
@[simp] theorem modTally_engines (h : Nat) (f : Tally → Tally) : (modTally s h f).engines = s.engines := rfl
@[simp] theorem modTally_clusters (h : Nat) (f : Tally → Tally) : (modTally s h f).clusters = s.clusters := rfl
@[simp] theorem modTally_asyncs (h : Nat) (f : Tally → Tally) : (modTally s h f).asyncs = s.asyncs := rfl
@[simp] theorem modTally_reqErrs (h : Nat) (f : Tally → Tally) : (modTally s h f).reqErrs = s.reqErrs := rfl
@[simp] theorem modTally_ctxs (h : Nat) (f : Tally → Tally) : (modTally s h f).ctxs = s.ctxs := rfl
@[simp] theorem modTally_queues (h : Nat) (f : Tally → Tally) : (modTally s h f).queues = s.queues := rfl
@[simp] theorem modTally_memObjs (h : Nat) (f : Tally → Tally) : (modTally s h f).memObjs = s.memObjs := rfl
@[simp] theorem modTally_rings (h : Nat) (f : Tally → Tally) : (modTally s h f).rings = s.rings := rfl
@[simp] theorem modTally_hports (h : Nat) (f : Tally → Tally) : (modTally s h f).hports = s.hports := rfl
@[simp] theorem modTally_sched (h : Nat) (f : Tally → Tally) : (modTally s h f).sched = s.sched := rfl
@[simp] theorem modTally_windows (h : Nat) (f : Tally → Tally) : (modTally s h f).windows = s.windows := rfl
@[simp] theorem modTally_bw (h : Nat) (f : Tally → Tally) : (modTally s h f).bw = s.bw := rfl
@[simp] theorem modTally_pins (h : Nat) (f : Tally → Tally) : (modTally s h f).pins = s.pins := rfl
@[simp] theorem modTally_fw (h : Nat) (f : Tally → Tally) : (modTally s h f).fw = s.fw := rfl
@[simp] theorem modTally_ks (h : Nat) (f : Tally → Tally) : (modTally s h f).ks = s.ks := rfl
@[simp] theorem modTally_lc (h : Nat) (f : Tally → Tally) : (modTally s h f).lc = s.lc := rfl
@[simp] theorem modTally_links (h : Nat) (f : Tally → Tally) : (modTally s h f).links = s.links := rfl
@[simp] theorem modTally_bridge (h : Nat) (f : Tally → Tally) : (modTally s h f).bridge = s.bridge := rfl
@[simp] theorem modTally_cp (h : Nat) (f : Tally → Tally) : (modTally s h f).cp = s.cp := rfl
@[simp] theorem modTally_ck (h : Nat) (f : Tally → Tally) : (modTally s h f).ck = s.ck := rfl
@[simp] theorem modTally_minSvn (h : Nat) (f : Tally → Tally) : (modTally s h f).minSvn = s.minSvn := rfl
@[simp] theorem modTally_emergQuiet (h : Nat) (f : Tally → Tally) : (modTally s h f).emergQuiet = s.emergQuiet := rfl
@[simp] theorem modTally_wipeDue (h : Nat) (f : Tally → Tally) : (modTally s h f).wipeDue = s.wipeDue := rfl
@[simp] theorem modTally_pclk (h : Nat) (f : Tally → Tally) : (modTally s h f).pclk = s.pclk := rfl
@[simp] theorem modTally_fc (h : Nat) (f : Tally → Tally) : (modTally s h f).fc = s.fc := rfl
@[simp] theorem modTally_out (h : Nat) (f : Tally → Tally) : (modTally s h f).out = s.out := rfl
@[simp] theorem modTally_fresh (h : Nat) (f : Tally → Tally) : (modTally s h f).fresh = s.fresh := rfl
@[simp] theorem modTally_pending (h : Nat) (f : Tally → Tally) : (modTally s h f).pending = s.pending := rfl

@[simp] theorem modSlice_cfg (n : Nat) (f : Slice → Slice) : (modSlice s n f).cfg = s.cfg := rfl
@[simp] theorem modSlice_sv (n : Nat) (f : Slice → Slice) : (modSlice s n f).sv = s.sv := rfl
@[simp] theorem modSlice_tally (n : Nat) (f : Slice → Slice) : (modSlice s n f).tally = s.tally := rfl
@[simp] theorem modSlice_regions (n : Nat) (f : Slice → Slice) : (modSlice s n f).regions = s.regions := rfl
@[simp] theorem modSlice_slm (n : Nat) (f : Slice → Slice) : (modSlice s n f).slm = s.slm := rfl
@[simp] theorem modSlice_atu (n : Nat) (f : Slice → Slice) : (modSlice s n f).atu = s.atu := rfl
@[simp] theorem modSlice_s2 (n : Nat) (f : Slice → Slice) : (modSlice s n f).s2 = s.s2 := rfl
@[simp] theorem modSlice_retJobs (n : Nat) (f : Slice → Slice) : (modSlice s n f).retJobs = s.retJobs := rfl
@[simp] theorem modSlice_engines (n : Nat) (f : Slice → Slice) : (modSlice s n f).engines = s.engines := rfl
@[simp] theorem modSlice_clusters (n : Nat) (f : Slice → Slice) : (modSlice s n f).clusters = s.clusters := rfl
@[simp] theorem modSlice_asyncs (n : Nat) (f : Slice → Slice) : (modSlice s n f).asyncs = s.asyncs := rfl
@[simp] theorem modSlice_reqErrs (n : Nat) (f : Slice → Slice) : (modSlice s n f).reqErrs = s.reqErrs := rfl
@[simp] theorem modSlice_ctxs (n : Nat) (f : Slice → Slice) : (modSlice s n f).ctxs = s.ctxs := rfl
@[simp] theorem modSlice_queues (n : Nat) (f : Slice → Slice) : (modSlice s n f).queues = s.queues := rfl
@[simp] theorem modSlice_memObjs (n : Nat) (f : Slice → Slice) : (modSlice s n f).memObjs = s.memObjs := rfl
@[simp] theorem modSlice_rings (n : Nat) (f : Slice → Slice) : (modSlice s n f).rings = s.rings := rfl
@[simp] theorem modSlice_hports (n : Nat) (f : Slice → Slice) : (modSlice s n f).hports = s.hports := rfl
@[simp] theorem modSlice_sched (n : Nat) (f : Slice → Slice) : (modSlice s n f).sched = s.sched := rfl
@[simp] theorem modSlice_windows (n : Nat) (f : Slice → Slice) : (modSlice s n f).windows = s.windows := rfl
@[simp] theorem modSlice_bw (n : Nat) (f : Slice → Slice) : (modSlice s n f).bw = s.bw := rfl
@[simp] theorem modSlice_pins (n : Nat) (f : Slice → Slice) : (modSlice s n f).pins = s.pins := rfl
@[simp] theorem modSlice_fw (n : Nat) (f : Slice → Slice) : (modSlice s n f).fw = s.fw := rfl
@[simp] theorem modSlice_ks (n : Nat) (f : Slice → Slice) : (modSlice s n f).ks = s.ks := rfl
@[simp] theorem modSlice_lc (n : Nat) (f : Slice → Slice) : (modSlice s n f).lc = s.lc := rfl
@[simp] theorem modSlice_links (n : Nat) (f : Slice → Slice) : (modSlice s n f).links = s.links := rfl
@[simp] theorem modSlice_bridge (n : Nat) (f : Slice → Slice) : (modSlice s n f).bridge = s.bridge := rfl
@[simp] theorem modSlice_cp (n : Nat) (f : Slice → Slice) : (modSlice s n f).cp = s.cp := rfl
@[simp] theorem modSlice_ck (n : Nat) (f : Slice → Slice) : (modSlice s n f).ck = s.ck := rfl
@[simp] theorem modSlice_minSvn (n : Nat) (f : Slice → Slice) : (modSlice s n f).minSvn = s.minSvn := rfl
@[simp] theorem modSlice_emergQuiet (n : Nat) (f : Slice → Slice) : (modSlice s n f).emergQuiet = s.emergQuiet := rfl
@[simp] theorem modSlice_wipeDue (n : Nat) (f : Slice → Slice) : (modSlice s n f).wipeDue = s.wipeDue := rfl
@[simp] theorem modSlice_pclk (n : Nat) (f : Slice → Slice) : (modSlice s n f).pclk = s.pclk := rfl
@[simp] theorem modSlice_fc (n : Nat) (f : Slice → Slice) : (modSlice s n f).fc = s.fc := rfl
@[simp] theorem modSlice_out (n : Nat) (f : Slice → Slice) : (modSlice s n f).out = s.out := rfl
@[simp] theorem modSlice_fresh (n : Nat) (f : Slice → Slice) : (modSlice s n f).fresh = s.fresh := rfl
@[simp] theorem modSlice_pending (n : Nat) (f : Slice → Slice) : (modSlice s n f).pending = s.pending := rfl

@[simp] theorem modEng_cfg (e : Nat) (f : Engine → Engine) : (modEng s e f).cfg = s.cfg := rfl
@[simp] theorem modEng_sv (e : Nat) (f : Engine → Engine) : (modEng s e f).sv = s.sv := rfl
@[simp] theorem modEng_tally (e : Nat) (f : Engine → Engine) : (modEng s e f).tally = s.tally := rfl
@[simp] theorem modEng_regions (e : Nat) (f : Engine → Engine) : (modEng s e f).regions = s.regions := rfl
@[simp] theorem modEng_slices (e : Nat) (f : Engine → Engine) : (modEng s e f).slices = s.slices := rfl
@[simp] theorem modEng_slm (e : Nat) (f : Engine → Engine) : (modEng s e f).slm = s.slm := rfl
@[simp] theorem modEng_atu (e : Nat) (f : Engine → Engine) : (modEng s e f).atu = s.atu := rfl
@[simp] theorem modEng_s2 (e : Nat) (f : Engine → Engine) : (modEng s e f).s2 = s.s2 := rfl
@[simp] theorem modEng_retJobs (e : Nat) (f : Engine → Engine) : (modEng s e f).retJobs = s.retJobs := rfl
@[simp] theorem modEng_clusters (e : Nat) (f : Engine → Engine) : (modEng s e f).clusters = s.clusters := rfl
@[simp] theorem modEng_asyncs (e : Nat) (f : Engine → Engine) : (modEng s e f).asyncs = s.asyncs := rfl
@[simp] theorem modEng_reqErrs (e : Nat) (f : Engine → Engine) : (modEng s e f).reqErrs = s.reqErrs := rfl
@[simp] theorem modEng_ctxs (e : Nat) (f : Engine → Engine) : (modEng s e f).ctxs = s.ctxs := rfl
@[simp] theorem modEng_queues (e : Nat) (f : Engine → Engine) : (modEng s e f).queues = s.queues := rfl
@[simp] theorem modEng_memObjs (e : Nat) (f : Engine → Engine) : (modEng s e f).memObjs = s.memObjs := rfl
@[simp] theorem modEng_rings (e : Nat) (f : Engine → Engine) : (modEng s e f).rings = s.rings := rfl
@[simp] theorem modEng_hports (e : Nat) (f : Engine → Engine) : (modEng s e f).hports = s.hports := rfl
@[simp] theorem modEng_sched (e : Nat) (f : Engine → Engine) : (modEng s e f).sched = s.sched := rfl
@[simp] theorem modEng_windows (e : Nat) (f : Engine → Engine) : (modEng s e f).windows = s.windows := rfl
@[simp] theorem modEng_bw (e : Nat) (f : Engine → Engine) : (modEng s e f).bw = s.bw := rfl
@[simp] theorem modEng_pins (e : Nat) (f : Engine → Engine) : (modEng s e f).pins = s.pins := rfl
@[simp] theorem modEng_fw (e : Nat) (f : Engine → Engine) : (modEng s e f).fw = s.fw := rfl
@[simp] theorem modEng_ks (e : Nat) (f : Engine → Engine) : (modEng s e f).ks = s.ks := rfl
@[simp] theorem modEng_lc (e : Nat) (f : Engine → Engine) : (modEng s e f).lc = s.lc := rfl
@[simp] theorem modEng_links (e : Nat) (f : Engine → Engine) : (modEng s e f).links = s.links := rfl
@[simp] theorem modEng_bridge (e : Nat) (f : Engine → Engine) : (modEng s e f).bridge = s.bridge := rfl
@[simp] theorem modEng_cp (e : Nat) (f : Engine → Engine) : (modEng s e f).cp = s.cp := rfl
@[simp] theorem modEng_ck (e : Nat) (f : Engine → Engine) : (modEng s e f).ck = s.ck := rfl
@[simp] theorem modEng_minSvn (e : Nat) (f : Engine → Engine) : (modEng s e f).minSvn = s.minSvn := rfl
@[simp] theorem modEng_emergQuiet (e : Nat) (f : Engine → Engine) : (modEng s e f).emergQuiet = s.emergQuiet := rfl
@[simp] theorem modEng_wipeDue (e : Nat) (f : Engine → Engine) : (modEng s e f).wipeDue = s.wipeDue := rfl
@[simp] theorem modEng_pclk (e : Nat) (f : Engine → Engine) : (modEng s e f).pclk = s.pclk := rfl
@[simp] theorem modEng_fc (e : Nat) (f : Engine → Engine) : (modEng s e f).fc = s.fc := rfl
@[simp] theorem modEng_out (e : Nat) (f : Engine → Engine) : (modEng s e f).out = s.out := rfl
@[simp] theorem modEng_fresh (e : Nat) (f : Engine → Engine) : (modEng s e f).fresh = s.fresh := rfl
@[simp] theorem modEng_pending (e : Nat) (f : Engine → Engine) : (modEng s e f).pending = s.pending := rfl

@[simp] theorem modCl_cfg (c : Nat) (f : Cluster → Cluster) : (modCl s c f).cfg = s.cfg := rfl
@[simp] theorem modCl_sv (c : Nat) (f : Cluster → Cluster) : (modCl s c f).sv = s.sv := rfl
@[simp] theorem modCl_tally (c : Nat) (f : Cluster → Cluster) : (modCl s c f).tally = s.tally := rfl
@[simp] theorem modCl_regions (c : Nat) (f : Cluster → Cluster) : (modCl s c f).regions = s.regions := rfl
@[simp] theorem modCl_slices (c : Nat) (f : Cluster → Cluster) : (modCl s c f).slices = s.slices := rfl
@[simp] theorem modCl_slm (c : Nat) (f : Cluster → Cluster) : (modCl s c f).slm = s.slm := rfl
@[simp] theorem modCl_atu (c : Nat) (f : Cluster → Cluster) : (modCl s c f).atu = s.atu := rfl
@[simp] theorem modCl_s2 (c : Nat) (f : Cluster → Cluster) : (modCl s c f).s2 = s.s2 := rfl
@[simp] theorem modCl_retJobs (c : Nat) (f : Cluster → Cluster) : (modCl s c f).retJobs = s.retJobs := rfl
@[simp] theorem modCl_engines (c : Nat) (f : Cluster → Cluster) : (modCl s c f).engines = s.engines := rfl
@[simp] theorem modCl_asyncs (c : Nat) (f : Cluster → Cluster) : (modCl s c f).asyncs = s.asyncs := rfl
@[simp] theorem modCl_reqErrs (c : Nat) (f : Cluster → Cluster) : (modCl s c f).reqErrs = s.reqErrs := rfl
@[simp] theorem modCl_ctxs (c : Nat) (f : Cluster → Cluster) : (modCl s c f).ctxs = s.ctxs := rfl
@[simp] theorem modCl_queues (c : Nat) (f : Cluster → Cluster) : (modCl s c f).queues = s.queues := rfl
@[simp] theorem modCl_memObjs (c : Nat) (f : Cluster → Cluster) : (modCl s c f).memObjs = s.memObjs := rfl
@[simp] theorem modCl_rings (c : Nat) (f : Cluster → Cluster) : (modCl s c f).rings = s.rings := rfl
@[simp] theorem modCl_hports (c : Nat) (f : Cluster → Cluster) : (modCl s c f).hports = s.hports := rfl
@[simp] theorem modCl_sched (c : Nat) (f : Cluster → Cluster) : (modCl s c f).sched = s.sched := rfl
@[simp] theorem modCl_windows (c : Nat) (f : Cluster → Cluster) : (modCl s c f).windows = s.windows := rfl
@[simp] theorem modCl_bw (c : Nat) (f : Cluster → Cluster) : (modCl s c f).bw = s.bw := rfl
@[simp] theorem modCl_pins (c : Nat) (f : Cluster → Cluster) : (modCl s c f).pins = s.pins := rfl
@[simp] theorem modCl_fw (c : Nat) (f : Cluster → Cluster) : (modCl s c f).fw = s.fw := rfl
@[simp] theorem modCl_ks (c : Nat) (f : Cluster → Cluster) : (modCl s c f).ks = s.ks := rfl
@[simp] theorem modCl_lc (c : Nat) (f : Cluster → Cluster) : (modCl s c f).lc = s.lc := rfl
@[simp] theorem modCl_links (c : Nat) (f : Cluster → Cluster) : (modCl s c f).links = s.links := rfl
@[simp] theorem modCl_bridge (c : Nat) (f : Cluster → Cluster) : (modCl s c f).bridge = s.bridge := rfl
@[simp] theorem modCl_cp (c : Nat) (f : Cluster → Cluster) : (modCl s c f).cp = s.cp := rfl
@[simp] theorem modCl_ck (c : Nat) (f : Cluster → Cluster) : (modCl s c f).ck = s.ck := rfl
@[simp] theorem modCl_minSvn (c : Nat) (f : Cluster → Cluster) : (modCl s c f).minSvn = s.minSvn := rfl
@[simp] theorem modCl_emergQuiet (c : Nat) (f : Cluster → Cluster) : (modCl s c f).emergQuiet = s.emergQuiet := rfl
@[simp] theorem modCl_wipeDue (c : Nat) (f : Cluster → Cluster) : (modCl s c f).wipeDue = s.wipeDue := rfl
@[simp] theorem modCl_pclk (c : Nat) (f : Cluster → Cluster) : (modCl s c f).pclk = s.pclk := rfl
@[simp] theorem modCl_fc (c : Nat) (f : Cluster → Cluster) : (modCl s c f).fc = s.fc := rfl
@[simp] theorem modCl_out (c : Nat) (f : Cluster → Cluster) : (modCl s c f).out = s.out := rfl
@[simp] theorem modCl_fresh (c : Nat) (f : Cluster → Cluster) : (modCl s c f).fresh = s.fresh := rfl
@[simp] theorem modCl_pending (c : Nat) (f : Cluster → Cluster) : (modCl s c f).pending = s.pending := rfl

@[simp] theorem modCtx_cfg (n : Nat) (f : Ctx → Ctx) : (modCtx s n f).cfg = s.cfg := rfl
@[simp] theorem modCtx_sv (n : Nat) (f : Ctx → Ctx) : (modCtx s n f).sv = s.sv := rfl
@[simp] theorem modCtx_tally (n : Nat) (f : Ctx → Ctx) : (modCtx s n f).tally = s.tally := rfl
@[simp] theorem modCtx_regions (n : Nat) (f : Ctx → Ctx) : (modCtx s n f).regions = s.regions := rfl
@[simp] theorem modCtx_slices (n : Nat) (f : Ctx → Ctx) : (modCtx s n f).slices = s.slices := rfl
@[simp] theorem modCtx_slm (n : Nat) (f : Ctx → Ctx) : (modCtx s n f).slm = s.slm := rfl
@[simp] theorem modCtx_atu (n : Nat) (f : Ctx → Ctx) : (modCtx s n f).atu = s.atu := rfl
@[simp] theorem modCtx_s2 (n : Nat) (f : Ctx → Ctx) : (modCtx s n f).s2 = s.s2 := rfl
@[simp] theorem modCtx_retJobs (n : Nat) (f : Ctx → Ctx) : (modCtx s n f).retJobs = s.retJobs := rfl
@[simp] theorem modCtx_engines (n : Nat) (f : Ctx → Ctx) : (modCtx s n f).engines = s.engines := rfl
@[simp] theorem modCtx_clusters (n : Nat) (f : Ctx → Ctx) : (modCtx s n f).clusters = s.clusters := rfl
@[simp] theorem modCtx_asyncs (n : Nat) (f : Ctx → Ctx) : (modCtx s n f).asyncs = s.asyncs := rfl
@[simp] theorem modCtx_reqErrs (n : Nat) (f : Ctx → Ctx) : (modCtx s n f).reqErrs = s.reqErrs := rfl
@[simp] theorem modCtx_queues (n : Nat) (f : Ctx → Ctx) : (modCtx s n f).queues = s.queues := rfl
@[simp] theorem modCtx_memObjs (n : Nat) (f : Ctx → Ctx) : (modCtx s n f).memObjs = s.memObjs := rfl
@[simp] theorem modCtx_rings (n : Nat) (f : Ctx → Ctx) : (modCtx s n f).rings = s.rings := rfl
@[simp] theorem modCtx_hports (n : Nat) (f : Ctx → Ctx) : (modCtx s n f).hports = s.hports := rfl
@[simp] theorem modCtx_sched (n : Nat) (f : Ctx → Ctx) : (modCtx s n f).sched = s.sched := rfl
@[simp] theorem modCtx_windows (n : Nat) (f : Ctx → Ctx) : (modCtx s n f).windows = s.windows := rfl
@[simp] theorem modCtx_bw (n : Nat) (f : Ctx → Ctx) : (modCtx s n f).bw = s.bw := rfl
@[simp] theorem modCtx_pins (n : Nat) (f : Ctx → Ctx) : (modCtx s n f).pins = s.pins := rfl
@[simp] theorem modCtx_fw (n : Nat) (f : Ctx → Ctx) : (modCtx s n f).fw = s.fw := rfl
@[simp] theorem modCtx_ks (n : Nat) (f : Ctx → Ctx) : (modCtx s n f).ks = s.ks := rfl
@[simp] theorem modCtx_lc (n : Nat) (f : Ctx → Ctx) : (modCtx s n f).lc = s.lc := rfl
@[simp] theorem modCtx_links (n : Nat) (f : Ctx → Ctx) : (modCtx s n f).links = s.links := rfl
@[simp] theorem modCtx_bridge (n : Nat) (f : Ctx → Ctx) : (modCtx s n f).bridge = s.bridge := rfl
@[simp] theorem modCtx_cp (n : Nat) (f : Ctx → Ctx) : (modCtx s n f).cp = s.cp := rfl
@[simp] theorem modCtx_ck (n : Nat) (f : Ctx → Ctx) : (modCtx s n f).ck = s.ck := rfl
@[simp] theorem modCtx_minSvn (n : Nat) (f : Ctx → Ctx) : (modCtx s n f).minSvn = s.minSvn := rfl
@[simp] theorem modCtx_emergQuiet (n : Nat) (f : Ctx → Ctx) : (modCtx s n f).emergQuiet = s.emergQuiet := rfl
@[simp] theorem modCtx_wipeDue (n : Nat) (f : Ctx → Ctx) : (modCtx s n f).wipeDue = s.wipeDue := rfl
@[simp] theorem modCtx_pclk (n : Nat) (f : Ctx → Ctx) : (modCtx s n f).pclk = s.pclk := rfl
@[simp] theorem modCtx_fc (n : Nat) (f : Ctx → Ctx) : (modCtx s n f).fc = s.fc := rfl
@[simp] theorem modCtx_out (n : Nat) (f : Ctx → Ctx) : (modCtx s n f).out = s.out := rfl
@[simp] theorem modCtx_fresh (n : Nat) (f : Ctx → Ctx) : (modCtx s n f).fresh = s.fresh := rfl
@[simp] theorem modCtx_pending (n : Nat) (f : Ctx → Ctx) : (modCtx s n f).pending = s.pending := rfl

@[simp] theorem modQueue_cfg (q : Nat) (f : Queue → Queue) : (modQueue s q f).cfg = s.cfg := rfl
@[simp] theorem modQueue_sv (q : Nat) (f : Queue → Queue) : (modQueue s q f).sv = s.sv := rfl
@[simp] theorem modQueue_tally (q : Nat) (f : Queue → Queue) : (modQueue s q f).tally = s.tally := rfl
@[simp] theorem modQueue_regions (q : Nat) (f : Queue → Queue) : (modQueue s q f).regions = s.regions := rfl
@[simp] theorem modQueue_slices (q : Nat) (f : Queue → Queue) : (modQueue s q f).slices = s.slices := rfl
@[simp] theorem modQueue_slm (q : Nat) (f : Queue → Queue) : (modQueue s q f).slm = s.slm := rfl
@[simp] theorem modQueue_atu (q : Nat) (f : Queue → Queue) : (modQueue s q f).atu = s.atu := rfl
@[simp] theorem modQueue_s2 (q : Nat) (f : Queue → Queue) : (modQueue s q f).s2 = s.s2 := rfl
@[simp] theorem modQueue_retJobs (q : Nat) (f : Queue → Queue) : (modQueue s q f).retJobs = s.retJobs := rfl
@[simp] theorem modQueue_engines (q : Nat) (f : Queue → Queue) : (modQueue s q f).engines = s.engines := rfl
@[simp] theorem modQueue_clusters (q : Nat) (f : Queue → Queue) : (modQueue s q f).clusters = s.clusters := rfl
@[simp] theorem modQueue_asyncs (q : Nat) (f : Queue → Queue) : (modQueue s q f).asyncs = s.asyncs := rfl
@[simp] theorem modQueue_reqErrs (q : Nat) (f : Queue → Queue) : (modQueue s q f).reqErrs = s.reqErrs := rfl
@[simp] theorem modQueue_ctxs (q : Nat) (f : Queue → Queue) : (modQueue s q f).ctxs = s.ctxs := rfl
@[simp] theorem modQueue_memObjs (q : Nat) (f : Queue → Queue) : (modQueue s q f).memObjs = s.memObjs := rfl
@[simp] theorem modQueue_rings (q : Nat) (f : Queue → Queue) : (modQueue s q f).rings = s.rings := rfl
@[simp] theorem modQueue_hports (q : Nat) (f : Queue → Queue) : (modQueue s q f).hports = s.hports := rfl
@[simp] theorem modQueue_sched (q : Nat) (f : Queue → Queue) : (modQueue s q f).sched = s.sched := rfl
@[simp] theorem modQueue_windows (q : Nat) (f : Queue → Queue) : (modQueue s q f).windows = s.windows := rfl
@[simp] theorem modQueue_bw (q : Nat) (f : Queue → Queue) : (modQueue s q f).bw = s.bw := rfl
@[simp] theorem modQueue_pins (q : Nat) (f : Queue → Queue) : (modQueue s q f).pins = s.pins := rfl
@[simp] theorem modQueue_fw (q : Nat) (f : Queue → Queue) : (modQueue s q f).fw = s.fw := rfl
@[simp] theorem modQueue_ks (q : Nat) (f : Queue → Queue) : (modQueue s q f).ks = s.ks := rfl
@[simp] theorem modQueue_lc (q : Nat) (f : Queue → Queue) : (modQueue s q f).lc = s.lc := rfl
@[simp] theorem modQueue_links (q : Nat) (f : Queue → Queue) : (modQueue s q f).links = s.links := rfl
@[simp] theorem modQueue_bridge (q : Nat) (f : Queue → Queue) : (modQueue s q f).bridge = s.bridge := rfl
@[simp] theorem modQueue_cp (q : Nat) (f : Queue → Queue) : (modQueue s q f).cp = s.cp := rfl
@[simp] theorem modQueue_ck (q : Nat) (f : Queue → Queue) : (modQueue s q f).ck = s.ck := rfl
@[simp] theorem modQueue_minSvn (q : Nat) (f : Queue → Queue) : (modQueue s q f).minSvn = s.minSvn := rfl
@[simp] theorem modQueue_emergQuiet (q : Nat) (f : Queue → Queue) : (modQueue s q f).emergQuiet = s.emergQuiet := rfl
@[simp] theorem modQueue_wipeDue (q : Nat) (f : Queue → Queue) : (modQueue s q f).wipeDue = s.wipeDue := rfl
@[simp] theorem modQueue_pclk (q : Nat) (f : Queue → Queue) : (modQueue s q f).pclk = s.pclk := rfl
@[simp] theorem modQueue_fc (q : Nat) (f : Queue → Queue) : (modQueue s q f).fc = s.fc := rfl
@[simp] theorem modQueue_out (q : Nat) (f : Queue → Queue) : (modQueue s q f).out = s.out := rfl
@[simp] theorem modQueue_fresh (q : Nat) (f : Queue → Queue) : (modQueue s q f).fresh = s.fresh := rfl
@[simp] theorem modQueue_pending (q : Nat) (f : Queue → Queue) : (modQueue s q f).pending = s.pending := rfl

@[simp] theorem modRing_cfg (p : Nat) (f : PortRing → PortRing) : (modRing s p f).cfg = s.cfg := rfl
@[simp] theorem modRing_sv (p : Nat) (f : PortRing → PortRing) : (modRing s p f).sv = s.sv := rfl
@[simp] theorem modRing_tally (p : Nat) (f : PortRing → PortRing) : (modRing s p f).tally = s.tally := rfl
@[simp] theorem modRing_regions (p : Nat) (f : PortRing → PortRing) : (modRing s p f).regions = s.regions := rfl
@[simp] theorem modRing_slices (p : Nat) (f : PortRing → PortRing) : (modRing s p f).slices = s.slices := rfl
@[simp] theorem modRing_slm (p : Nat) (f : PortRing → PortRing) : (modRing s p f).slm = s.slm := rfl
@[simp] theorem modRing_atu (p : Nat) (f : PortRing → PortRing) : (modRing s p f).atu = s.atu := rfl
@[simp] theorem modRing_s2 (p : Nat) (f : PortRing → PortRing) : (modRing s p f).s2 = s.s2 := rfl
@[simp] theorem modRing_retJobs (p : Nat) (f : PortRing → PortRing) : (modRing s p f).retJobs = s.retJobs := rfl
@[simp] theorem modRing_engines (p : Nat) (f : PortRing → PortRing) : (modRing s p f).engines = s.engines := rfl
@[simp] theorem modRing_clusters (p : Nat) (f : PortRing → PortRing) : (modRing s p f).clusters = s.clusters := rfl
@[simp] theorem modRing_asyncs (p : Nat) (f : PortRing → PortRing) : (modRing s p f).asyncs = s.asyncs := rfl
@[simp] theorem modRing_reqErrs (p : Nat) (f : PortRing → PortRing) : (modRing s p f).reqErrs = s.reqErrs := rfl
@[simp] theorem modRing_ctxs (p : Nat) (f : PortRing → PortRing) : (modRing s p f).ctxs = s.ctxs := rfl
@[simp] theorem modRing_queues (p : Nat) (f : PortRing → PortRing) : (modRing s p f).queues = s.queues := rfl
@[simp] theorem modRing_memObjs (p : Nat) (f : PortRing → PortRing) : (modRing s p f).memObjs = s.memObjs := rfl
@[simp] theorem modRing_hports (p : Nat) (f : PortRing → PortRing) : (modRing s p f).hports = s.hports := rfl
@[simp] theorem modRing_sched (p : Nat) (f : PortRing → PortRing) : (modRing s p f).sched = s.sched := rfl
@[simp] theorem modRing_windows (p : Nat) (f : PortRing → PortRing) : (modRing s p f).windows = s.windows := rfl
@[simp] theorem modRing_bw (p : Nat) (f : PortRing → PortRing) : (modRing s p f).bw = s.bw := rfl
@[simp] theorem modRing_pins (p : Nat) (f : PortRing → PortRing) : (modRing s p f).pins = s.pins := rfl
@[simp] theorem modRing_fw (p : Nat) (f : PortRing → PortRing) : (modRing s p f).fw = s.fw := rfl
@[simp] theorem modRing_ks (p : Nat) (f : PortRing → PortRing) : (modRing s p f).ks = s.ks := rfl
@[simp] theorem modRing_lc (p : Nat) (f : PortRing → PortRing) : (modRing s p f).lc = s.lc := rfl
@[simp] theorem modRing_links (p : Nat) (f : PortRing → PortRing) : (modRing s p f).links = s.links := rfl
@[simp] theorem modRing_bridge (p : Nat) (f : PortRing → PortRing) : (modRing s p f).bridge = s.bridge := rfl
@[simp] theorem modRing_cp (p : Nat) (f : PortRing → PortRing) : (modRing s p f).cp = s.cp := rfl
@[simp] theorem modRing_ck (p : Nat) (f : PortRing → PortRing) : (modRing s p f).ck = s.ck := rfl
@[simp] theorem modRing_minSvn (p : Nat) (f : PortRing → PortRing) : (modRing s p f).minSvn = s.minSvn := rfl
@[simp] theorem modRing_emergQuiet (p : Nat) (f : PortRing → PortRing) : (modRing s p f).emergQuiet = s.emergQuiet := rfl
@[simp] theorem modRing_wipeDue (p : Nat) (f : PortRing → PortRing) : (modRing s p f).wipeDue = s.wipeDue := rfl
@[simp] theorem modRing_pclk (p : Nat) (f : PortRing → PortRing) : (modRing s p f).pclk = s.pclk := rfl
@[simp] theorem modRing_fc (p : Nat) (f : PortRing → PortRing) : (modRing s p f).fc = s.fc := rfl
@[simp] theorem modRing_out (p : Nat) (f : PortRing → PortRing) : (modRing s p f).out = s.out := rfl
@[simp] theorem modRing_fresh (p : Nat) (f : PortRing → PortRing) : (modRing s p f).fresh = s.fresh := rfl
@[simp] theorem modRing_pending (p : Nat) (f : PortRing → PortRing) : (modRing s p f).pending = s.pending := rfl

@[simp] theorem modHport_cfg (p : Nat) (f : HPort → HPort) : (modHport s p f).cfg = s.cfg := rfl
@[simp] theorem modHport_sv (p : Nat) (f : HPort → HPort) : (modHport s p f).sv = s.sv := rfl
@[simp] theorem modHport_tally (p : Nat) (f : HPort → HPort) : (modHport s p f).tally = s.tally := rfl
@[simp] theorem modHport_regions (p : Nat) (f : HPort → HPort) : (modHport s p f).regions = s.regions := rfl
@[simp] theorem modHport_slices (p : Nat) (f : HPort → HPort) : (modHport s p f).slices = s.slices := rfl
@[simp] theorem modHport_slm (p : Nat) (f : HPort → HPort) : (modHport s p f).slm = s.slm := rfl
@[simp] theorem modHport_atu (p : Nat) (f : HPort → HPort) : (modHport s p f).atu = s.atu := rfl
@[simp] theorem modHport_s2 (p : Nat) (f : HPort → HPort) : (modHport s p f).s2 = s.s2 := rfl
@[simp] theorem modHport_retJobs (p : Nat) (f : HPort → HPort) : (modHport s p f).retJobs = s.retJobs := rfl
@[simp] theorem modHport_engines (p : Nat) (f : HPort → HPort) : (modHport s p f).engines = s.engines := rfl
@[simp] theorem modHport_clusters (p : Nat) (f : HPort → HPort) : (modHport s p f).clusters = s.clusters := rfl
@[simp] theorem modHport_asyncs (p : Nat) (f : HPort → HPort) : (modHport s p f).asyncs = s.asyncs := rfl
@[simp] theorem modHport_reqErrs (p : Nat) (f : HPort → HPort) : (modHport s p f).reqErrs = s.reqErrs := rfl
@[simp] theorem modHport_ctxs (p : Nat) (f : HPort → HPort) : (modHport s p f).ctxs = s.ctxs := rfl
@[simp] theorem modHport_queues (p : Nat) (f : HPort → HPort) : (modHport s p f).queues = s.queues := rfl
@[simp] theorem modHport_memObjs (p : Nat) (f : HPort → HPort) : (modHport s p f).memObjs = s.memObjs := rfl
@[simp] theorem modHport_rings (p : Nat) (f : HPort → HPort) : (modHport s p f).rings = s.rings := rfl
@[simp] theorem modHport_sched (p : Nat) (f : HPort → HPort) : (modHport s p f).sched = s.sched := rfl
@[simp] theorem modHport_windows (p : Nat) (f : HPort → HPort) : (modHport s p f).windows = s.windows := rfl
@[simp] theorem modHport_bw (p : Nat) (f : HPort → HPort) : (modHport s p f).bw = s.bw := rfl
@[simp] theorem modHport_pins (p : Nat) (f : HPort → HPort) : (modHport s p f).pins = s.pins := rfl
@[simp] theorem modHport_fw (p : Nat) (f : HPort → HPort) : (modHport s p f).fw = s.fw := rfl
@[simp] theorem modHport_ks (p : Nat) (f : HPort → HPort) : (modHport s p f).ks = s.ks := rfl
@[simp] theorem modHport_lc (p : Nat) (f : HPort → HPort) : (modHport s p f).lc = s.lc := rfl
@[simp] theorem modHport_links (p : Nat) (f : HPort → HPort) : (modHport s p f).links = s.links := rfl
@[simp] theorem modHport_bridge (p : Nat) (f : HPort → HPort) : (modHport s p f).bridge = s.bridge := rfl
@[simp] theorem modHport_cp (p : Nat) (f : HPort → HPort) : (modHport s p f).cp = s.cp := rfl
@[simp] theorem modHport_ck (p : Nat) (f : HPort → HPort) : (modHport s p f).ck = s.ck := rfl
@[simp] theorem modHport_minSvn (p : Nat) (f : HPort → HPort) : (modHport s p f).minSvn = s.minSvn := rfl
@[simp] theorem modHport_emergQuiet (p : Nat) (f : HPort → HPort) : (modHport s p f).emergQuiet = s.emergQuiet := rfl
@[simp] theorem modHport_wipeDue (p : Nat) (f : HPort → HPort) : (modHport s p f).wipeDue = s.wipeDue := rfl
@[simp] theorem modHport_pclk (p : Nat) (f : HPort → HPort) : (modHport s p f).pclk = s.pclk := rfl
@[simp] theorem modHport_fc (p : Nat) (f : HPort → HPort) : (modHport s p f).fc = s.fc := rfl
@[simp] theorem modHport_out (p : Nat) (f : HPort → HPort) : (modHport s p f).out = s.out := rfl
@[simp] theorem modHport_fresh (p : Nat) (f : HPort → HPort) : (modHport s p f).fresh = s.fresh := rfl
@[simp] theorem modHport_pending (p : Nat) (f : HPort → HPort) : (modHport s p f).pending = s.pending := rfl

@[simp] theorem modLinks_cfg (f : Links → Links) : (modLinks s f).cfg = s.cfg := rfl
@[simp] theorem modLinks_sv (f : Links → Links) : (modLinks s f).sv = s.sv := rfl
@[simp] theorem modLinks_tally (f : Links → Links) : (modLinks s f).tally = s.tally := rfl
@[simp] theorem modLinks_regions (f : Links → Links) : (modLinks s f).regions = s.regions := rfl
@[simp] theorem modLinks_slices (f : Links → Links) : (modLinks s f).slices = s.slices := rfl
@[simp] theorem modLinks_slm (f : Links → Links) : (modLinks s f).slm = s.slm := rfl
@[simp] theorem modLinks_atu (f : Links → Links) : (modLinks s f).atu = s.atu := rfl
@[simp] theorem modLinks_s2 (f : Links → Links) : (modLinks s f).s2 = s.s2 := rfl
@[simp] theorem modLinks_retJobs (f : Links → Links) : (modLinks s f).retJobs = s.retJobs := rfl
@[simp] theorem modLinks_engines (f : Links → Links) : (modLinks s f).engines = s.engines := rfl
@[simp] theorem modLinks_clusters (f : Links → Links) : (modLinks s f).clusters = s.clusters := rfl
@[simp] theorem modLinks_asyncs (f : Links → Links) : (modLinks s f).asyncs = s.asyncs := rfl
@[simp] theorem modLinks_reqErrs (f : Links → Links) : (modLinks s f).reqErrs = s.reqErrs := rfl
@[simp] theorem modLinks_ctxs (f : Links → Links) : (modLinks s f).ctxs = s.ctxs := rfl
@[simp] theorem modLinks_queues (f : Links → Links) : (modLinks s f).queues = s.queues := rfl
@[simp] theorem modLinks_memObjs (f : Links → Links) : (modLinks s f).memObjs = s.memObjs := rfl
@[simp] theorem modLinks_rings (f : Links → Links) : (modLinks s f).rings = s.rings := rfl
@[simp] theorem modLinks_hports (f : Links → Links) : (modLinks s f).hports = s.hports := rfl
@[simp] theorem modLinks_sched (f : Links → Links) : (modLinks s f).sched = s.sched := rfl
@[simp] theorem modLinks_windows (f : Links → Links) : (modLinks s f).windows = s.windows := rfl
@[simp] theorem modLinks_bw (f : Links → Links) : (modLinks s f).bw = s.bw := rfl
@[simp] theorem modLinks_pins (f : Links → Links) : (modLinks s f).pins = s.pins := rfl
@[simp] theorem modLinks_fw (f : Links → Links) : (modLinks s f).fw = s.fw := rfl
@[simp] theorem modLinks_ks (f : Links → Links) : (modLinks s f).ks = s.ks := rfl
@[simp] theorem modLinks_lc (f : Links → Links) : (modLinks s f).lc = s.lc := rfl
@[simp] theorem modLinks_bridge (f : Links → Links) : (modLinks s f).bridge = s.bridge := rfl
@[simp] theorem modLinks_cp (f : Links → Links) : (modLinks s f).cp = s.cp := rfl
@[simp] theorem modLinks_ck (f : Links → Links) : (modLinks s f).ck = s.ck := rfl
@[simp] theorem modLinks_minSvn (f : Links → Links) : (modLinks s f).minSvn = s.minSvn := rfl
@[simp] theorem modLinks_emergQuiet (f : Links → Links) : (modLinks s f).emergQuiet = s.emergQuiet := rfl
@[simp] theorem modLinks_wipeDue (f : Links → Links) : (modLinks s f).wipeDue = s.wipeDue := rfl
@[simp] theorem modLinks_pclk (f : Links → Links) : (modLinks s f).pclk = s.pclk := rfl
@[simp] theorem modLinks_fc (f : Links → Links) : (modLinks s f).fc = s.fc := rfl
@[simp] theorem modLinks_out (f : Links → Links) : (modLinks s f).out = s.out := rfl
@[simp] theorem modLinks_fresh (f : Links → Links) : (modLinks s f).fresh = s.fresh := rfl
@[simp] theorem modLinks_pending (f : Links → Links) : (modLinks s f).pending = s.pending := rfl

@[simp] theorem modHk_cfg (p : Nat) (f : HostKeys → HostKeys) : (modHk s p f).cfg = s.cfg := rfl
@[simp] theorem modHk_sv (p : Nat) (f : HostKeys → HostKeys) : (modHk s p f).sv = s.sv := rfl
@[simp] theorem modHk_tally (p : Nat) (f : HostKeys → HostKeys) : (modHk s p f).tally = s.tally := rfl
@[simp] theorem modHk_regions (p : Nat) (f : HostKeys → HostKeys) : (modHk s p f).regions = s.regions := rfl
@[simp] theorem modHk_slices (p : Nat) (f : HostKeys → HostKeys) : (modHk s p f).slices = s.slices := rfl
@[simp] theorem modHk_slm (p : Nat) (f : HostKeys → HostKeys) : (modHk s p f).slm = s.slm := rfl
@[simp] theorem modHk_atu (p : Nat) (f : HostKeys → HostKeys) : (modHk s p f).atu = s.atu := rfl
@[simp] theorem modHk_s2 (p : Nat) (f : HostKeys → HostKeys) : (modHk s p f).s2 = s.s2 := rfl
@[simp] theorem modHk_retJobs (p : Nat) (f : HostKeys → HostKeys) : (modHk s p f).retJobs = s.retJobs := rfl
@[simp] theorem modHk_engines (p : Nat) (f : HostKeys → HostKeys) : (modHk s p f).engines = s.engines := rfl
@[simp] theorem modHk_clusters (p : Nat) (f : HostKeys → HostKeys) : (modHk s p f).clusters = s.clusters := rfl
@[simp] theorem modHk_asyncs (p : Nat) (f : HostKeys → HostKeys) : (modHk s p f).asyncs = s.asyncs := rfl
@[simp] theorem modHk_reqErrs (p : Nat) (f : HostKeys → HostKeys) : (modHk s p f).reqErrs = s.reqErrs := rfl
@[simp] theorem modHk_ctxs (p : Nat) (f : HostKeys → HostKeys) : (modHk s p f).ctxs = s.ctxs := rfl
@[simp] theorem modHk_queues (p : Nat) (f : HostKeys → HostKeys) : (modHk s p f).queues = s.queues := rfl
@[simp] theorem modHk_memObjs (p : Nat) (f : HostKeys → HostKeys) : (modHk s p f).memObjs = s.memObjs := rfl
@[simp] theorem modHk_rings (p : Nat) (f : HostKeys → HostKeys) : (modHk s p f).rings = s.rings := rfl
@[simp] theorem modHk_hports (p : Nat) (f : HostKeys → HostKeys) : (modHk s p f).hports = s.hports := rfl
@[simp] theorem modHk_sched (p : Nat) (f : HostKeys → HostKeys) : (modHk s p f).sched = s.sched := rfl
@[simp] theorem modHk_windows (p : Nat) (f : HostKeys → HostKeys) : (modHk s p f).windows = s.windows := rfl
@[simp] theorem modHk_bw (p : Nat) (f : HostKeys → HostKeys) : (modHk s p f).bw = s.bw := rfl
@[simp] theorem modHk_pins (p : Nat) (f : HostKeys → HostKeys) : (modHk s p f).pins = s.pins := rfl
@[simp] theorem modHk_fw (p : Nat) (f : HostKeys → HostKeys) : (modHk s p f).fw = s.fw := rfl
@[simp] theorem modHk_lc (p : Nat) (f : HostKeys → HostKeys) : (modHk s p f).lc = s.lc := rfl
@[simp] theorem modHk_links (p : Nat) (f : HostKeys → HostKeys) : (modHk s p f).links = s.links := rfl
@[simp] theorem modHk_bridge (p : Nat) (f : HostKeys → HostKeys) : (modHk s p f).bridge = s.bridge := rfl
@[simp] theorem modHk_cp (p : Nat) (f : HostKeys → HostKeys) : (modHk s p f).cp = s.cp := rfl
@[simp] theorem modHk_ck (p : Nat) (f : HostKeys → HostKeys) : (modHk s p f).ck = s.ck := rfl
@[simp] theorem modHk_minSvn (p : Nat) (f : HostKeys → HostKeys) : (modHk s p f).minSvn = s.minSvn := rfl
@[simp] theorem modHk_emergQuiet (p : Nat) (f : HostKeys → HostKeys) : (modHk s p f).emergQuiet = s.emergQuiet := rfl
@[simp] theorem modHk_wipeDue (p : Nat) (f : HostKeys → HostKeys) : (modHk s p f).wipeDue = s.wipeDue := rfl
@[simp] theorem modHk_pclk (p : Nat) (f : HostKeys → HostKeys) : (modHk s p f).pclk = s.pclk := rfl
@[simp] theorem modHk_fc (p : Nat) (f : HostKeys → HostKeys) : (modHk s p f).fc = s.fc := rfl
@[simp] theorem modHk_out (p : Nat) (f : HostKeys → HostKeys) : (modHk s p f).out = s.out := rfl
@[simp] theorem modHk_fresh (p : Nat) (f : HostKeys → HostKeys) : (modHk s p f).fresh = s.fresh := rfl
@[simp] theorem modHk_pending (p : Nat) (f : HostKeys → HostKeys) : (modHk s p f).pending = s.pending := rfl

@[simp] theorem modKsSlice_cfg (n : Nat) (f : KSlice → KSlice) : (modKsSlice s n f).cfg = s.cfg := rfl
@[simp] theorem modKsSlice_sv (n : Nat) (f : KSlice → KSlice) : (modKsSlice s n f).sv = s.sv := rfl
@[simp] theorem modKsSlice_tally (n : Nat) (f : KSlice → KSlice) : (modKsSlice s n f).tally = s.tally := rfl
@[simp] theorem modKsSlice_regions (n : Nat) (f : KSlice → KSlice) : (modKsSlice s n f).regions = s.regions := rfl
@[simp] theorem modKsSlice_slices (n : Nat) (f : KSlice → KSlice) : (modKsSlice s n f).slices = s.slices := rfl
@[simp] theorem modKsSlice_slm (n : Nat) (f : KSlice → KSlice) : (modKsSlice s n f).slm = s.slm := rfl
@[simp] theorem modKsSlice_atu (n : Nat) (f : KSlice → KSlice) : (modKsSlice s n f).atu = s.atu := rfl
@[simp] theorem modKsSlice_s2 (n : Nat) (f : KSlice → KSlice) : (modKsSlice s n f).s2 = s.s2 := rfl
@[simp] theorem modKsSlice_retJobs (n : Nat) (f : KSlice → KSlice) : (modKsSlice s n f).retJobs = s.retJobs := rfl
@[simp] theorem modKsSlice_engines (n : Nat) (f : KSlice → KSlice) : (modKsSlice s n f).engines = s.engines := rfl
@[simp] theorem modKsSlice_clusters (n : Nat) (f : KSlice → KSlice) : (modKsSlice s n f).clusters = s.clusters := rfl
@[simp] theorem modKsSlice_asyncs (n : Nat) (f : KSlice → KSlice) : (modKsSlice s n f).asyncs = s.asyncs := rfl
@[simp] theorem modKsSlice_reqErrs (n : Nat) (f : KSlice → KSlice) : (modKsSlice s n f).reqErrs = s.reqErrs := rfl
@[simp] theorem modKsSlice_ctxs (n : Nat) (f : KSlice → KSlice) : (modKsSlice s n f).ctxs = s.ctxs := rfl
@[simp] theorem modKsSlice_queues (n : Nat) (f : KSlice → KSlice) : (modKsSlice s n f).queues = s.queues := rfl
@[simp] theorem modKsSlice_memObjs (n : Nat) (f : KSlice → KSlice) : (modKsSlice s n f).memObjs = s.memObjs := rfl
@[simp] theorem modKsSlice_rings (n : Nat) (f : KSlice → KSlice) : (modKsSlice s n f).rings = s.rings := rfl
@[simp] theorem modKsSlice_hports (n : Nat) (f : KSlice → KSlice) : (modKsSlice s n f).hports = s.hports := rfl
@[simp] theorem modKsSlice_sched (n : Nat) (f : KSlice → KSlice) : (modKsSlice s n f).sched = s.sched := rfl
@[simp] theorem modKsSlice_windows (n : Nat) (f : KSlice → KSlice) : (modKsSlice s n f).windows = s.windows := rfl
@[simp] theorem modKsSlice_bw (n : Nat) (f : KSlice → KSlice) : (modKsSlice s n f).bw = s.bw := rfl
@[simp] theorem modKsSlice_pins (n : Nat) (f : KSlice → KSlice) : (modKsSlice s n f).pins = s.pins := rfl
@[simp] theorem modKsSlice_fw (n : Nat) (f : KSlice → KSlice) : (modKsSlice s n f).fw = s.fw := rfl
@[simp] theorem modKsSlice_lc (n : Nat) (f : KSlice → KSlice) : (modKsSlice s n f).lc = s.lc := rfl
@[simp] theorem modKsSlice_links (n : Nat) (f : KSlice → KSlice) : (modKsSlice s n f).links = s.links := rfl
@[simp] theorem modKsSlice_bridge (n : Nat) (f : KSlice → KSlice) : (modKsSlice s n f).bridge = s.bridge := rfl
@[simp] theorem modKsSlice_cp (n : Nat) (f : KSlice → KSlice) : (modKsSlice s n f).cp = s.cp := rfl
@[simp] theorem modKsSlice_ck (n : Nat) (f : KSlice → KSlice) : (modKsSlice s n f).ck = s.ck := rfl
@[simp] theorem modKsSlice_minSvn (n : Nat) (f : KSlice → KSlice) : (modKsSlice s n f).minSvn = s.minSvn := rfl
@[simp] theorem modKsSlice_emergQuiet (n : Nat) (f : KSlice → KSlice) : (modKsSlice s n f).emergQuiet = s.emergQuiet := rfl
@[simp] theorem modKsSlice_wipeDue (n : Nat) (f : KSlice → KSlice) : (modKsSlice s n f).wipeDue = s.wipeDue := rfl
@[simp] theorem modKsSlice_pclk (n : Nat) (f : KSlice → KSlice) : (modKsSlice s n f).pclk = s.pclk := rfl
@[simp] theorem modKsSlice_fc (n : Nat) (f : KSlice → KSlice) : (modKsSlice s n f).fc = s.fc := rfl
@[simp] theorem modKsSlice_out (n : Nat) (f : KSlice → KSlice) : (modKsSlice s n f).out = s.out := rfl
@[simp] theorem modKsSlice_fresh (n : Nat) (f : KSlice → KSlice) : (modKsSlice s n f).fresh = s.fresh := rfl
@[simp] theorem modKsSlice_pending (n : Nat) (f : KSlice → KSlice) : (modKsSlice s n f).pending = s.pending := rfl

@[simp] theorem modProc_cfg (k : Nat) (f : FwProc → FwProc) : (modProc s k f).cfg = s.cfg := rfl
@[simp] theorem modProc_sv (k : Nat) (f : FwProc → FwProc) : (modProc s k f).sv = s.sv := rfl
@[simp] theorem modProc_tally (k : Nat) (f : FwProc → FwProc) : (modProc s k f).tally = s.tally := rfl
@[simp] theorem modProc_regions (k : Nat) (f : FwProc → FwProc) : (modProc s k f).regions = s.regions := rfl
@[simp] theorem modProc_slices (k : Nat) (f : FwProc → FwProc) : (modProc s k f).slices = s.slices := rfl
@[simp] theorem modProc_slm (k : Nat) (f : FwProc → FwProc) : (modProc s k f).slm = s.slm := rfl
@[simp] theorem modProc_atu (k : Nat) (f : FwProc → FwProc) : (modProc s k f).atu = s.atu := rfl
@[simp] theorem modProc_s2 (k : Nat) (f : FwProc → FwProc) : (modProc s k f).s2 = s.s2 := rfl
@[simp] theorem modProc_retJobs (k : Nat) (f : FwProc → FwProc) : (modProc s k f).retJobs = s.retJobs := rfl
@[simp] theorem modProc_engines (k : Nat) (f : FwProc → FwProc) : (modProc s k f).engines = s.engines := rfl
@[simp] theorem modProc_clusters (k : Nat) (f : FwProc → FwProc) : (modProc s k f).clusters = s.clusters := rfl
@[simp] theorem modProc_asyncs (k : Nat) (f : FwProc → FwProc) : (modProc s k f).asyncs = s.asyncs := rfl
@[simp] theorem modProc_reqErrs (k : Nat) (f : FwProc → FwProc) : (modProc s k f).reqErrs = s.reqErrs := rfl
@[simp] theorem modProc_ctxs (k : Nat) (f : FwProc → FwProc) : (modProc s k f).ctxs = s.ctxs := rfl
@[simp] theorem modProc_queues (k : Nat) (f : FwProc → FwProc) : (modProc s k f).queues = s.queues := rfl
@[simp] theorem modProc_memObjs (k : Nat) (f : FwProc → FwProc) : (modProc s k f).memObjs = s.memObjs := rfl
@[simp] theorem modProc_rings (k : Nat) (f : FwProc → FwProc) : (modProc s k f).rings = s.rings := rfl
@[simp] theorem modProc_hports (k : Nat) (f : FwProc → FwProc) : (modProc s k f).hports = s.hports := rfl
@[simp] theorem modProc_sched (k : Nat) (f : FwProc → FwProc) : (modProc s k f).sched = s.sched := rfl
@[simp] theorem modProc_windows (k : Nat) (f : FwProc → FwProc) : (modProc s k f).windows = s.windows := rfl
@[simp] theorem modProc_bw (k : Nat) (f : FwProc → FwProc) : (modProc s k f).bw = s.bw := rfl
@[simp] theorem modProc_pins (k : Nat) (f : FwProc → FwProc) : (modProc s k f).pins = s.pins := rfl
@[simp] theorem modProc_ks (k : Nat) (f : FwProc → FwProc) : (modProc s k f).ks = s.ks := rfl
@[simp] theorem modProc_lc (k : Nat) (f : FwProc → FwProc) : (modProc s k f).lc = s.lc := rfl
@[simp] theorem modProc_links (k : Nat) (f : FwProc → FwProc) : (modProc s k f).links = s.links := rfl
@[simp] theorem modProc_bridge (k : Nat) (f : FwProc → FwProc) : (modProc s k f).bridge = s.bridge := rfl
@[simp] theorem modProc_cp (k : Nat) (f : FwProc → FwProc) : (modProc s k f).cp = s.cp := rfl
@[simp] theorem modProc_ck (k : Nat) (f : FwProc → FwProc) : (modProc s k f).ck = s.ck := rfl
@[simp] theorem modProc_minSvn (k : Nat) (f : FwProc → FwProc) : (modProc s k f).minSvn = s.minSvn := rfl
@[simp] theorem modProc_emergQuiet (k : Nat) (f : FwProc → FwProc) : (modProc s k f).emergQuiet = s.emergQuiet := rfl
@[simp] theorem modProc_wipeDue (k : Nat) (f : FwProc → FwProc) : (modProc s k f).wipeDue = s.wipeDue := rfl
@[simp] theorem modProc_pclk (k : Nat) (f : FwProc → FwProc) : (modProc s k f).pclk = s.pclk := rfl
@[simp] theorem modProc_fc (k : Nat) (f : FwProc → FwProc) : (modProc s k f).fc = s.fc := rfl
@[simp] theorem modProc_out (k : Nat) (f : FwProc → FwProc) : (modProc s k f).out = s.out := rfl
@[simp] theorem modProc_fresh (k : Nat) (f : FwProc → FwProc) : (modProc s k f).fresh = s.fresh := rfl
@[simp] theorem modProc_pending (k : Nat) (f : FwProc → FwProc) : (modProc s k f).pending = s.pending := rfl

@[simp] theorem modFcCopy_cfg (k : Nat) (f : FcCopy → FcCopy) : (modFcCopy s k f).cfg = s.cfg := rfl
@[simp] theorem modFcCopy_sv (k : Nat) (f : FcCopy → FcCopy) : (modFcCopy s k f).sv = s.sv := rfl
@[simp] theorem modFcCopy_tally (k : Nat) (f : FcCopy → FcCopy) : (modFcCopy s k f).tally = s.tally := rfl
@[simp] theorem modFcCopy_regions (k : Nat) (f : FcCopy → FcCopy) : (modFcCopy s k f).regions = s.regions := rfl
@[simp] theorem modFcCopy_slices (k : Nat) (f : FcCopy → FcCopy) : (modFcCopy s k f).slices = s.slices := rfl
@[simp] theorem modFcCopy_slm (k : Nat) (f : FcCopy → FcCopy) : (modFcCopy s k f).slm = s.slm := rfl
@[simp] theorem modFcCopy_atu (k : Nat) (f : FcCopy → FcCopy) : (modFcCopy s k f).atu = s.atu := rfl
@[simp] theorem modFcCopy_s2 (k : Nat) (f : FcCopy → FcCopy) : (modFcCopy s k f).s2 = s.s2 := rfl
@[simp] theorem modFcCopy_retJobs (k : Nat) (f : FcCopy → FcCopy) : (modFcCopy s k f).retJobs = s.retJobs := rfl
@[simp] theorem modFcCopy_engines (k : Nat) (f : FcCopy → FcCopy) : (modFcCopy s k f).engines = s.engines := rfl
@[simp] theorem modFcCopy_clusters (k : Nat) (f : FcCopy → FcCopy) : (modFcCopy s k f).clusters = s.clusters := rfl
@[simp] theorem modFcCopy_asyncs (k : Nat) (f : FcCopy → FcCopy) : (modFcCopy s k f).asyncs = s.asyncs := rfl
@[simp] theorem modFcCopy_reqErrs (k : Nat) (f : FcCopy → FcCopy) : (modFcCopy s k f).reqErrs = s.reqErrs := rfl
@[simp] theorem modFcCopy_ctxs (k : Nat) (f : FcCopy → FcCopy) : (modFcCopy s k f).ctxs = s.ctxs := rfl
@[simp] theorem modFcCopy_queues (k : Nat) (f : FcCopy → FcCopy) : (modFcCopy s k f).queues = s.queues := rfl
@[simp] theorem modFcCopy_memObjs (k : Nat) (f : FcCopy → FcCopy) : (modFcCopy s k f).memObjs = s.memObjs := rfl
@[simp] theorem modFcCopy_rings (k : Nat) (f : FcCopy → FcCopy) : (modFcCopy s k f).rings = s.rings := rfl
@[simp] theorem modFcCopy_hports (k : Nat) (f : FcCopy → FcCopy) : (modFcCopy s k f).hports = s.hports := rfl
@[simp] theorem modFcCopy_sched (k : Nat) (f : FcCopy → FcCopy) : (modFcCopy s k f).sched = s.sched := rfl
@[simp] theorem modFcCopy_windows (k : Nat) (f : FcCopy → FcCopy) : (modFcCopy s k f).windows = s.windows := rfl
@[simp] theorem modFcCopy_bw (k : Nat) (f : FcCopy → FcCopy) : (modFcCopy s k f).bw = s.bw := rfl
@[simp] theorem modFcCopy_pins (k : Nat) (f : FcCopy → FcCopy) : (modFcCopy s k f).pins = s.pins := rfl
@[simp] theorem modFcCopy_fw (k : Nat) (f : FcCopy → FcCopy) : (modFcCopy s k f).fw = s.fw := rfl
@[simp] theorem modFcCopy_ks (k : Nat) (f : FcCopy → FcCopy) : (modFcCopy s k f).ks = s.ks := rfl
@[simp] theorem modFcCopy_lc (k : Nat) (f : FcCopy → FcCopy) : (modFcCopy s k f).lc = s.lc := rfl
@[simp] theorem modFcCopy_links (k : Nat) (f : FcCopy → FcCopy) : (modFcCopy s k f).links = s.links := rfl
@[simp] theorem modFcCopy_bridge (k : Nat) (f : FcCopy → FcCopy) : (modFcCopy s k f).bridge = s.bridge := rfl
@[simp] theorem modFcCopy_cp (k : Nat) (f : FcCopy → FcCopy) : (modFcCopy s k f).cp = s.cp := rfl
@[simp] theorem modFcCopy_ck (k : Nat) (f : FcCopy → FcCopy) : (modFcCopy s k f).ck = s.ck := rfl
@[simp] theorem modFcCopy_minSvn (k : Nat) (f : FcCopy → FcCopy) : (modFcCopy s k f).minSvn = s.minSvn := rfl
@[simp] theorem modFcCopy_emergQuiet (k : Nat) (f : FcCopy → FcCopy) : (modFcCopy s k f).emergQuiet = s.emergQuiet := rfl
@[simp] theorem modFcCopy_wipeDue (k : Nat) (f : FcCopy → FcCopy) : (modFcCopy s k f).wipeDue = s.wipeDue := rfl
@[simp] theorem modFcCopy_pclk (k : Nat) (f : FcCopy → FcCopy) : (modFcCopy s k f).pclk = s.pclk := rfl
@[simp] theorem modFcCopy_out (k : Nat) (f : FcCopy → FcCopy) : (modFcCopy s k f).out = s.out := rfl
@[simp] theorem modFcCopy_fresh (k : Nat) (f : FcCopy → FcCopy) : (modFcCopy s k f).fresh = s.fresh := rfl
@[simp] theorem modFcCopy_pending (k : Nat) (f : FcCopy → FcCopy) : (modFcCopy s k f).pending = s.pending := rfl

@[simp] theorem modCpCopy_cfg (k : Nat) (f : CpCopy → CpCopy) : (modCpCopy s k f).cfg = s.cfg := rfl
@[simp] theorem modCpCopy_sv (k : Nat) (f : CpCopy → CpCopy) : (modCpCopy s k f).sv = s.sv := rfl
@[simp] theorem modCpCopy_tally (k : Nat) (f : CpCopy → CpCopy) : (modCpCopy s k f).tally = s.tally := rfl
@[simp] theorem modCpCopy_regions (k : Nat) (f : CpCopy → CpCopy) : (modCpCopy s k f).regions = s.regions := rfl
@[simp] theorem modCpCopy_slices (k : Nat) (f : CpCopy → CpCopy) : (modCpCopy s k f).slices = s.slices := rfl
@[simp] theorem modCpCopy_slm (k : Nat) (f : CpCopy → CpCopy) : (modCpCopy s k f).slm = s.slm := rfl
@[simp] theorem modCpCopy_atu (k : Nat) (f : CpCopy → CpCopy) : (modCpCopy s k f).atu = s.atu := rfl
@[simp] theorem modCpCopy_s2 (k : Nat) (f : CpCopy → CpCopy) : (modCpCopy s k f).s2 = s.s2 := rfl
@[simp] theorem modCpCopy_retJobs (k : Nat) (f : CpCopy → CpCopy) : (modCpCopy s k f).retJobs = s.retJobs := rfl
@[simp] theorem modCpCopy_engines (k : Nat) (f : CpCopy → CpCopy) : (modCpCopy s k f).engines = s.engines := rfl
@[simp] theorem modCpCopy_clusters (k : Nat) (f : CpCopy → CpCopy) : (modCpCopy s k f).clusters = s.clusters := rfl
@[simp] theorem modCpCopy_asyncs (k : Nat) (f : CpCopy → CpCopy) : (modCpCopy s k f).asyncs = s.asyncs := rfl
@[simp] theorem modCpCopy_reqErrs (k : Nat) (f : CpCopy → CpCopy) : (modCpCopy s k f).reqErrs = s.reqErrs := rfl
@[simp] theorem modCpCopy_ctxs (k : Nat) (f : CpCopy → CpCopy) : (modCpCopy s k f).ctxs = s.ctxs := rfl
@[simp] theorem modCpCopy_queues (k : Nat) (f : CpCopy → CpCopy) : (modCpCopy s k f).queues = s.queues := rfl
@[simp] theorem modCpCopy_memObjs (k : Nat) (f : CpCopy → CpCopy) : (modCpCopy s k f).memObjs = s.memObjs := rfl
@[simp] theorem modCpCopy_rings (k : Nat) (f : CpCopy → CpCopy) : (modCpCopy s k f).rings = s.rings := rfl
@[simp] theorem modCpCopy_hports (k : Nat) (f : CpCopy → CpCopy) : (modCpCopy s k f).hports = s.hports := rfl
@[simp] theorem modCpCopy_sched (k : Nat) (f : CpCopy → CpCopy) : (modCpCopy s k f).sched = s.sched := rfl
@[simp] theorem modCpCopy_windows (k : Nat) (f : CpCopy → CpCopy) : (modCpCopy s k f).windows = s.windows := rfl
@[simp] theorem modCpCopy_bw (k : Nat) (f : CpCopy → CpCopy) : (modCpCopy s k f).bw = s.bw := rfl
@[simp] theorem modCpCopy_pins (k : Nat) (f : CpCopy → CpCopy) : (modCpCopy s k f).pins = s.pins := rfl
@[simp] theorem modCpCopy_fw (k : Nat) (f : CpCopy → CpCopy) : (modCpCopy s k f).fw = s.fw := rfl
@[simp] theorem modCpCopy_ks (k : Nat) (f : CpCopy → CpCopy) : (modCpCopy s k f).ks = s.ks := rfl
@[simp] theorem modCpCopy_lc (k : Nat) (f : CpCopy → CpCopy) : (modCpCopy s k f).lc = s.lc := rfl
@[simp] theorem modCpCopy_links (k : Nat) (f : CpCopy → CpCopy) : (modCpCopy s k f).links = s.links := rfl
@[simp] theorem modCpCopy_bridge (k : Nat) (f : CpCopy → CpCopy) : (modCpCopy s k f).bridge = s.bridge := rfl
@[simp] theorem modCpCopy_ck (k : Nat) (f : CpCopy → CpCopy) : (modCpCopy s k f).ck = s.ck := rfl
@[simp] theorem modCpCopy_minSvn (k : Nat) (f : CpCopy → CpCopy) : (modCpCopy s k f).minSvn = s.minSvn := rfl
@[simp] theorem modCpCopy_emergQuiet (k : Nat) (f : CpCopy → CpCopy) : (modCpCopy s k f).emergQuiet = s.emergQuiet := rfl
@[simp] theorem modCpCopy_wipeDue (k : Nat) (f : CpCopy → CpCopy) : (modCpCopy s k f).wipeDue = s.wipeDue := rfl
@[simp] theorem modCpCopy_pclk (k : Nat) (f : CpCopy → CpCopy) : (modCpCopy s k f).pclk = s.pclk := rfl
@[simp] theorem modCpCopy_fc (k : Nat) (f : CpCopy → CpCopy) : (modCpCopy s k f).fc = s.fc := rfl
@[simp] theorem modCpCopy_out (k : Nat) (f : CpCopy → CpCopy) : (modCpCopy s k f).out = s.out := rfl
@[simp] theorem modCpCopy_fresh (k : Nat) (f : CpCopy → CpCopy) : (modCpCopy s k f).fresh = s.fresh := rfl
@[simp] theorem modCpCopy_pending (k : Nat) (f : CpCopy → CpCopy) : (modCpCopy s k f).pending = s.pending := rfl

@[simp] theorem modBead_cfg (b : Nat) (f : Bead → Bead) : (modBead s b f).cfg = s.cfg := rfl
@[simp] theorem modBead_sv (b : Nat) (f : Bead → Bead) : (modBead s b f).sv = s.sv := rfl
@[simp] theorem modBead_tally (b : Nat) (f : Bead → Bead) : (modBead s b f).tally = s.tally := rfl
@[simp] theorem modBead_regions (b : Nat) (f : Bead → Bead) : (modBead s b f).regions = s.regions := rfl
@[simp] theorem modBead_slices (b : Nat) (f : Bead → Bead) : (modBead s b f).slices = s.slices := rfl
@[simp] theorem modBead_slm (b : Nat) (f : Bead → Bead) : (modBead s b f).slm = s.slm := rfl
@[simp] theorem modBead_atu (b : Nat) (f : Bead → Bead) : (modBead s b f).atu = s.atu := rfl
@[simp] theorem modBead_s2 (b : Nat) (f : Bead → Bead) : (modBead s b f).s2 = s.s2 := rfl
@[simp] theorem modBead_retJobs (b : Nat) (f : Bead → Bead) : (modBead s b f).retJobs = s.retJobs := rfl
@[simp] theorem modBead_engines (b : Nat) (f : Bead → Bead) : (modBead s b f).engines = s.engines := rfl
@[simp] theorem modBead_clusters (b : Nat) (f : Bead → Bead) : (modBead s b f).clusters = s.clusters := rfl
@[simp] theorem modBead_asyncs (b : Nat) (f : Bead → Bead) : (modBead s b f).asyncs = s.asyncs := rfl
@[simp] theorem modBead_reqErrs (b : Nat) (f : Bead → Bead) : (modBead s b f).reqErrs = s.reqErrs := rfl
@[simp] theorem modBead_ctxs (b : Nat) (f : Bead → Bead) : (modBead s b f).ctxs = s.ctxs := rfl
@[simp] theorem modBead_queues (b : Nat) (f : Bead → Bead) : (modBead s b f).queues = s.queues := rfl
@[simp] theorem modBead_memObjs (b : Nat) (f : Bead → Bead) : (modBead s b f).memObjs = s.memObjs := rfl
@[simp] theorem modBead_rings (b : Nat) (f : Bead → Bead) : (modBead s b f).rings = s.rings := rfl
@[simp] theorem modBead_hports (b : Nat) (f : Bead → Bead) : (modBead s b f).hports = s.hports := rfl
@[simp] theorem modBead_windows (b : Nat) (f : Bead → Bead) : (modBead s b f).windows = s.windows := rfl
@[simp] theorem modBead_bw (b : Nat) (f : Bead → Bead) : (modBead s b f).bw = s.bw := rfl
@[simp] theorem modBead_pins (b : Nat) (f : Bead → Bead) : (modBead s b f).pins = s.pins := rfl
@[simp] theorem modBead_fw (b : Nat) (f : Bead → Bead) : (modBead s b f).fw = s.fw := rfl
@[simp] theorem modBead_ks (b : Nat) (f : Bead → Bead) : (modBead s b f).ks = s.ks := rfl
@[simp] theorem modBead_lc (b : Nat) (f : Bead → Bead) : (modBead s b f).lc = s.lc := rfl
@[simp] theorem modBead_links (b : Nat) (f : Bead → Bead) : (modBead s b f).links = s.links := rfl
@[simp] theorem modBead_bridge (b : Nat) (f : Bead → Bead) : (modBead s b f).bridge = s.bridge := rfl
@[simp] theorem modBead_cp (b : Nat) (f : Bead → Bead) : (modBead s b f).cp = s.cp := rfl
@[simp] theorem modBead_ck (b : Nat) (f : Bead → Bead) : (modBead s b f).ck = s.ck := rfl
@[simp] theorem modBead_minSvn (b : Nat) (f : Bead → Bead) : (modBead s b f).minSvn = s.minSvn := rfl
@[simp] theorem modBead_emergQuiet (b : Nat) (f : Bead → Bead) : (modBead s b f).emergQuiet = s.emergQuiet := rfl
@[simp] theorem modBead_wipeDue (b : Nat) (f : Bead → Bead) : (modBead s b f).wipeDue = s.wipeDue := rfl
@[simp] theorem modBead_pclk (b : Nat) (f : Bead → Bead) : (modBead s b f).pclk = s.pclk := rfl
@[simp] theorem modBead_fc (b : Nat) (f : Bead → Bead) : (modBead s b f).fc = s.fc := rfl
@[simp] theorem modBead_out (b : Nat) (f : Bead → Bead) : (modBead s b f).out = s.out := rfl
@[simp] theorem modBead_fresh (b : Nat) (f : Bead → Bead) : (modBead s b f).fresh = s.fresh := rfl
@[simp] theorem modBead_pending (b : Nat) (f : Bead → Bead) : (modBead s b f).pending = s.pending := rfl

@[simp] theorem modCk_cfg (f : Ck → Ck) : (modCk s f).cfg = s.cfg := rfl
@[simp] theorem modCk_sv (f : Ck → Ck) : (modCk s f).sv = s.sv := rfl
@[simp] theorem modCk_tally (f : Ck → Ck) : (modCk s f).tally = s.tally := rfl
@[simp] theorem modCk_regions (f : Ck → Ck) : (modCk s f).regions = s.regions := rfl
@[simp] theorem modCk_slices (f : Ck → Ck) : (modCk s f).slices = s.slices := rfl
@[simp] theorem modCk_slm (f : Ck → Ck) : (modCk s f).slm = s.slm := rfl
@[simp] theorem modCk_atu (f : Ck → Ck) : (modCk s f).atu = s.atu := rfl
@[simp] theorem modCk_s2 (f : Ck → Ck) : (modCk s f).s2 = s.s2 := rfl
@[simp] theorem modCk_retJobs (f : Ck → Ck) : (modCk s f).retJobs = s.retJobs := rfl
@[simp] theorem modCk_engines (f : Ck → Ck) : (modCk s f).engines = s.engines := rfl
@[simp] theorem modCk_clusters (f : Ck → Ck) : (modCk s f).clusters = s.clusters := rfl
@[simp] theorem modCk_asyncs (f : Ck → Ck) : (modCk s f).asyncs = s.asyncs := rfl
@[simp] theorem modCk_reqErrs (f : Ck → Ck) : (modCk s f).reqErrs = s.reqErrs := rfl
@[simp] theorem modCk_ctxs (f : Ck → Ck) : (modCk s f).ctxs = s.ctxs := rfl
@[simp] theorem modCk_queues (f : Ck → Ck) : (modCk s f).queues = s.queues := rfl
@[simp] theorem modCk_memObjs (f : Ck → Ck) : (modCk s f).memObjs = s.memObjs := rfl
@[simp] theorem modCk_rings (f : Ck → Ck) : (modCk s f).rings = s.rings := rfl
@[simp] theorem modCk_hports (f : Ck → Ck) : (modCk s f).hports = s.hports := rfl
@[simp] theorem modCk_sched (f : Ck → Ck) : (modCk s f).sched = s.sched := rfl
@[simp] theorem modCk_windows (f : Ck → Ck) : (modCk s f).windows = s.windows := rfl
@[simp] theorem modCk_bw (f : Ck → Ck) : (modCk s f).bw = s.bw := rfl
@[simp] theorem modCk_pins (f : Ck → Ck) : (modCk s f).pins = s.pins := rfl
@[simp] theorem modCk_fw (f : Ck → Ck) : (modCk s f).fw = s.fw := rfl
@[simp] theorem modCk_ks (f : Ck → Ck) : (modCk s f).ks = s.ks := rfl
@[simp] theorem modCk_lc (f : Ck → Ck) : (modCk s f).lc = s.lc := rfl
@[simp] theorem modCk_links (f : Ck → Ck) : (modCk s f).links = s.links := rfl
@[simp] theorem modCk_bridge (f : Ck → Ck) : (modCk s f).bridge = s.bridge := rfl
@[simp] theorem modCk_cp (f : Ck → Ck) : (modCk s f).cp = s.cp := rfl
@[simp] theorem modCk_minSvn (f : Ck → Ck) : (modCk s f).minSvn = s.minSvn := rfl
@[simp] theorem modCk_emergQuiet (f : Ck → Ck) : (modCk s f).emergQuiet = s.emergQuiet := rfl
@[simp] theorem modCk_wipeDue (f : Ck → Ck) : (modCk s f).wipeDue = s.wipeDue := rfl
@[simp] theorem modCk_pclk (f : Ck → Ck) : (modCk s f).pclk = s.pclk := rfl
@[simp] theorem modCk_fc (f : Ck → Ck) : (modCk s f).fc = s.fc := rfl
@[simp] theorem modCk_out (f : Ck → Ck) : (modCk s f).out = s.out := rfl
@[simp] theorem modCk_fresh (f : Ck → Ck) : (modCk s f).fresh = s.fresh := rfl
@[simp] theorem modCk_pending (f : Ck → Ck) : (modCk s f).pending = s.pending := rfl

@[simp] theorem modPins_cfg (f : Pins → Pins) : (modPins s f).cfg = s.cfg := rfl
@[simp] theorem modPins_sv (f : Pins → Pins) : (modPins s f).sv = s.sv := rfl
@[simp] theorem modPins_tally (f : Pins → Pins) : (modPins s f).tally = s.tally := rfl
@[simp] theorem modPins_regions (f : Pins → Pins) : (modPins s f).regions = s.regions := rfl
@[simp] theorem modPins_slices (f : Pins → Pins) : (modPins s f).slices = s.slices := rfl
@[simp] theorem modPins_slm (f : Pins → Pins) : (modPins s f).slm = s.slm := rfl
@[simp] theorem modPins_atu (f : Pins → Pins) : (modPins s f).atu = s.atu := rfl
@[simp] theorem modPins_s2 (f : Pins → Pins) : (modPins s f).s2 = s.s2 := rfl
@[simp] theorem modPins_retJobs (f : Pins → Pins) : (modPins s f).retJobs = s.retJobs := rfl
@[simp] theorem modPins_engines (f : Pins → Pins) : (modPins s f).engines = s.engines := rfl
@[simp] theorem modPins_clusters (f : Pins → Pins) : (modPins s f).clusters = s.clusters := rfl
@[simp] theorem modPins_asyncs (f : Pins → Pins) : (modPins s f).asyncs = s.asyncs := rfl
@[simp] theorem modPins_reqErrs (f : Pins → Pins) : (modPins s f).reqErrs = s.reqErrs := rfl
@[simp] theorem modPins_ctxs (f : Pins → Pins) : (modPins s f).ctxs = s.ctxs := rfl
@[simp] theorem modPins_queues (f : Pins → Pins) : (modPins s f).queues = s.queues := rfl
@[simp] theorem modPins_memObjs (f : Pins → Pins) : (modPins s f).memObjs = s.memObjs := rfl
@[simp] theorem modPins_rings (f : Pins → Pins) : (modPins s f).rings = s.rings := rfl
@[simp] theorem modPins_hports (f : Pins → Pins) : (modPins s f).hports = s.hports := rfl
@[simp] theorem modPins_sched (f : Pins → Pins) : (modPins s f).sched = s.sched := rfl
@[simp] theorem modPins_windows (f : Pins → Pins) : (modPins s f).windows = s.windows := rfl
@[simp] theorem modPins_bw (f : Pins → Pins) : (modPins s f).bw = s.bw := rfl
@[simp] theorem modPins_fw (f : Pins → Pins) : (modPins s f).fw = s.fw := rfl
@[simp] theorem modPins_ks (f : Pins → Pins) : (modPins s f).ks = s.ks := rfl
@[simp] theorem modPins_lc (f : Pins → Pins) : (modPins s f).lc = s.lc := rfl
@[simp] theorem modPins_links (f : Pins → Pins) : (modPins s f).links = s.links := rfl
@[simp] theorem modPins_bridge (f : Pins → Pins) : (modPins s f).bridge = s.bridge := rfl
@[simp] theorem modPins_cp (f : Pins → Pins) : (modPins s f).cp = s.cp := rfl
@[simp] theorem modPins_ck (f : Pins → Pins) : (modPins s f).ck = s.ck := rfl
@[simp] theorem modPins_minSvn (f : Pins → Pins) : (modPins s f).minSvn = s.minSvn := rfl
@[simp] theorem modPins_emergQuiet (f : Pins → Pins) : (modPins s f).emergQuiet = s.emergQuiet := rfl
@[simp] theorem modPins_wipeDue (f : Pins → Pins) : (modPins s f).wipeDue = s.wipeDue := rfl
@[simp] theorem modPins_pclk (f : Pins → Pins) : (modPins s f).pclk = s.pclk := rfl
@[simp] theorem modPins_fc (f : Pins → Pins) : (modPins s f).fc = s.fc := rfl
@[simp] theorem modPins_out (f : Pins → Pins) : (modPins s f).out = s.out := rfl
@[simp] theorem modPins_fresh (f : Pins → Pins) : (modPins s f).fresh = s.fresh := rfl
@[simp] theorem modPins_pending (f : Pins → Pins) : (modPins s f).pending = s.pending := rfl

@[simp] theorem emit_cfg (o : Out) : (emit s o).cfg = s.cfg := rfl
@[simp] theorem emit_sv (o : Out) : (emit s o).sv = s.sv := rfl
@[simp] theorem emit_tally (o : Out) : (emit s o).tally = s.tally := rfl
@[simp] theorem emit_regions (o : Out) : (emit s o).regions = s.regions := rfl
@[simp] theorem emit_slices (o : Out) : (emit s o).slices = s.slices := rfl
@[simp] theorem emit_slm (o : Out) : (emit s o).slm = s.slm := rfl
@[simp] theorem emit_atu (o : Out) : (emit s o).atu = s.atu := rfl
@[simp] theorem emit_s2 (o : Out) : (emit s o).s2 = s.s2 := rfl
@[simp] theorem emit_retJobs (o : Out) : (emit s o).retJobs = s.retJobs := rfl
@[simp] theorem emit_engines (o : Out) : (emit s o).engines = s.engines := rfl
@[simp] theorem emit_clusters (o : Out) : (emit s o).clusters = s.clusters := rfl
@[simp] theorem emit_asyncs (o : Out) : (emit s o).asyncs = s.asyncs := rfl
@[simp] theorem emit_reqErrs (o : Out) : (emit s o).reqErrs = s.reqErrs := rfl
@[simp] theorem emit_ctxs (o : Out) : (emit s o).ctxs = s.ctxs := rfl
@[simp] theorem emit_queues (o : Out) : (emit s o).queues = s.queues := rfl
@[simp] theorem emit_memObjs (o : Out) : (emit s o).memObjs = s.memObjs := rfl
@[simp] theorem emit_rings (o : Out) : (emit s o).rings = s.rings := rfl
@[simp] theorem emit_hports (o : Out) : (emit s o).hports = s.hports := rfl
@[simp] theorem emit_sched (o : Out) : (emit s o).sched = s.sched := rfl
@[simp] theorem emit_windows (o : Out) : (emit s o).windows = s.windows := rfl
@[simp] theorem emit_bw (o : Out) : (emit s o).bw = s.bw := rfl
@[simp] theorem emit_pins (o : Out) : (emit s o).pins = s.pins := rfl
@[simp] theorem emit_fw (o : Out) : (emit s o).fw = s.fw := rfl
@[simp] theorem emit_ks (o : Out) : (emit s o).ks = s.ks := rfl
@[simp] theorem emit_lc (o : Out) : (emit s o).lc = s.lc := rfl
@[simp] theorem emit_links (o : Out) : (emit s o).links = s.links := rfl
@[simp] theorem emit_bridge (o : Out) : (emit s o).bridge = s.bridge := rfl
@[simp] theorem emit_cp (o : Out) : (emit s o).cp = s.cp := rfl
@[simp] theorem emit_ck (o : Out) : (emit s o).ck = s.ck := rfl
@[simp] theorem emit_minSvn (o : Out) : (emit s o).minSvn = s.minSvn := rfl
@[simp] theorem emit_emergQuiet (o : Out) : (emit s o).emergQuiet = s.emergQuiet := rfl
@[simp] theorem emit_wipeDue (o : Out) : (emit s o).wipeDue = s.wipeDue := rfl
@[simp] theorem emit_pclk (o : Out) : (emit s o).pclk = s.pclk := rfl
@[simp] theorem emit_fc (o : Out) : (emit s o).fc = s.fc := rfl
@[simp] theorem emit_fresh (o : Out) : (emit s o).fresh = s.fresh := rfl
@[simp] theorem emit_pending (o : Out) : (emit s o).pending = s.pending := rfl

/-! ## The record itself -/

@[simp] theorem portOf_modPort (k : Nat) (f : MemPort → MemPort) : portOf (modPort s k f) k = f (portOf s k) := mget_mmod_same _ _ _ _
theorem portOf_modPort_ne {k j : Nat} (f : MemPort → MemPort) (h : j ≠ k) : portOf (modPort s k f) j = portOf s j := mget_mmod_other _ _ f h
@[simp] theorem kidOf_modKid (k : Nat) (f : Kid → Kid) : kidOf (modKid s k f) k = f (kidOf s k) := mget_mmod_same _ _ _ _
theorem kidOf_modKid_ne {k j : Nat} (f : Kid → Kid) (h : j ≠ k) : kidOf (modKid s k f) j = kidOf s j := mget_mmod_other _ _ f h
@[simp] theorem tallyOf_modTally (k : Nat) (f : Tally → Tally) : tallyOf (modTally s k f) k = f (tallyOf s k) := mget_mmod_same _ _ _ _
theorem tallyOf_modTally_ne {k j : Nat} (f : Tally → Tally) (h : j ≠ k) : tallyOf (modTally s k f) j = tallyOf s j := mget_mmod_other _ _ f h
@[simp] theorem sliceOf_modSlice (k : Nat) (f : Slice → Slice) : sliceOf (modSlice s k f) k = f (sliceOf s k) := mget_mmod_same _ _ _ _
theorem sliceOf_modSlice_ne {k j : Nat} (f : Slice → Slice) (h : j ≠ k) : sliceOf (modSlice s k f) j = sliceOf s j := mget_mmod_other _ _ f h
@[simp] theorem engOf_modEng (k : Nat) (f : Engine → Engine) : engOf (modEng s k f) k = f (engOf s k) := mget_mmod_same _ _ _ _
theorem engOf_modEng_ne {k j : Nat} (f : Engine → Engine) (h : j ≠ k) : engOf (modEng s k f) j = engOf s j := mget_mmod_other _ _ f h
@[simp] theorem clOf_modCl (k : Nat) (f : Cluster → Cluster) : clOf (modCl s k f) k = f (clOf s k) := mget_mmod_same _ _ _ _
theorem clOf_modCl_ne {k j : Nat} (f : Cluster → Cluster) (h : j ≠ k) : clOf (modCl s k f) j = clOf s j := mget_mmod_other _ _ f h
@[simp] theorem ctxOf_modCtx (k : Nat) (f : Ctx → Ctx) : ctxOf (modCtx s k f) k = f (ctxOf s k) := mget_mmod_same _ _ _ _
theorem ctxOf_modCtx_ne {k j : Nat} (f : Ctx → Ctx) (h : j ≠ k) : ctxOf (modCtx s k f) j = ctxOf s j := mget_mmod_other _ _ f h
@[simp] theorem ringOf_modRing (k : Nat) (f : PortRing → PortRing) : ringOf (modRing s k f) k = f (ringOf s k) := mget_mmod_same _ _ _ _
theorem ringOf_modRing_ne {k j : Nat} (f : PortRing → PortRing) (h : j ≠ k) : ringOf (modRing s k f) j = ringOf s j := mget_mmod_other _ _ f h
@[simp] theorem hportOf_modHport (k : Nat) (f : HPort → HPort) : hportOf (modHport s k f) k = f (hportOf s k) := mget_mmod_same _ _ _ _
theorem hportOf_modHport_ne {k j : Nat} (f : HPort → HPort) (h : j ≠ k) : hportOf (modHport s k f) j = hportOf s j := mget_mmod_other _ _ f h
@[simp] theorem hkOf_modHk (k : Nat) (f : HostKeys → HostKeys) : hkOf (modHk s k f) k = f (hkOf s k) := mget_mmod_same _ _ _ _
theorem hkOf_modHk_ne {k j : Nat} (f : HostKeys → HostKeys) (h : j ≠ k) : hkOf (modHk s k f) j = hkOf s j := mget_mmod_other _ _ f h
@[simp] theorem procOf_modProc (k : Nat) (f : FwProc → FwProc) : procOf (modProc s k f) k = f (procOf s k) := mget_mmod_same _ _ _ _
theorem procOf_modProc_ne {k j : Nat} (f : FwProc → FwProc) (h : j ≠ k) : procOf (modProc s k f) j = procOf s j := mget_mmod_other _ _ f h
@[simp] theorem fcCopyOf_modFcCopy (k : Nat) (f : FcCopy → FcCopy) : fcCopyOf (modFcCopy s k f) k = f (fcCopyOf s k) := mget_mmod_same _ _ _ _
theorem fcCopyOf_modFcCopy_ne {k j : Nat} (f : FcCopy → FcCopy) (h : j ≠ k) : fcCopyOf (modFcCopy s k f) j = fcCopyOf s j := mget_mmod_other _ _ f h
@[simp] theorem cpCopyOf_modCpCopy (k : Nat) (f : CpCopy → CpCopy) : cpCopyOf (modCpCopy s k f) k = f (cpCopyOf s k) := mget_mmod_same _ _ _ _
theorem cpCopyOf_modCpCopy_ne {k j : Nat} (f : CpCopy → CpCopy) (h : j ≠ k) : cpCopyOf (modCpCopy s k f) j = cpCopyOf s j := mget_mmod_other _ _ f h
@[simp] theorem beadOf_modBead (k : Nat) (f : Bead → Bead) : beadOf (modBead s k f) k = f (beadOf s k) := mget_mmod_same _ _ _ _
theorem beadOf_modBead_ne {k j : Nat} (f : Bead → Bead) (h : j ≠ k) : beadOf (modBead s k f) j = beadOf s j := mget_mmod_other _ _ f h
@[simp] theorem modCk_ck (f : Ck → Ck) : (modCk s f).ck = f s.ck := rfl
@[simp] theorem modPins_pins (f : Pins → Pins) : (modPins s f).pins = f s.pins := rfl
@[simp] theorem modLinks_links (f : Links → Links) : (modLinks s f).links = f s.links := rfl
@[simp] theorem emit_out (o : Out) : (emit s o).out = o :: s.out := rfl

/-! ## Accessors of other records -/

@[simp] theorem portOf_modTally (j : Nat) (h : Nat) (f : Tally → Tally) : portOf (modTally s h f) j = portOf s j := rfl
@[simp] theorem portOf_modSlice (j : Nat) (n : Nat) (f : Slice → Slice) : portOf (modSlice s n f) j = portOf s j := rfl
@[simp] theorem portOf_modEng (j : Nat) (e : Nat) (f : Engine → Engine) : portOf (modEng s e f) j = portOf s j := rfl
@[simp] theorem portOf_modCl (j : Nat) (c : Nat) (f : Cluster → Cluster) : portOf (modCl s c f) j = portOf s j := rfl
@[simp] theorem portOf_modCtx (j : Nat) (n : Nat) (f : Ctx → Ctx) : portOf (modCtx s n f) j = portOf s j := rfl
@[simp] theorem portOf_modQueue (j : Nat) (q : Nat) (f : Queue → Queue) : portOf (modQueue s q f) j = portOf s j := rfl
@[simp] theorem portOf_modRing (j : Nat) (p : Nat) (f : PortRing → PortRing) : portOf (modRing s p f) j = portOf s j := rfl
@[simp] theorem portOf_modHport (j : Nat) (p : Nat) (f : HPort → HPort) : portOf (modHport s p f) j = portOf s j := rfl
@[simp] theorem portOf_modLinks (j : Nat) (f : Links → Links) : portOf (modLinks s f) j = portOf s j := rfl
@[simp] theorem portOf_modHk (j : Nat) (p : Nat) (f : HostKeys → HostKeys) : portOf (modHk s p f) j = portOf s j := rfl
@[simp] theorem portOf_modKsSlice (j : Nat) (n : Nat) (f : KSlice → KSlice) : portOf (modKsSlice s n f) j = portOf s j := rfl
@[simp] theorem portOf_modProc (j : Nat) (k : Nat) (f : FwProc → FwProc) : portOf (modProc s k f) j = portOf s j := rfl
@[simp] theorem portOf_modFcCopy (j : Nat) (k : Nat) (f : FcCopy → FcCopy) : portOf (modFcCopy s k f) j = portOf s j := rfl
@[simp] theorem portOf_modCpCopy (j : Nat) (k : Nat) (f : CpCopy → CpCopy) : portOf (modCpCopy s k f) j = portOf s j := rfl
@[simp] theorem portOf_modBead (j : Nat) (b : Nat) (f : Bead → Bead) : portOf (modBead s b f) j = portOf s j := rfl
@[simp] theorem portOf_modCk (j : Nat) (f : Ck → Ck) : portOf (modCk s f) j = portOf s j := rfl
@[simp] theorem portOf_modPins (j : Nat) (f : Pins → Pins) : portOf (modPins s f) j = portOf s j := rfl
@[simp] theorem portOf_emit (j : Nat) (o : Out) : portOf (emit s o) j = portOf s j := rfl
@[simp] theorem kidOf_modTally (j : Nat) (h : Nat) (f : Tally → Tally) : kidOf (modTally s h f) j = kidOf s j := rfl
@[simp] theorem kidOf_modSlice (j : Nat) (n : Nat) (f : Slice → Slice) : kidOf (modSlice s n f) j = kidOf s j := rfl
@[simp] theorem kidOf_modEng (j : Nat) (e : Nat) (f : Engine → Engine) : kidOf (modEng s e f) j = kidOf s j := rfl
@[simp] theorem kidOf_modCl (j : Nat) (c : Nat) (f : Cluster → Cluster) : kidOf (modCl s c f) j = kidOf s j := rfl
@[simp] theorem kidOf_modCtx (j : Nat) (n : Nat) (f : Ctx → Ctx) : kidOf (modCtx s n f) j = kidOf s j := rfl
@[simp] theorem kidOf_modQueue (j : Nat) (q : Nat) (f : Queue → Queue) : kidOf (modQueue s q f) j = kidOf s j := rfl
@[simp] theorem kidOf_modRing (j : Nat) (p : Nat) (f : PortRing → PortRing) : kidOf (modRing s p f) j = kidOf s j := rfl
@[simp] theorem kidOf_modHport (j : Nat) (p : Nat) (f : HPort → HPort) : kidOf (modHport s p f) j = kidOf s j := rfl
@[simp] theorem kidOf_modLinks (j : Nat) (f : Links → Links) : kidOf (modLinks s f) j = kidOf s j := rfl
@[simp] theorem kidOf_modHk (j : Nat) (p : Nat) (f : HostKeys → HostKeys) : kidOf (modHk s p f) j = kidOf s j := rfl
@[simp] theorem kidOf_modKsSlice (j : Nat) (n : Nat) (f : KSlice → KSlice) : kidOf (modKsSlice s n f) j = kidOf s j := rfl
@[simp] theorem kidOf_modProc (j : Nat) (k : Nat) (f : FwProc → FwProc) : kidOf (modProc s k f) j = kidOf s j := rfl
@[simp] theorem kidOf_modFcCopy (j : Nat) (k : Nat) (f : FcCopy → FcCopy) : kidOf (modFcCopy s k f) j = kidOf s j := rfl
@[simp] theorem kidOf_modCpCopy (j : Nat) (k : Nat) (f : CpCopy → CpCopy) : kidOf (modCpCopy s k f) j = kidOf s j := rfl
@[simp] theorem kidOf_modBead (j : Nat) (b : Nat) (f : Bead → Bead) : kidOf (modBead s b f) j = kidOf s j := rfl
@[simp] theorem kidOf_modCk (j : Nat) (f : Ck → Ck) : kidOf (modCk s f) j = kidOf s j := rfl
@[simp] theorem kidOf_modPins (j : Nat) (f : Pins → Pins) : kidOf (modPins s f) j = kidOf s j := rfl
@[simp] theorem kidOf_emit (j : Nat) (o : Out) : kidOf (emit s o) j = kidOf s j := rfl
@[simp] theorem tallyOf_modPort (j : Nat) (m : Nat) (f : MemPort → MemPort) : tallyOf (modPort s m f) j = tallyOf s j := rfl
@[simp] theorem tallyOf_modKid (j : Nat) (n : Nat) (f : Kid → Kid) : tallyOf (modKid s n f) j = tallyOf s j := rfl
@[simp] theorem tallyOf_modSlice (j : Nat) (n : Nat) (f : Slice → Slice) : tallyOf (modSlice s n f) j = tallyOf s j := rfl
@[simp] theorem tallyOf_modEng (j : Nat) (e : Nat) (f : Engine → Engine) : tallyOf (modEng s e f) j = tallyOf s j := rfl
@[simp] theorem tallyOf_modCl (j : Nat) (c : Nat) (f : Cluster → Cluster) : tallyOf (modCl s c f) j = tallyOf s j := rfl
@[simp] theorem tallyOf_modCtx (j : Nat) (n : Nat) (f : Ctx → Ctx) : tallyOf (modCtx s n f) j = tallyOf s j := rfl
@[simp] theorem tallyOf_modQueue (j : Nat) (q : Nat) (f : Queue → Queue) : tallyOf (modQueue s q f) j = tallyOf s j := rfl
@[simp] theorem tallyOf_modRing (j : Nat) (p : Nat) (f : PortRing → PortRing) : tallyOf (modRing s p f) j = tallyOf s j := rfl
@[simp] theorem tallyOf_modHport (j : Nat) (p : Nat) (f : HPort → HPort) : tallyOf (modHport s p f) j = tallyOf s j := rfl
@[simp] theorem tallyOf_modLinks (j : Nat) (f : Links → Links) : tallyOf (modLinks s f) j = tallyOf s j := rfl
@[simp] theorem tallyOf_modHk (j : Nat) (p : Nat) (f : HostKeys → HostKeys) : tallyOf (modHk s p f) j = tallyOf s j := rfl
@[simp] theorem tallyOf_modKsSlice (j : Nat) (n : Nat) (f : KSlice → KSlice) : tallyOf (modKsSlice s n f) j = tallyOf s j := rfl
@[simp] theorem tallyOf_modProc (j : Nat) (k : Nat) (f : FwProc → FwProc) : tallyOf (modProc s k f) j = tallyOf s j := rfl
@[simp] theorem tallyOf_modFcCopy (j : Nat) (k : Nat) (f : FcCopy → FcCopy) : tallyOf (modFcCopy s k f) j = tallyOf s j := rfl
@[simp] theorem tallyOf_modCpCopy (j : Nat) (k : Nat) (f : CpCopy → CpCopy) : tallyOf (modCpCopy s k f) j = tallyOf s j := rfl
@[simp] theorem tallyOf_modBead (j : Nat) (b : Nat) (f : Bead → Bead) : tallyOf (modBead s b f) j = tallyOf s j := rfl
@[simp] theorem tallyOf_modCk (j : Nat) (f : Ck → Ck) : tallyOf (modCk s f) j = tallyOf s j := rfl
@[simp] theorem tallyOf_modPins (j : Nat) (f : Pins → Pins) : tallyOf (modPins s f) j = tallyOf s j := rfl
@[simp] theorem tallyOf_emit (j : Nat) (o : Out) : tallyOf (emit s o) j = tallyOf s j := rfl
@[simp] theorem sliceOf_modPort (j : Nat) (m : Nat) (f : MemPort → MemPort) : sliceOf (modPort s m f) j = sliceOf s j := rfl
@[simp] theorem sliceOf_modKid (j : Nat) (n : Nat) (f : Kid → Kid) : sliceOf (modKid s n f) j = sliceOf s j := rfl
@[simp] theorem sliceOf_modTally (j : Nat) (h : Nat) (f : Tally → Tally) : sliceOf (modTally s h f) j = sliceOf s j := rfl
@[simp] theorem sliceOf_modEng (j : Nat) (e : Nat) (f : Engine → Engine) : sliceOf (modEng s e f) j = sliceOf s j := rfl
@[simp] theorem sliceOf_modCl (j : Nat) (c : Nat) (f : Cluster → Cluster) : sliceOf (modCl s c f) j = sliceOf s j := rfl
@[simp] theorem sliceOf_modCtx (j : Nat) (n : Nat) (f : Ctx → Ctx) : sliceOf (modCtx s n f) j = sliceOf s j := rfl
@[simp] theorem sliceOf_modQueue (j : Nat) (q : Nat) (f : Queue → Queue) : sliceOf (modQueue s q f) j = sliceOf s j := rfl
@[simp] theorem sliceOf_modRing (j : Nat) (p : Nat) (f : PortRing → PortRing) : sliceOf (modRing s p f) j = sliceOf s j := rfl
@[simp] theorem sliceOf_modHport (j : Nat) (p : Nat) (f : HPort → HPort) : sliceOf (modHport s p f) j = sliceOf s j := rfl
@[simp] theorem sliceOf_modLinks (j : Nat) (f : Links → Links) : sliceOf (modLinks s f) j = sliceOf s j := rfl
@[simp] theorem sliceOf_modHk (j : Nat) (p : Nat) (f : HostKeys → HostKeys) : sliceOf (modHk s p f) j = sliceOf s j := rfl
@[simp] theorem sliceOf_modKsSlice (j : Nat) (n : Nat) (f : KSlice → KSlice) : sliceOf (modKsSlice s n f) j = sliceOf s j := rfl
@[simp] theorem sliceOf_modProc (j : Nat) (k : Nat) (f : FwProc → FwProc) : sliceOf (modProc s k f) j = sliceOf s j := rfl
@[simp] theorem sliceOf_modFcCopy (j : Nat) (k : Nat) (f : FcCopy → FcCopy) : sliceOf (modFcCopy s k f) j = sliceOf s j := rfl
@[simp] theorem sliceOf_modCpCopy (j : Nat) (k : Nat) (f : CpCopy → CpCopy) : sliceOf (modCpCopy s k f) j = sliceOf s j := rfl
@[simp] theorem sliceOf_modBead (j : Nat) (b : Nat) (f : Bead → Bead) : sliceOf (modBead s b f) j = sliceOf s j := rfl
@[simp] theorem sliceOf_modCk (j : Nat) (f : Ck → Ck) : sliceOf (modCk s f) j = sliceOf s j := rfl
@[simp] theorem sliceOf_modPins (j : Nat) (f : Pins → Pins) : sliceOf (modPins s f) j = sliceOf s j := rfl
@[simp] theorem sliceOf_emit (j : Nat) (o : Out) : sliceOf (emit s o) j = sliceOf s j := rfl
@[simp] theorem engOf_modPort (j : Nat) (m : Nat) (f : MemPort → MemPort) : engOf (modPort s m f) j = engOf s j := rfl
@[simp] theorem engOf_modKid (j : Nat) (n : Nat) (f : Kid → Kid) : engOf (modKid s n f) j = engOf s j := rfl
@[simp] theorem engOf_modTally (j : Nat) (h : Nat) (f : Tally → Tally) : engOf (modTally s h f) j = engOf s j := rfl
@[simp] theorem engOf_modSlice (j : Nat) (n : Nat) (f : Slice → Slice) : engOf (modSlice s n f) j = engOf s j := rfl
@[simp] theorem engOf_modCl (j : Nat) (c : Nat) (f : Cluster → Cluster) : engOf (modCl s c f) j = engOf s j := rfl
@[simp] theorem engOf_modCtx (j : Nat) (n : Nat) (f : Ctx → Ctx) : engOf (modCtx s n f) j = engOf s j := rfl
@[simp] theorem engOf_modQueue (j : Nat) (q : Nat) (f : Queue → Queue) : engOf (modQueue s q f) j = engOf s j := rfl
@[simp] theorem engOf_modRing (j : Nat) (p : Nat) (f : PortRing → PortRing) : engOf (modRing s p f) j = engOf s j := rfl
@[simp] theorem engOf_modHport (j : Nat) (p : Nat) (f : HPort → HPort) : engOf (modHport s p f) j = engOf s j := rfl
@[simp] theorem engOf_modLinks (j : Nat) (f : Links → Links) : engOf (modLinks s f) j = engOf s j := rfl
@[simp] theorem engOf_modHk (j : Nat) (p : Nat) (f : HostKeys → HostKeys) : engOf (modHk s p f) j = engOf s j := rfl
@[simp] theorem engOf_modKsSlice (j : Nat) (n : Nat) (f : KSlice → KSlice) : engOf (modKsSlice s n f) j = engOf s j := rfl
@[simp] theorem engOf_modProc (j : Nat) (k : Nat) (f : FwProc → FwProc) : engOf (modProc s k f) j = engOf s j := rfl
@[simp] theorem engOf_modFcCopy (j : Nat) (k : Nat) (f : FcCopy → FcCopy) : engOf (modFcCopy s k f) j = engOf s j := rfl
@[simp] theorem engOf_modCpCopy (j : Nat) (k : Nat) (f : CpCopy → CpCopy) : engOf (modCpCopy s k f) j = engOf s j := rfl
@[simp] theorem engOf_modBead (j : Nat) (b : Nat) (f : Bead → Bead) : engOf (modBead s b f) j = engOf s j := rfl
@[simp] theorem engOf_modCk (j : Nat) (f : Ck → Ck) : engOf (modCk s f) j = engOf s j := rfl
@[simp] theorem engOf_modPins (j : Nat) (f : Pins → Pins) : engOf (modPins s f) j = engOf s j := rfl
@[simp] theorem engOf_emit (j : Nat) (o : Out) : engOf (emit s o) j = engOf s j := rfl
@[simp] theorem clOf_modPort (j : Nat) (m : Nat) (f : MemPort → MemPort) : clOf (modPort s m f) j = clOf s j := rfl
@[simp] theorem clOf_modKid (j : Nat) (n : Nat) (f : Kid → Kid) : clOf (modKid s n f) j = clOf s j := rfl
@[simp] theorem clOf_modTally (j : Nat) (h : Nat) (f : Tally → Tally) : clOf (modTally s h f) j = clOf s j := rfl
@[simp] theorem clOf_modSlice (j : Nat) (n : Nat) (f : Slice → Slice) : clOf (modSlice s n f) j = clOf s j := rfl
@[simp] theorem clOf_modEng (j : Nat) (e : Nat) (f : Engine → Engine) : clOf (modEng s e f) j = clOf s j := rfl
@[simp] theorem clOf_modCtx (j : Nat) (n : Nat) (f : Ctx → Ctx) : clOf (modCtx s n f) j = clOf s j := rfl
@[simp] theorem clOf_modQueue (j : Nat) (q : Nat) (f : Queue → Queue) : clOf (modQueue s q f) j = clOf s j := rfl
@[simp] theorem clOf_modRing (j : Nat) (p : Nat) (f : PortRing → PortRing) : clOf (modRing s p f) j = clOf s j := rfl
@[simp] theorem clOf_modHport (j : Nat) (p : Nat) (f : HPort → HPort) : clOf (modHport s p f) j = clOf s j := rfl
@[simp] theorem clOf_modLinks (j : Nat) (f : Links → Links) : clOf (modLinks s f) j = clOf s j := rfl
@[simp] theorem clOf_modHk (j : Nat) (p : Nat) (f : HostKeys → HostKeys) : clOf (modHk s p f) j = clOf s j := rfl
@[simp] theorem clOf_modKsSlice (j : Nat) (n : Nat) (f : KSlice → KSlice) : clOf (modKsSlice s n f) j = clOf s j := rfl
@[simp] theorem clOf_modProc (j : Nat) (k : Nat) (f : FwProc → FwProc) : clOf (modProc s k f) j = clOf s j := rfl
@[simp] theorem clOf_modFcCopy (j : Nat) (k : Nat) (f : FcCopy → FcCopy) : clOf (modFcCopy s k f) j = clOf s j := rfl
@[simp] theorem clOf_modCpCopy (j : Nat) (k : Nat) (f : CpCopy → CpCopy) : clOf (modCpCopy s k f) j = clOf s j := rfl
@[simp] theorem clOf_modBead (j : Nat) (b : Nat) (f : Bead → Bead) : clOf (modBead s b f) j = clOf s j := rfl
@[simp] theorem clOf_modCk (j : Nat) (f : Ck → Ck) : clOf (modCk s f) j = clOf s j := rfl
@[simp] theorem clOf_modPins (j : Nat) (f : Pins → Pins) : clOf (modPins s f) j = clOf s j := rfl
@[simp] theorem clOf_emit (j : Nat) (o : Out) : clOf (emit s o) j = clOf s j := rfl
@[simp] theorem ctxOf_modPort (j : Nat) (m : Nat) (f : MemPort → MemPort) : ctxOf (modPort s m f) j = ctxOf s j := rfl
@[simp] theorem ctxOf_modKid (j : Nat) (n : Nat) (f : Kid → Kid) : ctxOf (modKid s n f) j = ctxOf s j := rfl
@[simp] theorem ctxOf_modTally (j : Nat) (h : Nat) (f : Tally → Tally) : ctxOf (modTally s h f) j = ctxOf s j := rfl
@[simp] theorem ctxOf_modSlice (j : Nat) (n : Nat) (f : Slice → Slice) : ctxOf (modSlice s n f) j = ctxOf s j := rfl
@[simp] theorem ctxOf_modEng (j : Nat) (e : Nat) (f : Engine → Engine) : ctxOf (modEng s e f) j = ctxOf s j := rfl
@[simp] theorem ctxOf_modCl (j : Nat) (c : Nat) (f : Cluster → Cluster) : ctxOf (modCl s c f) j = ctxOf s j := rfl
@[simp] theorem ctxOf_modQueue (j : Nat) (q : Nat) (f : Queue → Queue) : ctxOf (modQueue s q f) j = ctxOf s j := rfl
@[simp] theorem ctxOf_modRing (j : Nat) (p : Nat) (f : PortRing → PortRing) : ctxOf (modRing s p f) j = ctxOf s j := rfl
@[simp] theorem ctxOf_modHport (j : Nat) (p : Nat) (f : HPort → HPort) : ctxOf (modHport s p f) j = ctxOf s j := rfl
@[simp] theorem ctxOf_modLinks (j : Nat) (f : Links → Links) : ctxOf (modLinks s f) j = ctxOf s j := rfl
@[simp] theorem ctxOf_modHk (j : Nat) (p : Nat) (f : HostKeys → HostKeys) : ctxOf (modHk s p f) j = ctxOf s j := rfl
@[simp] theorem ctxOf_modKsSlice (j : Nat) (n : Nat) (f : KSlice → KSlice) : ctxOf (modKsSlice s n f) j = ctxOf s j := rfl
@[simp] theorem ctxOf_modProc (j : Nat) (k : Nat) (f : FwProc → FwProc) : ctxOf (modProc s k f) j = ctxOf s j := rfl
@[simp] theorem ctxOf_modFcCopy (j : Nat) (k : Nat) (f : FcCopy → FcCopy) : ctxOf (modFcCopy s k f) j = ctxOf s j := rfl
@[simp] theorem ctxOf_modCpCopy (j : Nat) (k : Nat) (f : CpCopy → CpCopy) : ctxOf (modCpCopy s k f) j = ctxOf s j := rfl
@[simp] theorem ctxOf_modBead (j : Nat) (b : Nat) (f : Bead → Bead) : ctxOf (modBead s b f) j = ctxOf s j := rfl
@[simp] theorem ctxOf_modCk (j : Nat) (f : Ck → Ck) : ctxOf (modCk s f) j = ctxOf s j := rfl
@[simp] theorem ctxOf_modPins (j : Nat) (f : Pins → Pins) : ctxOf (modPins s f) j = ctxOf s j := rfl
@[simp] theorem ctxOf_emit (j : Nat) (o : Out) : ctxOf (emit s o) j = ctxOf s j := rfl
@[simp] theorem ringOf_modPort (j : Nat) (m : Nat) (f : MemPort → MemPort) : ringOf (modPort s m f) j = ringOf s j := rfl
@[simp] theorem ringOf_modKid (j : Nat) (n : Nat) (f : Kid → Kid) : ringOf (modKid s n f) j = ringOf s j := rfl
@[simp] theorem ringOf_modTally (j : Nat) (h : Nat) (f : Tally → Tally) : ringOf (modTally s h f) j = ringOf s j := rfl
@[simp] theorem ringOf_modSlice (j : Nat) (n : Nat) (f : Slice → Slice) : ringOf (modSlice s n f) j = ringOf s j := rfl
@[simp] theorem ringOf_modEng (j : Nat) (e : Nat) (f : Engine → Engine) : ringOf (modEng s e f) j = ringOf s j := rfl
@[simp] theorem ringOf_modCl (j : Nat) (c : Nat) (f : Cluster → Cluster) : ringOf (modCl s c f) j = ringOf s j := rfl
@[simp] theorem ringOf_modCtx (j : Nat) (n : Nat) (f : Ctx → Ctx) : ringOf (modCtx s n f) j = ringOf s j := rfl
@[simp] theorem ringOf_modQueue (j : Nat) (q : Nat) (f : Queue → Queue) : ringOf (modQueue s q f) j = ringOf s j := rfl
@[simp] theorem ringOf_modHport (j : Nat) (p : Nat) (f : HPort → HPort) : ringOf (modHport s p f) j = ringOf s j := rfl
@[simp] theorem ringOf_modLinks (j : Nat) (f : Links → Links) : ringOf (modLinks s f) j = ringOf s j := rfl
@[simp] theorem ringOf_modHk (j : Nat) (p : Nat) (f : HostKeys → HostKeys) : ringOf (modHk s p f) j = ringOf s j := rfl
@[simp] theorem ringOf_modKsSlice (j : Nat) (n : Nat) (f : KSlice → KSlice) : ringOf (modKsSlice s n f) j = ringOf s j := rfl
@[simp] theorem ringOf_modProc (j : Nat) (k : Nat) (f : FwProc → FwProc) : ringOf (modProc s k f) j = ringOf s j := rfl
@[simp] theorem ringOf_modFcCopy (j : Nat) (k : Nat) (f : FcCopy → FcCopy) : ringOf (modFcCopy s k f) j = ringOf s j := rfl
@[simp] theorem ringOf_modCpCopy (j : Nat) (k : Nat) (f : CpCopy → CpCopy) : ringOf (modCpCopy s k f) j = ringOf s j := rfl
@[simp] theorem ringOf_modBead (j : Nat) (b : Nat) (f : Bead → Bead) : ringOf (modBead s b f) j = ringOf s j := rfl
@[simp] theorem ringOf_modCk (j : Nat) (f : Ck → Ck) : ringOf (modCk s f) j = ringOf s j := rfl
@[simp] theorem ringOf_modPins (j : Nat) (f : Pins → Pins) : ringOf (modPins s f) j = ringOf s j := rfl
@[simp] theorem ringOf_emit (j : Nat) (o : Out) : ringOf (emit s o) j = ringOf s j := rfl
@[simp] theorem hportOf_modPort (j : Nat) (m : Nat) (f : MemPort → MemPort) : hportOf (modPort s m f) j = hportOf s j := rfl
@[simp] theorem hportOf_modKid (j : Nat) (n : Nat) (f : Kid → Kid) : hportOf (modKid s n f) j = hportOf s j := rfl
@[simp] theorem hportOf_modTally (j : Nat) (h : Nat) (f : Tally → Tally) : hportOf (modTally s h f) j = hportOf s j := rfl
@[simp] theorem hportOf_modSlice (j : Nat) (n : Nat) (f : Slice → Slice) : hportOf (modSlice s n f) j = hportOf s j := rfl
@[simp] theorem hportOf_modEng (j : Nat) (e : Nat) (f : Engine → Engine) : hportOf (modEng s e f) j = hportOf s j := rfl
@[simp] theorem hportOf_modCl (j : Nat) (c : Nat) (f : Cluster → Cluster) : hportOf (modCl s c f) j = hportOf s j := rfl
@[simp] theorem hportOf_modCtx (j : Nat) (n : Nat) (f : Ctx → Ctx) : hportOf (modCtx s n f) j = hportOf s j := rfl
@[simp] theorem hportOf_modQueue (j : Nat) (q : Nat) (f : Queue → Queue) : hportOf (modQueue s q f) j = hportOf s j := rfl
@[simp] theorem hportOf_modRing (j : Nat) (p : Nat) (f : PortRing → PortRing) : hportOf (modRing s p f) j = hportOf s j := rfl
@[simp] theorem hportOf_modLinks (j : Nat) (f : Links → Links) : hportOf (modLinks s f) j = hportOf s j := rfl
@[simp] theorem hportOf_modHk (j : Nat) (p : Nat) (f : HostKeys → HostKeys) : hportOf (modHk s p f) j = hportOf s j := rfl
@[simp] theorem hportOf_modKsSlice (j : Nat) (n : Nat) (f : KSlice → KSlice) : hportOf (modKsSlice s n f) j = hportOf s j := rfl
@[simp] theorem hportOf_modProc (j : Nat) (k : Nat) (f : FwProc → FwProc) : hportOf (modProc s k f) j = hportOf s j := rfl
@[simp] theorem hportOf_modFcCopy (j : Nat) (k : Nat) (f : FcCopy → FcCopy) : hportOf (modFcCopy s k f) j = hportOf s j := rfl
@[simp] theorem hportOf_modCpCopy (j : Nat) (k : Nat) (f : CpCopy → CpCopy) : hportOf (modCpCopy s k f) j = hportOf s j := rfl
@[simp] theorem hportOf_modBead (j : Nat) (b : Nat) (f : Bead → Bead) : hportOf (modBead s b f) j = hportOf s j := rfl
@[simp] theorem hportOf_modCk (j : Nat) (f : Ck → Ck) : hportOf (modCk s f) j = hportOf s j := rfl
@[simp] theorem hportOf_modPins (j : Nat) (f : Pins → Pins) : hportOf (modPins s f) j = hportOf s j := rfl
@[simp] theorem hportOf_emit (j : Nat) (o : Out) : hportOf (emit s o) j = hportOf s j := rfl
@[simp] theorem hkOf_modPort (j : Nat) (m : Nat) (f : MemPort → MemPort) : hkOf (modPort s m f) j = hkOf s j := rfl
@[simp] theorem hkOf_modKid (j : Nat) (n : Nat) (f : Kid → Kid) : hkOf (modKid s n f) j = hkOf s j := rfl
@[simp] theorem hkOf_modTally (j : Nat) (h : Nat) (f : Tally → Tally) : hkOf (modTally s h f) j = hkOf s j := rfl
@[simp] theorem hkOf_modSlice (j : Nat) (n : Nat) (f : Slice → Slice) : hkOf (modSlice s n f) j = hkOf s j := rfl
@[simp] theorem hkOf_modEng (j : Nat) (e : Nat) (f : Engine → Engine) : hkOf (modEng s e f) j = hkOf s j := rfl
@[simp] theorem hkOf_modCl (j : Nat) (c : Nat) (f : Cluster → Cluster) : hkOf (modCl s c f) j = hkOf s j := rfl
@[simp] theorem hkOf_modCtx (j : Nat) (n : Nat) (f : Ctx → Ctx) : hkOf (modCtx s n f) j = hkOf s j := rfl
@[simp] theorem hkOf_modQueue (j : Nat) (q : Nat) (f : Queue → Queue) : hkOf (modQueue s q f) j = hkOf s j := rfl
@[simp] theorem hkOf_modRing (j : Nat) (p : Nat) (f : PortRing → PortRing) : hkOf (modRing s p f) j = hkOf s j := rfl
@[simp] theorem hkOf_modHport (j : Nat) (p : Nat) (f : HPort → HPort) : hkOf (modHport s p f) j = hkOf s j := rfl
@[simp] theorem hkOf_modLinks (j : Nat) (f : Links → Links) : hkOf (modLinks s f) j = hkOf s j := rfl
@[simp] theorem hkOf_modProc (j : Nat) (k : Nat) (f : FwProc → FwProc) : hkOf (modProc s k f) j = hkOf s j := rfl
@[simp] theorem hkOf_modFcCopy (j : Nat) (k : Nat) (f : FcCopy → FcCopy) : hkOf (modFcCopy s k f) j = hkOf s j := rfl
@[simp] theorem hkOf_modCpCopy (j : Nat) (k : Nat) (f : CpCopy → CpCopy) : hkOf (modCpCopy s k f) j = hkOf s j := rfl
@[simp] theorem hkOf_modBead (j : Nat) (b : Nat) (f : Bead → Bead) : hkOf (modBead s b f) j = hkOf s j := rfl
@[simp] theorem hkOf_modCk (j : Nat) (f : Ck → Ck) : hkOf (modCk s f) j = hkOf s j := rfl
@[simp] theorem hkOf_modPins (j : Nat) (f : Pins → Pins) : hkOf (modPins s f) j = hkOf s j := rfl
@[simp] theorem hkOf_emit (j : Nat) (o : Out) : hkOf (emit s o) j = hkOf s j := rfl
@[simp] theorem procOf_modPort (j : Nat) (m : Nat) (f : MemPort → MemPort) : procOf (modPort s m f) j = procOf s j := rfl
@[simp] theorem procOf_modKid (j : Nat) (n : Nat) (f : Kid → Kid) : procOf (modKid s n f) j = procOf s j := rfl
@[simp] theorem procOf_modTally (j : Nat) (h : Nat) (f : Tally → Tally) : procOf (modTally s h f) j = procOf s j := rfl
@[simp] theorem procOf_modSlice (j : Nat) (n : Nat) (f : Slice → Slice) : procOf (modSlice s n f) j = procOf s j := rfl
@[simp] theorem procOf_modEng (j : Nat) (e : Nat) (f : Engine → Engine) : procOf (modEng s e f) j = procOf s j := rfl
@[simp] theorem procOf_modCl (j : Nat) (c : Nat) (f : Cluster → Cluster) : procOf (modCl s c f) j = procOf s j := rfl
@[simp] theorem procOf_modCtx (j : Nat) (n : Nat) (f : Ctx → Ctx) : procOf (modCtx s n f) j = procOf s j := rfl
@[simp] theorem procOf_modQueue (j : Nat) (q : Nat) (f : Queue → Queue) : procOf (modQueue s q f) j = procOf s j := rfl
@[simp] theorem procOf_modRing (j : Nat) (p : Nat) (f : PortRing → PortRing) : procOf (modRing s p f) j = procOf s j := rfl
@[simp] theorem procOf_modHport (j : Nat) (p : Nat) (f : HPort → HPort) : procOf (modHport s p f) j = procOf s j := rfl
@[simp] theorem procOf_modLinks (j : Nat) (f : Links → Links) : procOf (modLinks s f) j = procOf s j := rfl
@[simp] theorem procOf_modHk (j : Nat) (p : Nat) (f : HostKeys → HostKeys) : procOf (modHk s p f) j = procOf s j := rfl
@[simp] theorem procOf_modKsSlice (j : Nat) (n : Nat) (f : KSlice → KSlice) : procOf (modKsSlice s n f) j = procOf s j := rfl
@[simp] theorem procOf_modFcCopy (j : Nat) (k : Nat) (f : FcCopy → FcCopy) : procOf (modFcCopy s k f) j = procOf s j := rfl
@[simp] theorem procOf_modCpCopy (j : Nat) (k : Nat) (f : CpCopy → CpCopy) : procOf (modCpCopy s k f) j = procOf s j := rfl
@[simp] theorem procOf_modBead (j : Nat) (b : Nat) (f : Bead → Bead) : procOf (modBead s b f) j = procOf s j := rfl
@[simp] theorem procOf_modCk (j : Nat) (f : Ck → Ck) : procOf (modCk s f) j = procOf s j := rfl
@[simp] theorem procOf_modPins (j : Nat) (f : Pins → Pins) : procOf (modPins s f) j = procOf s j := rfl
@[simp] theorem procOf_emit (j : Nat) (o : Out) : procOf (emit s o) j = procOf s j := rfl
@[simp] theorem fcCopyOf_modPort (j : Nat) (m : Nat) (f : MemPort → MemPort) : fcCopyOf (modPort s m f) j = fcCopyOf s j := rfl
@[simp] theorem fcCopyOf_modKid (j : Nat) (n : Nat) (f : Kid → Kid) : fcCopyOf (modKid s n f) j = fcCopyOf s j := rfl
@[simp] theorem fcCopyOf_modTally (j : Nat) (h : Nat) (f : Tally → Tally) : fcCopyOf (modTally s h f) j = fcCopyOf s j := rfl
@[simp] theorem fcCopyOf_modSlice (j : Nat) (n : Nat) (f : Slice → Slice) : fcCopyOf (modSlice s n f) j = fcCopyOf s j := rfl
@[simp] theorem fcCopyOf_modEng (j : Nat) (e : Nat) (f : Engine → Engine) : fcCopyOf (modEng s e f) j = fcCopyOf s j := rfl
@[simp] theorem fcCopyOf_modCl (j : Nat) (c : Nat) (f : Cluster → Cluster) : fcCopyOf (modCl s c f) j = fcCopyOf s j := rfl
@[simp] theorem fcCopyOf_modCtx (j : Nat) (n : Nat) (f : Ctx → Ctx) : fcCopyOf (modCtx s n f) j = fcCopyOf s j := rfl
@[simp] theorem fcCopyOf_modQueue (j : Nat) (q : Nat) (f : Queue → Queue) : fcCopyOf (modQueue s q f) j = fcCopyOf s j := rfl
@[simp] theorem fcCopyOf_modRing (j : Nat) (p : Nat) (f : PortRing → PortRing) : fcCopyOf (modRing s p f) j = fcCopyOf s j := rfl
@[simp] theorem fcCopyOf_modHport (j : Nat) (p : Nat) (f : HPort → HPort) : fcCopyOf (modHport s p f) j = fcCopyOf s j := rfl
@[simp] theorem fcCopyOf_modLinks (j : Nat) (f : Links → Links) : fcCopyOf (modLinks s f) j = fcCopyOf s j := rfl
@[simp] theorem fcCopyOf_modHk (j : Nat) (p : Nat) (f : HostKeys → HostKeys) : fcCopyOf (modHk s p f) j = fcCopyOf s j := rfl
@[simp] theorem fcCopyOf_modKsSlice (j : Nat) (n : Nat) (f : KSlice → KSlice) : fcCopyOf (modKsSlice s n f) j = fcCopyOf s j := rfl
@[simp] theorem fcCopyOf_modProc (j : Nat) (k : Nat) (f : FwProc → FwProc) : fcCopyOf (modProc s k f) j = fcCopyOf s j := rfl
@[simp] theorem fcCopyOf_modCpCopy (j : Nat) (k : Nat) (f : CpCopy → CpCopy) : fcCopyOf (modCpCopy s k f) j = fcCopyOf s j := rfl
@[simp] theorem fcCopyOf_modBead (j : Nat) (b : Nat) (f : Bead → Bead) : fcCopyOf (modBead s b f) j = fcCopyOf s j := rfl
@[simp] theorem fcCopyOf_modCk (j : Nat) (f : Ck → Ck) : fcCopyOf (modCk s f) j = fcCopyOf s j := rfl
@[simp] theorem fcCopyOf_modPins (j : Nat) (f : Pins → Pins) : fcCopyOf (modPins s f) j = fcCopyOf s j := rfl
@[simp] theorem fcCopyOf_emit (j : Nat) (o : Out) : fcCopyOf (emit s o) j = fcCopyOf s j := rfl
@[simp] theorem cpCopyOf_modPort (j : Nat) (m : Nat) (f : MemPort → MemPort) : cpCopyOf (modPort s m f) j = cpCopyOf s j := rfl
@[simp] theorem cpCopyOf_modKid (j : Nat) (n : Nat) (f : Kid → Kid) : cpCopyOf (modKid s n f) j = cpCopyOf s j := rfl
@[simp] theorem cpCopyOf_modTally (j : Nat) (h : Nat) (f : Tally → Tally) : cpCopyOf (modTally s h f) j = cpCopyOf s j := rfl
@[simp] theorem cpCopyOf_modSlice (j : Nat) (n : Nat) (f : Slice → Slice) : cpCopyOf (modSlice s n f) j = cpCopyOf s j := rfl
@[simp] theorem cpCopyOf_modEng (j : Nat) (e : Nat) (f : Engine → Engine) : cpCopyOf (modEng s e f) j = cpCopyOf s j := rfl
@[simp] theorem cpCopyOf_modCl (j : Nat) (c : Nat) (f : Cluster → Cluster) : cpCopyOf (modCl s c f) j = cpCopyOf s j := rfl
@[simp] theorem cpCopyOf_modCtx (j : Nat) (n : Nat) (f : Ctx → Ctx) : cpCopyOf (modCtx s n f) j = cpCopyOf s j := rfl
@[simp] theorem cpCopyOf_modQueue (j : Nat) (q : Nat) (f : Queue → Queue) : cpCopyOf (modQueue s q f) j = cpCopyOf s j := rfl
@[simp] theorem cpCopyOf_modRing (j : Nat) (p : Nat) (f : PortRing → PortRing) : cpCopyOf (modRing s p f) j = cpCopyOf s j := rfl
@[simp] theorem cpCopyOf_modHport (j : Nat) (p : Nat) (f : HPort → HPort) : cpCopyOf (modHport s p f) j = cpCopyOf s j := rfl
@[simp] theorem cpCopyOf_modLinks (j : Nat) (f : Links → Links) : cpCopyOf (modLinks s f) j = cpCopyOf s j := rfl
@[simp] theorem cpCopyOf_modHk (j : Nat) (p : Nat) (f : HostKeys → HostKeys) : cpCopyOf (modHk s p f) j = cpCopyOf s j := rfl
@[simp] theorem cpCopyOf_modKsSlice (j : Nat) (n : Nat) (f : KSlice → KSlice) : cpCopyOf (modKsSlice s n f) j = cpCopyOf s j := rfl
@[simp] theorem cpCopyOf_modProc (j : Nat) (k : Nat) (f : FwProc → FwProc) : cpCopyOf (modProc s k f) j = cpCopyOf s j := rfl
@[simp] theorem cpCopyOf_modFcCopy (j : Nat) (k : Nat) (f : FcCopy → FcCopy) : cpCopyOf (modFcCopy s k f) j = cpCopyOf s j := rfl
@[simp] theorem cpCopyOf_modBead (j : Nat) (b : Nat) (f : Bead → Bead) : cpCopyOf (modBead s b f) j = cpCopyOf s j := rfl
@[simp] theorem cpCopyOf_modCk (j : Nat) (f : Ck → Ck) : cpCopyOf (modCk s f) j = cpCopyOf s j := rfl
@[simp] theorem cpCopyOf_modPins (j : Nat) (f : Pins → Pins) : cpCopyOf (modPins s f) j = cpCopyOf s j := rfl
@[simp] theorem cpCopyOf_emit (j : Nat) (o : Out) : cpCopyOf (emit s o) j = cpCopyOf s j := rfl
@[simp] theorem beadOf_modPort (j : Nat) (m : Nat) (f : MemPort → MemPort) : beadOf (modPort s m f) j = beadOf s j := rfl
@[simp] theorem beadOf_modKid (j : Nat) (n : Nat) (f : Kid → Kid) : beadOf (modKid s n f) j = beadOf s j := rfl
@[simp] theorem beadOf_modTally (j : Nat) (h : Nat) (f : Tally → Tally) : beadOf (modTally s h f) j = beadOf s j := rfl
@[simp] theorem beadOf_modSlice (j : Nat) (n : Nat) (f : Slice → Slice) : beadOf (modSlice s n f) j = beadOf s j := rfl
@[simp] theorem beadOf_modEng (j : Nat) (e : Nat) (f : Engine → Engine) : beadOf (modEng s e f) j = beadOf s j := rfl
@[simp] theorem beadOf_modCl (j : Nat) (c : Nat) (f : Cluster → Cluster) : beadOf (modCl s c f) j = beadOf s j := rfl
@[simp] theorem beadOf_modCtx (j : Nat) (n : Nat) (f : Ctx → Ctx) : beadOf (modCtx s n f) j = beadOf s j := rfl
@[simp] theorem beadOf_modQueue (j : Nat) (q : Nat) (f : Queue → Queue) : beadOf (modQueue s q f) j = beadOf s j := rfl
@[simp] theorem beadOf_modRing (j : Nat) (p : Nat) (f : PortRing → PortRing) : beadOf (modRing s p f) j = beadOf s j := rfl
@[simp] theorem beadOf_modHport (j : Nat) (p : Nat) (f : HPort → HPort) : beadOf (modHport s p f) j = beadOf s j := rfl
@[simp] theorem beadOf_modLinks (j : Nat) (f : Links → Links) : beadOf (modLinks s f) j = beadOf s j := rfl
@[simp] theorem beadOf_modHk (j : Nat) (p : Nat) (f : HostKeys → HostKeys) : beadOf (modHk s p f) j = beadOf s j := rfl
@[simp] theorem beadOf_modKsSlice (j : Nat) (n : Nat) (f : KSlice → KSlice) : beadOf (modKsSlice s n f) j = beadOf s j := rfl
@[simp] theorem beadOf_modProc (j : Nat) (k : Nat) (f : FwProc → FwProc) : beadOf (modProc s k f) j = beadOf s j := rfl
@[simp] theorem beadOf_modFcCopy (j : Nat) (k : Nat) (f : FcCopy → FcCopy) : beadOf (modFcCopy s k f) j = beadOf s j := rfl
@[simp] theorem beadOf_modCpCopy (j : Nat) (k : Nat) (f : CpCopy → CpCopy) : beadOf (modCpCopy s k f) j = beadOf s j := rfl
@[simp] theorem beadOf_modCk (j : Nat) (f : Ck → Ck) : beadOf (modCk s f) j = beadOf s j := rfl
@[simp] theorem beadOf_modPins (j : Nat) (f : Pins → Pins) : beadOf (modPins s f) j = beadOf s j := rfl
@[simp] theorem beadOf_emit (j : Nat) (o : Out) : beadOf (emit s o) j = beadOf s j := rfl

end Sys2Proof.Machine
end

