-- ==== Sys2Proof/Laws/Issue.lean ====
section
/-! SUPPORT. What the shared operations answer: a settled state, a guarded effect, and an instruction in issue. -/
namespace Sys2Proof.Machine

/-- A state in which no access waits is the answer. -/
theorem settle_clear {t : State} (h : clear t = true) : settle t = .next t := by
  have h : t.sv.stuck = false := by simpa [clear] using h
  simp [settle, h]

/-- A settled next state is that state. -/
theorem settle_next {t u : State} (h : settle t = .next u) : u = t ∧ clear t = true := by
  unfold settle at h
  split at h
  · cases h
  · cases h; simp_all [clear]

/-- An effect whose event can occur. -/
theorem guardRes_clear {s : State} {c : Bool} {t : State} (hc : c = true) (h : clear t = true) : guardRes s c t = .next t := by
  rw [guardRes, if_pos hc, settle_clear h]

/-- The same at a unit that is present. -/
theorem unitRes_clear {s : State} {b c : Bool} {t : State} (hb : b = true) (hc : c = true) (h : clear t = true) :
    unitRes b s c t = .next t := by
  rw [unitRes, if_pos hb, guardRes_clear hc h]

/-- An event whose condition does not hold does not occur. -/
theorem guardRes_idle {s : State} {c : Bool} {t : State} (hc : c = false) : guardRes s c t = .next s := by
  rw [guardRes, if_neg (by simp [hc])]

/-- An access that can start, at a unit that is present. -/
theorem accessRes_clear {b c : Bool} {t : State} (hb : b = true) (hc : c = true) (h : clear t = true) : accessRes b c t = .next t := by
  rw [accessRes, if_pos hb, if_pos hc, settle_clear h]

/-- An effect of a command at a unit that is present. -/
theorem hereRes_clear {b : Bool} {t : State} (hb : b = true) (h : clear t = true) : hereRes b t = .next t := by
  rw [hereRes, if_pos hb, settle_clear h]

/-- How an instruction ends once its body has run (R175, R179). -/
def IRes.ends (u : State) (e : Nat) : IRes → Res
  | .ok t => settle (setPc t e ((engOf u e).pc + 16))
  | .jump t pc => settle (setPc t e pc)
  | .fault t code sub addr async => settle (engFault t e code sub addr async)
  | .stall => settle u

/-- What an instruction answers where its engine fetches its legal frame (R151, R174, R175). -/
theorem issuesHere_issue {o : OpInfo} {extra : Bool} {e : Nat} {f : Frame} {body : State → Engine → IRes} {s : State}
    (h : issuesHere o extra e f s = true) (hw : (predTrue (engOf (fetched e s) e) f && waitsForResult (engOf (fetched e s) e) f o.slots) = false)
    (hp : (o.kind = .boundaryOnly ∨ o.kind = .closing) → f.pneg = false ∧ f.preg = 0) :
    issue e f o extra body s =
      (let u := atIssue o e s
       let g := engOf u e
       if !(predTrue g f) then settle (setPc u e (g.pc + 16))
       else if (o.kind = .boundaryOnly && g.tileOpen) || (o.kind = .closing && !g.tileOpen) then settle (engFault u e 4 0 0 false)
       else IRes.ends u e (body u g)) := by
  simp only [issuesHere, Bool.and_eq_true, Option.isNone_iff_eq_none] at h
  obtain ⟨⟨⟨⟨⟨⟨⟨h1, h2⟩, h3⟩, h4⟩, h5⟩, h6⟩, h7⟩, h8⟩ := h
  have hk : ((decide (o.kind = .boundaryOnly) || decide (o.kind = .closing)) && (f.pneg || decide (f.preg ≠ 0))) = false := by
    rcases Decidable.em (o.kind = .boundaryOnly ∨ o.kind = .closing) with q | q
    · simp [hp q]
    · have : (decide (o.kind = .boundaryOnly) || decide (o.kind = .closing)) = false := by simpa using q
      rw [this]; rfl
  rcases hf : fetch s e with ⟨s1, r⟩
  rw [hf] at h4
  dsimp only at h4
  subst h4
  unfold issue
  rw [hf]
  simp only [atIssue, fetched, hf] at hw ⊢
  simp only [h1, h2, h3, h6, h7, h8, hk, hw, Bool.and_self, Bool.not_true, Bool.false_eq_true, if_false]
  rfl

/-- Where the body runs, the answer is what the body's end gives. -/
theorem issues_issue {o : OpInfo} {extra : Bool} {e : Nat} {f : Frame} {body : State → Engine → IRes} {s : State}
    (h : issues o extra e f s = true) : issue e f o extra body s = IRes.ends (atIssue o e s) e (body (atIssue o e s) (engOf (atIssue o e s) e)) := by
  simp only [issues, Bool.and_eq_true] at h
  obtain ⟨⟨⟨⟨⟨h1, h2⟩, h3⟩, h4⟩, h5⟩, h6⟩ := h
  rw [issuesHere_issue h1]
  · cases hk : o.kind <;> simp_all
  · simp_all
  · intro hk; rcases hk with hk | hk <;> simp_all

@[simp] theorem clear_modEng (s : State) (e : Nat) (f : Engine → Engine) : clear (modEng s e f) = clear s := rfl
@[simp] theorem clear_setPc (s : State) (e pc : Nat) : clear (setPc s e pc) = clear s := rfl

/-- A false predicate only moves PC. -/
theorem skips_issue {o : OpInfo} {extra : Bool} {e : Nat} {f : Frame} {body : State → Engine → IRes} {s : State}
    (h : skips o extra e f s = true) : issue e f o extra body s = settle (setPc (atIssue o e s) e ((engOf (atIssue o e s) e).pc + 16)) := by
  simp only [skips, Bool.and_eq_true] at h
  obtain ⟨⟨⟨h1, h2⟩, h3⟩, h4⟩ := h
  have hp : (engOf (atIssue o e s) e).p = (engOf (fetched e s) e).p := by
    unfold atIssue; split
    · unfold openTile; rw [engOf_modEng]; split <;> rfl
    · rfl
  have hpt : predTrue (engOf (fetched e s) e) f = false := by
    have : predTrue (engOf (atIssue o e s) e) f = predTrue (engOf (fetched e s) e) f := by
      unfold predTrue pGet; rw [hp]
    rw [← this]; simpa using h4
  rw [issuesHere_issue h1]
  · simp_all
  · simp [hpt]
  · intro hk; rcases hk with hk | hk <;> simp_all
end Sys2Proof.Machine
end

