-- ==== Sys2Proof/Laws/Keep.lean ====
section
/-! SUPPORT. The vocabulary of the lemmas that an operation keeps the fixed part of the state. -/
namespace Sys2Proof.Machine

/-- As `Keeps`, for an instruction's body. -/
def IKeeps (s : State) : IRes → Prop
  | .ok t => t.fixed = s.fixed
  | .jump t _ => t.fixed = s.fixed
  | .fault t _ _ _ _ => t.fixed = s.fixed
  | .stall => True

/-- As `Keeps`, for a packet's body. -/
def PKeeps (s : State) : PRes → Prop
  | .done t _ => t.fixed = s.fixed
  | .fail t _ => t.fixed = s.fixed
  | .hold t => t.fixed = s.fixed
  | .pass t => t.fixed = s.fixed
  | .stall t => t.fixed = s.fixed

@[simp] theorem fixed_eta (s : State) : (s.cfg, s.pending) = s.fixed := rfl

@[simp] theorem fixed_mk (c : Cfg) (x0 x1 x2 x3 x4 x5 x6 x7 x8 x9 x10 x11 x12 x13 x14 x15 x16 x17 x18 x19 x20 x21 x22 x23 x24 x25 x26 x27
    x28 x29 x30 x31 x32 x33 x34) (p : List Instr) :
    (State.mk c x0 x1 x2 x3 x4 x5 x6 x7 x8 x9 x10 x11 x12 x13 x14 x15 x16 x17 x18 x19 x20 x21 x22 x23 x24 x25 x26 x27 x28 x29 x30 x31 x32
      x33 x34 p).fixed = (c, p) := rfl

@[simp] theorem keeps_next (s t : State) : Keeps s (.next t) ↔ t.fixed = s.fixed := Iff.rfl
@[simp] theorem keeps_fault (s : State) (f : Fault) : Keeps s (.fault f) := True.intro
@[simp] theorem keeps_refused (s : State) (r : Refusal) : Keeps s (.refused r) := True.intro

@[simp] theorem ikeeps_ok (s t : State) : IKeeps s (.ok t) ↔ t.fixed = s.fixed := Iff.rfl
@[simp] theorem ikeeps_jump (s t : State) (p : Nat) : IKeeps s (.jump t p) ↔ t.fixed = s.fixed := Iff.rfl
@[simp] theorem ikeeps_fault (s t : State) (a b c : Nat) (d : Bool) : IKeeps s (.fault t a b c d) ↔ t.fixed = s.fixed := Iff.rfl
@[simp] theorem ikeeps_stall (s : State) : IKeeps s .stall := True.intro

@[simp] theorem pkeeps_done (s t : State) (r : Nat) : PKeeps s (.done t r) ↔ t.fixed = s.fixed := Iff.rfl
@[simp] theorem pkeeps_fail (s t : State) (r : Nat) : PKeeps s (.fail t r) ↔ t.fixed = s.fixed := Iff.rfl
@[simp] theorem pkeeps_hold (s t : State) : PKeeps s (.hold t) ↔ t.fixed = s.fixed := Iff.rfl
@[simp] theorem pkeeps_pass (s t : State) : PKeeps s (.pass t) ↔ t.fixed = s.fixed := Iff.rfl
@[simp] theorem pkeeps_stall (s t : State) : PKeeps s (.stall t) ↔ t.fixed = s.fixed := Iff.rfl

@[simp] theorem keeps_settle (s t : State) : Keeps s (settle t) ↔ (t.sv.stuck = false → t.fixed = s.fixed) := by
  unfold settle; cases h : t.sv.stuck <;> simp
@[simp] theorem keeps_guardRes (s u t : State) (c : Bool) :
    Keeps s (guardRes u c t) ↔ (c = false → u.fixed = s.fixed) ∧ (c = true → t.sv.stuck = false → t.fixed = s.fixed) := by
  cases c <;> simp [guardRes]
@[simp] theorem keeps_unitRes (s u t : State) (b c : Bool) :
    Keeps s (unitRes b u c t) ↔ b = true → (c = false → u.fixed = s.fixed) ∧ (c = true → t.sv.stuck = false → t.fixed = s.fixed) := by
  cases b <;> simp [unitRes]
@[simp] theorem keeps_accessRes (s t : State) (b c : Bool) :
    Keeps s (accessRes b c t) ↔ (b = true → c = true → t.sv.stuck = false → t.fixed = s.fixed) := by
  cases b <;> cases c <;> simp [accessRes]
@[simp] theorem keeps_hereRes (s t : State) (b : Bool) :
    Keeps s (hereRes b t) ↔ (b = true → t.sv.stuck = false → t.fixed = s.fixed) := by
  cases b <;> simp [hereRes]

theorem Keeps.of {s0 s : State} {r : Res} (h : s.fixed = s0.fixed) (k : Keeps s r) : Keeps s0 r := by
  revert k; cases r <;> simp_all
theorem IKeeps.of {s0 s : State} {r : IRes} (h : s.fixed = s0.fixed) (k : IKeeps s r) : IKeeps s0 r := by
  revert k; cases r <;> simp_all
theorem PKeeps.of {s0 s : State} {r : PRes} (h : s.fixed = s0.fixed) (k : PKeeps s r) : PKeeps s0 r := by
  revert k; cases r <;> simp_all

theorem IKeeps.ok_eq {s t : State} {r : IRes} (k : IKeeps s r) (e : r = .ok t) : t.fixed = s.fixed := by subst e; exact k
theorem PKeeps.hold_eq {s t : State} {r : PRes} (k : PKeeps s r) (e : r = .hold t) : t.fixed = s.fixed := by subst e; exact k

@[simp] theorem fixed_ite (c : Prop) [Decidable c] (s t : State) : (if c then s else t).fixed = if c then s.fixed else t.fixed :=
  apply_ite State.fixed c s t

theorem fixed_dite_fst {β : Type} (c : Prop) [Decidable c] (s t : State × β) :
    (if c then s else t).1 = if c then s.1 else t.1 := apply_ite Prod.fst c s t

theorem eq_pair {β γ : Type} (p : β × γ) (a : β) (b : γ) : p = (a, b) ↔ a = p.1 ∧ b = p.2 := by
  constructor
  · rintro rfl; exact ⟨rfl, rfl⟩
  · rintro ⟨rfl, rfl⟩; rfl

/-- A fold of steps that each keep the fixed part keeps it. -/
theorem foldl_fixed {β : Type} {f : State → β → State} {s s0 : State} {l : List β} (h : ∀ t a, (f t a).fixed = t.fixed)
    (hs : s.fixed = s0.fixed) : (l.foldl f s).fixed = s0.fixed := by
  induction l generalizing s with
  | nil => exact hs
  | cons a t ih => exact ih ((h s a).trans hs)

@[simp] theorem foldl_fixed_simp {β : Type} (f : State → β → State) (s : State) (l : List β) (h : ∀ t a, (f t a).fixed = t.fixed) :
    (l.foldl f s).fixed = s.fixed := foldl_fixed h rfl

/-- The same for a fold that carries a value beside the state. -/
theorem foldl_fst_fixed {β γ : Type} {f : State × γ → β → State × γ} {p : State × γ} {l : List β}
    (h : ∀ a b, (f a b).1.fixed = a.1.fixed) : (l.foldl f p).1.fixed = p.1.fixed := by
  induction l generalizing p with
  | nil => rfl
  | cons a t ih => exact (ih (p := f p a)).trans (h p a)

@[simp] theorem foldl_fst_fixed_simp {β γ : Type} (f : State × γ → β → State × γ) (p : State × γ) (l : List β)
    (h : ∀ a b, (f a b).1.fixed = a.1.fixed) : (l.foldl f p).1.fixed = p.1.fixed := foldl_fst_fixed h

/-- A fold whose steps keep the fixed part, taken apart by a pattern. -/
theorem foldl_pair_fixed {β γ : Type} {f : State × γ → β → State × γ} {p : State × γ} {l : List β} {s : State} {c : γ}
    (e : l.foldl f p = (s, c)) (h : ∀ a b, (f a b).1.fixed = a.1.fixed) : s.fixed = p.1.fixed := by
  have := foldl_fst_fixed (p := p) (l := l) h
  rwa [e] at this

@[simp] theorem elim_fixed {β : Type} (o : Option β) (s : State) (f : β → State) (h : ∀ b, (f b).fixed = s.fixed) :
    (o.elim s f).fixed = s.fixed := by cases o <;> simp [h]

end Sys2Proof.Machine
end

