-- ==== Sys2Proof/Laws/KeepOps.lean ====
section
/-! SUPPORT. Each operation of Machine/Ops.lean keeps the fixed part of the state: the build parameters and the queue. -/
set_option linter.unusedSimpArgs false
set_option linter.unusedTactic false
set_option linter.unreachableTactic false
namespace Sys2Proof.Machine

@[simp] theorem raise_fixed (s : State) (src : Nat) (inst : Nat) (detail : Nat) (slice : Option Nat) (inj : Bool) : (raise s src inst detail slice inj).fixed = s.fixed := by
  unfold raise; simp

@[simp] theorem draw_fixed (s : State) (w : Nat) : (draw s w).1.fixed = s.fixed := by
  unfold draw; simp

@[simp] theorem drawBool_fixed (s : State) : (drawBool s).1.fixed = s.fixed := by
  unfold drawBool; simp

@[simp] theorem emit_fixed (s : State) (o : Out) : (emit s o).fixed = s.fixed := by
  unfold emit; simp

@[simp] theorem modPort_fixed (s : State) (m : Nat) (f : MemPort → MemPort) : (modPort s m f).fixed = s.fixed := by
  unfold modPort; simp

@[simp] theorem modKid_fixed (s : State) (n : Nat) (f : Kid → Kid) : (modKid s n f).fixed = s.fixed := by
  unfold modKid; simp

@[simp] theorem modTally_fixed (s : State) (h : Nat) (f : Tally → Tally) : (modTally s h f).fixed = s.fixed := by
  unfold modTally; simp

@[simp] theorem modSlice_fixed (s : State) (n : Nat) (f : Slice → Slice) : (modSlice s n f).fixed = s.fixed := by
  unfold modSlice; simp

@[simp] theorem reportCount_fixed (s : State) (which : Nat) (o : Option Nat) : (reportCount s which o).fixed = s.fixed := by
  cases o <;> rfl

@[simp] theorem modBwMaster_fixed (s : State) (a : Attr) (f : BwMaster → BwMaster) : (modBwMaster s a f).fixed = s.fixed := by
  unfold modBwMaster; simp

@[simp] theorem bwCount_fixed (s : State) (a : Attr) (n : Nat) : (bwCount s a n).fixed = s.fixed := by
  unfold bwCount; simp

@[simp] theorem awaitTally_fixed (s : State) (h : Nat) : (awaitTally s h).fixed = s.fixed := by
  unfold awaitTally; simp

@[simp] theorem portSlot_fixed (s : State) (h : Nat) (port : Nat) : (portSlot s h port).fixed = s.fixed := by
  unfold portSlot; simp

@[simp] theorem modKsSlice_fixed (s : State) (n : Nat) (f : KSlice → KSlice) : (modKsSlice s n f).fixed = s.fixed := by
  unfold modKsSlice; simp

@[simp] theorem reportChanged_fixed (s : State) (n : Nat) : (reportChanged s n).fixed = s.fixed := by
  unfold reportChanged; simp

@[simp] theorem reportsChanged_fixed (s : State) : (reportsChanged s).fixed = s.fixed := by
  unfold reportsChanged; simp

@[simp] theorem pushErr_fixed (s : State) (ctx : Nat) (gen : Nat) (eng : Nat) (code : Nat) : (pushErr s ctx gen eng code).fixed = s.fixed := by
  unfold pushErr; simp

end Sys2Proof.Machine
end

