-- ==== Sys2Proof/Laws/KeepSelvage.lean ====
section
/-! SUPPORT. Each operation of Machine/Selvage.lean keeps the fixed part of the state: the build parameters and the queue. -/
set_option linter.unusedSimpArgs false
set_option linter.unusedTactic false
set_option linter.unreachableTactic false
namespace Sys2Proof.Machine

@[simp] theorem claimLine_fixed (s : State) (m : Nat) (sub : Nat) (phys : Nat) : (claimLine s m sub phys).fixed = s.fixed := by
  unfold claimLine; simp

@[simp] theorem putBeat_fixed (s : State) (m : Nat) (sub : Nat) (phys : Nat) (b : Beat) : (putBeat s m sub phys b).fixed = s.fixed := by
  unfold putBeat; simp

@[simp] theorem applyMed_fixed (s : State) (m : Nat) (sub : Nat) (med : Med) : (applyMed s m sub med).fixed = s.fixed := by
  unfold applyMed; simp

@[simp] theorem dueRetire_fixed (s : State) (m : Nat) (sub : Nat) (group : Nat) (sym : Nat) : (dueRetire s m sub group sym).fixed = s.fixed := by
  unfold dueRetire; simp

@[simp] theorem noteCorrected_fixed (s : State) (m : Nat) (sub : Nat) (phys : Nat) (sym : Nat) : (noteCorrected s m sub phys sym).fixed = s.fixed := by
  unfold noteCorrected; simp

@[simp] theorem noteUncorrectable_fixed (s : State) (m : Nat) (sub : Nat) (phys : Nat) : (noteUncorrectable s m sub phys).fixed = s.fixed := by
  unfold noteUncorrectable; simp

@[simp] theorem readStored_fixed (s : State) (m : Nat) (sub : Nat) (line : Nat) (isMeta : Bool) (errs : List Nat) : (readStored s m sub line isMeta errs).1.fixed = s.fixed := by
  simp only [readStored, apply_ite State.fixed]
  repeat' (first | (simp [eq_pair]; done) | intro _ | split)
  all_goals simp_all [eq_pair]

@[simp] theorem settleLine_fixed (s : State) (m : Nat) (sub : Nat) (phys : Nat) : (settleLine s m sub phys).fixed = s.fixed := by
  unfold settleLine; simp

@[simp] theorem writeLine_fixed (s : State) (m : Nat) (sub : Nat) (line : Nat) (attr : Attr) (b : Beat) : (writeLine s m sub line attr b).fixed = s.fixed := by
  unfold writeLine; simp

@[simp] theorem poisonLine_fixed (s : State) (m : Nat) (sub : Nat) (line : Nat) : (poisonLine s m sub line).fixed = s.fixed := by
  unfold poisonLine; simp

@[simp] theorem bumpRoot_fixed (s : State) (m : Nat) (sub : Nat) (n : Nat) : (bumpRoot s m sub n).fixed = s.fixed := by
  unfold bumpRoot; simp

@[simp] theorem treeFail_fixed (s : State) (m : Nat) (sub : Nat) (detail : Nat) (slice : Option Nat) : (treeFail s m sub detail slice).fixed = s.fixed := by
  unfold treeFail; simp

@[simp] theorem patchStored_fixed (s : State) (m sub addr n v fn keyid : Nat) : (patchStored s m sub addr n v fn keyid).fixed = s.fixed := by
  unfold patchStored
  have h := readStored_fixed s m sub (addr / 128) true []
  try dsimp only
  generalize readStored s m sub (addr / 128) true [] = y at h ⊢
  rcases y with ⟨t, _ | _ | _ | _ | _⟩ <;> simp_all

@[simp] theorem readStoredWord_fixed (s : State) (m : Nat) (sub : Nat) (addr : Nat) (errs : List Nat) : (readStoredWord s m sub addr errs).1.fixed = s.fixed := by
  simp only [readStoredWord, apply_ite State.fixed]
  repeat' (first | (simp [eq_pair]; done) | intro _ | split)
  all_goals simp_all [eq_pair]

@[simp] theorem nodePut_fixed (s : State) (m : Nat) (sub : Nat) (lvl : Nat) (i : Nat) (keyid : Nat) (n : Node) : (nodePut s m sub lvl i keyid n).fixed = s.fixed := by
  unfold nodePut; simp

@[simp] theorem readNode_fixed (s : State) (m sub lvl i major minor : Nat) (errs : List Nat) :
    (readNode s m sub lvl i major minor errs).1.fixed = s.fixed := by
  unfold readNode
  have h := readStored_fixed s m sub (nodeAddr s m lvl i / 128) true errs
  try dsimp only
  generalize readStored s m sub (nodeAddr s m lvl i / 128) true errs = y at h ⊢
  rcases y with ⟨t, r⟩
  have h2 := readStoredWord_fixed t m sub (nodeTagAddr t m lvl i) errs
  cases r
  all_goals dsimp only at h ⊢
  all_goals first
    | exact h
    | (generalize readStoredWord t m sub (nodeTagAddr t m lvl i) errs = z at h2 ⊢
       rcases z with ⟨u, w, x⟩
       cases w <;> simp_all)

@[simp] theorem retagChild_fixed (s : State) (m : Nat) (sub : Nat) (lvl : Nat) (ci : Nat) (oldMajor : Nat) (oldMinor : Nat) (major : Nat) (keyid : Nat) : (retagChild s m sub lvl ci oldMajor oldMinor major keyid).fixed = s.fixed := by
  unfold retagChild
  repeat' (first | (intro _) | (refine foldl_fixed ?_ ?_) | (simp [eq_pair]; done) | split | simp only [keeps_settle, keeps_guardRes, keeps_unitRes, keeps_hereRes, keeps_accessRes, keeps_next, keeps_fault, keeps_refused])
  all_goals simp_all [eq_pair]

@[simp] theorem retagChildren_fixed (s : State) (m : Nat) (sub : Nat) (lvl : Nat) (i : Nat) (n : Node) (major : Nat) (keyid : Nat) : (retagChildren s m sub lvl i n major keyid).fixed = s.fixed := by
  unfold retagChildren; simp

theorem bumpParent_fixed (get : Getter) (hg : ∀ t a b c, (get t a b c).1.fixed = t.fixed) (s : State) (m sub lvl i keyid : Nat) :
    (bumpParent get s m sub lvl i keyid).1.fixed = s.fixed := by
  unfold bumpParent
  repeat' (first | split | intro _ | refine foldl_fixed ?_ ?_ | simp only [keeps_settle, keeps_guardRes, keeps_unitRes, keeps_hereRes, keeps_accessRes, keeps_next, keeps_fault, keeps_refused])
  all_goals simp_all [eq_pair]

theorem writeBackNode_fixed (get : Getter) (hg : ∀ t a b c, (get t a b c).1.fixed = t.fixed) (s : State) (m sub lvl i keyid fn : Nat) (n : Node) :
    (writeBackNode get s m sub lvl i keyid fn n).fixed = s.fixed := by
  have h := bumpParent_fixed get hg s m sub lvl i keyid
  unfold writeBackNode
  split <;> simp_all

theorem writeBackHalf_fixed (get : Getter) (hg : ∀ t a b c, (get t a b c).1.fixed = t.fixed) (s : State) (m : Nat) (c : CLine) (half fn : Nat) :
    (writeBackHalf get s m c half fn).fixed = s.fixed := by
  have hw := fun l i n => writeBackNode_fixed get hg s m c.sub l i c.keyid fn n
  have hp := fun a n v => patchStored_fixed s m c.sub a n v fn c.keyid
  unfold writeBackHalf
  dsimp only
  generalize nodeAtAddr s m (128 * c.line + 64 * half) = r
  rcases r with _ | ⟨lvl, i⟩
  · exact hp _ _ _
  · exact hw _ _ _

theorem writeBackLine_fixed (get : Getter) (hg : ∀ t a b c, (get t a b c).1.fixed = t.fixed) (s : State) (m : Nat) (c : CLine) (fn : Nat) :
    (writeBackLine get s m c fn).fixed = s.fixed := by
  unfold writeBackLine
  try dsimp only
  repeat' split
  all_goals simp [writeBackHalf_fixed get hg]

@[simp] theorem cacheDrop_fixed (s : State) (m : Nat) (sub : Nat) (line : Nat) : (cacheDrop s m sub line).fixed = s.fixed := by
  unfold cacheDrop; simp

theorem makeRoom_fixed (get : Nat → Getter) (hg : ∀ k t a b c, (get k t a b c).1.fixed = t.fixed) (n : Nat) (s : State) (m sub line : Nat) :
    (makeRoom get n s m sub line).fixed = s.fixed := by
  induction n generalizing s with
  | zero => rfl
  | succ n ih =>
    unfold makeRoom
    split
    · rfl
    · rw [ih, writeBackLine_fixed _ (hg _)]; simp

theorem nodeGetInsert_fixed (m : Nat) (get : Nat → Getter) (hg : ∀ k t a b c, (get k t a b c).1.fixed = t.fixed) (keyid : Nat) (s : State) (sub addr half : Nat) (n : Node) :
    (nodeGet.insert m get keyid s sub addr half n).fixed = s.fixed := by
  unfold nodeGet.insert
  try dsimp only
  split <;> simp [makeRoom_fixed get hg]

theorem nodeGetFetch_fixed (errs : List Nat) (m : Nat) (get : Nat → Getter) (hg : ∀ k t a b c, (get k t a b c).1.fixed = t.fixed) (keyid : Nat) (s : State) (sub lvl i addr half : Nat) :
    (nodeGet.fetch errs m get keyid s sub lvl i addr half).1.fixed = s.fixed := by
  have hi := nodeGetInsert_fixed m get hg keyid
  unfold nodeGet.fetch
  generalize hp : (if lvl = 3 then _ else _ : State × Option (Nat × Nat)) = p
  have h1 : p.1.fixed = s.fixed := by
    rw [← hp]
    split
    · rfl
    · have hn := hg keyid s sub (lvl + 1) (i / 64)
      generalize get keyid s sub (lvl + 1) (i / 64) = y at hn
      rcases y with ⟨t, _ | _⟩ <;> exact hn
  clear hp
  rcases p with ⟨t, _ | ⟨major, minor⟩⟩
  · exact h1
  · dsimp only at h1 ⊢
    split
    · exact (hi t sub addr half 0).trans h1
    · have hs := readNode_fixed t m sub lvl i major minor errs
      generalize readNode t m sub lvl i major minor errs = y at hs
      rcases y with ⟨u, (_ | _) | _⟩ <;> dsimp only at hs ⊢
      · exact (treeFail_fixed _ _ _ _ _).trans (hs.trans h1)
      · exact (hi _ _ _ _ _).trans (hs.trans h1)
      · exact hs.trans h1

@[simp] theorem nodeGet_fixed (errs : List Nat) (m fuel keyid : Nat) (s : State) (sub lvl i : Nat) :
    (nodeGet errs m fuel keyid s sub lvl i).1.fixed = s.fixed := by
  induction fuel generalizing keyid s sub lvl i with
  | zero => rfl
  | succ n ih =>
    have hf := nodeGetFetch_fixed errs m (nodeGet errs m n) (fun k t a b c => ih k t a b c)
    unfold nodeGet
    try dsimp only
    repeat' split
    all_goals simp_all

@[simp] theorem getCtr_fixed (s : State) (m sub i keyid : Nat) (errs : List Nat) : (getCtr s m sub i keyid errs).1.fixed = s.fixed := by
  exact nodeGet_fixed _ _ _ _ _ _ _ _

@[simp] theorem wbGet_fixed (m keyid : Nat) (s : State) (sub lvl i : Nat) : (wbGet m keyid s sub lvl i).1.fixed = s.fixed := by
  exact nodeGet_fixed _ _ _ _ _ _ _ _

@[simp] theorem getTag_fixed (s : State) (m sub line keyid : Nat) (errs : List Nat) : (getTag s m sub line keyid errs).1.fixed = s.fixed := by
  have hr := fun t n l => makeRoom_fixed (wbGet m) (fun k a b c d => wbGet_fixed m k a b c d) n t m sub l
  unfold getTag
  dsimp only
  generalize cacheFind (portOf s m) sub (lineTagAddr s m line / 128) = r
  rcases r with _ | c
  · dsimp only
    have h := readStored_fixed s m sub (lineTagAddr s m line / 128) true errs
    generalize readStored s m sub (lineTagAddr s m line / 128) true errs = y at h
    rcases y with ⟨t, _ | _⟩
    all_goals dsimp only at h ⊢
    · exact (modPort_fixed _ _ _).trans ((hr _ _ _).trans h)
    all_goals first
      | exact h
      | exact (treeFail_fixed _ _ _ _ _).trans h
  · exact modPort_fixed _ _ _

@[simp] theorem putTag_fixed (s : State) (m : Nat) (sub : Nat) (line : Nat) (keyid : Nat) (tag : Word) : (putTag s m sub line keyid tag).fixed = s.fixed := by
  unfold putTag
  repeat' (first | split | intro _ | refine foldl_fixed ?_ ?_ | simp only [keeps_settle, keeps_guardRes, keeps_unitRes, keeps_hereRes, keeps_accessRes, keeps_next, keeps_fault, keeps_refused])
  all_goals simp_all [eq_pair]

@[simp] theorem countUse_fixed (s : State) (keyid : Nat) : (countUse s keyid).fixed = s.fixed := by
  unfold countUse; simp

@[simp] theorem tagFail_fixed (s : State) (m : Nat) (sub : Nat) (line : Nat) : (tagFail s m sub line).fixed = s.fixed := by
  unfold tagFail; simp

@[simp] theorem openLine_fixed (s : State) (m : Nat) (sub : Nat) (line : Nat) (keyid : Nat) (c : Counter) (errs : List Nat) (merge : Bool) : (openLine s m sub line keyid c errs merge).1.fixed = s.fixed := by
  simp only [openLine, apply_ite State.fixed]
  repeat' (first | (simp [eq_pair]; done) | intro _ | split)
  all_goals simp_all [eq_pair]

@[simp] theorem sealLine_fixed (s : State) (m : Nat) (sub : Nat) (line : Nat) (keyid : Nat) (attr : Attr) (c : Counter) (pt : Line) : (sealLine s m sub line keyid attr c pt).fixed = s.fixed := by
  unfold sealLine
  repeat' (first | split | intro _ | refine foldl_fixed ?_ ?_ | simp only [keeps_settle, keeps_guardRes, keeps_unitRes, keeps_hereRes, keeps_accessRes, keeps_next, keeps_fault, keeps_refused])
  all_goals simp_all [eq_pair]

@[simp] theorem reencLine_fixed (s : State) (m : Nat) (sub : Nat) (line : Nat) (ka : Nat) (kb : Nat) (ca : Counter) (cb : Counter) (errs : List Nat) : (reencLine s m sub line ka kb ca cb errs).fixed = s.fixed := by
  unfold reencLine
  repeat' (first | split | intro _ | refine foldl_fixed ?_ ?_ | simp only [keeps_settle, keeps_guardRes, keeps_unitRes, keeps_hereRes, keeps_accessRes, keeps_next, keeps_fault, keeps_refused])
  all_goals simp_all [eq_pair]

@[simp] theorem reencGroup_fixed (s : State) (m : Nat) (sub : Nat) (g : Nat) (ka : Nat) (kb : Nat) (wide : Bool) (errs : List Nat) : (reencGroup s m sub g ka kb wide errs).fixed = s.fixed := by
  unfold reencGroup
  repeat' (first | split | intro _ | refine foldl_fixed ?_ ?_ | simp only [keeps_settle, keeps_guardRes, keeps_unitRes, keeps_hereRes, keeps_accessRes, keeps_next, keeps_fault, keeps_refused])
  all_goals simp_all [eq_pair]

@[simp] theorem modSweep_fixed (s : State) (m : Nat) (dst : Nat) (f : Sweep → Sweep) : (modSweep s m dst f).fixed = s.fixed := by
  unfold modSweep; simp

@[simp] theorem visitFirst_fixed (s : State) (r : MemReq) (errs : List Nat) : (visitFirst s r errs).fixed = s.fixed := by
  unfold visitFirst
  repeat' (first | split | intro _ | refine foldl_fixed ?_ ?_ | simp only [keeps_settle, keeps_guardRes, keeps_unitRes, keeps_hereRes, keeps_accessRes, keeps_next, keeps_fault, keeps_refused])
  all_goals simp_all [eq_pair]

@[simp] theorem svReadFor_fixed (merge : Bool) (s : State) (r : MemReq) (errs : List Nat) : (svReadFor merge s r errs).1.fixed = s.fixed := by
  unfold svReadFor
  repeat' (first | split | intro _ | refine foldl_fixed ?_ ?_ | refine issue_keeps ?_ (by simp) | refine packet_keeps ?_ (by simp) | refine secWrite_keeps ?_ (by simp) | refine slCmd_keeps ?_ (by simp) | refine fwCmd_keeps ?_ (by simp) | refine ksCmd_keeps ?_ (by simp) | refine fcWrite_keeps ?_ (by simp) | refine lcCmd_keeps ?_ (by simp) | refine dgCmd_keeps ?_ (by simp) | refine spdmReq_keeps ?_ (by simp) | refine message_keeps ?_ (by simp) | refine boundMessage_keeps ?_ (by simp) | refine hostSlice_keeps ?_ (by simp) | refine takeVerified_keeps ?_ (by simp) | refine beadPacket_keeps ?_ (by simp) | refine vector_keeps (by simp) | refine issueRows_keeps ?_ (by simp) | refine issueLink_keeps ?_ (by simp) | simp only [keeps_settle, keeps_guardRes, keeps_unitRes, keeps_hereRes, keeps_accessRes, keeps_next, keeps_fault, keeps_refused])
  all_goals simp_all [eq_pair]

@[simp] theorem svRead_fixed (s : State) (r : MemReq) (errs : List Nat) : (svRead s r errs).1.fixed = s.fixed := by
  unfold svRead
  repeat' (first | split | intro _ | refine foldl_fixed ?_ ?_ | refine issue_keeps ?_ (by simp) | refine packet_keeps ?_ (by simp) | refine secWrite_keeps ?_ (by simp) | refine slCmd_keeps ?_ (by simp) | refine fwCmd_keeps ?_ (by simp) | refine ksCmd_keeps ?_ (by simp) | refine fcWrite_keeps ?_ (by simp) | refine lcCmd_keeps ?_ (by simp) | refine dgCmd_keeps ?_ (by simp) | refine spdmReq_keeps ?_ (by simp) | refine message_keeps ?_ (by simp) | refine boundMessage_keeps ?_ (by simp) | refine hostSlice_keeps ?_ (by simp) | refine takeVerified_keeps ?_ (by simp) | refine beadPacket_keeps ?_ (by simp) | refine vector_keeps (by simp) | refine issueRows_keeps ?_ (by simp) | refine issueLink_keeps ?_ (by simp) | simp only [keeps_settle, keeps_guardRes, keeps_unitRes, keeps_hereRes, keeps_accessRes, keeps_next, keeps_fault, keeps_refused])
  all_goals simp_all [eq_pair]

@[simp] theorem svStore_fixed (s : State) (r : MemReq) (pt : Line) (errs : List Nat) : (svStore s r pt errs).1.fixed = s.fixed := by
  unfold svStore
  repeat' (first | split | intro _ | refine foldl_fixed ?_ ?_ | refine issue_keeps ?_ (by simp) | refine packet_keeps ?_ (by simp) | refine secWrite_keeps ?_ (by simp) | refine slCmd_keeps ?_ (by simp) | refine fwCmd_keeps ?_ (by simp) | refine ksCmd_keeps ?_ (by simp) | refine fcWrite_keeps ?_ (by simp) | refine lcCmd_keeps ?_ (by simp) | refine dgCmd_keeps ?_ (by simp) | refine spdmReq_keeps ?_ (by simp) | refine message_keeps ?_ (by simp) | refine boundMessage_keeps ?_ (by simp) | refine hostSlice_keeps ?_ (by simp) | refine takeVerified_keeps ?_ (by simp) | refine beadPacket_keeps ?_ (by simp) | refine vector_keeps (by simp) | refine issueRows_keeps ?_ (by simp) | refine issueLink_keeps ?_ (by simp) | simp only [keeps_settle, keeps_guardRes, keeps_unitRes, keeps_hereRes, keeps_accessRes, keeps_next, keeps_fault, keeps_refused])
  all_goals simp_all [eq_pair]

@[simp] theorem svWriteFull_fixed (s : State) (r : MemReq) (pt : Line) (errs : List Nat) : (svWriteFull s r pt errs).1.fixed = s.fixed := by
  unfold svWriteFull
  repeat' (first | split | intro _ | refine foldl_fixed ?_ ?_ | refine issue_keeps ?_ (by simp) | refine packet_keeps ?_ (by simp) | refine secWrite_keeps ?_ (by simp) | refine slCmd_keeps ?_ (by simp) | refine fwCmd_keeps ?_ (by simp) | refine ksCmd_keeps ?_ (by simp) | refine fcWrite_keeps ?_ (by simp) | refine lcCmd_keeps ?_ (by simp) | refine dgCmd_keeps ?_ (by simp) | refine spdmReq_keeps ?_ (by simp) | refine message_keeps ?_ (by simp) | refine boundMessage_keeps ?_ (by simp) | refine hostSlice_keeps ?_ (by simp) | refine takeVerified_keeps ?_ (by simp) | refine beadPacket_keeps ?_ (by simp) | refine vector_keeps (by simp) | refine issueRows_keeps ?_ (by simp) | refine issueLink_keeps ?_ (by simp) | simp only [keeps_settle, keeps_guardRes, keeps_unitRes, keeps_hereRes, keeps_accessRes, keeps_next, keeps_fault, keeps_refused])
  all_goals simp_all [eq_pair]

@[simp] theorem svWritePartial_fixed (s : State) (r : MemReq) (mask : BitVec 128) (new : Line) (errs : List Nat) : (svWritePartial s r mask new errs).1.fixed = s.fixed := by
  unfold svWritePartial
  repeat' (first | split | intro _ | refine foldl_fixed ?_ ?_ | refine issue_keeps ?_ (by simp) | refine packet_keeps ?_ (by simp) | refine secWrite_keeps ?_ (by simp) | refine slCmd_keeps ?_ (by simp) | refine fwCmd_keeps ?_ (by simp) | refine ksCmd_keeps ?_ (by simp) | refine fcWrite_keeps ?_ (by simp) | refine lcCmd_keeps ?_ (by simp) | refine dgCmd_keeps ?_ (by simp) | refine spdmReq_keeps ?_ (by simp) | refine message_keeps ?_ (by simp) | refine boundMessage_keeps ?_ (by simp) | refine hostSlice_keeps ?_ (by simp) | refine takeVerified_keeps ?_ (by simp) | refine beadPacket_keeps ?_ (by simp) | refine vector_keeps (by simp) | refine issueRows_keeps ?_ (by simp) | refine issueLink_keeps ?_ (by simp) | simp only [keeps_settle, keeps_guardRes, keeps_unitRes, keeps_hereRes, keeps_accessRes, keeps_next, keeps_fault, keeps_refused])
  all_goals simp_all [eq_pair]

end Sys2Proof.Machine
end

