-- ==== Sys2Proof/Laws/KeepTranslate.lean ====
section
/-! SUPPORT. Each operation of Machine/Translate.lean keeps the fixed part of the state: the build parameters and the queue. -/
set_option linter.unusedSimpArgs false
set_option linter.unusedTactic false
set_option linter.unreachableTactic false
namespace Sys2Proof.Machine

@[simp] theorem modCtx_fixed (s : State) (n : Nat) (f : Ctx → Ctx) : (modCtx s n f).fixed = s.fixed := by
  unfold modCtx; simp

@[simp] theorem walk_fixed (rd : State → Nat → State × Acc Nat) (limit : Nat) (l : List (Nat × Nat × Nat))
    (s : State) (table a : Nat) (hr : ∀ t a, (rd t a).1.fixed = t.fixed) : (walk rd limit l s table a).1.fixed = s.fixed := by
  induction l generalizing s table with
  | nil => rfl
  | cons x t ih =>
    unfold walk
    try dsimp only
    repeat' split
    all_goals simp_all [eq_pair]

@[simp] theorem readS2Word_fixed (who : Who) (slice : Nat) (s : State) (so : Nat) : (readS2Word who slice s so).1.fixed = s.fixed := by
  have hs := fun q l => svRead_fixed s q l
  unfold readS2Word
  generalize svRead s = S at hs ⊢
  generalize reqAt s who slice so = Q
  generalize regionAt s slice so = x
  rcases x with _ | ⟨i, r⟩
  · rfl
  · dsimp only
    generalize Q i r = y
    rcases y with q | c
    · dsimp only
      have h := hs { q with attr := { q.attr with sec := true } } []
      generalize S { q with attr := { q.attr with sec := true } } [] = z at h ⊢
      rcases z with ⟨t, _ | _ | _⟩ <;> exact h
    · rfl

@[simp] theorem s2Walk_fixed (s : State) (who : Who) (slice : Nat) (spa : Nat) : (s2Walk s who slice spa).1.fixed = s.fixed := by
  unfold s2Walk
  repeat' (first | split | intro _ | refine foldl_fixed ?_ ?_ | simp only [keeps_settle, keeps_guardRes, keeps_unitRes, keeps_hereRes, keeps_accessRes, keeps_next, keeps_fault, keeps_refused])
  all_goals simp_all [eq_pair]

@[simp] theorem xlat2_fixed (s : State) (who : Who) (spa : Nat) (wr : Bool) (fetch : Bool) : (xlat2 s who spa wr fetch).1.fixed = s.fixed := by
  unfold xlat2
  repeat' (first | split | intro _ | refine foldl_fixed ?_ ?_ | simp only [keeps_settle, keeps_guardRes, keeps_unitRes, keeps_hereRes, keeps_accessRes, keeps_next, keeps_fault, keeps_refused])
  all_goals simp_all [eq_pair]

@[simp] theorem readSpaLine_fixed (s : State) (who : Who) (spa : Nat) (fetch : Bool) : (readSpaLine s who spa fetch).1.fixed = s.fixed := by
  unfold readSpaLine
  repeat' (first | split | intro _ | refine foldl_fixed ?_ ?_ | simp only [keeps_settle, keeps_guardRes, keeps_unitRes, keeps_hereRes, keeps_accessRes, keeps_next, keeps_fault, keeps_refused])
  all_goals simp_all [eq_pair]

@[simp] theorem readS1Word_fixed (who : Who) (s : State) (spa : Nat) : (readS1Word who s spa).1.fixed = s.fixed := by
  unfold readS1Word
  repeat' (first | split | intro _ | refine foldl_fixed ?_ ?_ | simp only [keeps_settle, keeps_guardRes, keeps_unitRes, keeps_hereRes, keeps_accessRes, keeps_next, keeps_fault, keeps_refused])
  all_goals simp_all [eq_pair]

@[simp] theorem cachedOr_fixed (s : State) (c : Option AtuEnt) (fresh : Acc (Nat × Bool × Bool × Bool)) :
    (cachedOr s c fresh).1.fixed = s.fixed := by
  unfold cachedOr
  repeat' split
  all_goals simp_all [eq_pair]

@[simp] theorem xlat1_fixed (s : State) (who : Who) (va : Nat) (wr : Bool) (fetch : Bool) (hk : Bool) : (xlat1 s who va wr fetch hk).1.fixed = s.fixed := by
  unfold xlat1
  repeat' (first | split | intro _ | refine foldl_fixed ?_ ?_ | simp only [keeps_settle, keeps_guardRes, keeps_unitRes, keeps_hereRes, keeps_accessRes, keeps_next, keeps_fault, keeps_refused])
  all_goals simp_all [eq_pair]

@[simp] theorem xlat_fixed (s : State) (who : Who) (va : Nat) (wr : Bool) (fetch : Bool) (hk : Bool) : (xlat s who va wr fetch hk).1.fixed = s.fixed := by
  unfold xlat
  repeat' (first | split | intro _ | refine foldl_fixed ?_ ?_ | simp only [keeps_settle, keeps_guardRes, keeps_unitRes, keeps_hereRes, keeps_accessRes, keeps_next, keeps_fault, keeps_refused])
  all_goals simp_all [eq_pair]

@[simp] theorem xlatVia_fixed (s : State) (who : Who) (via : Via) (a : Nat) (wr : Bool) (fetch : Bool) : (xlatVia s who via a wr fetch).1.fixed = s.fixed := by
  unfold xlatVia
  repeat' (first | split | intro _ | refine foldl_fixed ?_ ?_ | simp only [keeps_settle, keeps_guardRes, keeps_unitRes, keeps_hereRes, keeps_accessRes, keeps_next, keeps_fault, keeps_refused])
  all_goals simp_all [eq_pair]

@[simp] theorem countLine_fixed (s : State) (who : Who) (q : MemReq) : (countLine s who q).fixed = s.fixed := by
  unfold countLine; simp

@[simp] theorem readPart_fixed (s : State) (who : Who) (via : Via) (fetch : Bool) (p : Nat × Nat × Nat) : (readPart s who via fetch p).1.fixed = s.fixed := by
  unfold readPart
  repeat' (first | split | intro _ | refine foldl_fixed ?_ ?_ | simp only [keeps_settle, keeps_guardRes, keeps_unitRes, keeps_hereRes, keeps_accessRes, keeps_next, keeps_fault, keeps_refused])
  all_goals simp_all [eq_pair]

@[simp] theorem readParts_fixed (who : Who) (via : Via) (fetch : Bool) (s : State) (l : List (Nat × Nat × Nat)) :
    (readParts who via fetch s l).1.fixed = s.fixed := by
  induction l generalizing s with
  | nil => rfl
  | cons x t ih =>
    unfold readParts
    try dsimp only
    repeat' split
    all_goals simp_all [eq_pair]

@[simp] theorem memRead_fixed (s : State) (who : Who) (via : Via) (a : Nat) (n : Nat) : (memRead s who via a n).1.fixed = s.fixed := by
  unfold memRead; simp

@[simp] theorem memNat_fixed (s : State) (who : Who) (via : Via) (a : Nat) (n : Nat) : (memNat s who via a n).1.fixed = s.fixed := by
  unfold memNat
  repeat' (first | split | intro _ | refine foldl_fixed ?_ ?_ | simp only [keeps_settle, keeps_guardRes, keeps_unitRes, keeps_hereRes, keeps_accessRes, keeps_next, keeps_fault, keeps_refused])
  all_goals simp_all [eq_pair]

@[simp] theorem writePart_fixed (s : State) (who : Who) (via : Via) (p : Nat × Nat × Nat) (bs : List Byte) : (writePart s who via p bs).1.fixed = s.fixed := by
  unfold writePart
  repeat' (first | split | intro _ | refine foldl_fixed ?_ ?_ | simp only [keeps_settle, keeps_guardRes, keeps_unitRes, keeps_hereRes, keeps_accessRes, keeps_next, keeps_fault, keeps_refused])
  all_goals simp_all [eq_pair]

@[simp] theorem writeParts_fixed (who : Who) (via : Via) (s : State) (l : List (Nat × Nat × Nat)) (bs : List Byte) :
    (writeParts who via s l bs).1.fixed = s.fixed := by
  induction l generalizing s bs with
  | nil => rfl
  | cons x t ih =>
    unfold writeParts
    try dsimp only
    repeat' split
    all_goals simp_all [eq_pair]

@[simp] theorem memWrite_fixed (s : State) (who : Who) (via : Via) (a : Nat) (bs : List Byte) : (memWrite s who via a bs).1.fixed = s.fixed := by
  unfold memWrite; simp

@[simp] theorem openBytes_fixed (s : State) (n : Nat) : (openBytes s n).1.fixed = s.fixed := by
  unfold openBytes; simp

end Sys2Proof.Machine
end

