-- ==== Sys2Proof/Laws/KeepTally.lean ====
section
/-! SUPPORT. Each operation of Machine/Tally.lean keeps the fixed part of the state: the build parameters and the queue. -/
set_option linter.unusedSimpArgs false
set_option linter.unusedTactic false
set_option linter.unreachableTactic false
namespace Sys2Proof.Machine

@[simp] theorem modFence_fixed (s : State) (f : Nat) (g : Fence → Fence) : (modFence s f g).fixed = s.fixed := by
  unfold modFence; simp

@[simp] theorem putTallyWord_fixed (s : State) (h : Nat) (off : Nat) (v : Word) : (putTallyWord s h off v).fixed = s.fixed := by
  unfold putTallyWord; simp

@[simp] theorem modEng_fixed (s : State) (e : Nat) (f : Engine → Engine) : (modEng s e f).fixed = s.fixed := by
  unfold modEng; simp

@[simp] theorem presentWord_fixed (s : State) (h : Nat) (off : Nat) : (presentWord s h off).fixed = s.fixed := by
  unfold presentWord; simp

@[simp] theorem fenceMax_fixed (s : State) (f : Nat) (v : Word) : (fenceMax s f v).fixed = s.fixed := by
  unfold fenceMax; simp

@[simp] theorem fenceErr_fixed (s : State) (f : Nat) (code : Nat) : (fenceErr s f code).fixed = s.fixed := by
  unfold fenceErr; simp

@[simp] theorem tallyEnqueue_fixed (s : State) (h : Nat) (port : Nat) (o : TOp) : (tallyEnqueue s h port o).fixed = s.fixed := by
  unfold tallyEnqueue; simp

@[simp] theorem wordAction_fixed (s : State) (port : Nat → Nat) (e : Nat) (ctx : Nat) (gen : Nat) (z5 : Option (Nat × Nat)) : (wordAction s port e ctx gen z5).fixed = s.fixed := by
  unfold wordAction
  repeat' (first | split | intro _ | refine foldl_fixed ?_ ?_ | simp only [keeps_settle, keeps_guardRes, keeps_unitRes, keeps_hereRes, keeps_accessRes, keeps_next, keeps_fault, keeps_refused])
  all_goals simp_all [eq_pair]

@[simp] theorem completionAction_fixed (s : State) (e : Nat) (ctx : Nat) (gen : Nat) (w : Option (Nat × Nat)) : (completionAction s e ctx gen w).fixed = s.fixed := by
  unfold completionAction
  repeat' (first | split | intro _ | refine foldl_fixed ?_ ?_ | simp only [keeps_settle, keeps_guardRes, keeps_unitRes, keeps_hereRes, keeps_accessRes, keeps_next, keeps_fault, keeps_refused])
  all_goals simp_all [eq_pair]

@[simp] theorem collide_fixed (s : State) (h : Nat) (port : Nat) (o : TOp) (performed : Bool) : (collide s h port o performed).fixed = s.fixed := by
  unfold collide; simp

@[simp] theorem deliverTally_fixed (s : State) (h : Nat) (port : Nat) (o : TOp) (prev : Word) (denied : Bool) : (deliverTally s h port o prev denied).fixed = s.fixed := by
  unfold deliverTally
  repeat' (first | split | intro _ | refine foldl_fixed ?_ ?_ | simp only [keeps_settle, keeps_guardRes, keeps_unitRes, keeps_hereRes, keeps_accessRes, keeps_next, keeps_fault, keeps_refused])
  all_goals simp_all [eq_pair]

@[simp] theorem performOp_fixed (s : State) (h : Nat) (port : Nat) (o : TOp) : (performOp s h port o).fixed = s.fixed := by
  unfold performOp
  repeat' (first | split | intro _ | refine foldl_fixed ?_ ?_ | simp only [keeps_settle, keeps_guardRes, keeps_unitRes, keeps_hereRes, keeps_accessRes, keeps_next, keeps_fault, keeps_refused])
  all_goals simp_all [eq_pair]

@[simp] theorem tallyBadWord_fixed (s : State) (h : Nat) (off : Nat) : (tallyBadWord s h off).fixed = s.fixed := by
  unfold tallyBadWord; simp

@[simp] theorem tallyDataError_fixed (s : State) (h : Nat) (port : Nat) (o : TOp) : (tallyDataError s h port o).fixed = s.fixed := by
  unfold tallyDataError
  repeat' (first | split | intro _ | refine foldl_fixed ?_ ?_ | simp only [keeps_settle, keeps_guardRes, keeps_unitRes, keeps_hereRes, keeps_accessRes, keeps_next, keeps_fault, keeps_refused])
  all_goals simp_all [eq_pair]

@[simp] theorem grantOp_fixed (s : State) (h : Nat) (port : Nat) (o : TOp) (chk : Nat) : (grantOp s h port o chk).fixed = s.fixed := by
  unfold grantOp
  repeat' (first | (intro _) | (refine foldl_fixed ?_ ?_) | (simp [eq_pair]; done) | split | simp only [keeps_settle, keeps_guardRes, keeps_unitRes, keeps_hereRes, keeps_accessRes, keeps_next, keeps_fault, keeps_refused])
  all_goals simp_all [eq_pair]

@[simp] theorem insertedAdd_fixed (s : State) (h : Nat) (j : Nat) (chk : Nat) : (insertedAdd s h j chk).fixed = s.fixed := by
  unfold insertedAdd; simp

@[simp] theorem arriveOps_fixed (s : State) (h : Nat) (arrive : List (Nat × TOp)) : (arriveOps s h arrive).fixed = s.fixed := by
  unfold arriveOps; simp

@[simp] theorem tallySlot_keeps (k : TKind) (h : Nat) (arrive : List (Nat × TOp)) (chk : Nat) (s : State) (s0 : State) (h0 : s.fixed = s0.fixed) : Keeps s0 (tallySlot k h arrive chk s) := by
  refine Keeps.of h0 ?_
  unfold tallySlot
  repeat' (first | split | intro _ | refine foldl_fixed ?_ ?_ | refine issue_keeps ?_ (by simp) | refine packet_keeps ?_ (by simp) | refine secWrite_keeps ?_ (by simp) | refine slCmd_keeps ?_ (by simp) | refine fwCmd_keeps ?_ (by simp) | refine ksCmd_keeps ?_ (by simp) | refine fcWrite_keeps ?_ (by simp) | refine lcCmd_keeps ?_ (by simp) | refine dgCmd_keeps ?_ (by simp) | refine spdmReq_keeps ?_ (by simp) | refine message_keeps ?_ (by simp) | refine boundMessage_keeps ?_ (by simp) | refine hostSlice_keeps ?_ (by simp) | refine takeVerified_keeps ?_ (by simp) | refine beadPacket_keeps ?_ (by simp) | refine vector_keeps (by simp) | refine issueRows_keeps ?_ (by simp) | refine issueLink_keeps ?_ (by simp) | simp only [keeps_settle, keeps_guardRes, keeps_unitRes, keeps_hereRes, keeps_accessRes, keeps_next, keeps_fault, keeps_refused])
  all_goals simp_all [eq_pair]

@[simp] theorem execTallyRead_keeps (h : Nat) (arrive : List (Nat × TOp)) (chk : Nat) (s : State) (s0 : State) (h0 : s.fixed = s0.fixed) : Keeps s0 (execTallyRead h arrive chk s) := by
  refine Keeps.of h0 ?_
  unfold execTallyRead; simp

@[simp] theorem execTallyAdd_keeps (h : Nat) (arrive : List (Nat × TOp)) (chk : Nat) (s : State) (s0 : State) (h0 : s.fixed = s0.fixed) : Keeps s0 (execTallyAdd h arrive chk s) := by
  refine Keeps.of h0 ?_
  unfold execTallyAdd; simp

@[simp] theorem execTallySwap_keeps (h : Nat) (arrive : List (Nat × TOp)) (chk : Nat) (s : State) (s0 : State) (h0 : s.fixed = s0.fixed) : Keeps s0 (execTallySwap h arrive chk s) := by
  refine Keeps.of h0 ?_
  unfold execTallySwap; simp

@[simp] theorem execTallyWrite_keeps (h : Nat) (arrive : List (Nat × TOp)) (chk : Nat) (s : State) (s0 : State) (h0 : s.fixed = s0.fixed) : Keeps s0 (execTallyWrite h arrive chk s) := by
  refine Keeps.of h0 ?_
  unfold execTallyWrite; simp

@[simp] theorem execTallyMax_keeps (h : Nat) (arrive : List (Nat × TOp)) (chk : Nat) (s : State) (s0 : State) (h0 : s.fixed = s0.fixed) : Keeps s0 (execTallyMax h arrive chk s) := by
  refine Keeps.of h0 ?_
  unfold execTallyMax; simp

@[simp] theorem execTallySeterr_keeps (h : Nat) (arrive : List (Nat × TOp)) (chk : Nat) (s : State) (s0 : State) (h0 : s.fixed = s0.fixed) : Keeps s0 (execTallySeterr h arrive chk s) := by
  refine Keeps.of h0 ?_
  unfold execTallySeterr; simp

@[simp] theorem modCl_fixed (s : State) (c : Nat) (f : Cluster → Cluster) : (modCl s c f).fixed = s.fixed := by
  unfold modCl; simp

@[simp] theorem boltSlot_fixed (s : State) (c : Nat) : (boltSlot s c).fixed = s.fixed := by
  unfold boltSlot; simp

@[simp] theorem overHalves_fixed (s : State) (f : State → Nat → State) (h : ∀ t a, (f t a).fixed = t.fixed) : (overHalves s f).fixed = s.fixed := by
  exact foldl_fixed h rfl

@[simp] theorem overPorts_fixed (s : State) (f : State → Nat → State) (h : ∀ t a, (f t a).fixed = t.fixed) : (overPorts s f).fixed = s.fixed := by
  exact foldl_fixed h rfl

@[simp] theorem wipeSecurity_fixed (s : State) : (wipeSecurity s).fixed = s.fixed := by
  unfold wipeSecurity; simp

@[simp] theorem execTamperWipe_keeps (s : State) (s0 : State) (h0 : s.fixed = s0.fixed) : Keeps s0 (execTamperWipe s) := by
  refine Keeps.of h0 ?_
  unfold execTamperWipe; simp

@[simp] theorem execTamperWipeDone_keeps (s : State) (s0 : State) (h0 : s.fixed = s0.fixed) : Keeps s0 (execTamperWipeDone s) := by
  refine Keeps.of h0 ?_
  unfold execTamperWipeDone; simp

@[simp] theorem modBoltRegion_fixed (s : State) (c : Nat) (i : Nat) (f : BoltRegion → BoltRegion) : (modBoltRegion s c i f).fixed = s.fixed := by
  unfold modBoltRegion; simp

@[simp] theorem releaseRegion_fixed (s : State) (c : Nat) (i : Nat) : (releaseRegion s c i).fixed = s.fixed := by
  unfold releaseRegion; simp

@[simp] theorem releaseRegions_fixed (s : State) (ctx : Nat) (gen : Nat) : (releaseRegions s ctx gen).fixed = s.fixed := by
  unfold releaseRegions; simp

@[simp] theorem execBoltRegionClearDone_keeps (c : Nat) (i : Nat) (s : State) (s0 : State) (h0 : s.fixed = s0.fixed) : Keeps s0 (execBoltRegionClearDone c i s) := by
  refine Keeps.of h0 ?_
  unfold execBoltRegionClearDone; simp

end Sys2Proof.Machine
end

