-- ==== Sys2Proof/Laws/KeepContext.lean ====
section
/-! SUPPORT. Each operation of Machine/Context.lean keeps the fixed part of the state: the build parameters and the queue. -/
set_option linter.unusedSimpArgs false
set_option linter.unusedTactic false
set_option linter.unreachableTactic false
namespace Sys2Proof.Machine

@[simp] theorem boltWrite_fixed (s : State) (c : Nat) (a : Nat) (bs : List Byte) : (boltWrite s c a bs).1.fixed = s.fixed := by
  unfold boltWrite; simp

@[simp] theorem boltCombine_fixed (s : State) (c : Nat) (a : Nat) (n : Nat) (f : List Byte → List Byte) : (boltCombine s c a n f).1.fixed = s.fixed := by
  unfold boltCombine
  repeat' (first | split | intro _ | refine foldl_fixed ?_ ?_ | simp only [keeps_settle, keeps_guardRes, keeps_unitRes, keeps_hereRes, keeps_accessRes, keeps_next, keeps_fault, keeps_refused])
  all_goals simp_all [eq_pair]

@[simp] theorem boltPoison_fixed (s : State) (c : Nat) (a : Nat) (n : Nat) : (boltPoison s c a n).fixed = s.fixed := by
  unfold boltPoison; simp

@[simp] theorem checkedAccess_fixed (s : State) (target : Nat) (cluster : Nat) (pos : Nat) : (checkedAccess s target cluster pos).1.fixed = s.fixed := by
  unfold checkedAccess
  repeat' (first | (intro _) | (refine foldl_fixed ?_ ?_) | (simp [eq_pair]; done) | split | simp only [keeps_settle, keeps_guardRes, keeps_unitRes, keeps_hereRes, keeps_accessRes, keeps_next, keeps_fault, keeps_refused])
  all_goals simp_all [eq_pair]

@[simp] theorem logicAccess_fixed (s : State) (target : Nat) (cluster : Nat) (pos : Nat) : (logicAccess s target cluster pos).fixed = s.fixed := by
  unfold logicAccess; simp

@[simp] theorem modQueue_fixed (s : State) (q : Nat) (f : Queue → Queue) : (modQueue s q f).fixed = s.fixed := by
  unfold modQueue; simp

@[simp] theorem modRing_fixed (s : State) (p : Nat) (f : PortRing → PortRing) : (modRing s p f).fixed = s.fixed := by
  unfold modRing; simp

@[simp] theorem queueErr_fixed (s : State) (q : Nat) (code : Nat) : (queueErr s q code).fixed = s.fixed := by
  unfold queueErr; simp

@[simp] theorem ringPacket_fixed (s : State) (slice : Nat) (q : Queue) (k : Nat) : (ringPacket s slice q k).1.fixed = s.fixed := by
  unfold ringPacket
  repeat' (first | split | intro _ | refine foldl_fixed ?_ ?_ | simp only [keeps_settle, keeps_guardRes, keeps_unitRes, keeps_hereRes, keeps_accessRes, keeps_next, keeps_fault, keeps_refused])
  all_goals simp_all [eq_pair]

@[simp] theorem discardPackets_fixed (s : State) (slice qn : Nat) (q : Queue) (code : Nat) :
    (discardPackets s slice qn q code).fixed = s.fixed := by
  unfold discardPackets
  have h1 : ∀ (l : List Nat) (first : Nat), (l.foldl (fun t i =>
      match ringPacket t slice q (first + i) with
      | (t, ws) => match packetSignal ws with
        | some f => fenceErr t f code
        | none => t) s).fixed = s.fixed := fun l first => foldl_fixed (fun t i => by
      have h := ringPacket_fixed t slice q (first + i)
      generalize ringPacket t slice q (first + i) = p at h ⊢
      obtain ⟨u, ws⟩ := p
      dsimp only at h ⊢
      split <;> simp_all) rfl
  dsimp only
  generalize hu : List.foldl _ s _ = u
  have hv : u.fixed = s.fixed := hu ▸ h1 _ _
  rw [modQueue_fixed]
  split
  · refine foldl_fixed (fun t i => ?_) hv
    split <;> simp
  · exact hv

@[simp] theorem tearAdvance_fixed (s : State) (c : Nat) : (tearAdvance s c).fixed = s.fixed := by
  unfold tearAdvance
  repeat' (first | split | intro _ | refine foldl_fixed ?_ ?_ | simp only [keeps_settle, keeps_guardRes, keeps_unitRes, keeps_hereRes, keeps_accessRes, keeps_next, keeps_fault, keeps_refused])
  all_goals simp_all [eq_pair]

@[simp] theorem tearStart_fixed (s : State) (c : Nat) (code : Nat) (status : Option StatusAt) (relive : Bool) : (tearStart s c code status relive).fixed = s.fixed := by
  unfold tearStart; simp

@[simp] theorem writeFaultRecord_fixed (s : State) (e : Nat) (c : Nat) (gen : Nat) (bs : List Byte) (at' : Nat) : (writeFaultRecord s e c gen bs at').fixed = s.fixed := by
  unfold writeFaultRecord; simp

@[simp] theorem markFaulted_fixed (s : State) (c : Nat) (fcode : Nat) : (markFaulted s c fcode).fixed = s.fixed := by
  unfold markFaulted; simp

@[simp] theorem abandonTile_fixed (s : State) (e : Nat) (c : Nat) (gen : Nat) : (abandonTile s e c gen).fixed = s.fixed := by
  unfold abandonTile; simp

@[simp] theorem directRecover_fixed (s : State) (c : Nat) : (directRecover s c).fixed = s.fixed := by
  unfold directRecover; simp

@[simp] theorem faultCtx_fixed (s : State) (e : Nat) (c : Nat) (gen : Nat) (code : Nat) (sub : Nat) (addr : Nat) (async : Bool) : (faultCtx s e c gen code sub addr async).fixed = s.fixed := by
  simp only [faultCtx, apply_ite State.fixed]
  repeat' (first | (simp [eq_pair]; done) | intro _ | split)
  all_goals simp_all [eq_pair]

@[simp] theorem failCtx_fixed (s : State) (c : Nat) (fcode : Nat) : (failCtx s c fcode).fixed = s.fixed := by
  unfold failCtx
  repeat' (first | split | intro _ | refine foldl_fixed ?_ ?_ | simp only [keeps_settle, keeps_guardRes, keeps_unitRes, keeps_hereRes, keeps_accessRes, keeps_next, keeps_fault, keeps_refused])
  all_goals simp_all [eq_pair]

@[simp] theorem engFault_fixed (s : State) (e : Nat) (code : Nat) (sub : Nat) (addr : Nat) (async : Bool) : (engFault s e code sub addr async).fixed = s.fixed := by
  unfold engFault
  repeat' (first | split | intro _ | refine foldl_fixed ?_ ?_ | simp only [keeps_settle, keeps_guardRes, keeps_unitRes, keeps_hereRes, keeps_accessRes, keeps_next, keeps_fault, keeps_refused])
  all_goals simp_all [eq_pair]

@[simp] theorem handleReqErr_fixed (s : State) (r : ReqErr) : (handleReqErr s r).fixed = s.fixed := by
  unfold handleReqErr; simp

@[simp] theorem execRequestErrorReturn_keeps (arrive : Option (Nat × Nat × Nat × Nat × Nat)) (s : State) (s0 : State) (h0 : s.fixed = s0.fixed) : Keeps s0 (execRequestErrorReturn arrive s) := by
  refine Keeps.of h0 ?_
  unfold execRequestErrorReturn
  repeat' (first | split | intro _ | refine foldl_fixed ?_ ?_ | refine issue_keeps ?_ (by simp) | refine packet_keeps ?_ (by simp) | refine secWrite_keeps ?_ (by simp) | refine slCmd_keeps ?_ (by simp) | refine fwCmd_keeps ?_ (by simp) | refine ksCmd_keeps ?_ (by simp) | refine fcWrite_keeps ?_ (by simp) | refine lcCmd_keeps ?_ (by simp) | refine dgCmd_keeps ?_ (by simp) | refine spdmReq_keeps ?_ (by simp) | refine message_keeps ?_ (by simp) | refine boundMessage_keeps ?_ (by simp) | refine hostSlice_keeps ?_ (by simp) | refine takeVerified_keeps ?_ (by simp) | refine beadPacket_keeps ?_ (by simp) | refine vector_keeps (by simp) | refine issueRows_keeps ?_ (by simp) | refine issueLink_keeps ?_ (by simp) | simp only [keeps_settle, keeps_guardRes, keeps_unitRes, keeps_hereRes, keeps_accessRes, keeps_next, keeps_fault, keeps_refused])
  all_goals simp_all [eq_pair]

end Sys2Proof.Machine
end

