-- ==== Sys2Proof/Laws/KeepIssue.lean ====
section
/-! SUPPORT. Each operation of Machine/Issue.lean keeps the fixed part of the state: the build parameters and the queue. -/
set_option linter.unusedSimpArgs false
set_option linter.unusedTactic false
set_option linter.unreachableTactic false
namespace Sys2Proof.Machine

@[simp] theorem fetch_fixed (s : State) (e : Nat) : (fetch s e).1.fixed = s.fixed := by
  unfold fetch
  repeat' (first | split | intro _ | refine foldl_fixed ?_ ?_ | simp only [keeps_settle, keeps_guardRes, keeps_unitRes, keeps_hereRes, keeps_accessRes, keeps_next, keeps_fault, keeps_refused])
  all_goals simp_all [eq_pair]

@[simp] theorem setPc_fixed (s : State) (e : Nat) (pc : Nat) : (setPc s e pc).fixed = s.fixed := by
  unfold setPc; simp

@[simp] theorem openTile_fixed (s : State) (e : Nat) : (openTile s e).fixed = s.fixed := by
  unfold openTile; simp

@[simp] theorem startQuantum_fixed (s : State) (e : Nat) : (startQuantum s e).fixed = s.fixed := by
  unfold startQuantum; simp

theorem issue_keeps {e : Nat} {f : Frame} {o : OpInfo} {extra : Bool} {body : State → Engine → IRes} {s : State}
    (hb : ∀ t g, IKeeps t (body t g)) {s0 : State} (h0 : s.fixed = s0.fixed) : Keeps s0 (issue e f o extra body s) := by
  refine Keeps.of h0 ?_
  clear h0
  unfold issue
  split; · simp
  split; · simp
  have hf := fetch_fixed s e
  split
  · rename_i t code h
    rw [h] at hf
    simp_all
  · rename_i t h
    rw [h] at hf
    dsimp only at hf ⊢
    have h1 : (startQuantum (logicAccess t 3 (e / 4) (e % 4)) e).fixed = s.fixed := by simp_all
    generalize startQuantum (logicAccess t 3 (e / 4) (e % 4)) e = u at h1 ⊢
    split; · simp_all
    split; · simp_all
    split; · simp_all
    have h2 : (if o.kind = .opening then openTile u e else u).fixed = s.fixed := by split <;> simp_all
    generalize (if o.kind = .opening then openTile u e else u) = v at h2 ⊢
    split; · simp_all
    split; · simp_all
    have h3 := hb v (engOf v e)
    split <;> simp_all

@[simp] theorem closeTile_fixed (s : State) (e : Nat) : (closeTile s e).fixed = s.fixed := by
  unfold closeTile; simp

@[simp] theorem onEng_keeps (s : State) (e : Nat) (h : Engine → Engine) (s0 : State) (h0 : s.fixed = s0.fixed) : IKeeps s0 (onEng s e h) := by
  refine IKeeps.of h0 ?_
  unfold onEng; simp

@[simp] theorem modHport_fixed (s : State) (p : Nat) (f : HPort → HPort) : (modHport s p f).fixed = s.fixed := by
  unfold modHport; simp

@[simp] theorem drainOut_fixed (s : State) (p : Nat) : (drainOut s p).fixed = s.fixed := by
  unfold drainOut; simp

@[simp] theorem inbAbort_fixed (s : State) (p : Nat) : (inbAbort s p).fixed = s.fixed := by
  unfold inbAbort; simp

@[simp] theorem awake_fixed (s : State) : (awake s).fixed = s.fixed := by
  unfold awake; simp

@[simp] theorem wakeHalf_fixed (s : State) (h : Nat) : (wakeHalf s h).fixed = s.fixed := by
  unfold wakeHalf; simp

@[simp] theorem awaitHalf_fixed (s : State) (h : Nat) : (awaitHalf s h).fixed = s.fixed := by
  unfold awaitHalf; simp

@[simp] theorem pushOut_fixed (s : State) (p : Nat) (xs : List OutItem) : (pushOut s p xs).fixed = s.fixed := by
  unfold pushOut; simp

@[simp] theorem hostPost_fixed (s : State) (p : Nat) (addr : Nat) (bs : List Byte) : (hostPost s p addr bs).fixed = s.fixed := by
  unfold hostPost; simp

@[simp] theorem hostEvent_fixed (s : State) (p : Nat) (vec : Nat) : (hostEvent s p vec).fixed = s.fixed := by
  unfold hostEvent; simp

@[simp] theorem issueRead_fixed (s : State) (p : Nat) (t : HTag) : (issueRead s p t).fixed = s.fixed := by
  unfold issueRead; simp

@[simp] theorem hostFetch_fixed (s : State) (p : Nat) (r : Reader) (addr : Nat) (len : Nat) : (hostFetch s p r addr len).fixed = s.fixed := by
  unfold hostFetch; simp

@[simp] theorem writeStatus_fixed (s : State) (a : StatusAt) (code : Nat) (result : Nat) : (writeStatus s a code result).fixed = s.fixed := by
  unfold writeStatus; simp

@[simp] theorem ringFetch_fixed (s : State) (p : Nat) : (ringFetch s p).fixed = s.fixed := by
  unfold ringFetch; simp

@[simp] theorem finishRing_fixed (s : State) (n : Nat) (z2 : RingId) : (finishRing s n z2).fixed = s.fixed := by
  unfold finishRing
  repeat' (first | split | intro _ | refine foldl_fixed ?_ ?_ | simp only [keeps_settle, keeps_guardRes, keeps_unitRes, keeps_hereRes, keeps_accessRes, keeps_next, keeps_fault, keeps_refused])
  all_goals simp_all [eq_pair]

@[simp] theorem checkDone_fixed (s : State) (c : Nat) : (checkDone s c).fixed = s.fixed := by
  unfold checkDone
  repeat' (first | split | intro _ | refine foldl_fixed ?_ ?_ | simp only [keeps_settle, keeps_guardRes, keeps_unitRes, keeps_hereRes, keeps_accessRes, keeps_next, keeps_fault, keeps_refused])
  all_goals simp_all [eq_pair]

end Sys2Proof.Machine
end

