-- ==== Sys2Proof/Laws/KeepControl.lean ====
section
/-! SUPPORT. Each operation of Machine/Control.lean keeps the fixed part of the state: the build parameters and the queue. -/
set_option linter.unusedSimpArgs false
set_option linter.unusedTactic false
set_option linter.unreachableTactic false
namespace Sys2Proof.Machine

@[simp] theorem scalar_keeps (op : Word → Word → Word) (e : Nat) (f : Frame) (s : State) (s0 : State) (h0 : s.fixed = s0.fixed) : Keeps s0 (scalar op e f s) := by
  refine Keeps.of h0 ?_
  unfold scalar
  repeat' (first | split | intro _ | refine foldl_fixed ?_ ?_ | refine issue_keeps ?_ (by simp) | refine packet_keeps ?_ (by simp) | refine secWrite_keeps ?_ (by simp) | refine slCmd_keeps ?_ (by simp) | refine fwCmd_keeps ?_ (by simp) | refine ksCmd_keeps ?_ (by simp) | refine fcWrite_keeps ?_ (by simp) | refine lcCmd_keeps ?_ (by simp) | refine dgCmd_keeps ?_ (by simp) | refine spdmReq_keeps ?_ (by simp) | refine message_keeps ?_ (by simp) | refine boundMessage_keeps ?_ (by simp) | refine hostSlice_keeps ?_ (by simp) | refine takeVerified_keeps ?_ (by simp) | refine beadPacket_keeps ?_ (by simp) | refine vector_keeps (by simp) | refine issueRows_keeps ?_ (by simp) | refine issueLink_keeps ?_ (by simp) | simp only [keeps_settle, keeps_guardRes, keeps_unitRes, keeps_hereRes, keeps_accessRes, keeps_next, keeps_fault, keeps_refused])
  all_goals simp_all [eq_pair]

@[simp] theorem compare_keeps (op : Word → Word → Bool) (e : Nat) (f : Frame) (s : State) (s0 : State) (h0 : s.fixed = s0.fixed) : Keeps s0 (compare op e f s) := by
  refine Keeps.of h0 ?_
  unfold compare
  repeat' (first | split | intro _ | refine foldl_fixed ?_ ?_ | refine issue_keeps ?_ (by simp) | refine packet_keeps ?_ (by simp) | refine secWrite_keeps ?_ (by simp) | refine slCmd_keeps ?_ (by simp) | refine fwCmd_keeps ?_ (by simp) | refine ksCmd_keeps ?_ (by simp) | refine fcWrite_keeps ?_ (by simp) | refine lcCmd_keeps ?_ (by simp) | refine dgCmd_keeps ?_ (by simp) | refine spdmReq_keeps ?_ (by simp) | refine message_keeps ?_ (by simp) | refine boundMessage_keeps ?_ (by simp) | refine hostSlice_keeps ?_ (by simp) | refine takeVerified_keeps ?_ (by simp) | refine beadPacket_keeps ?_ (by simp) | refine vector_keeps (by simp) | refine issueRows_keeps ?_ (by simp) | refine issueLink_keeps ?_ (by simp) | simp only [keeps_settle, keeps_guardRes, keeps_unitRes, keeps_hereRes, keeps_accessRes, keeps_next, keeps_fault, keeps_refused])
  all_goals simp_all [eq_pair]

@[simp] theorem execNop_keeps (e : Nat) (f : Frame) (s : State) (s0 : State) (h0 : s.fixed = s0.fixed) : Keeps s0 (execNop e f s) := by
  refine Keeps.of h0 ?_
  unfold execNop
  repeat' (first | split | intro _ | refine foldl_fixed ?_ ?_ | refine issue_keeps ?_ (by simp) | refine packet_keeps ?_ (by simp) | refine secWrite_keeps ?_ (by simp) | refine slCmd_keeps ?_ (by simp) | refine fwCmd_keeps ?_ (by simp) | refine ksCmd_keeps ?_ (by simp) | refine fcWrite_keeps ?_ (by simp) | refine lcCmd_keeps ?_ (by simp) | refine dgCmd_keeps ?_ (by simp) | refine spdmReq_keeps ?_ (by simp) | refine message_keeps ?_ (by simp) | refine boundMessage_keeps ?_ (by simp) | refine hostSlice_keeps ?_ (by simp) | refine takeVerified_keeps ?_ (by simp) | refine beadPacket_keeps ?_ (by simp) | refine vector_keeps (by simp) | refine issueRows_keeps ?_ (by simp) | refine issueLink_keeps ?_ (by simp) | simp only [keeps_settle, keeps_guardRes, keeps_unitRes, keeps_hereRes, keeps_accessRes, keeps_next, keeps_fault, keeps_refused])
  all_goals simp_all [eq_pair]

@[simp] theorem execTend_keeps (e : Nat) (f : Frame) (s : State) (s0 : State) (h0 : s.fixed = s0.fixed) : Keeps s0 (execTend e f s) := by
  refine Keeps.of h0 ?_
  unfold execTend
  repeat' (first | split | intro _ | refine foldl_fixed ?_ ?_ | refine issue_keeps ?_ (by simp) | refine packet_keeps ?_ (by simp) | refine secWrite_keeps ?_ (by simp) | refine slCmd_keeps ?_ (by simp) | refine fwCmd_keeps ?_ (by simp) | refine ksCmd_keeps ?_ (by simp) | refine fcWrite_keeps ?_ (by simp) | refine lcCmd_keeps ?_ (by simp) | refine dgCmd_keeps ?_ (by simp) | refine spdmReq_keeps ?_ (by simp) | refine message_keeps ?_ (by simp) | refine boundMessage_keeps ?_ (by simp) | refine hostSlice_keeps ?_ (by simp) | refine takeVerified_keeps ?_ (by simp) | refine beadPacket_keeps ?_ (by simp) | refine vector_keeps (by simp) | refine issueRows_keeps ?_ (by simp) | refine issueLink_keeps ?_ (by simp) | simp only [keeps_settle, keeps_guardRes, keeps_unitRes, keeps_hereRes, keeps_accessRes, keeps_next, keeps_fault, keeps_refused])
  all_goals simp_all [eq_pair]

@[simp] theorem execTlink_keeps (e : Nat) (f : Frame) (s : State) (s0 : State) (h0 : s.fixed = s0.fixed) : Keeps s0 (execTlink e f s) := by
  refine Keeps.of h0 ?_
  unfold execTlink
  repeat' (first | split | intro _ | refine foldl_fixed ?_ ?_ | refine issue_keeps ?_ (by simp) | refine packet_keeps ?_ (by simp) | refine secWrite_keeps ?_ (by simp) | refine slCmd_keeps ?_ (by simp) | refine fwCmd_keeps ?_ (by simp) | refine ksCmd_keeps ?_ (by simp) | refine fcWrite_keeps ?_ (by simp) | refine lcCmd_keeps ?_ (by simp) | refine dgCmd_keeps ?_ (by simp) | refine spdmReq_keeps ?_ (by simp) | refine message_keeps ?_ (by simp) | refine boundMessage_keeps ?_ (by simp) | refine hostSlice_keeps ?_ (by simp) | refine takeVerified_keeps ?_ (by simp) | refine beadPacket_keeps ?_ (by simp) | refine vector_keeps (by simp) | refine issueRows_keeps ?_ (by simp) | refine issueLink_keeps ?_ (by simp) | simp only [keeps_settle, keeps_guardRes, keeps_unitRes, keeps_hereRes, keeps_accessRes, keeps_next, keeps_fault, keeps_refused])
  all_goals simp_all [eq_pair]

@[simp] theorem execPend_keeps (e : Nat) (f : Frame) (s : State) (s0 : State) (h0 : s.fixed = s0.fixed) : Keeps s0 (execPend e f s) := by
  refine Keeps.of h0 ?_
  unfold execPend
  repeat' (first | split | intro _ | refine foldl_fixed ?_ ?_ | refine issue_keeps ?_ (by simp) | refine packet_keeps ?_ (by simp) | refine secWrite_keeps ?_ (by simp) | refine slCmd_keeps ?_ (by simp) | refine fwCmd_keeps ?_ (by simp) | refine ksCmd_keeps ?_ (by simp) | refine fcWrite_keeps ?_ (by simp) | refine lcCmd_keeps ?_ (by simp) | refine dgCmd_keeps ?_ (by simp) | refine spdmReq_keeps ?_ (by simp) | refine message_keeps ?_ (by simp) | refine boundMessage_keeps ?_ (by simp) | refine hostSlice_keeps ?_ (by simp) | refine takeVerified_keeps ?_ (by simp) | refine beadPacket_keeps ?_ (by simp) | refine vector_keeps (by simp) | refine issueRows_keeps ?_ (by simp) | refine issueLink_keeps ?_ (by simp) | simp only [keeps_settle, keeps_guardRes, keeps_unitRes, keeps_hereRes, keeps_accessRes, keeps_next, keeps_fault, keeps_refused])
  all_goals simp_all [eq_pair]

@[simp] theorem execBr_keeps (e : Nat) (f : Frame) (s : State) (s0 : State) (h0 : s.fixed = s0.fixed) : Keeps s0 (execBr e f s) := by
  refine Keeps.of h0 ?_
  unfold execBr
  repeat' (first | split | intro _ | refine foldl_fixed ?_ ?_ | refine issue_keeps ?_ (by simp) | refine packet_keeps ?_ (by simp) | refine secWrite_keeps ?_ (by simp) | refine slCmd_keeps ?_ (by simp) | refine fwCmd_keeps ?_ (by simp) | refine ksCmd_keeps ?_ (by simp) | refine fcWrite_keeps ?_ (by simp) | refine lcCmd_keeps ?_ (by simp) | refine dgCmd_keeps ?_ (by simp) | refine spdmReq_keeps ?_ (by simp) | refine message_keeps ?_ (by simp) | refine boundMessage_keeps ?_ (by simp) | refine hostSlice_keeps ?_ (by simp) | refine takeVerified_keeps ?_ (by simp) | refine beadPacket_keeps ?_ (by simp) | refine vector_keeps (by simp) | refine issueRows_keeps ?_ (by simp) | refine issueLink_keeps ?_ (by simp) | simp only [keeps_settle, keeps_guardRes, keeps_unitRes, keeps_hereRes, keeps_accessRes, keeps_next, keeps_fault, keeps_refused])
  all_goals simp_all [eq_pair]

@[simp] theorem execTview_keeps (e : Nat) (f : Frame) (s : State) (s0 : State) (h0 : s.fixed = s0.fixed) : Keeps s0 (execTview e f s) := by
  refine Keeps.of h0 ?_
  unfold execTview
  repeat' (first | split | intro _ | refine foldl_fixed ?_ ?_ | refine issue_keeps ?_ (by simp) | refine packet_keeps ?_ (by simp) | refine secWrite_keeps ?_ (by simp) | refine slCmd_keeps ?_ (by simp) | refine fwCmd_keeps ?_ (by simp) | refine ksCmd_keeps ?_ (by simp) | refine fcWrite_keeps ?_ (by simp) | refine lcCmd_keeps ?_ (by simp) | refine dgCmd_keeps ?_ (by simp) | refine spdmReq_keeps ?_ (by simp) | refine message_keeps ?_ (by simp) | refine boundMessage_keeps ?_ (by simp) | refine hostSlice_keeps ?_ (by simp) | refine takeVerified_keeps ?_ (by simp) | refine beadPacket_keeps ?_ (by simp) | refine vector_keeps (by simp) | refine issueRows_keeps ?_ (by simp) | refine issueLink_keeps ?_ (by simp) | simp only [keeps_settle, keeps_guardRes, keeps_unitRes, keeps_hereRes, keeps_accessRes, keeps_next, keeps_fault, keeps_refused])
  all_goals simp_all [eq_pair]

@[simp] theorem execDsetw_keeps (e : Nat) (f : Frame) (s : State) (s0 : State) (h0 : s.fixed = s0.fixed) : Keeps s0 (execDsetw e f s) := by
  refine Keeps.of h0 ?_
  unfold execDsetw
  repeat' (first | split | intro _ | refine foldl_fixed ?_ ?_ | refine issue_keeps ?_ (by simp) | refine packet_keeps ?_ (by simp) | refine secWrite_keeps ?_ (by simp) | refine slCmd_keeps ?_ (by simp) | refine fwCmd_keeps ?_ (by simp) | refine ksCmd_keeps ?_ (by simp) | refine fcWrite_keeps ?_ (by simp) | refine lcCmd_keeps ?_ (by simp) | refine dgCmd_keeps ?_ (by simp) | refine spdmReq_keeps ?_ (by simp) | refine message_keeps ?_ (by simp) | refine boundMessage_keeps ?_ (by simp) | refine hostSlice_keeps ?_ (by simp) | refine takeVerified_keeps ?_ (by simp) | refine beadPacket_keeps ?_ (by simp) | refine vector_keeps (by simp) | refine issueRows_keeps ?_ (by simp) | refine issueLink_keeps ?_ (by simp) | simp only [keeps_settle, keeps_guardRes, keeps_unitRes, keeps_hereRes, keeps_accessRes, keeps_next, keeps_fault, keeps_refused])
  all_goals simp_all [eq_pair]

@[simp] theorem execDgetw_keeps (e : Nat) (f : Frame) (s : State) (s0 : State) (h0 : s.fixed = s0.fixed) : Keeps s0 (execDgetw e f s) := by
  refine Keeps.of h0 ?_
  unfold execDgetw
  repeat' (first | split | intro _ | refine foldl_fixed ?_ ?_ | refine issue_keeps ?_ (by simp) | refine packet_keeps ?_ (by simp) | refine secWrite_keeps ?_ (by simp) | refine slCmd_keeps ?_ (by simp) | refine fwCmd_keeps ?_ (by simp) | refine ksCmd_keeps ?_ (by simp) | refine fcWrite_keeps ?_ (by simp) | refine lcCmd_keeps ?_ (by simp) | refine dgCmd_keeps ?_ (by simp) | refine spdmReq_keeps ?_ (by simp) | refine message_keeps ?_ (by simp) | refine boundMessage_keeps ?_ (by simp) | refine hostSlice_keeps ?_ (by simp) | refine takeVerified_keeps ?_ (by simp) | refine beadPacket_keeps ?_ (by simp) | refine vector_keeps (by simp) | refine issueRows_keeps ?_ (by simp) | refine issueLink_keeps ?_ (by simp) | simp only [keeps_settle, keeps_guardRes, keeps_unitRes, keeps_hereRes, keeps_accessRes, keeps_next, keeps_fault, keeps_refused])
  all_goals simp_all [eq_pair]

@[simp] theorem execSmov_keeps (e : Nat) (f : Frame) (s : State) (s0 : State) (h0 : s.fixed = s0.fixed) : Keeps s0 (execSmov e f s) := by
  refine Keeps.of h0 ?_
  unfold execSmov
  repeat' (first | split | intro _ | refine foldl_fixed ?_ ?_ | refine issue_keeps ?_ (by simp) | refine packet_keeps ?_ (by simp) | refine secWrite_keeps ?_ (by simp) | refine slCmd_keeps ?_ (by simp) | refine fwCmd_keeps ?_ (by simp) | refine ksCmd_keeps ?_ (by simp) | refine fcWrite_keeps ?_ (by simp) | refine lcCmd_keeps ?_ (by simp) | refine dgCmd_keeps ?_ (by simp) | refine spdmReq_keeps ?_ (by simp) | refine message_keeps ?_ (by simp) | refine boundMessage_keeps ?_ (by simp) | refine hostSlice_keeps ?_ (by simp) | refine takeVerified_keeps ?_ (by simp) | refine beadPacket_keeps ?_ (by simp) | refine vector_keeps (by simp) | refine issueRows_keeps ?_ (by simp) | refine issueLink_keeps ?_ (by simp) | simp only [keeps_settle, keeps_guardRes, keeps_unitRes, keeps_hereRes, keeps_accessRes, keeps_next, keeps_fault, keeps_refused])
  all_goals simp_all [eq_pair]

@[simp] theorem execSadd_keeps (e : Nat) (f : Frame) (s : State) (s0 : State) (h0 : s.fixed = s0.fixed) : Keeps s0 (execSadd e f s) := by
  refine Keeps.of h0 ?_
  unfold execSadd; simp

@[simp] theorem execSsub_keeps (e : Nat) (f : Frame) (s : State) (s0 : State) (h0 : s.fixed = s0.fixed) : Keeps s0 (execSsub e f s) := by
  refine Keeps.of h0 ?_
  unfold execSsub; simp

@[simp] theorem execSmul_keeps (e : Nat) (f : Frame) (s : State) (s0 : State) (h0 : s.fixed = s0.fixed) : Keeps s0 (execSmul e f s) := by
  refine Keeps.of h0 ?_
  unfold execSmul; simp

@[simp] theorem execSand_keeps (e : Nat) (f : Frame) (s : State) (s0 : State) (h0 : s.fixed = s0.fixed) : Keeps s0 (execSand e f s) := by
  refine Keeps.of h0 ?_
  unfold execSand; simp

@[simp] theorem execSor_keeps (e : Nat) (f : Frame) (s : State) (s0 : State) (h0 : s.fixed = s0.fixed) : Keeps s0 (execSor e f s) := by
  refine Keeps.of h0 ?_
  unfold execSor; simp

@[simp] theorem execSxor_keeps (e : Nat) (f : Frame) (s : State) (s0 : State) (h0 : s.fixed = s0.fixed) : Keeps s0 (execSxor e f s) := by
  refine Keeps.of h0 ?_
  unfold execSxor; simp

@[simp] theorem execSshl_keeps (e : Nat) (f : Frame) (s : State) (s0 : State) (h0 : s.fixed = s0.fixed) : Keeps s0 (execSshl e f s) := by
  refine Keeps.of h0 ?_
  unfold execSshl; simp

@[simp] theorem execSshr_keeps (e : Nat) (f : Frame) (s : State) (s0 : State) (h0 : s.fixed = s0.fixed) : Keeps s0 (execSshr e f s) := by
  refine Keeps.of h0 ?_
  unfold execSshr; simp

@[simp] theorem execSsra_keeps (e : Nat) (f : Frame) (s : State) (s0 : State) (h0 : s.fixed = s0.fixed) : Keeps s0 (execSsra e f s) := by
  refine Keeps.of h0 ?_
  unfold execSsra; simp

@[simp] theorem execSeq_keeps (e : Nat) (f : Frame) (s : State) (s0 : State) (h0 : s.fixed = s0.fixed) : Keeps s0 (execSeq e f s) := by
  refine Keeps.of h0 ?_
  unfold execSeq; simp

@[simp] theorem execSne_keeps (e : Nat) (f : Frame) (s : State) (s0 : State) (h0 : s.fixed = s0.fixed) : Keeps s0 (execSne e f s) := by
  refine Keeps.of h0 ?_
  unfold execSne; simp

@[simp] theorem execSlt_keeps (e : Nat) (f : Frame) (s : State) (s0 : State) (h0 : s.fixed = s0.fixed) : Keeps s0 (execSlt e f s) := by
  refine Keeps.of h0 ?_
  unfold execSlt; simp

@[simp] theorem execSltu_keeps (e : Nat) (f : Frame) (s : State) (s0 : State) (h0 : s.fixed = s0.fixed) : Keeps s0 (execSltu e f s) := by
  refine Keeps.of h0 ?_
  unfold execSltu; simp

@[simp] theorem execSle_keeps (e : Nat) (f : Frame) (s : State) (s0 : State) (h0 : s.fixed = s0.fixed) : Keeps s0 (execSle e f s) := by
  refine Keeps.of h0 ?_
  unfold execSle; simp

@[simp] theorem execSleu_keeps (e : Nat) (f : Frame) (s : State) (s0 : State) (h0 : s.fixed = s0.fixed) : Keeps s0 (execSleu e f s) := by
  refine Keeps.of h0 ?_
  unfold execSleu; simp

@[simp] theorem execPlog_keeps (e : Nat) (f : Frame) (s : State) (s0 : State) (h0 : s.fixed = s0.fixed) : Keeps s0 (execPlog e f s) := by
  refine Keeps.of h0 ?_
  unfold execPlog
  repeat' (first | split | intro _ | refine foldl_fixed ?_ ?_ | refine issue_keeps ?_ (by simp) | refine packet_keeps ?_ (by simp) | refine secWrite_keeps ?_ (by simp) | refine slCmd_keeps ?_ (by simp) | refine fwCmd_keeps ?_ (by simp) | refine ksCmd_keeps ?_ (by simp) | refine fcWrite_keeps ?_ (by simp) | refine lcCmd_keeps ?_ (by simp) | refine dgCmd_keeps ?_ (by simp) | refine spdmReq_keeps ?_ (by simp) | refine message_keeps ?_ (by simp) | refine boundMessage_keeps ?_ (by simp) | refine hostSlice_keeps ?_ (by simp) | refine takeVerified_keeps ?_ (by simp) | refine beadPacket_keeps ?_ (by simp) | refine vector_keeps (by simp) | refine issueRows_keeps ?_ (by simp) | refine issueLink_keeps ?_ (by simp) | simp only [keeps_settle, keeps_guardRes, keeps_unitRes, keeps_hereRes, keeps_accessRes, keeps_next, keeps_fault, keeps_refused])
  all_goals simp_all [eq_pair]

@[simp] theorem execRstep_keeps (e : Nat) (f : Frame) (s : State) (s0 : State) (h0 : s.fixed = s0.fixed) : Keeps s0 (execRstep e f s) := by
  refine Keeps.of h0 ?_
  unfold execRstep
  repeat' (first | split | intro _ | refine foldl_fixed ?_ ?_ | refine issue_keeps ?_ (by simp) | refine packet_keeps ?_ (by simp) | refine secWrite_keeps ?_ (by simp) | refine slCmd_keeps ?_ (by simp) | refine fwCmd_keeps ?_ (by simp) | refine ksCmd_keeps ?_ (by simp) | refine fcWrite_keeps ?_ (by simp) | refine lcCmd_keeps ?_ (by simp) | refine dgCmd_keeps ?_ (by simp) | refine spdmReq_keeps ?_ (by simp) | refine message_keeps ?_ (by simp) | refine boundMessage_keeps ?_ (by simp) | refine hostSlice_keeps ?_ (by simp) | refine takeVerified_keeps ?_ (by simp) | refine beadPacket_keeps ?_ (by simp) | refine vector_keeps (by simp) | refine issueRows_keeps ?_ (by simp) | refine issueLink_keeps ?_ (by simp) | simp only [keeps_settle, keeps_guardRes, keeps_unitRes, keeps_hereRes, keeps_accessRes, keeps_next, keeps_fault, keeps_refused])
  all_goals simp_all [eq_pair]

@[simp] theorem execAstep_keeps (e : Nat) (f : Frame) (s : State) (s0 : State) (h0 : s.fixed = s0.fixed) : Keeps s0 (execAstep e f s) := by
  refine Keeps.of h0 ?_
  unfold execAstep
  repeat' (first | split | intro _ | refine foldl_fixed ?_ ?_ | refine issue_keeps ?_ (by simp) | refine packet_keeps ?_ (by simp) | refine secWrite_keeps ?_ (by simp) | refine slCmd_keeps ?_ (by simp) | refine fwCmd_keeps ?_ (by simp) | refine ksCmd_keeps ?_ (by simp) | refine fcWrite_keeps ?_ (by simp) | refine lcCmd_keeps ?_ (by simp) | refine dgCmd_keeps ?_ (by simp) | refine spdmReq_keeps ?_ (by simp) | refine message_keeps ?_ (by simp) | refine boundMessage_keeps ?_ (by simp) | refine hostSlice_keeps ?_ (by simp) | refine takeVerified_keeps ?_ (by simp) | refine beadPacket_keeps ?_ (by simp) | refine vector_keeps (by simp) | refine issueRows_keeps ?_ (by simp) | refine issueLink_keeps ?_ (by simp) | simp only [keeps_settle, keeps_guardRes, keeps_unitRes, keeps_hereRes, keeps_accessRes, keeps_next, keeps_fault, keeps_refused])
  all_goals simp_all [eq_pair]

@[simp] theorem execIllegalInstruction_keeps (e : Nat) (opcode : Nat) (s : State) (s0 : State) (h0 : s.fixed = s0.fixed) : Keeps s0 (execIllegalInstruction e opcode s) := by
  refine Keeps.of h0 ?_
  unfold execIllegalInstruction
  repeat' (first | split | intro _ | refine foldl_fixed ?_ ?_ | refine issue_keeps ?_ (by simp) | refine packet_keeps ?_ (by simp) | refine secWrite_keeps ?_ (by simp) | refine slCmd_keeps ?_ (by simp) | refine fwCmd_keeps ?_ (by simp) | refine ksCmd_keeps ?_ (by simp) | refine fcWrite_keeps ?_ (by simp) | refine lcCmd_keeps ?_ (by simp) | refine dgCmd_keeps ?_ (by simp) | refine spdmReq_keeps ?_ (by simp) | refine message_keeps ?_ (by simp) | refine boundMessage_keeps ?_ (by simp) | refine hostSlice_keeps ?_ (by simp) | refine takeVerified_keeps ?_ (by simp) | refine beadPacket_keeps ?_ (by simp) | refine vector_keeps (by simp) | refine issueRows_keeps ?_ (by simp) | refine issueLink_keeps ?_ (by simp) | simp only [keeps_settle, keeps_guardRes, keeps_unitRes, keeps_hereRes, keeps_accessRes, keeps_next, keeps_fault, keeps_refused])
  all_goals simp_all [eq_pair]

@[simp] theorem execFetchRange_keeps (e : Nat) (s : State) (s0 : State) (h0 : s.fixed = s0.fixed) : Keeps s0 (execFetchRange e s) := by
  refine Keeps.of h0 ?_
  unfold execFetchRange; simp

@[simp] theorem execTileOverrun_keeps (e : Nat) (s : State) (s0 : State) (h0 : s.fixed = s0.fixed) : Keeps s0 (execTileOverrun e s) := by
  refine Keeps.of h0 ?_
  unfold execTileOverrun; simp

end Sys2Proof.Machine
end

