-- ==== Sys2Proof/Laws/KeepSync.lean ====
section
/-! SUPPORT. Each operation of Machine/Sync.lean keeps the fixed part of the state: the build parameters and the queue. -/
set_option linter.unusedSimpArgs false
set_option linter.unusedTactic false
set_option linter.unreachableTactic false
namespace Sys2Proof.Machine

@[simp] theorem engTally_fixed (s : State) (e : Nat) (h : Nat) (kind : TKind) (off : Nat) (v : Word) (ret : TRet) : (engTally s e h kind off v ret).fixed = s.fixed := by
  unfold engTally; simp

@[simp] theorem execTwait_keeps (e : Nat) (f : Frame) (s : State) (s0 : State) (h0 : s.fixed = s0.fixed) : Keeps s0 (execTwait e f s) := by
  refine Keeps.of h0 ?_
  unfold execTwait
  repeat' (first | split | intro _ | refine foldl_fixed ?_ ?_ | refine issue_keeps ?_ (by simp) | refine packet_keeps ?_ (by simp) | refine secWrite_keeps ?_ (by simp) | refine slCmd_keeps ?_ (by simp) | refine fwCmd_keeps ?_ (by simp) | refine ksCmd_keeps ?_ (by simp) | refine fcWrite_keeps ?_ (by simp) | refine lcCmd_keeps ?_ (by simp) | refine dgCmd_keeps ?_ (by simp) | refine spdmReq_keeps ?_ (by simp) | refine message_keeps ?_ (by simp) | refine boundMessage_keeps ?_ (by simp) | refine hostSlice_keeps ?_ (by simp) | refine takeVerified_keeps ?_ (by simp) | refine beadPacket_keeps ?_ (by simp) | refine vector_keeps (by simp) | refine issueRows_keeps ?_ (by simp) | refine issueLink_keeps ?_ (by simp) | simp only [keeps_settle, keeps_guardRes, keeps_unitRes, keeps_hereRes, keeps_accessRes, keeps_next, keeps_fault, keeps_refused])
  all_goals simp_all [eq_pair]

@[simp] theorem orphanCheck_fixed (s : State) (f : Nat) (v : Word) : (orphanCheck s f v).fixed = s.fixed := by
  unfold orphanCheck; simp

@[simp] theorem execFwait_keeps (e : Nat) (f : Frame) (s : State) (s0 : State) (h0 : s.fixed = s0.fixed) : Keeps s0 (execFwait e f s) := by
  refine Keeps.of h0 ?_
  unfold execFwait
  repeat' (first | split | intro _ | refine foldl_fixed ?_ ?_ | refine issue_keeps ?_ (by simp) | refine packet_keeps ?_ (by simp) | refine secWrite_keeps ?_ (by simp) | refine slCmd_keeps ?_ (by simp) | refine fwCmd_keeps ?_ (by simp) | refine ksCmd_keeps ?_ (by simp) | refine fcWrite_keeps ?_ (by simp) | refine lcCmd_keeps ?_ (by simp) | refine dgCmd_keeps ?_ (by simp) | refine spdmReq_keeps ?_ (by simp) | refine message_keeps ?_ (by simp) | refine boundMessage_keeps ?_ (by simp) | refine hostSlice_keeps ?_ (by simp) | refine takeVerified_keeps ?_ (by simp) | refine beadPacket_keeps ?_ (by simp) | refine vector_keeps (by simp) | refine issueRows_keeps ?_ (by simp) | refine issueLink_keeps ?_ (by simp) | simp only [keeps_settle, keeps_guardRes, keeps_unitRes, keeps_hereRes, keeps_accessRes, keeps_next, keeps_fault, keeps_refused])
  all_goals simp_all [eq_pair]

@[simp] theorem releaseWait_fixed (s : State) (e : Nat) (w : WaitRec) (r : Word) : (releaseWait s e w r).fixed = s.fixed := by
  unfold releaseWait; simp

@[simp] theorem execTwaitRelease_keeps (e : Nat) (s : State) (s0 : State) (h0 : s.fixed = s0.fixed) : Keeps s0 (execTwaitRelease e s) := by
  refine Keeps.of h0 ?_
  unfold execTwaitRelease
  repeat' (first | split | intro _ | refine foldl_fixed ?_ ?_ | refine issue_keeps ?_ (by simp) | refine packet_keeps ?_ (by simp) | refine secWrite_keeps ?_ (by simp) | refine slCmd_keeps ?_ (by simp) | refine fwCmd_keeps ?_ (by simp) | refine ksCmd_keeps ?_ (by simp) | refine fcWrite_keeps ?_ (by simp) | refine lcCmd_keeps ?_ (by simp) | refine dgCmd_keeps ?_ (by simp) | refine spdmReq_keeps ?_ (by simp) | refine message_keeps ?_ (by simp) | refine boundMessage_keeps ?_ (by simp) | refine hostSlice_keeps ?_ (by simp) | refine takeVerified_keeps ?_ (by simp) | refine beadPacket_keeps ?_ (by simp) | refine vector_keeps (by simp) | refine issueRows_keeps ?_ (by simp) | refine issueLink_keeps ?_ (by simp) | simp only [keeps_settle, keeps_guardRes, keeps_unitRes, keeps_hereRes, keeps_accessRes, keeps_next, keeps_fault, keeps_refused])
  all_goals simp_all [eq_pair]

@[simp] theorem execFwaitRelease_keeps (e : Nat) (s : State) (s0 : State) (h0 : s.fixed = s0.fixed) : Keeps s0 (execFwaitRelease e s) := by
  refine Keeps.of h0 ?_
  unfold execFwaitRelease
  repeat' (first | split | intro _ | refine foldl_fixed ?_ ?_ | refine issue_keeps ?_ (by simp) | refine packet_keeps ?_ (by simp) | refine secWrite_keeps ?_ (by simp) | refine slCmd_keeps ?_ (by simp) | refine fwCmd_keeps ?_ (by simp) | refine ksCmd_keeps ?_ (by simp) | refine fcWrite_keeps ?_ (by simp) | refine lcCmd_keeps ?_ (by simp) | refine dgCmd_keeps ?_ (by simp) | refine spdmReq_keeps ?_ (by simp) | refine message_keeps ?_ (by simp) | refine boundMessage_keeps ?_ (by simp) | refine hostSlice_keeps ?_ (by simp) | refine takeVerified_keeps ?_ (by simp) | refine beadPacket_keeps ?_ (by simp) | refine vector_keeps (by simp) | refine issueRows_keeps ?_ (by simp) | refine issueLink_keeps ?_ (by simp) | simp only [keeps_settle, keeps_guardRes, keeps_unitRes, keeps_hereRes, keeps_accessRes, keeps_next, keeps_fault, keeps_refused])
  all_goals simp_all [eq_pair]

@[simp] theorem pendReg_fixed (s : State) (e : Nat) (r : Nat) : (pendReg s e r).fixed = s.fixed := by
  unfold pendReg; simp

@[simp] theorem tallyReturning_keeps (s : State) (g : Engine) (e : Nat) (f : Frame) (h : Nat) (kind : TKind) (off : Nat) (v : Word) (s0 : State) (h0 : s.fixed = s0.fixed) : IKeeps s0 (tallyReturning s g e f h kind off v) := by
  refine IKeeps.of h0 ?_
  unfold tallyReturning; simp

@[simp] theorem execTld_keeps (e : Nat) (f : Frame) (s : State) (s0 : State) (h0 : s.fixed = s0.fixed) : Keeps s0 (execTld e f s) := by
  refine Keeps.of h0 ?_
  unfold execTld
  repeat' (first | split | intro _ | refine foldl_fixed ?_ ?_ | refine issue_keeps ?_ (by simp) | refine packet_keeps ?_ (by simp) | refine secWrite_keeps ?_ (by simp) | refine slCmd_keeps ?_ (by simp) | refine fwCmd_keeps ?_ (by simp) | refine ksCmd_keeps ?_ (by simp) | refine fcWrite_keeps ?_ (by simp) | refine lcCmd_keeps ?_ (by simp) | refine dgCmd_keeps ?_ (by simp) | refine spdmReq_keeps ?_ (by simp) | refine message_keeps ?_ (by simp) | refine boundMessage_keeps ?_ (by simp) | refine hostSlice_keeps ?_ (by simp) | refine takeVerified_keeps ?_ (by simp) | refine beadPacket_keeps ?_ (by simp) | refine vector_keeps (by simp) | refine issueRows_keeps ?_ (by simp) | refine issueLink_keeps ?_ (by simp) | simp only [keeps_settle, keeps_guardRes, keeps_unitRes, keeps_hereRes, keeps_accessRes, keeps_next, keeps_fault, keeps_refused])
  all_goals simp_all [eq_pair]

@[simp] theorem execTadd_keeps (e : Nat) (f : Frame) (s : State) (s0 : State) (h0 : s.fixed = s0.fixed) : Keeps s0 (execTadd e f s) := by
  refine Keeps.of h0 ?_
  unfold execTadd
  repeat' (first | split | intro _ | refine foldl_fixed ?_ ?_ | refine issue_keeps ?_ (by simp) | refine packet_keeps ?_ (by simp) | refine secWrite_keeps ?_ (by simp) | refine slCmd_keeps ?_ (by simp) | refine fwCmd_keeps ?_ (by simp) | refine ksCmd_keeps ?_ (by simp) | refine fcWrite_keeps ?_ (by simp) | refine lcCmd_keeps ?_ (by simp) | refine dgCmd_keeps ?_ (by simp) | refine spdmReq_keeps ?_ (by simp) | refine message_keeps ?_ (by simp) | refine boundMessage_keeps ?_ (by simp) | refine hostSlice_keeps ?_ (by simp) | refine takeVerified_keeps ?_ (by simp) | refine beadPacket_keeps ?_ (by simp) | refine vector_keeps (by simp) | refine issueRows_keeps ?_ (by simp) | refine issueLink_keeps ?_ (by simp) | simp only [keeps_settle, keeps_guardRes, keeps_unitRes, keeps_hereRes, keeps_accessRes, keeps_next, keeps_fault, keeps_refused])
  all_goals simp_all [eq_pair]

@[simp] theorem execTswap_keeps (e : Nat) (f : Frame) (s : State) (s0 : State) (h0 : s.fixed = s0.fixed) : Keeps s0 (execTswap e f s) := by
  refine Keeps.of h0 ?_
  unfold execTswap
  repeat' (first | split | intro _ | refine foldl_fixed ?_ ?_ | refine issue_keeps ?_ (by simp) | refine packet_keeps ?_ (by simp) | refine secWrite_keeps ?_ (by simp) | refine slCmd_keeps ?_ (by simp) | refine fwCmd_keeps ?_ (by simp) | refine ksCmd_keeps ?_ (by simp) | refine fcWrite_keeps ?_ (by simp) | refine lcCmd_keeps ?_ (by simp) | refine dgCmd_keeps ?_ (by simp) | refine spdmReq_keeps ?_ (by simp) | refine message_keeps ?_ (by simp) | refine boundMessage_keeps ?_ (by simp) | refine hostSlice_keeps ?_ (by simp) | refine takeVerified_keeps ?_ (by simp) | refine beadPacket_keeps ?_ (by simp) | refine vector_keeps (by simp) | refine issueRows_keeps ?_ (by simp) | refine issueLink_keeps ?_ (by simp) | simp only [keeps_settle, keeps_guardRes, keeps_unitRes, keeps_hereRes, keeps_accessRes, keeps_next, keeps_fault, keeps_refused])
  all_goals simp_all [eq_pair]

@[simp] theorem execFsig_keeps (e : Nat) (f : Frame) (s : State) (s0 : State) (h0 : s.fixed = s0.fixed) : Keeps s0 (execFsig e f s) := by
  refine Keeps.of h0 ?_
  unfold execFsig
  repeat' (first | split | intro _ | refine foldl_fixed ?_ ?_ | refine issue_keeps ?_ (by simp) | refine packet_keeps ?_ (by simp) | refine secWrite_keeps ?_ (by simp) | refine slCmd_keeps ?_ (by simp) | refine fwCmd_keeps ?_ (by simp) | refine ksCmd_keeps ?_ (by simp) | refine fcWrite_keeps ?_ (by simp) | refine lcCmd_keeps ?_ (by simp) | refine dgCmd_keeps ?_ (by simp) | refine spdmReq_keeps ?_ (by simp) | refine message_keeps ?_ (by simp) | refine boundMessage_keeps ?_ (by simp) | refine hostSlice_keeps ?_ (by simp) | refine takeVerified_keeps ?_ (by simp) | refine beadPacket_keeps ?_ (by simp) | refine vector_keeps (by simp) | refine issueRows_keeps ?_ (by simp) | refine issueLink_keeps ?_ (by simp) | simp only [keeps_settle, keeps_guardRes, keeps_unitRes, keeps_hereRes, keeps_accessRes, keeps_next, keeps_fault, keeps_refused])
  all_goals simp_all [eq_pair]

@[simp] theorem execFerr_keeps (e : Nat) (f : Frame) (s : State) (s0 : State) (h0 : s.fixed = s0.fixed) : Keeps s0 (execFerr e f s) := by
  refine Keeps.of h0 ?_
  unfold execFerr
  repeat' (first | split | intro _ | refine foldl_fixed ?_ ?_ | refine issue_keeps ?_ (by simp) | refine packet_keeps ?_ (by simp) | refine secWrite_keeps ?_ (by simp) | refine slCmd_keeps ?_ (by simp) | refine fwCmd_keeps ?_ (by simp) | refine ksCmd_keeps ?_ (by simp) | refine fcWrite_keeps ?_ (by simp) | refine lcCmd_keeps ?_ (by simp) | refine dgCmd_keeps ?_ (by simp) | refine spdmReq_keeps ?_ (by simp) | refine message_keeps ?_ (by simp) | refine boundMessage_keeps ?_ (by simp) | refine hostSlice_keeps ?_ (by simp) | refine takeVerified_keeps ?_ (by simp) | refine beadPacket_keeps ?_ (by simp) | refine vector_keeps (by simp) | refine issueRows_keeps ?_ (by simp) | refine issueLink_keeps ?_ (by simp) | simp only [keeps_settle, keeps_guardRes, keeps_unitRes, keeps_hereRes, keeps_accessRes, keeps_next, keeps_fault, keeps_refused])
  all_goals simp_all [eq_pair]

end Sys2Proof.Machine
end

