-- ==== Sys2Proof/Laws/KeepMovement.lean ====
section
/-! SUPPORT. Each operation of Machine/Movement.lean keeps the fixed part of the state: the build parameters and the queue. -/
set_option linter.unusedSimpArgs false
set_option linter.unusedTactic false
set_option linter.unreachableTactic false
namespace Sys2Proof.Machine

@[simp] theorem boltChecked_fixed (s : State) (c : Nat) (a : Nat) (n : Nat) : (boltChecked s c a n).1.fixed = s.fixed := by
  unfold boltChecked
  repeat' (first | split | intro _ | refine foldl_fixed ?_ ?_ | simp only [keeps_settle, keeps_guardRes, keeps_unitRes, keeps_hereRes, keeps_accessRes, keeps_next, keeps_fault, keeps_refused])
  all_goals simp_all [eq_pair]

@[simp] theorem spadChecked_fixed (s : State) (e : Nat) (a : Nat) (n : Nat) : (spadChecked s e a n).1.fixed = s.fixed := by
  unfold spadChecked
  repeat' (first | split | intro _ | refine foldl_fixed ?_ ?_ | simp only [keeps_settle, keeps_guardRes, keeps_unitRes, keeps_hereRes, keeps_accessRes, keeps_next, keeps_fault, keeps_refused])
  all_goals simp_all [eq_pair]

@[simp] theorem spadCheckedAll_fixed (s : State) (e : Nat) (xs : List (Nat × Nat)) : (spadCheckedAll s e xs).1.fixed = s.fixed := by
  unfold spadCheckedAll
  repeat' (first | split | intro _ | refine foldl_fixed ?_ ?_ | simp only [keeps_settle, keeps_guardRes, keeps_unitRes, keeps_hereRes, keeps_accessRes, keeps_next, keeps_fault, keeps_refused])
  all_goals simp_all [eq_pair]

@[simp] theorem spadWrite_fixed (s : State) (e : Nat) (a : Nat) (bs : List Byte) : (spadWrite s e a bs).1.fixed = s.fixed := by
  unfold spadWrite; simp

@[simp] theorem spadWrites_fixed (e : Nat) (s : State) (l : List (Nat × List Byte)) : (spadWrites e s l).1.fixed = s.fixed := by
  induction l generalizing s with
  | nil => rfl
  | cons x t ih =>
    unfold spadWrites
    try dsimp only
    repeat' split
    all_goals simp_all [eq_pair]

@[simp] theorem openLines_fixed (who : Who) (s : State) (lines : List Nat) : (openLines who s lines).1.fixed = s.fixed := by
  unfold openLines
  split
  · rfl
  · refine foldl_fst_fixed fun p q => ?_
    repeat' split
    all_goals simp_all [eq_pair]

@[simp] theorem snapMix_fixed (c : Nat) (snap : List (Nat × Byte)) (s : State) (a n : Nat) : (snapMix c snap s a n).1.fixed = s.fixed := by
  induction n generalizing s a with
  | zero => rfl
  | succ n ih =>
    unfold snapMix
    try dsimp only
    repeat' split
    all_goals simp_all [eq_pair]

@[simp] theorem copyIn_fixed (who : Who) (via : Via) (c a : Nat) (s : State) (l : List (Nat × Nat × Nat)) :
    (copyIn who via c a s l).1.fixed = s.fixed := by
  induction l generalizing s with
  | nil => rfl
  | cons x t ih =>
    unfold copyIn
    try dsimp only
    rw [ih]
    refine foldl_fst_fixed fun p q => ?_
    try dsimp only
    repeat' split
    all_goals simp_all [eq_pair]

@[simp] theorem padIn_fixed (c a : Nat) (s : State) (pads : List (Nat × Nat)) : (padIn c a s pads).1.fixed = s.fixed := by
  unfold padIn
  exact foldl_fst_fixed fun p q => by simp

@[simp] theorem writePoisonPart_fixed (s : State) (who : Who) (via : Via) (p : Nat × Nat × Nat) : (writePoisonPart s who via p).1.fixed = s.fixed := by
  unfold writePoisonPart
  repeat' (first | split | intro _ | refine foldl_fixed ?_ ?_ | simp only [keeps_settle, keeps_guardRes, keeps_unitRes, keeps_hereRes, keeps_accessRes, keeps_next, keeps_fault, keeps_refused])
  all_goals simp_all [eq_pair]

@[simp] theorem outPart_fixed (who : Who) (via : Via) (cut : Bool) (s : State) (p : Nat × Nat × Nat) (bs : List Byte) (bad : Bool) : (outPart who via cut s p bs bad).1.fixed = s.fixed := by
  simp only [outPart, apply_ite State.fixed]
  repeat' (first | (simp [eq_pair]; done) | intro _ | split)
  all_goals simp_all [eq_pair]

@[simp] theorem copyOut_fixed (who : Who) (via : Via) (c a : Nat) (snap : List (Nat × Byte)) (cut : Bool) (s : State)
    (l : List (Nat × Nat × Nat)) : (copyOut who via c a snap cut s l).1.fixed = s.fixed := by
  induction l generalizing s with
  | nil => rfl
  | cons x t ih =>
    unfold copyOut
    try dsimp only
    rw [ih]
    refine foldl_fst_fixed fun p q => ?_
    try dsimp only
    repeat' split
    all_goals simp_all [eq_pair]

@[simp] theorem writeChunks_fixed (who : Who) (via : Via) (cut : Bool) (s : State) (l : List (Nat × List Byte)) :
    (writeChunks who via cut s l).1.fixed = s.fixed := by
  induction l generalizing s with
  | nil => rfl
  | cons x t ih =>
    unfold writeChunks
    try dsimp only
    rw [ih]
    exact foldl_fst_fixed fun p q => by simp

@[simp] theorem fibreLen_fixed (rd : State → Nat → State × Acc Nat) (hr : ∀ t b, (rd t b).1.fixed = t.fixed) (w n : Nat) (s : State) (a : Nat) : (fibreLen rd w n s a).1.fixed = s.fixed := by
  induction n generalizing s a with
  | zero => rfl
  | succ n ih =>
    unfold fibreLen
    try dsimp only
    repeat' split
    all_goals simp_all [eq_pair]

@[simp] theorem poisonRest_fixed (s : State) (c : Nat) (at' : Nat) (pos : Nat) (a : Nat) (n : Nat) (code : Nat) : (poisonRest s c at' pos a n code).fixed = s.fixed := by
  unfold poisonRest; simp

@[simp] theorem bitmapIn_fixed (who : Who) (t : Tensor) (w : Win) (c a limit : Nat) (s : State) (n r pos : Nat) :
    (bitmapIn who t w c a limit s n r pos).1.fixed = s.fixed := by
  have hf := fun w n s a => fibreLen_fixed (fun s a => memNat s { who with counted := true } .va a 16) (fun t b => by simp) w n s a
  induction n generalizing s r pos with
  | zero => rfl
  | succ n ih =>
    unfold bitmapIn
    try dsimp only
    generalize fibreLen (fun s a => memNat s { who with counted := true } .va a 16) = F at hf ⊢
    repeat' split
    all_goals simp_all [eq_pair]

@[simp] theorem bitmapOut_fixed (who : Who) (t : Tensor) (w : Win) (c a limit : Nat) (snap : List (Nat × Byte)) (cut : Bool) (s : State)
    (n r : Nat) : (bitmapOut who t w c a limit snap cut s n r).1.fixed = s.fixed := by
  induction n generalizing s r with
  | zero => rfl
  | succ n ih =>
    unfold bitmapOut
    try dsimp only
    repeat' split
    all_goals simp_all [eq_pair]

@[simp] theorem moveAsync_fixed (s : State) (a : AsyncOp) : (moveAsync s a).1.fixed = s.fixed := by
  unfold moveAsync
  repeat' (first | split | intro _ | refine foldl_fixed ?_ ?_ | simp only [keeps_settle, keeps_guardRes, keeps_unitRes, keeps_hereRes, keeps_accessRes, keeps_next, keeps_fault, keeps_refused])
  all_goals simp_all [eq_pair]

@[simp] theorem pickByte_fixed (z0 : State) (z1 : Byte) (z2 : List Byte) : (pickByte z0 z1 z2).1.fixed = z0.fixed := by
  fun_induction pickByte <;> simp_all [eq_pair]

@[simp] theorem pickBytes_fixed (alts : List (List Byte)) (z1 : State) (z2 : Nat) (z3 : List Byte) : (pickBytes alts z1 z2 z3).1.fixed = z1.fixed := by
  fun_induction pickBytes <;> simp_all [eq_pair]

@[simp] theorem boltSeen_fixed (s : State) (c : Nat) (ctx : Nat) (gen : Nat) (o : Nat) (a : Nat) (n : Nat) : (boltSeen s c ctx gen o a n).1.fixed = s.fixed := by
  unfold boltSeen
  repeat' (first | split | intro _ | refine foldl_fixed ?_ ?_ | simp only [keeps_settle, keeps_guardRes, keeps_unitRes, keeps_hereRes, keeps_accessRes, keeps_next, keeps_fault, keeps_refused])
  all_goals simp_all [eq_pair]

@[simp] theorem startAsync_keeps (s : State) (g : Engine) (e : Nat) (f : Frame) (kind : AKind) (queued : Bool) (reserved : Nat) (s0 : State) (h0 : s.fixed = s0.fixed) : IKeeps s0 (startAsync s g e f kind queued reserved) := by
  refine IKeeps.of h0 ?_
  unfold startAsync
  repeat' (first | split | intro _ | refine foldl_fixed ?_ ?_ | refine issue_keeps ?_ (by simp) | refine packet_keeps ?_ (by simp) | refine secWrite_keeps ?_ (by simp) | refine slCmd_keeps ?_ (by simp) | refine fwCmd_keeps ?_ (by simp) | refine ksCmd_keeps ?_ (by simp) | refine fcWrite_keeps ?_ (by simp) | refine lcCmd_keeps ?_ (by simp) | refine dgCmd_keeps ?_ (by simp) | refine spdmReq_keeps ?_ (by simp) | refine message_keeps ?_ (by simp) | refine boundMessage_keeps ?_ (by simp) | refine hostSlice_keeps ?_ (by simp) | refine takeVerified_keeps ?_ (by simp) | refine beadPacket_keeps ?_ (by simp) | refine vector_keeps (by simp) | refine issueRows_keeps ?_ (by simp) | refine issueLink_keeps ?_ (by simp) | simp only [keeps_settle, keeps_guardRes, keeps_unitRes, keeps_hereRes, keeps_accessRes, keeps_next, keeps_fault, keeps_refused])
  all_goals simp_all [eq_pair]

@[simp] theorem execPref_keeps (e : Nat) (f : Frame) (s : State) (s0 : State) (h0 : s.fixed = s0.fixed) : Keeps s0 (execPref e f s) := by
  refine Keeps.of h0 ?_
  unfold execPref
  repeat' (first | split | intro _ | refine foldl_fixed ?_ ?_ | refine issue_keeps ?_ (by simp) | refine packet_keeps ?_ (by simp) | refine secWrite_keeps ?_ (by simp) | refine slCmd_keeps ?_ (by simp) | refine fwCmd_keeps ?_ (by simp) | refine ksCmd_keeps ?_ (by simp) | refine fcWrite_keeps ?_ (by simp) | refine lcCmd_keeps ?_ (by simp) | refine dgCmd_keeps ?_ (by simp) | refine spdmReq_keeps ?_ (by simp) | refine message_keeps ?_ (by simp) | refine boundMessage_keeps ?_ (by simp) | refine hostSlice_keeps ?_ (by simp) | refine takeVerified_keeps ?_ (by simp) | refine beadPacket_keeps ?_ (by simp) | refine vector_keeps (by simp) | refine issueRows_keeps ?_ (by simp) | refine issueLink_keeps ?_ (by simp) | simp only [keeps_settle, keeps_guardRes, keeps_unitRes, keeps_hereRes, keeps_accessRes, keeps_next, keeps_fault, keeps_refused])
  all_goals simp_all [eq_pair]

@[simp] theorem execPush_keeps (e : Nat) (f : Frame) (s : State) (s0 : State) (h0 : s.fixed = s0.fixed) : Keeps s0 (execPush e f s) := by
  refine Keeps.of h0 ?_
  unfold execPush
  repeat' (first | split | intro _ | refine foldl_fixed ?_ ?_ | refine issue_keeps ?_ (by simp) | refine packet_keeps ?_ (by simp) | refine secWrite_keeps ?_ (by simp) | refine slCmd_keeps ?_ (by simp) | refine fwCmd_keeps ?_ (by simp) | refine ksCmd_keeps ?_ (by simp) | refine fcWrite_keeps ?_ (by simp) | refine lcCmd_keeps ?_ (by simp) | refine dgCmd_keeps ?_ (by simp) | refine spdmReq_keeps ?_ (by simp) | refine message_keeps ?_ (by simp) | refine boundMessage_keeps ?_ (by simp) | refine hostSlice_keeps ?_ (by simp) | refine takeVerified_keeps ?_ (by simp) | refine beadPacket_keeps ?_ (by simp) | refine vector_keeps (by simp) | refine issueRows_keeps ?_ (by simp) | refine issueLink_keeps ?_ (by simp) | simp only [keeps_settle, keeps_guardRes, keeps_unitRes, keeps_hereRes, keeps_accessRes, keeps_next, keeps_fault, keeps_refused])
  all_goals simp_all [eq_pair]

@[simp] theorem issueRows_keeps (e : Nat) (f : Frame) (mk : State → BitVec 256 → Nat → Nat → List Nat → AKind) (s : State) (s0 : State) (h0 : s.fixed = s0.fixed) : Keeps s0 (issueRows e f mk s) := by
  refine Keeps.of h0 ?_
  unfold issueRows
  repeat' (first | split | intro _ | refine foldl_fixed ?_ ?_ | refine issue_keeps ?_ (by simp) | refine packet_keeps ?_ (by simp) | refine secWrite_keeps ?_ (by simp) | refine slCmd_keeps ?_ (by simp) | refine fwCmd_keeps ?_ (by simp) | refine ksCmd_keeps ?_ (by simp) | refine fcWrite_keeps ?_ (by simp) | refine lcCmd_keeps ?_ (by simp) | refine dgCmd_keeps ?_ (by simp) | refine spdmReq_keeps ?_ (by simp) | refine message_keeps ?_ (by simp) | refine boundMessage_keeps ?_ (by simp) | refine hostSlice_keeps ?_ (by simp) | refine takeVerified_keeps ?_ (by simp) | refine beadPacket_keeps ?_ (by simp) | refine vector_keeps (by simp) | refine issueRows_keeps ?_ (by simp) | refine issueLink_keeps ?_ (by simp) | simp only [keeps_settle, keeps_guardRes, keeps_unitRes, keeps_hereRes, keeps_accessRes, keeps_next, keeps_fault, keeps_refused])
  all_goals simp_all [eq_pair]

@[simp] theorem execGath_keeps (e : Nat) (f : Frame) (s : State) (s0 : State) (h0 : s.fixed = s0.fixed) : Keeps s0 (execGath e f s) := by
  refine Keeps.of h0 ?_
  unfold execGath; simp

@[simp] theorem execScat_keeps (e : Nat) (f : Frame) (s : State) (s0 : State) (h0 : s.fixed = s0.fixed) : Keeps s0 (execScat e f s) := by
  refine Keeps.of h0 ?_
  unfold execScat; simp

@[simp] theorem execLdb_keeps (e : Nat) (f : Frame) (s : State) (s0 : State) (h0 : s.fixed = s0.fixed) : Keeps s0 (execLdb e f s) := by
  refine Keeps.of h0 ?_
  unfold execLdb
  repeat' (first | split | intro _ | refine foldl_fixed ?_ ?_ | refine issue_keeps ?_ (by simp) | refine packet_keeps ?_ (by simp) | refine secWrite_keeps ?_ (by simp) | refine slCmd_keeps ?_ (by simp) | refine fwCmd_keeps ?_ (by simp) | refine ksCmd_keeps ?_ (by simp) | refine fcWrite_keeps ?_ (by simp) | refine lcCmd_keeps ?_ (by simp) | refine dgCmd_keeps ?_ (by simp) | refine spdmReq_keeps ?_ (by simp) | refine message_keeps ?_ (by simp) | refine boundMessage_keeps ?_ (by simp) | refine hostSlice_keeps ?_ (by simp) | refine takeVerified_keeps ?_ (by simp) | refine beadPacket_keeps ?_ (by simp) | refine vector_keeps (by simp) | refine issueRows_keeps ?_ (by simp) | refine issueLink_keeps ?_ (by simp) | simp only [keeps_settle, keeps_guardRes, keeps_unitRes, keeps_hereRes, keeps_accessRes, keeps_next, keeps_fault, keeps_refused])
  all_goals simp_all [eq_pair]

@[simp] theorem execStb_keeps (e : Nat) (f : Frame) (s : State) (s0 : State) (h0 : s.fixed = s0.fixed) : Keeps s0 (execStb e f s) := by
  refine Keeps.of h0 ?_
  unfold execStb
  repeat' (first | split | intro _ | refine foldl_fixed ?_ ?_ | refine issue_keeps ?_ (by simp) | refine packet_keeps ?_ (by simp) | refine secWrite_keeps ?_ (by simp) | refine slCmd_keeps ?_ (by simp) | refine fwCmd_keeps ?_ (by simp) | refine ksCmd_keeps ?_ (by simp) | refine fcWrite_keeps ?_ (by simp) | refine lcCmd_keeps ?_ (by simp) | refine dgCmd_keeps ?_ (by simp) | refine spdmReq_keeps ?_ (by simp) | refine message_keeps ?_ (by simp) | refine boundMessage_keeps ?_ (by simp) | refine hostSlice_keeps ?_ (by simp) | refine takeVerified_keeps ?_ (by simp) | refine beadPacket_keeps ?_ (by simp) | refine vector_keeps (by simp) | refine issueRows_keeps ?_ (by simp) | refine issueLink_keeps ?_ (by simp) | simp only [keeps_settle, keeps_guardRes, keeps_unitRes, keeps_hereRes, keeps_accessRes, keeps_next, keeps_fault, keeps_refused])
  all_goals simp_all [eq_pair]

@[simp] theorem execSt_keeps (e : Nat) (f : Frame) (s : State) (s0 : State) (h0 : s.fixed = s0.fixed) : Keeps s0 (execSt e f s) := by
  refine Keeps.of h0 ?_
  unfold execSt
  refine issue_keeps (fun t g => ?_) rfl
  try dsimp only
  repeat' split
  all_goals first
    | (simp_all [eq_pair]; done)
    | (have h := IKeeps.ok_eq (startAsync_keeps _ _ _ _ _ _ _ _ rfl) (by assumption); simp_all [eq_pair]; done)

@[simp] theorem dropAsync_fixed (s : State) (id : Nat) : (dropAsync s id).fixed = s.fixed := by
  unfold dropAsync; simp

@[simp] theorem returnReservation_fixed (s : State) (a : AsyncOp) : (returnReservation s a).fixed = s.fixed := by
  unfold returnReservation; simp

@[simp] theorem finishVia_fixed (s : State) (a : AsyncOp) (port : Nat → Nat) (err : Option Nat) : (finishVia s a port err).fixed = s.fixed := by
  unfold finishVia
  repeat' (first | split | intro _ | refine foldl_fixed ?_ ?_ | simp only [keeps_settle, keeps_guardRes, keeps_unitRes, keeps_hereRes, keeps_accessRes, keeps_next, keeps_fault, keeps_refused])
  all_goals simp_all [eq_pair]

@[simp] theorem finishAsync_fixed (s : State) (a : AsyncOp) (err : Option Nat) : (finishAsync s a err).fixed = s.fixed := by
  unfold finishAsync
  repeat' (first | split | intro _ | refine foldl_fixed ?_ ?_ | simp only [keeps_settle, keeps_guardRes, keeps_unitRes, keeps_hereRes, keeps_accessRes, keeps_next, keeps_fault, keeps_refused])
  all_goals simp_all [eq_pair]

@[simp] theorem maxAmax_fixed (who : Who) (s : State) (a n m : Nat) : (maxAmax who s a n m).1.fixed = s.fixed := by
  induction n generalizing s a m with
  | zero => rfl
  | succ n ih =>
    unfold maxAmax
    try dsimp only
    repeat' split
    all_goals simp_all [eq_pair]

@[simp] theorem readStats_fixed (s : State) (id : Nat) : (readStats s id).fixed = s.fixed := by
  unfold readStats
  repeat' (first | split | intro _ | refine foldl_fixed ?_ ?_ | simp only [keeps_settle, keeps_guardRes, keeps_unitRes, keeps_hereRes, keeps_accessRes, keeps_next, keeps_fault, keeps_refused])
  all_goals simp_all [eq_pair]

@[simp] theorem enterFabric_fixed (s : State) (e : Nat) : (enterFabric s e).fixed = s.fixed := by
  unfold enterFabric; simp

@[simp] theorem execPrefetchDequeue_keeps (e : Nat) (s : State) (s0 : State) (h0 : s.fixed = s0.fixed) : Keeps s0 (execPrefetchDequeue e s) := by
  refine Keeps.of h0 ?_
  unfold execPrefetchDequeue
  repeat' (first | split | intro _ | simp only [keeps_settle, keeps_guardRes, keeps_unitRes, keeps_hereRes, keeps_accessRes, keeps_next, keeps_fault, keeps_refused, flip])
  all_goals simp_all [eq_pair, flip]

end Sys2Proof.Machine
end

