-- ==== Sys2Proof/Laws/KeepLinks.lean ====
section
/-! SUPPORT. Each operation of Machine/Links.lean keeps the fixed part of the state: the build parameters and the queue. -/
set_option linter.unusedSimpArgs false
set_option linter.unusedTactic false
set_option linter.unreachableTactic false
namespace Sys2Proof.Machine

@[simp] theorem modLinks_fixed (s : State) (f : Links → Links) : (modLinks s f).fixed = s.fixed := by
  unfold modLinks; simp

@[simp] theorem modLport_fixed (s : State) (i : Nat) (f : LPort → LPort) : (modLport s i f).fixed = s.fixed := by
  unfold modLport; simp

@[simp] theorem modLkey_fixed (s : State) (k : Nat) (f : LinkKey → LinkKey) : (modLkey s k f).fixed = s.fixed := by
  unfold modLkey; simp

@[simp] theorem modTx_fixed (s : State) (dest : Nat) (lkey : Nat) (f : TxStream → TxStream) : (modTx s dest lkey f).fixed = s.fixed := by
  unfold modTx; simp

@[simp] theorem modRx_fixed (s : State) (src : Nat) (lkey : Nat) (f : RxStream → RxStream) : (modRx s src lkey f).fixed = s.fixed := by
  unfold modRx; simp

@[simp] theorem countFull_fixed (s : State) : (countFull s).fixed = s.fixed := by
  unfold countFull; simp

@[simp] theorem needTx_fixed (s : State) (dest : Nat) (lkey : Nat) : (needTx s dest lkey).1.fixed = s.fixed := by
  unfold needTx
  repeat' (first | split | intro _ | refine foldl_fixed ?_ ?_ | simp only [keeps_settle, keeps_guardRes, keeps_unitRes, keeps_hereRes, keeps_accessRes, keeps_next, keeps_fault, keeps_refused])
  all_goals simp_all [eq_pair]

@[simp] theorem needRx_fixed (s : State) (src : Nat) (lkey : Nat) (port : Nat) : (needRx s src lkey port).1.fixed = s.fixed := by
  unfold needRx
  repeat' (first | split | intro _ | refine foldl_fixed ?_ ?_ | simp only [keeps_settle, keeps_guardRes, keeps_unitRes, keeps_hereRes, keeps_accessRes, keeps_next, keeps_fault, keeps_refused])
  all_goals simp_all [eq_pair]

@[simp] theorem opError_fixed (s : State) (id : Nat) (code : Nat) : (opError s id code).fixed = s.fixed := by
  unfold opError; simp

@[simp] theorem opSoft_fixed (s : State) (id : Nat) (code : Nat) : (opSoft s id code).fixed = s.fixed := by
  unfold opSoft; simp

@[simp] theorem dropStages_fixed (s : State) (p : StageKey → Bool) : (dropStages s p).fixed = s.fixed := by
  unfold dropStages; simp

@[simp] theorem freeStreams_fixed (s : State) (lkey : Nat) : (freeStreams s lkey).fixed = s.fixed := by
  unfold freeStreams; simp

@[simp] theorem failStream_fixed (s : State) (dest : Nat) (lkey : Nat) : (failStream s dest lkey).fixed = s.fixed := by
  unfold failStream; simp

@[simp] theorem emitGroup_fixed (s : State) (port : Nat) (dmac : Nat) (h : GHead) (data : List Byte) : (emitGroup s port dmac h data).fixed = s.fixed := by
  unfold emitGroup
  repeat' (first | split | intro _ | refine foldl_fixed ?_ ?_ | simp only [keeps_settle, keeps_guardRes, keeps_unitRes, keeps_hereRes, keeps_accessRes, keeps_next, keeps_fault, keeps_refused])
  all_goals simp_all [eq_pair]

@[simp] theorem hopSend_fixed (s : State) (code : Nat) (keyid : Nat) (line : List Byte) (dst : HopTo) : (hopSend s code keyid line dst).fixed = s.fixed := by
  unfold hopSend; simp

@[simp] theorem xlatXlink_fixed (s : State) (who : Who) (lkey : Nat) (va : Nat) (wr : Bool) : (xlatXlink s who lkey va wr).1.fixed = s.fixed := by
  unfold xlatXlink
  repeat' (first | split | intro _ | refine foldl_fixed ?_ ?_ | simp only [keeps_settle, keeps_guardRes, keeps_unitRes, keeps_hereRes, keeps_accessRes, keeps_next, keeps_fault, keeps_refused])
  all_goals simp_all [eq_pair]

@[simp] theorem readXlink_fixed (s : State) (who : Who) (lkey : Nat) (p : Nat × Nat × Nat) : (readXlink s who lkey p).1.fixed = s.fixed := by
  unfold readXlink
  repeat' (first | split | intro _ | refine foldl_fixed ?_ ?_ | simp only [keeps_settle, keeps_guardRes, keeps_unitRes, keeps_hereRes, keeps_accessRes, keeps_next, keeps_fault, keeps_refused])
  all_goals simp_all [eq_pair]

@[simp] theorem readXlinks_fixed (who : Who) (lkey : Nat) (z2 : State) (z3 : List (Nat × Nat × Nat)) : (readXlinks who lkey z2 z3).1.fixed = z2.fixed := by
  fun_induction readXlinks <;> simp_all [eq_pair]

@[simp] theorem natXlink_fixed (who : Who) (lkey : Nat) (n : Nat) (s : State) (a : Nat) : (natXlink who lkey n s a).1.fixed = s.fixed := by
  unfold natXlink
  repeat' (first | split | intro _ | refine foldl_fixed ?_ ?_ | simp only [keeps_settle, keeps_guardRes, keeps_unitRes, keeps_hereRes, keeps_accessRes, keeps_next, keeps_fault, keeps_refused])
  all_goals simp_all [eq_pair]

@[simp] theorem bitmapImage_fixed (who : Who) (lkey : Nat) (t : Tensor) (w : Win) (s : State) (n r pos : Nat) :
    (bitmapImage who lkey t w s n r pos).1.fixed = s.fixed := by
  have hf := fun w n s a => fibreLen_fixed (natXlink who lkey 16) (fun t b => by simp) w n s a
  induction n generalizing s r pos with
  | zero => rfl
  | succ n ih =>
    unfold bitmapImage
    generalize fibreLen (natXlink who lkey 16) = F at hf ⊢
    repeat' split
    all_goals simp_all [eq_pair]

@[simp] theorem imageOf_fixed (s : State) (who : Who) (lkey : Nat) (desc : BitVec 256) (origin : Word) (rows : Nat) (cols : Nat) : (imageOf s who lkey desc origin rows cols).1.fixed = s.fixed := by
  unfold imageOf
  repeat' (first | split | intro _ | refine foldl_fixed ?_ ?_ | simp only [keeps_settle, keeps_guardRes, keeps_unitRes, keeps_hereRes, keeps_accessRes, keeps_next, keeps_fault, keeps_refused])
  all_goals simp_all [eq_pair]

@[simp] theorem boltGroup_fixed (s : State) (eng : Nat) (ctx : Nat) (gen : Nat) (off : Nat) (n : Nat) (snap : Option (List (Nat × Byte))) : (boltGroup s eng ctx gen off n snap).1.fixed = s.fixed := by
  unfold boltGroup
  repeat' (first | split | intro _ | refine foldl_fixed ?_ ?_ | simp only [keeps_settle, keeps_guardRes, keeps_unitRes, keeps_hereRes, keeps_accessRes, keeps_next, keeps_fault, keeps_refused])
  all_goals simp_all [eq_pair]

@[simp] theorem hopLinesOf_fixed (s : State) (port : Nat) (lkey : Nat) (g : TxGroup) : (hopLinesOf s port lkey g).1.fixed = s.fixed := by
  unfold hopLinesOf
  repeat' (first | split | intro _ | refine foldl_fixed ?_ ?_ | simp only [keeps_settle, keeps_guardRes, keeps_unitRes, keeps_hereRes, keeps_accessRes, keeps_next, keeps_fault, keeps_refused])
  all_goals simp_all [eq_pair]

@[simp] theorem hopLines_fixed (who : Who) (lkey : Nat) (port : Nat) (key : StageKey) (z4 : State) (z5 : List (Nat × Nat × Nat × Nat)) : (hopLines who lkey port key z4 z5).1.fixed = z4.fixed := by
  fun_induction hopLines <;> simp_all [eq_pair]

@[simp] theorem startStage_fixed (s : State) (port : Nat) (lkey : Nat) (key : StageKey) (g : TxGroup) : (startStage s port lkey key g).1.fixed = s.fixed := by
  unfold startStage
  repeat' (first | split | intro _ | refine foldl_fixed ?_ ?_ | simp only [keeps_settle, keeps_guardRes, keeps_unitRes, keeps_hereRes, keeps_accessRes, keeps_next, keeps_fault, keeps_refused])
  all_goals simp_all [eq_pair]

@[simp] theorem groupData_fixed (s : State) (g : TxGroup) : (groupData s g).1.fixed = s.fixed := by
  unfold groupData
  repeat' (first | split | intro _ | refine foldl_fixed ?_ ?_ | simp only [keeps_settle, keeps_guardRes, keeps_unitRes, keeps_hereRes, keeps_accessRes, keeps_next, keeps_fault, keeps_refused])
  all_goals simp_all [eq_pair]

@[simp] theorem sendGroup_fixed (s : State) (dest : Nat) (lkey : Nat) (g : TxGroup) (data : List Byte) (port : Nat) (dmac : Nat) (again : Bool) : (sendGroup s dest lkey g data port dmac again).fixed = s.fixed := by
  unfold sendGroup; simp

@[simp] theorem againError_fixed (s : State) (g : TxGroup) (code : Nat) : (againError s g code).fixed = s.fixed := by
  unfold againError
  repeat' (first | split | intro _ | refine foldl_fixed ?_ ?_ | simp only [keeps_settle, keeps_guardRes, keeps_unitRes, keeps_hereRes, keeps_accessRes, keeps_next, keeps_fault, keeps_refused])
  all_goals simp_all [eq_pair]

@[simp] theorem finishAgain_fixed (s : State) (dest : Nat) (lkey : Nat) (seq : Nat) : (finishAgain s dest lkey seq).fixed = s.fixed := by
  unfold finishAgain
  repeat' (first | split | intro _ | refine foldl_fixed ?_ ?_ | simp only [keeps_settle, keeps_guardRes, keeps_unitRes, keeps_hereRes, keeps_accessRes, keeps_next, keeps_fault, keeps_refused])
  all_goals simp_all [eq_pair]

@[simp] theorem resendGroup_fixed (s : State) (dest : Nat) (lkey : Nat) (g : TxGroup) : (resendGroup s dest lkey g).fixed = s.fixed := by
  unfold resendGroup
  repeat' (first | split | intro _ | refine foldl_fixed ?_ ?_ | simp only [keeps_settle, keeps_guardRes, keeps_unitRes, keeps_hereRes, keeps_accessRes, keeps_next, keeps_fault, keeps_refused])
  all_goals simp_all [eq_pair]

@[simp] theorem noteHanded_fixed (s : State) (id : Nat) : (noteHanded s id).fixed = s.fixed := by
  unfold noteHanded; simp

@[simp] theorem newGroup_fixed (s : State) (dest : Nat) (lkey : Nat) (g : TxGroup) (data : List Byte) (port : Nat) (dmac : Nat) : (newGroup s dest lkey g data port dmac).fixed = s.fixed := by
  unfold newGroup; simp

@[simp] theorem feedStage_fixed (s : State) (id : Nat) : (feedStage s id).fixed = s.fixed := by
  unfold feedStage
  repeat' (first | split | intro _ | refine foldl_fixed ?_ ?_ | simp only [keeps_settle, keeps_guardRes, keeps_unitRes, keeps_hereRes, keeps_accessRes, keeps_next, keeps_fault, keeps_refused])
  all_goals simp_all [eq_pair]

@[simp] theorem tryFeed_fixed (s : State) (id : Nat) : (tryFeed s id).fixed = s.fixed := by
  unfold tryFeed; simp

@[simp] theorem sendOp_keeps (s : State) (a : AsyncOp) (d : LinkDesc) (r : Route) (port : Nat) (s0 : State) (h0 : s.fixed = s0.fixed) : Keeps s0 (sendOp s a d r port) := by
  refine Keeps.of h0 ?_
  unfold sendOp
  repeat' (first | split | intro _ | refine foldl_fixed ?_ ?_ | refine issue_keeps ?_ (by simp) | refine packet_keeps ?_ (by simp) | refine secWrite_keeps ?_ (by simp) | refine secWriteAt_keeps ?_ (by simp) | refine slCmd_keeps ?_ (by simp) | refine fwCmd_keeps ?_ (by simp) | refine ksCmd_keeps ?_ (by simp) | refine fcWrite_keeps ?_ (by simp) | refine lcCmd_keeps ?_ (by simp) | refine dgCmd_keeps ?_ (by simp) | refine spdmReq_keeps ?_ (by simp) | refine message_keeps ?_ (by simp) | refine boundMessage_keeps ?_ (by simp) | refine hostSlice_keeps ?_ (by simp) | refine takeVerified_keeps ?_ (by simp) | refine beadPacket_keeps ?_ (by simp) | refine vector_keeps (by simp) | refine issueRows_keeps ?_ (by simp) | refine issueLink_keeps ?_ (by simp) | simp only [keeps_settle, keeps_guardRes, keeps_unitRes, keeps_hereRes, keeps_accessRes, keeps_next, keeps_fault, keeps_refused])
  all_goals simp_all [eq_pair]

@[simp] theorem failReply_fixed (s : State) (dest : Nat) (lkey : Nat) (g : TxGroup) (seq : Nat) (w : RWin) (c : Nat) : (failReply s dest lkey g seq w c).fixed = s.fixed := by
  simp only [failReply, apply_ite State.fixed]
  repeat' (first | (simp [eq_pair]; done) | intro _ | split)
  all_goals simp_all [eq_pair]

@[simp] theorem sendTodo_keeps (s : State) (dest : Nat) (lkey : Nat) (t : TxStream) (g : TxGroup) (rest : List TxGroup) (r : Route) (port : Nat) (s0 : State) (h0 : s.fixed = s0.fixed) : Keeps s0 (sendTodo s dest lkey t g rest r port) := by
  refine Keeps.of h0 ?_
  unfold sendTodo
  repeat' (first | split | intro _ | refine foldl_fixed ?_ ?_ | refine issue_keeps ?_ (by simp) | refine packet_keeps ?_ (by simp) | refine secWrite_keeps ?_ (by simp) | refine secWriteAt_keeps ?_ (by simp) | refine slCmd_keeps ?_ (by simp) | refine fwCmd_keeps ?_ (by simp) | refine ksCmd_keeps ?_ (by simp) | refine fcWrite_keeps ?_ (by simp) | refine lcCmd_keeps ?_ (by simp) | refine dgCmd_keeps ?_ (by simp) | refine spdmReq_keeps ?_ (by simp) | refine message_keeps ?_ (by simp) | refine boundMessage_keeps ?_ (by simp) | refine hostSlice_keeps ?_ (by simp) | refine takeVerified_keeps ?_ (by simp) | refine beadPacket_keeps ?_ (by simp) | refine vector_keeps (by simp) | refine issueRows_keeps ?_ (by simp) | refine issueLink_keeps ?_ (by simp) | simp only [keeps_settle, keeps_guardRes, keeps_unitRes, keeps_hereRes, keeps_accessRes, keeps_next, keeps_fault, keeps_refused])
  all_goals simp_all [eq_pair]

@[simp] theorem execGroupSend_keeps (dest lkey : Nat) (op : Option Nat) (s : State) (s0 : State) (h0 : s.fixed = s0.fixed) : Keeps s0 (execGroupSend dest lkey op s) := by
  refine Keeps.of h0 ?_
  unfold execGroupSend
  try dsimp only
  repeat' split
  all_goals simp_all [eq_pair]

@[simp] theorem execLpost_keeps (e : Nat) (f : Frame) (s : State) (s0 : State) (h0 : s.fixed = s0.fixed) : Keeps s0 (execLpost e f s) := by
  refine Keeps.of h0 ?_
  unfold execLpost
  refine issue_keeps (fun t g => ?_) rfl
  dsimp only
  split
  · exact rfl
  · generalize wordRef t g.who.1 (srcS g f 3) = w
    cases w with
    | error sub => exact rfl
    | ok w =>
      dsimp only
      split
      · exact rfl
      · split <;> exact rfl

@[simp] theorem execLclose_keeps (e : Nat) (f : Frame) (s : State) (s0 : State) (h0 : s.fixed = s0.fixed) : Keeps s0 (execLclose e f s) := by
  refine Keeps.of h0 ?_
  unfold execLclose
  repeat' (first | split | intro _ | refine foldl_fixed ?_ ?_ | refine issue_keeps ?_ (by simp) | refine packet_keeps ?_ (by simp) | refine secWrite_keeps ?_ (by simp) | refine secWriteAt_keeps ?_ (by simp) | refine slCmd_keeps ?_ (by simp) | refine fwCmd_keeps ?_ (by simp) | refine ksCmd_keeps ?_ (by simp) | refine fcWrite_keeps ?_ (by simp) | refine lcCmd_keeps ?_ (by simp) | refine dgCmd_keeps ?_ (by simp) | refine spdmReq_keeps ?_ (by simp) | refine message_keeps ?_ (by simp) | refine boundMessage_keeps ?_ (by simp) | refine hostSlice_keeps ?_ (by simp) | refine takeVerified_keeps ?_ (by simp) | refine beadPacket_keeps ?_ (by simp) | refine vector_keeps (by simp) | refine issueRows_keeps ?_ (by simp) | refine issueLink_keeps ?_ (by simp) | simp only [keeps_settle, keeps_guardRes, keeps_unitRes, keeps_hereRes, keeps_accessRes, keeps_next, keeps_fault, keeps_refused])
  all_goals simp_all [eq_pair]

@[simp] theorem issueLink_keeps (e : Nat) (f : Frame) (fields : List (Nat × Nat)) (extra : Bool) (mk : State → Engine → BitVec 256 → Nat → Nat → Nat → AKind) (s : State) (s0 : State) (h0 : s.fixed = s0.fixed) : Keeps s0 (issueLink e f fields extra mk s) := by
  refine Keeps.of h0 ?_
  unfold issueLink
  repeat' (first | split | intro _ | refine foldl_fixed ?_ ?_ | refine issue_keeps ?_ (by simp) | refine packet_keeps ?_ (by simp) | refine secWrite_keeps ?_ (by simp) | refine secWriteAt_keeps ?_ (by simp) | refine slCmd_keeps ?_ (by simp) | refine fwCmd_keeps ?_ (by simp) | refine ksCmd_keeps ?_ (by simp) | refine fcWrite_keeps ?_ (by simp) | refine lcCmd_keeps ?_ (by simp) | refine dgCmd_keeps ?_ (by simp) | refine spdmReq_keeps ?_ (by simp) | refine message_keeps ?_ (by simp) | refine boundMessage_keeps ?_ (by simp) | refine hostSlice_keeps ?_ (by simp) | refine takeVerified_keeps ?_ (by simp) | refine beadPacket_keeps ?_ (by simp) | refine vector_keeps (by simp) | refine issueRows_keeps ?_ (by simp) | refine issueLink_keeps ?_ (by simp) | simp only [keeps_settle, keeps_guardRes, keeps_unitRes, keeps_hereRes, keeps_accessRes, keeps_next, keeps_fault, keeps_refused])
  all_goals simp_all [eq_pair]

@[simp] theorem execLput_keeps (e : Nat) (f : Frame) (s : State) (s0 : State) (h0 : s.fixed = s0.fixed) : Keeps s0 (execLput e f s) := by
  refine Keeps.of h0 ?_
  unfold execLput; simp

@[simp] theorem execLred_keeps (e : Nat) (f : Frame) (s : State) (s0 : State) (h0 : s.fixed = s0.fixed) : Keeps s0 (execLred e f s) := by
  refine Keeps.of h0 ?_
  unfold execLred; simp

@[simp] theorem execLget_keeps (e : Nat) (f : Frame) (s : State) (s0 : State) (h0 : s.fixed = s0.fixed) : Keeps s0 (execLget e f s) := by
  refine Keeps.of h0 ?_
  unfold execLget; simp

@[simp] theorem execLputm_keeps (e : Nat) (f : Frame) (s : State) (s0 : State) (h0 : s.fixed = s0.fixed) : Keeps s0 (execLputm e f s) := by
  refine Keeps.of h0 ?_
  unfold execLputm
  refine issue_keeps (fun t g => ?_) rfl
  try dsimp only
  repeat' split
  all_goals first
    | (simp_all [eq_pair]; done)
    | (have h := IKeeps.ok_eq (startAsync_keeps _ _ _ _ _ _ _ _ rfl) (by assumption); simp_all [eq_pair]; done)

@[simp] theorem execLinkFrameReceive_keeps (p : Nat) (bad : Bool) (bytes : List Byte) (s : State) (s0 : State) (h0 : s.fixed = s0.fixed) : Keeps s0 (execLinkFrameReceive p bad bytes s) := by
  refine Keeps.of h0 ?_
  unfold execLinkFrameReceive; simp

@[simp] theorem groupAck_fixed (s : State) (src : Nat) (lkey : Nat) (seq : Nat) : (groupAck s src lkey seq).fixed = s.fixed := by
  unfold groupAck; simp

@[simp] theorem queueBack_fixed (s : State) (src : Nat) (lkey : Nat) (gs : List TxGroup) : (queueBack s src lkey gs).fixed = s.fixed := by
  unfold queueBack
  repeat' (first | split | intro _ | refine foldl_fixed ?_ ?_ | simp only [keeps_settle, keeps_guardRes, keeps_unitRes, keeps_hereRes, keeps_accessRes, keeps_next, keeps_fault, keeps_refused])
  all_goals simp_all [eq_pair]

@[simp] theorem refuseGroup_fixed (s : State) (src : Nat) (lkey : Nat) (seq : Nat) (sub : Nat) : (refuseGroup s src lkey seq sub).fixed = s.fixed := by
  unfold refuseGroup; simp

@[simp] theorem groupDone_fixed (s : State) (p : Nat) (e : Nat) (ctx : Nat) (gen : Nat) (word : Option (Nat × Nat)) (lkey : Nat) (src : Nat) (seq : Nat) : (groupDone s p e ctx gen word lkey src seq).fixed = s.fixed := by
  unfold groupDone; simp

@[simp] theorem xlinkFault_fixed (who : Who) (lkey : Nat) (s : State) (l : List (Nat × Nat × Nat)) :
    (xlinkFault who lkey s l).1.fixed = s.fixed := by
  induction l generalizing s with
  | nil => rfl
  | cons x t ih =>
    unfold xlinkFault
    try dsimp only
    repeat' split
    all_goals simp_all [eq_pair]

@[simp] theorem applyWrite_fixed (s : State) (port : Nat) (w : RWin) (h : List Byte) (data : List Byte) : (applyWrite s port w h data).fixed = s.fixed := by
  unfold applyWrite
  repeat' (first | split | intro _ | refine foldl_fixed ?_ ?_ | simp only [keeps_settle, keeps_guardRes, keeps_unitRes, keeps_hereRes, keeps_accessRes, keeps_next, keeps_fault, keeps_refused])
  all_goals simp_all [eq_pair]

@[simp] theorem applyGroup_fixed (s : State) (port : Nat) (h : List Byte) (data : List Byte) : (applyGroup s port h data).fixed = s.fixed := by
  unfold applyGroup
  repeat' (first | split | intro _ | refine foldl_fixed ?_ ?_ | simp only [keeps_settle, keeps_guardRes, keeps_unitRes, keeps_hereRes, keeps_accessRes, keeps_next, keeps_fault, keeps_refused])
  all_goals simp_all [eq_pair]

@[simp] theorem underSeq_fixed (s : State) (port : Nat) (h : List Byte) (apply : State → State) (ha : ∀ t, (apply t).fixed = t.fixed) :
    (underSeq s port h apply).fixed = s.fixed := by
  unfold underSeq
  try dsimp only
  repeat' split
  all_goals simp_all [eq_pair]

@[simp] theorem execGroupVerify_keeps (k : Nat) (s : State) (s0 : State) (h0 : s.fixed = s0.fixed) : Keeps s0 (execGroupVerify k s) := by
  refine Keeps.of h0 ?_
  unfold execGroupVerify
  repeat' (first | split | intro _ | refine foldl_fixed ?_ ?_ | refine issue_keeps ?_ (by simp) | refine packet_keeps ?_ (by simp) | refine secWrite_keeps ?_ (by simp) | refine secWriteAt_keeps ?_ (by simp) | refine slCmd_keeps ?_ (by simp) | refine fwCmd_keeps ?_ (by simp) | refine ksCmd_keeps ?_ (by simp) | refine fcWrite_keeps ?_ (by simp) | refine lcCmd_keeps ?_ (by simp) | refine dgCmd_keeps ?_ (by simp) | refine spdmReq_keeps ?_ (by simp) | refine message_keeps ?_ (by simp) | refine boundMessage_keeps ?_ (by simp) | refine hostSlice_keeps ?_ (by simp) | refine takeVerified_keeps ?_ (by simp) | refine beadPacket_keeps ?_ (by simp) | refine vector_keeps (by simp) | refine issueRows_keeps ?_ (by simp) | refine issueLink_keeps ?_ (by simp) | simp only [keeps_settle, keeps_guardRes, keeps_unitRes, keeps_hereRes, keeps_accessRes, keeps_next, keeps_fault, keeps_refused])
  all_goals simp_all [eq_pair]

@[simp] theorem execAckSend_keeps (src : Nat) (lkey : Nat) (s : State) (s0 : State) (h0 : s.fixed = s0.fixed) : Keeps s0 (execAckSend src lkey s) := by
  refine Keeps.of h0 ?_
  unfold execAckSend
  repeat' (first | split | intro _ | refine foldl_fixed ?_ ?_ | refine issue_keeps ?_ (by simp) | refine packet_keeps ?_ (by simp) | refine secWrite_keeps ?_ (by simp) | refine secWriteAt_keeps ?_ (by simp) | refine slCmd_keeps ?_ (by simp) | refine fwCmd_keeps ?_ (by simp) | refine ksCmd_keeps ?_ (by simp) | refine fcWrite_keeps ?_ (by simp) | refine lcCmd_keeps ?_ (by simp) | refine dgCmd_keeps ?_ (by simp) | refine spdmReq_keeps ?_ (by simp) | refine message_keeps ?_ (by simp) | refine boundMessage_keeps ?_ (by simp) | refine hostSlice_keeps ?_ (by simp) | refine takeVerified_keeps ?_ (by simp) | refine beadPacket_keeps ?_ (by simp) | refine vector_keeps (by simp) | refine issueRows_keeps ?_ (by simp) | refine issueLink_keeps ?_ (by simp) | simp only [keeps_settle, keeps_guardRes, keeps_unitRes, keeps_hereRes, keeps_accessRes, keeps_next, keeps_fault, keeps_refused])
  all_goals simp_all [eq_pair]

@[simp] theorem takeVerified_keeps {k : Nat} {ok : List Byte → Bool} {f : State → VGroup → State} {s : State}
    (hf : ∀ t v, (f t v).fixed = t.fixed) {s0 : State} (h0 : s.fixed = s0.fixed) : Keeps s0 (takeVerified k ok f s) := by
  refine Keeps.of h0 ?_
  unfold takeVerified
  split <;> simp_all

@[simp] theorem execAckReceive_keeps (k : Nat) (s : State) (s0 : State) (h0 : s.fixed = s0.fixed) : Keeps s0 (execAckReceive k s) := by
  refine Keeps.of h0 ?_
  unfold execAckReceive
  repeat' (first | split | intro _ | refine foldl_fixed ?_ ?_ | refine issue_keeps ?_ (by simp) | refine packet_keeps ?_ (by simp) | refine secWrite_keeps ?_ (by simp) | refine secWriteAt_keeps ?_ (by simp) | refine slCmd_keeps ?_ (by simp) | refine fwCmd_keeps ?_ (by simp) | refine ksCmd_keeps ?_ (by simp) | refine fcWrite_keeps ?_ (by simp) | refine lcCmd_keeps ?_ (by simp) | refine dgCmd_keeps ?_ (by simp) | refine spdmReq_keeps ?_ (by simp) | refine message_keeps ?_ (by simp) | refine boundMessage_keeps ?_ (by simp) | refine hostSlice_keeps ?_ (by simp) | refine takeVerified_keeps ?_ (by simp) | refine beadPacket_keeps ?_ (by simp) | refine vector_keeps (by simp) | refine issueRows_keeps ?_ (by simp) | refine issueLink_keeps ?_ (by simp) | simp only [keeps_settle, keeps_guardRes, keeps_unitRes, keeps_hereRes, keeps_accessRes, keeps_next, keeps_fault, keeps_refused])
  all_goals simp_all [eq_pair]

@[simp] theorem execRtoExpiry_keeps (dest : Nat) (lkey : Nat) (seq : Nat) (s : State) (s0 : State) (h0 : s.fixed = s0.fixed) : Keeps s0 (execRtoExpiry dest lkey seq s) := by
  refine Keeps.of h0 ?_
  unfold execRtoExpiry
  repeat' (first | split | intro _ | refine foldl_fixed ?_ ?_ | refine issue_keeps ?_ (by simp) | refine packet_keeps ?_ (by simp) | refine secWrite_keeps ?_ (by simp) | refine secWriteAt_keeps ?_ (by simp) | refine slCmd_keeps ?_ (by simp) | refine fwCmd_keeps ?_ (by simp) | refine ksCmd_keeps ?_ (by simp) | refine fcWrite_keeps ?_ (by simp) | refine lcCmd_keeps ?_ (by simp) | refine dgCmd_keeps ?_ (by simp) | refine spdmReq_keeps ?_ (by simp) | refine message_keeps ?_ (by simp) | refine boundMessage_keeps ?_ (by simp) | refine hostSlice_keeps ?_ (by simp) | refine takeVerified_keeps ?_ (by simp) | refine beadPacket_keeps ?_ (by simp) | refine vector_keeps (by simp) | refine issueRows_keeps ?_ (by simp) | refine issueLink_keeps ?_ (by simp) | simp only [keeps_settle, keeps_guardRes, keeps_unitRes, keeps_hereRes, keeps_accessRes, keeps_next, keeps_fault, keeps_refused])
  all_goals simp_all [eq_pair]

@[simp] theorem execGetRspReceive_keeps (k : Nat) (s : State) (s0 : State) (h0 : s.fixed = s0.fixed) : Keeps s0 (execGetRspReceive k s) := by
  refine Keeps.of h0 ?_
  unfold execGetRspReceive
  refine takeVerified_keeps (fun t v => ?_) rfl
  refine underSeq_fixed _ _ _ _ (fun t => ?_)
  dsimp only
  repeat' split
  all_goals simp_all [eq_pair]

@[simp] theorem execErrReceive_keeps (k : Nat) (s : State) (s0 : State) (h0 : s.fixed = s0.fixed) : Keeps s0 (execErrReceive k s) := by
  refine Keeps.of h0 ?_
  unfold execErrReceive
  refine takeVerified_keeps (fun t v => ?_) rfl
  refine underSeq_fixed _ _ _ _ (fun t => ?_)
  dsimp only
  repeat' split
  all_goals simp_all [eq_pair]

@[simp] theorem modParts_fixed (s : State) (lkey : Nat) (src : Nat) (seq : Nat) (f : HopPart → HopPart) : (modParts s lkey src seq f).fixed = s.fixed := by
  unfold modParts; simp

@[simp] theorem hopWrite_fixed (s : State) (p : HopPart) (bs : List Byte) : (hopWrite s p bs).1.fixed = s.fixed := by
  unfold hopWrite
  repeat' (first | split | intro _ | refine foldl_fixed ?_ ?_ | simp only [keeps_settle, keeps_guardRes, keeps_unitRes, keeps_hereRes, keeps_accessRes, keeps_next, keeps_fault, keeps_refused])
  all_goals simp_all [eq_pair]

@[simp] theorem openPart_fixed (s : State) (p : HopPart) (line : Option (List Byte)) : (openPart s p line).fixed = s.fixed := by
  simp only [openPart, apply_ite State.fixed]
  repeat' (first | (simp [eq_pair]; done) | intro _ | split)
  all_goals simp_all [eq_pair]

@[simp] theorem openForGroup_fixed (s : State) (port : Nat) (key : StageKey) (at' off n : Nat) (line : Option (List Byte)) : (openForGroup s port key at' off n line).fixed = s.fixed := by
  unfold openForGroup
  split
  · dsimp only
    split <;> simp
  · dsimp only
    split
    · simp
    · rw [elim_fixed _ _ _ (fun b => againError_fixed _ _ _)]
      simp
    · repeat' split
      all_goals simp_all

@[simp] theorem execHopSealOpen_keeps (k : Nat) (flip : BitVec 128) (s : State) (s0 : State) (h0 : s.fixed = s0.fixed) : Keeps s0 (execHopSealOpen k flip s) := by
  refine Keeps.of h0 ?_
  unfold execHopSealOpen
  repeat' (first | split | intro _ | refine foldl_fixed ?_ ?_ | refine issue_keeps ?_ (by simp) | refine packet_keeps ?_ (by simp) | refine secWrite_keeps ?_ (by simp) | refine secWriteAt_keeps ?_ (by simp) | refine slCmd_keeps ?_ (by simp) | refine fwCmd_keeps ?_ (by simp) | refine ksCmd_keeps ?_ (by simp) | refine fcWrite_keeps ?_ (by simp) | refine lcCmd_keeps ?_ (by simp) | refine dgCmd_keeps ?_ (by simp) | refine spdmReq_keeps ?_ (by simp) | refine message_keeps ?_ (by simp) | refine boundMessage_keeps ?_ (by simp) | refine hostSlice_keeps ?_ (by simp) | refine takeVerified_keeps ?_ (by simp) | refine beadPacket_keeps ?_ (by simp) | refine vector_keeps (by simp) | refine issueRows_keeps ?_ (by simp) | refine issueLink_keeps ?_ (by simp) | simp only [keeps_settle, keeps_guardRes, keeps_unitRes, keeps_hereRes, keeps_accessRes, keeps_next, keeps_fault, keeps_refused])
  all_goals simp_all [eq_pair]

@[simp] theorem execLinkUpChange_keeps (p : Nat) (up : Bool) (s : State) (s0 : State) (h0 : s.fixed = s0.fixed) : Keeps s0 (execLinkUpChange p up s) := by
  refine Keeps.of h0 ?_
  unfold execLinkUpChange; simp

@[simp] theorem execBridgeTransferReceive_keeps (h : Nat) (flit : List Byte) (ctl : Word) (chk : Word) (freed : Nat) (s : State) (s0 : State) (h0 : s.fixed = s0.fixed) : Keeps s0 (execBridgeTransferReceive h flit ctl chk freed s) := by
  refine Keeps.of h0 ?_
  unfold execBridgeTransferReceive; simp

@[simp] theorem execD2dErr_keeps (h : Nat) (s : State) (s0 : State) (h0 : s.fixed = s0.fixed) : Keeps s0 (execD2dErr h s) := by
  refine Keeps.of h0 ?_
  unfold execD2dErr; simp

@[simp] theorem putRoute_fixed (s : State) (i : Nat) (w : Nat) (v : Word) : (putRoute s i w v).fixed = s.fixed := by
  unfold putRoute; simp

end Sys2Proof.Machine
end

