-- ==== Sys2Proof/Laws/KeepCompute.lean ====
section
/-! SUPPORT. Each operation of Machine/Compute.lean keeps the fixed part of the state: the build parameters and the queue. -/
set_option linter.unusedSimpArgs false
set_option linter.unusedTactic false
set_option linter.unreachableTactic false
namespace Sys2Proof.Machine

@[simp] theorem writeRows_keeps (s : State) (e : Nat) (v : View) (rows : List (List Nat)) (s0 : State) (h0 : s.fixed = s0.fixed) : IKeeps s0 (writeRows s e v rows) := by
  refine IKeeps.of h0 ?_
  unfold writeRows
  repeat' (first | split | intro _ | refine foldl_fixed ?_ ?_ | refine issue_keeps ?_ (by simp) | refine packet_keeps ?_ (by simp) | refine secWrite_keeps ?_ (by simp) | refine secWriteAt_keeps ?_ (by simp) | refine slCmd_keeps ?_ (by simp) | refine fwCmd_keeps ?_ (by simp) | refine ksCmd_keeps ?_ (by simp) | refine fcWrite_keeps ?_ (by simp) | refine lcCmd_keeps ?_ (by simp) | refine dgCmd_keeps ?_ (by simp) | refine spdmReq_keeps ?_ (by simp) | refine message_keeps ?_ (by simp) | refine boundMessage_keeps ?_ (by simp) | refine hostSlice_keeps ?_ (by simp) | refine takeVerified_keeps ?_ (by simp) | refine beadPacket_keeps ?_ (by simp) | refine vector_keeps (by simp) | refine issueRows_keeps ?_ (by simp) | refine issueLink_keeps ?_ (by simp) | simp only [keeps_settle, keeps_guardRes, keeps_unitRes, keeps_hereRes, keeps_accessRes, keeps_next, keeps_fault, keeps_refused])
  all_goals simp_all [eq_pair]

@[simp] theorem execMma_keeps (e : Nat) (f : Frame) (s : State) (s0 : State) (h0 : s.fixed = s0.fixed) : Keeps s0 (execMma e f s) := by
  refine Keeps.of h0 ?_
  unfold execMma
  repeat' (first | split | intro _ | refine foldl_fixed ?_ ?_ | refine issue_keeps ?_ (by simp) | refine packet_keeps ?_ (by simp) | refine secWrite_keeps ?_ (by simp) | refine secWriteAt_keeps ?_ (by simp) | refine slCmd_keeps ?_ (by simp) | refine fwCmd_keeps ?_ (by simp) | refine ksCmd_keeps ?_ (by simp) | refine fcWrite_keeps ?_ (by simp) | refine lcCmd_keeps ?_ (by simp) | refine dgCmd_keeps ?_ (by simp) | refine spdmReq_keeps ?_ (by simp) | refine message_keeps ?_ (by simp) | refine boundMessage_keeps ?_ (by simp) | refine hostSlice_keeps ?_ (by simp) | refine takeVerified_keeps ?_ (by simp) | refine beadPacket_keeps ?_ (by simp) | refine vector_keeps (by simp) | refine issueRows_keeps ?_ (by simp) | refine issueLink_keeps ?_ (by simp) | simp only [keeps_settle, keeps_guardRes, keeps_unitRes, keeps_hereRes, keeps_accessRes, keeps_next, keeps_fault, keeps_refused])
  all_goals simp_all [eq_pair]

@[simp] theorem execEpi_keeps (e : Nat) (f : Frame) (s : State) (s0 : State) (h0 : s.fixed = s0.fixed) : Keeps s0 (execEpi e f s) := by
  refine Keeps.of h0 ?_
  unfold execEpi
  repeat' (first | split | intro _ | refine foldl_fixed ?_ ?_ | refine issue_keeps ?_ (by simp) | refine packet_keeps ?_ (by simp) | refine secWrite_keeps ?_ (by simp) | refine secWriteAt_keeps ?_ (by simp) | refine slCmd_keeps ?_ (by simp) | refine fwCmd_keeps ?_ (by simp) | refine ksCmd_keeps ?_ (by simp) | refine fcWrite_keeps ?_ (by simp) | refine lcCmd_keeps ?_ (by simp) | refine dgCmd_keeps ?_ (by simp) | refine spdmReq_keeps ?_ (by simp) | refine message_keeps ?_ (by simp) | refine boundMessage_keeps ?_ (by simp) | refine hostSlice_keeps ?_ (by simp) | refine takeVerified_keeps ?_ (by simp) | refine beadPacket_keeps ?_ (by simp) | refine vector_keeps (by simp) | refine issueRows_keeps ?_ (by simp) | refine issueLink_keeps ?_ (by simp) | simp only [keeps_settle, keeps_guardRes, keeps_unitRes, keeps_hereRes, keeps_accessRes, keeps_next, keeps_fault, keeps_refused])
  all_goals simp_all [eq_pair]

@[simp] theorem vector_keeps (slots : List SlotKind) (srcs : List Nat) (fn : Bool) (extra : Frame → Bool) (op : State →   Engine → Frame → List FV → Nat → FV) (e : Nat) (f : Frame) (s : State) (s0 : State) (h0 : s.fixed = s0.fixed) : Keeps s0 (vector slots srcs fn extra op e f s) := by
  refine Keeps.of h0 ?_
  unfold vector
  repeat' (first | split | intro _ | refine foldl_fixed ?_ ?_ | refine issue_keeps ?_ (by simp) | refine packet_keeps ?_ (by simp) | refine secWrite_keeps ?_ (by simp) | refine secWriteAt_keeps ?_ (by simp) | refine slCmd_keeps ?_ (by simp) | refine fwCmd_keeps ?_ (by simp) | refine ksCmd_keeps ?_ (by simp) | refine fcWrite_keeps ?_ (by simp) | refine lcCmd_keeps ?_ (by simp) | refine dgCmd_keeps ?_ (by simp) | refine spdmReq_keeps ?_ (by simp) | refine message_keeps ?_ (by simp) | refine boundMessage_keeps ?_ (by simp) | refine hostSlice_keeps ?_ (by simp) | refine takeVerified_keeps ?_ (by simp) | refine beadPacket_keeps ?_ (by simp) | refine vector_keeps (by simp) | refine issueRows_keeps ?_ (by simp) | refine issueLink_keeps ?_ (by simp) | simp only [keeps_settle, keeps_guardRes, keeps_unitRes, keeps_hereRes, keeps_accessRes, keeps_next, keeps_fault, keeps_refused])
  all_goals simp_all [eq_pair]

@[simp] theorem execVzero_keeps (e : Nat) (f : Frame) (s : State) (s0 : State) (h0 : s.fixed = s0.fixed) : Keeps s0 (execVzero e f s) := by
  refine Keeps.of h0 ?_
  unfold execVzero
  repeat' (first | split | intro _ | refine foldl_fixed ?_ ?_ | refine issue_keeps ?_ (by simp) | refine packet_keeps ?_ (by simp) | refine secWrite_keeps ?_ (by simp) | refine secWriteAt_keeps ?_ (by simp) | refine slCmd_keeps ?_ (by simp) | refine fwCmd_keeps ?_ (by simp) | refine ksCmd_keeps ?_ (by simp) | refine fcWrite_keeps ?_ (by simp) | refine lcCmd_keeps ?_ (by simp) | refine dgCmd_keeps ?_ (by simp) | refine spdmReq_keeps ?_ (by simp) | refine message_keeps ?_ (by simp) | refine boundMessage_keeps ?_ (by simp) | refine hostSlice_keeps ?_ (by simp) | refine takeVerified_keeps ?_ (by simp) | refine beadPacket_keeps ?_ (by simp) | refine vector_keeps (by simp) | refine issueRows_keeps ?_ (by simp) | refine issueLink_keeps ?_ (by simp) | simp only [keeps_settle, keeps_guardRes, keeps_unitRes, keeps_hereRes, keeps_accessRes, keeps_next, keeps_fault, keeps_refused])
  all_goals simp_all [eq_pair]

@[simp] theorem execVcvt_keeps (e : Nat) (f : Frame) (s : State) (s0 : State) (h0 : s.fixed = s0.fixed) : Keeps s0 (execVcvt e f s) := by
  refine Keeps.of h0 ?_
  unfold execVcvt; simp

@[simp] theorem execVadd_keeps (e : Nat) (f : Frame) (s : State) (s0 : State) (h0 : s.fixed = s0.fixed) : Keeps s0 (execVadd e f s) := by
  refine Keeps.of h0 ?_
  unfold execVadd; simp

@[simp] theorem execVsub_keeps (e : Nat) (f : Frame) (s : State) (s0 : State) (h0 : s.fixed = s0.fixed) : Keeps s0 (execVsub e f s) := by
  refine Keeps.of h0 ?_
  unfold execVsub; simp

@[simp] theorem execVmul_keeps (e : Nat) (f : Frame) (s : State) (s0 : State) (h0 : s.fixed = s0.fixed) : Keeps s0 (execVmul e f s) := by
  refine Keeps.of h0 ?_
  unfold execVmul; simp

@[simp] theorem execVmin_keeps (e : Nat) (f : Frame) (s : State) (s0 : State) (h0 : s.fixed = s0.fixed) : Keeps s0 (execVmin e f s) := by
  refine Keeps.of h0 ?_
  unfold execVmin; simp

@[simp] theorem execVmax_keeps (e : Nat) (f : Frame) (s : State) (s0 : State) (h0 : s.fixed = s0.fixed) : Keeps s0 (execVmax e f s) := by
  refine Keeps.of h0 ?_
  unfold execVmax; simp

@[simp] theorem execVfma_keeps (e : Nat) (f : Frame) (s : State) (s0 : State) (h0 : s.fixed = s0.fixed) : Keeps s0 (execVfma e f s) := by
  refine Keeps.of h0 ?_
  unfold execVfma; simp

@[simp] theorem execVun_keeps (e : Nat) (f : Frame) (s : State) (s0 : State) (h0 : s.fixed = s0.fixed) : Keeps s0 (execVun e f s) := by
  refine Keeps.of h0 ?_
  unfold execVun; simp

@[simp] theorem execVdrop_keeps (e : Nat) (f : Frame) (s : State) (s0 : State) (h0 : s.fixed = s0.fixed) : Keeps s0 (execVdrop e f s) := by
  refine Keeps.of h0 ?_
  unfold execVdrop; simp

@[simp] theorem execVrand_keeps (e : Nat) (f : Frame) (s : State) (s0 : State) (h0 : s.fixed = s0.fixed) : Keeps s0 (execVrand e f s) := by
  refine Keeps.of h0 ?_
  unfold execVrand; simp

@[simp] theorem execVred_keeps (e : Nat) (f : Frame) (s : State) (s0 : State) (h0 : s.fixed = s0.fixed) : Keeps s0 (execVred e f s) := by
  refine Keeps.of h0 ?_
  unfold execVred
  repeat' (first | split | intro _ | refine foldl_fixed ?_ ?_ | refine issue_keeps ?_ (by simp) | refine packet_keeps ?_ (by simp) | refine secWrite_keeps ?_ (by simp) | refine secWriteAt_keeps ?_ (by simp) | refine slCmd_keeps ?_ (by simp) | refine fwCmd_keeps ?_ (by simp) | refine ksCmd_keeps ?_ (by simp) | refine fcWrite_keeps ?_ (by simp) | refine lcCmd_keeps ?_ (by simp) | refine dgCmd_keeps ?_ (by simp) | refine spdmReq_keeps ?_ (by simp) | refine message_keeps ?_ (by simp) | refine boundMessage_keeps ?_ (by simp) | refine hostSlice_keeps ?_ (by simp) | refine takeVerified_keeps ?_ (by simp) | refine beadPacket_keeps ?_ (by simp) | refine vector_keeps (by simp) | refine issueRows_keeps ?_ (by simp) | refine issueLink_keeps ?_ (by simp) | simp only [keeps_settle, keeps_guardRes, keeps_unitRes, keeps_hereRes, keeps_accessRes, keeps_next, keeps_fault, keeps_refused])
  all_goals simp_all [eq_pair]

@[simp] theorem execSatt_keeps (e : Nat) (f : Frame) (s : State) (s0 : State) (h0 : s.fixed = s0.fixed) : Keeps s0 (execSatt e f s) := by
  refine Keeps.of h0 ?_
  unfold execSatt
  repeat' (first | split | intro _ | refine foldl_fixed ?_ ?_ | refine issue_keeps ?_ (by simp) | refine packet_keeps ?_ (by simp) | refine secWrite_keeps ?_ (by simp) | refine secWriteAt_keeps ?_ (by simp) | refine slCmd_keeps ?_ (by simp) | refine fwCmd_keeps ?_ (by simp) | refine ksCmd_keeps ?_ (by simp) | refine fcWrite_keeps ?_ (by simp) | refine lcCmd_keeps ?_ (by simp) | refine dgCmd_keeps ?_ (by simp) | refine spdmReq_keeps ?_ (by simp) | refine message_keeps ?_ (by simp) | refine boundMessage_keeps ?_ (by simp) | refine hostSlice_keeps ?_ (by simp) | refine takeVerified_keeps ?_ (by simp) | refine beadPacket_keeps ?_ (by simp) | refine vector_keeps (by simp) | refine issueRows_keeps ?_ (by simp) | refine issueLink_keeps ?_ (by simp) | simp only [keeps_settle, keeps_guardRes, keeps_unitRes, keeps_hereRes, keeps_accessRes, keeps_next, keeps_fault, keeps_refused])
  all_goals simp_all [eq_pair]

@[simp] theorem execSobs_keeps (e : Nat) (f : Frame) (s : State) (s0 : State) (h0 : s.fixed = s0.fixed) : Keeps s0 (execSobs e f s) := by
  refine Keeps.of h0 ?_
  unfold execSobs
  repeat' (first | split | intro _ | refine foldl_fixed ?_ ?_ | refine issue_keeps ?_ (by simp) | refine packet_keeps ?_ (by simp) | refine secWrite_keeps ?_ (by simp) | refine secWriteAt_keeps ?_ (by simp) | refine slCmd_keeps ?_ (by simp) | refine fwCmd_keeps ?_ (by simp) | refine ksCmd_keeps ?_ (by simp) | refine fcWrite_keeps ?_ (by simp) | refine lcCmd_keeps ?_ (by simp) | refine dgCmd_keeps ?_ (by simp) | refine spdmReq_keeps ?_ (by simp) | refine message_keeps ?_ (by simp) | refine boundMessage_keeps ?_ (by simp) | refine hostSlice_keeps ?_ (by simp) | refine takeVerified_keeps ?_ (by simp) | refine beadPacket_keeps ?_ (by simp) | refine vector_keeps (by simp) | refine issueRows_keeps ?_ (by simp) | refine issueLink_keeps ?_ (by simp) | simp only [keeps_settle, keeps_guardRes, keeps_unitRes, keeps_hereRes, keeps_accessRes, keeps_next, keeps_fault, keeps_refused])
  all_goals simp_all [eq_pair]

@[simp] theorem execSst_keeps (e : Nat) (f : Frame) (s : State) (s0 : State) (h0 : s.fixed = s0.fixed) : Keeps s0 (execSst e f s) := by
  refine Keeps.of h0 ?_
  unfold execSst
  refine issue_keeps (fun t g => ?_) rfl
  try dsimp only
  repeat' split
  all_goals first
    | (simp_all [eq_pair]; done)
    | (have h := IKeeps.ok_eq (startAsync_keeps _ _ _ _ _ _ _ _ rfl) (by assumption); simp_all [eq_pair]; done)

@[simp] theorem execHupd_keeps (e : Nat) (f : Frame) (s : State) (s0 : State) (h0 : s.fixed = s0.fixed) : Keeps s0 (execHupd e f s) := by
  refine Keeps.of h0 ?_
  unfold execHupd
  refine issue_keeps (fun t g => ?_) rfl
  dsimp only
  generalize List.any t.asyncs _ = b
  split
  · exact rfl
  · generalize hu : (if b = true then _ else t : State) = u
    have h1 : u.fixed = t.fixed := by
      rw [← hu]; split <;> rfl
    have h2 := startAsync_keeps u g e f (.hupd (srcS g f 0).toNat (srcS g f 1).toNat (lowField f 0 8 + 1) none) false 0 t h1
    split
    · rename_i v hv
      rw [hv] at h2
      simpa using h2
    · exact h2

@[simp] theorem moveHupd_fixed (s : State) (a : AsyncOp) (rec : Nat) (stats : Nat) (n : Nat) (amax : Option Nat) : (moveHupd s a rec stats n amax).1.fixed = s.fixed := by
  unfold moveHupd
  repeat' (first | split | intro _ | refine foldl_fixed ?_ ?_ | simp only [keeps_settle, keeps_guardRes, keeps_unitRes, keeps_hereRes, keeps_accessRes, keeps_next, keeps_fault, keeps_refused])
  all_goals simp_all [eq_pair]

@[simp] theorem execTtest_keeps (e : Nat) (f : Frame) (s : State) (s0 : State) (h0 : s.fixed = s0.fixed) : Keeps s0 (execTtest e f s) := by
  refine Keeps.of h0 ?_
  unfold execTtest
  repeat' (first | split | intro _ | refine foldl_fixed ?_ ?_ | refine issue_keeps ?_ (by simp) | refine packet_keeps ?_ (by simp) | refine secWrite_keeps ?_ (by simp) | refine secWriteAt_keeps ?_ (by simp) | refine slCmd_keeps ?_ (by simp) | refine fwCmd_keeps ?_ (by simp) | refine ksCmd_keeps ?_ (by simp) | refine fcWrite_keeps ?_ (by simp) | refine lcCmd_keeps ?_ (by simp) | refine dgCmd_keeps ?_ (by simp) | refine spdmReq_keeps ?_ (by simp) | refine message_keeps ?_ (by simp) | refine boundMessage_keeps ?_ (by simp) | refine hostSlice_keeps ?_ (by simp) | refine takeVerified_keeps ?_ (by simp) | refine beadPacket_keeps ?_ (by simp) | refine vector_keeps (by simp) | refine issueRows_keeps ?_ (by simp) | refine issueLink_keeps ?_ (by simp) | simp only [keeps_settle, keeps_guardRes, keeps_unitRes, keeps_hereRes, keeps_accessRes, keeps_next, keeps_fault, keeps_refused])
  all_goals simp_all [eq_pair]

end Sys2Proof.Machine
end

