-- ==== Sys2Proof/Laws/KeepShuttle.lean ====
section
/-! SUPPORT. Each operation of Machine/Shuttle.lean keeps the fixed part of the state: the build parameters and the queue. -/
set_option linter.unusedSimpArgs false
set_option linter.unusedTactic false
set_option linter.unreachableTactic false
namespace Sys2Proof.Machine

@[simp] theorem shRead_fixed (s : State) (o : ShOp) (a : ShAddr) (add : Nat) (n : Nat) : (shRead s o a add n).1.fixed = s.fixed := by
  unfold shRead
  repeat' (first | split | intro _ | refine foldl_fixed ?_ ?_ | simp only [keeps_settle, keeps_guardRes, keeps_unitRes, keeps_hereRes, keeps_accessRes, keeps_next, keeps_fault, keeps_refused])
  all_goals simp_all [eq_pair]

@[simp] theorem shNat_fixed (s : State) (o : ShOp) (a : ShAddr) (add : Nat) (n : Nat) : (shNat s o a add n).1.fixed = s.fixed := by
  unfold shNat
  repeat' (first | split | intro _ | refine foldl_fixed ?_ ?_ | simp only [keeps_settle, keeps_guardRes, keeps_unitRes, keeps_hereRes, keeps_accessRes, keeps_next, keeps_fault, keeps_refused])
  all_goals simp_all [eq_pair]

@[simp] theorem shWrite_fixed (s : State) (o : ShOp) (a : ShAddr) (add : Nat) (bs : List Byte) : (shWrite s o a add bs).1.fixed = s.fixed := by
  unfold shWrite
  repeat' (first | split | intro _ | refine foldl_fixed ?_ ?_ | simp only [keeps_settle, keeps_guardRes, keeps_unitRes, keeps_hereRes, keeps_accessRes, keeps_next, keeps_fault, keeps_refused])
  all_goals simp_all [eq_pair]

@[simp] theorem shIssue_keeps (s : State) (g : Engine) (e : Nat) (f : Frame) (op : Nat) (vals : Word × Word × Word) (desc : BitVec 256) (view : Option Word) (needs : List (Word × Nat)) (boltNeeds : List (Nat × Nat)) (s0 : State) (h0 : s.fixed = s0.fixed) : IKeeps s0 (shIssue s g e f op vals desc view needs boltNeeds) := by
  refine IKeeps.of h0 ?_
  unfold shIssue
  repeat' (first | split | intro _ | refine foldl_fixed ?_ ?_ | refine issue_keeps ?_ (by simp) | refine packet_keeps ?_ (by simp) | refine secWrite_keeps ?_ (by simp) | refine secWriteAt_keeps ?_ (by simp) | refine slCmd_keeps ?_ (by simp) | refine fwCmd_keeps ?_ (by simp) | refine ksCmd_keeps ?_ (by simp) | refine fcWrite_keeps ?_ (by simp) | refine lcCmd_keeps ?_ (by simp) | refine dgCmd_keeps ?_ (by simp) | refine spdmReq_keeps ?_ (by simp) | refine message_keeps ?_ (by simp) | refine boundMessage_keeps ?_ (by simp) | refine hostSlice_keeps ?_ (by simp) | refine takeVerified_keeps ?_ (by simp) | refine beadPacket_keeps ?_ (by simp) | refine vector_keeps (by simp) | refine issueRows_keeps ?_ (by simp) | refine issueLink_keeps ?_ (by simp) | simp only [keeps_settle, keeps_guardRes, keeps_unitRes, keeps_hereRes, keeps_accessRes, keeps_next, keeps_fault, keeps_refused])
  all_goals simp_all [eq_pair]

@[simp] theorem execRoute_keeps (e : Nat) (f : Frame) (s : State) (s0 : State) (h0 : s.fixed = s0.fixed) : Keeps s0 (execRoute e f s) := by
  refine Keeps.of h0 ?_
  unfold execRoute
  repeat' (first | split | intro _ | refine foldl_fixed ?_ ?_ | refine issue_keeps ?_ (by simp) | refine packet_keeps ?_ (by simp) | refine secWrite_keeps ?_ (by simp) | refine secWriteAt_keeps ?_ (by simp) | refine slCmd_keeps ?_ (by simp) | refine fwCmd_keeps ?_ (by simp) | refine ksCmd_keeps ?_ (by simp) | refine fcWrite_keeps ?_ (by simp) | refine lcCmd_keeps ?_ (by simp) | refine dgCmd_keeps ?_ (by simp) | refine spdmReq_keeps ?_ (by simp) | refine message_keeps ?_ (by simp) | refine boundMessage_keeps ?_ (by simp) | refine hostSlice_keeps ?_ (by simp) | refine takeVerified_keeps ?_ (by simp) | refine beadPacket_keeps ?_ (by simp) | refine vector_keeps (by simp) | refine issueRows_keeps ?_ (by simp) | refine issueLink_keeps ?_ (by simp) | simp only [keeps_settle, keeps_guardRes, keeps_unitRes, keeps_hereRes, keeps_accessRes, keeps_next, keeps_fault, keeps_refused])
  all_goals simp_all [eq_pair]

@[simp] theorem execXgath_keeps (e : Nat) (f : Frame) (s : State) (s0 : State) (h0 : s.fixed = s0.fixed) : Keeps s0 (execXgath e f s) := by
  refine Keeps.of h0 ?_
  unfold execXgath
  repeat' (first | split | intro _ | refine foldl_fixed ?_ ?_ | refine issue_keeps ?_ (by simp) | refine packet_keeps ?_ (by simp) | refine secWrite_keeps ?_ (by simp) | refine secWriteAt_keeps ?_ (by simp) | refine slCmd_keeps ?_ (by simp) | refine fwCmd_keeps ?_ (by simp) | refine ksCmd_keeps ?_ (by simp) | refine fcWrite_keeps ?_ (by simp) | refine lcCmd_keeps ?_ (by simp) | refine dgCmd_keeps ?_ (by simp) | refine spdmReq_keeps ?_ (by simp) | refine message_keeps ?_ (by simp) | refine boundMessage_keeps ?_ (by simp) | refine hostSlice_keeps ?_ (by simp) | refine takeVerified_keeps ?_ (by simp) | refine beadPacket_keeps ?_ (by simp) | refine vector_keeps (by simp) | refine issueRows_keeps ?_ (by simp) | refine issueLink_keeps ?_ (by simp) | simp only [keeps_settle, keeps_guardRes, keeps_unitRes, keeps_hereRes, keeps_accessRes, keeps_next, keeps_fault, keeps_refused])
  all_goals simp_all [eq_pair]

@[simp] theorem execXscat_keeps (e : Nat) (f : Frame) (s : State) (s0 : State) (h0 : s.fixed = s0.fixed) : Keeps s0 (execXscat e f s) := by
  refine Keeps.of h0 ?_
  unfold execXscat
  repeat' (first | split | intro _ | refine foldl_fixed ?_ ?_ | refine issue_keeps ?_ (by simp) | refine packet_keeps ?_ (by simp) | refine secWrite_keeps ?_ (by simp) | refine secWriteAt_keeps ?_ (by simp) | refine slCmd_keeps ?_ (by simp) | refine fwCmd_keeps ?_ (by simp) | refine ksCmd_keeps ?_ (by simp) | refine fcWrite_keeps ?_ (by simp) | refine lcCmd_keeps ?_ (by simp) | refine dgCmd_keeps ?_ (by simp) | refine spdmReq_keeps ?_ (by simp) | refine message_keeps ?_ (by simp) | refine boundMessage_keeps ?_ (by simp) | refine hostSlice_keeps ?_ (by simp) | refine takeVerified_keeps ?_ (by simp) | refine beadPacket_keeps ?_ (by simp) | refine vector_keeps (by simp) | refine issueRows_keeps ?_ (by simp) | refine issueLink_keeps ?_ (by simp) | simp only [keeps_settle, keeps_guardRes, keeps_unitRes, keeps_hereRes, keeps_accessRes, keeps_next, keeps_fault, keeps_refused])
  all_goals simp_all [eq_pair]

@[simp] theorem execTopk_keeps (e : Nat) (f : Frame) (s : State) (s0 : State) (h0 : s.fixed = s0.fixed) : Keeps s0 (execTopk e f s) := by
  refine Keeps.of h0 ?_
  unfold execTopk
  repeat' (first | split | intro _ | refine foldl_fixed ?_ ?_ | refine issue_keeps ?_ (by simp) | refine packet_keeps ?_ (by simp) | refine secWrite_keeps ?_ (by simp) | refine secWriteAt_keeps ?_ (by simp) | refine slCmd_keeps ?_ (by simp) | refine fwCmd_keeps ?_ (by simp) | refine ksCmd_keeps ?_ (by simp) | refine fcWrite_keeps ?_ (by simp) | refine lcCmd_keeps ?_ (by simp) | refine dgCmd_keeps ?_ (by simp) | refine spdmReq_keeps ?_ (by simp) | refine message_keeps ?_ (by simp) | refine boundMessage_keeps ?_ (by simp) | refine hostSlice_keeps ?_ (by simp) | refine takeVerified_keeps ?_ (by simp) | refine beadPacket_keeps ?_ (by simp) | refine vector_keeps (by simp) | refine issueRows_keeps ?_ (by simp) | refine issueLink_keeps ?_ (by simp) | simp only [keeps_settle, keeps_guardRes, keeps_unitRes, keeps_hereRes, keeps_accessRes, keeps_next, keeps_fault, keeps_refused])
  all_goals simp_all [eq_pair]

@[simp] theorem execTexp_keeps (e : Nat) (f : Frame) (s : State) (s0 : State) (h0 : s.fixed = s0.fixed) : Keeps s0 (execTexp e f s) := by
  refine Keeps.of h0 ?_
  unfold execTexp
  repeat' (first | split | intro _ | refine foldl_fixed ?_ ?_ | refine issue_keeps ?_ (by simp) | refine packet_keeps ?_ (by simp) | refine secWrite_keeps ?_ (by simp) | refine secWriteAt_keeps ?_ (by simp) | refine slCmd_keeps ?_ (by simp) | refine fwCmd_keeps ?_ (by simp) | refine ksCmd_keeps ?_ (by simp) | refine fcWrite_keeps ?_ (by simp) | refine lcCmd_keeps ?_ (by simp) | refine dgCmd_keeps ?_ (by simp) | refine spdmReq_keeps ?_ (by simp) | refine message_keeps ?_ (by simp) | refine boundMessage_keeps ?_ (by simp) | refine hostSlice_keeps ?_ (by simp) | refine takeVerified_keeps ?_ (by simp) | refine beadPacket_keeps ?_ (by simp) | refine vector_keeps (by simp) | refine issueRows_keeps ?_ (by simp) | refine issueLink_keeps ?_ (by simp) | simp only [keeps_settle, keeps_guardRes, keeps_unitRes, keeps_hereRes, keeps_accessRes, keeps_next, keeps_fault, keeps_refused])
  all_goals simp_all [eq_pair]

@[simp] theorem readRows_fixed (rd : State → Nat → State × Acc (List Byte)) (s : State) (l : List Nat) (hr : ∀ t a, (rd t a).1.fixed = t.fixed) :
    (readRows rd s l).1.fixed = s.fixed := by
  induction l generalizing s with
  | nil => rfl
  | cons x t ih =>
    unfold readRows
    try dsimp only
    repeat' split
    all_goals simp_all [eq_pair]

@[simp] theorem runRoute_fixed (s : State) (o : ShOp) : (runRoute s o).1.fixed = s.fixed := by
  unfold runRoute
  repeat' (first | split | intro _ | refine foldl_fixed ?_ ?_ | simp only [keeps_settle, keeps_guardRes, keeps_unitRes, keeps_hereRes, keeps_accessRes, keeps_next, keeps_fault, keeps_refused])
  all_goals simp_all [eq_pair]

@[simp] theorem baseEntry_fixed (s : State) (o : ShOp) (x : Nat) : (baseEntry s o x).1.fixed = s.fixed := by
  unfold baseEntry
  repeat' (first | split | intro _ | refine foldl_fixed ?_ ?_ | simp only [keeps_settle, keeps_guardRes, keeps_unitRes, keeps_hereRes, keeps_accessRes, keeps_next, keeps_fault, keeps_refused])
  all_goals simp_all [eq_pair]

@[simp] theorem gatherRow_fixed (s : State) (o : ShOp) (src : Nat) (dst : ShAddr) (add : Nat) (n : Nat) : (gatherRow s o src dst add n).1.fixed = s.fixed := by
  unfold gatherRow
  repeat' (first | split | intro _ | refine foldl_fixed ?_ ?_ | simp only [keeps_settle, keeps_guardRes, keeps_unitRes, keeps_hereRes, keeps_accessRes, keeps_next, keeps_fault, keeps_refused])
  all_goals simp_all [eq_pair]

@[simp] theorem gatherRows_fixed (o : ShOp) (t : Tensor) (dst : ShAddr) (s : State) (l : List Nat) (i : Nat) :
    (gatherRows o t dst s l i).1.fixed = s.fixed := by
  induction l generalizing s i with
  | nil => rfl
  | cons x t ih =>
    unfold gatherRows
    try dsimp only
    repeat' split
    all_goals simp_all [eq_pair]

@[simp] theorem runXgath_fixed (s : State) (o : ShOp) : (runXgath s o).1.fixed = s.fixed := by
  unfold runXgath
  repeat' (first | split | intro _ | refine foldl_fixed ?_ ?_ | simp only [keeps_settle, keeps_guardRes, keeps_unitRes, keeps_hereRes, keeps_accessRes, keeps_next, keeps_fault, keeps_refused])
  all_goals simp_all [eq_pair]

@[simp] theorem combineSlots_fixed (o : ShOp) (t : Tensor) (s : State) (l : List (Nat × Nat)) (acc : List FV) :
    (combineSlots o t s l acc).1.fixed = s.fixed := by
  induction l generalizing s acc with
  | nil => rfl
  | cons x t ih =>
    unfold combineSlots
    try dsimp only
    repeat' split
    all_goals simp_all [eq_pair]

@[simp] theorem scatterToken_fixed (s : State) (o : ShOp) (t : Tensor) (n k tok : Nat) : (scatterToken s o t n k tok).1.fixed = s.fixed := by
  unfold scatterToken
  try dsimp only
  split; · rfl
  generalize h : (if o.fld 62 1 = 1 then _ else _ : State × Acc (List FV)) = p
  have h1 : p.1.fixed = s.fixed := by
    rw [← h]
    repeat' split
    all_goals simp_all [eq_pair]
  repeat' split
  all_goals simp_all [eq_pair]

@[simp] theorem runXscat_fixed (s : State) (o : ShOp) : (runXscat s o).1.fixed = s.fixed := by
  unfold runXscat
  try dsimp only
  split
  · simp_all [eq_pair]
  · split
    · simp_all [eq_pair]
    · refine (foldl_fst_fixed (fun p q => by split <;> simp)).trans ?_
      simp_all [eq_pair]

@[simp] theorem topkBlocks_fixed (o : ShOp) (l n : Nat) (s : State) (b : Nat) : (topkBlocks o l n s b).1.fixed = s.fixed := by
  induction n generalizing s b with
  | zero => rfl
  | succ n ih =>
    unfold topkBlocks
    try dsimp only
    repeat' split
    all_goals simp_all [eq_pair]

@[simp] theorem runTopk_fixed (s : State) (o : ShOp) : (runTopk s o).1.fixed = s.fixed := by
  unfold runTopk; simp

@[simp] theorem expandOne_fixed (s : State) (o : ShOp) (p : Nat) (x : FV) : (expandOne s o p x).1.fixed = s.fixed := by
  unfold expandOne
  repeat' (first | split | intro _ | refine foldl_fixed ?_ ?_ | simp only [keeps_settle, keeps_guardRes, keeps_unitRes, keeps_hereRes, keeps_accessRes, keeps_next, keeps_fault, keeps_refused])
  all_goals simp_all [eq_pair]

@[simp] theorem expandEntries_fixed (o : ShOp) (n : Nat) (s : State) (l : List (Nat × FV)) : (expandEntries o n s l).1.fixed = s.fixed := by
  induction l generalizing s with
  | nil => rfl
  | cons x t ih =>
    unfold expandEntries
    try dsimp only
    repeat' split
    all_goals simp_all [eq_pair]

@[simp] theorem expandBlocks_fixed (o : ShOp) (l n : Nat) (s : State) (b : Nat) : (expandBlocks o l n s b).1.fixed = s.fixed := by
  induction n generalizing s b with
  | zero => rfl
  | succ n ih =>
    unfold expandBlocks
    try dsimp only
    repeat' split
    all_goals simp_all [eq_pair]

@[simp] theorem runTexp_fixed (s : State) (o : ShOp) : (runTexp s o).1.fixed = s.fixed := by
  unfold runTexp; simp

@[simp] theorem runShuttle_fixed (s : State) (o : ShOp) : (runShuttle s o).1.fixed = s.fixed := by
  unfold runShuttle
  repeat' (first | split | intro _ | refine foldl_fixed ?_ ?_ | simp only [keeps_settle, keeps_guardRes, keeps_unitRes, keeps_hereRes, keeps_accessRes, keeps_next, keeps_fault, keeps_refused])
  all_goals simp_all [eq_pair]

@[simp] theorem startShuttle_fixed (s : State) (c : Nat) (o : ShOp) : (startShuttle s c o).fixed = s.fixed := by
  unfold startShuttle; simp

@[simp] theorem execShuttleOperationStart_keeps (c : Nat) (s : State) (s0 : State) (h0 : s.fixed = s0.fixed) : Keeps s0 (execShuttleOperationStart c s) := by
  refine Keeps.of h0 ?_
  unfold execShuttleOperationStart
  repeat' (first | split | intro _ | refine foldl_fixed ?_ ?_ | refine issue_keeps ?_ (by simp) | refine packet_keeps ?_ (by simp) | refine secWrite_keeps ?_ (by simp) | refine secWriteAt_keeps ?_ (by simp) | refine slCmd_keeps ?_ (by simp) | refine fwCmd_keeps ?_ (by simp) | refine ksCmd_keeps ?_ (by simp) | refine fcWrite_keeps ?_ (by simp) | refine lcCmd_keeps ?_ (by simp) | refine dgCmd_keeps ?_ (by simp) | refine spdmReq_keeps ?_ (by simp) | refine message_keeps ?_ (by simp) | refine boundMessage_keeps ?_ (by simp) | refine hostSlice_keeps ?_ (by simp) | refine takeVerified_keeps ?_ (by simp) | refine beadPacket_keeps ?_ (by simp) | refine vector_keeps (by simp) | refine issueRows_keeps ?_ (by simp) | refine issueLink_keeps ?_ (by simp) | simp only [keeps_settle, keeps_guardRes, keeps_unitRes, keeps_hereRes, keeps_accessRes, keeps_next, keeps_fault, keeps_refused])
  all_goals simp_all [eq_pair]

@[simp] theorem releaseZero_fixed (s : State) (o : ShOp) : (releaseZero s o).fixed = s.fixed := by
  unfold releaseZero
  repeat' (first | split | intro _ | refine foldl_fixed ?_ ?_ | simp only [keeps_settle, keeps_guardRes, keeps_unitRes, keeps_hereRes, keeps_accessRes, keeps_next, keeps_fault, keeps_refused])
  all_goals simp_all [eq_pair]

@[simp] theorem execShuttleOperationComplete_keeps (c : Nat) (s : State) (s0 : State) (h0 : s.fixed = s0.fixed) : Keeps s0 (execShuttleOperationComplete c s) := by
  refine Keeps.of h0 ?_
  unfold execShuttleOperationComplete
  repeat' (first | split | intro _ | refine foldl_fixed ?_ ?_ | refine issue_keeps ?_ (by simp) | refine packet_keeps ?_ (by simp) | refine secWrite_keeps ?_ (by simp) | refine secWriteAt_keeps ?_ (by simp) | refine slCmd_keeps ?_ (by simp) | refine fwCmd_keeps ?_ (by simp) | refine ksCmd_keeps ?_ (by simp) | refine fcWrite_keeps ?_ (by simp) | refine lcCmd_keeps ?_ (by simp) | refine dgCmd_keeps ?_ (by simp) | refine spdmReq_keeps ?_ (by simp) | refine message_keeps ?_ (by simp) | refine boundMessage_keeps ?_ (by simp) | refine hostSlice_keeps ?_ (by simp) | refine takeVerified_keeps ?_ (by simp) | refine beadPacket_keeps ?_ (by simp) | refine vector_keeps (by simp) | refine issueRows_keeps ?_ (by simp) | refine issueLink_keeps ?_ (by simp) | simp only [keeps_settle, keeps_guardRes, keeps_unitRes, keeps_hereRes, keeps_accessRes, keeps_next, keeps_fault, keeps_refused])
  all_goals simp_all [eq_pair]

end Sys2Proof.Machine
end

