-- ==== Sys2Proof/Laws/KeepAsync.lean ====
section
/-! SUPPORT. Each operation of Machine/Async.lean keeps the fixed part of the state: the build parameters and the queue. -/
set_option linter.unusedSimpArgs false
set_option linter.unusedTactic false
set_option linter.unreachableTactic false
namespace Sys2Proof.Machine

@[simp] theorem linkForget_fixed (s : State) (id : Nat) : (linkForget s id).fixed = s.fixed := by
  unfold linkForget; simp

@[simp] theorem moveOne_fixed (s : State) (a : AsyncOp) : (moveOne s a).1.fixed = s.fixed := by
  unfold moveOne
  repeat' (first | split | intro _ | refine foldl_fixed ?_ ?_ | simp only [keeps_settle, keeps_guardRes, keeps_unitRes, keeps_hereRes, keeps_accessRes, keeps_next, keeps_fault, keeps_refused])
  all_goals simp_all [eq_pair]

@[simp] theorem moveList_fixed (s : State) (as : List AsyncOp) : (moveList s as).fixed = s.fixed := by
  unfold moveList; simp

@[simp] theorem completeMove_fixed (s : State) (a : AsyncOp) : (completeMove s a).fixed = s.fixed := by
  unfold completeMove; simp

@[simp] theorem execAsyncOperationComplete_keeps (id : Nat) (s : State) (s0 : State) (h0 : s.fixed = s0.fixed) : Keeps s0 (execAsyncOperationComplete id s) := by
  refine Keeps.of h0 ?_
  unfold execAsyncOperationComplete
  repeat' (first | split | intro _ | refine foldl_fixed ?_ ?_ | refine issue_keeps ?_ (by simp) | refine packet_keeps ?_ (by simp) | refine secWrite_keeps ?_ (by simp) | refine secWriteAt_keeps ?_ (by simp) | refine slCmd_keeps ?_ (by simp) | refine fwCmd_keeps ?_ (by simp) | refine ksCmd_keeps ?_ (by simp) | refine fcWrite_keeps ?_ (by simp) | refine lcCmd_keeps ?_ (by simp) | refine dgCmd_keeps ?_ (by simp) | refine spdmReq_keeps ?_ (by simp) | refine message_keeps ?_ (by simp) | refine boundMessage_keeps ?_ (by simp) | refine hostSlice_keeps ?_ (by simp) | refine takeVerified_keeps ?_ (by simp) | refine beadPacket_keeps ?_ (by simp) | refine vector_keeps (by simp) | refine issueRows_keeps ?_ (by simp) | refine issueLink_keeps ?_ (by simp) | simp only [keeps_settle, keeps_guardRes, keeps_unitRes, keeps_hereRes, keeps_accessRes, keeps_next, keeps_fault, keeps_refused])
  all_goals simp_all [eq_pair]

end Sys2Proof.Machine
end

