-- ==== Sys2Proof/Laws/KeepRods.lean ====
section
/-! SUPPORT. Each operation of Machine/Rods.lean keeps the fixed part of the state: the build parameters and the queue. -/
set_option linter.unusedSimpArgs false
set_option linter.unusedTactic false
set_option linter.unreachableTactic false
namespace Sys2Proof.Machine

@[simp] theorem modBead_fixed (s : State) (b : Nat) (f : Bead → Bead) : (modBead s b f).fixed = s.fixed := by
  unfold modBead; simp

@[simp] theorem putRod_fixed (s : State) (r : Nat) (x : Rod) : (putRod s r x).fixed = s.fixed := by
  unfold putRod; simp

@[simp] theorem dropRod_fixed (s : State) (r : Nat) : (dropRod s r).fixed = s.fixed := by
  unfold dropRod; simp

@[simp] theorem beadWaits_fixed (s : State) (b : Nat) : (beadWaits s b).fixed = s.fixed := by
  unfold beadWaits; simp

@[simp] theorem beadState_fixed (s : State) (b : Nat) (st : Nat) : (beadState s b st).fixed = s.fixed := by
  unfold beadState; simp

@[simp] theorem buildRod_fixed (s : State) (slice : Nat) (q : Nat) (r : Rod) : (buildRod s slice q r).1.fixed = s.fixed := by
  unfold buildRod
  repeat' (first | split | intro _ | refine foldl_fixed ?_ ?_ | simp only [keeps_settle, keeps_guardRes, keeps_unitRes, keeps_hereRes, keeps_accessRes, keeps_next, keeps_fault, keeps_refused])
  all_goals simp_all [eq_pair]

@[simp] theorem rodWrite_fixed (s : State) (slice : Nat) (c : Nat) (gen : Nat) (a : Word) (bs : List Byte) : (rodWrite s slice c gen a bs).1.fixed = s.fixed := by
  unfold rodWrite
  repeat' (first | split | intro _ | refine foldl_fixed ?_ ?_ | simp only [keeps_settle, keeps_guardRes, keeps_unitRes, keeps_hereRes, keeps_accessRes, keeps_next, keeps_fault, keeps_refused])
  all_goals simp_all [eq_pair]

@[simp] theorem rodRead_fixed (s : State) (slice : Nat) (c : Nat) (gen : Nat) (a : Word) (n : Nat) : (rodRead s slice c gen a n).1.fixed = s.fixed := by
  unfold rodRead
  repeat' (first | split | intro _ | refine foldl_fixed ?_ ?_ | simp only [keeps_settle, keeps_guardRes, keeps_unitRes, keeps_hereRes, keeps_accessRes, keeps_next, keeps_fault, keeps_refused])
  all_goals simp_all [eq_pair]

@[simp] theorem openRod_fixed (s : State) (slice : Nat) (c : Nat) (gen : Nat) (q : Nat) : (openRod s slice c gen q).1.fixed = s.fixed := by
  unfold openRod
  repeat' (first | split | intro _ | refine foldl_fixed ?_ ?_ | simp only [keeps_settle, keeps_guardRes, keeps_unitRes, keeps_hereRes, keeps_accessRes, keeps_next, keeps_fault, keeps_refused])
  all_goals simp_all [eq_pair]

@[simp] theorem closeRod_fixed (s : State) (slice c gen : Nat) (r : Rod) (err : Bool) : (closeRod s slice c gen r err).1.fixed = s.fixed := by
  unfold closeRod
  try dsimp only
  refine (foldl_fst_fixed fun p q => by simp).trans ?_
  try dsimp only
  repeat' split
  all_goals simp_all [eq_pair]

@[simp] theorem settleRod_fixed (s : State) (i : Nat) (r : Rod) : (settleRod s i r).fixed = s.fixed := by
  unfold settleRod; simp

@[simp] theorem startStep_fixed (s : State) (q : Nat) : (startStep s q).fixed = s.fixed := by
  unfold startStep
  repeat' (first | split | intro _ | refine foldl_fixed ?_ ?_ | simp only [keeps_settle, keeps_guardRes, keeps_unitRes, keeps_hereRes, keeps_accessRes, keeps_next, keeps_fault, keeps_refused])
  all_goals simp_all [eq_pair]

end Sys2Proof.Machine
end

