-- ==== Sys2Proof/Laws/KeepSwitch.lean ====
section
/-! SUPPORT. Each operation of Machine/Switch.lean keeps the fixed part of the state: the build parameters and the queue. -/
set_option linter.unusedSimpArgs false
set_option linter.unusedTactic false
set_option linter.unreachableTactic false
namespace Sys2Proof.Machine

@[simp] theorem modSlSched_fixed (s : State) (n : Nat) (f : SlSched → SlSched) : (modSlSched s n f).fixed = s.fixed := by
  unfold modSlSched; simp

@[simp] theorem modAcc_fixed (s : State) (c : Nat) (f : CtxAcc → CtxAcc) : (modAcc s c f).fixed = s.fixed := by
  unfold modAcc; simp

@[simp] theorem addReadyAt_fixed (s : State) (c : Nat) (k : Nat × Nat) : (addReadyAt s c k).fixed = s.fixed := by
  unfold addReadyAt; split <;> rfl

@[simp] theorem addReady_fixed (s : State) (c : Nat) : (addReady s c).fixed = s.fixed := addReadyAt_fixed s c _

@[simp] theorem addReadyFor_fixed (s : State) (c : Nat) (r : RingId) : (addReadyFor s c r).fixed = s.fixed := by
  unfold addReadyFor; split <;> simp

@[simp] theorem dropReady_fixed (s : State) (c : Nat) : (dropReady s c).fixed = s.fixed := by
  unfold dropReady; simp

@[simp] theorem requestsForLc_fixed (slice : Nat) (s : State) : (requestsForLc slice s).fixed = s.fixed := by
  unfold requestsForLc
  refine foldl_fst_fixed fun p q => ?_
  split
  · rfl
  · split
    · exact modEng_fixed _ _ _
    · rfl

@[simp] theorem lcRequests_fixed (s : State) : (lcRequests s).fixed = s.fixed := by
  unfold lcRequests; simp

@[simp] theorem saveRecord_fixed (s : State) (e : Nat) (c : Nat) (gen : Nat) : (saveRecord s e c gen).fixed = s.fixed := by
  unfold saveRecord
  repeat' (first | split | intro _ | refine foldl_fixed ?_ ?_ | simp only [keeps_settle, keeps_guardRes, keeps_unitRes, keeps_hereRes, keeps_accessRes, keeps_next, keeps_fault, keeps_refused])
  all_goals simp_all [eq_pair]

@[simp] theorem detach_fixed (s : State) (e : Nat) : (detach s e).fixed = s.fixed := by
  unfold detach
  repeat' (first | split | intro _ | refine foldl_fixed ?_ ?_ | simp only [keeps_settle, keeps_guardRes, keeps_unitRes, keeps_hereRes, keeps_accessRes, keeps_next, keeps_fault, keeps_refused])
  all_goals simp_all [eq_pair]

@[simp] theorem attach_fixed (s : State) (e : Nat) (c : Nat) : (attach s e c).fixed = s.fixed := by
  unfold attach; simp

@[simp] theorem place_fixed (s : State) (e : Nat) (c : Nat) : (place s e c).fixed = s.fixed := by
  unfold place; simp

@[simp] theorem execContextSwitch_keeps (e : Nat) (inc : Option Nat) (s : State) (s0 : State) (h0 : s.fixed = s0.fixed) : Keeps s0 (execContextSwitch e inc s) := by
  refine Keeps.of h0 ?_
  unfold execContextSwitch
  repeat' (first | split | intro _ | refine foldl_fixed ?_ ?_ | refine issue_keeps ?_ (by simp) | refine packet_keeps ?_ (by simp) | refine secWrite_keeps ?_ (by simp) | refine secWriteAt_keeps ?_ (by simp) | refine slCmd_keeps ?_ (by simp) | refine fwCmd_keeps ?_ (by simp) | refine ksCmd_keeps ?_ (by simp) | refine fcWrite_keeps ?_ (by simp) | refine lcCmd_keeps ?_ (by simp) | refine dgCmd_keeps ?_ (by simp) | refine spdmReq_keeps ?_ (by simp) | refine message_keeps ?_ (by simp) | refine boundMessage_keeps ?_ (by simp) | refine hostSlice_keeps ?_ (by simp) | refine takeVerified_keeps ?_ (by simp) | refine beadPacket_keeps ?_ (by simp) | refine vector_keeps (by simp) | refine issueRows_keeps ?_ (by simp) | refine issueLink_keeps ?_ (by simp) | simp only [keeps_settle, keeps_guardRes, keeps_unitRes, keeps_hereRes, keeps_accessRes, keeps_next, keeps_fault, keeps_refused])
  all_goals simp_all [eq_pair]

@[simp] theorem execQuantumExpiry_keeps (e : Nat) (s : State) (s0 : State) (h0 : s.fixed = s0.fixed) : Keeps s0 (execQuantumExpiry e s) := by
  refine Keeps.of h0 ?_
  unfold execQuantumExpiry; simp

@[simp] theorem execStateRecordSpill_keeps (ctx : Nat) (c : Nat) (need : Nat) (s : State) (s0 : State) (h0 : s.fixed = s0.fixed) : Keeps s0 (execStateRecordSpill ctx c need s) := by
  refine Keeps.of h0 ?_
  unfold execStateRecordSpill
  repeat' (first | split | intro _ | refine foldl_fixed ?_ ?_ | refine issue_keeps ?_ (by simp) | refine packet_keeps ?_ (by simp) | refine secWrite_keeps ?_ (by simp) | refine secWriteAt_keeps ?_ (by simp) | refine slCmd_keeps ?_ (by simp) | refine fwCmd_keeps ?_ (by simp) | refine ksCmd_keeps ?_ (by simp) | refine fcWrite_keeps ?_ (by simp) | refine lcCmd_keeps ?_ (by simp) | refine dgCmd_keeps ?_ (by simp) | refine spdmReq_keeps ?_ (by simp) | refine message_keeps ?_ (by simp) | refine boundMessage_keeps ?_ (by simp) | refine hostSlice_keeps ?_ (by simp) | refine takeVerified_keeps ?_ (by simp) | refine beadPacket_keeps ?_ (by simp) | refine vector_keeps (by simp) | refine issueRows_keeps ?_ (by simp) | refine issueLink_keeps ?_ (by simp) | simp only [keeps_settle, keeps_guardRes, keeps_unitRes, keeps_hereRes, keeps_accessRes, keeps_next, keeps_fault, keeps_refused])
  all_goals simp_all [eq_pair]

@[simp] theorem execStateRecordFill_keeps (ctx : Nat) (c : Nat) (i : Nat) (base : Nat) (s : State) (s0 : State) (h0 : s.fixed = s0.fixed) : Keeps s0 (execStateRecordFill ctx c i base s) := by
  refine Keeps.of h0 ?_
  unfold execStateRecordFill
  repeat' (first | split | intro _ | refine foldl_fixed ?_ ?_ | refine issue_keeps ?_ (by simp) | refine packet_keeps ?_ (by simp) | refine secWrite_keeps ?_ (by simp) | refine secWriteAt_keeps ?_ (by simp) | refine slCmd_keeps ?_ (by simp) | refine fwCmd_keeps ?_ (by simp) | refine ksCmd_keeps ?_ (by simp) | refine fcWrite_keeps ?_ (by simp) | refine lcCmd_keeps ?_ (by simp) | refine dgCmd_keeps ?_ (by simp) | refine spdmReq_keeps ?_ (by simp) | refine message_keeps ?_ (by simp) | refine boundMessage_keeps ?_ (by simp) | refine hostSlice_keeps ?_ (by simp) | refine takeVerified_keeps ?_ (by simp) | refine beadPacket_keeps ?_ (by simp) | refine vector_keeps (by simp) | refine issueRows_keeps ?_ (by simp) | refine issueLink_keeps ?_ (by simp) | simp only [keeps_settle, keeps_guardRes, keeps_unitRes, keeps_hereRes, keeps_accessRes, keeps_next, keeps_fault, keeps_refused])
  all_goals simp_all [eq_pair]

end Sys2Proof.Machine
end

