-- ==== Sys2Proof/Laws/KeepMedium.lean ====
section
/-! SUPPORT. Each operation of Machine/Medium.lean keeps the fixed part of the state: the build parameters and the queue. -/
set_option linter.unusedSimpArgs false
set_option linter.unusedTactic false
set_option linter.unreachableTactic false
namespace Sys2Proof.Machine

@[simp] theorem noteReqErr_fixed (s : State) (a : Attr) (code : Nat) : (noteReqErr s a code).fixed = s.fixed := by
  unfold noteReqErr; simp

@[simp] theorem answer_fixed (s : State) (a : Attr) (z2 : SvRes) : (answer s a z2).fixed = s.fixed := by
  unfold answer
  repeat' (first | split | intro _ | refine foldl_fixed ?_ ?_ | simp only [keeps_settle, keeps_guardRes, keeps_unitRes, keeps_hereRes, keeps_accessRes, keeps_next, keeps_fault, keeps_refused])
  all_goals simp_all [eq_pair]

@[simp] theorem holdRead_fixed (s : State) (r : MemReq) (w : Waiting) : (holdRead s r w).fixed = s.fixed := by
  unfold holdRead; simp

@[simp] theorem countReq_fixed (s : State) (r : MemReq) : (countReq s r).fixed = s.fixed := by
  unfold countReq; simp

@[simp] theorem execSelvageRead_keeps (r : MemReq) (med : Med) (late : Bool) (s : State) (s0 : State) (h0 : s.fixed = s0.fixed) : Keeps s0 (execSelvageRead r med late s) := by
  refine Keeps.of h0 ?_
  unfold execSelvageRead; simp

@[simp] theorem execSelvageFullWrite_keeps (r : MemReq) (data : Line) (med : Med) (s : State) (s0 : State) (h0 : s.fixed = s0.fixed) : Keeps s0 (execSelvageFullWrite r data med s) := by
  refine Keeps.of h0 ?_
  unfold execSelvageFullWrite; simp

@[simp] theorem execSelvagePartialWrite_keeps (r : MemReq) (mask : BitVec 128) (data : Line) (med : Med) (late : Bool) (s : State) (s0 : State) (h0 : s.fixed = s0.fixed) : Keeps s0 (execSelvagePartialWrite r mask data med late s) := by
  refine Keeps.of h0 ?_
  unfold execSelvagePartialWrite; simp

@[simp] theorem execMetadataCacheFill_keeps (port sub lvl i keyid : Nat) (med : Med) (s : State) (s0 : State) (h0 : s.fixed = s0.fixed) : Keeps s0 (execMetadataCacheFill port sub lvl i keyid med s) := by
  refine Keeps.of h0 ?_
  unfold execMetadataCacheFill
  simp

@[simp] theorem execGroupReencryption_keeps (r : MemReq) (mask : BitVec 128) (data : Line) (med : Med) (s : State) (s0 : State) (h0 : s.fixed = s0.fixed) : Keeps s0 (execGroupReencryption r mask data med s) := by
  refine Keeps.of h0 ?_
  unfold execGroupReencryption
  repeat' (first | split | intro _ | refine foldl_fixed ?_ ?_ | refine issue_keeps ?_ (by simp) | refine packet_keeps ?_ (by simp) | refine secWrite_keeps ?_ (by simp) | refine secWriteAt_keeps ?_ (by simp) | refine slCmd_keeps ?_ (by simp) | refine fwCmd_keeps ?_ (by simp) | refine ksCmd_keeps ?_ (by simp) | refine fcWrite_keeps ?_ (by simp) | refine lcCmd_keeps ?_ (by simp) | refine dgCmd_keeps ?_ (by simp) | refine spdmReq_keeps ?_ (by simp) | refine message_keeps ?_ (by simp) | refine boundMessage_keeps ?_ (by simp) | refine hostSlice_keeps ?_ (by simp) | refine takeVerified_keeps ?_ (by simp) | refine beadPacket_keeps ?_ (by simp) | refine vector_keeps (by simp) | refine issueRows_keeps ?_ (by simp) | refine issueLink_keeps ?_ (by simp) | simp only [keeps_settle, keeps_guardRes, keeps_unitRes, keeps_hereRes, keeps_accessRes, keeps_next, keeps_fault, keeps_refused])
  all_goals simp_all [eq_pair]

theorem underEntry_fixed (s : State) (i : Option Nat) (old : Option Region) (f : State → State) (hf : ∀ t, (f t).fixed = t.fixed) : (underEntry s i old f).fixed = s.fixed := by
  unfold underEntry
  split
  · exact hf _
  · exact hf s

@[simp] theorem finishWaiting_fixed (s : State) (rgn : Option Region) (errs : List Nat) (w : Waiting) : (finishWaiting s rgn errs w).fixed = s.fixed := by
  unfold finishWaiting
  split
  all_goals first
    | exact underEntry_fixed _ _ _ _ fun t => by simp
    | simp

@[simp] theorem dropTag_fixed (s : State) (m : Nat) (sub : Nat) (num : Nat) : (dropTag s m sub num).fixed = s.fixed := by
  unfold dropTag; simp

@[simp] theorem badCompletion_fixed (s : State) (m : Nat) (sub : Nat) : (badCompletion s m sub).fixed = s.fixed := by
  unfold badCompletion; simp

@[simp] theorem errResponse_fixed (s : State) (m : Nat) (sub : Nat) (detail : Nat) : (errResponse s m sub detail).fixed = s.fixed := by
  unfold errResponse; simp

@[simp] theorem completeTag_fixed (s : State) (m : Nat) (sub : Nat) (t : Tag) (err : Bool) (data : Beat) : (completeTag s m sub t err data).fixed = s.fixed := by
  unfold completeTag
  repeat' (first | split | intro _ | refine foldl_fixed ?_ ?_ | simp only [keeps_settle, keeps_guardRes, keeps_unitRes, keeps_hereRes, keeps_accessRes, keeps_next, keeps_fault, keeps_refused])
  all_goals simp_all [eq_pair]

@[simp] theorem execMemoryCompletion_keeps (port : Nat) (sub : Nat) (tag : Nat) (write : Bool) (err : Bool) (data : Beat) (s : State) (s0 : State) (h0 : s.fixed = s0.fixed) : Keeps s0 (execMemoryCompletion port sub tag write err data s) := by
  refine Keeps.of h0 ?_
  unfold execMemoryCompletion
  repeat' (first | split | intro _ | refine foldl_fixed ?_ ?_ | refine issue_keeps ?_ (by simp) | refine packet_keeps ?_ (by simp) | refine secWrite_keeps ?_ (by simp) | refine secWriteAt_keeps ?_ (by simp) | refine slCmd_keeps ?_ (by simp) | refine fwCmd_keeps ?_ (by simp) | refine ksCmd_keeps ?_ (by simp) | refine fcWrite_keeps ?_ (by simp) | refine lcCmd_keeps ?_ (by simp) | refine dgCmd_keeps ?_ (by simp) | refine spdmReq_keeps ?_ (by simp) | refine message_keeps ?_ (by simp) | refine boundMessage_keeps ?_ (by simp) | refine hostSlice_keeps ?_ (by simp) | refine takeVerified_keeps ?_ (by simp) | refine beadPacket_keeps ?_ (by simp) | refine vector_keeps (by simp) | refine issueRows_keeps ?_ (by simp) | refine issueLink_keeps ?_ (by simp) | simp only [keeps_settle, keeps_guardRes, keeps_unitRes, keeps_hereRes, keeps_accessRes, keeps_next, keeps_fault, keeps_refused])
  all_goals simp_all [eq_pair]

@[simp] theorem mpErrAll_fixed (s : State) (m : Nat) : (mpErrAll s m).fixed = s.fixed := by
  unfold mpErrAll; simp

@[simp] theorem execMpReadyFall_keeps (port : Nat) (s : State) (s0 : State) (h0 : s.fixed = s0.fixed) : Keeps s0 (execMpReadyFall port s) := by
  refine Keeps.of h0 ?_
  unfold execMpReadyFall
  repeat' (first | split | intro _ | refine foldl_fixed ?_ ?_ | refine issue_keeps ?_ (by simp) | refine packet_keeps ?_ (by simp) | refine secWrite_keeps ?_ (by simp) | refine secWriteAt_keeps ?_ (by simp) | refine slCmd_keeps ?_ (by simp) | refine fwCmd_keeps ?_ (by simp) | refine ksCmd_keeps ?_ (by simp) | refine fcWrite_keeps ?_ (by simp) | refine lcCmd_keeps ?_ (by simp) | refine dgCmd_keeps ?_ (by simp) | refine spdmReq_keeps ?_ (by simp) | refine message_keeps ?_ (by simp) | refine boundMessage_keeps ?_ (by simp) | refine hostSlice_keeps ?_ (by simp) | refine takeVerified_keeps ?_ (by simp) | refine beadPacket_keeps ?_ (by simp) | refine vector_keeps (by simp) | refine issueRows_keeps ?_ (by simp) | refine issueLink_keeps ?_ (by simp) | simp only [keeps_settle, keeps_guardRes, keeps_unitRes, keeps_hereRes, keeps_accessRes, keeps_next, keeps_fault, keeps_refused])
  all_goals simp_all [eq_pair]

@[simp] theorem execMpReadyRise_keeps (port : Nat) (s : State) (s0 : State) (h0 : s.fixed = s0.fixed) : Keeps s0 (execMpReadyRise port s) := by
  refine Keeps.of h0 ?_
  unfold execMpReadyRise; simp

@[simp] theorem scrubPassEnd_fixed (s : State) (m : Nat) : (scrubPassEnd s m).fixed = s.fixed := by
  unfold scrubPassEnd; simp

@[simp] theorem scrubEnter_fixed (s : State) (m : Nat) (j : Nat) (g : Nat) : (scrubEnter s m j g).fixed = s.fixed := by
  unfold scrubEnter; simp

@[simp] theorem scrubAdvance_fixed (s : State) (m : Nat) : (scrubAdvance s m).fixed = s.fixed := by
  unfold scrubAdvance
  repeat' (first | split | intro _ | refine foldl_fixed ?_ ?_ | simp only [keeps_settle, keeps_guardRes, keeps_unitRes, keeps_hereRes, keeps_accessRes, keeps_next, keeps_fault, keeps_refused])
  all_goals simp_all [eq_pair]

@[simp] theorem careRead_fixed (s : State) (m : Nat) (sub : Nat) (line : Nat) (errs : List Nat) : (careRead s m sub line errs).1.fixed = s.fixed := by
  unfold careRead
  repeat' (first | split | intro _ | refine foldl_fixed ?_ ?_ | simp only [keeps_settle, keeps_guardRes, keeps_unitRes, keeps_hereRes, keeps_accessRes, keeps_next, keeps_fault, keeps_refused])
  all_goals simp_all [eq_pair]

@[simp] theorem execScrubAccess_keeps (port : Nat) (med : Med) (s : State) (s0 : State) (h0 : s.fixed = s0.fixed) : Keeps s0 (execScrubAccess port med s) := by
  refine Keeps.of h0 ?_
  unfold execScrubAccess
  repeat' (first | split | intro _ | refine foldl_fixed ?_ ?_ | refine issue_keeps ?_ (by simp) | refine packet_keeps ?_ (by simp) | refine secWrite_keeps ?_ (by simp) | refine secWriteAt_keeps ?_ (by simp) | refine slCmd_keeps ?_ (by simp) | refine fwCmd_keeps ?_ (by simp) | refine ksCmd_keeps ?_ (by simp) | refine fcWrite_keeps ?_ (by simp) | refine lcCmd_keeps ?_ (by simp) | refine dgCmd_keeps ?_ (by simp) | refine spdmReq_keeps ?_ (by simp) | refine message_keeps ?_ (by simp) | refine boundMessage_keeps ?_ (by simp) | refine hostSlice_keeps ?_ (by simp) | refine takeVerified_keeps ?_ (by simp) | refine beadPacket_keeps ?_ (by simp) | refine vector_keeps (by simp) | refine issueRows_keeps ?_ (by simp) | refine issueLink_keeps ?_ (by simp) | simp only [keeps_settle, keeps_guardRes, keeps_unitRes, keeps_hereRes, keeps_accessRes, keeps_next, keeps_fault, keeps_refused])
  all_goals simp_all [eq_pair]

@[simp] theorem modRet_fixed (s : State) (m : Nat) (i : Nat) (f : RetEnt → RetEnt) : (modRet s m i f).fixed = s.fixed := by
  unfold modRet; simp

@[simp] theorem copyLine_fixed (s : State) (m : Nat) (sub : Nat) (src : Nat) (dst : Nat) (errs : List Nat) : (copyLine s m sub src dst errs).fixed = s.fixed := by
  unfold copyLine
  repeat' (first | split | intro _ | refine foldl_fixed ?_ ?_ | simp only [keeps_settle, keeps_guardRes, keeps_unitRes, keeps_hereRes, keeps_accessRes, keeps_next, keeps_fault, keeps_refused])
  all_goals simp_all [eq_pair]

@[simp] theorem retireOnto_fixed (s : State) (m : Nat) (sub : Nat) (g : Nat) (sym : Nat) (i : Nat) (errs : List Nat) : (retireOnto s m sub g sym i errs).fixed = s.fixed := by
  simp only [retireOnto, apply_ite State.fixed]
  repeat' (first | (simp [eq_pair]; done) | intro _ | split)
  all_goals simp_all [eq_pair]

@[simp] theorem execGroupRetirement_keeps (port : Nat) (med : Med) (s : State) (s0 : State) (h0 : s.fixed = s0.fixed) : Keeps s0 (execGroupRetirement port med s) := by
  refine Keeps.of h0 ?_
  unfold execGroupRetirement
  repeat' (first | split | intro _ | refine foldl_fixed ?_ ?_ | refine issue_keeps ?_ (by simp) | refine packet_keeps ?_ (by simp) | refine secWrite_keeps ?_ (by simp) | refine secWriteAt_keeps ?_ (by simp) | refine slCmd_keeps ?_ (by simp) | refine fwCmd_keeps ?_ (by simp) | refine ksCmd_keeps ?_ (by simp) | refine fcWrite_keeps ?_ (by simp) | refine lcCmd_keeps ?_ (by simp) | refine dgCmd_keeps ?_ (by simp) | refine spdmReq_keeps ?_ (by simp) | refine message_keeps ?_ (by simp) | refine boundMessage_keeps ?_ (by simp) | refine hostSlice_keeps ?_ (by simp) | refine takeVerified_keeps ?_ (by simp) | refine beadPacket_keeps ?_ (by simp) | refine vector_keeps (by simp) | refine issueRows_keeps ?_ (by simp) | refine issueLink_keeps ?_ (by simp) | simp only [keeps_settle, keeps_guardRes, keeps_unitRes, keeps_hereRes, keeps_accessRes, keeps_next, keeps_fault, keeps_refused])
  all_goals simp_all [eq_pair]

@[simp] theorem execRowRepairRequest_keeps (port : Nat) (s : State) (s0 : State) (h0 : s.fixed = s0.fixed) : Keeps s0 (execRowRepairRequest port s) := by
  refine Keeps.of h0 ?_
  unfold execRowRepairRequest
  repeat' (first | split | intro _ | refine foldl_fixed ?_ ?_ | refine issue_keeps ?_ (by simp) | refine packet_keeps ?_ (by simp) | refine secWrite_keeps ?_ (by simp) | refine secWriteAt_keeps ?_ (by simp) | refine slCmd_keeps ?_ (by simp) | refine fwCmd_keeps ?_ (by simp) | refine ksCmd_keeps ?_ (by simp) | refine fcWrite_keeps ?_ (by simp) | refine lcCmd_keeps ?_ (by simp) | refine dgCmd_keeps ?_ (by simp) | refine spdmReq_keeps ?_ (by simp) | refine message_keeps ?_ (by simp) | refine boundMessage_keeps ?_ (by simp) | refine hostSlice_keeps ?_ (by simp) | refine takeVerified_keeps ?_ (by simp) | refine beadPacket_keeps ?_ (by simp) | refine vector_keeps (by simp) | refine issueRows_keeps ?_ (by simp) | refine issueLink_keeps ?_ (by simp) | simp only [keeps_settle, keeps_guardRes, keeps_unitRes, keeps_hereRes, keeps_accessRes, keeps_next, keeps_fault, keeps_refused])
  all_goals simp_all [eq_pair]

@[simp] theorem execRowRepairAnswer_keeps (port : Nat) (id : Nat) (refused : Bool) (s : State) (s0 : State) (h0 : s.fixed = s0.fixed) : Keeps s0 (execRowRepairAnswer port id refused s) := by
  refine Keeps.of h0 ?_
  unfold execRowRepairAnswer
  repeat' (first | split | intro _ | refine foldl_fixed ?_ ?_ | refine issue_keeps ?_ (by simp) | refine packet_keeps ?_ (by simp) | refine secWrite_keeps ?_ (by simp) | refine secWriteAt_keeps ?_ (by simp) | refine slCmd_keeps ?_ (by simp) | refine fwCmd_keeps ?_ (by simp) | refine ksCmd_keeps ?_ (by simp) | refine fcWrite_keeps ?_ (by simp) | refine lcCmd_keeps ?_ (by simp) | refine dgCmd_keeps ?_ (by simp) | refine spdmReq_keeps ?_ (by simp) | refine message_keeps ?_ (by simp) | refine boundMessage_keeps ?_ (by simp) | refine hostSlice_keeps ?_ (by simp) | refine takeVerified_keeps ?_ (by simp) | refine beadPacket_keeps ?_ (by simp) | refine vector_keeps (by simp) | refine issueRows_keeps ?_ (by simp) | refine issueLink_keeps ?_ (by simp) | simp only [keeps_settle, keeps_guardRes, keeps_unitRes, keeps_hereRes, keeps_accessRes, keeps_next, keeps_fault, keeps_refused])
  all_goals simp_all [eq_pair]

@[simp] theorem sweepAdvance_fixed (s : State) (n : Nat) (m : Nat) (dst : Nat) : (sweepAdvance s n m dst).fixed = s.fixed := by
  unfold sweepAdvance
  repeat' (first | split | intro _ | refine foldl_fixed ?_ ?_ | simp only [keeps_settle, keeps_guardRes, keeps_unitRes, keeps_hereRes, keeps_accessRes, keeps_next, keeps_fault, keeps_refused])
  all_goals simp_all [eq_pair]

@[simp] theorem startSweep_fixed (s : State) (n : Nat) (a : Nat) (b : Nat) : (startSweep s n a b).fixed = s.fixed := by
  unfold startSweep; simp

@[simp] theorem execSweepStart_keeps (keyid : Nat) (s : State) (s0 : State) (h0 : s.fixed = s0.fixed) : Keeps s0 (execSweepStart keyid s) := by
  refine Keeps.of h0 ?_
  unfold execSweepStart
  repeat' (first | split | intro _ | refine foldl_fixed ?_ ?_ | refine issue_keeps ?_ (by simp) | refine packet_keeps ?_ (by simp) | refine secWrite_keeps ?_ (by simp) | refine secWriteAt_keeps ?_ (by simp) | refine slCmd_keeps ?_ (by simp) | refine fwCmd_keeps ?_ (by simp) | refine ksCmd_keeps ?_ (by simp) | refine fcWrite_keeps ?_ (by simp) | refine lcCmd_keeps ?_ (by simp) | refine dgCmd_keeps ?_ (by simp) | refine spdmReq_keeps ?_ (by simp) | refine message_keeps ?_ (by simp) | refine boundMessage_keeps ?_ (by simp) | refine hostSlice_keeps ?_ (by simp) | refine takeVerified_keeps ?_ (by simp) | refine beadPacket_keeps ?_ (by simp) | refine vector_keeps (by simp) | refine issueRows_keeps ?_ (by simp) | refine issueLink_keeps ?_ (by simp) | simp only [keeps_settle, keeps_guardRes, keeps_unitRes, keeps_hereRes, keeps_accessRes, keeps_next, keeps_fault, keeps_refused])
  all_goals simp_all [eq_pair]

@[simp] theorem endSweep_fixed (s : State) (n : Nat) (a : Nat) (b : Nat) : (endSweep s n a b).fixed = s.fixed := by
  unfold endSweep; simp

@[simp] theorem sweepPortDone_fixed (s : State) (n : Nat) (m : Nat) (w : Sweep) : (sweepPortDone s n m w).fixed = s.fixed := by
  unfold sweepPortDone; simp

@[simp] theorem execSweepVisit_keeps (port : Nat) (med : Med) (s : State) (s0 : State) (h0 : s.fixed = s0.fixed) : Keeps s0 (execSweepVisit port med s) := by
  refine Keeps.of h0 ?_
  unfold execSweepVisit
  repeat' (first | split | intro _ | refine foldl_fixed ?_ ?_ | refine issue_keeps ?_ (by simp) | refine packet_keeps ?_ (by simp) | refine secWrite_keeps ?_ (by simp) | refine secWriteAt_keeps ?_ (by simp) | refine slCmd_keeps ?_ (by simp) | refine fwCmd_keeps ?_ (by simp) | refine ksCmd_keeps ?_ (by simp) | refine fcWrite_keeps ?_ (by simp) | refine lcCmd_keeps ?_ (by simp) | refine dgCmd_keeps ?_ (by simp) | refine spdmReq_keeps ?_ (by simp) | refine message_keeps ?_ (by simp) | refine boundMessage_keeps ?_ (by simp) | refine hostSlice_keeps ?_ (by simp) | refine takeVerified_keeps ?_ (by simp) | refine beadPacket_keeps ?_ (by simp) | refine vector_keeps (by simp) | refine issueRows_keeps ?_ (by simp) | refine issueLink_keeps ?_ (by simp) | simp only [keeps_settle, keeps_guardRes, keeps_unitRes, keeps_hereRes, keeps_accessRes, keeps_next, keeps_fault, keeps_refused])
  all_goals simp_all [eq_pair]

@[simp] theorem repairPath_fixed (s : State) (m : Nat) (sub : Nat) (node : Nat) (keyid : Nat) : (repairPath s m sub node keyid).fixed = s.fixed := by
  unfold repairPath
  repeat' (first | split | intro _ | refine foldl_fixed ?_ ?_ | simp only [keeps_settle, keeps_guardRes, keeps_unitRes, keeps_hereRes, keeps_accessRes, keeps_next, keeps_fault, keeps_refused])
  all_goals simp_all [eq_pair]

@[simp] theorem repairTags_fixed (s : State) (m : Nat) (sub : Nat) (g : Nat) (keyid : Nat) : (repairTags s m sub g keyid).fixed = s.fixed := by
  unfold repairTags
  repeat' (first | split | intro _ | refine foldl_fixed ?_ ?_ | simp only [keeps_settle, keeps_guardRes, keeps_unitRes, keeps_hereRes, keeps_accessRes, keeps_next, keeps_fault, keeps_refused])
  all_goals simp_all [eq_pair]

@[simp] theorem zeroGroup_fixed (s : State) (m : Nat) (sub : Nat) (g : Nat) (keyid : Nat) : (zeroGroup s m sub g keyid).fixed = s.fixed := by
  unfold zeroGroup
  repeat' (first | split | intro _ | refine foldl_fixed ?_ ?_ | simp only [keeps_settle, keeps_guardRes, keeps_unitRes, keeps_hereRes, keeps_accessRes, keeps_next, keeps_fault, keeps_refused])
  all_goals simp_all [eq_pair]

@[simp] theorem flushOnce_fixed (s : State) (m : Nat) (kids : List Nat) : (flushOnce s m kids).fixed = s.fixed := by
  unfold flushOnce
  refine foldl_fixed (fun t c => ?_) rfl
  split
  · exact (writeBackLine_fixed _ (fun a b c d => wbGet_fixed _ _ a b c d) _ _ _ _).trans (cacheDrop_fixed _ _ _ _)
  · rfl

@[simp] theorem flushKeys_fixed (s : State) (m : Nat) (kids : List Nat) : (flushKeys s m kids).fixed = s.fixed := by
  unfold flushKeys
  exact foldl_fixed (fun t _ => flushOnce_fixed t m kids) rfl

@[simp] theorem execKeyidRetirement_keeps (keyid : Nat) (port : Nat) (s : State) (s0 : State) (h0 : s.fixed = s0.fixed) : Keeps s0 (execKeyidRetirement keyid port s) := by
  refine Keeps.of h0 ?_
  unfold execKeyidRetirement
  repeat' (first | (intro _) | (refine foldl_fixed ?_ ?_) | refine issue_keeps ?_ (by simp) | refine packet_keeps ?_ (by simp) | refine secWrite_keeps ?_ (by simp) | refine secWriteAt_keeps ?_ (by simp) | refine slCmd_keeps ?_ (by simp) | refine fwCmd_keeps ?_ (by simp) | refine ksCmd_keeps ?_ (by simp) | refine fcWrite_keeps ?_ (by simp) | refine lcCmd_keeps ?_ (by simp) | refine dgCmd_keeps ?_ (by simp) | refine spdmReq_keeps ?_ (by simp) | refine message_keeps ?_ (by simp) | refine boundMessage_keeps ?_ (by simp) | refine hostSlice_keeps ?_ (by simp) | refine takeVerified_keeps ?_ (by simp) | refine beadPacket_keeps ?_ (by simp) | refine vector_keeps (by simp) | refine issueRows_keeps ?_ (by simp) | refine issueLink_keeps ?_ (by simp) | (simp [eq_pair]; done) | split | simp only [keeps_settle, keeps_guardRes, keeps_unitRes, keeps_hereRes, keeps_accessRes, keeps_next, keeps_fault, keeps_refused])
  all_goals simp_all [eq_pair]

@[simp] theorem execKeyidRetirementDone_keeps (keyid : Nat) (s : State) (s0 : State) (h0 : s.fixed = s0.fixed) : Keeps s0 (execKeyidRetirementDone keyid s) := by
  refine Keeps.of h0 ?_
  unfold execKeyidRetirementDone
  repeat' (first | split | intro _ | refine foldl_fixed ?_ ?_ | refine issue_keeps ?_ (by simp) | refine packet_keeps ?_ (by simp) | refine secWrite_keeps ?_ (by simp) | refine secWriteAt_keeps ?_ (by simp) | refine slCmd_keeps ?_ (by simp) | refine fwCmd_keeps ?_ (by simp) | refine ksCmd_keeps ?_ (by simp) | refine fcWrite_keeps ?_ (by simp) | refine lcCmd_keeps ?_ (by simp) | refine dgCmd_keeps ?_ (by simp) | refine spdmReq_keeps ?_ (by simp) | refine message_keeps ?_ (by simp) | refine boundMessage_keeps ?_ (by simp) | refine hostSlice_keeps ?_ (by simp) | refine takeVerified_keeps ?_ (by simp) | refine beadPacket_keeps ?_ (by simp) | refine vector_keeps (by simp) | refine issueRows_keeps ?_ (by simp) | refine issueLink_keeps ?_ (by simp) | simp only [keeps_settle, keeps_guardRes, keeps_unitRes, keeps_hereRes, keeps_accessRes, keeps_next, keeps_fault, keeps_refused])
  all_goals simp_all [eq_pair]

end Sys2Proof.Machine
end

