-- ==== Sys2Proof/Laws/KeepBeads.lean ====
section
/-! SUPPORT. Each operation of Machine/Beads.lean keeps the fixed part of the state: the build parameters and the queue. -/
set_option linter.unusedSimpArgs false
set_option linter.unusedTactic false
set_option linter.unreachableTactic false
namespace Sys2Proof.Machine

@[simp] theorem countStep_fixed (s : State) (slice : Nat) (c : Nat) : (countStep s slice c).fixed = s.fixed := by
  unfold countStep; simp

@[simp] theorem closeStep_fixed (s : State) (k : Pkt) (rod : Option (Nat × Rod)) (a : Nat) : (closeStep s k rod a).1.fixed = s.fixed := by
  unfold closeStep
  repeat' split
  all_goals simp_all [eq_pair]

@[simp] theorem execStepClose_keeps (r : RingId) (ws : List Word) (s : State) (s0 : State) (h0 : s.fixed = s0.fixed) : Keeps s0 (execStepClose r ws s) := by
  refine Keeps.of h0 ?_
  unfold execStepClose
  refine packet_keeps (fun t k => ?_) rfl
  cases r with
  | port p => exact rfl
  | queue q =>
    dsimp only
    split; · exact rfl
    split; · exact rfl
    split; · exact rfl
    have hc := closeStep_fixed t k (rodOf t q) (k.w 1).toNat
    generalize closeStep t k (rodOf t q) (k.w 1).toNat = p at hc ⊢
    obtain ⟨u, werr⟩ := p
    dsimp only at hc ⊢
    split
    · simpa using hc
    · simp [hc]

@[simp] theorem beginStep_fixed (s : State) (q : Nat) (c : Nat) : (beginStep s q c).fixed = s.fixed := by
  unfold beginStep; simp

@[simp] theorem failGang_fixed (s : State) (qs : List Nat) (code : Nat) : (failGang s qs code).fixed = s.fixed := by
  unfold failGang; simp

@[simp] theorem execStepOpen_keeps (r : RingId) (ws : List Word) (s : State) (s0 : State) (h0 : s.fixed = s0.fixed) : Keeps s0 (execStepOpen r ws s) := by
  refine Keeps.of h0 ?_
  unfold execStepOpen
  repeat' (first | split | intro _ | refine foldl_fixed ?_ ?_ | refine issue_keeps ?_ (by simp) | refine packet_keeps ?_ (by simp) | refine secWrite_keeps ?_ (by simp) | refine secWriteAt_keeps ?_ (by simp) | refine slCmd_keeps ?_ (by simp) | refine fwCmd_keeps ?_ (by simp) | refine ksCmd_keeps ?_ (by simp) | refine fcWrite_keeps ?_ (by simp) | refine lcCmd_keeps ?_ (by simp) | refine dgCmd_keeps ?_ (by simp) | refine spdmReq_keeps ?_ (by simp) | refine message_keeps ?_ (by simp) | refine boundMessage_keeps ?_ (by simp) | refine hostSlice_keeps ?_ (by simp) | refine takeVerified_keeps ?_ (by simp) | refine beadPacket_keeps ?_ (by simp) | refine vector_keeps (by simp) | refine issueRows_keeps ?_ (by simp) | refine issueLink_keeps ?_ (by simp) | simp only [keeps_settle, keeps_guardRes, keeps_unitRes, keeps_hereRes, keeps_accessRes, keeps_next, keeps_fault, keeps_refused])
  all_goals simp_all [eq_pair]

@[simp] theorem startGang_fixed (s : State) (l engs : List Nat) : (startGang s l engs).fixed = s.fixed := by
  unfold startGang
  split
  rename_i t code h
  have h1 := foldl_pair_fixed h (fun p q => by split <;> simp)
  split
  · exact (failGang_fixed _ _ _).trans h1
  · exact foldl_fixed (fun t q => by simp) h1

@[simp] theorem execGangStart_keeps (q : Nat) (engs : List Nat) (s : State) (s0 : State) (h0 : s.fixed = s0.fixed) : Keeps s0 (execGangStart q engs s) := by
  refine Keeps.of h0 ?_
  unfold execGangStart
  split
  · simp
  · exact (keeps_guardRes _ _ _ _).mpr ⟨fun _ => rfl, fun _ _ => startGang_fixed _ _ _⟩

@[simp] theorem execGangTimeout_keeps (q : Nat) (s : State) (s0 : State) (h0 : s.fixed = s0.fixed) : Keeps s0 (execGangTimeout q s) := by
  refine Keeps.of h0 ?_
  unfold execGangTimeout
  repeat' (first | split | intro _ | refine foldl_fixed ?_ ?_ | refine issue_keeps ?_ (by simp) | refine packet_keeps ?_ (by simp) | refine secWrite_keeps ?_ (by simp) | refine secWriteAt_keeps ?_ (by simp) | refine slCmd_keeps ?_ (by simp) | refine fwCmd_keeps ?_ (by simp) | refine ksCmd_keeps ?_ (by simp) | refine fcWrite_keeps ?_ (by simp) | refine lcCmd_keeps ?_ (by simp) | refine dgCmd_keeps ?_ (by simp) | refine spdmReq_keeps ?_ (by simp) | refine message_keeps ?_ (by simp) | refine boundMessage_keeps ?_ (by simp) | refine hostSlice_keeps ?_ (by simp) | refine takeVerified_keeps ?_ (by simp) | refine beadPacket_keeps ?_ (by simp) | refine vector_keeps (by simp) | refine issueRows_keeps ?_ (by simp) | refine issueLink_keeps ?_ (by simp) | simp only [keeps_settle, keeps_guardRes, keeps_unitRes, keeps_hereRes, keeps_accessRes, keeps_next, keeps_fault, keeps_refused])
  all_goals simp_all [eq_pair]

@[simp] theorem execRodConfig_keeps (r : RingId) (ws : List Word) (s : State) (s0 : State) (h0 : s.fixed = s0.fixed) : Keeps s0 (execRodConfig r ws s) := by
  refine Keeps.of h0 ?_
  unfold execRodConfig
  repeat' (first | split | intro _ | refine foldl_fixed ?_ ?_ | refine issue_keeps ?_ (by simp) | refine packet_keeps ?_ (by simp) | refine secWrite_keeps ?_ (by simp) | refine secWriteAt_keeps ?_ (by simp) | refine slCmd_keeps ?_ (by simp) | refine fwCmd_keeps ?_ (by simp) | refine ksCmd_keeps ?_ (by simp) | refine fcWrite_keeps ?_ (by simp) | refine lcCmd_keeps ?_ (by simp) | refine dgCmd_keeps ?_ (by simp) | refine spdmReq_keeps ?_ (by simp) | refine message_keeps ?_ (by simp) | refine boundMessage_keeps ?_ (by simp) | refine hostSlice_keeps ?_ (by simp) | refine takeVerified_keeps ?_ (by simp) | refine beadPacket_keeps ?_ (by simp) | refine vector_keeps (by simp) | refine issueRows_keeps ?_ (by simp) | refine issueLink_keeps ?_ (by simp) | simp only [keeps_settle, keeps_guardRes, keeps_unitRes, keeps_hereRes, keeps_accessRes, keeps_next, keeps_fault, keeps_refused])
  all_goals simp_all [eq_pair]

@[simp] theorem execBeadAlloc_keeps (r : RingId) (ws : List Word) (s : State) (s0 : State) (h0 : s.fixed = s0.fixed) : Keeps s0 (execBeadAlloc r ws s) := by
  refine Keeps.of h0 ?_
  unfold execBeadAlloc
  repeat' (first | split | intro _ | refine foldl_fixed ?_ ?_ | refine issue_keeps ?_ (by simp) | refine packet_keeps ?_ (by simp) | refine secWrite_keeps ?_ (by simp) | refine secWriteAt_keeps ?_ (by simp) | refine slCmd_keeps ?_ (by simp) | refine fwCmd_keeps ?_ (by simp) | refine ksCmd_keeps ?_ (by simp) | refine fcWrite_keeps ?_ (by simp) | refine lcCmd_keeps ?_ (by simp) | refine dgCmd_keeps ?_ (by simp) | refine spdmReq_keeps ?_ (by simp) | refine message_keeps ?_ (by simp) | refine boundMessage_keeps ?_ (by simp) | refine hostSlice_keeps ?_ (by simp) | refine takeVerified_keeps ?_ (by simp) | refine beadPacket_keeps ?_ (by simp) | refine vector_keeps (by simp) | refine issueRows_keeps ?_ (by simp) | refine issueLink_keeps ?_ (by simp) | simp only [keeps_settle, keeps_guardRes, keeps_unitRes, keeps_hereRes, keeps_accessRes, keeps_next, keeps_fault, keeps_refused])
  all_goals simp_all [eq_pair]

@[simp] theorem beadPacket_keeps {ty : Nat} {ok : Nat → Bool} {f : State → Nat → Pkt → State} {r : RingId} {ws : List Word} {s : State}
    (hf : ∀ t b k, (f t b k).fixed = t.fixed) {s0 : State} (h0 : s.fixed = s0.fixed) : Keeps s0 (beadPacket ty ok f r ws s) := by
  refine Keeps.of h0 ?_
  unfold beadPacket
  refine packet_keeps (fun t k => ?_) rfl
  dsimp only
  repeat' split
  all_goals simp [hf]

@[simp] theorem execBeadUpdate_keeps (r : RingId) (ws : List Word) (s : State) (s0 : State) (h0 : s.fixed = s0.fixed) : Keeps s0 (execBeadUpdate r ws s) := by
  refine Keeps.of h0 ?_
  unfold execBeadUpdate
  repeat' (first | split | intro _ | refine foldl_fixed ?_ ?_ | refine issue_keeps ?_ (by simp) | refine packet_keeps ?_ (by simp) | refine secWrite_keeps ?_ (by simp) | refine secWriteAt_keeps ?_ (by simp) | refine slCmd_keeps ?_ (by simp) | refine fwCmd_keeps ?_ (by simp) | refine ksCmd_keeps ?_ (by simp) | refine fcWrite_keeps ?_ (by simp) | refine lcCmd_keeps ?_ (by simp) | refine dgCmd_keeps ?_ (by simp) | refine spdmReq_keeps ?_ (by simp) | refine message_keeps ?_ (by simp) | refine boundMessage_keeps ?_ (by simp) | refine hostSlice_keeps ?_ (by simp) | refine takeVerified_keeps ?_ (by simp) | refine beadPacket_keeps ?_ (by simp) | refine vector_keeps (by simp) | refine issueRows_keeps ?_ (by simp) | refine issueLink_keeps ?_ (by simp) | simp only [keeps_settle, keeps_guardRes, keeps_unitRes, keeps_hereRes, keeps_accessRes, keeps_next, keeps_fault, keeps_refused])
  all_goals simp_all [eq_pair]

@[simp] theorem execBeadLeave_keeps (r : RingId) (ws : List Word) (s : State) (s0 : State) (h0 : s.fixed = s0.fixed) : Keeps s0 (execBeadLeave r ws s) := by
  refine Keeps.of h0 ?_
  unfold execBeadLeave; simp

@[simp] theorem execBeadFree_keeps (r : RingId) (ws : List Word) (s : State) (s0 : State) (h0 : s.fixed = s0.fixed) : Keeps s0 (execBeadFree r ws s) := by
  refine Keeps.of h0 ?_
  unfold execBeadFree; simp

@[simp] theorem offPath_keeps (s : State) (z1 : Path) (s0 : State) (h0 : s.fixed = s0.fixed) : Keeps s0 (offPath s z1) := by
  refine Keeps.of h0 ?_
  unfold offPath
  repeat' (first | split | intro _ | refine foldl_fixed ?_ ?_ | refine issue_keeps ?_ (by simp) | refine packet_keeps ?_ (by simp) | refine secWrite_keeps ?_ (by simp) | refine secWriteAt_keeps ?_ (by simp) | refine slCmd_keeps ?_ (by simp) | refine fwCmd_keeps ?_ (by simp) | refine ksCmd_keeps ?_ (by simp) | refine fcWrite_keeps ?_ (by simp) | refine lcCmd_keeps ?_ (by simp) | refine dgCmd_keeps ?_ (by simp) | refine spdmReq_keeps ?_ (by simp) | refine message_keeps ?_ (by simp) | refine boundMessage_keeps ?_ (by simp) | refine hostSlice_keeps ?_ (by simp) | refine takeVerified_keeps ?_ (by simp) | refine beadPacket_keeps ?_ (by simp) | refine vector_keeps (by simp) | refine issueRows_keeps ?_ (by simp) | refine issueLink_keeps ?_ (by simp) | simp only [keeps_settle, keeps_guardRes, keeps_unitRes, keeps_hereRes, keeps_accessRes, keeps_next, keeps_fault, keeps_refused])
  all_goals simp_all [eq_pair]

@[simp] theorem secWrite_keeps {path : Path} {f : State → State} {s : State} (hf : ∀ t, (f t).fixed = t.fixed) {s0 : State} (h0 : s.fixed = s0.fixed) : Keeps s0 (secWrite path f s) := by
  refine Keeps.of h0 ?_
  unfold secWrite
  try dsimp only
  split <;> simp [hf]

@[simp] theorem secWriteAt_keeps {named present : Bool} {path : Path} {f : State → State} {s : State} (hf : ∀ t, (f t).fixed = t.fixed) {s0 : State} (h0 : s.fixed = s0.fixed) : Keeps s0 (secWriteAt named present path f s) := by
  refine Keeps.of h0 ?_
  unfold secWriteAt
  split
  · refine secWrite_keeps (fun t => ?_) rfl
    split
    · exact hf t
    · rfl
  · simp

@[simp] theorem execSlcfgWrite_keeps (path : Path) (n : Nat) (v : Word) (s : State) (s0 : State) (h0 : s.fixed = s0.fixed) : Keeps s0 (execSlcfgWrite path n v s) := by
  refine Keeps.of h0 ?_
  unfold execSlcfgWrite
  refine secWriteAt_keeps (fun t => ?_) rfl
  split <;> simp

end Sys2Proof.Machine
end

