-- ==== Sys2Proof/Laws/KeepFirmware.lean ====
section
/-! SUPPORT. Each operation of Machine/Firmware.lean keeps the fixed part of the state: the build parameters and the queue. -/
set_option linter.unusedSimpArgs false
set_option linter.unusedTactic false
set_option linter.unreachableTactic false
namespace Sys2Proof.Machine

@[simp] theorem endSession_fixed (s : State) (id : Nat) : (endSession s id).fixed = s.fixed := by
  unfold endSession; simp

@[simp] theorem clearBlob_fixed (s : State) (b : Nat) : (clearBlob s b).fixed = s.fixed := by
  unfold clearBlob; simp

@[simp] theorem closeSession_fixed (s : State) (id : Nat) : (closeSession s id).fixed = s.fixed := by
  unfold closeSession
  repeat' (first | split | intro _ | refine foldl_fixed ?_ ?_ | simp only [keeps_settle, keeps_guardRes, keeps_unitRes, keeps_hereRes, keeps_accessRes, keeps_next, keeps_fault, keeps_refused])
  all_goals simp_all [eq_pair]

@[simp] theorem endSessions_fixed (s : State) : (endSessions s).fixed = s.fixed := by
  unfold endSessions
  exact foldl_fixed (s0 := s) (fun t x => by split <;> simp) rfl

@[simp] theorem modHk_fixed (s : State) (p : Nat) (f : HostKeys → HostKeys) : (modHk s p f).fixed = s.fixed := by
  unfold modHk; simp

@[simp] theorem mbxEnd_fixed (s : State) (p : Nat) (status : Nat) : (mbxEnd s p status).fixed = s.fixed := by
  unfold mbxEnd; simp

@[simp] theorem mbxAbort_fixed (s : State) : (mbxAbort s).fixed = s.fixed := by
  unfold mbxAbort; simp

@[simp] theorem modProc_fixed (s : State) (k : Nat) (f : FwProc → FwProc) : (modProc s k f).fixed = s.fixed := by
  unfold modProc; simp

@[simp] theorem startProcs_fixed (s : State) : (startProcs s).fixed = s.fixed := by
  unfold startProcs; simp

@[simp] theorem fwEvent_fixed (s : State) : (fwEvent s).fixed = s.fixed := by
  unfold fwEvent
  repeat' (first | split | intro _ | refine foldl_fixed ?_ ?_ | simp only [keeps_settle, keeps_guardRes, keeps_unitRes, keeps_hereRes, keeps_accessRes, keeps_next, keeps_fault, keeps_refused])
  all_goals simp_all [eq_pair]

@[simp] theorem countGap_fixed (s : State) (k : Nat) : (countGap s k).fixed = s.fixed := by
  unfold countGap; simp

@[simp] theorem negotiationEvent_fixed (s : State) : (negotiationEvent s).fixed = s.fixed := by
  unfold negotiationEvent; simp

@[simp] theorem resumeRings_fixed (s : State) : (resumeRings s).fixed = s.fixed := by
  unfold resumeRings; simp

@[simp] theorem fwCmd_keeps {path : Path} {ok : State → Bool} {f : State → State} {s : State} (hf : ∀ t, (f t).fixed = t.fixed) {s0 : State} (h0 : s.fixed = s0.fixed) : Keeps s0 (fwCmd path ok f s) := by
  refine Keeps.of h0 ?_
  unfold fwCmd
  try dsimp only
  repeat' split
  all_goals simp [hf]

@[simp] theorem readImage_fixed (s : State) (op : Nat) (port : Nat) : (readImage s op port).fixed = s.fixed := by
  unfold readImage; simp

@[simp] theorem execLoad_keeps (path : Path) (port : Nat) (s : State) (s0 : State) (h0 : s.fixed = s0.fixed) : Keeps s0 (execLoad path port s) := by
  refine Keeps.of h0 ?_
  unfold execLoad; simp

@[simp] theorem execStage_keeps (path : Path) (port : Nat) (s : State) (s0 : State) (h0 : s.fixed = s0.fixed) : Keeps s0 (execStage path port s) := by
  refine Keeps.of h0 ?_
  unfold execStage; simp

@[simp] theorem activate_fixed (s : State) : (activate s).fixed = s.fixed := by
  unfold activate; simp

@[simp] theorem execActivate_keeps (path : Path) (s : State) (s0 : State) (h0 : s.fixed = s0.fixed) : Keeps s0 (execActivate path s) := by
  refine Keeps.of h0 ?_
  unfold execActivate; simp

@[simp] theorem execDeferredActivationStart_keeps (s : State) (s0 : State) (h0 : s.fixed = s0.fixed) : Keeps s0 (execDeferredActivationStart s) := by
  refine Keeps.of h0 ?_
  unfold execDeferredActivationStart; simp

@[simp] theorem execDiscard_keeps (path : Path) (s : State) (s0 : State) (h0 : s.fixed = s0.fixed) : Keeps s0 (execDiscard path s) := by
  refine Keeps.of h0 ?_
  unfold execDiscard
  refine fwCmd_keeps ?_ rfl
  intro t
  rfl

@[simp] theorem fwFail_fixed (s : State) (op : Nat) (result : Nat) : (fwFail s op result).fixed = s.fixed := by
  unfold fwFail; simp

@[simp] theorem dropFwTags_fixed (s : State) : (dropFwTags s).fixed = s.fixed := by
  unfold dropFwTags; simp

@[simp] theorem execImageReadDone_keeps (img : List Byte) (s : State) (s0 : State) (h0 : s.fixed = s0.fixed) : Keeps s0 (execImageReadDone img s) := by
  refine Keeps.of h0 ?_
  unfold execImageReadDone
  repeat' (first | (intro _) | (refine foldl_fixed ?_ ?_) | refine issue_keeps ?_ (by simp) | refine packet_keeps ?_ (by simp) | refine secWrite_keeps ?_ (by simp) | refine secWriteAt_keeps ?_ (by simp) | refine slCmd_keeps ?_ (by simp) | refine fwCmd_keeps ?_ (by simp) | refine ksCmd_keeps ?_ (by simp) | refine fcWrite_keeps ?_ (by simp) | refine lcCmd_keeps ?_ (by simp) | refine dgCmd_keeps ?_ (by simp) | refine spdmReq_keeps ?_ (by simp) | refine message_keeps ?_ (by simp) | refine boundMessage_keeps ?_ (by simp) | refine hostSlice_keeps ?_ (by simp) | refine takeVerified_keeps ?_ (by simp) | refine beadPacket_keeps ?_ (by simp) | refine vector_keeps (by simp) | refine issueRows_keeps ?_ (by simp) | refine issueLink_keeps ?_ (by simp) | (simp [eq_pair]; done) | split | simp only [keeps_settle, keeps_guardRes, keeps_unitRes, keeps_hereRes, keeps_accessRes, keeps_next, keeps_fault, keeps_refused])
  all_goals simp_all [eq_pair]

@[simp] theorem crash_fixed (s : State) (k : Nat) : (crash s k).fixed = s.fixed := by
  unfold crash; simp

@[simp] theorem execFwWatchdogExpiry_keeps (k : Nat) (s : State) (s0 : State) (h0 : s.fixed = s0.fixed) : Keeps s0 (execFwWatchdogExpiry k s) := by
  refine Keeps.of h0 ?_
  unfold execFwWatchdogExpiry; simp

@[simp] theorem execFwProcessorCrash_keeps (k : Nat) (s : State) (s0 : State) (h0 : s.fixed = s0.fixed) : Keeps s0 (execFwProcessorCrash k s) := by
  refine Keeps.of h0 ?_
  unfold execFwProcessorCrash; simp

@[simp] theorem execFwRestartDone_keeps (k : Nat) (ok : Bool) (s : State) (s0 : State) (h0 : s.fixed = s0.fixed) : Keeps s0 (execFwRestartDone k ok s) := by
  refine Keeps.of h0 ?_
  unfold execFwRestartDone; simp

end Sys2Proof.Machine
end

