-- ==== Sys2Proof/Laws/KeepBandwidth.lean ====
section
/-! SUPPORT. Each operation of Machine/Bandwidth.lean keeps the fixed part of the state: the build parameters and the queue. -/
set_option linter.unusedSimpArgs false
set_option linter.unusedTactic false
set_option linter.unreachableTactic false
namespace Sys2Proof.Machine

@[simp] theorem bits16_fixed (n : Nat) (s : State) : (bits16 n s).1.fixed = s.fixed := by
  unfold bits16
  repeat' (first | split | intro _ | refine foldl_fixed ?_ ?_ | simp only [keeps_settle, keeps_guardRes, keeps_unitRes, keeps_hereRes, keeps_accessRes, keeps_next, keeps_fault, keeps_refused])
  all_goals simp_all [eq_pair]

@[simp] theorem putAdmit_fixed (s : State) (a : Nat × Nat × Nat × Nat) : (putAdmit s a).fixed = s.fixed := by
  have hb : ∀ (t : State) (b : Bw), ({ t with bw := b } : State).fixed = t.fixed := fun _ _ => rfl
  have h := bits16_fixed a.2.2.1 s
  unfold putAdmit
  generalize bits16 a.2.2.1 s = p at h ⊢
  generalize packWord = w
  obtain ⟨t, v⟩ := p
  exact (hb _ _).trans h

@[simp] theorem updateBudgets_fixed (s : State) : (updateBudgets s).fixed = s.fixed := by
  unfold updateBudgets; simp

@[simp] theorem execRegulationWindow_keeps (h : Nat) (s : State) (s0 : State) (h0 : s.fixed = s0.fixed) : Keeps s0 (execRegulationWindow h s) := by
  refine Keeps.of h0 ?_
  unfold execRegulationWindow; simp

@[simp] theorem refreshSlices_fixed (old s : State) : (refreshSlices old s).fixed = s.fixed := by
  unfold refreshSlices
  try dsimp only
  rw [updateBudgets_fixed]
  refine foldl_fixed (fun t n => ?_) rfl
  repeat' split
  all_goals simp

end Sys2Proof.Machine
end

