-- ==== Sys2Proof/Laws/KeepSlicemgr.lean ====
section
/-! SUPPORT. Each operation of Machine/Slicemgr.lean keeps the fixed part of the state: the build parameters and the queue. -/
set_option linter.unusedSimpArgs false
set_option linter.unusedTactic false
set_option linter.unreachableTactic false
namespace Sys2Proof.Machine

@[simp] theorem slmEnd_fixed (s : State) (result : Nat) : (slmEnd s result).fixed = s.fixed := by
  unfold slmEnd; simp

@[simp] theorem slCmd_keeps {path : Path} {op n : Nat} {f : State → State} {s : State} (hf : ∀ t, (f t).fixed = t.fixed) {s0 : State} (h0 : s.fixed = s0.fixed) : Keeps s0 (slCmd path op n f s) := by
  refine Keeps.of h0 ?_
  unfold slCmd
  try dsimp only
  repeat' split
  all_goals simp [hf]

@[simp] theorem slmRefuse_fixed (s : State) (r : Nat × Option (Nat × Nat × Nat × Nat)) : (slmRefuse s r).fixed = s.fixed := by
  unfold slmRefuse
  repeat' (first | split | intro _ | refine foldl_fixed ?_ ?_ | simp only [keeps_settle, keeps_guardRes, keeps_unitRes, keeps_hereRes, keeps_accessRes, keeps_next, keeps_fault, keeps_refused])
  all_goals simp_all [eq_pair]

@[simp] theorem buildSlice_fixed (s : State) (n : Nat) (d : List Word) : (buildSlice s n d).fixed = s.fixed := by
  unfold buildSlice
  simp

@[simp] theorem buildWith_fixed (n : Nat) (d : List Word) (s : State) : (buildWith n d s).fixed = s.fixed := by
  simp only [buildWith, apply_ite State.fixed]
  repeat' (first | (simp [eq_pair]; done) | intro _ | split)
  all_goals simp_all [eq_pair]

@[simp] theorem execBuild_keeps (path : Path) (n : Nat) (s : State) (s0 : State) (h0 : s.fixed = s0.fixed) : Keeps s0 (execBuild path n s) := by
  refine Keeps.of h0 ?_
  exact slCmd_keeps (fun t => buildWith_fixed _ _ _) rfl

@[simp] theorem markRemoving_fixed (s : State) (engs : List Nat) (on : Bool) : (markRemoving s engs on).fixed = s.fixed := by
  unfold markRemoving; simp

@[simp] theorem changeStart_fixed (n : Nat) (d : List Word) (s : State) : (changeStart n d s).fixed = s.fixed := by
  unfold changeStart; simp

@[simp] theorem changeEnd_fixed (s : State) (n : Nat) : (changeEnd s n).fixed = s.fixed := by
  unfold changeEnd
  simp

@[simp] theorem changeWith_fixed (n : Nat) (d : List Word) (s : State) : (changeWith n d s).fixed = s.fixed := by
  unfold changeWith
  repeat' (first | (intro _) | (refine foldl_fixed ?_ ?_) | (simp [eq_pair]; done) | split | simp only [keeps_settle, keeps_guardRes, keeps_unitRes, keeps_hereRes, keeps_accessRes, keeps_next, keeps_fault, keeps_refused])
  all_goals simp_all [eq_pair]

@[simp] theorem slmDrive_fixed (s : State) : (slmDrive s).fixed = s.fixed := by
  unfold slmDrive
  repeat' (first | (intro _) | (refine foldl_fixed ?_ ?_) | (simp [eq_pair]; done) | split | simp only [keeps_settle, keeps_guardRes, keeps_unitRes, keeps_hereRes, keeps_accessRes, keeps_next, keeps_fault, keeps_refused])
  all_goals simp_all [eq_pair]

@[simp] theorem execChange_keeps (path : Path) (n : Nat) (s : State) (s0 : State) (h0 : s.fixed = s0.fixed) : Keeps s0 (execChange path n s) := by
  refine Keeps.of h0 ?_
  exact slCmd_keeps (fun t => changeWith_fixed _ _ _) rfl

@[simp] theorem execChangeEngineRelease_keeps (e : Nat) (s : State) (s0 : State) (h0 : s.fixed = s0.fixed) : Keeps s0 (execChangeEngineRelease e s) := by
  refine Keeps.of h0 ?_
  unfold execChangeEngineRelease
  repeat' (first | (intro _) | (refine foldl_fixed ?_ ?_) | refine issue_keeps ?_ (by simp) | refine packet_keeps ?_ (by simp) | refine secWrite_keeps ?_ (by simp) | refine secWriteAt_keeps ?_ (by simp) | refine slCmd_keeps ?_ (by simp) | refine fwCmd_keeps ?_ (by simp) | refine ksCmd_keeps ?_ (by simp) | refine fcWrite_keeps ?_ (by simp) | refine lcCmd_keeps ?_ (by simp) | refine dgCmd_keeps ?_ (by simp) | refine spdmReq_keeps ?_ (by simp) | refine message_keeps ?_ (by simp) | refine boundMessage_keeps ?_ (by simp) | refine hostSlice_keeps ?_ (by simp) | refine takeVerified_keeps ?_ (by simp) | refine beadPacket_keeps ?_ (by simp) | refine vector_keeps (by simp) | refine issueRows_keeps ?_ (by simp) | refine issueLink_keeps ?_ (by simp) | (simp [eq_pair]; done) | split | simp only [keeps_settle, keeps_guardRes, keeps_unitRes, keeps_hereRes, keeps_accessRes, keeps_next, keeps_fault, keeps_refused])
  all_goals simp_all [eq_pair]

@[simp] theorem tearSlice_fixed (s : State) (n : Nat) (code : Nat) : (tearSlice s n code).fixed = s.fixed := by
  unfold tearSlice
  repeat' (first | split | intro _ | refine foldl_fixed ?_ ?_ | simp only [keeps_settle, keeps_guardRes, keeps_unitRes, keeps_hereRes, keeps_accessRes, keeps_next, keeps_fault, keeps_refused])
  all_goals simp_all [eq_pair]

@[simp] theorem dropChange_fixed (s : State) (n : Nat) : (dropChange s n).fixed = s.fixed := by
  unfold dropChange; simp

@[simp] theorem cpStateEnd_fixed (s : State) (n : Nat) : (cpStateEnd s n).fixed = s.fixed := by
  unfold cpStateEnd
  repeat' (first | split | intro _ | refine foldl_fixed ?_ ?_ | simp only [keeps_settle, keeps_guardRes, keeps_unitRes, keeps_hereRes, keeps_accessRes, keeps_next, keeps_fault, keeps_refused])
  all_goals simp_all [eq_pair]

@[simp] theorem modSweeps_fixed (s : State) (n : Nat) (f : List Sweep → List Sweep) : (modSweeps s n f).fixed = s.fixed := by
  unfold modSweeps; simp

@[simp] theorem dissolveStart_fixed (s : State) (n : Nat) (code : Nat) : (dissolveStart s n code).fixed = s.fixed := by
  unfold dissolveStart; simp

@[simp] theorem execDissolve_keeps (path : Path) (n : Nat) (s : State) (s0 : State) (h0 : s.fixed = s0.fixed) : Keeps s0 (execDissolve path n s) := by
  refine Keeps.of h0 ?_
  unfold execDissolve; simp

@[simp] theorem dropKeys_fixed (s : State) (n : Nat) : (dropKeys s n).fixed = s.fixed := by
  unfold dropKeys; simp

@[simp] theorem stopSweeps_fixed (s : State) (n : Nat) : (stopSweeps s n).fixed = s.fixed := by
  unfold stopSweeps; simp

@[simp] theorem handOver_fixed (s : State) (n : Nat) : (handOver s n).fixed = s.fixed := by
  unfold handOver; simp

@[simp] theorem freeObjects_fixed (s : State) (n : Nat) : (freeObjects s n).fixed = s.fixed := by
  unfold freeObjects; simp

@[simp] theorem freeSlice_fixed (s : State) (n : Nat) : (freeSlice s n).fixed = s.fixed := by
  unfold freeSlice; simp

@[simp] theorem execDissolveDrainDone_keeps (n : Nat) (s : State) (s0 : State) (h0 : s.fixed = s0.fixed) : Keeps s0 (execDissolveDrainDone n s) := by
  refine Keeps.of h0 ?_
  unfold execDissolveDrainDone; simp

@[simp] theorem putStage_fixed (s : State) (ws : List Word) : (putStage s ws).fixed = s.fixed := by
  unfold putStage; simp

@[simp] theorem execReadDesc_keeps (path : Path) (n : Nat) (s : State) (s0 : State) (h0 : s.fixed = s0.fixed) : Keeps s0 (execReadDesc path n s) := by
  refine Keeps.of h0 ?_
  unfold execReadDesc; simp

@[simp] theorem execRegionWrite_keeps (path : Path) (i : Nat) (s : State) (s0 : State) (h0 : s.fixed = s0.fixed) : Keeps s0 (execRegionWrite path i s) := by
  refine Keeps.of h0 ?_
  unfold execRegionWrite; simp

@[simp] theorem execRegionRead_keeps (path : Path) (i : Nat) (s : State) (s0 : State) (h0 : s.fixed = s0.fixed) : Keeps s0 (execRegionRead path i s) := by
  refine Keeps.of h0 ?_
  unfold execRegionRead; simp

end Sys2Proof.Machine
end

