-- ==== Sys2Proof/Laws/KeepKeys.lean ====
section
/-! SUPPORT. Each operation of Machine/Keys.lean keeps the fixed part of the state: the build parameters and the queue. -/
set_option linter.unusedSimpArgs false
set_option linter.unusedTactic false
set_option linter.unreachableTactic false
namespace Sys2Proof.Machine

@[simp] theorem drbg_fixed (s : State) (w : Nat) : (drbg s w).1.fixed = s.fixed := by
  unfold drbg; simp

@[simp] theorem execDrbgReseed_keeps (s : State) (s0 : State) (h0 : s.fixed = s0.fixed) : Keeps s0 (execDrbgReseed s) := by
  refine Keeps.of h0 ?_
  unfold execDrbgReseed; simp

@[simp] theorem execEntropyHealthFail_keeps (s : State) (s0 : State) (h0 : s.fixed = s0.fixed) : Keeps s0 (execEntropyHealthFail s) := by
  refine Keeps.of h0 ?_
  unfold execEntropyHealthFail; simp

@[simp] theorem wrapBlob_fixed (s : State) (b : Nat) (attr : Word) (key : Key) : (wrapBlob s b attr key).fixed = s.fixed := by
  unfold wrapBlob; simp

@[simp] theorem recheckOver_fixed (s : State) (n : Nat) : (recheckOver s n).fixed = s.fixed := by
  unfold recheckOver
  repeat' (first | split | intro _ | refine foldl_fixed ?_ ?_ | simp only [keeps_settle, keeps_guardRes, keeps_unitRes, keeps_hereRes, keeps_accessRes, keeps_next, keeps_fault, keeps_refused])
  all_goals simp_all [eq_pair]

@[simp] theorem installKey_fixed (s : State) (kind : Nat) (slice : Nat) (owner : Nat) (id : Nat) (tenant : Bool) (key : Key) : (installKey s kind slice owner id tenant key).fixed = s.fixed := by
  simp only [installKey, apply_ite State.fixed]
  repeat' (first | (simp [eq_pair]; done) | intro _ | split)
  all_goals simp_all [eq_pair]

@[simp] theorem eraseLink_fixed (s : State) (kind : Nat) (slice : Nat) (id : Nat) : (eraseLink s kind slice id).fixed = s.fixed := by
  unfold eraseLink; simp

@[simp] theorem eraseMemory_fixed (s : State) (slice : Nat) (id : Nat) : (eraseMemory s slice id).fixed = s.fixed := by
  unfold eraseMemory; simp

@[simp] theorem eraseKey_fixed (s : State) (kind : Nat) (slice : Nat) (id : Nat) : (eraseKey s kind slice id).1.fixed = s.fixed := by
  unfold eraseKey
  repeat' (first | split | intro _ | refine foldl_fixed ?_ ?_ | simp only [keeps_settle, keeps_guardRes, keeps_unitRes, keeps_hereRes, keeps_accessRes, keeps_next, keeps_fault, keeps_refused])
  all_goals simp_all [eq_pair]

@[simp] theorem ksCmd_keeps {path : Path} {op : Nat} {f : State → List Word → State × Nat} {s : State}
    (hf : ∀ t w, (f t w).1.fixed = t.fixed) {s0 : State} (h0 : s.fixed = s0.fixed) : Keeps s0 (ksCmd path op f s) := by
  refine Keeps.of h0 ?_
  unfold ksCmd
  try dsimp only
  repeat' split
  all_goals simp_all [eq_pair]

@[simp] theorem ksDrive_fixed (s : State) : (ksDrive s).fixed = s.fixed := by
  unfold ksDrive
  repeat' (first | split | intro _ | refine foldl_fixed ?_ ?_ | simp only [keeps_settle, keeps_guardRes, keeps_unitRes, keeps_hereRes, keeps_accessRes, keeps_next, keeps_fault, keeps_refused])
  all_goals simp_all [eq_pair]

@[simp] theorem execImportKey_keeps (path : Path) (s : State) (s0 : State) (h0 : s.fixed = s0.fixed) : Keeps s0 (execImportKey path s) := by
  refine Keeps.of h0 ?_
  unfold execImportKey
  repeat' (first | split | intro _ | refine foldl_fixed ?_ ?_ | refine issue_keeps ?_ (by simp) | refine packet_keeps ?_ (by simp) | refine secWrite_keeps ?_ (by simp) | refine secWriteAt_keeps ?_ (by simp) | refine slCmd_keeps ?_ (by simp) | refine fwCmd_keeps ?_ (by simp) | refine ksCmd_keeps ?_ (by simp) | refine fcWrite_keeps ?_ (by simp) | refine lcCmd_keeps ?_ (by simp) | refine dgCmd_keeps ?_ (by simp) | refine spdmReq_keeps ?_ (by simp) | refine message_keeps ?_ (by simp) | refine boundMessage_keeps ?_ (by simp) | refine hostSlice_keeps ?_ (by simp) | refine takeVerified_keeps ?_ (by simp) | refine beadPacket_keeps ?_ (by simp) | refine vector_keeps (by simp) | refine issueRows_keeps ?_ (by simp) | refine issueLink_keeps ?_ (by simp) | simp only [keeps_settle, keeps_guardRes, keeps_unitRes, keeps_hereRes, keeps_accessRes, keeps_next, keeps_fault, keeps_refused])
  all_goals (try simp_all [eq_pair])
  all_goals (repeat' split)
  all_goals simp_all [eq_pair]

@[simp] theorem execGenerate_keeps (path : Path) (s : State) (s0 : State) (h0 : s.fixed = s0.fixed) : Keeps s0 (execGenerate path s) := by
  refine Keeps.of h0 ?_
  unfold execGenerate
  repeat' (first | split | intro _ | refine foldl_fixed ?_ ?_ | refine issue_keeps ?_ (by simp) | refine packet_keeps ?_ (by simp) | refine secWrite_keeps ?_ (by simp) | refine secWriteAt_keeps ?_ (by simp) | refine slCmd_keeps ?_ (by simp) | refine fwCmd_keeps ?_ (by simp) | refine ksCmd_keeps ?_ (by simp) | refine fcWrite_keeps ?_ (by simp) | refine lcCmd_keeps ?_ (by simp) | refine dgCmd_keeps ?_ (by simp) | refine spdmReq_keeps ?_ (by simp) | refine message_keeps ?_ (by simp) | refine boundMessage_keeps ?_ (by simp) | refine hostSlice_keeps ?_ (by simp) | refine takeVerified_keeps ?_ (by simp) | refine beadPacket_keeps ?_ (by simp) | refine vector_keeps (by simp) | refine issueRows_keeps ?_ (by simp) | refine issueLink_keeps ?_ (by simp) | simp only [keeps_settle, keeps_guardRes, keeps_unitRes, keeps_hereRes, keeps_accessRes, keeps_next, keeps_fault, keeps_refused])
  all_goals (try simp_all [eq_pair])
  all_goals (repeat' split)
  all_goals simp_all [eq_pair]

@[simp] theorem execErase_keeps (path : Path) (s : State) (s0 : State) (h0 : s.fixed = s0.fixed) : Keeps s0 (execErase path s) := by
  refine Keeps.of h0 ?_
  unfold execErase
  repeat' (first | split | intro _ | refine foldl_fixed ?_ ?_ | refine issue_keeps ?_ (by simp) | refine packet_keeps ?_ (by simp) | refine secWrite_keeps ?_ (by simp) | refine secWriteAt_keeps ?_ (by simp) | refine slCmd_keeps ?_ (by simp) | refine fwCmd_keeps ?_ (by simp) | refine ksCmd_keeps ?_ (by simp) | refine fcWrite_keeps ?_ (by simp) | refine lcCmd_keeps ?_ (by simp) | refine dgCmd_keeps ?_ (by simp) | refine spdmReq_keeps ?_ (by simp) | refine message_keeps ?_ (by simp) | refine boundMessage_keeps ?_ (by simp) | refine hostSlice_keeps ?_ (by simp) | refine takeVerified_keeps ?_ (by simp) | refine beadPacket_keeps ?_ (by simp) | refine vector_keeps (by simp) | refine issueRows_keeps ?_ (by simp) | refine issueLink_keeps ?_ (by simp) | simp only [keeps_settle, keeps_guardRes, keeps_unitRes, keeps_hereRes, keeps_accessRes, keeps_next, keeps_fault, keeps_refused])
  all_goals simp_all [eq_pair]

@[simp] theorem execOwnerBind_keeps (path : Path) (s : State) (s0 : State) (h0 : s.fixed = s0.fixed) : Keeps s0 (execOwnerBind path s) := by
  refine Keeps.of h0 ?_
  unfold execOwnerBind
  repeat' (first | split | intro _ | refine foldl_fixed ?_ ?_ | refine issue_keeps ?_ (by simp) | refine packet_keeps ?_ (by simp) | refine secWrite_keeps ?_ (by simp) | refine secWriteAt_keeps ?_ (by simp) | refine slCmd_keeps ?_ (by simp) | refine fwCmd_keeps ?_ (by simp) | refine ksCmd_keeps ?_ (by simp) | refine fcWrite_keeps ?_ (by simp) | refine lcCmd_keeps ?_ (by simp) | refine dgCmd_keeps ?_ (by simp) | refine spdmReq_keeps ?_ (by simp) | refine message_keeps ?_ (by simp) | refine boundMessage_keeps ?_ (by simp) | refine hostSlice_keeps ?_ (by simp) | refine takeVerified_keeps ?_ (by simp) | refine beadPacket_keeps ?_ (by simp) | refine vector_keeps (by simp) | refine issueRows_keeps ?_ (by simp) | refine issueLink_keeps ?_ (by simp) | simp only [keeps_settle, keeps_guardRes, keeps_unitRes, keeps_hereRes, keeps_accessRes, keeps_next, keeps_fault, keeps_refused])
  all_goals simp_all [eq_pair]

@[simp] theorem execCertLoad_keeps (path : Path) (s : State) (s0 : State) (h0 : s.fixed = s0.fixed) : Keeps s0 (execCertLoad path s) := by
  refine Keeps.of h0 ?_
  unfold execCertLoad
  repeat' (first | split | intro _ | refine foldl_fixed ?_ ?_ | refine issue_keeps ?_ (by simp) | refine packet_keeps ?_ (by simp) | refine secWrite_keeps ?_ (by simp) | refine secWriteAt_keeps ?_ (by simp) | refine slCmd_keeps ?_ (by simp) | refine fwCmd_keeps ?_ (by simp) | refine ksCmd_keeps ?_ (by simp) | refine fcWrite_keeps ?_ (by simp) | refine lcCmd_keeps ?_ (by simp) | refine dgCmd_keeps ?_ (by simp) | refine spdmReq_keeps ?_ (by simp) | refine message_keeps ?_ (by simp) | refine boundMessage_keeps ?_ (by simp) | refine hostSlice_keeps ?_ (by simp) | refine takeVerified_keeps ?_ (by simp) | refine beadPacket_keeps ?_ (by simp) | refine vector_keeps (by simp) | refine issueRows_keeps ?_ (by simp) | refine issueLink_keeps ?_ (by simp) | simp only [keeps_settle, keeps_guardRes, keeps_unitRes, keeps_hereRes, keeps_accessRes, keeps_next, keeps_fault, keeps_refused])
  all_goals simp_all [eq_pair]

@[simp] theorem stageKey_fixed (s : State) (pub : List Byte) : (stageKey s pub).fixed = s.fixed := by
  unfold stageKey; simp

@[simp] theorem execDevidRead_keeps (path : Path) (s : State) (s0 : State) (h0 : s.fixed = s0.fixed) : Keeps s0 (execDevidRead path s) := by
  refine Keeps.of h0 ?_
  unfold execDevidRead; simp

@[simp] theorem execPikRead_keeps (path : Path) (s : State) (s0 : State) (h0 : s.fixed = s0.fixed) : Keeps s0 (execPikRead path s) := by
  refine Keeps.of h0 ?_
  unfold execPikRead; simp

@[simp] theorem loseKey_fixed (s : State) (b : Nat) : (loseKey s b).fixed = s.fixed := by
  unfold loseKey; simp

@[simp] theorem execSlotScan_keeps (blob : Nat) (slotOk : Bool) (blobOk : Bool) (s : State) (s0 : State) (h0 : s.fixed = s0.fixed) : Keeps s0 (execSlotScan blob slotOk blobOk s) := by
  refine Keeps.of h0 ?_
  unfold execSlotScan; simp

end Sys2Proof.Machine
end

