-- ==== Sys2Proof/Laws/KeepSpdm.lean ====
section
/-! SUPPORT. Each operation of Machine/Spdm.lean keeps the fixed part of the state: the build parameters and the queue. -/
set_option linter.unusedSimpArgs false
set_option linter.unusedTactic false
set_option linter.unreachableTactic false
namespace Sys2Proof.Machine

@[simp] theorem respond_fixed (s : State) (p : Nat) (rsp : List Byte) : (respond s p rsp).fixed = s.fixed := by
  unfold respond; simp

@[simp] theorem spdmAnswer_fixed (s : State) (p : Nat) (code : Nat) (content : List (List Byte)) : (spdmAnswer s p code content).fixed = s.fixed := by
  unfold spdmAnswer; simp

@[simp] theorem answerErr_fixed (s : State) (p : Nat) (code : Nat) : (answerErr s p code).fixed = s.fixed := by
  unfold answerErr; simp

@[simp] theorem spdmReq_keeps {p code : Nat} {f : State → State} {s : State} (hf : ∀ t, (f t).fixed = t.fixed) {s0 : State} (h0 : s.fixed = s0.fixed) : Keeps s0 (spdmReq p code f s) := by
  refine Keeps.of h0 ?_
  unfold spdmReq
  simp [hf]

@[simp] theorem execGetVersion_keeps (p : Nat) (s : State) (s0 : State) (h0 : s.fixed = s0.fixed) : Keeps s0 (execGetVersion p s) := by
  refine Keeps.of h0 ?_
  unfold execGetVersion; simp

@[simp] theorem execGetCapabilities_keeps (p : Nat) (s : State) (s0 : State) (h0 : s.fixed = s0.fixed) : Keeps s0 (execGetCapabilities p s) := by
  refine Keeps.of h0 ?_
  unfold execGetCapabilities; simp

@[simp] theorem execNegotiateAlgorithms_keeps (p : Nat) (s : State) (s0 : State) (h0 : s.fixed = s0.fixed) : Keeps s0 (execNegotiateAlgorithms p s) := by
  refine Keeps.of h0 ?_
  unfold execNegotiateAlgorithms; simp

@[simp] theorem negotiated_fixed (p : Nat) (f : State → State) (s : State) (hf : ∀ t, (f t).fixed = t.fixed) :
    (negotiated p f s).fixed = s.fixed := by
  unfold negotiated
  repeat' split
  all_goals simp [hf]

@[simp] theorem execGetDigests_keeps (p : Nat) (s : State) (s0 : State) (h0 : s.fixed = s0.fixed) : Keeps s0 (execGetDigests p s) := by
  refine Keeps.of h0 ?_
  unfold execGetDigests; simp

@[simp] theorem execGetCertificate_keeps (p : Nat) (s : State) (s0 : State) (h0 : s.fixed = s0.fixed) : Keeps s0 (execGetCertificate p s) := by
  refine Keeps.of h0 ?_
  unfold execGetCertificate
  refine spdmReq_keeps (fun t => negotiated_fixed _ _ _ fun u => ?_) rfl
  repeat' split
  all_goals simp_all [eq_pair]

@[simp] theorem execSpdmChallenge_keeps (p : Nat) (s : State) (s0 : State) (h0 : s.fixed = s0.fixed) : Keeps s0 (execSpdmChallenge p s) := by
  refine Keeps.of h0 ?_
  unfold execSpdmChallenge
  refine spdmReq_keeps (fun t => negotiated_fixed _ _ _ fun u => ?_) rfl
  repeat' split
  all_goals simp_all [eq_pair]

@[simp] theorem modSession_fixed (s : State) (k : Nat) (f : Session → Session) : (modSession s k f).fixed = s.fixed := by
  unfold modSession; simp

@[simp] theorem respondSecured_fixed (s : State) (p : Nat) (k : Nat) (code : Nat) (content : List (List Byte)) : (respondSecured s p k code content).fixed = s.fixed := by
  unfold respondSecured; simp

@[simp] theorem execKeyExchange_keeps (p : Nat) (s : State) (s0 : State) (h0 : s.fixed = s0.fixed) : Keeps s0 (execKeyExchange p s) := by
  refine Keeps.of h0 ?_
  unfold execKeyExchange
  refine spdmReq_keeps (fun t => negotiated_fixed _ _ _ fun u => ?_) rfl
  repeat' split
  all_goals simp_all [eq_pair]

@[simp] theorem execFinish_keeps (p : Nat) (sess : Nat) (body : List Byte) (s : State) (s0 : State) (h0 : s.fixed = s0.fixed) : Keeps s0 (execFinish p sess body s) := by
  refine Keeps.of h0 ?_
  unfold execFinish; simp

@[simp] theorem execGetMeasurements_keeps (p : Nat) (sess : Option Nat) (body : List Byte) (s : State) (s0 : State) (h0 : s.fixed = s0.fixed) : Keeps s0 (execGetMeasurements p sess body s) := by
  refine Keeps.of h0 ?_
  unfold execGetMeasurements
  repeat' (first | split | intro _ | refine foldl_fixed ?_ ?_ | refine issue_keeps ?_ (by simp) | refine packet_keeps ?_ (by simp) | refine secWrite_keeps ?_ (by simp) | refine secWriteAt_keeps ?_ (by simp) | refine slCmd_keeps ?_ (by simp) | refine fwCmd_keeps ?_ (by simp) | refine ksCmd_keeps ?_ (by simp) | refine fcWrite_keeps ?_ (by simp) | refine lcCmd_keeps ?_ (by simp) | refine dgCmd_keeps ?_ (by simp) | refine spdmReq_keeps ?_ (by simp) | refine message_keeps ?_ (by simp) | refine boundMessage_keeps ?_ (by simp) | refine hostSlice_keeps ?_ (by simp) | refine takeVerified_keeps ?_ (by simp) | refine beadPacket_keeps ?_ (by simp) | refine vector_keeps (by simp) | refine issueRows_keeps ?_ (by simp) | refine issueLink_keeps ?_ (by simp) | simp only [keeps_settle, keeps_guardRes, keeps_unitRes, keeps_hereRes, keeps_accessRes, keeps_next, keeps_fault, keeps_refused])
  all_goals simp_all [eq_pair]

@[simp] theorem deliver_fixed (s : State) (p : Nat) (k : Nat) (code : Nat) (status : Nat) (body : List Byte) : (deliver s p k code status body).fixed = s.fixed := by
  unfold deliver; simp

@[simp] theorem freeStatus_fixed (s : State) : (freeStatus s).1.fixed = s.fixed := by
  unfold freeStatus; simp

@[simp] theorem message_keeps {p sess code : Nat} {f : State → State × Nat × List Byte} {s : State}
    (hf : ∀ t, (f t).1.fixed = t.fixed) {s0 : State} (h0 : s.fixed = s0.fixed) : Keeps s0 (message p sess code f s) := by
  refine Keeps.of h0 ?_
  unfold message
  simp [hf]

@[simp] theorem boundMessage_keeps {p sess code : Nat} {f : State → Nat → Nat → State × Nat × List Byte} {s : State}
    (hf : ∀ t a b, (f t a b).1.fixed = t.fixed) {s0 : State} (h0 : s.fixed = s0.fixed) : Keeps s0 (boundMessage p sess code f s) := by
  refine Keeps.of h0 ?_
  unfold boundMessage
  refine message_keeps (fun t => ?_) rfl
  repeat' split
  all_goals simp [hf]

@[simp] theorem execBind_keeps (p sess : Nat) (body : List Byte) (s : State) (s0 : State) (h0 : s.fixed = s0.fixed) : Keeps s0 (execBind p sess body s) := by
  refine Keeps.of h0 ?_
  unfold execBind
  refine message_keeps (fun t => ?_) rfl
  dsimp only
  repeat' split
  all_goals simp_all [eq_pair]

@[simp] theorem execKeyPut_keeps (p : Nat) (sess : Nat) (body : List Byte) (s : State) (s0 : State) (h0 : s.fixed = s0.fixed) : Keeps s0 (execKeyPut p sess body s) := by
  refine Keeps.of h0 ?_
  unfold execKeyPut
  repeat' (first | split | intro _ | refine foldl_fixed ?_ ?_ | refine issue_keeps ?_ (by simp) | refine packet_keeps ?_ (by simp) | refine secWrite_keeps ?_ (by simp) | refine secWriteAt_keeps ?_ (by simp) | refine slCmd_keeps ?_ (by simp) | refine fwCmd_keeps ?_ (by simp) | refine ksCmd_keeps ?_ (by simp) | refine fcWrite_keeps ?_ (by simp) | refine lcCmd_keeps ?_ (by simp) | refine dgCmd_keeps ?_ (by simp) | refine spdmReq_keeps ?_ (by simp) | refine message_keeps ?_ (by simp) | refine boundMessage_keeps ?_ (by simp) | refine hostSlice_keeps ?_ (by simp) | refine takeVerified_keeps ?_ (by simp) | refine beadPacket_keeps ?_ (by simp) | refine vector_keeps (by simp) | refine issueRows_keeps ?_ (by simp) | refine issueLink_keeps ?_ (by simp) | simp only [keeps_settle, keeps_guardRes, keeps_unitRes, keeps_hereRes, keeps_accessRes, keeps_next, keeps_fault, keeps_refused])
  all_goals simp_all [eq_pair]

@[simp] theorem execKeyErase_keeps (p : Nat) (sess : Nat) (body : List Byte) (s : State) (s0 : State) (h0 : s.fixed = s0.fixed) : Keeps s0 (execKeyErase p sess body s) := by
  refine Keeps.of h0 ?_
  unfold execKeyErase
  repeat' (first | split | intro _ | refine foldl_fixed ?_ ?_ | refine issue_keeps ?_ (by simp) | refine packet_keeps ?_ (by simp) | refine secWrite_keeps ?_ (by simp) | refine secWriteAt_keeps ?_ (by simp) | refine slCmd_keeps ?_ (by simp) | refine fwCmd_keeps ?_ (by simp) | refine ksCmd_keeps ?_ (by simp) | refine fcWrite_keeps ?_ (by simp) | refine lcCmd_keeps ?_ (by simp) | refine dgCmd_keeps ?_ (by simp) | refine spdmReq_keeps ?_ (by simp) | refine message_keeps ?_ (by simp) | refine boundMessage_keeps ?_ (by simp) | refine hostSlice_keeps ?_ (by simp) | refine takeVerified_keeps ?_ (by simp) | refine beadPacket_keeps ?_ (by simp) | refine vector_keeps (by simp) | refine issueRows_keeps ?_ (by simp) | refine issueLink_keeps ?_ (by simp) | simp only [keeps_settle, keeps_guardRes, keeps_unitRes, keeps_hereRes, keeps_accessRes, keeps_next, keeps_fault, keeps_refused])
  all_goals simp_all [eq_pair]

@[simp] theorem regionPlain_fixed (s : State) (n : Nat) (r : Region) : (regionPlain s n r).1.fixed = s.fixed := by
  unfold regionPlain
  repeat' (first | split | intro _ | refine foldl_fixed ?_ ?_ | simp only [keeps_settle, keeps_guardRes, keeps_unitRes, keeps_hereRes, keeps_accessRes, keeps_next, keeps_fault, keeps_refused])
  all_goals simp_all [eq_pair]

@[simp] theorem programPlain_fixed (s : State) (n : Nat) : (programPlain s n).1.fixed = s.fixed := by
  unfold programPlain
  refine foldl_fst_fixed fun p q => ?_
  split
  · rfl
  · split <;> simp_all [eq_pair]

@[simp] theorem execMeasure_keeps (p : Nat) (sess : Nat) (_body : List Byte) (s : State) (s0 : State) (h0 : s.fixed = s0.fixed) : Keeps s0 (execMeasure p sess _body s) := by
  refine Keeps.of h0 ?_
  unfold execMeasure
  repeat' (first | split | intro _ | refine foldl_fixed ?_ ?_ | refine issue_keeps ?_ (by simp) | refine packet_keeps ?_ (by simp) | refine secWrite_keeps ?_ (by simp) | refine secWriteAt_keeps ?_ (by simp) | refine slCmd_keeps ?_ (by simp) | refine fwCmd_keeps ?_ (by simp) | refine ksCmd_keeps ?_ (by simp) | refine fcWrite_keeps ?_ (by simp) | refine lcCmd_keeps ?_ (by simp) | refine dgCmd_keeps ?_ (by simp) | refine spdmReq_keeps ?_ (by simp) | refine message_keeps ?_ (by simp) | refine boundMessage_keeps ?_ (by simp) | refine hostSlice_keeps ?_ (by simp) | refine takeVerified_keeps ?_ (by simp) | refine beadPacket_keeps ?_ (by simp) | refine vector_keeps (by simp) | refine issueRows_keeps ?_ (by simp) | refine issueLink_keeps ?_ (by simp) | simp only [keeps_settle, keeps_guardRes, keeps_unitRes, keeps_hereRes, keeps_accessRes, keeps_next, keeps_fault, keeps_refused])
  all_goals simp_all [eq_pair]

@[simp] theorem execAccept_keeps (p : Nat) (sess : Nat) (body : List Byte) (s : State) (s0 : State) (h0 : s.fixed = s0.fixed) : Keeps s0 (execAccept p sess body s) := by
  refine Keeps.of h0 ?_
  unfold execAccept
  repeat' (first | split | intro _ | refine foldl_fixed ?_ ?_ | refine issue_keeps ?_ (by simp) | refine packet_keeps ?_ (by simp) | refine secWrite_keeps ?_ (by simp) | refine secWriteAt_keeps ?_ (by simp) | refine slCmd_keeps ?_ (by simp) | refine fwCmd_keeps ?_ (by simp) | refine ksCmd_keeps ?_ (by simp) | refine fcWrite_keeps ?_ (by simp) | refine lcCmd_keeps ?_ (by simp) | refine dgCmd_keeps ?_ (by simp) | refine spdmReq_keeps ?_ (by simp) | refine message_keeps ?_ (by simp) | refine boundMessage_keeps ?_ (by simp) | refine hostSlice_keeps ?_ (by simp) | refine takeVerified_keeps ?_ (by simp) | refine beadPacket_keeps ?_ (by simp) | refine vector_keeps (by simp) | refine issueRows_keeps ?_ (by simp) | refine issueLink_keeps ?_ (by simp) | simp only [keeps_settle, keeps_guardRes, keeps_unitRes, keeps_hereRes, keeps_accessRes, keeps_next, keeps_fault, keeps_refused])
  all_goals simp_all [eq_pair]

@[simp] theorem execReportDetail_keeps (p : Nat) (sess : Nat) (body : List Byte) (s : State) (s0 : State) (h0 : s.fixed = s0.fixed) : Keeps s0 (execReportDetail p sess body s) := by
  refine Keeps.of h0 ?_
  unfold execReportDetail
  repeat' (first | split | intro _ | refine foldl_fixed ?_ ?_ | refine issue_keeps ?_ (by simp) | refine packet_keeps ?_ (by simp) | refine secWrite_keeps ?_ (by simp) | refine secWriteAt_keeps ?_ (by simp) | refine slCmd_keeps ?_ (by simp) | refine fwCmd_keeps ?_ (by simp) | refine ksCmd_keeps ?_ (by simp) | refine fcWrite_keeps ?_ (by simp) | refine lcCmd_keeps ?_ (by simp) | refine dgCmd_keeps ?_ (by simp) | refine spdmReq_keeps ?_ (by simp) | refine message_keeps ?_ (by simp) | refine boundMessage_keeps ?_ (by simp) | refine hostSlice_keeps ?_ (by simp) | refine takeVerified_keeps ?_ (by simp) | refine beadPacket_keeps ?_ (by simp) | refine vector_keeps (by simp) | refine issueRows_keeps ?_ (by simp) | refine issueLink_keeps ?_ (by simp) | simp only [keeps_settle, keeps_guardRes, keeps_unitRes, keeps_hereRes, keeps_accessRes, keeps_next, keeps_fault, keeps_refused])
  all_goals simp_all [eq_pair]

@[simp] theorem execClose_keeps (p : Nat) (sess : Nat) (_body : List Byte) (s : State) (s0 : State) (h0 : s.fixed = s0.fixed) : Keeps s0 (execClose p sess _body s) := by
  refine Keeps.of h0 ?_
  unfold execClose; simp

end Sys2Proof.Machine
end

