-- ==== Sys2Proof/Laws/KeepFences.lean ====
section
/-! SUPPORT. Each operation of Machine/Fences.lean keeps the fixed part of the state: the build parameters and the queue. -/
set_option linter.unusedSimpArgs false
set_option linter.unusedTactic false
set_option linter.unreachableTactic false
namespace Sys2Proof.Machine

@[simp] theorem failEngine_fixed (s : State) (e : Nat) : (failEngine s e).fixed = s.fixed := by
  unfold failEngine
  repeat' (first | split | intro _ | refine foldl_fixed ?_ ?_ | simp only [keeps_settle, keeps_guardRes, keeps_unitRes, keeps_hereRes, keeps_accessRes, keeps_next, keeps_fault, keeps_refused])
  all_goals simp_all [eq_pair]

@[simp] theorem failCluster_fixed (s : State) (k : Nat) : (failCluster s k).fixed = s.fixed := by
  unfold failCluster; simp

@[simp] theorem dropFrames_fixed (s : State) (i : Nat) : (dropFrames s i).fixed = s.fixed := by
  unfold dropFrames; simp

@[simp] theorem poisonPresented_fixed (s : State) (i : Nat) : (poisonPresented s i).fixed = s.fixed := by
  unfold poisonPresented
  repeat' (first | split | intro _ | refine foldl_fixed ?_ ?_ | simp only [keeps_settle, keeps_guardRes, keeps_unitRes, keeps_hereRes, keeps_accessRes, keeps_next, keeps_fault, keeps_refused])
  all_goals simp_all [eq_pair]

@[simp] theorem enterSafe_fixed (s : State) (k : Nat) (i : Nat) : (enterSafe s k i).fixed = s.fixed := by
  unfold enterSafe
  repeat' (first | split | intro _ | refine foldl_fixed ?_ ?_ | simp only [keeps_settle, keeps_guardRes, keeps_unitRes, keeps_hereRes, keeps_accessRes, keeps_next, keeps_fault, keeps_refused])
  all_goals simp_all [eq_pair]

@[simp] theorem holdUnit_fixed (s : State) (b : Nat) (k : Nat) (i : Nat) : (holdUnit s b k i).fixed = s.fixed := by
  unfold holdUnit; simp

@[simp] theorem holdBlock_fixed (s : State) : (holdBlock s).fixed = s.fixed := by
  unfold holdBlock; simp

@[simp] theorem enterBlockSafe_fixed (s : State) : (enterBlockSafe s).fixed = s.fixed := by
  unfold enterBlockSafe; simp

@[simp] theorem fenceEngine_fixed (s : State) (e : Nat) : (fenceEngine s e).fixed = s.fixed := by
  unfold fenceEngine; simp

@[simp] theorem fenceCluster_fixed (s : State) (k : Nat) : (fenceCluster s k).fixed = s.fixed := by
  unfold fenceCluster; simp

@[simp] theorem failWaiting_fixed (s : State) (z1 : Waiting) : (failWaiting s z1).fixed = s.fixed := by
  unfold failWaiting
  repeat' (first | split | intro _ | refine foldl_fixed ?_ ?_ | simp only [keeps_settle, keeps_guardRes, keeps_unitRes, keeps_hereRes, keeps_accessRes, keeps_next, keeps_fault, keeps_refused])
  all_goals simp_all [eq_pair]

@[simp] theorem fenceSub_fixed (s : State) (i : Nat) : (fenceSub s i).fixed = s.fixed := by
  unfold fenceSub; simp

@[simp] theorem bounceFenced_fixed (s : State) (p : Nat) (b : Bounce) : (bounceFenced s p b).fixed = s.fixed := by
  unfold bounceFenced
  repeat' (first | split | intro _ | refine foldl_fixed ?_ ?_ | simp only [keeps_settle, keeps_guardRes, keeps_unitRes, keeps_hereRes, keeps_accessRes, keeps_next, keeps_fault, keeps_refused])
  all_goals simp_all [eq_pair]

@[simp] theorem fenceHost_fixed (s : State) (p : Nat) : (fenceHost s p).fixed = s.fixed := by
  simp only [fenceHost, apply_ite State.fixed]
  repeat' (first | (simp [eq_pair]; done) | intro _ | split)
  all_goals simp_all [eq_pair]

@[simp] theorem fenceUnit_fixed (s : State) (k : Nat) (i : Nat) : (fenceUnit s k i).fixed = s.fixed := by
  simp only [fenceUnit, apply_ite State.fixed]
  repeat' (first | (simp [eq_pair]; done) | intro _ | split)
  all_goals simp_all [eq_pair]

@[simp] theorem fenceBy_fixed (s : State) (b k i : Nat) : (fenceBy s b k i).fixed = s.fixed := by
  unfold fenceBy
  simp

@[simp] theorem setStatus_fixed (s : State) (bits : Nat) : (setStatus s bits).fixed = s.fixed := by
  unfold setStatus
  repeat' (first | split | intro _ | refine foldl_fixed ?_ ?_ | simp only [keeps_settle, keeps_guardRes, keeps_unitRes, keeps_hereRes, keeps_accessRes, keeps_next, keeps_fault, keeps_refused])
  all_goals simp_all [eq_pair]

@[simp] theorem latchEvent_fixed (s : State) (l : ErrLine) (r : Nat) : (latchEvent s l r).fixed = s.fixed := by
  unfold latchEvent; simp

@[simp] theorem cpErrEnd_fixed (s : State) : (cpErrEnd s).fixed = s.fixed := by
  unfold cpErrEnd
  repeat' (first | split | intro _ | refine foldl_fixed ?_ ?_ | simp only [keeps_settle, keeps_guardRes, keeps_unitRes, keeps_hereRes, keeps_accessRes, keeps_next, keeps_fault, keeps_refused])
  all_goals simp_all [eq_pair]

@[simp] theorem react_fixed (s : State) (l : ErrLine) (r : Nat) : (react s l r).fixed = s.fixed := by
  unfold react
  repeat' (first | (intro _) | (refine foldl_fixed ?_ ?_) | (simp [eq_pair]; done) | split | simp only [keeps_settle, keeps_guardRes, keeps_unitRes, keeps_hereRes, keeps_accessRes, keeps_next, keeps_fault, keeps_refused])
  all_goals simp_all [eq_pair]

@[simp] theorem classify_fixed (s : State) (l : ErrLine) : (classify s l).fixed = s.fixed := by
  unfold classify
  repeat' (first | split | intro _ | refine foldl_fixed ?_ ?_ | simp only [keeps_settle, keeps_guardRes, keeps_unitRes, keeps_hereRes, keeps_accessRes, keeps_next, keeps_fault, keeps_refused])
  all_goals simp_all [eq_pair]

@[simp] theorem outsideEffect_fixed (s : State) (b : Nat) (inst : Nat) (detail : Nat) : (outsideEffect s b inst detail).fixed = s.fixed := by
  unfold outsideEffect
  repeat' (first | split | intro _ | refine foldl_fixed ?_ ?_ | simp only [keeps_settle, keeps_guardRes, keeps_unitRes, keeps_hereRes, keeps_accessRes, keeps_next, keeps_fault, keeps_refused])
  all_goals simp_all [eq_pair]

@[simp] theorem execErrorEvent_keeps (ext : Option (Nat × Nat × Nat)) (s : State) (s0 : State) (h0 : s.fixed = s0.fixed) : Keeps s0 (execErrorEvent ext s) := by
  refine Keeps.of h0 ?_
  unfold execErrorEvent
  repeat' (first | split | intro _ | refine foldl_fixed ?_ ?_ | refine issue_keeps ?_ (by simp) | refine packet_keeps ?_ (by simp) | refine secWrite_keeps ?_ (by simp) | refine secWriteAt_keeps ?_ (by simp) | refine slCmd_keeps ?_ (by simp) | refine fwCmd_keeps ?_ (by simp) | refine ksCmd_keeps ?_ (by simp) | refine fcWrite_keeps ?_ (by simp) | refine lcCmd_keeps ?_ (by simp) | refine dgCmd_keeps ?_ (by simp) | refine spdmReq_keeps ?_ (by simp) | refine message_keeps ?_ (by simp) | refine boundMessage_keeps ?_ (by simp) | refine hostSlice_keeps ?_ (by simp) | refine takeVerified_keeps ?_ (by simp) | refine beadPacket_keeps ?_ (by simp) | refine vector_keeps (by simp) | refine issueRows_keeps ?_ (by simp) | refine issueLink_keeps ?_ (by simp) | simp only [keeps_settle, keeps_guardRes, keeps_unitRes, keeps_hereRes, keeps_accessRes, keeps_next, keeps_fault, keeps_refused])
  all_goals simp_all [eq_pair]

end Sys2Proof.Machine
end

