-- ==== Sys2Proof/Laws/KeepReset.lean ====
section
/-! SUPPORT. Each operation of Machine/Reset.lean keeps the fixed part of the state: the build parameters and the queue. -/
set_option linter.unusedSimpArgs false
set_option linter.unusedTactic false
set_option linter.unreachableTactic false
namespace Sys2Proof.Machine

@[simp] theorem selectRoot_fixed (s : State) : (selectRoot s).1.fixed = s.fixed := by
  unfold selectRoot
  repeat' (first | split | intro _ | refine foldl_fixed ?_ ?_ | simp only [keeps_settle, keeps_guardRes, keeps_unitRes, keeps_hereRes, keeps_accessRes, keeps_next, keeps_fault, keeps_refused])
  all_goals simp_all [eq_pair]

@[simp] theorem capture_fixed (s : State) (cause : Nat) (slices : List Nat) (last : Bool) : (capture s cause slices last).fixed = s.fixed := by
  unfold capture; simp

@[simp] theorem mpErrFence_fixed (s : State) (i : Nat) (detail : Nat) : (mpErrFence s i detail).fixed = s.fixed := by
  unfold mpErrFence; simp

@[simp] theorem fenceReserved_fixed (s : State) : (fenceReserved s).fixed = s.fixed := by
  unfold fenceReserved; simp

@[simp] theorem resetUnits2_fixed (s : State) (cold : Bool) : (resetUnits2 s cold).fixed = s.fixed := by
  unfold resetUnits2; simp

@[simp] theorem otpProgram_fixed (s : State) (r : LcRun) (bits : Word) : (otpProgram s r bits).fixed = s.fixed := by
  unfold otpProgram; simp

@[simp] theorem otpStop_fixed (s : State) : (otpStop s).fixed = s.fixed := by
  unfold otpStop
  repeat' (first | split | intro _ | refine foldl_fixed ?_ ?_ | simp only [keeps_settle, keeps_guardRes, keeps_unitRes, keeps_hereRes, keeps_accessRes, keeps_next, keeps_fault, keeps_refused])
  all_goals simp_all [eq_pair]

@[simp] theorem lcDrive_fixed (s : State) : (lcDrive s).fixed = s.fixed := by
  unfold lcDrive
  repeat' (first | split | intro _ | refine foldl_fixed ?_ ?_ | simp only [keeps_settle, keeps_guardRes, keeps_unitRes, keeps_hereRes, keeps_accessRes, keeps_next, keeps_fault, keeps_refused])
  all_goals simp_all [eq_pair]

@[simp] theorem resetLc_fixed (s : State) : (resetLc s).fixed = s.fixed := by
  unfold resetLc; simp

@[simp] theorem drawKeys_fixed (s : State) : (drawKeys s).fixed = s.fixed := by
  unfold drawKeys; simp

@[simp] theorem answerHeld_fixed (s : State) : (answerHeld s).fixed = s.fixed := by
  unfold answerHeld; simp

@[simp] theorem resetPhase2_fixed (s : State) (cold : Bool) : (resetPhase2 s cold).fixed = s.fixed := by
  unfold resetPhase2; simp

@[simp] theorem resetPhase3_fixed (s : State) : (resetPhase3 s).fixed = s.fixed := by
  unfold resetPhase3; simp

@[simp] theorem resetUnits_fixed (s : State) (cold : Bool) : (resetUnits s cold).fixed = s.fixed := by
  unfold resetUnits; simp

@[simp] theorem directSetup_fixed (s : State) : (directSetup s).fixed = s.fixed := by
  unfold directSetup; simp

@[simp] theorem leaveReset_fixed (s : State) : (leaveReset s).fixed = s.fixed := by
  unfold leaveReset; simp

end Sys2Proof.Machine
end

