-- ==== Sys2Proof/Laws/KeepFaults.lean ====
section
/-! SUPPORT. Each operation of Machine/Faults.lean keeps the fixed part of the state: the build parameters and the queue. -/
set_option linter.unusedSimpArgs false
set_option linter.unusedTactic false
set_option linter.unreachableTactic false
namespace Sys2Proof.Machine

@[simp] theorem modFcCopy_fixed (s : State) (k : Nat) (f : FcCopy → FcCopy) : (modFcCopy s k f).fixed = s.fixed := by
  unfold modFcCopy; simp

@[simp] theorem fcEnd_fixed (s : State) (copy : Option Nat) (result : Nat) : (fcEnd s copy result).fixed = s.fixed := by
  unfold fcEnd
  repeat' (first | split | intro _ | refine foldl_fixed ?_ ?_ | simp only [keeps_settle, keeps_guardRes, keeps_unitRes, keeps_hereRes, keeps_accessRes, keeps_next, keeps_fault, keeps_refused])
  all_goals simp_all [eq_pair]

@[simp] theorem dropLadder_fixed (s : State) (step : Nat) (target : Nat) : (dropLadder s step target).fixed = s.fixed := by
  unfold dropLadder; simp

@[simp] theorem endSteps_fixed (s : State) (which : Ladder → Bool) (result : Nat) : (endSteps s which result).fixed = s.fixed := by
  unfold endSteps; simp

@[simp] theorem pushLadder_fixed (s : State) (l : Ladder) : (pushLadder s l).fixed = s.fixed := by
  unfold pushLadder; simp

@[simp] theorem joinLadder_fixed (s : State) (step : Nat) (target : Nat) (copy : Option Nat) : (joinLadder s step target copy).fixed = s.fixed := by
  unfold joinLadder; simp

@[simp] theorem engClear_fixed (s : State) (e : Nat) : (engClear s e).fixed = s.fixed := by
  unfold engClear
  repeat' (first | split | intro _ | refine foldl_fixed ?_ ?_ | simp only [keeps_settle, keeps_guardRes, keeps_unitRes, keeps_hereRes, keeps_accessRes, keeps_next, keeps_fault, keeps_refused])
  all_goals simp_all [eq_pair]

@[simp] theorem engineReset_fixed (s : State) (e : Nat) : (engineReset s e).fixed = s.fixed := by
  unfold engineReset
  repeat' (first | split | intro _ | refine foldl_fixed ?_ ?_ | simp only [keeps_settle, keeps_guardRes, keeps_unitRes, keeps_hereRes, keeps_accessRes, keeps_next, keeps_fault, keeps_refused])
  all_goals simp_all [eq_pair]

@[simp] theorem startEngineReset_fixed (s : State) (e : Nat) (copy : Option Nat) : (startEngineReset s e copy).fixed = s.fixed := by
  unfold startEngineReset; simp

@[simp] theorem cutOps_fixed (s : State) (c : Nat) (gen : Nat) : (cutOps s c gen).fixed = s.fixed := by
  unfold cutOps
  repeat' (first | split | intro _ | refine foldl_fixed ?_ ?_ | simp only [keeps_settle, keeps_guardRes, keeps_unitRes, keeps_hereRes, keeps_accessRes, keeps_next, keeps_fault, keeps_refused])
  all_goals simp_all [eq_pair]

@[simp] theorem cutCtx_fixed (s : State) (c : Nat) : (cutCtx s c).fixed = s.fixed := by
  unfold cutCtx; simp

@[simp] theorem sliceReset_fixed (s : State) (n : Nat) : (sliceReset s n).fixed = s.fixed := by
  unfold sliceReset; simp

@[simp] theorem startSliceReset_fixed (s : State) (n : Nat) (copy : Option Nat) : (startSliceReset s n copy).fixed = s.fixed := by
  unfold startSliceReset; simp

@[simp] theorem warmReset_fixed (s : State) (capCause : Nat) (lastCause : Nat) (copy : Option Nat) : (warmReset s capCause lastCause copy).fixed = s.fixed := by
  unfold warmReset; simp

@[simp] theorem startWarmReset_fixed (s : State) (capCause : Nat) (lastCause : Nat) (copy : Option Nat) : (startWarmReset s capCause lastCause copy).fixed = s.fixed := by
  unfold startWarmReset; simp

@[simp] theorem startPowerCycle_fixed (s : State) : (startPowerCycle s).fixed = s.fixed := by
  unfold startPowerCycle; simp

@[simp] theorem unfenceUnit_fixed (s : State) (k : Nat) (i : Nat) : (unfenceUnit s k i).fixed = s.fixed := by
  simp only [unfenceUnit, apply_ite State.fixed]
  repeat' (first | (simp [eq_pair]; done) | intro _ | split)
  all_goals simp_all [eq_pair]

@[simp] theorem unfence_fixed (s : State) (kind i : Nat) : (unfence s kind i).1.fixed = s.fixed := by
  unfold unfence
  try dsimp only
  repeat' split
  all_goals simp

@[simp] theorem fcRun_fixed (s : State) (k : Nat) : (fcRun s k).fixed = s.fixed := by
  simp only [fcRun, apply_ite State.fixed]
  repeat' (first | (simp [eq_pair]; done) | intro _ | split)
  all_goals simp_all [eq_pair]

@[simp] theorem fcDrive_fixed (n : Nat) (s : State) : (fcDrive n s).fixed = s.fixed := by
  induction n generalizing s with
  | zero => rfl
  | succ n ih =>
    unfold fcDrive
    try dsimp only
    repeat' split
    all_goals simp_all [eq_pair]

@[simp] theorem fcCmd_keeps (path : Path) (op kind target : Nat) (s : State) (s0 : State) (h0 : s.fixed = s0.fixed) : Keeps s0 (fcCmd path op kind target s) := by
  refine Keeps.of h0 ?_
  unfold fcCmd
  try dsimp only
  repeat' split
  all_goals simp

@[simp] theorem fcWrite_keeps {path : Path} {f : State → State} {s : State} (hf : ∀ t, (f t).fixed = t.fixed) {s0 : State} (h0 : s.fixed = s0.fixed) : Keeps s0 (fcWrite path f s) := by
  refine Keeps.of h0 ?_
  unfold fcWrite
  try dsimp only
  split <;> simp [hf]

@[simp] theorem execEngineReset_keeps (path : Path) (e : Nat) (s : State) (s0 : State) (h0 : s.fixed = s0.fixed) : Keeps s0 (execEngineReset path e s) := by
  refine Keeps.of h0 ?_
  unfold execEngineReset; simp

@[simp] theorem execEngineResetDone_keeps (e : Nat) (s : State) (s0 : State) (h0 : s.fixed = s0.fixed) : Keeps s0 (execEngineResetDone e s) := by
  refine Keeps.of h0 ?_
  unfold execEngineResetDone
  repeat' (first | split | intro _ | refine foldl_fixed ?_ ?_ | refine issue_keeps ?_ (by simp) | refine packet_keeps ?_ (by simp) | refine secWrite_keeps ?_ (by simp) | refine secWriteAt_keeps ?_ (by simp) | refine slCmd_keeps ?_ (by simp) | refine fwCmd_keeps ?_ (by simp) | refine ksCmd_keeps ?_ (by simp) | refine fcWrite_keeps ?_ (by simp) | refine lcCmd_keeps ?_ (by simp) | refine dgCmd_keeps ?_ (by simp) | refine spdmReq_keeps ?_ (by simp) | refine message_keeps ?_ (by simp) | refine boundMessage_keeps ?_ (by simp) | refine hostSlice_keeps ?_ (by simp) | refine takeVerified_keeps ?_ (by simp) | refine beadPacket_keeps ?_ (by simp) | refine vector_keeps (by simp) | refine issueRows_keeps ?_ (by simp) | refine issueLink_keeps ?_ (by simp) | simp only [keeps_settle, keeps_guardRes, keeps_unitRes, keeps_hereRes, keeps_accessRes, keeps_next, keeps_fault, keeps_refused])
  all_goals simp_all [eq_pair]

@[simp] theorem execEngrstTo_keeps (e : Nat) (s : State) (s0 : State) (h0 : s.fixed = s0.fixed) : Keeps s0 (execEngrstTo e s) := by
  refine Keeps.of h0 ?_
  unfold execEngrstTo
  repeat' (first | split | intro _ | refine foldl_fixed ?_ ?_ | refine issue_keeps ?_ (by simp) | refine packet_keeps ?_ (by simp) | refine secWrite_keeps ?_ (by simp) | refine secWriteAt_keeps ?_ (by simp) | refine slCmd_keeps ?_ (by simp) | refine fwCmd_keeps ?_ (by simp) | refine ksCmd_keeps ?_ (by simp) | refine fcWrite_keeps ?_ (by simp) | refine lcCmd_keeps ?_ (by simp) | refine dgCmd_keeps ?_ (by simp) | refine spdmReq_keeps ?_ (by simp) | refine message_keeps ?_ (by simp) | refine boundMessage_keeps ?_ (by simp) | refine hostSlice_keeps ?_ (by simp) | refine takeVerified_keeps ?_ (by simp) | refine beadPacket_keeps ?_ (by simp) | refine vector_keeps (by simp) | refine issueRows_keeps ?_ (by simp) | refine issueLink_keeps ?_ (by simp) | simp only [keeps_settle, keeps_guardRes, keeps_unitRes, keeps_hereRes, keeps_accessRes, keeps_next, keeps_fault, keeps_refused])
  all_goals simp_all [eq_pair]

@[simp] theorem execSliceReset_keeps (path : Path) (n : Nat) (s : State) (s0 : State) (h0 : s.fixed = s0.fixed) : Keeps s0 (execSliceReset path n s) := by
  refine Keeps.of h0 ?_
  unfold execSliceReset; simp

@[simp] theorem execSliceResetDone_keeps (n : Nat) (s : State) (s0 : State) (h0 : s.fixed = s0.fixed) : Keeps s0 (execSliceResetDone n s) := by
  refine Keeps.of h0 ?_
  unfold execSliceResetDone
  split
  · simp
  · simp

@[simp] theorem execSlrstTo_keeps (n : Nat) (s : State) (s0 : State) (h0 : s.fixed = s0.fixed) : Keeps s0 (execSlrstTo n s) := by
  refine Keeps.of h0 ?_
  unfold execSlrstTo
  repeat' (first | split | intro _ | refine foldl_fixed ?_ ?_ | refine issue_keeps ?_ (by simp) | refine packet_keeps ?_ (by simp) | refine secWrite_keeps ?_ (by simp) | refine secWriteAt_keeps ?_ (by simp) | refine slCmd_keeps ?_ (by simp) | refine fwCmd_keeps ?_ (by simp) | refine ksCmd_keeps ?_ (by simp) | refine fcWrite_keeps ?_ (by simp) | refine lcCmd_keeps ?_ (by simp) | refine dgCmd_keeps ?_ (by simp) | refine spdmReq_keeps ?_ (by simp) | refine message_keeps ?_ (by simp) | refine boundMessage_keeps ?_ (by simp) | refine hostSlice_keeps ?_ (by simp) | refine takeVerified_keeps ?_ (by simp) | refine beadPacket_keeps ?_ (by simp) | refine vector_keeps (by simp) | refine issueRows_keeps ?_ (by simp) | refine issueLink_keeps ?_ (by simp) | simp only [keeps_settle, keeps_guardRes, keeps_unitRes, keeps_hereRes, keeps_accessRes, keeps_next, keeps_fault, keeps_refused])
  all_goals simp_all [eq_pair]

@[simp] theorem execTeardownTimeout_keeps (c : Nat) (s : State) (s0 : State) (h0 : s.fixed = s0.fixed) : Keeps s0 (execTeardownTimeout c s) := by
  refine Keeps.of h0 ?_
  unfold execTeardownTimeout
  repeat' (first | split | intro _ | refine foldl_fixed ?_ ?_ | refine issue_keeps ?_ (by simp) | refine packet_keeps ?_ (by simp) | refine secWrite_keeps ?_ (by simp) | refine secWriteAt_keeps ?_ (by simp) | refine slCmd_keeps ?_ (by simp) | refine fwCmd_keeps ?_ (by simp) | refine ksCmd_keeps ?_ (by simp) | refine fcWrite_keeps ?_ (by simp) | refine lcCmd_keeps ?_ (by simp) | refine dgCmd_keeps ?_ (by simp) | refine spdmReq_keeps ?_ (by simp) | refine message_keeps ?_ (by simp) | refine boundMessage_keeps ?_ (by simp) | refine hostSlice_keeps ?_ (by simp) | refine takeVerified_keeps ?_ (by simp) | refine beadPacket_keeps ?_ (by simp) | refine vector_keeps (by simp) | refine issueRows_keeps ?_ (by simp) | refine issueLink_keeps ?_ (by simp) | simp only [keeps_settle, keeps_guardRes, keeps_unitRes, keeps_hereRes, keeps_accessRes, keeps_next, keeps_fault, keeps_refused])
  all_goals simp_all [eq_pair]

@[simp] theorem execWarmReset_keeps (path : Path) (s : State) (s0 : State) (h0 : s.fixed = s0.fixed) : Keeps s0 (execWarmReset path s) := by
  refine Keeps.of h0 ?_
  unfold execWarmReset; simp

@[simp] theorem execWarmResetTimeout_keeps (s : State) (s0 : State) (h0 : s.fixed = s0.fixed) : Keeps s0 (execWarmResetTimeout s) := by
  refine Keeps.of h0 ?_
  unfold execWarmResetTimeout
  repeat' (first | split | intro _ | refine foldl_fixed ?_ ?_ | refine issue_keeps ?_ (by simp) | refine packet_keeps ?_ (by simp) | refine secWrite_keeps ?_ (by simp) | refine secWriteAt_keeps ?_ (by simp) | refine slCmd_keeps ?_ (by simp) | refine fwCmd_keeps ?_ (by simp) | refine ksCmd_keeps ?_ (by simp) | refine fcWrite_keeps ?_ (by simp) | refine lcCmd_keeps ?_ (by simp) | refine dgCmd_keeps ?_ (by simp) | refine spdmReq_keeps ?_ (by simp) | refine message_keeps ?_ (by simp) | refine boundMessage_keeps ?_ (by simp) | refine hostSlice_keeps ?_ (by simp) | refine takeVerified_keeps ?_ (by simp) | refine beadPacket_keeps ?_ (by simp) | refine vector_keeps (by simp) | refine issueRows_keeps ?_ (by simp) | refine issueLink_keeps ?_ (by simp) | simp only [keeps_settle, keeps_guardRes, keeps_unitRes, keeps_hereRes, keeps_accessRes, keeps_next, keeps_fault, keeps_refused])
  all_goals simp_all [eq_pair]

@[simp] theorem execPowerCycle_keeps (path : Path) (s : State) (s0 : State) (h0 : s.fixed = s0.fixed) : Keeps s0 (execPowerCycle path s) := by
  refine Keeps.of h0 ?_
  unfold execPowerCycle; simp

@[simp] theorem execMpReadyTimeout_keeps (m : Nat) (s : State) (s0 : State) (h0 : s.fixed = s0.fixed) : Keeps s0 (execMpReadyTimeout m s) := by
  refine Keeps.of h0 ?_
  unfold execMpReadyTimeout; simp

@[simp] theorem execResetUnitsLeave_keeps (s : State) (s0 : State) (h0 : s.fixed = s0.fixed) : Keeps s0 (execResetUnitsLeave s) := by
  refine Keeps.of h0 ?_
  unfold execResetUnitsLeave
  repeat' (first | split | intro _ | refine foldl_fixed ?_ ?_ | refine issue_keeps ?_ (by simp) | refine packet_keeps ?_ (by simp) | refine secWrite_keeps ?_ (by simp) | refine secWriteAt_keeps ?_ (by simp) | refine slCmd_keeps ?_ (by simp) | refine fwCmd_keeps ?_ (by simp) | refine ksCmd_keeps ?_ (by simp) | refine fcWrite_keeps ?_ (by simp) | refine lcCmd_keeps ?_ (by simp) | refine dgCmd_keeps ?_ (by simp) | refine spdmReq_keeps ?_ (by simp) | refine message_keeps ?_ (by simp) | refine boundMessage_keeps ?_ (by simp) | refine hostSlice_keeps ?_ (by simp) | refine takeVerified_keeps ?_ (by simp) | refine beadPacket_keeps ?_ (by simp) | refine vector_keeps (by simp) | refine issueRows_keeps ?_ (by simp) | refine issueLink_keeps ?_ (by simp) | simp only [keeps_settle, keeps_guardRes, keeps_unitRes, keeps_hereRes, keeps_accessRes, keeps_next, keeps_fault, keeps_refused])
  all_goals simp_all [eq_pair]

@[simp] theorem execUnfence_keeps (path : Path) (kind : Nat) (index : Nat) (s : State) (s0 : State) (h0 : s.fixed = s0.fixed) : Keeps s0 (execUnfence path kind index s) := by
  refine Keeps.of h0 ?_
  unfold execUnfence; simp

@[simp] theorem execFcStatusClear_keeps (path : Path) (v : Word) (s : State) (s0 : State) (h0 : s.fixed = s0.fixed) : Keeps s0 (execFcStatusClear path v s) := by
  refine Keeps.of h0 ?_
  unfold execFcStatusClear; simp

@[simp] theorem execFcLock_keeps (path : Path) (s : State) (s0 : State) (h0 : s.fixed = s0.fixed) : Keeps s0 (execFcLock path s) := by
  refine Keeps.of h0 ?_
  unfold execFcLock
  repeat' (first | split | intro _ | refine foldl_fixed ?_ ?_ | refine issue_keeps ?_ (by simp) | refine packet_keeps ?_ (by simp) | refine secWrite_keeps ?_ (by simp) | refine secWriteAt_keeps ?_ (by simp) | refine slCmd_keeps ?_ (by simp) | refine fwCmd_keeps ?_ (by simp) | refine ksCmd_keeps ?_ (by simp) | refine fcWrite_keeps ?_ (by simp) | refine lcCmd_keeps ?_ (by simp) | refine dgCmd_keeps ?_ (by simp) | refine spdmReq_keeps ?_ (by simp) | refine message_keeps ?_ (by simp) | refine boundMessage_keeps ?_ (by simp) | refine hostSlice_keeps ?_ (by simp) | refine takeVerified_keeps ?_ (by simp) | refine beadPacket_keeps ?_ (by simp) | refine vector_keeps (by simp) | refine issueRows_keeps ?_ (by simp) | refine issueLink_keeps ?_ (by simp) | simp only [keeps_settle, keeps_guardRes, keeps_unitRes, keeps_hereRes, keeps_accessRes, keeps_next, keeps_fault, keeps_refused])
  all_goals simp_all [eq_pair]

@[simp] theorem execFcInjectArm_keeps (path : Path) (v : Word) (s : State) (s0 : State) (h0 : s.fixed = s0.fixed) : Keeps s0 (execFcInjectArm path v s) := by
  refine Keeps.of h0 ?_
  unfold execFcInjectArm
  repeat' (first | split | intro _ | refine foldl_fixed ?_ ?_ | refine issue_keeps ?_ (by simp) | refine packet_keeps ?_ (by simp) | refine secWrite_keeps ?_ (by simp) | refine secWriteAt_keeps ?_ (by simp) | refine slCmd_keeps ?_ (by simp) | refine fwCmd_keeps ?_ (by simp) | refine ksCmd_keeps ?_ (by simp) | refine fcWrite_keeps ?_ (by simp) | refine lcCmd_keeps ?_ (by simp) | refine dgCmd_keeps ?_ (by simp) | refine spdmReq_keeps ?_ (by simp) | refine message_keeps ?_ (by simp) | refine boundMessage_keeps ?_ (by simp) | refine hostSlice_keeps ?_ (by simp) | refine takeVerified_keeps ?_ (by simp) | refine beadPacket_keeps ?_ (by simp) | refine vector_keeps (by simp) | refine issueRows_keeps ?_ (by simp) | refine issueLink_keeps ?_ (by simp) | simp only [keeps_settle, keeps_guardRes, keeps_unitRes, keeps_hereRes, keeps_accessRes, keeps_next, keeps_fault, keeps_refused])
  all_goals simp_all [eq_pair]

end Sys2Proof.Machine
end

