-- ==== Sys2Proof/Laws/KeepLifecycle.lean ====
section
/-! SUPPORT. Each operation of Machine/Lifecycle.lean keeps the fixed part of the state: the build parameters and the queue. -/
set_option linter.unusedSimpArgs false
set_option linter.unusedTactic false
set_option linter.unreachableTactic false
namespace Sys2Proof.Machine

@[simp] theorem verifyToken_fixed (s : State) (purpose : Nat) : (verifyToken s purpose).1.fixed = s.fixed := by
  unfold verifyToken; simp

@[simp] theorem lcCmd_keeps {path : Path} {f : State → State × Nat} {s : State} (hf : ∀ t, (f t).1.fixed = t.fixed) {s0 : State} (h0 : s.fixed = s0.fixed) : Keeps s0 (lcCmd path f s) := by
  refine Keeps.of h0 ?_
  unfold lcCmd
  try dsimp only
  repeat' split
  all_goals simp [hf]

@[simp] theorem otpStart_fixed (s : State) (r : LcRun) : (otpStart s r).1.fixed = s.fixed := by
  unfold otpStart; simp

@[simp] theorem execTransition_keeps (path : Path) (target : Nat) (miss : Word) (s : State) (s0 : State) (h0 : s.fixed = s0.fixed) : Keeps s0 (execTransition path target miss s) := by
  refine Keeps.of h0 ?_
  unfold execTransition
  repeat' (first | split | intro _ | refine foldl_fixed ?_ ?_ | refine issue_keeps ?_ (by simp) | refine packet_keeps ?_ (by simp) | refine secWrite_keeps ?_ (by simp) | refine secWriteAt_keeps ?_ (by simp) | refine slCmd_keeps ?_ (by simp) | refine fwCmd_keeps ?_ (by simp) | refine ksCmd_keeps ?_ (by simp) | refine fcWrite_keeps ?_ (by simp) | refine lcCmd_keeps ?_ (by simp) | refine dgCmd_keeps ?_ (by simp) | refine spdmReq_keeps ?_ (by simp) | refine message_keeps ?_ (by simp) | refine boundMessage_keeps ?_ (by simp) | refine hostSlice_keeps ?_ (by simp) | refine takeVerified_keeps ?_ (by simp) | refine beadPacket_keeps ?_ (by simp) | refine vector_keeps (by simp) | refine issueRows_keeps ?_ (by simp) | refine issueLink_keeps ?_ (by simp) | simp only [keeps_settle, keeps_guardRes, keeps_unitRes, keeps_hereRes, keeps_accessRes, keeps_next, keeps_fault, keeps_refused])
  all_goals (try simp_all [eq_pair])
  all_goals (repeat' split)
  all_goals simp_all [eq_pair]

@[simp] theorem execRaiseSvn_keeps (path : Path) (miss : Word) (s : State) (s0 : State) (h0 : s.fixed = s0.fixed) : Keeps s0 (execRaiseSvn path miss s) := by
  refine Keeps.of h0 ?_
  unfold execRaiseSvn
  repeat' (first | split | intro _ | refine foldl_fixed ?_ ?_ | refine issue_keeps ?_ (by simp) | refine packet_keeps ?_ (by simp) | refine secWrite_keeps ?_ (by simp) | refine secWriteAt_keeps ?_ (by simp) | refine slCmd_keeps ?_ (by simp) | refine fwCmd_keeps ?_ (by simp) | refine ksCmd_keeps ?_ (by simp) | refine fcWrite_keeps ?_ (by simp) | refine lcCmd_keeps ?_ (by simp) | refine dgCmd_keeps ?_ (by simp) | refine spdmReq_keeps ?_ (by simp) | refine message_keeps ?_ (by simp) | refine boundMessage_keeps ?_ (by simp) | refine hostSlice_keeps ?_ (by simp) | refine takeVerified_keeps ?_ (by simp) | refine beadPacket_keeps ?_ (by simp) | refine vector_keeps (by simp) | refine issueRows_keeps ?_ (by simp) | refine issueLink_keeps ?_ (by simp) | simp only [keeps_settle, keeps_guardRes, keeps_unitRes, keeps_hereRes, keeps_accessRes, keeps_next, keeps_fault, keeps_refused])
  all_goals simp_all [eq_pair]

@[simp] theorem dgCmd_keeps {path : Path} {f : State → State × Nat} {s : State} (hf : ∀ t, (f t).1.fixed = t.fixed) {s0 : State} (h0 : s.fixed = s0.fixed) : Keeps s0 (dgCmd path f s) := by
  refine Keeps.of h0 ?_
  unfold dgCmd
  try dsimp only
  repeat' split
  all_goals simp_all [eq_pair]

@[simp] theorem execDgChallenge_keeps (path : Path) (s : State) (s0 : State) (h0 : s.fixed = s0.fixed) : Keeps s0 (execDgChallenge path s) := by
  refine Keeps.of h0 ?_
  unfold execDgChallenge
  repeat' (first | split | intro _ | refine foldl_fixed ?_ ?_ | refine issue_keeps ?_ (by simp) | refine packet_keeps ?_ (by simp) | refine secWrite_keeps ?_ (by simp) | refine secWriteAt_keeps ?_ (by simp) | refine slCmd_keeps ?_ (by simp) | refine fwCmd_keeps ?_ (by simp) | refine ksCmd_keeps ?_ (by simp) | refine fcWrite_keeps ?_ (by simp) | refine lcCmd_keeps ?_ (by simp) | refine dgCmd_keeps ?_ (by simp) | refine spdmReq_keeps ?_ (by simp) | refine message_keeps ?_ (by simp) | refine boundMessage_keeps ?_ (by simp) | refine hostSlice_keeps ?_ (by simp) | refine takeVerified_keeps ?_ (by simp) | refine beadPacket_keeps ?_ (by simp) | refine vector_keeps (by simp) | refine issueRows_keeps ?_ (by simp) | refine issueLink_keeps ?_ (by simp) | simp only [keeps_settle, keeps_guardRes, keeps_unitRes, keeps_hereRes, keeps_accessRes, keeps_next, keeps_fault, keeps_refused])
  all_goals simp_all [eq_pair]

@[simp] theorem startDebug_fixed (s : State) (scope : Nat) : (startDebug s scope).fixed = s.fixed := by
  unfold startDebug; simp

@[simp] theorem openDebug_fixed (s : State) : (openDebug s).1.fixed = s.fixed := by
  simp only [openDebug, apply_ite State.fixed]
  repeat' (first | (simp [eq_pair]; done) | intro _ | split)
  all_goals simp_all [eq_pair]

@[simp] theorem execDebugOpen_keeps (path : Path) (s : State) (s0 : State) (h0 : s.fixed = s0.fixed) : Keeps s0 (execDebugOpen path s) := by
  refine Keeps.of h0 ?_
  simp only [execDebugOpen, apply_ite State.fixed]
  repeat' (first | (simp [eq_pair]; done) | intro _ | split)
  all_goals simp_all [eq_pair]

@[simp] theorem execDebugOpenComplete_keeps (s : State) (s0 : State) (h0 : s.fixed = s0.fixed) : Keeps s0 (execDebugOpenComplete s) := by
  refine Keeps.of h0 ?_
  unfold execDebugOpenComplete; simp

@[simp] theorem extestHold_fixed (s : State) : (extestHold s).fixed = s.fixed := by
  unfold extestHold
  repeat' (first | split | intro _ | refine foldl_fixed ?_ ?_ | simp only [keeps_settle, keeps_guardRes, keeps_unitRes, keeps_hereRes, keeps_accessRes, keeps_next, keeps_fault, keeps_refused])
  all_goals simp_all [eq_pair]

@[simp] theorem execJtagInstruction_keeps (code : Nat) (s : State) (s0 : State) (h0 : s.fixed = s0.fixed) : Keeps s0 (execJtagInstruction code s) := by
  refine Keeps.of h0 ?_
  unfold execJtagInstruction; simp

end Sys2Proof.Machine
end

