-- ==== Sys2Proof/Laws/KeepPower.lean ====
section
/-! SUPPORT. Each operation of Machine/Power.lean keeps the fixed part of the state: the build parameters and the queue. -/
set_option linter.unusedSimpArgs false
set_option linter.unusedTactic false
set_option linter.unreachableTactic false
namespace Sys2Proof.Machine

@[simp] theorem modCk_fixed (s : State) (f : Ck → Ck) : (modCk s f).fixed = s.fixed := by
  unfold modCk; simp

@[simp] theorem modPins_fixed (s : State) (f : Pins → Pins) : (modPins s f).fixed = s.fixed := by
  unfold modPins; simp

@[simp] theorem clockLost_fixed (s : State) : (clockLost s).fixed = s.fixed := by
  unfold clockLost; simp

@[simp] theorem execRootclkLoss_keeps (s : State) (s0 : State) (h0 : s.fixed = s0.fixed) : Keeps s0 (execRootclkLoss s) := by
  refine Keeps.of h0 ?_
  unfold execRootclkLoss; simp

@[simp] theorem execRootclkOutOfRange_keeps (s : State) (s0 : State) (h0 : s.fixed = s0.fixed) : Keeps s0 (execRootclkOutOfRange s) := by
  refine Keeps.of h0 ?_
  unfold execRootclkOutOfRange; simp

@[simp] theorem execRootclkInRange_keeps (s : State) (s0 : State) (h0 : s.fixed = s0.fixed) : Keeps s0 (execRootclkInRange s) := by
  refine Keeps.of h0 ?_
  unfold execRootclkInRange; simp

@[simp] theorem execBlkColdNFall_keeps (s : State) (s0 : State) (h0 : s.fixed = s0.fixed) : Keeps s0 (execBlkColdNFall s) := by
  refine Keeps.of h0 ?_
  unfold execBlkColdNFall; simp

@[simp] theorem execBlkColdNRise_keeps (s : State) (s0 : State) (h0 : s.fixed = s0.fixed) : Keeps s0 (execBlkColdNRise s) := by
  refine Keeps.of h0 ?_
  unfold execBlkColdNRise; simp

@[simp] theorem execBlkWarmNFall_keeps (s : State) (s0 : State) (h0 : s.fixed = s0.fixed) : Keeps s0 (execBlkWarmNFall s) := by
  refine Keeps.of h0 ?_
  unfold execBlkWarmNFall; simp

@[simp] theorem execThermEmrgNChange_keeps (high : Bool) (s : State) (s0 : State) (h0 : s.fixed = s0.fixed) : Keeps s0 (execThermEmrgNChange high s) := by
  refine Keeps.of h0 ?_
  unfold execThermEmrgNChange; simp

@[simp] theorem execPwrEmrgNChange_keeps (high : Bool) (s : State) (s0 : State) (h0 : s.fixed = s0.fixed) : Keeps s0 (execPwrEmrgNChange high s) := by
  refine Keeps.of h0 ?_
  unfold execPwrEmrgNChange; simp

@[simp] theorem execDutyChange_keeps (s : State) (s0 : State) (h0 : s.fixed = s0.fixed) : Keeps s0 (execDutyChange s) := by
  refine Keeps.of h0 ?_
  unfold execDutyChange; simp

@[simp] theorem cpLost_fixed (s : State) : (cpLost s).fixed = s.fixed := by
  unfold cpLost; simp

@[simp] theorem clearLinkKeys_fixed (s : State) : (clearLinkKeys s).fixed = s.fixed := by
  unfold clearLinkKeys; simp

@[simp] theorem execTamperNFall_keeps (s : State) (s0 : State) (h0 : s.fixed = s0.fixed) : Keeps s0 (execTamperNFall s) := by
  refine Keeps.of h0 ?_
  simp only [execTamperNFall, apply_ite State.fixed]
  repeat' (first | (simp [eq_pair]; done) | intro _ | split)
  all_goals simp_all [eq_pair]

@[simp] theorem execTamperNRise_keeps (s : State) (s0 : State) (h0 : s.fixed = s0.fixed) : Keeps s0 (execTamperNRise s) := by
  refine Keeps.of h0 ?_
  simp only [execTamperNRise, apply_ite State.fixed]
  repeat' (first | (simp [eq_pair]; done) | intro _ | split)
  all_goals simp_all [eq_pair]

@[simp] theorem execOppChange_keeps (path : Path) (v : Word) (s : State) (s0 : State) (h0 : s.fixed = s0.fixed) : Keeps s0 (execOppChange path v s) := by
  refine Keeps.of h0 ?_
  unfold execOppChange; simp

@[simp] theorem execOppChangeDone_keeps (s : State) (s0 : State) (h0 : s.fixed = s0.fixed) : Keeps s0 (execOppChangeDone s) := by
  refine Keeps.of h0 ?_
  unfold execOppChangeDone; simp

@[simp] theorem execEngineIdleThreshold_keeps (e : Nat) (s : State) (s0 : State) (h0 : s.fixed = s0.fixed) : Keeps s0 (execEngineIdleThreshold e s) := by
  refine Keeps.of h0 ?_
  unfold execEngineIdleThreshold; simp

@[simp] theorem execClusterRetThreshold_keeps (c : Nat) (s : State) (s0 : State) (h0 : s.fixed = s0.fixed) : Keeps s0 (execClusterRetThreshold c s) := by
  refine Keeps.of h0 ?_
  unfold execClusterRetThreshold; simp

@[simp] theorem execHalfRetThreshold_keeps (h : Nat) (s : State) (s0 : State) (h0 : s.fixed = s0.fixed) : Keeps s0 (execHalfRetThreshold h s) := by
  refine Keeps.of h0 ?_
  unfold execHalfRetThreshold; simp

@[simp] theorem execMemoryWakeRequest_keeps (tally : Bool) (i : Nat) (s : State) (s0 : State) (h0 : s.fixed = s0.fixed) : Keeps s0 (execMemoryWakeRequest tally i s) := by
  refine Keeps.of h0 ?_
  unfold execMemoryWakeRequest
  repeat' (first | split | intro _ | refine foldl_fixed ?_ ?_ | refine issue_keeps ?_ (by simp) | refine packet_keeps ?_ (by simp) | refine secWrite_keeps ?_ (by simp) | refine secWriteAt_keeps ?_ (by simp) | refine slCmd_keeps ?_ (by simp) | refine fwCmd_keeps ?_ (by simp) | refine ksCmd_keeps ?_ (by simp) | refine fcWrite_keeps ?_ (by simp) | refine lcCmd_keeps ?_ (by simp) | refine dgCmd_keeps ?_ (by simp) | refine spdmReq_keeps ?_ (by simp) | refine message_keeps ?_ (by simp) | refine boundMessage_keeps ?_ (by simp) | refine hostSlice_keeps ?_ (by simp) | refine takeVerified_keeps ?_ (by simp) | refine beadPacket_keeps ?_ (by simp) | refine vector_keeps (by simp) | refine issueRows_keeps ?_ (by simp) | refine issueLink_keeps ?_ (by simp) | simp only [keeps_settle, keeps_guardRes, keeps_unitRes, keeps_hereRes, keeps_accessRes, keeps_next, keeps_fault, keeps_refused])
  all_goals simp_all [eq_pair]

@[simp] theorem execMemoryWakeDone_keeps (tally : Bool) (i : Nat) (s : State) (s0 : State) (h0 : s.fixed = s0.fixed) : Keeps s0 (execMemoryWakeDone tally i s) := by
  refine Keeps.of h0 ?_
  unfold execMemoryWakeDone
  repeat' (first | split | intro _ | refine foldl_fixed ?_ ?_ | refine issue_keeps ?_ (by simp) | refine packet_keeps ?_ (by simp) | refine secWrite_keeps ?_ (by simp) | refine secWriteAt_keeps ?_ (by simp) | refine slCmd_keeps ?_ (by simp) | refine fwCmd_keeps ?_ (by simp) | refine ksCmd_keeps ?_ (by simp) | refine fcWrite_keeps ?_ (by simp) | refine lcCmd_keeps ?_ (by simp) | refine dgCmd_keeps ?_ (by simp) | refine spdmReq_keeps ?_ (by simp) | refine message_keeps ?_ (by simp) | refine boundMessage_keeps ?_ (by simp) | refine hostSlice_keeps ?_ (by simp) | refine takeVerified_keeps ?_ (by simp) | refine beadPacket_keeps ?_ (by simp) | refine vector_keeps (by simp) | refine issueRows_keeps ?_ (by simp) | refine issueLink_keeps ?_ (by simp) | simp only [keeps_settle, keeps_guardRes, keeps_unitRes, keeps_hereRes, keeps_accessRes, keeps_next, keeps_fault, keeps_refused])
  all_goals simp_all [eq_pair]

@[simp] theorem execRetainBlock_keeps (path : Path) (s : State) (s0 : State) (h0 : s.fixed = s0.fixed) : Keeps s0 (execRetainBlock path s) := by
  refine Keeps.of h0 ?_
  unfold execRetainBlock; simp

@[simp] theorem execBlockWake_keeps (s : State) (s0 : State) (h0 : s.fixed = s0.fixed) : Keeps s0 (execBlockWake s) := by
  refine Keeps.of h0 ?_
  unfold execBlockWake; simp

@[simp] theorem execEngineStartRequest_keeps (e : Nat) (s : State) (s0 : State) (h0 : s.fixed = s0.fixed) : Keeps s0 (execEngineStartRequest e s) := by
  refine Keeps.of h0 ?_
  unfold execEngineStartRequest; simp

@[simp] theorem execWakeGrant_keeps (e : Nat) (s : State) (s0 : State) (h0 : s.fixed = s0.fixed) : Keeps s0 (execWakeGrant e s) := by
  refine Keeps.of h0 ?_
  unfold execWakeGrant; simp

@[simp] theorem execEngineStartDone_keeps (e : Nat) (s : State) (s0 : State) (h0 : s.fixed = s0.fixed) : Keeps s0 (execEngineStartDone e s) := by
  refine Keeps.of h0 ?_
  unfold execEngineStartDone; simp

end Sys2Proof.Machine
end

