-- ==== Sys2Proof/Laws/KeepCheckpoint.lean ====
section
/-! SUPPORT. Each operation of Machine/Checkpoint.lean keeps the fixed part of the state: the build parameters and the queue. -/
set_option linter.unusedSimpArgs false
set_option linter.unusedTactic false
set_option linter.unreachableTactic false
namespace Sys2Proof.Machine

@[simp] theorem modCpCopy_fixed (s : State) (k : Nat) (f : CpCopy → CpCopy) : (modCpCopy s k f).fixed = s.fixed := by
  unfold modCpCopy; simp

@[simp] theorem cpEnd_fixed (s : State) (k : Nat) (result : Nat) : (cpEnd s k result).fixed = s.fixed := by
  unfold cpEnd; simp

@[simp] theorem cpFail_fixed (s : State) (k : Nat) (result : Nat) (idx : Option Nat) : (cpFail s k result idx).fixed = s.fixed := by
  unfold cpFail
  repeat' (first | split | intro _ | refine foldl_fixed ?_ ?_ | simp only [keeps_settle, keeps_guardRes, keeps_unitRes, keeps_hereRes, keeps_accessRes, keeps_next, keeps_fault, keeps_refused])
  all_goals simp_all [eq_pair]

@[simp] theorem cpLine_fixed (s : State) (n : Nat) (p : Nat × Nat × Nat) : (cpLine s n p).1.fixed = s.fixed := by
  unfold cpLine
  repeat' (first | split | intro _ | refine foldl_fixed ?_ ?_ | simp only [keeps_settle, keeps_guardRes, keeps_unitRes, keeps_hereRes, keeps_accessRes, keeps_next, keeps_fault, keeps_refused])
  all_goals simp_all [eq_pair]

@[simp] theorem cpLines_fixed (n : Nat) (s : State) (l : List (Nat × Nat × Nat)) : (cpLines n s l).1.fixed = s.fixed := by
  induction l generalizing s with
  | nil => rfl
  | cons x t ih =>
    unfold cpLines
    try dsimp only
    repeat' split
    all_goals simp_all [eq_pair]

@[simp] theorem cpRead_fixed (s : State) (n : Nat) (a : Nat) (len : Nat) : (cpRead s n a len).1.fixed = s.fixed := by
  unfold cpRead; simp

@[simp] theorem cpReads_fixed (n i : Nat) (s : State) (l : List (Nat × Nat)) : (cpReads n i s l).1.fixed = s.fixed := by
  induction l generalizing s i with
  | nil => rfl
  | cons x t ih =>
    unfold cpReads
    try dsimp only
    repeat' split
    all_goals simp_all [eq_pair]

@[simp] theorem readCapList_fixed (s : State) (n : Nat) (a : Nat) : (readCapList s n a).1.fixed = s.fixed := by
  unfold readCapList
  repeat' (first | split | intro _ | refine foldl_fixed ?_ ?_ | simp only [keeps_settle, keeps_guardRes, keeps_unitRes, keeps_hereRes, keeps_accessRes, keeps_next, keeps_fault, keeps_refused])
  all_goals simp_all [eq_pair]

@[simp] theorem cpReport_fixed (s : State) (n : Nat) (f : KSlice → KSlice) : (cpReport s n f).fixed = s.fixed := by
  unfold cpReport; simp

@[simp] theorem cpPayload_fixed (s : State) (op n : Nat) (ws : List Word) (l : CapList) (base : Key) (data : List (List Byte)) :
    (cpPayload s op n ws l base data).1.fixed = s.fixed := by
  unfold cpPayload
  dsimp only
  split
  · exact drbg_fixed s 128
  · rfl

@[simp] theorem cpWriteOut_fixed (s : State) (k op n : Nat) (ws : List Word) (l : CapList) (base : Key) :
    (cpWriteOut s k op n ws l base).fixed = s.fixed := by
  have hr := cpReads_fixed n 0 s (capRanges l)
  unfold cpWriteOut
  generalize cpReads n 0 s (capRanges l) = p at hr ⊢
  rcases p with ⟨s1, data | ⟨e, i⟩⟩
  · have hp := cpPayload_fixed s1 op n ws l base data
    dsimp only at hr ⊢
    generalize cpPayload s1 op n ws l base data = q at hp ⊢
    obtain ⟨s2, bytes⟩ := q
    have hm := memWrite_fixed s2 (blockWho n) .spa (cpW ws 1) bytes
    dsimp only at hp ⊢
    generalize memWrite s2 (blockWho n) .spa (cpW ws 1) bytes = w at hm ⊢
    rcases w with ⟨s3, _ | c⟩
    · simp_all
    · simp_all
  · simp_all

@[simp] theorem setStepOf_fixed (s : State) (c step : Nat) : (setStepOf s c step).fixed = s.fixed := by
  have hb := fun a b d => boltWrite_fixed s a b d
  have hm := fun a b c d => memWrite_fixed s a b c d
  unfold setStepOf
  generalize boltWrite s = B at hb ⊢
  generalize memWrite s = W at hm ⊢
  dsimp only
  split
  · exact hb _ _ _
  · split
    · exact hm _ _ _ _
    · exact (modCtx_fixed _ _ _).trans (hm _ _ _ _)

@[simp] theorem writeSmall_fixed (n i : Nat) (s : State) (l : List (Nat × List Byte)) : (writeSmall n i s l).1.fixed = s.fixed := by
  induction l generalizing s i with
  | nil => rfl
  | cons x t ih =>
    unfold writeSmall
    try dsimp only
    repeat' split
    all_goals simp_all [eq_pair]

@[simp] theorem cpRestore_fixed (s : State) (k : Nat) (n : Nat) (ws : List Word) (r : OpenRecord) (tag : Nat) : (cpRestore s k n ws r tag).fixed = s.fixed := by
  simp only [cpRestore, apply_ite State.fixed]
  repeat' (first | (simp [eq_pair]; done) | intro _ | split)
  all_goals simp_all [eq_pair]

@[simp] theorem cpOpen_fixed (s : State) (k : Nat) (op : Nat) (n : Nat) (ws : List Word) (base : Key) : (cpOpen s k op n ws base).fixed = s.fixed := by
  simp only [cpOpen, apply_ite State.fixed]
  repeat' (first | (simp [eq_pair]; done) | intro _ | split)
  all_goals simp_all [eq_pair]

@[simp] theorem cpStart_fixed (s : State) (k : Nat) (op : Nat) (n : Nat) (sec : Bool) : (cpStart s k op n sec).fixed = s.fixed := by
  unfold cpStart
  repeat' (first | split | intro _ | refine foldl_fixed ?_ ?_ | simp only [keeps_settle, keeps_guardRes, keeps_unitRes, keeps_hereRes, keeps_accessRes, keeps_next, keeps_fault, keeps_refused])
  all_goals simp_all [eq_pair]

@[simp] theorem cpDrive_fixed (n : Nat) (s : State) : (cpDrive n s).fixed = s.fixed := by
  induction n generalizing s with
  | zero => rfl
  | succ n ih =>
    unfold cpDrive
    try dsimp only
    repeat' split
    all_goals simp_all [eq_pair]

@[simp] theorem cpCmd_keeps (path : Path) (op n : Nat) (s : State) (s0 : State) (h0 : s.fixed = s0.fixed) : Keeps s0 (cpCmd path op n s) := by
  refine Keeps.of h0 ?_
  unfold cpCmd
  try dsimp only
  repeat' split
  all_goals simp

@[simp] theorem execCapture_keeps (path : Path) (n : Nat) (s : State) (s0 : State) (h0 : s.fixed = s0.fixed) : Keeps s0 (execCapture path n s) := by
  refine Keeps.of h0 ?_
  unfold execCapture; simp

@[simp] theorem execReplicate_keeps (path : Path) (n : Nat) (s : State) (s0 : State) (h0 : s.fixed = s0.fixed) : Keeps s0 (execReplicate path n s) := by
  refine Keeps.of h0 ?_
  unfold execReplicate; simp

@[simp] theorem execConfirm_keeps (path : Path) (n : Nat) (s : State) (s0 : State) (h0 : s.fixed = s0.fixed) : Keeps s0 (execConfirm path n s) := by
  refine Keeps.of h0 ?_
  unfold execConfirm; simp

@[simp] theorem execRestore_keeps (path : Path) (n : Nat) (s : State) (s0 : State) (h0 : s.fixed = s0.fixed) : Keeps s0 (execRestore path n s) := by
  refine Keeps.of h0 ?_
  unfold execRestore; simp

@[simp] theorem execCheckpointHashDone_keeps (s : State) (s0 : State) (h0 : s.fixed = s0.fixed) : Keeps s0 (execCheckpointHashDone s) := by
  refine Keeps.of h0 ?_
  simp only [execCheckpointHashDone, apply_ite State.fixed]
  repeat' (first | (simp [eq_pair]; done) | intro _ | split)
  all_goals simp_all [eq_pair]

@[simp] theorem execCpOkeyWrite_keeps (path : Path) (n : Nat) (w : Nat) (v : Word) (s : State) (s0 : State) (h0 : s.fixed = s0.fixed) : Keeps s0 (execCpOkeyWrite path n w v s) := by
  refine Keeps.of h0 ?_
  unfold execCpOkeyWrite
  repeat' (first | split | intro _ | refine foldl_fixed ?_ ?_ | refine issue_keeps ?_ (by simp) | refine packet_keeps ?_ (by simp) | refine secWrite_keeps ?_ (by simp) | refine secWriteAt_keeps ?_ (by simp) | refine slCmd_keeps ?_ (by simp) | refine fwCmd_keeps ?_ (by simp) | refine ksCmd_keeps ?_ (by simp) | refine fcWrite_keeps ?_ (by simp) | refine lcCmd_keeps ?_ (by simp) | refine dgCmd_keeps ?_ (by simp) | refine spdmReq_keeps ?_ (by simp) | refine message_keeps ?_ (by simp) | refine boundMessage_keeps ?_ (by simp) | refine hostSlice_keeps ?_ (by simp) | refine takeVerified_keeps ?_ (by simp) | refine beadPacket_keeps ?_ (by simp) | refine vector_keeps (by simp) | refine issueRows_keeps ?_ (by simp) | refine issueLink_keeps ?_ (by simp) | simp only [keeps_settle, keeps_guardRes, keeps_unitRes, keeps_hereRes, keeps_accessRes, keeps_next, keeps_fault, keeps_refused])
  all_goals simp_all [eq_pair]

end Sys2Proof.Machine
end

