-- ==== Sys2Proof/Laws/KeepPorts.lean ====
section
/-! SUPPORT. Each operation of Machine/Ports.lean keeps the fixed part of the state: the build parameters and the queue. -/
set_option linter.unusedSimpArgs false
set_option linter.unusedTactic false
set_option linter.unreachableTactic false
namespace Sys2Proof.Machine

@[simp] theorem drainCpl_fixed (s : State) (p : Nat) : (drainCpl s p).fixed = s.fixed := by
  unfold drainCpl; simp

@[simp] theorem complete_fixed (s : State) (p : Nat) (c : HCpl) : (complete s p c).fixed = s.fixed := by
  unfold complete; simp

@[simp] theorem badBeat_fixed (s : State) (p : Nat) : (badBeat s p).fixed = s.fixed := by
  unfold badBeat; simp

@[simp] theorem execHostCreditReturn_keeps (p : Nat) (cpl : Bool) (s : State) (s0 : State) (h0 : s.fixed = s0.fixed) : Keeps s0 (execHostCreditReturn p cpl s) := by
  refine Keeps.of h0 ?_
  unfold execHostCreditReturn; simp

@[simp] theorem execHppRstFall_keeps (p : Nat) (s : State) (s0 : State) (h0 : s.fixed = s0.fixed) : Keeps s0 (execHppRstFall p s) := by
  refine Keeps.of h0 ?_
  unfold execHppRstFall; simp

@[simp] theorem readFailed_fixed (s : State) (p : Nat) (t : HTag) : (readFailed s p t).fixed = s.fixed := by
  unfold readFailed
  repeat' (first | split | intro _ | refine foldl_fixed ?_ ?_ | simp only [keeps_settle, keeps_guardRes, keeps_unitRes, keeps_hereRes, keeps_accessRes, keeps_next, keeps_fault, keeps_refused])
  all_goals simp_all [eq_pair]

@[simp] theorem takeBeat_fixed (s : State) (p : Nat) (t : HTag) (last : Bool) (data : Line) : (takeBeat s p t last data).fixed = s.fixed := by
  unfold takeBeat; simp

@[simp] theorem execHostReadCompletion_keeps (p : Nat) (tag : Nat) (beat : Nat) (last : Bool) (err : Bool) (data : Line) (s : State) (s0 : State) (h0 : s.fixed = s0.fixed) : Keeps s0 (execHostReadCompletion p tag beat last err data s) := by
  refine Keeps.of h0 ?_
  unfold execHostReadCompletion
  repeat' (first | split | intro _ | refine foldl_fixed ?_ ?_ | refine issue_keeps ?_ (by simp) | refine packet_keeps ?_ (by simp) | refine secWrite_keeps ?_ (by simp) | refine secWriteAt_keeps ?_ (by simp) | refine slCmd_keeps ?_ (by simp) | refine fwCmd_keeps ?_ (by simp) | refine ksCmd_keeps ?_ (by simp) | refine fcWrite_keeps ?_ (by simp) | refine lcCmd_keeps ?_ (by simp) | refine dgCmd_keeps ?_ (by simp) | refine spdmReq_keeps ?_ (by simp) | refine message_keeps ?_ (by simp) | refine boundMessage_keeps ?_ (by simp) | refine hostSlice_keeps ?_ (by simp) | refine takeVerified_keeps ?_ (by simp) | refine beadPacket_keeps ?_ (by simp) | refine vector_keeps (by simp) | refine issueRows_keeps ?_ (by simp) | refine issueLink_keeps ?_ (by simp) | simp only [keeps_settle, keeps_guardRes, keeps_unitRes, keeps_hereRes, keeps_accessRes, keeps_next, keeps_fault, keeps_refused])
  all_goals simp_all [eq_pair]

@[simp] theorem hostSlice_keeps {p slice tag addr len : Nat} {wr : Bool} {f : State → MemReq → State × SvRes} {s : State}
    (hf : ∀ t q, (f t q).1.fixed = t.fixed) {s0 : State} (h0 : s.fixed = s0.fixed) : Keeps s0 (hostSlice p slice tag addr len wr f s) := by
  refine Keeps.of h0 ?_
  unfold hostSlice
  try dsimp only
  repeat' split
  all_goals simp_all [eq_pair]

@[simp] theorem execHostSliceRead_keeps (p : Nat) (slice : Nat) (tag : Nat) (addr : Nat) (len : Nat) (s : State) (s0 : State) (h0 : s.fixed = s0.fixed) : Keeps s0 (execHostSliceRead p slice tag addr len s) := by
  refine Keeps.of h0 ?_
  unfold execHostSliceRead; simp

@[simp] theorem execHostSliceWrite_keeps (p : Nat) (slice : Nat) (tag : Nat) (addr : Nat) (data : List Byte) (s : State) (s0 : State) (h0 : s.fixed = s0.fixed) : Keeps s0 (execHostSliceWrite p slice tag addr data s) := by
  refine Keeps.of h0 ?_
  unfold execHostSliceWrite
  repeat' (first | split | intro _ | refine foldl_fixed ?_ ?_ | refine issue_keeps ?_ (by simp) | refine packet_keeps ?_ (by simp) | refine secWrite_keeps ?_ (by simp) | refine secWriteAt_keeps ?_ (by simp) | refine slCmd_keeps ?_ (by simp) | refine fwCmd_keeps ?_ (by simp) | refine ksCmd_keeps ?_ (by simp) | refine fcWrite_keeps ?_ (by simp) | refine lcCmd_keeps ?_ (by simp) | refine dgCmd_keeps ?_ (by simp) | refine spdmReq_keeps ?_ (by simp) | refine message_keeps ?_ (by simp) | refine boundMessage_keeps ?_ (by simp) | refine hostSlice_keeps ?_ (by simp) | refine takeVerified_keeps ?_ (by simp) | refine beadPacket_keeps ?_ (by simp) | refine vector_keeps (by simp) | refine issueRows_keeps ?_ (by simp) | refine issueLink_keeps ?_ (by simp) | simp only [keeps_settle, keeps_guardRes, keeps_unitRes, keeps_hereRes, keeps_accessRes, keeps_next, keeps_fault, keeps_refused])
  all_goals simp_all [eq_pair]

end Sys2Proof.Machine
end

