-- ==== Sys2Proof/Laws/KeepRegisters.lean ====
section
/-! SUPPORT. Each operation of Machine/Registers.lean keeps the fixed part of the state: the build parameters and the queue. -/
set_option linter.unusedSimpArgs false
set_option linter.unusedTactic false
set_option linter.unreachableTactic false
namespace Sys2Proof.Machine

@[simp] theorem freshPort_fixed (s : State) (m : Nat) : (freshPort s m).fixed = s.fixed := by
  unfold freshPort; simp

@[simp] theorem execSvWideWrite_keeps (path : Path) (m : Nat) (v : Word) (s : State) (s0 : State) (h0 : s.fixed = s0.fixed) : Keeps s0 (execSvWideWrite path m v s) := by
  refine Keeps.of h0 ?_
  unfold execSvWideWrite
  repeat' (first | split | intro _ | refine foldl_fixed ?_ ?_ | refine issue_keeps ?_ (by simp) | refine packet_keeps ?_ (by simp) | refine secWrite_keeps ?_ (by simp) | refine secWriteAt_keeps ?_ (by simp) | refine slCmd_keeps ?_ (by simp) | refine fwCmd_keeps ?_ (by simp) | refine ksCmd_keeps ?_ (by simp) | refine fcWrite_keeps ?_ (by simp) | refine lcCmd_keeps ?_ (by simp) | refine dgCmd_keeps ?_ (by simp) | refine spdmReq_keeps ?_ (by simp) | refine message_keeps ?_ (by simp) | refine boundMessage_keeps ?_ (by simp) | refine hostSlice_keeps ?_ (by simp) | refine takeVerified_keeps ?_ (by simp) | refine beadPacket_keeps ?_ (by simp) | refine vector_keeps (by simp) | refine issueRows_keeps ?_ (by simp) | refine issueLink_keeps ?_ (by simp) | simp only [keeps_settle, keeps_guardRes, keeps_unitRes, keeps_hereRes, keeps_accessRes, keeps_next, keeps_fault, keeps_refused])
  all_goals simp_all [eq_pair]

@[simp] theorem execSvRetWrite_keeps (path : Path) (m : Nat) (i : Nat) (v : Word) (s : State) (s0 : State) (h0 : s.fixed = s0.fixed) : Keeps s0 (execSvRetWrite path m i v s) := by
  refine Keeps.of h0 ?_
  unfold execSvRetWrite
  repeat' (first | split | intro _ | refine foldl_fixed ?_ ?_ | refine issue_keeps ?_ (by simp) | refine packet_keeps ?_ (by simp) | refine secWrite_keeps ?_ (by simp) | refine secWriteAt_keeps ?_ (by simp) | refine slCmd_keeps ?_ (by simp) | refine fwCmd_keeps ?_ (by simp) | refine ksCmd_keeps ?_ (by simp) | refine fcWrite_keeps ?_ (by simp) | refine lcCmd_keeps ?_ (by simp) | refine dgCmd_keeps ?_ (by simp) | refine spdmReq_keeps ?_ (by simp) | refine message_keeps ?_ (by simp) | refine boundMessage_keeps ?_ (by simp) | refine hostSlice_keeps ?_ (by simp) | refine takeVerified_keeps ?_ (by simp) | refine beadPacket_keeps ?_ (by simp) | refine vector_keeps (by simp) | refine issueRows_keeps ?_ (by simp) | refine issueLink_keeps ?_ (by simp) | simp only [keeps_settle, keeps_guardRes, keeps_unitRes, keeps_hereRes, keeps_accessRes, keeps_next, keeps_fault, keeps_refused])
  all_goals simp_all [eq_pair]

@[simp] theorem execSweepEnSet_keeps (path : Path) (s : State) (s0 : State) (h0 : s.fixed = s0.fixed) : Keeps s0 (execSweepEnSet path s) := by
  refine Keeps.of h0 ?_
  unfold execSweepEnSet; simp

@[simp] theorem execRouteWrite_keeps (path : Path) (i : Nat) (w : Nat) (v : Word) (s : State) (s0 : State) (h0 : s.fixed = s0.fixed) : Keeps s0 (execRouteWrite path i w v s) := by
  refine Keeps.of h0 ?_
  unfold execRouteWrite
  repeat' (first | split | intro _ | refine foldl_fixed ?_ ?_ | refine issue_keeps ?_ (by simp) | refine packet_keeps ?_ (by simp) | refine secWrite_keeps ?_ (by simp) | refine secWriteAt_keeps ?_ (by simp) | refine slCmd_keeps ?_ (by simp) | refine fwCmd_keeps ?_ (by simp) | refine ksCmd_keeps ?_ (by simp) | refine fcWrite_keeps ?_ (by simp) | refine lcCmd_keeps ?_ (by simp) | refine dgCmd_keeps ?_ (by simp) | refine spdmReq_keeps ?_ (by simp) | refine message_keeps ?_ (by simp) | refine boundMessage_keeps ?_ (by simp) | refine hostSlice_keeps ?_ (by simp) | refine takeVerified_keeps ?_ (by simp) | refine beadPacket_keeps ?_ (by simp) | refine vector_keeps (by simp) | refine issueRows_keeps ?_ (by simp) | refine issueLink_keeps ?_ (by simp) | simp only [keeps_settle, keeps_guardRes, keeps_unitRes, keeps_hereRes, keeps_accessRes, keeps_next, keeps_fault, keeps_refused])
  all_goals simp_all [eq_pair]

@[simp] theorem mbxGo_fixed (s : State) (p : Nat) : (mbxGo s p).fixed = s.fixed := by
  unfold mbxGo; simp

@[simp] theorem mbxCtl_fixed (s : State) (p : Nat) (v : Word) : (mbxCtl s p v).fixed = s.fixed := by
  unfold mbxCtl; simp

@[simp] theorem bncWrite_fixed (s : State) (p : Nat) (w : Nat) (v : Word) : (bncWrite s p w v).fixed = s.fixed := by
  unfold bncWrite; simp

@[simp] theorem writeSecure_fixed (s : State) (r : Reg) (v : Word) : (writeSecure s r v).fixed = s.fixed := by
  unfold writeSecure
  repeat' (first | split | intro _ | refine foldl_fixed ?_ ?_ | simp only [keeps_settle, keeps_guardRes, keeps_unitRes, keeps_hereRes, keeps_accessRes, keeps_next, keeps_fault, keeps_refused])
  all_goals simp_all [eq_pair]

@[simp] theorem writeCollector_fixed (s : State) (r : Reg) (v : Word) : (writeCollector s r v).fixed = s.fixed := by
  unfold writeCollector
  repeat' (first | split | intro _ | refine foldl_fixed ?_ ?_ | simp only [keeps_settle, keeps_guardRes, keeps_unitRes, keeps_hereRes, keeps_accessRes, keeps_next, keeps_fault, keeps_refused])
  all_goals simp_all [eq_pair]

@[simp] theorem writeOpen_fixed (s : State) (path : Path) (r : Reg) (v : Word) : (writeOpen s path r v).fixed = s.fixed := by
  unfold writeOpen
  repeat' (first | split | intro _ | refine foldl_fixed ?_ ?_ | simp only [keeps_settle, keeps_guardRes, keeps_unitRes, keeps_hereRes, keeps_accessRes, keeps_next, keeps_fault, keeps_refused])
  all_goals simp_all [eq_pair]

@[simp] theorem writeMailbox_fixed (s : State) (r : Reg) (v : Word) : (writeMailbox s r v).fixed = s.fixed := by
  unfold writeMailbox
  repeat' (first | split | intro _ | refine foldl_fixed ?_ ?_ | simp only [keeps_settle, keeps_guardRes, keeps_unitRes, keeps_hereRes, keeps_accessRes, keeps_next, keeps_fault, keeps_refused])
  all_goals simp_all [eq_pair]

theorem writeCommand_keeps (path : Path) (r : Reg) (v : Word) (s : State) : ∀ x, writeCommand path r v s = some x → Keeps s x := by
  intro x
  unfold writeCommand
  try dsimp only
  repeat' split
  all_goals (intro h; cases h)
  all_goals simp

@[simp] theorem writeReg_keeps (path : Path) (r : Reg) (v : Word) (s : State) (s0 : State) (h0 : s.fixed = s0.fixed) : Keeps s0 (writeReg path r v s) := by
  refine Keeps.of h0 ?_
  have hc := writeCommand_keeps path r v s
  unfold writeReg
  try dsimp only
  repeat' split
  all_goals simp_all

@[simp] theorem execRegisterWrite_keeps (path : Path) (off : Nat) (v : Word) (s : State) (s0 : State) (h0 : s.fixed = s0.fixed) : Keeps s0 (execRegisterWrite path off v s) := by
  refine Keeps.of h0 ?_
  have hk : ∀ t x, t.fixed = s.fixed → Keeps t x → Keeps s x := by
    intro t x ht hx
    revert hx
    cases x <;> simp_all
  unfold execRegisterWrite
  try dsimp only
  repeat' split
  all_goals first
    | (simp; done)
    | exact hk _ _ (awake_fixed s) (by simp)

theorem instWord_fixed (write : Bool) (read : Word) (put s : State) (h : put.fixed = s.fixed) : (instWord write read put s).fixed = s.fixed := by
  unfold instWord
  split
  · exact h
  · exact emit_fixed _ _

@[simp] theorem putInstTally_fixed (s : State) (h : Nat) (a : Nat) (v : Word) : (putInstTally s h a v).fixed = s.fixed := by
  unfold putInstTally; simp

@[simp] theorem instIntrusive_fixed (t : Instrument) (write : Bool) (v : Word) (s : State) : (instIntrusive t write v s).fixed = s.fixed := by
  unfold instIntrusive
  split
  all_goals try dsimp only
  all_goals repeat' split
  all_goals first
    | (simp; done)
    | (rw [instWord_fixed] <;> simp)

@[simp] theorem execJtagInstrumentAccess_keeps (t : Instrument) (write : Bool) (v : Word) (s : State) (s0 : State) (h0 : s.fixed = s0.fixed) : Keeps s0 (execJtagInstrumentAccess t write v s) := by
  refine Keeps.of h0 ?_
  unfold execJtagInstrumentAccess
  repeat' (first | split | intro _ | refine foldl_fixed ?_ ?_ | refine issue_keeps ?_ (by simp) | refine packet_keeps ?_ (by simp) | refine secWrite_keeps ?_ (by simp) | refine secWriteAt_keeps ?_ (by simp) | refine slCmd_keeps ?_ (by simp) | refine fwCmd_keeps ?_ (by simp) | refine ksCmd_keeps ?_ (by simp) | refine fcWrite_keeps ?_ (by simp) | refine lcCmd_keeps ?_ (by simp) | refine dgCmd_keeps ?_ (by simp) | refine spdmReq_keeps ?_ (by simp) | refine message_keeps ?_ (by simp) | refine boundMessage_keeps ?_ (by simp) | refine hostSlice_keeps ?_ (by simp) | refine takeVerified_keeps ?_ (by simp) | refine beadPacket_keeps ?_ (by simp) | refine vector_keeps (by simp) | refine issueRows_keeps ?_ (by simp) | refine issueLink_keeps ?_ (by simp) | simp only [keeps_settle, keeps_guardRes, keeps_unitRes, keeps_hereRes, keeps_accessRes, keeps_next, keeps_fault, keeps_refused])
  all_goals simp_all [eq_pair]

end Sys2Proof.Machine
end

