-- ==== Sys2Proof/Laws/KeepClock.lean ====
section
/-! SUPPORT. Each operation of Machine/Clock.lean keeps the fixed part of the state: the build parameters and the queue. -/
set_option linter.unusedSimpArgs false
set_option linter.unusedTactic false
set_option linter.unreachableTactic false
namespace Sys2Proof.Machine

@[simp] theorem accountCtx_fixed (s : State) (c : Nat) : (accountCtx s c).fixed = s.fixed := by
  unfold accountCtx; simp

@[simp] theorem pclkEdge_fixed (s : State) : (pclkEdge s).fixed = s.fixed := by
  unfold pclkEdge; simp

@[simp] theorem entropyRetest_fixed (s : State) : (entropyRetest s).fixed = s.fixed := by
  unfold entropyRetest; simp

@[simp] theorem sclkEdge_fixed (s : State) : (sclkEdge s).fixed = s.fixed := by
  unfold sclkEdge; simp

@[simp] theorem tick_fixed (s : State) : (tick s).fixed = s.fixed := by
  unfold tick; simp

end Sys2Proof.Machine
end

