-- ==== Sys2Proof/WellFormed.lean ====
section
/-! DEFINITION. Well-formed commands: every operand fits the field or the pin group that carries it, for the widths that the rules give.
A command outside these bounds is one that no configuration can be sent. -/
namespace Sys2Proof

/-- A Weft frame: PREG of 3 bits and FCLASS of 4 (R171). -/
def Frame.wf (f : Frame) : Bool := f.preg < 8 && f.fclass < 16

/-- A fabric attribute: SLICE of 4 bits, CTX of 11, GEN of 8, KEYID of 10, BWCLASS of 2 (R26). -/
def Attr.wf (a : Attr) : Bool := a.slice < 16 && a.ctx < 2048 && a.gen < 256 && a.keyid < 1024 && a.bwclass < 4 && a.kind < 4

/-- A request at a memory engine: one of 24 ports, 4 sub-channels, and 256 region entries (R4, R26, R59, R582). -/
def MemReq.wf (r : MemReq) : Bool := r.attr.wf && r.port < 24 && r.sub < 4 && r.line < 2 ^ 34 && r.region.all (· < 256)

/-- A Tally operation names an aligned word of the 4 MiB of a half (R262, R267). -/
def TOp.wf (o : TOp) : Bool := o.off < 2 ^ 22 && o.off % 8 = 0 && o.ctx < 2048

/-- A ring: one of 8,192 queues, or the ring of a host packet port (R71, R428, R431). -/
def RingId.wf : RingId → Bool
  | .queue q => q < 8192
  | .port p => p < 4

/-- A path names a host packet port that exists in some configuration (R34). -/
def Path.wf : Path → Bool
  | .host p => p < 4
  | .crp _ | .jtag => true

/-- An instrument names a unit that exists in some configuration (R34, R505). -/
def Instrument.wf : Instrument → Bool
  | .reg off => off < 2 ^ 24
  | .monitor _ => true
  | .spad e a => e < 192 && a < 2 ^ 20
  | .bolt c a => c < 48 && a < 2 ^ 23
  | .tally h a => h < 2 && a < 2 ^ 22
  | .scan e | .inject e => e < 192
  | .proc k _ => k < 8

/-- A well-formed command. -/
def Instr.wf (i : Instr) : Bool :=
  match i with
  | .nop e f => e < 192 && f.wf
  | .tend e f => e < 192 && f.wf
  | .tlink e f => e < 192 && f.wf
  | .pend e f => e < 192 && f.wf
  | .br e f => e < 192 && f.wf
  | .tview e f => e < 192 && f.wf
  | .dsetw e f => e < 192 && f.wf
  | .dgetw e f => e < 192 && f.wf
  | .smov e f => e < 192 && f.wf
  | .sadd e f => e < 192 && f.wf
  | .ssub e f => e < 192 && f.wf
  | .smul e f => e < 192 && f.wf
  | .sand e f => e < 192 && f.wf
  | .sor e f => e < 192 && f.wf
  | .sxor e f => e < 192 && f.wf
  | .sshl e f => e < 192 && f.wf
  | .sshr e f => e < 192 && f.wf
  | .ssra e f => e < 192 && f.wf
  | .seq e f => e < 192 && f.wf
  | .sne e f => e < 192 && f.wf
  | .slt e f => e < 192 && f.wf
  | .sltu e f => e < 192 && f.wf
  | .sle e f => e < 192 && f.wf
  | .sleu e f => e < 192 && f.wf
  | .plog e f => e < 192 && f.wf
  | .rstep e f => e < 192 && f.wf
  | .astep e f => e < 192 && f.wf
  | .ldb e f => e < 192 && f.wf
  | .stb e f => e < 192 && f.wf
  | .st e f => e < 192 && f.wf
  | .pref e f => e < 192 && f.wf
  | .push e f => e < 192 && f.wf
  | .gath e f => e < 192 && f.wf
  | .scat e f => e < 192 && f.wf
  | .twait e f => e < 192 && f.wf
  | .twaitRelease e => e < 192
  | .fwait e f => e < 192 && f.wf
  | .fwaitRelease e => e < 192
  | .tld e f => e < 192 && f.wf
  | .tadd e f => e < 192 && f.wf
  | .tswap e f => e < 192 && f.wf
  | .fsig e f => e < 192 && f.wf
  | .ferr e f => e < 192 && f.wf
  | .lpost e f => e < 192 && f.wf
  | .lclose e f => e < 192 && f.wf
  | .lput e f => e < 192 && f.wf
  | .lputm e f => e < 192 && f.wf
  | .lred e f => e < 192 && f.wf
  | .lget e f => e < 192 && f.wf
  | .mma e f => e < 192 && f.wf
  | .epi e f => e < 192 && f.wf
  | .vzero e f => e < 192 && f.wf
  | .vcvt e f => e < 192 && f.wf
  | .vadd e f => e < 192 && f.wf
  | .vsub e f => e < 192 && f.wf
  | .vmul e f => e < 192 && f.wf
  | .vmin e f => e < 192 && f.wf
  | .vmax e f => e < 192 && f.wf
  | .vfma e f => e < 192 && f.wf
  | .vun e f => e < 192 && f.wf
  | .vred e f => e < 192 && f.wf
  | .vdrop e f => e < 192 && f.wf
  | .vrand e f => e < 192 && f.wf
  | .satt e f => e < 192 && f.wf
  | .sobs e f => e < 192 && f.wf
  | .sst e f => e < 192 && f.wf
  | .hupd e f => e < 192 && f.wf
  | .ttest e f => e < 192 && f.wf
  | .route e f => e < 192 && f.wf
  | .xgath e f => e < 192 && f.wf
  | .xscat e f => e < 192 && f.wf
  | .topk e f => e < 192 && f.wf
  | .texp e f => e < 192 && f.wf
  | .shuttleOperationStart c => c < 48
  | .shuttleOperationComplete c => c < 48
  | .prefetchDequeue e => e < 192
  | .asyncOperationComplete _ => true
  | .requestErrorReturn arrive => arrive.all fun x => x.1 < 2048 && x.2.1 < 256 && x.2.2.1 < 192
  | .tileOverrun e => e < 192
  | .contextSwitch e inc => e < 192 && inc.all (· < 2048)
  | .boltRegionClearDone c i => c < 48 && i < 64
  | .tallyRead h arrive _ => h < 2 && arrive.all fun x => x.1 < 64 && x.2.wf
  | .tallyAdd h arrive _ => h < 2 && arrive.all fun x => x.1 < 64 && x.2.wf
  | .tallySwap h arrive _ => h < 2 && arrive.all fun x => x.1 < 64 && x.2.wf
  | .tallyWrite h arrive _ => h < 2 && arrive.all fun x => x.1 < 64 && x.2.wf
  | .tallyMax h arrive _ => h < 2 && arrive.all fun x => x.1 < 64 && x.2.wf
  | .tallySeterr h arrive _ => h < 2 && arrive.all fun x => x.1 < 64 && x.2.wf
  | .memoryWakeRequest tally i => i < (if tally then 2 else 48)
  | .memoryWakeDone tally i => i < (if tally then 2 else 48)
  | .tamperWipe => true
  | .tamperWipeDone => true
  | .selvageRead r _ _ => r.wf
  | .selvageFullWrite r _ _ => r.wf
  | .selvagePartialWrite r _ _ _ _ => r.wf
  | .metadataCacheFill port sub lvl _ keyid _ => port < 24 && sub < 4 && lvl < 4 && keyid < 1024
  | .groupReencryption r _ _ _ => r.wf
  | .sweepStart keyid => keyid < 1024
  | .sweepVisit port _ => port < 24
  | .keyidRetirement keyid port => keyid < 1024 && port < 24
  | .keyidRetirementDone keyid => keyid < 1024
  | .hopSealOpen _ _ => true
  | .scrubAccess port _ => port < 24
  | .groupRetirement port _ => port < 24
  | .rowRepairRequest port => port < 24
  | .rowRepairAnswer port id _ => port < 24 && id < 16
  | .memoryCompletion port sub tag _ _ _ => port < 24 && sub < 4 && tag < 4096
  | .mpReadyFall port => port < 24
  | .mpReadyRise port => port < 24
  | .linkFrameReceive p _ _ => p < 18
  | .groupVerify _ => true
  | .ackSend src lkey => src < 65536 && lkey < 256
  | .ackReceive _ => true
  | .getRspReceive _ => true
  | .errReceive _ => true
  | .groupSend dest lkey _ => dest < 65536 && lkey < 256
  | .rtoExpiry dest lkey _ => dest < 65536 && lkey < 256
  | .linkUpChange p _ => p < 18
  | .bridgeTransferReceive h flit _ _ freed => h < 2 && flit.length ≤ 4096 && freed ≤ 128
  | .d2dErr h => h < 2
  | .regulationWindow h => h < 2
  | .build path n => path.wf && n < 16
  | .change path n => path.wf && n < 16
  | .changeEngineRelease e => e < 192
  | .dissolve path n => path.wf && n < 16
  | .dissolveDrainDone n => n < 16
  | .readDesc path n => path.wf && n < 16
  | .regionWrite path i => path.wf && i < 256
  | .regionRead path i => path.wf && i < 256
  | .queueDoorbell p queue tail => p < 4 && queue < 8192 && tail < 2 ^ 32
  | .portRingDoorbell p tail => p < 4 && tail < 2 ^ 32
  | .portRingFetch p => p < 4
  | .headWrite q => q < 8192
  | .warpNop r ws => r.wf && ws.length = 8
  | .stepOpen r ws => r.wf && ws.length = 8
  | .gangStart q place => q < 8192 && place.all (· < 192)
  | .gangTimeout q => q < 8192
  | .stepClose r ws => r.wf && ws.length = 8
  | .launch r ws => r.wf && ws.length = 8
  | .launchExt r ws => r.wf && ws.length = 8
  | .signal r ws => r.wf && ws.length = 8
  | .wait r ws => r.wf && ws.length = 8
  | .waitRelease r _ => r.wf
  | .error r ws => r.wf && ws.length = 8
  | .invalidate r ws => r.wf && ws.length = 8
  | .rodConfig r ws => r.wf && ws.length = 8
  | .beadAlloc r ws => r.wf && ws.length = 8
  | .beadUpdate r ws => r.wf && ws.length = 8
  | .beadLeave r ws => r.wf && ws.length = 8
  | .beadFree r ws => r.wf && ws.length = 8
  | .features r ws => r.wf && ws.length = 8
  | .ctxCreate r ws => r.wf && ws.length = 8
  | .ctxDestroy r ws => r.wf && ws.length = 8
  | .teardownDrainDone c => c < 2048
  | .teardownTimeout c => c < 2048
  | .qCreate r ws => r.wf && ws.length = 8
  | .qDestroy r ws => r.wf && ws.length = 8
  | .qReset r ws => r.wf && ws.length = 8
  | .fenceAlloc r ws => r.wf && ws.length = 8
  | .fenceFree r ws => r.wf && ws.length = 8
  | .fenceClear r ws => r.wf && ws.length = 8
  | .memObj r ws => r.wf && ws.length = 8
  | .memFree r ws => r.wf && ws.length = 8
  | .quantumExpiry e => e < 192
  | .stateRecordSpill ctx c need => ctx < 2048 && c < 48 && need < 2048
  | .stateRecordFill ctx c i base => ctx < 2048 && c < 48 && i < 64 && base < 128
  | .load path port => path.wf && port < 4
  | .stage path port => path.wf && port < 4
  | .activate path => path.wf
  | .deferredActivationStart => true
  | .discard path => path.wf
  | .imageReadDone _ => true
  | .fwWatchdogExpiry k => k < 8
  | .fwProcessorCrash k => k < 8
  | .fwRestartDone k _ => k < 8
  | .importKey path => path.wf
  | .generate path => path.wf
  | .erase path => path.wf
  | .ownerBind path => path.wf
  | .certLoad path => path.wf
  | .devidRead path => path.wf
  | .pikRead path => path.wf
  | .slotScan blob _ _ => blob < 1616
  | .drbgReseed => true
  | .entropyHealthFail => true
  | .getVersion p => p < 4
  | .getCapabilities p => p < 4
  | .negotiateAlgorithms p => p < 4
  | .getDigests p => p < 4
  | .getCertificate p => p < 4
  | .spdmChallenge p => p < 4
  | .getMeasurements p _ _ => p < 4
  | .keyExchange p => p < 4
  | .finish p _ _ => p < 4
  | .bind p _ _ => p < 4
  | .keyPut p _ _ => p < 4
  | .keyErase p _ _ => p < 4
  | .measure p _ _ => p < 4
  | .accept p _ _ => p < 4
  | .reportDetail p _ _ => p < 4
  | .close p _ _ => p < 4
  | .bounceH2d p _ => p < 4
  | .bounceD2h p => p < 4
  | .bounceComplete p => p < 4
  | .transition path target _ => path.wf && target < 16
  | .raiseSvn path _ => path.wf
  | .dgChallenge path => path.wf
  | .debugOpen path => path.wf
  | .debugOpenComplete => true
  | .jtagInstrumentAccess t _ _ => t.wf
  | .jtagInstruction code => code < 64
  | .errorEvent ext => (ext.all fun x => x.1 < 64)
  | .fcStatusClear path _ => path.wf
  | .fcLock path => path.wf
  | .fcInjectArm path _ => path.wf
  | .engineReset path e => path.wf && e < 192
  | .engineResetDone e => e < 192
  | .engrstTo e => e < 192
  | .sliceReset path n => path.wf && n < 16
  | .sliceResetDone n => n < 16
  | .slrstTo n => n < 16
  | .warmReset path => path.wf
  | .warmResetTimeout => true
  | .mpReadyTimeout m => m < 24
  | .resetUnitsLeave => true
  | .powerCycle path => path.wf
  | .unfence path kind index => path.wf && kind < 16 && index < 256
  | .capture path n => path.wf && n < 16
  | .replicate path n => path.wf && n < 16
  | .confirm path n => path.wf && n < 16
  | .restore path n => path.wf && n < 16
  | .checkpointHashDone => true
  | .cpOkeyWrite path n w _ => path.wf && n < 16 && w < 4
  | .blkColdNRise => true
  | .blkColdNFall => true
  | .blkWarmNFall => true
  | .thermEmrgNChange _ => true
  | .pwrEmrgNChange _ => true
  | .dutyChange => true
  | .rootclkLoss => true
  | .rootclkOutOfRange => true
  | .tamperNFall => true
  | .oppChange path _ => path.wf
  | .oppChangeDone => true
  | .retainBlock path => path.wf
  | .blockWake => true
  | .engineIdleThreshold e => e < 192
  | .clusterRetThreshold c => c < 48
  | .halfRetThreshold h => h < 2
  | .engineStartRequest e => e < 192
  | .wakeGrant e => e < 192
  | .engineStartDone e => e < 192
  | .hostSliceRead p slice _ addr len => p < 4 && slice < 16 && addr < 2 ^ 52 && 1 ≤ len && len ≤ 128
  | .hostSliceWrite p slice _ addr data => p < 4 && slice < 16 && addr < 2 ^ 52 && 1 ≤ data.length && data.length ≤ 128
  | .hostReadCompletion p tag _ _ _ _ => p < 4 && tag < 256
  | .hppRstFall p => p < 4
  | .portRingEnable p _ sizeCode => p < 4 && sizeCode < 16
  | .slcfgWrite path n _ => path.wf && n < 16
  | .svWideWrite path m _ => path.wf && m < 24
  | .svRetWrite path m i _ => path.wf && m < 24 && i < 1024
  | .sweepEnSet path => path.wf
  | .routeWrite path i w _ => path.wf && i < 1024 && w < 2
  | .registerWrite path off _ => path.wf && off < 2 ^ 24
  | .illegalInstruction e opcode => e < 192 && opcode < 256
  | .fetchRange e => e < 192
  | .hostCreditReturn p _ => p < 4
  | .tamperNRise => true
  | .rootclkInRange => true

end Sys2Proof
end

