-- ==== Sys2Proof/Tests/Slice0.lean ====
section
/-! SUPPORT. Tests: for every statement of the obligations a state and operands that meet its hypotheses, ill-formed terms that the checks refuse,
and single steps with results from the rules. -/
namespace Sys2Proof.Tests
set_option Elab.async false
open Sys2Proof.Machine

/-- A frame with predicate register `p`, negated or not, from its four slots and bits [83:0]. -/
def frm (neg : Bool) (p cls a b c d low : Nat) : Frame :=
  ⟨neg, p, cls, BitVec.ofNat 112 ((((a * 128 + b) * 128 + c) * 128 + d) * 2 ^ 84 + low)⟩

/-- Engine 0 in a state, as `f` makes it from one that runs the direct context of host port 0 at its first instruction. -/
def runOn (s : State) (f : Engine → Engine) : State :=
  modEng (modCtx s 0 fun x => { x with prog := some ⟨0, 0, 0, 4096, .port 0, 1, none, false⟩, eng := some 0, home := some 0 }) 0 fun _ =>
    f { Engine.idle with ctx := some (0, 0), phase := .on, pc := 64, codeBytes := 4096 }

/-- The block after reset with engine 0 running. -/
def run (f : Engine → Engine) : State := runOn State.reset f

/-- A valid FP32 view of `rows` by `cols` at `base`, with pitch 1. -/
def vw (rows cols base : Nat) : Word := BitVec.ofNat 64 (2 ^ 63 + (rows - 1) * 2 ^ 43 + (cols - 1) * 2 ^ 30 + 2 ^ 20 + base)

/-- A dense FP32 tensor of 4 rows and 8 columns at address 0 with a row pitch of 64 bytes. -/
def tens : BitVec 256 := BitVec.ofNat 256 (7 * 2 ^ 88 + 3 * 2 ^ 108 + 64 * 2 ^ 128)

/-- A command answers a next state, of which `p` holds. -/
def ends (i : Instr) (s : State) (p : State → Bool := fun _ => true) : Bool :=
  match exec i s with
  | .next t => p t
  | .fault _ => false
  | .refused _ => false

/-- The block after reset. -/
def rs : State := State.reset
/-- A state whose metadata caches hold the counters of the first 64 lines of every sub-channel, all of them 0, so that these lines read as zero, and
the tags of the first 16. -/
def warm (s : State) : State :=
  s.cfg.subs.foldl (fun t i => modPort t (i / 4) fun p =>
    { p with cache := ⟨i % 4, nodeAddr s (i / 4) 0 0 / 128, 0, true, true, false, false, 0⟩ ::
        ⟨i % 4, lineTagAddr s (i / 4) 0 / 128, 0, true, true, false, false, 0⟩ :: p.cache }) s

/-- The control register port's secure world. -/
def sec : Path := .crp true

/-- Slice `n` active, with its host firmware processors running. -/
def up (n : Nat) (s : State) : State :=
  modSlice { s with fw := { s.fw with procs := (List.range 16).map fun k => (k, ⟨1, 0, 0, false⟩) } } n fun x => { x with state := .active }
/-- The program of a context that runs on engine 0 or waits for an engine. -/
def prog0 : Prog := ⟨0, 0, 0, 4096, .port 0, 1, none, false⟩


theorem witness_ScalarAndCompareInstructionsWriteTheirResult :
    issues (infoR [.s, .s, .s] []) true 0 (frm false 0 1 1 2 3 0 5) (run id) = true ∧
    issues (infoR [.p, .s, .s] []) true 0 (frm false 0 1 65 2 3 0 5) (run id) = true ∧
    ends (.sadd 0 (frm false 0 1 1 2 3 0 5)) (run id) = true ∧ ends (.sleu 0 (frm false 0 1 65 2 3 0 5)) (run id) = true := by decide +kernel
theorem witness_MovesDescriptorStepAndPredicateLogic :
    issues (infoR [.s, .s] []) true 0 (frm false 0 1 1 2 0 0 5) (run id) = true ∧
    issues (infoR [.s, .d] [(64, 2)]) true 0 (frm false 0 1 1 34 0 0 (3 * 2 ^ 64)) (run id) = true ∧
    issues (infoR [.s] []) true 0 (frm false 0 1 0 0 0 0 0) (run id) = true ∧
    issues ⟨.neutral, 0, [], []⟩ true 0 (frm false 0 0 0 0 0 0 0) (run id) = true ∧
    issues (infoR [.d, .s] [(64, 2)]) true 0 (frm false 0 1 47 2 0 0 0) (run id) = true ∧
    issues (infoR [.zero, .s] []) true 0 (frm false 0 1 0 2 0 0 9) (run id) = true ∧
    issues (infoR [.p, .p, .p] [(64, 4)]) true 0 (frm false 0 1 71 65 66 0 (15 * 2 ^ 64)) (run id) = true ∧
    ends (.smov 0 (frm false 0 1 1 2 0 0 5)) (run id) = true ∧ ends (.plog 0 (frm false 0 1 71 65 66 0 (15 * 2 ^ 64))) (run id) = true := by decide +kernel
theorem witness_BranchesAndFalsePredicatesMovePc :
    issues ⟨.neutral, 2, [], [(0, 64)]⟩ (field (frm false 0 2 0 0 0 0 32).ops 64 48 = 0 && field (frm false 0 2 0 0 0 0 32).ops 0 4 = 0) 0
      (frm false 0 2 0 0 0 0 32) (run id) = true ∧
    issues ⟨.closing, 2, [], [(0, 64)]⟩ (field (frm false 0 2 0 0 0 0 32).ops 64 48 = 0 && field (frm false 0 2 0 0 0 0 32).ops 0 4 = 0) 0
      (frm false 0 2 0 0 0 0 32) (run fun g => { g with tileOpen := true }) = true ∧
    skips (infoR [.s, .s, .s] []) true 0 (frm true 0 1 1 2 3 0 5) (run id) = true ∧
    skips (infoR [.s, .d] [(64, 2)]) true 0 (frm false 1 1 1 34 0 0 0) (run id) = true ∧
    ends (.tlink 0 (frm false 0 2 0 0 0 0 32)) (run fun g => { g with tileOpen := true }) = true ∧ ends (.sadd 0 (frm true 0 1 1 2 3 0 5)) (run id) = true := by decide +kernel
theorem witness_TendClosesTheTileAndPendEndsTheProgram :
    (let s := run fun g => { g with tileOpen := true, spad := [(7, 1)] }
     issues ⟨.closing, 0, [], []⟩ true 0 (frm false 0 0 0 0 0 0 0) s = true ∧
     (engOf (atIssue ⟨.closing, 0, [], []⟩ 0 s) 0).pendRes = [] ∧ mwf 0 (engOf (atIssue ⟨.closing, 0, [], []⟩ 0 s) 0).spad = true ∧
     ends (.tend 0 (frm false 0 0 0 0 0 0 0)) s = true) ∧ ends (.pend 0 (frm false 0 0 0 0 0 0 0)) (run id) = true ∧
    issues ⟨.boundaryOnly, 0, [], []⟩ true 0 (frm false 0 0 0 0 0 0 0) (run id) = true := by decide +kernel
theorem witness_TviewLoadsAView :
    (let s := run fun g => { g with s := [(1, vw 4 8 64)] }
     let o : OpInfo := ⟨.opening, 1, [.t, .s], [(0, 64)]⟩
     issues o true 0 (frm false 0 1 96 1 0 0 0) s = true ∧ viewFault (viewOf (srcS (engOf (atIssue o 0 s) 0) (frm false 0 1 96 1 0 0 0) 1)) false = none ∧
     ends (.tview 0 (frm false 0 1 96 1 0 0 0)) s = true) ∧
    issues ⟨.opening, 1, [.t, .s], [(0, 64)]⟩ true 0 (frm false 0 1 111 0 0 0 0) (run id) = true := by decide +kernel
theorem witness_EngineFaultsMarkTheContext :
    (let s := run fun g => { g with tileOpen := true }
     (engOf s 0).ctx = some (0, 0) ∧ (ctxOf s 0).gen = 0 ∧ (ctxOf s 0).state = .live ∧ (engOf s 0).tileOpen = true ∧
     clear (engFault s 0 3 0 0 false) = true ∧ ends (.tileOverrun 0) s = true) ∧
    (let s := run fun g => { g with pc := 0 }
     (ctxOf s 0).state = .live ∧ canIssue s 0 = true ∧ pcInRange (engOf s 0) = false ∧
     clear (engFault s 0 9 0 0 false) = true ∧ ends (.fetchRange 0) s = true) ∧
    (let s := run id
     canIssue s 0 = true ∧ pcInRange (engOf s 0) = true ∧ opcodeAssigned 0xFF = false ∧ (fetch s 0).2 = none ∧
     (engOf (fetch s 0).1 0).ctx = some (0, 0) ∧ (ctxOf (fetch s 0).1 0).gen = 0 ∧ (ctxOf (fetch s 0).1 0).state = .live ∧
     clear (engFault (fetch s 0).1 0 1 0 0 false) = true ∧ ends (.illegalInstruction 0 0xFF) s = true) := by decide +kernel
theorem witness_TallyOperationsJoinTheirPort :
    (let s := run fun g => { g with s := [(1, 3), (2, 2 ^ 62 + 5)] }
     let o (slots : List SlotKind) (w : Nat) : OpInfo := ⟨.opening, 6, slots, [(0, w)]⟩
     issues (o [.s, .zero, .s] 64) true 0 (frm false 0 6 1 0 3 0 0) s = true ∧
     tallyRef (atIssue (o [.s, .zero, .s] 64) 0 s) 0 3 = .ok (.word 0 3) ∧
     tallyRef (atIssue (o [.s, .zero, .s] 64) 0 s) 0 (2 ^ 62 + 5) = .ok (.fence 5) ∧
     issues (o [.s, .zero, .s] 64) true 0 (frm false 0 6 2 0 3 0 0) s = true ∧
     issues (o [.s, .s, .s] 64) true 0 (frm false 0 6 1 2 3 0 7) s = true ∧
     issues (o [.s, .s] 64) true 0 (frm false 0 6 2 1 0 0 7) s = true ∧
     issues (o [.s] 16) (0x8000 ≤ lowField (frm false 0 6 2 0 0 0 0x8001) 0 16) 0 (frm false 0 6 2 0 0 0 0x8001) s = true ∧
     ends (.tswap 0 (frm false 0 6 1 2 3 0 7)) s = true ∧ ends (.ferr 0 (frm false 0 6 2 0 0 0 0x8001)) s = true) := by
  decide +kernel
theorem witness_WaitsRetireHoldAndAreReleased :
    (let s := run fun g => { g with s := [(1, 3), (2, 2 ^ 62 + 5)] }
     let o : OpInfo := ⟨.boundaryOnly, 6, [.s, .s], [(0, 64), (82, 2)]⟩
     let p : OpInfo := ⟨.boundaryOnly, 6, [.s, .s, .s], [(0, 64)]⟩
     issues o true 0 (frm false 0 6 1 0 0 0 9) s = true ∧ tallyAwake (atIssue o 0 s) 0 = true ∧
     issues o true 0 (frm false 0 6 2 0 0 0 9) s = true ∧ issues p true 0 (frm false 0 6 2 0 4 0 9) s = true ∧
     orphaned (atIssue p 0 s) 5 = false ∧ tallyRef (atIssue p 0 s) 0 (2 ^ 62 + 5) = .ok (.fence 5) ∧
     tallyRef (atIssue o 0 s) 0 3 = .ok (.word 0 3) ∧ tallyBad (tallyOf s 0) (16 * 5) = false ∧ tallyBad (tallyOf s 0) (poolBase + 24) = false ∧
     ends (.twait 0 (frm false 0 6 1 0 0 0 9)) s = true ∧ ends (.fwait 0 (frm false 0 6 2 0 4 0 9)) s = true) ∧
    (let s := modTally (run fun g => { g with s := [(2, 2 ^ 62 + 5)] }) 0 fun t => { t with fences := minsert t.fences 5 ⟨0, 1, 0, 0, 0, 3, 9⟩ }
     orphaned s 5 = true ∧ (fenceOf s 5).state = 1 ∧ (fenceOf s 5).value.toNat < 9 ∧ ends (.fwait 0 (frm false 0 6 2 0 4 0 9)) s = true) ∧
    (let w : WaitRec := ⟨0, 0, none, 1, 0, 0, some 0⟩
     (engOf (run fun g => { g with wait := some w }) 0).wait = some w ∧ w.ready = some 0 ∧ w.fence = none ∧
     ends (.twaitRelease 0) (run fun g => { g with wait := some w }) = true) ∧
    (let w : WaitRec := ⟨0, 80, some 5, 1, 0, 4, some 7⟩
     (engOf (run fun g => { g with wait := some w }) 0).wait = some w ∧ w.ready = some 7 ∧ w.fence = some 5 ∧
     ends (.fwaitRelease 0) (run fun g => { g with wait := some w }) = true) := by decide +kernel

theorem witness_LdbAndStbMoveBoltBytes :
    (let s := run fun g => { g with t := [(1, vw 2 16 64)], s := [(2, 64)] }
     let o := infoM [.t, .s] [(0, 23)]
     let f := frm false 0 3 97 2 0 0 8
     let u := atIssue o 0 s
     issues o true 0 f s = true ∧ viewFault (viewOf (tGet (engOf u 0) (slotOf f 0).2)) false = none ∧
     boltAt u 0 0 0 ((srcS (engOf u 0) f 1).toNat + lowField f 0 23) (viewOf (tGet (engOf u 0) 1)).extent = some 1096 ∧
     quiet u = true ∧ anyBad (clOf u 0).boltBad 1096 128 = false ∧ anyBad (engOf u 0).spadBad 64 128 = false ∧
     (viewOf (tGet (engOf u 0) 1)).extent = 128 ∧ ends (.ldb 0 f) s = true ∧ ends (.stb 0 f) s = true) := by decide +kernel
theorem witness_PrefetchPushGatherAndScatterStart :
    (let s := run fun g => { g with d := [(1, tens)], s := [(2, 64), (3, 0), (4, 8192), (5, 3)] }
     let o := infoM [.d, .s, .s, .s] [(82, 2), (81, 1), (80, 1), (74, 6), (52, 22), (51, 1), (13, 13), (0, 13)]
     let q := infoM [.d, .s, .s, .s] [(82, 2), (51, 1), (13, 13), (0, 13)]
     let r := infoM [.d, .s, .s, .s] [(82, 2), (0, 13)]
     let f := frm false 0 3 33 2 3 5 (2 ^ 82 + 3 * 2 ^ 13 + 7)
     let h := frm false 0 3 33 2 4 0 3
     let u := atIssue o 0 s
     let win := winOf 0 4 8
     issues o (caLegal f) 0 f s = true ∧ issues q (caLegal f) 0 f s = true ∧ issues r (caLegal h) 0 h s = true ∧
     lowField f 81 1 = 0 ∧ lowField f 80 1 = 0 ∧ lowField f 74 6 = 0 ∧ lowField f 52 22 = 0 ∧
     tensorLegal tens = true ∧ winLegal (tensorOf tens) win = true ∧ rowTensorLegal tens = true ∧ dGet (engOf u 0) (slotOf f 0).2 = tens ∧
     winOf (srcS (engOf u 0) f 2) (lowField f 13 13 + 1) (lowField f 0 13 + 1) = win ∧ lowField f 51 1 = 0 ∧ (tensorOf tens).spc = 0 ∧
     (boltAt u 0 0 0 64 (winLayout (tensorOf tens) win false).size).isSome = true ∧ completionWord u (engOf u 0) f = .ok (some (0, 3)) ∧
     (boltAt u 0 0 0 64 (4 * roundUp (rowBytes (tensorOf tens)) 64)).isSome = true ∧ (boltAt u 0 0 0 8192 16).isSome = true ∧
     completionWord u (engOf u 0) h = .ok none ∧ asyncCount u 0 < 16 ∧ quiet u = true ∧ anyBad (clOf u 0).boltBad 8192 16 = false ∧
     clear (openLines (engWho u 0 0 0 0) u (touchedLines (winLayout (tensorOf tens) win false).segs)).1 = true ∧
     (ctxOf u 0).state ≠ .tearing ∧ ends (.pref 0 f) s = true ∧ ends (.push 0 f) s = true ∧ ends (.gath 0 h) s = true ∧
     ends (.scat 0 h) s = true) := by decide +kernel
theorem witness_StoreConvertsItsView :
    (let s := run fun g => { g with t := [(1, vw 4 8 64)], d := [(1, tens)] }
     let o := infoM [.t, .d, .s, .s] [(82, 2), (80, 2), (79, 1), (78, 1), (58, 20)]
     let f := frm false 0 3 97 33 3 0 0
     let u := atIssue o 0 s
     issues o (caLegal f && lowField f 80 2 ≠ 3 && (lowField f 78 1 = 1 || lowField f 58 20 = 0)) 0 f s = true ∧
     viewFault (viewOf (tGet (engOf u 0) 1)) false = none ∧ storeLegal (viewOf (tGet (engOf u 0) 1)) tens (winOf 0 4 8) false 0 = true ∧
     quiet u = true ∧ anyBad (engOf u 0).spadBad 64 128 = false ∧
     completionWord u (engOf u 0) f = .ok none ∧ asyncCount u 0 < 16 ∧ ends (.st 0 f) s = true) := by decide +kernel
/-- The block after reset with link keys 4 and 5 in the range of slice 0. -/
def withKeys (s : State) : State :=
  modSlice s 0 fun x => { x with desc := lmod x.desc 1 fun w => w ||| BitVec.ofNat 64 (4 * 2 ^ 20 + 2 * 2 ^ 11) }
/-- A link descriptor with LKEY 4 and DEST 9. -/
def link4 : BitVec 256 := BitVec.ofNat 256 (2 ^ 62 + 9 * 2 ^ 64 + 4 * 2 ^ 92)
theorem witness_LinkOperationsAndReceiveWindowsStart :
    (let s := runOn (withKeys State.reset) fun g => { g with d := [(1, link4), (2, tens)], s := [(2, 64), (3, 128)] }
     let ok (o : OpInfo) (x : Bool) (f : Frame) : Bool := let u := atIssue o 0 s
       issues o (caLegal f && x) 0 f s && lkeyInRange u 0 (linkOf link4).lkey && (boltAt u 0 0 0 64 128).isSome &&
         decide (completionWord u (engOf u 0) f = .ok none) && asyncCount u 0 < 16
     let h := infoL [.d, .d, .s, .s] [(82, 2), (13, 13), (0, 13)]
     linkLegal link4 = true ∧ lenLegal 128 = true ∧ ok (infoL [.d, .s, .s, .s] [(82, 2)]) true (frm false 0 7 33 2 3 0 0) = true ∧
     ok (infoL [.d, .s, .s, .s] [(82, 2), (80, 2), (76, 4)]) true (frm false 0 7 33 2 3 0 (2 ^ 80 + 2 ^ 76)) = true ∧
     ok h true (frm false 0 7 33 34 0 0 (3 * 2 ^ 13 + 7)) = true ∧ winLegal (tensorOf tens) (winOf 0 4 8) = true ∧
     lenLegal (winLayout (tensorOf tens) (winOf 0 4 8) false).size = true ∧
     (let f := frm false 0 7 33 34 0 0 (3 * 2 ^ 13 + 7)
      let im := imageOf (atIssue h 0 s) (engWho s 0 0 0 0) 4 tens 0 4 8
      (match im.2 with | .ok i => lenLegal i.size | .err _ => false) = true ∧ clear im.1 = true ∧ tensorLegal tens = true ∧ ends (.lputm 0 f) s = true) ∧
     ends (.lput 0 (frm false 0 7 33 2 3 0 0)) s = true ∧ ends (.lget 0 (frm false 0 7 33 2 3 0 0)) s = true ∧
     ends (.lred 0 (frm false 0 7 33 2 3 0 (2 ^ 80 + 2 ^ 76))) s = true) ∧
    (let s := run fun g => { g with s := [(1, 7), (2, 64), (3, 128), (4, 3)] }
     let o := infoL [.s, .s, .s, .s] [(81, 1), (80, 1), (79, 1)]
     let u := atIssue o 0 s
     issues o true 0 (frm false 0 7 1 2 3 4 0) s = true ∧ tallyRef u 0 3 = .ok (.word 0 3) ∧ (boltAt u 0 0 0 64 128).isSome = true ∧
     u.windows = [] ∧ issues (infoL [.s] []) true 0 (frm false 0 7 1 0 0 0 0) s = true ∧
     ends (.lpost 0 (frm false 0 7 1 2 3 4 0)) s = true ∧ ends (.lclose 0 (frm false 0 7 1 0 0 0 0)) s = true) := by decide +kernel
theorem witness_VectorInstructionsWriteTheirDestination :
    (let s := run fun g => { g with t := [(1, vw 2 8 0), (2, vw 2 8 1024), (3, vw 2 1 2048)], s := [(2, 0x3F800000)] }
     let o (slots : List SlotKind) (fn : Bool) : OpInfo := ⟨.opening, 5, slots, vecFields fn⟩
     let a := viewOf (vw 2 8 0)
     let b := viewOf (vw 2 8 1024)
     let c := viewOf (vw 2 1 2048)
     issues (o [.t, .st] false) true 0 (frm false 0 5 97 98 0 0 0) s = true ∧ issues (o [.t, .st, .st] false) true 0 (frm false 0 5 97 98 2 0 0) s = true ∧
     issues (o [.t, .st, .st, .st] false) true 0 (frm false 0 5 97 98 2 98 0) s = true ∧
     issues (o [.t, .st] true) true 0 (frm false 0 5 97 98 0 0 10) s = true ∧ issues (o [.t, .st, .s] false) true 0 (frm false 0 5 97 98 2 0 0) s = true ∧
     issues (o [.t] false) true 0 (frm false 0 5 97 0 0 0 0) s = true ∧ issues ⟨.opening, 5, [.t], []⟩ true 0 (frm false 0 5 97 0 0 0 0) s = true ∧
     issues (o [.t, .st] true) (lowField (frm false 0 5 99 98 0 0 3) 80 2 ≠ 3 && lowField (frm false 0 5 99 98 0 0 3) 0 4 ≤ 3) 0
       (frm false 0 5 99 98 0 0 3) s = true ∧
     viewOf (tGet (engOf (atIssue (o [.t] false) 0 s) 0) 1) = a ∧ viewFault a false = none ∧ viewFault b false = none ∧ viewFault c false = none ∧
     vecView a = true ∧ vecView b = true ∧ vecView c = true ∧ a.overlaps b = false ∧ c.overlaps b = false ∧ b.rows = a.rows ∧ b.cols = a.cols ∧
     c.cols = 1 ∧ c.rows = b.rows ∧ quiet (atIssue (o [.t] false) 0 s) = true ∧ (engOf s 0).spadBad = [] ∧
     ends (.vcvt 0 (frm false 0 5 97 98 0 0 0)) s = true ∧ ends (.vdrop 0 (frm false 0 5 97 98 2 0 0)) s = true ∧
     ends (.vred 0 (frm false 0 5 99 98 0 0 3)) s = true ∧ ends (.vzero 0 (frm false 0 5 97 0 0 0 0)) s = true ∧
     ends (.vrand 0 (frm false 0 5 97 0 0 0 0)) s = true ∧ ends (.vfma 0 (frm false 0 5 97 98 2 98 0)) s = true) := by decide +kernel
theorem witness_MmaComputesEveryOutputElement :
    (let v (rows cols base : Nat) : Word := vw rows cols base ||| BitVec.ofNat 64 (2 ^ 59)
     let s := run fun g => { g with t := [(1, vw 2 2 0), (2, v 2 32 1024), (3, v 2 32 2048)] }
     let o : OpInfo := ⟨.opening, 4, [.t, .t, .t], [(10, 1), (9, 1), (8, 1), (4, 4), (0, 4)]⟩
     let f := frm false 0 4 97 98 99 0 0
     let u := atIssue o 0 s
     issues o true 0 f s = true ∧ mmaFault (viewOf (vw 2 2 0)) (viewOf (v 2 32 1024)) (viewOf (v 2 32 2048)) (viewOf 0) (viewOf 0) false false 0 0 = none ∧
     (operandFibres (engOf u 0) (viewOf (v 2 32 1024)) false fun _ => []).isOk = true ∧
     (operandFibres (engOf u 0) (viewOf (v 2 32 2048)) false fun _ => []).isOk = true ∧ quiet u = true ∧
     (engOf u 0).spadBad = [] ∧ ends (.mma 0 f) s = true) := by decide +kernel
theorem witness_EpiScalesAndConverts :
    (let s := run fun g => { g with t := [(1, vw 2 8 0), (2, vw 2 8 1024)], stats := [(1, ⟨0, [], 0, 0, 0, 0⟩)] }
     let o : OpInfo := ⟨.opening, 4, [.t, .t, .s, .s], [(80, 2), (79, 1), (63, 16), (2, 1), (0, 2)]⟩
     let f := frm false 0 4 97 98 2 3 0
     issues o (lowField f 80 2 ≠ 3) 0 f s = true ∧ lowField f 2 1 = 0 ∧ viewFault (viewOf (vw 2 8 0)) false = none ∧
     vecView (viewOf (vw 2 8 0)) = true ∧ (viewOf (vw 2 8 0)).overlaps (viewOf (vw 2 8 1024)) = false ∧ quiet (atIssue o 0 s) = true ∧
     (engOf s 0).spadBad = [] ∧ ends (.epi 0 f) s = true ∧
     (statOf (engOf s 0) 1).isSome = true ∧ ends (.epi 0 (frm false 0 4 97 98 2 3 5)) s = true) := by
  decide +kernel
theorem witness_StatisticsAndTileTests :
    (let s := run fun g => { g with tileOpen := true, t := [(1, vw 2 8 0)], stats := [(1, ⟨0, [], 0, 0, 0, 0⟩)], s := [(2, 256), (3, 512)] }
     let o (x : List SlotKind) (y : List (Nat × Nat)) : OpInfo := ⟨.opening, 5, x, y⟩
     let u := atIssue (o [] [(8, 8), (0, 2)]) 0 s
     let t : OpInfo := ⟨.opening, 7, [.p], [(83, 1), (80, 1), (74, 6), (52, 22), (0, 32)]⟩
     issues (o [] [(8, 8), (0, 2)]) true 0 (frm false 0 5 0 0 0 0 1) s = true ∧
     issues (o [.zero, .t] [(0, 2)]) true 0 (frm false 0 5 0 97 0 0 1) s = true ∧ (statOf (engOf u 0) 1).isSome = true ∧
     issues (o [.s, .zero, .zero, .s] [(82, 2), (0, 2)]) (caLegal (frm false 0 5 2 0 0 0 1)) 0 (frm false 0 5 2 0 0 0 1) s = true ∧
     issues (o [.s, .s, .zero, .s] [(82, 2), (0, 8)]) (caLegal (frm false 0 5 2 3 0 0 1)) 0 (frm false 0 5 2 3 0 0 1) s = true ∧
     sGet (engOf u 0) 2 = 256 ∧ asyncCount u 0 < 16 ∧
     issues t true 0 (frm false 0 7 65 0 0 0 (4 * 2 ^ 52)) s = true ∧ issues t true 0 (frm false 0 7 65 0 0 0 (2 ^ 83 + 4 * 2 ^ 52 + 64)) (run id) = true ∧
     (boltAt (atIssue t 0 s) 0 0 0 8 2).isSome = true ∧ quiet (atIssue t 0 s) = true ∧
     (engOf s 0).spadBad = [] ∧ (clOf s 0).boltBad = [] ∧ ends (.satt 0 (frm false 0 5 0 0 0 0 1)) s = true ∧
     ends (.sobs 0 (frm false 0 5 0 97 0 0 1)) s = true ∧ ends (.sst 0 (frm false 0 5 2 0 0 0 1)) s = true ∧
     ends (.hupd 0 (frm false 0 5 2 3 0 0 1)) (warm s) = true ∧ ends (.ttest 0 (frm false 0 7 65 0 0 0 (4 * 2 ^ 52))) s = true ∧
     ends (.ttest 0 (frm false 0 7 65 0 0 0 (2 ^ 83 + 4 * 2 ^ 52 + 64))) (run id) = true) := by decide +kernel
theorem witness_ShuttleInstructionsJoinTheQueue :
    (let regs : List (Nat × Word) := [(1, BitVec.ofNat 64 (2 ^ 63 + 4096)), (2, BitVec.ofNat 64 (2 ^ 24 + 7 * 2 ^ 16)), (3, 3), (4, 0)]
     let s := run fun g => { g with t := [(1, vw 2 8 0)], d := [(1, tens)], s := regs }
     let ok (x : List SlotKind) (y : List (Nat × Nat)) (f : Frame) (extra : Bool) (n : List (Word × Nat)) (b : List (Nat × Nat)) : Bool :=
       let o := infoH x y
       let u := atIssue o 0 s
       issues o (caLegal f && extra) 0 f s && shuttleMay u 0 n b && decide (completionWord u (engOf u 0) f = .ok none) && quiet u
     let a : Word := BitVec.ofNat 64 (2 ^ 63 + 4096)
     ok [.td, .s, .s, .s] [(82, 2), (81, 1), (80, 1), (77, 3)] (frm false 0 7 97 1 2 0 (2 ^ 77)) true [(a, areaBytes 2 2)] [] = true ∧
     ok [.d, .s, .s, .s] [(82, 2), (0, 23)] (frm false 0 7 33 1 3 0 64) true [(a, 1600)] [(64, 2048)] = true ∧ shTensorLegal tens = true ∧
     ok [.d, .s, .s, .s] [(82, 2), (80, 2), (79, 1), (63, 16), (62, 1), (0, 23)] (frm false 0 7 33 1 3 0 64) true [(a, 1600)] [(64, 2048)] = true ∧
     ok [.s, .s, .s, .s] [(82, 2), (80, 2), (79, 1), (63, 16), (62, 1), (59, 3), (57, 2), (0, 24)] (frm false 0 7 1 1 1 0 127) true
       [(a, 512), (a, 512), (a, topkBytes 1 (vfmtOf 0).2)] [] = true ∧
     ok [.s, .s, .zero, .s] [(82, 2), (59, 3), (57, 2), (0, 24)] (frm false 0 7 1 1 0 0 127) true [(a, topkBytes 1 (vfmtOf 0).2), (a, 512)] [] = true ∧
     viewFault (viewOf (vw 2 8 0)) false = none ∧ rowTensorLegal tens = true ∧
     ends (.route 0 (frm false 0 7 97 1 2 0 (2 ^ 77))) s = true ∧ ends (.xgath 0 (frm false 0 7 33 1 3 0 64)) s = true ∧
     ends (.xscat 0 (frm false 0 7 33 1 3 0 64)) s = true ∧ ends (.topk 0 (frm false 0 7 1 1 1 0 127)) s = true ∧
     ends (.texp 0 (frm false 0 7 1 1 0 0 127)) s = true) := by decide +kernel

theorem witness_ShuttleAndAsynchronousOperationsComplete :
    (let o : ShOp := ⟨7, 0xE2, 0, 0, 0, 0, 64, 0, BitVec.ofNat 64 (2 ^ 63), 3, tens, 0, 0, none, some (0, 3), false, [], [], none⟩
     let s := modCl (warm rs) 0 fun x => { x with shuttle := [o] }
     let u := modCl rs 0 fun x => { x with shuttle := [{ o with started := true, err := some 65537 }, { o with id := 8 }] }
     blockRuns s = true ∧ s.fc.clFenced = [] ∧ s.fc.blockSafe = false ∧ s.fc.safe = [] ∧
     bwWaits s (engWho s 0 0 0 0).attr = false ∧ (clOf s 0).shuttle = [o] ∧
     ends (.shuttleOperationStart 0) s (fun t => (clOf t 0).shuttle.map (·.started) = [true]) = true ∧ clear u = true ∧
     ends (.shuttleOperationComplete 0) u (fun t => (clOf t 0).shuttle.map (·.id) = [8] && t.reqErrs = [⟨0, 0, 0, 1, 1⟩]) = true) ∧
    (let v : Word := vw 2 8 0
     let o : ShOp := ⟨7, 0xE1, 0, 0, 0, 0, 0, v, 0, 0, 0, 0, 0, some v, none, false, [], [], none⟩
     let s := modCl (warm (run id)) 0 fun x => { x with shuttle := [o] }
     (spadChecked (logicAccess s 4 0 0) 0 (viewOf v).base (viewOf v).extent).2 = false ∧
     ends (.shuttleOperationStart 0) s (fun t => (engOf t 0).pc = 80) = true) ∧
    (let a (k : AKind) (q : Bool) : AsyncOp := ⟨5, 0, 0, 0, 0, k, some (0, 3), q, 0, 1, [], false, false, none, none, none, [], false⟩
     let p (exb : Option (Bool × Nat × Nat)) : AKind := .pref tens 64 0 4 8 true exb
     let s (x : AsyncOp) : State := { run id with asyncs := [x] }
     let l := a (.lput 0 64 128 []) false
     let g := a (.gath tens 64 []) false
     let c := a (p (some (false, 4, 128))) true
     linkComplete (s l) l = true ∧ ends (.asyncOperationComplete 5) (s l) (fun t => t.asyncs = []) = true ∧
     bwWaits (s g) (engWho (s g) 0 0 0 0).attr = false ∧ clear (completeMove (s g) g) = true ∧
     ends (.asyncOperationComplete 5) (s g) (fun t => t.asyncs = []) = true ∧
     ends (.prefetchDequeue 0) (s (a (p none) true)) (fun t => t.asyncs.map (·.queued) = [false]) = true ∧
     boltAt (s c) 0 0 0 128 (condBytes false) = some 1152 ∧ (boltChecked (s c) 0 1152 (condBytes false)).2 = false ∧
     ends (.prefetchDequeue 0) (s c) (fun t => t.asyncs = []) = true ∧
     ends (.prefetchDequeue 0) (modCl (s c) 0 fun x => { x with bolt := [(1152, 1)] }) (fun t => t.asyncs.map (·.queued) = [false]) = true) := by
  decide +kernel
theorem witness_ContextSwitchesFollowRequestsAndQuanta :
    (let s := run fun g => { g with switchReq := true, pc := 80, s := [(1, 5)] }
     let idle := modCtx { rs with sched := { rs.sched with ready := [0] } } 0 fun x => { x with prog := some prog0, home := some 0 }
     switchPoint s (engOf s 0) false = true ∧ boltAsleep s 0 = false ∧ clear (detach s 0) = true ∧
     ends (.contextSwitch 0 none) s (fun t => (engOf t 0).ctx = none) = true ∧
     switchPoint idle (engOf idle 0) true = true ∧ engFencedAny idle 0 = false ∧ canTake idle 0 0 = true ∧ takesNext idle 0 0 = true ∧
     clear (place (detach idle 0) 0 0) = true ∧ ends (.contextSwitch 0 (some 0)) idle (fun t => (ctxOf t 0).eng = some 0) = true) ∧
    (let s := up 0 (modEng { run id with pclk := 100000 } 0 fun g => { g with quantum := some 0 })
     let r := modCtx { s with sched := { s.sched with ready := [1] } } 1 fun x => { x with prog := some prog0 }
     schedUp s 0 = true ∧ (slSchedOf s 0).qbe = 100 ∧
     ends (.quantumExpiry 0) s (fun t => (engOf t 0).quantum = some 180000) = true ∧
     wantsEngine r 1 = true ∧ ctxLc r 1 = false ∧ (regionIn r 0 1 0).isSome = true ∧
     ends (.quantumExpiry 0) r (fun t => (engOf t 0).preempt) = true) := by decide +kernel
theorem witness_BoltRegionsSpillFillAndClear :
    (let s := up 0 (modCtx rs 1 fun x => { x with bolt := 16 })
     let z := modCl (modCtx s 0 fun x => { x with bolt := 128 }) 0 fun x => { x with regions := [(1, ⟨true, false, 1, 0, 32, 32⟩)] }
     let f := modCl s 0 fun x => { x with regions := [(0, ⟨true, false, 0, 0, 0, 32⟩), (3, ⟨false, true, 2, 0, 64, 16⟩)] }
     mayLose z 0 1 = true ∧ regionIn z 0 0 0 = none ∧ shareOf z 0 0 < heldBy z 0 0 + 128 ∧ boltRegion z 0 1 = ⟨true, false, 1, 0, 32, 32⟩ ∧
     ends (.stateRecordSpill 1 0 0) z (fun t => (boltRegion t 0 1).clearing) = true ∧
     regionIn f 0 1 0 = none ∧ (boltRegion f 0 1).valid = false ∧ heldBy f 0 0 + 16 ≤ shareOf f 0 0 ∧
     ends (.stateRecordFill 1 0 1 32) f (fun t => (boltRegion t 0 1).ctx = 1) = true ∧
     ends (.stateRecordFill 1 0 1 112) f (fun t => (boltRegion t 0 1).base = 112) = true ∧ directCtx f 0 = false ∧
     ends (.boltRegionClearDone 0 3) f (fun t => (boltRegion t 0 3).size = 0) = true) := by decide +kernel
/-- A Tally bank whose port 0 holds the operation `o`. -/
def bank (o : TOp) : State := modTally rs 0 fun x => { x with queues := [(0, [o])] }
theorem witness_TallyBankPerformsItsOperations :
    (let o (k : TKind) : TOp := ⟨k, poolBase + 24, 9, 0, 0, .requester, 1⟩
     grantPort rs.cfg 0 (tallyOf (bank (o .read)) 0) = some 0 ∧ tallyCheck (tallyOf (bank (o .add)) 0) (o .add) 1 = 1 ∧ 2 < tallyPorts rs.cfg 0 ∧
     ends (.tallyRead 0 [] 0) (bank (o .read)) (fun t => (tallyOf t 0).ptr = 1) = true ∧
     ends (.tallyRead 0 [(2, o .read)] 0) rs (fun t => (tallyOf t 0).ptr = 3) = true ∧
     ends (.tallyAdd 0 [] 1) (bank (o .add)) (fun t => mget 0 (tallyOf t 0).pool 3 = 9) = true ∧
     ends (.tallySwap 0 [] 0) (bank (o .swap)) (fun t => mget 0 (tallyOf t 0).pool 3 = 9) = true ∧
     ends (.tallyWrite 0 [] 0) (bank (o .write)) (fun t => mget 0 (tallyOf t 0).pool 3 = 9) = true) ∧
    (let o (k : TKind) (f : Nat) : TOp := ⟨k, 16 * f, 9, 0, 0, .none, 1⟩
     ends (.tallyMax 0 [] 0) (bank (o .max 3)) (fun t => (mget Fence.zero (tallyOf t 0).fences 3).value = 9) = true ∧
     ends (.tallyMax 0 [] 1) (bank (o .max 131071)) = true ∧
     ends (.tallySeterr 0 [] 0) (bank (o .seterr 3)) (fun t => (mget Fence.zero (tallyOf t 0).fences 3).state = 2) = true ∧
     ends (.tallySeterr 0 [] 0) (bank (o .seterr 131071)) = true) := by decide +kernel
theorem witness_MemoriesWakeAndTamperErases :
    (let s := modCl (modTally rs 0 fun x => { x with retained := true }) 0 fun x => { x with boltRet := true }
     let w := modCl (modTally rs 0 fun x => { x with retained := true, waking := true }) 0 fun x => { x with boltRet := true, boltWaking := true }
     clear s = true ∧ ends (.memoryWakeRequest true 0) s (fun t => (tallyOf t 0).waking) = true ∧
     ends (.memoryWakeRequest false 0) s (fun t => (clOf t 0).boltWaking) = true ∧
     ends (.memoryWakeDone true 0) w (fun t => !(tallyOf t 0).retained) = true ∧
     ends (.memoryWakeDone false 0) w (fun t => !(clOf t 0).boltRet) = true) ∧
    ends .tamperWipe { rs with wipeDue := true } (fun t => (portOf t 0).lost) = true ∧
    ends .tamperWipeDone (modTally rs 0 fun x => { x with wiping := true }) (fun t => (tallyOf t 0).wiped) = true ∧
    ends .tamperNFall rs (fun t => t.wipeDue) = true ∧
    ends .tamperNRise (modPins rs fun p => { p with tamperN := false }) (fun t => t.pins.tamperN) = true := by decide +kernel

/-- A request of host port 0 in slice 0 for line 0 of sub-channel 0 of memory port 0. -/
def req0 : MemReq := ⟨⟨0, 0, 0, 0, 0, false, 2, 0⟩, 0, 0, 0, some 0⟩
/-- A port whose metadata cache holds a level 1 node that gives line 0's counter block MINOR 1. -/
def parent1 : State := modPort rs 0 fun p => { p with cache := [⟨0, nodeAddr rs 0 1 0 / 128, 0, true, true, false, false, BitVec.ofNat 1024 (2 ^ 64 + 2 ^ 576)⟩] }
/-- A warm block whose counter of line 0 is 1, or at its greatest value. -/
def counted (m : Nat) : State := modPort (warm rs) 0 fun p =>
  { p with cache := p.cache.map fun c => if c.line = nodeAddr rs 0 0 0 / 128 then { c with data := BitVec.ofNat 1024 (m * 2 ^ 64) } else c }
theorem witness_SelvageReadsVerifyBeforeAnswering :
    accessReady rs req0 = true ∧ svCheck rs req0 = none ∧ ends (.selvageRead req0 ⟨[], []⟩ true) rs (fun t => (portOf t 0).tags.length = 1) = true ∧
    ends (.selvageRead req0 ⟨[], []⟩ false) (warm rs) (fun t => presented t = some (.reply req0.attr 0 (some 0))) = true ∧
    (let s := { rs with fc := { rs.fc with subFenced := [0] } }
     svCheck s req0 = some cFENCED_UNIT ∧ ends (.selvageRead req0 ⟨[], []⟩ true) s (fun t => presented t = some (.reply req0.attr cFENCED_UNIT none)) = true) ∧
    (match (getCtr parent1 0 0 0 0 [nodeAddr rs 0 0 0 / 128]).2 with | .fail => true | .node _ => false) = true ∧
    ends (.selvageRead req0 ⟨[], [nodeAddr rs 0 0 0 / 128]⟩ false) parent1 (fun t => presented t = some (.reply req0.attr cPOISON none)) = true ∧
    (ctrRead (BitVec.ofNat 512 (2 ^ 64)) (ctrPlace rs 0 0 false).2 false).2 = false ∧
    ends (.selvageRead req0 ⟨[], [0]⟩ false) (counted 1) (fun t => presented t = some (.reply req0.attr cPOISON none)) = true := by
  decide +kernel
theorem witness_SelvageWritesRaiseTheCounter :
    accessReady (warm rs) req0 = true ∧ nMinor (0 : Node) 0 < 127 ∧ unvisited rs req0 = none ∧ wideMode rs req0 = false ∧
    (getCtr (warm rs) 0 0 0 0 []).2 = .node 0 ∧ (keyFor rs 0).isSome = true ∧
    ends (.selvageFullWrite req0 5 ⟨[], []⟩) (warm rs) (fun t => presented t = some (.reply req0.attr 0 none)) = true ∧
    (let s := { rs with fc := { rs.fc with subFenced := [0] } }
     ends (.selvageFullWrite req0 5 ⟨[], []⟩) s (fun t => presented t = some (.reply req0.attr cFENCED_UNIT none)) = true ∧
     ends (.selvagePartialWrite req0 1 5 ⟨[], []⟩ true) s (fun t => presented t = some (.reply req0.attr cFENCED_UNIT none)) = true) ∧
    ends (.selvagePartialWrite req0 1 5 ⟨[], []⟩ true) rs (fun t => (portOf t 0).tags.length = 1) = true ∧
    ends (.selvagePartialWrite req0 1 5 ⟨[], []⟩ false) (warm rs) (fun t => presented t = some (.reply req0.attr 0 none)) = true ∧
    ends (.selvagePartialWrite req0 1 5 ⟨[], [0]⟩ false) (counted 1) (fun t => presented t = some (.reply req0.attr cPOISON none)) = true ∧
    atOverflow (counted 127) req0 = true ∧ svCheck (counted 127) req0 = none ∧
    ends (.groupReencryption req0 (BitVec.allOnes 128) 5 ⟨[], [0]⟩) (counted 127) (fun t => (portOf t 0).reenc = 1) = true := by decide +kernel
/-- A block with one line in the fabric. -/
def inFabric (d : HopTo) : State := modLinks rs fun l => { l with hops := [⟨0, 0, 0, [], 0, d⟩] }
theorem witness_MetadataFillsAndHopSealsAreVerified :
    (1 < nodesAt rs 0 0 ∧ portReady rs 0 = true ∧ (portOf rs 0).lost = false ∧
     ends (.metadataCacheFill 0 0 0 1 0 ⟨[], []⟩) (warm rs) (fun t => (portOf t 0).cache.length = 8) = true ∧
     (∀ pt : Option (List Byte), clear (openForGroup (modLinks (inFabric (.link 3 (.first 7 0) 0 0 128)) fun l => { l with hops := [] }) 3 (.first 7 0) 0 0 128 pt)
       = true)) ∧
    (let p : HopPart := ⟨3, 0, 1, 0, 128, 0, none, [], none, 4, 9, 0⟩
     let u := modLinks (inFabric (.memory p)) fun l => { l with hops := [] }
     bwWaits u (linkWho u 3 0 1).attr = false ∧ clear (openPart u p (some [])) = true ∧ clear (openPart u p none) = true) := by
  refine ⟨⟨by decide +kernel, by decide +kernel, by decide +kernel, by decide +kernel, ?_⟩, by decide +kernel, by decide +kernel, by decide +kernel⟩
  intro pt
  cases pt <;> rfl

/-- An outstanding tag 5 of sub-channel 0. -/
def tag5 (write : Bool) (wait : Option Waiting) : Tag := ⟨0, 5, 0, write, 0, 0, false, req0.attr, wait, none⟩
/-- Memory port 0 changed by `f`. -/
def port0 (f : MemPort → MemPort) : State := modPort (warm rs) 0 f
/-- A slice 0 with a window of one unit and the key identifiers 0 and 1, of which 0 has reached its budget. -/
def atBudget : State :=
  modKid (modKid (modSlice rs 0 fun x => { x with desc := lmod (lmod x.desc 0 fun w => w + BitVec.ofNat 64 (2 ^ 10)) 8 fun _ => BitVec.ofNat 64 (2 ^ 16) }) 0 fun k => { k with uses := 2 ^ 48 }) 1
    fun k => { k with state := .installed, key := some 7 }
/-- Memory port 0 in a sweep from key identifier 0 to 1. -/
def sweeping (early rgns : List Nat) (next : Nat) : State :=
  modKid (modPort (warm atBudget) 0 fun p => { p with sweeps := [⟨true, 0, 1, next, 0, early, rgns⟩] }) 0 fun k => { k with state := .sweepSource }
theorem witness_RekeySweepsAndRetirementsMoveIdentifiers :
    (sliceOfKey atBudget 0 = some 0 ∧ (kidOf atBudget 0).state = .installed ∧ 2 ^ 48 ≤ (kidOf atBudget 0).uses ∧ sweepActive atBudget 0 = false ∧
     spareFor atBudget 0 0 = some 1 ∧ ends (.sweepStart 0) atBudget (fun t => (kidOf t 1).state = .sweepTarget) = true ∧
     (let s := { atBudget with sv := { atBudget.sv with sweepEn := false } }
      ends (.sweepStart 0) s (fun t => (kidOf t 0).overBudget) = true)) ∧
    (sweepAt (sweeping [] [0] 0) 0).isSome = true ∧ sliceOfKey (sweeping [] [0] 0) 1 = some 0 ∧
    nextSweep (sweeping [] [0] 0) 0 0 ⟨true, 0, 1, 0, 0, [], [0]⟩ = some (0, 0, false) ∧
    ends (.sweepVisit 0 ⟨[], []⟩) (sweeping [] [0] 0) (fun t => (portOf t 0).sweeps.map (·.nextSub) = [1]) = true ∧
    ends (.sweepVisit 0 ⟨[], []⟩) (sweeping [0] [0] 0) (fun t => (portOf t 0).sweeps.map (·.nextSub) = [1]) = true ∧
    ends (.sweepEnSet (.crp true)) rs = true := by decide +kernel
theorem witness_SweepsEndAndRetirementsRun :
    nextSweep (sweeping [] [] 256) 0 0 ⟨true, 0, 1, 256, 0, [], []⟩ = none ∧
    ends (.sweepVisit 0 ⟨[], []⟩) (sweeping [] [] 256) (fun t => (kidOf t 0).state = .retiring) = true ∧
    (let j : RetJob := ⟨[0], [0, 1], 0, 1, false, []⟩
     let s (x : RetJob) : State := { warm rs with retJobs := [x] }
     let j2 : RetJob := { j with size := 0, step2 := true }
     retJobFor (s j) 0 0 = some j ∧ keyBusy (s j) 0 [0] = false ∧
     ends (.keyidRetirement 0 0) (s j) (fun t => t.retJobs.map (·.done) = [[0]]) = true ∧
     ends (.keyidRetirement 0 0) (s j2) (fun t => t.retJobs.map (·.done) = [[0]]) = true ∧
     ends (.keyidRetirementDone 0) (s { j with done := [0] }) (fun t => t.retJobs = []) = true) := by decide +kernel
theorem witness_TheMediumIsScrubbedRetiredAndRepaired :
    (let s := port0 fun p => { p with scrub := { p.scrub with todo := [(0, false), (1, false)] } }
     s.cfg.cap 0 ≠ 0 ∧ ends (.scrubAccess 0 ⟨[], []⟩) s (fun t => (portOf t 0).scrub.line = 1) = true) ∧
    (let s := port0 fun p => { p with retireQ := [(0, 3, 7, false)] }
     let f := modPort s 0 fun p => { p with ret := (List.range 256).map fun i => (i, ⟨true, false, false, i⟩) }
     dueRetirement s 0 = some (0, 3, 7, false) ∧ freeRet s 0 0 = some 0 ∧ groupHeld s 0 0 3 = false ∧
     ends (.groupRetirement 0 ⟨[], []⟩) s (fun t => (portOf t 0).rrWait.length = 1) = true ∧
     dueRetirement f 0 = some (0, 3, 7, false) ∧ freeRet f 0 0 = none ∧
     ends (.groupRetirement 0 ⟨[], []⟩) f (fun t => t.fc.lines.map (·.src) = [14]) = true) ∧
    (let r : RowRep := ⟨0, 0, 3, 7, 0⟩
     ends (.rowRepairRequest 0) (port0 fun p => { p with rrWait := [r] }) (fun t => (portOf t 0).rrOut = [r]) = true ∧
     ends (.rowRepairRequest 0) (port0 fun p => { p with rrWait := [r], rrOut := [r, { r with id := 1 }, { r with id := 2 }] })
       (fun t => (portOf t 0).rrOut.map (·.id) = [0, 1, 2, 3]) = true ∧
     ends (.rowRepairAnswer 0 0 true) (port0 fun p => { p with rrOut := [r] }) (fun t => (portOf t 0).rowRefused = 1) = true ∧
     ends (.rowRepairAnswer 0 0 true) rs (fun t => t.fc.lines.map (·.src) = [16]) = true) := by decide +kernel
theorem witness_PortCompletionsAndReadinessChangeThePort :
    (let s (g : Tag) : State := port0 fun p => { p with tags := [g] }
     clear (s (tag5 true none)) = true ∧
     ends (.memoryCompletion 0 0 5 true false 0) (s (tag5 true none)) (fun t => (portOf t 0).tags = []) = true ∧
     ends (.memoryCompletion 0 0 5 true true 0) (s (tag5 true none)) (fun t => (portOf t 0).retry = 1) = true ∧
     ends (.memoryCompletion 0 0 5 false false 0) (s (tag5 false (some (.read req0)))) (fun t => presented t = some (.reply req0.attr 0 (some 0))) = true ∧
     ends (.memoryCompletion 0 0 5 false true 0) (s (tag5 false (some (.read req0)))) = true ∧
     ends (.memoryCompletion 0 0 5 true false 0) rs (fun t => (portOf t 0).badCpl = 1) = true) ∧
    ends (.mpReadyFall 0) rs (fun t => !(portOf t 0).ready) = true ∧
    ends (.mpReadyRise 0) (port0 fun p => { p with ready := false }) (fun t => (portOf t 0).ready) = true := by decide +kernel

/-- A frame of a group that makes one frame: its transport header, then `data`. -/
def hdr (ty op src lkey seq flen : Nat) : List Byte :=
  bytesOf 48 (BitVec.ofNat 384 (16 + ty + op * 2 ^ 12 + 2 ^ 16 + src * 2 ^ 32 + lkey * 2 ^ 48 + seq * 2 ^ 64 + flen * 2 ^ 176))
/-- The block at endpoint 1 with link port 3 up, a route to endpoint 9 over it, link key 4 and streams with endpoint 9. -/
def linked : State :=
  let s := withKeys rs
  { s with ks := { s.ks with links := [(4, { LinkKey.zero with tx := some 1, rx := some 2 })] }
           links := { s.links with self := 1, ports := [(3, { LPort.reset with up := true })], routes := [(0, ⟨true, 9, 8, 0⟩)],
                                   tx := [⟨9, 4, 5, [], [], 0, false, 0⟩], rx := [⟨9, 4, 6, [8], [], true, 3⟩] } }
/-- A group of LPUT operation 7, SEQ `q`, sent `n` times. -/
def group7 (q n : Nat) : TxGroup := ⟨q, .op 7 0 0 0 0 (.lput link4 64 128 []), 0, 0, 128, 0, 0, n, 0, false, false⟩
/-- The linked block with the verified group `v` waiting. -/
def verified (v : VGroup) : State := modLinks linked fun l => { l with verified := [v], tx := [⟨9, 4, 7, [group7 5 1, group7 6 1], [], 4, false, 3⟩] }
theorem witness_LinkGroupsAreSentGatheredAndVerified :
    (let a : AsyncOp := ⟨7, 0, 0, 0, 0, .lput link4 64 128 [], none, false, 0, 0, [], false, false, none, none, none, [], false⟩
     let s : State := { linked with asyncs := [a] }
     opOn 9 4 a = true ∧ routeTo s 9 = some ⟨true, 9, 8, 0⟩ ∧ a.groups < groupCount 128 false ∧ choosePort s ⟨true, 9, 8, 0⟩ 4 0 = some 3 ∧
     (boltGroup s 0 0 0 64 (groupBytes 128 0) (some [])).2 = .ok (List.replicate 128 0) ∧
     ends (.groupSend 9 4 (some 7)) s (fun t => t.links.tx.map (·.next) = [6]) = true) ∧
    (let good := List.replicate 14 0 ++ hdr 1 1 9 4 7 64 ++ List.replicate 80 0
     frameOk linked 3 (good.drop 14) = true ∧ rxFill linked 3 = 0 ∧ ends (.linkFrameReceive 3 false good) linked (fun t => t.links.gather.length = 1) = true ∧
     ends (.linkFrameReceive 3 true good) linked (fun t => (lportOf t 3).drop = 1) = true ∧
     ends (.linkFrameReceive 3 false (good.take 61)) linked (fun t => (lportOf t 3).drop = 1) = true) ∧
    (let g : Gather := ⟨3, [(0, hdr 1 1 9 4 7 64 ++ List.replicate 80 0)]⟩
     let s := modLinks linked fun l => { l with gather := [g] }
     hFcnt (hdr 1 1 9 4 7 64) = 1 ∧ hOp (hdr 1 1 9 4 7 64) = 1 ∧ seqClass ⟨9, 4, 6, [8], [], true, 3⟩ 6 = 0 ∧
     seqClass ⟨9, 4, 6, [8], [], true, 3⟩ 8 = 0 ∧ seqClass ⟨9, 4, 6, [8], [], true, 3⟩ 262 = 1 ∧ seqClass ⟨9, 4, 6, [8], [], true, 3⟩ 263 = 2 ∧
     windowFault s none 1 4 0 64 = some 1 ∧
     ends (.groupVerify 0) { s with ks := { s.ks with links := [] } } (fun t => (lportOf t 3).drop = 1) = true) ∧
    ends (.ackSend 9 4) linked (fun t => t.links.rx.map (·.ackDue) = [false]) = true := by decide +kernel
/-- Both outcomes of opening a group or a hop-sealed line occur: under the tag that belongs to it, and under another. -/
theorem witness_OpeningSucceedsAndFails (k : Key) (n : BitVec 96) (aad ct : List Byte) :
    (∃ pt, gcmOpen k n aad ct (gcmTag k n aad ct) = some pt) ∧ gcmOpen k n aad ct (gcmTag k n aad ct + 1) = none := by
  refine ⟨⟨_, if_pos rfl⟩, if_neg fun h => ?_⟩
  have h1 := congrArg (· - gcmTag k n aad ct) h
  simp [BitVec.add_comm] at h1
theorem witness_AcknowledgementsRepliesAndTimeoutsAreHandled :
    (let ack : VGroup := ⟨3, hdr 2 0 9 4 5 32, List.replicate 32 0⟩
     hType ack.hdr = 2 ∧ natOfBytes ack.data = 0 ∧
     ends (.ackReceive 0) (verified ack) (fun t => t.links.tx.map (·.cum) = [5]) = true ∧
     ends (.ackReceive 0) (verified { ack with hdr := hdr 2 0 8 4 5 32 }) (fun t => t.links.verified = []) = true) ∧
    (let rsp (q : Nat) : State := verified ⟨3, hdr 1 4 9 4 q 64, List.replicate 64 0⟩
     let err (q : Nat) : State := verified ⟨3, hdr 1 5 9 4 q 16, bytesOf 16 (5 : BitVec 128)⟩
     hOp (hdr 1 4 9 4 7 64) = 4 ∧ ends (.getRspReceive 0) (rsp 6) (fun t => (lportOf t 3).dup = 1) = true ∧
     ends (.getRspReceive 0) (rsp 7) (fun t => t.links.rx.map (·.cum) = [8]) = true ∧ ends (.getRspReceive 0) (rsp 263) = true ∧
     ends (.errReceive 0) (err 6) (fun t => (lportOf t 3).dup = 1) = true ∧ ends (.errReceive 0) (err 263) = true ∧
     ends (.errReceive 0) (err 7) (fun t => t.links.rx.map (·.cum) = [8]) = true) ∧
    (let s (n : Nat) (r : List (Nat × Route)) : State :=
       modLinks (modCk linked fun c => c) fun l => { l with tx := [⟨9, 4, 6, [group7 5 n], [], 4, false, 3⟩], rto := 0, routes := r }
     max 1 (s 17 []).links.retry + 1 ≤ 17 ∧ (s 17 []).links.rto ≤ fclkNow (s 17 []) ∧
     ends (.rtoExpiry 9 4 5) (s 17 []) (fun t => t.links.tx.map (·.failed) = [true]) = true ∧
     ends (.rtoExpiry 9 4 5) (s 16 []) (fun t => t.links.tx.map (·.failed) = [false]) = true) := by decide +kernel
/-- The transfer word whose low half is its CRC passes: the first of a bridge. -/
theorem witness_GoodBridgeTransfer (bytes : List Byte) :
    (crc32c bytes).toNat = field (BitVec.ofNat 64 (crc32c bytes).toNat) 0 32 ∧ field (BitVec.ofNat 64 (crc32c bytes).toNat) 48 16 = 0 := by
  have h := (crc32c bytes).isLt
  simp only [field, BitVec.toNat_ofNat]
  omega
theorem witness_LinkPortsBridgeRoutesAndWindowsChange :
    (lportOf rs 3).up ≠ true ∧ ends (.linkUpChange 3 true) rs (fun t => (lportOf t 3).up) = true ∧
    rs.cfg.halves = 2 ∧ blockRuns rs = true ∧ rs.fc.blockSafe = false ∧ (mget Bridge.reset rs.bridge 0).expect = 0 ∧ field (BitVec.ofNat 64 (2 ^ 48)) 48 16 ≠ 0 ∧
    ends (.d2dErr 0) { rs with cfg := { rs.cfg with d2d := true } } (fun t => t.fc.lines.map (·.src) = [9]) = true ∧
    secReach sec linked = true ∧ ends (.routeWrite sec 1 0 (BitVec.ofNat 64 (2 ^ 63 + 9 * 2 ^ 32))) linked (fun t => t.links.routes = linked.links.routes) = true ∧
    ends (.routeWrite sec 1023 0 (BitVec.ofNat 64 (2 ^ 63 + 8 * 2 ^ 32))) linked (fun t => (mget Route.zero t.links.routes 1023).valid) = true ∧
    (let s : State := { rs with pclk := 4096, bw := { rs.bw with masters := [(0, { BwMaster.zero with used := 5 })] } }
     mget 0 s.bw.winAt 0 + 4096 ≤ fclkNow s ∧ mwf BwMaster.zero s.bw.masters = true ∧
     ends (.regulationWindow 0) s (fun t => (mget BwMaster.zero t.bw.masters 0).used = 0) = true) := by decide +kernel

/-- Slice 0 active, with `d` staged for the slice manager. -/
def staged (d : List Word) : State := { up 0 rs with slm := { rs.slm with stage := (List.range 16).map fun k => (k, d.getD k 0) } }
/-- The descriptor of direct mode with a window of one unit on one sub-channel and with one engine. -/
def small : List Word := lmod (lmod (lmod (lmod (directDesc lu48 1) 2 fun _ => 1) 3 fun _ => 0) 6 fun _ => 1) 7 fun _ => 0
/-- A slice 0 of that descriptor, with `d` staged. -/
def smallSlice (d : List Word) (st : SlState) : State := modSlice (staged d) 0 fun x => { x with desc := small, state := st }
theorem witness_SliceManagerCommandsChangeNothingOrDoTheirOperation :
    cmdReach sec rs = true ∧ (rs.slm.busy = false ∧ clear rs = true) ∧
    (let d (op n : Nat) (s : State) := stagedDesc (slmTaken op n s).slm.captured
     buildBarred (slmTaken 1 1 rs) 1 (d 1 1 rs) = true ∧ ends (.build sec 1) rs (fun t => t.slm.due = some 1) = true ∧
     ends (.build sec 16) rs = true ∧
     buildBarred (slmTaken 1 0 (smallSlice small .free)) 0 (d 1 0 (smallSlice small .free)) = false ∧
     descResult (slmTaken 1 0 (smallSlice small .free)) 0 (d 1 0 (smallSlice small .free)) = (0, none) ∧
     ends (.build sec 0) (smallSlice small .free) (fun t => t.slm.due = some 0 && (sliceOf t 0).state = .active) = true ∧
     (descResult (slmTaken 1 0 (smallSlice [] .free)) 0 (d 1 0 (smallSlice [] .free))).1 = 6 ∧
     ends (.build sec 0) (smallSlice [] .free) (fun t => t.slm.due = some 6) = true) ∧
    (let d (n : Nat) (s : State) := stagedDesc (slmTaken 2 n s).slm.captured
     let m := lmod small 2 fun _ => 2
     let f := lmod small 8 (· + 1)
     changeBarred (slmTaken 2 0 rs) 0 (d 0 rs) = true ∧ ends (.change sec 0) rs (fun t => t.slm.due = some 1) = true ∧
     changeBarred (slmTaken 2 0 (smallSlice f .active)) 0 (d 0 (smallSlice f .active)) = false ∧
     fixedBits (d 0 (smallSlice f .active)) ≠ fixedBits (descOf (smallSlice f .active) 0) ∧
     ends (.change sec 0) (smallSlice f .active) (fun t => t.slm.due = some 7) = true ∧
     changeBarred (slmTaken 2 0 (smallSlice m .active)) 0 (d 0 (smallSlice m .active)) = false ∧
     fixedBits (d 0 (smallSlice m .active)) = fixedBits (descOf (smallSlice m .active) 0) ∧
     descResult (slmTaken 2 0 (smallSlice m .active)) 0 (d 0 (smallSlice m .active)) = (0, none) ∧
     ends (.change sec 0) (smallSlice m .active) (fun t => (sliceOf t 0).state = .changing && (engOf t 0).removing) = true) := by decide +kernel
theorem witness_SliceManagerCommandsOnSlicesAndRegions :
    ends (.dissolve sec 0) { smallSlice [] .active with tally := [] } (fun t => (sliceOf t 0).state = .dissolving) = true ∧
    ends (.dissolve sec 1) rs (fun t => t.slm.due = some 1) = true ∧ (descOf rs 0).length = 16 ∧ (descOf rs 15).length = 16 ∧
    ends (.readDesc sec 0) rs (fun t => mget 0 t.slm.stage 2 ≠ 0) = true ∧ ends (.readDesc sec 15) rs (fun t => t.slm.due = some 0) = true ∧
    ends (.regionRead sec 0) rs (fun t => mget 0 t.slm.stage 1 ≠ 0) = true ∧ ends (.regionRead sec 5) rs = true ∧
    (let v : Word := BitVec.ofNat 64 (2 ^ 63 + 2 ^ 53)
     let s (w0 w1 : Word) : State := { smallSlice [w0, w1] .active with regions := [] }
     regionBarred (slmTaken 5 3 (s v 1)) 3 true (regionFields v 1) = false ∧ regionBad (slmTaken 5 3 (s v 1)) 3 (regionFields v 1) = false ∧
     ends (.regionWrite sec 3) (s v 1) (fun t => (regionOf t 3).isSome) = true ∧
     regionBad (slmTaken 5 3 (s v 2)) 3 (regionFields v 2) = true ∧ ends (.regionWrite sec 3) (s v 2) (fun t => t.slm.due = some 6) = true ∧
     regionBarred (slmTaken 5 3 (s 0 0)) 3 false (regionFields 0 0) = false ∧ ends (.regionWrite sec 259) (s 0 0) (fun t => t.slm.due = some 0) = true ∧
     regionBarred (slmTaken 5 3 (s (v + 2 ^ 58) 1)) 3 true (regionFields (v + 2 ^ 58) 1) = true ∧
     ends (.regionWrite sec 3) (s (v + 2 ^ 58) 1) (fun t => t.slm.due = some 1) = true) := by
  decide +kernel
theorem witness_SlicesReleaseEnginesAndBecomeFree :
    (let s := modSlice (modEng (run id) 0 fun g => { g with removing := true, switchReq := true }) 0 fun x => { x with releasing := [0] }
     clear (detach s 0) = true ∧ ends (.changeEngineRelease 0) s (fun t => (engOf t 0).ctx = none && (sliceOf t 0).releasing = []) = true) ∧
    (let s := { smallSlice [] .dissolving with ctxs := [], slm := { rs.slm with buildLocked := true } }
     dissolved s 0 = true ∧ drainedOf s 0 = true ∧ ends (.dissolveDrainDone 0) s (fun t => (sliceOf t 0).state = .free && t.retJobs.length = 1) = true) := by
  decide +kernel

/-- Queue 3 of the direct context of host port 0 with one packet. -/
def queue3 : Queue := ⟨false, false, 0, 0, 0, 0, 1, 0, 0, 0, 0, 0, false, none, none, false, false, none, 0⟩
/-- The ring of host port 0 with the packet `ws` and every feature agreed. -/
def ring0 (ws : List Word) : PortRing := { PortRing.zero with en := true, tail := 1, agreed := some (2 ^ 128 - 1), pkt := some ws }
/-- The block after reset with queue 3 as `x` and the ring of host port 0 as `y`. -/
def ringed (x : Queue) (y : PortRing) : State := { rs with queues := [(3, x)], rings := [(0, y)] }
theorem witness_DoorbellsRingsAndHeadWritesMoveTheirCounts :
    (let s := ringed queue3 (ring0 [])
     portDead (awake s) 0 = false ∧ ends (.queueDoorbell 0 3 2) s (fun t => (queueOf t 3).map (·.tail) = some 2) = true ∧
     ends (.queueDoorbell 0 3 64) s (fun t => (queueOf t 3).map (·.tail) = some 64) = true ∧
     ends (.queueDoorbell 0 3 65) s (fun t => (ringOf t 0).badtail = 1) = true ∧ ends (.queueDoorbell 1 3 2) s (fun t => (ringOf t 1).foreign = 1) = true ∧
     ends (.queueDoorbell 0 4 2) s (fun t => (ringOf t 0).foreign = 1) = true ∧
     ends (.portRingDoorbell 0 2) s (fun t => (ringOf t 0).tail = 2) = true ∧ ends (.portRingDoorbell 0 64) s (fun t => (ringOf t 0).tail = 64) = true ∧
     ends (.portRingDoorbell 0 65) s (fun t => (ringOf t 0).badtail = 1) = true ∧ ends (.portRingDoorbell 3 2) s = true) ∧
    ends (.portRingEnable 0 true 12) rs (fun t => (ringOf t 0).en) = true ∧ ends (.portRingEnable 3 true 0) rs (fun t => (ringOf t 3).en) = true ∧
    (let s := modHport rs 0 fun h => { h with tags := [⟨0, .ring, 0, 64, 0, 1, List.replicate 64 0⟩] }
     ends (.portRingFetch 0) s (fun t => (ringOf t 0).pkt = some (List.replicate 8 0)) = true) ∧
    (let s := warm (ringed { queue3 with head := 1 } (ring0 []))
     ends (.headWrite 3) s (fun t => (queueOf t 3).map (·.headSeen) = some 1) = true) := by decide +kernel
/-- The words of a packet of type `ty` with the other bits of word 0 as `w0` gives them. -/
def pkt (ty w0 w1 w2 : Nat) : List Word := [BitVec.ofNat 64 (ty + w0 * 2 ^ 16), BitVec.ofNat 64 w1, BitVec.ofNat 64 w2, 0, 0, 0, 0, 0]
/-- Queue 3, as `x`, takes the packet `ws`, `run` of it ends, and then HEAD is `h` and `p` holds. -/
def queueRuns (run : RingId → List Word → Instr) (ws : List Word) (h : Nat) (s : State := rs) (x : Queue := queue3) (p : State → Bool := fun _ => true) :
    Bool :=
  let u : State := { s with queues := minsert s.queues 3 x, rings := [(0, ring0 [])] }
  queueTakes u 3 x ws && ends (run (.queue 3) ws) u fun t => (queueOf t 3).map (·.head) = some h && p t
/-- The ring of port 0 takes the packet `ws`, `run` of it ends, and then HEAD is `h`. -/
def portRuns (run : RingId → List Word → Instr) (ws : List Word) (h : Nat) (s : State := rs) (p : State → Bool := fun _ => true) : Bool :=
  let u : State := { s with rings := [(0, ring0 ws)] }
  portTakes u 0 ws && ends (run (.port 0) ws) u fun t => (ringOf t 0).head = h && p t
theorem witness_WarpPacketsPassWithTheirEffect :
    fenceMay rs (queuePkt rs 3 queue3 []) 5 = true ∧ fenceMay rs (portPkt rs 0 []) 4095 = true ∧ tallyReady rs = true ∧ drainedCtx rs 0 = true ∧
    queueRuns .warpNop (pkt 0 0 0 0) 1 = true ∧ queueRuns .signal (pkt 0x20 0 5 7) 1 = true ∧ queueRuns .error (pkt 0x22 0x8000 5 0) 1 = true ∧
    queueRuns .wait (pkt 0x21 0 5 7) 0 = true ∧ queueRuns .invalidate (pkt 0x30 0 65536 2) 1 = true ∧ queueRuns .invalidate (pkt 0x30 1 0 0) 1 = true ∧
    portRuns .warpNop (pkt 0 0 0 0) 1 = true ∧ portRuns .signal (pkt 0x20 0 5 7) 1 = true ∧ portRuns .error (pkt 0x22 0xFFFF 5 0) 1 = true ∧
    portRuns .wait (pkt 0x21 0 5 7) 1 = true ∧
    ends (.waitRelease (.queue 3) 0) (ringed { queue3 with held := some ⟨5, 7, some 0⟩ } (ring0 [])) (fun t => (queueOf t 3).map (·.head) = some 1) = true ∧
    ends (.waitRelease (.queue 3) 0) (ringed { queue3 with held := some ⟨5, 7, some 9⟩ } (ring0 [])) (fun t => (queueOf t 3).map (·.code) = some 9) = true ∧
    ends (.waitRelease (.port 0) 0) (ringed queue3 { ring0 [] with waits := [(⟨5, 7, some 0⟩, ⟨0, 64, false⟩)] }) (fun t => (ringOf t 0).waits = []) = true := by
  decide +kernel
theorem witness_LaunchesAndNegotiationComplete :
    queueRuns .launch (pkt 0x10 1 5 7) 0 = true ∧ portRuns .launch (pkt 0x10 1 5 7) 0 = true ∧
    (let s := ringed queue3 { ring0 (pkt 0x80 0 255 0) with agreed := none }
     portTakes s 0 (pkt 0x80 0 255 0) = true ∧ ends (.features (.port 0) (pkt 0x80 0 255 0)) s (fun t => (ringOf t 0).agreed.isSome) = true) := by
  decide +kernel
theorem witness_PortRingPacketsManageObjects :
    (let q : State := { rs with queues := [(3, queue3)] }
     let m : State := { rs with memObjs := [(0, ⟨0, 0, 0, 0, 65536⟩)] }
     portMay rs 0 0 = true ∧ (ctxOf rs 5).state = .free ∧ sliceLive (up 0 rs) 0 = true ∧ runnable rs 0 = true ∧ (regionAt rs 0 0).isSome = true ∧ giveTally rs 0 5 0 ≠ none ∧
     freeFence rs 1 = some 131072 ∧ ctxFault rs (portPkt rs 0 []) 0 0 true = none ∧
     portRuns .ctxCreate [BitVec.ofNat 64 (0x81 + 5 * 2 ^ 16 + 2 ^ 32), 0, 0, 0, 1, 0, 0, 0] 1 (up 0 rs) (fun t => (ctxOf t 5).state = .live) = true ∧
     portRuns .qCreate (pkt 0x83 0 0 0) 1 rs (fun t => (queueOf t 0).isSome) = true ∧
     portRuns .qCreate (pkt 0x83 (12 * 2 ^ 28) 0 0) 1 q (fun t => (queueOf t 0).map (·.sizeCode) = some 12) = true ∧
     portRuns .qDestroy (pkt 0x84 3 0 0) 1 { rs with queues := [(3, { queue3 with tail := 0 })] } (fun t => t.queues = []) = true ∧
     portRuns .qReset (pkt 0x85 3 0 0) 1 { rs with queues := [(3, { queue3 with err := true })] } (fun t => t.queues = [(3, queue3)]) = true ∧
     portRuns .fenceAlloc (pkt 0x86 (2 ^ 24) 9 0) 1 rs (fun t => (fenceOf t 131072).value = 9) = true ∧
     portRuns .fenceFree (pkt 0x87 0 5 0) 1 rs (fun t => (fenceOf t 5).state = 0) = true ∧
     portRuns .fenceClear (pkt 0x88 0 5 0) 1 = true ∧
     portRuns .fenceClear (pkt 0x88 0 5 0) 1 (modTally rs 0 fun x => { x with fences := [(5, ⟨0, 2, 9, 0, 0, 0, 0⟩)] }) (fun t => (fenceOf t 5).state = 1) = true ∧
     portRuns .memObj (pkt 0x89 0 65536 65536) 1 m (fun t => t.memObjs.length = 2) = true ∧
     portRuns .memFree (pkt 0x8A 0 0 0) 1 m (fun t => t.memObjs = []) = true) := by decide +kernel
theorem witness_TeardownsReleaseTheContextAndRaiseItsGeneration :
    portRuns .ctxDestroy (pkt 0x82 0 0 0) 0 { rs with tally := [] } (fun t => (ctxOf t 0).state = .tearing) = true ∧
    (let s := modCtx { rs with tally := [], clusters := [], cfg := { lu48 with clusters := 2, halves := 1 } } 0 fun x => { x with state := .tearing, tear := some ⟨4, 0, cTORN_DOWN, none, false, false⟩ }
     drained s 0 = true ∧ ends (.teardownDrainDone 0) s (fun t => (ctxOf t 0).gen = 1) = true) := by decide +kernel

theorem witness_StepsAndGangsOpenAndClose :
    otherStep (ringed queue3 (ring0 [])) 0 3 = false ∧ rodOf rs 3 = none ∧
    queueRuns .stepOpen (pkt 1 0 0 0) 1 (run id) queue3 (fun t => (queueOf t 3).map (·.stepOpen) = some true) = true ∧
    queueRuns .stepOpen (pkt 1 0 0 0) 0 rs queue3 (fun t => t.sched.ready = [0]) = true ∧
    queueRuns .stepClose (pkt 2 0 0 0) 1 rs { queue3 with stepOpen := true } (fun t => (ctxOf t 0).acc.steps = 1) = true ∧
    (let s : State := { warm rs with queues := [(0, queue3)], rings := [(0, ring0 [])] }
     queueTakes s 0 queue3 (pkt 1 1 0 0) = true ∧ gangListOk s 0 0 (gangList [0, 0] 1) = true ∧
     (memRead s (engWho s (lowestEng s 0 (homeCluster s 0)) 0 0 0) .va 0 2).2 = .ok [0, 0] ∧
     ends (.stepOpen (.queue 0) (pkt 1 1 0 0)) s (fun t => (queueOf t 0).map (·.gang) = some (some ([0], 0))) = true) ∧
    (let m (c : Nat) : Queue := { queue3 with ctx := c, gang := some ([0, 1], 0) }
     let s : State := { rs with queues := [(0, m 0), (1, m 1)] }
     gangOf s 0 = some ([0, 1], 0) ∧ (gangCtxs s [0, 1]).eraseDups.length = 2 ∧ gangReady s [0, 1] 0 = true ∧ gangReady s [0, 1] 1 = true ∧
     gangPlace s 0 0 = true ∧ gangPlace s 1 1 = true ∧
     ends (.gangStart 0 [0, 1]) s (fun t => (engOf t 1).ctx = some (1, 0) && (queueOf t 1).map (·.stepOpen) = some true) = true ∧
     800000 * (slSchedOf s 0).gangWait ≤ 8000000 ∧
     ends (.gangTimeout 0) { s with pclk := 8000000 } (fun t => (queueOf t 1).map (·.code) = some cGANG_TIMEOUT) = true) := by decide +kernel
theorem witness_RodsAndBeadsFollowTheirPackets :
    (shAddr 0).isSome = true ∧ queueRuns .rodConfig (pkt 0x40 0 65536 0) 1 rs queue3 (fun t => t.sched.rods.length = 1) = true ∧
    (let b (n : Nat) : State := { rs with sched := { rs.sched with sl := [(0, { SlSched.zero with beadQuota := 2 })], beads := [(5, { Bead.zero with state := n })], order := [5] } }
     queueRuns .beadAlloc (pkt 0x41 0 0 0) 1 (warm (b 1)) queue3 (fun t => (beadOf t 0).state = 1) = true ∧
     queueRuns .beadUpdate (pkt 0x42 5 9 8) 1 (b 1) queue3 (fun t => (beadOf t 5).npages = 9) = true ∧
     queueRuns .beadUpdate (pkt 0x42 5 9 8) 1 (b 2) queue3 (fun t => (beadOf t 5).upd = some (8, 9, 0)) = true ∧
     queueRuns .beadLeave (pkt 0x43 5 0 0) 1 (b 3) queue3 (fun t => (beadOf t 5).state = 4) = true ∧
     queueRuns .beadLeave (pkt 0x43 5 0 0) 1 (b 2) queue3 (fun t => (beadOf t 5).leaveReq) = true ∧
     queueRuns .beadFree (pkt 0x44 5 0 0) 1 (b 4) queue3 (fun t => (beadOf t 5).state = 0) = true ∧
     queueRuns .beadFree (pkt 0x44 5 0 0) 1 (b 5) queue3 (fun t => (beadOf t 5).state = 0) = true) ∧
    quotaSum rs 0 65536 = 65536 ∧ ends (.slcfgWrite sec 0 (BitVec.ofNat 64 (2 ^ 48))) rs (fun t => (slSchedOf t 0).qlc = 0) = true ∧
    quotaSum rs 15 0 = 65536 ∧ ends (.slcfgWrite sec 15 0) rs = true := by
  decide +kernel
theorem witness_FirmwareImagesAndProcessorsChangeState :
    (let s (f : Fw) : State := { rs with fw := f }
     pathUp (awake rs) sec = true ∧ pathSecure rs.cfg sec = true ∧ portDown (awake rs) 3 = false ∧
     ends (.load sec 3) (s { Fw.reset with len := 8192 }) (fun t => t.fw.op = some (1, 3)) = true ∧
     ends (.load sec 0) (s { Fw.reset with state := 3 }) (fun t => t.fw.state = 1) = true ∧
     ends (.stage sec 0) (s { Fw.reset with state := 2 }) (fun t => t.fw.op = some (2, 0)) = true ∧
     emergOver rs = true ∧ ends (.activate sec) (s { Fw.reset with state := 2, staged := 2 }) (fun t => t.fw.staged = 4) = true ∧
     ends (.activate sec) (modPins (s { Fw.reset with state := 2, staged := 2 }) fun p => { p with thermN := false }) (fun t => t.fw.staged = 3) = true ∧
     ends (.discard sec) (s { Fw.reset with staged := 2 }) (fun t => t.fw.staged = 0) = true ∧
     ends (.discard sec) (s { Fw.reset with staged := 3 }) (fun t => t.fw.staged = 0) = true ∧
     ends .deferredActivationStart (s { Fw.reset with staged := 3 }) (fun t => t.fw.staged = 4) = true ∧
     (let img := List.replicate 64 (0 : Byte)
      let u := modHport (s { Fw.reset with busy := true, len := 64, op := some (1, 0) }) 0 fun h => { h with tags := [⟨0, .firmware, 0, 64, 0, 1, img⟩] }
      readOut u 0 .firmware img = true ∧ ends (.imageReadDone img) u (fun t => t.fw.result = 1) = true) ∧
     procUp (up 0 rs) 7 = true ∧ ends (.fwWatchdogExpiry 7) (up 0 rs) (fun t => (procOf t 7).pstate = 2) = true ∧
     ends (.fwProcessorCrash 6) (up 0 rs) (fun t => (procOf t 6).pstate = 2) = true ∧
     (let p (n : Nat) : State := modProc rs 6 fun x => { x with pstate := n }
      ends (.fwProcessorCrash 6) (p 2) (fun t => (procOf t 6).restarts = 1) = true ∧
      ends (.fwRestartDone 6 true) (p 2) (fun t => (procOf t 6).pstate = 1) = true ∧
      ends (.fwRestartDone 6 false) (p 2) (fun t => (procOf t 6).pstate = 0) = true)) := by decide +kernel
/-- Slice 0 active with link key identifiers 4 and 5 and no sweep of keys, and KS_STAGE0 as given. -/
def keyed (w0 : Nat) : State :=
  let s := up 0 (withKeys rs)
  { s with ks := { s.ks with stage := [(0, BitVec.ofNat 64 w0)] }, sv := { s.sv with sweepEn := false }, regions := [], tally := [] }
theorem witness_KeyStoreCommandsInstallEraseAndReport :
    cmdReach sec (keyed 0) = true ∧ (keyed 0).ks.root = 1 ∧ tallyReady (keyed 0) = true ∧
    openFault (keyed 0) 0 0 0 = some 3 ∧ ends (.importKey sec) (keyed 0) (fun t => t.ks.due = some 3) = true ∧
    ends (.generate sec) (keyed 0) (fun t => t.ks.due = some 3) = true ∧ ends (.erase sec) (keyed 0) (fun t => t.ks.due = some 3) = true ∧
    openFault (keyed (2 ^ 60)) 1 0 0 = none ∧ kidHeld (keyed (2 ^ 60)) 0 false = false ∧
    ends (.generate sec) (keyed (2 ^ 60)) (fun t => t.ks.due = some 0 && (kidOf t 0).key.isSome) = true ∧
    ends (.erase sec) (keyed (2 ^ 60)) (fun t => (kidOf t 0).state = .retiring) = true ∧
    ends (.erase sec) (modKid (keyed (2 ^ 60)) 0 fun _ => Kid.zero) (fun t => t.ks.due = some 1) = true ∧
    ends (.erase sec) (modKid (keyed (2 ^ 60)) 0 fun k => { k with state := .retiring }) (fun t => t.ks.due = some 6) = true ∧
    openFault (keyed (2 ^ 61 + 4)) 2 0 4 = none ∧ ends (.erase sec) (keyed (2 ^ 61 + 4)) (fun t => t.ks.due = some 1) = true ∧
    ends (.erase sec) (modLkey (keyed (2 ^ 61 + 4)) 4 fun k => { k with tx := some 1 }) (fun t => (lkeyOf t 4).tx = none) = true ∧
    ends (.erase sec) (keyed (3 * 2 ^ 60 + 5)) (fun t => t.ks.due = some 1) = true ∧
    ends (.erase sec) (modLkey (keyed (3 * 2 ^ 60 + 5)) 5 fun k => { k with rx := some 1 }) (fun t => (lkeyOf t 5).rx = none) = true ∧
    ends (.ownerBind sec) rs (fun t => t.ks.due = some 1) = true ∧ ends (.certLoad sec) (keyed (248 * 65536 + 7944)) (fun t => t.ks.due = some 0) = true ∧
    ends (.devidRead sec) (keyed 0) (fun t => t.ks.due = some 0) = true ∧ ends (.pikRead sec) (keyed 0) (fun t => t.ks.due = some 0) = true := by
  decide +kernel
theorem witness_KeyStoreEventsAndScans :
    ends .drbgReseed { rs with ks := { rs.ks with drbg := 2 ^ 20 } } (fun t => t.ks.drbg = 0) = true ∧
    ends .entropyHealthFail rs (fun t => t.ks.entropyFail) = true ∧ slotHolds rs 0 = true ∧
    ends (.slotScan 0 true true) rs (fun t => t.ks.slotFail = 0) = true ∧ ends (.slotScan 0 false true) rs (fun t => t.ks.slotFail = 1) = true ∧
    ends (.slotScan 0 false false) rs (fun t => (kidOf t 0).key = none) = true ∧ ends (.slotScan 1615 false false) (modKsSlice rs 15 fun x => { x with stream := some 1 }) = true := by
  decide +kernel

/-- Firmware runs, algorithms are negotiated at port 0, and its mailbox holds a request whose first bytes are `bs`. -/
def mailbox (kind : Nat) (bs : List Byte) (spdm : Nat := 3) (cert : Option (List Byte) := some (List.replicate 8 1)) : State :=
  let s := modHk (up 0 rs) 0 fun h => { h with mbxBusy := true, kind := kind, reqLen := 64, req := bwrite [] 0 bs, spdm := spdm }
  { s with ks := { s.ks with cert := cert } }
/-- The request `code` completes over `s`. -/
def answers (i : Instr) (s : State) (code : Nat) : Bool := spdmAt s 0 code && mailboxFull s && ends i s fun t => (hkOf t 0).mbxDone
theorem witness_MailboxRequestsAreAnsweredInOrder :
    answers (.getVersion 0) (mailbox 1 [0x13, 0x84]) 0x84 = true ∧ answers (.getCapabilities 0) (mailbox 1 [0x13, 0xE1] 1) 0xE1 = true ∧
    answers (.getCapabilities 0) (mailbox 1 [0x13, 0xE1]) 0xE1 = true ∧ answers (.negotiateAlgorithms 0) (mailbox 1 [0x13, 0xE3] 2) 0xE3 = true ∧
    answers (.negotiateAlgorithms 0) (mailbox 1 [0x13, 0xE3] 1) 0xE3 = true ∧ answers (.getDigests 0) (mailbox 1 [0x13, 0x81]) 0x81 = true ∧
    answers (.getDigests 0) (mailbox 1 [0x13, 0x81] 2) 0x81 = true ∧ answers (.getCertificate 0) (mailbox 1 [0x13, 0x82] 3 none) 0x82 = true ∧
    answers (.getCertificate 0) (mailbox 1 [0x13, 0x82, 0, 0, 7, 0, 255, 255]) 0x82 = true ∧
    answers (.spdmChallenge 0) (mailbox 1 [0x13, 0x83, 0, 0]) 0x83 = true ∧ answers (.spdmChallenge 0) (mailbox 1 [0x13, 0x83, 0, 0xFF]) 0x83 = true ∧
    (measBlocks (mailbox 1 [0x13, 0xE0, 1, 1]) 0 1).isSome = true ∧ answers (.getMeasurements 0 none []) (mailbox 1 [0x13, 0xE0, 1, 1]) 0xE0 = true ∧
    (measBlocks (mailbox 1 [0x13, 0xE0, 0, 255]) 0 255).isSome = true ∧ answers (.getMeasurements 0 none []) (mailbox 1 [0x13, 0xE0, 0, 255]) 0xE0 = true ∧
    answers (.keyExchange 0) (mailbox 1 [0x13, 0xE4]) 0xE4 = true := by decide +kernel
/-- A session at port 0. -/
def sess (done : Bool) (bound : Option (Nat × Nat)) : Session := ⟨0, done, bound, some (0, 1, 2, 3, 4), 0, 0, 5, 6⟩
/-- Session 7 with a message in the mailbox of port 0, slice 0 without live contexts, with the memory key identifiers of owner 0 as its sub-range. -/
def secured (x : Session) : State :=
  let s := mailbox 2 [0, 0, 7, 0]
  let s := modKsSlice { s with ks := { s.ks with sessions := [(7, x)] }, ctxs := [], tally := [] } 0 fun k => { k with memSub := [(0, (0, 1))] }
  { s with sv := { s.sv with sweepEn := false } }
/-- That a key hash, a signature or verify data agrees is a value of an opaque function: no state shows it, and neither does a test. -/
theorem witness_KeyDeliveryMessagesAreAnsweredWithTheirEffect :
    (let s := secured (sess true none)
     securedAt s 0 7 true = true ∧ tallyReady s = true ∧ sliceLive s 0 = true ∧ portMay s 0 0 = true ∧
     ends (.close 0 7 []) s (fun t => t.ks.sessions = []) = true ∧ ends (.keyPut 0 7 []) s = true ∧ ends (.measure 0 7 []) s = true) ∧
    (let s := secured (sess true (some (0, 0)))
     let put (id : Byte) : List Byte := [1, id, 0] ++ List.replicate 32 9
     inRange (subRange s 1 0 0).1 (subRange s 1 0 0).2 0 = true ∧ inRange (subRange s 1 0 0).1 (subRange s 1 0 0).2 1 = false ∧
     (put 0).length = 35 ∧ kidHeld s 0 false = false ∧ ends (.keyPut 0 7 (put 0)) s (fun t => (kidOf t 0).owner = 0) = true ∧
     ends (.keyPut 0 7 (put 1)) s = true ∧ ends (.keyPut 0 7 (put 0)) (modKid s 0 fun k => { k with state := .retiring }) = true ∧
     ends (.keyErase 0 7 [1, 0, 0]) s = true ∧ (programPlain s 0).2 = some [] ∧ clear (programPlain s 0).1 = true ∧
     ends (.measure 0 7 []) s (fun t => (ksSlice t 0).measured) = true ∧ ends (.accept 0 7 []) s (fun t => (ksSlice t 0).accepted = 0) = true ∧
     ends (.reportDetail 0 7 [0, 0, 0]) s = true ∧ ends (.reportDetail 0 7 [1, 0, 0]) s = true) ∧
    (let s := secured (sess false none)
     securedAt s 0 7 false = true ∧ (([0, 0xE5] : List Byte).getD 1 0).toNat = 0xE5) := by decide +kernel
/-- A bounce command of 64 bytes to or from slice physical address 0 in session slot 0. -/
def bounce (dir seq : Nat) : Bounce := [BitVec.ofNat 64 (1 + dir * 2 ^ 8 + 64 * 2 ^ 32), BitVec.ofNat 64 seq, 0, 0, 5, 9, 0, 0]
/-- That command at the head of the queue of port 0, whose bytes have arrived. -/
def bouncing (b : Bounce) (moved : Bool) (x : Session := sess true (some (0, 0))) : State :=
  let s := modHk (warm { secured x with tally := rs.tally }) 0 fun h => { h with bncQueue := [b], bncMoved := moved }
  modHport s 0 fun h => { h with tags := [⟨0, .bounce, 0, 80, 0, 1, List.replicate 80 0⟩] }
theorem witness_BounceCommandsMoveAndSignal :
    bounceLegal (bounce 0 1) = true ∧ bounceLegal (bounce 1 1) = true ∧ bounceWaits (bouncing (bounce 0 0) false) 0 (bounce 0 0) = false ∧
    bounceFault (bouncing (bounce 0 0) false) 0 (bounce 0 0) = some 2 ∧ readOut (bouncing (bounce 0 0) false) 0 .bounce (List.replicate 80 0) = true ∧
    ends (.bounceH2d 0 (List.replicate 80 0)) (bouncing (bounce 0 0) false) (fun t => (hkOf t 0).cause = 2) = true ∧
    ends (.bounceD2h 0) (bouncing (bounce 1 1) false (sess true none)) (fun t => (hkOf t 0).cause = 3) = true ∧
    bounceFault (bouncing (bounce 0 1) false) 0 (bounce 0 1) = none ∧ (bounceSession (bouncing (bounce 0 1) false) 0 (bounce 0 1)).isSome = true ∧
    (let s := bouncing (bounce 0 1) false
     clear (memWrite s (hostWho s 0 0) .spa 0 (List.replicate 64 0)).1 = true ∧ (memWrite s (hostWho s 0 0) .spa 0 (List.replicate 64 0)).2 = none) ∧
    bounceFault (bouncing (bounce 1 1) false) 0 (bounce 1 1) = none ∧
    (let s := bouncing (bounce 1 1) false
     (memRead s (hostWho s 0 0) .spa 0 64).2 = .ok (List.replicate 64 0)) ∧
    ends (.bounceComplete 0) (bouncing (bounce 1 1) true) (fun t => (hkOf t 0).bncQueue = []) = true := by decide +kernel
theorem witness_InboundAccessesAndCompletions :
    badInbound (2 ^ 44) 8 = true ∧ ends (.hostSliceRead 0 0 3 (2 ^ 44) 8) rs = true ∧ ends (.hostSliceWrite 0 0 3 0 []) rs = true ∧
    hostRefusal rs 0 1 0 = some 8 ∧ ends (.hostSliceRead 0 1 3 0 8) rs = true ∧ ends (.hostSliceWrite 0 1 3 0 [1]) rs = true ∧
    hostRefusal rs 0 0 0 = none ∧ rs.ck.halves = [] ∧ badInbound 0 128 = false ∧ badInbound 1 128 = true ∧
    (let x := xlat2 (warm rs) (hostWho rs 0 0) 0 false false
     accessReady x.1 req0 = true ∧ bwWaits x.1 (hostWho x.1 0 0).attr = false) ∧
    (match (xlat2 (warm rs) (hostWho rs 0 0) 0 false false).2 with | .ok q => decide (q.line = 0 ∧ q.port = 0) | .err _ => false) = true ∧
    ends (.hostSliceRead 0 0 3 0 128) (warm rs) = true ∧ ends (.hostSliceWrite 0 0 3 0 [1]) (warm rs) = true ∧
    ends (.hostSliceWrite 0 0 3 0 (List.replicate 128 1)) (warm rs) = true ∧
    (let g (n : Nat) : HTag := ⟨9, .firmware, 0, n, 0, 0, []⟩
     let s (n : Nat) : State := modHport rs 0 fun h => { h with tags := [g n], left := [4] }
     beatFits (g 256) 0 false = true ∧ beatFits (g 64) 0 true = true ∧ (readSpan (g 64)).2 = 64 ∧
     ends (.hostReadCompletion 0 9 0 false false 0) (s 256) (fun t => (hportOf t 0).tags.map (·.beat) = [1]) = true ∧
     ends (.hostReadCompletion 0 9 0 true true 0) (s 64) (fun t => (hportOf t 0).rderr = 1) = true ∧
     ends (.hostReadCompletion 0 9 1 false false 0) (s 256) (fun t => (hportOf t 0).badcpl = 1) = true ∧
     ends (.hostReadCompletion 0 4 0 true false 0) (s 64) (fun t => (hportOf t 0).left = []) = true ∧
     ends (.hostReadCompletion 0 5 0 true false 0) (s 64) (fun t => (hportOf t 0).badcpl = 1) = true ∧
     (let m : HTag := ⟨9, .firmware, 4032, 128, 0, 0, []⟩
      (readSpan m).2 = 64 ∧ beatFits m 0 true = true ∧
      ends (.hostReadCompletion 0 9 0 true false 0) (modHport rs 0 fun h => { h with tags := [m] }) (fun t => (hportOf t 0).tags.map (·.done) = [64]) = true)) ∧
    ends (.hostCreditReturn 0 true) rs (fun t => (hportOf t 0).cplCred = 1) = true ∧ ends (.hostCreditReturn 0 false) rs (fun t => (hportOf t 0).outCred = 1) = true ∧
    ends (.hostCreditReturn 0 true) (modHport rs 0 fun h => { h with cplCred := 255 }) (fun t => (hportOf t 0).badcpl = 1) = true ∧
    ends (.hppRstFall 0) (modHport rs 0 fun h => { h with rst := true }) (fun t => !(hportOf t 0).rst) = true := by decide +kernel

/-- A block whose life-cycle controller is as `f` makes it. -/
def lifeAt (f : Lc → Lc) (s : State := rs) : State := { s with lc := f s.lc }
theorem witness_LifeCycleDebugAndJtagCommandsComplete :
    secReach sec rs = true ∧ lcBusy rs.lc = false ∧ transitionWord 3 1 = none ∧ ends (.transition sec 1 0) rs (fun t => t.lc.due = some 1) = true ∧
    transitionWord 2 3 = some (2, 0) ∧ rs.lc.words.length = 5 ∧
    ends (.transition sec 3 0) (lifeAt fun l => { l with current := 2 }) (fun t => t.lc.run.isSome && decide ((lcDrive t).lc.pend = true)) = true ∧
    ends (.raiseSvn sec 0) (lifeAt fun l => { l with current := 1 }) (fun t => t.lc.due = some 1) = true ∧
    ends (.raiseSvn sec 0) (lifeAt fun l => { l with current := 0 }) (fun t => t.lc.due = some 1) = true ∧
    (let s (n : Nat) : State := lifeAt (fun l => { l with current := n, arg := 3 }) { rs with fw := { Fw.reset with running := some ⟨3, 0, 0⟩ } }
     svnSlot (s 2).lc 0 = 0 ∧ ends (.raiseSvn sec 0) (s 2) (fun t => svnSlot (lcDrive t).lc 0 ≠ 0) = true ∧
     ends (.raiseSvn sec 0) (s 4) (fun t => t.lc.run.isSome) = true) ∧
    ends (.dgChallenge sec) rs (fun t => t.lc.chal.isSome) = true ∧
    ends (.debugOpen sec) (lifeAt fun l => { l with dgOpen := true }) (fun t => t.lc.dgResult = 6) = true ∧
    ends (.debugOpen sec) (lifeAt fun l => { l with current := 4 }) (fun t => t.lc.tearing) = true ∧
    tokenResult rs 1 = 1 ∧ ends (.debugOpen sec) rs (fun t => t.lc.dgResult = 1) = true ∧
    dgSecure rs.cfg .jtag = true ∧ ends (.dgChallenge .jtag) (lifeAt fun l => { l with tap := 0x10 }) (fun t => t.lc.chal.isSome) = true ∧
    guarded rs 0 = false ∧ ends .debugOpenComplete (lifeAt fun l => { l with tearing := true, grant := 3 }) (fun t => t.lc.scope = 3) = true ∧
    ends (.jtagInstruction 2) rs (fun t => t.lc.tap = 2) = true ∧ ends (.jtagInstruction 3) (run id) (fun t => (engOf t 0).ctx = none) = true ∧
    (let s (b : Bool) : State := lifeAt fun l => { l with tap := 0x10, dgOpen := b, scope := 2 }
     intrusive (s false) = false ∧ ends (.jtagInstrumentAccess (.spad 0 1048568) true 5) (s false) = true ∧
     intrusive (s true) = true ∧ ends (.jtagInstrumentAccess (.spad 0 8) false 5) (s true) = true ∧
     ends (.jtagInstrumentAccess (.spad 0 1048568) true 5) (s true) (fun t => bget (engOf t 0).spad 1048568 = 5) = true) := by decide +kernel
theorem witness_NonSecureSliceManagerWritesRaiseTheWorldViolation :
    pathUp (awake rs) (.host 3) = true ∧ pathSecure rs.cfg (.host 3) = false ∧ pathSecure rs.cfg (.crp false) = false ∧ regHeld (awake rs) = false ∧
    (let lit (i : Instr) : Bool := ends i rs fun t => t.fc.lines.any fun l => l.src = 23
     lit (.build (.host 3) 0) = true ∧ lit (.change (.host 3) 0) = true ∧ lit (.dissolve (.crp false) 0) = true ∧ lit (.readDesc (.host 0) 0) = true ∧
     lit (.regionWrite (.host 3) 0) = true ∧ lit (.regionRead (.host 3) 0) = true ∧ lit (.registerWrite (.host 3) 0x20000 1) = true ∧
     lit (.registerWrite (.crp false) 0x20080 1) = true ∧ lit (.registerWrite (.crp false) 0x200F8 1) = true) ∧
    secReach sec rs = true ∧ ends (.registerWrite sec 0x20080 7) rs (fun t => mget 0 t.slm.stage 0 = 7) = true ∧
    ends (.registerWrite sec 0x200F8 7) rs (fun t => mget 0 t.slm.stage 15 = 7) = true := by decide +kernel
theorem witness_AddressesInNoRegionFailWithNoRegion :
    (∀ x ∈ rs.regions, x.2.slice = (hostWho rs 0 1).attr.slice → ¬(2 ^ 21 * x.2.base ≤ 0 ∧ 0 < 2 ^ 21 * (x.2.base + x.2.size))) ∧
    (∀ x ∈ rs.regions, x.2.slice = (hostWho rs 0 0).attr.slice →
      ¬(2 ^ 21 * x.2.base ≤ 2 ^ 21 * (96 * directWindow (lu48.cap 0)) ∧ 2 ^ 21 * (96 * directWindow (lu48.cap 0)) < 2 ^ 21 * (x.2.base + x.2.size))) := by
  decide +kernel
theorem witness_RequestsWithoutAKeyFailWithKeyAbsent :
    (let s := modKid rs 0 fun _ => Kid.zero
     let q : MemReq := { req0 with attr := { req0.attr with kind := 0 } }
     rs.cfg.hasSub 0 0 = true ∧ accessReady s q = true ∧ subFenced s 0 0 = false ∧ (portOf s 0).lost = false ∧ (kidOf s 0).key = none ∧
     ends (.selvageRead q ⟨[], []⟩ false) s (fun t => t.reqErrs.length = 1 && presented t = some (.reply q.attr 0x207 none)) = true ∧
     ends (.selvageFullWrite req0 1 ⟨[], []⟩) s (fun t => t.reqErrs = []) = true ∧
     ends (.selvagePartialWrite req0 1 1 ⟨[], []⟩ true) s (fun t => presented t = some (.reply req0.attr 0x207 none)) = true) := by decide +kernel
theorem witness_ErrorEventsAndRequestErrorsAreHandled :
    (let s (l : ErrLine) (n : Nat) : State := { rs with fc := { rs.fc with lines := [l], sclk := n } }
     let a : ErrLine := ⟨0, 5, none, 0, false, 0⟩
     let b : ErrLine := ⟨28, 5, none, 0, false, 0⟩
     nextEvent (s a 1).fc.lines = some a ∧ clear (classify { s a 1 with fc := { (s a 1).fc with lines := [] } } a) = true ∧
     ends (.errorEvent none) (s a 1) (fun t => t.fc.lines = [] && (mget (0, 0) t.fc.cnt 0).1 = 1) = true ∧
     ends (.errorEvent none) (s b 1) (fun t => bit t.fc.status 28) = true) ∧
    fromOutside rs.cfg 39 0 0 = true ∧ ends (.errorEvent (some (39, 0, 0))) rs (fun t => bit t.fc.status 39) = true ∧
    fromOutside rs.cfg 1 191 1048575 = true ∧ ends (.errorEvent (some (1, 191, 1048575))) rs (fun t => (mget (0, 0) t.fc.cnt 1).1 = 1) = true ∧
    lcOpen rs = true ∧ ends (.fcStatusClear sec 1) { rs with fc := { rs.fc with status := 3 } } (fun t => t.fc.status = 2) = true ∧
    ends (.fcLock sec) rs (fun t => t.fc.lock) = true ∧ ends (.fcInjectArm sec (BitVec.ofNat 64 (2 ^ 63))) rs (fun t => t.fc.injLeft = 1) = true ∧
    (let s := warm (up 0 rs)
     directCtx s 0 = false ∧ (ctxOf s 0).state = .live ∧ clear (handleReqErr s ⟨0, 0, 0, 0x204, 4096⟩) = true ∧
     ends (.requestErrorReturn (some (0, 0, 0, 0x204, 4096))) s (fun t => (ctxOf t 0).state = .faulted) = true ∧
     ends (.requestErrorReturn (some (0, 0, 191, 0x201, 0))) s = true ∧ ends (.requestErrorReturn (some (0, 0, 191, 0x207, 0))) s = true ∧
     ends (.requestErrorReturn (some (0, 1, 0, 0x204, 4096))) s = true ∧
     ends (.requestErrorReturn none) { s with reqErrs := [⟨0, 1, 0, 5, 0⟩] } (fun t => t.reqErrs = []) = true) := by decide +kernel

/-- A block of two clusters with one half and no context. -/
def tiny : State :=
  let c : Cfg := { lu48 with clusters := 2, halves := 1, hostPorts := 2, linkPorts := 9 }
  { rs with cfg := c, tally := [], clusters := [], ctxs := [], slices := [(0, { Slice.zero with desc := directDesc c 1, state := .direct })] }
theorem witness_ResetsRunTheirStepsAndEnd :
    fcFree sec rs = true ∧ fcMay rs 4 true (engSlice rs 191) = true ∧ clear (fcDrive 5 (fcTaken sec 1 0 191 rs)) = true ∧
    ends (.engineReset sec 191) rs (fun t => (engOf t 191).phase = .resetting) = true ∧
    fcMay rs 0 false (some 0) = true ∧ fcFree (.host 0) rs = true ∧
    (let s := tiny
     clear (fcDrive 5 (fcTaken sec 2 0 0 s)) = true ∧ ends (.sliceReset sec 0) s (fun t => (ladderOf t 3 0).isSome) = true) ∧
    ends (.powerCycle sec) rs (fun t => t.pins.trayPwrReq) = true ∧
    (let s := modEng rs 5 fun g => { g with phase := .resetting }
     ends (.engineResetDone 5) { s with fc := { s.fc with ladder := [⟨2, 5, 0, some 4, []⟩] } } (fun t => t.fc.ladder = []) = true) ∧
    (let late : Fc := { rs.fc with ladder := [⟨2, 5, 0, none, []⟩], sclk := 200000 }
     let s : State := { tiny with fc := late }
     engSlice s 5 = some 0 ∧ clear (startSliceReset (fcEnd (dropLadder (raise s 29 5 0 (some 0)) 2 5) none 6) 0 none) = true ∧
     ends (.engrstTo 5) s (fun t => (ladderOf t 3 0).isSome) = true) ∧
    (let s : State := { rs with fc := { rs.fc with ladder := [⟨3, 0, 0, some 4, []⟩], sclk := 2000000 } }
     ends (.sliceResetDone 0) s (fun t => t.fc.ladder = []) = true ∧
     ends (.sliceResetDone 0) (modSlice s 0 fun x => { x with state := .changing }) (fun t => (sliceOf t 0).state = .active) = true ∧
     2000000 ≤ s.fc.sclk) ∧
    ends .warmResetTimeout { rs with fc := { rs.fc with ladder := [⟨4, 0, 0, none, []⟩], sclk := 1100000000 } } (fun t => t.pins.trayPwrReq) = true ∧
    (let s := modCtx { tiny with pclk := 80000 } 0 fun x => { x with state := .tearing, tear := some ⟨4, 0, 0, none, false, false⟩ }
     ends (.teardownTimeout 0) s (fun t => (ladderOf t 3 0).isSome) = true ∧
     ends (.teardownTimeout 0) (modEng s 0 fun g => { g with ctx := some (0, 0) }) (fun t => (ladderOf t 2 0).isSome) = true) := by decide +kernel
/-- The block in step 4 of a reset. -/
def phase4 : State := { rs with ck := { rs.ck with rst := some ⟨4, false, 0, 0⟩ } }
theorem witness_ResetsEnd :
    (let s := modPort { phase4 with fc := { rs.fc with sclk := 1000000000 } } 0 fun p => { p with ready := false }
     unitFenced s 6 0 = false ∧ ends (.mpReadyTimeout 0) s (fun t => bit t.fc.status 16) = true) ∧
    portsReady phase4 = true ∧ ends .resetUnitsLeave phase4 (fun t => t.ck.rst = none) = true ∧
    fcFree sec rs = true ∧ pathSecure rs.cfg sec = true ∧ rs.ck.rst = none := by decide +kernel
theorem witness_UnfenceReturnsUnitsToService :
    (let s (f : Fc) : State := { rs with fc := f }
     let res (t : State) : Nat := (fcCopyOf t 4).result
     fcFree sec rs = true ∧ clear (fcDrive 5 (fcTaken sec 5 1 0 rs)) = true ∧ hasUnit rs.cfg 3 17 = true ∧
     ends (.unfence sec 1 0) rs (fun t => res t = 1) = true ∧ ends (.unfence sec 4 4) rs (fun t => res t = 3) = true ∧
     ends (.unfence sec 0 0) rs (fun t => res t = 3) = true ∧ ends (.unfence sec 5 0) rs (fun t => res t = 3) = true ∧
     ends (.unfence sec 3 17) (s { rs.fc with linkFenced := [17], fencedBy := [(18, 3, 17)] }) (fun t => t.fc.linkFenced = []) = true ∧
     ends (.unfence sec 3 17) (s { rs.fc with linkFenced := [17], fencedBy := [(18, 3, 17)], status := BitVec.ofNat 64 (2 ^ 18) }) (fun t => res t = 4) = true ∧
     ends (.unfence sec 1 0) (s { rs.fc with engFenced := [0] }) (fun t => t.fc.engFenced = []) = true ∧
     ends (.unfence sec 2 0) (s { rs.fc with clFenced := [0] }) (fun t => t.fc.clFenced = []) = true ∧
     ends (.unfence sec 4 3) (s { rs.fc with hostFenced := [3] }) (fun t => t.fc.hostFenced = []) = true ∧
     fcFree (.host 1) rs = true ∧ ends (.unfence (.host 1) 1 0) rs (fun t => (fcCopyOf t 1).result = 2) = true) := by decide +kernel
/-- Slice 0 active, warm, with checkpoint key words. -/
def keyedCp : State := { warm (up 0 rs) with cp := { rs.cp with okeys := [(0, 1), (1, 2), (2, 3), (3, 4)] }, ctxs := [] }
theorem witness_CheckpointCommandsRunAndEnd :
    (let s := up 0 rs
     pathUp (awake s) sec = true ∧ copyKey sec = 4 ∧ dKind (descOf s 0) = 0 ∧ cpBase s 0 = none ∧ portMay s 3 0 = true ∧ copyKey (.host 3) = 3 ∧
     ends (.capture sec 0) s (fun t => (cpCopyOf t 4).result = 4) = true ∧ ends (.replicate (.host 3) 0) s (fun t => (cpCopyOf t 3).result = 4) = true ∧
     ends (.confirm sec 0) s = true ∧ ends (.restore sec 0) s = true) ∧
    (cpBase keyedCp 0).isSome = true ∧ ends (.confirm sec 0) keyedCp (fun t => t.cp.run.isSome) = true ∧
    ends (.restore (.host 0) 0) keyedCp (fun t => t.cp.run.isSome) = true ∧
    (match (readCapList keyedCp 0 0).2 with | .inl l => decide (l = ⟨[], [], []⟩) | .inr _ => false) = true ∧ clear (readCapList keyedCp 0 0).1 = true ∧
    inRegion keyedCp 0 0 192 true = true ∧ liveCtxs keyedCp 0 = [] ∧
    ends (.capture sec 0) keyedCp (fun t => t.cp.run.isSome) = true ∧ ends (.replicate sec 0) keyedCp (fun t => t.cp.run.isSome) = true := by
  decide +kernel
theorem witness_CheckpointsEnd :
    (let s (op : Nat) (u : State) : State := { u with cp := { u.cp with run := some (4, op, 0, [], ⟨[], [], []⟩) } }
     ends .checkpointHashDone (s 3 rs) (fun t => (cpCopyOf t 4).result = 4) = true ∧
     ends .checkpointHashDone (s 2 keyedCp) (fun t => (cpCopyOf t 4).result = 0) = true ∧
     clear (cpWriteOut (s 1 keyedCp) 4 1 0 [] ⟨[], [], []⟩ 0) = true) ∧
    ends (.cpOkeyWrite sec 15 3 7) rs (fun t => mget 0 t.cp.okeys 63 = 7) = true ∧
    ends (.cpOkeyWrite sec 0 0 7) (modSlice rs 0 fun x => { x with desc := lmod x.desc 0 fun w => w + BitVec.ofNat 64 (2 ^ 36) }) (fun t => t.cp.okeys = []) = true := by
  decide +kernel

theorem witness_RegisterWritesChangeTheirRegister :
    regAt 0x1FFFF8 = none ∧ ends (.registerWrite (.crp false) 0x1FFFF8 5) rs = true ∧
    ends (.registerWrite sec 0x1601F8 5) rs (fun t => mget 0 t.ks.stage 31 = 5) = true ∧ ends (.registerWrite (.host 0) 0x160100 5) rs (fun t => t.ks.stage = []) = true ∧
    ends (.registerWrite (.host 3) 0x1C0070 5) rs (fun t => mget 0 (cpCopyOf t 3).stage 6 = 5) = true ∧ copyKey (.host 3) = 3 ∧
    ends (.registerWrite sec 0xC0000 9) rs (fun t => t.links.self = 9) = true ∧
    ends (.registerWrite sec 0xC0000 9) { rs with slm := { rs.slm with buildLocked := true }, pclk := 5 } (fun t => t.links.self = 0) = true ∧
    ends (.registerWrite sec 0x1E0018 7) rs (fun t => t.ck.halfRet = 7) = true ∧ ends (.registerWrite sec 0x80028 256) rs (fun t => (portOf t 0).ceLimit = 1) = true ∧
    ends (.registerWrite sec 0x805E8 256) rs (fun t => (portOf t 23).ceLimit = 1) = true ∧
    (lcOpen rs = true ∧ fcFixed 39 = false ∧ collectorBars rs = false ∧
     ends (.registerWrite sec 0x1A0238 3) rs (fun t => fcCfg t 39 = (0, 0, 3)) = true ∧
     (let s : State := { rs with fc := { rs.fc with lock := true, sclk := 9 } }
      collectorBars s = true ∧ ends (.registerWrite sec 0x1A0100 3) s (fun t => fcCfg t 0 = fcCfg rs 0) = true)) ∧
    (let s : State := { rs with slices := [] }
     8 + 0 ≤ puFor (s.cfg.cap 0) 0 - 1 ∧ ends (.svWideWrite sec 23 8) s (fun t => (portOf t 23).wideBase = 8) = true ∧
     ends (.svWideWrite sec 0 8) rs (fun t => (portOf t 0).wideBase = 0) = true) ∧
    ends (.svRetWrite sec 0 1023 (BitVec.ofNat 64 (2 ^ 63 + 3))) rs (fun t => (mget ⟨false, false, false, 0⟩ (portOf t 0).ret 1023).valid) = true ∧
    ends (.svRetWrite sec 0 1023 (BitVec.ofNat 64 (2 ^ 63 + 3))) (modRet rs 0 1022 fun _ => ⟨true, false, false, 3⟩)
      (fun t => !(mget ⟨false, false, false, 0⟩ (portOf t 0).ret 1023).valid) = true := by decide +kernel
/-- The block after reset with its clock unit as `f` makes it. -/
def ckAt (f : Ck → Ck) (s : State := rs) : State := { s with ck := f s.ck }
theorem witness_PinsAndClocksChangeTheBlock :
    rs.pins.coldN = true ∧ ends .blkColdNFall rs (fun t => !t.pins.coldN) = true ∧
    (modPins rs fun p => { p with coldN := false }).pins.coldN = false ∧
    ends .blkWarmNFall { rs with ck := phase4.ck } (fun t => t.ck.rst.isSome) = true ∧
    rs.pins.trayPwrReq = false ∧ rs.ck.rst = none ∧ rs.ck.clkFault = false ∧
    ends (.thermEmrgNChange true) (modPins rs fun p => { p with thermN := false }) (fun t => t.pins.thermN) = true ∧
    ends (.thermEmrgNChange false) (up 0 rs) (fun t => (ksSlice t 0).therm = 1) = true ∧
    ends (.pwrEmrgNChange true) (modPins rs fun p => { p with pwrN := false }) (fun t => t.pins.pwrN) = true ∧
    ends (.pwrEmrgNChange false) (up 0 rs) (fun t => t.ck.pwrEvt = 1) = true ∧
    (let s := ckAt fun k => { k with thermHigh := 0, thermLow := 2 }
     wantedDuty s.ck = 1 ∧ ends .dutyChange s (fun t => t.ck.duty = 1) = true) ∧
    clear (clockLost rs) = true ∧ ends .rootclkLoss rs (fun t => t.ck.clkFault) = true ∧
    ends .rootclkOutOfRange rs (fun t => t.pins.rootclk = 2) = true ∧
    ends .rootclkInRange (modPins rs fun p => { p with rootclk := 2 }) (fun t => t.pins.rootclk = 0) = true ∧
    ends (.oppChange sec 5) rs (fun t => t.ck.busy) = true ∧ ends (.oppChange sec 6) rs (fun t => !t.ck.busy) = true ∧
    ends (.oppChange sec 5) (up 0 rs) (fun t => !t.ck.busy) = true ∧
    ends .oppChangeDone (ckAt fun k => { k with busy := true, newDiv := 5 }) (fun t => t.ck.divCode = 5) = true := by decide +kernel
theorem witness_RetentionAndTheWakeGovernorMoveUnits :
    ends (.retainBlock sec) (ckAt fun k => { k with halves := [0, 1] }) (fun t => t.ck.blockRet) = true ∧ ends (.retainBlock sec) rs (fun t => t.ck.refused) = true ∧
    ends .blockWake (ckAt fun k => { k with blockRet := true }) (fun t => !t.ck.blockRet) = true ∧
    (let s : State := { rs with pclk := 80000 }
     thresholdOver s s.ck.engOff 0 = true ∧ ends (.engineIdleThreshold 191) s (fun t => (engOf t 191).phase = .off) = true) ∧
    ends (.engineStartRequest 0) (modEng (modCl rs 0 fun x => { x with boltRet := true }) 0 fun g => { g with phase := .off })
      (fun t => t.ck.gov = [0] && (clOf t 0).boltWaking) = true ∧
    (let s := ckAt (fun k => { k with gov := [0, 4] }) (modEng rs 0 fun g => { g with phase := .startReq })
     mayGrant s.ck s.pclk = true ∧ ends (.wakeGrant 0) s (fun t => (engOf t 0).phase = .starting && t.ck.gov = [4]) = true) ∧
    (let s : State := modEng { rs with pclk := 96, fc := { rs.fc with sclk := 40 } } 0 fun g => { g with phase := .starting, quantum := some 0 }
     (clOf s 0).ret = false ∧ ends (.engineStartDone 0) s (fun t => (engOf t 0).phase = .on) = true) ∧
    (let s : State := { rs with pclk := 800000, engines := [0, 1, 2, 3].map fun e => (e, { Engine.idle with phase := .off }) }
     clusterQuiet s 0 = true ∧ thresholdOver s s.ck.clRet 0 = true ∧ ends (.clusterRetThreshold 0) s (fun t => (clOf t 0).boltRet) = true) ∧
    (let s : State := { tiny with pclk := 8000000, clusters := [0, 1].map fun k => (k, { Cluster.zero with ret := true }) }
     halfQuiet s 0 = true ∧ thresholdOver s s.ck.halfRet 0 = true ∧ ends (.halfRetThreshold 0) s (fun t => (tallyOf t 0).retained) = true) := by
  decide +kernel
theorem witness_WeftWordsEncodeAndDecode :
    weftTable.length = (weftTable.map (·.1)).length ∧ weftTable ≠ [] ∧ (frm true 5 9 97 98 2 3 7).preg < 8 ∧ (frm true 7 15 97 98 2 3 7).fclass < 16 ∧
    opcodeAssigned 0xFF = false ∧ decodeWeft 0 (frameWord 0xFF (frm false 0 0 0 0 0 0 0)) = none := by decide +kernel
theorem witness_StepKeepsBuildParameters :
    rs.cfg.legal = true ∧ clear rs = true ∧
    (match step { rs with pending := [.fcLock sec] } with | .next t => t.pending = [] && t.fc.lock | .fault _ => false | .refused _ => false) = true ∧
    (match step rs with | .next t => t.pending = [] | .fault _ => false | .refused _ => false) = true := by decide +kernel

theorem witness_StepRunsFrontCommand :
    ({ rs with pending := [.bounceComplete 0, .hppRstFall 0] } : State).pending = .bounceComplete 0 :: [.hppRstFall 0] := rfl

/-! ## Terms that the well-formedness checks refuse -/

/-- Every command of the list is refused. -/
def illFormed (l : List Instr) : Bool := l.all fun i => !i.wf
/-- A well-formed frame. -/
def fr : Frame := frm false 0 1 1 2 3 0 5
/-- The attributes of an access without owner. -/
def at0 : Attr := ⟨0, 0, 0, 0, 0, true, 0, 0⟩
/-- A Tally operation on word 0 of slice 0's context 0. -/
def top0 : TOp := ⟨.read, 0, 0, 0, 0, .requester, 0⟩
/-- A ring of queue 0. -/
def q0 : RingId := .queue 0

theorem wf_accepts : [Instr.sadd 191 fr, .selvageRead ⟨at0, 23, 3, 0, some 255⟩ Med.good false, .tallyRead 1 [(63, top0)] 0,
    .warpNop (.queue 8191) (List.replicate 8 0), .registerWrite (.host 3) (2 ^ 24 - 8) 0, .jtagInstrumentAccess (.spad 191 0) false 0].all
    Instr.wf = true := by decide +kernel
theorem wf_refuses_parts : illFormed [.nop 192 fr, .nop 0 { fr with preg := 8 }, .nop 0 { fr with fclass := 16 },
    .selvageRead ⟨{ at0 with slice := 16 }, 0, 0, 0, none⟩ Med.good false, .selvageRead ⟨{ at0 with ctx := 2048 }, 0, 0, 0, none⟩ Med.good false,
    .selvageRead ⟨{ at0 with gen := 256 }, 0, 0, 0, none⟩ Med.good false, .selvageRead ⟨{ at0 with keyid := 1024 }, 0, 0, 0, none⟩ Med.good false,
    .selvageRead ⟨{ at0 with bwclass := 4 }, 0, 0, 0, none⟩ Med.good false, .selvageRead ⟨{ at0 with kind := 4 }, 0, 0, 0, none⟩ Med.good false,
    .selvageRead ⟨at0, 24, 0, 0, none⟩ Med.good false, .selvageRead ⟨at0, 0, 4, 0, none⟩ Med.good false,
    .selvageRead ⟨at0, 0, 0, 2 ^ 34, none⟩ Med.good false, .selvageRead ⟨at0, 0, 0, 0, some 256⟩ Med.good false,
    .tallyRead 0 [(0, { top0 with off := 2 ^ 22 })] 0, .tallyRead 0 [(0, { top0 with off := 4 })] 0,
    .tallyRead 0 [(0, { top0 with ctx := 2048 })] 0, .tallyRead 0 [(64, top0)] 0,
    .stepOpen (.queue 8192) (List.replicate 8 0), .stepOpen (.port 4) (List.replicate 8 0), .stepOpen q0 (List.replicate 7 0),
    .build (.host 4) 0, .jtagInstrumentAccess (.reg (2 ^ 24)) false 0, .jtagInstrumentAccess (.spad 192 0) false 0,
    .jtagInstrumentAccess (.spad 0 (2 ^ 20)) false 0, .jtagInstrumentAccess (.bolt 48 0) false 0,
    .jtagInstrumentAccess (.bolt 0 (2 ^ 23)) false 0, .jtagInstrumentAccess (.tally 2 0) false 0,
    .jtagInstrumentAccess (.tally 0 (2 ^ 22)) false 0, .jtagInstrumentAccess (.scan 192) false 0,
    .jtagInstrumentAccess (.inject 192) false 0, .jtagInstrumentAccess (.proc 8 false) false 0] = true := by decide +kernel

theorem wf_refuses_weft : illFormed ((weftTable.map fun r => r.2 192 fr) ++ (weftTable.map fun r => r.2 0 { fr with preg := 8 })) = true := by
  decide +kernel

theorem wf_refuses_engine_and_memory_events : illFormed [.twaitRelease 192, .fwaitRelease 192, .shuttleOperationStart 48,
    .shuttleOperationComplete 48, .prefetchDequeue 192, .requestErrorReturn (some (2048, 0, 0, 0, 0)), .requestErrorReturn (some (0, 256, 0, 0, 0)),
    .requestErrorReturn (some (0, 0, 192, 0, 0)), .tileOverrun 192, .contextSwitch 192 none, .contextSwitch 0 (some 2048),
    .boltRegionClearDone 48 0, .boltRegionClearDone 0 64, .tallyRead 2 [] 0, .tallyAdd 2 [] 0, .tallySwap 2 [] 0, .tallyWrite 2 [] 0,
    .tallyMax 2 [] 0, .tallySeterr 2 [] 0, .memoryWakeRequest true 2, .memoryWakeRequest false 48, .memoryWakeDone true 2, .memoryWakeDone false 48,
    .selvageFullWrite ⟨at0, 24, 0, 0, none⟩ 0 Med.good, .selvagePartialWrite ⟨at0, 24, 0, 0, none⟩ 0 0 Med.good false,
    .metadataCacheFill 24 0 0 0 0 Med.good, .metadataCacheFill 0 4 0 0 0 Med.good, .metadataCacheFill 0 0 4 0 0 Med.good,
    .metadataCacheFill 0 0 0 0 1024 Med.good, .groupReencryption ⟨at0, 24, 0, 0, none⟩ 0 0 Med.good, .sweepStart 1024, .sweepVisit 24 Med.good,
    .keyidRetirement 1024 0, .keyidRetirement 0 24, .keyidRetirementDone 1024, .scrubAccess 24 Med.good, .groupRetirement 24 Med.good,
    .rowRepairRequest 24, .rowRepairAnswer 24 0 false, .rowRepairAnswer 0 16 false, .memoryCompletion 24 0 0 false false 0,
    .memoryCompletion 0 4 0 false false 0, .memoryCompletion 0 0 4096 false false 0, .mpReadyFall 24, .mpReadyRise 24, .mpReadyTimeout 24] = true := by
  decide +kernel

theorem wf_refuses_link_and_slice_commands : illFormed [.linkFrameReceive 18 false [], .ackSend 65536 0, .ackSend 0 256, .groupSend 65536 0 none,
    .groupSend 0 256 none, .rtoExpiry 65536 0 0, .rtoExpiry 0 256 0, .linkUpChange 18 true, .bridgeTransferReceive 2 [] 0 0 0,
    .bridgeTransferReceive 0 [] 0 0 129, .d2dErr 2, .regulationWindow 2, .build sec 16, .change sec 16, .changeEngineRelease 192, .dissolve sec 16,
    .dissolveDrainDone 16, .readDesc sec 16, .regionWrite sec 256, .regionRead sec 256, .queueDoorbell 4 0 0, .queueDoorbell 0 8192 0,
    .queueDoorbell 0 0 (2 ^ 32), .portRingDoorbell 4 0, .portRingDoorbell 0 (2 ^ 32), .portRingFetch 4, .headWrite 8192, .gangStart 8192 [],
    .gangStart 0 [192], .gangTimeout 8192, .waitRelease (.port 4) 0, .teardownDrainDone 2048, .teardownTimeout 2048, .quantumExpiry 192,
    .stateRecordSpill 2048 0 0, .stateRecordSpill 0 48 0, .stateRecordSpill 0 0 2048, .stateRecordFill 2048 0 0 0, .stateRecordFill 0 48 0 0,
    .stateRecordFill 0 0 64 0, .stateRecordFill 0 0 0 128] = true := by decide +kernel

theorem wf_refuses_packets : illFormed (([.warpNop, .stepOpen, .stepClose, .launch, .launchExt, .signal, .wait, .error, .invalidate, .rodConfig,
    .beadAlloc, .beadUpdate, .beadLeave, .beadFree, .features, .ctxCreate, .ctxDestroy, .qCreate, .qDestroy, .qReset, .fenceAlloc, .fenceFree,
    .fenceClear, .memObj, .memFree] : List (RingId → List Word → Instr)).map fun k => k q0 []) = true := by decide +kernel

theorem wf_refuses_units : illFormed [.load sec 4, .stage sec 4, .activate (.host 4), .discard (.host 4), .fwWatchdogExpiry 8, .fwProcessorCrash 8,
    .fwRestartDone 8 true, .importKey (.host 4), .generate (.host 4), .erase (.host 4), .ownerBind (.host 4), .certLoad (.host 4),
    .devidRead (.host 4), .pikRead (.host 4), .slotScan 1616 true true, .getVersion 4, .getCapabilities 4, .negotiateAlgorithms 4, .getDigests 4,
    .getCertificate 4, .spdmChallenge 4, .getMeasurements 4 none [], .keyExchange 4, .finish 4 0 [], .bind 4 0 [], .keyPut 4 0 [], .keyErase 4 0 [],
    .measure 4 0 [], .accept 4 0 [], .reportDetail 4 0 [], .close 4 0 [], .bounceH2d 4 [], .bounceD2h 4, .bounceComplete 4, .transition sec 16 0,
    .raiseSvn (.host 4) 0, .dgChallenge (.host 4), .debugOpen (.host 4), .jtagInstruction 64, .errorEvent (some (64, 0, 0)),
    .fcStatusClear (.host 4) 0, .fcLock (.host 4), .fcInjectArm (.host 4) 0] = true := by decide +kernel

theorem wf_refuses_resets_power_and_ports : illFormed [.engineReset sec 192, .engineResetDone 192, .engrstTo 192, .sliceReset sec 16,
    .sliceResetDone 16, .slrstTo 16, .warmReset (.host 4), .powerCycle (.host 4), .unfence sec 16 0, .unfence sec 0 256, .capture sec 16,
    .replicate sec 16, .confirm sec 16, .restore sec 16, .cpOkeyWrite sec 16 0 0, .cpOkeyWrite sec 0 4 0, .oppChange (.host 4) 0,
    .retainBlock (.host 4), .engineIdleThreshold 192, .clusterRetThreshold 48, .halfRetThreshold 2, .engineStartRequest 192, .wakeGrant 192,
    .engineStartDone 192, .hostSliceRead 4 0 0 0 128, .hostSliceRead 0 16 0 0 128, .hostSliceRead 0 0 0 (2 ^ 52) 128, .hostSliceRead 0 0 0 0 0,
    .hostSliceRead 0 0 0 0 129, .hostSliceWrite 0 0 0 0 [], .hostSliceWrite 0 0 0 0 (List.replicate 129 0), .hostReadCompletion 4 0 0 true false 0,
    .hostReadCompletion 0 256 0 true false 0, .hppRstFall 4, .portRingEnable 4 0 0, .portRingEnable 0 0 16, .slcfgWrite sec 16 0,
    .svWideWrite sec 24 0, .svRetWrite sec 24 0 0, .svRetWrite sec 0 1024 0, .sweepEnSet (.host 4), .routeWrite sec 1024 0 0, .routeWrite sec 0 2 0,
    .registerWrite sec (2 ^ 24) 0, .illegalInstruction 192 0, .illegalInstruction 0 256, .fetchRange 192, .hostCreditReturn 4 true] = true := by
  decide +kernel

/-! ## Words written from the spec's encodings (R171, R173) and their instructions -/

/-- The worked example of TWAIT. -/
theorem test_decode_twait : decodeWeft 0 0x4006082C000000000000000000000000#128 = some (.twait 0 ⟨false, 0, 6, 0x082C000000000000000000000000#112⟩) := by
  decide +kernel
/-- The worked example of PREF. -/
theorem test_decode_pref :
    decodeWeft 7 0x2313423470440000000000000007E3FF#128 = some (.pref 7 ⟨false, 1, 3, 0x423470440000000000000007E3FF#112⟩) := by decide +kernel
/-- The worked example of MMA. -/
theorem test_decode_mma : decodeWeft 0 0x8004C583080000000000000000000100#128 = some (.mma 0 ⟨false, 0, 4, 0xC583080000000000000000000100#112⟩) := by
  decide +kernel
/-- SADD s1 := s2 + s3 + 5 under not p2: opcode 0x09, PNEG 1, PREG 2, FCLASS 1 (R171, R173, R199). -/
theorem test_decode_sadd : decodeWeft 3 (0x09#8 ++ (1#1 ++ (2#3 ++ (1#4 ++ (1#7 ++ (2#7 ++ (3#7 ++ (0#7 ++ 5#84)))))))) =
    some (.sadd 3 (frm true 2 1 1 2 3 0 5)) := by decide +kernel
/-- LPUT d1, s2, s3, s4: opcode 0x62, FCLASS H (R173, R215). -/
theorem test_decode_lput : decodeWeft 3 (0x62#8 ++ (0#4 ++ (7#4 ++ (0x21#7 ++ (2#7 ++ (3#7 ++ (4#7 ++ 0#84))))))) =
    some (.lput 3 (frm false 0 7 0x21 2 3 4 0)) := by decide +kernel
/-- VADD t0 := t1 + t2: opcode 0xC2, FCLASS V (R173, R222). -/
theorem test_decode_vadd : decodeWeft 3 (0xC2#8 ++ (0#4 ++ (5#4 ++ (0x60#7 ++ (0x61#7 ++ (0x62#7 ++ (0#7 ++ 0#84))))))) =
    some (.vadd 3 (frm false 0 5 0x60 0x61 0x62 0 0)) := by decide +kernel
/-- TTEST and XGATH: opcodes 0xE0 and 0xE2 (R222). -/
theorem test_decode_heddle_shuttle : decodeWeft 3 (0xE0#8 ++ 7#120) = some (.ttest 3 ⟨false, 0, 0, 7#112⟩) ∧
    decodeWeft 3 (0xE2#8 ++ 0#120) = some (.xgath 3 ⟨false, 0, 0, 0#112⟩) := by decide +kernel
/-- Opcodes without an instruction (R199, R201, R209, R215, R222, R172). -/
theorem test_decode_unassigned : ([0x1B, 0x1F, 0x27, 0x3F, 0x47, 0x5F, 0x66, 0x7F, 0x82, 0xBF, 0xCC, 0xD4, 0xE6, 0xF0, 0xFF].all fun o =>
    (decodeWeft 0 (BitVec.ofNat 8 o ++ 0#120)).isNone) = true := by decide +kernel

/-! ## Results from the rules' worked examples -/

/-- The sparse view of A in the example of R223's section: 2:8 E4M3, 64 fibres of 1,024, pitch 6, extent 24 KiB. -/
theorem test_view_example : viewOf 0x9B01F8FFC0600000#64 = ⟨true, 3, 3, 64, 1024, 6, 0⟩ ∧ (viewOf 0x9B01F8FFC0600000#64).extent = 24576 := by
  decide +kernel
/-- The dense descriptor of the example of R194's section. -/
theorem test_descriptor_example :
    tensorOf (0#64 ++ (0x1000#64 ++ (0x0003F00FFF000000#64 ++ 0x0030001000000000#64)) : BitVec 256) =
      { spc := 0, fmt := 3, base := 0x1000000000, rows := 64, cols := 4096, pitch := 4096, aux := 4096, spitch := 0, scale := 0 } ∧
    tensorLegal (0#64 ++ (0x1000#64 ++ (0x0003F00FFF000000#64 ++ 0x0030001000000000#64)) : BitVec 256) = true := by decide +kernel
/-- The example of R324's section: syndrome (9, 1, 2, 9) is an error of 9 at position 18; two failing symbols are uncorrectable. -/
theorem test_symbol_example : decodeSyn (9, 1, 2, 9) = .fixed 18 9 ∧
    (let p := synOf (fun q => if q = 18 then 9 else 4) [18, 19]; decodeSyn p) = .bad := by decide +kernel
/-- The example of R91's section: 0.0135 to E4M3 is 0x07 under RNE and 0x06 under RTZ; 500 is 0x7E with SAT and 0x7F without. -/
theorem test_e4m3_example : fmtEncode 3 (.fin false 226492 (-24)) 0 false 0 = (7, false) ∧ fmtEncode 3 (.fin false 226492 (-24)) 1 false 0 = (6, false) ∧
    fmtEncode 3 (.fin false 500 0) 0 true 0 = (0x7E, true) ∧ fmtEncode 3 (.fin false 500 0) 0 false 0 = (0x7F, true) ∧
    fmtEncode 3 (.fin false 460 0) 1 false 0 = (0x7E, false) := by decide +kernel
/-- A sub-channel of 8,192 units in MP3, without a wide part. -/
def big : State := { rs with cfg := { rs.cfg with capCodes := List.replicate 24 4 } }
/-- The example of R293's section: addresses of a line tag and of its counter block. -/
theorem test_selvage_example : puOf big 3 = 7645 ∧ dlimOf big 3 = 7644 ∧ lineTagAddr big 3 0x4091A2D = 0x3DBE8D168 ∧
    nodeAddr big 3 0 0x102468 = 0x3FB631A00 := by decide +kernel
/-- The examples of R637 and R642 and of the control port. -/
theorem test_register_offsets : regAt (8 * 0x34000) = some .fcStatus ∧ regAt 0x150040 = none ∧ regAt 0x310040 = some (.scQueue 4100 0) ∧
    regAt 0x9F028 = some (.svRet 11 517) ∧ regAt 0x181010 = some (.hpTail 1) := by decide +kernel

/-- Under the dispatcher the packet that was posted first starts first (R463). -/
theorem test_queueTurn :
    (let s (o : List (Nat × Nat)) : State :=
       { rs with queues := [(3, queue3), (4, { queue3 with ctx := 1 })], sched := { rs.sched with fifo := o } }
     queueTurn (s [(4, 1), (3, 1)]) 3 = false ∧ queueTurn (s [(3, 1), (4, 1)]) 3 = true ∧ queueTurn (s [(4, 0), (3, 1)]) 3 = true) := by decide +kernel

end Sys2Proof.Tests
end

section
/-! PROOFS. The scope statements (O2, O3): what every command and a clock tick keep, and the state after reset. The build parameters and the queue
are kept by the lemmas of Laws/Keep*.lean; here stands the rest: that a command leaves no access waiting, what the clock leaves alone of the
memory engines, the identification registers, and the canonical form of the memories after reset. -/
namespace Sys2Proof.Machine

/-! ## No access is left waiting -/

/-- An outcome that, where it is a next state, has no access waiting unless one waited in `s` (R28, R276). -/
def KeepsClear (s : State) (r : Res) : Prop := ∀ t, r = .next t → clear s = true → clear t = true

/-- Whether an access waits is the memory engines' own. -/
theorem clear_eq_of_sv {s t : State} (h : t.sv = s.sv) : clear t = clear s := by simp [clear, h]

/-- A state that says the same of waiting accesses may stand for the state that a command met. -/
theorem KeepsClear.of_clear_eq {s u : State} {r : Res} (h : clear u = clear s) (k : KeepsClear u r) : KeepsClear s r :=
  fun t e hs => k t e (h.trans hs)

@[simp] theorem clear_awake (s : State) : clear (awake s) = clear s := by
  unfold awake; split <;> rfl

@[simp] theorem keepsClear_next (s t : State) : KeepsClear s (.next t) ↔ (clear s = true → clear t = true) :=
  ⟨fun h => h t rfl, fun h _ e => by cases e; exact h⟩
@[simp] theorem keepsClear_fault {s : State} {f : Fault} : KeepsClear s (.fault f) := fun _ e => by cases e
@[simp] theorem keepsClear_refused {s : State} {r : Refusal} : KeepsClear s (.refused r) := fun _ e => by cases e

/-- A settled state has no access waiting, whatever ran before. -/
@[simp] theorem keepsClear_settle {s t : State} : KeepsClear s (settle t) := fun _ e _ => by
  obtain ⟨rfl, h⟩ := settle_next e
  exact h

@[simp] theorem keepsClear_guardRes {s u : State} (h : clear u = clear s) {c : Bool} {t : State} : KeepsClear s (guardRes u c t) := by
  unfold guardRes; split <;> simp [h]
@[simp] theorem keepsClear_unitRes {s u : State} (h : clear u = clear s) {b c : Bool} {t : State} : KeepsClear s (unitRes b u c t) := by
  unfold unitRes; split <;> simp [h]
@[simp] theorem keepsClear_hereRes {s : State} {b : Bool} {t : State} : KeepsClear s (hereRes b t) := by
  unfold hereRes; split <;> simp
@[simp] theorem keepsClear_accessRes {s : State} {b c : Bool} {t : State} : KeepsClear s (accessRes b c t) := by
  unfold accessRes; split
  · split <;> simp
  · simp

/-! ## Operations that leave the memory engines alone -/

/-- A fold keeps what each of its steps keeps. -/
theorem foldl_keeps {σ β γ : Type} (π : σ → γ) {f : σ → β → σ} (h : ∀ x b, π (f x b) = π x) (l : List β) (x : σ) :
    π (l.foldl f x) = π x := by
  induction l generalizing x with
  | nil => rfl
  | cons b l ih => exact (ih (f x b)).trans (h x b)

@[simp] theorem raise_sv (s : State) (src inst detail : Nat) (slice : Option Nat) (inj : Bool) : (raise s src inst detail slice inj).sv = s.sv := by
  unfold raise; split <;> rfl

@[simp] theorem tallyEnqueue_sv (s : State) (h port : Nat) (o : TOp) : (tallyEnqueue s h port o).sv = s.sv := rfl

@[simp] theorem arriveOps_sv (s : State) (h : Nat) (arrive : List (Nat × TOp)) : (arriveOps s h arrive).sv = s.sv :=
  foldl_keeps State.sv (fun t a => by split <;> simp) arrive s

@[simp] theorem modAcc_sv (s : State) (c : Nat) (f : CtxAcc → CtxAcc) : (modAcc s c f).sv = s.sv := rfl
@[simp] theorem modSlSched_sv (s : State) (n : Nat) (f : SlSched → SlSched) : (modSlSched s n f).sv = s.sv := rfl

@[simp] theorem accountCtx_sv (s : State) (c : Nat) : (accountCtx s c).sv = s.sv := by
  unfold accountCtx; split
  · simp
  · split <;> simp

@[simp] theorem markRemoving_sv (s : State) (engs : List Nat) (on : Bool) : (markRemoving s engs on).sv = s.sv :=
  foldl_keeps State.sv (fun t e => modEng_sv t e _) engs s

@[simp] theorem reportChanged_sv (s : State) (n : Nat) : (reportChanged s n).sv = s.sv := rfl

@[simp] theorem updateBudgets_sv (s : State) : (updateBudgets s).sv = s.sv := rfl

@[simp] theorem refreshSlices_sv (old s : State) : (refreshSlices old s).sv = s.sv := by
  unfold refreshSlices
  refine (updateBudgets_sv _).trans (foldl_keeps State.sv (fun t n => ?_) (List.range 16) s)
  dsimp only
  repeat' split
  all_goals simp

@[simp] theorem changeEnd_sv (s : State) (n : Nat) : (changeEnd s n).sv = s.sv := by simp [changeEnd]

@[simp] theorem slmDrive_sv (s : State) : (slmDrive s).sv = s.sv := by
  unfold slmDrive
  repeat' split
  all_goals simp

@[simp] theorem ksDrive_sv (s : State) : (ksDrive s).sv = s.sv := by
  unfold ksDrive; split <;> rfl

@[simp] theorem requestsForLc_sv (n : Nat) (s : State) : (requestsForLc n s).sv = s.sv := by
  refine foldl_keeps (fun a : State × List Nat => a.1.sv) (fun a c => ?_) _ (s, [])
  repeat' split
  all_goals simp

@[simp] theorem lcRequests_sv (s : State) : (lcRequests s).sv = s.sv := by
  unfold lcRequests; split
  · rfl
  · exact foldl_keeps State.sv (fun t n => requestsForLc_sv n t) _ s

@[simp] theorem otpProgram_sv (s : State) (r : LcRun) (bits : Word) : (otpProgram s r bits).sv = s.sv := rfl

@[simp] theorem lcDrive_sv (s : State) : (lcDrive s).sv = s.sv := by
  unfold lcDrive
  dsimp only
  repeat' split
  all_goals simp

@[simp] theorem entropyRetest_sv (s : State) : (entropyRetest s).sv = s.sv := by
  unfold entropyRetest
  dsimp only
  split
  · rfl
  · split <;> rfl

@[simp] theorem mpErrAll_sv (s : State) (m : Nat) : (mpErrAll s m).sv = s.sv :=
  foldl_keeps State.sv (fun t i => by split <;> simp) (List.range 4) s

@[simp] theorem sclkEdge_sv (s : State) : (sclkEdge s).sv = s.sv := by
  unfold sclkEdge
  rw [foldl_keeps State.sv (fun t b => raise_sv t b 0 0 none false), foldl_keeps State.sv (fun t m => mpErrAll_sv t m)]
  simp

/-! ## The clock -/

/-- A waiting checkpoint command that would have to wait for a line stays waiting, so taking them leaves no access waiting (R28, R559). -/
theorem clear_cpDrive (n : Nat) {s : State} (h : clear s = true) : clear (cpDrive n s) = true := by
  induction n generalizing s with
  | zero => exact h
  | succ n ih =>
    unfold cpDrive
    dsimp only
    repeat' split
    case isFalse ht => exact ih (by simpa [clear] using ht)
    all_goals exact h

@[simp] theorem foldl_accountCtx_sv (l : List Nat) (s : State) : (l.foldl accountCtx s).sv = s.sv := foldl_keeps State.sv accountCtx_sv l s

@[simp] theorem foldl_modCk_sv {β : Type} (f : β → Ck → Ck) (l : List β) (s : State) : (l.foldl (fun t b => modCk t (f b)) s).sv = s.sv :=
  foldl_keeps State.sv (fun t b => modCk_sv t (f b)) l s

/-- Of what one PCLK does only the checkpoint engine's first reads reach a memory engine. -/
theorem clear_pclkEdge {s : State} (h : clear s = true) : clear (pclkEdge s) = true := by
  have same {t : State} (ht : t.sv = s.sv) : clear t = true := (clear_eq_of_sv ht).trans h
  unfold pclkEdge
  dsimp only
  repeat' split
  · exact h
  · exact clear_cpDrive 5 (same (by simp))
  · exact same (by simp)
  · exact clear_cpDrive 5 (same (by simp))
  · exact same (by simp)

/-- A ROOTCLK cycle leaves no access waiting (R562). -/
theorem clear_tick {s : State} (h : clear s = true) : clear (tick s) = true := by
  have hu : clear (if unitsClocked s then
      modCk (if s.ck.unitPos = 0 && unitRuns s.ck.duty s.ck.unit then pclkEdge s else s) unitNext else s) = true := by
    split
    · rw [clear_eq_of_sv (modCk_sv _ _)]
      split
      · exact clear_pclkEdge h
      · exact h
    · exact h
  unfold tick
  dsimp only
  split
  · exact h
  · generalize (if unitsClocked s then _ else s) = u at hu ⊢
    split
    · rwa [clear_eq_of_sv (modCk_sv _ _)]
    · rwa [clear_eq_of_sv (sclkEdge_sv _), clear_eq_of_sv (modCk_sv _ _)]

/-! ## The operations that commands share -/

@[simp] theorem offPath_keepsClear {s u : State} (h : clear u = clear s) {path : Path} : KeepsClear s (offPath u path) := by
  unfold offPath; split <;> simp [h]

theorem issue_keepsClear {e : Nat} {f : Frame} {o : OpInfo} {extra : Bool} {body : State → Engine → IRes} {s : State} :
    KeepsClear s (issue e f o extra body s) := by
  unfold issue
  dsimp only
  repeat' split
  all_goals simp

theorem scalar_keepsClear {op : Word → Word → Word} {e : Nat} {f : Frame} {s : State} : KeepsClear s (scalar op e f s) := by
  unfold scalar; exact issue_keepsClear

theorem compare_keepsClear {op : Word → Word → Bool} {e : Nat} {f : Frame} {s : State} : KeepsClear s (compare op e f s) := by
  unfold compare; exact issue_keepsClear

theorem vector_keepsClear {slots : List SlotKind} {srcs : List Nat} {fn : Bool} {extra : Frame → Bool}
    {op : State → Engine → Frame → List FV → Nat → FV} {e : Nat} {f : Frame} {s : State} :
    KeepsClear s (vector slots srcs fn extra op e f s) := by
  unfold vector; exact issue_keepsClear

theorem issueRows_keepsClear {e : Nat} {f : Frame} {mk : State → BitVec 256 → Nat → Nat → List Nat → AKind} {s : State} :
    KeepsClear s (issueRows e f mk s) := by
  unfold issueRows; exact issue_keepsClear

theorem issueLink_keepsClear {e : Nat} {f : Frame} {fields : List (Nat × Nat)} {extra : Bool}
    {mk : State → Engine → BitVec 256 → Nat → Nat → Nat → AKind} {s : State} : KeepsClear s (issueLink e f fields extra mk s) := by
  unfold issueLink; exact issue_keepsClear

@[simp] theorem endPacket_keepsClear {s : State} {k : Pkt} {r : PRes} : KeepsClear s (endPacket k r) := by
  unfold endPacket
  repeat' split
  all_goals simp

theorem packet_keepsClear {ok : Nat → Bool} {r : RingId} {ws : List Word} {body : State → Pkt → PRes} {s : State} :
    KeepsClear s (packet ok r ws body s) := by
  unfold packet
  dsimp only
  repeat' split
  all_goals simp

theorem beadPacket_keepsClear {ty : Nat} {ok : Nat → Bool} {f : State → Nat → Pkt → State} {r : RingId} {ws : List Word} {s : State} :
    KeepsClear s (beadPacket ty ok f r ws s) := by
  unfold beadPacket; exact packet_keepsClear

theorem tallySlot_keepsClear {k : TKind} {h : Nat} {arrive : List (Nat × TOp)} {chk : Nat} {s : State} :
    KeepsClear s (tallySlot k h arrive chk s) := by
  have ha : clear (arriveOps s h arrive) = clear s := clear_eq_of_sv (arriveOps_sv s h arrive)
  unfold tallySlot
  dsimp only
  repeat' split
  all_goals simp [ha]

theorem takeVerified_keepsClear {k : Nat} {ok : List Byte → Bool} {f : State → VGroup → State} {s : State} :
    KeepsClear s (takeVerified k ok f s) := by
  unfold takeVerified; split <;> simp

theorem message_keepsClear {p sess code : Nat} {body : State → State × Nat × List Byte} {s : State} :
    KeepsClear s (message p sess code body s) := by
  unfold message; exact keepsClear_unitRes rfl

theorem boundMessage_keepsClear {p sess code : Nat} {body : State → Nat → Nat → State × Nat × List Byte} {s : State} :
    KeepsClear s (boundMessage p sess code body s) := by
  unfold boundMessage; exact message_keepsClear

theorem spdmReq_keepsClear {p code : Nat} {body : State → State} {s : State} : KeepsClear s (spdmReq p code body s) := by
  unfold spdmReq; exact keepsClear_unitRes rfl

@[simp] theorem sendOp_keepsClear {s : State} {a : AsyncOp} {d : LinkDesc} {r : Route} {port : Nat} : KeepsClear s (sendOp s a d r port) := by
  unfold sendOp
  dsimp only
  repeat' split
  all_goals simp

@[simp] theorem sendTodo_keepsClear {s : State} {dest lkey : Nat} {t : TxStream} {g : TxGroup} {rest : List TxGroup} {r : Route} {port : Nat} :
    KeepsClear s (sendTodo s dest lkey t g rest r port) := by
  unfold sendTodo
  dsimp only
  repeat' split
  all_goals simp

theorem hostSlice_keepsClear {p slice tag addr len : Nat} {wr : Bool} {body : State → MemReq → State × SvRes} {s : State} :
    KeepsClear s (hostSlice p slice tag addr len wr body s) := by
  unfold hostSlice
  dsimp only
  repeat' split
  all_goals simp

/-! ## Commands written to a register -/

@[simp] theorem secWrite_keepsClear {path : Path} {f : State → State} {s : State} : KeepsClear s (secWrite path f s) := by
  unfold secWrite
  dsimp only
  split <;> simp

@[simp] theorem secWriteAt_keepsClear {named present : Bool} {path : Path} {f : State → State} {s : State} :
    KeepsClear s (secWriteAt named present path f s) := by
  unfold secWriteAt; split <;> simp

@[simp] theorem fwCmd_keepsClear {path : Path} {allowed : State → Bool} {f : State → State} {s : State} :
    KeepsClear s (fwCmd path allowed f s) := by
  unfold fwCmd
  dsimp only
  repeat' split
  all_goals simp

@[simp] theorem slCmd_keepsClear {path : Path} {op n : Nat} {body : State → State} {s : State} : KeepsClear s (slCmd path op n body s) := by
  have hr : clear (raise (awake s) 23 0 0) = clear s := (clear_eq_of_sv (raise_sv ..)).trans (clear_awake s)
  have hc (l : Slm) : clear { awake s with slm := l } = clear s := clear_awake s
  unfold slCmd
  dsimp only
  repeat' split
  all_goals simp [hr, hc]

@[simp] theorem ksCmd_keepsClear {path : Path} {op : Nat} {body : State → List Word → State × Nat} {s : State} :
    KeepsClear s (ksCmd path op body s) := by
  unfold ksCmd
  dsimp only
  repeat' split
  all_goals simp

@[simp] theorem lcCmd_keepsClear {path : Path} {body : State → State × Nat} {s : State} : KeepsClear s (lcCmd path body s) := by
  unfold lcCmd
  dsimp only
  repeat' split
  all_goals simp

@[simp] theorem dgCmd_keepsClear {path : Path} {body : State → State × Nat} {s : State} : KeepsClear s (dgCmd path body s) := by
  unfold dgCmd
  dsimp only
  repeat' split
  all_goals simp

@[simp] theorem fcCmd_keepsClear {path : Path} {op kind target : Nat} {s : State} : KeepsClear s (fcCmd path op kind target s) := by
  unfold fcCmd
  dsimp only
  repeat' split
  all_goals simp

@[simp] theorem fcWrite_keepsClear {path : Path} {f : State → State} {s : State} : KeepsClear s (fcWrite path f s) := by
  unfold fcWrite
  dsimp only
  split <;> simp

@[simp] theorem cpCmd_keepsClear {path : Path} {op n : Nat} {s : State} : KeepsClear s (cpCmd path op n s) := by
  unfold cpCmd
  dsimp only
  repeat' split
  all_goals simp

@[simp] theorem execQueueDoorbell_keepsClear {p queue tail : Nat} {s : State} : KeepsClear s (execQueueDoorbell p queue tail s) := by
  simp [execQueueDoorbell]

@[simp] theorem execPortRingDoorbell_keepsClear {p tail : Nat} {s : State} : KeepsClear s (execPortRingDoorbell p tail s) := by
  simp [execPortRingDoorbell]

@[simp] theorem execPortRingEnable_keepsClear {p : Nat} {en : Bool} {sizeCode : Nat} {s : State} :
    KeepsClear s (execPortRingEnable p en sizeCode s) := by
  simp [execPortRingEnable]

@[simp] theorem execSlcfgWrite_keepsClear {path : Path} {n : Nat} {v : Word} {s : State} : KeepsClear s (execSlcfgWrite path n v s) := by
  unfold execSlcfgWrite; simp

/-- A register with a behaviour of its own runs one of the commands above. -/
theorem writeCommand_keepsClear {path : Path} {r : Reg} {v : Word} {s : State} {x : Res} (h : writeCommand path r v s = some x) :
    KeepsClear s x := by
  revert h
  unfold writeCommand
  dsimp only
  repeat' split
  all_goals intro h; cases h
  all_goals simp [execBuild, execChange, execDissolve, execReadDesc, execRegionWrite, execRegionRead, execLoad, execStage, execActivate, execDiscard,
    execImportKey, execGenerate, execErase, execOwnerBind, execCertLoad, execDevidRead, execPikRead, execTransition, execRaiseSvn, execDgChallenge,
    execDebugOpen, execRetainBlock, execFcStatusClear, execFcLock, execFcInjectArm, execSvWideWrite, execSvRetWrite, execSweepEnSet, execRouteWrite,
    execCpOkeyWrite, execOppChange]

/-- The registers outside the host ports' copies that every path may write belong to units other than the memory engines. -/
theorem writeOpen_sv_of_regPort_none {r : Reg} (hr : regPort r = none) (s : State) (path : Path) (v : Word) :
    (writeOpen s path r v).sv = s.sv := by
  unfold writeOpen
  dsimp only
  split
  case h_2 | h_4 => split <;> rfl
  case h_5 | h_6 | h_7 => cases hr
  all_goals rfl

@[simp] theorem writeReg_keepsClear {path : Path} {r : Reg} {v : Word} {s : State} : KeepsClear s (writeReg path r v s) := by
  unfold writeReg
  split
  · repeat' split
    case h_1 x hx => exact writeCommand_keepsClear hx
    all_goals simp
  case h_2 hr =>
    have hw : clear (writeOpen s path r v) = clear s := clear_eq_of_sv (writeOpen_sv_of_regPort_none hr s path v)
    dsimp only
    repeat' split
    case h_1 x hx => exact writeCommand_keepsClear hx
    all_goals simp [hw]

theorem execRegisterWrite_keepsClear {path : Path} {off : Nat} {v : Word} {s : State} : KeepsClear s (execRegisterWrite path off v s) := by
  refine .of_clear_eq (clear_awake s) ?_
  unfold execRegisterWrite
  dsimp only
  repeat' split
  all_goals simp

@[simp] theorem needTx_sv (s : State) (dest lkey : Nat) : (needTx s dest lkey).1.sv = s.sv := by
  unfold needTx
  split
  · rfl
  · split <;> rfl

theorem execGroupSend_keepsClear {dest lkey : Nat} {op : Option Nat} {s : State} : KeepsClear s (execGroupSend dest lkey op s) := by
  unfold execGroupSend
  dsimp only
  repeat' split
  case h_2.isFalse u hu _ _ _ _ _ => exact .of_clear_eq (clear_eq_of_sv (by simpa [hu] using needTx_sv s dest lkey)) sendOp_keepsClear
  all_goals simp

theorem execHopSealOpen_keepsClear {k : Nat} {flip : BitVec 128} {s : State} : KeepsClear s (execHopSealOpen k flip s) := by
  unfold execHopSealOpen
  split
  · simp
  · split
    · exact keepsClear_settle
    · exact keepsClear_guardRes rfl

/-- No command leaves an access waiting (R28, R276): each answers a settled state, the state it met, or an outcome of one of the shared operations. -/
theorem exec_keepsClear (i : Instr) (s : State) : KeepsClear s (exec i s) := by
  unfold exec
  cases i with
  | nop | tend | tlink | pend | br | tview | dsetw | dgetw | smov | plog | rstep | astep | ldb | stb | st | pref | push | twait | fwait | tld
  | tadd | tswap | fsig | ferr | lpost | lclose | lputm | mma | epi | vzero | vred | satt | sobs | sst | hupd | route | xgath | xscat | topk
  | texp =>
    exact issue_keepsClear
  | sadd | ssub | smul | sand | sor | sxor | sshl | sshr | ssra => exact scalar_keepsClear
  | seq | sne | slt | sltu | sle | sleu => exact compare_keepsClear
  | vcvt | vadd | vsub | vmul | vmin | vmax | vfma | vun | vdrop | vrand => exact vector_keepsClear
  | gath | scat => exact issueRows_keepsClear
  | lput | lred | lget => exact issueLink_keepsClear
  | beadLeave | beadFree => exact beadPacket_keepsClear
  | getVersion | getCapabilities | negotiateAlgorithms | getDigests | getCertificate | spdmChallenge | keyExchange => exact spdmReq_keepsClear
  | bind | close => exact message_keepsClear
  | keyPut | keyErase | measure | accept | reportDetail => exact boundMessage_keepsClear
  | warpNop | stepOpen | stepClose | launch | launchExt | signal | wait | error | invalidate | rodConfig | beadAlloc | features | ctxCreate
  | ctxDestroy | qCreate | qDestroy | qReset | fenceAlloc | fenceFree | fenceClear | memObj | memFree =>
    exact packet_keepsClear
  | tallyRead | tallyAdd | tallySwap | tallyWrite | tallyMax | tallySeterr => exact tallySlot_keepsClear
  | ackReceive | getRspReceive | errReceive => exact takeVerified_keepsClear
  | build | change | dissolve | readDesc | regionWrite | regionRead => exact slCmd_keepsClear
  | load | stage | activate | discard => exact fwCmd_keepsClear
  | importKey | generate | erase | ownerBind | certLoad | devidRead | pikRead => exact ksCmd_keepsClear
  | transition | raiseSvn => exact lcCmd_keepsClear
  | dgChallenge | debugOpen => exact dgCmd_keepsClear
  | engineReset | sliceReset | warmReset | powerCycle | unfence => exact fcCmd_keepsClear
  | fcStatusClear | fcLock | fcInjectArm => exact fcWrite_keepsClear
  | capture | replicate | confirm | restore => exact cpCmd_keepsClear
  | oppChange | retainBlock | sweepEnSet => exact secWrite_keepsClear
  | cpOkeyWrite | svWideWrite | svRetWrite | routeWrite | slcfgWrite => exact secWriteAt_keepsClear
  | hostSliceRead => exact hostSlice_keepsClear
  | tamperWipe | tamperWipeDone | dissolveDrainDone | teardownDrainDone | deferredActivationStart | fwWatchdogExpiry | fwProcessorCrash
  | fwRestartDone | slotScan | drbgReseed | debugOpenComplete | resetUnitsLeave | blkColdNRise | blkColdNFall | thermEmrgNChange
  | pwrEmrgNChange | dutyChange | rootclkLoss | rootclkOutOfRange | tamperNFall | oppChangeDone | blockWake | tamperNRise | rootclkInRange =>
    exact keepsClear_guardRes rfl
  | tileOverrun | contextSwitch | boltRegionClearDone | metadataCacheFill | groupReencryption | scrubAccess | groupRetirement | mpReadyFall
  | mpReadyRise | linkUpChange | regulationWindow | portRingFetch | finish | engineResetDone | mpReadyTimeout | clusterRetThreshold
  | halfRetThreshold | engineStartRequest | wakeGrant | hppRstFall | illegalInstruction | fetchRange | rowRepairRequest
  | bridgeTransferReceive | quantumExpiry | stateRecordSpill | stateRecordFill | getMeasurements | engineIdleThreshold | engineStartDone =>
    exact keepsClear_unitRes rfl
  | rowRepairAnswer | memoryCompletion | d2dErr | hostReadCompletion | linkFrameReceive | queueDoorbell | portRingDoorbell | portRingEnable
  | hostCreditReturn =>
    exact keepsClear_hereRes
  | selvageRead | selvageFullWrite | selvagePartialWrite => exact keepsClear_accessRes
  | entropyHealthFail | blkWarmNFall | jtagInstruction => exact keepsClear_settle
  | groupSend => exact execGroupSend_keepsClear
  | hopSealOpen => exact execHopSealOpen_keepsClear
  | registerWrite => exact execRegisterWrite_keepsClear
  -- a case split of the command's own: every branch settles, is a shared operation, or answers the state that the command met
  | ttest | hostSliceWrite | teardownTimeout | twaitRelease | fwaitRelease | shuttleOperationStart | shuttleOperationComplete
  | prefetchDequeue | asyncOperationComplete | requestErrorReturn | sweepStart | sweepVisit | keyidRetirement | keyidRetirementDone
  | groupVerify | ackSend | rtoExpiry | changeEngineRelease | headWrite | gangStart | gangTimeout | waitRelease | imageReadDone | bounceH2d
  | bounceD2h | bounceComplete | errorEvent | engrstTo | sliceResetDone | slrstTo | warmResetTimeout | checkpointHashDone | memoryWakeRequest
  | memoryWakeDone | beadUpdate | jtagInstrumentAccess =>
    simp only [execTtest, execHostSliceWrite, execTeardownTimeout, execTwaitRelease, execFwaitRelease, execShuttleOperationStart,
      execShuttleOperationComplete, execPrefetchDequeue, execAsyncOperationComplete, execRequestErrorReturn, execSweepStart, execSweepVisit,
      execKeyidRetirement, execKeyidRetirementDone, execGroupVerify, execAckSend, execRtoExpiry, execChangeEngineRelease, execHeadWrite,
      execGangStart, execGangTimeout, execWaitRelease, execImageReadDone, execBounceH2d, execBounceD2h, execBounceComplete, execErrorEvent,
      execEngrstTo, execSliceResetDone, execSlrstTo, execWarmResetTimeout, execCheckpointHashDone, execMemoryWakeRequest, execMemoryWakeDone,
      execBeadUpdate, execJtagInstrumentAccess]
    repeat' split
    all_goals simp [issue_keepsClear, hostSlice_keepsClear, packet_keepsClear, beadPacket_keepsClear]

/-- No command changes the build parameters or the queue that it runs with: each command's own lemma under Laws/. -/
theorem exec_keeps (i : Instr) (s : State) : Keeps s (exec i s) := by
  unfold exec
  cases i <;> simp

/-! ## One step -/

/-- The outcome of a step: the front command's on the queue's rest, or a clock tick's. -/
theorem step_next {s t : State} (h : step s = .next t) :
    (∃ c rest, s.pending = c :: rest ∧ exec c { s with pending := rest } = .next t) ∨ (s.pending = [] ∧ t = tick s) := by
  unfold step at h
  split at h
  case h_1 c rest hp => exact .inl ⟨c, rest, hp, h⟩
  case h_2 hp => cases h; exact .inr ⟨hp, rfl⟩

/-- A step keeps the build parameters and takes the front command off the queue. -/
theorem step_fixed {s t : State} (h : step s = .next t) : t.fixed = (s.cfg, s.pending.drop 1) := by
  rcases step_next h with ⟨c, rest, hp, hx⟩ | ⟨hp, rfl⟩
  · have hk := exec_keeps c { s with pending := rest }
    rw [hx, keeps_next] at hk
    rw [hk, hp]
    rfl
  · rw [tick_fixed, State.fixed, hp]
    rfl

/-- A step leaves no access waiting where none waited (R28, R276). -/
theorem step_clear {s t : State} (h : step s = .next t) (hs : clear s = true) : clear t = true := by
  rcases step_next h with ⟨c, rest, -, hx⟩ | ⟨-, rfl⟩
  · exact exec_keepsClear c _ t hx hs
  · exact clear_tick hs

/-! ## The identification registers (R10, R14, R37) -/

@[simp] theorem regValue_ckVersion (s : State) (path : Path) : regValue s path .ckVersion = ckVersion := by
  simp [regValue, regPresent, regSecure, regPort, readLow, readMid, readUnits, readPort, readHigh]
@[simp] theorem regValue_ckConfig (s : State) (path : Path) : regValue s path .ckConfig = s.cfg.ckConfig := by
  simp [regValue, regPresent, regSecure, regPort, readLow, readMid, readUnits, readPort, readHigh]
@[simp] theorem regValue_ckTopology (s : State) (path : Path) : regValue s path .ckTopology = s.cfg.ckTopology := by
  simp [regValue, regPresent, regSecure, regPort, readLow, readMid, readUnits, readPort, readHigh]

/-- Settles O2: a command keeps the build parameters and its queue, and each command and the clock answer only settled states or states whose
memory engines they left alone. -/
theorem stepKeepsBuildParameters : Obligations.StepKeepsBuildParameters := by
  unfold Obligations.StepKeepsBuildParameters
  intro s t hl h
  obtain ⟨hc, hp⟩ : t.cfg = s.cfg ∧ t.pending = s.pending.drop 1 := Prod.mk.inj (step_fixed h)
  refine ⟨hc ▸ hl, hp, step_clear h, fun path => ⟨?_, ?_, ?_⟩⟩ <;> simp [hc]

/-! ## The canonical form of a table -/

theorem mabove_iff {α : Type} (k : Nat) (m : List (Nat × α)) : mabove k m = true ↔ ∀ e ∈ m, k < e.1 := by
  induction m with
  | nil => simp [mabove]
  | cons e m ih => simp [mabove, ih]

/-- The canonical form: keys strictly rising, no entry equal to the default. -/
theorem mwf_iff {α : Type} [DecidableEq α] (d : α) (m : List (Nat × α)) :
    mwf d m = true ↔ m.Pairwise (fun a b => a.1 < b.1) ∧ ∀ e ∈ m, e.2 ≠ d := by
  induction m with
  | nil => simp [mwf]
  | cons e m ih =>
    simp only [mwf, Bool.and_eq_true, decide_eq_true_eq, mabove_iff, ih, List.pairwise_cons, List.forall_mem_cons]
    tauto

/-! ## The state after reset (R52, R449) -/

/-- The fences of the direct contexts stand at rising indices, 1,024 to a port, and none is free. -/
theorem mwf_directFences (c : Cfg) (gen : Nat → Nat) : mwf Fence.zero (directFences c gen) = true := by
  rw [mwf_iff]
  constructor
  · simp only [directFences, List.pairwise_flatMap, List.pairwise_map, List.mem_map, List.mem_range]
    refine ⟨fun p _ => List.pairwise_lt_range.imp fun h => by simpa using h, List.pairwise_lt_range.imp fun {p q} hpq => ?_⟩
    rintro _ ⟨i, hi, rfl⟩ _ ⟨j, -, rfl⟩
    dsimp only
    omega
  · simp only [directFences, List.mem_flatMap, List.mem_map]
    rintro _ ⟨p, -, i, -, rfl⟩
    simp [Fence.zero]

theorem mwf_directTally (c : Cfg) (h : Nat) :
    mwf 0 (directTally c h).pool = true ∧ mwf 0 (directTally c h).sec = true ∧ mwf Fence.zero (directTally c h).fences = true := by
  refine ⟨rfl, rfl, ?_⟩
  unfold directTally
  dsimp only
  split
  · exact mwf_directFences c _
  · rfl

theorem memWf_reset : State.reset.memWf = true := by
  simp only [State.memWf, Bool.and_eq_true, List.all_eq_true, and_assoc]
  refine ⟨fun _ he => (nomatch he), fun k hk => ?_, fun t ht => ?_, rfl⟩
  · obtain ⟨n, -, rfl⟩ := List.mem_map.mp hk
    rfl
  · obtain ⟨h, -, rfl⟩ := List.mem_map.mp ht
    exact mwf_directTally _ h

/-- Settles O3: LU-48 meets the rows of R4 and R34, and the memories hold nothing but the fences of the direct contexts. -/
theorem resetIsLegalAndIdle : Obligations.ResetIsLegalAndIdle := by
  unfold Obligations.ResetIsLegalAndIdle
  refine ⟨?_, rfl, memWf_reset, rfl, fun path => regValue_ckVersion _ path⟩
  decide

end Sys2Proof.Machine
end

section
/-! PROOFS. The end of an engine's release and of a dissolved slice (O36): what presenting at a host port, the end of a program and a fence leave
alone, a context that leaves its engine, and what a slice leaves when it reaches FREE. -/
namespace Sys2Proof.Machine

/-! ## How a command ends -/

/-- A command that settles a state in which no access waits ends with that state. -/
theorem Ends.of_settle {i : Instr} {s t : State} {P : State → Prop} (h : exec i s = settle t) (hc : clear t = true) (hP : P t) :
    Ends i s P := ⟨t, h.trans (settle_clear hc), hP⟩

/-- An event whose condition holds, and whose effect leaves no access waiting, ends with its effect. -/
theorem Ends.of_guard {i : Instr} {s t : State} {c : Bool} {P : State → Prop} (h : exec i s = guardRes s c t) (hcond : c = true)
    (hc : clear t = true) (hP : P t) : Ends i s P := ⟨t, h.trans (guardRes_clear hcond hc), hP⟩

/-! ## Tables -/

/-- Distinct keys of a table updated one after the other: each is updated once, the others are left alone. -/
theorem mget_foldl_mmod {α : Type} [DecidableEq α] (d : α) (f : α → α) (j : Nat) (l : List Nat) (hl : l.Nodup) (m : List (Nat × α)) :
    mget d (l.foldl (fun m k => mmod d m k f) m) j = if j ∈ l then f (mget d m j) else mget d m j := by
  induction l generalizing m with
  | nil => simp
  | cons k l ih =>
    obtain ⟨hk, hl⟩ := List.nodup_cons.mp hl
    rw [List.foldl_cons, ih hl]
    by_cases hj : j = k
    · subst hj; simp [hk]
    · simp [hj, mget_mmod_other]

/-- A change of every entry that leaves the default alone is the change of what each key reads as. -/
theorem mget_map {α : Type} (d : α) (f : α → α) (hd : f d = d) (m : List (Nat × α)) (k : Nat) :
    mget d (m.map fun e => (e.1, f e.2)) k = f (mget d m k) := by
  induction m with
  | nil => exact hd.symm
  | cons e m ih => simp only [List.map_cons, mget, ih, apply_ite f]

/-! ## What presenting at a host port leaves alone (R606 to R609) -/

/-- The state but for what presenting at a host port changes: the Tally memories, of which it may start a wake, the ports and what was presented. -/
def State.inward (s : State) : State := { s with tally := [], hports := [], out := [] }

@[simp] theorem wakeHalf_inward (s : State) (h : Nat) : (wakeHalf s h).inward = s.inward := by
  unfold wakeHalf; split <;> rfl

@[simp] theorem drainOut_inward (s : State) (p : Nat) : (drainOut s p).inward = s.inward := by
  unfold drainOut; split <;> rfl

@[simp] theorem modHport_inward (s : State) (p : Nat) (f : HPort → HPort) : (modHport s p f).inward = s.inward := rfl

@[simp] theorem pushOut_inward (s : State) (p : Nat) (xs : List OutItem) : (pushOut s p xs).inward = s.inward := by
  unfold pushOut; split <;> simp

@[simp] theorem hostEvent_inward (s : State) (p vec : Nat) : (hostEvent s p vec).inward = s.inward := pushOut_inward ..
@[simp] theorem hostPost_inward (s : State) (p addr : Nat) (bs : List Byte) : (hostPost s p addr bs).inward = s.inward := pushOut_inward ..
@[simp] theorem issueRead_inward (s : State) (p : Nat) (t : HTag) : (issueRead s p t).inward = s.inward := pushOut_inward ..
@[simp] theorem hostFetch_inward (s : State) (p : Nat) (r : Reader) (addr len : Nat) : (hostFetch s p r addr len).inward = s.inward :=
  issueRead_inward ..

@[simp] theorem ringFetch_inward (s : State) (p : Nat) : (ringFetch s p).inward = s.inward := by
  unfold ringFetch; dsimp only; split <;> simp

@[simp] theorem resumeRings_inward (s : State) : (resumeRings s).inward = s.inward := foldl_keeps State.inward ringFetch_inward _ s

/-! ## The tag of a read (R608) -/

theorem drainOut_tags (s : State) (p : Nat) : (hportOf (drainOut s p) p).tags = (hportOf s p).tags := by
  unfold drainOut; dsimp only; split
  · rfl
  · rcases presentOut p (hportOf s p).outQ (hportOf s p).outCred s.out with ⟨q, c, o⟩
    exact (congrArg HPort.tags (hportOf_modHport s p fun h => { h with outQ := q, outCred := c }) :)

theorem wakeHalf_hports (s : State) (h : Nat) : (wakeHalf s h).hports = s.hports := by
  unfold wakeHalf; split <;> rfl

theorem pushOut_tags (s : State) (p : Nat) (xs : List OutItem) : (hportOf (pushOut s p xs) p).tags = (hportOf s p).tags := by
  unfold pushOut; split
  · rfl
  · rw [drainOut_tags, hportOf_modHport]
    simp [hportOf, wakeHalf_hports]

/-- A read of host memory starts with a tag of its own, of no byte yet. -/
theorem hostFetch_tags (s : State) (p : Nat) (r : Reader) (addr len : Nat) :
    (hportOf (hostFetch s p r addr len) p).tags = (hportOf s p).tags ++ [⟨(hportOf s p).nextTag, r, addr, len, 0, 0, []⟩] := by
  unfold hostFetch issueRead
  rw [pushOut_tags, hportOf_modHport]

/-! ## What the end of a program and a fence leave alone (R434, R440, R441) -/

/-- Regions, slices, and every engine but for its wait. -/
def State.standing (s : State) : List (Nat × Region) × List (Nat × Slice) × (Nat → Engine) :=
  (s.regions, s.slices, fun k => { engOf s k with wait := none })

theorem standing_of_inward {s t : State} (h : t.inward = s.inward) : t.standing = s.standing :=
  (congrArg State.standing h :)

theorem engOf_map_wait {s t : State} (w : WaitRec → WaitRec)
    (h : t.engines = s.engines.map fun e => (e.1, { e.2 with wait := e.2.wait.map w })) (k : Nat) :
    engOf t k = { engOf s k with wait := (engOf s k).wait.map w } := by
  unfold engOf
  rw [h]
  exact mget_map Engine.idle (fun g => { g with wait := g.wait.map w }) rfl s.engines k

/-- A word presented may end the wait of an engine, and changes nothing else of it (R270). -/
theorem engOf_presentWord (s : State) (h off k : Nat) : ∃ w, engOf (presentWord s h off) k = { engOf s k with wait := w } :=
  ⟨_, engOf_map_wait _ rfl k⟩

@[simp] theorem presentWord_standing (s : State) (h off : Nat) : (presentWord s h off).standing = s.standing := by
  refine Prod.ext rfl (Prod.ext rfl (funext fun k => ?_))
  obtain ⟨w, hw⟩ := engOf_presentWord s h off k
  exact congrArg (fun g : Engine => { g with wait := none }) hw

@[simp] theorem fenceErr_standing (s : State) (f code : Nat) : (fenceErr s f code).standing = s.standing := by
  unfold fenceErr; split
  · rfl
  · exact presentWord_standing ..

@[simp] theorem tearAdvance_standing (s : State) (c : Nat) : (tearAdvance s c).standing = s.standing := by
  unfold tearAdvance
  dsimp only
  split
  · split
    · split
      · rfl
      · generalize hu : List.foldl _ s (List.range s.cfg.halves) = u
        have : u.standing = s.standing := by
          rw [← hu]
          refine foldl_keeps State.standing (fun t h => ?_) _ s
          refine foldl_keeps State.standing (fun t f => ?_) _ t
          split <;> simp
        exact this
    · rfl
  · rfl

@[simp] theorem writeStatus_standing (s : State) (a : StatusAt) (code result : Nat) : (writeStatus s a code result).standing = s.standing := by
  have hw : (hostPost s a.port a.addr (leBytes 8 (statusWord code result).toNat)).standing = s.standing := standing_of_inward (by simp)
  have he (t : State) : (hostEvent t a.port 0).standing = t.standing := standing_of_inward (by simp)
  have hr (t : State) (f : PortRing → PortRing) : (modRing t a.port f).standing = t.standing := rfl
  unfold writeStatus
  dsimp only
  repeat' split
  all_goals simp [hw, he, hr]

@[simp] theorem finishRing_standing (s : State) (n : Nat) (r : RingId) : (finishRing s n r).standing = s.standing := by
  cases r with
  | queue q => rfl
  | port p => exact (standing_of_inward (ringFetch_inward _ p)).trans rfl

@[simp] theorem modCtx_standing (s : State) (c : Nat) (f : Ctx → Ctx) : (modCtx s c f).standing = s.standing := rfl

@[simp] theorem checkDone_standing (s : State) (c : Nat) : (checkDone s c).standing = s.standing := by
  unfold checkDone
  dsimp only
  repeat' split
  all_goals simp

@[simp] theorem addReady_standing (s : State) (c : Nat) : (addReady s c).standing = s.standing := by
  unfold addReady addReadyAt; split <;> rfl

@[simp] theorem modAcc_standing (s : State) (c : Nat) (f : CtxAcc → CtxAcc) : (modAcc s c f).standing = s.standing := rfl
@[simp] theorem modSlSched_standing (s : State) (n : Nat) (f : SlSched → SlSched) : (modSlSched s n f).standing = s.standing := rfl

/-! ## A context leaves its engine (R183, R184) -/

/-- An engine whose context has left it. -/
def Engine.vacated (g : Engine) (at' : Nat) : Engine :=
  { Engine.idle with icache := g.icache, phase := g.phase, removing := g.removing, runStart := at' }

/-- Saving a state record writes a Bolt buffer only. -/
theorem saveRecord_frame (s : State) (e c gen : Nat) : ∃ cl, saveRecord s e c gen = { s with clusters := cl } := by
  unfold saveRecord
  dsimp only
  split
  · exact ⟨_, rfl⟩
  · exact ⟨s.clusters, rfl⟩

/-- A context that leaves its engine vacates it; regions, slices and the other engines stay. -/
theorem detach_standing {s : State} {e : Nat} (h : (engOf s e).ctx ≠ none) :
    (detach s e).standing = (modEng s e fun g => g.vacated s.pclk).standing := by
  obtain ⟨⟨c, gen⟩, hc⟩ := Option.ne_none_iff_exists'.mp h
  have hs : ∃ cl, (if (ctxOf s c).gen = gen then saveRecord s e c gen else s) = { s with clusters := cl } := by
    split
    · exact saveRecord_frame s e c gen
    · exact ⟨s.clusters, rfl⟩
  obtain ⟨cl, hs⟩ := hs
  unfold detach
  simp only [hc, hs]
  split
  · rfl
  · simp only [tearAdvance_standing, checkDone_standing, apply_ite State.standing, modSlSched_standing, modAcc_standing, addReady_standing,
      modCtx_standing, ite_self]
    rfl

theorem detach_idle {s : State} {e : Nat} (h : (engOf s e).ctx = none) : detach s e = s := by
  unfold detach; simp only [h]

/-- Equal standing, engine by engine. -/
theorem engine_of_standing {s t : State} (h : t.standing = s.standing) (k : Nat) :
    (engOf t k).ctx = (engOf s k).ctx ∧ (engOf t k).pc = (engOf s k).pc ∧ (engOf t k).spad = (engOf s k).spad := by
  have hk : ({ engOf t k with wait := none } : Engine) = { engOf s k with wait := none } :=
    congrFun (congrArg (fun x => x.2.2) h) k
  exact ⟨(congrArg Engine.ctx hk :), (congrArg Engine.pc hk :), (congrArg Engine.spad hk :)⟩

theorem detach_regions (s : State) (e : Nat) : (detach s e).regions = s.regions := by
  by_cases h : (engOf s e).ctx = none
  · rw [detach_idle h]
  · exact (congrArg Prod.fst (detach_standing h) :)

theorem detach_slices (s : State) (e : Nat) : (detach s e).slices = s.slices := by
  by_cases h : (engOf s e).ctx = none
  · rw [detach_idle h]
  · exact (congrArg (fun x => x.2.1) (detach_standing h) :)

/-- The engine holds no context afterwards, and its scratchpad is clear. -/
theorem engOf_detach_same {s : State} {e : Nat} (h : (engOf s e).ctx ≠ none) :
    (engOf (detach s e) e).ctx = none ∧ (engOf (detach s e) e).spad = [] := by
  obtain ⟨hc, -, hs⟩ := engine_of_standing (detach_standing h) e
  rw [engOf_modEng] at hc hs
  exact ⟨hc, hs⟩

/-- The other engines keep their contexts, places and scratchpads. -/
theorem engOf_detach_ne (s : State) {e k : Nat} (hk : k ≠ e) :
    (engOf (detach s e) k).ctx = (engOf s k).ctx ∧ (engOf (detach s e) k).pc = (engOf s k).pc ∧
      (engOf (detach s e) k).spad = (engOf s k).spad := by
  by_cases h : (engOf s e).ctx = none
  · rw [detach_idle h]; exact ⟨rfl, rfl, rfl⟩
  · have := engine_of_standing (detach_standing h) k
    rwa [engOf_modEng_ne _ _ hk] at this

/-! ## A slice reaches FREE (R48, R311, R421) -/

/-- The state but for what the erasure of keys, blobs, sessions and streams changes. -/
def State.keyless (s : State) : State := { s with tally := [], asyncs := [], links := default, ks := default }

@[simp] theorem clearBlob_keyless (s : State) (b : Nat) : (clearBlob s b).keyless = s.keyless := rfl
@[simp] theorem freeStreams_keyless (s : State) (k : Nat) : (freeStreams s k).keyless = s.keyless := rfl
@[simp] theorem modLkey_keyless (s : State) (k : Nat) (f : LinkKey → LinkKey) : (modLkey s k f).keyless = s.keyless := rfl
@[simp] theorem modKsSlice_keyless (s : State) (n : Nat) (f : KSlice → KSlice) : (modKsSlice s n f).keyless = s.keyless := rfl

@[simp] theorem closeSession_keyless (s : State) (id : Nat) : (closeSession s id).keyless = s.keyless := by
  unfold closeSession; dsimp only; split <;> rfl

theorem dropKeys_keyless (s : State) (n : Nat) : (dropKeys s n).keyless = s.keyless := by
  unfold dropKeys
  simp only [modKsSlice_keyless, clearBlob_keyless]
  refine (foldl_keeps State.keyless (fun t (x : Nat × Session) => closeSession_keyless t x.1) _ _).trans ?_
  refine (foldl_keeps State.keyless (fun t k => by simp) _ _).trans ?_
  exact foldl_keeps State.keyless (fun t k => clearBlob_keyless t _) _ s

theorem dropKeys_frame (s : State) (n : Nat) : ∃ ta as li ks, dropKeys s n = { s with tally := ta, asyncs := as, links := li, ks := ks } :=
  ⟨(dropKeys s n).tally, (dropKeys s n).asyncs, (dropKeys s n).links, (dropKeys s n).ks,
    congrArg (fun u : State => { u with tally := (dropKeys s n).tally, asyncs := (dropKeys s n).asyncs, links := (dropKeys s n).links,
                                        ks := (dropKeys s n).ks }) (dropKeys_keyless s n)⟩

theorem foldl_modPort (f : MemPort → MemPort) (l : List Nat) (s : State) :
    ∃ ps, l.foldl (fun t m => modPort t m f) s = { s with sv := { s.sv with ports := ps } } := by
  induction l generalizing s with
  | nil => exact ⟨s.sv.ports, rfl⟩
  | cons m l ih => exact ih (modPort s m f)

theorem stopSweeps_frame (s : State) (n : Nat) : ∃ ps, stopSweeps s n = { s with sv := { s.sv with ports := ps } } :=
  foldl_modPort _ _ s

theorem foldl_modKid (f : Kid → Kid) (l : List Nat) (s : State) :
    l.foldl (fun t k => modKid t k f) s = { s with sv := { s.sv with kids := l.foldl (fun m k => mmod Kid.zero m k f) s.sv.kids } } := by
  induction l generalizing s with
  | nil => rfl
  | cons k l ih => exact ih (modKid s k f)

/-- The memory key identifiers of a descriptor. -/
def keyRange (d : List Word) : List Nat := (List.range (dKeyCount d)).map (dKeyBase d + ·)

theorem mem_keyRange {d : List Word} {k : Nat} (h1 : dKeyBase d ≤ k) (h2 : k < dKeyBase d + dKeyCount d) : k ∈ keyRange d :=
  List.mem_map.mpr ⟨k - dKeyBase d, List.mem_range.mpr (by omega), by omega⟩

theorem nodup_keyRange (d : List Word) : (keyRange d).Nodup := List.Nodup.map (fun _ _ h => Nat.add_left_cancel h) List.nodup_range

/-- A memory key identifier that has gone to retirement (R311). -/
def Kid.toRetire (x : Kid) : Kid := { x with state := .retiring, partner := 0, overBudget := false }

/-- What a slice leaves when it reaches FREE: the record of a free slice, no region and no bead of its own, its memory key identifiers retiring,
and a retirement job last. What else changes are Tally memories, operations in flight, links, keys, sweeps, cached pages and budgets. -/
theorem freeSlice_frame (s : State) (n : Nat) : ∃ ta as li ks ps bw s2 ord js, freeSlice s n =
    { s with
      tally := ta, asyncs := as, links := li, ks := ks, bw := bw, s2 := s2,
      sv := { s.sv with ports := ps, kids := (keyRange (descOf s n)).foldl (fun m k => mmod Kid.zero m k Kid.toRetire) s.sv.kids },
      slices := mmod Slice.zero s.slices n fun _ => Slice.zero,
      regions := s.regions.filter fun r => r.2.slice ≠ n,
      sched := { s.sched with beads := s.sched.beads.filter fun b => b.2.slice ≠ n || b.2.state = 0, order := ord },
      retJobs := js ++ [⟨keyRange (descOf s n), members (descOf s n), dWinBase (descOf s n), dWinSize (descOf s n), true, []⟩] } := by
  obtain ⟨ta, as, li, ks, hk⟩ := dropKeys_frame s n
  obtain ⟨ps, hp⟩ := stopSweeps_frame (freeObjects (dropKeys s n) n) n
  unfold freeSlice handOver updateBudgets
  simp only [hp, foldl_modKid]
  rw [hk]
  exact ⟨_, _, _, _, _, _, _, _, _, rfl⟩

/-- DISSOLVE_DRAIN_DONE frees the slice, and may end the slice manager's DISSOLVE with it. -/
theorem execDissolveDrainDone_free {n : Nat} {s : State} (hn : n < 16) (hd : dissolved s n = true) (hr : drainedOf s n = true)
    (hfirst : n ≠ 0 ∨ s.slm.buildLocked = true) : ∃ m, execDissolveDrainDone n s = settle { freeSlice s n with slm := m } := by
  have hcond : (decide (n < 16) && dissolved s n && drainedOf s n) = true := by simp [hn, hd, hr]
  have hf : (decide (n = 0) && !s.slm.buildLocked) = false := by rcases hfirst with h | h <;> simp [h]
  unfold execDissolveDrainDone guardRes
  simp only [hcond, hf, if_true, Bool.false_eq_true, if_false]
  split
  · exact ⟨_, rfl⟩
  · exact ⟨(freeSlice s n).slm, rfl⟩

/-- An engine that a CHANGE removes is released at a boundary (R48, R29). -/
theorem execChangeEngineRelease_released {e n : Nat} {s : State}
    (hn : ((List.range 16).find? fun n => (sliceOf s n).releasing.contains e) = some n) (hrun : blockRuns s = true)
    (htile : (engOf s e).tileOpen = false) : execChangeEngineRelease e s =
      settle (modSlice (modEng (detach s e) e fun g => { g with switchReq := false, icache := [], runStart := s.pclk }) n
        fun x => { x with releasing := x.releasing.filter (· ≠ e) }) := by
  unfold execChangeEngineRelease guardRes
  rw [hn]
  simp only [hrun, htile, Bool.not_false, Bool.and_self, if_true]

theorem sliceOf_of_slices {s t : State} (h : t.slices = s.slices) (n : Nat) : sliceOf t n = sliceOf s n :=
  congrArg (fun m => mget Slice.zero m n) h

/-- A slice that reaches FREE, with the slice manager's registers as they may be: what the statement of O36 asks of the state. -/
theorem freeSlice_freed (s : State) (n : Nat) (m : Slm) :
    let t : State := { freeSlice s n with slm := m }
    let d := descOf s n
    sliceOf t n = Slice.zero ∧ (∀ k, k ≠ n → sliceOf t k = sliceOf s k) ∧
      (∀ r ∈ t.regions, r.2.slice ≠ n) ∧ (∀ r ∈ s.regions, r.2.slice ≠ n → r ∈ t.regions) ∧
      (∀ b ∈ t.sched.beads, b.2.slice = n → b.2.state = 0) ∧
      (∀ k ∈ keyRange d, (kidOf t k).state = .retiring) ∧
      (⟨keyRange d, members d, dWinBase d, dWinSize d, true, []⟩ : RetJob) ∈ t.retJobs ∧
      t.engines = s.engines ∧ t.ctxs = s.ctxs ∧ clear t = clear s := by
  obtain ⟨ta, as, li, ks, ps, bw, s2, ord, js, h⟩ := freeSlice_frame s n
  rw [h]
  refine ⟨sliceOf_modSlice s n fun _ => Slice.zero, fun k hk => sliceOf_modSlice_ne s (fun _ => Slice.zero) hk, ?_, ?_, ?_, fun k hk => ?_, ?_, rfl, rfl, rfl⟩
  · exact fun r hr => by simpa using (List.mem_filter.mp hr).2
  · exact fun r hr hn => List.mem_filter.mpr ⟨hr, by simpa using hn⟩
  · exact fun b hb hn => by simpa [hn] using (List.mem_filter.mp hb).2
  · have := mget_foldl_mmod Kid.zero Kid.toRetire k _ (nodup_keyRange (descOf s n)) s.sv.kids
    rw [if_pos hk] at this
    exact congrArg Kid.state this
  · exact List.mem_append_right _ (List.mem_singleton.mpr rfl)

/-- Settles O36: the context leaves its engine as `detach_standing` says, and a dissolved slice leaves what `freeSlice_frame` says. -/
theorem slicesReleaseEnginesAndBecomeFree : Obligations.SlicesReleaseEnginesAndBecomeFree := by
  unfold Obligations.SlicesReleaseEnginesAndBecomeFree
  constructor
  · intro e n s hn hrun htile hclear
    refine Ends.of_settle (execChangeEngineRelease_released hn hrun htile) hclear ?_
    have hs (k : Nat) : sliceOf (detach s e) k = sliceOf s k := sliceOf_of_slices (detach_slices s e) k
    refine ⟨?_, ?_, fun h => ?_, fun k hk => ?_, detach_regions s e, ?_, fun k hk => ?_⟩
    · simp
    · simp
    · simpa using engOf_detach_same h
    · simpa [engOf_modEng_ne _ _ hk] using engOf_detach_ne s hk
    · simp [hs]
    · simp [sliceOf_modSlice_ne _ _ hk, hs]
  · intro n s hn hd hr hfirst hclear
    obtain ⟨m, hm⟩ := execDissolveDrainDone_free hn hd hr hfirst
    obtain ⟨hz, hothers, hregs, hkept, hbeads, hkids, hjob, heng, hctx, hc⟩ := freeSlice_freed s n m
    refine Ends.of_settle hm (hc.trans hclear) ?_
    exact ⟨congrArg Slice.state hz, congrArg Slice.desc hz, hothers, hregs, hkept, hbeads, fun k h1 h2 => hkids k (mem_keyRange h1 h2),
      ⟨_, hjob, rfl, rfl, rfl, rfl, rfl, fun k h1 h2 => mem_keyRange h1 h2⟩, heng, hctx⟩

end Sys2Proof.Machine
end

section
/-! PROOFS. The firmware unit (O44): what its neighbours leave alone of it, its processors' table, and how each command and event ends. -/
namespace Sys2Proof.Machine

/-! ## What leaves the firmware unit alone -/

/-- The build parameters, the memory engines and the firmware unit. -/
def State.firmware (s : State) : Cfg × Selvage × Fw := (s.cfg, s.sv, s.fw)

theorem firmware_eq_iff {s t : State} : t.firmware = s.firmware ↔ t.cfg = s.cfg ∧ t.sv = s.sv ∧ t.fw = s.fw := by
  simp [State.firmware]

theorem firmware_of_inward {s t : State} (h : t.inward = s.inward) : t.firmware = s.firmware :=
  (congrArg State.firmware h :)

@[simp] theorem raise_firmware (s : State) (src inst detail : Nat) : (raise s src inst detail).firmware = s.firmware := by
  unfold raise; split <;> rfl

@[simp] theorem hostEvent_firmware (s : State) (p vec : Nat) : (hostEvent s p vec).firmware = s.firmware :=
  firmware_of_inward (hostEvent_inward ..)

@[simp] theorem resumeRings_firmware (s : State) : (resumeRings s).firmware = s.firmware := firmware_of_inward (resumeRings_inward s)
@[simp] theorem negotiationEvent_firmware (s : State) : (negotiationEvent s).firmware = s.firmware := rfl
@[simp] theorem dropFwTags_firmware (s : State) : (dropFwTags s).firmware = s.firmware := rfl

@[simp] theorem fwEvent_firmware (s : State) : (fwEvent s).firmware = s.firmware := by
  unfold fwEvent; dsimp only; split <;> simp

@[simp] theorem countGap_firmware (s : State) (k : Nat) : (countGap s k).firmware = s.firmware :=
  foldl_keeps State.firmware (fun t n => by split <;> rfl) _ s

@[simp] theorem reportsChanged_firmware (s : State) : (reportsChanged s).firmware = s.firmware :=
  foldl_keeps State.firmware (fun t n => by split <;> rfl) _ s

@[simp] theorem mbxAbort_firmware (s : State) : (mbxAbort s).firmware = s.firmware :=
  foldl_keeps State.firmware (fun t p => by split; exacts [hostEvent_firmware .., rfl]) _ s

@[simp] theorem endSessions_firmware (s : State) : (endSessions s).firmware = s.firmware :=
  foldl_keeps State.firmware (fun t x => by split <;> rfl) s.ks.sessions s

@[simp] theorem awake_firmware (s : State) : (awake s).firmware = s.firmware := by
  unfold awake; split <;> rfl

@[simp] theorem emergOver_awake (s : State) : emergOver (awake s) = emergOver s := by
  unfold awake; split <;> rfl

/-- A processor of an untouched firmware unit is as it was. -/
theorem procOf_of_fw {s t : State} (h : t.fw = s.fw) (k : Nat) : procOf t k = procOf s k :=
  congrArg (fun f : Fw => mget FwProc.zero f.procs k) h

/-! ## Several processors at once -/

theorem foldl_modProc (f : FwProc → FwProc) (l : List Nat) (s : State) :
    l.foldl (fun t k => modProc t k f) s =
      { s with fw := { s.fw with procs := l.foldl (fun m k => mmod FwProc.zero m k f) s.fw.procs } } := by
  induction l generalizing s with
  | nil => rfl
  | cons k l ih => exact ih (modProc s k f)

/-- The processors that run firmware, each changed by `f`. -/
def procsWith (s : State) (f : FwProc → FwProc) : List (Nat × FwProc) :=
  (runningProcs s.cfg).foldl (fun m k => mmod FwProc.zero m k f) s.fw.procs

theorem mget_procsWith (s : State) (f : FwProc → FwProc) (k : Nat) :
    mget FwProc.zero (procsWith s f) k = if k ∈ runningProcs s.cfg then f (procOf s k) else procOf s k :=
  mget_foldl_mmod FwProc.zero f k _ (List.nodup_range.filter _) _

/-- A processor in the state `n`. -/
def FwProc.inState (n : Nat) (p : FwProc) : FwProc := { p with pstate := n }

theorem pstate_procsWith (s : State) (n k : Nat) :
    (mget FwProc.zero (procsWith s (FwProc.inState n)) k).pstate = if k ∈ runningProcs s.cfg then n else (procOf s k).pstate := by
  rw [mget_procsWith]; split <;> rfl

/-! ## Commands of SC_FWCMD (R457) -/

/-- A command that its path, the unit and its state allow is performed. -/
theorem fwCmd_allowed {path : Path} {allowed : State → Bool} {f : State → State} {s : State} (hup : pathUp (awake s) path = true)
    (hsec : pathSecure s.cfg path = true) (hsafe : (awake s).fc.blockSafe = false) (hbusy : s.fw.busy = false)
    (hok : allowed (awake s) = true) : fwCmd path allowed f s = settle (f (awake s)) := by
  obtain ⟨hcfg, -, hfw⟩ := firmware_eq_iff.mp (awake_firmware s)
  unfold fwCmd
  simp [hup, hcfg, hsec, hsafe, hfw, hbusy, hok]

/-- The read of an image starts (R457): the unit is busy with it, and a tag of its own stands at the port. -/
theorem readImage_started (s : State) (op port : Nat) :
    (readImage s op port).sv = s.sv ∧ (readImage s op port).fw = { s.fw with busy := true, op := some (op, port) } ∧
      ∃ g ∈ (hportOf (readImage s op port) port).tags, g.reader = .firmware ∧ g.len = s.fw.len ∧ g.addr = s.fw.addr.toNat := by
  have hread := hostFetch_inward { s with fw := { s.fw with busy := true, op := some (op, port) } } port .firmware s.fw.addr.toNat s.fw.len
  obtain ⟨-, hsv, hfw⟩ := firmware_eq_iff.mp (firmware_of_inward hread)
  refine ⟨hsv, hfw, ⟨(hportOf s port).nextTag, .firmware, s.fw.addr.toNat, s.fw.len, 0, 0, []⟩, ?_, rfl, rfl, rfl⟩
  unfold readImage
  rw [hostFetch_tags]
  exact List.mem_append_right _ (List.mem_singleton.mpr rfl)

/-- Activation (R461): the staged image runs at once, and every processor that runs firmware restarts. -/
theorem activate_fw (s : State) : (activate s).sv = s.sv ∧ ∃ began, (activate s).fw =
    { s.fw with procs := procsWith s (FwProc.inState 2), running := s.fw.image, image := none, staged := 4, actBegan := began } := by
  obtain ⟨u, hu⟩ : ∃ u, (List.range 6).foldl (fun t k => if procUp t k then countGap t k else t) s = u := ⟨_, rfl⟩
  have gaps : u.firmware = s.firmware := hu ▸ foldl_keeps State.firmware (fun t k => by split <;> simp) _ s
  obtain ⟨hcfg, hsv, hfw⟩ := firmware_eq_iff.mp gaps
  have e : activate s = reportsChanged { u with fw :=
      { u.fw with procs := procsWith u (FwProc.inState 2), running := u.fw.image, image := none, staged := 4, actBegan := u.pclk } } := by
    unfold activate
    simp only [hu, foldl_modProc]
    rfl
  obtain ⟨-, hsv', hfw'⟩ := firmware_eq_iff.mp (reportsChanged_firmware { u with fw :=
      { u.fw with procs := procsWith u (FwProc.inState 2), running := u.fw.image, image := none, staged := 4, actBegan := u.pclk } })
  rw [e, hsv', hfw']
  refine ⟨hsv, u.pclk, ?_⟩
  simp only [procsWith, hcfg, hfw]

/-- What O44 says of an activation. -/
theorem activate_activated (s : State) : (activate s).fw.staged = 4 ∧ (activate s).fw.running = s.fw.image ∧ (activate s).fw.image = none ∧
    (activate s).fw.result = s.fw.result ∧
    ∀ k, (procOf (activate s) k).pstate = if k ∈ runningProcs s.cfg then 2 else (procOf s k).pstate := by
  obtain ⟨-, began, hfw⟩ := activate_fw s
  rw [hfw]
  refine ⟨rfl, rfl, rfl, rfl, fun k => ?_⟩
  unfold procOf
  rw [hfw]
  exact pstate_procsWith s 2 k

theorem clear_activate (s : State) : clear (activate s) = clear s := clear_eq_of_sv (activate_fw s).1

/-- A command that starts a read ends with it. -/
theorem ends_of_read {i : Instr} {s u : State} {op port : Nat} (h : exec i s = settle (readImage u op port)) (hc : clear u = true) :
    Ends i s fun t => t.fw = { u.fw with busy := true, op := some (op, port) } ∧
      ∃ g ∈ (hportOf t port).tags, g.reader = .firmware ∧ g.len = u.fw.len ∧ g.addr = u.fw.addr.toNat :=
  have ⟨hsv, hread⟩ := readImage_started u op port
  Ends.of_settle h ((clear_eq_of_sv hsv).trans hc) hread

/-- What ACTIVATE does where it is allowed (R460, R461): the staged image runs at once, or activation is deferred and the event is raised. -/
def activateNow (s : State) : State :=
  if emergOver s then activate { s with fw := { s.fw with result := 0 } }
  else fwEvent { s with fw := { s.fw with staged := 3, result := 8, errDeferred := true } }

theorem activate_ends {path : Path} {s : State} (h : exec (.activate path) s = settle (activateNow (awake s))) (hclear : clear s = true) :
    Ends (.activate path) s fun t =>
      (emergOver s = true → t.fw.staged = 4 ∧ t.fw.running = s.fw.image ∧ t.fw.image = none ∧ t.fw.result = 0 ∧
        ∀ k, (procOf t k).pstate = if k ∈ runningProcs s.cfg then 2 else (procOf s k).pstate) ∧
      (emergOver s = false → t.fw = { s.fw with staged := 3, result := 8, errDeferred := true }) := by
  obtain ⟨hcfg, hsv, hfw⟩ := firmware_eq_iff.mp (awake_firmware s)
  have hc : clear (awake s) = true := (clear_awake s).trans hclear
  rw [activateNow, emergOver_awake] at h
  cases he : emergOver s with
  | true =>
    rw [if_pos he] at h
    obtain ⟨h4, hrun, himg, hres, hprocs⟩ := activate_activated { awake s with fw := { (awake s).fw with result := 0 } }
    refine Ends.of_settle h ((clear_activate _).trans hc)
      ⟨fun _ => ⟨by rw [h4], by rw [hrun, hfw], by rw [himg], by rw [hres], fun k => ?_⟩, fun e => nomatch e⟩
    rw [hprocs k, hcfg]
    exact congrArg (fun p : FwProc => if k ∈ runningProcs s.cfg then 2 else p.pstate) (procOf_of_fw hfw k)
  | false =>
    rw [if_neg (by simp [he])] at h
    obtain ⟨-, hsv', hfw'⟩ := firmware_eq_iff.mp
      (fwEvent_firmware { awake s with fw := { (awake s).fw with staged := 3, result := 8, errDeferred := true } })
    exact Ends.of_settle h ((clear_eq_of_sv hsv').trans hc) ⟨fun e => (nomatch e), fun _ => hfw'.trans (by rw [hfw])⟩

/-! ## The end of a read (R455, R457 to R459) -/

/-- The image of a LOAD runs: the unit is free, and every processor that runs firmware starts. -/
def loaded (s : State) (im : FwImage) : Fw :=
  { s.fw with busy := false, op := none, result := 0, state := 2, running := some im, procs := procsWith s (FwProc.inState 1) }

/-- The firmware unit at the end of a LOAD or STAGE (R455): with the RESULT of a failed check, with the image of the LOAD running, or with that of
the STAGE kept. -/
def imageRead (s : State) (op : Nat) : Nat ⊕ FwImage → Fw
  | .inl r => (fwFail s op r).fw
  | .inr im => if op = 1 then loaded s im else { s.fw with busy := false, op := none, result := 0, staged := 2, image := some im }

theorem imageRead_load {s : State} {op : Nat} {im : FwImage} (h : op = 1) : imageRead s op (.inr im) = loaded s im := if_pos h
theorem imageRead_stage {s : State} {op : Nat} {im : FwImage} (h : op ≠ 1) :
    imageRead s op (.inr im) = { s.fw with busy := false, op := none, result := 0, staged := 2, image := some im } := if_neg h

/-- When the last read is out and its bytes have come, the event ends with the unit's registers as `imageRead` gives them. -/
theorem execImageReadDone_read {img : List Byte} {op port : Nat} {s : State} (hop : s.fw.op = some (op, port)) (hlen : img.length = s.fw.len)
    (hout : readOut s port .firmware img = true) : ∃ t, execImageReadDone img s = settle t ∧ t.sv = s.sv ∧
      t.fw = imageRead s op (verifyImage s.fw.len s.lc.current s.minSvn img) := by
  unfold execImageReadDone guardRes
  simp only [hop, hlen, hout, decide_true, Bool.and_self, if_true]
  refine ⟨_, rfl, ?_⟩
  cases verifyImage s.fw.len s.lc.current s.minSvn img with
  | inl r => exact ⟨rfl, rfl⟩
  | inr im =>
    unfold imageRead
    by_cases h1 : op = 1
    · simp only [if_pos h1]
      have started : (startProcs { dropFwTags s with
          fw := { s.fw with busy := false, op := none, result := 0, state := 2, running := some im } }).firmware = (s.cfg, s.sv, loaded s im) := by
        unfold startProcs
        rw [foldl_modProc]
        rfl
      have negotiated (u : State) : (if (sliceOf u 0).state = .direct then u else negotiationEvent u).firmware = u.firmware := by
        split <;> simp
      have all := (resumeRings_firmware _).trans ((reportsChanged_firmware _).trans ((negotiated _).trans started))
      exact Prod.mk.inj (Prod.mk.inj all).2
    · simp only [if_neg h1]
      exact ⟨rfl, rfl⟩

/-! ## Watchdogs, crashes and restarts (R462 to R465) -/

/-- A crash leaves the rest of the firmware unit alone until the processor's own record goes into its restart; one of the security processor ends
every session. -/
theorem crash_eq (s : State) (k : Nat) : ∃ u, u.firmware = s.firmware ∧ (k = 6 → u.ks.sessions = []) ∧
    crash s k = modProc u k fun p => { p with pstate := 2, restarts := satAdd 65535 p.restarts 1 } := by
  refine ⟨_, ?_, fun h6 => ?_, rfl⟩
  · simp only [apply_ite State.firmware, endSessions_firmware, mbxAbort_firmware, countGap_firmware, raise_firmware, ite_self]
  · simp only [if_pos h6]
    rfl

/-- What a crash does to the processors (R462, R464). -/
theorem crash_crashed (s : State) (k : Nat) : clear (crash s k) = clear s ∧
    procOf (crash s k) k = { procOf s k with pstate := 2, restarts := satAdd 65535 (procOf s k).restarts 1 } ∧
    (k = 6 → (crash s k).ks.sessions = []) ∧ ∀ j, j ≠ k → procOf (crash s k) j = procOf s j := by
  obtain ⟨u, hu, h6, e⟩ := crash_eq s k
  obtain ⟨-, hsv, hfw⟩ := firmware_eq_iff.mp hu
  rw [e]
  refine ⟨clear_eq_of_sv hsv, ?_, h6, fun j hj => ?_⟩
  · rw [procOf_modProc, procOf_of_fw hfw]
  · rw [procOf_modProc_ne _ _ hj, procOf_of_fw hfw]

/-- The unit after a restart that completed, or that failed: then STATE is FAILED and the event is raised. -/
def restartChecked (s : State) (ok : Bool) : State := if ok then s else fwEvent { s with fw := { s.fw with state := 3, errFailed := true } }

theorem restartChecked_fw (s : State) (ok : Bool) : (restartChecked s ok).sv = s.sv ∧ (restartChecked s ok).fw =
    { s.fw with state := if ok then s.fw.state else 3, errFailed := if ok then s.fw.errFailed else true } := by
  cases ok with
  | true => exact ⟨rfl, rfl⟩
  | false => exact (firmware_eq_iff.mp (fwEvent_firmware { s with fw := { s.fw with state := 3, errFailed := true } })).2

/-- An activation ends with the last restart (R461). -/
def activationOver (s : State) : State :=
  if s.fw.staged = 4 && (List.range 8).all fun j => (procOf s j).pstate ≠ 2 then { s with fw := { s.fw with staged := 0 } } else s

theorem activationOver_fw (s : State) : (activationOver s).sv = s.sv ∧ ∃ n, (activationOver s).fw = { s.fw with staged := n } := by
  unfold activationOver; split
  · exact ⟨rfl, 0, rfl⟩
  · exact ⟨rfl, s.fw.staged, rfl⟩

/-- A restart ends: its processor runs or stops, and a failure is recorded; STAGED is left open. -/
theorem execFwRestartDone_done {k : Nat} {s : State} (ok : Bool) (hk : k < 8) (hp : (procOf s k).pstate = 2) :
    ∃ t n, execFwRestartDone k ok s = settle t ∧ t.sv = s.sv ∧ t.fw = { (modProc s k (FwProc.inState (b2n ok))).fw with
      staged := n, state := if ok then s.fw.state else 3, errFailed := if ok then s.fw.errFailed else true } := by
  have e : execFwRestartDone k ok s = guardRes s (k < 8 && (procOf s k).pstate = 2)
      (resumeRings (activationOver (restartChecked (modProc s k (FwProc.inState (b2n ok))) ok))) := rfl
  obtain ⟨hsv, hfw⟩ := restartChecked_fw (modProc s k (FwProc.inState (b2n ok))) ok
  obtain ⟨hsv', n, hfw'⟩ := activationOver_fw (restartChecked (modProc s k (FwProc.inState (b2n ok))) ok)
  obtain ⟨-, hsv'', hfw''⟩ := firmware_eq_iff.mp (resumeRings_firmware (activationOver (restartChecked (modProc s k (FwProc.inState (b2n ok))) ok)))
  refine ⟨_, n, e.trans (if_pos (by simp [hk, hp])), by rw [hsv'', hsv', hsv]; rfl, ?_⟩
  rw [hfw'', hfw', hfw]
  rfl

/-! ## The statement -/

/-- Settles O44: `readImage_started`, `activate_activated`, `imageRead`, `crash_crashed` and `execFwRestartDone_done` say how the commands and
events end; here their conditions are met. -/
theorem firmwareImagesAndProcessorsChangeState : Obligations.FirmwareImagesAndProcessorsChangeState := by
  unfold Obligations.FirmwareImagesAndProcessorsChangeState
  refine ⟨?_, ?_, ?_, ?_, ?_, ?_⟩
  · intro path port s hup hsec hsafe hbusy hclear
    obtain ⟨hcfg, hsv, hfw⟩ := firmware_eq_iff.mp (awake_firmware s)
    have hc : clear (awake s) = true := (clear_awake s).trans hclear
    have run {allowed : State → Bool} {f : State → State} (hok : allowed (awake s) = true) :
        fwCmd path allowed f s = settle (f (awake s)) := fwCmd_allowed hup hsec hsafe hbusy hok
    have ports (hport : port < s.cfg.hostPorts) (hdown : portDown (awake s) port = false) :
        ¬ (decide ((awake s).cfg.hostPorts ≤ port) || portDown (awake s) port) = true := by simp [hcfg, hdown, hport]
    refine ⟨fun hst hport hdown => ?_, fun hst hnone hport hdown => ?_, fun hst => ?_, fun hst => ?_⟩
    · have h : execLoad path port s = settle (readImage { awake s with fw := { (awake s).fw with state := 1 } } 1 port) := by
        unfold execLoad
        rw [run, if_neg (ports hport hdown)]
        simpa [hfw] using hst
      simpa only [hfw] using ends_of_read (i := .load path port) h hc
    · have h : execStage path port s = settle (readImage { awake s with fw := { (awake s).fw with staged := 1 } } 2 port) := by
        unfold execStage
        rw [run, if_neg (ports hport hdown)]
        simp [hfw, hst, hnone]
      simpa only [hfw] using ends_of_read (i := .stage path port) h hc
    · have h : execActivate path s = settle (activateNow (awake s)) := by
        unfold execActivate
        rw [run]
        · rfl
        · simp [hfw, hst]
      exact activate_ends h hclear
    · have h : execDiscard path s = settle { awake s with fw := { (awake s).fw with staged := 0, image := none, result := 0 } } := by
        unfold execDiscard
        rw [run]
        simpa [hfw] using hst
      exact Ends.of_settle h hc (by rw [hfw])
  · intro s hst hover hclear
    obtain ⟨h4, hrun, himg, -, hprocs⟩ := activate_activated s
    exact Ends.of_guard rfl (by simp [hst, hover]) ((clear_activate s).trans hclear) ⟨h4, hrun, himg, hprocs⟩
  · intro img op port s hop hlen hout hclear
    obtain ⟨t, ht, hsv, hfw⟩ := execImageReadDone_read hop hlen hout
    refine Ends.of_settle ht ((clear_eq_of_sv hsv).trans hclear) ?_
    unfold procOf
    rw [hfw]
    cases verifyImage s.fw.len s.lc.current s.minSvn img with
    | inl r =>
      refine ⟨rfl, rfl, fun r' e => ?_, fun im e => nomatch e⟩
      cases e
      exact ⟨rfl, rfl, rfl⟩
    | inr im =>
      by_cases h1 : op = 1
      · rw [imageRead_load h1]
        refine ⟨rfl, rfl, fun r e => (nomatch e), fun im' e => ?_⟩
        cases e
        exact ⟨rfl, fun _ => ⟨rfl, rfl, pstate_procsWith s 1⟩, fun h => absurd h1 h⟩
      · rw [imageRead_stage h1]
        refine ⟨rfl, rfl, fun r e => (nomatch e), fun im' e => ?_⟩
        cases e
        exact ⟨rfl, fun h => absurd h h1, fun _ => ⟨rfl, rfl, rfl, rfl⟩⟩
  · intro k s hk hup hclear
    obtain ⟨hc, hself, -, hothers⟩ := crash_crashed (modProc s k fun p => { p with wdog := satAdd 65535 p.wdog 1 }) k
    refine Ends.of_guard rfl (by simp [hk, hup]) (hc.trans hclear) ?_
    rw [hself, procOf_modProc]
    exact ⟨rfl, rfl, rfl, fun j hj => (hothers j hj).trans (procOf_modProc_ne _ _ hj)⟩
  · intro k s hk hp hclear
    obtain ⟨hc, hself, h6, hothers⟩ := crash_crashed s k
    refine Ends.of_guard rfl (by simpa [hk] using hp) (hc.trans hclear) ?_
    rw [hself]
    exact ⟨rfl, rfl, h6, hothers⟩
  · intro k ok s hk hp hclear
    obtain ⟨t, n, ht, hsv, hfw⟩ := execFwRestartDone_done ok hk hp
    have hproc (j : Nat) : procOf t j = procOf (modProc s k (FwProc.inState (b2n ok))) j := by
      unfold procOf; rw [hfw]
    refine Ends.of_settle ht ((clear_eq_of_sv hsv).trans hclear) ⟨?_, fun hok => ?_, fun j hj => ?_⟩
    · rw [hproc, procOf_modProc]; rfl
    · rw [hfw]; simp [hok]
    · rw [hproc, procOf_modProc_ne _ _ hj]

end Sys2Proof.Machine
end

section
/-! PROOFS. Addresses in no region (O51): stage 2 without a region, and the line at which an access of bytes begins. -/
namespace Sys2Proof.Machine

/-! ## The line at which an access begins (R27, R62) -/

/-- A slice physical address that no region's span holds, in units of 2 MiB, meets no region. -/
theorem regionAt_none {s : State} {slice a : Nat}
    (h : ∀ x ∈ s.regions, x.2.slice = slice → ¬(2 ^ 21 * x.2.base ≤ a ∧ a < 2 ^ 21 * (x.2.base + x.2.size))) : regionAt s slice a = none := by
  refine List.find?_eq_none.mpr fun x hx hin => ?_
  obtain ⟨⟨hslice, hlo⟩, hhi⟩ : (x.2.slice = slice ∧ x.2.base ≤ a / mib2) ∧ a / mib2 < x.2.base + x.2.size := by simpa using hin
  have hout := h x hx hslice
  simp only [mib2] at hlo hhi
  omega

/-- A line lies in the region in which each of its bytes lies. -/
theorem regionAt_line (s : State) (slice a : Nat) : regionAt s slice (a / 128 * 128) = regionAt s slice a := by
  have : a / 128 * 128 / mib2 = a / mib2 := by unfold mib2; omega
  unfold regionAt; rw [this]

/-- Stage 2 of an address in no region (R62). -/
theorem xlat2_of_no_region {s : State} {who : Who} {a : Nat} (h : regionAt s who.attr.slice a = none) (wr fetch : Bool) :
    xlat2 s who a wr fetch = (s, .err 0x204) := by
  unfold xlat2; simp only [h]; rfl

/-- The first part of an access of bytes lies in the line of its first byte. -/
theorem lineParts_cons {n : Nat} (hn : 0 < n) (a : Nat) : ∃ off len rest, lineParts a n = (a / 128 * 128, off, len) :: rest := by
  unfold lineParts
  rw [if_neg (by omega), List.range_succ_eq_map, List.map_cons]
  exact ⟨_, _, _, rfl⟩

theorem readPart_of_no_region {s : State} {who : Who} {a : Nat} (h : regionAt s who.attr.slice a = none) (fetch : Bool) (r : Nat × Nat) :
    readPart s who .spa fetch (a, r) = (s, .err 0x204) := by
  unfold readPart xlatVia; simp only [xlat2_of_no_region h]; rfl

theorem writePart_of_no_region {s : State} {who : Who} {a : Nat} (h : regionAt s who.attr.slice a = none) (r : Nat × Nat) (bs : List Byte) :
    writePart s who .spa (a, r) bs = (s, .err 0x204) := by
  unfold writePart xlatVia; simp only [xlat2_of_no_region h]; rfl

/-- Settles O51: the first line part of an access meets no region, and its error is the one that the access reports. -/
theorem addressesInNoRegionFailWithNoRegion : Obligations.AddressesInNoRegionFailWithNoRegion := by
  unfold Obligations.AddressesInNoRegionFailWithNoRegion
  intro who a s hnone
  have hat : regionAt s who.attr.slice a = none := regionAt_none hnone
  have hline : regionAt s who.attr.slice (a / 128 * 128) = none := (regionAt_line ..).trans hat
  refine ⟨fun wr fetch => xlat2_of_no_region hat wr fetch, fun n hn => ?_, fun bs hbs => ?_⟩
  · obtain ⟨off, len, rest, hparts⟩ := lineParts_cons hn a
    unfold memRead
    rw [hparts]
    simp only [readParts, readPart_of_no_region hline]
  · obtain ⟨off, len, rest, hparts⟩ := lineParts_cons (List.length_pos_iff.mpr hbs) a
    unfold memWrite
    rw [hparts]
    simp only [writeParts, writePart_of_no_region hline]

end Sys2Proof.Machine
end

section
/-! PROOFS. Requests without a key (O52): how a request whose checks fail is answered, and the address that its returned error carries. -/
namespace Sys2Proof.Machine

/-! ## Requests that their checks turn away (R56, R525) -/

/-- A read whose checks fail is not performed: it is answered with their code. -/
theorem svRead_of_check {s : State} {r : MemReq} {code : Nat} (h : svCheck s (liveReq s r) = some code) (errs : List Nat) :
    svRead s r errs = (s, .fail code) := by
  unfold svRead svReadFor
  simp only [h]

/-- SELVAGE_READ of a request that is ready and that its checks turn away (R292). -/
theorem execSelvageRead_of_check {s : State} {r : MemReq} {med : Med} {code : Nat}
    (hsub : s.cfg.hasSub r.port r.sub = true) (hready : accessReady s r = true)
    (hcheck : svCheck (applyMed (countReq s r) r.port r.sub med) (liveReq (applyMed (countReq s r) r.port r.sub med) r) = some code) :
    execSelvageRead r med false s = settle (answer (applyMed (countReq s r) r.port r.sub med) r.attr (.fail code)) := by
  unfold execSelvageRead accessRes
  rw [if_pos hsub, if_pos hready, svRead_of_check hcheck]
  simp

/-- The error returned for an engine's request carries no address: a memory engine knows no virtual address, and only a code above bit 16 would
hold one (R181). -/
theorem answer_fail_reqErrs (s : State) {a : Attr} (ha : a.kind = 0) {code : Nat} (hcode : code < 65536) :
    (answer s a (.fail code)).reqErrs = s.reqErrs ++ [⟨a.ctx, a.gen, a.master, code, 0⟩] := by
  have hkey : codeKey code = code := Nat.mod_eq_of_lt hcode
  have haddr : code / 65536 = 0 := Nat.div_eq_of_lt hcode
  simp [answer, noteReqErr, ha, pushErr, hkey, haddr]

/-! ## The counterexample -/

/-- The block after reset with no key for memory identifier 0. -/
def keyless : State := modKid State.reset 0 fun _ => Kid.zero

/-- A read by engine 0, under identifier 0, of line 1 of port 0 and sub-channel 0. -/
def engineRead : MemReq :=
  { attr := { slice := 0, ctx := 0, gen := 0, keyid := 0, bwclass := 0, sec := false, kind := 0, master := 0 },
    port := 0, sub := 0, line := 1, region := none }

theorem execSelvageRead_keyless : execSelvageRead engineRead Med.good false keyless =
    settle (answer (applyMed (countReq keyless engineRead) 0 0 Med.good) engineRead.attr (.fail 0x207)) :=
  execSelvageRead_of_check (by decide) (by decide) (by decide)

/-- Refutes O52: for the read of line 1 by an engine the statement asks for the address 128 in the error that waits for the fault fence, and the
model returns the error with address 0. -/
theorem not_requestsWithoutAKeyFailWithKeyAbsent : ¬ Obligations.RequestsWithoutAKeyFailWithKeyAbsent := by
  unfold Obligations.RequestsWithoutAKeyFailWithKeyAbsent
  intro h
  obtain ⟨t, ht, -, -, -, herrs⟩ := h engineRead Med.good false 0 0 keyless (by decide) (by decide) (by decide) (by decide) (by decide) (by decide)
    (by decide) (by decide) (.selvageRead engineRead Med.good false) (by simp)
  obtain ⟨rfl, -⟩ := settle_next (execSelvageRead_keyless.symm.trans ht)
  rw [answer_fail_reqErrs _ rfl (by decide)] at herrs
  exact absurd herrs (by decide)

end Sys2Proof.Machine
end

section
/-! PROOFS. World violations at the slice manager's registers (O50): what a raised error line changes, SL_CMD from the non-secure world, and the
staging registers of either world. -/
namespace Sys2Proof.Machine

/-! ## A raised error line (R518) -/

/-- Raising an event changes the waiting events only. -/
theorem raise_frame (s : State) (src inst detail : Nat) (slice : Option Nat) (inj : Bool) :
    ∃ ls, raise s src inst detail slice inj = { s with fc := { s.fc with lines := ls } } := by
  unfold raise; split
  · exact ⟨s.fc.lines, rfl⟩
  · exact ⟨_, rfl⟩

/-- Afterwards an event of its source waits. -/
theorem raise_waits (s : State) (src inst detail : Nat) (slice : Option Nat) (inj : Bool) :
    ∃ l ∈ (raise s src inst detail slice inj).fc.lines, l.src = src := by
  unfold raise; split
  case isTrue h =>
    obtain ⟨l, hl, hsame⟩ := List.any_eq_true.mp h
    simp only [Bool.and_eq_true, decide_eq_true_eq] at hsame
    exact ⟨l, hl, hsame.1.1.1⟩
  case isFalse => exact ⟨_, List.mem_append_right _ (List.mem_singleton.mpr rfl), rfl⟩

/-- The events that waited still wait. -/
theorem mem_lines_raise {s : State} {l : ErrLine} (h : l ∈ s.fc.lines) (src inst detail : Nat) (slice : Option Nat) (inj : Bool) :
    l ∈ (raise s src inst detail slice inj).fc.lines := by
  unfold raise; split
  · exact h
  · exact List.mem_append_left _ h

/-! ## A block that has woken (R568) -/

@[simp] theorem awake_awake (s : State) : awake (awake s) = awake s := by
  cases h : s.ck.blockRet <;> simp [awake, h]

/-- Waking ends the block's retention and changes nothing else. -/
theorem awake_frame (s : State) : ∃ ck, awake s = { s with ck := ck } := by
  unfold awake; split
  · exact ⟨_, rfl⟩
  · exact ⟨s.ck, rfl⟩

@[simp] theorem awake_cfg (s : State) : (awake s).cfg = s.cfg := by unfold awake; split <;> rfl
@[simp] theorem awake_fc (s : State) : (awake s).fc = s.fc := by unfold awake; split <;> rfl
@[simp] theorem awake_slm (s : State) : (awake s).slm = s.slm := by unfold awake; split <;> rfl

/-! ## Writes from the non-secure world (R42) -/

/-- What a write from the non-secure world leaves at the slice manager: a world violation on its error line, and a block that has woken. -/
def worldViolation (s : State) : State := raise (awake s) 23 0 0

theorem worldViolation_only (s : State) :
    { worldViolation s with fc := { (worldViolation s).fc with lines := s.fc.lines } } = awake s ∧
      ((worldViolation s).fc.lines.any fun l => l.src = 23) = true ∧ ∀ l ∈ s.fc.lines, l ∈ (worldViolation s).fc.lines := by
  refine ⟨?_, ?_, fun l hl => mem_lines_raise (by rwa [awake_fc]) ..⟩
  · obtain ⟨ls, h⟩ := raise_frame (awake s) 23 0 0 none false
    unfold worldViolation
    rw [h, ← awake_fc s]
  · obtain ⟨l, hl, hsrc⟩ := raise_waits (awake s) 23 0 0 none false
    exact List.any_eq_true.mpr ⟨l, hl, by simpa using hsrc⟩

/-- A write to SL_CMD over a path of the non-secure world that is up, whatever command it names. -/
theorem slCmd_world {path : Path} {s : State} (hup : pathUp (awake s) path = true) (hsec : pathSecure s.cfg path = false) (op n : Nat)
    (body : State → State) : slCmd path op n body s = .next (worldViolation s) := by
  unfold slCmd
  simp [hup, hsec, worldViolation]

theorem writeCommand_slCmd_world {path : Path} {s : State} (hup : pathUp (awake s) path = true) (hsec : pathSecure s.cfg path = false) (v : Word) :
    writeCommand path .slCmd v s = some (.next (worldViolation s)) := by
  unfold writeCommand
  refine congrArg some ?_
  split <;> exact slCmd_world hup hsec ..

/-! ## The registers by offset (R640) -/

theorem regAt_slCmd : regAt 0x20000 = some .slCmd := by rfl

theorem regAt_slStage : ∀ i < 16, regAt (0x20080 + 8 * i) = some (.slStage i) := by decide

/-- A write over a path that is up, to a register that every configuration holds. -/
theorem execRegisterWrite_reg {path : Path} {off : Nat} {r : Reg} {v : Word} {s : State} (hup : pathUp (awake s) path = true)
    (hr : regAt off = some r) (hp : regPresent s.cfg r = true) : execRegisterWrite path off v s = writeReg path r v (awake s) := by
  unfold execRegisterWrite
  simp [hup, hr, hp]

theorem writeReg_slCmd_world {path : Path} {s : State} (hup : pathUp (awake s) path = true) (hsec : pathSecure s.cfg path = false) (v : Word) :
    writeReg path .slCmd v (awake s) = .next (worldViolation s) := by
  have hw : worldViolation (awake s) = worldViolation s := by simp [worldViolation]
  have := writeCommand_slCmd_world (s := awake s) (by simpa using hup) (by simpa using hsec) v
  unfold writeReg
  simp only [regPort, this, hw]

/-- A staging register takes a write of the secure world, and one of the non-secure world is a violation (R42). -/
theorem writeReg_slStage {path : Path} {s : State} (hpath : path ≠ .jtag) (hheld : regHeld s = false) (i : Nat) (v : Word) :
    writeReg path (.slStage i) v s = settle (if pathSecure s.cfg path then { s with slm := { s.slm with stage := mset 0 s.slm.stage i v } }
      else raise s 23 0 0) := by
  unfold writeReg
  simp only [regPort, writeCommand, regCollector, hheld, pathSec, hpath, writeOpen]
  cases pathSecure s.cfg path <;> rfl

/-- Settles O50: `slCmd_world` for the six commands and SL_CMD itself, `writeReg_slStage` for the staging registers. -/
theorem nonSecureSliceManagerWritesRaiseTheWorldViolation : Obligations.NonSecureSliceManagerWritesRaiseTheWorldViolation := by
  unfold Obligations.NonSecureSliceManagerWritesRaiseTheWorldViolation
  refine ⟨fun path n v s hpath hup hsec => ⟨fun c hc => ?_, fun i hi hheld hclear => ?_⟩, fun path i v s hreach hi hclear => ?_⟩
  · have hcmd : exec (.registerWrite path 0x20000 v) s = .next (worldViolation s) :=
      (execRegisterWrite_reg hup regAt_slCmd rfl).trans (writeReg_slCmd_world hup hsec v)
    have hexec : exec c s = .next (worldViolation s) := by
      simp only [List.mem_cons, List.not_mem_nil, or_false] at hc
      rcases hc with rfl | rfl | rfl | rfl | rfl | rfl | rfl
      case inr.inr.inr.inr.inr.inr => exact hcmd
      all_goals simp only [exec, execBuild, execChange, execDissolve, execReadDesc, execRegionWrite, execRegionRead, slCmd_world hup hsec]
    exact ⟨_, hexec, worldViolation_only s⟩
  · have hexec : exec (.registerWrite path (0x20080 + 8 * i) v) s = settle (worldViolation s) := by
      refine (execRegisterWrite_reg hup (regAt_slStage i hi) rfl).trans ((writeReg_slStage hpath hheld i v).trans ?_)
      simp [hsec, worldViolation]
    have hc : clear (worldViolation s) = true := (clear_eq_of_sv (raise_sv ..)).trans ((clear_awake s).trans hclear)
    exact Ends.of_settle hexec hc (worldViolation_only s)
  · simp only [secReach, Bool.and_eq_true, Bool.not_eq_true'] at hreach
    obtain ⟨⟨hup, hsec⟩, hheld⟩ := hreach
    have hpath : path ≠ .jtag := fun h => by simp [h, pathSecure] at hsec
    have hexec : exec (.registerWrite path (0x20080 + 8 * i) v) s =
        settle { awake s with slm := { s.slm with stage := mset 0 s.slm.stage i v } } := by
      refine (execRegisterWrite_reg hup (regAt_slStage i hi) rfl).trans ((writeReg_slStage hpath hheld i v).trans ?_)
      simp [hsec]
    refine Ends.of_settle hexec ((clear_awake s).trans hclear) ⟨mget_mset_same .., ?_, fun j hj => mget_mset_other _ _ _ hj⟩
    rw [← awake_slm s]

end Sys2Proof.Machine
end

section
/-! PROOFS. What an access to memory leaves alone: every operation of the memory engines and of translation changes of the state only the memory
engines, the Tally memories, the counts of the slice reports, waiting error events, bandwidth counters, cached stage-2 pages and the count of
free values. -/
namespace Sys2Proof.Machine

/-! ## The state beside memory -/

/-- The state but for what an access to memory by slice physical address may change. -/
def State.beside (s : State) : State :=
  { s with sv := default, tally := [], ks := { s.ks with slices := [] }, fc := { s.fc with lines := [] }, bw := default, s2 := [], fresh := 0 }

/-- A state reached as the first part of an answer. -/
theorem beside_of_eq {β : Type} {p : State × β} {s t : State} {b : β} (e : p = (t, b)) (h : p.1.beside = s.beside) : t.beside = s.beside := by
  rwa [e] at h

@[simp] theorem modPort_beside (s : State) (m : Nat) (f : MemPort → MemPort) : (modPort s m f).beside = s.beside := (rfl)
@[simp] theorem modKid_beside (s : State) (n : Nat) (f : Kid → Kid) : (modKid s n f).beside = s.beside := (rfl)
@[simp] theorem modTally_beside (s : State) (h : Nat) (f : Tally → Tally) : (modTally s h f).beside = s.beside := (rfl)
@[simp] theorem putBeat_beside (s : State) (m sub phys : Nat) (b : Beat) : (putBeat s m sub phys b).beside = s.beside := (rfl)
@[simp] theorem draw_beside (s : State) (w : Nat) : (draw s w).1.beside = s.beside := (rfl)
@[simp] theorem drawBool_beside (s : State) : (drawBool s).1.beside = s.beside := (rfl)

@[simp] theorem modBwMaster_beside (s : State) (a : Attr) (f : BwMaster → BwMaster) : (modBwMaster s a f).beside = s.beside := by
  unfold modBwMaster; split <;> rfl

@[simp] theorem bwCount_beside (s : State) (a : Attr) (n : Nat) : (bwCount s a n).beside = s.beside := modBwMaster_beside ..

@[simp] theorem raise_beside (s : State) (src inst detail : Nat) (slice : Option Nat) (inj : Bool) :
    (raise s src inst detail slice inj).beside = s.beside := by
  unfold raise; split <;> rfl

@[simp] theorem reportCount_beside (s : State) (which : Nat) (n : Option Nat) : (reportCount s which n).beside = s.beside := by
  cases n <;> rfl

@[simp] theorem awaitTally_beside (s : State) (h : Nat) : (awaitTally s h).beside = s.beside := by
  unfold awaitTally; split <;> rfl

@[simp] theorem portSlot_beside (s : State) (h port : Nat) : (portSlot s h port).beside = s.beside := awaitTally_beside s h

/-! ## Stored lines (R325 to R341) -/

@[simp] theorem claimLine_beside (s : State) (m sub phys : Nat) : (claimLine s m sub phys).beside = s.beside := by
  unfold claimLine; split <;> rfl

@[simp] theorem dueRetire_beside (s : State) (m sub group sym : Nat) : (dueRetire s m sub group sym).beside = s.beside := by
  unfold dueRetire; dsimp only; split <;> rfl

@[simp] theorem noteCorrected_beside (s : State) (m sub phys sym : Nat) : (noteCorrected s m sub phys sym).beside = s.beside := by
  unfold noteCorrected
  simp only [apply_ite State.beside, dueRetire_beside, modPort_beside, raise_beside, ite_self]

@[simp] theorem noteUncorrectable_beside (s : State) (m sub phys : Nat) : (noteUncorrectable s m sub phys).beside = s.beside := by
  unfold noteUncorrectable; simp

@[simp] theorem readStored_beside (s : State) (m sub line : Nat) (isMeta : Bool) (errs : List Nat) :
    (readStored s m sub line isMeta errs).1.beside = s.beside := by
  unfold readStored
  dsimp only
  split
  · simp
  · split <;> simp [apply_ite State.beside]

@[simp] theorem settleLine_beside (s : State) (m sub phys : Nat) : (settleLine s m sub phys).beside = s.beside := (rfl)

@[simp] theorem writeLine_beside (s : State) (m sub line : Nat) (attr : Attr) (b : Beat) : (writeLine s m sub line attr b).beside = s.beside := by
  simp [writeLine]

@[simp] theorem poisonLine_beside (s : State) (m sub line : Nat) : (poisonLine s m sub line).beside = s.beside := putBeat_beside ..

@[simp] theorem bumpRoot_beside (s : State) (m sub n : Nat) : (bumpRoot s m sub n).beside = s.beside := by simp [bumpRoot]

@[simp] theorem treeFail_beside (s : State) (m sub detail : Nat) (slice : Option Nat) : (treeFail s m sub detail slice).beside = s.beside := by
  simp [treeFail]

@[simp] theorem patchStored_beside (s : State) (m sub addr n v fn keyid : Nat) : (patchStored s m sub addr n v fn keyid).beside = s.beside := by
  unfold patchStored
  dsimp only
  split <;> simp only [writeLine_beside, treeFail_beside, readStored_beside]

@[simp] theorem readStoredWord_beside (s : State) (m sub addr : Nat) (errs : List Nat) : (readStoredWord s m sub addr errs).1.beside = s.beside := by
  unfold readStoredWord
  split
  case h_1 e | h_2 e => exact beside_of_eq e (by simp)

/-! ## Nodes and tags (R285 to R303) -/

@[simp] theorem nodePut_beside (s : State) (m sub lvl i keyid : Nat) (n : Node) : (nodePut s m sub lvl i keyid n).beside = s.beside := (rfl)

@[simp] theorem cacheDrop_beside (s : State) (m sub line : Nat) : (cacheDrop s m sub line).beside = s.beside := (rfl)

@[simp] theorem readNode_beside (s : State) (m sub lvl i major minor : Nat) (errs : List Nat) :
    (readNode s m sub lvl i major minor errs).1.beside = s.beside := by
  unfold readNode
  rcases hr : readStored s m sub (nodeAddr s m lvl i / 128) true errs with ⟨t, l | _ | _ | _⟩
  all_goals have ht := beside_of_eq hr (readStored_beside ..)
  case data =>
    rcases hw : readStoredWord t m sub (nodeTagAddr t m lvl i) errs with ⟨u, w | _ | _ | _, x⟩
    all_goals
      have hu := (beside_of_eq hw (readStoredWord_beside ..)).trans ht
      simpa only [hr, hw] using hu
  all_goals simpa only [hr] using ht

@[simp] theorem retagChild_beside (s : State) (m sub lvl ci oldMajor oldMinor major keyid : Nat) :
    (retagChild s m sub lvl ci oldMajor oldMinor major keyid).beside = s.beside := by
  unfold retagChild
  split
  case h_1 e | h_2 e => simpa using beside_of_eq e (readNode_beside ..)

@[simp] theorem retagChildren_beside (s : State) (m sub lvl i : Nat) (n : Node) (major keyid : Nat) :
    (retagChildren s m sub lvl i n major keyid).beside = s.beside :=
  foldl_keeps State.beside (fun t j => by split <;> simp) _ s

/-- A source of nodes that leaves the state beside memory alone. -/
def Getter.Beside (get : Getter) : Prop := ∀ s sub lvl i, (get s sub lvl i).1.beside = s.beside

section
variable {get : Getter} (hg : get.Beside)
include hg

theorem bumpParent_beside (s : State) (m sub lvl i keyid : Nat) : (bumpParent get s m sub lvl i keyid).1.beside = s.beside := by
  unfold bumpParent
  dsimp only
  split
  · simp
  · split
    case h_1 e => exact beside_of_eq e (hg ..)
    case h_2 e =>
      have ht := beside_of_eq e (hg ..)
      split <;> simpa using ht

theorem writeBackNode_beside (s : State) (m sub lvl i keyid fn : Nat) (n : Node) :
    (writeBackNode get s m sub lvl i keyid fn n).beside = s.beside := by
  unfold writeBackNode
  split
  case h_1 e | h_2 e => simpa using beside_of_eq e (bumpParent_beside hg ..)

theorem writeBackHalf_beside (s : State) (m : Nat) (c : CLine) (half fn : Nat) : (writeBackHalf get s m c half fn).beside = s.beside := by
  unfold writeBackHalf
  dsimp only
  split
  · exact writeBackNode_beside hg ..
  · simp

theorem writeBackLine_beside (s : State) (m : Nat) (c : CLine) (fn : Nat) : (writeBackLine get s m c fn).beside = s.beside := by
  unfold writeBackLine
  simp only [apply_ite State.beside, writeBackHalf_beside hg, ite_self]
end

section
variable {get : Nat → Getter} (hg : ∀ k, (get k).Beside)
include hg

theorem makeRoom_beside (n : Nat) (s : State) (m sub line : Nat) : (makeRoom get n s m sub line).beside = s.beside := by
  induction n generalizing s with
  | zero => rfl
  | succ n ih =>
    unfold makeRoom
    split
    · rfl
    · rw [ih, writeBackLine_beside (hg _), cacheDrop_beside]

theorem nodeGet_insert_beside (m keyid : Nat) (s : State) (sub addr half : Nat) (n : Node) :
    (nodeGet.insert m get keyid s sub addr half n).beside = s.beside := by
  unfold nodeGet.insert
  simp only [modPort_beside, apply_ite State.beside, makeRoom_beside hg, ite_self]

theorem nodeGet_fetch_beside (errs : List Nat) (m keyid : Nat) (s : State) (sub lvl i addr half : Nat) :
    (nodeGet.fetch errs m get keyid s sub lvl i addr half).1.beside = s.beside := by
  unfold nodeGet.fetch
  generalize hp : (if lvl = 3 then _ else _ : State × Option (Nat × Nat)) = p
  have hparent : p.1.beside = s.beside := by
    rw [← hp]
    split
    · rfl
    · split
      case h_1 e | h_2 e => exact beside_of_eq e (hg ..)
  obtain ⟨t, _ | ⟨major, minor⟩⟩ := p
  · exact hparent
  · dsimp only at hparent ⊢
    split
    · exact (nodeGet_insert_beside hg ..).trans hparent
    · split
      case h_1 e => exact (nodeGet_insert_beside hg ..).trans ((beside_of_eq e (readNode_beside ..)).trans hparent)
      case h_2 e => exact (treeFail_beside ..).trans ((beside_of_eq e (readNode_beside ..)).trans hparent)
      case h_3 e => exact (beside_of_eq e (readNode_beside ..)).trans hparent
end

theorem nodeGet_beside (errs : List Nat) (m fuel keyid : Nat) : (nodeGet errs m fuel keyid).Beside := by
  induction fuel generalizing keyid with
  | zero => exact fun _ _ _ _ => rfl
  | succ n ih =>
    intro s sub lvl i
    unfold nodeGet
    dsimp only
    split
    · split
      · rfl
      · exact nodeGet_fetch_beside ih ..
    · exact nodeGet_fetch_beside ih ..

@[simp] theorem getCtr_beside (s : State) (m sub i keyid : Nat) (errs : List Nat) : (getCtr s m sub i keyid errs).1.beside = s.beside :=
  nodeGet_beside ..

@[simp] theorem getTag_beside (s : State) (m sub line keyid : Nat) (errs : List Nat) : (getTag s m sub line keyid errs).1.beside = s.beside := by
  unfold getTag
  cases hc : cacheFind (portOf s m) sub (lineTagAddr s m line / 128) with
  | some c => simp only [hc, modPort_beside]
  | none =>
    rcases hr : readStored s m sub (lineTagAddr s m line / 128) true errs with ⟨t, l | _ | _ | _⟩
    all_goals have ht := beside_of_eq hr (readStored_beside ..)
    case data =>
      simp only [hc, hr, modPort_beside]
      exact (makeRoom_beside (fun k => nodeGet_beside [] m treeFuel k) ..).trans ht
    all_goals simpa only [hc, hr, treeFail_beside] using ht

@[simp] theorem putTag_beside (s : State) (m sub line keyid : Nat) (tag : Word) : (putTag s m sub line keyid tag).beside = s.beside := by
  unfold putTag
  dsimp only
  split
  case h_1 e => exact beside_of_eq e (getTag_beside ..)
  case h_2 e => exact (modPort_beside ..).trans (beside_of_eq e (getTag_beside ..))

/-! ## Lines and groups (R292 to R301) -/

@[simp] theorem countUse_beside (s : State) (keyid : Nat) : (countUse s keyid).beside = s.beside := (rfl)

@[simp] theorem tagFail_beside (s : State) (m sub line : Nat) : (tagFail s m sub line).beside = s.beside := by simp [tagFail]

@[simp] theorem openLine_beside (s : State) (m sub line keyid : Nat) (c : Counter) (errs : List Nat) (merge : Bool) :
    (openLine s m sub line keyid c errs merge).1.beside = s.beside := by
  unfold openLine
  split
  case h_1 e =>
    have ht := beside_of_eq e (readStored_beside ..)
    dsimp only
    split
    · exact (tagFail_beside ..).trans ht
    · exact ht
  case h_2 e =>
    have ht := beside_of_eq e (readStored_beside ..)
    split
    · exact ht
    · split
      case h_1 e => exact (beside_of_eq e (getTag_beside ..)).trans ht
      case h_2 e =>
        have hu := (beside_of_eq e (getTag_beside ..)).trans ht
        split
        · exact hu
        · exact (tagFail_beside ..).trans hu
  case h_3 e => exact beside_of_eq e (readStored_beside ..)

@[simp] theorem sealLine_beside (s : State) (m sub line keyid : Nat) (attr : Attr) (c : Counter) (pt : Line) :
    (sealLine s m sub line keyid attr c pt).beside = s.beside := by
  unfold sealLine
  split <;> simp

@[simp] theorem reencLine_beside (s : State) (m sub line ka kb : Nat) (ca cb : Counter) (errs : List Nat) :
    (reencLine s m sub line ka kb ca cb errs).beside = s.beside := by
  unfold reencLine
  split
  case h_1 e | h_2 e => simpa using beside_of_eq e (openLine_beside ..)

@[simp] theorem reencGroup_beside (s : State) (m sub g ka kb : Nat) (wide : Bool) (errs : List Nat) :
    (reencGroup s m sub g ka kb wide errs).beside = s.beside := by
  unfold reencGroup
  dsimp only
  split
  · rfl
  · split
    · refine (foldl_keeps State.beside (fun t i => ?_) _ _).trans (by simp)
      split
      case h_1 e => exact beside_of_eq e (getCtr_beside ..)
      case h_2 e =>
        have ht := beside_of_eq e (getCtr_beside ..)
        split <;> simpa using ht
    · split
      case h_1 e => exact (beside_of_eq e (getCtr_beside ..)).trans (by simp)
      case h_2 e =>
        refine (nodePut_beside ..).trans ((foldl_keeps State.beside (fun t i => ?_) _ _).trans ((beside_of_eq e (getCtr_beside ..)).trans (by simp)))
        split <;> simp

/-! ## One access (R286 to R308) -/

@[simp] theorem visitFirst_beside (s : State) (r : MemReq) (errs : List Nat) : (visitFirst s r errs).beside = s.beside := by
  unfold visitFirst
  split
  · exact reencGroup_beside ..
  · rfl

@[simp] theorem svReadFor_beside (merge : Bool) (s : State) (r : MemReq) (errs : List Nat) : (svReadFor merge s r errs).1.beside = s.beside := by
  unfold svReadFor
  dsimp only
  split
  · rfl
  · split
    case h_1 e => exact (beside_of_eq e (getCtr_beside ..)).trans (claimLine_beside ..)
    case h_2 e =>
      have ht := (beside_of_eq e (getCtr_beside ..)).trans (claimLine_beside ..)
      split
      · exact ht
      · split
        case h_1 e | h_2 e => exact (beside_of_eq e (openLine_beside ..)).trans ht

@[simp] theorem svRead_beside (s : State) (r : MemReq) (errs : List Nat) : (svRead s r errs).1.beside = s.beside := svReadFor_beside ..

@[simp] theorem svStore_beside (s : State) (r : MemReq) (pt : Line) (errs : List Nat) : (svStore s r pt errs).1.beside = s.beside := by
  unfold svStore
  dsimp only
  split
  case h_1 e => exact beside_of_eq e (getCtr_beside ..)
  case h_2 e =>
    have ht := beside_of_eq e (getCtr_beside ..)
    split
    · simpa using ht
    · split
      case h_1 e =>
        refine (beside_of_eq e (getCtr_beside ..)).trans ?_
        split <;> simpa using ht
      case h_2 e =>
        refine (sealLine_beside ..).trans ((nodePut_beside ..).trans ((beside_of_eq e (getCtr_beside ..)).trans ?_))
        split <;> simpa using ht

@[simp] theorem svWriteFull_beside (s : State) (r : MemReq) (pt : Line) (errs : List Nat) : (svWriteFull s r pt errs).1.beside = s.beside := by
  unfold svWriteFull
  dsimp only
  split <;> simp

@[simp] theorem svWritePartial_beside (s : State) (r : MemReq) (mask : BitVec 128) (new : Line) (errs : List Nat) :
    (svWritePartial s r mask new errs).1.beside = s.beside := by
  unfold svWritePartial
  dsimp only
  split
  · rfl
  · split
    case h_1 e =>
      have ht := (beside_of_eq e (svReadFor_beside ..)).trans (visitFirst_beside ..)
      exact (svStore_beside ..).trans ht
    case h_2 e => exact (beside_of_eq e (svReadFor_beside ..)).trans (visitFirst_beside ..)

/-! ## Access by slice physical address (R62, R65, R66, R297) -/

theorem walk_beside {rd : State → Nat → State × Acc Nat} (hrd : ∀ s a, (rd s a).1.beside = s.beside) (limit : Nat)
    (levels : List (Nat × Nat × Nat)) (s : State) (table a : Nat) : (walk rd limit levels s table a).1.beside = s.beside := by
  induction levels generalizing s table with
  | nil => rfl
  | cons l rest ih =>
    unfold walk
    dsimp only
    split
    case h_1 e => exact beside_of_eq e (hrd ..)
    case h_2 e =>
      have ht := beside_of_eq e (hrd ..)
      simp only [apply_ite (fun p : State × Acc Page => p.1.beside), ih, ht, ite_self]

@[simp] theorem readS2Word_beside (who : Who) (slice : Nat) (s : State) (so : Nat) : (readS2Word who slice s so).1.beside = s.beside := by
  unfold readS2Word
  split
  · rfl
  · split
    · rfl
    · split
      case h_1 e | h_2 e | h_3 e => exact beside_of_eq e (svRead_beside ..)

@[simp] theorem s2Walk_beside (s : State) (who : Who) (slice spa : Nat) : (s2Walk s who slice spa).1.beside = s.beside := by
  have hw := walk_beside (rd := fun s a => readS2Word who slice s (a % 2 ^ 43)) (fun s a => readS2Word_beside ..) (2 ^ 52) s2Levels s
    (dS2Root (descOf s slice)) spa
  unfold s2Walk
  split
  case h_1 e =>
    have ht := beside_of_eq e hw
    split <;> exact ht
  case h_2 => exact hw

@[simp] theorem beside_s2 (s : State) (l : List S2Ent) : { s with s2 := l }.beside = s.beside := (rfl)

@[simp] theorem xlat2_beside (s : State) (who : Who) (spa : Nat) (wr fetch : Bool) : (xlat2 s who spa wr fetch).1.beside = s.beside := by
  unfold xlat2
  dsimp only
  repeat' split
  all_goals simp_all [eq_pair]

@[simp] theorem countLine_beside (s : State) (who : Who) (q : MemReq) : (countLine s who q).beside = s.beside := by
  unfold countLine; split <;> simp

theorem readPart_beside (s : State) (who : Who) (fetch : Bool) (p : Nat × Nat × Nat) : (readPart s who .spa fetch p).1.beside = s.beside := by
  unfold readPart xlatVia
  dsimp only
  split
  case h_1 e => exact beside_of_eq e (xlat2_beside ..)
  case h_2 t q e =>
    have ht := (countLine_beside t who q).trans (beside_of_eq e (xlat2_beside ..))
    split
    case h_1 e | h_2 e | h_3 e => exact (beside_of_eq e (svRead_beside ..)).trans ht

theorem readParts_beside (who : Who) (fetch : Bool) (s : State) (l : List (Nat × Nat × Nat)) : (readParts who .spa fetch s l).1.beside = s.beside := by
  induction l generalizing s with
  | nil => rfl
  | cons p l ih =>
    unfold readParts
    split
    case h_1 e => exact beside_of_eq e (readPart_beside ..)
    case h_2 e =>
      have ht := beside_of_eq e (readPart_beside ..)
      split
      case h_1 e | h_2 e => exact (beside_of_eq e (ih _)).trans ht

/-- A read of bytes leaves the state beside memory alone. -/
theorem memRead_beside (s : State) (who : Who) (a n : Nat) : (memRead s who .spa a n).1.beside = s.beside := readParts_beside ..

theorem writePart_beside (s : State) (who : Who) (p : Nat × Nat × Nat) (bs : List Byte) : (writePart s who .spa p bs).1.beside = s.beside := by
  unfold writePart xlatVia
  dsimp only
  split
  case h_1 e => exact beside_of_eq e (xlat2_beside ..)
  case h_2 t q e =>
    have ht := (countLine_beside t who q).trans (beside_of_eq e (xlat2_beside ..))
    split
    case h_1 e | h_2 e =>
      refine (beside_of_eq e ?_).trans ht
      split <;> simp

theorem writeParts_beside (who : Who) (s : State) (l : List (Nat × Nat × Nat)) (bs : List Byte) :
    (writeParts who .spa s l bs).1.beside = s.beside := by
  induction l generalizing s bs with
  | nil => rfl
  | cons p l ih => exact (ih ..).trans (writePart_beside ..)

/-- A write of bytes leaves the state beside memory alone. -/
theorem memWrite_beside (s : State) (who : Who) (a : Nat) (bs : List Byte) : (memWrite s who .spa a bs).1.beside = s.beside :=
  writeParts_beside ..

end Sys2Proof.Machine
end

section
/-! PROOFS. Doorbells, port rings and HEAD writes (O37): the queue and ring records, and how each command ends. -/
namespace Sys2Proof.Machine

/-! ## Queues by number -/

/-- The entry of a table that a key finds, where entries change and keep their keys. -/
theorem find?_map_keepsKey {α : Type} (l : List (Nat × α)) (k : Nat) {g : Nat × α → Nat × α} (hg : ∀ e, (g e).1 = e.1) :
    (l.map g).find? (fun e => e.1 = k) = (l.find? fun e => e.1 = k).map g := by
  rw [List.find?_map]
  simp only [Function.comp_def, hg]

/-- The entry of a table that a key finds, where the entries of one key are changed. -/
theorem find?_map_key {α : Type} (l : List (Nat × α)) (q k : Nat) (f : α → α) :
    ((l.map fun e => if e.1 = q then (e.1, f e.2) else e).find? fun e => e.1 = k).map (·.2) =
      if k = q then ((l.find? fun e => e.1 = k).map (·.2)).map f else (l.find? fun e => e.1 = k).map (·.2) := by
  rw [find?_map_keepsKey _ _ fun e => by split <;> rfl]
  cases hfind : l.find? fun e => e.1 = k with
  | none => simp
  | some e =>
    have : e.1 = k := by simpa using List.find?_some hfind
    by_cases hk : k = q <;> simp [this, hk]

@[simp] theorem queueOf_modQueue (s : State) (q : Nat) (f : Queue → Queue) : queueOf (modQueue s q f) q = (queueOf s q).map f :=
  (find?_map_key s.queues q q f).trans (if_pos rfl)

theorem queueOf_modQueue_ne (s : State) {q k : Nat} (f : Queue → Queue) (h : k ≠ q) : queueOf (modQueue s q f) k = queueOf s k :=
  (find?_map_key s.queues q k f).trans (if_neg h)

theorem onlyQueue_modQueue (s : State) (q : Nat) (f : Queue → Queue) : OnlyQueue q s (modQueue s q f) := fun _ hk => queueOf_modQueue_ne s f hk

/-! ## A block that has woken, by record -/

@[simp] theorem queueOf_awake (s : State) (q : Nat) : queueOf (awake s) q = queueOf s q := by unfold awake; split <;> rfl
@[simp] theorem ctxOf_awake (s : State) (c : Nat) : ctxOf (awake s) c = ctxOf s c := by unfold awake; split <;> rfl
@[simp] theorem sliceOf_awake (s : State) (n : Nat) : sliceOf (awake s) n = sliceOf s n := by unfold awake; split <;> rfl
@[simp] theorem ringOf_awake (s : State) (p : Nat) : ringOf (awake s) p = ringOf s p := by unfold awake; split <;> rfl
@[simp] theorem awake_pclk (s : State) : (awake s).pclk = s.pclk := by unfold awake; split <;> rfl
@[simp] theorem awake_sched (s : State) : (awake s).sched = s.sched := by unfold awake; split <;> rfl
@[simp] theorem awake_queues (s : State) : (awake s).queues = s.queues := by unfold awake; split <;> rfl
@[simp] theorem awake_rings (s : State) : (awake s).rings = s.rings := by unfold awake; split <;> rfl

/-! ## Ring fetches (R428, R608) -/

theorem clear_of_inward {s t : State} (h : t.inward = s.inward) : clear t = clear s := (congrArg clear h :)
theorem ringOf_of_inward {s t : State} (h : t.inward = s.inward) (p : Nat) : ringOf t p = ringOf s p := (congrArg (ringOf · p) h :)

/-! ## Doorbells (R71, R429) -/

@[simp] theorem queueOf_posted (s old : State) (q tail k : Nat) : queueOf (posted s old q tail) k = queueOf s k := rfl

/-- A queue whose doorbell host port `p` may not ring (R71). -/
def ringsForeign (s : State) (p : Nat) (x : Queue) : Bool :=
  x.port ≠ p || !(portMay s p (ctxOf s x.ctx).slice) || (ctxOf s x.ctx).state = .tearing || (sliceOf s (ctxOf s x.ctx).slice).state = .dissolving

section
variable {p queue tail : Nat} {s : State} (hp : p < s.cfg.hostPorts) (hdead : portDead (awake s) p = false)
include hp hdead

theorem execQueueDoorbell_noQueue (hq : queueOf s (queue % 8192) = none) :
    execQueueDoorbell p queue tail s = settle (modRing (awake s) p fun r => { r with foreign := satAdd 65535 r.foreign 1 }) := by
  unfold execQueueDoorbell hereRes
  simp [hp, hdead, hq]

theorem execQueueDoorbell_foreign {x : Queue} (hq : queueOf s (queue % 8192) = some x) (hf : ringsForeign (awake s) p x = true) :
    execQueueDoorbell p queue tail s = settle (modRing (awake s) p fun r => { r with foreign := satAdd 65535 r.foreign 1 }) := by
  unfold ringsForeign at hf
  unfold execQueueDoorbell hereRes
  simp only [awake_cfg, hp, hdead, queueOf_awake, hq, hf, decide_true, Bool.false_eq_true, if_true, if_false]

theorem execQueueDoorbell_badTail {x : Queue} (hq : queueOf s (queue % 8192) = some x) (hf : ringsForeign (awake s) p x = false)
    (ht : tailOk (64 * 2 ^ x.sizeCode) (tail % 2 ^ 32) x.tail x.head = false) :
    execQueueDoorbell p queue tail s = settle (modRing (awake s) p fun r => { r with badtail := satAdd 65535 r.badtail 1 }) := by
  unfold ringsForeign at hf
  unfold execQueueDoorbell hereRes
  simp only [awake_cfg, hp, hdead, queueOf_awake, hq, hf, ht, decide_true, Bool.not_false, Bool.false_eq_true, if_true, if_false]

theorem execQueueDoorbell_posts {x : Queue} (hq : queueOf s (queue % 8192) = some x) (hf : ringsForeign (awake s) p x = false)
    (ht : tailOk (64 * 2 ^ x.sizeCode) (tail % 2 ^ 32) x.tail x.head = true) :
    execQueueDoorbell p queue tail s = settle (posted (modQueue (awake s) (queue % 8192) fun q =>
      { q with tail := tail % 2 ^ 32, since := if q.head = q.tail then s.pclk else q.since }) (awake s) (queue % 8192) (tail % 2 ^ 32)) := by
  unfold ringsForeign at hf
  unfold execQueueDoorbell hereRes
  simp only [awake_cfg, hp, hdead, queueOf_awake, hq, hf, ht, decide_true, Bool.not_true, Bool.false_eq_true, if_true, if_false, awake_pclk]

theorem execPortRingDoorbell_off (hen : (ringOf s p).en = false) : execPortRingDoorbell p tail s = settle (awake s) := by
  unfold execPortRingDoorbell hereRes
  simp [hp, hdead, hen]

theorem execPortRingDoorbell_badTail (hen : (ringOf s p).en = true)
    (ht : tailOk (64 * 2 ^ (ringOf s p).sizeCode) (tail % 2 ^ 32) (ringOf s p).tail (ringOf s p).head = false) :
    execPortRingDoorbell p tail s = settle (modRing (awake s) p fun r => { r with badtail := satAdd 65535 r.badtail 1 }) := by
  unfold execPortRingDoorbell hereRes
  simp only [awake_cfg, hp, hdead, ringOf_awake, hen, ht, decide_true, Bool.not_true, Bool.not_false, Bool.false_eq_true, if_true, if_false]

theorem execPortRingDoorbell_takes (hen : (ringOf s p).en = true)
    (ht : tailOk (64 * 2 ^ (ringOf s p).sizeCode) (tail % 2 ^ 32) (ringOf s p).tail (ringOf s p).head = true) :
    execPortRingDoorbell p tail s =
      settle (ringFetch (modRing (awake s) p fun r => { r with tail := tail % 2 ^ 32, fetchPending := false }) p) := by
  unfold execPortRingDoorbell hereRes
  simp only [awake_cfg, hp, hdead, ringOf_awake, hen, ht, decide_true, Bool.not_true, Bool.false_eq_true, if_true, if_false]

theorem execPortRingEnable_on {sizeCode : Nat} (hsize : sizeCode % 16 ≤ 12) :
    execPortRingEnable p true sizeCode s = settle (modRing (awake s) p fun r =>
      if r.en then { r with en := true }
      else if true then { r with en := true, sizeCode := sizeCode % 16, head := 0, tail := 0, fetchPending := false }
      else { r with sizeCode := sizeCode % 16 }) := by
  unfold execPortRingEnable hereRes
  simp only [awake_cfg, hp, hdead, Nat.not_lt.mpr hsize, decide_true, Bool.false_eq_true, if_true, if_false]
end

theorem execPortRingFetch_arrived {p : Nat} {g : HTag} {s : State} (hp : p < s.cfg.hostPorts)
    (hg : ((hportOf s p).tags.find? fun t => t.reader = .ring) = some g) (hlen : g.got.length = 64) (hpkt : (ringOf s p).pkt = none) :
    execPortRingFetch p s = settle (modRing (modHport s p fun h => { h with tags := h.tags.filter fun x => x.num ≠ g.num }) p
      fun r => { r with pkt := some (wordsOf g.got) }) := by
  have harrived : ((hportOf s p).tags.any fun t => t.reader = .ring && t.got.length = 64) = true :=
    List.any_eq_true.mpr ⟨g, List.mem_of_find?_eq_some hg, by simpa [hlen] using List.find?_some hg⟩
  unfold execPortRingFetch unitRes guardRes
  simp [hp, harrived, hpkt, hg]

theorem execHeadWrite_changed {q : Nat} {x : Queue} {s : State} (hq : queueOf s q = some x) (hseen : x.head ≠ x.headSeen) :
    execHeadWrite q s = settle (modQueue (memWrite s (blockWho (ctxOf s x.ctx).slice) .spa x.headAddr (leBytes 8 x.head)).1 q
      fun y => { y with headSeen := x.head }) := by
  unfold execHeadWrite guardRes
  simp [hq, hseen]

/-- Memory is written beside the queues. -/
theorem queueOf_memWrite (s : State) (who : Who) (a : Nat) (bs : List Byte) (q : Nat) : queueOf (memWrite s who .spa a bs).1 q = queueOf s q :=
  (congrArg (queueOf · q) (memWrite_beside s who a bs) :)

/-! ## The statement -/

/-- What an accepted doorbell leaves (R429, R431): TAIL, and the posted packets behind those not done. -/
theorem queueDoorbell_posted {q tail : Nat} {x : Queue} {s : State} (hq : queueOf s q = some x) :
    let t := posted (modQueue (awake s) q fun y => { y with tail := tail, since := if y.head = y.tail then s.pclk else y.since }) (awake s) q tail
    queueOf t q = some { x with tail := tail, since := if x.head = x.tail then s.pclk else x.since } ∧ OnlyQueue q s t ∧
      t.sched.fifo = s.sched.fifo.filter (unspent s) ++ [(q, tail)] ∧
      { t with queues := s.queues, sched := s.sched } = awake s ∧ { t.sched with fifo := s.sched.fifo } = s.sched := by
  have hunspent : unspent (awake s) = unspent s := by funext y; simp only [unspent, queueOf_awake]
  refine ⟨?_, fun k hk => ?_, ?_, ?_, ?_⟩
  · rw [queueOf_posted, queueOf_modQueue, queueOf_awake, hq]
    rfl
  · rw [queueOf_posted, queueOf_modQueue_ne _ _ hk, queueOf_awake]
  · simp only [posted, awake_sched, hunspent]
  · simp only [posted, modQueue, ← awake_queues s, ← awake_sched s]
  · simp only [posted, modQueue, awake_sched]

/-- Settles O37: each command ends as its lemma above says. -/
theorem doorbellsRingsAndHeadWritesMoveTheirCounts : Obligations.DoorbellsRingsAndHeadWritesMoveTheirCounts := by
  unfold Obligations.DoorbellsRingsAndHeadWritesMoveTheirCounts
  refine ⟨?queueDoorbell, ?ringDoorbell, ?ringEnable, ?ringFetch, ?headWrite⟩
  case queueDoorbell =>
    intro p queue tail s hp hdead hclear
    have hc : clear (awake s) = true := (clear_awake s).trans hclear
    cases hq : queueOf s (queue % 8192) with
    | none => exact Ends.of_settle (execQueueDoorbell_noQueue hp hdead hq) hc ⟨fun _ => rfl, fun x hx => nomatch hx⟩
    | some x =>
      have hforeign : (x.port ≠ p || !(portMay (awake s) p (ctxOf s x.ctx).slice) || (ctxOf s x.ctx).state = .tearing ||
          (sliceOf s (ctxOf s x.ctx).slice).state = .dissolving) = ringsForeign (awake s) p x := by
        simp only [ringsForeign, ctxOf_awake, sliceOf_awake]
      cases hf : ringsForeign (awake s) p x with
      | true =>
        have hf' := hforeign.trans hf
        refine Ends.of_settle (execQueueDoorbell_foreign hp hdead hq hf) hc ⟨fun h => (nomatch h), fun y hy => ?_⟩
        cases hy
        exact ⟨fun _ => rfl, fun h => (nomatch hf'.symm.trans h), fun h => (nomatch hf'.symm.trans h)⟩
      | false =>
        have hf' := hforeign.trans hf
        cases ht : tailOk (64 * 2 ^ x.sizeCode) (tail % 2 ^ 32) x.tail x.head with
        | false =>
          refine Ends.of_settle (execQueueDoorbell_badTail hp hdead hq hf ht) hc ⟨fun h => (nomatch h), fun y hy => ?_⟩
          cases hy
          exact ⟨fun h => (nomatch hf'.symm.trans h), fun _ _ => rfl, fun _ h => (nomatch ht.symm.trans h)⟩
        | true =>
          refine Ends.of_settle (execQueueDoorbell_posts hp hdead hq hf ht) hc ⟨fun h => (nomatch h), fun y hy => ?_⟩
          cases hy
          exact ⟨fun h => (nomatch hf'.symm.trans h), fun _ h => (nomatch ht.symm.trans h), fun _ _ => queueDoorbell_posted hq⟩
  case ringDoorbell =>
    intro p tail s hp hdead hclear
    have hc : clear (awake s) = true := (clear_awake s).trans hclear
    cases hen : (ringOf s p).en with
    | false =>
      exact Ends.of_settle (execPortRingDoorbell_off hp hdead hen) hc
        ⟨fun _ => rfl, fun h => (nomatch hen.symm.trans h), fun h => (nomatch hen.symm.trans h)⟩
    | true =>
      cases ht : tailOk (64 * 2 ^ (ringOf s p).sizeCode) (tail % 2 ^ 32) (ringOf s p).tail (ringOf s p).head with
      | false =>
        exact Ends.of_settle (execPortRingDoorbell_badTail hp hdead hen ht) hc
          ⟨fun h => (nomatch hen.symm.trans h), fun _ _ => rfl, fun _ h => (nomatch ht.symm.trans h)⟩
      | true =>
        have hin := ringFetch_inward (modRing (awake s) p fun r => { r with tail := tail % 2 ^ 32, fetchPending := false }) p
        refine Ends.of_settle (execPortRingDoorbell_takes hp hdead hen ht) ((clear_of_inward hin).trans hc)
          ⟨fun h => (nomatch hen.symm.trans h), fun _ h => (nomatch ht.symm.trans h), fun _ _ => ⟨?_, fun k hk => ?_, ?_⟩⟩
        · rw [ringOf_of_inward hin, ringOf_modRing, ringOf_awake]
        · rw [ringOf_of_inward hin, ringOf_modRing_ne _ _ hk, ringOf_awake]
        · obtain ⟨ck, hck⟩ := awake_frame s
          rw [hck] at hin ⊢
          exact congrArg (fun u : State => { u with rings := s.rings, tally := s.tally, hports := s.hports, out := s.out }) hin
  case ringEnable =>
    intro p sizeCode s hp hdead hsize hen hclear
    have hc : clear (awake s) = true := (clear_awake s).trans hclear
    refine Ends.of_settle (execPortRingEnable_on hp hdead hsize) hc ⟨?_, fun k hk => ?_, ?_⟩
    · rw [ringOf_modRing, ringOf_awake]; simp [hen]
    · rw [ringOf_modRing_ne _ _ hk, ringOf_awake]
    · rw [← awake_rings s]; rfl
  case ringFetch =>
    intro p g s hp hg hlen hpkt hclear
    refine Ends.of_settle (execPortRingFetch_arrived hp hg hlen hpkt) hclear ⟨?_, fun k hk => ?_, fun x hx => ?_, rfl⟩
    · rw [ringOf_modRing, ringOf_modHport]
    · rw [ringOf_modRing_ne _ _ hk, ringOf_modHport]
    · rw [hportOf_modRing, hportOf_modHport] at hx
      simpa using (List.mem_filter.mp hx).2
  case headWrite =>
    intro q x s hq hseen u hclear
    refine Ends.of_settle (execHeadWrite_changed hq hseen) hclear ⟨?_, fun k hk => ?_, rfl⟩
    · rw [queueOf_modQueue, queueOf_memWrite, hq]; rfl
    · rw [queueOf_modQueue_ne _ _ hk, queueOf_memWrite]

end Sys2Proof.Machine
end

section
/-! PROOFS. Warp packets without a launch (O38): a ring that starts its packet, how a packet ends, fence operations, and what a word presented to
the waits leaves alone. -/
namespace Sys2Proof.Machine

/-! ## A ring starts its packet (R434) -/

/-- A queue processes the packet at its head, of a TYPE other than LAUNCH_EXT. -/
theorem packet_queue {ok : Nat → Bool} {q : Nat} {x : Queue} {ws : List Word} {body : State → Pkt → PRes} {s : State}
    (h : queueTakes s q x ws = true) (hok : ok (field (ws.getD 0 0) 0 8) = true) (hty : field (ws.getD 0 0) 0 8 ≠ 0x11) :
    packet ok (.queue q) ws body s = endPacket (queuePkt s q x ws) (body s (queuePkt s q x ws)) := by
  unfold packet
  unfold queueTakes at h
  generalize field (ws.getD 0 0) 0 8 = ty at h hok hty ⊢
  simp only [ Bool.and_eq_true, decide_eq_true_eq, Bool.or_eq_true, hty, false_and, or_false, Bool.not_eq_true'] at h
  obtain ⟨⟨⟨⟨⟨⟨⟨⟨hq, hstart⟩, hturn⟩, hgen⟩, hctx⟩, hslice⟩, hext⟩, herr⟩, hfault⟩ := h
  have hext : x.ext = none := by simpa using hext
  have hctx : (decide ((ctxOf s x.ctx).state = .live) || decide ((ctxOf s x.ctx).state = .faulted)) = true := by simpa using hctx
  have hdrop (k : Pkt) (hk : k.ring = .queue q) : dropExt s k false = s := by simp [dropExt, hk, hq, hext]
  have hfault : packetFault s (queuePkt s q x ws) ty = none := by simpa using hfault
  unfold queuePkt at hfault ⊢
  simp [hok, hq, hstart, hturn, hgen, hctx, hslice, hext, hty, hdrop, herr, hfault]

/-- Whoever serves the port rings processes the packet of a port, of a TYPE other than LAUNCH_EXT. -/
theorem packet_port {ok : Nat → Bool} {p : Nat} {ws : List Word} {body : State → Pkt → PRes} {s : State}
    (h : portTakes s p ws = true) (hok : ok (field (ws.getD 0 0) 0 8) = true) (hty : field (ws.getD 0 0) 0 8 ≠ 0x11) :
    packet ok (.port p) ws body s = endPacket (portPkt s p ws) (body s (portPkt s p ws)) := by
  unfold packet
  unfold portTakes at h
  generalize field (ws.getD 0 0) 0 8 = ty at h hok hty ⊢
  simp only [ Bool.and_eq_true, decide_eq_true_eq, Bool.or_eq_true, hty, or_false, Bool.not_eq_true'] at h
  obtain ⟨⟨⟨⟨⟨⟨⟨hp, hen⟩, hbusy⟩, hpkt⟩, hext⟩, hserver⟩, hbase⟩, hfault⟩ := h
  have hext : (ringOf s p).ext = none := by simpa using hext
  have hdrop (k : Pkt) (hk : k.ring = .port p) : dropExt s k false = s := by simp [dropExt, hk, hext]
  have hfault : packetFault s (portPkt s p ws) ty = none := by simpa using hfault
  unfold portPkt at hfault ⊢
  rcases hbase with (hbase | hbase) | hbase <;> simp [hok, Nat.not_le.mpr hp, hen, hbusy, hpkt, hserver, hbase, hty, hdrop, hfault]

/-! ## How a packet ends (R434, R436, R437) -/

theorem clear_writeStatus (s : State) (a : StatusAt) (code result : Nat) : clear (writeStatus s a code result) = clear s := by
  have hpost := clear_of_inward (hostPost_inward s a.port a.addr (leBytes 8 (statusWord code result).toNat))
  have hevent (t : State) : clear (hostEvent t a.port 0) = clear t := clear_of_inward (hostEvent_inward ..)
  have hring (t : State) (f : PortRing → PortRing) : clear (modRing t a.port f) = clear t := rfl
  unfold writeStatus
  simp only [apply_ite clear, hring, hevent, hpost, ite_self]

theorem clear_finishRing (s : State) (n : Nat) (r : RingId) : clear (finishRing s n r) = clear s := by
  cases r with
  | queue q => rfl
  | port p => exact (clear_of_inward (ringFetch_inward _ p)).trans (clear_eq_of_sv (modRing_sv s p _))

/-- The HEAD of a queue that has taken a packet. -/
theorem queuePassed_finishRing {s : State} {q : Nat} {x y : Queue} (hy : queueOf s q = some y) (hhead : y.head = x.head) (htail : y.tail = x.tail) :
    QueuePassed q x (finishRing s 1 (.queue q)) := by
  refine ⟨{ y with busy := false, ext := none, head := (y.head + 1) % 2 ^ 32, since := s.pclk }, ?_, by rw [← hhead], htail, rfl, rfl⟩
  exact (queueOf_modQueue s q _).trans (by rw [hy]; rfl)

/-- A packet of a queue that is done. -/
theorem ends_queueDone {i : Instr} {s u : State} {q : Nat} {k : Pkt} {P : State → Prop} (hk : k.ring = .queue q)
    (h : exec i s = endPacket k (.done u 0)) (hc : clear u = true) (hP : P (finishRing u 1 (.queue q))) : Ends i s P := by
  refine Ends.of_settle (t := finishRing u 1 (.queue q)) ?_ ((clear_finishRing ..).trans hc) hP
  rw [h, endPacket, hk]

/-- A packet of a port ring that is done is answered. -/
theorem ends_portDone {i : Instr} {s u : State} {p : Nat} {k : Pkt} {P : State → Prop} (hk : k.ring = .port p)
    (h : exec i s = endPacket k (.done u 0)) (hc : clear u = true) (hP : ∀ t, Answered p k.ws 0 0 u t → P t) : Ends i s P := by
  refine Ends.of_settle (t := finishRing (writeStatus u (statusOf u p (ringOf u p).head k.ws) 0 0) 1 (.port p)) ?_
    ((clear_finishRing ..).trans ((clear_writeStatus ..).trans hc)) (hP _ rfl)
  rw [h, endPacket, hk]

/-! ## Fence operations (R267, R269, R435) -/

/-- What a fence operation of host port `p` does to the Tally half of its fence. -/
def addFenceOp (s : State) (p f : Nat) (kind : TKind) (v : Word) (t : Tally) : Tally :=
  { t with queues := mmod [] t.queues (hostTallyPort s.cfg (fenceHalf f) p) fun l => l ++ [⟨kind, 16 * (f % 131072), v, 0, 0, .none, s.fresh⟩] }

theorem fenceOp_tally (s : State) (p f : Nat) (kind : TKind) (v : Word) :
    (fenceOp s p f kind v).tally = mmod Tally.zero s.tally (fenceHalf f) (addFenceOp s p f kind v) := rfl

theorem tallyOf_fenceOp_same (s : State) (p f : Nat) (kind : TKind) (v : Word) :
    tallyOf (fenceOp s p f kind v) (fenceHalf f) = addFenceOp s p f kind v (tallyOf s (fenceHalf f)) := by
  unfold tallyOf
  rw [fenceOp_tally, mget_mmod_same]

theorem tallyOf_fenceOp_ne (s : State) (p : Nat) {f h : Nat} (kind : TKind) (v : Word) (hh : h ≠ fenceHalf f) :
    tallyOf (fenceOp s p f kind v) h = tallyOf s h := by
  unfold tallyOf
  rw [fenceOp_tally, mget_mmod_other _ _ _ hh]

/-- A fence operation of a packet stands last at the Tally port of its host port, and changes nothing else. -/
theorem fenceOp_queued (s : State) (p f : Nat) (kind : TKind) (v : Word) : FenceOpQueued p f kind v s (fenceOp s p f kind v) := by
  intro h
  by_cases hh : h = fenceHalf f
  · subst hh
    rw [tallyOf_fenceOp_same]
    refine ⟨rfl, fun k => ?_⟩
    unfold addFenceOp
    by_cases hk : k = hostTallyPort s.cfg (fenceHalf f) p
    · simp [hk]
    · simp [mget_mmod_other _ _ _ hk, hk]
  · simp [tallyOf_fenceOp_ne s p kind v hh, hh]

theorem fenceOp_frame (s : State) (p f : Nat) (kind : TKind) (v : Word) :
    { fenceOp s p f kind v with tally := s.tally, fresh := s.fresh } = s := rfl

/-! ## Waits (R270, R440, R445) -/

/-- Queues but for the WAITs they hold, port rings but for their host waits, and the memory engines. -/
def State.unheld (s : State) : (Nat → Option Queue) × (Nat → PortRing) × Selvage :=
  (fun q => (queueOf s q).map fun x => { x with held := none }, fun p => { ringOf s p with waits := [] }, s.sv)

theorem queueOf_map_held {s t : State} (w : FenceWait → FenceWait)
    (h : t.queues = s.queues.map fun e => (e.1, { e.2 with held := e.2.held.map w })) (q : Nat) :
    queueOf t q = (queueOf s q).map fun x => { x with held := x.held.map w } := by
  unfold queueOf
  rw [h, find?_map_keepsKey _ _ (by intro; rfl), Option.map_map, Option.map_map]
  rfl

theorem ringOf_map_waits {s t : State} (w : FenceWait × StatusAt → FenceWait × StatusAt)
    (h : t.rings = s.rings.map fun e => (e.1, { e.2 with waits := e.2.waits.map w })) (p : Nat) :
    ringOf t p = { ringOf s p with waits := (ringOf s p).waits.map w } := by
  unfold ringOf
  rw [h]
  exact mget_map PortRing.zero (fun r => { r with waits := r.waits.map w }) rfl s.rings p

/-- A word presented releases waits and changes nothing else of the queues and port rings (R270, R440). -/
theorem presentWord_unheld (s : State) (h off : Nat) : (presentWord s h off).unheld = s.unheld := by
  refine Prod.ext (funext fun q => ?_) (Prod.ext (funext fun p => ?_) rfl)
  · obtain ⟨w, hw⟩ : ∃ w : FenceWait → FenceWait, queueOf (presentWord s h off) q = (queueOf s q).map fun x => { x with held := x.held.map w } :=
      ⟨_, queueOf_map_held _ rfl q⟩
    simp only [State.unheld, hw, Option.map_map, Function.comp_def]
  · obtain ⟨w, hw⟩ : ∃ w : FenceWait × StatusAt → FenceWait × StatusAt, ringOf (presentWord s h off) p =
        { ringOf s p with waits := (ringOf s p).waits.map w } := ⟨_, ringOf_map_waits _ rfl p⟩
    simp only [State.unheld, hw]

theorem fenceErr_unheld (s : State) (f code : Nat) : (fenceErr s f code).unheld = s.unheld := by
  unfold fenceErr; split
  · rfl
  · exact presentWord_unheld ..

theorem raise_unheld (s : State) (src inst detail : Nat) : (raise s src inst detail).unheld = s.unheld := by
  unfold raise; split <;> rfl

theorem tallyBadWord_unheld (s : State) (h off : Nat) : (tallyBadWord s h off).unheld = s.unheld := by
  unfold tallyBadWord
  dsimp only
  split
  · exact (fenceErr_unheld ..).trans (raise_unheld ..)
  · exact raise_unheld ..

theorem orphanCheck_unheld (s : State) (f : Nat) (v : Word) : (orphanCheck s f v).unheld = s.unheld := by
  unfold orphanCheck; split
  · exact fenceErr_unheld ..
  · rfl

/-- A Tally memory that is awake takes an access at once. -/
theorem awaitTally_awake {s : State} (hs : tallyReady s = true) {h : Nat} (hh : h < s.cfg.halves) : awaitTally s h = s := by
  simp only [tallyReady, Bool.and_eq_true, List.all_eq_true, List.mem_range, Bool.not_eq_true'] at hs
  obtain ⟨hret, hwake⟩ := hs.2 h hh
  simp [awaitTally, hret, hwake]

theorem fenceRead_unheld {s : State} (hs : tallyReady s = true) {f : Nat} (hf : fenceHalf f < s.cfg.halves) :
    (fenceRead s f).unheld = s.unheld := by
  have hslot (port : Nat) : (portSlot s (fenceHalf f) port).unheld = s.unheld := by
    unfold portSlot
    rw [awaitTally_awake hs hf]
    rfl
  unfold fenceRead
  dsimp only
  split
  · exact (tallyBadWord_unheld ..).trans (hslot _)
  · exact hslot _

/-- The state in which a WAIT is decided (R440, R445): the fence has been read and, where it is orphaned, abandoned. -/
theorem waitRead_unheld {s : State} (hs : tallyReady s = true) {f : Nat} (hf : fenceHalf f < s.cfg.halves) (v : Word) :
    (orphanCheck (fenceRead s f) f v).unheld = s.unheld := (orphanCheck_unheld ..).trans (fenceRead_unheld hs hf)

theorem clear_of_unheld {s t : State} (h : t.unheld = s.unheld) : clear t = clear s := clear_eq_of_sv (congrArg (fun x => x.2.2) h)

theorem ringOf_of_unheld {s t : State} (h : t.unheld = s.unheld) (p : Nat) : ({ ringOf t p with waits := [] } : PortRing) = { ringOf s p with waits := [] } :=
  (congrArg (fun x => x.2.1 p) h :)

theorem queueOf_of_unheld {s t : State} (h : t.unheld = s.unheld) {q : Nat} {x : Queue} (hx : queueOf s q = some x) :
    ∃ y, queueOf t q = some y ∧ ({ y with held := none } : Queue) = { x with held := none } := by
  have hq : (queueOf t q).map (fun x => ({ x with held := none } : Queue)) = (queueOf s q).map fun x => { x with held := none } :=
    congrFun (congrArg Prod.fst h) q
  rw [hx] at hq
  exact Option.map_eq_some_iff.mp hq

theorem fenceMay_half {s : State} {k : Pkt} {f : Nat} (h : fenceMay s k f = true) : fenceHalf f < s.cfg.halves := by
  simp only [fenceMay, Bool.and_eq_true, decide_eq_true_eq] at h
  exact h.1.1

/-! ## The packets (R435) -/

section
variable {r : RingId} {ws : List Word} {s : State} {k : Pkt} (hws : k.ws = ws)
  (hpacket : ∀ (ok : Nat → Bool) (body : State → Pkt → PRes), ok (field (ws.getD 0 0) 0 8) = true → packet ok r ws body s = endPacket k (body s k))
include hws hpacket

omit hws in
theorem execWarpNop_taken (hty : field (ws.getD 0 0) 0 8 = 0x00) : execWarpNop r ws s = endPacket k (.done s 0) := by
  unfold execWarpNop
  rw [hpacket _ _ (by rw [hty]; rfl)]

theorem execSignal_taken (hty : field (ws.getD 0 0) 0 8 = 0x20) (herr : k.err = none) (hmay : fenceMay s k (field (ws.getD 1 0) 0 18) = true) :
    execSignal r ws s = endPacket k (.done (fenceOp s k.port (field (ws.getD 1 0) 0 18) .max (ws.getD 2 0)) 0) := by
  unfold execSignal
  rw [hpacket _ _ (by rw [hty]; rfl)]
  simp only [Pkt.w, hws, hmay, herr, Bool.not_true, Bool.false_eq_true, if_false]

theorem execError_taken (hty : field (ws.getD 0 0) 0 8 = 0x22) (hcode : 0x8000 ≤ field (ws.getD 0 0) 16 16)
    (hmay : fenceMay s k (field (ws.getD 1 0) 0 18) = true) : execError r ws s =
      endPacket k (.done (fenceOp s k.port (field (ws.getD 1 0) 0 18) .seterr (BitVec.ofNat 64 (field (ws.getD 0 0) 16 16))) 0) := by
  unfold execError
  rw [hpacket _ _ (by rw [hty]; rfl)]
  simp only [Pkt.w, hws, hmay, Nat.not_lt.mpr hcode, Bool.not_true, Bool.false_eq_true, if_false]

theorem execInvalidate_taken (hty : field (ws.getD 0 0) 0 8 = 0x30) (hpage : (ws.getD 1 0).toNat % 65536 = 0)
    (hall : bit (ws.getD 0 0) 16 = false ∨ ((ws.getD 1 0).toNat = 0 ∧ field (ws.getD 2 0) 0 32 = 0)) (hdrained : drainedCtx s k.ctx = true) :
    execInvalidate r ws s = endPacket k (.done { s with atu := s.atu.filter fun a => !(a.ctx = k.ctx && a.gen = k.gen && (bit (ws.getD 0 0) 16 ||
      ((ws.getD 1 0).toNat / 65536 ≤ a.page && a.page < (ws.getD 1 0).toNat / 65536 + field (ws.getD 2 0) 0 32))) } 0) := by
  have hlegal : ((bit (ws.getD 0 0) 16 && ((ws.getD 1 0).toNat ≠ 0 || field (ws.getD 2 0) 0 32 ≠ 0)) || (ws.getD 1 0).toNat % 65536 ≠ 0) = false := by
    rcases hall with h | ⟨h1, h2⟩
    · rw [h, hpage]; rfl
    · rw [h1, h2]; simp
  unfold execInvalidate
  rw [hpacket _ _ (by rw [hty]; rfl)]
  simp only [Pkt.w, hws, hlegal, hdrained, Bool.not_true, Bool.false_eq_true, if_false]

end

/-- A WAIT of a queue holds it with what the fence shows (R440). -/
theorem execWait_queue {q : Nat} {x : Queue} {ws : List Word} {s : State} (h : queueTakes s q x ws = true) (hty : field (ws.getD 0 0) 0 8 = 0x21)
    (hmay : fenceMay s (queuePkt s q x ws) (field (ws.getD 1 0) 0 18) = true) : execWait (.queue q) ws s =
      (let u := orphanCheck (fenceRead s (field (ws.getD 1 0) 0 18)) (field (ws.getD 1 0) 0 18) (ws.getD 2 0)
       settle (modQueue u q fun x => { x with
         held := some ⟨field (ws.getD 1 0) 0 18, ws.getD 2 0, foundNow u (field (ws.getD 1 0) 0 18) (ws.getD 2 0)⟩ })) := by
  unfold execWait
  rw [packet_queue h (by rw [hty]; rfl) (by rw [hty]; decide)]
  simp only [Pkt.w, queuePkt] at hmay ⊢
  simp only [hmay, Bool.not_true, Bool.false_eq_true, if_false]
  rfl

/-- A WAIT of a port ring leaves a host wait there, and the ring passes it (R436). -/
theorem execWait_port {p : Nat} {ws : List Word} {s : State} (h : portTakes s p ws = true) (hty : field (ws.getD 0 0) 0 8 = 0x21)
    (hmay : fenceMay s (portPkt s p ws) (field (ws.getD 1 0) 0 18) = true) : execWait (.port p) ws s =
      (let u := orphanCheck (fenceRead s (field (ws.getD 1 0) 0 18)) (field (ws.getD 1 0) 0 18) (ws.getD 2 0)
       settle (finishRing (modRing u p fun x => { x with waits := x.waits ++
         [(⟨field (ws.getD 1 0) 0 18, ws.getD 2 0, foundNow u (field (ws.getD 1 0) 0 18) (ws.getD 2 0)⟩, statusOf u p x.head ws)] }) 1 (.port p))) := by
  unfold execWait
  rw [packet_port h (by rw [hty]; rfl) (by rw [hty]; decide)]
  simp only [Pkt.w, portPkt] at hmay ⊢
  simp only [hmay, Bool.not_true, Bool.false_eq_true, if_false]
  rfl

/-- The port ring of a WAIT that has passed. -/
theorem ringOf_finishRing (s : State) (p : Nat) : ringOf (finishRing s 1 (.port p)) p =
    { ringOf s p with busy := false, ext := none, pkt := none, head := ((ringOf s p).head + 1) % 2 ^ 32 } :=
  (ringOf_of_inward (ringFetch_inward _ p) p).trans (ringOf_modRing ..)

theorem statusOf_of_unheld {s t : State} (h : t.unheld = s.unheld) (p k : Nat) (ws : List Word) : statusOf t p k ws = statusOf s p k ws :=
  (congrArg (fun r : PortRing => (⟨p, slotAddr r k + 56, bit (ws.getD 0 0) 8⟩ : StatusAt)) (ringOf_of_unheld h p) :)

/-! ## A released WAIT (R440) -/

theorem execWaitRelease_queue {q i code f : Nat} {v : Word} {x : Queue} {s : State} (hq : queueOf s q = some x)
    (hheld : x.held = some ⟨f, v, some code⟩) : execWaitRelease (.queue q) i s =
      settle (finishRing (if code = 0 then modQueue s q fun x => { x with held := none } else queueErr s q code) 1 (.queue q)) := by
  unfold execWaitRelease
  simp only [hq, Option.bind_some, hheld]

/-- A queue placed in the error state (R437). -/
theorem queueOf_queueErr {s : State} {q : Nat} {x : Queue} (hq : queueOf s q = some x) (code : Nat) : queueOf (queueErr s q code) q =
    some { x with err := true, code := codeKey code, held := none, gang := none, ext := none, opening := false } := by
  unfold queueOf at hq ⊢
  obtain ⟨e, he, rfl⟩ := Option.map_eq_some_iff.mp hq
  have hkey : e.1 = q := by simpa using List.find?_some he
  unfold queueErr
  rw [find?_map_keepsKey _ _ (fun e => by dsimp only; split <;> rfl), he]
  simp [hkey]

theorem execWaitRelease_port {p i code f : Nat} {v : Word} {a : StatusAt} {s : State} (hp : p < s.cfg.hostPorts)
    (hw : (ringOf s p).waits[i]? = some (⟨f, v, some code⟩, a)) : execWaitRelease (.port p) i s =
      settle (writeStatus (modRing s p fun x => { x with waits := x.waits.eraseIdx i }) a code 0) := by
  unfold execWaitRelease
  simp only [Nat.not_le.mpr hp, hw, if_false]

theorem writeStatus_waits (s : State) (a : StatusAt) (code result p : Nat) : (ringOf (writeStatus s a code result) p).waits = (ringOf s p).waits := by
  have hpost (q : Nat) : ringOf (hostPost s a.port a.addr (leBytes 8 (statusWord code result).toNat)) q = ringOf s q :=
    ringOf_of_inward (hostPost_inward ..) q
  have hevent (t : State) : ringOf (hostEvent t a.port 0) p = ringOf t p := ringOf_of_inward (hostEvent_inward ..) p
  have hring (t : State) : (ringOf (modRing t a.port fun r => { r with badpkt := satAdd 65535 r.badpkt 1 }) p).waits = (ringOf t p).waits := by
    by_cases h : p = a.port
    · subst h; rw [ringOf_modRing]
    · rw [ringOf_modRing_ne _ _ h]
  unfold writeStatus
  simp only [apply_ite (fun t => (ringOf t p).waits), hring, hevent, hpost, ite_self]

/-- What answering a packet of a port ring leaves alone. -/
def State.besideRings (s : State) : State := { s with rings := [], hports := [], out := [], tally := [] }

theorem besideRings_of_inward {s t : State} (h : t.inward = s.inward) : t.besideRings = s.besideRings := (congrArg State.besideRings h :)

theorem writeStatus_besideRings (s : State) (a : StatusAt) (code result : Nat) : (writeStatus s a code result).besideRings = s.besideRings := by
  have hpost := besideRings_of_inward (hostPost_inward s a.port a.addr (leBytes 8 (statusWord code result).toNat))
  have hevent (t : State) : (hostEvent t a.port 0).besideRings = t.besideRings := besideRings_of_inward (hostEvent_inward ..)
  have hring (t : State) (f : PortRing → PortRing) : (modRing t a.port f).besideRings = t.besideRings := rfl
  unfold writeStatus
  simp only [apply_ite State.besideRings, hring, hevent, hpost, ite_self]

/-! ## The obligation -/

/-- A queue that takes a packet is there. -/
theorem queueOf_of_takes {s : State} {q : Nat} {x : Queue} {ws : List Word} (h : queueTakes s q x ws = true) : queueOf s q = some x := by
  unfold queueTakes at h
  simp only [Bool.and_eq_true, decide_eq_true_eq] at h
  tauto

/-- A packet of a queue that only ends: the queue's HEAD passes it. -/
theorem ends_queuePassed {i : Instr} {s u : State} {q : Nat} {x : Queue} {k : Pkt} {P : State → Prop} (hk : k.ring = .queue q)
    (h : exec i s = endPacket k (.done u 0)) (hc : clear u = true) (hq : queueOf s q = some x) (hu : u.queues = s.queues)
    (hP : P (finishRing u 1 (.queue q))) : Ends i s fun t => QueuePassed q x t ∧ OnlyQueue q s t ∧ P t := by
  have hqueue (j : Nat) : queueOf u j = queueOf s j := by unfold queueOf; rw [hu]
  exact ends_queueDone hk h hc ⟨queuePassed_finishRing ((hqueue q).trans hq) rfl rfl,
    fun j hj => (queueOf_modQueue_ne u _ hj).trans (hqueue j), hP⟩

/-- The stage-1 translations that an INVALIDATE removes (R435). -/
theorem mem_invalidated {l : List AtuEnt} {c g lo n : Nat} {all : Bool} (a : AtuEnt) :
    a ∈ l.filter (fun a => !(a.ctx = c && a.gen = g && (all || (lo ≤ a.page && a.page < lo + n)))) ↔
      a ∈ l ∧ ¬ (a.ctx = c ∧ a.gen = g ∧ (all = true ∨ (lo ≤ a.page ∧ a.page < lo + n))) := by
  simp only [List.mem_filter, Bool.not_eq_true', ← Bool.not_eq_true, Bool.and_eq_true, Bool.or_eq_true, decide_eq_true_eq, and_assoc]

/-- A WAIT that holds its queue in a state that differs in waits alone (R440). -/
theorem ends_queueHeld {i : Instr} {s u : State} {q : Nat} {x : Queue} {w : FenceWait} (hu : u.unheld = s.unheld) (hclear : clear s = true)
    (hq : queueOf s q = some x) (h : exec i s = settle (modQueue u q fun x => { x with held := some w })) :
    Ends i s fun t => queueOf t q = some { x with held := some w } ∧ OnlyQueue q u t ∧ { t with queues := u.queues } = u := by
  obtain ⟨y, hy, hyx⟩ := queueOf_of_unheld hu hq
  refine Ends.of_settle h ((clear_of_unheld hu).trans hclear) ⟨?_, onlyQueue_modQueue u q _, rfl⟩
  rw [queueOf_modQueue, hy]
  exact congrArg (fun z : Queue => some { z with held := some w }) hyx

/-- A WAIT that leaves its host wait in a state that differs in waits alone (R436, R440). -/
theorem ends_hostWait {i : Instr} {s u : State} {p : Nat} {ws : List Word} {w : FenceWait} (hu : u.unheld = s.unheld) (hclear : clear s = true)
    (h : exec i s = settle (finishRing (modRing u p fun x => { x with waits := x.waits ++ [(w, statusOf u p x.head ws)] }) 1 (.port p))) :
    Ends i s fun t => (ringOf t p).head = ((ringOf s p).head + 1) % 2 ^ 32 ∧ (ringOf t p).pkt = none ∧
      (ringOf t p).waits = (ringOf u p).waits ++ [(w, statusOf s p (ringOf s p).head ws)] := by
  have hhead : (ringOf u p).head = (ringOf s p).head := (congrArg PortRing.head (ringOf_of_unheld hu p) :)
  refine Ends.of_settle h ((clear_finishRing ..).trans ((clear_of_unheld hu).trans hclear)) ?_
  rw [ringOf_finishRing, ringOf_modRing, ← statusOf_of_unheld hu, ← hhead]
  exact ⟨rfl, rfl, rfl⟩

/-- Settles O38: of a ring that starts the packet, `packet` is what the packet does, and each packet ends by its own rule. -/
theorem warpPacketsPassWithTheirEffect : Obligations.WarpPacketsPassWithTheirEffect := by
  unfold Obligations.WarpPacketsPassWithTheirEffect
  refine ⟨?queue, ?port, ?releaseQueue, ?releasePort⟩
  case queue =>
    intro q x ws s htakes hclear ty f v
    have hq := queueOf_of_takes htakes
    have hpacket (hty : ty ≠ 0x11) (ok : Nat → Bool) (body : State → Pkt → PRes) (hok : ok ty = true) :
        packet ok (.queue q) ws body s = endPacket (queuePkt s q x ws) (body s (queuePkt s q x ws)) := packet_queue htakes hok hty
    refine ⟨fun hty => ?_, fun hty hmay => ?_, fun hty hmay hcode => ?_, fun hty hmay hready => ?_, fun hty hpage hall hdrained => ?_⟩
    · exact ends_queuePassed rfl (execWarpNop_taken (hpacket (by rw [hty]; decide)) hty) hclear hq rfl rfl
    · exact ends_queuePassed rfl (execSignal_taken rfl (hpacket (by rw [hty]; decide)) hty rfl hmay) hclear hq rfl ⟨fenceOp_queued s _ _ _ _, rfl⟩
    · exact ends_queuePassed rfl (execError_taken rfl (hpacket (by rw [hty]; decide)) hty hcode hmay) hclear hq rfl ⟨fenceOp_queued s _ _ _ _, rfl⟩
    · exact ends_queueHeld (waitRead_unheld hready (fenceMay_half hmay) v) hclear hq (execWait_queue htakes hty hmay)
    · exact ends_queuePassed rfl (execInvalidate_taken rfl (hpacket (by rw [hty]; decide)) hty hpage hall hdrained) hclear hq rfl
        ⟨rfl, mem_invalidated⟩
  case port =>
    intro p ws s htakes hclear ty f v
    have hpacket (hty : ty ≠ 0x11) (ok : Nat → Bool) (body : State → Pkt → PRes) (hok : ok ty = true) :
        packet ok (.port p) ws body s = endPacket (portPkt s p ws) (body s (portPkt s p ws)) := packet_port htakes hok hty
    refine ⟨fun hty => ?_, fun hty hmay => ?_, fun hty hmay hcode => ?_, fun hty hmay hready => ?_⟩
    · exact ends_portDone rfl (execWarpNop_taken (hpacket (by rw [hty]; decide)) hty) hclear fun _ h => h
    · exact ends_portDone rfl (execSignal_taken rfl (hpacket (by rw [hty]; decide)) hty rfl hmay) hclear
        fun _ h => ⟨_, h, fenceOp_queued s _ _ _ _, rfl⟩
    · exact ends_portDone rfl (execError_taken rfl (hpacket (by rw [hty]; decide)) hty hcode hmay) hclear
        fun _ h => ⟨_, h, fenceOp_queued s _ _ _ _, rfl⟩
    · exact ends_hostWait (waitRead_unheld hready (fenceMay_half hmay) v) hclear (execWait_port htakes hty hmay)
  case releaseQueue =>
    intro q code f i v x s hq hheld hclear
    have hexec := execWaitRelease_queue (i := i) hq hheld
    by_cases hcode : code = 0
    · rw [if_pos hcode] at hexec
      have hy : queueOf (modQueue s q fun x => { x with held := none }) q = some { x with held := none } := by rw [queueOf_modQueue, hq]; rfl
      refine Ends.of_settle hexec hclear ⟨queuePassed_finishRing hy rfl rfl, ?_, rfl⟩
      exact ⟨_, (queueOf_modQueue ..).trans (congrArg (Option.map _) hy), rfl, fun _ => rfl, fun h => absurd hcode h⟩
    · rw [if_neg hcode] at hexec
      have hy := queueOf_queueErr hq code
      refine Ends.of_settle hexec hclear ⟨queuePassed_finishRing hy rfl rfl, ?_, rfl⟩
      exact ⟨_, (queueOf_modQueue ..).trans (congrArg (Option.map _) hy), rfl, fun h => absurd h hcode, fun _ => ⟨rfl, rfl⟩⟩
  case releasePort =>
    intro p code f i v a s hp hw hclear
    refine Ends.of_settle (execWaitRelease_port hp hw) ((clear_writeStatus ..).trans hclear) ⟨?_, ?_⟩
    · rw [writeStatus_waits, ringOf_modRing]
    · exact congrArg (fun u : State => { u with rings := s.rings, hports := s.hports, out := s.out, tally := s.tally })
        (writeStatus_besideRings (modRing s p fun x => { x with waits := x.waits.eraseIdx i }) a code 0)

end Sys2Proof.Machine
end

section
/-! PROOFS. The key store's commands (O45): the block that the statement admits and in which GENERATE cannot occur yet. -/
namespace Sys2Proof.Machine

/-- A block with no Tally half in its configuration, whose key store lies in a Tally memory that retains; slice 0 is active, and KS_STAGE0 names
memory identifier 0 of it. -/
def noHalves : State :=
  { State.reset with
    cfg := { lu48 with halves := 0 }
    tally := [(0, { Tally.zero with retained := true })]
    slices := [(0, { Slice.zero with desc := directDesc lu48 (directWindow (lu48.cap 0)), state := .active })]
    sv := { State.reset.sv with sweepEn := false }
    ks := { State.reset.ks with stage := [(0, 2 ^ 60)] } }

/-- GENERATE waits for the memory of the secure part (R267, R275), which the configuration does not count. -/
theorem execGenerate_noHalves (t : State) : execGenerate (.crp true) noHalves ≠ .next t := by
  have hwaits : (match execGenerate (.crp true) noHalves with | .refused .accessWaits => true | _ => false) = true := by decide +kernel
  intro h
  rw [h] at hwaits
  exact nomatch hwaits

/-- Refutes O45: `tallyReady` asks of the configured halves alone that they are awake, and GENERATE seals its key into half 0. In a block whose
configuration counts no half, with that memory in retention, an access of GENERATE waits and the command does not end. -/
theorem not_keyStoreCommandsInstallEraseAndReport : ¬ Obligations.KeyStoreCommandsInstallEraseAndReport := by
  unfold Obligations.KeyStoreCommandsInstallEraseAndReport
  rintro ⟨h, -⟩
  obtain ⟨-, hopen, -⟩ := h (.crp true) noHalves (by decide +kernel) rfl rfl (by decide +kernel)
  obtain ⟨-, hgenerate, -⟩ := hopen (by decide +kernel)
  obtain ⟨t, ht, -⟩ := hgenerate (by decide +kernel) (by decide +kernel) rfl rfl
  exact execGenerate_noHalves t ht

end Sys2Proof.Machine
end

section
/-! PROOFS. The slice manager's commands (O35): a command that reaches it, a slice that is built, changed or starts to dissolve, the region
table by index, and the staging registers. -/
namespace Sys2Proof.Machine

/-! ## A command that reaches the slice manager (R42, R46) -/

/-- The slice manager takes a command: the block has woken, and the registers of the manager show the command. -/
theorem slmTaken_frame (op n : Nat) (s : State) : ∃ ck, awake s = { s with ck := ck } ∧ slmTaken op n s =
    { s with ck := ck, slm := { s.slm with target := n % 256, lastOp := op, captured := stagedWords s } } := by
  obtain ⟨ck, h⟩ := awake_frame s
  exact ⟨ck, h, by rw [slmTaken, h]⟩

/-- A command from the secure world over a path that is up, in a running block with an idle slice manager. -/
theorem slCmd_reach {path : Path} {s : State} (hreach : cmdReach path s = true) (hbusy : s.slm.busy = false) (op n : Nat)
    (body : State → State) : slCmd path op n body s = settle (body (slmTaken op n s)) := by
  simp only [cmdReach, Bool.and_eq_true, Bool.not_eq_true'] at hreach
  obtain ⟨⟨⟨hup, hsec⟩, hsafe⟩, hruns⟩ := hreach
  have hstaged : stagedWords (awake s) = stagedWords s := by simp only [stagedWords, awake_slm]
  unfold slCmd slmTaken
  simp only [hup, awake_cfg, hsec, hsafe, hruns, awake_slm, hbusy, hstaged, Bool.not_true, Bool.or_self, Bool.false_eq_true, if_false]

theorem clear_slmTaken (op n : Nat) (s : State) : clear (slmTaken op n s) = clear s := clear_awake s

@[simp] theorem sliceOf_slmEnd (s : State) (r n : Nat) : sliceOf (slmEnd s r) n = sliceOf s n := rfl

/-! ## BUILD (R48) -/

/-- The state but for slices, key store and guarantees. -/
def State.besideSlices (s : State) : State := { s with slices := [], ks := default, bw := default }

theorem updateBudgets_besideSlices (s : State) : (updateBudgets s).besideSlices = s.besideSlices := rfl

theorem refreshSlices_besideSlices (old s : State) : (refreshSlices old s).besideSlices = s.besideSlices := by
  unfold refreshSlices
  refine (updateBudgets_besideSlices _).trans (foldl_keeps State.besideSlices (fun t n => ?_) (List.range 16) s)
  dsimp only
  repeat' split
  all_goals rfl

/-- A slice is ACTIVE or DEGRADED. -/
def Slice.serves (x : Slice) : Prop := x.state = .active ∨ x.state = .degraded

/-- Descriptor of slice `n`, and whether the slice serves. -/
def service (n : Nat) (s : State) : List Word × Prop := ((sliceOf s n).desc, (sliceOf s n).serves)

/-- Slice `k`, which was in state `st`, moves between ACTIVE and DEGRADED with what is fenced (R51). -/
def followFence (st : SlState) (k : Nat) (s : State) : State :=
  match st with
  | .active => if anyFenced s k then modSlice s k fun y => { y with state := .degraded } else s
  | .degraded => if anyFenced s k then s else modSlice s k fun y => { y with state := .active }
  | _ => s

theorem refreshSlices_eq (old s : State) : refreshSlices old s = updateBudgets ((List.range 16).foldl (fun t k => followFence (sliceOf t k).state k
    (if (sliceOf t k).state ≠ .free && fencedUnits old k ≠ fencedUnits t k then reportChanged t k else t)) s) := rfl

theorem service_modSlice {s : State} {k : Nat} (hs : (sliceOf s k).serves) {st : SlState} (hst : st = .active ∨ st = .degraded) (n : Nat) :
    service n (modSlice s k fun y => { y with state := st }) = service n s := by
  unfold service
  by_cases hn : n = k
  · subst hn
    rw [sliceOf_modSlice]
    exact Prod.ext rfl (propext ⟨fun _ => hs, fun _ => hst⟩)
  · rw [sliceOf_modSlice_ne _ _ hn]

theorem service_followFence (s : State) (k n : Nat) : service n (followFence (sliceOf s k).state k s) = service n s := by
  cases h : (sliceOf s k).state
  case active =>
    unfold followFence; dsimp only; split
    · exact service_modSlice (.inl h) (.inr rfl) n
    · rfl
  case degraded =>
    unfold followFence; dsimp only; split
    · rfl
    · exact service_modSlice (.inr h) (.inl rfl) n
  all_goals rfl

theorem service_updateBudgets (s : State) (n : Nat) : service n (updateBudgets s) = service n s := rfl

/-- What is fenced changes neither the descriptor of a slice nor whether it serves. -/
theorem service_refreshSlices (old s : State) (n : Nat) : service n (refreshSlices old s) = service n s := by
  rw [refreshSlices_eq, service_updateBudgets]
  refine foldl_keeps (service n) (fun t k => ?_) (List.range 16) s
  split
  · exact service_followFence (reportChanged t k) k n
  · exact service_followFence t k n

/-- The resources of a slice that BUILD claims, before the slices follow what is fenced. -/
def claimSlice (s : State) (n : Nat) (d : List Word) : State :=
  let s := modSlice s n fun _ => { Slice.zero with desc := d, state := .active }
  let s := { s with slm := { s.slm with buildLocked := true, lockAt := if s.slm.buildLocked then s.slm.lockAt else s.pclk },
                    s2 := s.s2.filter fun e => e.slice ≠ n }
  let s := modKsSlice s n fun _ => { KSlice.zero with fwBuild := (s.fw.running.map (·.meas)).getD 0 }
  modSlSched s n fun a => { a with wait := 0, preempt := 0, steps := 0, fallback := 0, gaps := 0 }

theorem buildSlice_eq (s : State) (n : Nat) (d : List Word) :
    buildSlice s n d = slmEnd (refreshSlices (claimSlice s n d) (claimSlice s n d)) 0 := rfl

/-- A BUILD leaves what does not belong to slices, guarantees, the key store, the scheduler and cached pages. -/
theorem buildSlice_frame (s : State) (n : Nat) (d : List Word) : ∃ sl ks bw s2 sc lockAt, buildSlice s n d =
    { s with slices := sl, ks := ks, bw := bw, s2 := s2, sched := sc,
             slm := { s.slm with buildLocked := true, lockAt := lockAt, busy := true, due := some 0 } } := by
  rw [buildSlice_eq]
  have h := refreshSlices_besideSlices (claimSlice s n d) (claimSlice s n d)
  generalize refreshSlices (claimSlice s n d) (claimSlice s n d) = t at h
  exact ⟨t.slices, t.ks, t.bw, _, _, _, congrArg (fun u : State =>
    { u with slices := t.slices, ks := t.ks, bw := t.bw, slm := { u.slm with busy := true, due := some 0 } }) h⟩

/-- The slice that a BUILD leaves. -/
theorem buildSlice_slice (s : State) (n : Nat) (d : List Word) : (sliceOf (buildSlice s n d) n).desc = d ∧ (sliceOf (buildSlice s n d) n).serves := by
  have h := service_refreshSlices (claimSlice s n d) (claimSlice s n d) n
  have hclaim : sliceOf (claimSlice s n d) n = { Slice.zero with desc := d, state := .active } :=
    sliceOf_modSlice s n fun _ => { Slice.zero with desc := d, state := .active }
  simp only [service, hclaim, Prod.mk.injEq] at h
  rw [buildSlice_eq, sliceOf_slmEnd, h.1, h.2]
  exact ⟨rfl, .inl rfl⟩

theorem bits16_frame (n : Nat) (s : State) : ∃ fresh, (bits16 n s).1 = { s with fresh := fresh } := by
  unfold bits16; split
  · exact ⟨s.fresh, rfl⟩
  · exact ⟨_, rfl⟩

theorem putAdmit_frame (s : State) (a : Nat × Nat × Nat × Nat) : ∃ bw fresh, putAdmit s a = { s with bw := bw, fresh := fresh } := by
  obtain ⟨fresh, h⟩ := bits16_frame a.2.2.1 s
  unfold putAdmit
  dsimp only
  rw [h]
  exact ⟨_, fresh, rfl⟩

/-- A BUILD or CHANGE that its checks turn away leaves BW_ADMIT at most. -/
theorem slmRefuse_frame (s : State) (r : Nat × Option (Nat × Nat × Nat × Nat)) : ∃ bw fresh, slmRefuse s r =
    { s with bw := bw, fresh := fresh, slm := { s.slm with busy := true, due := some r.1 } } := by
  obtain ⟨r, _ | a⟩ := r
  · exact ⟨s.bw, s.fresh, rfl⟩
  · obtain ⟨bw, fresh, h⟩ := putAdmit_frame s a
    exact ⟨bw, fresh, congrArg (slmEnd · r) h⟩

/-! ## CHANGE (R48, R394) -/

theorem foldl_modEng (f : Engine → Engine) (l : List Nat) (s : State) :
    l.foldl (fun t e => modEng t e f) s = { s with engines := l.foldl (fun m e => mmod Engine.idle m e f) s.engines } := by
  induction l generalizing s with
  | nil => rfl
  | cons e l ih => exact ih (modEng s e f)

theorem engOf_foldl_modEng {l : List Nat} (hl : l.Nodup) (f : Engine → Engine) (s : State) (e : Nat) :
    engOf (l.foldl (fun t e => modEng t e f) s) e = if e ∈ l then f (engOf s e) else engOf s e := by
  rw [foldl_modEng]
  exact mget_foldl_mmod Engine.idle f e l hl s.engines

theorem nodup_changeRemoves (s : State) (n : Nat) (d : List Word) : (changeRemoves s n d).Nodup := (List.nodup_range.filter _).filter _
theorem nodup_changeWaits (s : State) (n : Nat) (d : List Word) : (changeWaits s n d).Nodup := (nodup_changeRemoves s n d).filter _

/-- A slice that changes towards `d` and still has to release the engines `l` (R48). -/
def Slice.towards (d : List Word) (l : List Nat) (x : Slice) : Slice := { x with state := .changing, changeTo := d, releasing := l }

/-- The state after a CHANGE has started, but for its engines. -/
theorem changeStart_frame (n : Nat) (d : List Word) (s : State) : ∃ es, changeStart n d s =
    { modSlice s n (Slice.towards d (changeWaits s n d)) with
      engines := es, slm := { s.slm with busy := true } } := by
  unfold changeStart markRemoving
  simp only [foldl_modEng]
  exact ⟨_, rfl⟩

/-- Each engine after a CHANGE has started: a removed one takes no context any more, and is asked to switch where it holds one. -/
theorem engOf_changeStart (n : Nat) (d : List Word) (s : State) (e : Nat) : engOf (changeStart n d s) e =
    (let g : Engine := if e ∈ changeRemoves s n d then { engOf s e with removing := true } else engOf s e
     if e ∈ changeWaits s n d then { g with switchReq := true, preempt := true } else g) := by
  unfold changeStart markRemoving
  rw [engOf_foldl_modEng (nodup_changeWaits s n d), engOf_modSlice, engOf_foldl_modEng (nodup_changeRemoves s n d)]
  rfl

/-! ## DISSOLVE (R48) -/

/-- The region table and the slices. -/
def State.territory (s : State) : List (Nat × Region) × List (Nat × Slice) := (s.regions, s.slices)

theorem territory_of_standing {s t : State} (h : t.standing = s.standing) : t.territory = s.territory :=
  (congrArg (fun x => (x.1, x.2.1)) h :)

theorem territory_of_beside {s t : State} (h : t.beside = s.beside) : t.territory = s.territory := (congrArg State.territory h :)

theorem ringPacket_territory (s : State) (slice : Nat) (q : Queue) (k : Nat) : (ringPacket s slice q k).1.territory = s.territory := by
  unfold ringPacket
  split
  case h_1 e | h_2 e => exact territory_of_beside (beside_of_eq e (memRead_beside ..))

theorem queueErr_territory (s : State) (q code : Nat) : (queueErr s q code).territory = s.territory := rfl

theorem fenceErr_territory (s : State) (f code : Nat) : (fenceErr s f code).territory = s.territory := territory_of_standing (fenceErr_standing ..)

theorem discardPackets_territory (s : State) (slice qn : Nat) (q : Queue) (code : Nat) :
    (discardPackets s slice qn q code).territory = s.territory := by
  have hqueue (t : State) (f : Queue → Queue) : (modQueue t qn f).territory = t.territory := rfl
  unfold discardPackets
  dsimp only
  rw [hqueue]
  generalize hu : List.foldl _ s _ = u
  have hpackets : u.territory = s.territory := by
    rw [← hu]
    refine foldl_keeps State.territory (fun t i => ?_) _ s
    have hread := ringPacket_territory t slice q (q.head + b2n q.busy + i)
    split
    · exact (fenceErr_territory ..).trans hread
    · exact hread
  rw [← hpackets]
  split
  · refine foldl_keeps State.territory (fun t m => ?_) _ u
    split
    · exact queueErr_territory ..
    · rfl
  · rfl

theorem tearStart_territory (s : State) (c code : Nat) (status : Option StatusAt) (relive : Bool) :
    (tearStart s c code status relive).territory = s.territory := by
  unfold tearStart
  refine (territory_of_standing (tearAdvance_standing ..)).trans ?_
  exact foldl_keeps State.territory (fun t q => discardPackets_territory ..) _ _

theorem tearSlice_territory (s : State) (n code : Nat) : (tearSlice s n code).territory = s.territory := by
  unfold tearSlice
  refine foldl_keeps State.territory (fun t c => ?_) _ s
  split
  · rfl
  · exact tearStart_territory ..

/-- In `t`, slice `n` has the descriptor it had in `s`, and other slices and the region table are as they were. -/
def SameGrant (n : Nat) (s t : State) : Prop :=
  t.regions = s.regions ∧ (sliceOf t n).desc = descOf s n ∧ ∀ k, k ≠ n → sliceOf t k = sliceOf s k

theorem SameGrant.trans {n : Nat} {s t u : State} (h : SameGrant n s t) (h' : SameGrant n t u) : SameGrant n s u :=
  ⟨h'.1.trans h.1, h'.2.1.trans h.2.1, fun k hk => (h'.2.2 k hk).trans (h.2.2 k hk)⟩

theorem sameGrant_of_territory {n : Nat} {s t : State} (h : t.territory = s.territory) : SameGrant n s t := by
  obtain ⟨hregions, hslices⟩ := Prod.mk.inj h
  exact ⟨hregions, congrArg Slice.desc (sliceOf_of_slices hslices n), fun k _ => sliceOf_of_slices hslices k⟩

theorem sameGrant_modSlice (s : State) (n : Nat) {f : Slice → Slice} (hf : ∀ x, (f x).desc = x.desc) : SameGrant n s (modSlice s n f) :=
  ⟨rfl, by rw [sliceOf_modSlice, hf]; rfl, fun _ hk => sliceOf_modSlice_ne s f hk⟩

theorem modEng_territory (s : State) (e : Nat) (f : Engine → Engine) : (modEng s e f).territory = s.territory := rfl
theorem modPort_territory (s : State) (m : Nat) (f : MemPort → MemPort) : (modPort s m f).territory = s.territory := rfl

theorem markRemoving_territory (s : State) (l : List Nat) (on : Bool) : (markRemoving s l on).territory = s.territory :=
  foldl_keeps State.territory (fun t e => modEng_territory t e _) l s

theorem sameGrant_dropChange (s : State) (n : Nat) : SameGrant n s (dropChange s n) := by
  unfold dropChange
  split
  · exact ⟨rfl, rfl, fun _ _ => rfl⟩
  · have hmark := sameGrant_of_territory (n := n) (markRemoving_territory s (changeRemoves s n (sliceOf s n).changeTo) false)
    have hslice := sameGrant_modSlice (markRemoving s (changeRemoves s n (sliceOf s n).changeTo) false) n
      (f := fun x => { x with changeTo := [], releasing := [] }) fun _ => rfl
    exact (hmark.trans hslice).trans ⟨rfl, rfl, fun _ _ => rfl⟩

theorem cpStateEnd_territory (s : State) (n : Nat) : (cpStateEnd s n).territory = s.territory := by
  unfold cpStateEnd
  repeat' split
  all_goals rfl

theorem modSweeps_territory (s : State) (n : Nat) (f : List Sweep → List Sweep) : (modSweeps s n f).territory = s.territory :=
  foldl_keeps State.territory (fun t m => modPort_territory t m _) _ s

/-- A slice that starts to dissolve keeps its descriptor until it is FREE. -/
theorem dissolveStart_dissolving (s : State) (n code : Nat) :
    (sliceOf (dissolveStart s n code) n).state = .dissolving ∧ SameGrant n s (dissolveStart s n code) := by
  unfold dissolveStart
  dsimp only
  generalize hu : modSweeps _ n _ = u
  have hgrant : SameGrant n s u := by
    rw [← hu]
    exact ((sameGrant_of_territory (cpStateEnd_territory ..)).trans (sameGrant_dropChange ..)).trans
      (sameGrant_of_territory (modSweeps_territory ..))
  have htear := tearSlice_territory (modSlice u n fun x => { x with state := .dissolving }) n code
  refine ⟨?_, (hgrant.trans (sameGrant_modSlice u n (f := fun x => { x with state := .dissolving }) fun _ => rfl)).trans (sameGrant_of_territory htear)⟩
  rw [sliceOf_of_slices (Prod.mk.inj htear).2 n, sliceOf_modSlice]

/-! ## Staging registers and the region table (R59, R61) -/

theorem mget_foldl_zipIdx (ws : List Word) (i w : Nat) (m : List (Nat × Word)) :
    mget 0 ((ws.zipIdx i).foldl (fun m x => mset 0 m x.2 x.1) m) w = if i ≤ w then (ws[w - i]?).getD (mget 0 m w) else mget 0 m w := by
  induction ws generalizing i m with
  | nil => simp
  | cons v ws ih =>
    rw [List.zipIdx_cons, List.foldl_cons, ih]
    rcases Nat.lt_trichotomy i w with h | rfl | h
    · have hw : w - i = w - (i + 1) + 1 := by omega
      rw [if_pos (Nat.succ_le_of_lt h), if_pos h.le, hw, List.getElem?_cons_succ, mget_mset_other _ _ _ h.ne']
    · simp
    · rw [if_neg (by omega), if_neg (by omega), mget_mset_other _ _ _ h.ne]

/-- Words put into the first of the staging registers. -/
theorem stage_putStage (s : State) {ws : List Word} {w : Nat} (hw : w < ws.length) : mget 0 (putStage s ws).slm.stage w = ws.getD w 0 := by
  refine (mget_foldl_zipIdx ws 0 w s.slm.stage).trans ?_
  simp [hw]

/-- A command that only stages words: the block has woken at most, beside the manager's registers. -/
theorem putStage_taken (op n r : Nat) (ws : List Word) (s : State) :
    ({ slmEnd (putStage (slmTaken op n s) ws) r with slm := s.slm } : State) = awake s := by
  rw [← awake_slm s]
  rfl

theorem find?_minsert_same {α : Type} (l : List (Nat × α)) (k : Nat) (v : α) : (minsert l k v).find? (fun e => e.1 = k) = some (k, v) := by
  induction l with
  | nil => simp [minsert]
  | cons e l ih =>
    unfold minsert
    split
    · simp
    · split
      · simp
      · next hk => simpa [hk] using ih

theorem find?_minsert_ne {α : Type} (l : List (Nat × α)) {k j : Nat} (v : α) (h : j ≠ k) :
    (minsert l k v).find? (fun e => e.1 = j) = l.find? fun e => e.1 = j := by
  induction l with
  | nil => simp [minsert, h.symm]
  | cons e l ih =>
    unfold minsert
    split
    · simp [h.symm]
    · split
      · next hk => simp [hk, h.symm]
      · simp only [List.find?_cons, ih]

theorem find?_mdel_same {α : Type} (l : List (Nat × α)) (k : Nat) : (mdel l k).find? (fun e => e.1 = k) = none := by
  induction l with
  | nil => rfl
  | cons e l ih =>
    unfold mdel
    split
    · exact ih
    · next hk => simpa [hk] using ih

theorem find?_mdel_ne {α : Type} (l : List (Nat × α)) {k j : Nat} (h : j ≠ k) :
    (mdel l k).find? (fun e => e.1 = j) = l.find? fun e => e.1 = j := by
  induction l with
  | nil => rfl
  | cons e l ih =>
    unfold mdel
    split
    · next hk => simpa [hk, h.symm] using ih
    · simp only [List.find?_cons, ih]

/-- An accepted REGION_WRITE (R48, R60): the entry is written, or gone with VALID = 0. -/
def writeRegion (s : State) (i : Nat) (valid : Bool) (r : Region) : State :=
  let t := { s with regions := if valid then minsert s.regions i r else mdel s.regions i, s2 := s.s2.filter fun e => e.slice ≠ r.slice }
  let t := if keyShape s r.slice = keyShape t r.slice then t else reportChanged t r.slice
  slmEnd { t with slm := { t.slm with drain := some r.slice } } 0

theorem reportChanged_unless_frame (c : Prop) [Decidable c] (s : State) (n : Nat) :
    ∃ ks, (if c then s else reportChanged s n) = { s with ks := ks } := by
  split
  · exact ⟨s.ks, rfl⟩
  · exact ⟨_, rfl⟩

theorem writeRegion_frame (s : State) (i : Nat) (valid : Bool) (r : Region) : ∃ s2 ks, writeRegion s i valid r =
    { s with regions := if valid then minsert s.regions i r else mdel s.regions i, s2 := s2, ks := ks,
             slm := { s.slm with drain := some r.slice, busy := true, due := some 0 } } := by
  obtain ⟨ks, h⟩ := reportChanged_unless_frame
    (keyShape s r.slice = keyShape { s with regions := if valid then minsert s.regions i r else mdel s.regions i,
                                            s2 := s.s2.filter fun e => e.slice ≠ r.slice } r.slice)
    { s with regions := if valid then minsert s.regions i r else mdel s.regions i, s2 := s.s2.filter fun e => e.slice ≠ r.slice } r.slice
  exact ⟨_, ks, congrArg (fun t : State => slmEnd { t with slm := { t.slm with drain := some r.slice } } 0) h⟩

theorem regionOf_writeRegion (s : State) (i k : Nat) (valid : Bool) (r : Region) :
    regionOf (writeRegion s i valid r) k = if k = i then (if valid then some r else none) else regionOf s k := by
  obtain ⟨s2, ks, h⟩ := writeRegion_frame s i valid r
  have hregions : (writeRegion s i valid r).regions = if valid then minsert s.regions i r else mdel s.regions i := by rw [h]
  unfold regionOf
  rw [hregions]
  by_cases hk : k = i
  · subst hk
    cases valid <;> simp [find?_minsert_same, find?_mdel_same]
  · cases valid <;> simp [find?_minsert_ne _ _ hk, find?_mdel_ne _ hk, hk]

/-- The slice manager has taken a REGION_WRITE and written the entry: it waits for the requests translated under the old one (R70). -/
theorem writeRegion_written (n : Nat) (s : State) (valid : Bool) (r : Region) :
    let t := writeRegion (slmTaken 5 n s) (n % 256) valid r
    t.slm.due = some 0 ∧ t.slm.drain = some r.slice ∧ regionOf t (n % 256) = (if valid then some r else none) ∧
      (∀ k, k ≠ n % 256 → regionOf t k = regionOf s k) ∧ { t with regions := s.regions, s2 := s.s2, slm := s.slm, ks := s.ks } = awake s := by
  have hregion := regionOf_writeRegion (slmTaken 5 n s) (n % 256)
  obtain ⟨s2, ks, hframe⟩ := writeRegion_frame (slmTaken 5 n s) (n % 256) valid r
  obtain ⟨ck, hawake, hu⟩ := slmTaken_frame 5 n s
  have hold (k : Nat) : regionOf (slmTaken 5 n s) k = regionOf s k := by rw [hu]; rfl
  refine ⟨by rw [hframe], by rw [hframe], by rw [hregion, if_pos rfl], fun k hk => by rw [hregion, if_neg hk, hold], ?_⟩
  rw [hframe, hu, hawake]

/-- A BUILD that is not barred ends with its code, and with its effect where that is 0. -/
theorem ends_build {i : Instr} {s u : State} {n r : Nat} {a : Option (Nat × Nat × Nat × Nat)} {d : List Word}
    (h : exec i s = settle (match (r, a) with | (0, _) => buildSlice u n d | r => slmRefuse u r)) (hc : clear u = true)
    (hu : ∃ ck m, u = { s with ck := ck, slm := m }) :
    Ends i s fun t => t.slm.due = some r ∧ t.slm.busy = true ∧ t.engines = s.engines ∧ t.ctxs = s.ctxs ∧ t.regions = s.regions ∧ t.sv = s.sv ∧
      (r ≠ 0 → t.slices = s.slices ∧ t.ks = s.ks) ∧
      (r = 0 → (sliceOf t n).desc = d ∧ ((sliceOf t n).state = .active ∨ (sliceOf t n).state = .degraded) ∧ t.slm.buildLocked = true) := by
  obtain ⟨ck, m, rfl⟩ := hu
  cases r with
  | zero =>
    have hslice := buildSlice_slice { s with ck := ck, slm := m } n d
    obtain ⟨sl, ks, bw, s2, sc, lockAt, hframe⟩ := buildSlice_frame { s with ck := ck, slm := m } n d
    rw [hframe] at hslice
    refine Ends.of_settle (h.trans (congrArg settle hframe)) hc ?_
    exact ⟨rfl, rfl, rfl, rfl, rfl, rfl, fun hr => absurd rfl hr, fun _ => ⟨hslice.1, hslice.2, rfl⟩⟩
  | succ r =>
    obtain ⟨bw, fresh, hframe⟩ := slmRefuse_frame { s with ck := ck, slm := m } (r + 1, a)
    refine Ends.of_settle (h.trans (congrArg settle hframe)) hc ?_
    exact ⟨rfl, rfl, rfl, rfl, rfl, rfl, fun _ => ⟨rfl, rfl⟩, fun hr => absurd hr (Nat.succ_ne_zero r)⟩

/-! ## The commands -/

/-- A CHANGE that its checks let through has started. -/
theorem ends_change {i : Instr} {s u : State} {n : Nat} {d : List Word} (h : exec i s = settle (changeStart n d u)) (hc : clear u = true)
    (hu : ∃ ck m, u = { s with ck := ck, slm := m }) :
    Ends i s fun t => t.ctxs = s.ctxs ∧ t.regions = s.regions ∧ t.slm.busy = true ∧
      sliceOf t n = { sliceOf s n with state := .changing, changeTo := d, releasing := changeWaits s n d } ∧
      (∀ k, k ≠ n → sliceOf t k = sliceOf s k) ∧
      (∀ e ∈ changeRemoves s n d, (engOf t e).removing = true) ∧ (∀ e ∈ changeWaits s n d, (engOf t e).switchReq = true) ∧
      ∀ e, e ∉ changeRemoves s n d → engOf t e = engOf s e := by
  obtain ⟨ck, m, rfl⟩ := hu
  have heng (e : Nat) : engOf (changeStart n d { s with ck := ck, slm := m }) e =
      (let g : Engine := if e ∈ changeRemoves s n d then { engOf s e with removing := true } else engOf s e
       if e ∈ changeWaits s n d then { g with switchReq := true, preempt := true } else g) := engOf_changeStart ..
  obtain ⟨es, hframe⟩ := changeStart_frame n d { s with ck := ck, slm := m }
  rw [hframe] at h heng
  refine Ends.of_settle h hc ⟨rfl, rfl, rfl, sliceOf_modSlice s n (Slice.towards d (changeWaits s n d)),
    fun k hk => sliceOf_modSlice_ne s (Slice.towards d (changeWaits s n d)) hk, fun e he => ?_, fun e he => ?_, fun e he => ?_⟩
  · rw [heng, if_pos he]
    split <;> rfl
  · rw [heng, if_pos he]
  · have hwaits : e ∉ changeWaits s n d := fun hw => he (List.mem_of_mem_filter hw)
    rw [heng, if_neg he, if_neg hwaits]

section
variable {path : Path} {n : Nat} {s : State} (hreach : cmdReach path s = true) (hbusy : s.slm.busy = false)
include hreach hbusy

theorem execBuild_reach : execBuild path n s = settle (buildWith n (stagedDesc (slmTaken 1 n s).slm.captured) (slmTaken 1 n s)) := by
  unfold execBuild
  exact slCmd_reach hreach hbusy 1 n _

theorem execChange_reach : execChange path n s = settle (changeWith n (stagedDesc (slmTaken 2 n s).slm.captured) (slmTaken 2 n s)) := by
  unfold execChange
  exact slCmd_reach hreach hbusy 2 n _

theorem execDissolve_starts (hn : n < 16)
    (hstate : (sliceOf s n).state = .active ∨ (sliceOf s n).state = .degraded ∨ (sliceOf s n).state = .direct) :
    execDissolve path n s =
      (let u := slmTaken 3 n s
       settle (dissolveStart { u with slm := { u.slm with busy := true, due := none } } n cTORN_DOWN)) := by
  unfold execDissolve
  refine (slCmd_reach hreach hbusy 3 n _).trans ?_
  obtain ⟨ck, -, hu⟩ := slmTaken_frame 3 n s
  have hslice : sliceOf (slmTaken 3 n s) n = sliceOf s n := by rw [hu]; rfl
  rcases hstate with h | h | h <;> simp [Nat.mod_eq_of_lt hn, hslice, h, Nat.not_le.mpr hn]

theorem execDissolve_refused (hactive : (sliceOf s (n % 16)).state ≠ .active) (hdegraded : (sliceOf s (n % 16)).state ≠ .degraded)
    (hdirect : (sliceOf s (n % 16)).state ≠ .direct) : execDissolve path n s = settle (slmEnd (slmTaken 3 n s) 1) := by
  unfold execDissolve
  refine (slCmd_reach hreach hbusy 3 n _).trans ?_
  obtain ⟨ck, -, hu⟩ := slmTaken_frame 3 n s
  have hslice : sliceOf (slmTaken 3 n s) (n % 16) = sliceOf s (n % 16) := by rw [hu]; rfl
  simp [hslice, hactive, hdegraded, hdirect]

theorem execReadDesc_reach (hn : n < 16) : execReadDesc path n s =
    settle (slmEnd (putStage (slmTaken 4 n s) (if (sliceOf s n).state = .free then List.replicate 16 0 else descOf s n)) 0) := by
  unfold execReadDesc
  refine (slCmd_reach hreach hbusy 4 n _).trans ?_
  obtain ⟨ck, -, hu⟩ := slmTaken_frame 4 n s
  have hslice : sliceOf (slmTaken 4 n s) n = sliceOf s n := by rw [hu]; rfl
  simp only [descOf, hslice, Nat.not_le.mpr hn, if_false]

theorem execRegionRead_reach : execRegionRead path n s = settle (slmEnd (putStage (slmTaken 6 n s)
    (match regionOf s (n % 256) with | some r => regionWords r | none => [0, 0])) 0) := by
  unfold execRegionRead
  refine (slCmd_reach hreach hbusy 6 n _).trans ?_
  obtain ⟨ck, -, hu⟩ := slmTaken_frame 6 n s
  have hregion : regionOf (slmTaken 6 n s) (n % 256) = regionOf s (n % 256) := by rw [hu]; rfl
  exact congrArg (fun x : Option Region => settle (slmEnd (putStage (slmTaken 6 n s)
    (match x with | some r => regionWords r | none => [0, 0])) 0)) hregion

theorem execRegionWrite_barred {r : Region} {w0 : Word} (hw0 : (slmTaken 5 n s).slm.captured.getD 0 0 = w0)
    (hr : regionFields w0 ((slmTaken 5 n s).slm.captured.getD 1 0) = r)
    (hbarred : regionBarred (slmTaken 5 n s) (n % 256) (bit w0 63) r = true) :
    execRegionWrite path n s = settle (slmEnd (slmTaken 5 n s) 1) := by
  unfold execRegionWrite
  refine (slCmd_reach hreach hbusy 5 n _).trans ?_
  simp only [hw0, hr, hbarred, if_true]

theorem execRegionWrite_bad {r : Region} {w0 : Word} (hw0 : (slmTaken 5 n s).slm.captured.getD 0 0 = w0)
    (hr : regionFields w0 ((slmTaken 5 n s).slm.captured.getD 1 0) = r)
    (hbarred : regionBarred (slmTaken 5 n s) (n % 256) (bit w0 63) r = false) (hvalid : bit w0 63 = true)
    (hbad : regionBad (slmTaken 5 n s) (n % 256) r = true) : execRegionWrite path n s = settle (slmEnd (slmTaken 5 n s) 6) := by
  rw [hvalid] at hbarred
  unfold execRegionWrite
  refine (slCmd_reach hreach hbusy 5 n _).trans ?_
  simp only [hw0, hr, hbarred, hvalid, hbad, Bool.and_self, Bool.false_eq_true, if_true, if_false]

theorem execRegionWrite_writes {r : Region} {w0 : Word} (hw0 : (slmTaken 5 n s).slm.captured.getD 0 0 = w0)
    (hr : regionFields w0 ((slmTaken 5 n s).slm.captured.getD 1 0) = r)
    (hbarred : regionBarred (slmTaken 5 n s) (n % 256) (bit w0 63) r = false)
    (hok : bit w0 63 = true → regionBad (slmTaken 5 n s) (n % 256) r = false) :
    execRegionWrite path n s = settle (writeRegion (slmTaken 5 n s) (n % 256) (bit w0 63) r) := by
  have hgood : (bit w0 63 && regionBad (slmTaken 5 n s) (n % 256) r) = false := by
    cases h : bit w0 63
    · rfl
    · exact hok h
  unfold execRegionWrite
  refine (slCmd_reach hreach hbusy 5 n _).trans ?_
  simp only [hw0, hr, hbarred, hgood, Bool.false_eq_true, if_false]
  rfl

end

/-- Settles O35: each command is its body at `slmTaken`, and the lemmas of each body say what it leaves. -/
theorem sliceManagerCommandsChangeNothingOrDoTheirOperation : Obligations.SliceManagerCommandsChangeNothingOrDoTheirOperation := by
  unfold Obligations.SliceManagerCommandsChangeNothingOrDoTheirOperation
  intro path n s hreach hbusy hclear d
  have hclear (op : Nat) : clear (slmTaken op n s) = true := (clear_slmTaken op n s).trans hclear
  refine ⟨?buildBarred, ?build, ?changeBarred, ?changeFixed, ?change, ?dissolve, ?dissolveRefused, ?readDesc, ?regionWrite, ?regionRead⟩
  case buildBarred =>
    intro hbarred
    have h := execBuild_reach hreach hbusy (n := n)
    rw [buildWith, if_pos hbarred] at h
    exact Ends.of_settle h (hclear 1) rfl
  case build =>
    intro r a hbarred hresult
    have h := execBuild_reach hreach hbusy (n := n)
    obtain ⟨ck, -, hu⟩ := slmTaken_frame 1 n s
    rw [buildWith, if_neg (by simpa using hbarred), hresult] at h
    exact ends_build h (hclear 1) ⟨ck, _, hu⟩
  case changeBarred =>
    intro hbarred
    have h := execChange_reach hreach hbusy (n := n)
    rw [changeWith, if_pos hbarred] at h
    exact Ends.of_settle h (hclear 2) rfl
  case changeFixed =>
    intro hbarred hfixed
    have h := execChange_reach hreach hbusy (n := n)
    obtain ⟨ck, -, hu⟩ := slmTaken_frame 2 n s
    have hdesc : descOf (slmTaken 2 n s) (n % 16) = descOf s (n % 16) := by rw [hu]; rfl
    rw [changeWith, if_neg (by simpa using hbarred), if_pos (by rwa [hdesc])] at h
    exact Ends.of_settle h (hclear 2) rfl
  case change =>
    intro a hbarred hfixed hresult
    have h := execChange_reach hreach hbusy (n := n)
    obtain ⟨ck, -, hu⟩ := slmTaken_frame 2 n s
    have hdesc : descOf (slmTaken 2 n s) (n % 16) = descOf s (n % 16) := by rw [hu]; rfl
    rw [changeWith, if_neg (by simpa using hbarred), if_neg (by rw [hdesc]; exact not_not.mpr hfixed), hresult] at h
    exact ends_change h (hclear 2) ⟨ck, _, hu⟩
  case dissolve =>
    intro hn hstate u hstart
    obtain ⟨ck, -, hu⟩ := slmTaken_frame 3 n s
    obtain ⟨hdissolving, hregions, hdesc, hslices⟩ := dissolveStart_dissolving { u with slm := { u.slm with busy := true, due := none } } n cTORN_DOWN
    refine Ends.of_settle (execDissolve_starts hreach hbusy hn hstate) hstart ⟨hdissolving, hdesc.trans ?_, fun k hk => (hslices k hk).trans ?_,
      hregions.trans ?_⟩
    all_goals unfold u; rw [hu]
    all_goals rfl
  case dissolveRefused =>
    rintro ⟨hactive, hdegraded, hdirect⟩
    exact Ends.of_settle (execDissolve_refused hreach hbusy hactive hdegraded hdirect) (hclear 3) rfl
  case readDesc =>
    intro hn hlen
    have h := execReadDesc_reach hreach hbusy hn
    generalize hws : (if (sliceOf s n).state = .free then List.replicate 16 0 else descOf s n) = ws at h
    refine Ends.of_settle h (hclear 4) ⟨rfl, fun w hw => ?_, putStage_taken ..⟩
    have hlen : w < ws.length := by rw [← hws]; split <;> simp [hlen, hw]
    refine (stage_putStage _ hlen).trans ?_
    rw [← hws]
    split
    · simp only [List.getD_eq_getElem?_getD, List.getElem?_replicate, hw, if_true, Option.getD_some]
    · rfl
  case regionWrite =>
    intro u w0 r
    cases hbarred : regionBarred u (n % 256) (bit w0 63) r with
    | true =>
      exact Ends.of_settle (execRegionWrite_barred hreach hbusy rfl rfl hbarred) (hclear 5)
        ⟨fun _ => rfl, fun h => (nomatch h), fun h => (nomatch h)⟩
    | false =>
      by_cases hbad : bit w0 63 = true ∧ regionBad u (n % 256) r = true
      · refine Ends.of_settle (execRegionWrite_bad hreach hbusy rfl rfl hbarred hbad.1 hbad.2) (hclear 5)
          ⟨fun h => (nomatch h), fun _ _ _ => rfl, fun _ hok => ?_⟩
        exact nomatch hbad.2.symm.trans (hok hbad.1)
      · have hok : bit w0 63 = true → regionBad u (n % 256) r = false := fun hv => by simpa using fun hb => hbad ⟨hv, hb⟩
        refine Ends.of_settle (execRegionWrite_writes hreach hbusy rfl rfl hbarred hok) ?_
          ⟨fun h => (nomatch h), fun _ hv hb => absurd ⟨hv, hb⟩ hbad, fun _ _ => ?_⟩
        · obtain ⟨s2, ks, h⟩ := writeRegion_frame (slmTaken 5 n s) (n % 256) (bit w0 63) r
          rw [h]
          exact hclear 5
        · exact writeRegion_written n s (bit w0 63) r
  case regionRead =>
    have h := execRegionRead_reach hreach hbusy (n := n)
    cases hregion : regionOf s (n % 256) with
    | some r =>
      rw [hregion] at h
      exact Ends.of_settle h (hclear 6) ⟨rfl, stage_putStage _ Nat.two_pos, stage_putStage _ Nat.one_lt_two, putStage_taken ..⟩
    | none =>
      rw [hregion] at h
      exact Ends.of_settle h (hclear 6) ⟨rfl, stage_putStage _ Nat.two_pos, stage_putStage _ Nat.one_lt_two, putStage_taken ..⟩

end Sys2Proof.Machine
end

section
/-! PROOFS. Instructions that change only the record of their engine (O16 to O19): how such an instruction ends, checked reads with no injection
armed, and the scratchpad after the rows of a view are written. -/
namespace Sys2Proof.Machine

/-! ## The record of one engine changes -/

/-- `t` is `s` but for the record of engine `e`, which is `h`. -/
def EngineIs (e : Nat) (h : Engine) (s t : State) : Prop := OnlyEngine e s t ∧ engOf t e = h

theorem engineIs_self (e : Nat) (s : State) : EngineIs e (engOf s e) s s := ⟨⟨rfl, fun _ _ => rfl⟩, rfl⟩

theorem engineIs_modEng (e : Nat) (f : Engine → Engine) (s : State) : EngineIs e (f (engOf s e)) s (modEng s e f) :=
  ⟨⟨rfl, fun _ hk => engOf_modEng_ne s f hk⟩, engOf_modEng s e f⟩

theorem EngineIs.trans {e : Nat} {h h' : Engine} {s t u : State} (a : EngineIs e h s t) (b : EngineIs e h' t u) : EngineIs e h' s u := by
  obtain ⟨⟨hst, hne⟩, -⟩ := a
  obtain ⟨⟨htu, hne'⟩, hu⟩ := b
  refine ⟨⟨?_, fun k hk => (hne' k hk).trans (hne k hk)⟩, hu⟩
  calc ({ u with engines := s.engines } : State)
      = { ({ u with engines := t.engines } : State) with engines := s.engines } := rfl
    _ = { t with engines := s.engines } := congrArg (fun x : State => { x with engines := s.engines }) htu
    _ = s := hst

theorem EngineIs.modEng {e : Nat} {h : Engine} {s t : State} (a : EngineIs e h s t) (f : Engine → Engine) :
    EngineIs e (f h) s (modEng t e f) := by
  have b := engineIs_modEng e f t
  rw [a.2] at b
  exact a.trans b

theorem EngineIs.setPc {e : Nat} {h : Engine} {s t : State} (a : EngineIs e h s t) (pc : Nat) :
    EngineIs e { h with pc := pc % 2 ^ 52 } s (setPc t e pc) := a.modEng _

theorem EngineIs.clear_eq {e : Nat} {h : Engine} {s t : State} (a : EngineIs e h s t) : clear t = clear s :=
  clear_eq_of_sv (congrArg State.sv a.1.1 :)

/-! ## How an instruction in issue ends (R151, R175) -/

/-- Where an instruction is issued no access waits. -/
theorem clear_atIssue {o : OpInfo} {extra : Bool} {e : Nat} {f : Frame} {s : State} (h : issues o extra e f s = true) :
    clear (atIssue o e s) = true := by
  simp only [issues, issuesHere, Bool.and_eq_true] at h
  tauto

/-- An opening instruction is issued inside its tile (R151). -/
theorem tileOpen_atIssue {o : OpInfo} (ho : o.kind = .opening) (e : Nat) (s : State) : (engOf (atIssue o e s) e).tileOpen = true := by
  rw [atIssue, if_pos ho, openTile, engOf_modEng]
  split
  · assumption
  · rfl

section
variable {i : Instr} {o : OpInfo} {extra : Bool} {e : Nat} {f : Frame} {body : State → Engine → IRes} {s u : State} {g : Engine}
  {P : State → Prop} (hexec : exec i s = issue e f o extra body s) (hi : issues o extra e f s = true) (hu : u = atIssue o e s)
  (hg : g = engOf u e)
include hexec hi hu hg

/-- A body that ends leaves the instruction retired. -/
theorem ends_ok {t : State} (hbody : body u g = .ok t) (hc : clear t = true) (hP : P (setPc t e (g.pc + 16))) : Ends i s P := by
  subst hg hu
  exact Ends.of_settle (t := setPc t e _) (by rw [hexec, issues_issue hi, hbody]; rfl) hc hP

/-- A body that jumps leaves PC where it says. -/
theorem ends_jump {t : State} {pc : Nat} (hbody : body u g = .jump t pc) (hc : clear t = true) (hP : P (setPc t e pc)) : Ends i s P := by
  subst hg hu
  exact Ends.of_settle (t := setPc t e _) (by rw [hexec, issues_issue hi, hbody]; rfl) hc hP

/-- A body that changes only the engine's record leaves that record, with PC behind the instruction. -/
theorem ends_engineIs {h : Engine} {t : State} (hbody : body u g = .ok t) (ht : EngineIs e h u t)
    (hP : ∀ v, EngineIs e { h with pc := (g.pc + 16) % 2 ^ 52 } u v → P v) : Ends i s P :=
  ends_ok hexec hi hu hg hbody (ht.clear_eq.trans (hu ▸ clear_atIssue hi)) (hP _ (ht.setPc _))

end

/-! ## Checked reads with no injection armed (R274, R530) -/

theorem checkedAccess_quiet {s : State} (hq : quiet s = true) (target cluster pos : Nat) :
    checkedAccess s target cluster pos = (s, 0) := by
  have hq : bit s.fc.inject 63 = false := by simpa [quiet] using hq
  simp [checkedAccess, hq]

theorem spadChecked_good {s : State} {e a n : Nat} (hq : quiet s = true) (hb : anyBad (engOf s e).spadBad a n = false) :
    spadChecked s e a n = (s, false) := by
  simp [spadChecked, checkedAccess_quiet hq, hb]

theorem spadCheckedAll_good {s : State} {e : Nat} {xs : List (Nat × Nat)} (hq : quiet s = true)
    (hb : ∀ x ∈ xs, anyBad (engOf s e).spadBad x.1 x.2 = false) : spadCheckedAll s e xs = (s, false) := by
  have hb : xs.any (fun x => anyBad (engOf s e).spadBad x.1 x.2) = false := List.any_eq_false.mpr fun x hx => by simp [hb x hx]
  simp [spadCheckedAll, checkedAccess_quiet hq, hb]

theorem boltChecked_good {s : State} {c a n : Nat} (hq : quiet s = true) (hb : anyBad (clOf s c).boltBad a n = false) :
    boltChecked s c a n = (s, false) := by
  simp [boltChecked, checkedAccess_quiet hq, hb]

/-! ## Writes over good words (R646) -/

/-- No bad word in a range, none in a part of it. -/
theorem anyBad_part {bad : List Nat} {a n a' n' : Nat} (h : anyBad bad a n = false) (hlo : a ≤ a') (hhi : a' + n' ≤ a + n) :
    anyBad bad a' n' = false := by
  simp only [anyBad, List.any_eq_false, Bool.and_eq_true, decide_eq_true_eq] at h ⊢
  rintro w hw ⟨⟨hn, h1⟩, h2⟩
  exact h w hw ⟨⟨by omega, by omega⟩, by omega⟩

theorem bwriteMask_some (m : List (Nat × Byte)) (a : Nat) (bs : List Byte) : bwriteMask m a (bs.map some) = bwrite m a bs := by
  induction bs generalizing m a with
  | nil => rfl
  | cons b bs ih => exact ih ..

/-- A write that meets no bad word writes every byte and leaves the list of bad words alone. -/
theorem wordWrite_good {mem : List (Nat × Byte)} {bad : List Nat} {a : Nat} {bs : List Byte} (h : anyBad bad a bs.length = false) :
    wordWrite mem bad a bs = (bwrite mem a bs, bad, false) := by
  simp only [anyBad, List.any_eq_false, Bool.and_eq_true, decide_eq_true_eq] at h
  have hstuck : (bad.filter fun w => bs.length ≠ 0 && a / 8 ≤ w && w ≤ (a + bs.length - 1) / 8 &&
      !(decide (a ≤ 8 * w) && decide (8 * w + 8 ≤ a + bs.length))) = [] :=
    List.filter_eq_nil_iff.mpr fun w hw hp => h w hw (by simp_all)
  have hbad : (bad.filter fun w => !(bs.length ≠ 0 && a ≤ 8 * w && 8 * w + 8 ≤ a + bs.length)) = bad :=
    List.filter_eq_self.mpr fun w hw => by
      by_contra hp
      simp only [Bool.not_eq_true, Bool.not_eq_false', Bool.and_eq_true, decide_eq_true_eq] at hp
      exact h w hw ⟨⟨hp.1.1, by omega⟩, by omega⟩
  have hmask : ((List.range bs.length).zipWith (fun _ b => some b) bs : List (Option Byte)) = bs.map some :=
    List.ext_getElem (by simp) (by simp)
  unfold wordWrite
  simp only [hstuck, hbad]
  simp [hmask, bwriteMask_some]

theorem spadWrite_good {s : State} {e a : Nat} {bs : List Byte} (h : anyBad (engOf s e).spadBad a bs.length = false) :
    ∃ t, spadWrite s e a bs = (t, false) ∧ EngineIs e { engOf s e with spad := bwrite (engOf s e).spad a bs } s t := by
  refine ⟨_, by rw [spadWrite, wordWrite_good h], ?_⟩
  exact engineIs_modEng e (fun g => { g with spad := bwrite (engOf s e).spad a bs, spadBad := (engOf s e).spadBad }) s

/-- Runs of bytes written one after the other. -/
def writeRuns (m : List (Nat × Byte)) (l : List (Nat × List Byte)) : List (Nat × Byte) := l.foldl (fun m p => bwrite m p.1 p.2) m

theorem spadWrites_good {e : Nat} {l : List (Nat × List Byte)} {s : State} (h : ∀ p ∈ l, anyBad (engOf s e).spadBad p.1 p.2.length = false) :
    ∃ t, spadWrites e s l = (t, false) ∧ EngineIs e { engOf s e with spad := writeRuns (engOf s e).spad l } s t := by
  induction l generalizing s with
  | nil => exact ⟨s, rfl, engineIs_self e s⟩
  | cons p l ih =>
    obtain ⟨t, ht, hst⟩ := spadWrite_good (h p List.mem_cons_self)
    have hrest : ∀ q ∈ l, anyBad (engOf t e).spadBad q.1 q.2.length = false := fun q hq => by
      rw [hst.2]; exact h q (List.mem_cons_of_mem p hq)
    obtain ⟨u, hu, htu⟩ := ih hrest
    refine ⟨u, by simp only [spadWrites, ht, hu, Bool.or_self], ?_⟩
    have hsu := hst.trans htu
    rwa [hst.2] at hsu

/-! ## Reads of written runs -/

theorem bread_congr {m m' : List (Nat × Byte)} {a n : Nat} (h : ∀ j < n, bget m (a + j) = bget m' (a + j)) : bread m a n = bread m' a n :=
  List.map_congr_left fun j hj => h j (List.mem_range.mp hj)

theorem bread_bwrite (m : List (Nat × Byte)) (a : Nat) (bs : List Byte) : bread (bwrite m a bs) a bs.length = bs := by
  refine List.ext_getElem (by simp [bread]) fun j hj hj' => ?_
  simp only [bread, List.getElem_map, List.getElem_range]
  rw [bget_bwrite_inside m a bs j hj', List.getD_eq_getElem bs 0 hj']

theorem bget_writeRuns_outside {m : List (Nat × Byte)} {l : List (Nat × List Byte)} {x : Nat}
    (h : ∀ p ∈ l, x < p.1 ∨ p.1 + p.2.length ≤ x) : bget (writeRuns m l) x = bget m x := by
  induction l generalizing m with
  | nil => rfl
  | cons p l ih =>
    exact (ih fun q hq => h q (List.mem_cons_of_mem p hq)).trans (bget_bwrite_outside m p.1 p.2 x (h p List.mem_cons_self))

/-- Of rising runs each reads as written. -/
theorem bread_writeRuns {m : List (Nat × Byte)} {l : List (Nat × List Byte)} (hl : l.Pairwise fun p q => p.1 + p.2.length ≤ q.1)
    {p : Nat × List Byte} (hp : p ∈ l) : bread (writeRuns m l) p.1 p.2.length = p.2 := by
  induction l generalizing m with
  | nil => cases hp
  | cons q l ih =>
    obtain ⟨hq, hl⟩ := List.pairwise_cons.mp hl
    rcases List.mem_cons.mp hp with rfl | hp
    · calc bread (writeRuns (bwrite m p.1 p.2) l) p.1 p.2.length
          = bread (bwrite m p.1 p.2) p.1 p.2.length :=
            bread_congr fun j hj => bget_writeRuns_outside fun q hql => .inl (by have := hq q hql; omega)
        _ = p.2 := bread_bwrite ..
    · exact ih hl hp

/-! ## The rows of a dense view (R161, R231) -/

@[simp] theorem length_packBytes (w : Nat) (xs : List Nat) : (packBytes w xs).length = ceilDiv (xs.length * w) 8 := by simp [packBytes]

/-- The rows of a dense view that R161 accepts fit its pitch. -/
theorem rowBytes_le_pitch {v : View} (hv : viewFault v false = none) (hspc : v.spc = 0) : v.rowBytes ≤ 64 * v.pitch := by
  have hfit : v.cols * fmtWidth v.fmt ≤ v.pitch * 512 := by
    simp only [viewFault, Bool.false_eq_true, if_false] at hv
    split_ifs at hv with _ _ _ hfits
    simpa [hspc] using hfits
  unfold View.rowBytes ceilDiv
  omega

/-- A row of a view ends where the next begins, at the end of the extent at the latest. -/
theorem row_le_row {v : View} {r k : Nat} (h : r < k) : v.row r + 64 * v.pitch ≤ v.row k := by
  have := Nat.mul_le_mul_left (64 * v.pitch) (Nat.succ_le_of_lt h)
  simp only [View.row, Nat.mul_succ] at this ⊢
  omega

theorem row_rows (v : View) : v.row v.rows = v.base + v.extent := by
  simp only [View.row, View.extent]
  ring

/-- The runs of bytes that the encodings `row r` of the rows of a view make. -/
def rowRuns (v : View) (row : Nat → List Nat) : List (Nat × List Byte) :=
  (List.range v.rows).map fun r => (v.row r, packBytes (fmtWidth v.fmt) (row r))

/-- The rows of `v` hold the encodings `row r`, and every byte outside its extent is as in `m`. -/
def RowsStored (v : View) (row : Nat → List Nat) (m m' : List (Nat × Byte)) : Prop :=
  (∀ r < v.rows, bread m' (v.row r) v.rowBytes = packBytes (fmtWidth v.fmt) (row r)) ∧
  ∀ x, (x < v.base ∨ v.base + v.extent ≤ x) → bget m' x = bget m x

section
variable {v : View} {row : Nat → List Nat} (hv : viewFault v false = none) (hspc : v.spc = 0) (hlen : ∀ r < v.rows, (row r).length = v.cols)
include hlen

/-- Each run is a row of the view. -/
theorem mem_rowRuns {p : Nat × List Byte} (hp : p ∈ rowRuns v row) : ∃ r < v.rows, p.1 = v.row r ∧ p.2.length = v.rowBytes := by
  obtain ⟨r, hr, rfl⟩ := List.mem_map.mp hp
  have hr := List.mem_range.mp hr
  exact ⟨r, hr, rfl, by simp [hlen r hr, View.rowBytes]⟩

include hv hspc

theorem rowRuns_within {p : Nat × List Byte} (hp : p ∈ rowRuns v row) : v.base ≤ p.1 ∧ p.1 + p.2.length ≤ v.base + v.extent := by
  obtain ⟨r, hr, ha, hn⟩ := mem_rowRuns hlen hp
  have h1 := rowBytes_le_pitch hv hspc
  have h2 := row_le_row (v := v) hr
  rw [row_rows] at h2
  rw [ha, hn]
  exact ⟨Nat.le_add_right .., by omega⟩

theorem rowsStored_writeRuns (m : List (Nat × Byte)) : RowsStored v row m (writeRuns m (rowRuns v row)) := by
  have hrise : (rowRuns v row).Pairwise fun p q => p.1 + p.2.length ≤ q.1 := by
    refine List.pairwise_map.mpr (List.pairwise_lt_range.imp_of_mem fun {r k} hr _ hrk => ?_)
    have h1 := rowBytes_le_pitch hv hspc
    have h2 := row_le_row (v := v) hrk
    simp only [length_packBytes, hlen r (List.mem_range.mp hr)]
    exact (Nat.add_le_add_left h1 _).trans h2
  refine ⟨fun r hr => ?_, fun x hx => bget_writeRuns_outside fun p hp => ?_⟩
  · have := bread_writeRuns (m := m) hrise (List.mem_map_of_mem (List.mem_range.mpr hr))
    simpa [hlen r hr, View.rowBytes] using this
  · have := rowRuns_within hv hspc hlen hp
    omega

/-- Writing the rows of a view over good words stores them and changes nothing else of the state. -/
theorem writeRows_stored {s : State} {e : Nat} (hbad : anyBad (engOf s e).spadBad v.base v.extent = false) :
    ∃ t m, writeRows s e v ((List.range v.rows).map row) = .ok t ∧ EngineIs e { engOf s e with spad := m } s t ∧
      RowsStored v row (engOf s e).spad m := by
  have hruns : ((List.range v.rows).map row).zipIdx.map (fun x => (v.row x.2, packBytes (fmtWidth v.fmt) x.1)) = rowRuns v row :=
    List.ext_getElem (by simp [rowRuns]) (by simp [rowRuns])
  have hgood : ∀ p ∈ rowRuns v row, anyBad (engOf s e).spadBad p.1 p.2.length = false := fun p hp =>
    anyBad_part hbad (rowRuns_within hv hspc hlen hp).1 (rowRuns_within hv hspc hlen hp).2
  obtain ⟨t, ht, hst⟩ := spadWrites_good hgood
  refine ⟨t, _, ?_, hst, rowsStored_writeRuns hv hspc hlen _⟩
  rw [writeRows, hruns, ht]
  rfl

section
variable {i : Instr} {o : OpInfo} {extra : Bool} {e : Nat} {f : Frame} {body : State → Engine → IRes} {s u : State} {g : Engine}
  (hexec : exec i s = issue e f o extra body s) (hi : issues o extra e f s = true) (hu : u = atIssue o e s) (hg : g = engOf u e)
include hexec hi hu hg

/-- An instruction whose body writes the rows of a view, once it has left the engine's record as `h`, ends with the rows stored, retired, and
nothing else changed. -/
theorem ends_writeRows_after {h : Engine} {w : State} (hw : EngineIs e h u w) (hbad : anyBad h.spadBad v.base v.extent = false)
    (hbody : body u g = writeRows w e v ((List.range v.rows).map row)) :
    Ends i s fun t => OnlyEngine e u t ∧ Retired e u t ∧ { engOf t e with spad := h.spad, pc := h.pc } = h ∧
      RowsStored v row h.spad (engOf t e).spad := by
  obtain ⟨t, m, ht, hwt, hm⟩ := writeRows_stored hv hspc hlen (e := e) (hw.2 ▸ hbad)
  rw [hw.2] at hwt hm
  refine ends_engineIs hexec hi hu hg (hbody.trans ht) (hw.trans hwt) fun t ht => ⟨ht.1, ?_, ?_, ?_⟩
  · rw [Retired, ht.2, hg]
  · rw [ht.2]
  · rw [ht.2]; exact hm

/-- The same where the body does nothing else. -/
theorem ends_writeRows (hbad : anyBad g.spadBad v.base v.extent = false) (hbody : body u g = writeRows u e v ((List.range v.rows).map row)) :
    Ends i s fun t => OnlyEngine e u t ∧ Retired e u t ∧ { engOf t e with spad := g.spad, pc := g.pc } = g ∧
      RowsStored v row g.spad (engOf t e).spad :=
  ends_writeRows_after hv hspc hlen hexec hi hu hg (hg ▸ engineIs_self e u) hbad hbody

end

end

end Sys2Proof.Machine
end

section
/-! PROOFS. The vector group (O16): what its bodies write where the operands meet the rules. -/
namespace Sys2Proof.Machine

theorem firstViewFault_none {vs : List View} (h : ∀ v ∈ vs, viewFault v false = none) : firstViewFault vs = none :=
  List.findSome?_eq_none_iff.mpr h

/-- What `vecView` asks (R230). -/
theorem vecView_dense {v : View} (h : vecView v = true) : v.spc = 0 := by simp [vecView] at h; exact h.2

/-- The encodings that an elementwise operation gives row `r` of its destination (R231). -/
def vectorRow (op : State → Engine → Frame → List FV → Nat → FV) (u : State) (g : Engine) (f : Frame) (vd : View) (xs : List Src) (r : Nat) :
    List Nat :=
  (List.range vd.cols).map fun c =>
    (storeElem vd.fmt (rv32 (op u g f (xs.map fun x => (srcRow g vd.cols r x).getD c .zero) (r * vd.cols + c))) (lowField f 80 2)
      (lowField f 79 1 = 1) (elemBits u g (lowField f 63 16) (r * vd.cols + c))).1

/-- An elementwise instruction stores the rows of its results and changes nothing else. -/
theorem ends_vector {i : Instr} {slots : List SlotKind} {srcs : List Nat} {fn : Bool} {extra : Frame → Bool}
    {op : State → Engine → Frame → List FV → Nat → FV} {e : Nat} {f : Frame} {s : State}
    (hexec : exec i s = vector slots srcs fn extra op e f s)
    (hi : issues ⟨.opening, 5, slots, vecFields fn⟩ (lowField f 80 2 ≠ 3 && extra f) e f s = true) :
    let u := atIssue ⟨.opening, 5, slots, vecFields fn⟩ e s
    let g := engOf u e
    let vd := viewOf (tGet g (slotOf f 0).2)
    let xs := srcs.map (srcOf g f)
    let vs := srcViews xs
    (∀ v ∈ vd :: vs, viewFault v false = none ∧ vecView v = true ∧ v.rows = vd.rows ∧ v.cols = vd.cols) →
    (∀ v ∈ vs, vd.overlaps v = true → sameView vd v = true) → quiet u = true →
    (∀ v ∈ vd :: vs, anyBad g.spadBad v.base v.extent = false) →
    Ends i s fun t => OnlyEngine e u t ∧ Retired e u t ∧ { engOf t e with spad := g.spad, pc := g.pc } = g ∧
      RowsStored vd (vectorRow op u g f vd xs) g.spad (engOf t e).spad := by
  intro u g vd xs vs hviews hover hquiet hgood
  obtain ⟨hfvd, hvec, -, -⟩ := hviews vd List.mem_cons_self
  have hfault : firstViewFault (vd :: vs) = none := firstViewFault_none fun v hv => (hviews v hv).1
  have hshape : (vs.any fun v => !(vecView v) || v.rows ≠ vd.rows || v.cols ≠ vd.cols) = false := List.any_eq_false.mpr fun v hv => by
    obtain ⟨-, hv, hr, hc⟩ := hviews v (List.mem_cons_of_mem vd hv)
    simp [hv, hr, hc]
  have hsame : (vs.any fun v => vd.overlaps v && !(sameView vd v)) = false := List.any_eq_false.mpr fun v hv => by
    simpa using hover v hv
  clear_value (hvs : vs = _) (hxs : xs = _) (hvd : vd = _) (hg : g = _) (hu : u = _)
  have hread : spadCheckedAll u e (vs.map fun v => (v.base, v.extent)) = (u, false) := spadCheckedAll_good hquiet fun x hx => by
    obtain ⟨v, hv, rfl⟩ := List.mem_map.mp hx
    exact hg ▸ hgood v (List.mem_cons_of_mem vd hv)
  refine ends_writeRows hfvd (vecView_dense hvec) (fun r _ => by simp [vectorRow]) hexec hi hu hg (hgood vd List.mem_cons_self) ?_
  simp only [← hvd, ← hxs, ← hvs, hfault, hread, hvec, hshape, hsame, Bool.not_true, Bool.or_self, Bool.false_eq_true, if_false]
  refine congrArg (writeRows u e vd) (List.map_congr_left fun r _ => ?_)
  simp only [vectorRow, List.map_map]
  rfl

/-- Zeros written over a range clear it. -/
theorem bget_bwrite_zeros (m : List (Nat × Byte)) (a n x : Nat) :
    bget (bwrite m a (List.replicate n 0)) x = if a ≤ x ∧ x < a + n then 0 else bget m x := by
  split
  next h =>
    obtain ⟨j, rfl⟩ := Nat.exists_eq_add_of_le h.1
    have hj : j < (List.replicate n (0 : Byte)).length := by rw [List.length_replicate]; omega
    rw [bget_bwrite_inside m a _ j hj, List.getD_eq_getElem _ _ hj, List.getElem_replicate]
  next h => exact bget_bwrite_outside m a _ x (by rw [List.length_replicate]; omega)

/-- Settles O16: the bodies of the vector group write the rows of their results (`ends_vector`, `ends_vred`), and VZERO writes zeros over the extent. -/
theorem vectorInstructionsWriteTheirDestination : Obligations.VectorInstructionsWriteTheirDestination := by
  unfold Obligations.VectorInstructionsWriteTheirDestination
  refine ⟨fun p hp e f s => ?_, fun e f s => ?_, ?_⟩
  · have hexec : exec (p.1 e f) s = vector p.2.1 p.2.2.1 p.2.2.2.1 p.2.2.2.2.1 p.2.2.2.2.2 e f s := by
      simp only [List.mem_cons, List.not_mem_nil, or_false] at hp
      rcases hp with rfl | rfl | rfl | rfl | rfl | rfl | rfl | rfl | rfl | rfl <;> rfl
    exact fun hi => ends_vector hexec hi
  · intro o hi u g v hv hgood
    clear_value (hdst : v = _) (hg : g = _) (hu : u = _)
    obtain ⟨t, ht, hst⟩ := spadWrite_good (s := u) (e := e) (a := v.base) (bs := List.replicate v.extent 0)
      (by rwa [List.length_replicate, ← hg])
    rw [← hg] at hst
    refine ends_engineIs (rfl : execVzero e f s = _) hi hu hg (by simp only [← hdst, hv, ht]) hst fun w hw => ⟨hw.1, ?_, ?_, fun x => ?_⟩
    · rw [Retired, hw.2, hg]
    · rw [hw.2]
    · rw [hw.2]
      exact bget_bwrite_zeros ..
  · intro e v f s o hi u g vd hsrc hv hfd hfv hvecd hvec hcols hrows hover hquiet hgoodd hgood
    clear_value (hvd : vd = _) (hg : g = _) (hu : u = _)
    have hx : srcOf g f 1 = .view v := by rw [srcOf, if_pos hsrc, hv]
    have hfault : firstViewFault [vd, v] = none := firstViewFault_none (by simp [hfd, hfv])
    have hread : spadChecked u e v.base v.extent = (u, false) := spadChecked_good hquiet (hg ▸ hgood)
    refine ends_writeRows hfd (vecView_dense hvecd) (row := fun r => [_]) (by simp [hcols]) (rfl : execVred e f s = _) hi hu hg hgoodd ?_
    simp only [← hvd, hx, srcViews, List.filterMap_cons, List.filterMap_nil, hfault, hvecd, hvec, hcols, hrows, hover, hread, Bool.not_true,
      Bool.or_self, ne_eq, not_true, decide_false, Bool.false_eq_true, if_false]
    rfl

end Sys2Proof.Machine
end

section
/-! PROOFS. MMA (O17): the shape that its checks establish, and the rows of C that its body writes. -/
namespace Sys2Proof.Machine

/-- A map over elements with their places, as a map over the places. -/
theorem map_zipIdx_eq_map_range {α β : Type} (l : List α) (d : α) (f : α × Nat → β) :
    l.zipIdx.map f = (List.range l.length).map fun i => f (l.getD i d, i) :=
  List.ext_getElem (by simp) fun i hi _ => by
    have hi : i < l.length := by simpa using hi
    simp [hi]

/-- Fibres that are read without error are as many as the rows of their view. -/
theorem length_operandFibres {g : Engine} {v : View} {zd : Bool} {scales : Nat → List Nat} {fs : List Fibre}
    (h : operandFibres g v zd scales = .ok fs) : fs.length = v.rows := by
  have hlen (F : Nat → Except Nat Fibre) (l : List Nat) (fs : List Fibre) (h : l.mapM F = .ok fs) : fs.length = l.length := by
    induction l generalizing fs with
    | nil => cases h; rfl
    | cons r l ih =>
      rw [List.mapM_cons] at h
      cases hr : F r with
      | error x => rw [hr] at h; cases h
      | ok y =>
        cases hl : l.mapM F with
        | error x => rw [hr, hl] at h; cases h
        | ok ys => rw [hr, hl] at h; cases h; simp [ih ys hl]
  simpa using hlen _ _ _ h

/-- What the checks of R224 establish of C. -/
theorem mmaFault_none {vc va vb sa sb : View} {zda zdb : Bool} {asv bsv : Nat} (h : mmaFault vc va vb sa sb zda zdb asv bsv = none) :
    viewFault vc false = none ∧ vc.fmt = 0 ∧ vc.spc = 0 ∧ vc.rows = va.rows ∧ vc.cols = vb.rows := by
  unfold mmaFault at h
  dsimp only at h
  split at h
  · cases h
  · cases h
  · cases h
  next hc _ _ =>
    split at h
    · cases h
    next hshape =>
      simp only [Bool.or_eq_true, decide_eq_true_eq, not_or, not_not] at hshape
      tauto

/-- The encodings of row `r` of C (R226): `old` gives the elements that the walks start from, `fas` and `fbs` the fibres of A and B, `scA` and `scB`
their scales, `k` the length of the fibres and `p` the pairing of their formats. -/
def mmaRow (cols : Nat) (old : Nat → Nat → FV) (fas fbs : List Fibre) (scA scB : Nat → List Nat) (mxa mxb : Bool) (k : Nat) (p : Nat × Bool)
    (r : Nat) : List Nat :=
  (List.range cols).map fun c => rnd32 (mmaElem (old r c) (fas.getD r []) (fbs.getD c []) (scA r) (scB c) mxa mxb k p.1 p.2)

/-- What MMA reads through the checker are extents of its views (R224, R274). -/
theorem mem_mmaReads {vc va vb sa sb : View} {mxa mxb : Bool} {acc : Prop} [Decidable acc] {x : Nat × Nat}
    (hx : x ∈ [(va.base, va.extent), (vb.base, vb.extent)] ++ (if mxa then [(sa.base, sa.extent)] else []) ++
      (if mxb then [(sb.base, sb.extent)] else []) ++ (if acc then [(vc.base, vc.extent)] else [])) :
    ∃ v ∈ [vc, va, vb] ++ (if mxa then [sa] else []) ++ (if mxb then [sb] else []), x = (v.base, v.extent) := by
  simp only [List.mem_append] at hx
  rcases hx with ((hx | hx) | hx) | hx
  · rcases List.mem_pair.mp hx with rfl | rfl
    · exact ⟨va, by simp, rfl⟩
    · exact ⟨vb, by simp, rfl⟩
  · obtain ⟨hm, rfl⟩ : mxa = true ∧ x = (sa.base, sa.extent) := by simpa using hx
    exact ⟨sa, by simp [hm], rfl⟩
  · obtain ⟨hm, rfl⟩ : mxb = true ∧ x = (sb.base, sb.extent) := by simpa using hx
    exact ⟨sb, by simp [hm], rfl⟩
  · obtain ⟨-, rfl⟩ : acc ∧ x = (vc.base, vc.extent) := by simpa using hx
    exact ⟨vc, by simp, rfl⟩

/-- Settles O17: the elements of C are those of the fibres by their places (`map_zipIdx_eq_map_range`), and the body writes C's rows. -/
theorem mmaComputesEveryOutputElement : Obligations.MmaComputesEveryOutputElement := by
  unfold Obligations.MmaComputesEveryOutputElement
  intro e fas fbs f s o hi u g vc va vb sa sb scA scB acc pr hfault hfas hfbs hquiet hgood
  obtain ⟨hfc, hfmt, hspc, hrows, hcols⟩ := mmaFault_none hfault
  have hlenA : fas.length = vc.rows := (length_operandFibres hfas).trans hrows.symm
  have hlenB : fbs.length = vc.cols := (length_operandFibres hfbs).trans hcols.symm
  clear_value (hsb : sb = _) (hsa : sa = _) (hvb : vb = _) (hva : va = _) (hvc : vc = _) (hg : g = _) (hu : u = _)
  have hread : spadCheckedAll u e ([(va.base, va.extent), (vb.base, vb.extent)] ++ (if isMx va.fmt then [(sa.base, sa.extent)] else []) ++
      (if isMx vb.fmt then [(sb.base, sb.extent)] else []) ++ (if lowField f 8 1 = 1 then [(vc.base, vc.extent)] else [])) = (u, false) := by
    refine spadCheckedAll_good hquiet fun x hx => ?_
    obtain ⟨v, hv, rfl⟩ := mem_mmaReads hx
    exact hg ▸ hgood v hv
  let row := mmaRow vc.cols (fun r c => if acc then (rowVals g vc r).getD c .zero else .zero) fas fbs scA scB (isMx va.fmt) (isMx vb.fmt) va.cols pr
  have hrow : (List.range vc.rows).map row = fas.zipIdx.map fun a => fbs.zipIdx.map fun b =>
      rnd32 (mmaElem (if acc then (if acc then rowVals g vc a.2 else []).getD b.2 .zero else .zero) a.1 b.1 (scA a.2) (scB b.2) (isMx va.fmt)
        (isMx vb.fmt) va.cols pr.1 pr.2) := by
    simp only [map_zipIdx_eq_map_range _ [], hlenA, hlenB]
    refine List.map_congr_left fun r _ => List.map_congr_left fun c _ => ?_
    by_cases h : acc <;> simp only [h, if_true, if_false]
  have hexec : execMma e f s = issue e f o true _ s := rfl
  obtain ⟨t, ht, honly, hretired, hframe, hstored, hout⟩ := ends_writeRows (i := .mma e f) hfc hspc (row := row) (fun r _ => by simp [row, mmaRow])
    hexec hi hu hg (hgood vc (by simp)) (by
      simp only [scA, scB] at hfas hfbs hrow
      simp only [← hvc, ← hva, ← hvb, ← hsa, ← hsb, hfault, hfas, hfbs, hread, hrow]
      rfl)
  have hwidth : fmtWidth vc.fmt = 32 := by rw [hfmt]; rfl
  exact ⟨t, ht, honly, hretired, hframe, fun r hr => by rw [hstored r hr, hwidth]; rfl, hout⟩

end Sys2Proof.Machine
end

section
/-! PROOFS. EPI (O18): its cells by row and column, what its statistics slot sees of them, and the record that both leave. -/
namespace Sys2Proof.Machine

/-! ## Statistics slots (R99, R235) -/

theorem statOf_statPut_same (g : Engine) (i : Nat) (x : StatSlot) : statOf (statPut g i x) i = some x := by
  simp [statOf, statPut, find?_minsert_same]

theorem statOf_statPut_ne (g : Engine) {i j : Nat} (x : StatSlot) (h : j ≠ i) : statOf (statPut g i x) j = statOf g j := by
  simp [statOf, statPut, find?_minsert_ne _ _ h]

/-- An engine's record once slot `i` holds `x`, where a value is given. -/
def putSeen (g : Engine) (i : Nat) (x : Option StatSlot) : Engine := x.elim g (statPut g i)

theorem putSeen_frame (g : Engine) (i : Nat) (x : Option StatSlot) : ({ putSeen g i x with stats := g.stats } : Engine) = g := by
  cases x <;> rfl

theorem putSeen_spad (g : Engine) (i : Nat) (x : Option StatSlot) : (putSeen g i x).spad = g.spad ∧ (putSeen g i x).spadBad = g.spadBad := by
  cases x <;> exact ⟨rfl, rfl⟩

theorem statOf_putSeen_ne (g : Engine) {i j : Nat} (x : Option StatSlot) (h : j ≠ i) : statOf (putSeen g i x) j = statOf g j := by
  cases x with
  | none => rfl
  | some x => exact statOf_statPut_ne g x h

theorem engineIs_putSeen (e i : Nat) (x : Option StatSlot) (s : State) :
    EngineIs e (putSeen (engOf s e) i x) s (x.elim s fun x => modEng s e fun h => statPut h i x) := by
  cases x with
  | none => exact engineIs_self e s
  | some x => exact engineIs_modEng e _ s

/-! ## The cells of EPI (R228, R229) -/

theorem length_rowVals (g : Engine) (v : View) (r : Nat) : (rowVals g v r).length = v.cols := by simp [rowVals, rowRaws, unpackBytes]

/-- The source element in row `r` and column `c` times the scales of slot 2. -/
def epiScaled (g : Engine) (f : Frame) (vc : View) (r c : Nat) : FV :=
  FV.mul ((rowVals g vc r).getD c .zero) (FV.mul (scaleOperand g f 2 0) (scaleOperand g f 2 32))

/-- The same times the scale of slot 3. -/
def epiResult (g : Engine) (f : Frame) (vc : View) (r c : Nat) : FV := FV.mul (epiScaled g f vc r c) (scaleOperand g f 3 0)

/-- Its conversion for the destination: the encoding, and whether it saturated. -/
def epiCell (u : State) (g : Engine) (f : Frame) (vy vc : View) (r c : Nat) : Nat × Bool :=
  storeElem vy.fmt (rv32 (epiResult g f vc r c)) (lowField f 80 2) (lowField f 79 1 = 1) (elemBits u g (lowField f 63 16) (r * vc.cols + c))

/-- What the slot learns of a cell, and its encoding: the scaled value, the encoding, and whether the cell counts as saturated (log 154). -/
def epiEntry (u : State) (g : Engine) (f : Frame) (vy vc : View) (r c : Nat) : FV × Nat × Bool :=
  (rv32 (epiScaled g f vc r c), (epiCell u g f vy vc r c).1,
    (epiCell u g f vy vc r c).2 || (vy.fmt = 0 && over32 (epiResult g f vc r c)))

/-- What a slot holds once it has seen an entry (R229). -/
def seesEntry (x : StatSlot) (c : FV × Nat × Bool) : StatSlot :=
  let x := x.observe c.1
  if c.2.2 then { x with sat := satAdd top32 x.sat 1 } else x

/-- A table by rows and columns, read in row order. -/
theorem foldl_flatten_table {α β : Type} (n m : Nat) (h : Nat → Nat → α) (F : β → α → β) (x : β) :
    ((List.range n).map fun r => (List.range m).map (h r)).flatten.foldl F x =
      ((List.range n).flatMap fun r => (List.range m).map fun c => (r, c)).foldl (fun x p => F x (h p.1 p.2)) x := by
  rw [← List.foldl_map (f := fun p : Nat × Nat => h p.1 p.2) (g := F), List.map_flatMap, List.flatMap_def]
  simp [List.map_map, Function.comp_def]

/-- Settles O18: the slot, where one is named, sees the entries in row order (`foldl_flatten_table`), and the body then writes their encodings. -/
theorem epiScalesAndConverts : Obligations.EpiScalesAndConverts := by
  unfold Obligations.EpiScalesAndConverts
  intro e f s o hi u g vy vc slot q y cell sees hfy hfc hvec hfmt hspc hrows hcols hslot hover hquiet hgoody hgoodc
  let entry := epiEntry u g f vy vc
  let pairs := (List.range vy.rows).flatMap fun r => (List.range vy.cols).map fun c => (r, c)
  change Ends (.epi e f) s fun t => OnlyEngine e u t ∧ Retired e u t ∧
      { engOf t e with spad := g.spad, stats := g.stats, pc := g.pc } = g ∧ (lowField f 2 1 = 0 → (engOf t e).stats = g.stats) ∧
      (∀ j, j ≠ slot → statOf (engOf t e) j = statOf g j) ∧
      (∀ x, lowField f 2 1 = 1 → statOf g slot = some x → statOf (engOf t e) slot =
        some (pairs.foldl (fun x p => seesEntry x (entry p.1 p.2)) x)) ∧
      RowsStored vy (fun r => (List.range vy.cols).map fun c => (entry r c).2.1) g.spad (engOf t e).spad
  clear_value (hsl : slot = _) (hvc : vc = _) (hvy : vy = _) (hg : g = _) (hu : u = _)
  let seen := (if lowField f 2 1 = 1 then statOf g slot else none).map fun x => pairs.foldl (fun x p => seesEntry x (entry p.1 p.2)) x
  have hw : EngineIs e (putSeen g slot seen) u (seen.elim u fun x => modEng u e fun h => statPut h slot x) := hg ▸ engineIs_putSeen e slot seen u
  obtain ⟨hspad, hbad⟩ := putSeen_spad g slot seen
  have hpass : (!(vecView vy) || vc.fmt ≠ 0 || vc.spc ≠ 0 || vy.rows ≠ vc.rows || vy.cols ≠ vc.cols ||
      (decide (lowField f 2 1 = 1) && (statOf g slot).isNone)) = false := by
    simpa [hvec, hfmt, hspc, hrows, hcols, Option.isSome_iff_ne_none] using hslot
  have hsame : (vy.overlaps vc && !(vy.fmt = 0 && sameView vy vc)) = false := by simpa using hover
  have hread : spadChecked u e vc.base vc.extent = (u, false) := spadChecked_good hquiet (hg ▸ hgoodc)
  have hexec : execEpi e f s = issue e f o (lowField f 80 2 ≠ 3) _ s := rfl
  obtain ⟨t, ht, honly, hretired, hframe, hstored⟩ := ends_writeRows_after (i := .epi e f)
    (row := fun r => (List.range vy.cols).map fun c => (entry r c).2.1) hfy (vecView_dense hvec) (by simp) hexec hi hu hg hw (hbad ▸ hgoody) (by
      simp only [← hvc, ← hvy, ← hsl, hfy, hfc, hpass, hsame, hread, Bool.false_eq_true, if_false]
      simp only [map_zipIdx_eq_map_range _ FV.zero, length_rowVals, foldl_flatten_table, List.map_map, Function.comp_def, hrows, hcols, seen, pairs]
      cases (if lowField f 2 1 = 1 then statOf g slot else none) <;> rfl)
  have hstats : (engOf t e).stats = (putSeen g slot seen).stats := (congrArg Engine.stats hframe :)
  refine ⟨t, ht, honly, hretired, ?_, fun h0 => ?_, fun j hj => ?_, fun x h1 hx => ?_, hspad ▸ hstored⟩
  · calc ({ engOf t e with spad := g.spad, stats := g.stats, pc := g.pc } : Engine)
        = { putSeen g slot seen with spad := g.spad, stats := g.stats, pc := g.pc } :=
          congrArg (fun h : Engine => { h with spad := g.spad, stats := g.stats, pc := g.pc }) hframe
      _ = g := congrArg (fun h : Engine => { h with spad := g.spad, pc := g.pc }) (putSeen_frame g slot seen)
  · have hnone : seen = none := by simp [seen, h0]
    rw [hstats, hnone]
    rfl
  · rw [statOf, hstats]
    exact statOf_putSeen_ne g seen hj
  · rw [statOf, hstats]
    simp only [seen, h1, hx, if_true]
    exact statOf_statPut_same g slot _

end Sys2Proof.Machine
end

section
/-! PROOFS. Statistics instructions and TTEST (O19): an asynchronous operation starts, the operations on one history record are marked, and what a
read of the Bolt buffer sees while transfers are under way. -/
namespace Sys2Proof.Machine

/-! ## Slots -/

theorem mget_minsert {α : Type} (d : α) (m : List (Nat × α)) (k : Nat) (v : α) (j : Nat) :
    mget d (minsert m k v) j = if j = k then v else mget d m j := by
  split
  next h => rw [h, mget_minsert_same]
  next h => exact mget_minsert_other d m v h

/-- Slot `i` of engine record `h` is `x`, and but for PC `h` is else as `g`. -/
def SlotPut (g : Engine) (i : Nat) (x : StatSlot) (h : Engine) : Prop :=
  { h with stats := g.stats, pc := g.pc } = g ∧ ∀ (j : Nat) (d : StatSlot), mget d h.stats j = if j = i then x else mget d g.stats j

theorem slotPut_statPut (g : Engine) (i : Nat) (x : StatSlot) (pc : Nat) : SlotPut g i x { statPut g i x with pc := pc } :=
  ⟨rfl, fun j d => mget_minsert d g.stats i x j⟩

/-- An instruction whose body puts a slot changes that slot and PC. -/
theorem ends_statPut {i : Instr} {o : OpInfo} {extra : Bool} {e : Nat} {f : Frame} {body : State → Engine → IRes} {s u : State} {g : Engine}
    (hexec : exec i s = issue e f o extra body s) (hi : issues o extra e f s = true) (hu : u = atIssue o e s) (hg : g = engOf u e)
    {k : Nat} {x : StatSlot} (hbody : body u g = onEng u e fun h => statPut h k x) :
    Ends i s fun t => OnlyEngine e u t ∧ Retired e u t ∧ SlotPut g k x (engOf t e) := by
  refine ends_engineIs hexec hi hu hg hbody (engineIs_modEng e (fun h => statPut h k x) u) fun t ht => ⟨ht.1, ?_, ?_⟩
  · rw [Retired, ht.2, hg]
  · rw [ht.2, ← hg]
    exact slotPut_statPut ..

/-! ## Asynchronous operations (R189 to R191) -/

/-- The record of an operation that engine `e`, in record `g`, starts now. -/
def startedOp (u : State) (g : Engine) (e : Nat) (kind : AKind) (w : Option (Nat × Nat)) : AsyncOp :=
  { id := u.fresh, eng := e, ctx := g.who.1, gen := g.who.2, bwclass := g.bwclass, kind := kind, word := w, queued := false, reserved := 0,
    groups := 0, got := [], tile := readsSpad kind, cut := false, err := none, soft := none, moved := none, past := [], clash := false }

/-- An operation that is not queued and reserves nothing starts where its completion reference resolves and the engine holds fewer than 16. -/
theorem startAsync_started {u : State} {g : Engine} {e : Nat} {f : Frame} {kind : AKind} {w : Option (Nat × Nat)}
    (hw : completionWord u g f = .ok w) (hn : asyncCount u e < 16) :
    startAsync u g e f kind false 0 = .ok { u with asyncs := u.asyncs ++ [startedOp u g e kind w], fresh := u.fresh + 1 } := by
  unfold startAsync
  simp only [hw, not_le.mpr hn, if_false, Bool.false_and, Bool.false_eq_true, if_true]
  rfl

/-! ## Updates of one history record (R103) -/

/-- The operations that pass `p`, marked. -/
def markClash (p : AsyncOp → Bool) (l : List AsyncOp) : List AsyncOp := l.map fun x => if p x then { x with clash := true } else x

/-- Marking what there is, if there is any, is marking. -/
theorem markClash_any (u : State) (p : AsyncOp → Bool) :
    (if u.asyncs.any p then { u with asyncs := u.asyncs.map fun x => if p x then { x with clash := true } else x } else u) =
      { u with asyncs := markClash p u.asyncs } := by
  split
  · rfl
  next h =>
    have hnone : markClash p u.asyncs = u.asyncs := (List.map_congr_left fun x hx => if_neg fun hp => h (List.any_eq_true.mpr ⟨x, hx, hp⟩)).trans
      (List.map_id' u.asyncs)
    rw [hnone]

theorem asyncCount_markClash (u : State) (p : AsyncOp → Bool) (e : Nat) : asyncCount { u with asyncs := markClash p u.asyncs } e = asyncCount u e := by
  have heng (x : AsyncOp) : (if p x then { x with clash := true } else x).eng = x.eng := by split <;> rfl
  simp [asyncCount, markClash, List.filter_map, Function.comp_def, heng]

/-- The update `a` stands last in issue order; with the outstanding operations that pass `p` it is marked, where there are any. -/
def withUpdate (u : State) (a : AsyncOp) (p : AsyncOp → Bool) : State :=
  { u with
    fresh := u.fresh + 1
    asyncs := (markClash p u.asyncs ++ [a]).map fun x => if x.id = u.fresh then { x with clash := u.asyncs.any p } else x }

/-! ## Reads of the Bolt buffer while transfers are under way (R163) -/

theorem pickByte_picks (alts : List Byte) (s : State) (b : Byte) :
    ∃ n y, pickByte s b alts = ({ s with fresh := n }, y) ∧ (y = b ∨ y ∈ alts) := by
  induction alts generalizing s b with
  | nil => exact ⟨s.fresh, b, rfl, .inl rfl⟩
  | cons x alts ih =>
    unfold pickByte
    split
    · obtain ⟨n, y, h, hy⟩ := ih s b
      exact ⟨n, y, h, hy.imp_right (List.mem_cons_of_mem x)⟩
    · obtain ⟨n, y, h, hy⟩ := ih (drawBool s).1 (if (drawBool s).2 then x else b)
      refine ⟨n, y, h, ?_⟩
      rcases hy with rfl | hy
      · split
        · exact .inr List.mem_cons_self
        · exact .inl rfl
      · exact .inr (List.mem_cons_of_mem x hy)

theorem pickBytes_picks (alts : List (List Byte)) (s : State) (i : Nat) (bs : List Byte) :
    ∃ n ys, pickBytes alts s i bs = ({ s with fresh := n }, ys) ∧ ys.length = bs.length ∧
      ∀ j < bs.length, ys.getD j 0 = bs.getD j 0 ∨ ∃ x ∈ alts, ys.getD j 0 = x.getD (i + j) (bs.getD j 0) := by
  induction bs generalizing s i with
  | nil => exact ⟨s.fresh, [], rfl, rfl, fun j hj => nomatch hj⟩
  | cons b bs ih =>
    obtain ⟨n, y, hy, hpick⟩ := pickByte_picks (alts.map fun l => l.getD i b) s b
    obtain ⟨m, ys, hys, hlen, hrest⟩ := ih { s with fresh := n } (i + 1)
    refine ⟨m, y :: ys, by simp only [pickBytes, hy, hys], by simp [hlen], fun j hj => ?_⟩
    cases j with
    | zero =>
      refine hpick.imp_right fun hmem => ?_
      obtain ⟨x, hx, rfl⟩ := List.mem_map.mp hmem
      exact ⟨x, hx, rfl⟩
    | succ j =>
      have := hrest j (by simpa using hj)
      rwa [Nat.add_right_comm] at this

/-- A read of the Bolt buffer draws at most, and sees of each byte the one that is there or one that an incomplete transfer leaves. -/
theorem boltSeen_sees (s : State) (c ctx gen o a m : Nat) :
    ∃ n bs, boltSeen s c ctx gen o a m = ({ s with fresh := n }, bs) ∧ bs.length = m ∧
      ∀ i < m, bs.getD i 0 = bget (clOf s c).bolt (a + i) ∨
        ∃ x ∈ boltAlts s c ctx gen o a m, bs.getD i 0 = x.getD i (bget (clOf s c).bolt (a + i)) := by
  have hlen : (boltRead s c a m).length = m := by simp [boltRead, bread]
  have hget (i : Nat) (hi : i < m) : (boltRead s c a m).getD i 0 = bget (clOf s c).bolt (a + i) := by
    simp [boltRead, bread, hi]
  unfold boltSeen
  dsimp only
  split
  · exact ⟨s.fresh, _, rfl, hlen, fun i hi => .inl (hget i hi)⟩
  · obtain ⟨n, bs, hbs, hsame, hpick⟩ := pickBytes_picks (boltAlts s c ctx gen o a m) s 0 (boltRead s c a m)
    refine ⟨n, bs, hbs, hsame.trans hlen, fun i hi => ?_⟩
    have := hpick i (hlen.symm ▸ hi)
    rwa [hget i hi, Nat.zero_add] at this

/-! ## TTEST (R143, R242) -/

theorem pGet_pPut (g : Engine) (r : Nat) (v : Bool) (k : Nat) :
    pGet (pPut g r v) k = if k = r ∧ k ≠ 0 then v else pGet g k := by
  by_cases hk : k = 0
  · simp [pGet, hk]
  by_cases hr : r = 0
  · have : k ≠ r := fun h => hk (h.trans hr)
    simp [pPut, hr, hk]
  by_cases hkr : k = r
  · subst hkr
    simp [pGet, pPut, hk]
  · simp [pGet, pPut, hk, hr, hkr, mget_mset_other]

/-- Writing a p register changes nothing else of the record. -/
theorem pPut_frame (g : Engine) (r : Nat) (v : Bool) : ({ pPut g r v with p := g.p } : Engine) = g := by
  unfold pPut
  split <;> rfl

/-- Closing the tile of engine `e` changes beside its record only the operations, which have read the scratchpad, and the draw counter
(R154). -/
theorem EngineIs.closeTile {e : Nat} {h : Engine} {s v : State} (a : EngineIs e h s v) :
    EngineIs e { h with tileOpen := false, t := [], stats := [], spad := staleSpad v.fresh h.spad }
      { s with asyncs := (closeTile v e).asyncs, fresh := (closeTile v e).fresh } (closeTile v e) := by
  have b := a.modEng fun h => { h with tileOpen := false, t := [], stats := [], spad := staleSpad v.fresh h.spad }
  have hrest := congrArg (fun x : State => { x with asyncs := (Machine.closeTile v e).asyncs, fresh := (Machine.closeTile v e).fresh }) b.1.1
  exact ⟨⟨hrest, b.1.2⟩, b.2⟩

/-- Where besides the record of engine `e` only operations and the draw counter may differ, the rest is as before. -/
theorem EngineIs.apart {e m : Nat} {h : Engine} {as : List AsyncOp} {u t : State} (a : EngineIs e h { u with asyncs := as, fresh := m } t) :
    (∀ k, k ≠ e → engOf t k = engOf u k) ∧ { t with engines := u.engines, asyncs := u.asyncs, fresh := u.fresh } = u ∧ t.asyncs = as :=
  ⟨a.1.2, congrArg (fun x : State => { x with asyncs := u.asyncs, fresh := u.fresh }) a.1.1, congrArg State.asyncs a.1.1⟩

/-- A jump that closes the tile of engine `e`, where so far only its record and the draw counter changed. -/
theorem EngineIs.closeTile_apart {e m : Nat} {h : Engine} {u v : State} (a : EngineIs e h { u with fresh := m } v) (pc : Nat) :
    engOf (Machine.setPc (Machine.closeTile v e) e pc) e =
        { h with tileOpen := false, t := [], stats := [], spad := staleSpad v.fresh h.spad, pc := pc % 2 ^ 52 } ∧
      (∀ k, k ≠ e → engOf (Machine.setPc (Machine.closeTile v e) e pc) k = engOf u k) ∧
      { Machine.setPc (Machine.closeTile v e) e pc with engines := u.engines, asyncs := u.asyncs, fresh := u.fresh } = u ∧
      (Machine.setPc (Machine.closeTile v e) e pc).asyncs = u.asyncs.map fun x => if x.eng = e then { x with tile := false } else x := by
  have b := a.closeTile.setPc pc
  obtain ⟨hothers, hrest, hasyncs⟩ := b.apart (u := u)
  have hsame : v.asyncs = u.asyncs := (congrArg State.asyncs a.1.1 :)
  exact ⟨b.2, hothers, hrest, hasyncs.trans (by rw [← hsame]; rfl)⟩

/-- What TTEST asks of its frame beyond the forms (R242). -/
def ttestExtra (f : Frame) : Bool :=
  (!decide (lowField f 80 1 = 1) || lowField f 52 2 = 0) && lowField f 0 4 = 0 && (lowField f 83 1 = 1 || lowField f 0 32 = 0)

/-- The operand forms of TTEST. -/
def ttestInfo : OpInfo := ⟨.opening, 7, [.p], [(83, 1), (80, 1), (74, 6), (52, 22), (0, 32)]⟩

/-- The body of TTEST where its word is read as `bs`: the predicate register takes the condition; with SKIP and a false condition the tile closes
and PC jumps (R143, R242). -/
theorem execTtest_issue {e a m : Nat} {f : Frame} {s u : State} {g : Engine} {bs : List Byte}
    (hplace : lowField f 83 1 = 1 → (engOf s e).tileOpen = false)
    (ha : boltAt u (e / 4) g.who.1 g.who.2 (2 * lowField f 52 22) (condBytes (lowField f 80 1 = 1)) = some a)
    (hread : boltChecked u (e / 4) a (condBytes (lowField f 80 1 = 1)) = (u, false))
    (hseen : boltSeen u (e / 4) g.who.1 g.who.2 (2 * lowField f 52 22) a (condBytes (lowField f 80 1 = 1)) = ({ u with fresh := m }, bs)) :
    ∃ body, execTtest e f s = issue e f ttestInfo (ttestExtra f) body s ∧ body u g =
      (let r := condTrue bs (lowField f 80 1 = 1) (lowField f 74 6)
       let v := modEng { u with fresh := m } e fun h => pPut h (slotOf f 0).2 r
       if r || !decide (lowField f 83 1 = 1) then .ok v
       else .jump (closeTile v e) ((BitVec.ofNat 64 g.pc + (BitVec.ofNat 32 (lowField f 0 32)).signExtend 64).toNat)) := by
  have hplace : (decide (lowField f 83 1 = 1) && (engOf s e).tileOpen) = false := by simpa using hplace
  refine ⟨_, by unfold execTtest; exact rfl, ?_⟩
  simp only [hplace, ha, hread, hseen, Bool.false_eq_true, if_false]

/-- Settles O19: SATT and SOBS put their slot; SST puts it and starts an operation; HUPD's operation joins the marked ones of its record; TTEST sets
its predicate register and stays, or jumps with its tile closed. -/
theorem statisticsAndTileTests : Obligations.StatisticsAndTileTests := by
  unfold Obligations.StatisticsAndTileTests
  refine ⟨⟨?_, ?_, ?_, ?_⟩, ?_⟩
  · exact fun e f s hi => ends_statPut (i := .satt e f) (rfl : execSatt e f s = _) hi rfl rfl rfl
  · intro e x f s hi u g v hv hvec hx hquiet hgood
    clear_value (hsrc : v = _) (hg : g = _) (hu : u = _)
    have hread : spadChecked u e v.base v.extent = (u, false) := spadChecked_good hquiet (hg ▸ hgood)
    refine ends_statPut (i := .sobs e f) (rfl : execSobs e f s = _) hi hu hg ?_
    simp only [← hsrc, hv, hx, hvec, hread, Bool.not_true, Bool.false_eq_true, if_false]
  · intro e x w f s o hi u g hx halign hw hn
    clear_value (hg : g = _) (hu : u = _)
    let a := startedOp u g e (.write [((srcS g f 0).toNat, statRecord x)]) w
    let v : State := { u with asyncs := u.asyncs ++ [a], fresh := u.fresh + 1 }
    let put := fun h : Engine => statPut h (lowField f 0 2) (StatSlot.fresh x.ebase)
    have hput : EngineIs e (put g) v (modEng v e put) := hg ▸ engineIs_modEng e put v
    have hdone := hput.setPc (g.pc + 16)
    have hclear : clear v = true := (congrArg clear hu).trans (clear_atIssue hi)
    refine ends_ok (rfl : execSst e f s = _) hi hu hg (t := modEng v e put) ?_ hclear
      ⟨?_, ?_, ⟨rfl, fun k hk => (hdone.1.2 k hk :)⟩, a, rfl, rfl, rfl, rfl, rfl, rfl⟩
    · simp only [hx, halign, startAsync_started hw hn, ne_eq, not_true, if_false]
      rfl
    · rw [Retired, hdone.2, hg]
    · rw [hdone.2]; exact slotPut_statPut ..
  · intro e w f s o hi u g hist twin a v hrec hstats hw hn hclear
    clear_value (hg : g = _) (hu : u = _)
    refine ends_ok (rfl : execHupd e f s = _) hi hu hg (t := enterFabric v e) ?_ hclear rfl
    simp only [hist] at hrec
    simp only [hrec, hstats, ne_eq, not_true, decide_false, Bool.or_self, Bool.false_eq_true, if_false,
      markClash_any]
    rw [startAsync_started (u := { u with asyncs := markClash _ u.asyncs }) hw ((asyncCount_markClash u _ e).symm ▸ hn)]
    refine congrArg (fun p => IRes.ok (enterFabric (withUpdate u a p) e)) (a₂ := twin) (funext fun x => ?_)
    cases hk : x.kind
    case hupd => simp [twin, hk, hist, Prod.ext_iff, Bool.and_assoc]
    all_goals simp [twin, hk]
  · intro e a f s o skip mask hi htile u g ha n hquiet hgood
    clear_value (hg : g = _) (hu : u = _)
    have hopen : g.tileOpen = true := by rw [hg, hu]; exact tileOpen_atIssue rfl e s
    obtain ⟨m, bs, hseen, hlen, hbytes⟩ := boltSeen_sees u (e / 4) g.who.1 g.who.2 (2 * lowField f 52 22) a n
    obtain ⟨body, hexec, hbody⟩ := execTtest_issue htile ha (boltChecked_good hquiet hgood) hseen
    let r := condTrue bs mask (lowField f 74 6)
    let v := modEng { u with fresh := m } e fun h => pPut h (slotOf f 0).2 r
    have hclear : clear v = true := (congrArg clear hu).trans (clear_atIssue hi)
    have hframe := pPut_frame g (slotOf f 0).2 r
    have hput : EngineIs e (pPut g (slotOf f 0).2 r) { u with fresh := m } v :=
      hg ▸ engineIs_modEng e (fun h => pPut h (slotOf f 0).2 r) { u with fresh := m }
    by_cases hstay : r = true ∨ ¬ skip
    · have hdone := hput.setPc (g.pc + 16)
      refine ends_ok (i := .ttest e f) hexec hi hu hg (t := v) (hbody.trans (if_pos (by simpa using hstay))) hclear
        ⟨bs, hlen, hbytes, (hdone.1.2 :), rfl, fun k => ?_, ?_, ?_, fun _ => ⟨?_, rfl, ?_, ?_, ?_⟩,
          fun ⟨hr, hs⟩ => hstay.elim (fun h => nomatch h.symm.trans hr) (absurd hs)⟩
      · rw [hdone.2]; exact (pGet_pPut g _ r k :)
      · rw [hdone.2]; exact (congrArg Engine.s hframe :)
      · rw [hdone.2]; exact (congrArg Engine.d hframe :)
      · rw [Retired, hdone.2, hg]
      · rw [hdone.2]; exact (congrArg Engine.tileOpen hframe :).trans hopen
      · rw [hdone.2]; exact (congrArg Engine.t hframe :)
      · rw [hdone.2]; exact (congrArg Engine.spad hframe :)
    · obtain ⟨hrec, hothers, hrest, hasyncs⟩ :=
        hput.closeTile_apart (BitVec.ofNat 64 g.pc + (BitVec.ofNat 32 (lowField f 0 32)).signExtend 64).toNat
      have hjump := hbody.trans (if_neg (by simpa using hstay))
      refine ends_jump (i := .ttest e f) hexec hi hu hg hjump hclear ?_
      generalize setPc (closeTile v e) e _ = t at hrec hothers hrest hasyncs ⊢
      refine ⟨bs, hlen, hbytes, hothers, hrest, fun k => ?_, ?_, ?_, fun h => absurd h hstay, fun _ => ⟨hasyncs, ?_, ?_, ?_⟩⟩
      · rw [hrec]; exact (pGet_pPut g _ r k :)
      · rw [hrec]; exact (congrArg Engine.s hframe :)
      · rw [hrec]; exact (congrArg Engine.d hframe :)
      · rw [hrec]
      · rw [hrec]
      · rw [hrec]

end Sys2Proof.Machine
end

section
/-! PROOFS. The Shuttle instructions (O20): an operation that issue takes joins the queue of its cluster, and each instruction's rules leave that. -/
namespace Sys2Proof.Machine

/-! ## Joining the queue (R148, R243, R247) -/

/-- The operation that engine `e`, in record `g`, issues now. -/
def issuedOp (u : State) (g : Engine) (e : Nat) (f : Frame) (op : Nat) (vals : Word × Word × Word) (desc : BitVec 256) (view : Option Word)
    (w : Option (Nat × Nat)) : ShOp :=
  { id := u.fresh, op := op, eng := e, ctx := g.who.1, gen := g.who.2, bwclass := g.bwclass, low := lowBits f, v0 := vals.1, v1 := vals.2.1,
    v2 := vals.2.2, desc := desc, step := g.step, key := (ctxOf u g.who.1).key, view := view, word := w, started := false, wrote := [],
    past := [], err := none }

/-- The state in which operation `o` has joined the queue of cluster `c`. -/
def joinQueue (u : State) (c : Nat) (o : ShOp) : State :=
  { modCl u c (fun k => { k with shuttle := k.shuttle ++ [o] }) with fresh := u.fresh + 1 }

/-- Where issue may take the operation and its completion reference resolves, the operation joins the queue; one with a view stays in issue. -/
theorem shIssue_joins {u : State} {g : Engine} {e : Nat} {f : Frame} {needs : List (Word × Nat)} {boltNeeds : List (Nat × Nat)}
    {w : Option (Nat × Nat)} (hg : g = engOf u e) (hmay : shuttleMay u e needs boltNeeds = true) (hw : completionWord u g f = .ok w)
    (op : Nat) (vals : Word × Word × Word) (desc : BitVec 256) (view : Option Word) :
    shIssue u g e f op vals desc view needs boltNeeds =
      (let t := joinQueue u (e / 4) (issuedOp u g e f op vals desc view w)
       if view.isSome then .jump t g.pc else .ok t) := by
  simp only [shuttleMay, Bool.and_eq_true, decide_eq_true_eq, List.all_eq_true, ← hg] at hmay
  obtain ⟨⟨⟨haddr, hrange⟩, hcount⟩, hlive⟩ := hmay
  have haddr : needs.any (fun x => (shAddr x.1).isNone) = false :=
    List.any_eq_false.mpr fun x hx => by simp [Option.isSome_iff_ne_none.mp (haddr x hx)]
  have hrange : (boltNeeds ++ needs.flatMap fun x => shRange (shAddrD x.1) 0 x.2).any
      (fun r => (boltAt u (e / 4) g.who.1 g.who.2 r.1 r.2).isNone) = false :=
    List.any_eq_false.mpr fun r hr => by simp [Option.isSome_iff_ne_none.mp (hrange r hr)]
  unfold shIssue
  simp only [haddr, hw, hrange, not_le.mpr hcount, hlive, Bool.false_eq_true, if_false]
  rfl

/-- Joining the queue and moving PC is what `ShuttleQueued` says. -/
theorem shuttleQueued_joinQueue (u : State) (e : Nat) (f : Frame) (op : Nat) (vals : Word × Word × Word) (desc : BitVec 256) (view : Option Word)
    (w : Option (Nat × Nat)) :
    ShuttleQueued e f op vals desc view w u (setPc (joinQueue u (e / 4) (issuedOp u (engOf u e) e f op vals desc view w)) e
      ((engOf u e).pc + if view.isSome then 0 else 16)) := by
  let o := issuedOp u (engOf u e) e f op vals desc view w
  let join := fun k : Cluster => { k with shuttle := k.shuttle ++ [o] }
  have hcl : clOf (modCl u (e / 4) join) (e / 4) = join (clOf u (e / 4)) := clOf_modCl ..
  have heng := engineIs_modEng e (fun h => { h with pc := ((engOf u e).pc + if view.isSome then 0 else 16) % 2 ^ 52 }) (joinQueue u (e / 4) o)
  refine ⟨⟨o, congrArg Cluster.shuttle hcl, rfl, rfl, rfl, rfl, rfl, rfl, rfl, rfl, rfl, rfl, rfl, rfl, rfl⟩,
    congrArg (fun k : Cluster => { k with shuttle := (clOf u (e / 4)).shuttle }) hcl, fun k hk => clOf_modCl_ne u join hk,
    congrArg Engine.pc heng.2, congrArg (fun h : Engine => { h with pc := (engOf u e).pc }) heng.2, heng.1.2, rfl⟩

/-- An instruction whose body issues a Shuttle operation that issue may take ends with the operation queued. -/
theorem ends_shuttleQueued {i : Instr} {o : OpInfo} {extra : Bool} {e : Nat} {f : Frame} {body : State → Engine → IRes} {s u : State} {g : Engine}
    (hexec : exec i s = issue e f o extra body s) (hi : issues o extra e f s = true) (hu : u = atIssue o e s) (hg : g = engOf u e)
    {op : Nat} {vals : Word × Word × Word} {desc : BitVec 256} {view : Option Word} {needs : List (Word × Nat)} {boltNeeds : List (Nat × Nat)}
    {w : Option (Nat × Nat)} (hmay : shuttleMay u e needs boltNeeds = true) (hw : completionWord u g f = .ok w)
    (hbody : body u g = shIssue u g e f op vals desc view needs boltNeeds) : Ends i s (ShuttleQueued e f op vals desc view w u) := by
  have hqueued := shuttleQueued_joinQueue u e f op vals desc view w
  have hclear : clear u = true := hu ▸ clear_atIssue hi
  rw [shIssue_joins hg hmay hw] at hbody
  rw [← hg] at hqueued
  cases view with
  | none => exact ends_ok hexec hi hu hg hbody hclear hqueued
  | some v => exact ends_jump hexec hi hu hg hbody hclear hqueued

/-- Settles O20: where the operands meet an instruction's rules its body is the issue of its operation (`ends_shuttleQueued`). -/
theorem shuttleInstructionsJoinTheQueue : Obligations.ShuttleInstructionsJoinTheQueue := by
  unfold Obligations.ShuttleInstructionsJoinTheQueue
  refine ⟨?route, ?xgath, ?xscat, ?topk, ?texp⟩
  case route =>
    intro e w f s o hi u g p t ex k v x hk hp harea hmay hw
    clear_value (hv : v = _) (hg : g = _) (hu : u = _)
    have hexec : execRoute e f s = issue e f o (caLegal f) _ s := rfl
    refine ⟨fun hslot hview hfmt hspc hrows hcols => ?_, fun hslot htensor hfmt hspc hrows hcols => ?_⟩
    · have hrules : ¬ (decide (ex < k) || decide (field p 37 27 ≠ 0) || decide (field (srcS g f 1) 0 7 ≠ 0) || decide (1 < v.fmt) ||
          decide (v.spc ≠ 0) || decide (v.rows ≠ t) || decide (v.cols ≠ ex)) = true := by
        simp [not_lt.mpr hk, hp, harea, not_lt.mpr hfmt, hspc, hrows, hcols]
      refine ends_shuttleQueued (i := .route e f) hexec hi hu hg hmay hw ((if_pos hslot).trans ?_)
      simp only [← hv, hview]
      exact if_neg hrules
    · have hrules : ¬ (decide (ex < k) || decide (field p 37 27 ≠ 0) || decide (field (srcS g f 1) 0 7 ≠ 0) ||
          !(tensorLegal (dGet g (slotOf f 0).2)) || decide (1 < x.fmt) || decide (x.spc ≠ 0) || decide (x.rows ≠ t) ||
          decide (x.cols ≠ ex)) = true := by
        simp [not_lt.mpr hk, hp, harea, htensor, not_lt.mpr hfmt, hspc, hrows, hcols]
      exact ends_shuttleQueued (i := .route e f) hexec hi hu hg hmay hw ((if_neg hslot).trans (if_neg hrules))
  case xgath =>
    intro e w f s o hi u g htensor harea hx hoff hmay hw
    refine ends_shuttleQueued (i := .xgath e f) (rfl : execXgath e f s = _) hi rfl rfl hmay hw (if_neg ?_)
    simp [htensor, harea, hx, hoff, g, u, o]
  case xscat =>
    intro e w f s o hi u g htensor harea hx hx' hoff hmay hw
    refine ends_shuttleQueued (i := .xscat e f) (rfl : execXscat e f s = _) hi rfl rfl hmay hw (if_neg ?_)
    simp [htensor, harea, hx, hx', hoff, g, u, o]
  case topk =>
    intro e w f s o hi u g l hgrad hres hrec hmay hw
    refine ends_shuttleQueued (i := .topk e f) (rfl : execTopk e f s = _) hi rfl rfl hmay hw (if_neg ?_)
    simp [hgrad, hres, hrec, g, u, o]
  case texp =>
    intro e w f s o hi u g l hdst hmay hw
    refine ends_shuttleQueued (i := .texp e f) (rfl : execTexp e f s = _) hi rfl rfl hmay hw (if_neg ?_)
    simpa using hdst

end Sys2Proof.Machine
end

section
/-! PROOFS. What a transfer of bytes leaves alone (O21): translation in two stages, reads and writes by virtual address, and the copies between
memory and the Bolt buffers. -/
namespace Sys2Proof.Machine

/-! ## The state beside a transfer -/

/-- The state but for what a transfer of bytes may change: memory, cached translations and the clusters. -/
def State.aside (s : State) : State := { s.beside with atu := [], clusters := [] }

theorem aside_of_beside {s t : State} (h : t.beside = s.beside) : t.aside = s.aside :=
  congrArg (fun u : State => { u with atu := [], clusters := [] }) h

/-- A state reached as the first part of an answer. -/
theorem aside_of_eq {β : Type} {p : State × β} {s t : State} {b : β} (e : p = (t, b)) (h : p.1.aside = s.aside) : t.aside = s.aside := by
  rwa [e] at h

/-- A fold of steps that answer beside the state leaves alone what each step does. -/
theorem foldl_fst_aside {β γ : Type} {f : State × γ → β → State × γ} (h : ∀ p b, (f p b).1.aside = p.1.aside) (l : List β)
    (p : State × γ) : (l.foldl f p).1.aside = p.1.aside := foldl_keeps (fun p : State × γ => p.1.aside) h l p

@[simp] theorem countLine_aside (s : State) (who : Who) (q : MemReq) : (countLine s who q).aside = s.aside := aside_of_beside (countLine_beside ..)
@[simp] theorem svRead_aside (s : State) (r : MemReq) (errs : List Nat) : (svRead s r errs).1.aside = s.aside := aside_of_beside (svRead_beside ..)
@[simp] theorem svWriteFull_aside (s : State) (r : MemReq) (pt : Line) (errs : List Nat) : (svWriteFull s r pt errs).1.aside = s.aside :=
  aside_of_beside (svWriteFull_beside ..)
@[simp] theorem svWritePartial_aside (s : State) (r : MemReq) (mask : BitVec 128) (new : Line) (errs : List Nat) :
    (svWritePartial s r mask new errs).1.aside = s.aside := aside_of_beside (svWritePartial_beside ..)
@[simp] theorem poisonLine_aside (s : State) (m sub line : Nat) : (poisonLine s m sub line).aside = s.aside := aside_of_beside (poisonLine_beside ..)
@[simp] theorem raise_aside (s : State) (src inst detail : Nat) (slice : Option Nat) (inj : Bool) :
    (raise s src inst detail slice inj).aside = s.aside := aside_of_beside (raise_beside ..)

/-! ## Translation (R66 to R70) -/

theorem readSpaLine_beside (s : State) (who : Who) (spa : Nat) (fetch : Bool) : (readSpaLine s who spa fetch).1.beside = s.beside := by
  unfold readSpaLine
  split
  case h_1 e => exact beside_of_eq e (xlat2_beside ..)
  case h_2 e =>
    have ht := beside_of_eq e (xlat2_beside ..)
    split
    case h_1 e | h_2 e | h_3 e => exact (beside_of_eq e (svRead_beside ..)).trans ht

theorem readS1Word_beside (who : Who) (s : State) (spa : Nat) : (readS1Word who s spa).1.beside = s.beside := by
  unfold readS1Word
  split
  case h_1 e | h_2 e => exact beside_of_eq e (readSpaLine_beside ..)

theorem cachedOr_beside (s : State) (cached : Option AtuEnt) (fresh : Acc (Nat × Bool × Bool × Bool)) :
    (cachedOr s cached fresh).1.beside = s.beside := by
  unfold cachedOr
  split
  · rfl
  · split <;> rfl

theorem xlat1_aside (s : State) (who : Who) (va : Nat) (wr fetch hk : Bool) : (xlat1 s who va wr fetch hk).1.aside = s.aside := by
  unfold xlat1
  split
  · rfl
  · split
    · rfl
    · rcases hw : walk (readS1Word who) (2 ^ 44) s1Levels s (ctxOf s who.attr.ctx).root va with ⟨t, walked⟩
      have ht := beside_of_eq hw (walk_beside (readS1Word_beside who) ..)
      have hu (cached : Option AtuEnt) (fresh : Acc (Nat × Bool × Bool × Bool)) : (cachedOr t cached fresh).1.aside = s.aside :=
        aside_of_beside ((cachedOr_beside ..).trans ht)
      dsimp only
      split
      · exact hu ..
      · split <;> exact hu ..

theorem xlat_aside (s : State) (who : Who) (va : Nat) (wr fetch hk : Bool) : (xlat s who va wr fetch hk).1.aside = s.aside := by
  unfold xlat
  split
  case h_1 e => exact aside_of_eq e (xlat1_aside ..)
  case h_2 e => exact (aside_of_beside (xlat2_beside ..)).trans (aside_of_eq e (xlat1_aside ..))

theorem xlatVia_aside (s : State) (who : Who) (via : Via) (a : Nat) (wr fetch : Bool) : (xlatVia s who via a wr fetch).1.aside = s.aside := by
  cases via with
  | va | vaHk => exact xlat_aside ..
  | spa => exact aside_of_beside (xlat2_beside ..)

/-! ## Reads and writes of memory (R27, R297) -/

theorem readPart_aside (s : State) (who : Who) (via : Via) (fetch : Bool) (p : Nat × Nat × Nat) :
    (readPart s who via fetch p).1.aside = s.aside := by
  unfold readPart
  split
  case h_1 e => exact aside_of_eq e (xlatVia_aside ..)
  case h_2 t q e =>
    have ht := (countLine_aside t who q).trans (aside_of_eq e (xlatVia_aside ..))
    split
    case h_1 e | h_2 e | h_3 e => exact (aside_of_eq e (svRead_aside ..)).trans ht

theorem readParts_aside (who : Who) (via : Via) (fetch : Bool) (s : State) (l : List (Nat × Nat × Nat)) :
    (readParts who via fetch s l).1.aside = s.aside := by
  induction l generalizing s with
  | nil => rfl
  | cons p l ih =>
    unfold readParts
    split
    case h_1 e => exact aside_of_eq e (readPart_aside ..)
    case h_2 e =>
      have ht := aside_of_eq e (readPart_aside ..)
      split
      case h_1 e | h_2 e => exact (aside_of_eq e (ih _)).trans ht

@[simp] theorem memRead_aside (s : State) (who : Who) (via : Via) (a n : Nat) : (memRead s who via a n).1.aside = s.aside := readParts_aside ..

@[simp] theorem memNat_aside (s : State) (who : Who) (via : Via) (a n : Nat) : (memNat s who via a n).1.aside = s.aside := by
  unfold memNat
  split
  case h_1 e | h_2 e => exact aside_of_eq e (memRead_aside ..)

theorem writePart_aside (s : State) (who : Who) (via : Via) (p : Nat × Nat × Nat) (bs : List Byte) :
    (writePart s who via p bs).1.aside = s.aside := by
  unfold writePart
  split
  case h_1 e => exact aside_of_eq e (xlatVia_aside ..)
  case h_2 t q e =>
    have ht := (countLine_aside t who q).trans (aside_of_eq e (xlatVia_aside ..))
    dsimp only
    split
    case h_1 e | h_2 e =>
      refine (aside_of_eq e ?_).trans ht
      split <;> simp

theorem writeParts_aside (who : Who) (via : Via) (s : State) (l : List (Nat × Nat × Nat)) (bs : List Byte) :
    (writeParts who via s l bs).1.aside = s.aside := by
  induction l generalizing s bs with
  | nil => rfl
  | cons p l ih => exact (ih ..).trans (writePart_aside ..)

@[simp] theorem memWrite_aside (s : State) (who : Who) (via : Via) (a : Nat) (bs : List Byte) : (memWrite s who via a bs).1.aside = s.aside :=
  writeParts_aside ..

/-! ## Copies (R203, R340, R646) -/

@[simp] theorem boltWrite_aside (s : State) (c a : Nat) (bs : List Byte) : (boltWrite s c a bs).1.aside = s.aside := rfl

@[simp] theorem boltPoison_aside (s : State) (c a n : Nat) : (boltPoison s c a n).aside = s.aside := by
  unfold boltPoison; split <;> rfl

theorem snapMix_aside (c : Nat) (snap : List (Nat × Byte)) (s : State) (a n : Nat) : (snapMix c snap s a n).1.aside = s.aside := by
  induction n generalizing s a with
  | zero => rfl
  | succ n ih =>
    unfold snapMix
    dsimp only
    rw [ih]
    split <;> rfl

@[simp] theorem copyIn_aside (who : Who) (via : Via) (c a : Nat) (s : State) (l : List (Nat × Nat × Nat)) :
    (copyIn who via c a s l).1.aside = s.aside := by
  induction l generalizing s with
  | nil => rfl
  | cons x l ih =>
    refine (ih _).trans (foldl_fst_aside (fun p q => ?_) _ _)
    dsimp only
    split
    case h_1 e => exact (boltWrite_aside ..).trans (aside_of_eq e (readPart_aside ..))
    case h_2 e =>
      have ht := aside_of_eq e (readPart_aside ..)
      split
      · exact (boltPoison_aside ..).trans ht
      · exact ht

@[simp] theorem padIn_aside (c a : Nat) (s : State) (pads : List (Nat × Nat)) : (padIn c a s pads).1.aside = s.aside := by
  unfold padIn
  exact foldl_fst_aside (fun _ _ => by rfl) pads (s, false)

theorem writePoisonPart_aside (s : State) (who : Who) (via : Via) (p : Nat × Nat × Nat) : (writePoisonPart s who via p).1.aside = s.aside := by
  unfold writePoisonPart
  split
  case h_1 e => exact aside_of_eq e (xlatVia_aside ..)
  case h_2 t q e =>
    have ht := (countLine_aside t who q).trans (aside_of_eq e (xlatVia_aside ..))
    split
    case h_1 e => exact (aside_of_eq e (svWriteFull_aside ..)).trans ht
    case h_2 e => exact (poisonLine_aside ..).trans ((aside_of_eq e (svWriteFull_aside ..)).trans ht)

theorem outPart_aside (who : Who) (via : Via) (cut : Bool) (s : State) (p : Nat × Nat × Nat) (bs : List Byte) (bad : Bool) :
    (outPart who via cut s p bs bad).1.aside = s.aside := by
  unfold outPart
  rcases hd : (if cut then drawBool s else (s, false) : State × Bool) with ⟨t, skip⟩
  have ht : t.aside = s.aside := aside_of_eq hd (by split <;> rfl)
  dsimp only
  split
  · exact ht
  · split
    · split
      case h_1 e | h_2 e => exact (aside_of_eq e (writePoisonPart_aside ..)).trans ht
    · split
      case h_1 e | h_2 e => exact (aside_of_eq e (writePart_aside ..)).trans ht

@[simp] theorem copyOut_aside (who : Who) (via : Via) (c a : Nat) (snap : List (Nat × Byte)) (cut : Bool) (s : State)
    (l : List (Nat × Nat × Nat)) : (copyOut who via c a snap cut s l).1.aside = s.aside := by
  induction l generalizing s with
  | nil => rfl
  | cons x l ih =>
    refine (ih _).trans (foldl_fst_aside (fun p q => ?_) _ _)
    refine (outPart_aside ..).trans ((snapMix_aside ..).trans ?_)
    split <;> simp

@[simp] theorem writeChunks_aside (who : Who) (via : Via) (cut : Bool) (s : State) (l : List (Nat × List Byte)) :
    (writeChunks who via cut s l).1.aside = s.aside := by
  induction l generalizing s with
  | nil => rfl
  | cons x l ih => exact (ih _).trans (foldl_fst_aside (fun p q => by exact outPart_aside ..) _ _)

/-! ## Bitmap images (R117, R198) -/

theorem fibreLen_aside {rd : State → Nat → State × Acc Nat} (hrd : ∀ s a, (rd s a).1.aside = s.aside) (w n : Nat) (s : State) (a : Nat) :
    (fibreLen rd w n s a).1.aside = s.aside := by
  induction n generalizing s a with
  | zero => rfl
  | succ n ih =>
    unfold fibreLen
    split
    case h_1 e => exact aside_of_eq e (hrd ..)
    case h_2 e => exact (ih ..).trans (aside_of_eq e (hrd ..))

theorem poisonRest_aside (s : State) (c at' pos a n code : Nat) : (poisonRest s c at' pos a n code).aside = s.aside := by
  unfold poisonRest; split <;> simp

@[simp] theorem bitmapIn_aside (who : Who) (t : Tensor) (w : Win) (c a limit : Nat) (s : State) (n r pos : Nat) :
    (bitmapIn who t w c a limit s n r pos).1.aside = s.aside := by
  induction n generalizing s r pos with
  | zero => rfl
  | succ n ih =>
    unfold bitmapIn
    dsimp only
    split
    case h_1 e => exact (poisonRest_aside ..).trans (aside_of_eq e (memNat_aside ..))
    case h_2 u off e =>
      rcases hf : fibreLen (fun s a => memNat s { who with counted := true } .va a 16) (fmtWidth t.fmt) (blocksOfK t.cols) u
        (t.base + 16 * off) with ⟨v, len, e0⟩
      have hv := (aside_of_eq hf (fibreLen_aside (fun _ _ => memNat_aside ..) ..)).trans (aside_of_eq e (memNat_aside ..))
      have hcopy := (copyIn_aside { who with counted := false } .va c a v [(t.base + 16 * off, pos, len)]).trans hv
      dsimp only
      split
      · exact hv
      · cases e0 with
        | some code => exact (poisonRest_aside ..).trans hcopy
        | none => exact (ih ..).trans hcopy

@[simp] theorem bitmapOut_aside (who : Who) (t : Tensor) (w : Win) (c a limit : Nat) (snap : List (Nat × Byte)) (cut : Bool) (s : State)
    (n r : Nat) : (bitmapOut who t w c a limit snap cut s n r).1.aside = s.aside := by
  induction n generalizing s r with
  | zero => rfl
  | succ n ih =>
    unfold bitmapOut
    dsimp only
    split
    · rfl
    · exact (ih ..).trans ((copyOut_aside ..).trans (copyOut_aside ..))

/-! ## Operations (R190, R203 to R206, R239) -/

/-- Moving the bytes of a transfer leaves the state aside from memory and the Bolt buffers alone. -/
@[simp] theorem moveAsync_aside (s : State) (a : AsyncOp) : (moveAsync s a).1.aside = s.aside := by
  unfold moveAsync
  dsimp only
  repeat' split
  all_goals simp

@[simp] theorem maxAmax_aside (who : Who) (s : State) (a n m : Nat) : (maxAmax who s a n m).1.aside = s.aside := by
  induction n generalizing s a m with
  | zero => rfl
  | succ n ih =>
    unfold maxAmax
    split
    case h_1 e => exact aside_of_eq e (memNat_aside ..)
    case h_2 e => exact (ih ..).trans (aside_of_eq e (memNat_aside ..))

@[simp] theorem moveHupd_aside (s : State) (a : AsyncOp) (rec stats n : Nat) (amax : Option Nat) :
    (moveHupd s a rec stats n amax).1.aside = s.aside := by
  unfold moveHupd
  dsimp only
  split
  case h_1 e => exact aside_of_eq e (by cases amax <;> simp)
  case h_2 t m e =>
    have ht : t.aside = s.aside := aside_of_eq e (by cases amax <;> simp)
    split
    case h_1 e => exact (aside_of_eq e (memRead_aside ..)).trans ht
    case h_2 e =>
      refine (memWrite_aside ..).trans (Eq.trans ?_ ((aside_of_eq e (memRead_aside ..)).trans ht))
      split <;> rfl

theorem moveOne_aside (s : State) (a : AsyncOp) : (moveOne s a).1.aside = s.aside := by
  unfold moveOne
  split
  · exact moveHupd_aside ..
  · exact moveAsync_aside ..

end Sys2Proof.Machine
end

section
/-! PROOFS. How operations end (O21): what the end of a program leaves alone, the completion action at its Tally port, and what an operation that
ends leaves of the others. -/
namespace Sys2Proof.Machine

/-! ## What the end of a program leaves alone (R434) -/

/-- What is under way: the state but for what a program that is done changes, and the queues of the Tally ports. -/
def State.underway (s : State) : State × (Nat → List (Nat × List TOp)) :=
  ({ s with tally := [], hports := [], out := [], rings := [], queues := [], ctxs := [] }, fun h => (tallyOf s h).queues)

@[simp] theorem modHport_underway (s : State) (p : Nat) (f : HPort → HPort) : (modHport s p f).underway = s.underway := rfl
@[simp] theorem modRing_underway (s : State) (p : Nat) (f : PortRing → PortRing) : (modRing s p f).underway = s.underway := rfl
@[simp] theorem modCtx_underway (s : State) (c : Nat) (f : Ctx → Ctx) : (modCtx s c f).underway = s.underway := rfl

@[simp] theorem wakeHalf_underway (s : State) (h : Nat) : (wakeHalf s h).underway = s.underway := by
  unfold wakeHalf
  split
  · refine Prod.ext rfl (funext fun k => ?_)
    by_cases hk : k = h
    · subst hk
      exact (congrArg Tally.queues (tallyOf_modTally s k _) :)
    · exact (congrArg Tally.queues (tallyOf_modTally_ne s _ hk) :)
  · rfl

@[simp] theorem drainOut_underway (s : State) (p : Nat) : (drainOut s p).underway = s.underway := by
  unfold drainOut; split <;> rfl

@[simp] theorem pushOut_underway (s : State) (p : Nat) (xs : List OutItem) : (pushOut s p xs).underway = s.underway := by
  unfold pushOut; split <;> simp

@[simp] theorem hostPost_underway (s : State) (p addr : Nat) (bs : List Byte) : (hostPost s p addr bs).underway = s.underway := pushOut_underway ..
@[simp] theorem hostEvent_underway (s : State) (p vec : Nat) : (hostEvent s p vec).underway = s.underway := pushOut_underway ..

@[simp] theorem ringFetch_underway (s : State) (p : Nat) : (ringFetch s p).underway = s.underway := by
  unfold ringFetch
  dsimp only
  split
  · exact pushOut_underway ..
  · rfl

@[simp] theorem writeStatus_underway (s : State) (a : StatusAt) (code result : Nat) : (writeStatus s a code result).underway = s.underway := by
  unfold writeStatus
  simp only [apply_ite State.underway, modRing_underway, hostEvent_underway, hostPost_underway, ite_self]

@[simp] theorem finishRing_underway (s : State) (n : Nat) (r : RingId) : (finishRing s n r).underway = s.underway := by
  cases r with
  | queue q => rfl
  | port p => exact ringFetch_underway _ p

@[simp] theorem checkDone_underway (s : State) (c : Nat) : (checkDone s c).underway = s.underway := by
  unfold checkDone
  dsimp only
  repeat' split
  all_goals simp

/-! ## The completion action (R190, R216, R267) -/

/-- The operation that adds 1 to pool word `j` for engine `e` and its context, with its ticket. -/
def doneAdd (e ctx gen j ticket : Nat) : TOp := ⟨.add, poolBase + 8 * j, 1, e, ctx, .action e ctx gen, ticket⟩

/-- A completion action puts one ADD at the end of the port that its half names, and leaves every other queue alone. -/
theorem queues_wordAction (s : State) (port : Nat → Nat) (e ctx gen : Nat) (w : Option (Nat × Nat)) (h p : Nat) :
    mget [] (tallyOf (wordAction s port e ctx gen w) h).queues p = mget [] (tallyOf s h).queues p ++ (match w with
      | some (k, j) => if k = h ∧ p = port h then [doneAdd e ctx gen j s.fresh] else []
      | none => []) := by
  rcases w with _ | ⟨k, j⟩
  · exact (List.append_nil _).symm
  let add := fun t : Tally => { t with queues := mmod [] t.queues (port k) fun q => q ++ [doneAdd e ctx gen j s.fresh] }
  change mget [] (tallyOf (modTally s k add) h).queues p = _
  by_cases hk : k = h
  · subst hk
    rw [tallyOf_modTally]
    by_cases hp : p = port k
    · simp [add, hp]
    · simp [add, hp, mget_mmod_other _ _ _ hp]
  · rw [tallyOf_modTally_ne s add (Ne.symm hk)]
    simp [hk]

/-! ## The end of an operation (R190, R434) -/

/-- The error that returns to a context for an operation of engine `e`, if there is one. -/
def returnedErr (e ctx gen : Nat) : Option Nat → List ReqErr
  | some c => [⟨ctx, gen, e, codeKey c, c / 65536⟩]
  | none => []

/-- An operation of engine `e` for a context ends: its completion action, its error to the context, and a program that is done. -/
def concluded (s : State) (port : Nat → Nat) (e ctx gen : Nat) (w : Option (Nat × Nat)) (err : Option Nat) : State :=
  let s := wordAction s port e ctx gen w
  let s := match err with
    | some c => pushErr s ctx gen e c
    | none => s
  if (ctxOf s ctx).gen = gen then checkDone s ctx else s

/-- The error with which an operation ends, where `err` is that of its last bytes. -/
def AsyncOp.ended (a : AsyncOp) (err : Option Nat) : Option Nat := if a.err.isSome then a.err else if a.soft.isSome then a.soft else err

theorem finishVia_concluded (s : State) (a : AsyncOp) (port : Nat → Nat) (err : Option Nat) :
    finishVia s a port err = concluded (dropAsync s a.id) port a.eng a.ctx a.gen a.word (a.ended err) := rfl

section
variable (s : State) (port : Nat → Nat) (e ctx gen : Nat) (w : Option (Nat × Nat)) (err : Option Nat)

theorem concluded_underway : (concluded s port e ctx gen w err).underway =
    ({ wordAction s port e ctx gen w with
        reqErrs := (wordAction s port e ctx gen w).reqErrs ++ returnedErr e ctx gen err } : State).underway := by
  have hdone (u : State) : (if (ctxOf u ctx).gen = gen then checkDone u ctx else u).underway = u.underway := by
    split <;> simp
  cases err with
  | none => exact (hdone _).trans (by simp [returnedErr])
  | some c => exact hdone _

@[simp] theorem concluded_asyncs : (concluded s port e ctx gen w err).asyncs = s.asyncs := by
  have h := congrArg (fun x => x.1.asyncs) (concluded_underway s port e ctx gen w err)
  cases w <;> exact h

@[simp] theorem concluded_clusters : (concluded s port e ctx gen w err).clusters = s.clusters := by
  have h := congrArg (fun x => x.1.clusters) (concluded_underway s port e ctx gen w err)
  cases w <;> exact h

@[simp] theorem clear_concluded : clear (concluded s port e ctx gen w err) = clear s := by
  have h := congrArg (fun x => x.1.sv) (concluded_underway s port e ctx gen w err)
  cases w <;> exact clear_eq_of_sv h

/-- The error of an operation joins the errors that wait. -/
theorem concluded_reqErrs : (concluded s port e ctx gen w err).reqErrs = s.reqErrs ++ returnedErr e ctx gen err := by
  have h := congrArg (fun x => x.1.reqErrs) (concluded_underway s port e ctx gen w err)
  cases w <;> exact h

/-- The Tally ports' queues are as before but for the completion action. -/
theorem queues_concluded (h p : Nat) : mget [] (tallyOf (concluded s port e ctx gen w err) h).queues p =
    mget [] (tallyOf s h).queues p ++ (match w with
      | some (k, j) => if k = h ∧ p = port h then [doneAdd e ctx gen j s.fresh] else []
      | none => []) := by
  have hq := congrArg (fun x => x.2 h) (concluded_underway s port e ctx gen w err)
  exact (congrArg (fun q => mget [] q p) hq).trans (queues_wordAction s port e ctx gen w h p)

end

/-! ## An asynchronous operation ends (R190, R267) -/

@[simp] theorem finishVia_asyncs (s : State) (a : AsyncOp) (port : Nat → Nat) (err : Option Nat) :
    (finishVia s a port err).asyncs = s.asyncs.filter fun x => x.id ≠ a.id := by
  rw [finishVia_concluded, concluded_asyncs]
  rfl

@[simp] theorem clear_finishVia (s : State) (a : AsyncOp) (port : Nat → Nat) (err : Option Nat) : clear (finishVia s a port err) = clear s := by
  rw [finishVia_concluded, clear_concluded]
  rfl

/-- The completion action stands last at its port. -/
theorem queues_finishVia {s : State} {a : AsyncOp} {h j : Nat} (hw : a.word = some (h, j)) (port : Nat → Nat) (err : Option Nat) :
    ∃ q n, mget [] (tallyOf (finishVia s a port err) h).queues (port h) = q ++ [doneAdd a.eng a.ctx a.gen j n] := by
  refine ⟨mget [] (tallyOf s h).queues (port h), s.fresh, ?_⟩
  rw [finishVia_concluded, queues_concluded, hw]
  simp only [and_self, if_true]
  rfl

@[simp] theorem finishAsync_asyncs (s : State) (a : AsyncOp) (err : Option Nat) :
    (finishAsync s a err).asyncs = s.asyncs.filter fun x => x.id ≠ a.id := finishVia_asyncs ..

/-! ## Operations in issue order (R191) -/

/-- The outstanding operations in issue order: each one's number, and whether it is still queued. -/
def issueOrder (s : State) : List (Nat × Bool) := s.asyncs.map fun x => (x.id, x.queued)

theorem issueOrder_of_aside {s t : State} (h : t.aside = s.aside) : issueOrder t = issueOrder s := (congrArg issueOrder h :)

/-- A change of the operations that leaves each its number and its place in the queue. -/
theorem issueOrder_map (s : State) {f : AsyncOp → AsyncOp} (h : ∀ x, ((f x).id, (f x).queued) = (x.id, x.queued)) :
    issueOrder { s with asyncs := s.asyncs.map f } = issueOrder s := by
  simp only [issueOrder, List.map_map, Function.comp_def, h]

@[simp] theorem issueOrder_moveList (s : State) (as : List AsyncOp) : issueOrder (moveList s as) = issueOrder s := by
  refine foldl_keeps issueOrder (fun t a => ?_) as s
  split
  · rfl
  · refine (issueOrder_map _ fun x => ?_).trans (issueOrder_of_aside (moveOne_aside t a))
    split <;> rfl

@[simp] theorem issueOrder_readStats (s : State) (id : Nat) : issueOrder (readStats s id) = issueOrder s := by
  unfold readStats
  split
  · rfl
  · split
    · refine (issueOrder_map _ fun x => ?_).trans (issueOrder_of_aside (maxAmax_aside ..))
      split
      · rfl
      · split <;> rfl
    · rfl

@[simp] theorem issueOrder_enterFabric (s : State) (e : Nat) : issueOrder (enterFabric s e) = issueOrder s :=
  foldl_keeps issueOrder (fun t (a : AsyncOp) => issueOrder_readStats t a.id) _ s

/-- The numbers of the operations that stay where one leaves. -/
theorem ids_filter (l : List AsyncOp) (id : Nat) :
    (l.filter fun x => x.id ≠ id).map (fun x => x.id) = (l.map fun x => x.id).filter (· ≠ id) := by
  simp [List.filter_map, Function.comp_def]

end Sys2Proof.Machine
end

section
/-! PROOFS. Shuttle and asynchronous operations complete (O21): the start and the end of a cluster's operation, the end of an asynchronous
operation, and the oldest prefetch leaving its queue. -/
namespace Sys2Proof.Machine

/-! ## Shuttle starts an operation (R148, R247) -/

/-- An operation that has started: the Bolt ranges it writes, the bytes that were there, and its error. -/
def ShOp.begun (x : ShOp) (past : List (Nat × Byte)) (r : ShRun) : ShOp :=
  { x with started := true, wrote := r.2.1, past := past, err := r.2.2 }

/-- What starting the operation `o` of cluster `c` in `v` leaves: what running it leaves, with `o` marked started. -/
def begunIn (v : State) (c : Nat) (o : ShOp) : State :=
  modCl (runShuttle v o).1 c fun k => { k with shuttle := k.shuttle.map fun x => if x.id = o.id then x.begun (clOf v c).bolt (runShuttle v o) else x }

theorem startShuttle_begunIn (v : State) (c : Nat) (o : ShOp) : startShuttle v c o = begunIn v c o := rfl

section
variable {c : Nat} {o : ShOp} {rest : List ShOp} {s : State} (hc : c < s.cfg.clusters) (hq : (clOf s c).shuttle = o :: rest)
  (hnew : o.started = false) (hruns : blockRuns s = true) (hfence : s.fc.clFenced.contains c = false) (hblock : s.fc.blockSafe = false)
  (hsafe : ∀ h ∈ s.fc.safe, ¬ (h.2.1 = 2 ∧ h.2.2 = c)) (hbw : bwWaits s (engWho s o.eng o.ctx o.gen o.bwclass).attr = false)
include hc hq hnew hruns hfence hblock hsafe hbw

/-- Where the oldest operation of a cluster may start and reads no view, START is that operation's run. -/
theorem execShuttleOperationStart_plain (hview : o.view = none) :
    execShuttleOperationStart c s = settle (begunIn (logicAccess s 4 c 0) c o) := by
  have hsafe : (s.fc.safe.any fun h => h.2.1 = 2 && h.2.2 = c) = false := List.any_eq_false.mpr fun h hh => by simpa using hsafe h hh
  unfold execShuttleOperationStart unitRes guardRes
  simp only [hq, hc, hnew, hruns, hfence, hblock, hsafe, hbw, hview, startShuttle_begunIn, decide_true, Bool.not_false, Bool.and_self, if_true]

/-- Where its view reads good, the run follows the read, and the ROUTE retires. -/
theorem execShuttleOperationStart_view {w : Word} {v : State} (hview : o.view = some w)
    (hv : v = (spadChecked (logicAccess s 4 c 0) o.eng (viewOf w).base (viewOf w).extent).1)
    (hgood : (spadChecked (logicAccess s 4 c 0) o.eng (viewOf w).base (viewOf w).extent).2 = false) :
    execShuttleOperationStart c s = settle (setPc (begunIn v c o) o.eng ((engOf (begunIn v c o) o.eng).pc + 16)) := by
  subst hv
  have hsafe : (s.fc.safe.any fun h => h.2.1 = 2 && h.2.2 = c) = false := List.any_eq_false.mpr fun h hh => by simpa using hsafe h hh
  unfold execShuttleOperationStart unitRes guardRes
  simp only [hq, hc, hnew, hruns, hfence, hblock, hsafe, hbw, hview, hgood, startShuttle_begunIn, decide_true, Bool.not_false, Bool.and_self,
    Bool.false_eq_true, if_true, if_false]

end

/-- The marked operation is all that differs, in the clusters, from what the run left. -/
theorem begunIn_frame (v : State) (c : Nat) (o : ShOp) :
    (clOf (begunIn v c o) c).shuttle = ((clOf (runShuttle v o).1 c).shuttle.map fun x =>
        if x.id = o.id then x.begun (clOf v c).bolt (runShuttle v o) else x) ∧
      { clOf (begunIn v c o) c with shuttle := (clOf (runShuttle v o).1 c).shuttle } = clOf (runShuttle v o).1 c ∧
      ∀ k, k ≠ c → clOf (begunIn v c o) k = clOf (runShuttle v o).1 k := by
  refine ⟨?_, ?_, fun k hk => clOf_modCl_ne _ _ hk⟩ <;> rw [begunIn, clOf_modCl]

/-! ## Shuttle completes an operation (R145, R190, R243) -/

/-- A reservation returned changes a budget only. -/
theorem returnReservation_frame (s : State) (a : AsyncOp) : ∃ bw, returnReservation s a = { s with bw := bw } := by
  unfold returnReservation modBwMaster
  split
  · exact ⟨s.bw, rfl⟩
  · split <;> exact ⟨_, rfl⟩

theorem foldl_returnReservation_frame (l : List AsyncOp) (s : State) : ∃ bw, l.foldl returnReservation s = { s with bw := bw } := by
  induction l generalizing s with
  | nil => exact ⟨s.bw, rfl⟩
  | cons a l ih =>
    obtain ⟨bw, ha⟩ := returnReservation_frame s a
    obtain ⟨bw', hl⟩ := ih (returnReservation s a)
    exact ⟨bw', by rw [List.foldl_cons, hl, ha]⟩

/-- Releasing the reservations for empty experts changes only budgets and the operations. -/
theorem releaseZero_frame (s : State) (o : ShOp) : ∃ bw as, releaseZero s o = { s with bw := bw, asyncs := as } := by
  unfold releaseZero
  split
  · exact ⟨s.bw, s.asyncs, rfl⟩
  · dsimp only
    obtain ⟨bw, h⟩ := foldl_returnReservation_frame _ s
    rw [h]
    exact ⟨_, _, rfl⟩

/-- COMPLETE ends the operation that has started, with the queue behind it, and with budgets and reservations as they may be. -/
theorem execShuttleOperationComplete_started {c : Nat} {o : ShOp} {rest : List ShOp} {s : State} (hc : c < s.cfg.clusters)
    (hq : (clOf s c).shuttle = o :: rest) (hstarted : o.started = true) : ∃ bw as, execShuttleOperationComplete c s =
      settle (concluded { modCl s c fun k => { k with shuttle := rest } with bw := bw, asyncs := as } (fun h => engPort s.cfg h o.eng)
        o.eng o.ctx o.gen o.word o.err) := by
  have hrelease : ∃ bw as, (if o.op = 0xE1 && o.err.isNone then releaseZero (modCl s c fun k => { k with shuttle := rest }) o
      else modCl s c fun k => { k with shuttle := rest }) =
        ({ modCl s c fun k => { k with shuttle := rest } with bw := bw, asyncs := as } : State) := by
    split
    · exact releaseZero_frame _ o
    · exact ⟨s.bw, s.asyncs, rfl⟩
  obtain ⟨bw, as, h⟩ := hrelease
  refine ⟨bw, as, ?_⟩
  unfold execShuttleOperationComplete unitRes guardRes
  simp only [hq, hc, hstarted, h, decide_true, if_true]
  rfl

/-! ## An asynchronous operation completes (R190, R192, R357) -/

/-- A link operation completes through the port that its stream used last. -/
theorem execAsyncOperationComplete_link {a : AsyncOp} {s : State} (hfind : (s.asyncs.find? fun x => x.id = a.id) = some a)
    (hqueued : a.queued = false) (hruns : blockRuns s = true) (hlink : (opLink a.kind).isSome = true) (hdone : linkComplete s a = true) :
    execAsyncOperationComplete a.id s = settle (finishVia (linkForget s a.id) a (linkDonePort s a) none) := by
  unfold execAsyncOperationComplete guardRes
  simp only [hfind, hqueued, hruns, hdone, Bool.not_true, Bool.or_self, Bool.false_eq_true, if_false, if_true]
  cases hk : a.kind
  case lput | lputm | lred | lget => rfl
  all_goals simp [hk, opLink] at hlink

/-- Any other operation moves its bytes, where its engine's requests wait neither for their queue nor for a window. -/
theorem execAsyncOperationComplete_transfer {a : AsyncOp} {s : State} (hfind : (s.asyncs.find? fun x => x.id = a.id) = some a)
    (hqueued : a.queued = false) (hruns : blockRuns s = true) (hlink : (opLink a.kind).isSome = false)
    (hfirst : ∀ x ∈ s.asyncs.takeWhile (fun x => x.id ≠ a.id), ¬ (x.eng = a.eng ∧ x.queued = true))
    (hbw : bwWaits s (engWho s a.eng a.ctx a.gen a.bwclass).attr = false) :
    execAsyncOperationComplete a.id s = settle (completeMove s a) := by
  have hfirst : ((s.asyncs.takeWhile fun x => x.id ≠ a.id).any fun x => x.eng = a.eng && x.queued) = false :=
    List.any_eq_false.mpr fun x hx => by simpa using hfirst x hx
  unfold execAsyncOperationComplete guardRes
  simp only [hfind, hqueued, hruns, hfirst, hbw, Bool.not_true, Bool.not_false, Bool.or_self, Bool.and_self, Bool.false_eq_true, if_false, if_true]
  cases hk : a.kind
  case lput | lputm | lred | lget => simp [hk, opLink] at hlink
  all_goals rfl

/-- The operations that stay where a transfer completes. -/
theorem completeMove_ids (s : State) (a : AsyncOp) :
    (completeMove s a).asyncs.map (fun x => x.id) = (s.asyncs.filter fun x => x.id ≠ a.id).map fun x => x.id := by
  unfold completeMove
  dsimp only
  rw [finishAsync_asyncs, ids_filter, ids_filter]
  have h (as : List AsyncOp) := congrArg (List.map Prod.fst) (issueOrder_moveList s as)
  simp only [issueOrder, List.map_map, Function.comp_def] at h
  rw [h]

/-- The completion action of a transfer goes through its engine's port. -/
theorem queues_completeMove {s : State} {a : AsyncOp} {h j : Nat} (hw : a.word = some (h, j)) : ∃ q n,
    mget [] (tallyOf (completeMove s a) h).queues (engPort s.cfg h a.eng) = q ++ [doneAdd a.eng a.ctx a.gen j n] := by
  unfold completeMove finishAsync
  dsimp only
  generalize hm : before _ _ = as
  have hcfg : (moveList s as).cfg = s.cfg := congrArg Prod.fst (moveList_fixed s as)
  rw [← hcfg]
  exact queues_finishVia hw (fun h => engPort (moveList s as).cfg h a.eng) _

/-! ## The oldest prefetch leaves its queue (R144) -/

/-- Operation `id` is queued no more. -/
def unqueued (id : Nat) (s : State) : State :=
  { s with asyncs := s.asyncs.map fun x => if x.id = id then { x with queued := false } else x }

theorem raise_asyncs (s : State) (src inst detail : Nat) (slice : Option Nat) (inj : Bool) :
    (raise s src inst detail slice inj).asyncs = s.asyncs := (congrArg State.asyncs (raise_aside s src inst detail slice inj) :)

theorem checkedAccess_asyncs (s : State) (target c pos : Nat) : (checkedAccess s target c pos).1.asyncs = s.asyncs := by
  unfold checkedAccess
  dsimp only
  split
  · exact raise_asyncs ..
  · rfl

theorem boltChecked_asyncs (s : State) (c a n : Nat) : (boltChecked s c a n).1.asyncs = s.asyncs := by
  unfold boltChecked
  dsimp only
  split
  · exact (raise_asyncs ..).trans (checkedAccess_asyncs ..)
  · exact checkedAccess_asyncs ..

theorem boltSeen_asyncs (s : State) (c ctx gen o a m : Nat) : (boltSeen s c ctx gen o a m).1.asyncs = s.asyncs := by
  obtain ⟨n, bs, h, -⟩ := boltSeen_sees s c ctx gen o a m
  rw [h]

theorem returnReservation_asyncs (s : State) (a : AsyncOp) : (returnReservation s a).asyncs = s.asyncs := by
  obtain ⟨bw, h⟩ := returnReservation_frame s a
  rw [h]

section
variable {e : Nat} {a : AsyncOp} {s : State} (he : s.cfg.hasEngine e = true) (hfind : (s.asyncs.find? fun x => x.eng = e && x.queued) = some a)
include he hfind

/-- Without a condition it enters the fabric. -/
theorem execPrefetchDequeue_plain {d : BitVec 256} {m : Nat} {org : Word} {r c : Nat} {part : Bool} (hk : a.kind = .pref d m org r c part none) :
    execPrefetchDequeue e s = settle (enterFabric (unqueued a.id s) e) := by
  unfold execPrefetchDequeue unitRes guardRes
  simp only [hfind, he, hk, if_true]
  rfl

/-- With a condition whose word reads good, it enters the fabric or completes. -/
theorem execPrefetchDequeue_bound {d : BitVec 256} {m : Nat} {org : Word} {r c : Nat} {part mask : Bool} {cbit coff p : Nat}
    (hk : a.kind = .pref d m org r c part (some (mask, cbit, coff))) (hp : boltAt s (e / 4) a.ctx a.gen coff (condBytes mask) = some p)
    (hgood : (boltChecked s (e / 4) p (condBytes mask)).2 = false) {v : State × List Byte}
    (hv : v = boltSeen (boltChecked s (e / 4) p (condBytes mask)).1 (e / 4) a.ctx a.gen coff p (condBytes mask)) :
    execPrefetchDequeue e s =
      settle (enterFabric (if condTrue v.2 mask cbit then unqueued a.id v.1 else finishAsync (returnReservation v.1 a) a none) e) := by
  subst hv
  unfold execPrefetchDequeue unitRes guardRes
  simp only [hfind, he, hk, hp, hgood, Bool.false_eq_true, if_false, if_true]
  rfl

end

/-- Settles O21: START is the oldest operation's run with its mark; the end of an operation is `concluded` for Shuttle's and for the others;
a prefetch that leaves its queue keeps every operation's number and place. -/
theorem shuttleAndAsynchronousOperationsComplete : Obligations.ShuttleAndAsynchronousOperationsComplete := by
  unfold Obligations.ShuttleAndAsynchronousOperationsComplete
  refine ⟨⟨?start, ?complete⟩, ?later⟩
  case' later =>
    intro link
    refine ⟨?async, ?dequeue⟩
  case start =>
    intro c o rest s hc hq hnew hruns hfence hblock hsafe hbw u v hgood r hclear
    obtain ⟨hmark, hcluster, hothers⟩ := begunIn_frame v c o
    cases hview : o.view with
    | none =>
      have hv : v = u := by simp only [v, hview]
      have hexec := execShuttleOperationStart_plain hc hq hnew hruns hfence hblock hsafe hbw hview
      refine Ends.of_settle (i := .shuttleOperationStart c) (t := begunIn v c o) (by rw [hv]; exact hexec) hclear
        ⟨hmark, hcluster, hothers, rfl, fun _ _ => rfl, rfl, fun _ => rfl, fun h => absurd rfl h⟩
    | some w =>
      have hv : v = (spadChecked u o.eng (viewOf w).base (viewOf w).extent).1 := by simp only [v, hview]
      have hexec := execShuttleOperationStart_view hc hq hnew hruns hfence hblock hsafe hbw hview hv (hgood w hview)
      have heng := engineIs_modEng o.eng (fun g => { g with pc := ((engOf r.1 o.eng).pc + 16) % 2 ^ 52 }) (begunIn v c o)
      refine Ends.of_settle (i := .shuttleOperationStart c) hexec hclear
        ⟨hmark, hcluster, hothers, rfl, heng.1.2, congrArg (fun g : Engine => { g with pc := (engOf r.1 o.eng).pc }) heng.2, nofun, fun _ => ?_⟩
      exact congrArg Engine.pc heng.2
  case complete =>
    intro c o rest s hc hq hstarted hclear
    obtain ⟨bw, as, hexec⟩ := execShuttleOperationComplete_started hc hq hstarted
    let left : State := { modCl s c fun k => { k with shuttle := rest } with bw := bw, asyncs := as }
    have hcl (k : Nat) : clOf (concluded left (fun h => engPort s.cfg h o.eng) o.eng o.ctx o.gen o.word o.err) k =
        clOf (modCl s c fun k => { k with shuttle := rest }) k := congrArg (fun m => mget Cluster.zero m k) (concluded_clusters ..)
    refine Ends.of_settle (i := .shuttleOperationComplete c) hexec ((clear_concluded ..).trans hclear)
      ⟨?_, fun k hk => (hcl k).trans (clOf_modCl_ne s _ hk), ?_, ?_, fun h p => ?_⟩
    · rw [hcl, clOf_modCl]
    · rw [hcl, clOf_modCl]
    · exact concluded_reqErrs ..
    · exact queues_concluded left _ o.eng o.ctx o.gen o.word o.err h p
  case async =>
    intro id a s hfind hqueued hruns hlinkDone htransfer
    obtain rfl : a.id = id := by simpa using List.find?_some hfind
    have hkind : link a.kind = (opLink a.kind).isSome := by cases a.kind <;> rfl
    rw [hkind] at hlinkDone htransfer ⊢
    cases hl : (opLink a.kind).isSome with
    | true =>
      obtain ⟨hdone, hclear⟩ := hlinkDone hl
      refine Ends.of_settle (i := .asyncOperationComplete a.id) (execAsyncOperationComplete_link hfind hqueued hruns hl hdone)
        ((clear_finishVia ..).trans hclear) ⟨congrArg (List.map _) (finishVia_asyncs ..), fun _ => finishVia_asyncs .., fun h j hw => ?_⟩
      exact queues_finishVia hw (linkDonePort s a) none
    | false =>
      obtain ⟨hfirst, hbw, hclear⟩ := htransfer hl
      exact Ends.of_settle (i := .asyncOperationComplete a.id) (execAsyncOperationComplete_transfer hfind hqueued hruns hl hfirst hbw) hclear
        ⟨completeMove_ids s a, nofun, fun h j hw => queues_completeMove hw⟩
  case dequeue =>
    intro e a s he hfind out
    refine ⟨fun d m org r c part hk hclear => ?_, ?_⟩
    · exact Ends.of_settle (i := .prefetchDequeue e) (execPrefetchDequeue_plain he hfind hk) hclear ⟨rfl, issueOrder_enterFabric ..⟩
    · intro d m org r c part mask cbit coff p hk hp hgood v
      have hv : v.1.asyncs = s.asyncs := (boltSeen_asyncs ..).trans (boltChecked_asyncs ..)
      have hexec := execPrefetchDequeue_bound he hfind hk hp hgood (rfl : v = _)
      clear_value v
      refine ⟨fun htrue hclear => ?_, fun hfalse hclear => ?_⟩
      · refine Ends.of_settle (i := .prefetchDequeue e) (hexec.trans (congrArg (fun t => settle (enterFabric t e)) (if_pos htrue))) hclear ?_
        refine (issueOrder_enterFabric ..).trans ?_
        simp only [issueOrder, unqueued, out, hv]
      · refine Ends.of_settle (i := .prefetchDequeue e)
          (hexec.trans (congrArg (fun t => settle (enterFabric t e)) (if_neg (by simp [hfalse])))) hclear ?_
        refine (issueOrder_enterFabric ..).trans ?_
        simp only [issueOrder, finishAsync_asyncs, returnReservation_asyncs, hv]

end Sys2Proof.Machine
end

section
/-! PROOFS. Weft instruction words (O60): what each field of a word spelled by a frame reads as, and the table that gives opcodes their
instructions. -/
namespace Sys2Proof

/-! ## The fields of a word (R171) -/

/-- Bit `i` of a frame's word, field by field. -/
theorem getLsbD_frameWord (op : Nat) (f : Frame) (i : Nat) : (frameWord op f).getLsbD i =
    if i < 112 then f.ops.getLsbD i
    else if i < 116 then (BitVec.ofNat 4 f.fclass).getLsbD (i - 112)
    else if i < 119 then (BitVec.ofNat 3 f.preg).getLsbD (i - 116)
    else if i < 120 then (BitVec.ofBool f.pneg).getLsbD (i - 119)
    else (BitVec.ofNat 8 op).getLsbD (i - 120) := by
  unfold frameWord
  change BitVec.getLsbD (w := 8 + (1 + (3 + (4 + 112)))) _ i = _
  simp only [BitVec.getLsbD_append]
  grind

theorem opcodeOf_frameWord (op : Nat) (f : Frame) : opcodeOf (frameWord op f) = op % 256 := by
  have hop : (frameWord op f).extractLsb' 120 8 = BitVec.ofNat 8 op := by
    refine BitVec.eq_of_getLsbD_eq fun i hi => ?_
    rw [BitVec.getLsbD_extractLsb', getLsbD_frameWord]
    grind
  rw [opcodeOf, hop, BitVec.toNat_ofNat]

theorem frameOf_frameWord (op : Nat) {f : Frame} (hp : f.preg < 8) (hc : f.fclass < 16) : frameOf (frameWord op f) = f := by
  have hpneg : (frameWord op f).getLsbD 119 = f.pneg := by rw [getLsbD_frameWord]; simp
  have hpreg : (frameWord op f).extractLsb' 116 3 = BitVec.ofNat 3 f.preg := by
    refine BitVec.eq_of_getLsbD_eq fun i hi => ?_
    rw [BitVec.getLsbD_extractLsb', getLsbD_frameWord]
    grind
  have hfclass : (frameWord op f).extractLsb' 112 4 = BitVec.ofNat 4 f.fclass := by
    refine BitVec.eq_of_getLsbD_eq fun i hi => ?_
    rw [BitVec.getLsbD_extractLsb', getLsbD_frameWord]
    grind
  have hops : (frameWord op f).extractLsb' 0 112 = f.ops := by
    refine BitVec.eq_of_getLsbD_eq fun i hi => ?_
    rw [BitVec.getLsbD_extractLsb', getLsbD_frameWord]
    grind
  rw [frameOf, hpneg, hpreg, hfclass, hops, BitVec.toNat_ofNat, BitVec.toNat_ofNat, Nat.mod_eq_of_lt hp, Nat.mod_eq_of_lt hc]

/-- Every word is spelled by its own fields. -/
theorem frameWord_fields (w : BitVec 128) : frameWord (opcodeOf w) (frameOf w) = w := by
  refine BitVec.eq_of_getLsbD_eq fun i hi => ?_
  rw [getLsbD_frameWord]
  simp only [opcodeOf, frameOf, BitVec.ofNat_toNat, BitVec.setWidth_eq, BitVec.getLsbD_extractLsb', BitVec.getLsbD_ofBool]
  split_ifs with hops hfclass hpreg hpneg
  · simp [hops]
  · simp [show i - 112 < 4 by omega, show 112 + (i - 112) = i by omega]
  · simp [show i - 116 < 3 by omega, show 116 + (i - 116) = i by omega]
  · simp [show i = 119 by omega]
  · simp [show i - 120 < 8 by omega, show 120 + (i - 120) = i by omega]

/-! ## The opcode table (R172) -/

theorem weftTable_opcodes_nodup : (weftTable.map (·.1)).Nodup := by decide

theorem weftTable_opcode_lt : ∀ r ∈ weftTable, r.1 < 256 := by
  have h : ∀ op ∈ weftTable.map (·.1), op < 256 := by decide
  exact fun r hr => h _ (List.mem_map_of_mem hr)

/-- Of a table with distinct keys, the first entry of a key is the entry. -/
theorem find?_of_nodup_keys {α : Type} {l : List (Nat × α)} (hl : (l.map (·.1)).Nodup) {r : Nat × α} (hr : r ∈ l) :
    (l.find? fun x => x.1 = r.1) = some r := by
  have hsome : (l.find? fun x => x.1 = r.1).isSome = true := List.find?_isSome.mpr ⟨r, hr, by simp⟩
  obtain ⟨y, hy⟩ := Option.isSome_iff_exists.mp hsome
  have hkey : y.1 = r.1 := by simpa using List.find?_some hy
  rw [hy, List.inj_on_of_nodup_map hl (List.mem_of_find?_eq_some hy) hr hkey]

/-- The word of a table row decodes to the row's instruction. -/
theorem decodeWeft_frameWord {r : Nat × (Nat → Frame → Instr)} (hr : r ∈ weftTable) (e : Nat) {f : Frame} (hp : f.preg < 8)
    (hc : f.fclass < 16) : decodeWeft e (frameWord r.1 f) = some (r.2 e f) := by
  rw [decodeWeft, opcodeOf_frameWord, Nat.mod_eq_of_lt (weftTable_opcode_lt r hr), find?_of_nodup_keys weftTable_opcodes_nodup hr,
    Option.map_some, frameOf_frameWord r.1 hp hc]

/-- A word with an opcode of no row decodes to nothing. -/
theorem decodeWeft_unassigned {op : Nat} (hop : op < 256) (h : opcodeAssigned op = false) (e : Nat) (f : Frame) :
    decodeWeft e (frameWord op f) = none := by
  have hnone : (weftTable.find? fun r => r.1 = op) = none := List.find?_eq_none.mpr (List.any_eq_false.mp h)
  rw [decodeWeft, opcodeOf_frameWord, Nat.mod_eq_of_lt hop, hnone, Option.map_none]

/-- Settles O60: the fields of a word are read back (`opcodeOf_frameWord`, `frameOf_frameWord`), and the opcodes of the table are distinct. -/
theorem weftWordsEncodeAndDecode : Obligations.WeftWordsEncodeAndDecode := by
  unfold Obligations.WeftWordsEncodeAndDecode
  exact ⟨fun e _ _ hr hp hc => decodeWeft_frameWord hr e hp hc, fun e _ f hop h => decodeWeft_unassigned hop h e f,
    weftTable_opcodes_nodup, frameWord_fields⟩

end Sys2Proof
end

section
/-! PROOFS. Control instructions (O6 to O8): branches and false predicates, TVIEW, TEND and PEND. -/
namespace Sys2Proof.Machine

/-! ## Where PC goes (R153, R175, R200) -/

/-- A body that does nothing but jump leaves of the engine's record all but PC. -/
theorem ends_branch {i : Instr} {o : OpInfo} {extra : Bool} {e : Nat} {f : Frame} {s : State}
    (hexec : exec i s = issue e f o extra (fun u g => .jump u (BitVec.ofNat 64 g.pc + imm64 f).toNat) s) (hi : issues o extra e f s = true) :
    Ends i s fun t =>
      let u := atIssue o e s
      OnlyEngine e u t ∧ { engOf t e with pc := (engOf u e).pc } = engOf u e ∧
      (engOf t e).pc = (BitVec.ofNat 64 (engOf u e).pc + imm64 f).toNat % 2 ^ 52 := by
  obtain ⟨honly, hrec⟩ := (engineIs_self e (atIssue o e s)).setPc (BitVec.ofNat 64 (engOf (atIssue o e s) e).pc + imm64 f).toNat
  refine ends_jump hexec hi rfl rfl rfl (clear_atIssue hi) ⟨honly, ?_, ?_⟩
  · rw [hrec]
  · rw [hrec]

/-- Where an instruction is skipped no access waits. -/
theorem clear_atIssue_of_skips {o : OpInfo} {extra : Bool} {e : Nat} {f : Frame} {s : State} (h : skips o extra e f s = true) :
    clear (atIssue o e s) = true := by
  simp only [skips, issuesHere, Bool.and_eq_true] at h
  tauto

/-- An instruction with a false predicate only moves PC, whatever its body is (R175). -/
theorem ends_skips {i : Instr} {o : OpInfo} {extra : Bool} {e : Nat} {f : Frame} {s : State}
    (hexec : ∃ body, exec i s = issue e f o extra body s) (h : skips o extra e f s = true) :
    Ends i s fun t =>
      let u := atIssue o e s
      OnlyEngine e u t ∧ Retired e u t ∧ { engOf t e with pc := (engOf u e).pc } = engOf u e := by
  obtain ⟨body, hexec⟩ := hexec
  obtain ⟨honly, hrec⟩ := (engineIs_self e (atIssue o e s)).setPc ((engOf (atIssue o e s) e).pc + 16)
  refine Ends.of_settle (hexec.trans (skips_issue h)) (clear_atIssue_of_skips h) ⟨honly, ?_, ?_⟩
  · rw [Retired, hrec]
  · rw [hrec]

/-- What O6 says of an instruction with a false predicate. -/
def SkipsBy (o : OpInfo) (i : Nat → Frame → Sys2Proof.Instr) : Prop :=
  ∀ (e : Nat) (f : Frame) (s : State), skips o true e f s = true → Ends (i e f) s fun t =>
    let u := atIssue o e s
    OnlyEngine e u t ∧ Retired e u t ∧ { engOf t e with pc := (engOf u e).pc } = engOf u e

theorem skipsBy_scalar {i : Nat → Frame → Sys2Proof.Instr} {op : Word → Word → Word} (h : ∀ e f s, exec (i e f) s = scalar op e f s) :
    SkipsBy (infoR [.s, .s, .s] []) i := fun e f s => ends_skips ⟨_, h e f s⟩

theorem skipsBy_compare {i : Nat → Frame → Sys2Proof.Instr} {op : Word → Word → Bool} (h : ∀ e f s, exec (i e f) s = compare op e f s) :
    SkipsBy (infoR [.p, .s, .s] []) i := fun e f s => ends_skips ⟨_, h e f s⟩

/-- Settles O6: a branch is a jump (`ends_branch`), and each of the other instructions is issued with its form (`ends_skips`). -/
theorem branchesAndFalsePredicatesMovePc : Obligations.BranchesAndFalsePredicatesMovePc := by
  unfold Obligations.BranchesAndFalsePredicatesMovePc
  refine ⟨?branches, fun p hp => (?skips : SkipsBy p.2 p.1)⟩
  case branches =>
    simp only [List.forall_mem_cons, List.not_mem_nil, IsEmpty.forall_iff, implies_true, and_true]
    exact ⟨fun e f s hi => ends_branch (rfl : execBr e f s = _) hi, fun e f s hi => ends_branch (rfl : execTlink e f s = _) hi⟩
  case skips =>
    revert p
    simp only [List.forall_mem_cons, List.not_mem_nil, IsEmpty.forall_iff, implies_true, and_true]
    exact ⟨skipsBy_scalar fun e f s => (rfl : execSadd e f s = _), skipsBy_scalar fun e f s => (rfl : execSsub e f s = _),
      skipsBy_scalar fun e f s => (rfl : execSmul e f s = _), skipsBy_scalar fun e f s => (rfl : execSand e f s = _),
      skipsBy_scalar fun e f s => (rfl : execSor e f s = _), skipsBy_scalar fun e f s => (rfl : execSxor e f s = _),
      skipsBy_scalar fun e f s => (rfl : execSshl e f s = _), skipsBy_scalar fun e f s => (rfl : execSshr e f s = _),
      skipsBy_scalar fun e f s => (rfl : execSsra e f s = _), skipsBy_compare fun e f s => (rfl : execSeq e f s = _),
      skipsBy_compare fun e f s => (rfl : execSne e f s = _), skipsBy_compare fun e f s => (rfl : execSlt e f s = _),
      skipsBy_compare fun e f s => (rfl : execSltu e f s = _), skipsBy_compare fun e f s => (rfl : execSle e f s = _),
      skipsBy_compare fun e f s => (rfl : execSleu e f s = _), fun e f s => ends_skips ⟨_, (rfl : execSmov e f s = _)⟩,
      fun e f s => ends_skips ⟨_, (rfl : execDsetw e f s = _)⟩, fun e f s => ends_skips ⟨_, (rfl : execDgetw e f s = _)⟩,
      fun e f s => ends_skips ⟨_, (rfl : execPlog e f s = _)⟩, fun e f s => ends_skips ⟨_, (rfl : execRstep e f s = _)⟩,
      fun e f s => ends_skips ⟨_, (rfl : execAstep e f s = _)⟩⟩

/-! ## TVIEW (R161, R200) -/

/-- Settles O7: the value is no view or one that meets its rules, so that TVIEW writes it, and writes nothing else. -/
theorem tviewLoadsAView : Obligations.TviewLoadsAView := by
  unfold Obligations.TviewLoadsAView
  intro e f s hi u v hv
  let load : Engine → Engine := fun h => { h with t := mset 0 h.t (slotOf f 0).2 v }
  have hbody : (if bit v 63 then viewFault (viewOf v) false else none) = none := by
    rcases hv with hv | hv
    · rw [hv]; rfl
    · rw [hv, ite_self]
  refine ends_engineIs (i := .tview e f) (rfl : execTview e f s = _) hi rfl rfl (t := modEng u e load) (h := load (engOf u e)) ?_
    (engineIs_modEng e load u) fun t ⟨honly, hrec⟩ => ⟨honly, ?_, ?_, ?_, fun r => ?_⟩
  · simp only [v, u] at hbody
    simp only [hbody]
    rfl
  · rw [Retired, hrec]
  · rw [hrec]
  · rw [hrec]; exact tileOpen_atIssue rfl e s
  · rw [hrec]
    by_cases hr : r = (slotOf f 0).2
    · subst hr; simp [tGet, load]
    · simp [tGet, load, hr, mget_mset_other]

/-! ## TEND (R152, R154) -/

theorem mget_of_forall_ne {α : Type} {d : α} {m : List (Nat × α)} {k : Nat} (h : ∀ x ∈ m, x.1 ≠ k) : mget d m k = d := by
  induction m with
  | nil => rfl
  | cons x m ih =>
    obtain ⟨hx, hm⟩ := List.forall_mem_cons.mp h
    rw [mget, if_neg hx, ih hm]

/-- What is left of a table in canonical form reads, at each key, as before or as the default. -/
theorem mget_sublist {α : Type} [DecidableEq α] {d : α} {l m : List (Nat × α)} (h : l.Sublist m) (hm : mwf d m = true) (k : Nat) :
    mget d l k = mget d m k ∨ mget d l k = d := by
  induction h with
  | slnil => exact .inl rfl
  | @cons l m x h ih =>
    simp only [mwf, Bool.and_eq_true] at hm
    obtain ⟨⟨habove, -⟩, hm⟩ := hm
    by_cases hx : x.1 = k
    · exact .inr (mget_of_forall_ne fun y hy => hx ▸ ((mabove_iff x.1 m).mp habove y (h.subset hy)).ne')
    · rw [mget, if_neg hx]; exact ih hm
  | @cons_cons l m x h ih =>
    simp only [mwf, Bool.and_eq_true] at hm
    by_cases hx : x.1 = k
    · rw [mget, mget, if_pos hx, if_pos hx]; exact .inl rfl
    · rw [mget, mget, if_neg hx, if_neg hx]; exact ih hm.2

theorem staleSpad_sublist (k : Nat) (m : List (Nat × Byte)) : (staleSpad k m).Sublist m := by
  have h := (List.filter_sublist (p := fun e : (Nat × Byte) × Nat => Config.freeBits 1 (k + e.2) = 1) (l := m.zipIdx)).map Prod.fst
  rwa [List.zipIdx_map_fst] at h

/-! ## PEND (R185, R434) -/

@[simp] theorem checkDone_engines (s : State) (c : Nat) : (checkDone s c).engines = s.engines :=
  (congrArg (fun x => x.1.engines) (checkDone_underway s c) :)

@[simp] theorem checkDone_sched (s : State) (c : Nat) : (checkDone s c).sched = s.sched :=
  (congrArg (fun x => x.1.sched) (checkDone_underway s c) :)

theorem clear_checkDone (s : State) (c : Nat) : clear (checkDone s c) = clear s :=
  clear_eq_of_sv (congrArg (fun x => x.1.sv) (checkDone_underway s c) :)

@[simp] theorem writeStatus_ctxs (s : State) (a : StatusAt) (code result : Nat) : (writeStatus s a code result).ctxs = s.ctxs :=
  (congrArg State.ctxs (writeStatus_besideRings s a code result) :)

@[simp] theorem finishRing_ctxs (s : State) (n : Nat) (r : RingId) : (finishRing s n r).ctxs = s.ctxs := by
  cases r with
  | queue q => rfl
  | port p => exact (congrArg State.ctxs (ringFetch_inward _ p) :)

theorem ctxOf_of_ctxs {s t : State} (h : t.ctxs = s.ctxs) (c : Nat) : ctxOf t c = ctxOf s c := congrArg (mget Ctx.zero · c) h

/-- A program that a context still runs once its end was checked is the one that it ran (R434). -/
theorem checkDone_prog {s : State} {c : Nat} {p : Prog} (h : (ctxOf (checkDone s c) c).prog = some p) : (ctxOf s c).prog = some p := by
  revert h
  unfold checkDone
  dsimp only
  split
  · split
    · intro h
      rw [ctxOf_of_ctxs (finishRing_ctxs ..)] at h
      split at h
      · rw [ctxOf_of_ctxs (writeStatus_ctxs ..), ctxOf_modCtx] at h
        exact nomatch h
      · rw [ctxOf_modCtx] at h
        exact nomatch h
    · exact id
  · exact id

@[simp] theorem ctxOf_dropReady (s : State) (c k : Nat) : ctxOf (dropReady s c) k = ctxOf s k := rfl

/-- What PEND leaves before its program is checked for its end: a switch asked for, the program ended, the context in no order of the ready
(R185). -/
def pended (u : State) (e c : Nat) : State :=
  dropReady (modCtx (modEng u e fun h => { h with switchReq := true, preempt := false, pended := true }) c fun x =>
    { x with prog := x.prog.map fun p => { p with ended := true } }) c

theorem pended_prog {u : State} {e c : Nat} {p : Prog} (h : (ctxOf (pended u e c) c).prog = some p) : p.ended = true := by
  rw [pended, ctxOf_dropReady, ctxOf_modCtx] at h
  obtain ⟨q, -, rfl⟩ := Option.map_eq_some_iff.mp h
  rfl

/-- Settles O8: TEND is `closeTile`, PEND is `pended` with its program checked for its end. -/
theorem tendClosesTheTileAndPendEndsTheProgram : Obligations.TendClosesTheTileAndPendEndsTheProgram := by
  unfold Obligations.TendClosesTheTileAndPendEndsTheProgram
  refine ⟨?tend, ?pend⟩
  case tend =>
    intro e f s hi u hres hspad
    clear_value (hu : u = _)
    have hclear : clear u = true := hu ▸ clear_atIssue hi
    obtain ⟨hrec, hothers, hrest, hasyncs⟩ := (engineIs_self e u).closeTile_apart (m := u.fresh) (u := u) ((engOf u e).pc + 16)
    refine ends_ok (rfl : execTend e f s = _) hi hu rfl (t := closeTile u e) (by simp [hres]) hclear ?_
    generalize setPc (closeTile u e) e _ = t at hrec hothers hrest hasyncs ⊢
    refine ⟨⟨hrest, hothers⟩, hasyncs, by rw [Retired, hrec], by rw [hrec], by rw [hrec], fun r => by rw [hrec]; rfl, fun a => ?_,
      by rw [hrec], by rw [hrec], by rw [hrec], by rw [hrec], by rw [hrec]⟩
    rw [hrec]
    exact mget_sublist (staleSpad_sublist ..) hspad a
  case pend =>
    intro e f s hi u c
    clear_value (hc : c = _) (hu : u = _)
    have hclear : clear u = true := hu ▸ clear_atIssue hi
    have heng (k : Nat) : engOf (checkDone (pended u e c) c) k =
        engOf (modEng u e fun h => { h with switchReq := true, preempt := false, pended := true }) k :=
      congrArg (mget Engine.idle · k) (checkDone_engines ..)
    have hrec := (heng e).trans (engOf_modEng ..)
    have hready : (checkDone (pended u e c) c).sched.ready = u.sched.ready.filter (· ≠ c) := congrArg Sched.ready (checkDone_sched ..)
    refine ends_ok (rfl : execPend e f s = _) hi hu rfl (t := checkDone (pended u e c) c) (hc ▸ rfl)
      ((clear_checkDone ..).trans hclear) ⟨?_, ?_, ?_, ?_, fun p hp => pended_prog (checkDone_prog hp), ?_, fun k hk => ?_⟩
    · rw [setPc, engOf_modEng, hrec]
    · rw [setPc, engOf_modEng, hrec]
    · rw [Retired, setPc, engOf_modEng]
    · rw [setPc, engOf_modEng, hrec]
    · rw [setPc, modEng_sched, hready]
      simp
    · rw [setPc, engOf_modEng_ne _ _ hk, heng, engOf_modEng_ne _ _ hk]

end Sys2Proof.Machine
end

section
/-! PROOFS. Faults of an engine (O9): what attaching a code to a fence leaves alone of the contexts, the state in which a LIVE context has been marked
FAULTED, and its fault record. -/
namespace Sys2Proof.Machine

/-! ## What a fence leaves alone of the contexts (R270, R440, R441) -/

/-- A word presented may end the wait in which a context was switched out, and changes nothing else of it. -/
theorem ctxOf_presentWord (s : State) (h off c : Nat) : ∃ w, ctxOf (presentWord s h off) c = { ctxOf s c with waitOn := w } := by
  obtain ⟨wake, hctxs⟩ : ∃ wake : WaitRec → WaitRec, (presentWord s h off).ctxs = s.ctxs.map fun c =>
      (c.1, { c.2 with waitOn := c.2.waitOn.map wake }) := ⟨_, rfl⟩
  refine ⟨(ctxOf s c).waitOn.map wake, ?_⟩
  rw [ctxOf, hctxs]
  exact mget_map Ctx.zero (fun x => { x with waitOn := x.waitOn.map wake }) rfl s.ctxs c

theorem ctxOf_fenceErr (s : State) (f code c : Nat) : ∃ w, ctxOf (fenceErr s f code) c = { ctxOf s c with waitOn := w } := by
  unfold fenceErr
  split
  · exact ⟨(ctxOf s c).waitOn, rfl⟩
  · exact ctxOf_presentWord (modFence s f _) _ _ c

/-! ## A context is marked FAULTED (R180, R437) -/

/-- The error state of queues leaves regions, slices, engines and contexts alone. -/
theorem foldl_queueErr_keeps (code : Nat) (l : List (Nat × Queue)) (s : State) :
    ((l.foldl (fun t q => queueErr t q.1 code) s).standing, (l.foldl (fun t q => queueErr t q.1 code) s).ctxs) = (s.standing, s.ctxs) :=
  foldl_keeps (fun t : State => (t.standing, t.ctxs)) (fun t q => (rfl : ((queueErr t q.1 code).standing, _) = _)) l s

/-- Marking a context FAULTED ends with its code at its fault fence, in a state in which it is FAULTED with that code and the engines are as before. -/
theorem markFaulted_frame (s : State) (c code : Nat) : ∃ u, markFaulted s c code = fenceErr u (ctxOf s c).ffence code ∧
    u.standing = s.standing ∧ (ctxOf u c).state = .faulted ∧ (ctxOf u c).faultCode = code := by
  let marked := modCtx (reportChanged s (ctxOf s c).slice) c fun y =>
    { y with state := .faulted, faultCode := code, prog := y.prog.map fun p => { p with ended := true } }
  obtain ⟨hstanding, hctxs⟩ := Prod.ext_iff.mp (foldl_queueErr_keeps code (queuesOf marked c (ctxOf s c).gen) marked)
  have hctx := (ctxOf_of_ctxs hctxs c).trans (ctxOf_modCtx ..)
  exact ⟨dropReady _ c, rfl, hstanding, congrArg Ctx.state hctx, congrArg Ctx.faultCode hctx⟩

theorem markFaulted_standing (s : State) (c code : Nat) : (markFaulted s c code).standing = s.standing := by
  obtain ⟨u, h, hu, -, -⟩ := markFaulted_frame s c code
  rw [h, fenceErr_standing, hu]

theorem markFaulted_ctx (s : State) (c code : Nat) :
    (ctxOf (markFaulted s c code) c).state = .faulted ∧ (ctxOf (markFaulted s c code) c).faultCode = code := by
  obtain ⟨u, h, -, hstate, hcode⟩ := markFaulted_frame s c code
  obtain ⟨w, hw⟩ := ctxOf_fenceErr u (ctxOf s c).ffence code c
  rw [h, hw]
  exact ⟨hstate, hcode⟩

/-- An engine whose open tile has been abandoned (R180). -/
def Engine.abandoned (g : Engine) : Engine :=
  { g with tileOpen := false, t := [], stats := [], wait := none, pendRes := [], switchReq := true, preempt := false }

/-- Abandoning the tile of a running context changes of the engines only the one that runs it. -/
theorem engOf_abandonTile {s : State} {e c gen : Nat} (h : (engOf s e).ctx = some (c, gen)) (k : Nat) :
    engOf (abandonTile s e c gen) k = engOf (modEng s e Engine.abandoned) k := by
  unfold abandonTile
  rw [if_pos h]
  rfl

/-! ## The fault of a LIVE context (R180, R181) -/

@[simp] theorem length_leBytes (n v : Nat) : (leBytes n v).length = n := by simp [leBytes]

theorem length_faultRecord (code sub merged eng : Nat) (inTile async : Bool) (pc tilePc addr step eclk : Nat) :
    (faultRecord code sub merged eng inTile async pc tilePc addr step eclk).length = 64 := by
  simp [faultRecord]

theorem faultRecord_head (code sub merged eng : Nat) (inTile async : Bool) (pc tilePc addr step eclk : Nat) :
    (faultRecord code sub merged eng inTile async pc tilePc addr step eclk).head? = some (BitVec.ofNat 8 code) := by
  simp [faultRecord, leBytes]

/-- A fault of an engine that runs a LIVE context at its generation abandons the tile, marks the context, and writes the record. -/
theorem engFault_live {s : State} {e c gen code : Nat} (hctx : (engOf s e).ctx = some (c, gen)) (hgen : (ctxOf s c).gen = gen)
    (hlive : (ctxOf s c).state = .live) (hcode : code ≠ 7) : ∃ bs, engFault s e code 0 0 false =
      directRecover (writeFaultRecord (markFaulted (abandonTile (draw s 11).1 e c gen) c (0x100 + code)) e c gen bs 0) c ∧
      bs.length = 64 ∧ bs.head? = some (BitVec.ofNat 8 code) := by
  unfold engFault
  simp only [hctx]
  unfold faultCtx
  simp only [hgen, hlive, faultFenceCode, if_neg hcode, ne_eq, not_true, if_false]
  exact ⟨_, rfl, length_faultRecord .., faultRecord_head ..⟩

/-- The state in which the record is written: the context FAULTED, the tile closed and a switch asked for; the other engines as they were. -/
theorem markFaulted_abandonTile {s : State} {e c gen : Nat} (hctx : (engOf s e).ctx = some (c, gen)) (code : Nat) :
    let v := markFaulted (abandonTile (draw s 11).1 e c gen) c (0x100 + code)
    (ctxOf v c).state = .faulted ∧ (ctxOf v c).faultCode = 0x100 + code ∧ (engOf v e).tileOpen = false ∧ (engOf v e).t = [] ∧
      (engOf v e).switchReq = true ∧ ∀ k, k ≠ e → (engOf v k).s = (engOf s k).s ∧ (engOf v k).pc = (engOf s k).pc := by
  intro v
  obtain ⟨hstate, hcode⟩ := markFaulted_ctx (abandonTile (draw s 11).1 e c gen) c (0x100 + code)
  have heng (k : Nat) : ({ engOf v k with wait := none } : Engine) = { engOf (modEng s e Engine.abandoned) k with wait := none } :=
    (congrFun (congrArg (fun x => x.2.2) (markFaulted_standing ..)) k).trans
      (congrArg (fun g : Engine => { g with wait := none }) (engOf_abandonTile (s := (draw s 11).1) hctx k))
  have hself := heng e
  rw [engOf_modEng] at hself
  refine ⟨hstate, hcode, (congrArg Engine.tileOpen hself :), (congrArg Engine.t hself :), (congrArg Engine.switchReq hself :), fun k hk => ?_⟩
  have hother := heng k
  rw [engOf_modEng_ne _ _ hk] at hother
  exact ⟨(congrArg Engine.s hother :), (congrArg Engine.pc hother :)⟩

/-- Settles O9: each of the three events is a fault of the engine (`engFault_live`), its record written after `markFaulted_abandonTile`. -/
theorem engineFaultsMarkTheContext : Obligations.EngineFaultsMarkTheContext := by
  unfold Obligations.EngineFaultsMarkTheContext
  intro runs after
  have faults {i : Sys2Proof.Instr} {e c gen code : Nat} {s u : State} (hexec : exec i s = unitRes (s.cfg.hasEngine e) s true (engFault u e code 0 0 false))
      (he : s.cfg.hasEngine e = true) (hruns : runs e c gen u) (hcode : code ≠ 7) (hclear : clear (engFault u e code 0 0 false) = true) :
      Ends i s (after e c gen code u) := by
    obtain ⟨hctx, hgen, hlive⟩ := hruns
    obtain ⟨bs, hfault, hlen, hhead⟩ := engFault_live hctx hgen hlive hcode
    exact ⟨_, hexec.trans (unitRes_clear he rfl hclear), _, bs, hfault, hlen, hhead, markFaulted_abandonTile hctx code⟩
  refine ⟨fun e c gen s he hruns hopen hclear => ?_, fun e c gen s he hruns hissue hrange hclear => ?_,
    fun e c gen op s he hissue hrange hop hfree hfetch hruns hclear => ?_⟩
  · refine faults ?_ he hruns (by decide) hclear
    change execTileOverrun e s = _
    rw [execTileOverrun, hopen, hruns.1]
    rfl
  · refine faults ?_ he hruns (by decide) hclear
    change execFetchRange e s = _
    rw [execFetchRange, hissue, hrange]
    rfl
  · refine faults ?_ he hruns (by decide) hclear
    change execIllegalInstruction e op s = _
    rcases hs : fetch s e with ⟨u, r⟩
    obtain rfl : r = none := by rw [hs] at hfetch; exact hfetch
    rw [execIllegalInstruction, hissue, hrange, hfree, decide_eq_true hop, hs]
    rfl

end Sys2Proof.Machine
end

section
/-! PROOFS. The context switch and the end of a quantum (O22): the record of an engine whose context has left it, the requests for latency-critical
steps, and a context placed on an engine. -/
namespace Sys2Proof.Machine

theorem engOf_of_engines {s t : State} (h : t.engines = s.engines) (k : Nat) : engOf t k = engOf s k := congrArg (mget Engine.idle · k) h

/-! ## The engine that a context has left (R183, R184) -/

/-- What the end of a teardown keeps, whatever fences are abandoned. -/
theorem tearAdvance_keeps {γ : Type} (π : State → γ) (hfence : ∀ t f code, π (fenceErr t f code) = π t)
    (hwindows : ∀ (t : State) ws, π { t with windows := ws } = π t) (hctx : ∀ t c f, π (modCtx t c f) = π t) (s : State) (c : Nat) :
    π (tearAdvance s c) = π s := by
  unfold tearAdvance
  dsimp only
  split
  · split
    · rw [hctx, hwindows]
      split
      · rfl
      · refine foldl_keeps π (fun t h => foldl_keeps π (fun t f => ?_) _ t) _ s
        split
        · exact hfence ..
        · rfl
    · rfl
  · rfl

/-- Engine `k` is in a wait. -/
def waiting (k : Nat) (s : State) : Bool := (engOf s k).wait.isSome

/-- A word presented gives a wait its result, which the engine has yet to take (R270). -/
theorem waiting_presentWord (k : Nat) (s : State) (h off : Nat) : waiting k (presentWord s h off) = waiting k s := by
  have hwake := engOf_map_wait (s := s) (t := presentWord s h off) _ rfl k
  exact (congrArg (fun g => g.wait.isSome) hwake).trans Option.isSome_map

theorem waiting_fenceErr (k : Nat) (s : State) (f code : Nat) : waiting k (fenceErr s f code) = waiting k s := by
  unfold fenceErr
  split
  · rfl
  · exact waiting_presentWord ..

theorem waiting_tearAdvance (k : Nat) (s : State) (c : Nat) : waiting k (tearAdvance s c) = waiting k s :=
  tearAdvance_keeps (waiting k) (waiting_fenceErr k) (fun _ _ => rfl) (fun _ _ _ => rfl) s c

@[simp] theorem addReady_engines (s : State) (c : Nat) : (addReady s c).engines = s.engines := by
  unfold addReady addReadyAt
  split <;> rfl

@[simp] theorem modAcc_engines (s : State) (c : Nat) (f : CtxAcc → CtxAcc) : (modAcc s c f).engines = s.engines := rfl
@[simp] theorem modSlSched_engines (s : State) (n : Nat) (f : SlSched → SlSched) : (modSlSched s n f).engines = s.engines := rfl

/-- A context that leaves its engine takes its wait with it. -/
theorem not_waiting_detach {s : State} {e c gen : Nat} (h : (engOf s e).ctx = some (c, gen)) : waiting e (detach s e) = false := by
  have hvacated (u : State) : waiting e (modEng u e fun g => g.vacated u.pclk) = false := by
    rw [waiting, engOf_modEng]
    rfl
  have hsame {u v : State} (h : u.engines = v.engines) : waiting e u = waiting e v := congrArg (fun g => g.wait.isSome) (engOf_of_engines h e)
  unfold detach
  simp only [h]
  generalize (if (ctxOf s c).gen = gen then saveRecord s e c gen else s) = v
  split
  · exact hvacated v
  · rw [waiting_tearAdvance, hsame (checkDone_engines ..)]
    refine (hsame ?_).trans (hvacated v)
    simp only [apply_ite State.engines, modSlSched_engines, modAcc_engines, addReady_engines, modCtx_engines, ite_self]
    rfl

/-- An engine whose context has left it is vacated. -/
theorem engOf_detach {s : State} {e c gen : Nat} (h : (engOf s e).ctx = some (c, gen)) : engOf (detach s e) e = (engOf s e).vacated s.pclk := by
  have hstanding : ({ engOf (detach s e) e with wait := none } : Engine) = { engOf (modEng s e fun g => g.vacated s.pclk) e with wait := none } :=
    congrFun (congrArg (fun x => x.2.2) (detach_standing (h ▸ nofun))) e
  have hwait : (engOf (detach s e) e).wait = none := by simpa [waiting] using not_waiting_detach h
  rw [engOf_modEng] at hstanding
  calc engOf (detach s e) e = { engOf (detach s e) e with wait := none } := by rw [← hwait]
    _ = (engOf s e).vacated s.pclk := hstanding

/-! ## Requests for latency-critical steps (R397) -/

/-- `t` is `s` but for engines that have been asked to give up their contexts. -/
def AsksSwitch (s t : State) : Prop :=
  { t with engines := s.engines } = s ∧ ∀ k, engOf t k = engOf s k ∨
    (engOf s k).ctx.isSome = true ∧ engOf t k = { engOf s k with switchReq := true, preempt := true }

theorem asksSwitch_self (s : State) : AsksSwitch s s := ⟨rfl, fun _ => .inl rfl⟩

theorem AsksSwitch.trans {s t u : State} (a : AsksSwitch s t) (b : AsksSwitch t u) : AsksSwitch s u := by
  obtain ⟨hst, ha⟩ := a
  obtain ⟨htu, hb⟩ := b
  refine ⟨(congrArg (fun x : State => { x with engines := s.engines }) htu).trans hst, fun k => ?_⟩
  rcases ha k with ha | ⟨hctx, ha⟩ <;> rcases hb k with hb | ⟨hctx', hb⟩
  · exact .inl (hb.trans ha)
  · exact .inr ⟨ha ▸ hctx', by rw [hb, ha]⟩
  · exact .inr ⟨hctx, hb.trans ha⟩
  · exact .inr ⟨hctx, by rw [hb, ha]⟩

theorem asksSwitch_modEng {s : State} {e : Nat} (h : (engOf s e).ctx.isSome = true) :
    AsksSwitch s (modEng s e fun g => { g with switchReq := true, preempt := true }) := by
  refine ⟨rfl, fun k => ?_⟩
  by_cases hk : k = e
  · subst hk
    exact .inr ⟨h, engOf_modEng ..⟩
  · exact .inl (engOf_modEng_ne _ _ hk)

/-- A fold that keeps what it has or takes an entry ends with an entry of the list. -/
theorem foldl_picks {α : Type} {f : Option α → α → Option α} (hf : ∀ b a, f b a = some a ∨ f b a = b) (l : List α) (b : Option α) {x : α}
    (h : l.foldl f b = some x) : x ∈ l ∨ b = some x := by
  induction l generalizing b with
  | nil => exact .inr h
  | cons a l ih =>
    rcases ih (f b a) h with hx | hx
    · exact .inl (List.mem_cons_of_mem a hx)
    · rcases hf b a with ha | ha <;> rw [ha] at hx
      · cases hx; exact .inl List.mem_cons_self
      · exact .inr hx

/-- The engine that gives way runs a context. -/
theorem victimEngine_runs {s : State} {used : List Nat} {c e : Nat} (h : victimEngine s used c = some e) : (engOf s e).ctx.isSome = true := by
  unfold victimEngine at h
  dsimp only at h
  split at h
  all_goals
    obtain hmem | hnone := foldl_picks (fun b a => by rcases b with _ | o; exacts [.inl rfl, ite_eq_or_eq ..]) _ none h
    · simp only [List.mem_filter, Bool.and_eq_true] at hmem
      tauto
    · exact nomatch hnone

theorem requestsForLc_asks (n : Nat) (s : State) : AsksSwitch s (requestsForLc n s) := by
  unfold requestsForLc
  refine List.foldlRecOn (motive := fun acc : State × List Nat => AsksSwitch s acc.1) _ _ (asksSwitch_self s) fun acc hacc c _ => ?_
  split
  · exact hacc
  · split
    next e he => exact hacc.trans (asksSwitch_modEng (victimEngine_runs he))
    · exact hacc

theorem lcRequests_asks (s : State) : AsksSwitch s (lcRequests s) := by
  unfold lcRequests
  split
  · exact asksSwitch_self s
  · exact List.foldlRecOn (motive := AsksSwitch s) _ _ (asksSwitch_self s) fun t ht n _ => ht.trans (requestsForLc_asks n t)

/-! ## A step starts (R391, R410, R411) -/

/-- Who sits where: the engines, the contexts, and the order of the ready ones. -/
def State.seats (s : State) : List (Nat × Engine) × List (Nat × Ctx) × List Nat := (s.engines, s.ctxs, s.sched.ready)

theorem seats_of_aside {s t : State} (h : t.aside = s.aside) : t.seats = s.seats := (congrArg State.seats h :)

@[simp] theorem foldl_modBead_seats (f : Bead → Bead) (l : List Nat) (s : State) : (l.foldl (fun t b => modBead t b f) s).seats = s.seats :=
  foldl_keeps State.seats (fun t b => (rfl : (modBead t b f).seats = _)) l s
@[simp] theorem foldl_beadState_seats (st : Nat) (l : List Nat) (s : State) : (l.foldl (fun t b => beadState t b st) s).seats = s.seats :=
  foldl_keeps State.seats (fun t b => (rfl : (beadState t b st).seats = _)) l s
@[simp] theorem foldl_beadWaits_seats (l : List Nat) (s : State) : (l.foldl beadWaits s).seats = s.seats :=
  foldl_keeps State.seats (fun t b => (rfl : (beadWaits t b).seats = _)) l s

theorem buildRod_seats (s : State) (slice q : Nat) (r : Rod) : (buildRod s slice q r).1.seats = s.seats := by
  unfold buildRod
  simp only [foldl_beadState_seats, foldl_beadWaits_seats, foldl_modBead_seats]

theorem rodWrite_seats (s : State) (slice c gen : Nat) (a : Word) (bs : List Byte) : (rodWrite s slice c gen a bs).1.seats = s.seats := by
  have hslot (k : Nat) : (boltSlot s k).seats = s.seats := by unfold boltSlot; split <;> rfl
  unfold rodWrite
  split
  · rfl
  · exact seats_of_aside (memWrite_aside ..)
  · dsimp only
    split
    · rfl
    · exact hslot _

/-- Opening a rod writes its manifest and changes beads and rods. -/
theorem openRod_seats (s : State) (slice c gen q : Nat) : (openRod s slice c gen q).1.seats = s.seats := by
  unfold openRod
  split
  · rfl
  next i r _ =>
    dsimp only
    have hwrite := (rodWrite_seats (buildRod s slice q r).1 slice c gen r.manifest (manifestBytes (buildRod s slice q r).1 r
      (buildRod s slice q r).2.1 (buildRod s slice q r).2.2)).trans (buildRod_seats s slice q r)
    split
    next t ht => rw [ht] at hwrite; exact hwrite
    next t code ht =>
      rw [ht] at hwrite
      obtain ⟨hengines, hrest⟩ := Prod.ext_iff.mp hwrite
      exact Prod.ext hengines (Prod.ext (Prod.ext_iff.mp hrest).1 rfl)

theorem startStep_seats (s : State) (q : Nat) : (startStep s q).seats = s.seats := by
  unfold startStep
  split
  · rfl
  next x _ =>
    have hopen := openRod_seats s (ctxOf s x.ctx).slice x.ctx x.gen q
    split
    next t code ht => rw [ht] at hopen; exact hopen
    next t ht => rw [ht] at hopen; exact hopen

/-! ## A context is placed on an engine (R183, R184, R395) -/

theorem place_seats (s : State) (e c : Nat) : (place s e c).seats = (attach s e c).seats :=
  foldl_keeps State.seats (fun t (q : Nat × Queue) => startStep_seats t q.1) _ _

/-- An engine `g` that takes context `c` at its generation: the registers of the state record `r`, no view, a clear scratchpad. -/
def Engine.Holds (g : Engine) (c gen : Nat) (r : Engine) : Prop :=
  g.ctx = some (c, gen) ∧ g.s = r.s ∧ g.d = r.d ∧ g.p = r.p ∧ g.t = [] ∧ g.pc = r.pc ∧ g.step = r.step ∧ g.hdr = r.hdr ∧
    g.spad = [] ∧ g.spadBad = []

/-- Attaching a context: what its engine holds, its place, and that it is ready no longer. -/
theorem attach_seats (s : State) (e c : Nat) :
    (engOf (attach s e c) e).Holds c (ctxOf s c).gen (fromRecord (engOf s e) (savedRecord s c)) ∧
      (ctxOf (attach s e c) c).eng = some e ∧ (ctxOf (attach s e c) c).prog = (ctxOf s c).prog ∧ c ∉ (attach s e c).sched.ready := by
  have herrs : ∃ errs, (if recordBad s c then pushErr s c (ctxOf s c).gen e cPOISON else s) = { s with reqErrs := errs } := by
    split
    · exact ⟨_, rfl⟩
    · exact ⟨s.reqErrs, rfl⟩
  obtain ⟨errs, herrs⟩ := herrs
  unfold attach
  simp only [herrs]
  have heng (u : State) (F : Engine → Engine) (G : Ctx → Ctx) : engOf (dropReady (modCtx (modEng u e F) c G) c) e = F (engOf u e) :=
    engOf_modEng u e F
  have hctx (u : State) (F : Engine → Engine) (G : Ctx → Ctx) : ctxOf (dropReady (modCtx (modEng u e F) c G) c) c = G (ctxOf u c) :=
    ctxOf_modCtx (modEng u e F) c G
  rw [heng, hctx]
  exact ⟨⟨rfl, rfl, rfl, rfl, rfl, rfl, rfl, rfl, rfl, rfl⟩, rfl, rfl, by simp [dropReady]⟩

/-! ## The obligation -/

/-- The requests of R397 do not touch an engine that runs no context, and of another only its switch request. -/
theorem engOf_lcRequests (s : State) (e : Nat) :
    ((engOf s e).ctx = none → engOf (lcRequests s) e = engOf s e) ∧
      ∃ req pre, engOf (lcRequests s) e = { engOf s e with switchReq := req, preempt := pre } := by
  rcases (lcRequests_asks s).2 e with h | ⟨hctx, h⟩
  · exact ⟨fun _ => h, _, _, h⟩
  · exact ⟨fun hnone => by simp [hnone] at hctx, _, _, h⟩

theorem clear_lcRequests (s : State) : clear (lcRequests s) = clear s := clear_eq_of_sv (lcRequests_sv s)

@[simp] theorem lcRequests_ctxs (s : State) : (lcRequests s).ctxs = s.ctxs := (congrArg State.ctxs (lcRequests_asks s).1 :)
@[simp] theorem lcRequests_sched (s : State) : (lcRequests s).sched = s.sched := (congrArg State.sched (lcRequests_asks s).1 :)

/-- A context placed sits on its engine, whatever requests of R397 follow. -/
theorem lcRequests_place (s : State) (e c : Nat) :
    (engOf (lcRequests (place s e c)) e).Holds c (ctxOf s c).gen (fromRecord (engOf s e) (savedRecord s c)) ∧
      (ctxOf (lcRequests (place s e c)) c).eng = some e ∧ c ∉ (lcRequests (place s e c)).sched.ready := by
  have hengines : (place s e c).engines = (attach s e c).engines := congrArg Prod.fst (place_seats s e c)
  have hctxs : (place s e c).ctxs = (attach s e c).ctxs := congrArg (fun x => x.2.1) (place_seats s e c)
  have hready : (place s e c).sched.ready = (attach s e c).sched.ready := congrArg (fun x => x.2.2) (place_seats s e c)
  obtain ⟨hholds, heng, -, hnot⟩ := attach_seats s e c
  obtain ⟨-, req, pre, hasked⟩ := engOf_lcRequests (place s e c) e
  refine ⟨?_, ?_, ?_⟩
  · rw [hasked, engOf_of_engines hengines]
    exact hholds
  · rwa [ctxOf_of_ctxs (lcRequests_ctxs _), ctxOf_of_ctxs hctxs]
  · rwa [lcRequests_sched, hready]

/-- Settles O22: detaching vacates the engine (`engOf_detach`), placing a context seats it (`lcRequests_place`), and the end of a quantum asks
for a switch where a rival is there. -/
theorem contextSwitchesFollowRequestsAndQuanta : Obligations.ContextSwitchesFollowRequestsAndQuanta := by
  unfold Obligations.ContextSwitchesFollowRequestsAndQuanta
  refine ⟨⟨?out, ?into⟩, ?quantum⟩
  case out =>
    intro e c gen s he hctx hpoint hon hawake hclear
    have hdetach := engOf_detach hctx
    have hexec : execContextSwitch e none s = .next (lcRequests (detach s e)) :=
      unitRes_clear he (by simp [hpoint, hon, hawake]) ((clear_lcRequests _).trans hclear)
    refine ⟨_, hexec, ?_⟩
    beta_reduce
    rw [(engOf_lcRequests (detach s e) e).1 (by rw [hdetach]; rfl), hdetach, ← hon]
    rfl
  case into =>
    intro e c s he hpoint hon hawake hfence hsafe htap hremoving htake hnext hclear r
    have hexec : execContextSwitch e (some c) s = .next (lcRequests (place (detach s e) e c)) :=
      unitRes_clear he (by simp [hpoint, hon, hawake, hfence, hsafe, htap, hremoving, htake, hnext]) ((clear_lcRequests _).trans hclear)
    obtain ⟨⟨hctx, hs, hd, hp, ht, hpc, hstep, hhdr, hspad, hbad⟩, heng, hready⟩ := lcRequests_place (detach s e) e c
    exact ⟨_, hexec, hctx, hs, hd, hp, ht, hpc, hstep, hhdr, hspad, hbad, heng, hready⟩
  case quantum =>
    intro e due s g slice q rival he hctx hup hreq hquantum hdue hclear
    let ask : Engine → Engine := fun g => { g with switchReq := true, preempt := true }
    let renew : Engine → Engine := fun g => { g with quantum := some (s.pclk + quantumOf s e) }
    let contested : Bool := s.sched.ready.any fun c => c ≠ g.who.1 && (ctxOf s c).slice = slice && ctxLc s c = g.lcRun && wantsEngine s c &&
      ((regionIn s (e / 4) c (ctxOf s c).gen).isSome || canGive s c (e / 4))
    have hcontested : contested = true ↔ ∃ c, rival c := by simp [contested, rival, and_assoc]
    have hcond : (g.ctx.isSome && schedUp s g.who.1 && !g.switchReq && g.quantum.elim false (· ≤ s.pclk)) = true := by
      simp [hctx, hup, hreq, hquantum, hdue]
    have hexec : execQuantumExpiry e s = .next (if contested then modEng s e ask else modEng s e renew) :=
      unitRes_clear he hcond (by split <;> exact hclear)
    by_cases hrival : ∃ c, rival c
    · rw [if_pos (hcontested.mpr hrival)] at hexec
      obtain ⟨honly, hrec⟩ := engineIs_modEng e ask s
      exact ⟨_, hexec, honly, fun _ => hrec, fun hnone => (hrival.elim hnone).elim⟩
    · rw [if_neg (mt hcontested.mp hrival)] at hexec
      obtain ⟨honly, hrec⟩ := engineIs_modEng e renew s
      exact ⟨_, hexec, honly, fun h => absurd h hrival, fun _ => hrec⟩

end Sys2Proof.Machine
end

section
/-! PROOFS. Launches and negotiation (O39): a ring that starts a LAUNCH_EXT, the state record that a launch writes, and the program that has
started. -/
namespace Sys2Proof.Machine

/-! ## A ring starts a LAUNCH_EXT (R434, R435) -/

/-- A queue processes the LAUNCH_EXT behind the LAUNCH that it keeps. -/
theorem packet_queue_ext {ok : Nat → Bool} {q : Nat} {x : Queue} {ws : List Word} {body : State → Pkt → PRes} {s : State}
    (h : queueTakes s q x ws = true) (hok : ok 0x11 = true) (hty : field (ws.getD 0 0) 0 8 = 0x11) :
    packet ok (.queue q) ws body s = endPacket (queuePkt s q x ws) (body s (queuePkt s q x ws)) := by
  unfold packet
  unfold queueTakes at h
  generalize field (ws.getD 0 0) 0 8 = ty at h hty ⊢
  subst hty
  simp only [Bool.and_eq_true, decide_eq_true_eq, decide_true, Bool.true_and, Bool.not_eq_true'] at h
  obtain ⟨⟨⟨⟨⟨⟨⟨⟨hq, hstart⟩, hturn⟩, hgen⟩, hctx⟩, hslice⟩, hext⟩, herr⟩, hfault⟩ := h
  have hfault : packetFault s (queuePkt s q x ws) 0x11 = none := by simpa using hfault
  have hdrop (k : Pkt) : dropExt s k true = s := rfl
  unfold queuePkt at hfault ⊢
  simp [hok, hq, hstart, hturn, hgen, hctx, hslice, hext, hdrop, herr, hfault]

/-- Whoever serves the port rings processes the LAUNCH_EXT of a port. -/
theorem packet_port_ext {ok : Nat → Bool} {p : Nat} {ws : List Word} {body : State → Pkt → PRes} {s : State}
    (h : portTakes s p ws = true) (hok : ok 0x11 = true) (hty : field (ws.getD 0 0) 0 8 = 0x11) :
    packet ok (.port p) ws body s = endPacket (portPkt s p ws) (body s (portPkt s p ws)) := by
  unfold packet
  unfold portTakes at h
  generalize field (ws.getD 0 0) 0 8 = ty at h hty ⊢
  subst hty
  simp only [Bool.and_eq_true, decide_eq_true_eq, Bool.not_eq_true'] at h
  obtain ⟨⟨⟨⟨⟨⟨⟨hp, hen⟩, hbusy⟩, hpkt⟩, -⟩, hserver⟩, hbase⟩, hfault⟩ := h
  have hfault : packetFault s (portPkt s p ws) 0x11 = none := by simpa using hfault
  have hdrop (k : Pkt) : dropExt s k true = s := rfl
  unfold portPkt at hfault ⊢
  simp [hok, Nat.not_le.mpr hp, hen, hbusy, hpkt, hserver, hbase, hdrop, hfault]

/-! ## The state record of a launch (R169, R184, R646) -/

/-- A write of whole words writes every byte, whatever words were bad. -/
theorem wordWrite_words {mem : List (Nat × Byte)} {bad : List Nat} {a : Nat} {bs : List Byte} (ha : 8 ∣ a) (hn : 8 ∣ bs.length) :
    (wordWrite mem bad a bs).1 = bwrite mem a bs := by
  have hstuck : (bad.filter fun w => bs.length ≠ 0 && a / 8 ≤ w && w ≤ (a + bs.length - 1) / 8 &&
      !(decide (a ≤ 8 * w) && decide (8 * w + 8 ≤ a + bs.length))) = [] :=
    List.filter_eq_nil_iff.mpr fun w _ hp => by
      simp only [Bool.and_eq_true, decide_eq_true_eq, Bool.not_eq_true', Bool.and_eq_false_iff, decide_eq_false_iff_not] at hp
      omega
  have hmask : ((List.range bs.length).zipWith (fun _ b => some b) bs : List (Option Byte)) = bs.map some :=
    List.ext_getElem (by simp) (by simp)
  unfold wordWrite
  simp only [hstuck]
  simp [hmask, bwriteMask_some]

theorem boltRead_boltWrite_words {s : State} {c a : Nat} {bs : List Byte} (ha : 8 ∣ a) (hn : 8 ∣ bs.length) :
    boltRead (boltWrite s c a bs).1 c a bs.length = bs := by
  unfold boltWrite boltRead
  dsimp only
  rw [clOf_modCl, wordWrite_words ha hn, bread_bwrite]

theorem ctxOf_boltWrite (s : State) (k a : Nat) (bs : List Byte) (c : Nat) : ctxOf (boltWrite s k a bs).1 c = ctxOf s c := rfl

@[simp] theorem length_recordBytes (g : Engine) (waiting faulted : Bool) : (recordBytes g waiting faulted).length = 1024 := by
  unfold recordBytes
  simp only [List.length_append, List.length_flatMap, length_leBytes, List.length_replicate, List.map_const', List.length_range,
    List.sum_replicate, smul_eq_mul]

/-! ## A context becomes ready for its launch (R396, R415) -/

theorem mem_ready_addReadyAt (s : State) (c : Nat) (k : Nat × Nat) : c ∈ (addReadyAt s c k).sched.ready := by
  unfold addReadyAt
  split
  · exact List.contains_iff_mem.mp ‹_›
  · simp

theorem mem_ready_addReadyFor (s : State) (c : Nat) (r : RingId) : c ∈ (addReadyFor s c r).sched.ready := by
  cases r with
  | queue q => exact mem_ready_addReadyAt ..
  | port p => exact mem_ready_addReadyAt ..

theorem addReadyFor_frame (s : State) (c : Nat) (r : RingId) : ∃ sc, addReadyFor s c r = { s with sched := sc } := by
  have hat (k : Nat × Nat) : ∃ sc, addReadyAt s c k = { s with sched := sc } := by
    unfold addReadyAt
    split
    · exact ⟨s.sched, rfl⟩
    · exact ⟨_, rfl⟩
  cases r with
  | queue q => exact hat _
  | port p => exact hat _

/-! ## A program that starts (R169, R184, R391) -/

theorem lcRequests_frame (s : State) : ∃ en, lcRequests s = { s with engines := en } :=
  ⟨(lcRequests s).engines, (congrArg (fun t : State => { t with engines := (lcRequests s).engines }) (lcRequests_asks s).1 :)⟩

theorem attach_frame (s : State) (e c : Nat) : ∃ en re cx sc, attach s e c = { s with engines := en, reqErrs := re, ctxs := cx, sched := sc } := by
  unfold attach
  dsimp only
  split
  · exact ⟨_, _, _, _, rfl⟩
  · exact ⟨_, s.reqErrs, _, _, rfl⟩

section
variable (s : State) (c e k base : Nat) (regs : Engine)

/-- Where its engine holds the context, a program starts there: nothing else changes. -/
theorem startProgram_held : ∃ f : Engine → Engine, startProgram s c e k base true regs = modEng s e f ∧
    ∀ g, (f g).s = regs.s ∧ (f g).d = regs.d ∧ (f g).p = regs.p ∧ (f g).t = [] ∧ (f g).pc = regs.pc := by
  unfold startProgram
  simp only [if_true]
  exact ⟨_, rfl, fun _ => ⟨rfl, rfl, rfl, rfl, rfl⟩⟩

/-- A program starts from its state record: on its engine in direct mode, else once its context is placed. -/
theorem startProgram_direct (h : directCtx s (ctxOf s c).slice = true) :
    startProgram s c e k base false regs = attach (boltWrite s k base (recordBytes regs false false)).1 e c := by
  unfold startProgram
  generalize recordBytes regs false false = bs
  have h : directCtx (boltWrite s k base bs).1 (ctxOf s c).slice = true := h
  simp only [Bool.false_eq_true, if_false, h, if_true]

theorem startProgram_ready (h : directCtx s (ctxOf s c).slice = false) : ∃ r, startProgram s c e k base false regs =
    lcRequests (addReadyFor (boltWrite s k base (recordBytes regs false false)).1 c r) := by
  unfold startProgram
  generalize recordBytes regs false false = bs
  have h : directCtx (boltWrite s k base bs).1 (ctxOf s c).slice = false := h
  simp only [Bool.false_eq_true, if_false, h]
  exact ⟨_, rfl⟩

end

/-- What a program that starts leaves alone: engines, contexts and the ready order change, the cluster of its state
record, and the errors returned. -/
theorem startProgram_frame (s : State) (c e k base : Nat) (held : Bool) (regs : Engine) : ∃ en cl re cx sc,
    startProgram s c e k base held regs = { s with engines := en, clusters := cl, reqErrs := re, ctxs := cx, sched := sc } := by
  cases held with
  | true =>
    obtain ⟨f, h, -⟩ := startProgram_held s c e k base regs
    rw [h]
    exact ⟨_, s.clusters, s.reqErrs, s.ctxs, s.sched, rfl⟩
  | false =>
    cases hdirect : directCtx s (ctxOf s c).slice with
    | true =>
      rw [startProgram_direct s c e k base regs hdirect]
      generalize recordBytes regs false false = bs
      obtain ⟨en, re, cx, sc, h⟩ := attach_frame (boltWrite s k base bs).1 e c
      rw [h]
      exact ⟨en, _, re, cx, sc, rfl⟩
    | false =>
      obtain ⟨r, h⟩ := startProgram_ready s c e k base regs hdirect
      rw [h]
      generalize recordBytes regs false false = bs
      obtain ⟨sc, hready⟩ := addReadyFor_frame (boltWrite s k base bs).1 c r
      obtain ⟨en, hasked⟩ := lcRequests_frame { (boltWrite s k base bs).1 with sched := sc }
      rw [hready, hasked]
      exact ⟨en, _, s.reqErrs, s.ctxs, sc, rfl⟩

theorem startProgram_prog (s : State) (c e k base : Nat) (held : Bool) (regs : Engine) :
    (ctxOf (startProgram s c e k base held regs) c).prog = (ctxOf s c).prog := by
  cases held with
  | true =>
    obtain ⟨f, h, -⟩ := startProgram_held s c e k base regs
    rw [h]
    rfl
  | false =>
    cases hdirect : directCtx s (ctxOf s c).slice with
    | true =>
      rw [startProgram_direct s c e k base regs hdirect]
      generalize recordBytes regs false false = bs
      obtain ⟨-, -, hprog, -⟩ := attach_seats (boltWrite s k base bs).1 e c
      exact hprog
    | false =>
      obtain ⟨r, h⟩ := startProgram_ready s c e k base regs hdirect
      rw [h, ctxOf_of_ctxs (lcRequests_ctxs _)]
      generalize recordBytes regs false false = bs
      obtain ⟨sc, hready⟩ := addReadyFor_frame (boltWrite s k base bs).1 c r
      rw [hready]
      rfl

/-- A program that is not on an engine yet stands in its state record. -/
theorem startProgram_clusters (s : State) (c e k base : Nat) (regs : Engine) :
    (startProgram s c e k base false regs).clusters = (boltWrite s k base (recordBytes regs false false)).1.clusters := by
  cases hdirect : directCtx s (ctxOf s c).slice with
  | true =>
    obtain ⟨en, re, cx, sc, h⟩ := attach_frame (boltWrite s k base (recordBytes regs false false)).1 e c
    rw [startProgram_direct s c e k base regs hdirect, h]
  | false =>
    obtain ⟨r, h⟩ := startProgram_ready s c e k base regs hdirect
    obtain ⟨sc, hready⟩ := addReadyFor_frame (boltWrite s k base (recordBytes regs false false)).1 c r
    obtain ⟨en, hasked⟩ := lcRequests_frame (addReadyFor (boltWrite s k base (recordBytes regs false false)).1 c r)
    rw [h, hasked, hready]

theorem startProgram_boltRead (s : State) (c e k : Nat) {base : Nat} (hbase : 8 ∣ base) (regs : Engine) :
    boltRead (startProgram s c e k base false regs) k base 1024 = recordBytes regs false false := by
  have hlen := length_recordBytes regs false false
  have h := boltRead_boltWrite_words (s := s) (c := k) hbase (bs := recordBytes regs false false) (by rw [hlen]; decide)
  rw [hlen] at h
  rw [boltRead, clOf, startProgram_clusters]
  exact h

/-- The state in which a launch has read its header: the program with its fields. -/
def headerRead (s : State) (r : RingId) (c hdr packets : Nat) (status : Option StatusAt) (e k bw uses code : Nat) : State :=
  modCtx (memRead (launchTaken s r c hdr packets k status) (engWho s e c (ctxOf s c).gen 0) .va hdr 64).1 c fun y =>
    { y with prog := some ⟨hdr, bw, uses, code, r, packets, status, false⟩ }

/-- STEP of a program that starts: that of its context. -/
def launchStep (s : State) (c : Nat) : Nat :=
  match (ctxOf s c).eng with
  | some e => (engOf s e).step
  | none => (fromRecord Engine.idle (savedRecord s c)).step

theorem ctxOf_launchTaken (s : State) (r : RingId) (c hdr packets k : Nat) (status : Option StatusAt) :
    ctxOf (launchTaken s r c hdr packets k status) c =
      { ctxOf s c with prog := some ⟨hdr, 0, 0, 0, r, packets, status, false⟩, home := some k } := by
  have h : ctxOf (launchTaken s r c hdr packets k status) c = ctxOf (modCtx s c fun y =>
      { y with prog := some ⟨hdr, 0, 0, 0, r, packets, status, false⟩, home := some k }) c := by cases r <;> rfl
  rw [h, ctxOf_modCtx]

theorem queueOf_launchTaken (s : State) (q c hdr packets k : Nat) (status : Option StatusAt) :
    queueOf (launchTaken s (.queue q) c hdr packets k status) q = (queueOf s q).map fun y => { y with busy := true } := queueOf_modQueue _ q _

theorem ringOf_launchTaken (s : State) (p c hdr packets k : Nat) (status : Option StatusAt) :
    ringOf (launchTaken s (.port p) c hdr packets k status) p = { ringOf s p with busy := true } := ringOf_modRing _ p _

theorem engWho_launchTaken (s : State) (r : RingId) (c hdr packets k : Nat) (status : Option StatusAt) (e gen : Nat) :
    engWho (launchTaken s r c hdr packets k status) e c gen 0 = engWho s e c gen 0 := by
  have hslice : (ctxOf (launchTaken s r c hdr packets k status) c).slice = (ctxOf s c).slice := by
    rw [ctxOf_launchTaken]
  have hdesc (n : Nat) : descOf (launchTaken s r c hdr packets k status) n = descOf s n := by cases r <;> rfl
  simp only [engWho, hslice, hdesc]

/-- An access to memory leaves the slices alone. -/
theorem sameSlices_of_aside {s t : State} (h : t.aside = s.aside) (n : Nat) : descOf t n = descOf s n ∧ hasShuttle t n = hasShuttle s n :=
  ⟨(congrArg (descOf · n) h :), (congrArg (hasShuttle · n) h :)⟩

section
variable {s : State} {r : RingId} {c hdr packets : Nat} {status : Option StatusAt} {e k : Nat} {rg : BoltRegion} {bs : List Byte}
  {bw uses code entry : Nat} (h : launchMay s r c hdr packets status e k rg bs bw uses code entry)
include h

theorem startLaunch_may (args : List Word) : startLaunch s r c hdr args packets status =
    .hold (startProgram (headerRead s r c hdr packets status e k bw uses code) c e k (65536 * rg.base) (ctxOf s c).eng.isSome
      (launchRegs hdr entry (launchStep s c) args)) := by
  obtain ⟨hprog, hlive, hleave, hbar, hplace, hregion, hread, -, hheader⟩ := h
  unfold headerRead
  rcases hm : memRead (launchTaken s r c hdr packets k status) (engWho s e c (ctxOf s c).gen 0) .va hdr 64 with ⟨m, res⟩
  obtain rfl : res = .ok bs := by rw [hm] at hread; exact hread
  obtain ⟨hslices, hengines⟩ := sameSlices_of_aside (aside_of_eq hm (memRead_aside ..)) (ctxOf s c).slice
  rw [← engWho_launchTaken s r c hdr packets k status] at hm
  unfold startLaunch
  have hdesc : descOf m (ctxOf s c).slice = descOf s (ctxOf s c).slice := hslices.trans (by cases r <;> rfl)
  have hshuttle : hasShuttle m (ctxOf s c).slice = hasShuttle s (ctxOf s c).slice := hengines.trans (by cases r <;> rfl)
  cases r <;>
  · simp only [launchTaken] at hm
    simp only [hprog, hlive, hleave, hbar, hplace, hregion, hm, hdesc, hshuttle, Option.isSome_none, Bool.false_eq_true, if_false, ne_eq,
      not_true]
    simp only [hheader]
    rfl

omit h in
theorem ctxOf_headerRead : ctxOf (headerRead s r c hdr packets status e k bw uses code) c =
    { ctxOf s c with prog := some ⟨hdr, bw, uses, code, r, packets, status, false⟩, home := some k } := by
  have hctxs : (memRead (launchTaken s r c hdr packets k status) (engWho s e c (ctxOf s c).gen 0) .va hdr 64).1.ctxs =
      (launchTaken s r c hdr packets k status).ctxs := (congrArg State.ctxs (memRead_aside ..) :)
  rw [headerRead, ctxOf_modCtx, ctxOf_of_ctxs hctxs, ctxOf_launchTaken]

omit h in
theorem directCtx_headerRead (n : Nat) : directCtx (headerRead s r c hdr packets status e k bw uses code) n = directCtx s n := by
  have hread := congrArg (directCtx · n) (memRead_aside (launchTaken s r c hdr packets k status) (engWho s e c (ctxOf s c).gen 0) .va hdr 64)
  exact hread.trans (by cases r <;> rfl)

omit h in
/-- The program of a context has started once its header is read. -/
theorem launched_startProgram (args : List Word) : Launched s c hdr packets e k rg bw uses code entry args
    (startProgram (headerRead s r c hdr packets status e k bw uses code) c e k (65536 * rg.base) (ctxOf s c).eng.isSome
      (launchRegs hdr entry (launchStep s c) args)) := by
  have hctx := ctxOf_headerRead (s := s) (r := r) (c := c) (hdr := hdr) (packets := packets) (status := status) (e := e) (k := k) (bw := bw)
    (uses := uses) (code := code)
  have hdirect := directCtx_headerRead (s := s) (r := r) (c := c) (hdr := hdr) (packets := packets) (status := status) (e := e) (k := k)
    (bw := bw) (uses := uses) (code := code)
  generalize headerRead s r c hdr packets status e k bw uses code = v at hctx hdirect ⊢
  refine ⟨⟨_, (startProgram_prog ..).trans (congrArg Ctx.prog hctx), rfl, rfl, rfl, rfl, rfl, rfl⟩, fun hheld => ?held, fun hfree => ?free⟩
  case held =>
    rw [Option.isSome_iff_ne_none.mpr hheld]
    obtain ⟨f, hstart, hf⟩ := startProgram_held v c e k (65536 * rg.base) (launchRegs hdr entry (launchStep s c) args)
    rw [hstart, engOf_modEng]
    exact hf (engOf v e)
  case free =>
    have hbase : 8 ∣ 65536 * rg.base := Dvd.dvd.mul_right ⟨8192, rfl⟩ _
    generalize 65536 * rg.base = base at hbase
    rw [Option.isSome_eq_false_iff.mpr (Option.isNone_iff_eq_none.mpr hfree)]
    have hslice (b : Bool) (h : directCtx s (ctxOf s c).slice = b) : directCtx v (ctxOf v c).slice = b := by
      rw [hctx, hdirect]; exact h
    refine ⟨startProgram_boltRead v c e k hbase _, fun h => ?_, fun h => ?_⟩
    · rw [startProgram_direct v c e k _ _ (hslice _ h)]
      generalize recordBytes _ false false = bs
      obtain ⟨⟨hseat, -⟩, -⟩ := attach_seats (boltWrite v k base bs).1 e c
      rw [hseat, ctxOf_boltWrite, hctx]
    · obtain ⟨r, hready⟩ := startProgram_ready v c e k base (launchRegs hdr entry (launchStep s c) args) (hslice _ h)
      rw [hready, lcRequests_sched]
      exact mem_ready_addReadyFor ..

/-- A launch that may start does: no access waits, its program has started, and of the rings only the one that it stands in has changed. -/
theorem startLaunch_launched (args : List Word) : ∃ t, startLaunch s r c hdr args packets status = .hold t ∧ clear t = true ∧
    Launched s c hdr packets e k rg bw uses code entry args t ∧ (∀ p, ringOf t p = ringOf (launchTaken s r c hdr packets k status) p) ∧
    ∀ q, queueOf t q = queueOf (launchTaken s r c hdr packets k status) q := by
  obtain ⟨en, cl, re, cx, sc, hframe⟩ := startProgram_frame (headerRead s r c hdr packets status e k bw uses code) c e k (65536 * rg.base)
    (ctxOf s c).eng.isSome (launchRegs hdr entry (launchStep s c) args)
  have hread := memRead_aside (launchTaken s r c hdr packets k status) (engWho s e c (ctxOf s c).gen 0) .va hdr 64
  refine ⟨_, startLaunch_may h args, ?clear, launched_startProgram args, ?rings⟩
  case clear =>
    obtain ⟨-, -, -, -, -, -, -, hclear, -⟩ := h
    rw [hframe]
    exact hclear
  case rings =>
    rw [hframe]
    exact ⟨fun p => (congrArg (ringOf · p) hread :), fun q => (congrArg (queueOf · q) hread :)⟩

end

/-! ## The packets (R434 to R436, R438) -/

/-- A status word of code 0 counts no bad packet. -/
theorem writeStatus_inward (s : State) (a : StatusAt) (result : Nat) : (writeStatus s a 0 result).inward = s.inward := by
  unfold writeStatus
  simp only [if_true, apply_ite State.inward, hostEvent_inward, hostPost_inward, ite_self]

theorem finishRing_besideRings (s : State) (n p : Nat) : (finishRing s n (.port p)).besideRings = s.besideRings :=
  (besideRings_of_inward (ringFetch_inward _ p)).trans rfl

theorem modRing_besideRings (s : State) (p : Nat) (f : PortRing → PortRing) : (modRing s p f).besideRings = s.besideRings := rfl

/-- What answering a packet changes, put back. -/
theorem eq_of_besideRings {s t : State} (h : t.besideRings = s.besideRings) :
    { t with rings := s.rings, hports := s.hports, out := s.out, tally := s.tally } = s :=
  (congrArg (fun v : State => { v with rings := s.rings, hports := s.hports, out := s.out, tally := s.tally }) h :)

theorem launched_of_inward {s t u : State} {c hdr packets e k : Nat} {rg : BoltRegion} {bw uses code entry : Nat} {args : List Word}
    (h : u.inward = t.inward) (ht : Launched s c hdr packets e k rg bw uses code entry args t) :
    Launched s c hdr packets e k rg bw uses code entry args u :=
  (congrArg (Launched s c hdr packets e k rg bw uses code entry args) h :).mpr ht

section
variable {s : State} {ws : List Word}

/-- A LAUNCH_EXT of a queue supplies the last argument of the LAUNCH that the queue keeps. -/
theorem launchExt_queue {q hdr : Nat} {x : Queue} {a : List Word} (h : queueTakes s q x ws = true) (hty : field (ws.getD 0 0) 0 8 = 0x11)
    (hext : x.ext = some (hdr, a)) : exec (.launchExt (.queue q) ws) s =
      endPacket (queuePkt s q x ws) (startLaunch s (.queue q) x.ctx hdr (a ++ [ws.getD 1 0]) 2 none) := by
  have hkept : (queueOf s q).bind (·.ext) = some (hdr, a) := by rw [queueOf_of_takes h]; exact hext
  change execLaunchExt (.queue q) ws s = _
  rw [execLaunchExt, packet_queue_ext h rfl hty]
  simp only [hkept]
  rfl

/-- A LAUNCH of a queue without a LAUNCH_EXT behind it starts its program. -/
theorem launch_queue {q : Nat} {x : Queue} (h : queueTakes s q x ws = true) (hty : field (ws.getD 0 0) 0 8 = 0x10)
    (hext : bit (ws.getD 0 0) 16 = false) : exec (.launch (.queue q) ws) s =
      endPacket (queuePkt s q x ws) (startLaunch s (.queue q) x.ctx (field (ws.getD 0 0) 18 46 * 64)
        ((List.range 7).map fun i => ws.getD (i + 1) 0) 1 none) := by
  change execLaunch (.queue q) ws s = _
  rw [execLaunch, packet_queue h (by rw [hty]; rfl) (by rw [hty]; decide)]
  exact congrArg (endPacket _) (if_neg (Bool.eq_false_iff.mp hext))

/-- A LAUNCH of a queue with a LAUNCH_EXT behind it is kept. -/
theorem launch_queue_kept {q : Nat} {x : Queue} (h : queueTakes s q x ws = true) (hty : field (ws.getD 0 0) 0 8 = 0x10)
    (hext : bit (ws.getD 0 0) 16 = true) : exec (.launch (.queue q) ws) s = settle (modQueue s q fun x =>
      { x with ext := some (field (ws.getD 0 0) 18 46 * 64, (List.range 7).map fun i => ws.getD (i + 1) 0) }) := by
  change execLaunch (.queue q) ws s = _
  rw [execLaunch, packet_queue h (by rw [hty]; rfl) (by rw [hty]; decide)]
  exact congrArg (endPacket _) (if_pos hext)

/-- A LAUNCH of a port ring with a LAUNCH_EXT behind it is kept with the address of its status. -/
theorem launch_port_kept {p : Nat} (h : portTakes s p ws = true) (hty : field (ws.getD 0 0) 0 8 = 0x10) (hext : bit (ws.getD 0 0) 16 = true) :
    exec (.launch (.port p) ws) s = settle (ringFetch (modRing s p fun x => { x with
      ext := some (field (ws.getD 0 0) 18 46 * 64, (List.range 6).map fun i => ws.getD (i + 1) 0, statusOf s p (ringOf s p).head ws),
      pkt := none }) p) := by
  change execLaunch (.port p) ws s = _
  rw [execLaunch, packet_port h (by rw [hty]; rfl) (by rw [hty]; decide)]
  exact congrArg (endPacket _) (if_pos hext)

/-- A LAUNCH of a port ring without a LAUNCH_EXT behind it starts its program. -/
theorem launch_port {p : Nat} (h : portTakes s p ws = true) (hty : field (ws.getD 0 0) 0 8 = 0x10) (hext : bit (ws.getD 0 0) 16 = false) :
    exec (.launch (.port p) ws) s = endPacket (portPkt s p ws) (startLaunch s (.port p) p (field (ws.getD 0 0) 18 46 * 64)
      ((List.range 6).map fun i => ws.getD (i + 1) 0) 1 (some (statusOf s p (ringOf s p).head ws))) := by
  change execLaunch (.port p) ws s = _
  rw [execLaunch, packet_port h (by rw [hty]; rfl) (by rw [hty]; decide)]
  exact congrArg (endPacket _) (if_neg (Bool.eq_false_iff.mp hext))

/-- A LAUNCH_EXT of a port ring supplies the last two arguments of the LAUNCH that the ring keeps, and is answered once its program starts. -/
theorem launchExt_port {p hdr : Nat} {a : List Word} {at' : StatusAt} {t : State} (h : portTakes s p ws = true)
    (hty : field (ws.getD 0 0) 0 8 = 0x11) (hext : (ringOf s p).ext = some (hdr, a, at'))
    (hstart : startLaunch s (.port p) p hdr (a ++ [ws.getD 2 0, ws.getD 1 0]) 2 (some at') = .hold t) :
    exec (.launchExt (.port p) ws) s = settle (writeStatus t (statusOf s p ((ringOf s p).head + 1) ws) 0 0) := by
  change execLaunchExt (.port p) ws s = _
  rw [execLaunchExt, packet_port_ext h rfl hty]
  simp only [hext, Pkt.w, portPkt, hstart]
  rfl

/-- The bitmap that FEATURES agrees on, of what the unit offers and the driver asks for (R438). -/
def agreement (s : State) (ws : List Word) : Nat := offer s &&& ((ws.getD 1 0).toNat + (ws.getD 2 0).toNat * 2 ^ 64)

/-- FEATURES before any agreement fixes the agreed bitmap, posts it and is done. -/
theorem features_port {p : Nat} (h : portTakes s p ws = true) (hty : field (ws.getD 0 0) 0 8 = 0x80) (hagreed : (ringOf s p).agreed = none) :
    let u := modRing s p fun x => { x with agreed := some (agreement s ws) }
    exec (.features (.port p) ws) s = endPacket (portPkt s p ws)
      (.done (hostPost u p (slotAddr (ringOf u p) (ringOf u p).head + 40) (leBytes 16 (agreement s ws))) 0) := by
  change execFeatures (.port p) ws s = _
  rw [execFeatures, packet_port h (by rw [hty]; rfl) (by rw [hty]; decide)]
  simp only [Pkt.w, portPkt, hagreed]
  rfl

end

/-- Settles O39: a ring that starts the packet does its effect; a program that starts writes its registers, by `launched_startProgram`. -/
theorem launchesAndNegotiationComplete : Obligations.LaunchesAndNegotiationComplete := by
  unfold Obligations.LaunchesAndNegotiationComplete
  refine ⟨?keptQueue, ?keptPort, ?queue, ?port, ?features⟩
  case keptQueue =>
    intro q x ws s htakes hty hext hclear
    refine Ends.of_settle (launch_queue_kept htakes hty hext) hclear ⟨?_, onlyQueue_modQueue s q _, rfl⟩
    rw [queueOf_modQueue, queueOf_of_takes htakes]
    rfl
  case keptPort =>
    intro p ws s htakes hty hext hclear
    have hkept := ringFetch_inward (modRing s p fun x => { x with
      ext := some (field (ws.getD 0 0) 18 46 * 64, (List.range 6).map fun i => ws.getD (i + 1) 0, statusOf s p (ringOf s p).head ws),
      pkt := none }) p
    refine Ends.of_settle (launch_port_kept htakes hty hext) ((clear_of_inward hkept).trans hclear) ?_
    rw [ringOf_of_inward hkept, ringOf_modRing]
    exact ⟨rfl, rfl, rfl, (congrArg State.ctxs hkept :), (congrArg State.queues hkept :)⟩
  case queue =>
    intro q hdr x ws args ext e k bw uses code entry rg bs s htakes hty hkept hplain hmay
    obtain ⟨t, hstart, hclear, hlaunched, -, hqueues⟩ := startLaunch_launched hmay args
    have hexec : exec (if ext then .launchExt (.queue q) ws else .launch (.queue q) ws) s =
        endPacket (queuePkt s q x ws) (startLaunch s (.queue q) x.ctx hdr args (if ext then 2 else 1) none) := by
      cases ext with
      | true =>
        obtain ⟨a, hext, rfl⟩ := hkept rfl
        exact launchExt_queue htakes hty hext
      | false =>
        obtain ⟨hext, rfl, rfl⟩ := hplain rfl
        exact launch_queue htakes hty hext
    rw [hstart] at hexec
    refine Ends.of_settle hexec hclear ⟨hlaunched, { x with busy := true }, ?_, rfl, rfl⟩
    rw [hqueues, queueOf_launchTaken, queueOf_of_takes htakes, Option.map_some]
  case port =>
    intro p hdr ws args ext at' e k bw uses code entry rg bs s htakes hty hkept hplain hmay
    obtain ⟨t, hstart, hclear, hlaunched, hrings, -⟩ := startLaunch_launched hmay args
    have hring : ringOf t p = { ringOf s p with busy := true } := (hrings p).trans (ringOf_launchTaken ..)
    have hexec : ∃ u : State, u.inward = t.inward ∧
        exec (if ext then .launchExt (.port p) ws else .launch (.port p) ws) s = settle u := by
      cases ext with
      | true =>
        obtain ⟨a, hext, rfl⟩ := hkept rfl
        exact ⟨_, writeStatus_inward .., launchExt_port htakes hty hext hstart⟩
      | false =>
        obtain ⟨hext, rfl, rfl, rfl⟩ := hplain rfl
        exact ⟨t, rfl, (launch_port htakes hty hext).trans (congrArg (endPacket _) hstart)⟩
    obtain ⟨u, hu, hexec⟩ := hexec
    refine Ends.of_settle hexec ((clear_of_inward hu).trans hclear) ⟨launched_of_inward hu hlaunched, ?_⟩
    rw [ringOf_of_inward hu, hring]
    exact ⟨rfl, rfl⟩
  case features =>
    intro p ws s htakes hty hagreed hclear
    obtain ⟨u, hu, hexec⟩ : ∃ u : State, u.inward = (modRing s p fun x => { x with agreed := some (agreement s ws) }).inward ∧
        exec (.features (.port p) ws) s = endPacket (portPkt s p ws) (.done u 0) :=
      ⟨_, hostPost_inward .., features_port htakes hty hagreed⟩
    refine ends_portDone rfl hexec ((clear_of_inward hu).trans hclear) fun t ht => ?_
    have hring : ringOf t p = { ringOf s p with agreed := some (agreement s ws), busy := false, ext := none, pkt := none,
                                                head := ((ringOf s p).head + 1) % 2 ^ 32 } := by
      rw [Answered] at ht
      rw [ht, ringOf_finishRing, ringOf_of_inward (writeStatus_inward ..), ringOf_of_inward hu, ringOf_modRing]
    have hbeside : t.besideRings = s.besideRings := by
      rw [Answered] at ht
      rw [ht, finishRing_besideRings, writeStatus_besideRings, besideRings_of_inward hu, modRing_besideRings]
    rw [hring]
    exact ⟨rfl, rfl, rfl, eq_of_besideRings hbeside⟩

end Sys2Proof.Machine
end

section
/-! PROOFS. Scalar, compare and move instructions (O4, O5): the one register that each writes. -/
namespace Sys2Proof.Machine

/-! ## Registers (R159) -/

theorem sGet_sPut (g : Engine) (r : Nat) (v : Word) (k : Nat) : sGet (sPut g r v) k = if k = r ∧ k ≠ 0 then v else sGet g k := by
  by_cases hk : k = 0
  · simp [sGet, hk]
  by_cases hr : r = 0
  · have : k ≠ r := fun h => hk (h.trans hr)
    simp [sPut, hr, hk]
  by_cases hkr : k = r
  · subst hkr
    simp [sGet, sPut, hk]
  · simp [sGet, sPut, hk, hr, hkr, mget_mset_other]

/-- Writing an s register changes nothing else of the record. -/
theorem sPut_frame (g : Engine) (r : Nat) (v : Word) : ({ sPut g r v with s := g.s } : Engine) = g := by
  unfold sPut
  split <;> rfl

/-! ## Words of a descriptor register (R199) -/

theorem getLsbD_setField {k lo n j : Nat} (w : BitVec k) (v : Nat) (hfit : lo + n ≤ k) :
    (setField w lo n v).getLsbD j = if lo ≤ j ∧ j < lo + n then v.testBit (j - lo) else w.getLsbD j := by
  by_cases hj : j < k
  case neg =>
    rw [if_neg (by omega), BitVec.getLsbD_of_ge _ _ (not_lt.mp hj), BitVec.getLsbD_of_ge _ _ (not_lt.mp hj)]
  let low := w.toNat % 2 ^ lo
  let high := w.toNat / 2 ^ lo / 2 ^ n
  have hlow : low < 2 ^ lo := Nat.mod_lt _ (Nat.two_pow_pos lo)
  have hw : w.toNat = 2 ^ lo * (2 ^ n * high + w.toNat / 2 ^ lo % 2 ^ n) + low := by rw [Nat.div_add_mod, Nat.div_add_mod]
  have hset : w.toNat - (w.toNat >>> lo) % 2 ^ n * 2 ^ lo + v % 2 ^ n * 2 ^ lo = 2 ^ lo * (2 ^ n * high + v % 2 ^ n) + low := by
    rw [Nat.shiftRight_eq_div_pow]
    conv_lhs => enter [1, 1]; rw [hw]
    simp only [Nat.mul_add, Nat.mul_comm _ (2 ^ lo)]
    omega
  have hbits (x : Nat) : (2 ^ lo * (2 ^ n * high + x % 2 ^ n) + low).testBit j =
      if lo ≤ j ∧ j < lo + n then x.testBit (j - lo) else (2 ^ lo * (2 ^ n * high) + low).testBit j := by
    have hmod := Nat.mod_lt x (Nat.two_pow_pos n)
    rw [Nat.testBit_two_pow_mul_add _ hlow, Nat.testBit_two_pow_mul_add _ hlow, Nat.testBit_two_pow_mul_add _ hmod, Nat.testBit_mod_two_pow,
      Nat.testBit_two_pow_mul]
    split_ifs <;> grind
  rw [setField, BitVec.getLsbD_ofNat, hset, hbits, BitVec.getLsbD, hw, hbits, decide_eq_true hj, Bool.true_and]
  split <;> rfl

theorem getLsbD_descWord (d : BitVec 256) (w j : Nat) : (descWord d w).getLsbD j = (decide (j < 64) && d.getLsbD (64 * w + j)) := by
  rw [descWord, BitVec.getLsbD_ofNat, Nat.testBit_div_two_pow, Nat.add_comm, BitVec.getLsbD]

/-- A word of a descriptor register that is set is the value, and the others are as before. -/
theorem descWord_setField (d : BitVec 256) {i w : Nat} (hi : i < 4) (v : Word) :
    descWord (setField d (64 * i) 64 v.toNat) w = if w = i then v else descWord d w := by
  refine BitVec.eq_of_getLsbD_eq fun j hj => ?_
  rw [getLsbD_descWord, getLsbD_setField d _ (by omega), decide_eq_true hj, Bool.true_and, apply_ite (BitVec.getLsbD · j), getLsbD_descWord,
    decide_eq_true hj, Bool.true_and]
  by_cases hw : w = i
  · rw [if_pos hw, if_pos (by omega), hw, Nat.add_sub_cancel_left]; rfl
  · rw [if_neg hw, if_neg (by omega)]

/-! ## Instructions that write one register (R200) -/

section
variable {i : Instr} {o : OpInfo} {extra : Bool} {e : Nat} {f : Frame} {body : State → Engine → IRes} {s u : State} {g : Engine}
  (hexec : exec i s = issue e f o extra body s) (hi : issues o extra e f s = true) (hu : u = atIssue o e s) (hg : g = engOf u e)
include hexec hi hu hg

/-- A body that changes nothing leaves only PC moved. -/
theorem ends_retired (hbody : body u g = .ok u) :
    Ends i s fun t => OnlyEngine e u t ∧ Retired e u t ∧ { engOf t e with pc := g.pc } = g := by
  subst hg
  exact ends_engineIs hexec hi hu rfl hbody (engineIs_self e u) fun t ⟨honly, hrec⟩ => ⟨honly, by rw [Retired, hrec], by rw [hrec]⟩

/-- A body that changes only the engine's record, by `change`, leaves it changed so and retired. -/
theorem ends_onEng {change : Engine → Engine} (hbody : body u g = onEng u e change) :
    Ends i s fun t => OnlyEngine e u t ∧ Retired e u t ∧ engOf t e = { change g with pc := (g.pc + 16) % 2 ^ 52 } := by
  subst hg
  exact ends_engineIs hexec hi hu rfl hbody (engineIs_modEng e change u) fun t ⟨honly, hrec⟩ => ⟨honly, by rw [Retired, hrec], hrec⟩

/-- A body that writes an s register leaves it written, retired, and nothing else changed. -/
theorem ends_sPut {r : Nat} {v : Word} (hbody : body u g = onEng u e fun h => sPut h r v) :
    Ends i s fun t => OnlyEngine e u t ∧ Retired e u t ∧ (∀ k, sGet (engOf t e) k = if k = r ∧ k ≠ 0 then v else sGet g k) ∧
      { engOf t e with s := g.s, pc := g.pc } = g := by
  obtain ⟨t, ht, honly, hretired, hrec⟩ := ends_onEng hexec hi hu hg hbody
  refine ⟨t, ht, honly, hretired, fun k => ?_, ?_⟩
  · rw [hrec]; exact sGet_sPut g r v k
  · rw [hrec]; exact (congrArg (fun h : Engine => { h with pc := g.pc }) (sPut_frame g r v) :)

/-- A body that writes a p register leaves it written, retired, and nothing else changed. -/
theorem ends_pPut {r : Nat} {v : Bool} (hbody : body u g = onEng u e fun h => pPut h r v) :
    Ends i s fun t => OnlyEngine e u t ∧ Retired e u t ∧ (∀ k, pGet (engOf t e) k = if k = r ∧ k ≠ 0 then v else pGet g k) ∧
      { engOf t e with p := g.p, pc := g.pc } = g := by
  obtain ⟨t, ht, honly, hretired, hrec⟩ := ends_onEng hexec hi hu hg hbody
  refine ⟨t, ht, honly, hretired, fun k => ?_, ?_⟩
  · rw [hrec]; exact pGet_pPut g r v k
  · rw [hrec]; exact (congrArg (fun h : Engine => { h with pc := g.pc }) (pPut_frame g r v) :)

end

/-- Settles O4: each row is a scalar instruction or a compare of its operation, which writes its one register (`ends_sPut`, `ends_pPut`). -/
theorem scalarAndCompareInstructionsWriteTheirResult : Obligations.ScalarAndCompareInstructionsWriteTheirResult := by
  unfold Obligations.ScalarAndCompareInstructionsWriteTheirResult
  refine ⟨fun p hp e f s hi => ?scalar, fun p hp e f s hi => ?compare⟩
  case scalar =>
    have hexec : exec (p.1 e f) s = scalar p.2 e f s := by
      simp only [List.mem_cons, List.not_mem_nil, or_false] at hp
      rcases hp with rfl | rfl | rfl | rfl | rfl | rfl | rfl | rfl | rfl <;> rfl
    exact ends_sPut hexec hi rfl rfl rfl
  case compare =>
    have hexec : exec (p.1 e f) s = compare p.2 e f s := by
      simp only [List.mem_cons, List.not_mem_nil, or_false] at hp
      rcases hp with rfl | rfl | rfl | rfl | rfl | rfl <;> rfl
    exact ends_pPut hexec hi rfl rfl rfl

/-- The bit of the truth table that PLOG takes (R200). -/
theorem lowField_bit (f : Frame) (a b : Bool) :
    decide (lowField f (64 + (2 * b2n a + b2n b)) 1 = 1) = f.ops.getLsbD (64 + 2 * a.toNat + b.toNat) := by
  have hplace : 64 + (2 * b2n a + b2n b) = 64 + 2 * a.toNat + b.toNat := by cases a <;> cases b <;> rfl
  rw [hplace, lowField, field, BitVec.getLsbD, Nat.testBit_eq_decide_div_mod_eq, Nat.shiftRight_eq_div_pow, Nat.pow_one]

/-- Settles O5: SMOV, DGETW, RSTEP and PLOG write one register (`ends_sPut`, `ends_pPut`), the others the engine's record as their row says. -/
theorem movesDescriptorStepAndPredicateLogic : Obligations.MovesDescriptorStepAndPredicateLogic := by
  unfold Obligations.MovesDescriptorStepAndPredicateLogic
  refine ⟨?moves, ?nop, ?dsetw, ?astep, ?plog⟩
  case moves =>
    simp only [List.forall_mem_cons, List.not_mem_nil, IsEmpty.forall_iff, implies_true, and_true]
    exact ⟨fun e f s hi => ends_sPut (i := .smov e f) (rfl : execSmov e f s = _) hi rfl rfl rfl,
      fun e f s hi => ends_sPut (i := .dgetw e f) (rfl : execDgetw e f s = _) hi rfl rfl rfl,
      fun e f s hi => ends_sPut (i := .rstep e f) (rfl : execRstep e f s = _) hi rfl rfl rfl⟩
  case nop =>
    intro e f s hi
    exact ends_retired (i := .nop e f) (rfl : execNop e f s = _) hi rfl rfl rfl
  case dsetw =>
    intro e f s hi
    obtain ⟨t, ht, honly, hretired, hrec⟩ := ends_onEng (i := .dsetw e f) (rfl : execDsetw e f s = _) hi rfl rfl rfl
    refine ⟨t, ht, honly, hretired, by rw [hrec], fun r hr => ?_, fun w _ => ?_⟩
    · rw [hrec]; exact mget_mset_other 0 _ _ hr
    · rw [hrec, dGet, mget_mset_same]
      exact descWord_setField _ (Nat.mod_lt _ (by decide)) _
  case astep =>
    intro e f s hi
    obtain ⟨t, ht, honly, hretired, hrec⟩ := ends_onEng (i := .astep e f) (rfl : execAstep e f s = _) hi rfl rfl rfl
    exact ⟨t, ht, honly, hretired, by rw [hrec], by rw [hrec]⟩
  case plog =>
    intro e f s hi
    obtain ⟨t, ht, honly, hretired, hp, hrec⟩ := ends_pPut (i := .plog e f) (rfl : execPlog e f s = _) hi rfl rfl rfl
    refine ⟨t, ht, honly, hretired, hrec, fun r => (hp r).trans ?_⟩
    rw [← lowField_bit]

end Sys2Proof.Machine
end

section
/-! PROOFS. Tally operations of an engine (O10): an operation joins its port, and the register that it answers into waits for it. -/
namespace Sys2Proof.Machine

theorem mem_sins (l : List Nat) (k r : Nat) : r ∈ sins l k ↔ r ∈ l ∨ r = k := by
  induction l with
  | nil => simp [sins]
  | cons a l ih =>
    unfold sins
    split
    · simp only [List.mem_cons]; tauto
    next hlt =>
      split
      next h => subst h; simp only [List.mem_cons]; tauto
      next h => simp only [List.mem_cons, ih]; tauto

/-- An operation of engine `e` has joined its port of half `h`, its instruction has retired, and the register that it answers into waits (R187,
R213): what O10 says of every Tally operation. -/
def TallyJoined (u t : State) (e h : Nat) (k : TKind) (off : Nat) (v : Word) (ret : TRet) : Prop :=
  mget [] (tallyOf t h).queues (engPort u.cfg h e) =
    mget [] (tallyOf u h).queues (engPort u.cfg h e) ++ [⟨k, off, v, e, (engOf u e).who.1, ret, u.fresh⟩] ∧
  Retired e u t ∧ { engOf t e with pendRes := (engOf u e).pendRes, pc := (engOf u e).pc } = engOf u e ∧
  (∀ k, k ≠ e → engOf t k = engOf u k) ∧ SameWords u t ∧
  { t with tally := u.tally, engines := u.engines, fresh := u.fresh } = u ∧
  (∀ r, r ∈ (engOf t e).pendRes ↔ r ∈ (engOf u e).pendRes ∨ (r ≠ 0 ∧ ∃ c g, ret = .engine e c g r))

section
variable (u : State) (h port : Nat) (o : TOp)

/-- The Tally memory of the half after an operation has joined a port. -/
theorem tallyOf_tallyEnqueue_same : tallyOf (tallyEnqueue u h port o) h =
    { tallyOf u h with queues := mmod [] (tallyOf u h).queues port fun q => q ++ [{ o with ticket := u.fresh }] } :=
  tallyOf_modTally u h fun t => { t with queues := mmod [] t.queues port fun q => q ++ [{ o with ticket := u.fresh }] }

theorem tallyOf_tallyEnqueue_ne {j : Nat} (hj : j ≠ h) : tallyOf (tallyEnqueue u h port o) j = tallyOf u j :=
  tallyOf_modTally_ne u (fun t => { t with queues := mmod [] t.queues port fun q => q ++ [{ o with ticket := u.fresh }] }) hj

theorem queue_tallyEnqueue : mget [] (tallyOf (tallyEnqueue u h port o) h).queues port =
    mget [] (tallyOf u h).queues port ++ [{ o with ticket := u.fresh }] := by
  rw [tallyOf_tallyEnqueue_same]
  exact mget_mmod_same [] (tallyOf u h).queues port fun q => q ++ [{ o with ticket := u.fresh }]

theorem sameWords_tallyEnqueue : SameWords u (tallyEnqueue u h port o) := by
  intro j
  by_cases hj : j = h
  · subst hj; rw [tallyOf_tallyEnqueue_same]; exact ⟨rfl, rfl⟩
  · rw [tallyOf_tallyEnqueue_ne _ _ _ _ hj]; exact ⟨rfl, rfl⟩

end

/-- Beside the operation that joined, only the record of the engine has changed: its PC and the registers that wait. -/
theorem tallyJoined_of_engineIs {u t : State} {e h : Nat} {k : TKind} {off : Nat} {v : Word} {ret : TRet} {p : List Nat}
    (ht : EngineIs e { engOf u e with pendRes := p, pc := ((engOf u e).pc + 16) % 2 ^ 52 } (engTally u e h k off v ret) t)
    (hp : ∀ r, r ∈ p ↔ r ∈ (engOf u e).pendRes ∨ (r ≠ 0 ∧ ∃ c g, ret = .engine e c g r)) : TallyJoined u t e h k off v ret := by
  obtain ⟨⟨hrest, hothers⟩, hrec⟩ := ht
  have htally (j : Nat) : tallyOf t j = tallyOf (engTally u e h k off v ret) j := congrArg (mget Tally.zero · j) (congrArg State.tally hrest :)
  refine ⟨?_, by rw [Retired, hrec], by rw [hrec], hothers, fun j => ?_, ?_, by rw [hrec]; exact hp⟩
  · rw [htally]; exact queue_tallyEnqueue ..
  · rw [htally]; exact sameWords_tallyEnqueue ..
  · exact congrArg (fun x : State => { x with tally := u.tally, engines := u.engines, fresh := u.fresh }) hrest

theorem engineIs_pendReg (u : State) (e r : Nat) :
    EngineIs e { engOf u e with pendRes := if r = 0 then (engOf u e).pendRes else sins (engOf u e).pendRes r } u (pendReg u e r) := by
  unfold pendReg
  split
  · exact engineIs_self e u
  · exact engineIs_modEng e _ u

section
variable {i : Instr} {o : OpInfo} {extra : Bool} {e : Nat} {f : Frame} {body : State → Engine → IRes} {s u : State} {g : Engine}
  (hexec : exec i s = issue e f o extra body s) (hi : issues o extra e f s = true) (hu : u = atIssue o e s) (hg : g = engOf u e)
  {h : Nat} {k : TKind} {off : Nat} {v : Word}
include hexec hi hu hg

/-- An instruction whose body puts an operation at its port without awaiting a word. -/
theorem ends_tallyAction (hbody : body u g = .ok (engTally u e h k off v (.action e g.who.1 g.who.2))) :
    Ends i s fun t => TallyJoined u t e h k off v (.action e g.who.1 g.who.2) := by
  subst hg
  exact ends_ok hexec hi hu rfl hbody (hu ▸ clear_atIssue hi :)
    (tallyJoined_of_engineIs ((engineIs_self e (engTally u e h k off v _)).setPc _) fun r => ⟨.inl, fun hr => hr.elim id nofun⟩)

/-- An instruction whose body puts an operation at its port that answers into slot 2. -/
theorem ends_tallyReturning (hbody : body u g = tallyReturning u g e f h k off v) :
    Ends i s fun t => TallyJoined u t e h k off v (.engine e g.who.1 g.who.2 (slotOf f 2).2) := by
  subst hg
  have hpend := engineIs_pendReg (engTally u e h k off v (.engine e (engOf u e).who.1 (engOf u e).who.2 (slotOf f 2).2)) e (slotOf f 2).2
  refine ends_ok hexec hi hu rfl hbody (hpend.clear_eq.trans (hu ▸ clear_atIssue hi :)) (tallyJoined_of_engineIs (hpend.setPc _) fun r => ?_)
  generalize (slotOf f 2).2 = r'
  change r ∈ (if r' = 0 then (engOf u e).pendRes else sins (engOf u e).pendRes r') ↔ _
  split
  next h0 => subst h0; simp only [TRet.engine.injEq]; grind
  next h0 => rw [mem_sins]; simp only [TRet.engine.injEq]; grind

end

theorem wordRef_word {s : State} {c : Nat} {w : Word} {h i : Nat} (hr : tallyRef s c w = .ok (.word h i)) : wordRef s c w = .ok (h, i) := by
  rw [wordRef, hr]

theorem fenceRef_fence {s : State} {c : Nat} {w : Word} {n : Nat} (hr : tallyRef s c w = .ok (.fence n)) : fenceRef s c w = .ok n := by
  rw [fenceRef, hr]

/-- Settles O10: with its reference resolved, each instruction's body puts one operation at its port. -/
theorem tallyOperationsJoinTheirPort : Obligations.TallyOperationsJoinTheirPort := by
  unfold Obligations.TallyOperationsJoinTheirPort
  refine ⟨?tldWord, ?tldFence, ?returning, ?fsig, ?ferr⟩
  case tldWord =>
    intro e h i f s hi u g hr
    exact ends_tallyReturning (i := .tld e f) (rfl : execTld e f s = _) hi rfl rfl (by rw [hr])
  case tldFence =>
    intro e n f s hi u g hr
    exact ends_tallyReturning (i := .tld e f) (rfl : execTld e f s = _) hi rfl rfl (by rw [hr])
  case returning =>
    simp only [List.forall_mem_cons, List.not_mem_nil, IsEmpty.forall_iff, implies_true, and_true]
    refine ⟨fun e h i f s hi hr => ?_, fun e h i f s hi hr => ?_⟩
    · exact ends_tallyReturning (i := .tadd e f) (rfl : execTadd e f s = _) hi rfl rfl (by rw [wordRef_word hr])
    · exact ends_tallyReturning (i := .tswap e f) (rfl : execTswap e f s = _) hi rfl rfl (by rw [wordRef_word hr])
  case fsig =>
    intro e n f s hi u g hr
    exact ends_tallyAction (i := .fsig e f) (rfl : execFsig e f s = _) hi rfl rfl (by rw [fenceRef_fence hr])
  case ferr =>
    intro e n f s hi u g hr
    exact ends_tallyAction (i := .ferr e f) (rfl : execFerr e f s = _) hi rfl rfl (by rw [fenceRef_fence hr])

end Sys2Proof.Machine
end

section
/-! PROOFS. Waits (O11): what TWAIT and FWAIT find at their word, a fence that is abandoned at once, and the release of a wait. -/
namespace Sys2Proof.Machine

/-! ## An instruction that retires or waits (R210, R211) -/

section
variable {i : Instr} {o : OpInfo} {extra : Bool} {e : Nat} {f : Frame} {body : State → Engine → IRes} {s u : State} {g : Engine}
  (hexec : exec i s = issue e f o extra body s) (hi : issues o extra e f s = true) (hu : u = atIssue o e s) (hg : g = engOf u e)
include hexec hi hu hg

/-- A body that records a wait leaves it recorded and PC at the instruction. -/
theorem ends_waits {w : WaitRec} (hbody : body u g = .jump (modEng u e fun x => { x with wait := some w }) g.pc) :
    Ends i s fun t => OnlyEngine e u t ∧ (engOf t e).wait = some w ∧ (engOf t e).pc = g.pc % 2 ^ 52 ∧
      { engOf t e with wait := g.wait, pc := g.pc } = g := by
  subst hg
  obtain ⟨honly, hrec⟩ := (engineIs_modEng e (fun x => { x with wait := some w }) u).setPc (engOf u e).pc
  refine ends_jump hexec hi hu rfl hbody (hu ▸ clear_atIssue hi :) ⟨honly, ?_, ?_, ?_⟩ <;> rw [hrec]

end

/-! ## A fence takes an error (R269, R441, R445) -/

theorem fenceOf_modFence_same (s : State) (n : Nat) (f : Fence → Fence) : fenceOf (modFence s n f) n = f (fenceOf s n) := by
  rw [fenceOf, modFence, tallyOf_modTally]
  exact mget_mmod_same ..

/-- A fence in use that takes a code is in error with that code. -/
theorem fenceOf_fenceErr {s : State} {n : Nat} (code : Nat) (h : (fenceOf s n).state ≠ 0) :
    fenceOf (fenceErr s n code) n = { fenceOf s n with state := 2, code := code } := by
  rw [fenceErr, if_neg h]
  exact fenceOf_modFence_same s n fun x => { x with state := 2, code := code }

/-- An error of a fence may end the wait of an engine, and changes nothing else of it. -/
theorem engOf_fenceErr (s : State) (n code k : Nat) : ∃ w, engOf (fenceErr s n code) k = { engOf s k with wait := w } := by
  unfold fenceErr
  split
  · exact ⟨_, rfl⟩
  · exact engOf_presentWord ..

theorem clear_fenceErr (s : State) (n code : Nat) : clear (fenceErr s n code) = clear s := by
  unfold fenceErr
  split <;> rfl

/-- A wait on a fence that is no orphan, is not in use or has reached the value leaves it as it is (R445). -/
theorem orphanCheck_self {s : State} {n : Nat} {v : Word}
    (h : orphaned s n = false ∨ (fenceOf s n).state ≠ 1 ∨ v.toNat ≤ (fenceOf s n).value.toNat) : orphanCheck s n v = s := by
  refine if_neg fun hc => ?_
  simp only [Bool.and_eq_true, decide_eq_true_eq] at hc
  obtain ⟨⟨hstate, hvalue⟩, horphan⟩ := hc
  rcases h with h | h | h
  · exact nomatch horphan.symm.trans h
  · exact h hstate
  · exact absurd hvalue (not_lt.mpr h)

/-- A wait on an orphaned fence in use whose VALUE is below the operand abandons it at once (R445). -/
theorem orphanCheck_abandons {s : State} {n : Nat} {v : Word} (horphan : orphaned s n = true) (hstate : (fenceOf s n).state = 1)
    (hvalue : (fenceOf s n).value.toNat < v.toNat) : orphanCheck s n v = fenceErr s n cABANDONED :=
  if_pos (by simp [horphan, hstate, hvalue])

/-! ## The release of a wait (R210, R211, R270) -/

/-- The record of an engine whose wait has ended with `r`. -/
def Engine.released (g : Engine) (w : WaitRec) (r : Word) : Engine :=
  let x := { g with wait := none, pc := (g.pc + 16) % 2 ^ 52 }
  if w.fence.isSome then sPut x w.reg r else x

theorem released_of_word {g : Engine} {w : WaitRec} (r : Word) (h : w.fence = none) :
    g.released w r = { g with wait := none, pc := (g.pc + 16) % 2 ^ 52 } := by
  rw [Engine.released, h]
  rfl

theorem released_of_fence {g : Engine} {w : WaitRec} {n : Nat} (r : Word) (h : w.fence = some n) :
    g.released w r = sPut { g with wait := none, pc := (g.pc + 16) % 2 ^ 52 } w.reg r := by
  rw [Engine.released, h]
  rfl

/-- An event that releases the wait of a present engine. -/
theorem ends_releaseWait {i : Instr} {e : Nat} {s : State} {w : WaitRec} {r : Word} {c : Bool}
    (hexec : exec i s = unitRes (s.cfg.hasEngine e) s c (releaseWait s e w r)) (hunit : s.cfg.hasEngine e = true) (hc : c = true)
    (hclear : clear s = true) : Ends i s fun t => OnlyEngine e s t ∧ engOf t e = (engOf s e).released w r :=
  ⟨_, hexec.trans (unitRes_clear hunit hc hclear), engineIs_modEng e (·.released w r) s⟩

/-! ## The obligation -/

/-- Settles O11: at a readable word each wait retires (`ends_retired`) or is recorded (`ends_waits`), an orphaned fence is abandoned first
(`orphanCheck_abandons`), and a release is `releaseWait`. -/
theorem waitsRetireHoldAndAreReleased : Obligations.WaitsRetireHoldAndAreReleased := by
  unfold Obligations.WaitsRetireHoldAndAreReleased
  refine ⟨⟨?twait, ?fwait⟩, ?twaitRelease, ?fwaitRelease⟩
  case twait =>
    intro e h off f s hi u g v href hawake hbad
    clear_value (hv : v = _) (hg : g = _) (hu : u = _)
    obtain ⟨body, hexec, hbody⟩ : ∃ body, exec (.twait e f) s = issue e f ⟨.boundaryOnly, 6, [.s, .s], [(0, 64), (82, 2)]⟩ true body s ∧
        body u g = if condHolds (lowField f 82 2) (tallyWord u h off) v then .ok u
          else .jump (modEng u e fun x => { x with wait := some ⟨h, off, none, v, lowField f 82 2, 0, none⟩ }) g.pc := by
      refine ⟨_, (rfl : execTwait e f s = _), ?_⟩
      rcases href with ⟨i, href, rfl⟩ | ⟨n, href, rfl, rfl⟩ <;>
        simp only [href, hawake, hbad, ← hv, Bool.not_true, Bool.false_eq_true, if_false]
    cases hcond : condHolds (lowField f 82 2) (tallyWord u h off) v with
    | true =>
      simp only [hcond, if_true] at hbody ⊢
      exact ends_retired hexec hi hu hg hbody
    | false =>
      simp only [hcond, Bool.false_eq_true, if_false] at hbody ⊢
      exact ends_waits hexec hi hu hg hbody
  case fwait =>
    intro e n f s hi u g v w href hawake hbad
    clear_value (hw : w = _) (hv : v = _) (hg : g = _) (hu : u = _)
    obtain ⟨body, hexec, hbody⟩ : ∃ body, exec (.fwait e f) s = issue e f ⟨.boundaryOnly, 6, [.s, .s, .s], [(0, 64)]⟩ true body s ∧
        body u g = (waitResult (orphanCheck u n v) w).elim (.jump (modEng (orphanCheck u n v) e fun x => { x with wait := some w }) g.pc)
          fun r => .ok (modEng (orphanCheck u n v) e fun x => sPut x (slotOf f 2).2 r) := by
      refine ⟨_, (rfl : execFwait e f s = _), ?_⟩
      simp only [fenceRef_fence href, hawake, hbad, ← hv, ← hw, Bool.not_true, Bool.false_eq_true, if_false]
      cases waitResult (orphanCheck u n v) w <;> rfl
    refine ⟨fun hstays => ?stays, fun horphan hstate hvalue => ?abandoned⟩
    case stays =>
      rw [orphanCheck_self hstays] at hbody
      cases hresult : waitResult u w with
      | some r =>
        rw [hresult] at hbody
        obtain ⟨t, ht, honly, hretired, hs, -⟩ := ends_sPut hexec hi hu hg hbody
        exact ⟨t, ht, honly, hretired, hs⟩
      | none =>
        rw [hresult] at hbody
        exact ends_waits hexec hi hu hg hbody
    case abandoned =>
      rw [orphanCheck_abandons horphan hstate hvalue] at hbody
      have hfence := fenceOf_fenceErr cABANDONED (by rw [hstate]; decide : (fenceOf u n).state ≠ 0)
      have hresult : waitResult (fenceErr u n cABANDONED) w = some (BitVec.ofNat 64 cABANDONED) := by
        rw [hw, waitResult]
        simp only [hfence, if_true]
      rw [hresult] at hbody
      obtain ⟨x, hx⟩ := engOf_fenceErr u n cABANDONED e
      have hrec := ((engineIs_modEng e (fun x => sPut x (slotOf f 2).2 (BitVec.ofNat 64 cABANDONED)) (fenceErr u n cABANDONED)).setPc
        (g.pc + 16)).2
      rw [hx, ← hg] at hrec
      refine ends_ok hexec hi hu hg hbody ((clear_fenceErr ..).trans (hu ▸ clear_atIssue hi)) ⟨?_, ?_, ?_, fun k => ?_⟩
      · rw [Retired, hrec, hg]
      · exact (congrArg Fence.state hfence :)
      · exact (congrArg Fence.code hfence :)
      · rw [hrec]
        exact (sGet_sPut { g with wait := x } (slotOf f 2).2 (BitVec.ofNat 64 cABANDONED) k :)
  case twaitRelease =>
    intro e w r s hunit hclear hwait hready hfence
    obtain ⟨t, ht, honly, hrec⟩ := ends_releaseWait (i := .twaitRelease e) (w := w) (r := r) (c := w.fence.isNone) (by
      change execTwaitRelease e s = _
      rw [execTwaitRelease]
      simp only [hwait, hready]) hunit (by rw [hfence]; rfl) hclear
    rw [released_of_word r hfence] at hrec
    exact ⟨t, ht, honly, by rw [Retired, hrec], by rw [hrec], by rw [hrec]⟩
  case fwaitRelease =>
    intro e n w r s hunit hclear hwait hready hfence
    obtain ⟨t, ht, honly, hrec⟩ := ends_releaseWait (i := .fwaitRelease e) (w := w) (r := r) (c := w.fence.isSome) (by
      change execFwaitRelease e s = _
      rw [execFwaitRelease]
      simp only [hwait, hready]) hunit (by rw [hfence]; rfl) hclear
    rw [released_of_fence r hfence] at hrec
    have hframe := sPut_frame { engOf s e with wait := none, pc := ((engOf s e).pc + 16) % 2 ^ 52 } w.reg r
    rw [← hrec] at hframe
    refine ⟨t, ht, honly, congrArg Engine.pc hframe, congrArg Engine.wait hframe, fun k => ?_, ?_⟩
    · rw [hrec]
      exact sGet_sPut ..
    · exact congrArg (fun h : Engine => { h with wait := (engOf s e).wait, pc := (engOf s e).pc }) hframe

end Sys2Proof.Machine
end

section
/-! PROOFS. LDB and STB (O12): the bytes that move between the scratchpad and the Bolt buffer. -/
namespace Sys2Proof.Machine

/-- A byte after a write: of the bytes written, or as it was. -/
theorem bget_bwrite (m : List (Nat × Byte)) (a : Nat) (bs : List Byte) (x : Nat) :
    bget (bwrite m a bs) x = if a ≤ x ∧ x < a + bs.length then bs.getD (x - a) 0 else bget m x := by
  split
  next h =>
    obtain ⟨j, rfl⟩ := Nat.exists_eq_add_of_le h.1
    rw [Nat.add_sub_cancel_left]
    exact bget_bwrite_inside m a bs j (by omega)
  next h => exact bget_bwrite_outside m a bs x (by omega)

theorem getD_bread {m : List (Nat × Byte)} {a n j : Nat} (h : j < n) : (bread m a n).getD j 0 = bget m (a + j) := by
  simp [bread, h]

@[simp] theorem length_bread (m : List (Nat × Byte)) (a n : Nat) : (bread m a n).length = n := by simp [bread]

/-- A write of Bolt bytes that meets no bad word writes them and changes nothing else (R646). -/
theorem boltWrite_good {s : State} {c a : Nat} {bs : List Byte} (h : anyBad (clOf s c).boltBad a bs.length = false) :
    ∃ t, boltWrite s c a bs = (t, false) ∧ { t with clusters := s.clusters } = s ∧
      clOf t c = { clOf s c with bolt := bwrite (clOf s c).bolt a bs } ∧ ∀ k, k ≠ c → clOf t k = clOf s k := by
  let write := fun k : Cluster => { k with bolt := bwrite (clOf s c).bolt a bs, boltBad := (clOf s c).boltBad }
  refine ⟨modCl s c write, ?_, rfl, clOf_modCl s c write, fun k hk => clOf_modCl_ne s write hk⟩
  rw [boltWrite, wordWrite_good h]

/-- Where besides the record of engine `e` only the draw counter may differ, the rest is as before. -/
theorem EngineIs.beside_fresh {e m : Nat} {h : Engine} {u t : State} (a : EngineIs e h { u with fresh := m } t) :
    OnlyEngine e u { t with fresh := u.fresh } :=
  ⟨(congrArg (fun x : State => { x with fresh := u.fresh }) a.1.1 :), a.1.2⟩

/-- Settles O12: LDB writes what it sees of the Bolt bytes (`boltSeen_sees`) into the scratchpad, STB the view's bytes into the Bolt buffer
(`boltWrite_good`). -/
theorem ldbAndStbMoveBoltBytes : Obligations.LdbAndStbMoveBoltBytes := by
  unfold Obligations.LdbAndStbMoveBoltBytes
  refine ⟨?ldb, ?stb⟩
  case ldb =>
    intro e a f s hi u g v o now hview ha hquiet hbolt hspad
    clear_value (hnow : now = _) (ho : o = _) (hv : v = _) (hg : g = _) (hu : u = _)
    obtain ⟨m, bs, hseen, hlen, hbytes⟩ := boltSeen_sees u (e / 4) g.who.1 g.who.2 o a v.extent
    obtain ⟨t, hwrite, ht⟩ := spadWrite_good (s := { u with fresh := m }) (e := e) (a := v.base) (bs := bs)
      (by rw [hlen]; exact hg ▸ hspad)
    have ht : EngineIs e { g with spad := bwrite g.spad v.base bs } { u with fresh := m } t := hg ▸ ht
    have hdone := ht.setPc (g.pc + 16)
    have hspad (x : Nat) := bget_bwrite g.spad v.base bs x
    rw [hlen] at hspad
    refine ends_ok (i := .ldb e f) (rfl : execLdb e f s = _) hi hu hg (t := t) ?_ (ht.clear_eq.trans (hu ▸ clear_atIssue hi :))
      ⟨hdone.beside_fresh, ?_, fun x hx => ?_, fun x hx => ?_, ?_⟩
    · simp only [← hv, hview, boltOperand, ← ho, ha, boltChecked_good hquiet hbolt, hseen, hwrite, Bool.false_eq_true, if_false]
    · rw [Retired, hdone.2, hg]
    · rw [hdone.2, hspad, if_pos hx, hnow]
      exact hbytes (x - v.base) (by omega)
    · rw [hdone.2, hspad, if_neg hx]
    · rw [hdone.2]
  case stb =>
    intro e a f s hi u g v hview ha hquiet hbolt hspad
    clear_value (hv : v = _) (hg : g = _) (hu : u = _)
    obtain ⟨t, hwrite, hrest, hcl, hothers⟩ := boltWrite_good (s := u) (c := e / 4) (a := a) (bs := bread g.spad v.base v.extent)
      (by rwa [length_bread])
    have heng (k : Nat) : engOf t k = engOf u k := congrArg (mget Engine.idle · k) (congrArg State.engines hrest :)
    have hdone := (engineIs_self e t).setPc (g.pc + 16)
    rw [heng, ← hg] at hdone
    refine ends_ok (i := .stb e f) (rfl : execStb e f s = _) hi hu hg (t := t) ?_
      ((clear_eq_of_sv (congrArg State.sv hrest :)).trans (hu ▸ clear_atIssue hi :)) ⟨⟨?_, fun k hk => ?_⟩, ?_, fun x => ?_, hothers, ?_, ?_⟩
    · simp only [← hv, hview, boltOperand, ha, spadChecked_good hquiet (hg ▸ hspad), ← hg, hwrite, Bool.false_eq_true, if_false]
    · exact congrArg (fun x : State => { x with engines := u.engines }) hrest
    · exact (hdone.1.2 k hk).trans (heng k)
    · rw [Retired, hdone.2, hg]
    · have hcl : (clOf (setPc t e (g.pc + 16)) (e / 4)).bolt = bwrite (clOf u (e / 4)).bolt a (bread g.spad v.base v.extent) :=
        congrArg Cluster.bolt hcl
      rw [hcl, bget_bwrite, length_bread]
      split
      next hx => exact getD_bread (by omega)
      next => rfl
    · exact congrArg (fun k : Cluster => { k with bolt := (clOf u (e / 4)).bolt }) hcl
    · rw [hdone.2]

end Sys2Proof.Machine
end

section
/-! PROOFS. The start of asynchronous operations (O13): an operation stands last in issue order, and what PREF, PUSH, GATH and SCAT start. -/
namespace Sys2Proof.Machine

/-! ## An operation stands last in issue order (R189 to R191) -/

theorem bwCount_frame (s : State) (a : Attr) (n : Nat) : ∃ b, bwCount s a n = { s with bw := b } := by
  unfold bwCount modBwMaster
  dsimp only
  split <;> exact ⟨_, rfl⟩

/-- A queued operation of a context that is not being torn down starts where its completion reference resolves and the engine holds fewer than
16; the lines that it reserves are counted (R385). -/
theorem startAsync_queued {u : State} {g : Engine} {e : Nat} {f : Frame} {kind : AKind} {w : Option (Nat × Nat)}
    (hw : completionWord u g f = .ok w) (hn : asyncCount u e < 16) (hlive : (ctxOf u g.who.1).state ≠ .tearing) (n : Nat) :
    ∃ b, startAsync u g e f kind true n = .ok { u with
      asyncs := u.asyncs ++ [{ startedOp u g e kind w with queued := true, reserved := n }], fresh := u.fresh + 1, bw := b } := by
  unfold startAsync
  simp only [hw, not_le.mpr hn, if_false, Bool.true_and, decide_eq_true_eq, hlive]
  by_cases h0 : n = 0
  · exact ⟨u.bw, by rw [if_pos h0]; rfl⟩
  · obtain ⟨b, hb⟩ := bwCount_frame u (engWho u e g.who.1 g.who.2 g.bwclass).attr n
    exact ⟨b, by rw [if_neg h0, hb]; rfl⟩

/-- What a start records of an operation: its engine and context, what it does, its completion word and its place, and no error. -/
def StartedAs (a : AsyncOp) (e : Nat) (g : Engine) (w : Option (Nat × Nat)) (queued : Bool) (kind : AKind) : Prop :=
  a.eng = e ∧ (a.ctx, a.gen) = g.who ∧ a.kind = kind ∧ a.word = w ∧ a.queued = queued ∧ a.err = none ∧ a.cut = false

/-- Where an operation has been put last in issue order and the instruction retires, it has started. -/
theorem started_setPc {u v : State} {e : Nat} {g : Engine} {w : Option (Nat × Nat)} {queued : Bool} {kind : AKind} {a : AsyncOp}
    (hg : g = engOf u e) (ha : StartedAs a e g w queued kind) (hasyncs : v.asyncs = u.asyncs ++ [a])
    (hrest : { v with asyncs := u.asyncs, bw := u.bw, fresh := u.fresh } = u) :
    Started e w queued kind u (setPc v e (g.pc + 16)) := by
  subst hg
  have heng (k : Nat) : engOf v k = engOf u k := congrArg (mget Engine.idle · k) (congrArg State.engines hrest :)
  obtain ⟨⟨-, hothers⟩, hrec⟩ := (engineIs_self e v).setPc ((engOf u e).pc + 16)
  rw [heng] at hrec
  exact ⟨⟨a, hasyncs, ha⟩, by rw [Retired, hrec], by rw [hrec], fun k hk => (hothers k hk).trans (heng k),
    (congrArg (fun x : State => { x with engines := u.engines }) hrest :)⟩

section
variable {i : Instr} {o : OpInfo} {extra : Bool} {e : Nat} {f : Frame} {body : State → Engine → IRes} {s u : State} {g : Engine}
  (hexec : exec i s = issue e f o extra body s) (hi : issues o extra e f s = true) (hu : u = atIssue o e s) (hg : g = engOf u e)
  {w : Option (Nat × Nat)} {kind : AKind}
include hexec hi hu hg

/-- A body that starts an operation, after draws at most, leaves it started. -/
theorem ends_started {m : Nat} (hw : completionWord u g f = .ok w) (hn : asyncCount u e < 16)
    (hbody : body u g = startAsync { u with fresh := m } g e f kind false 0) : Ends i s fun t => Started e w false kind u t := by
  have hstart := startAsync_started (u := { u with fresh := m }) (kind := kind) (hw :) (hn :)
  exact ends_ok hexec hi hu hg (hbody.trans hstart) (hu ▸ clear_atIssue hi :) (started_setPc hg ⟨rfl, rfl, rfl, rfl, rfl, rfl, rfl⟩ rfl rfl)

end

/-! ## PREF -/

theorem openLines_aside (who : Who) (s : State) (lines : List Nat) : (openLines who s lines).1.aside = s.aside := by
  unfold openLines
  split
  · rfl
  · refine foldl_fst_aside (fun p a => ?_) lines (s, 0)
    split
    case h_1 e | h_2 e => exact aside_of_eq e (xlat_aside ..)

/-- Settles O13: each body starts its operation, with the operand that it read from the Bolt region. -/
theorem prefetchPushGatherAndScatterStart : Obligations.PrefetchPushGatherAndScatterStart := by
  unfold Obligations.PrefetchPushGatherAndScatterStart
  refine ⟨⟨?pref, ?push⟩, ?rows⟩
  case pref =>
    intro e w f s o hi u g d win part off exb hd hwin hmx hbolt hcond v hclear hlive hw hn
    have heng (k : Nat) : engOf v k = engOf u k := congrArg (mget Engine.idle · k) (congrArg State.engines (openLines_aside ..) :)
    rcases hlines : openLines (engWho u e g.who.1 g.who.2 g.bwclass) u (touchedLines (if (tensorOf d).spc = 5 ∧ part = false then
      [((tensorOf d).aux + 4 * win.row0, 0, 4 * win.rows)] else (winLayout (tensorOf d) win part).segs)) with ⟨v', n⟩
    obtain rfl : v = v' := congrArg Prod.fst hlines
    clear_value (hexb : exb = _) (hoff : off = _) (hpart : part = _) (hwindow : win = _) (hdesc : d = _) (hg : g = _) (hu : u = _)
    have hlegal : (!tensorLegal d || !winLegal (tensorOf d) win || part && !isMx (tensorOf d).fmt) = false := by
      simpa [hd, hwin] using hmx
    obtain ⟨a, ha⟩ := Option.isSome_iff_exists.mp hbolt
    have hbad : (exb.elim false fun x => (boltAt u (e / 4) g.who.1 g.who.2 x.2.2 (if x.1 then 8 else 2)).isNone) = false := by
      cases hx : exb with
      | none => rfl
      | some x => simpa [Option.isSome_iff_ne_none] using hcond x hx
    obtain ⟨b, hstart⟩ := startAsync_queued (kind := .pref d off (srcS g f 2) win.rows win.cols part exb) hw hn hlive n
    refine ends_ok (i := .pref e f) (rfl : execPref e f s = _) hi hu hg (Eq.trans ?_ hstart) hclear
      (started_setPc (hg.trans (heng e).symm) ⟨rfl, rfl, rfl, rfl, rfl, rfl, rfl⟩ rfl rfl)
    simp only [← hdesc, ← hwindow, ← hpart, boltOperand, Nat.add_zero, ← hoff, hlegal, Bool.false_eq_true, if_false, Bool.and_eq_true,
      decide_eq_true_eq, Bool.not_eq_true', ha, ← hexb, hbad, hlines]
  case push =>
    intro e a w f s o hi u g d win part off need len hd hwin hmx ha hw hn
    clear_value (hlen : len = _) (hneed : need = _) (hoff : off = _) (hpart : part = _) (hwindow : win = _) (hdesc : d = _) (hg : g = _) (hu : u = _)
    have hlegal : (!tensorLegal d || !winLegal (tensorOf d) win || part && !isMx (tensorOf d).fmt) = false := by
      simpa [hd, hwin] using hmx
    refine ends_started (i := .push e f) (m := u.fresh) (rfl : execPush e f s = _) hi hu hg hw hn ?_
    simp only [← hdesc, ← hwindow, ← hpart, boltOperand, Nat.add_zero, ← hoff, hlegal, Bool.false_eq_true, if_false, Bool.and_eq_true, decide_eq_true_eq,
      Bool.not_eq_true', ← hneed, ha, ← hlen]
  case rows =>
    intro e a l w f s o hi u g d n off size p list hd ha hl hquiet hgood hw hn
    clear_value (hlist : list = _) (hp : p = _) (hsize : size = _) (hoff : off = _) (hrows : n = _) (hdesc : d = _) (hg : g = _) (hu : u = _)
    obtain ⟨m, bs, hseen, hlen, hbytes⟩ := boltSeen_sees u (e / 4) g.who.1 g.who.2 p l (4 * n)
    have hends {i : Instr} {mk : State → BitVec 256 → Nat → Nat → List Nat → AKind} (hexec : exec i s = issueRows e f mk s) :
        Ends i s fun t => Started e w false (mk { u with fresh := m } d off a (unpackBytes 32 bs n)) u t := by
      refine ends_started hexec hi hu hg (m := m) hw hn ?_
      simp only [← hdesc, ← hrows, hd, boltOperand, Nat.add_zero, ← hoff, ← hsize, ← hp, ha, hl, boltChecked_good hquiet hgood, hseen,
        Bool.not_true, Bool.false_eq_true, if_false]
    have hread : list bs := hlist ▸ ⟨hlen, hbytes⟩
    refine ⟨?_, ?_⟩
    · obtain ⟨t, ht, hstart⟩ := hends (i := .gath e f) (rfl : execGath e f s = _)
      exact ⟨t, ht, bs, hread, hstart⟩
    · obtain ⟨t, ht, hstart⟩ := hends (i := .scat e f) (rfl : execScat e f s = _)
      refine ⟨t, ht, bs, hread, ?_⟩
      have hcount : (unpackBytes 32 bs n).length = n := by simp [unpackBytes]
      rw [hcount, ← hsize] at hstart
      exact hstart

end Sys2Proof.Machine
end

section
/-! PROOFS. ST (O14): the rows that it converts, the chunks that it writes, and the register that a compressing store moves on. -/
namespace Sys2Proof.Machine

/-- A map over the elements of a table by their places. -/
theorem map_zipIdx_map_range {α β : Type} (n : Nat) (h : Nat → α) (F : α × Nat → β) :
    ((List.range n).map h).zipIdx.map F = (List.range n).map fun i => F (h i, i) :=
  List.ext_getElem (by simp) (by simp)

/-- The rows of the source view, converted (R205). -/
def storeRows (u : State) (g : Engine) (f : Frame) (v : View) (fmt : Nat) : List (List Nat × List Nat) :=
  (List.range v.rows).map fun r =>
    convRow fmt (rowVals g v r) (lowField f 80 2) (lowField f 79 1 = 1) (fun c => elemBits u g 0 (r * v.cols + c))

/-- The scales that an MX destination takes behind the rows (R205). -/
def storeScales (tn : Tensor) (win : Win) (rows : List (List Nat × List Nat)) : List (Nat × List Byte) :=
  if isMx tn.fmt then rows.zipIdx.map fun x => (winScaleAddr tn win x.2, x.1.2.map fun b => BitVec.ofNat 8 b) else []

/-- A write of `chunks` has started, and the record of the engine is `h` with PC behind the instruction (R189 to R191). -/
def WriteStarted (e : Nat) (w : Option (Nat × Nat)) (chunks : List (Nat × List Byte)) (u : State) (g h : Engine) (t : State) : Prop :=
  (∃ a : AsyncOp, t.asyncs = u.asyncs ++ [a] ∧ a.eng = e ∧ (a.ctx, a.gen) = g.who ∧ a.kind = .write chunks ∧ a.word = w ∧ a.queued = false) ∧
  engOf t e = { h with pc := (g.pc + 16) % 2 ^ 52 } ∧ (∀ k, k ≠ e → engOf t k = engOf u k) ∧ t.clusters = u.clusters ∧ t.sv = u.sv

/-- The state in which a write of `chunks` stands last in issue order. -/
def writeIssued (u : State) (g : Engine) (e : Nat) (w : Option (Nat × Nat)) (chunks : List (Nat × List Byte)) : State :=
  { u with asyncs := u.asyncs ++ [startedOp u g e (.write chunks) w], fresh := u.fresh + 1 }

/-- An instruction whose body issues a write and else changes only the engine's record. -/
theorem ends_write {i : Instr} {o : OpInfo} {extra : Bool} {e : Nat} {f : Frame} {body : State → Engine → IRes} {s u : State} {g h : Engine}
    {w : Option (Nat × Nat)} {chunks : List (Nat × List Byte)} {t : State} (hexec : exec i s = issue e f o extra body s)
    (hi : issues o extra e f s = true) (hu : u = atIssue o e s) (hg : g = engOf u e) (hbody : body u g = .ok t)
    (ht : EngineIs e h (writeIssued u g e w chunks) t) : Ends i s (WriteStarted e w chunks u g h) := by
  obtain ⟨⟨hrest, hothers⟩, hrec⟩ := ht.setPc (g.pc + 16)
  exact ends_ok hexec hi hu hg hbody (ht.clear_eq.trans (hu ▸ clear_atIssue hi :))
    ⟨⟨_, congrArg State.asyncs hrest, rfl, rfl, rfl, rfl, rfl⟩, hrec, hothers, (congrArg State.clusters hrest :), (congrArg State.sv hrest :)⟩

/-- Settles O14: the chunks begin with the converted rows, or with the fibres of a compressing store, which moves its register on. -/
theorem storeConvertsItsView : Obligations.StoreConvertsItsView := by
  unfold Obligations.StoreConvertsItsView
  intro e w f s o hi u g v d tn win hview hlegal hquiet hspad hw hn
  clear_value (hwin : win = _) (htn : tn = _) (hd : d = _) (hv : v = _) (hg : g = _) (hu : u = _)
  have hread : spadChecked u e v.base v.extent = (u, false) := spadChecked_good hquiet (hg ▸ hspad)
  let rows := storeRows u g f v tn.fmt
  by_cases hcmp : lowField f 78 1 = 1
  case pos =>
    simp only [hcmp, decide_true] at hlegal
    let c := compressFibres tn (lowField f 58 20) rows 0 (srcS g f 2).toNat
    let chunks := c.1 ++ storeScales tn { win with row0 := lowField f 58 20, col0 := 0 } rows
    let put := fun h : Engine => sPut h (slotOf f 2).2 (BitVec.ofNat 64 c.2)
    have hput : EngineIs e (put g) (writeIssued u g e w chunks) (modEng (writeIssued u g e w chunks) e put) := hg ▸ engineIs_modEng e put _
    obtain ⟨t, ht, ⟨a, hasyncs, heng, hwho, hkind, hword, hqueued⟩, hrec, hothers, hcl, hsv⟩ :=
      ends_write (i := .st e f) (rfl : execSt e f s = _) hi hu hg (t := modEng (writeIssued u g e w chunks) e put) (by
        simp only [← hv, hview, ← hd, ← htn, ← hwin, hlegal, hread, hcmp, startAsync_started hw hn, decide_true, Bool.not_true, Bool.false_eq_true,
          if_false, if_true]
        rfl) hput
    refine ⟨t, ht, chunks, a, hasyncs, heng, hwho, hkind, hword, hqueued, fun h0 => absurd (h0.symm.trans hcmp) (by decide),
      fun _ => ⟨List.take_left, fun r => ?_⟩, ?_, fun h0 => absurd (h0.symm.trans hcmp) (by decide), ?_, hothers, hcl, hsv⟩
    · rw [hrec]; exact (sGet_sPut g (slotOf f 2).2 (BitVec.ofNat 64 c.2) r :)
    · rw [Retired, hrec, hg]
    · rw [hrec]; exact (congrArg (fun h : Engine => { h with pc := g.pc }) (sPut_frame g (slotOf f 2).2 (BitVec.ofNat 64 c.2)) :)
  case neg =>
    simp only [hcmp, decide_false] at hlegal
    let chunks := (rows.zipIdx.map fun x => (winRowAddr tn win x.2, packBytes (fmtWidth tn.fmt) x.1.1)) ++ storeScales tn win rows
    obtain ⟨t, ht, ⟨a, hasyncs, heng, hwho, hkind, hword, hqueued⟩, hrec, hothers, hcl, hsv⟩ :=
      ends_write (i := .st e f) (rfl : execSt e f s = _) hi hu hg (h := g) (t := writeIssued u g e w chunks) (by
        simp only [← hv, hview, ← hd, ← htn, ← hwin, hlegal, hread, hcmp, startAsync_started hw hn, decide_false, Bool.not_true, Bool.false_eq_true,
          if_false]
        rfl) ⟨⟨rfl, fun _ _ => rfl⟩, hg.symm⟩
    refine ⟨t, ht, chunks, a, hasyncs, heng, hwho, hkind, hword, hqueued,
      fun _ => (List.take_left' (by simp [rows, storeRows])).trans (map_zipIdx_map_range ..), fun h1 => absurd h1 hcmp,
      by rw [Retired, hrec, hg], fun _ => by rw [hrec], by rw [hrec], hothers, hcl, hsv⟩

end Sys2Proof.Machine
end

section
/-! PROOFS. Link operations and receive windows (O15): what LPUT, LRED, LGET and LPUTM start, and the window that LPOST opens and LCLOSE closes. -/
namespace Sys2Proof.Machine

/-! ## Cutting the image of an LPUTM changes only the memory side (R198, R217) -/

theorem xlatXlink_aside (s : State) (who : Who) (lkey va : Nat) (wr : Bool) : (xlatXlink s who lkey va wr).1.aside = s.aside := by
  unfold xlatXlink
  split
  case h_1 e => exact aside_of_eq e (xlat_aside ..)
  case h_2 e =>
    dsimp only
    split <;> exact aside_of_eq e (xlat_aside ..)

theorem readXlink_aside (s : State) (who : Who) (lkey : Nat) (p : Nat × Nat × Nat) : (readXlink s who lkey p).1.aside = s.aside := by
  unfold readXlink
  split
  case h_1 e => exact aside_of_eq e (xlatXlink_aside ..)
  case h_2 t q e =>
    have ht := (countLine_aside t who q).trans (aside_of_eq e (xlatXlink_aside ..))
    split
    case h_1 e | h_2 e | h_3 e => exact (aside_of_eq e (svRead_aside ..)).trans ht

theorem readXlinks_aside (who : Who) (lkey : Nat) (s : State) (l : List (Nat × Nat × Nat)) : (readXlinks who lkey s l).1.aside = s.aside := by
  induction l generalizing s with
  | nil => rfl
  | cons p l ih =>
    unfold readXlinks
    split
    case h_1 e => exact aside_of_eq e (readXlink_aside ..)
    case h_2 e =>
      have ht := aside_of_eq e (readXlink_aside ..)
      split
      case h_1 e | h_2 e => exact (aside_of_eq e (ih _)).trans ht

theorem natXlink_aside (who : Who) (lkey n : Nat) (s : State) (a : Nat) : (natXlink who lkey n s a).1.aside = s.aside := by
  unfold natXlink
  split
  case h_1 e | h_2 e => exact aside_of_eq e (readXlinks_aside ..)

theorem bitmapImage_aside (who : Who) (lkey : Nat) (t : Tensor) (w : Win) (s : State) (n r pos : Nat) :
    (bitmapImage who lkey t w s n r pos).1.aside = s.aside := by
  induction n generalizing s r pos with
  | zero => rfl
  | succ n ih =>
    unfold bitmapImage
    split
    case h_1 e => exact aside_of_eq e (natXlink_aside ..)
    case h_2 e =>
      have hoff := aside_of_eq e (natXlink_aside ..)
      have hlen := fibreLen_aside (natXlink_aside who lkey 16)
      split
      case h_1 e => exact (aside_of_eq e (hlen ..)).trans hoff
      case h_2 e =>
        have ht := (aside_of_eq e (hlen ..)).trans hoff
        split
        case h_1 e | h_2 e => exact (aside_of_eq e (ih ..)).trans ht

theorem imageOf_aside (s : State) (who : Who) (lkey : Nat) (desc : BitVec 256) (origin : Word) (rows cols : Nat) :
    (imageOf s who lkey desc origin rows cols).1.aside = s.aside := by
  unfold imageOf
  dsimp only
  split
  · exact bitmapImage_aside ..
  · rfl

/-! ## Starting link operations (R217) -/

theorem clear_tryFeed {s : State} (hs : clear s = true) (id : Nat) : clear (tryFeed s id) = true := by
  unfold tryFeed
  dsimp only
  split
  · exact hs
  · next h => simp [clear, h]

/-- LPUT, LRED and LGET start the operation that `mk` makes of the descriptor, the Bolt offset, the length and the cluster byte. -/
theorem ends_link {i : Instr} {fields : List (Nat × Nat)} {extra : Bool} {mk : State → Engine → BitVec 256 → Nat → Nat → Nat → AKind}
    {e a : Nat} {w : Option (Nat × Nat)} {f : Frame} {s u : State} {g : Engine} {d : BitVec 256} {off len : Nat}
    (hexec : exec i s = issueLink e f fields extra mk s) (hi : issues (infoL [.d, .s, .s, .s] ((82, 2) :: fields)) (caLegal f && extra) e f s = true)
    (hu : u = atIssue (infoL [.d, .s, .s, .s] ((82, 2) :: fields)) e s) (hg : g = engOf u e) (hd : d = dGet g (slotOf f 0).2)
    (hoff : off = (srcS g f 1).toNat) (hlen : len = (srcS g f 2).toNat) (hlink : linkLegal d = true) (hlegal : lenLegal len = true)
    (hkey : lkeyInRange u g.who.1 (linkOf d).lkey = true) (ha : boltAt u (e / 4) g.who.1 g.who.2 off len = some a)
    (hw : completionWord u g f = .ok w) (hn : asyncCount u e < 16) :
    Ends i s fun t => Started e w false (mk u g d off len a) u t := by
  refine ends_started (m := u.fresh) hexec hi hu hg hw hn ?_
  simp only [← hd, ← hoff, ← hlen, hlink, hlegal, hkey, ha, Bool.not_true, Bool.or_self, Bool.false_eq_true, if_false]

/-! ## Receive windows (R216) -/

/-- A named window that is open is open for the context itself. -/
theorem windows_any_eq_false {ws : List (Nat × RWin)} {n : Nat} {who : Nat × Nat} (h : ∀ x ∈ ws, x.1 = n → (x.2.ctx, x.2.gen) = who) :
    (ws.any fun x => x.1 = n && !(x.2.ctx = who.1 && x.2.gen = who.2)) = false := by
  refine List.any_eq_false.mpr fun x hx => ?_
  by_cases hn : x.1 = n
  · simp [← h x hx hn]
  · simp [hn]

/-- An instruction whose body changes only the table of receive windows. -/
theorem ends_windows {i : Instr} {o : OpInfo} {extra : Bool} {e : Nat} {f : Frame} {body : State → Engine → IRes} {s u : State} {g : Engine}
    {ws : List (Nat × RWin)} {P : List (Nat × RWin) → Prop} (hexec : exec i s = issue e f o extra body s) (hi : issues o extra e f s = true)
    (hu : u = atIssue o e s) (hg : g = engOf u e) (hbody : body u g = .ok { u with windows := ws }) (hP : P ws) :
    Ends i s fun t => OnlyEngine e u { t with windows := u.windows } ∧ Retired e u t ∧ { engOf t e with pc := g.pc } = g ∧ P t.windows := by
  obtain ⟨⟨hrest, hothers⟩, hrec⟩ := (engineIs_self e { u with windows := ws }).setPc (g.pc + 16)
  refine ends_ok hexec hi hu hg hbody (hu ▸ clear_atIssue hi :)
    ⟨⟨(congrArg (fun x : State => { x with windows := u.windows }) hrest :), hothers⟩, ?_, ?_, hP⟩
  · rw [Retired, hrec, hg]
  · rw [hrec, hg]; rfl

/-- Settles O15: each body passes its checks, and then starts its operation or changes the one window. -/
theorem linkOperationsAndReceiveWindowsStart : Obligations.LinkOperationsAndReceiveWindowsStart := by
  unfold Obligations.LinkOperationsAndReceiveWindowsStart
  refine ⟨⟨?blocks, ?window⟩, ?post, ?close⟩
  case blocks =>
    refine List.forall_mem_cons.mpr ⟨?lput, List.forall_mem_cons.mpr ⟨?lget, List.forall_mem_singleton.mpr ?lred⟩⟩
    case lput =>
      intro e a w f s o hi u g d off len hlink hlen hkey ha hw hn
      exact ends_link (i := .lput e f) (rfl : execLput e f s = _) hi rfl rfl rfl rfl rfl hlink hlen hkey ha hw hn
    case lget =>
      intro e a w f s o hi u g d off len hlink hlen hkey ha hw hn
      exact ends_link (i := .lget e f) (rfl : execLget e f s = _) hi rfl rfl rfl rfl rfl hlink hlen hkey ha hw hn
    case lred =>
      intro e a w f s o hi u g d off len hlink hlen hkey ha hw hn
      exact ends_link (i := .lred e f) (rfl : execLred e f s = _) hi rfl rfl rfl rfl rfl hlink hlen hkey ha hw hn
  case window =>
    intro e w f s o hi u g l d rows cols win im hl hd hwin hkey i him hlen hclear hw hn
    have heng : engOf im.1 e = engOf u e := congrArg (mget Engine.idle · e) (congrArg State.engines (imageOf_aside ..) :)
    clear_value (himage : im = _) (hwindow : win = _) (hcols : cols = _) (hrows : rows = _) (hdesc : d = _) (hlink : l = _) (hg : g = _) (hu : u = _)
    have hpair : imageOf u (engWho u e g.who.1 g.who.2 g.bwclass) (linkOf l).lkey d (srcS g f 2) rows cols = (im.1, .ok i) :=
      himage.symm.trans (Prod.ext rfl him)
    let v : State := { im.1 with asyncs := im.1.asyncs ++ [startedOp im.1 g e (.lputm l d (srcS g f 2) rows cols i.size) w], fresh := im.1.fresh + 1 }
    refine ends_ok (i := .lputm e f) (t := tryFeed v im.1.fresh) (rfl : execLputm e f s = _) hi hu hg ?_ (clear_tryFeed (s := v) hclear _)
      ⟨v, rfl, started_setPc (hg.trans heng.symm) ⟨rfl, rfl, rfl, rfl, rfl, rfl, rfl⟩ rfl rfl⟩
    simp only [← hlink, ← hdesc, ← hrows, ← hcols, ← hwindow, hl, hd, hwin, hkey, hpair, hlen, startAsync_started hw hn, Bool.not_true, Bool.or_self,
      Bool.false_eq_true, if_false]
    rfl
  case post =>
    intro e h i f s o hi u g n base len hlen hword hbolt hopen
    clear_value (hlength : len = _) (hbase : base = _) (hnum : n = _) (hg : g = _) (hu : u = _)
    have hrange : (!decide (lowField f 81 1 = 1) && (boltAt u (e / 4) g.who.1 g.who.2 base len).isNone) = false := by
      rcases hbolt with hmem | hbolt
      · simp [hmem]
      · simp [Option.isNone_eq_false_iff.mpr hbolt]
    let win : RWin := ⟨g.who.1, g.who.2, base, len, lowField f 81 1 = 1, lowField f 80 1 = 1, lowField f 79 1 = 1, some (h, i), e⟩
    refine ends_windows (i := .lpost e f) (P := fun ws => ∀ k d, mget d ws k = if k = n then win else mget d u.windows k)
      (ws := minsert u.windows n win) (rfl : execLpost e f s = _) hi hu hg ?_ (fun k d => mget_minsert ..)
    simp only [← hnum, ← hbase, ← hlength, hlen, wordRef_word hword, hrange, windows_any_eq_false hopen, Bool.not_true, Bool.false_eq_true, if_false, win]
  case close =>
    intro e f s hi u g n hopen
    clear_value (hnum : n = _) (hg : g = _) (hu : u = _)
    refine ends_windows (i := .lclose e f) (P := fun ws => ∀ k d, mget d ws k = if k = n then d else mget d u.windows k)
      (ws := mdel u.windows n) (rfl : execLclose e f s = _) hi hu hg ?_ (fun k d => ?_)
    · simp only [← hnum, windows_any_eq_false hopen, Bool.false_eq_true, if_false]
    · split
      · next hk => rw [hk, mget_mdel_same]
      · next hk => exact mget_mdel_other d _ hk

end Sys2Proof.Machine
end

section
/-! PROOFS. Retention and the wake governor (O59): a write to the secure world's registers, the order of start requests, and how each event of a
unit ends. -/
namespace Sys2Proof.Machine

/-- An event of a unit that the configuration holds, whose condition holds and whose effect leaves no access waiting, ends with its effect. -/
theorem Ends.of_unit {i : Instr} {s t : State} {b c : Bool} {P : State → Prop} (h : exec i s = unitRes b s c t) (hb : b = true) (hc : c = true)
    (hclear : clear t = true) (hP : P t) : Ends i s P := ⟨t, h.trans (unitRes_clear hb hc hclear), hP⟩

/-- A write that reaches the secure world's registers has its effect (R613). -/
theorem secWrite_reach {path : Path} {s : State} (h : secReach path s = true) (f : State → State) : secWrite path f s = settle (f (awake s)) := by
  simp only [secReach, Bool.and_eq_true, Bool.not_eq_true'] at h
  obtain ⟨⟨hup, hsec⟩, hheld⟩ := h
  simp only [secWrite, hup, awake_cfg, hsec, hheld, Bool.not_true, Bool.not_false, Bool.and_self, Bool.false_eq_true, if_false, if_true]

/-! ## The block in retention (R568) -/

/-- RETAIN_BLOCK is accepted: slice 0 is DIRECT, every enabled ring and every queue is empty, and every half is in RET. -/
def retainMay (s : State) : Bool :=
  (sliceOf s 0).state = .direct && ((s.rings.all fun r => !r.2.en || r.2.head = r.2.tail) && s.queues.all fun q => q.2.head = q.2.tail) &&
  (List.range s.cfg.halves).all s.ck.halves.contains

theorem retainMay_iff (s : State) : retainMay s = true ↔ (sliceOf s 0).state = .direct ∧
    ((s.rings.all fun r => !r.2.en || r.2.head = r.2.tail) && s.queues.all fun q => q.2.head = q.2.tail) = true ∧
    ∀ h < s.cfg.halves, h ∈ s.ck.halves := by
  simp [retainMay, and_assoc]

theorem execRetainBlock_reach {path : Path} {s : State} (h : secReach path s = true) : execRetainBlock path s =
    settle (if retainMay s then { s with ck := { s.ck with blockRet := true } }
      else { awake s with ck := { (awake s).ck with refused := true } }) := by
  refine (secWrite_reach h _).trans ?_
  unfold awake
  split <;> rfl

/-! ## The governor's order (R570) -/

/-- A request stands behind those of earlier PCLK and, within its own, in ascending engine number. -/
theorem govInsert_order (s : State) (e : Nat) (l : List Nat) : ∃ a b, l = a ++ b ∧ govInsert s e l = a ++ e :: b ∧
    (∀ x ∈ a, (engOf s x).runStart = s.pclk → x ≤ e) ∧ ∀ x, b.head? = some x → (engOf s x).runStart = s.pclk ∧ e < x := by
  induction l with
  | nil => exact ⟨[], [], rfl, rfl, by simp, by simp⟩
  | cons x l ih =>
    by_cases hx : (engOf s x).runStart = s.pclk ∧ e < x
    · exact ⟨[], x :: l, rfl, by simp [govInsert, hx], by simp, by simp [hx]⟩
    · obtain ⟨a, b, hl, hins, ha, hb⟩ := ih
      refine ⟨x :: a, b, by rw [hl]; rfl, ?_, ?_, hb⟩
      · simp [govInsert, hx, hins]
      · exact List.forall_mem_cons.mpr ⟨fun h => not_lt.mp fun hlt => hx ⟨h, hlt⟩, ha⟩

/-! ## A half with its metadata caches written back (R567) -/

/-- The state in which half `h` has entered RET, its Tally retained. -/
def halfRetained (u : State) (h : Nat) : State :=
  modTally { u with ck := { u.ck with halves := sins u.ck.halves h } } h fun t => { t with retained := true, waking := false }

theorem tallyOf_halfRetained (u : State) (h : Nat) : tallyOf (halfRetained u h) h = { tallyOf u h with retained := true, waking := false } :=
  tallyOf_modTally { u with ck := { u.ck with halves := sins u.ck.halves h } } h _

/-- The half enters RET where the write-back has left its memory engines no request and no cached line. -/
theorem execHalfRetThreshold_quiet {h : Nat} {s : State} {ports : List Nat} {u : State}
    (hports : ports = (List.range s.cfg.memPorts).filter fun m => s.cfg.halfOfMem m = h)
    (hu : u = ports.foldl (fun t m => flushKeys t m (cachedKids (portOf t m))) s) : ∃ t, execHalfRetThreshold h s =
      unitRes (h < s.cfg.halves) s
        (!(s.ck.halves.contains h) && halfQuiet s h && thresholdOver s s.ck.halfRet (mget 0 s.ck.lastBusy (64 + h)) && s.ck.rst.isNone) t ∧
    ((∀ m ∈ ports, (portOf u m).tags = [] ∧ (portOf u m).cache = []) → t = halfRetained u h) ∧
    ((∃ m ∈ ports, (portOf u m).tags ≠ [] ∨ (portOf u m).cache ≠ []) → t = u) := by
  subst hports hu
  refine ⟨_, rfl, fun hall => if_pos ?_, fun ⟨m, hm, hne⟩ => if_neg fun hall => ?_⟩
  · exact List.all_eq_true.mpr fun m hm => by simp [hall m hm]
  · have := List.all_eq_true.mp hall m hm
    simp_all

/-- Settles O59: each command and event has its effect at once, the request at the place that `govInsert_order` gives it. -/
theorem retentionAndTheWakeGovernorMoveUnits : Obligations.RetentionAndTheWakeGovernorMoveUnits := by
  unfold Obligations.RetentionAndTheWakeGovernorMoveUnits
  refine ⟨?retain, ?wake, ?engines, ?cluster, ?half⟩
  case retain =>
    intro path s hreach hclear empty may
    have hmay : retainMay s = true ↔ may := retainMay_iff s
    refine Ends.of_settle (execRetainBlock_reach hreach) (by split; exacts [hclear, (clear_awake s).trans hclear])
      ⟨fun h => if_pos (hmay.mpr h), fun h => if_neg ?_⟩
    rwa [hmay]
  case wake =>
    intro s hret hclear
    exact Ends.of_guard rfl hret ((clear_awake s).trans hclear) (if_pos hret)
  case engines =>
    intro e s he hclear
    refine ⟨?idle, ?request, ?grant, ?done⟩
    case idle =>
      intro hon hctx hfence hover hrst
      exact Ends.of_unit rfl he (by simp [hon, hctx, hfence, hover, hrst]) hclear (engineIs_modEng e (fun _ => { Engine.idle with phase := .off }) s)
    case request =>
      intro hoff hfence hrun
      obtain ⟨a, b, hgov, hins, ha, hb⟩ := govInsert_order s e s.ck.gov
      refine Ends.of_unit rfl he (by simp [hoff, hfence, hrun]) hclear ⟨?_, fun k hk => ?_, ⟨a, b, hgov, hins, ha, hb⟩, ?_, ?_⟩
      · simp
      · simp [engOf_modEng_ne _ _ hk]
      · simp
      · simp
    case grant =>
      intro hhead hfence hgrant hrun
      refine Ends.of_unit rfl he (by simp [hhead, hfence, hgrant, hrun]) hclear ⟨?_, fun k hk => ?_, ?_, rfl, rfl⟩
      · simp
      · simp [engOf_modEng_ne _ _ hk]
      · simp
    case done =>
      intro g hphase hg hsclk hpclk hcl hhalf hrun
      refine Ends.of_unit rfl he ?_ hclear (engineIs_modEng e (fun _ => { Engine.idle with runStart := s.pclk }) s)
      simp [hphase, hg, hsclk, hpclk, hcl, hhalf, hrun]
  case cluster =>
    intro c s hc hret hquiet hover hrst hclear
    refine Ends.of_unit rfl (decide_eq_true hc) (by simp [hret, hquiet, hover, hrst]) hclear
      ⟨clOf_modCl s c _, fun k hk => clOf_modCl_ne s _ hk, rfl⟩
  case half =>
    intro h s hh hret hquiet hover hrst ports u hclear
    obtain ⟨t, hexec, hdone, hleft⟩ := execHalfRetThreshold_quiet (h := h) (s := s) (ports := ports) (u := u) rfl rfl
    have hcond : (!(s.ck.halves.contains h) && halfQuiet s h && thresholdOver s s.ck.halfRet (mget 0 s.ck.lastBusy (64 + h)) &&
        s.ck.rst.isNone) = true := by simp [hret, hquiet, hover, hrst]
    by_cases hall : ∀ m ∈ ports, (portOf u m).tags = [] ∧ (portOf u m).cache = []
    · obtain rfl := hdone hall
      refine Ends.of_unit hexec (decide_eq_true hh) hcond hclear ⟨fun _ => ⟨?_, ?_, ?_, ?_, rfl⟩, hleft⟩
      · exact (mem_sins u.ck.halves h h).mpr (.inr rfl)
      · exact (congrArg Tally.retained (tallyOf_halfRetained u h) :)
      · exact (congrArg Tally.waking (tallyOf_halfRetained u h) :)
      · exact (congrArg Tally.pool (tallyOf_halfRetained u h) :)
    · obtain rfl := hleft (by push Not at hall; simpa [or_iff_not_imp_left] using hall)
      exact Ends.of_unit hexec (decide_eq_true hh) hcond hclear ⟨fun h => absurd h hall, fun _ => rfl⟩

end Sys2Proof.Machine
end

section
/-! PROOFS. Bolt regions (O23): the region table of a cluster after one entry changes, a state record on its way to the spill area and back, and
cleared granules. -/
namespace Sys2Proof.Machine

/-! ## Entries of a region table -/

theorem boltRegion_of_clusters {s t : State} (h : t.clusters = s.clusters) (c i : Nat) : boltRegion t c i = boltRegion s c i :=
  congrArg (fun l => mget (⟨false, false, 0, 0, 0, 0⟩ : BoltRegion) (mget Cluster.zero l c).regions i) h

@[simp] theorem boltRegion_modBoltRegion (s : State) (c i : Nat) (f : BoltRegion → BoltRegion) :
    boltRegion (modBoltRegion s c i f) c i = f (boltRegion s c i) := by
  simp [boltRegion, modBoltRegion]

theorem boltRegion_modBoltRegion_ne (s : State) (c : Nat) {i j : Nat} (f : BoltRegion → BoltRegion) (h : j ≠ i) :
    boltRegion (modBoltRegion s c i f) c j = boltRegion s c j := by
  simp [boltRegion, modBoltRegion, mget_mmod_other _ _ _ h]

@[simp] theorem boltRegion_boltWrite (s : State) (k a : Nat) (bs : List Byte) (c i : Nat) :
    boltRegion (boltWrite s k a bs).1 c i = boltRegion s c i := by
  by_cases h : c = k
  · subst h
    simp [boltRegion, boltWrite]
  · simp [boltRegion, boltWrite, clOf_modCl_ne _ _ h]

/-- An access to a Bolt buffer may have to wait, and changes nothing else (R276). -/
@[simp] theorem boltSlot_beside (s : State) (c : Nat) : (boltSlot s c).beside = s.beside := by
  unfold boltSlot; split <;> rfl

/-! ## A table without the keys of a range -/

/-- A key of which a filter by keys keeps the entries reads as before, any other as unlisted. -/
theorem mget_filter_key {α : Type} (d : α) (p : Nat → Bool) (m : List (Nat × α)) (k : Nat) :
    mget d (m.filter fun e => p e.1) k = if p k then mget d m k else d := by
  induction m with
  | nil => simp [mget]
  | cons e m ih =>
    obtain ⟨a, v⟩ := e
    rw [List.filter_cons]
    by_cases hak : a = k
    · subst hak
      cases hp : p a <;> simp [mget, ih, hp]
    · cases hp : p a <;> simp [mget, ih, hak]

/-- Cleared bytes read 0, the others as before. -/
theorem bget_bclear (m : List (Nat × Byte)) (a n x : Nat) : bget (bclear m a n) x = if a ≤ x ∧ x < a + n then 0 else bget m x := by
  refine (mget_filter_key 0 (fun k => !(decide (a ≤ k) && decide (k < a + n))) m x).trans ?_
  by_cases h : a ≤ x ∧ x < a + n
  · simp [h]
  · have hkept : (!(decide (a ≤ x) && decide (x < a + n))) = true := by
      simpa only [Bool.not_eq_true', Bool.eq_false_iff, ne_eq, Bool.and_eq_true, decide_eq_true_eq]
    rw [if_neg h, if_pos hkept]

/-! ## A state record to the spill area (R403) -/

/-- The state in which context `ctx` has left cluster `c`'s state record, where the cluster holds it, in the spill area. -/
def recordSpilled (s : State) (ctx c : Nat) : State :=
  let x := ctxOf s ctx
  if x.home = some c then
    let e := lowestEng s x.slice c
    let (t, err) := memWrite (boltSlot s c) (engWho s e ctx x.gen 0) .spa x.spill (savedRecord s ctx)
    let t := match firstErr err (if recordBad s ctx then some cPOISON else none) with
      | some code => pushErr t ctx x.gen e code
      | none => t
    modCtx t ctx fun z => { z with home := none, spilled := true }
  else s

/-- The record's write changes the memory side and the context's place only. -/
theorem recordSpilled_frame (s : State) (ctx c : Nat) : (recordSpilled s ctx c).clusters = s.clusters ∧
    ctxOf (recordSpilled s ctx c) ctx =
      (if (ctxOf s ctx).home = some c then { ctxOf s ctx with home := none, spilled := true } else ctxOf s ctx) ∧
    clear (recordSpilled s ctx c) = clear (if (ctxOf s ctx).home = some c then
      (memWrite (boltSlot s c) (engWho s (lowestEng s (ctxOf s ctx).slice c) ctx (ctxOf s ctx).gen 0) .spa (ctxOf s ctx).spill
        (savedRecord s ctx)).1 else s) := by
  unfold recordSpilled
  by_cases hhome : (ctxOf s ctx).home = some c
  · simp only [hhome, if_true]
    rcases hw : memWrite (boltSlot s c) (engWho s (lowestEng s (ctxOf s ctx).slice c) ctx (ctxOf s ctx).gen 0) .spa (ctxOf s ctx).spill
      (savedRecord s ctx) with ⟨t, err⟩
    have ht : t.beside = s.beside := (beside_of_eq hw (memWrite_beside ..)).trans (boltSlot_beside s c)
    have hctx : ctxOf t ctx = ctxOf s ctx := (congrArg (fun u : State => ctxOf u ctx) ht :)
    have hcl : t.clusters = s.clusters := (congrArg State.clusters ht :)
    dsimp only
    split
    · exact ⟨hcl, (ctxOf_modCtx ..).trans (congrArg (fun x : Ctx => { x with home := none, spilled := true }) hctx), rfl⟩
    · exact ⟨hcl, (ctxOf_modCtx ..).trans (congrArg (fun x : Ctx => { x with home := none, spilled := true }) hctx), rfl⟩
  · simp only [hhome, if_false]
    exact ⟨trivial, trivial, trivial⟩

/-! ## A state record from the spill area (R403) -/

/-- The state in which context `ctx`, in record `x`, has its state record in the region that it was given at granule `base` of cluster `c`. -/
def recordFilled (u : State) (x : Ctx) (ctx c base : Nat) : State :=
  if x.spilled then
    let who := engWho u (lowestEng u x.slice c) ctx x.gen 0
    let (s, got) := memRead u who .spa x.spill 1024
    let s := match got with
      | .ok bs => (boltWrite s c (65536 * base) bs).1
      | .err code => pushErr s ctx x.gen who.attr.master code
    modCtx s ctx fun y => { y with spilled := false, home := some c }
  else if x.home.isNone then modCtx u ctx fun y => { y with home := some c }
  else u

/-- The record's read changes the memory side, the Bolt bytes and the context's place only. -/
theorem recordFilled_frame {u : State} {x : Ctx} {ctx : Nat} (hx : ctxOf u ctx = x) (c base : Nat) :
    (∀ j, boltRegion (recordFilled u x ctx c base) c j = boltRegion u c j) ∧ (ctxOf (recordFilled u x ctx c base) ctx).spilled = false ∧
    clear (recordFilled u x ctx c base) =
      clear (if x.spilled then (memRead u (engWho u (lowestEng u x.slice c) ctx x.gen 0) .spa x.spill 1024).1 else u) := by
  unfold recordFilled
  by_cases hspilled : x.spilled = true
  · simp only [hspilled, if_true]
    rcases hr : memRead u (engWho u (lowestEng u x.slice c) ctx x.gen 0) .spa x.spill 1024 with ⟨t, got⟩
    have ht : t.beside = u.beside := beside_of_eq hr (memRead_beside ..)
    have hreg (j : Nat) : boltRegion t c j = boltRegion u c j := boltRegion_of_clusters (congrArg State.clusters ht :) c j
    have hspill (v : State) : (ctxOf (modCtx v ctx fun y => { y with spilled := false, home := some c }) ctx).spilled = false :=
      congrArg Ctx.spilled (ctxOf_modCtx ..)
    cases got with
    | ok bs => exact ⟨fun j => (boltRegion_boltWrite ..).trans (hreg j), hspill _, rfl⟩
    | err code => exact ⟨hreg, hspill _, rfl⟩
  · simp only [hspilled, if_false, Bool.false_eq_true]
    split
    · exact ⟨fun _ => rfl, by simpa [hx] using hspilled, rfl⟩
    · exact ⟨fun _ => rfl, by simpa [hx] using hspilled, rfl⟩

/-- Settles O23: SPILL releases the entry that held the context's region, FILL fills the entry it names, CLEAR_DONE clears its granules. -/
theorem boltRegionsSpillFillAndClear : Obligations.BoltRegionsSpillFillAndClear := by
  unfold Obligations.BoltRegionsSpillFillAndClear
  refine ⟨?spill, ?fill, ?done⟩
  case spill =>
    intro ctx c need i r s x y hc hup hlose hslice hlive hne hnone hshare hfirst hfind hr hclear
    obtain ⟨hcl, hctx, hw⟩ := recordSpilled_frame s ctx c
    have hvalid : r.valid = true := by
      have := List.find?_some hfind
      simp only [Bool.and_eq_true] at this
      exact this.1.1
    have hall : ((clOf s c).regions.all fun q =>
        !(mayLose s c q.2.ctx && decide ((ctxOf s q.2.ctx).slice = x.slice) && decide ((ctxOf s q.2.ctx).lastEnd < x.lastEnd))) = true :=
      List.all_eq_true.mpr fun q hq => by
        rw [Bool.not_eq_true', Bool.eq_false_iff]
        simpa only [ne_eq, Bool.and_eq_true, decide_eq_true_eq, and_assoc] using hfirst q hq
    have hexec : exec (.stateRecordSpill ctx c need) s = unitRes (c < s.cfg.clusters) s
        (schedUp s need && mayLose s c ctx && x.slice = y.slice && y.state = .live && need ≠ ctx &&
          (regionIn s c need y.gen).isNone && shareOf s x.slice c < heldBy s x.slice c + y.bolt && (clOf s c).regions.all fun q =>
          !(mayLose s c q.2.ctx && decide ((ctxOf s q.2.ctx).slice = x.slice) && decide ((ctxOf s q.2.ctx).lastEnd < x.lastEnd)))
        (modAcc (releaseRegion (recordSpilled s ctx c) c i) ctx fun a => { a with evict := satAdd 0xFFFF a.evict 1 }) := by
      change execStateRecordSpill ctx c need s = _
      unfold execStateRecordSpill
      simp only [x] at hfind
      simp only [hfind]
      rfl
    refine Ends.of_unit hexec (decide_eq_true hc) ?_ (hw.trans hclear) ⟨?_, fun j hj => ?_, ?_, fun hhome => ?_⟩
    · simp only [Bool.and_eq_true, decide_eq_true_eq, Option.isNone_iff_eq_none]
      exact ⟨⟨⟨⟨⟨⟨⟨hup, hlose⟩, hslice⟩, hlive⟩, hne⟩, hnone⟩, hshare⟩, hall⟩
    · refine (boltRegion_modBoltRegion (recordSpilled s ctx c) c i _).trans ?_
      rw [boltRegion_of_clusters hcl, hr, if_pos hvalid]
    · exact (boltRegion_modBoltRegion_ne (recordSpilled s ctx c) c _ hj).trans (boltRegion_of_clusters hcl c j)
    · refine (congrArg (fun z : Ctx => z.acc.evict) (ctxOf_modCtx (releaseRegion (recordSpilled s ctx c) c i) ctx _)).trans ?_
      refine (congrArg (fun z : Ctx => satAdd 0xFFFF z.acc.evict 1) hctx).trans ?_
      split <;> rfl
    · have := (ctxOf_modCtx (releaseRegion (recordSpilled s ctx c) c i) ctx
        fun z => { z with acc := { z.acc with evict := satAdd 0xFFFF z.acc.evict 1 } })
      have hplace := hctx.trans (if_pos hhome)
      exact ⟨(congrArg Ctx.home this).trans (congrArg Ctx.home hplace), (congrArg Ctx.spilled this).trans (congrArg Ctx.spilled hplace)⟩
  case fill =>
    intro ctx c i base s x hc hup hlive hi hbase hnone heng hvalid hclearing hapart hshare u hclear
    have hx : ctxOf u ctx = x := by
      have hslot : ctxOf (boltSlot s c) ctx = x := (congrArg (fun v : State => ctxOf v ctx) (boltSlot_beside s c) :)
      exact hslot
    obtain ⟨hreg, hspilled, hw⟩ := recordFilled_frame hx c base
    have hslot (j : Nat) : boltRegion (boltSlot s c) c j = boltRegion s c j :=
      boltRegion_of_clusters (congrArg State.clusters (boltSlot_beside s c) :) c j
    have hany : ((dEngines (descOf s x.slice)).any fun e => decide (e / 4 = c)) = true := by simpa using heng
    have hall : ((clOf s c).regions.all fun q =>
        !((q.2.valid || q.2.clearing) && decide (q.2.base < base + x.bolt) && decide (base < q.2.base + q.2.size))) = true := by
      refine List.all_eq_true.mpr fun q hq => ?_
      have := hapart q hq
      by_cases hused : q.2.valid = true ∨ q.2.clearing = true
      · rcases this hused with h | h <;> simp [Nat.not_lt.mpr h]
      · simp_all
    refine Ends.of_unit (t := recordFilled u x ctx c base) rfl (decide_eq_true hc) ?_ (hw.trans hclear) ⟨?_, fun j hj => ?_, hspilled⟩
    · simp only [Bool.and_eq_true, decide_eq_true_eq, Bool.not_eq_true', Option.isNone_iff_eq_none]
      exact ⟨⟨⟨⟨⟨⟨⟨⟨⟨hup, hlive⟩, hi⟩, hbase⟩, hnone⟩, hany⟩, hvalid⟩, hclearing⟩, hall⟩, hshare⟩
    · exact (hreg i).trans (boltRegion_modBoltRegion (boltSlot s c) c i _)
    · exact (hreg j).trans ((boltRegion_modBoltRegion_ne (boltSlot s c) c _ hj).trans (hslot j))
  case done =>
    intro c i s hc hi hclearing hdirect hclear r
    let cleared : State := modCl s c fun k =>
      { k with bolt := bclear k.bolt (65536 * r.base) (65536 * r.size), boltBad := sclear k.boltBad (8192 * r.base) (8192 * r.size) }
    have hreg (j : Nat) : boltRegion cleared c j = boltRegion s c j := by simp [cleared, boltRegion]
    have hcl : clOf cleared c = _ := clOf_modCl s c _
    have hexec : exec (.boltRegionClearDone c i) s = unitRes (c < s.cfg.clusters) s (i < 64 && (boltRegion s c i).clearing)
        (modBoltRegion cleared c i fun _ => ⟨false, false, 0, 0, 0, 0⟩) := by
      change execBoltRegionClearDone c i s = _
      have hd : directCtx cleared 0 = false := hdirect
      unfold execBoltRegionClearDone
      simp only [cleared] at hd
      simp only [r] at hd
      simp only [hd, Bool.false_and, Bool.false_eq_true, if_false]
      rfl
    refine Ends.of_unit hexec (decide_eq_true hc) (by simp [hi, hclearing]) hclear
      ⟨boltRegion_modBoltRegion .., fun j hj => (boltRegion_modBoltRegion_ne cleared c _ hj).trans (hreg j), fun k hk => ?_, rfl, fun _ a => ?_⟩
    · exact (clOf_modCl_ne cleared _ hk).trans (clOf_modCl_ne s _ hk)
    · have hbolt : (clOf (modBoltRegion cleared c i fun _ => ⟨false, false, 0, 0, 0, 0⟩) c).bolt =
          bclear (clOf s c).bolt (65536 * r.base) (65536 * r.size) :=
        (congrArg Cluster.bolt (clOf_modCl cleared c _)).trans (congrArg Cluster.bolt hcl)
      rw [hbolt, bget_bclear, Nat.mul_add]

end Sys2Proof.Machine
end

section
/-! PROOFS. The Tally banks (O24): the operation that a slot grants, what its grant changes beside the word, and the words and fences that each kind
leaves. -/
namespace Sys2Proof.Machine

/-! ## The slot of a bank (R262, R268) -/

/-- A bank that is awake and inserts no addition grants the operation at the head of the port at its pointer. -/
theorem tallySlot_grants {h port chk : Nat} {arrive : List (Nat × TOp)} {o : TOp} {rest : List TOp} {s v : State} (hv : v = arriveOps s h arrive)
    (hh : h < s.cfg.halves) (hret : (tallyOf v h).retained = false) (hwake : (tallyOf v h).waking = false) (hins : (tallyOf v h).inserted = [])
    (hport : grantPort s.cfg h (tallyOf v h) = some port) (hq : mget [] (tallyOf v h).queues port = o :: rest) :
    tallySlot o.kind h arrive chk s = settle (grantOp v h port o chk) := by
  have hcfg : v.cfg = s.cfg := by
    rw [hv]
    exact congrArg Prod.fst (arriveOps_fixed s h arrive)
  unfold tallySlot
  simp only [Nat.not_le.mpr hh, ← hv, hcfg, hret, hwake, hins, hport, hq, Bool.or_self, Bool.false_eq_true, if_false, guardRes, decide_true,
    if_true]

/-! ## What a grant changes beside the word (R268, R271, R274) -/

/-- The words of a bank: its context words, fences and secure words, its ports' queues and its pointer. -/
def Tally.bank (t : Tally) : List (Nat × Word) × List (Nat × Fence) × List (Nat × Word) × List (Nat × List TOp) × Nat :=
  (t.pool, t.fences, t.sec, t.queues, t.ptr)

/-- What performing an operation may find of a state: the build parameters, the memory side, the engines and the words of a bank. -/
def State.banked (h : Nat) (s : State) : Cfg × Selvage × List (Nat × Engine) × List (Nat × Word) × List (Nat × Fence) × List (Nat × Word) ×
    List (Nat × List TOp) × Nat := (s.cfg, s.sv, s.engines, (tallyOf s h).bank)

/-- A change of a half's record that leaves its words alone. -/
theorem modTally_banked (s : State) (h : Nat) {f : Tally → Tally} (hf : (f (tallyOf s h)).bank = (tallyOf s h).bank) :
    (modTally s h f).banked h = s.banked h := by
  unfold State.banked
  rw [tallyOf_modTally, hf]
  rfl

theorem raise_banked (s : State) (src inst detail k : Nat) : (raise s src inst detail).banked k = s.banked k := by
  unfold raise; split <;> rfl

theorem collide_banked (s : State) (h port : Nat) (o : TOp) (b : Bool) : (collide s h port o b).banked h = s.banked h := by
  unfold collide
  split
  · rfl
  · refine (foldl_keeps (State.banked h) (fun t x => ?_) _ _).trans ?_
    · rfl
    · exact modTally_banked s h (f := fun t => { t with colls := _, inserted := _, fwCollide := _ }) rfl

/-- The state in which a granted operation on a good word of its own part is performed: its port's queue and the pointer have moved on. -/
theorem grantOp_performs {s : State} {h port chk : Nat} {o : TOp} (hoff : o.off < secBase) (hchk : tallyCheck (tallyOf s h) o chk ≤ 1) :
    ∃ u, grantOp s h port o chk = performOp u h port o ∧ u.banked h = (s.cfg, s.sv, s.engines, (tallyOf s h).pool, (tallyOf s h).fences,
      (tallyOf s h).sec, mmod [] (tallyOf s h).queues port List.tail, (port + 1) % tallyPorts s.cfg h) := by
  have hin : decide (secBase ≤ o.off) = false := decide_eq_false (Nat.not_le.mpr hoff)
  have hgood : tallyCheck (tallyOf s h) o chk ≠ 2 := by omega
  let c := collide s h port o (decide (tallyCheck (tallyOf s h) o chk < 2))
  let u := modTally c h fun t => { t with queues := mmod [] t.queues port List.tail, ptr := (port + 1) % tallyPorts c.cfg h }
  have hc : c.banked h = s.banked h := collide_banked ..
  have hu : u.banked h = (s.cfg, s.sv, s.engines, (tallyOf s h).pool, (tallyOf s h).fences, (tallyOf s h).sec,
      mmod [] (tallyOf s h).queues port List.tail, (port + 1) % tallyPorts s.cfg h) := by
    unfold State.banked
    rw [tallyOf_modTally]
    exact congrArg (fun x : Cfg × Selvage × List (Nat × Engine) × List (Nat × Word) × List (Nat × Fence) × List (Nat × Word) ×
      List (Nat × List TOp) × Nat => (x.1, x.2.1, x.2.2.1, x.2.2.2.1, x.2.2.2.2.1, x.2.2.2.2.2.1,
        mmod [] x.2.2.2.2.2.2.1 port List.tail, (port + 1) % tallyPorts x.1 h)) hc
  let w := if tallyCheck (tallyOf s h) o chk = 1 then raise (modTally u h fun t => { t with corr := satAdd 65535 t.corr 1 }) 4 h o.off else u
  have hw : w.banked h = u.banked h := by
    show State.banked h (if _ then _ else _) = _
    split
    · exact (raise_banked ..).trans (modTally_banked u h rfl)
    · rfl
  refine ⟨modTally w h fun t => { t with bad := sdel t.bad o.off }, ?_, (modTally_banked w h rfl).trans (hw.trans hu)⟩
  unfold grantOp
  simp only [hin, hgood, Bool.false_and, Bool.or_self, Bool.not_false, Bool.true_and, Bool.false_eq_true, if_false]
  rfl

/-! ## The answer of an operation (R212, R269) -/

theorem deliverTally_tally (s : State) (h port : Nat) (o : TOp) (prev : Word) (denied : Bool) :
    (deliverTally s h port o prev denied).tally = s.tally ∧ (deliverTally s h port o prev denied).sv = s.sv := by
  unfold deliverTally
  split
  · exact ⟨rfl, rfl⟩
  · exact ⟨rfl, rfl⟩
  · split <;> exact ⟨rfl, rfl⟩
  · exact ⟨rfl, rfl⟩

/-- A running engine that asked has the old value in its register, which no longer waits. -/
theorem deliverTally_engine {s : State} {h port : Nat} {o : TOp} {prev : Word} {denied : Bool} {e c g r : Nat} (hret : o.ret = .engine e c g r)
    (hr : r ≠ 0) (hctx : (engOf s e).ctx = some (c, g)) :
    sGet (engOf (deliverTally s h port o prev denied) e) r = prev ∧ r ∉ (engOf (deliverTally s h port o prev denied) e).pendRes := by
  have hd : deliverTally s h port o prev denied =
      modEng s e fun g => { g with s := mset 0 g.s r prev, pendRes := g.pendRes.filter (· ≠ r) } := by
    unfold deliverTally
    simp only [hret, hctx, if_true, hr, if_false]
  rw [hd, engOf_modEng]
  exact ⟨by simp [sGet, hr], by simp⟩

/-- A requester is told, with the old value of a READ or SWAP. -/
theorem deliverTally_requester {s : State} {h port : Nat} {o : TOp} {prev : Word} {denied : Bool} (hret : o.ret = .requester) :
    presented (deliverTally s h port o prev denied) =
      some (.tally h port (if o.kind = .read || o.kind = .swap then some prev else none) denied false) := by
  unfold deliverTally
  simp only [hret]
  rfl

/-! ## Words (R269) -/

/-- What an operation on a word leaves in it. -/
def wordAfter (k : TKind) (old v : Word) : Word := if k = .read then old else if k = .add then old + v else v

/-- Context word `i` of half `h` holds `v`, and every other word, fence, queue and the pointer of the half are as before; of the engines only waits
may have changed. -/
def WordIs (h i : Nat) (v : Word) (s u : State) : Prop :=
  u.sv = s.sv ∧ (∀ e, ∃ w, engOf u e = { engOf s e with wait := w }) ∧
  (∀ j, mget 0 (tallyOf u h).pool j = if j = i then v else mget 0 (tallyOf s h).pool j) ∧
  (tallyOf u h).fences = (tallyOf s h).fences ∧ (tallyOf u h).sec = (tallyOf s h).sec ∧ (tallyOf u h).queues = (tallyOf s h).queues ∧
  (tallyOf u h).ptr = (tallyOf s h).ptr

theorem wordIs_self (s : State) (h i : Nat) : WordIs h i (mget 0 (tallyOf s h).pool i) s s := by
  refine ⟨rfl, fun e => ⟨_, rfl⟩, fun j => ?_, rfl, rfl, rfl, rfl⟩
  split
  next hj => rw [hj]
  next => rfl

theorem tallyWord_pool (s : State) (h : Nat) {i off : Nat} (hoff : off = poolBase + 8 * i) (hsec : off < secBase) :
    tallyWord s h off = mget 0 (tallyOf s h).pool i := by
  unfold tallyWord
  rw [if_neg (by omega), if_pos hsec, show (off - poolBase) / 8 = i by omega]

/-- A write of a context word that is then presented to the waits. -/
theorem wordIs_put (s : State) (h : Nat) {i off : Nat} (hoff : off = poolBase + 8 * i) (hsec : off < secBase) (v : Word) :
    WordIs h i v s (presentWord (putTallyWord s h off v) h off) := by
  have hput : tallyOf (presentWord (putTallyWord s h off v) h off) h = { tallyOf s h with pool := mset 0 (tallyOf s h).pool i v } := by
    refine (tallyOf_modTally s h _ : tallyOf (putTallyWord s h off v) h = _).trans ?_
    dsimp only
    rw [if_neg (by omega), if_pos hsec, show (off - poolBase) / 8 = i by omega]
  refine ⟨rfl, fun e => engOf_presentWord (putTallyWord s h off v) h off e, fun j => ?_, ?_⟩
  · rw [hput]
    by_cases hj : j = i
    · rw [hj, if_pos rfl]
      exact mget_mset_same ..
    · rw [if_neg hj]
      exact mget_mset_other _ _ _ hj
  · rw [hput]
    exact ⟨rfl, rfl, rfl, rfl⟩

/-- An operation on context word `i` leaves its result there, and delivers the old value. -/
theorem performOp_word {s : State} {h port i : Nat} {o : TOp} (hoff : o.off = poolBase + 8 * i) (hsec : o.off < secBase) (hmax : o.kind ≠ .max)
    (herr : o.kind ≠ .seterr) : ∃ u, performOp s h port o = deliverTally u h port o (mget 0 (tallyOf s h).pool i) false ∧
      WordIs h i (wordAfter o.kind (mget 0 (tallyOf s h).pool i) o.val) s u := by
  have hold := tallyWord_pool s h hoff hsec
  unfold performOp
  cases hk : o.kind with
  | read => exact ⟨s, by rw [hold], wordIs_self s h i⟩
  | add => exact ⟨_, by rw [hold]; rfl, wordIs_put s h hoff hsec _⟩
  | swap => exact ⟨_, by rw [hold]; rfl, wordIs_put s h hoff hsec _⟩
  | write => exact ⟨_, by rw [hold]; rfl, wordIs_put s h hoff hsec _⟩
  | max => exact absurd hk hmax
  | seterr => exact absurd hk herr

/-! ## Fences (R269, R439, R441) -/

/-- What an operation on a fence leaves of its entry. -/
def fenceAfter (k : TKind) (v : Word) (x : Fence) : Fence :=
  if k = .max then
    (if x.state ≠ 1 then x else if v.toNat ≤ x.value.toNat then { x with stale := satAdd 65535 x.stale 1 } else { x with value := v })
  else (if x.state = 0 then x else { x with state := 2, code := v.toNat })

/-- The fence at offset `16 * k` of half `h`. -/
theorem fence_index {h k : Nat} (hh : h < 2) (hk : k < 131072) : fenceHalf (131072 * h + k) = h ∧ (131072 * h + k) % 131072 = k :=
  ⟨by unfold fenceHalf; omega, by omega⟩

/-- Fence `k` of half `h` is in the state `y`, and every other fence, context word and queue of the half is as before. -/
def FenceIs (h k : Nat) (y : Fence) (s u : State) : Prop :=
  u.sv = s.sv ∧ (tallyOf u h).pool = (tallyOf s h).pool ∧ (tallyOf u h).queues = (tallyOf s h).queues ∧
  ∀ j, mget Fence.zero (tallyOf u h).fences j = if j = k then y else mget Fence.zero (tallyOf s h).fences j

theorem fenceIs_self (s : State) (h k : Nat) : FenceIs h k (mget Fence.zero (tallyOf s h).fences k) s s := by
  refine ⟨rfl, rfl, rfl, fun j => ?_⟩
  split
  next hj => rw [hj]
  next => rfl

section
variable (s : State) {h k : Nat} (hh : h < 2) (hk : k < 131072)
include hh hk

theorem fenceOf_index : fenceOf s (131072 * h + k) = mget Fence.zero (tallyOf s h).fences k := by
  obtain ⟨hhalf, hmod⟩ := fence_index hh hk
  rw [fenceOf, hhalf, hmod]

/-- A change of a fence entry that is then presented to the waits. -/
theorem fenceIs_modFence (f : Fence → Fence) : FenceIs h k (f (mget Fence.zero (tallyOf s h).fences k)) s
    (presentWord (modFence s (131072 * h + k) f) (fenceHalf (131072 * h + k)) (16 * ((131072 * h + k) % 131072))) := by
  obtain ⟨hhalf, hmod⟩ := fence_index hh hk
  have hput : tallyOf (modFence s (131072 * h + k) f) h = { tallyOf s h with fences := mmod Fence.zero (tallyOf s h).fences k f } := by
    unfold modFence
    rw [hhalf, tallyOf_modTally, hmod]
  refine ⟨rfl, (congrArg Tally.pool hput :), (congrArg Tally.queues hput :), fun j => ?_⟩
  refine (congrArg (fun t : Tally => mget Fence.zero t.fences j) hput :).trans ?_
  by_cases hj : j = k
  · rw [hj, if_pos rfl]
    exact mget_mmod_same ..
  · rw [if_neg hj]
    exact mget_mmod_other _ _ _ hj

/-- MAX signals a LIVE fence, and leaves any other. -/
theorem fenceIs_fenceMax (v : Word) :
    FenceIs h k (fenceAfter .max v (mget Fence.zero (tallyOf s h).fences k)) s (fenceMax s (131072 * h + k) v) := by
  unfold fenceMax fenceAfter
  rw [fenceOf_index s hh hk, if_pos rfl]
  by_cases hlive : (mget Fence.zero (tallyOf s h).fences k).state ≠ 1
  · simp only [if_pos hlive]
    exact fenceIs_self s h k
  · simp only [if_neg hlive]
    exact fenceIs_modFence s hh hk fun x =>
      if v.toNat ≤ x.value.toNat then { x with stale := satAdd 65535 x.stale 1 } else { x with value := v }

/-- SETERR places its code in a fence that is not free. -/
theorem fenceIs_fenceErr (v : Word) :
    FenceIs h k (fenceAfter .seterr v (mget Fence.zero (tallyOf s h).fences k)) s (fenceErr s (131072 * h + k) v.toNat) := by
  unfold fenceErr fenceAfter
  rw [fenceOf_index s hh hk, if_neg (by decide)]
  split
  next => exact fenceIs_self s h k
  next => exact fenceIs_modFence s hh hk fun x => { x with state := 2, code := v.toNat }

/-- An operation on a fence leaves its entry as its kind says, and delivers its answer. -/
theorem performOp_fence {port : Nat} {o : TOp} (hoff : o.off = 16 * k) (hkind : o.kind = .max ∨ o.kind = .seterr) :
    ∃ u, performOp s h port o = deliverTally u h port o (tallyWord s h o.off) false ∧
      FenceIs h k (fenceAfter o.kind o.val (mget Fence.zero (tallyOf s h).fences k)) s u := by
  have hindex : 131072 * h + o.off / 16 = 131072 * h + k := by omega
  unfold performOp
  rcases hkind with hkind | hkind
  · exact ⟨_, by rw [hkind, hindex], hkind ▸ fenceIs_fenceMax s hh hk o.val⟩
  · exact ⟨_, by rw [hkind, hindex], hkind ▸ fenceIs_fenceErr s hh hk o.val⟩

end

/-- Settles O24: a slot grants its operation (`tallySlot_grants`, `grantOp_performs`), which leaves the word or fence that its kind gives
(`performOp_word`, `performOp_fence`) and is then answered. -/
theorem tallyBankPerformsItsOperations : Obligations.TallyBankPerformsItsOperations := by
  unfold Obligations.TallyBankPerformsItsOperations
  refine ⟨?words, ?fences⟩
  case words =>
    intro p hp h port i chk arrive o rest s v old hh hret hwake hins hport hq hkind hoff hsec hchk hclear
    have hexec : exec (p.1 h arrive chk) s = tallySlot p.2 h arrive chk s := by
      simp only [List.mem_cons, List.not_mem_nil, or_false] at hp
      rcases hp with rfl | rfl | rfl | rfl <;> rfl
    have hword : o.kind ≠ .max ∧ o.kind ≠ .seterr := by
      simp only [List.mem_cons, List.not_mem_nil, or_false] at hp
      rw [hkind]
      rcases hp with rfl | rfl | rfl | rfl <;> exact ⟨by decide, by decide⟩
    obtain ⟨u, hgrant, hu⟩ := grantOp_performs (port := port) hsec hchk
    obtain ⟨w, hperform, hsv, heng, hpool, hfences, hsecure, hqueues, hptr⟩ := performOp_word (s := u) (port := port) hoff hsec hword.1 hword.2
    simp only [State.banked, Tally.bank, Prod.mk.injEq] at hu
    obtain ⟨hcfg, husv, hueng, hupool, hufences, husec, huqueues, huptr⟩ := hu
    rw [hupool] at hperform
    have hvcfg : v.cfg = s.cfg := congrArg Prod.fst (arriveOps_fixed s h arrive)
    obtain ⟨htally, htsv⟩ := deliverTally_tally w h port o old false
    have ht : tallyOf (deliverTally w h port o old false) h = tallyOf w h := congrArg (mget Tally.zero · h) htally
    refine Ends.of_settle (t := deliverTally w h port o old false) ?_ ?_
      ⟨?_, ?_, fun j => ?_, ?_, ?_, fun e c g r hr0 hr hwrite hctx => ?_, fun hr => ?_⟩
    · rw [hexec, ← hkind, tallySlot_grants rfl hh hret hwake hins hport hq, hgrant, hperform]
    · exact (clear_eq_of_sv (htsv.trans (hsv.trans (husv.trans (arriveOps_sv s h arrive))))).trans hclear
    · rw [ht, hqueues, huqueues, mget_mmod_same, hq, List.tail_cons]
    · rw [ht, hptr, huptr, hvcfg]
    · rw [ht, hpool, hupool, ← hkind]
      rfl
    · rw [ht, hfences, hufences]
    · rw [ht, hsecure, husec]
    · obtain ⟨x, hx⟩ := heng e
      refine deliverTally_engine hr0 hr ?_
      rw [hx]
      exact (congrArg (fun m => (mget Engine.idle m e).ctx) hueng).trans hctx
    · rw [deliverTally_requester hr, hkind]
      simp only [Bool.or_eq_true, decide_eq_true_eq]
  case fences =>
    intro p hp h port k chk arrive o rest s v x hh hh2 hk hret hwake hins hport hq hkind hoff hchk hbad hclear
    have hexec : exec (p.1 h arrive chk) s = tallySlot p.2 h arrive chk s := by
      simp only [List.mem_cons, List.not_mem_nil, or_false] at hp
      rcases hp with rfl | rfl <;> rfl
    have hfence : o.kind = .max ∨ o.kind = .seterr := by
      simp only [List.mem_cons, List.not_mem_nil, or_false] at hp
      rw [hkind]
      rcases hp with rfl | rfl <;> simp
    have hcheck : tallyCheck (tallyOf v h) o chk ≤ 1 := by
      unfold tallyCheck
      simp only [hbad, Bool.false_and, Bool.or_false, decide_eq_true_eq, Nat.not_le.mpr (Nat.lt_succ_of_le hchk), if_false]
      exact hchk
    obtain ⟨u, hgrant, hu⟩ := grantOp_performs (port := port) (show o.off < secBase by unfold secBase; omega) hcheck
    obtain ⟨w, hperform, hsv, hpool, hqueues, hentries⟩ := performOp_fence u hh2 hk (port := port) hoff hfence
    simp only [State.banked, Tally.bank, Prod.mk.injEq] at hu
    obtain ⟨hcfg, husv, hueng, hupool, hufences, husec, huqueues, huptr⟩ := hu
    obtain ⟨htally, htsv⟩ := deliverTally_tally w h port o (tallyWord u h o.off) false
    have ht : tallyOf (deliverTally w h port o (tallyWord u h o.off) false) h = tallyOf w h := congrArg (mget Tally.zero · h) htally
    refine Ends.of_settle (t := deliverTally w h port o (tallyWord u h o.off) false) ?_ ?_ ⟨?_, ?_, fun j hj => ?_, ?_⟩
    · rw [hexec, ← hkind, tallySlot_grants rfl hh hret hwake hins hport hq, hgrant, hperform]
    · exact (clear_eq_of_sv (htsv.trans (hsv.trans (husv.trans (arriveOps_sv s h arrive))))).trans hclear
    · rw [ht, hqueues, huqueues, mget_mmod_same, hq, List.tail_cons]
    · rw [ht, hpool, hupool]
    · rw [ht, hentries, if_neg hj, hufences]
    · rw [ht, hentries, if_pos rfl, hufences, ← hkind]
      rfl

end Sys2Proof.Machine
end

section
/-! PROOFS. Wakes and the tamper event (O25): what leaving retention sends out, a change of every half and of every memory port, and what the
fall and the rise of TAMPER_N leave alone. -/
namespace Sys2Proof.Machine

/-! ## A half that has left RET (R276, R567) -/

/-- The state but for what waits at the host ports and what was presented. -/
def State.undrained (s : State) : State := { s with hports := [], out := [] }

@[simp] theorem drainOut_undrained (s : State) (p : Nat) : (drainOut s p).undrained = s.undrained := by
  unfold drainOut; split <;> rfl

/-! ## A change of every half, and of every memory port -/

theorem overHalves_modTally (s : State) (f : Tally → Tally) : overHalves s (fun t h => modTally t h f) =
    { s with tally := (List.range s.cfg.halves).foldl (fun m h => mmod Tally.zero m h f) s.tally } := by
  unfold overHalves
  generalize List.range s.cfg.halves = l
  induction l generalizing s with
  | nil => rfl
  | cons h l ih => exact ih (modTally s h f)

theorem tallyOf_overHalves (s : State) (f : Tally → Tally) {h : Nat} (hh : h < s.cfg.halves) :
    tallyOf (overHalves s fun t h => modTally t h f) h = f (tallyOf s h) := by
  rw [overHalves_modTally]
  exact (mget_foldl_mmod Tally.zero f h _ List.nodup_range s.tally).trans (if_pos (List.mem_range.mpr hh))

theorem overPorts_modPort (s : State) (f : MemPort → MemPort) : overPorts s (fun t m => modPort t m f) =
    { s with sv := { s.sv with ports := (List.range s.cfg.memPorts).foldl (fun m k => mmod MemPort.reset m k f) s.sv.ports } } := by
  unfold overPorts
  generalize List.range s.cfg.memPorts = l
  induction l generalizing s with
  | nil => rfl
  | cons m l ih => exact ih (modPort s m f)

/-! ## The wipe (R277, R290) -/

/-- A half whose secure part has been wiped. -/
def Tally.wipe (x : Tally) : Tally := { x with sec := [], bad := x.bad.filter (· < secBase), wiping := true }

/-- A memory engine that has lost its roots. -/
def MemPort.lose (p : MemPort) : MemPort := { p with lost := true }

/-- The state after the secure parts, the memory engines' roots, the key slots and the security firmware's memory have been wiped. -/
def tamperWiped (s : State) : State :=
  { s with
    wipeDue := false
    tally := (List.range s.cfg.halves).foldl (fun m h => mmod Tally.zero m h Tally.wipe) s.tally
    sv := { s.sv with
      ports := (List.range s.cfg.memPorts).foldl (fun m k => mmod MemPort.reset m k MemPort.lose) s.sv.ports
      kids := s.sv.kids.map fun k => (k.1, { k.2 with key := none }) }
    ks := { s.ks with cert := none, slices := s.ks.slices.map fun k => (k.1, k.2.wiped) } }

theorem execTamperWipe_wiped (s : State) : execTamperWipe s = guardRes s s.wipeDue (tamperWiped s) := by
  have hhalves : overHalves s (fun t h => modTally t h fun x => { x with sec := [], bad := x.bad.filter (· < secBase), wiping := true }) = _ :=
    overHalves_modTally s Tally.wipe
  unfold execTamperWipe
  simp only [hhalves, overPorts_modPort]
  rfl

theorem tallyOf_tamperWiped {s : State} {h : Nat} (hh : h < s.cfg.halves) : tallyOf (tamperWiped s) h = (tallyOf s h).wipe :=
  (mget_foldl_mmod Tally.zero Tally.wipe h _ List.nodup_range s.tally).trans (if_pos (List.mem_range.mpr hh))

theorem portOf_tamperWiped {s : State} {m : Nat} (hm : m < s.cfg.memPorts) : portOf (tamperWiped s) m = (portOf s m).lose :=
  (mget_foldl_mmod MemPort.reset MemPort.lose m _ List.nodup_range s.sv.ports).trans (if_pos (List.mem_range.mpr hm))

/-! ## TAMPER_N falls (R484, R626) -/

/-- The pins, the wipe that is due, the memory side and the secure sessions. -/
def State.guarded (s : State) : Pins × Bool × Selvage × List (Nat × Session) := (s.pins, s.wipeDue, s.sv, s.ks.sessions)

theorem guarded_of_inward {s t : State} (h : t.inward = s.inward) : t.guarded = s.guarded := (congrArg State.guarded h :)

theorem raise_guarded (s : State) (src inst detail : Nat) : (raise s src inst detail).guarded = s.guarded := by
  unfold raise; split <;> rfl

theorem endSessions_guarded (s : State) : (endSessions s).guarded = (s.pins, s.wipeDue, s.sv, []) := by
  have h := foldl_keeps (fun t : State => (t.pins, t.wipeDue, t.sv)) (f := fun t (x : Nat × Session) => match x.2.slot with
    | some k => clearBlob t (blobSession + k.1)
    | none => t) (fun t x => by split <;> rfl) s.ks.sessions s
  exact congrArg (fun x => (x.1, x.2.1, x.2.2, ([] : List (Nat × Session)))) h

theorem mbxAbort_guarded (s : State) : (mbxAbort s).guarded = s.guarded :=
  foldl_keeps State.guarded (fun t p => by
    split
    · exact (guarded_of_inward (hostEvent_inward ..)).trans rfl
    · rfl) _ s

theorem otpStop_guarded (s : State) : (otpStop s).guarded = s.guarded := by
  unfold otpStop; split <;> rfl

theorem cpLost_guarded (s : State) : (cpLost s).guarded = s.guarded := rfl

theorem failStream_guarded (s : State) (dest lkey : Nat) : (failStream s dest lkey).guarded = s.guarded := by
  dsimp only [State.guarded, failStream, modTx, dropStages, reportChanged, modLkey, modKsSlice, modLinks]

theorem clearLinkKeys_guarded (s : State) : (clearLinkKeys s).guarded = s.guarded := by
  have h := foldl_keeps State.guarded (fun t (x : TxStream) => failStream_guarded t x.dest x.lkey) s.links.tx s
  unfold clearLinkKeys
  generalize List.foldl _ s s.links.tx = u at h ⊢
  exact h

/-- No link key identifier holds a key any more. -/
theorem clearLinkKeys_links {s : State} {k : Nat × LinkKey} (h : k ∈ (clearLinkKeys s).ks.links) : k.2.tx = none ∧ k.2.rx = none := by
  obtain ⟨x, -, rfl⟩ := List.mem_map.mp h
  exact ⟨rfl, rfl⟩

/-- The state in which a fall of TAMPER_N has set the wipe due, ended the sessions and cut short what runs. -/
def tamperCut (s : State) : State :=
  let s := mbxAbort (endSessions (raise { awake s with wipeDue := true, pins := { (awake s).pins with tamperN := false } } 33 0 0))
  cpLost (otpStop (match s.fw.op with
    | some (op, _) => fwFail (dropFwTags s) op 6
    | none => s))

theorem tamperCut_guarded (s : State) : (tamperCut s).guarded = ({ s.pins with tamperN := false }, true, s.sv, []) := by
  have hfw (t : State) : (match t.fw.op with
      | some (op, _) => fwFail (dropFwTags t) op 6
      | none => t).guarded = t.guarded := by split <;> rfl
  unfold tamperCut
  dsimp only
  rw [cpLost_guarded, otpStop_guarded, hfw, mbxAbort_guarded, endSessions_guarded]
  have h := raise_guarded { awake s with wipeDue := true, pins := { (awake s).pins with tamperN := false } } 33 0 0
  have hawake : ({ awake s with wipeDue := true, pins := { (awake s).pins with tamperN := false } } : State).guarded =
      ({ s.pins with tamperN := false }, true, s.sv, s.ks.sessions) := by unfold awake; split <;> rfl
  exact congrArg (fun x : Pins × Bool × Selvage × List (Nat × Session) => (x.1, x.2.1, x.2.2.1, ([] : List (Nat × Session)))) (h.trans hawake)

/-- The state after a fall of TAMPER_N: the link keys and the stream bases are gone too. -/
def tamperFallen (s : State) : State :=
  let s := clearLinkKeys (tamperCut s)
  { s with ks := { s.ks with slices := s.ks.slices.map fun (k : Nat × KSlice) => (k.1, { k.2 with stream := none }) } }

theorem execTamperNFall_fallen (s : State) : execTamperNFall s = guardRes s s.pins.tamperN (tamperFallen s) := rfl

theorem tamperFallen_guarded (s : State) : (tamperFallen s).guarded = ({ s.pins with tamperN := false }, true, s.sv, []) := by
  have h := (clearLinkKeys_guarded (tamperCut s)).trans (tamperCut_guarded s)
  unfold tamperFallen
  generalize clearLinkKeys (tamperCut s) = u at h ⊢
  exact h

theorem tamperFallen_links {s : State} {k : Nat × LinkKey} (h : k ∈ (tamperFallen s).ks.links) : k.2.tx = none ∧ k.2.rx = none :=
  clearLinkKeys_links (s := tamperCut s) h

/-! ## TAMPER_N rises (R626): what phase 3 of a block reset leaves alone -/

theorem pins_of_besideSlices {s t : State} (h : t.besideSlices = s.besideSlices) : t.pins = s.pins := (congrArg State.pins h :)

theorem refreshSlices_pins (old s : State) : (refreshSlices old s).pins = s.pins := pins_of_besideSlices (refreshSlices_besideSlices old s)

theorem latchEvent_pins (s : State) (l : ErrLine) (r : Nat) : (latchEvent s l r).pins = s.pins := by
  unfold latchEvent setStatus
  dsimp only
  split
  · split
    · exact (congrArg State.pins (hostEvent_inward ..) :)
    · rfl
  · rfl

theorem fenceSub_pins (s : State) (i : Nat) : (fenceSub s i).pins = s.pins := by
  refine (foldl_keeps State.pins (fun t w => ?_) _ _).trans rfl
  have hans (r : MemReq) : (answer t r.attr (.fail cFENCED_UNIT)).pins = t.pins := by
    unfold answer noteReqErr
    dsimp only
    split <;> rfl
  cases w <;> exact hans _

theorem mpErrFence_pins (s : State) (i detail : Nat) : (mpErrFence s i detail).pins = s.pins :=
  (refreshSlices_pins ..).trans ((fenceSub_pins ..).trans (latchEvent_pins ..))

theorem fenceReserved_pins (s : State) : (fenceReserved s).pins = s.pins :=
  foldl_keeps State.pins (fun t m => by
    split
    · exact foldl_keeps State.pins (fun t i => mpErrFence_pins t i _) _ t
    · rfl) _ s

theorem selectRoot_pins (s : State) : (selectRoot s).1.pins = s.pins := by
  unfold selectRoot
  dsimp only
  repeat' split
  all_goals rfl

theorem drawKeys_pins (s : State) : (drawKeys s).pins = s.pins := by
  have hroot := selectRoot_pins s
  unfold drawKeys
  generalize selectRoot s = r at hroot ⊢
  obtain ⟨u, root, k⟩ := r
  refine (foldl_keeps State.pins (fun t i => ?_) _ _).trans ?_
  · rfl
  · exact hroot

theorem resetLc_pins (s : State) : (resetLc s).pins = s.pins := by
  unfold resetLc raise
  dsimp only
  repeat' split
  all_goals rfl

theorem resetPhase3_pins (s : State) : (resetPhase3 s).pins = s.pins :=
  (fenceReserved_pins (drawKeys (resetLc s))).trans ((drawKeys_pins _).trans (resetLc_pins s))

/-- Settles O25: a wake changes the record of its memory only, and the fall of TAMPER_N leaves what `tamperCut_guarded` says. -/
theorem memoriesWakeAndTamperErases : Obligations.MemoriesWakeAndTamperErases := by
  unfold Obligations.MemoriesWakeAndTamperErases
  refine ⟨⟨?tallyAsks, ?boltAsks, ?tallyWakes, ?boltWakes⟩, ?wipe, ?wiped, ?fall, ?rise⟩
  case tallyAsks =>
    intro h s hh hret hwaking hclear
    exact Ends.of_unit rfl (decide_eq_true hh) (by simp [hret, hwaking]) hclear
      ⟨tallyOf_modTally s h _, fun k hk => tallyOf_modTally_ne s _ hk, rfl⟩
  case boltAsks =>
    intro c s hc hret hwaking hclear
    exact Ends.of_unit rfl (decide_eq_true hc) (by simp [hret, hwaking]) hclear ⟨clOf_modCl s c _, fun k hk => clOf_modCl_ne s _ hk, rfl⟩
  case tallyWakes =>
    intro h s hh hwaking hclear
    let u := modTally { s with ck := { s.ck with halves := sdel s.ck.halves h } } h fun t => { t with waking := false, retained := false }
    let t := ((List.range s.cfg.hostPorts).filter fun p => s.cfg.halfOfHost p = h).foldl drainOut u
    have ht : t.undrained = u.undrained := foldl_keeps State.undrained drainOut_undrained _ u
    have htally (k : Nat) : tallyOf t k = tallyOf u k := (congrArg (tallyOf · k) ht :)
    have hck : t.ck = u.ck := (congrArg State.ck ht :)
    refine Ends.of_unit (t := t) rfl (decide_eq_true hh) hwaking ((congrArg clear ht :).trans hclear) ⟨?_, fun k hk => ?_, ?_, ?_⟩
    · exact (htally h).trans (tallyOf_modTally _ h _)
    · exact (htally k).trans (tallyOf_modTally_ne _ _ hk)
    · rw [hck]
      simp [u, sdel]
    · exact (congrArg (fun v : State =>
        { v with tally := s.tally, ck := { v.ck with halves := s.ck.halves }, hports := s.hports, out := s.out }) ht :)
  case boltWakes =>
    intro c s hc hwaking hclear
    exact Ends.of_unit rfl (decide_eq_true hc) hwaking hclear ⟨clOf_modCl s c _, fun k hk => clOf_modCl_ne s _ hk, rfl⟩
  case wipe =>
    intro s hdue hclear
    refine Ends.of_guard (execTamperWipe_wiped s) hdue hclear ⟨rfl, fun h hh => ?_, fun m hm => ?_, fun n => ?_, rfl, fun n => ?_, rfl, rfl⟩
    · rw [tallyOf_tamperWiped hh]
      exact ⟨fun _ => rfl, rfl, rfl, rfl⟩
    · rw [portOf_tamperWiped hm]
      rfl
    · exact congrArg Kid.key (mget_map Kid.zero (fun k => { k with key := none }) rfl s.sv.kids n)
    · have hk : ksSlice (tamperWiped s) n = (ksSlice s n).wiped := mget_map KSlice.zero KSlice.wiped rfl s.ks.slices n
      rw [hk]
      exact ⟨rfl, rfl⟩
  case wiped =>
    intro s hwiping hclear
    refine Ends.of_guard rfl hwiping ?_ fun h hh => ?_
    · rw [overHalves_modTally]
      exact hclear
    · rw [tallyOf_overHalves s _ hh]
      exact ⟨rfl, rfl, rfl⟩
  case fall =>
    intro s hn hclear
    have h := tamperFallen_guarded s
    simp only [State.guarded, Prod.mk.injEq] at h
    obtain ⟨hpins, hdue, hsv, hsessions⟩ := h
    exact Ends.of_guard (execTamperNFall_fallen s) hn ((clear_eq_of_sv hsv).trans hclear)
      ⟨by rw [hpins], hdue, hsessions, fun k hk => tamperFallen_links hk⟩
  case rise =>
    intro s hn u hclear
    refine Ends.of_guard (t := if s.ck.rst.any fun r => r.phase = 2 then resetPhase3 u else u) rfl (by simp [hn]) hclear ?_
    split
    · exact (congrArg Pins.tamperN (resetPhase3_pins u) :)
    · rfl

end Sys2Proof.Machine
end

section
/-! PROOFS. Bounce commands (O48): the command at the head of a port's queue, what taking it off changes, and how each command ends. -/
namespace Sys2Proof.Machine

/-- The command at the head of a port's queue, of a direction, while it has not moved its data. -/
theorem bounceHead_some {s : State} {p dir : Nat} {b : Bounce} {rest : List Bounce} (hq : (hkOf s p).bncQueue = b :: rest)
    (hmoved : (hkOf s p).bncMoved = false) (hdir : bDir b = dir) : bounceHead s p dir = some b := by
  simp [bounceHead, hq, hmoved, hdir]

/-! ## Taking a command off the queue (R495, R497) -/

/-- The queue of a port without its oldest command. -/
def HostKeys.popped (h : HostKeys) : HostKeys := { h with bncQueue := h.bncQueue.tail, bncMoved := false }

/-- The state in which the oldest command has left the queue and its tags are free, before the next one starts. -/
def bounceTaken (s : State) (p : Nat) : State :=
  modHport (modHk s p HostKeys.popped) p fun h => { h with tags := h.tags.filter fun t => t.reader ≠ .bounce }

/-- The next command starts with at most a read. -/
theorem bouncePop_cases (s : State) (p : Nat) : bouncePop s p = bounceTaken s p ∨
    ∃ addr len, bouncePop s p = hostFetch (bounceTaken s p) p .bounce addr len := by
  change bounceStart (bounceTaken s p) p = _ ∨ ∃ addr len, bounceStart (bounceTaken s p) p = _
  unfold bounceStart
  split
  · split
    · exact .inr ⟨_, _, rfl⟩
    · exact .inl rfl
  · exact .inl rfl

theorem bouncePop_inward (s : State) (p : Nat) : (bouncePop s p).inward = (modHk s p HostKeys.popped).inward := by
  obtain h | ⟨addr, len, h⟩ := bouncePop_cases s p
  · rw [h]; rfl
  · rw [h, hostFetch_inward]; rfl

theorem bouncePop_underway (s : State) (p : Nat) : (bouncePop s p).underway = (modHk s p HostKeys.popped).underway := by
  obtain h | ⟨addr, len, h⟩ := bouncePop_cases s p
  · rw [h]; rfl
  · rw [h]; exact pushOut_underway ..

theorem ks_of_inward {s t : State} (h : t.inward = s.inward) : t.ks = s.ks := (congrArg State.ks h :)
theorem sv_of_inward {s t : State} (h : t.inward = s.inward) : t.sv = s.sv := (congrArg State.sv h :)

@[simp] theorem bouncePop_sv (s : State) (p : Nat) : (bouncePop s p).sv = s.sv :=
  sv_of_inward (s := modHk s p HostKeys.popped) (bouncePop_inward s p)

theorem hkOf_bouncePop (s : State) (p : Nat) : hkOf (bouncePop s p) p = (hkOf s p).popped :=
  (congrArg (fun k : Ks => mget HostKeys.zero k.ports p) (ks_of_inward (bouncePop_inward s p)) :).trans (hkOf_modHk (s := s) p HostKeys.popped)

theorem bouncePop_sessions (s : State) (p : Nat) : (bouncePop s p).ks.sessions = s.ks.sessions :=
  (congrArg Ks.sessions (ks_of_inward (bouncePop_inward s p)) :)

/-! ## Refusals (R498) -/

/-- A refusal counted with its CAUSE, and the memory engines and sessions as before. -/
def RefusalCounted (p cause : Nat) (s t : State) : Prop :=
  hkOf t p = { hkOf s p with cause := cause, refused := satAdd (2 ^ 32 - 1) (hkOf s p).refused 1 } ∧ t.sv = s.sv ∧ t.ks.sessions = s.ks.sessions

theorem bounceRefused_counted (s : State) (p cause : Nat) (b : Bounce) : RefusalCounted p cause s (bounceRefused s p cause b) := by
  have hmod : RefusalCounted p cause s (modHk s p fun h => { h with cause := cause, refused := satAdd (2 ^ 32 - 1) h.refused 1 }) :=
    ⟨hkOf_modHk .., rfl, rfl⟩
  unfold bounceRefused
  dsimp only
  split
  · split
    · exact hmod
    · exact hmod
  · exact hmod

/-- What a refused command leaves: its CAUSE, one refusal more, and the queue without it. -/
def BounceRefused (p cause : Nat) (rest : List Bounce) (s t : State) : Prop :=
  (hkOf t p).cause = cause ∧ (hkOf t p).refused = satAdd (2 ^ 32 - 1) (hkOf s p).refused 1 ∧ (hkOf t p).bncQueue = rest ∧ t.sv = s.sv ∧
  t.ks.sessions = s.ks.sessions

theorem bounceRefuse_refused {s : State} {p : Nat} (cause : Nat) {b : Bounce} {rest : List Bounce} (hq : (hkOf s p).bncQueue = b :: rest) :
    BounceRefused p cause rest s (bounceRefuse s p cause b) := by
  obtain ⟨hhk, hsv, hsessions⟩ := bounceRefused_counted s p cause b
  have hpop : hkOf (bounceRefuse s p cause b) p =
      { hkOf s p with cause := cause, refused := satAdd (2 ^ 32 - 1) (hkOf s p).refused 1, bncQueue := rest, bncMoved := false } := by
    rw [bounceRefuse, hkOf_bouncePop, hhk, HostKeys.popped, hq]
    rfl
  unfold BounceRefused
  rw [hpop]
  exact ⟨rfl, rfl, rfl, (bouncePop_sv ..).trans hsv, (bouncePop_sessions ..).trans hsessions⟩

section
variable {s : State} {p : Nat} {b : Bounce} (hlegal : bounceLegal b = true)
include hlegal

theorem execBounceH2d_refuses {cause : Nat} (data : List Byte) (hhead : bounceHead s p 0 = some b) (hfault : bounceFault s p b = some cause) :
    execBounceH2d p data s = unitRes (p < s.cfg.hostPorts) s
      (blockRuns s && !(bounceWaits s p b) && (!(bounceLegal b) || (data.length = bLen b + 16 && readOut s p .bounce data)))
      (bounceRefuse s p cause b) := by
  unfold execBounceH2d
  simp only [hhead, hlegal, hfault, Bool.not_true, Bool.false_eq_true, if_false]

theorem execBounceD2h_refuses {cause : Nat} (hhead : bounceHead s p 1 = some b) (hfault : bounceFault s p b = some cause) :
    execBounceD2h p s = unitRes (p < s.cfg.hostPorts) s (blockRuns s && !(bounceWaits s p b)) (bounceRefuse s p cause b) := by
  unfold execBounceD2h
  simp only [hhead, hlegal, hfault, Bool.not_true, Bool.false_eq_true, if_false]

/-! ## Data (R497) -/

variable {k n o : Nat} {x : Session} {key : Key} {h2d d2h cmd : BitVec 32} {pt : List Byte} {u : State} (hfault : bounceFault s p b = none)
  (hsession : bounceSession s p b = some (k, x, n, o, key, h2d, d2h, cmd))
include hfault hsession

theorem execBounceH2d_moves {data : List Byte} (hhead : bounceHead s p 0 = some b)
    (hopen : gcmOpen key (bounceIv h2d b) (bounceAad b) (data.take (bLen b)) (blockOfBytes (data.drop (bLen b))) = some pt)
    (hwrite : memWrite s (hostWho s p n) .spa (bSpa b) pt = (u, none)) :
    execBounceH2d p data s = unitRes (p < s.cfg.hostPorts) s
      (blockRuns s && !(bounceWaits s p b) && (!(bounceLegal b) || (data.length = bLen b + 16 && readOut s p .bounce data)))
      (bounceMoved u p k 0 (bSeq b)) := by
  unfold execBounceH2d
  simp only [hhead, hlegal, hfault, hsession, hopen, hwrite, Bool.not_true, Bool.false_eq_true, if_false]

/-- A sealed text goes to the buffer of a command, and its SEQ is recorded. -/
def bouncePosted (u : State) (p k : Nat) (b : Bounce) (text : List Byte × BitVec 128) : State :=
  bounceMoved (hostPost u p (bw b 2).toNat (text.1 ++ bytesOfBlock text.2)) p k 1 (bSeq b)

theorem execBounceD2h_moves (hhead : bounceHead s p 1 = some b)
    (htag : gcmTag key (bounceIv cmd b) (bounceAad b) [] = blockOfBytes (leBytes 8 (bw b 6).toNat ++ leBytes 8 (bw b 7).toNat))
    (hread : memRead s (hostWho s p n) .spa (bSpa b) (bLen b) = (u, .ok pt)) :
    execBounceD2h p s = unitRes (p < s.cfg.hostPorts) s (blockRuns s && !(bounceWaits s p b))
      (bouncePosted u p k b (gcmSeal key (bounceIv d2h b) (bounceAad b) pt)) := by
  unfold execBounceD2h
  simp only [hhead, hlegal, hfault, hsession, htag, hread, Bool.not_true, Bool.false_eq_true, if_false, ne_eq, not_true]
  rfl

end

theorem sessionOf_modSession (s : State) (k : Nat) (f : Session → Session) : sessionOf (modSession s k f) k = (sessionOf s k).map f :=
  (find?_map_key s.ks.sessions k k f).trans (if_pos rfl)

/-- The SEQ of a direction in a session. -/
def Session.seqOf (x : Session) (dir : Nat) : Nat := if dir = 0 then x.seqIn else x.seqOut
/-- A session that has accepted a SEQ of a direction. -/
def Session.accepted (dir seq : Nat) (x : Session) : Session := if dir = 0 then { x with seqIn := seq } else { x with seqOut := seq }

theorem Session.seqOf_accepted (dir seq : Nat) (x : Session) : (x.accepted dir seq).seqOf dir = seq := by
  unfold Session.accepted Session.seqOf
  split <;> rfl

/-- A command whose data has moved stays at the head of the queue, and its SEQ is recorded; only the mailbox and the session have changed. -/
theorem bounceMoved_moved (u : State) (p k dir seq : Nat) :
    hkOf (bounceMoved u p k dir seq) p = { hkOf u p with bncMoved := true } ∧ { bounceMoved u p k dir seq with ks := u.ks } = u ∧
    ∀ y, sessionOf (bounceMoved u p k dir seq) k = some y → y.seqOf dir = seq := by
  refine ⟨hkOf_modHk .., rfl, fun y hy => ?_⟩
  have hmap : sessionOf (bounceMoved u p k dir seq) k = (sessionOf u k).map (Session.accepted dir seq) :=
    sessionOf_modSession u k (Session.accepted dir seq)
  obtain ⟨x, -, rfl⟩ := Option.map_eq_some_iff.mp (hmap.symm.trans hy)
  exact x.seqOf_accepted dir seq

/-- A command whose data has been posted stays at the head of the queue, and its SEQ is recorded. -/
theorem bouncePosted_moved (u : State) (p k : Nat) (b : Bounce) (text : List Byte × BitVec 128) :
    hkOf (bouncePosted u p k b text) p = { hkOf u p with bncMoved := true } ∧
    { bouncePosted u p k b text with ks := u.ks } = hostPost u p (bw b 2).toNat (text.1 ++ bytesOfBlock text.2) ∧
    (∀ y, sessionOf (bouncePosted u p k b text) k = some y → y.seqOf 1 = bSeq b) ∧ (bouncePosted u p k b text).sv = u.sv := by
  unfold bouncePosted
  have hks := ks_of_inward (hostPost_inward u p (bw b 2).toNat (text.1 ++ bytesOfBlock text.2))
  have hsv := sv_of_inward (hostPost_inward u p (bw b 2).toNat (text.1 ++ bytesOfBlock text.2))
  generalize hostPost u p (bw b 2).toNat (text.1 ++ bytesOfBlock text.2) = v at hks hsv ⊢
  obtain ⟨hhk, hframe, hseq⟩ := bounceMoved_moved v p k 1 (bSeq b)
  have hhkOf : hkOf v p = hkOf u p := (congrArg (fun k : Ks => mget HostKeys.zero k.ports p) hks :)
  rw [hhkOf] at hhk
  rw [← hks]
  exact ⟨hhk, hframe, hseq, hsv⟩

theorem hkOf_of_beside {s t : State} (h : t.beside = s.beside) (p : Nat) : hkOf t p = hkOf s p :=
  (congrArg (fun s : State => mget HostKeys.zero s.ks.ports p) h :)

/-! ## The end of a command (R497) -/

/-- The fence of a moved command is signalled where it is the slice's. -/
def bounceSignal (s : State) (p : Nat) (b : Bounce) : State :=
  match bounceSession s p b with
  | some (_, _, n, _) => if (fenceOf s (bFence b)).slice = n && (fenceOf s (bFence b)).state ≠ 0 then fenceOp s p (bFence b) .max (bw b 5) else s
  | none => s

theorem bounceSignal_cases (s : State) (p : Nat) (b : Bounce) :
    bounceSignal s p b = s ∨ bounceSignal s p b = fenceOp s p (bFence b) .max (bw b 5) := by
  unfold bounceSignal
  split
  · split
    · exact .inr rfl
    · exact .inl rfl
  · exact .inl rfl

theorem bounceSignal_signals {s : State} {p : Nat} {b : Bounce} {g : Nat × Session × Nat × Nat × Key × BitVec 32 × BitVec 32 × BitVec 32}
    (hg : bounceSession s p b = some g) (hslice : (fenceOf s (bFence b)).slice = g.2.2.1) (hstate : (fenceOf s (bFence b)).state ≠ 0) :
    bounceSignal s p b = fenceOp s p (bFence b) .max (bw b 5) := by
  unfold bounceSignal
  rw [hg]
  exact if_pos (by simp [hslice, hstate])

theorem bounceSignal_keeps (s : State) (p : Nat) (b : Bounce) : hkOf (bounceSignal s p b) p = hkOf s p ∧ (bounceSignal s p b).sv = s.sv := by
  obtain h | h := bounceSignal_cases s p b <;> rw [h] <;> exact ⟨rfl, rfl⟩

theorem execBounceComplete_head {s : State} {p : Nat} {b : Bounce} {rest : List Bounce} (hq : (hkOf s p).bncQueue = b :: rest) :
    execBounceComplete p s = unitRes (p < s.cfg.hostPorts) s ((hkOf s p).bncMoved && (hportOf s p).outQ.isEmpty)
      (bouncePop (bounceSignal s p b) p) := by
  unfold execBounceComplete
  simp only [hq]
  rfl

/-- Taking a command off the queue leaves the queues of the Tally ports as they are. -/
theorem bouncePop_queues (s : State) (p h : Nat) : (tallyOf (bouncePop s p) h).queues = (tallyOf s h).queues :=
  (congrArg (fun x : State × (Nat → List (Nat × List TOp)) => x.2 h) (bouncePop_underway s p) :)

end Sys2Proof.Machine
end

section
/-! PROOFS. The edges of the host packet ports (O48): what traffic going out leaves alone, and how inbound accesses, completion beats, credits
and the fall of HPP_RST end. -/
namespace Sys2Proof.Machine

theorem Ends.of_here {i : Instr} {s t : State} {b : Bool} {P : State → Prop} (h : exec i s = hereRes b t) (hb : b = true) (hc : clear t = true)
    (hP : P t) : Ends i s P := ⟨t, h.trans (hereRes_clear hb hc), hP⟩

/-! ## What traffic that goes out leaves of a port (R606 to R610) -/

/-- The edge of a port but for its outbound items, their credits and its reads. -/
def HPort.inbound (h : HPort) : HPort := { h with outQ := [], outCred := 0, nextTag := 0, tags := [], left := [] }

/-- The edges of the ports but for outbound traffic. -/
def State.inboundEdges (s : State) (p : Nat) : HPort := (hportOf s p).inbound

theorem modHport_inboundEdges (s : State) (p : Nat) {f : HPort → HPort} (hf : (f (hportOf s p)).inbound = (hportOf s p).inbound) :
    (modHport s p f).inboundEdges = s.inboundEdges := by
  funext k
  unfold State.inboundEdges
  by_cases hk : k = p
  · rw [hk, hportOf_modHport, hf]
  · rw [hportOf_modHport_ne s f hk]

theorem drainOut_inboundEdges (s : State) (p : Nat) : (drainOut s p).inboundEdges = s.inboundEdges := by
  unfold drainOut
  split
  · rfl
  · exact modHport_inboundEdges s p (f := fun h => { h with outQ := _, outCred := _ }) rfl

theorem pushOut_inboundEdges (s : State) (p : Nat) (xs : List OutItem) : (pushOut s p xs).inboundEdges = s.inboundEdges := by
  unfold pushOut
  split
  · rfl
  · rw [drainOut_inboundEdges, modHport_inboundEdges _ p rfl]
    funext k
    exact congrArg (fun l => (mget HPort.reset l k).inbound) (wakeHalf_hports s _)

theorem issueRead_inboundEdges (s : State) (p : Nat) (t : HTag) : (issueRead s p t).inboundEdges = s.inboundEdges :=
  (pushOut_inboundEdges ..).trans (modHport_inboundEdges s p rfl)

theorem ringFetch_inboundEdges (s : State) (p : Nat) : (ringFetch s p).inboundEdges = s.inboundEdges := by
  unfold ringFetch
  dsimp only
  split
  · exact issueRead_inboundEdges ..
  · rfl

theorem resumeRings_inboundEdges (s : State) : (resumeRings s).inboundEdges = s.inboundEdges :=
  foldl_keeps State.inboundEdges ringFetch_inboundEdges _ s

theorem bouncePop_inboundEdges (s : State) (p : Nat) : (bouncePop s p).inboundEdges = s.inboundEdges := by
  have htaken : (bounceTaken s p).inboundEdges = s.inboundEdges := modHport_inboundEdges (modHk s p HostKeys.popped) p rfl
  obtain h | ⟨addr, len, h⟩ := bouncePop_cases s p
  · exact (congrArg State.inboundEdges h).trans htaken
  · exact (congrArg State.inboundEdges h).trans ((issueRead_inboundEdges ..).trans htaken)

theorem bounceRefused_inboundEdges (s : State) (p cause : Nat) (b : Bounce) : (bounceRefused s p cause b).inboundEdges = s.inboundEdges := by
  unfold bounceRefused
  dsimp only
  split
  · split <;> rfl
  · rfl

theorem rderr_of_inboundEdges {s t : State} (h : t.inboundEdges = s.inboundEdges) (p : Nat) : (hportOf t p).rderr = (hportOf s p).rderr :=
  (congrArg (fun f : Nat → HPort => (f p).rderr) h :)

/-! ## Inbound accesses to slice memory (R607, R611, R612) -/

theorem drainCpl_sv (s : State) (p : Nat) : (drainCpl s p).sv = s.sv := rfl

@[simp] theorem clear_complete (s : State) (p : Nat) (c : HCpl) : clear (complete s p c) = clear s := by
  refine clear_eq_of_sv ?_
  unfold complete
  rw [drainCpl_sv, modHport_sv]
  split <;> rfl

@[simp] theorem hportOf_awake (s : State) (p : Nat) : hportOf (awake s) p = hportOf s p := by unfold awake; split <;> rfl
theorem descOf_awake (s : State) (n : Nat) : descOf (awake s) n = descOf s n := by unfold awake; split <;> rfl
theorem halves_awake (s : State) : (awake s).ck.halves = s.ck.halves := by unfold awake; split <;> rfl

/-- An inbound access answered with what its memory engine answers. -/
def sliceAnswered (p tag addr len : Nat) : State × SvRes → State
  | (s, .fail c) => complete s p ⟨tag, (cplOfCode c).1, (cplOfCode c).2, none⟩
  | (s, .data l) =>
    complete s p ⟨tag, 0, 0, some (BitVec.ofNat 1024 (l.toNat / 2 ^ (8 * (addr % 128)) % 2 ^ (8 * len) * 2 ^ (8 * (addr % 128))))⟩
  | (s, .done) => complete s p ⟨tag, 0, 0, none⟩

theorem clear_sliceAnswered (p tag addr len : Nat) (y : State × SvRes) : clear (sliceAnswered p tag addr len y) = clear y.1 := by
  unfold sliceAnswered
  split <;> exact clear_complete ..

theorem sliceAnswered_data {p tag addr len : Nat} {y : State × SvRes} {l : Line} (h : y.2 = .data l) : sliceAnswered p tag addr len y =
    complete y.1 p ⟨tag, 0, 0, some (BitVec.ofNat 1024 (l.toNat / 2 ^ (8 * (addr % 128)) % 2 ^ (8 * len) * 2 ^ (8 * (addr % 128))))⟩ := by
  obtain ⟨u, r⟩ := y
  subst h
  rfl

theorem sliceAnswered_done {p tag addr len : Nat} {y : State × SvRes} (h : y.2 = .done) :
    sliceAnswered p tag addr len y = complete y.1 p ⟨tag, 0, 0, none⟩ := by
  obtain ⟨u, r⟩ := y
  subst h
  rfl

section
variable {p slice tag addr len : Nat} {wr : Bool} {body : State → MemReq → State × SvRes} {s : State} (hp : p < s.cfg.hostPorts)
  (hrst : (hportOf s p).rst = false) (hdown : portDown (awake s) p = false) (hruns : blockRuns (awake s) = true) (hcred : 0 < (hportOf s p).reqCred)
include hp hrst hdown hruns hcred

theorem hostSlice_bad (hbad : badInbound addr len = true) :
    hostSlice p slice tag addr len wr body s = settle (complete (awake s) p ⟨tag % 256, 1, 0, none⟩) := by
  unfold hostSlice
  simp only [Nat.not_le.mpr hp, hrst, hportOf_awake, Nat.ne_of_gt hcred, hdown, hruns, hbad, Bool.not_true, Bool.false_eq_true, if_false, if_true]

theorem hostSlice_refused {r : Nat} (hbad : badInbound addr len = false) (hr : hostRefusal (awake s) p (slice % 16) addr = some r) :
    hostSlice p slice tag addr len wr body s = settle (complete
      (if dKind (descOf s (slice % 16)) ≠ 0 then
        modSlice (awake s) (slice % 16) fun x => { x with refused := satAdd (2 ^ 32 - 1) x.refused 1 } else awake s)
      p ⟨tag % 256, 2, r, none⟩) := by
  unfold hostSlice
  simp only [Nat.not_le.mpr hp, hrst, hportOf_awake, Nat.ne_of_gt hcred, hdown, hruns, hbad, hr, descOf_awake, Bool.not_true, Bool.false_eq_true,
    if_false]

theorem hostSlice_performed {x : State × Acc MemReq} {q : MemReq} (hbad : badInbound addr len = false)
    (hr : hostRefusal (awake s) p (slice % 16) addr = none) (hhalf : s.cfg.halfOfHost p ∉ s.ck.halves)
    (hx : xlat2 (awake s) (hostWho (awake s) p (slice % 16)) addr wr false = x) (hq : x.2 = .ok q) (hready : accessReady x.1 q = true)
    (hbw : bwWaits x.1 (hostWho x.1 p (slice % 16)).attr = false) :
    hostSlice p slice tag addr len wr body s =
      settle (sliceAnswered p (tag % 256) addr len (body (countLine x.1 (hostWho x.1 p (slice % 16)) q) q)) := by
  obtain ⟨u, r⟩ := x
  subst hq
  have hawait : awaitHalf (awake s) (s.cfg.halfOfHost p) = awake s := by
    unfold awaitHalf
    rw [halves_awake, if_neg (by simpa using hhalf)]
  unfold hostSlice
  simp only [Nat.not_le.mpr hp, hrst, hportOf_awake, Nat.ne_of_gt hcred, hdown, hruns, hbad, hr, awake_cfg, hawait, hx, hready, hbw, Bool.not_true,
    Bool.or_self, Bool.false_eq_true, if_false]
  unfold sliceAnswered
  split <;> simp_all

end

/-- What an inbound write does at its memory engine. -/
def inboundWrite (addr : Nat) (data : List Byte) (s : State) (q : MemReq) : State × SvRes :=
  let line : Line := BitVec.ofNat 1024 (natOfBytes data * 2 ^ (8 * (addr % 128)))
  if data.length = 128 then svWriteFull s q line [] else svWritePartial s q (partMask (addr % 128) data.length) line []

theorem exec_hostSliceRead (p slice tag addr len : Nat) (s : State) :
    exec (.hostSliceRead p slice tag addr len) s = hostSlice p slice tag addr len false (fun s q => svRead s q []) s := rfl

theorem exec_hostSliceWrite (p slice tag addr : Nat) (data : List Byte) (s : State) :
    exec (.hostSliceWrite p slice tag addr data) s = hostSlice p slice tag addr data.length true (inboundWrite addr data) s := rfl

/-! ## Completion beats (R607, R608, R610) -/

/-- A raised event leaves the ports and the memory engines alone. -/
theorem raise_ports (s : State) (src inst detail : Nat) :
    (∀ p, hportOf (raise s src inst detail) p = hportOf s p) ∧ (raise s src inst detail).sv = s.sv := by
  obtain ⟨ls, h⟩ := raise_frame s src inst detail none false
  rw [h]
  exact ⟨fun p => rfl, rfl⟩

theorem clear_badBeat (s : State) (p : Nat) : clear (badBeat s p) = clear s := by
  obtain ⟨-, h⟩ := raise_ports (modHport s p fun h => { h with badcpl := satAdd 65535 h.badcpl 1 }) 19 p 0
  exact clear_eq_of_sv (h.trans rfl)

theorem issueRead_tags (s : State) (p : Nat) (t : HTag) :
    (hportOf (issueRead s p t) p).tags = (hportOf s p).tags ++ [{ t with num := (hportOf s p).nextTag, beat := 0 }] := by
  unfold issueRead
  rw [pushOut_tags, hportOf_modHport]

/-- A read with the bytes of one beat more. -/
def HTag.taken (g : HTag) (data : Line) : HTag := { g with beat := g.beat + 1, got := g.got ++ beatBytes g data }

theorem takeBeat_more {s : State} {p : Nat} {g : HTag} {last : Bool} (data : Line) (h : (last && decide (g.done + (readSpan g).2 < g.len)) = true) :
    { (g.taken data) with num := (hportOf s p).nextTag, beat := 0, done := g.done + (readSpan g).2 } ∈
      (hportOf (takeBeat s p g last data) p).tags := by
  unfold takeBeat
  rw [if_pos h, issueRead_tags, hportOf_modHport]
  exact List.mem_append_right _ (List.mem_singleton.mpr rfl)

theorem takeBeat_kept {s : State} {p : Nat} {g : HTag} {last : Bool} (data : Line) (h : (last && decide (g.done + (readSpan g).2 < g.len)) = false) :
    takeBeat s p g last data =
      modHport s p fun h => { h with tags := h.tags.map fun x => if x.num = g.num then g.taken data else x } := by
  unfold takeBeat
  rw [if_neg (by simpa using h)]
  rfl

theorem takeBeat_inward (s : State) (p : Nat) (g : HTag) (last : Bool) (data : Line) : (takeBeat s p g last data).inward = s.inward := by
  unfold takeBeat
  split
  · exact issueRead_inward ..
  · rfl

/-- The tag that a number finds, where the tags of that number are changed to one that keeps it. -/
theorem find?_map_tag {l : List HTag} {tag : Nat} {g : HTag} (u : HTag) (hfind : (l.find? fun t => t.num = tag) = some g) (hu : u.num = g.num) :
    ((l.map fun x => if x.num = g.num then u else x).find? fun t => t.num = tag) = some u := by
  have hg : g.num = tag := by simpa using List.find?_some hfind
  have hkeeps : (fun t : HTag => decide (t.num = tag)) ∘ (fun x => if x.num = g.num then u else x) = fun t => decide (t.num = tag) := by
    funext x
    by_cases hx : x.num = g.num
    · simp [hx, hu]
    · simp [hx]
  rw [List.find?_map, hkeeps, hfind, Option.map_some, if_pos rfl]

/-- What the reader of a failed read does. -/
def readerFails (s : State) (p : Nat) : Reader → State
  | .ring => modRing s p fun r => { r with fetchPending := true }
  | .firmware => match s.fw.op with
    | some (op, _) => fwFail s op 5
    | none => s
  | .bounce => match (hkOf s p).bncQueue with
    | b :: _ => bounceRefuse s p 7 b
    | [] => s

theorem readerFails_keeps (s : State) (p : Nat) (r : Reader) :
    (readerFails s p r).inboundEdges = s.inboundEdges ∧ (readerFails s p r).sv = s.sv := by
  cases r with
  | ring => exact ⟨rfl, rfl⟩
  | firmware =>
    unfold readerFails
    dsimp only
    split <;> exact ⟨rfl, rfl⟩
  | bounce =>
    unfold readerFails
    dsimp only
    split
    · exact ⟨(bouncePop_inboundEdges ..).trans (bounceRefused_inboundEdges ..), (bouncePop_sv ..).trans (bounceRefused_counted ..).2.1⟩
    · exact ⟨rfl, rfl⟩

/-- A failed read has left its tag and counts. -/
def HPort.readFailed (g : HTag) (h : HPort) : HPort :=
  { h with tags := h.tags.filter fun x => x.num ≠ g.num, rderr := satAdd 65535 h.rderr 1 }

/-- The state in which a read has failed and is counted, before its reader ends it. -/
def readCounted (s : State) (p : Nat) (g : HTag) : State := raise (modHport s p (HPort.readFailed g)) 19 p 0

theorem readFailed_eq (s : State) (p : Nat) (g : HTag) : readFailed s p g = readerFails (readCounted s p g) p g.reader := by
  unfold readFailed readerFails
  rfl

/-- A failed read counts, and leaves the memory engines alone. -/
theorem readFailed_counted (s : State) (p : Nat) (g : HTag) :
    (hportOf (readFailed s p g) p).rderr = satAdd 65535 (hportOf s p).rderr 1 ∧ (readFailed s p g).sv = s.sv := by
  obtain ⟨hedges, hsv⟩ := readerFails_keeps (readCounted s p g) p g.reader
  obtain ⟨hports, hraise⟩ := raise_ports (modHport s p (HPort.readFailed g)) 19 p 0
  rw [readFailed_eq, rderr_of_inboundEdges hedges, hsv, readCounted, hports, hraise, hportOf_modHport]
  exact ⟨rfl, rfl⟩

/-- What a completion beat does at a port that is neither fenced nor in reset. -/
def beatAnswered (s : State) (p tag beat : Nat) (last err : Bool) (data : Line) : State :=
  match (hportOf s p).tags.find? fun t => t.num = tag with
  | none =>
    if (hportOf s p).left.contains tag then
      (if last then modHport s p fun h => { h with left := h.left.filter (· ≠ tag) } else s)
    else badBeat s p
  | some t =>
    if !(beatFits t beat last) then badBeat s p
    else if err then readFailed s p t
    else takeBeat s p t last data

section
variable {s : State} {p tag beat : Nat} {last err : Bool} {data : Line}

theorem execHostReadCompletion_serving (hrst : (hportOf s p).rst = false) (hfenced : s.fc.hostFenced.contains p = false) :
    exec (.hostReadCompletion p tag beat last err data) s = hereRes (p < s.cfg.hostPorts) (beatAnswered s p tag beat last err data) := by
  change execHostReadCompletion p tag beat last err data s = _
  unfold execHostReadCompletion
  rw [hrst, hfenced]
  rfl

section
variable (hnone : ((hportOf s p).tags.find? fun t => t.num = tag) = none)
include hnone

theorem beatAnswered_unknown (hleft : tag ∉ (hportOf s p).left) : beatAnswered s p tag beat last err data = badBeat s p := by
  unfold beatAnswered
  rw [hnone]
  exact if_neg (by simpa using hleft)

theorem beatAnswered_left (hleft : tag ∈ (hportOf s p).left) : beatAnswered s p tag beat last err data =
    if last then modHport s p fun h => { h with left := h.left.filter (· ≠ tag) } else s := by
  unfold beatAnswered
  rw [hnone]
  exact if_pos (by simpa using hleft)

end

variable {g : HTag} (hg : ((hportOf s p).tags.find? fun t => t.num = tag) = some g)
include hg

theorem beatAnswered_unfit (hfits : beatFits g beat last = false) : beatAnswered s p tag beat last err data = badBeat s p := by
  unfold beatAnswered
  simp only [hg, hfits, Bool.not_false, if_true]

theorem beatAnswered_failed (hfits : beatFits g beat last = true) (herr : err = true) :
    beatAnswered s p tag beat last err data = readFailed s p g := by
  unfold beatAnswered
  simp only [hg, hfits, herr, Bool.not_true, Bool.false_eq_true, if_false, if_true]

theorem beatAnswered_taken (hfits : beatFits g beat last = true) (herr : err = false) :
    beatAnswered s p tag beat last err data = takeBeat s p g last data := by
  unfold beatAnswered
  simp only [hg, hfits, herr, Bool.not_true, Bool.false_eq_true, if_false]

end

theorem clear_beatAnswered (s : State) (p tag beat : Nat) (last err : Bool) (data : Line) :
    clear (beatAnswered s p tag beat last err data) = clear s := by
  unfold beatAnswered
  split
  · split
    · split <;> rfl
    · exact clear_badBeat s p
  · split
    · exact clear_badBeat s p
    · split
      · exact clear_eq_of_sv (readFailed_counted s p _).2
      · exact clear_of_inward (takeBeat_inward ..)

/-! ## Credits (R607) -/

/-- The state but for the ports, what was presented and the collector. -/
def SameButEdges (s t : State) : Prop := { t with hports := s.hports, out := s.out, fc := s.fc } = s

theorem badBeat_sameButEdges (s : State) (p : Nat) : SameButEdges s (badBeat s p) := by
  obtain ⟨ls, h⟩ := raise_frame (modHport s p fun h => { h with badcpl := satAdd 65535 h.badcpl 1 }) 19 p 0 none false
  unfold SameButEdges badBeat
  rw [h]
  rfl

theorem drainOut_frame (s : State) (p : Nat) : ∃ hs os, drainOut s p = { s with hports := hs, out := os } := by
  unfold drainOut
  split
  · exact ⟨s.hports, s.out, rfl⟩
  · exact ⟨_, _, rfl⟩

theorem drainOut_sameButEdges (s : State) (p : Nat) (f : HPort → HPort) : SameButEdges s (drainOut (modHport s p f) p) := by
  obtain ⟨hs, os, h⟩ := drainOut_frame (modHport s p f) p
  unfold SameButEdges
  rw [h]
  rfl

theorem drainCpl_frame (s : State) (p : Nat) : ∃ hs os, drainCpl s p = { s with hports := hs, out := os } := ⟨_, _, rfl⟩

theorem drainCpl_sameButEdges (s : State) (p : Nat) (f : HPort → HPort) : SameButEdges s (drainCpl (modHport s p f) p) := by
  obtain ⟨hs, os, h⟩ := drainCpl_frame (modHport s p f) p
  unfold SameButEdges
  rw [h]
  rfl

/-- A port without waiting outbound items keeps its credits. -/
theorem drainOut_outCred {s : State} {p : Nat} (h : (hportOf s p).outQ = []) : (hportOf (drainOut s p) p).outCred = (hportOf s p).outCred := by
  unfold drainOut
  split
  · rfl
  · simp only [h, presentOut]
    exact (congrArg HPort.outCred (hportOf_modHport s p fun g => { g with outQ := [], outCred := (hportOf s p).outCred }) :)

/-- A port without waiting completions keeps its credits. -/
theorem drainCpl_cplCred {s : State} {p : Nat} (h : (hportOf s p).cplQ = []) : (hportOf (drainCpl s p) p).cplCred = (hportOf s p).cplCred := by
  unfold drainCpl
  simp only [h, presentCpl]
  exact (congrArg HPort.cplCred (hportOf_modHport s p fun g =>
    { g with cplQ := [], cplCred := (hportOf s p).cplCred, reqCred := (hportOf s p).reqCred }) :)

theorem SameButEdges.clear_eq {s t : State} (h : SameButEdges s t) : clear t = clear s := clear_eq_of_sv (congrArg State.sv h :)

/-- The credits of a channel of a port: those of inbound completions, or those of outbound requests. -/
def creditsOf (s : State) (p : Nat) (cpl : Bool) : Nat := if cpl then (hportOf s p).cplCred else (hportOf s p).outCred

/-- What a returned credit does: one credit more, and what waited for it goes. -/
def creditTaken (s : State) (p : Nat) : Bool → State
  | true => drainCpl (modHport s p fun h => { h with cplCred := h.cplCred + 1 }) p
  | false => drainOut (modHport s p fun h => { h with outCred := h.outCred + 1 }) p

theorem execHostCreditReturn_serving {s : State} {p : Nat} (cpl : Bool) (hrst : (hportOf s p).rst = false) : exec (.hostCreditReturn p cpl) s =
    hereRes (p < s.cfg.hostPorts) (if 255 ≤ creditsOf s p cpl then badBeat s p else creditTaken s p cpl) := by
  change execHostCreditReturn p cpl s = _
  unfold execHostCreditReturn
  dsimp only
  rw [hrst]
  cases cpl <;> rfl

theorem creditTaken_sameButEdges (s : State) (p : Nat) (cpl : Bool) : SameButEdges s (creditTaken s p cpl) := by
  cases cpl with
  | true => exact drainCpl_sameButEdges ..
  | false => exact drainOut_sameButEdges ..

theorem creditTaken_cplCred {s : State} {p : Nat} (h : (hportOf s p).cplQ = []) :
    (hportOf (creditTaken s p true) p).cplCred = (hportOf s p).cplCred + 1 := by
  have hport := hportOf_modHport s p fun h => { h with cplCred := h.cplCred + 1 }
  exact (drainCpl_cplCred ((congrArg HPort.cplQ hport :).trans h)).trans (congrArg HPort.cplCred hport :)

theorem creditTaken_outCred {s : State} {p : Nat} (h : (hportOf s p).outQ = []) :
    (hportOf (creditTaken s p false) p).outCred = (hportOf s p).outCred + 1 := by
  have hport := hportOf_modHport s p fun h => { h with outCred := h.outCred + 1 }
  exact (drainOut_outCred ((congrArg HPort.outQ hport :).trans h)).trans (congrArg HPort.outCred hport :)

end Sys2Proof.Machine
end

section
/-! PROOFS. Bounce commands and host port traffic complete (O48). -/
namespace Sys2Proof.Machine

/-- Settles O48: a refusal, a move and an end of a bounce command are `bounceRefuse_refused`, `bounceMoved_moved` and `bouncePop_queues`; inbound
accesses end as `sliceAnswered` says, and the beats, credits and counts of a port keep what outbound traffic keeps. -/
theorem bounceCommandsMoveAndSignal : Obligations.BounceCommandsMoveAndSignal := by
  unfold Obligations.BounceCommandsMoveAndSignal
  refine ⟨?refused, ?moved, ?complete, ?inbound, ?reads, ?credit, ?rstFall⟩
  case refused =>
    intro p cause data b rest s hq hmoved hp hruns hlegal hwaits hclear hfault
    have hrefused := bounceRefuse_refused cause hq
    have hc : clear (bounceRefuse s p cause b) = true := (clear_eq_of_sv hrefused.2.2.2.1).trans hclear
    refine ⟨fun hdir hlen hout => ?_, fun hdir => ?_⟩
    · exact Ends.of_unit (execBounceH2d_refuses hlegal data (bounceHead_some hq hmoved hdir) hfault) (decide_eq_true hp)
        (by simp [hruns, hwaits, hlegal, hlen, hout]) hc hrefused
    · exact Ends.of_unit (execBounceD2h_refuses hlegal (bounceHead_some hq hmoved hdir) hfault) (decide_eq_true hp) (by simp [hruns, hwaits]) hc
        hrefused
  case moved =>
    intro p k n o data pt b rest x key h2d d2h cmd s hq hmoved hp hruns hlegal hwaits hfault hsession
    refine ⟨?h2d, ?d2h⟩
    case h2d =>
      intro u hdir hlen hout hopen hdone hc
      have hexec := execBounceH2d_moves hlegal hfault hsession (bounceHead_some hq hmoved hdir) hopen (Prod.ext (x := u) rfl hdone)
      obtain ⟨hhk, hframe, hseq⟩ := bounceMoved_moved u.1 p k 0 (bSeq b)
      rw [hkOf_of_beside (memWrite_beside ..) p] at hhk
      exact Ends.of_unit hexec (decide_eq_true hp) (by simp [hruns, hwaits, hlegal, hlen, hout]) hc
        ⟨(congrArg HostKeys.bncMoved hhk :), (congrArg HostKeys.bncQueue hhk :).trans hq, hframe, hseq⟩
    case d2h =>
      intro u hdir htag hdone hc
      have hexec := execBounceD2h_moves hlegal hfault hsession (bounceHead_some hq hmoved hdir) htag (Prod.ext (x := u) rfl hdone)
      obtain ⟨hhk, hframe, hseq, hsv⟩ := bouncePosted_moved u.1 p k b (gcmSeal key (bounceIv d2h b) (bounceAad b) pt)
      rw [hkOf_of_beside (memRead_beside ..) p] at hhk
      exact Ends.of_unit hexec (decide_eq_true hp) (by simp [hruns, hwaits]) ((clear_eq_of_sv hsv).trans hc)
        ⟨(congrArg HostKeys.bncMoved hhk :), (congrArg HostKeys.bncQueue hhk :).trans hq, hframe, hseq⟩
  case complete =>
    intro p b rest s hq hp hmoved hout hclear
    obtain ⟨hhk, hsv⟩ := bounceSignal_keeps s p b
    have hpop := hkOf_bouncePop (bounceSignal s p b) p
    rw [hhk] at hpop
    have hsv' : (bouncePop (bounceSignal s p b) p).sv = s.sv := (bouncePop_sv ..).trans hsv
    refine Ends.of_unit (execBounceComplete_head hq) (decide_eq_true hp) (by simp [hmoved, hout]) ((clear_eq_of_sv hsv').trans hclear)
      ⟨?_, (congrArg HostKeys.bncMoved hpop :), hsv', fun g hg hslice hstate h j => ?_⟩
    · rw [hpop, HostKeys.popped, hq]
      rfl
    · rw [bouncePop_queues, bounceSignal_signals hg hslice hstate]
      exact (fenceOp_queued s p (bFence b) .max (bw b 5) h).2 j
  case inbound =>
    intro p slice tag addr len data s hp hrst hdown hruns hcred hclear u
    have hu : clear u = true := (clear_awake s).trans hclear
    have hv (t : State) (ht : clear t = true) (x : HCpl) : clear (complete t p x) = true := (clear_complete t p x).trans ht
    refine ⟨fun hbad => ?_, fun hbad => ?_, fun r hr => ?refused, fun q hr hhalf => ⟨?read, ?write⟩⟩
    · exact Ends.of_settle ((exec_hostSliceRead ..).trans (hostSlice_bad hp hrst hdown hruns hcred hbad)) (hv u hu _) rfl
    · exact Ends.of_settle ((exec_hostSliceWrite ..).trans (hostSlice_bad hp hrst hdown hruns hcred hbad)) (hv u hu _) rfl
    case refused =>
      intro v
      have hclearv : clear v = true := by
        show clear (if _ then _ else _) = true
        split
        · exact hu
        · exact hu
      refine ⟨fun hbad => ?_, fun hbad => ?_⟩
      · exact Ends.of_settle ((exec_hostSliceRead ..).trans (hostSlice_refused hp hrst hdown hruns hcred hbad hr)) (hv v hclearv _) rfl
      · exact Ends.of_settle ((exec_hostSliceWrite ..).trans (hostSlice_refused hp hrst hdown hruns hcred hbad hr)) (hv v hclearv _) rfl
    case read =>
      intro x y hbad hq hready hbw hc
      exact Ends.of_settle ((exec_hostSliceRead ..).trans (hostSlice_performed hp hrst hdown hruns hcred hbad hr hhalf rfl hq hready hbw))
        ((clear_sliceAnswered ..).trans hc) fun l hl => sliceAnswered_data hl
    case write =>
      intro x line c y hbad hq hready hbw hc
      exact Ends.of_settle ((exec_hostSliceWrite ..).trans (hostSlice_performed hp hrst hdown hruns hcred hbad hr hhalf rfl hq hready hbw))
        ((clear_sliceAnswered ..).trans hc) fun hdone => sliceAnswered_done hdone
  case reads =>
    intro p tag beat last err data s hp hrst hfenced hclear
    have hexec : exec (.hostReadCompletion p tag beat last err data) s = hereRes (p < s.cfg.hostPorts) (beatAnswered s p tag beat last err data) :=
      execHostReadCompletion_serving hrst hfenced
    have hc : clear (beatAnswered s p tag beat last err data) = true := (clear_beatAnswered ..).trans hclear
    refine Ends.of_here hexec (decide_eq_true hp) hc ⟨fun hnone => ⟨fun hleft => ?_, fun hleft => ?_⟩, fun g hg => ⟨?_, ?_, ?_, ?_⟩⟩
    · exact beatAnswered_unknown hnone hleft
    · rw [beatAnswered_left hnone hleft]
      refine ⟨by split <;> rfl, fun hlast => ?_⟩
      rw [if_pos hlast, hportOf_modHport]
      simp
    · exact beatAnswered_unfit hg
    · intro hfits herr hmore
      rw [beatAnswered_taken hg hfits herr, takeBeat_kept data hmore]
      refine ⟨rfl, ?_⟩
      rw [hportOf_modHport]
      exact find?_map_tag (g.taken data) hg rfl
    · intro hfits herr hmore
      rw [beatAnswered_taken hg hfits herr]
      exact ⟨_, takeBeat_more data hmore⟩
    · intro hfits herr
      rw [beatAnswered_failed hg hfits herr]
      exact readFailed_counted s p g
  case credit =>
    intro p cpl s hp hrst hclear
    by_cases hfull : 255 ≤ creditsOf s p cpl
    · have hframe := badBeat_sameButEdges s p
      exact Ends.of_here ((execHostCreditReturn_serving cpl hrst).trans (by rw [if_pos hfull])) (decide_eq_true hp) (hframe.clear_eq.trans hclear)
        ⟨fun _ => rfl, fun hcpl hlt _ => absurd hfull (by simpa [creditsOf, hcpl] using hlt),
          fun hcpl hlt _ => absurd hfull (by simpa [creditsOf, hcpl] using hlt), hframe⟩
    · have hframe := creditTaken_sameButEdges s p cpl
      exact Ends.of_here ((execHostCreditReturn_serving cpl hrst).trans (by rw [if_neg hfull])) (decide_eq_true hp) (hframe.clear_eq.trans hclear)
        ⟨fun h => absurd h hfull, fun hcpl _ hq => by rw [hcpl]; exact creditTaken_cplCred hq,
          fun hcpl _ hq => by rw [hcpl]; exact creditTaken_outCred hq, hframe⟩
  case rstFall =>
    intro p s hp hrst hck hclear
    let v := modHport s p fun h => { h with outCred := 0, cplCred := 0, reqCred := 64, rst := false }
    have hin : (resumeRings v).inward = s.inward := resumeRings_inward v
    have hport : (hportOf (resumeRings v) p).inbound = (hportOf v p).inbound := congrFun (resumeRings_inboundEdges v) p
    rw [hportOf_modHport] at hport
    exact Ends.of_unit (t := resumeRings v) rfl (decide_eq_true hp) (by simp [hrst, hck]) ((clear_of_inward hin).trans hclear)
      ⟨(congrArg HPort.rst hport :), (congrArg HPort.cplCred hport :), (congrArg HPort.reqCred hport :), (congrArg State.queues hin :),
        (congrArg State.ctxs hin :), sv_of_inward hin⟩

end Sys2Proof.Machine
end

section
/-! PROOFS. What lasts through an access to stored lines: of a memory port its cache, tags, medium counts and histories may change, of a key
identifier its count of uses, and of the state around the memory engines only the Tally memories, the counts of the slice reports and the waiting
error events. -/
namespace Sys2Proof.Machine

/-! ## What lasts -/

/-- The record of a memory port but for what an access to its stored lines may change. -/
def MemPort.lasting (p : MemPort) : MemPort :=
  { p with treefail := 0, tagfail := 0, hist := [], ce := 0, ue := 0, histLost := 0, retireQ := [], errRsp := 0, cache := [], tags := [] }

/-- A key identifier but for its count of uses (R305). -/
def Kid.lasting (k : Kid) : Kid := { k with overBudget := false, uses := 0 }

/-- The state but for the ports, stored lines and key identifiers of the memory engines, the Tally memories, the counts of the slice reports and the
waiting error events. -/
def State.around (s : State) : State :=
  { s with sv := { s.sv with ports := [], beats := [], kids := [], stuck := false }, tally := [], ks := { s.ks with slices := [] },
           fc := { s.fc with lines := [] } }

/-- What an access to stored lines leaves as it was. -/
def State.lasting (s : State) : State × (Nat → MemPort) × (Nat → Kid) :=
  (s.around, fun m => (portOf s m).lasting, fun n => (kidOf s n).lasting)

/-- A state reached as the first part of an answer. -/
theorem lasting_of_eq {β : Type} {p : State × β} {s t : State} {b : β} (e : p = (t, b)) (h : p.1.lasting = s.lasting) :
    t.lasting = s.lasting := by
  rwa [e] at h

theorem around_of_lasting {s t : State} (h : t.lasting = s.lasting) : t.around = s.around := congrArg Prod.fst h

theorem portOf_of_lasting {s t : State} (h : t.lasting = s.lasting) (m : Nat) : (portOf t m).lasting = (portOf s m).lasting :=
  congrFun (congrArg (·.2.1) h) m

theorem kidOf_of_lasting {s t : State} (h : t.lasting = s.lasting) (n : Nat) : (kidOf t n).lasting = (kidOf s n).lasting :=
  congrFun (congrArg (·.2.2) h) n

theorem lost_of_lasting {s t : State} (h : t.lasting = s.lasting) (m : Nat) : (portOf t m).lost = (portOf s m).lost :=
  (congrArg MemPort.lost (portOf_of_lasting h m) :)

theorem reenc_of_lasting {s t : State} (h : t.lasting = s.lasting) (m : Nat) : (portOf t m).reenc = (portOf s m).reenc :=
  (congrArg MemPort.reenc (portOf_of_lasting h m) :)

/-! ## Primitive changes -/

theorem modPort_lasting {s : State} {m : Nat} {f : MemPort → MemPort} (hf : (f (portOf s m)).lasting = (portOf s m).lasting) :
    (modPort s m f).lasting = s.lasting := by
  refine Prod.ext rfl (Prod.ext (funext fun k => ?_) rfl)
  by_cases hk : k = m
  · subst hk
    exact (congrArg MemPort.lasting (portOf_modPort s k f)).trans hf
  · exact congrArg MemPort.lasting (portOf_modPort_ne s f hk)

theorem cacheTouch_lasting (p : MemPort) (c : CLine) : (cacheTouch p c).lasting = p.lasting := (rfl)

@[simp] theorem countUse_lasting (s : State) (keyid : Nat) : (countUse s keyid).lasting = s.lasting := by
  refine Prod.ext rfl (Prod.ext rfl (funext fun k => ?_))
  by_cases hk : k = keyid
  · subst hk
    exact (congrArg Kid.lasting (kidOf_modKid s k _)).trans rfl
  · exact congrArg Kid.lasting (kidOf_modKid_ne s _ hk)

@[simp] theorem modTally_lasting (s : State) (h : Nat) (f : Tally → Tally) : (modTally s h f).lasting = s.lasting := (rfl)
@[simp] theorem putBeat_lasting (s : State) (m sub phys : Nat) (b : Beat) : (putBeat s m sub phys b).lasting = s.lasting := (rfl)

@[simp] theorem raise_lasting (s : State) (src inst detail : Nat) (slice : Option Nat) (inj : Bool) :
    (raise s src inst detail slice inj).lasting = s.lasting := by
  unfold raise; split <;> rfl

@[simp] theorem reportCount_lasting (s : State) (which : Nat) (n : Option Nat) : (reportCount s which n).lasting = s.lasting := by
  cases n <;> rfl

@[simp] theorem portSlot_lasting (s : State) (h port : Nat) : (portSlot s h port).lasting = s.lasting := by
  unfold portSlot awaitTally; split <;> rfl

@[simp] theorem applyMed_lasting (s : State) (m sub : Nat) (med : Med) : (applyMed s m sub med).lasting = s.lasting :=
  foldl_keeps State.lasting (fun _ _ => putBeat_lasting ..) _ s

/-! ## Stored lines (R325 to R341) -/

@[simp] theorem claimLine_lasting (s : State) (m sub phys : Nat) : (claimLine s m sub phys).lasting = s.lasting := by
  unfold claimLine; split <;> rfl

@[simp] theorem dueRetire_lasting (s : State) (m sub group sym : Nat) : (dueRetire s m sub group sym).lasting = s.lasting := by
  unfold dueRetire
  dsimp only
  split
  · exact modPort_lasting rfl
  · rfl

@[simp] theorem noteCorrected_lasting (s : State) (m sub phys sym : Nat) : (noteCorrected s m sub phys sym).lasting = s.lasting := by
  unfold noteCorrected
  simp only [apply_ite State.lasting, dueRetire_lasting, ite_self]
  refine (modPort_lasting ?_).trans ((raise_lasting ..).trans (modPort_lasting rfl))
  split <;> rfl

@[simp] theorem noteUncorrectable_lasting (s : State) (m sub phys : Nat) : (noteUncorrectable s m sub phys).lasting = s.lasting :=
  (dueRetire_lasting ..).trans ((raise_lasting ..).trans (modPort_lasting rfl))

@[simp] theorem readStored_lasting (s : State) (m sub line : Nat) (isMeta : Bool) (errs : List Nat) :
    (readStored s m sub line isMeta errs).1.lasting = s.lasting := by
  unfold readStored
  dsimp only
  split
  · exact (raise_lasting ..).trans ((modPort_lasting rfl).trans (claimLine_lasting ..))
  · split <;> simp [apply_ite State.lasting]

@[simp] theorem writeLine_lasting (s : State) (m sub line : Nat) (attr : Attr) (b : Beat) : (writeLine s m sub line attr b).lasting = s.lasting :=
  (putBeat_lasting ..).trans ((modPort_lasting rfl).trans ((modPort_lasting rfl).trans (claimLine_lasting ..)))

@[simp] theorem bumpRoot_lasting (s : State) (m sub n : Nat) : (bumpRoot s m sub n).lasting = s.lasting := by simp [bumpRoot]

@[simp] theorem treeFail_lasting (s : State) (m sub detail : Nat) (slice : Option Nat) : (treeFail s m sub detail slice).lasting = s.lasting :=
  (raise_lasting ..).trans ((modPort_lasting rfl).trans (reportCount_lasting ..))

@[simp] theorem tagFail_lasting (s : State) (m sub line : Nat) : (tagFail s m sub line).lasting = s.lasting :=
  (putBeat_lasting ..).trans ((raise_lasting ..).trans ((modPort_lasting rfl).trans (reportCount_lasting ..)))

@[simp] theorem patchStored_lasting (s : State) (m sub addr n v fn keyid : Nat) : (patchStored s m sub addr n v fn keyid).lasting = s.lasting := by
  unfold patchStored
  dsimp only
  split <;> simp only [writeLine_lasting, treeFail_lasting, readStored_lasting]

@[simp] theorem readStoredWord_lasting (s : State) (m sub addr : Nat) (errs : List Nat) :
    (readStoredWord s m sub addr errs).1.lasting = s.lasting := by
  unfold readStoredWord
  split
  case h_1 e | h_2 e => exact lasting_of_eq e (readStored_lasting ..)

/-! ## Nodes and tags (R285 to R303) -/

@[simp] theorem nodePut_lasting (s : State) (m sub lvl i keyid : Nat) (n : Node) : (nodePut s m sub lvl i keyid n).lasting = s.lasting :=
  modPort_lasting (cacheTouch_lasting ..)

@[simp] theorem cacheDrop_lasting (s : State) (m sub line : Nat) : (cacheDrop s m sub line).lasting = s.lasting := modPort_lasting rfl

@[simp] theorem readNode_lasting (s : State) (m sub lvl i major minor : Nat) (errs : List Nat) :
    (readNode s m sub lvl i major minor errs).1.lasting = s.lasting := by
  unfold readNode
  rcases hr : readStored s m sub (nodeAddr s m lvl i / 128) true errs with ⟨t, l | _ | _ | _⟩
  all_goals have ht := lasting_of_eq hr (readStored_lasting ..)
  case data =>
    rcases hw : readStoredWord t m sub (nodeTagAddr t m lvl i) errs with ⟨u, w | _ | _ | _, x⟩
    all_goals simpa only [hr, hw] using (lasting_of_eq hw (readStoredWord_lasting ..)).trans ht
  all_goals simpa only [hr] using ht

@[simp] theorem retagChild_lasting (s : State) (m sub lvl ci oldMajor oldMinor major keyid : Nat) :
    (retagChild s m sub lvl ci oldMajor oldMinor major keyid).lasting = s.lasting := by
  unfold retagChild
  split
  case h_1 e | h_2 e => simpa using lasting_of_eq e (readNode_lasting ..)

@[simp] theorem retagChildren_lasting (s : State) (m sub lvl i : Nat) (n : Node) (major keyid : Nat) :
    (retagChildren s m sub lvl i n major keyid).lasting = s.lasting :=
  foldl_keeps State.lasting (fun t j => by split <;> simp) _ s

/-- A source of nodes through which everything of `State.lasting` lasts. -/
def Getter.Lasting (get : Getter) : Prop := ∀ s sub lvl i, (get s sub lvl i).1.lasting = s.lasting

section
variable {get : Getter} (hg : get.Lasting)
include hg

theorem bumpParent_lasting (s : State) (m sub lvl i keyid : Nat) : (bumpParent get s m sub lvl i keyid).1.lasting = s.lasting := by
  unfold bumpParent
  dsimp only
  split
  · simp
  · split
    case h_1 e => exact lasting_of_eq e (hg ..)
    case h_2 e =>
      have ht := lasting_of_eq e (hg ..)
      split <;> simpa using ht

theorem writeBackLine_lasting (s : State) (m : Nat) (c : CLine) (fn : Nat) : (writeBackLine get s m c fn).lasting = s.lasting := by
  have hnode (t : State) (lvl i : Nat) (n : Node) : (writeBackNode get t m c.sub lvl i c.keyid fn n).lasting = t.lasting := by
    unfold writeBackNode
    split
    case h_1 e | h_2 e => simpa using lasting_of_eq e (bumpParent_lasting hg ..)
  have hhalf (t : State) (half : Nat) : (writeBackHalf get t m c half fn).lasting = t.lasting := by
    unfold writeBackHalf
    dsimp only
    split
    · exact hnode ..
    · simp
  unfold writeBackLine
  simp only [apply_ite State.lasting, hhalf, ite_self]
end

section
variable {get : Nat → Getter} (hg : ∀ k, (get k).Lasting)
include hg

theorem makeRoom_lasting (n : Nat) (s : State) (m sub line : Nat) : (makeRoom get n s m sub line).lasting = s.lasting := by
  induction n generalizing s with
  | zero => rfl
  | succ n ih =>
    unfold makeRoom
    split
    · rfl
    · rw [ih, writeBackLine_lasting (hg _), cacheDrop_lasting]

theorem nodeGet_insert_lasting (m keyid : Nat) (s : State) (sub addr half : Nat) (n : Node) :
    (nodeGet.insert m get keyid s sub addr half n).lasting = s.lasting := by
  unfold nodeGet.insert
  refine (modPort_lasting (cacheTouch_lasting ..)).trans ?_
  simp only [apply_ite State.lasting, makeRoom_lasting hg, ite_self]

theorem nodeGet_fetch_lasting (errs : List Nat) (m keyid : Nat) (s : State) (sub lvl i addr half : Nat) :
    (nodeGet.fetch errs m get keyid s sub lvl i addr half).1.lasting = s.lasting := by
  unfold nodeGet.fetch
  generalize hp : (if lvl = 3 then _ else _ : State × Option (Nat × Nat)) = p
  have hparent : p.1.lasting = s.lasting := by
    rw [← hp]
    split
    · rfl
    · split
      case h_1 e | h_2 e => exact lasting_of_eq e (hg ..)
  obtain ⟨t, _ | ⟨major, minor⟩⟩ := p
  · exact hparent
  · dsimp only at hparent ⊢
    split
    · exact (nodeGet_insert_lasting hg ..).trans hparent
    · split
      case h_1 e => exact (nodeGet_insert_lasting hg ..).trans ((lasting_of_eq e (readNode_lasting ..)).trans hparent)
      case h_2 e => exact (treeFail_lasting ..).trans ((lasting_of_eq e (readNode_lasting ..)).trans hparent)
      case h_3 e => exact (lasting_of_eq e (readNode_lasting ..)).trans hparent
end

theorem nodeGet_lasting (errs : List Nat) (m fuel keyid : Nat) : (nodeGet errs m fuel keyid).Lasting := by
  induction fuel generalizing keyid with
  | zero => exact fun _ _ _ _ => rfl
  | succ n ih =>
    intro s sub lvl i
    unfold nodeGet
    dsimp only
    split
    · split
      · exact modPort_lasting (cacheTouch_lasting ..)
      · exact nodeGet_fetch_lasting ih ..
    · exact nodeGet_fetch_lasting ih ..

@[simp] theorem getCtr_lasting (s : State) (m sub i keyid : Nat) (errs : List Nat) : (getCtr s m sub i keyid errs).1.lasting = s.lasting :=
  nodeGet_lasting ..

@[simp] theorem getTag_lasting (s : State) (m sub line keyid : Nat) (errs : List Nat) : (getTag s m sub line keyid errs).1.lasting = s.lasting := by
  unfold getTag
  cases hc : cacheFind (portOf s m) sub (lineTagAddr s m line / 128) with
  | some c =>
    simp only [hc]
    exact modPort_lasting (cacheTouch_lasting ..)
  | none =>
    rcases hr : readStored s m sub (lineTagAddr s m line / 128) true errs with ⟨t, l | _ | _ | _⟩
    all_goals have ht := lasting_of_eq hr (readStored_lasting ..)
    case data =>
      simp only [hc, hr]
      exact (modPort_lasting (cacheTouch_lasting ..)).trans ((makeRoom_lasting (fun k => nodeGet_lasting [] m treeFuel k) ..).trans ht)
    all_goals simpa only [hc, hr, treeFail_lasting] using ht

@[simp] theorem putTag_lasting (s : State) (m sub line keyid : Nat) (tag : Word) : (putTag s m sub line keyid tag).lasting = s.lasting := by
  unfold putTag
  dsimp only
  split
  case h_1 e => exact lasting_of_eq e (getTag_lasting ..)
  case h_2 e =>
    exact (modPort_lasting (cacheTouch_lasting ..)).trans (lasting_of_eq e (getTag_lasting ..))

/-! ## Lines and groups (R292 to R301) -/

@[simp] theorem openLine_lasting (s : State) (m sub line keyid : Nat) (c : Counter) (errs : List Nat) (merge : Bool) :
    (openLine s m sub line keyid c errs merge).1.lasting = s.lasting := by
  unfold openLine
  split
  case h_1 e =>
    have ht := lasting_of_eq e (readStored_lasting ..)
    dsimp only
    split
    · exact (tagFail_lasting ..).trans ht
    · exact ht
  case h_2 e =>
    have ht := lasting_of_eq e (readStored_lasting ..)
    split
    · exact ht
    · split
      case h_1 e => exact (lasting_of_eq e (getTag_lasting ..)).trans ht
      case h_2 e =>
        have hu := (lasting_of_eq e (getTag_lasting ..)).trans ht
        split
        · exact hu
        · exact (tagFail_lasting ..).trans hu
  case h_3 e => exact lasting_of_eq e (readStored_lasting ..)

@[simp] theorem sealLine_lasting (s : State) (m sub line keyid : Nat) (attr : Attr) (c : Counter) (pt : Line) :
    (sealLine s m sub line keyid attr c pt).lasting = s.lasting := by
  unfold sealLine
  split <;> simp

@[simp] theorem reencLine_lasting (s : State) (m sub line ka kb : Nat) (ca cb : Counter) (errs : List Nat) :
    (reencLine s m sub line ka kb ca cb errs).lasting = s.lasting := by
  unfold reencLine
  split
  case h_1 e | h_2 e => simpa using lasting_of_eq e (openLine_lasting ..)

/-- The count of a group re-encryption (R319). -/
def reencCounted (s : State) (m : Nat) : State := modPort s m fun p => { p with reenc := satAdd 65535 p.reenc 1 }

/-- A group re-encryption with its roots counts itself, and what else it changes are stored lines (R301, R319). -/
theorem reencGroup_lasting {s : State} {m : Nat} (hlost : (portOf s m).lost = false) (sub g ka kb : Nat) (wide : Bool) (errs : List Nat) :
    (reencGroup s m sub g ka kb wide errs).lasting = (reencCounted s m).lasting := by
  unfold reencGroup
  have hu := reportCount_lasting (reencCounted s m) 2 (lineSlice (reencCounted s m) m sub (64 * g))
  simp only [hlost, Bool.false_eq_true, if_false]
  split
  · refine (foldl_keeps State.lasting (fun t i => ?_) _ _).trans hu
    split
    case h_1 e => exact lasting_of_eq e (getCtr_lasting ..)
    case h_2 e =>
      have ht := lasting_of_eq e (getCtr_lasting ..)
      split <;> simpa using ht
  · split
    case h_1 e => exact (lasting_of_eq e (getCtr_lasting ..)).trans hu
    case h_2 e =>
      refine (nodePut_lasting ..).trans ((foldl_keeps State.lasting (fun t i => ?_) _ _).trans ((lasting_of_eq e (getCtr_lasting ..)).trans hu))
      split <;> simp

end Sys2Proof.Machine
end

section
/-! PROOFS. Accesses of the memory engines (O26): what an access and its answer leave alone, the cases of a read, and an access that waits for its
beat. -/
namespace Sys2Proof.Machine

theorem Ends.of_access {i : Instr} {s t : State} {b c : Bool} {P : State → Prop} (h : exec i s = accessRes b c t) (hb : b = true) (hc : c = true)
    (hclear : clear t = true) (hP : P t) : Ends i s P := ⟨t, h.trans (accessRes_clear hb hc hclear), hP⟩

/-! ## The state off the memory side -/

/-- The state but for what an access of a memory engine and its answer may change. -/
def State.offMemory (s : State) : State :=
  { s with sv := default, tally := [], ks := { s.ks with slices := [] }, fc := { s.fc with lines := [] }, bw := default, out := [], reqErrs := [] }

theorem memoryOnly_iff {s t : State} : MemoryOnly s t ↔ t.offMemory = s.offMemory :=
  ⟨fun h => (congrArg State.offMemory h :),
    fun h => (congrArg (fun u : State => { u with
      sv := s.sv, tally := s.tally, ks := { u.ks with slices := s.ks.slices }, fc := { u.fc with lines := s.fc.lines }, bw := s.bw, out := s.out,
      reqErrs := s.reqErrs }) h :)⟩

theorem offMemory_of_around {s t : State} (h : t.around = s.around) : t.offMemory = s.offMemory :=
  (congrArg State.offMemory h :)

@[simp] theorem applyMed_offMemory (s : State) (m sub : Nat) (med : Med) : (applyMed s m sub med).offMemory = s.offMemory :=
  offMemory_of_around (around_of_lasting (applyMed_lasting ..))

/-- A request that reaches its port is counted by the regulators (R378). -/
theorem countReq_frame (s : State) (r : MemReq) : ∃ bw, countReq s r = { s with bw := bw } := by
  unfold countReq bwCount modBwMaster
  split
  · exact ⟨s.bw, rfl⟩
  · dsimp only
    split <;> exact ⟨_, rfl⟩

@[simp] theorem countReq_offMemory (s : State) (r : MemReq) : (countReq s r).offMemory = s.offMemory := by
  obtain ⟨bw, h⟩ := countReq_frame s r
  rw [h]
  rfl

/-- An answer presents the reply, and returns an engine's error (R442). -/
theorem answer_frame (s : State) (a : Attr) (x : SvRes) : ∃ es os, answer s a x = { s with reqErrs := es, out := os } := by
  cases x with
  | data | done => exact ⟨s.reqErrs, _, rfl⟩
  | fail =>
    unfold answer noteReqErr
    dsimp only
    split
    · exact ⟨_, _, rfl⟩
    · exact ⟨s.reqErrs, _, rfl⟩

@[simp] theorem answer_offMemory (s : State) (a : Attr) (x : SvRes) : (answer s a x).offMemory = s.offMemory := by
  obtain ⟨es, os, h⟩ := answer_frame s a x
  rw [h]
  rfl

@[simp] theorem answer_sv (s : State) (a : Attr) (x : SvRes) : (answer s a x).sv = s.sv := by
  obtain ⟨es, os, h⟩ := answer_frame s a x
  rw [h]

theorem physLine_answer (s : State) (a : Attr) (x : SvRes) : physLine (answer s a x) = physLine s := by
  obtain ⟨es, os, h⟩ := answer_frame s a x
  rw [h]
  rfl

theorem beatAt_answer (s : State) (a : Attr) (x : SvRes) : beatAt (answer s a x) = beatAt s := by
  obtain ⟨es, os, h⟩ := answer_frame s a x
  rw [h]
  rfl

@[simp] theorem clear_answer (s : State) (a : Attr) (x : SvRes) : clear (answer s a x) = clear s := clear_eq_of_sv (answer_sv ..)

@[simp] theorem presented_answer_fail (s : State) (a : Attr) (c : Nat) : presented (answer s a (.fail c)) = some (.reply a c none) := rfl
@[simp] theorem presented_answer_data (s : State) (a : Attr) (l : Line) : presented (answer s a (.data l)) = some (.reply a 0 (some l)) := rfl
@[simp] theorem presented_answer_done (s : State) (a : Attr) : presented (answer s a .done) = some (.reply a 0 none) := rfl

/-- Where the retirement remap puts a line is settled by what lasts (R336). -/
theorem physLine_of_lasting {s t : State} (h : t.lasting = s.lasting) (m sub line : Nat) : physLine t m sub line = physLine s m sub line := by
  have hport := portOf_of_lasting h m
  have hcfg : t.cfg = s.cfg := (congrArg State.cfg (around_of_lasting h) :)
  have hwide : (portOf t m).wideSize = (portOf s m).wideSize := (congrArg MemPort.wideSize hport :)
  have hret : (portOf t m).ret = (portOf s m).ret := (congrArg MemPort.ret hport :)
  simp only [physLine, retFor, dlimOf, puOf, hcfg, hwide, hret]

/-! ## An access that waits for its beat (R28, R586) -/

theorem holdRead_lasting (s : State) (r : MemReq) (w : Waiting) : (holdRead s r w).lasting = s.lasting :=
  (modPort_lasting rfl).trans (modPort_lasting rfl)

theorem mem_tags_holdRead (s : State) (r : MemReq) (w : Waiting) : ∃ g ∈ (portOf (holdRead s r w) r.port).tags,
    g.wait = some w ∧ g.sub = r.sub ∧ g.line = physLine s r.port r.sub r.line := by
  unfold holdRead
  rw [portOf_modPort]
  exact ⟨_, List.mem_append_right _ (List.mem_singleton.mpr rfl), rfl, rfl, rfl⟩

/-- A counted access that waits is held by a tag of its line, and changes only the memory side. -/
theorem holdRead_held (s : State) (r : MemReq) (w : Waiting) :
    let t := holdRead (countReq s r) r w
    clear t = clear s ∧ MemoryOnly s t ∧
      ∃ g ∈ (portOf t r.port).tags, g.wait = some w ∧ g.sub = r.sub ∧ g.line = physLine t r.port r.sub r.line ∧ t.out = s.out := by
  obtain ⟨bw, hbw⟩ := countReq_frame s r
  rw [hbw]
  have hlasting := holdRead_lasting { s with bw := bw } r w
  obtain ⟨g, hg, hwait, hsub, hline⟩ := mem_tags_holdRead { s with bw := bw } r w
  exact ⟨rfl, memoryOnly_iff.mpr ((offMemory_of_around (around_of_lasting hlasting)).trans rfl), g, hg, hwait, hsub,
    hline.trans (physLine_of_lasting hlasting ..).symm, rfl⟩

/-! ## Opening a stored line (R292, R298, R339) -/

section
variable {s : State} {m sub line keyid : Nat} {c : Counter} {errs : List Nat}

/-- A line that is no data is not opened. -/
theorem openLine_unread (h : ∀ ct, (readStored s m sub line false errs).2 ≠ .data ct) : (openLine s m sub line keyid c errs).2 = none := by
  unfold openLine
  split
  case h_1 => rfl
  case h_2 e => exact absurd (congrArg Prod.snd e) (h _)
  case h_3 => rfl

section
variable {t u : State} {ct : Line} {k : Key} (hread : readStored s m sub line false errs = (t, .data ct)) (hkey : keyFor t keyid = some k)
include hread hkey

theorem openLine_untagged (htag : getTag t m sub line keyid errs = (u, none)) : openLine s m sub line keyid c errs = (u, none) := by
  unfold openLine
  simp only [hread, hkey, htag]

theorem openLine_agrees (htag : getTag t m sub line keyid errs = (u, some (lineTag k keyid (lineIndex m sub line) c ct).toNat)) :
    openLine s m sub line keyid c errs = (u, some (cryptLine k keyid (lineIndex m sub line) c ct)) := by
  unfold openLine
  simp only [hread, hkey, htag, if_true]

theorem openLine_differs {y : Nat} (htag : getTag t m sub line keyid errs = (u, some y))
    (hy : y ≠ (lineTag k keyid (lineIndex m sub line) c ct).toNat) : openLine s m sub line keyid c errs = (tagFail u m sub line, none) := by
  unfold openLine
  simp only [hread, hkey, htag, if_neg hy.symm]
end
end

theorem beatAt_putBeat (s : State) (m sub phys : Nat) (b : Beat) : beatAt (putBeat s m sub phys b) m sub phys = b := mget_mset_same _ _ _ _

/-- A line whose tag fails holds the poison marker (R298, R339). -/
theorem beatAt_tagFail (s : State) (m sub line : Nat) :
    beatAt (tagFail s m sub line) m sub (physLine (tagFail s m sub line) m sub line) = poisonBeat := by
  unfold tagFail poisonLine
  rw [physLine_of_lasting (putBeat_lasting ..)]
  exact beatAt_putBeat ..

/-! ## Reading a line (R286, R292, R308) -/

section
variable (s : State) (r : MemReq)
@[simp] theorem liveReq_port : (liveReq s r).port = r.port := by unfold liveReq; split <;> rfl
@[simp] theorem liveReq_sub : (liveReq s r).sub = r.sub := by unfold liveReq; split <;> rfl
@[simp] theorem liveReq_line : (liveReq s r).line = r.line := by unfold liveReq; split <;> rfl
end

@[simp] theorem svReadFor_lasting (merge : Bool) (s : State) (r : MemReq) (errs : List Nat) :
    (svReadFor merge s r errs).1.lasting = s.lasting := by
  unfold svReadFor
  dsimp only
  split
  · rfl
  · split
    case h_1 e => exact (lasting_of_eq e (getCtr_lasting ..)).trans (claimLine_lasting ..)
    case h_2 e =>
      have ht := (lasting_of_eq e (getCtr_lasting ..)).trans (claimLine_lasting ..)
      split
      · exact ht
      · split
        case h_1 e | h_2 e => exact (lasting_of_eq e (openLine_lasting ..)).trans ht

/-- What the read of an opened line answers: POISON for a line that does not open. -/
def SvRes.ofLine (x : Option Line) : SvRes := x.elim (.fail cPOISON) .data

section
variable {u v x : State} {r q : MemReq} {errs : List Nat} (hq : liveReq u r = q) (hv : claimLine u r.port r.sub (physLine u r.port r.sub r.line) = v)
  (hcheck : svCheck u q = none)
include hq hv hcheck

theorem svRead_unverified (hnode : getCtr v r.port r.sub (ctrPlace v r.port r.line (wideMode v q)).1 q.attr.keyid errs = (x, .fail)) :
    svRead u r errs = (x, .fail cPOISON) := by
  subst hq hv
  unfold svRead svReadFor
  simp only [hcheck, liveReq_port, liveReq_sub, liveReq_line, hnode]

variable {n : Node} (hnode : getCtr v r.port r.sub (ctrPlace v r.port r.line (wideMode v q)).1 q.attr.keyid errs = (x, .node n))
include hnode

theorem svRead_zero (hz : (ctrRead n (ctrPlace v r.port r.line (wideMode v q)).2 (wideMode v q)).2 = true) : svRead u r errs = (x, .data 0) := by
  subst hq hv
  unfold svRead svReadFor
  simp only [hcheck, liveReq_port, liveReq_sub, liveReq_line, hnode, hz, if_true]

theorem svRead_opens (hz : (ctrRead n (ctrPlace v r.port r.line (wideMode v q)).2 (wideMode v q)).2 = false) :
    let o := openLine x r.port r.sub r.line ((unvisited v q).elim q.attr.keyid (·.src))
      (ctrRead n (ctrPlace v r.port r.line (wideMode v q)).2 (wideMode v q)).1 errs
    svRead u r errs = (o.1, SvRes.ofLine o.2) := by
  intro o
  subst hq hv
  unfold svRead svReadFor
  simp only [hcheck, liveReq_port, liveReq_sub, liveReq_line, hnode, hz]
  rcases ho : o with ⟨t, _ | pt⟩
  all_goals
    simp only [o] at ho
    simp only [ho]
    rfl
end

/-! ## SELVAGE_READ -/

/-- An access whose beat is not late, or which a check fails, does not wait for its beat. -/
theorem not_held {late : Bool} {x : Option Nat} (h : late = false ∨ x ≠ none) : (late && x.isNone) = false := by
  rcases h with h | h
  · rw [h, Bool.false_and]
  · rw [Option.isNone_eq_false_iff.mpr (Option.isSome_iff_ne_none.mpr h), Bool.and_false]

section
variable {r : MemReq} {med : Med} {late : Bool} {s : State}

theorem exec_selvageRead_late (hlate : late = true) (hcheck : svCheck s r = none) : exec (.selvageRead r med late) s =
    accessRes (s.cfg.hasSub r.port r.sub) (accessReady s r) (holdRead (countReq s r) r (.read r)) := by
  show execSelvageRead r med late s = _
  unfold execSelvageRead
  simp only [hlate, hcheck, Option.isNone_none, Bool.and_self, if_true]

theorem exec_selvageRead_performed (h : late = false ∨ svCheck s r ≠ none) : exec (.selvageRead r med late) s =
    let x := svRead (applyMed (countReq s r) r.port r.sub med) r med.errs
    accessRes (s.cfg.hasSub r.port r.sub) (accessReady s r) (answer x.1 r.attr x.2) := by
  show execSelvageRead r med late s = _
  unfold execSelvageRead
  simp only [not_held h, Bool.false_eq_true, if_false]
end

/-- Settles O26: a late read is held (`holdRead_held`); else what `svRead` answers is read off its first failing check, its counter node and the
stored line with its tag. -/
theorem selvageReadsVerifyBeforeAnswering : Obligations.SelvageReadsVerifyBeforeAnswering := by
  unfold Obligations.SelvageReadsVerifyBeforeAnswering
  intro r med late s u q v wide place node kid hsub hready
  refine ⟨fun hlate hcheck hclear => ?_, fun hperformed hclear => ?_⟩
  · obtain ⟨hc, hframe, hheld⟩ := holdRead_held s r (.read r)
    exact Ends.of_access (exec_selvageRead_late hlate hcheck) hsub hready (hc.trans hclear) ⟨hframe, hheld⟩
  · refine Ends.of_access (exec_selvageRead_performed hperformed) hsub hready ((clear_answer ..).trans hclear) ⟨?_, ?_, ?_, ?_⟩
    · refine memoryOnly_iff.mpr ((answer_offMemory ..).trans ((offMemory_of_around (around_of_lasting (svReadFor_lasting ..))).trans ?_))
      exact (applyMed_offMemory ..).trans (countReq_offMemory ..)
    · intro c hc
      rw [svRead_of_check hc]
      exact presented_answer_fail ..
    · intro hcheck hnode
      rw [svRead_unverified rfl rfl hcheck (x := node.1) (Prod.ext rfl hnode)]
      exact presented_answer_fail ..
    · intro n hcheck hnode c
      have hn : node = (node.1, .node n) := Prod.ext rfl hnode
      refine ⟨fun hz => ?_, fun hz => ?_⟩
      · rw [svRead_zero rfl rfl hcheck hn hz]
        exact presented_answer_data ..
      · rw [svRead_opens rfl rfl hcheck hn hz]
        refine ⟨fun hread => ?_, fun ct k hread hkey => ⟨fun htag => ?_, fun htag => ?_, fun y htag hy => ?_⟩⟩
        · rw [openLine_unread hread]
          exact presented_answer_fail ..
        · rw [openLine_untagged (Prod.ext rfl hread) hkey (Prod.ext rfl htag)]
          exact presented_answer_fail ..
        · rw [openLine_agrees (Prod.ext rfl hread) hkey (Prod.ext rfl htag)]
          exact presented_answer_data ..
        · rw [openLine_differs (Prod.ext rfl hread) hkey (Prod.ext rfl htag) hy]
          refine ⟨presented_answer_fail .., ?_⟩
          rw [physLine_answer, beatAt_answer]
          exact beatAt_tagFail ..

end Sys2Proof.Machine
end

section
/-! PROOFS. Writes of the memory engines (O27): what a write leaves alone, and what a store in tree mode does to the line, its counter and the count
of group re-encryptions. -/
namespace Sys2Proof.Machine

/-! ## The state around a write -/

@[simp] theorem reencGroup_around (s : State) (m sub g ka kb : Nat) (wide : Bool) (errs : List Nat) :
    (reencGroup s m sub g ka kb wide errs).around = s.around := by
  cases hlost : (portOf s m).lost with
  | true =>
    unfold reencGroup
    rw [if_pos hlost]
  | false => exact (around_of_lasting (reencGroup_lasting hlost ..)).trans rfl

theorem visitFirst_around (s : State) (r : MemReq) (errs : List Nat) : (visitFirst s r errs).around = s.around := by
  unfold visitFirst
  split
  · exact reencGroup_around ..
  · rfl

theorem sealLine_around (s : State) (m sub line keyid : Nat) (attr : Attr) (c : Counter) (pt : Line) :
    (sealLine s m sub line keyid attr c pt).around = s.around := around_of_lasting (sealLine_lasting ..)

theorem nodePut_around (s : State) (m sub lvl i keyid : Nat) (n : Node) : (nodePut s m sub lvl i keyid n).around = s.around := rfl

/-- A sealed line stands on the port encrypted under its key and counter (R292). -/
theorem beatAt_sealLine {s : State} {keyid : Nat} {k : Key} (hkey : keyFor s keyid = some k) (m sub line : Nat) (attr : Attr) (c : Counter)
    (pt : Line) : beatAt (sealLine s m sub line keyid attr c pt) m sub (physLine (sealLine s m sub line keyid attr c pt) m sub line) =
      encodeBeat (cryptLine k keyid (lineIndex m sub line) c pt) := by
  unfold sealLine
  simp only [hkey]
  rw [physLine_of_lasting (writeLine_lasting ..)]
  exact beatAt_putBeat ..

theorem keyFor_of_lasting {s t : State} (h : t.lasting = s.lasting) (keyid : Nat) : keyFor t keyid = keyFor s keyid :=
  (congrArg Kid.key (kidOf_of_lasting h keyid) :)

/-! ## A store in tree mode (R286, R287, R301) -/

/-- What a store in tree mode does once the minor of its line has room: the counter rises by one, and the line is stored under it. -/
def storeNext (s : State) (r : MemReq) (pt : Line) (errs : List Nat) : State × SvRes :=
  match getCtr s r.port r.sub (r.line / 64) r.attr.keyid errs with
  | (s, .fail) => (s, .fail cPOISON)
  | (s, .node n) =>
    let v := nMinor n (r.line % 64) + 1
    (sealLine (nodePut s r.port r.sub 0 (r.line / 64) r.attr.keyid (setMinor n (r.line % 64) v)) r.port r.sub r.line r.attr.keyid r.attr
      ⟨false, nMajor n, v⟩ pt, .done)

theorem storeNext_lasting (s : State) (r : MemReq) (pt : Line) (errs : List Nat) : (storeNext s r pt errs).1.lasting = s.lasting := by
  unfold storeNext
  split
  case h_1 e => exact lasting_of_eq e (getCtr_lasting ..)
  case h_2 e => exact (sealLine_lasting ..).trans ((nodePut_lasting ..).trans (lasting_of_eq e (getCtr_lasting ..)))

section
variable {s x : State} {r : MemReq} {n : Node} {errs : List Nat}

/-- In tree mode a store whose minor would pass 127 re-encrypts the group first (R301). -/
theorem svStore_tree (hwide : wideMode s r = false)
    (hnode : getCtr s r.port r.sub (r.line / 64) r.attr.keyid errs = (x, .node n)) (pt : Line) : svStore s r pt errs =
      storeNext (if nMinor n (r.line % 64) < 127 then x
        else reencGroup x r.port r.sub (r.line / 64) r.attr.keyid r.attr.keyid false errs) r pt errs := by
  unfold svStore storeNext
  simp only [hwide, ctrPlace, Bool.false_eq_true, if_false, hnode] <;> rfl

/-- A store that finds room in the minor stores the line under the counter raised by one. -/
theorem storeNext_stores {k : Key} (hnode : getCtr s r.port r.sub (r.line / 64) r.attr.keyid errs = (x, .node n))
    (hkey : keyFor s r.attr.keyid = some k) (pt : Line) :
    let t := (storeNext s r pt errs).1
    (storeNext s r pt errs).2 = .done ∧ beatAt t r.port r.sub (physLine t r.port r.sub r.line) =
      encodeBeat (cryptLine k r.attr.keyid (lineIndex r.port r.sub r.line) ⟨false, nMajor n, nMinor n (r.line % 64) + 1⟩ pt) := by
  have hlasting : (nodePut x r.port r.sub 0 (r.line / 64) r.attr.keyid (setMinor n (r.line % 64) (nMinor n (r.line % 64) + 1))).lasting = s.lasting :=
    (nodePut_lasting ..).trans (lasting_of_eq hnode (getCtr_lasting ..))
  unfold storeNext
  rw [hnode]
  exact ⟨rfl, beatAt_sealLine ((keyFor_of_lasting hlasting _).trans hkey) ..⟩

/-- A store that finds the minor full counts one group re-encryption (R301, R319). -/
theorem svStore_full_lasting (hwide : wideMode s r = false) (hlost : (portOf s r.port).lost = false)
    (hnode : getCtr s r.port r.sub (r.line / 64) r.attr.keyid errs = (x, .node n)) (hfull : nMinor n (r.line % 64) = 127) (pt : Line) :
    (svStore s r pt errs).1.lasting = (reencCounted x r.port).lasting := by
  have hxlost : (portOf x r.port).lost = false := (lost_of_lasting (lasting_of_eq hnode (getCtr_lasting ..)) _).trans hlost
  rw [svStore_tree hwide hnode, if_neg (by omega)]
  exact (storeNext_lasting ..).trans (reencGroup_lasting hxlost ..)
end

theorem svStore_around (s : State) (r : MemReq) (pt : Line) (errs : List Nat) : (svStore s r pt errs).1.around = s.around := by
  have htree (t : State) (ht : t.around = s.around) : (storeNext t r pt errs).1.around = s.around :=
    (around_of_lasting (storeNext_lasting ..)).trans ht
  rcases hp : ctrPlace s r.port r.line (wideMode s r) with ⟨nd, pos⟩
  rcases hnode : getCtr s r.port r.sub nd r.attr.keyid errs with ⟨x, n | _⟩
  all_goals have hx : x.around = s.around := around_of_lasting (lasting_of_eq hnode (getCtr_lasting ..))
  case node =>
    cases hwide : wideMode s r with
    | true =>
      rw [hwide] at hp
      unfold svStore
      simp only [hwide, hp, hnode, if_true]
      exact (sealLine_around ..).trans ((nodePut_around ..).trans hx)
    | false =>
      obtain ⟨rfl, rfl⟩ : r.line / 64 = nd ∧ r.line % 64 = pos := by simpa [ctrPlace, hwide] using hp
      rw [svStore_tree hwide hnode]
      refine htree _ ?_
      split
      · exact hx
      · exact (reencGroup_around ..).trans hx
  case fail =>
    unfold svStore
    simpa only [hp, hnode] using hx

/-! ## Writes of a line, whole or in part (R297, R299) -/

section
variable {u v x : State} {r q : MemReq} {errs : List Nat} (hq : liveReq u r = q)
include hq

theorem svWriteFull_of_check {c : Nat} (hcheck : svCheck u q = some c) (pt : Line) : svWriteFull u r pt errs = (u, .fail c) := by
  subst hq
  unfold svWriteFull
  simp only [hcheck]

theorem svWritePartial_of_check {c : Nat} (hcheck : svCheck u q = some c) (mask : BitVec 128) (new : Line) :
    svWritePartial u r mask new errs = (u, .fail c) := by
  subst hq
  unfold svWritePartial
  simp only [hcheck]

/-- Outside a sweep a whole-line write is a store. -/
theorem svWriteFull_stores (hv : claimLine u r.port r.sub (physLine u r.port r.sub r.line) = v) (hcheck : svCheck u q = none)
    (hvisit : unvisited v q = none) (pt : Line) : svWriteFull u r pt errs = svStore v q pt errs := by
  subst hq hv
  unfold svWriteFull visitFirst
  simp only [hcheck, liveReq_port, liveReq_sub, liveReq_line, hvisit]

section
variable (hcheck : svCheck u q = none) (hvisit : unvisited u q = none) (mask : BitVec 128) (new : Line)
include hcheck hvisit

theorem svWritePartial_unread {c : Nat} (hread : svReadFor true u q errs = (x, .fail c)) : svWritePartial u r mask new errs = (x, .fail c) := by
  subst hq
  unfold svWritePartial visitFirst
  simp only [hcheck, hvisit, hread]

theorem svWritePartial_merges {old : Line} (hread : svReadFor true u q errs = (x, .data old)) :
    svWritePartial u r mask new errs = svStore x q (mergeLine mask old new) errs := by
  subst hq
  unfold svWritePartial visitFirst
  simp only [hcheck, hvisit, hread]
end
end

theorem svWriteFull_around (s : State) (r : MemReq) (pt : Line) (errs : List Nat) : (svWriteFull s r pt errs).1.around = s.around := by
  unfold svWriteFull
  dsimp only
  split
  · rfl
  · exact (svStore_around ..).trans ((visitFirst_around ..).trans (around_of_lasting (claimLine_lasting ..)))

theorem svWritePartial_around (s : State) (r : MemReq) (mask : BitVec 128) (new : Line) (errs : List Nat) :
    (svWritePartial s r mask new errs).1.around = s.around := by
  unfold svWritePartial
  dsimp only
  split
  · rfl
  · split
    case h_1 e => exact (svStore_around ..).trans ((around_of_lasting (lasting_of_eq e (svReadFor_lasting ..))).trans (visitFirst_around ..))
    case h_2 e => exact (around_of_lasting (lasting_of_eq e (svReadFor_lasting ..))).trans (visitFirst_around ..)

/-- A write of the masked bytes, of a whole line under a full mask. -/
def writeMasked (s : State) (r : MemReq) (mask : BitVec 128) (data : Line) (errs : List Nat) : State × SvRes :=
  if mask = BitVec.allOnes 128 then svWriteFull s r data errs else svWritePartial s r mask data errs

theorem writeMasked_around (s : State) (r : MemReq) (mask : BitVec 128) (data : Line) (errs : List Nat) :
    (writeMasked s r mask data errs).1.around = s.around := by
  unfold writeMasked
  split
  · exact svWriteFull_around ..
  · exact svWritePartial_around ..

/-- An access of a memory engine, and its answer, change only the memory side. -/
theorem memoryOnly_answer {s u : State} {p : State × SvRes} (hp : p.1.around = u.around) (hu : u.offMemory = s.offMemory) (a : Attr) :
    MemoryOnly s (answer p.1 a p.2) := memoryOnly_iff.mpr ((answer_offMemory ..).trans ((offMemory_of_around hp).trans hu))

theorem presented_answer (s : State) (a : Attr) (x : SvRes) : ∃ c d, presented (answer s a x) = some (.reply a c d) := by
  cases x with
  | data l => exact ⟨0, some l, rfl⟩
  | done => exact ⟨0, none, rfl⟩
  | fail c => exact ⟨c, none, rfl⟩

theorem portOf_answer (s : State) (a : Attr) (x : SvRes) (m : Nat) : portOf (answer s a x) m = portOf s m :=
  congrArg (fun v : Selvage => mget MemPort.reset v.ports m) (answer_sv s a x)

theorem lost_of_svCheck {s : State} {r : MemReq} (h : svCheck s r = none) : (portOf s r.port).lost = false := by
  unfold svCheck at h
  split at h
  · cases h
  · split at h
    · cases h
    · split at h
      case isTrue => cases h
      case isFalse hlost => simpa using hlost

/-! ## The commands -/

section
variable {r : MemReq} {data : Line} {mask : BitVec 128} {med : Med} {late : Bool} {s : State}

theorem exec_selvageFullWrite : exec (.selvageFullWrite r data med) s =
    let x := svWriteFull (applyMed (countReq s r) r.port r.sub med) r data med.errs
    accessRes (s.cfg.hasSub r.port r.sub) (accessReady s r) (answer x.1 r.attr x.2) := rfl

theorem exec_selvagePartialWrite_late (hlate : late = true) (hcheck : svCheck s r = none) : exec (.selvagePartialWrite r mask data med late) s =
    accessRes (s.cfg.hasSub r.port r.sub) (accessReady s r) (holdRead (countReq s r) r (.partialWrite r mask data)) := by
  show execSelvagePartialWrite r mask data med late s = _
  unfold execSelvagePartialWrite
  simp only [hlate, hcheck, Option.isNone_none, Bool.and_self, if_true]

theorem exec_selvagePartialWrite_performed (h : late = false ∨ svCheck s r ≠ none) : exec (.selvagePartialWrite r mask data med late) s =
    let x := svWritePartial (applyMed (countReq s r) r.port r.sub med) r mask data med.errs
    accessRes (s.cfg.hasSub r.port r.sub) (accessReady s r) (answer x.1 r.attr x.2) := by
  show execSelvagePartialWrite r mask data med late s = _
  unfold execSelvagePartialWrite
  simp only [not_held h, Bool.false_eq_true, if_false]

theorem exec_groupReencryption (hready : accessReady s r = true) (hcheck : svCheck s r = none) (hfull : atOverflow s r = true) :
    exec (.groupReencryption r mask data med) s =
      let x := writeMasked (applyMed s r.port r.sub med) r mask data med.errs
      unitRes (s.cfg.hasSub r.port r.sub) s true (answer x.1 r.attr x.2) := by
  show execGroupReencryption r mask data med s = _
  unfold execGroupReencryption
  simp only [hready, hcheck, hfull, Option.isNone_none, Bool.and_self]
  rfl
end

/-- Settles O27: outside a sweep a whole-line write is a store (`svWriteFull_stores`), which raises the counter of its line (`storeNext_stores`) and
counts a group that it re-encrypts (`svStore_full_lasting`); a partial write is the read of the old line and a store. -/
theorem selvageWritesRaiseTheCounter : Obligations.SelvageWritesRaiseTheCounter := by
  unfold Obligations.SelvageWritesRaiseTheCounter
  refine ⟨?full, ?part, ?reenc⟩
  case full =>
    intro r data med s u q v hsub hready hclear
    have hu : u.offMemory = s.offMemory := (applyMed_offMemory ..).trans (countReq_offMemory ..)
    refine Ends.of_access exec_selvageFullWrite hsub hready ((clear_answer ..).trans hclear)
      ⟨memoryOnly_answer (svWriteFull_around ..) hu _, fun c hc => ?_, fun x y n m k hcheck hvisit hwide hkey hn hm hroom => ?_⟩
    · rw [svWriteFull_of_check rfl hc]
      exact presented_answer_fail ..
    · have hx : x.lasting = v.lasting := lasting_of_eq hn (getCtr_lasting ..)
      have hstore : svWriteFull u r data med.errs = storeNext x q data med.errs := by
        rw [svWriteFull_stores rfl rfl hcheck hvisit, svStore_tree hwide (by simpa [q] using hn), if_pos (by simpa [q] using hroom)]
      obtain ⟨hdone, hbeat⟩ := storeNext_stores (r := q) (by simpa [q] using hm) ((keyFor_of_lasting hx _).trans hkey) data
      rw [← hstore] at hdone hbeat
      rw [physLine_answer, beatAt_answer, hdone]
      exact ⟨presented_answer_done .., by simpa [q] using hbeat⟩
  case part =>
    intro r mask data med late s u q hsub hready
    have hu : u.offMemory = s.offMemory := (applyMed_offMemory ..).trans (countReq_offMemory ..)
    refine ⟨fun hlate hcheck hclear => ?_, fun hperformed hclear => ?_⟩
    · obtain ⟨hc, hframe, g, hg, hwait, -, hrest⟩ := holdRead_held s r (.partialWrite r mask data)
      exact Ends.of_access (exec_selvagePartialWrite_late hlate hcheck) hsub hready (hc.trans hclear) ⟨hframe, g, hg, hwait, hrest⟩
    · refine Ends.of_access (exec_selvagePartialWrite_performed hperformed) hsub hready ((clear_answer ..).trans hclear)
        ⟨memoryOnly_answer (svWritePartial_around ..) hu _, fun c hc => ?_, fun hcheck hvisit x => ⟨fun c hread => ?_, fun old hread => ?_⟩⟩
      · rw [svWritePartial_of_check rfl hc]
        exact presented_answer_fail ..
      · rw [svWritePartial_unread rfl hcheck hvisit mask data hread]
        exact presented_answer_fail ..
      · rw [svWritePartial_merges rfl hcheck hvisit mask data hread]
        exact answer_sv ..
  case reenc =>
    intro r mask data med s u q v hsub hready hcheck hfull hclear
    have hc : clear (writeMasked u r mask data med.errs).1 = true := by
      unfold writeMasked
      rw [apply_ite Prod.fst]
      exact hclear
    refine Ends.of_unit (exec_groupReencryption hready hcheck hfull) hsub rfl ((clear_answer ..).trans hc)
      ⟨memoryOnly_answer (writeMasked_around ..) (applyMed_offMemory ..) _, presented_answer ..,
        fun x n hmask hlive hvisit hwide hn hminor => ?_⟩
    have hv : v.lasting = s.lasting := (claimLine_lasting ..).trans (applyMed_lasting ..)
    have hx : x.lasting = s.lasting := (lasting_of_eq hn (getCtr_lasting ..)).trans hv
    have hlost : (portOf v r.port).lost = false :=
      (lost_of_lasting (claimLine_lasting ..) _).trans (by simpa [q] using lost_of_svCheck hlive)
    have hstore : (writeMasked u r mask data med.errs).1.lasting = (reencCounted x r.port).lasting := by
      unfold writeMasked
      rw [if_pos hmask, svWriteFull_stores rfl rfl hlive hvisit]
      simpa [q] using svStore_full_lasting hwide (by simpa [q] using hlost) (by simpa [q] using hn) (by simpa [q] using hminor) data
    calc (portOf (answer (writeMasked u r mask data med.errs).1 r.attr (writeMasked u r mask data med.errs).2) r.port).reenc
      _ = (portOf (writeMasked u r mask data med.errs).1 r.port).reenc := by rw [portOf_answer]
      _ = (portOf (reencCounted x r.port) r.port).reenc := reenc_of_lasting hstore _
      _ = satAdd 65535 (portOf x r.port).reenc 1 := (congrArg MemPort.reenc (portOf_modPort ..)).trans rfl
      _ = satAdd 65535 (portOf s r.port).reenc 1 := by rw [reenc_of_lasting hx]

end Sys2Proof.Machine
end

section
/-! PROOFS. Re-key sweeps and retiring identifiers (O29): where a sweep's position stands, the start of a sweep and its end, and what the retirement
of an identifier leaves alone. -/
namespace Sys2Proof.Machine

/-! ## The sweeps at a port (R308, R310) -/

theorem sweeps_modSweep (s : State) (m dst : Nat) (f : Sweep → Sweep) :
    (portOf (modSweep s m dst f) m).sweeps = (portOf s m).sweeps.map fun w => if w.dst = dst then f w else w :=
  (congrArg MemPort.sweeps (portOf_modPort ..)).trans rfl

/-- A sweep to `dst` at a port of which those sweeps were changed is a changed one. -/
theorem mem_modSweep_dst {s : State} {m dst : Nat} {f : Sweep → Sweep} {y : Sweep}
    (hy : y ∈ (portOf (modSweep s m dst f) m).sweeps) (hdst : y.dst = dst) : ∃ x ∈ (portOf s m).sweeps, x.dst = dst ∧ y = f x := by
  rw [sweeps_modSweep] at hy
  obtain ⟨x, hx, rfl⟩ := List.mem_map.mp hy
  by_cases h : x.dst = dst
  · exact ⟨x, hx, h, if_pos h⟩
  · rw [if_neg h] at hdst
    exact absurd hdst h

/-- The next group of a sweep lies in the window and not before its position. -/
theorem nextSweep_bounds {s : State} {n m g j : Nat} {w : Sweep} {x : Bool} (h : nextSweep s n m w = some (g, j, x)) :
    g < 256 * (dWinBase (descOf s n) + dWinSize (descOf s n)) ∧ w.next ≤ g ∧ (g = w.next → w.nextSub ≤ j) := by
  obtain ⟨k, hk, hk'⟩ := List.exists_of_findSome?_eq_some h
  obtain ⟨i, hi, hi'⟩ := List.exists_of_findSome?_eq_some hk'
  rw [List.mem_range] at hk
  split at hi'
  case isTrue => cases hi'
  case isFalse hat =>
    split at hi'
    case h_2 => cases hi'
    case h_1 =>
      split at hi'
      case isFalse => cases hi'
      case isTrue =>
        cases hi'
        refine ⟨by omega, by omega, fun hg => ?_⟩
        simp only [Bool.and_eq_true, decide_eq_true_eq, not_and] at hat
        have := hat (by omega)
        omega

/-- NEXT moves to the next group of the sweep, or past the window; without such a sweep nothing moves. -/
theorem sweepAdvance_cases (s : State) (n m dst : Nat) :
    (sweepAdvance s n m dst = s ∧ ∀ w ∈ (portOf s m).sweeps, w.dst ≠ dst) ∨
    ∃ w g j, sweepAdvance s n m dst = modSweep s m dst (fun w => { w with next := g, nextSub := j }) ∧ w ∈ (portOf s m).sweeps ∧ w.dst = dst ∧
      ((∃ x, nextSweep s n m w = some (g, j, x)) ∨ g = 256 * (dWinBase (descOf s n) + dWinSize (descOf s n))) := by
  unfold sweepAdvance
  split
  case h_1 hnone => exact .inl ⟨rfl, fun w hw => by simpa using List.find?_eq_none.mp hnone w hw⟩
  case h_2 w hw =>
    have hmem := List.mem_of_find?_eq_some hw
    have hdst : w.dst = dst := by simpa using List.find?_some hw
    split
    case h_1 g j x hnext => exact .inr ⟨w, g, j, rfl, hmem, hdst, .inl ⟨x, hnext⟩⟩
    case h_2 => exact .inr ⟨w, _, 0, rfl, hmem, hdst, .inr rfl⟩

theorem sweepAdvance_frame (s : State) (n m dst : Nat) : ∃ ps, sweepAdvance s n m dst = { s with sv := { s.sv with ports := ps } } := by
  obtain ⟨h, -⟩ | ⟨w, g, j, h, -⟩ := sweepAdvance_cases s n m dst
  · exact ⟨s.sv.ports, h⟩
  · exact ⟨_, h⟩

/-- A visit of group (`g`, `j`) takes every sweep to `w.dst` at the port past it. -/
theorem sweepAdvance_passes {s u : State} {n m g j : Nat} {w : Sweep} {x : Bool} (hslices : u.slices = s.slices)
    (hnext : nextSweep s n m w = some (g, j, x)) {y : Sweep}
    (hy : y ∈ (portOf (sweepAdvance (modSweep u m w.dst fun w => { w with next := g, nextSub := j + 1 }) n m w.dst) m).sweeps)
    (hdst : y.dst = w.dst) : g < y.next ∨ (g = y.next ∧ j < y.nextSub) := by
  obtain ⟨heq, hnone⟩ | ⟨v, g', j', heq, hv, hvdst, hpos⟩ :=
    sweepAdvance_cases (modSweep u m w.dst fun w => { w with next := g, nextSub := j + 1 }) n m w.dst
  · rw [heq] at hy
    exact absurd hdst (hnone y hy)
  · rw [heq] at hy
    obtain ⟨_, -, -, rfl⟩ := mem_modSweep_dst hy hdst
    obtain ⟨_, -, -, rfl⟩ := mem_modSweep_dst hv hvdst
    obtain ⟨hwindow, -⟩ := nextSweep_bounds hnext
    obtain ⟨x', hx'⟩ | rfl := hpos
    · obtain ⟨-, hle, hsub⟩ := nextSweep_bounds hx'
      simp only at hle hsub
      rcases Nat.lt_or_eq_of_le hle with hlt | rfl
      · exact .inl hlt
      · exact .inr ⟨rfl, hsub rfl⟩
    · have hdesc : descOf u n = descOf s n := congrArg Slice.desc (sliceOf_of_slices hslices n)
      left
      show g < 256 * (dWinBase (descOf u n) + dWinSize (descOf u n))
      rwa [hdesc]

/-! ## The start of a sweep (R307) -/

/-- The spare is another identifier. -/
theorem spareFor_ne {s : State} {n a b : Nat} (h : spareFor s n a = some b) : b ≠ a := by
  obtain ⟨k, -, hk⟩ := List.exists_of_findSome?_eq_some h
  dsimp only at hk
  split at hk
  case isTrue hb =>
    cases hk
    simp only [Bool.and_eq_true, decide_eq_true_eq] at hb
    exact hb.1.1.1.1
  case isFalse => cases hk

/-- Port `m` holds an active sweep from `a` to `b` of the regions `rgns`. -/
def SweepsAt (s : State) (a b : Nat) (rgns : List Nat) (m : Nat) : Prop :=
  ∃ w ∈ (portOf s m).sweeps, w.active = true ∧ w.src = a ∧ w.dst = b ∧ w.rgns = rgns

theorem sweepsAt_sweepAdvance {s : State} {a b m : Nat} {rgns : List Nat} (h : SweepsAt s a b rgns m) (n k dst : Nat) :
    SweepsAt (sweepAdvance s n k dst) a b rgns m := by
  obtain ⟨heq, -⟩ | ⟨-, g, j, heq, -⟩ := sweepAdvance_cases s n k dst
  · rwa [heq]
  · rw [heq]
    obtain ⟨w, hw, hactive, hsrc, hdst, hrgns⟩ := h
    by_cases hk : m = k
    · subst hk
      refine ⟨_, sweeps_modSweep s m dst _ ▸ List.mem_map_of_mem hw, ?_⟩
      split <;> exact ⟨hactive, hsrc, hdst, hrgns⟩
    · exact ⟨w, (portOf_modPort_ne s _ hk).symm ▸ hw, hactive, hsrc, hdst, hrgns⟩

/-- The start of a sweep at one member port. -/
def sweepOpened (n a b : Nat) (rgns : List Nat) (base : Nat) (s : State) (m : Nat) : State :=
  sweepAdvance (modPort s m fun p => { p with sweeps := p.sweeps ++ [⟨true, a, b, base, 0, [], rgns⟩] }) n m b

theorem sweepOpened_frame (n a b : Nat) (rgns : List Nat) (base : Nat) (s : State) (m : Nat) :
    ∃ ps, sweepOpened n a b rgns base s m = { s with sv := { s.sv with ports := ps } } := by
  obtain ⟨ps, h⟩ := sweepAdvance_frame (modPort s m fun p => { p with sweeps := p.sweeps ++ [⟨true, a, b, base, 0, [], rgns⟩] }) n m b
  exact ⟨ps, h⟩

theorem sweepsAt_sweepOpened_same (n a b : Nat) (rgns : List Nat) (base : Nat) (s : State) (m : Nat) :
    SweepsAt (sweepOpened n a b rgns base s m) a b rgns m := by
  refine sweepsAt_sweepAdvance ⟨⟨true, a, b, base, 0, [], rgns⟩, ?_, rfl, rfl, rfl, rfl⟩ n m b
  rw [portOf_modPort]
  exact List.mem_append_right _ (List.mem_singleton.mpr rfl)

theorem sweepsAt_sweepOpened {a b m : Nat} {rgns : List Nat} {s : State} (h : SweepsAt s a b rgns m) (n base k : Nat) :
    SweepsAt (sweepOpened n a b rgns base s k) a b rgns m := by
  refine sweepsAt_sweepAdvance ?_ n k b
  by_cases hk : m = k
  · subst hk
    obtain ⟨w, hw, hrest⟩ := h
    refine ⟨w, ?_, hrest⟩
    rw [portOf_modPort]
    exact List.mem_append_left _ hw
  · unfold SweepsAt
    rwa [portOf_modPort_ne _ _ hk]

theorem foldl_sweepOpened (n a b : Nat) (rgns : List Nat) (base : Nat) (l : List Nat) (s : State) :
    (∃ ps, l.foldl (sweepOpened n a b rgns base) s = { s with sv := { s.sv with ports := ps } }) ∧
      (∀ m, m ∈ l ∨ SweepsAt s a b rgns m → SweepsAt (l.foldl (sweepOpened n a b rgns base) s) a b rgns m) := by
  induction l generalizing s with
  | nil => exact ⟨⟨s.sv.ports, rfl⟩, fun m h => h.resolve_left List.not_mem_nil⟩
  | cons k l ih =>
    obtain ⟨ps, hps⟩ := sweepOpened_frame n a b rgns base s k
    obtain ⟨⟨qs, hqs⟩, hsweeps⟩ := ih (sweepOpened n a b rgns base s k)
    refine ⟨⟨qs, hqs.trans (by rw [hps])⟩, fun m h => hsweeps m ?_⟩
    rcases h with h | h
    · rcases List.mem_cons.mp h with rfl | h
      · exact .inr (sweepsAt_sweepOpened_same ..)
      · exact .inl h
    · exact .inr (sweepsAt_sweepOpened h ..)

/-- The regions of identifier `a`. -/
def regionsOfKey (s : State) (a : Nat) : List Nat := (s.regions.filter fun e => e.2.keyid = a).map fun e => e.1

/-- What the start of a sweep leaves before its member ports take part (R307). -/
def sweepNamed (s : State) (n a b : Nat) : State :=
  reportChanged (modKid (modKid
    { s with regions := s.regions.map fun e => if e.2.keyid = a then (e.1, { e.2 with keyid := b }) else e } a
      fun k => { k with state := .sweepSource, partner := b }) b fun k => { k with state := .sweepTarget, partner := a }) n

theorem startSweep_eq (s : State) (n a b : Nat) : startSweep s n a b =
    (memberPorts (descOf s n)).foldl (sweepOpened n a b (regionsOfKey s a) (256 * dWinBase (descOf s n))) (sweepNamed s n a b) := rfl

theorem startSweep_frame (s : State) (n a b : Nat) :
    ∃ ps, startSweep s n a b = { sweepNamed s n a b with sv := { (sweepNamed s n a b).sv with ports := ps } } :=
  startSweep_eq s n a b ▸ (foldl_sweepOpened ..).1

/-- Of the memory engines' own flags the start of a sweep changes none. -/
theorem startSweep_flags (s : State) (n a b : Nat) :
    (startSweep s n a b).sv.sweepEn = s.sv.sweepEn ∧ (startSweep s n a b).sv.stuck = s.sv.stuck := by
  obtain ⟨ps, h⟩ := startSweep_frame s n a b
  rw [h]
  exact ⟨rfl, rfl⟩

theorem startSweep_sweeps (s : State) (n a b : Nat) :
    ∀ m ∈ memberPorts (descOf s n), SweepsAt (startSweep s n a b) a b (regionsOfKey s a) m :=
  fun m hm => startSweep_eq s n a b ▸ (foldl_sweepOpened ..).2 m (.inl hm)

/-- What the start of a sweep leaves: the two identifiers' records, no region of the source, an active sweep at every member port, and the rest of
the state but for the reports as it was. -/
theorem startSweep_started {s : State} {n a b : Nat} (hne : b ≠ a) :
    let t := startSweep s n a b
    (kidOf t a).state = .sweepSource ∧ (kidOf t b).state = .sweepTarget ∧ (kidOf t a).partner = b ∧ (kidOf t b).partner = a ∧
      (∀ e ∈ t.regions, e.2.keyid ≠ a) ∧ (∀ m ∈ memberPorts (descOf s n), SweepsAt t a b (regionsOfKey s a) m) ∧
      { t with regions := s.regions, sv := s.sv, ks := s.ks } = s := by
  have hsweeps := startSweep_sweeps s n a b
  obtain ⟨ps, h⟩ := startSweep_frame s n a b
  rw [h] at hsweeps ⊢
  let u : State := { s with regions := s.regions.map fun e => if e.2.keyid = a then (e.1, { e.2 with keyid := b }) else e }
  let v := modKid u a fun k => { k with state := .sweepSource, partner := b }
  have hb := kidOf_modKid v b fun k => { k with state := .sweepTarget, partner := a }
  have ha := (kidOf_modKid_ne v (fun k => { k with state := .sweepTarget, partner := a }) hne.symm).trans (kidOf_modKid u a _)
  refine ⟨(congrArg Kid.state ha :), (congrArg Kid.state hb :), (congrArg Kid.partner ha :), (congrArg Kid.partner hb :),
    fun e he => ?_, hsweeps, rfl⟩
  obtain ⟨e', -, rfl⟩ := List.mem_map.mp he
  split
  case isTrue => exact hne
  case isFalse h => exact h

/-! ## SWEEP_EN (R306, R307) -/

theorem recheckOver_flags (s : State) (n : Nat) :
    (recheckOver s n).sv.sweepEn = s.sv.sweepEn ∧ (recheckOver s n).sv.stuck = s.sv.stuck := by
  unfold recheckOver
  dsimp only
  split
  · exact ⟨rfl, rfl⟩
  · split
    · exact startSweep_flags ..
    · exact ⟨rfl, rfl⟩

/-- SWEEP_EN set, and the identifiers over their budget looked at again. -/
def sweepEnabled (s : State) : State :=
  (List.range 16).foldl (fun t n => if (sliceOf t n).state ≠ .free then recheckOver t n else t) { s with sv := { s.sv with sweepEn := true } }

theorem foldl_recheckOver_flags (l : List Nat) (s : State) :
    let t := l.foldl (fun t n => if (sliceOf t n).state ≠ .free then recheckOver t n else t) s
    t.sv.sweepEn = s.sv.sweepEn ∧ t.sv.stuck = s.sv.stuck := by
  induction l generalizing s with
  | nil => exact ⟨rfl, rfl⟩
  | cons n l ih =>
    obtain ⟨hen, hstuck⟩ := ih (if (sliceOf s n).state ≠ .free then recheckOver s n else s)
    obtain ⟨hen', hstuck'⟩ := recheckOver_flags s n
    refine ⟨hen.trans ?_, hstuck.trans ?_⟩
    · split
      · exact hen'
      · rfl
    · split
      · exact hstuck'
      · rfl

theorem sweepEnabled_sweepEn (s : State) : (sweepEnabled s).sv.sweepEn = true := by
  obtain ⟨h, -⟩ := foldl_recheckOver_flags (List.range 16) { s with sv := { s.sv with sweepEn := true } }
  unfold sweepEnabled
  rw [h]

theorem clear_sweepEnabled (s : State) : clear (sweepEnabled s) = clear s := by
  obtain ⟨-, h⟩ := foldl_recheckOver_flags (List.range 16) { s with sv := { s.sv with sweepEn := true } }
  unfold clear sweepEnabled
  rw [h]

theorem execSweepEnSet_eq (path : Path) (s : State) : execSweepEnSet path s = secWrite path sweepEnabled s := rfl

/-! ## The end of a sweep (R309) -/

/-- A port's part of a sweep ends: its sweeps to that target are gone. -/
def sweepLeft (s : State) (m dst : Nat) : State := modPort s m fun p => { p with sweeps := p.sweeps.filter fun x => x.dst ≠ dst }

/-- No member port still has the sweep once it ends at `m`. -/
theorem sweepLeft_none {s : State} {m dst : Nat} {l : List Nat} (h : ∀ k ∈ l, k = m ∨ ∀ x ∈ (portOf s k).sweeps, x.dst ≠ dst) :
    (l.any fun k => (portOf (sweepLeft s m dst) k).sweeps.any fun x => x.dst = dst) = false := by
  rw [List.any_eq_false]
  intro k hk
  rw [Bool.not_eq_true, List.any_eq_false]
  intro x hx
  by_cases hkm : k = m
  · subst hkm
    unfold sweepLeft at hx
    rw [portOf_modPort] at hx
    simpa using (List.mem_filter.mp hx).2
  · unfold sweepLeft at hx
    rw [portOf_modPort_ne _ _ hkm] at hx
    simpa using (h k hk).resolve_left hkm x hx

/-- What the end of a port's part leaves: its sweeps filtered, and all but memory engines, reports and retirement jobs as it was. -/
theorem sweepPortDone_left (s : State) (n m : Nat) (w : Sweep) :
    let t := sweepPortDone s n m w
    (portOf t m).sweeps = ((portOf s m).sweeps.filter fun x => x.dst ≠ w.dst) ∧ { t with sv := s.sv, ks := s.ks, retJobs := s.retJobs } = s ∧
      clear t = clear s := by
  have hport : (portOf (sweepLeft s m w.dst) m).sweeps = (portOf s m).sweeps.filter fun x => x.dst ≠ w.dst :=
    (congrArg MemPort.sweeps (portOf_modPort ..)).trans rfl
  obtain ⟨kids, ks, js, h⟩ : ∃ kids ks js, sweepPortDone s n m w =
      { sweepLeft s m w.dst with sv := { (sweepLeft s m w.dst).sv with kids := kids }, ks := ks, retJobs := js } := by
    unfold sweepPortDone
    dsimp only
    split
    · exact ⟨s.sv.kids, s.ks, s.retJobs, rfl⟩
    · exact ⟨_, _, _, rfl⟩
  rw [h]
  exact ⟨hport, rfl, rfl⟩

/-- The last member port's part ends the sweep: the source retires, the target is installed. -/
theorem sweepPortDone_last {s : State} {n m : Nat} {w : Sweep}
    (hlast : ∀ k ∈ memberPorts (descOf s n), k = m ∨ ∀ x ∈ (portOf s k).sweeps, x.dst ≠ w.dst) (hne : w.src ≠ w.dst) :
    let t := sweepPortDone s n m w
    (kidOf t w.src).state = .retiring ∧ (kidOf t w.dst).state = .installed ∧ ∃ j ∈ t.retJobs, j.kids = [w.src] := by
  have hdone : sweepPortDone s n m w = endSweep (sweepLeft s m w.dst) n w.src w.dst := by
    unfold sweepPortDone
    exact if_neg (by rw [Bool.not_eq_true]; exact sweepLeft_none hlast)
  intro t
  let u := modKid (sweepLeft s m w.dst) w.src fun k => { k with state := .retiring, partner := 0 }
  have hdst := kidOf_modKid u w.dst fun k => { k with state := .installed, partner := 0 }
  have hsrc := (kidOf_modKid_ne u (fun k => { k with state := .installed, partner := 0 }) hne).trans (kidOf_modKid (sweepLeft s m w.dst) w.src _)
  rw [show t = endSweep (sweepLeft s m w.dst) n w.src w.dst from hdone]
  exact ⟨(congrArg Kid.state hsrc :), (congrArg Kid.state hdst :), _, List.mem_append_right _ (List.mem_singleton.mpr rfl), rfl⟩

/-! ## What retirement leaves alone (R312) -/

theorem repairPath_lasting (s : State) (m sub node keyid : Nat) : (repairPath s m sub node keyid).lasting = s.lasting := by
  refine foldl_keeps State.lasting (fun t lvl => ?_) [3, 2, 1, 0] s
  split
  case h_1 e => exact lasting_of_eq e (nodeGet_lasting ..)
  case h_2 e => exact (nodePut_lasting ..).trans (lasting_of_eq e (nodeGet_lasting ..))

theorem repairTags_lasting (s : State) (m sub g keyid : Nat) : (repairTags s m sub g keyid).lasting = s.lasting := by
  refine foldl_keeps State.lasting (fun t k => ?_) (List.range 4) s
  split
  case h_1 e => exact lasting_of_eq e (getTag_lasting ..)
  case h_2 e => exact (modPort_lasting (cacheTouch_lasting ..)).trans (lasting_of_eq e (getTag_lasting ..))

theorem zeroGroup_lasting (s : State) (m sub g keyid : Nat) : (zeroGroup s m sub g keyid).lasting = s.lasting := by
  have hrepair : (repairTags (repairPath s m sub g keyid) m sub g keyid).lasting = s.lasting :=
    (repairTags_lasting ..).trans (repairPath_lasting ..)
  unfold zeroGroup
  refine (foldl_keeps State.lasting (fun t i => ?_) _ _).trans ?_
  · split
    case h_1 e => exact (nodePut_lasting ..).trans ((lasting_of_eq e (getCtr_lasting ..)).trans (repairPath_lasting ..))
    case h_2 e => exact (lasting_of_eq e (getCtr_lasting ..)).trans (repairPath_lasting ..)
  · split
    case h_1 e => exact (nodePut_lasting ..).trans ((lasting_of_eq e (getCtr_lasting ..)).trans hrepair)
    case h_2 e => exact (lasting_of_eq e (getCtr_lasting ..)).trans hrepair

theorem flushKeys_lasting (s : State) (m : Nat) (kids : List Nat) : (flushKeys s m kids).lasting = s.lasting := by
  refine foldl_keeps State.lasting (fun t _ => ?_) (List.range 5) s
  refine foldl_keeps State.lasting (fun u c => ?_) _ t
  split
  · exact (writeBackLine_lasting (nodeGet_lasting [] m treeFuel _) ..).trans (cacheDrop_lasting ..)
  · rfl

/-- What a port's part of a retirement does to the lines of the window before it flushes its cache (R312 step 2). -/
def zeroed (s : State) (port keyid : Nat) (j : RetJob) : State :=
  if j.step2 && !(portOf s port).lost then
    (j.subs.filter fun i => i / 4 = port).foldl (fun t i =>
      (List.range (256 * j.size)).foldl (fun t k => zeroGroup t port (i % 4) (256 * j.base + k) keyid) t) s
  else s

theorem zeroed_lasting (s : State) (port keyid : Nat) (j : RetJob) : (zeroed s port keyid j).lasting = s.lasting := by
  unfold zeroed
  split
  · exact foldl_keeps State.lasting (fun t i => foldl_keeps State.lasting (fun u k => zeroGroup_lasting ..) _ t) _ s
  · rfl

/-! ## Identifiers that become absent (R312, R50) -/

/-- Keys of a table set to its default read as unlisted, the others as before. -/
theorem mget_foldl_mmod_default {α : Type} [DecidableEq α] (d : α) (l : List Nat) (m : List (Nat × α)) (j : Nat) :
    mget d (l.foldl (fun m k => mmod d m k fun _ => d) m) j = if j ∈ l then d else mget d m j := by
  induction l generalizing m with
  | nil => simp
  | cons k l ih =>
    rw [List.foldl_cons, ih]
    by_cases hj : j = k
    · subst hj; simp
    · simp [hj, mget_mmod_other]

/-- The identifiers of a finished job are absent. -/
def keysAbsent (s : State) (kids : List Nat) : State := kids.foldl (fun t k => modKid t k fun _ => Kid.zero) s

theorem keysAbsent_frame (s : State) (kids : List Nat) : ∃ ks, keysAbsent s kids = { s with sv := { s.sv with kids := ks } } :=
  ⟨_, foldl_modKid (fun _ => Kid.zero) kids s⟩

theorem kidOf_keysAbsent (s : State) (kids : List Nat) (k : Nat) : kidOf (keysAbsent s kids) k = if k ∈ kids then Kid.zero else kidOf s k := by
  refine Eq.trans ?_ (mget_foldl_mmod_default Kid.zero kids s.sv.kids k)
  unfold kidOf keysAbsent
  rw [foldl_modKid]

/-! ## The commands -/

section
variable {keyid n : Nat} {s : State} (hslice : sliceOfKey s keyid = some n) (hstate : (kidOf s keyid).state = .installed)
  (huses : 2 ^ 48 ≤ (kidOf s keyid).uses) (hsweep : sweepActive s n = false)
include hslice hstate huses hsweep

theorem exec_sweepStart_starts {b : Nat} (hspare : (if s.sv.sweepEn then spareFor s n keyid else none) = some b) :
    exec (.sweepStart keyid) s = guardRes s true (startSweep s n keyid b) := by
  show execSweepStart keyid s = _
  unfold execSweepStart
  simp only [hslice, hstate, huses, hsweep, hspare, decide_true, Bool.not_false, Bool.and_self]

theorem exec_sweepStart_over (hspare : (if s.sv.sweepEn then spareFor s n keyid else none) = none) :
    exec (.sweepStart keyid) s = guardRes s true (reportChanged (modKid s keyid fun k => { k with overBudget := true }) n) := by
  show execSweepStart keyid s = _
  unfold execSweepStart
  simp only [hslice, hstate, huses, hsweep, hspare, decide_true, Bool.not_false, Bool.and_self]
end

section
variable {port n : Nat} {w : Sweep} {med : Med} {s : State} (hat : sweepAt s port = some w) (hslice : sliceOfKey s w.dst = some n)
  (hready : portReady s port = true)
include hat hslice hready

theorem exec_sweepVisit_group {g j : Nat} {x : Bool} (hnext : nextSweep s n port w = some (g, j, x)) : exec (.sweepVisit port med) s =
    let u := if w.early.contains (4 * g + j) then s else reencGroup (applyMed s port j med) port j g w.src w.dst x med.errs
    unitRes (port < s.cfg.memPorts) s true
      (sweepAdvance (modSweep u port w.dst fun w => { w with next := g, nextSub := j + 1 }) n port w.dst) := by
  show execSweepVisit port med s = _
  unfold execSweepVisit
  simp only [hat, hslice, hready, hnext, Option.isSome_some, Bool.true_or, Bool.and_self]

theorem exec_sweepVisit_last (hnext : nextSweep s n port w = none)
    (hwait : ∀ t ∈ (portOf s port).tags, t.wait ≠ none → t.attr.keyid ≠ w.src) : exec (.sweepVisit port med) s =
    unitRes (port < s.cfg.memPorts) s true (sweepPortDone s n port w) := by
  have hnone : ((portOf s port).tags.any fun t => t.wait.isSome && t.attr.keyid = w.src) = false := by
    rw [List.any_eq_false]
    intro t ht
    simpa [Option.isSome_iff_ne_none] using hwait t ht
  show execSweepVisit port med s = _
  unfold execSweepVisit
  simp only [hat, hslice, hready, hnext, hnone, Option.isSome_none, Bool.not_false, Bool.or_true, Bool.and_self]
end

/-- What a port's part of a retirement job leaves: lines returned to the zero state, the cached lines of the identifiers flushed, and the job with
the port done (R312). -/
def partDone (s : State) (port keyid : Nat) (j : RetJob) : State :=
  let u := flushKeys (zeroed s port keyid j) port j.kids
  { u with retJobs := u.retJobs.map fun x => if x = j then { x with done := x.done ++ [port] } else x }

theorem exec_keyidRetirement {keyid port : Nat} {j : RetJob} {s : State} (hjob : retJobFor s keyid port = some j) (hready : portReady s port = true)
    (hbusy : keyBusy s port j.kids = false) (hfenced : (j.subs.any fun i => i / 4 = port && s.fc.subFenced.contains i) = false) :
    exec (.keyidRetirement keyid port) s = unitRes (port < s.cfg.memPorts) s true (partDone s port keyid j) := by
  show execKeyidRetirement keyid port s = _
  unfold execKeyidRetirement
  simp only [hjob, hready, hbusy, hfenced, Bool.not_false, Bool.and_self]
  rfl

theorem clear_partDone (s : State) (port keyid : Nat) (j : RetJob) :
    clear (partDone s port keyid j) = clear (flushKeys (zeroed s port keyid j) port j.kids) := by
  unfold partDone
  generalize flushKeys (zeroed s port keyid j) port j.kids = u
  rfl

/-- A port's part of a retirement job changes that job and the memory side. -/
theorem partDone_done (s : State) (port keyid : Nat) (j : RetJob) :
    (partDone s port keyid j).retJobs = (s.retJobs.map fun x => if x = j then { x with done := x.done ++ [port] } else x) ∧
      MemoryOnly s { partDone s port keyid j with retJobs := s.retJobs } ∧ (partDone s port keyid j).out = s.out := by
  have haround : (flushKeys (zeroed s port keyid j) port j.kids).around = s.around :=
    around_of_lasting ((flushKeys_lasting ..).trans (zeroed_lasting ..))
  unfold partDone
  generalize flushKeys (zeroed s port keyid j) port j.kids = u at haround ⊢
  have hjobs : u.retJobs = s.retJobs := (congrArg State.retJobs haround :)
  refine ⟨by simp only [hjobs], memoryOnly_iff.mpr (offMemory_of_around ?_), (congrArg State.out haround :)⟩
  exact (congrArg (fun x : State => { x with retJobs := s.retJobs }) haround :)

/-- What the end of a retirement job leaves (R312, R50). -/
def jobEnded (s : State) (keyid : Nat) (j : RetJob) : State :=
  let t := (sliceOfKey (keysAbsent s j.kids) keyid).elim (keysAbsent s j.kids) (reportChanged (keysAbsent s j.kids))
  { t with retJobs := t.retJobs.filter (· ≠ j) }

theorem exec_keyidRetirementDone {keyid : Nat} {j : RetJob} {s : State} (hjob : (s.retJobs.find? fun j => j.kids.contains keyid) = some j)
    (hdone : ∀ i ∈ j.subs, i / 4 ∈ j.done) : exec (.keyidRetirementDone keyid) s = guardRes s true (jobEnded s keyid j) := by
  have hall : (j.subs.all fun i => j.done.contains (i / 4)) = true := by simpa using hdone
  show execKeyidRetirementDone keyid s = _
  unfold execKeyidRetirementDone
  simp only [hjob, hall]
  rfl

/-- The end of a retirement job changes its identifiers, the jobs and a slice's report. -/
theorem jobEnded_frame (s : State) (keyid : Nat) (j : RetJob) : ∃ ks, jobEnded s keyid j =
    { s with sv := { s.sv with kids := (keysAbsent s j.kids).sv.kids }, retJobs := s.retJobs.filter (· ≠ j), ks := { s.ks with slices := ks } } := by
  obtain ⟨kids, h⟩ := keysAbsent_frame s j.kids
  unfold jobEnded
  rw [h]
  cases sliceOfKey { s with sv := { s.sv with kids := kids } } keyid with
  | none => exact ⟨s.ks.slices, rfl⟩
  | some n => exact ⟨_, rfl⟩

/-- Settles O29: a sweep starts by `startSweep_started`, its visits pass their groups (`sweepAdvance_passes`), its end is `sweepPortDone_left` with
`sweepPortDone_last`; a port's part of a retirement changes stored lines only (`zeroed_lasting`, `flushKeys_lasting`), and a finished job is
`jobEnded`. -/
theorem rekeySweepsAndRetirementsMoveIdentifiers : Obligations.RekeySweepsAndRetirementsMoveIdentifiers := by
  unfold Obligations.RekeySweepsAndRetirementsMoveIdentifiers
  refine ⟨⟨?start, ?visit, ?enable⟩, ?retire, ?done⟩
  case start =>
    intro keyid n s hslice hstate huses hsweep hclear
    cases hspare : (if s.sv.sweepEn then spareFor s n keyid else none) with
    | some b =>
      obtain ⟨hen, hfor⟩ : s.sv.sweepEn = true ∧ spareFor s n keyid = some b := by simpa using hspare
      have hc : clear (startSweep s n keyid b) = true := (congrArg (!·) (startSweep_flags s n keyid b).2).trans hclear
      refine Ends.of_guard (exec_sweepStart_starts hslice hstate huses hsweep hspare) rfl hc ⟨fun b' _ hfor' => ?_, fun hnone => ?_⟩
      · obtain rfl : b = b' := Option.some.inj (hfor.symm.trans hfor')
        exact startSweep_started (spareFor_ne hfor)
      · rcases hnone with h | h
        · exact absurd hen (by simp [h])
        · exact absurd hfor (by simp [h])
    | none =>
      refine Ends.of_guard (exec_sweepStart_over hslice hstate huses hsweep hspare) rfl hclear ⟨fun b hen hfor => ?_, fun _ => ?_⟩
      · rw [if_pos hen, hfor] at hspare
        cases hspare
      · exact ⟨kidOf_modKid .., fun k hk => kidOf_modKid_ne _ _ hk, rfl⟩
  case visit =>
    intro port n w med s hat hslice hport hready
    refine ⟨fun g j x hnext hclear => ?_, fun hnext hwait hclear => ?_⟩
    · let u := if w.early.contains (4 * g + j) then s else reencGroup (applyMed s port j med) port j g w.src w.dst x med.errs
      have hu : u.around = s.around := by
        unfold u
        split
        · rfl
        · exact (reencGroup_around ..).trans (around_of_lasting (applyMed_lasting ..))
      have hslices : u.slices = s.slices := (congrArg State.slices hu :)
      obtain ⟨ps, ht⟩ := sweepAdvance_frame (modSweep u port w.dst fun w => { w with next := g, nextSub := j + 1 }) n port w.dst
      have haround : (sweepAdvance (modSweep u port w.dst fun w => { w with next := g, nextSub := j + 1 }) n port w.dst).around = s.around :=
        (congrArg State.around ht).trans hu
      refine Ends.of_unit (exec_sweepVisit_group hat hslice hready hnext) (decide_eq_true hport) rfl ((congrArg clear ht).trans hclear)
        ⟨memoryOnly_iff.mpr (offMemory_of_around haround), (congrArg State.out haround :), (congrArg State.bw haround :),
          (congrArg State.reqErrs haround :), fun y hy hdst => ?_⟩
      exact sweepAdvance_passes hslices hnext hy hdst
    · obtain ⟨hsweeps, hframe, hc⟩ := sweepPortDone_left s n port w
      exact Ends.of_unit (exec_sweepVisit_last hat hslice hready hnext hwait) (decide_eq_true hport) rfl (hc.trans hclear)
        ⟨hsweeps, (congrArg State.regions hframe :), hframe, sweepPortDone_last⟩
  case enable =>
    intro path s hreach hclear
    exact Ends.of_settle ((execSweepEnSet_eq path s :).trans (secWrite_reach hreach _))
      ((clear_sweepEnabled _).trans ((clear_awake s).trans hclear)) (sweepEnabled_sweepEn _)
  case retire =>
    intro keyid port j s hjob hport hready hbusy hfenced u hclear
    exact Ends.of_unit (exec_keyidRetirement hjob hready hbusy hfenced) (decide_eq_true hport) rfl ((clear_partDone ..).trans hclear)
      (partDone_done ..)
  case done =>
    intro keyid j s hjob hdone hclear
    obtain ⟨ks, hframe⟩ := jobEnded_frame s keyid j
    have hkid (k : Nat) : kidOf (jobEnded s keyid j) k = if k ∈ j.kids then Kid.zero else kidOf s k := by
      rw [hframe, ← kidOf_keysAbsent]
      rfl
    refine Ends.of_guard (exec_keyidRetirementDone hjob hdone) rfl ?_
      ⟨fun k hk => (hkid k).trans (if_pos hk), fun k hk => (hkid k).trans (if_neg hk), ?_, fun x hx hne => ?_, ?_⟩
    · rw [hframe]
      exact hclear
    · rw [hframe]
      simp
    · rw [hframe]
      simp [hx, hne]
    · rw [hframe]

end Sys2Proof.Machine
end

section
/-! PROOFS. Register writes (O57): registers that hold what is written, the collector's configuration, and the writes of SV_WIDE and SV_RET. -/
namespace Sys2Proof.Machine

/-! ## The registers by offset (R640) -/

theorem regAt_ksStage : ∀ i < 32, regAt (0x160100 + 8 * i) = some (.ksStage i) := by decide

theorem regAt_cpStage : ∀ i < 7, regAt (0x1C0040 + 8 * i) = some (.cpStage i) := by decide

theorem regAt_lkSelf : regAt 0xC0000 = some .lkSelf := by rfl

theorem regAt_pmPolicy : regAt 0x1E0018 = some .pmPolicy := by rfl

theorem regAt_svMedpol : ∀ m < 24, regAt (0x80028 + 0x40 * m) = some (.svMedpol m) := by decide

theorem regAt_fcCfg : ∀ b < 40, regAt (0x1A0100 + 8 * b) = some (.fcCfg b) := by decide

/-! ## A write that reaches a register (R613, R637 to R639) -/

theorem secReach_up {path : Path} {s : State} (h : secReach path s = true) : pathUp (awake s) path = true := by
  simp only [secReach, Bool.and_eq_true] at h
  exact h.1.1

/-- A write over a path that is up, to a register of an array. -/
theorem execRegisterWrite_present {path : Path} {off : Nat} {r : Reg} {v : Word} {s : State} (hup : pathUp (awake s) path = true)
    (hr : regAt off = some r) : execRegisterWrite path off v s = if regPresent s.cfg r then writeReg path r v (awake s) else .next (awake s) := by
  unfold execRegisterWrite
  simp [hup, hr]

theorem writeOpen_cfg (s : State) (path : Path) (r : Reg) (v : Word) : (writeOpen s path r v).cfg = s.cfg := congrArg Prod.fst (writeOpen_fixed ..)

section
variable {path : Path} {r : Reg} {v : Word} {s : State}

/-- A register that is no host port's, no command, none of the collector's and no staging register of the slice manager takes what the path's world
writes. -/
theorem writeReg_plain (hport : regPort r = none) (hcmd : writeCommand path r v s = none) (hcoll : regCollector r = false)
    (hstage : ∀ i, r ≠ .slStage i) (hdebug : regDebug r = false) (hheld : regHeld s = false) : writeReg path r v s =
      if pathSecure s.cfg path then settle (writeSecure (writeOpen s path r v) r v) else .next (writeOpen s path r v) := by
  unfold writeReg
  simp only [hport, hcmd, hcoll, hheld, Bool.false_eq_true, if_false, pathSec, hdebug, Bool.and_false, Bool.or_false, writeOpen_cfg]

/-- A register of the collector takes a word over a secure path outside SCRAP and LOCKED. -/
theorem writeReg_collector (hport : regPort r = none) (hcmd : writeCommand path r v s = none) (hcoll : regCollector r = true)
    (hopen : lcOpen s = true) (hsec : pathSecure s.cfg path = true) : writeReg path r v s = settle (writeCollector (writeOpen s path r v) r v) := by
  unfold writeReg
  simp only [hport, hcmd, hcoll, hopen, pathSec, hsec, Bool.true_or, if_true]

end

/-! ## The collector's configuration (R519, R545) -/

theorem fcCfg_written {s : State} {b : Nat} (hb : fcFixed b = false) (x : Nat × Nat × Nat) :
    let t : State := { s with fc := { s.fc with cfg := minsert s.fc.cfg b x, cfgBad := sdel s.fc.cfgBad b } }
    fcCfg t b = x ∧ ∀ k, k ≠ b → fcCfg t k = fcCfg s k := by
  refine ⟨?_, fun k hk => ?_⟩
  · simp [fcCfg, hb, sdel]
  · simp [fcCfg, sdel, hk, mget_minsert_other]

/-! ## SV_WIDE and SV_RET (R282, R289, R335) -/

/-- A write to an array of the secure world's registers, over a path that reaches them. -/
theorem secWriteAt_reach {named present : Bool} {path : Path} {s : State} (h : secReach path s = true) (hnamed : named = true) (f : State → State) :
    secWriteAt named present path f s = settle (if present then f (awake s) else awake s) := by
  unfold secWriteAt
  rw [if_pos hnamed, secWrite_reach h]

@[simp] theorem buildBars_awake (s : State) : buildBars (awake s) = buildBars s := by simp [buildBars]
theorem collectorBars_awake (s : State) : collectorBars (awake s) = collectorBars s := by simp [collectorBars]
theorem lcOpen_awake (s : State) : lcOpen (awake s) = lcOpen s := by
  obtain ⟨ck, h⟩ := awake_frame s
  rw [h]
  rfl
@[simp] theorem portOf_awake (s : State) (m : Nat) : portOf (awake s) m = portOf s m := by
  obtain ⟨ck, h⟩ := awake_frame s
  rw [h]
  rfl
@[simp] theorem retJobs_awake (s : State) : (awake s).retJobs = s.retJobs := by
  obtain ⟨ck, h⟩ := awake_frame s
  rw [h]
@[simp] theorem dlimOf_awake (s : State) (m : Nat) : dlimOf (awake s) m = dlimOf s m := by simp [dlimOf, puOf]

/-- A write to a port that is not there and one that is barred are ignored alike. -/
theorem ite_ignored {α : Type} (present barred : Bool) (s t : α) :
    (if present then if barred then s else t else s) = if present && !barred then t else s := by
  cases present <;> cases barred <;> rfl

/-- SV_WIDE takes a word (R282): the port is there, the build lock does not bar it, every slice is FREE, no retirement runs, and the span fits. -/
def wideMay (s : State) (m : Nat) (v : Word) : Bool :=
  decide (m < s.cfg.memPorts) && !(buildBars s || !((List.range 16).all fun n => (sliceOf s n).state = .free) || !s.retJobs.isEmpty ||
    decide (puFor (s.cfg.cap m) (field v 16 14) - 1 < field v 0 13 + field v 16 14))

theorem wideMay_iff (s : State) (m : Nat) (v : Word) : wideMay s m v = true ↔ m < s.cfg.memPorts ∧ buildBars s = false ∧
    (∀ n < 16, (sliceOf s n).state = .free) ∧ s.retJobs = [] ∧
    field v 0 13 + field v 16 14 ≤ puFor (s.cfg.cap m) (field v 16 14) - 1 := by
  simp [wideMay, and_assoc]

theorem execSvWideWrite_reach {path : Path} {m : Nat} {s : State} (h : secReach path s = true) (hm : m < 24) (v : Word) :
    execSvWideWrite path m v s = settle (if wideMay s m v then
      freshPort (modPort (awake s) m fun p => { p with wideSize := field v 16 14, wideBase := field v 0 13 }) m else awake s) := by
  refine (secWriteAt_reach h (decide_eq_true hm) _).trans (congrArg settle ?_)
  simp only [buildBars_awake, sliceOf_awake, retJobs_awake, awake_cfg]
  exact ite_ignored ..

/-- A port in the fresh state of R289: its cache is empty and its root words read 0; the other ports are as before. -/
theorem freshPort_fresh (s : State) (m : Nat) :
    portOf (freshPort s m) m = { portOf s m with cache := [] } ∧ (∀ k, k ≠ m → portOf (freshPort s m) k = portOf s k) ∧
      ∀ j < 256, mget 0 (tallyOf (freshPort s m) (s.cfg.halfOfMem m)).sec (rootWord s m 0 0 + j) = 0 := by
  refine ⟨portOf_modPort .., fun k hk => portOf_modPort_ne _ _ hk, fun j hj => ?_⟩
  unfold freshPort
  simp only [tallyOf_modPort, tallyOf_modTally]
  refine (mget_filter_key 0 (fun k => !(decide (rootWord s m 0 0 ≤ k) && decide (k < rootWord s m 0 0 + 256))) _ _).trans (if_neg ?_)
  simp [hj]

/-- SV_RET takes a word (R335): the port is there, the build lock does not bar it, and FROM stands in no other valid entry of its sub-channel and
not in the spare unit. -/
def retMay (s : State) (m i : Nat) (v : Word) : Bool :=
  decide (m < s.cfg.memPorts) && !(buildBars s ||
    ((portOf s m).ret.any fun e => e.1 ≠ i && e.1 / 256 = i / 256 && e.2.valid && e.2.frm = field v 0 21) ||
    decide (field v 0 21 / 256 = dlimOf s m))

theorem retMay_iff (s : State) (m i : Nat) (v : Word) : retMay s m i v = true ↔ m < s.cfg.memPorts ∧ buildBars s = false ∧
    field v 0 21 / 256 ≠ dlimOf s m ∧
    ∀ e ∈ (portOf s m).ret, e.1 ≠ i → e.1 / 256 = i / 256 → e.2.valid = true → e.2.frm ≠ field v 0 21 := by
  simp [retMay]
  tauto

theorem execSvRetWrite_reach {path : Path} {m i : Nat} {s : State} (h : secReach path s = true) (hm : m < 24) (hi : i < 1024) (v : Word) :
    execSvRetWrite path m i v s = settle (if retMay s m i v then
        modPort (awake s) m fun p => { p with ret := mmod ⟨false, false, false, 0⟩ p.ret i fun e =>
          { e with valid := bit v 63, dead := bit v 62, frm := field v 0 21 } }
      else awake s) := by
  refine (secWriteAt_reach h (by simp [hm, hi]) _).trans (congrArg settle ?_)
  simp only [buildBars_awake, portOf_awake, dlimOf_awake]
  exact ite_ignored ..

/-! ## The obligation -/

section
variable {path : Path} {off : Nat} {r : Reg} {v : Word} {s : State} (hr : regAt off = some r) (hport : regPort r = none)
  (hcmd : writeCommand path r v (awake s) = none) (hcoll : regCollector r = false) (hstage : ∀ i, r ≠ .slStage i) (hdebug : regDebug r = false)
include hr hport hcmd hcoll hstage hdebug

/-- A write over a path that is up to a register that only holds what is written (`writeReg_plain`). -/
theorem exec_registerWrite_plain (hup : pathUp (awake s) path = true) (hheld : regHeld (awake s) = false) (hp : regPresent s.cfg r = true) :
    exec (.registerWrite path off v) s =
      if pathSecure s.cfg path then settle (writeSecure (writeOpen (awake s) path r v) r v) else .next (writeOpen (awake s) path r v) := by
  refine (execRegisterWrite_present hup hr).trans ?_
  rw [if_pos hp, writeReg_plain hport hcmd hcoll hstage hdebug hheld, awake_cfg]

theorem exec_registerWrite_reach (h : secReach path s = true) (hp : regPresent s.cfg r = true) :
    exec (.registerWrite path off v) s = settle (writeSecure (writeOpen (awake s) path r v) r v) := by
  simp only [secReach, Bool.and_eq_true, Bool.not_eq_true'] at h
  obtain ⟨⟨hup, hsec⟩, hheld⟩ := h
  rw [exec_registerWrite_plain hr hport hcmd hcoll hstage hdebug hup hheld hp, if_pos hsec]
end

/-- Settles O57: a register that only holds what is written takes it (`exec_registerWrite_plain`), FC_CFGb by `fcCfg_written`, SV_WIDE where
`wideMay` and SV_RET where `retMay` says so. -/
theorem registerWritesChangeTheirRegister : Obligations.RegisterWritesChangeTheirRegister := by
  unfold Obligations.RegisterWritesChangeTheirRegister
  refine ⟨?unnamed, ?staged, ?fields, ?collector, ?wide, ?ret⟩
  case unnamed =>
    intro sec off v s hoff
    refine ⟨awake s, ?_, rfl⟩
    show execRegisterWrite (.crp sec) off v s = _
    unfold execRegisterWrite
    simp only [hoff]
    rfl
  case staged =>
    intro path i v s hpath hup hheld hclear
    have hc : clear (awake s) = true := (clear_awake s).trans hclear
    obtain ⟨ck, hs⟩ := awake_frame s
    refine ⟨fun hi => ?_, fun hi => ?_⟩
    · have hexec := exec_registerWrite_plain (v := v) (regAt_ksStage i hi) rfl rfl rfl nofun rfl hup hheld rfl
      cases hsec : pathSecure s.cfg path with
      | true =>
        rw [if_pos hsec] at hexec
        exact Ends.of_settle hexec hc ⟨fun _ => by rw [hs]; rfl, nofun⟩
      | false =>
        rw [if_neg (by simp [hsec])] at hexec
        exact ⟨_, hexec, nofun, fun _ => rfl⟩
    · let u := modCpCopy (awake s) (copyKey path) fun c => { c with stage := mset 0 c.stage i v }
      have hexec : exec (.registerWrite path (0x1C0040 + 8 * i) v) s = settle u := by
        refine (exec_registerWrite_plain (regAt_cpStage i hi) rfl rfl rfl nofun rfl hup hheld rfl).trans ?_
        split
        · rfl
        · exact (settle_clear (t := u) hc).symm
      refine Ends.of_settle hexec hc ?_
      simp only [u, hs]
      exact ⟨rfl, rfl, cpCopyOf_modCpCopy .., fun k hk => cpCopyOf_modCpCopy_ne _ _ hk⟩
  case fields =>
    intro path v s hreach hclear
    have hc : clear (awake s) = true := (clear_awake s).trans hclear
    refine ⟨?_, ?_, fun m hm => ?_⟩
    · have hexec := exec_registerWrite_reach (v := v) regAt_lkSelf rfl rfl rfl nofun rfl hreach rfl
      simp only [writeSecure, writeOpen, buildBars_awake] at hexec
      obtain ⟨ck, hs⟩ := awake_frame s
      refine Ends.of_settle hexec ?_ ?_
      · split <;> exact hc
      · rw [hs]
        rfl
    · exact Ends.of_settle (exec_registerWrite_reach regAt_pmPolicy rfl rfl rfl nofun rfl hreach rfl) hc rfl
    · by_cases hp : m < s.cfg.memPorts
      · rw [if_pos hp]
        exact Ends.of_settle (exec_registerWrite_reach (regAt_svMedpol m hm) rfl rfl rfl nofun rfl hreach (decide_eq_true hp)) hc rfl
      · rw [if_neg hp]
        refine ⟨awake s, (execRegisterWrite_present (secReach_up hreach) (regAt_svMedpol m hm)).trans (if_neg ?_), rfl⟩
        simpa [regPresent] using hp
  case collector =>
    intro path b v s hup hsec hopen hb hfixed hclear
    have hc : clear (awake s) = true := (clear_awake s).trans hclear
    have hexec : exec (.registerWrite path (0x1A0100 + 8 * b) v) s = settle (writeCollector (awake s) (.fcCfg b) v) := by
      refine (execRegisterWrite_reg hup (regAt_fcCfg b hb) rfl).trans ?_
      exact writeReg_collector rfl rfl rfl ((lcOpen_awake s).trans hopen) (by rwa [awake_cfg])
    have hbars : (collectorBars (awake s) || fcFixed b || decide (40 ≤ b)) = collectorBars s := by
      simp [collectorBars_awake, hfixed, hb]
    simp only [writeCollector, hbars] at hexec
    obtain ⟨ck, hs⟩ := awake_frame s
    cases hlock : collectorBars s with
    | true =>
      rw [if_pos hlock] at hexec
      exact Ends.of_settle hexec hc ⟨by rw [hs], fun _ => rfl, nofun⟩
    | false =>
      rw [if_neg (by simp [hlock])] at hexec
      refine Ends.of_settle hexec hc ⟨by rw [hs], nofun, fun _ => ?_⟩
      rw [hs]
      exact fcCfg_written hfixed _
  case wide =>
    intro path m v s hreach hm hclear fits
    have hc : clear (awake s) = true := (clear_awake s).trans hclear
    have hfits : wideMay s m v = true ↔ fits := wideMay_iff s m v
    have hexec := execSvWideWrite_reach hreach hm v
    obtain ⟨ck, hs⟩ := awake_frame s
    by_cases hmay : wideMay s m v = true
    · rw [if_pos hmay] at hexec
      refine Ends.of_settle hexec hc ⟨by rw [hs]; rfl, fun h => absurd (hfits.mp hmay) h, fun _ => ?_⟩
      obtain ⟨hport, hother, hroots⟩ :=
        freshPort_fresh (modPort (awake s) m fun p => { p with wideSize := field v 16 14, wideBase := field v 0 13 }) m
      refine ⟨?_, fun k hk => ?_, fun j hj => ?_⟩
      · rw [hport, portOf_modPort, portOf_awake]
      · rw [hother k hk, portOf_modPort_ne _ _ hk, portOf_awake]
      · have := hroots j hj
        rw [hs] at this ⊢
        exact this
    · rw [if_neg hmay] at hexec
      exact Ends.of_settle hexec hc ⟨by rw [hs], fun _ => rfl, fun h => absurd (hfits.mpr h) hmay⟩
  case ret =>
    intro path m i v s hreach hm hi hclear taken ent
    have hc : clear (awake s) = true := (clear_awake s).trans hclear
    have htaken : retMay s m i v = true ↔ taken := retMay_iff s m i v
    have hexec := execSvRetWrite_reach hreach hm hi v
    obtain ⟨ck, hs⟩ := awake_frame s
    by_cases hmay : retMay s m i v = true
    · rw [if_pos hmay] at hexec
      refine Ends.of_settle hexec hc ⟨by rw [hs]; rfl, fun h => absurd (htaken.mp hmay) h, fun _ => ⟨?_, ?_, fun k hk => ?_⟩⟩
      · simp only [ent, portOf_modPort, portOf_awake, mget_mmod_same]
      · rw [portOf_modPort, portOf_awake]
      · rw [portOf_modPort_ne _ _ hk, portOf_awake]
    · rw [if_neg hmay] at hexec
      exact Ends.of_settle hexec hc ⟨by rw [hs], fun _ => rfl, fun h => absurd (htaken.mpr h) hmay⟩

end Sys2Proof.Machine
end

section
/-! PROOFS. Care of the medium (O30): what a scrub or copy of a stored line leaves alone, a scrub access, the retirement of a group, and row-repair
requests with their answers. -/
namespace Sys2Proof.Machine

/-! ## Lines that a background agent reads and copies (R325, R336) -/

@[simp] theorem careRead_lasting (s : State) (m sub line : Nat) (errs : List Nat) : (careRead s m sub line errs).1.lasting = s.lasting := by
  unfold careRead
  dsimp only
  split
  case h_1 e =>
    have ht := lasting_of_eq e (readStored_lasting ..)
    split
    · exact (treeFail_lasting ..).trans ht
    · exact ht
  case h_2 => exact readStored_lasting ..

@[simp] theorem copyLine_lasting (s : State) (m sub src dst : Nat) (errs : List Nat) : (copyLine s m sub src dst errs).lasting = s.lasting := by
  unfold copyLine
  split
  case h_1 e | h_2 e => exact (writeLine_lasting ..).trans (lasting_of_eq e (careRead_lasting ..))

theorem clear_applyMed (s : State) (m sub : Nat) (med : Med) : clear (applyMed s m sub med) = clear s := by
  refine foldl_keeps clear (fun t f => ?_) _ s
  rfl

theorem portOf_applyMed (s : State) (m sub : Nat) (med : Med) (k : Nat) : portOf (applyMed s m sub med) k = portOf s k := by
  refine foldl_keeps (portOf · k) (fun t f => ?_) _ s
  rfl

/-! ## A scrub access (R326, R327) -/

/-- A scrub access passes in the port's record: `rest` is due still, and LINE is `line`. -/
def scrubPassed (s : State) (port line : Nat) (rest : List (Nat × Bool)) : State :=
  modPort s port fun p => { p with scrub := { p.scrub with todo := rest, line := line } }

/-- The scrub of local line `x` of the walked sub-channel; a fenced sub-channel is not accessed (R341). -/
def scrubLine (s : State) (port x : Nat) (med : Med) : State :=
  let sub := (portOf s port).scrub.sub
  if subFenced s port sub then s
  else (careRead (applyMed (bwCount s (agentAttr port 0 0) 1) port sub med) port sub x med.errs).1

theorem scrub_scrubPassed (s : State) (port line : Nat) (rest : List (Nat × Bool)) :
    (portOf (scrubPassed s port line rest) port).scrub = { (portOf s port).scrub with todo := rest, line := line } :=
  (congrArg MemPort.scrub (portOf_modPort ..)).trans rfl

/-- The scrub of a line counts a line of bandwidth at most; what else it changes are stored lines. -/
theorem scrubLine_lasting (s : State) (port x : Nat) (med : Med) :
    ∃ bw, (scrubLine s port x med).lasting = ({ s with bw := bw } : State).lasting := by
  unfold scrubLine
  dsimp only
  split
  · exact ⟨s.bw, rfl⟩
  · obtain ⟨bw, hbw⟩ := bwCount_frame s (agentAttr port 0 0) 1
    exact ⟨bw, hbw ▸ (careRead_lasting ..).trans (applyMed_lasting ..)⟩

/-- An access with another one behind it in its group. -/
theorem exec_scrubAccess_more {port : Nat} {a b : Nat × Bool} {rest : List (Nat × Bool)} {s : State} (hrun : (portOf s port).scrub.interval ≠ 0)
    (hready : portReady s port = true) (hcap : s.cfg.cap port ≠ 0) (htodo : (portOf s port).scrub.todo = a :: b :: rest) (med : Med) :
    exec (.scrubAccess port med) s =
      unitRes (port < s.cfg.memPorts) s true (scrubLine (scrubPassed s port b.1 (b :: rest)) port a.1 med) := by
  show execScrubAccess port med s = _
  unfold execScrubAccess scrubLine
  simp only [scrub_scrubPassed, hready, htodo, decide_eq_true hrun, decide_eq_true hcap, reduceCtorEq, if_false, Bool.and_self]
  rfl

/-! ## The retirement of a group (R333 to R336) -/

theorem freeRet_applyMed (s : State) (m sub : Nat) (med : Med) (k j : Nat) : freeRet (applyMed s m sub med) k j = freeRet s k j := by
  unfold freeRet
  rw [portOf_applyMed]

theorem copies_around (s : State) (m sub frm spare : Nat) (errs l : List Nat) :
    (l.foldl (fun t k => copyLine t m sub (64 * frm + k) (64 * spare + k) errs) s).around = s.around := by
  refine foldl_keeps State.around (fun t k => ?_) l s
  exact around_of_lasting (copyLine_lasting ..)

theorem modRet_around (s : State) (m i : Nat) (f : RetEnt → RetEnt) : (modRet s m i f).around = s.around := rfl

/-- A retirement onto entry `i` copies lines, may give up the group's own entry, and then records entry, retirement and row-repair request. -/
theorem retireOnto_recorded (s : State) (m sub g sym i : Nat) (errs : List Nat) :
    ∃ frm u, u.around = s.around ∧ retireOnto s m sub g sym i errs =
      modPort (modRet u m i fun _ => ⟨true, false, false, frm⟩) m fun p =>
        { p with retireQ := p.retireQ.filter fun q => !(q.1 = sub && q.2.1 = g), rrWait := p.rrWait ++ [⟨0, sub, frm, sym, i⟩] } := by
  unfold retireOnto
  dsimp only
  refine ⟨_, _, ?_, rfl⟩
  split
  · exact (modRet_around ..).trans (copies_around ..)
  · exact copies_around ..

/-- What a retirement onto entry `i` leaves: the entry VALID for the group it stands for, a row-repair request of that group waiting, and the
retirement due no more. -/
theorem retireOnto_retired (s : State) (m sub g sym i : Nat) (errs : List Nat) :
    let t := retireOnto s m sub g sym i errs
    t.around = s.around ∧
      (∃ frm, mget ⟨false, false, false, 0⟩ (portOf t m).ret i = ⟨true, false, false, frm⟩ ∧
        ∃ x ∈ (portOf t m).rrWait, x.sub = sub ∧ x.group = frm ∧ x.sym = sym ∧ x.entry = i) ∧
      ∀ q ∈ (portOf t m).retireQ, ¬ (q.1 = sub ∧ q.2.1 = g) := by
  obtain ⟨frm, u, hu, h⟩ := retireOnto_recorded s m sub g sym i errs
  rw [h, modRet]
  simp only [portOf_modPort]
  refine ⟨hu, ⟨frm, mget_mmod_same .., _, List.mem_append_right _ (List.mem_singleton.mpr rfl), rfl, rfl, rfl, rfl⟩, fun q hq => ?_⟩
  simpa [imp_iff_not_or] using (List.mem_filter.mp hq).2

/-- SPARE_OUT is raised for a due retirement (R336). -/
def spareOut (s : State) (m sub g : Nat) : State :=
  raise (modPort s m fun p =>
    { p with retireQ := p.retireQ.map fun q => if q.1 = sub && q.2.1 = g then (q.1, q.2.1, q.2.2.1, true) else q }) 14 (4 * m + sub) (8192 * g)

/-- Afterwards an event of its source and unit waits. -/
theorem raise_waits_inst (s : State) (src inst detail : Nat) : ∃ l ∈ (raise s src inst detail).fc.lines, l.src = src ∧ l.inst = inst := by
  unfold raise
  split
  case isTrue h =>
    obtain ⟨l, hl, hsame⟩ := List.any_eq_true.mp h
    simp only [Bool.and_eq_true, decide_eq_true_eq] at hsame
    obtain ⟨⟨⟨hsrc, hinst⟩, -⟩, -⟩ := hsame
    exact ⟨l, hl, hsrc, hinst⟩
  case isFalse => exact ⟨_, List.mem_append_right _ (List.mem_singleton.mpr rfl), rfl, rfl⟩

theorem spareOut_lasting (s : State) (m sub g : Nat) : (spareOut s m sub g).lasting = s.lasting :=
  (raise_lasting ..).trans (modPort_lasting rfl)

theorem clear_spareOut (s : State) (m sub g : Nat) : clear (spareOut s m sub g) = clear s :=
  (clear_eq_of_sv (raise_sv ..)).trans rfl

/-- The retirement stays due, and is marked as one for which SPARE_OUT was raised. -/
theorem mem_retireQ_spareOut {s : State} {m sub g sym : Nat} {tried : Bool} (h : (sub, g, sym, tried) ∈ (portOf s m).retireQ) :
    (sub, g, sym, true) ∈ (portOf (spareOut s m sub g) m).retireQ := by
  unfold spareOut portOf
  rw [raise_sv]
  refine (congrArg MemPort.retireQ (portOf_modPort (s := s) m _)).symm ▸ List.mem_map.mpr ⟨_, h, ?_⟩
  simp

section
variable {port sub g sym : Nat} {tried : Bool} {s : State} (hready : portReady s port = true) (hdue : dueRetirement s port = some (sub, g, sym, tried))
  (hheld : groupHeld s port sub g = false)
include hready hdue hheld

theorem exec_groupRetirement_spare {i : Nat} (hfree : freeRet s port sub = some i) (med : Med) : exec (.groupRetirement port med) s =
    unitRes (port < s.cfg.memPorts) s true (retireOnto (applyMed s port sub med) port sub g sym i med.errs) := by
  show execGroupRetirement port med s = _
  unfold execGroupRetirement
  simp only [hready, hdue, hheld, freeRet_applyMed, hfree, Option.elim_some, Bool.not_false, Bool.and_self]

theorem exec_groupRetirement_full (hfree : freeRet s port sub = none) (med : Med) : exec (.groupRetirement port med) s =
    unitRes (port < s.cfg.memPorts) s true (spareOut (applyMed s port sub med) port sub g) := by
  show execGroupRetirement port med s = _
  unfold execGroupRetirement
  simp only [hready, hdue, hheld, freeRet_applyMed, hfree, Option.elim_some, Bool.not_false, Bool.and_self, spareOut]
end

theorem mem_retireQ_of_due {s : State} {m : Nat} {q : Nat × Nat × Nat × Bool} (h : dueRetirement s m = some q) : q ∈ (portOf s m).retireQ :=
  List.mem_of_find?_eq_some h

/-! ## Row repair (R337, R338, R594, R595) -/

/-- The lowest identifier that no outstanding request bears. -/
def freeRowId (out : List RowRep) : Nat := ((List.range 4).find? fun n => !(out.any fun o => o.id = n)).getD 0

/-- While fewer than four requests are outstanding an identifier is free. -/
theorem freeRowId_free {out : List RowRep} (h : out.length < 4) : freeRowId out < 4 ∧ ∀ o ∈ out, o.id ≠ freeRowId out := by
  unfold freeRowId
  cases hf : (List.range 4).find? fun n => !(out.any fun o => o.id = n) with
  | some n =>
    have hn := List.mem_of_find?_eq_some hf
    have hfree := List.find?_some hf
    exact ⟨List.mem_range.mp hn, by simpa using hfree⟩
  | none =>
    have hall : List.range 4 ⊆ out.map RowRep.id := fun n hn => by simpa using List.find?_eq_none.mp hf n hn
    have hlen := (List.nodup_range.subperm hall).length_le
    rw [List.length_range, List.length_map] at hlen
    omega

/-- The oldest waiting request `r` has gone out. -/
def rowRequested (s : State) (port : Nat) (r : RowRep) (rest : List RowRep) : State :=
  let id := freeRowId (portOf s port).rrOut
  emit (modRet (modPort s port fun p => { p with rrWait := rest, rrOut := p.rrOut ++ [{ r with id := id, sym := lastSymOf s port r }] }) port r.entry
    fun e => { e with rowreq := true }) (.rowRepair port id r.sub r.group (lastSymOf s port r))

theorem exec_rowRepairRequest_goes {port : Nat} {r : RowRep} {rest : List RowRep} {s : State} (hwait : (portOf s port).rrWait = r :: rest)
    (hout : (portOf s port).rrOut.length < 4) (hfenced : subFenced s port r.sub = false) :
    exec (.rowRepairRequest port) s = unitRes (port < s.cfg.memPorts) s true (rowRequested s port r rest) := by
  show execRowRepairRequest port s = _
  unfold execRowRepairRequest
  simp [hwait, hout, hfenced, rowRequested, freeRowId]

theorem portOf_rowRequested (s : State) (port : Nat) (r : RowRep) (rest : List RowRep) : portOf (rowRequested s port r rest) port =
    { portOf s port with
      rrWait := rest
      rrOut := (portOf s port).rrOut ++ [{ r with id := freeRowId (portOf s port).rrOut, sym := lastSymOf s port r }]
      ret := mmod ⟨false, false, false, 0⟩ (portOf s port).ret r.entry fun e => { e with rowreq := true } } := by
  refine (portOf_modPort (s := modPort s port _) port _).trans ?_
  rw [portOf_modPort]

/-- The outstanding request `r` has been answered under `id`. -/
def rowEnded (s : State) (port id : Nat) (refused : Bool) (r : RowRep) : State :=
  modPort (modRet s port r.entry fun e => { e with rowreq := false }) port fun p =>
    { p with rrOut := p.rrOut.filter fun o => o.id ≠ id, rowRefused := if refused then satAdd 255 p.rowRefused 1 else p.rowRefused }

theorem portOf_rowEnded (s : State) (port id : Nat) (refused : Bool) (r : RowRep) : portOf (rowEnded s port id refused r) port =
    { portOf s port with
      ret := mmod ⟨false, false, false, 0⟩ (portOf s port).ret r.entry fun e => { e with rowreq := false }
      rrOut := (portOf s port).rrOut.filter fun o => o.id ≠ id
      rowRefused := if refused then satAdd 255 (portOf s port).rowRefused 1 else (portOf s port).rowRefused } := by
  unfold rowEnded modRet
  simp only [portOf_modPort]

section
variable {port id : Nat} {s : State}

theorem exec_rowRepairAnswer_ends {r : RowRep} (hfind : ((portOf s port).rrOut.find? fun r => r.id = id) = some r) (refused : Bool) :
    exec (.rowRepairAnswer port id refused) s = hereRes (port < s.cfg.memPorts) (rowEnded s port id refused r) := by
  show execRowRepairAnswer port id refused s = _
  unfold execRowRepairAnswer
  simp only [hfind, rowEnded]

/-- An answer to no request out (log 169). -/
theorem exec_rowRepairAnswer_unasked (hfind : ((portOf s port).rrOut.find? fun r => r.id = id) = none) (refused : Bool) :
    exec (.rowRepairAnswer port id refused) s = hereRes (port < s.cfg.memPorts) (raise s 16 (4 * port) id) := by
  show execRowRepairAnswer port id refused s = _
  unfold execRowRepairAnswer
  simp only [hfind]
end

/-- Settles O30: a scrub changes stored lines only (`scrubLine_lasting`), a retirement leaves what `retireOnto_retired` or `spareOut` says, a
row-repair request finds a free identifier (`freeRowId_free`), and its answer ends it (`portOf_rowEnded`). -/
theorem theMediumIsScrubbedRetiredAndRepaired : Obligations.TheMediumIsScrubbedRetiredAndRepaired := by
  unfold Obligations.TheMediumIsScrubbedRetiredAndRepaired
  refine ⟨?scrub, ?retire, ?request, ?answer⟩
  case scrub =>
    intro port a b rest med s hport hrun hready hcap htodo w u hclear
    have hpassed : (portOf u port).scrub = { w with todo := b :: rest, line := b.1 } := scrub_scrubPassed s port b.1 (b :: rest)
    have ht : scrubLine u port a.1 med = if subFenced s port w.sub then u
        else (careRead (applyMed (bwCount u (agentAttr port 0 0) 1) port w.sub med) port w.sub a.1 med.errs).1 := by
      unfold scrubLine
      rw [hpassed]
      rfl
    obtain ⟨bw, hlasting⟩ := scrubLine_lasting u port a.1 med
    have haround := around_of_lasting hlasting
    have hscrub := congrArg MemPort.scrub (portOf_of_lasting hlasting port)
    exact Ends.of_unit (exec_scrubAccess_more hrun hready hcap htodo med) (decide_eq_true hport) rfl ((congrArg clear ht).trans hclear)
      ⟨memoryOnly_iff.mpr ((offMemory_of_around haround).trans rfl), (congrArg State.out haround :), hscrub.trans hpassed⟩
  case retire =>
    intro port sub g sym tried med s hport hready hdue hheld
    refine ⟨fun i hfree hclear => ?_, fun hfree hclear => ?_⟩
    · obtain ⟨hkept, hretired⟩ := retireOnto_retired (applyMed s port sub med) port sub g sym i med.errs
      have haround := hkept.trans (around_of_lasting (applyMed_lasting ..))
      exact Ends.of_unit (exec_groupRetirement_spare hready hdue hheld hfree med) (decide_eq_true hport) rfl hclear
        ⟨memoryOnly_iff.mpr (offMemory_of_around haround), (congrArg State.out haround :), hretired⟩
    · have haround := around_of_lasting ((spareOut_lasting (applyMed s port sub med) port sub g).trans (applyMed_lasting ..))
      have hmem : (sub, g, sym, tried) ∈ (portOf (applyMed s port sub med) port).retireQ :=
        (portOf_applyMed ..).symm ▸ mem_retireQ_of_due hdue
      exact Ends.of_unit (exec_groupRetirement_full hready hdue hheld hfree med) (decide_eq_true hport) rfl
        ((clear_spareOut ..).trans ((clear_applyMed ..).trans hclear))
        ⟨memoryOnly_iff.mpr (offMemory_of_around haround), (congrArg State.out haround :), mem_retireQ_spareOut hmem, raise_waits_inst ..⟩
  case request =>
    intro port r rest s hport hwait hout hfenced hclear
    obtain ⟨hid, hfree⟩ := freeRowId_free hout
    refine Ends.of_unit (exec_rowRepairRequest_goes hwait hout hfenced) (decide_eq_true hport) rfl hclear ⟨_, hid, hfree, ?_⟩
    rw [portOf_rowRequested]
    exact ⟨rfl, rfl, by rw [mget_mmod_same], rfl⟩
  case answer =>
    intro port id refused s hport hclear
    cases hfind : (portOf s port).rrOut.find? fun r => r.id = id with
    | some r =>
      refine Ends.of_here (exec_rowRepairAnswer_ends hfind refused) (decide_eq_true hport) hclear ⟨fun r' hr' => ?_, fun hnone => nomatch hnone⟩
      obtain rfl : r = r' := Option.some.inj hr'
      rw [portOf_rowEnded]
      exact ⟨fun o ho => by simpa using (List.mem_filter.mp ho).2, by rw [mget_mmod_same], rfl⟩
    | none =>
      exact Ends.of_here (exec_rowRepairAnswer_unasked hfind refused) (decide_eq_true hport)
        ((clear_eq_of_sv (raise_sv ..)).trans hclear) ⟨fun r hr => (nomatch hr), fun _ => rfl⟩

end Sys2Proof.Machine
end

section
/-! PROOFS. The link unit's records (O32, O33): streams and link keys after a change of one, the frames that a sealed group becomes, and a received
group under its SEQ. -/
namespace Sys2Proof.Machine

/-! ## Streams (R349, R353) -/

/-- The entry that a search finds, after every entry that it could find has changed and can still be found. -/
theorem find?_map_where {α : Type} {p : α → Bool} {f : α → α} (hf : ∀ t, p t = true → p (f t) = true) (l : List α) :
    (l.map fun t => if p t then f t else t).find? p = (l.find? p).map f := by
  induction l with
  | nil => rfl
  | cons t l ih =>
    cases hp : p t with
    | true => simp [hp, hf t hp]
    | false => simpa [hp] using ih

theorem txOf_modTx {f : TxStream → TxStream} (hf : ∀ t, (f t).dest = t.dest ∧ (f t).lkey = t.lkey) (s : State) (dest lkey : Nat) :
    txOf (modTx s dest lkey f) dest lkey = (txOf s dest lkey).map f :=
  find?_map_where (fun t ht => by simpa only [(hf t).1, (hf t).2] using ht) s.links.tx

theorem rxOf_modRx {f : RxStream → RxStream} (hf : ∀ t, (f t).src = t.src ∧ (f t).lkey = t.lkey) (s : State) (src lkey : Nat) :
    rxOf (modRx s src lkey f) src lkey = (rxOf s src lkey).map f :=
  find?_map_where (fun t ht => by simpa only [(hf t).1, (hf t).2] using ht) s.links.rx

theorem needTx_of_stream {s : State} {dest lkey : Nat} {x : TxStream} (h : txOf s dest lkey = some x) : needTx s dest lkey = (s, true) := by
  simp [needTx, h]

theorem needRx_of_stream {s : State} {src lkey port : Nat} {x : RxStream} (h : rxOf s src lkey = some x) :
    needRx s src lkey port = (s, true) := by
  simp [needRx, h]

/-- Making sure of a transmit stream changes the transmit streams and the count of groups without one. -/
theorem needTx_frame (s : State) (dest lkey : Nat) : ∃ full tx, (needTx s dest lkey).1 = modLinks s fun l => { l with full := full, tx := tx } := by
  unfold needTx
  split
  · exact ⟨s.links.full, s.links.tx, rfl⟩
  · split
    · exact ⟨_, s.links.tx, rfl⟩
    · exact ⟨s.links.full, _, rfl⟩

theorem queueBack_frame (s : State) (src lkey : Nat) (gs : List TxGroup) :
    ∃ full tx, queueBack s src lkey gs = modLinks s fun l => { l with full := full, tx := tx } := by
  obtain ⟨full, tx, hneed⟩ := needTx_frame s src lkey
  unfold queueBack
  split
  case h_1 e => exact ⟨full, tx, (congrArg Prod.fst e).symm.trans hneed⟩
  case h_2 u e =>
    obtain rfl : u = _ := (congrArg Prod.fst e).symm.trans hneed
    exact ⟨full, _, rfl⟩

/-! ## Frames of a group (R343, R350, R351) -/

theorem foldl_emit_frame {β : Type} (port : Nat) (bytes : β → List Byte) (l : List β) (s : State) :
    l.foldl (fun t c => emit t (.frame port (bytes c))) s = { s with out := (l.map fun c => .frame port (bytes c)).reverse ++ s.out } := by
  induction l generalizing s with
  | nil => rfl
  | cons c l ih => rw [List.foldl_cons, ih, List.map_cons, List.reverse_cons, List.append_assoc]; rfl

/-- Where the report of a slice may have changed, nothing beside the reports of the slices has. -/
theorem reportChanged_unless_eq (c : Prop) [Decidable c] (s : State) (n : Nat) : (if c then s else reportChanged s n) =
    { s with ks := { s.ks with slices := (if c then s else reportChanged s n).ks.slices } } := by
  split <;> rfl

/-- Under a transmit key a group leaves as its frames, and its NCOUNT at the port rises by one; beside them only the key store changes. -/
theorem emitGroup_keyed {s : State} {h : GHead} (hkey : (lkeyOf s h.lkey).tx ≠ none) (port dmac : Nat) (data : List Byte) :
    ∃ (ks : Ks) (frames : List (List Byte)),
      emitGroup s port dmac h data = { s with ks := ks, out := frames.map (.frame port) ++ s.out } ∧
      frames.length = (frameCuts data.length).length ∧
      mget 1 (mget LinkKey.zero ks.links h.lkey).ncount port = mget 1 (lkeyOf s h.lkey).ncount port + 1 := by
  obtain ⟨key, htx⟩ := Option.ne_none_iff_exists'.mp hkey
  unfold emitGroup
  simp only [htx]
  rw [foldl_emit_frame, reportChanged_unless_eq, ← List.map_reverse, ← Function.comp_def (Out.frame port), ← List.map_map]
  refine ⟨_, _, rfl, by simp, ?_⟩
  simp [modLkey, lkeyOf]

theorem length_frameCuts_pos (n : Nat) : 0 < (frameCuts n).length := by
  simp [frameCuts]

/-! ## A received group under its SEQ (R353, R358) -/

theorem seqClass_cases (x : RxStream) (seq : Nat) : seqClass x seq = 0 ∨ seqClass x seq = 1 ∨ seqClass x seq = 2 := by
  unfold seqClass
  split
  · exact .inl rfl
  · split
    · exact .inr (.inl rfl)
    · exact .inr (.inr rfl)

theorem refuseGroup_frame (s : State) (src lkey seq sub : Nat) :
    ∃ full tx, refuseGroup s src lkey seq sub = modLinks (groupAck s src lkey seq) fun l => { l with full := full, tx := tx } :=
  queueBack_frame ..

/-- A new group, of header `h` at `port`, of an existing stream is on its way to be written. -/
def admitted (s : State) (port : Nat) (h : List Byte) : State :=
  modRx s (hSrc h) (hLkey h) fun t => { t with writing := sins t.writing (hSeq h), port := port }

/-- A duplicate of header `h` at `port` is counted, and its stream owes an acknowledgement. -/
def duplicated (s : State) (port : Nat) (h : List Byte) : State :=
  modRx (modLport s port fun p => { p with dup := satAdd 65535 p.dup 1 }) (hSrc h) (hLkey h) fun t => { t with ackDue := true }

/-- A new group of header `h` at `port` is recorded as handled whole. -/
def recorded (s : State) (port : Nat) (h : List Byte) : State := groupAck (admitted s port h) (hSrc h) (hLkey h) (hSeq h)

theorem clear_recorded (s : State) (port : Nat) (h : List Byte) : clear (recorded s port h) = clear s :=
  clear_eq_of_sv ((modLinks_sv ..).trans (modLinks_sv ..))

theorem clear_duplicated (s : State) (port : Nat) (h : List Byte) : clear (duplicated s port h) = clear s :=
  clear_eq_of_sv ((modLinks_sv ..).trans (modLinks_sv ..))

section
variable {s : State} {h : List Byte} {x : RxStream} (hx : rxOf s (hSrc h) (hLkey h) = some x) (port : Nat)
include hx

theorem underSeq_duplicate (hclass : seqClass x (hSeq h) = 0) (apply : State → State) : underSeq s port h apply = duplicated s port h := by
  simp only [underSeq, needRx_of_stream hx, hx, Option.map_some, hclass]
  rfl

theorem underSeq_new (hclass : seqClass x (hSeq h) = 1) (apply : State → State) : underSeq s port h apply = apply (admitted s port h) := by
  simp only [underSeq, needRx_of_stream hx, hx, Option.map_some, hclass]
  rfl

theorem underSeq_above (hclass : seqClass x (hSeq h) = 2) (apply : State → State) : underSeq s port h apply = s := by
  simp only [underSeq, needRx_of_stream hx, hx, Option.map_some, hclass]

theorem rxOf_recorded : rxOf (recorded s port h) (hSrc h) (hLkey h) =
    some (record { x with writing := sins x.writing (hSeq h), port := port } (hSeq h)) := by
  have hwriting : hSeq h ∈ sins x.writing (hSeq h) := (mem_sins ..).mpr (.inr rfl)
  unfold recorded groupAck admitted
  rw [rxOf_modRx (fun t => by split <;> exact ⟨rfl, rfl⟩), rxOf_modRx (fun t => by exact ⟨rfl, rfl⟩), hx]
  simp [hwriting]

/-- A new group that its window refuses is recorded as one handled whole is; beside the link unit nothing changes. -/
theorem refuseGroup_admitted (sub : Nat) :
    ∃ links : Links, refuseGroup (admitted s port h) (hSrc h) (hLkey h) (hSeq h) sub = { s with links := links } ∧
      (links.rx.find? fun t => t.src = hSrc h && t.lkey = hLkey h) =
        some (record { x with writing := sins x.writing (hSeq h), port := port } (hSeq h)) := by
  obtain ⟨full, tx, hback⟩ := refuseGroup_frame (admitted s port h) (hSrc h) (hLkey h) (hSeq h) sub
  exact ⟨_, hback, rxOf_recorded hx port⟩
end

/-! ## Verified groups that wait for their step (R360) -/

/-- The verified group at place `k` waits no more. -/
def withoutVerified (s : State) (k : Nat) : State := modLinks s fun l => { l with verified := l.verified.eraseIdx k }

/-- A waiting group of the kind asked for is taken, a GET_RSP where no other one precedes it. -/
theorem takeVerified_takes {s : State} {k : Nat} {v : VGroup} {ok : List Byte → Bool} (hv : s.links.verified[k]? = some v)
    (hok : ok v.hdr = true) (hfirst : isRsp v.hdr = true → ∀ w ∈ s.links.verified.take k, isRsp w.hdr = false) (f : State → VGroup → State) :
    takeVerified k ok f s = settle (f (withoutVerified s k) v) := by
  have hmay : (ok v.hdr && !(isRsp v.hdr && (s.links.verified.take k).any fun w => isRsp w.hdr)) = true := by
    cases hrsp : isRsp v.hdr with
    | true => simpa [hok] using hfirst hrsp
    | false => simp [hok]
  unfold takeVerified
  simp only [hv]
  exact if_pos hmay

end Sys2Proof.Machine
end

section
/-! PROOFS. Link groups are sent, gathered and verified, and acknowledgements leave (O32). -/
namespace Sys2Proof.Machine

/-! ## GROUP_SEND (R347, R350, R351, R353) -/

theorem snapMix_frame (c : Nat) (snap : List (Nat × Byte)) (s : State) (a n : Nat) :
    ∃ fresh, (snapMix c snap s a n).1 = { s with fresh := fresh } := by
  induction n generalizing s a with
  | zero => exact ⟨s.fresh, rfl⟩
  | succ n ih =>
    unfold snapMix
    dsimp only
    split
    · exact ih s (a + 1)
    · exact ih (drawBool s).1 (a + 1)

theorem boltSlot_of_clear {s : State} {c : Nat} (h : clear (boltSlot s c) = true) : boltSlot s c = s := by
  unfold boltSlot at h ⊢
  split at h
  · cases h
  · exact if_neg ‹_›

/-- The source bytes of an LPUT that are at hand, where no access waits, are read with free draws alone (R193). -/
theorem boltGroup_frame {s : State} {eng ctx gen off n : Nat} {snap : List (Nat × Byte)} {data : List Byte}
    (hdata : (boltGroup s eng ctx gen off n (some snap)).2 = .ok data) (hclear : clear (boltGroup s eng ctx gen off n (some snap)).1 = true) :
    ∃ fresh, (boltGroup s eng ctx gen off n (some snap)).1 = { s with fresh := fresh } := by
  unfold boltGroup at hdata hclear ⊢
  cases hat : boltAt s (eng / 4) ctx gen off n with
  | none => exact ⟨s.fresh + 1, rfl⟩
  | some a =>
    simp only [hat] at hdata hclear ⊢
    split at hdata
    · cases hdata
    next hgood =>
      rw [if_neg hgood] at hclear ⊢
      obtain ⟨fresh, hmix⟩ := snapMix_frame (eng / 4) snap (boltSlot s (eng / 4)) a n
      have hslot : boltSlot s (eng / 4) = s := boltSlot_of_clear ((congrArg clear hmix.symm).trans hclear)
      rw [hslot] at hmix
      exact ⟨fresh, by rw [hslot]; exact hmix⟩

/-- The next group of an LPUT, whose data is read, is sent. -/
theorem sendOp_put {s u : State} {a : AsyncOp} {l : BitVec 256} {off len : Nat} {snap : List (Nat × Byte)} {data : List Byte} {d : LinkDesc}
    (hkind : a.kind = .lput l off len snap)
    (hdata : boltGroup s a.eng a.ctx a.gen (off + 16384 * a.groups) (groupBytes len a.groups) (some snap) = (u, .ok data)) (r : Route) (port : Nat) :
    sendOp s a d r port = settle (newGroup (noteHanded u a.id) d.dest d.lkey (nextGroup a d) data port r.dmac) := by
  have hgroup : groupData s (nextGroup a d) = (u, .ok data) := by
    simpa [groupData, nextGroup, hkind, opLen] using hdata
  unfold sendOp
  simp only [hkind, hgroup]

/-- GROUP_SEND of an operation that has a group left, over a stream and a port that take it. -/
theorem exec_groupSend_sends {s : State} {dest lkey id port : Nat} {a : AsyncOp} {d : LinkDesc} {r : Route} {x : TxStream}
    (hop : (s.asyncs.find? fun y => y.id = id && opOn dest lkey y && y.err.isNone && !y.queued) = some a) (hlink : opLink a.kind = some d)
    (hroute : routeTo s dest = some r) (hkey : (lkeyOf s lkey).tx ≠ none) (hbudget : (lkeyOf s lkey).budget = false)
    (hx : txOf s dest lkey = some x) (hfailed : x.failed = false) (hleft : a.groups < groupCount (opLen a.kind) (isGet a.kind))
    (hport : choosePort s r lkey x.lastPort = some port) (hroom : unacked x < 256) :
    exec (.groupSend dest lkey (some id)) s = sendOp s a d r port := by
  show execGroupSend dest lkey (some id) s = _
  unfold execGroupSend
  simp [hop, hlink, hroute, hkey, hbudget, hx, hfailed, needTx_of_stream hx, hport, Nat.not_le.mpr hleft, Nat.not_le.mpr hroom]

/-- Group `g` joins its stream as the newest one. -/
def joined (s : State) (dest lkey : Nat) (g : TxGroup) : State :=
  modTx s dest lkey fun t => { t with next := t.next + 1, groups := t.groups ++ [g] }

/-- The stream notes that its group of `seq` was sent at `port`, now. -/
def noteSent (s : State) (dest lkey seq port : Nat) : State :=
  modTx s dest lkey fun t => { t with
    lastPort := port
    groups := t.groups.map fun x => if x.seq = seq then { x with sends := x.sends + 1, last := fclkNow s } else x }

section
variable {s : State} {dest lkey : Nat} {x : TxStream} (hx : txOf s dest lkey = some x)
include hx

theorem newGroup_eq (g : TxGroup) (data : List Byte) (port dmac : Nat) :
    let h := { g with seq := x.next }
    let u := joined s dest lkey h
    newGroup s dest lkey g data port dmac = noteSent (emitGroup u port dmac (groupHead u dest lkey h) data) dest lkey x.next port := by
  unfold newGroup
  rw [hx]
  rfl

/-- The stream after a group has joined it and was noted as sent. -/
theorem txOf_noteSent_joined (g : TxGroup) (port : Nat) : txOf (noteSent (joined s dest lkey g) dest lkey g.seq port) dest lkey = some { x with
    next := x.next + 1
    lastPort := port
    groups := (x.groups ++ [g]).map fun y => if y.seq = g.seq then { y with sends := y.sends + 1, last := fclkNow s } else y } := by
  unfold noteSent joined
  rw [txOf_modTx (fun t => by exact ⟨rfl, rfl⟩), txOf_modTx (fun t => by exact ⟨rfl, rfl⟩), hx]
  rfl

/-- A new group of a stream leaves as frames at the port under the next NCOUNT and SEQ; beside that only the key store and the stream change. -/
theorem newGroup_keyed (hkey : (lkeyOf s lkey).tx ≠ none) (g : TxGroup) (data : List Byte) (port dmac : Nat) :
    ∃ (ks : Ks) (frames : List (List Byte)) (links : Links),
      newGroup s dest lkey g data port dmac = { s with ks := ks, links := links, out := frames.map (.frame port) ++ s.out } ∧
      0 < frames.length ∧ mget 1 (mget LinkKey.zero ks.links lkey).ncount port = mget 1 (lkeyOf s lkey).ncount port + 1 ∧
      ∃ y, (links.tx.find? fun t => t.dest = dest && t.lkey = lkey) = some y ∧ y.next = x.next + 1 ∧ y.lastPort = port ∧
        { g with seq := x.next, sends := g.sends + 1, last := fclkNow s } ∈ y.groups := by
  let h := { g with seq := x.next }
  let u := joined s dest lkey h
  obtain ⟨ks, frames, hsent, hframes, hcount⟩ := emitGroup_keyed (s := u) (h := groupHead u dest lkey h) hkey port dmac data
  have hnew : _ = noteSent (emitGroup u port dmac (groupHead u dest lkey h) data) dest lkey x.next port := newGroup_eq hx g data port dmac
  rw [hsent] at hnew
  exact ⟨ks, frames, _, hnew, hframes ▸ length_frameCuts_pos _, hcount, _, txOf_noteSent_joined hx h port, rfl, rfl, by simp [h]⟩
end

/-! ## LINK_FRAME_RECEIVE (R346, R599) -/

theorem mem_minsert_same {α : Type} (m : List (Nat × α)) (k : Nat) (v : α) : (k, v) ∈ minsert m k v :=
  List.mem_of_find?_eq_some (find?_minsert_same m k v)

/-- A frame from its transport header on joins the gathered frames of its group at port `p`, or is the first of them. -/
def gathered (s : State) (p : Nat) (x : List Byte) : List Gather :=
  let same (g : Gather) : Bool := g.port = p && g.frames.any fun f => sameGroup f.2 x
  if s.links.gather.any same then s.links.gather.map fun g => if same g then { g with frames := minsert g.frames (hFidx x) x } else g
  else s.links.gather ++ [⟨p, [(hFidx x, x)]⟩]

theorem mem_gathered (s : State) (p : Nat) (x : List Byte) : ∃ g ∈ gathered s p x, g.port = p ∧ (hFidx x, x) ∈ g.frames := by
  unfold gathered
  dsimp only
  split
  case isTrue h =>
    obtain ⟨g, hg, hsame⟩ := List.any_eq_true.mp h
    refine ⟨_, List.mem_map_of_mem hg, ?_⟩
    rw [if_pos hsame]
    simp only [Bool.and_eq_true, decide_eq_true_eq] at hsame
    exact ⟨hsame.1, mem_minsert_same ..⟩
  case isFalse => exact ⟨_, List.mem_append_right _ (List.mem_singleton_self _), rfl, List.mem_singleton_self _⟩

/-- What R346 and R599 drop of a frame that arrives at port `p`. -/
def dropsFrame (s : State) (p : Nat) (bad : Bool) (bytes : List Byte) : Bool :=
  bad || bytes.length < 62 || 4174 < bytes.length || 262144 < rxFill s p + 4174 || !(frameOk s p (bytes.drop 14))

/-- A frame at a port that takes frames, in a half out of retention, is dropped and counted or gathered. -/
theorem exec_linkFrameReceive_live {s : State} {p : Nat} (hfenced : s.fc.linkFenced.contains p = false) (hsafe : unitSafe s 3 p = false)
    (hruns : blockRuns s = true) (hhalf : s.ck.halves.contains (s.cfg.halfOfLink p) = false) (bad : Bool) (bytes : List Byte) :
    exec (.linkFrameReceive p bad bytes) s = hereRes (p < s.cfg.linkPorts)
      (if dropsFrame s p bad bytes then modLport s p fun r => { r with drop := satAdd 65535 r.drop 1 }
       else modLinks s fun l => { l with gather := gathered s p (bytes.drop 14) }) := by
  have hawake : awaitHalf s (s.cfg.halfOfLink p) = s := if_neg (by rw [hhalf]; decide)
  show execLinkFrameReceive p bad bytes s = _
  unfold execLinkFrameReceive
  dsimp only
  rw [hawake, hfenced, hsafe, hruns, if_neg (by decide)]
  unfold gathered modLinks dropsFrame
  dsimp only
  congr 2
  split <;> rfl

/-! ## GROUP_VERIFY (R352, R353, R358) -/

/-- The group at place `k` leaves its receive buffer. -/
def withoutGather (s : State) (k : Nat) : State := modLinks s fun l => { l with gather := l.gather.eraseIdx k }

/-- What a gathered group, of transport header `h`, opens to under a receive key. -/
def openGathered (key : Key) (g : Gather) (h : List Byte) : Option (List Byte) :=
  let last := (g.frames.getLast?.map (·.2)).getD []
  gcmOpen key (groupIv (hSrc h) (hSport h) (hNcount h)) (g.frames.map fun f => f.2.take 48).flatten
    (g.frames.map fun f => (f.2.drop 48).take (hFlen f.2)).flatten (blockOfBytes (last.drop (last.length - 16)))

/-- A group that waits, verified, for a step of its own: an ACK, a GET_RSP or an ERR. -/
def ownStep (h : List Byte) : Bool := hType h = 2 || hOp h = 4 || hOp h = 5

/-- What GROUP_VERIFY does, in `u`, with a gathered group of transport header `h`. -/
def verifyGathered (u : State) (g : Gather) (h : List Byte) : State :=
  match (lkeyOf u (hLkey h)).rx with
  | none => modLport u g.port fun p => { p with drop := satAdd 65535 p.drop 1 }
  | some key =>
    match openGathered key g h with
    | none => raise (modLport u g.port fun p => { p with authfail := satAdd 65535 p.authfail 1 }) 17 g.port 0
    | some pt =>
      if ownStep h then modLinks u fun l => { l with verified := l.verified ++ [⟨g.port, h, pt⟩] }
      else underSeq u g.port h fun t => applyGroup t g.port h pt

section
variable {u : State} {g : Gather} {h : List Byte}

theorem verifyGathered_keyless (hrx : (lkeyOf u (hLkey h)).rx = none) :
    verifyGathered u g h = modLport u g.port fun p => { p with drop := satAdd 65535 p.drop 1 } := by
  unfold verifyGathered
  simp only [hrx]

variable {key : Key} (hrx : (lkeyOf u (hLkey h)).rx = some key)
include hrx

theorem verifyGathered_unverified (hopen : openGathered key g h = none) :
    verifyGathered u g h = raise (modLport u g.port fun p => { p with authfail := satAdd 65535 p.authfail 1 }) 17 g.port 0 := by
  unfold verifyGathered
  simp only [hrx, hopen]

variable {pt : List Byte} (hopen : openGathered key g h = some pt)
include hopen

theorem verifyGathered_ownStep (hown : ownStep h = true) :
    verifyGathered u g h = modLinks u fun l => { l with verified := l.verified ++ [⟨g.port, h, pt⟩] } := by
  unfold verifyGathered
  simp only [hrx, hopen, hown, if_true]

theorem verifyGathered_underSeq (hown : ownStep h = false) :
    verifyGathered u g h = underSeq u g.port h fun t => applyGroup t g.port h pt := by
  unfold verifyGathered
  simp only [hrx, hopen, hown, Bool.false_eq_true, if_false]
end

/-- The transport header of a gathered group: that of its first frame. -/
def gatherHead (g : Gather) : List Byte := ((g.frames.head?.map (·.2)).getD []).take 48

theorem exec_groupVerify_whole {s : State} {k : Nat} {g : Gather} (hg : s.links.gather[k]? = some g)
    (hwhole : g.frames.length = hFcnt (gatherHead g)) (hruns : blockRuns s = true)
    (hfirst : ownStep (gatherHead g) = true ∨ ∀ v ∈ s.links.verified, isRsp v.hdr = false) :
    exec (.groupVerify k) s = settle (verifyGathered (withoutGather s k) g (gatherHead g)) := by
  have hmay : (g.frames.length = hFcnt (gatherHead g) && blockRuns s &&
      (ownStep (gatherHead g) || !(s.links.verified.any fun v => isRsp v.hdr))) = true := by
    rcases hfirst with h | h <;> simp_all
  show execGroupVerify k s = _
  unfold execGroupVerify
  simp only [hg]
  exact if_pos hmay

/-- A PUT, RED or GET_REQ group that its window refuses is refused. -/
theorem applyGroup_refused {s : State} {h : List Byte} {sub : Nat}
    (hfault : windowFault s ((s.windows.find? fun x => x.1 = hRwin h).map (·.2)) (hOp h) (hLkey h) (hRoff h) (hOplen h) = some sub)
    (port : Nat) (data : List Byte) : applyGroup s port h data = refuseGroup s (hSrc h) (hLkey h) (hSeq h) sub := by
  unfold applyGroup
  simp only [hfault]

/-! ## ACK_SEND (R354) -/

theorem length_sackBytes (x : RxStream) : (sackBytes x).length = 32 := length_leBytes ..

/-- The header of an acknowledgement of stream `x`. -/
def ackHead (s : State) (src lkey : Nat) (x : RxStream) : GHead := ⟨2, 0, src, s.links.self, lkey, 0, x.cum, 0, 0, 0, 0, 0⟩

theorem exec_ackSend_due {s : State} {src lkey port : Nat} {x : RxStream} {r : Route} (hx : rxOf s src lkey = some x)
    (hroute : routeTo s src = some r) (hport : choosePort s r lkey x.port = some port) (hdue : x.ackDue = true)
    (hkey : (lkeyOf s lkey).tx ≠ none) (hbudget : (lkeyOf s lkey).budget = false) :
    exec (.ackSend src lkey) s = settle (modRx (emitGroup s port r.dmac (ackHead s src lkey x) (sackBytes x)) src lkey
      fun t => { t with ackDue := false, port := port }) := by
  have hmay : (x.ackDue && (lkeyOf s lkey).tx.isSome && !(lkeyOf s lkey).budget) = true := by
    simp [hdue, Option.isSome_iff_ne_none.mpr hkey, hbudget]
  show execAckSend src lkey s = _
  unfold execAckSend
  simp only [hx, hroute, hport]
  exact if_pos hmay

/-- Settles O32: a sent group takes the next NCOUNT and SEQ (`newGroup_keyed`), an arriving frame joins its group (`mem_gathered`), a verified
new group is recorded under its SEQ (`refuseGroup_admitted`), and an acknowledgement is one frame (`emitGroup_keyed`). -/
theorem linkGroupsAreSentGatheredAndVerified : Obligations.LinkGroupsAreSentGatheredAndVerified := by
  unfold Obligations.LinkGroupsAreSentGatheredAndVerified
  refine ⟨?send, ?receive, ?verify, ?ack⟩
  case send =>
    intro dest lkey port a l off len snap r x data s hop hkind hroute hkey hbudget hx hfailed hleft hport hroom b hdata hclear
    obtain ⟨fresh, hread⟩ := boltGroup_frame hdata hclear
    have hmatch := List.find?_some hop
    simp only [Bool.and_eq_true] at hmatch
    obtain ⟨⟨⟨-, hon⟩, -⟩, -⟩ := hmatch
    obtain ⟨hdest, hlkey⟩ : (linkOf l).dest = dest ∧ (linkOf l).lkey = lkey := by simpa [opOn, hkind, opLink] using hon
    have hexec := (exec_groupSend_sends hop (d := linkOf l) (by rw [hkind]; rfl) hroute hkey hbudget hx hfailed (by rw [hkind]; exact hleft)
      hport hroom).trans (sendOp_put hkind (Prod.ext hread hdata) r port)
    rw [hdest, hlkey] at hexec
    obtain ⟨ks, frames, links, hnew, hframes, hcount, y, hy, hnext, hlast, hmem⟩ :=
      newGroup_keyed (s := noteHanded { s with fresh := fresh } a.id) hx hkey (nextGroup a (linkOf l)) data port r.dmac
    rw [hnew] at hexec
    obtain ⟨bytes, rest, rfl⟩ := List.exists_cons_of_length_pos hframes
    exact Ends.of_settle hexec ((congrArg clear hread).symm.trans hclear)
      ⟨⟨bytes, rfl⟩, hcount, ⟨y, _, hy, hnext, hlast, hmem, rfl, rfl, rfl, rfl⟩, rfl, rfl, rfl, rfl⟩
  case receive =>
    intro p bad bytes s drop hport hfenced hsafe hruns hhalf hclear
    have hexec := exec_linkFrameReceive_live hfenced hsafe hruns hhalf bad bytes
    cases hdrop : dropsFrame s p bad bytes with
    | true =>
      rw [hdrop, if_pos rfl] at hexec
      exact Ends.of_here hexec (decide_eq_true hport) hclear ⟨fun _ => rfl, fun h => Bool.noConfusion (hdrop.symm.trans h)⟩
    | false =>
      rw [hdrop, if_neg Bool.false_ne_true] at hexec
      exact Ends.of_here hexec (decide_eq_true hport) hclear
        ⟨fun h => Bool.noConfusion (hdrop.symm.trans h), fun _ => ⟨mem_gathered s p (bytes.drop 14), rfl⟩⟩
  case verify =>
    intro k g s hg h last u opened later hwhole hruns hfirst hclear
    have hlater : ownStep h = true ↔ later := by simp [ownStep, later, or_assoc]
    have hexec : exec (.groupVerify k) s = settle (verifyGathered u g h) := exec_groupVerify_whole hg hwhole hruns (hfirst.imp_left hlater.mpr)
    refine ⟨fun hrx => ?_, fun key hrx => ⟨fun hopen => ?_, fun pt hopen => ⟨fun hl => ?_, fun x hl hx => ?_⟩⟩⟩
    · rw [verifyGathered_keyless (u := u) hrx] at hexec
      exact Ends.of_settle hexec hclear rfl
    · rw [verifyGathered_unverified (u := u) hrx hopen] at hexec
      exact Ends.of_settle hexec ((clear_eq_of_sv (raise_sv ..)).trans hclear) rfl
    · rw [verifyGathered_ownStep (u := u) hrx hopen (hlater.mpr hl)] at hexec
      exact Ends.of_settle hexec hclear rfl
    · rw [verifyGathered_underSeq (u := u) hrx hopen (Bool.eq_false_iff.mpr (mt hlater.mp hl))] at hexec
      replace hx : rxOf u (hSrc h) (hLkey h) = some x := hx
      refine ⟨fun hclass => ?_, fun sub hclass hfault => ?_⟩
      · rw [underSeq_duplicate hx g.port hclass] at hexec
        exact Ends.of_settle hexec ((clear_duplicated ..).trans hclear) rfl
      · obtain ⟨links, hback, hrecord⟩ := refuseGroup_admitted hx g.port sub
        rw [underSeq_new hx g.port hclass, applyGroup_refused (s := admitted u g.port h) hfault, hback] at hexec
        exact Ends.of_settle hexec hclear ⟨hrecord, rfl, rfl, rfl⟩
  case ack =>
    intro src lkey port x r s hx hroute hport hdue hkey hbudget hclear
    have hexec := exec_ackSend_due hx hroute hport hdue hkey hbudget
    obtain ⟨ks, frames, hsent, hframes, hcount⟩ := emitGroup_keyed (h := ackHead s src lkey x) hkey port r.dmac (sackBytes x)
    rw [hsent] at hexec
    rw [length_sackBytes] at hframes
    obtain ⟨bytes, rfl⟩ := List.length_eq_one_iff.mp hframes
    refine Ends.of_settle hexec hclear ⟨⟨bytes, rfl⟩, ⟨{ x with ackDue := false, port := port }, ?_, rfl, rfl, rfl⟩, hcount, rfl, rfl⟩
    rw [rxOf_modRx (fun t => by exact ⟨rfl, rfl⟩)]
    exact congrArg _ hx

end Sys2Proof.Machine
end

section
/-! PROOFS. Acknowledgements, replies, errors and timeouts of links are handled (O33). -/
namespace Sys2Proof.Machine

/-! ## ACK_RECEIVE (R354, R355) -/

/-- A stream after an acknowledgement of every group up to `cum` and of none above. -/
def TxStream.ackedTo (x : TxStream) (cum : Nat) : TxStream :=
  { x with
    cum := cum
    groups := (x.groups.map fun g => if g.seq ≤ cum then { g with acked := true } else g).filter fun g => !(g.acked && forgettable g.src) }

theorem TxStream.acked_of_mem_ackedTo {x : TxStream} {cum : Nat} {g : TxGroup} (hg : g ∈ (x.ackedTo cum).groups) (hseq : g.seq ≤ cum) :
    g.acked = true := by
  obtain ⟨y, -, hy⟩ := List.mem_map.mp (List.mem_filter.mp hg).1
  split at hy
  next => rw [← hy]
  next habove => exact absurd (hy ▸ hseq) habove

theorem TxStream.mem_ackedTo {x : TxStream} {cum : Nat} {g : TxGroup} (hg : g ∈ x.groups) (hseq : cum < g.seq) (hacked : g.acked = false) :
    g ∈ (x.ackedTo cum).groups :=
  List.mem_filter.mpr ⟨List.mem_map.mpr ⟨g, hg, if_neg (Nat.not_le.mpr hseq)⟩, by simp [hacked]⟩

section
variable {k : Nat} {v : VGroup} {s : State} (hv : s.links.verified[k]? = some v) (hack : hType v.hdr = 2)
include hv hack

theorem exec_ackReceive_alone (hx : txOf s (hSrc v.hdr) (hLkey v.hdr) = none) : exec (.ackReceive k) s = settle (withoutVerified s k) := by
  show execAckReceive k s = _
  unfold execAckReceive
  rw [takeVerified_takes hv (by exact decide_eq_true hack) (fun h => by simp [isRsp, hack] at h)]
  simp only [show txOf (withoutVerified s k) (hSrc v.hdr) (hLkey v.hdr) = none from hx]

theorem exec_ackReceive_plain {x : TxStream} (hx : txOf s (hSrc v.hdr) (hLkey v.hdr) = some x) (hcum : x.cum ≤ hSeq v.hdr)
    (hfailed : x.failed = false) (hbits : natOfBytes v.data = 0) : exec (.ackReceive k) s =
      settle (modTx (withoutVerified s k) (hSrc v.hdr) (hLkey v.hdr) fun t => t.ackedTo (hSeq v.hdr)) := by
  show execAckReceive k s = _
  unfold execAckReceive
  rw [takeVerified_takes hv (by exact decide_eq_true hack) (fun h => by simp [isRsp, hack] at h)]
  simp [show txOf (withoutVerified s k) (hSrc v.hdr) (hLkey v.hdr) = some x from hx, Nat.not_lt.mpr hcum, hfailed, hbits, TxStream.ackedTo]
end

/-! ## A verified group under its SEQ (R353) -/

/-- A command that handles a group of a stream under its SEQ: a duplicate is counted, one above the range changes nothing, and of a new one holds
what holds of its effect. -/
theorem Ends.of_underSeq {i : Instr} {s u : State} {port : Nat} {h : List Byte} {f : State → State} {x : RxStream} {P : State → Prop}
    (hexec : exec i s = settle (underSeq u port h fun t => f (groupAck t (hSrc h) (hLkey h) (hSeq h))))
    (hx : rxOf u (hSrc h) (hLkey h) = some x) (hclear : clear u = true) (hnew : clear (f (recorded u port h)) = true)
    (hP : P (f (recorded u port h))) :
    Ends i s fun t => (seqClass x (hSeq h) = 0 → t = duplicated u port h) ∧ (seqClass x (hSeq h) = 2 → t = u) ∧
      (seqClass x (hSeq h) = 1 → P t) := by
  rcases seqClass_cases x (hSeq h) with hclass | hclass | hclass
  · rw [underSeq_duplicate hx port hclass] at hexec
    exact Ends.of_settle hexec ((clear_duplicated ..).trans hclear) ⟨fun _ => rfl, fun h => by omega, fun h => by omega⟩
  · rw [underSeq_new hx port hclass] at hexec
    exact Ends.of_settle hexec hnew ⟨fun h => by omega, fun h => by omega, fun _ => hP⟩
  · rw [underSeq_above hx port hclass] at hexec
    exact Ends.of_settle hexec hclear ⟨fun h => by omega, fun _ => rfl, fun h => by omega⟩

/-! ## GET_RSP_RECEIVE and ERR_RECEIVE (R357, R362, R370) -/

/-- The bytes of a reply go to the Bolt region of the LGET that its tag names, unless that is of another generation. -/
def replyWritten (s : State) (v : VGroup) : State :=
  match (s.links.tags.find? fun t => t.1 = hTag v.hdr).map (·.2) with
  | none => s
  | some t =>
    if (ctxOf s t.ctx).gen ≠ t.gen then s
    else match s.asyncs.find? fun a => a.id = t.id with
      | none => s
      | some a =>
        let s := { s with asyncs := s.asyncs.map fun x => if x.id = a.id then { x with got := sins x.got (hGidx v.hdr) } else x }
        match boltAt s (a.eng / 4) t.ctx t.gen (t.off + 16384 * hGidx v.hdr) v.data.length with
        | none => s
        | some p =>
          let (s, bad) := boltWrite s (a.eng / 4) p v.data
          if bad then opSoft s a.id cPOISON else s

theorem replyWritten_frame (s : State) (v : VGroup) : ∃ clusters asyncs, replyWritten s v = { s with clusters := clusters, asyncs := asyncs } := by
  unfold replyWritten
  dsimp only
  split
  · exact ⟨s.clusters, s.asyncs, rfl⟩
  split
  · exact ⟨s.clusters, s.asyncs, rfl⟩
  split
  · exact ⟨s.clusters, s.asyncs, rfl⟩
  split
  · exact ⟨s.clusters, _, rfl⟩
  split <;> exact ⟨_, _, rfl⟩

theorem clear_replyWritten (s : State) (v : VGroup) : clear (replyWritten s v) = clear s := by
  obtain ⟨clusters, asyncs, h⟩ := replyWritten_frame s v
  rw [h]; rfl

theorem rxOf_replyWritten (s : State) (v : VGroup) (src lkey : Nat) : rxOf (replyWritten s v) src lkey = rxOf s src lkey := by
  obtain ⟨clusters, asyncs, h⟩ := replyWritten_frame s v
  rw [h]; rfl

theorem replyWritten_stale {s : State} {v : VGroup} {g : LTag} (htag : (s.links.tags.find? fun t => t.1 = hTag v.hdr).map (·.2) = some g)
    (hgen : (ctxOf s g.ctx).gen ≠ g.gen) : replyWritten s v = s := by
  unfold replyWritten
  simp only [htag]
  exact if_pos hgen

/-- The operation of the group of SEQ `seq` in a transmit stream. -/
def seqOp (s : State) (dest lkey seq : Nat) : Option Nat :=
  (txOf s dest lkey).bind fun t => (t.groups.find? fun g => g.seq = seq).bind fun g => srcId g.src

/-- The operation that an ERR names ends with the code that it brings (R357). -/
def errNoted (s : State) (v : VGroup) : State :=
  match seqOp s (hSrc v.hdr) (hLkey v.hdr) (hfield v.data 0 6) with
  | some id => opError s id (cADDRESS (hfield v.data 6 1))
  | none => s

theorem errNoted_named {s : State} {v : VGroup} {y : TxStream} {g : TxGroup} {id : Nat} (hy : txOf s (hSrc v.hdr) (hLkey v.hdr) = some y)
    (hg : (y.groups.find? fun g => g.seq = hfield v.data 0 6) = some g) (hid : srcId g.src = some id) :
    errNoted s v = opError s id (cADDRESS (hfield v.data 6 1)) := by
  unfold errNoted seqOp
  simp only [hy, hg, hid, Option.bind_some]

theorem errNoted_frame (s : State) (v : VGroup) : ∃ asyncs, errNoted s v = { s with asyncs := asyncs } := by
  unfold errNoted
  split
  · exact ⟨_, rfl⟩
  · exact ⟨s.asyncs, rfl⟩

theorem clear_errNoted (s : State) (v : VGroup) : clear (errNoted s v) = clear s := by
  obtain ⟨asyncs, h⟩ := errNoted_frame s v
  rw [h]; rfl

theorem rxOf_errNoted (s : State) (v : VGroup) (src lkey : Nat) : rxOf (errNoted s v) src lkey = rxOf s src lkey := by
  obtain ⟨asyncs, h⟩ := errNoted_frame s v
  rw [h]; rfl

theorem exec_getRspReceive_first {k : Nat} {v : VGroup} {s : State} (hv : s.links.verified[k]? = some v) (hrsp : isRsp v.hdr = true)
    (hfirst : ∀ w ∈ s.links.verified.take k, isRsp w.hdr = false) : exec (.getRspReceive k) s =
      settle (underSeq (withoutVerified s k) v.port v.hdr fun t => replyWritten (groupAck t (hSrc v.hdr) (hLkey v.hdr) (hSeq v.hdr)) v) := by
  show execGetRspReceive k s = _
  unfold execGetRspReceive
  rw [takeVerified_takes hv hrsp (fun _ => hfirst)]
  rfl

theorem exec_errReceive_waiting {k : Nat} {v : VGroup} {s : State} (hv : s.links.verified[k]? = some v) (htype : hType v.hdr = 1)
    (hop : hOp v.hdr = 5) : exec (.errReceive k) s =
      settle (underSeq (withoutVerified s k) v.port v.hdr fun t => errNoted (groupAck t (hSrc v.hdr) (hLkey v.hdr) (hSeq v.hdr)) v) := by
  show execErrReceive k s = _
  unfold execErrReceive
  rw [takeVerified_takes hv (by simp [htype, hop]) (fun h => by simp [isRsp, hop] at h)]
  rfl

/-! ## RTO_EXPIRY (R355, R356) -/

/-- A stream's group of `seq` waits, its timer started again now and its sending counted (R364). -/
def noteDue (s : State) (dest lkey seq : Nat) : State :=
  modTx s dest lkey fun t => { t with
    groups := t.groups.map fun x => if x.seq = seq then { x with sends := x.sends + 1, last := fclkNow s } else x }

/-- Without a route a group that is due again waits. -/
theorem resendGroup_unrouted {s : State} {dest : Nat} (hroute : routeTo s dest = none) (lkey : Nat) (g : TxGroup) :
    resendGroup s dest lkey g = noteDue s dest lkey g.seq := by
  unfold resendGroup
  simp only [hroute]
  cases txOf s dest lkey <;> rfl

/-- A stream's group of `seq` may be retransmitted fast again (R355). -/
def fastReopened (s : State) (dest lkey seq : Nat) : State :=
  modTx s dest lkey fun t => { t with groups := t.groups.map fun x => if x.seq = seq then { x with fast := false } else x }

theorem exec_rtoExpiry_due {s : State} {dest lkey seq : Nat} {x : TxStream} {g : TxGroup} (hx : txOf s dest lkey = some x)
    (hg : (x.groups.find? fun g => g.seq = seq && !g.acked) = some g) (hdue : g.last + s.links.rto ≤ fclkNow s) (hruns : blockRuns s = true) :
    exec (.rtoExpiry dest lkey seq) s =
      settle (if max 1 s.links.retry + 1 ≤ g.sends then failStream s dest lkey else resendGroup (fastReopened s dest lkey seq) dest lkey g) := by
  show execRtoExpiry dest lkey seq s = _
  unfold execRtoExpiry
  simp only [hx, hg]
  exact if_pos (by simp [hdue, hruns])

/-- A group that is due and waits is counted and timed in its stream, which has not failed by that. -/
theorem mem_noteDue_fastReopened {s : State} {dest lkey seq : Nat} {x : TxStream} {g : TxGroup} (hx : txOf s dest lkey = some x)
    (hg : g ∈ x.groups) (hseq : g.seq = seq) : ∃ y, txOf (noteDue (fastReopened s dest lkey seq) dest lkey seq) dest lkey = some y ∧
      y.failed = x.failed ∧ { g with fast := false, sends := g.sends + 1, last := fclkNow s } ∈ y.groups := by
  unfold noteDue fastReopened
  rw [txOf_modTx (fun t => by exact ⟨rfl, rfl⟩), txOf_modTx (fun t => by exact ⟨rfl, rfl⟩), hx]
  refine ⟨_, rfl, rfl, ?_⟩
  simp only [List.map_map, List.mem_map]
  exact ⟨g, hg, by simp [hseq]; rfl⟩

/-! ### A failed stream (R356) -/

/-- The operations, of which those on a stream are in error. -/
def failedOps (s : State) (dest lkey : Nat) : List AsyncOp :=
  s.asyncs.map fun a => if opOn dest lkey a && a.err.isNone then { a with err := some (cADDRESS 1) } else a

theorem err_of_mem_failedOps {s : State} {dest lkey : Nat} {a : AsyncOp} (ha : a ∈ failedOps s dest lkey) (hon : opOn dest lkey a = true) :
    a.err ≠ none := by
  obtain ⟨b, -, hb⟩ := List.mem_map.mp ha
  split at hb
  next => rw [← hb]; exact Option.some_ne_none _
  next hnot =>
    subst hb
    simpa [hon] using hnot

theorem failStream_frame (s : State) (dest lkey : Nat) : ∃ stage hops slices, failStream s dest lkey = { s with
    asyncs := failedOps s dest lkey
    links := { s.links with
      stage := stage
      hops := hops
      tx := s.links.tx.map fun t => if t.dest = dest && t.lkey = lkey then { t with failed := true, groups := [], todo := [] } else t }
    ks := { s.ks with slices := slices, links := mmod LinkKey.zero s.ks.links lkey fun k => { k with failed := true } } } := by
  unfold failStream dropStages modTx modLkey reportChanged modKsSlice modLinks
  exact ⟨_, _, _, rfl⟩

/-- Settles O33: what an ACK of plain CUM leaves of a stream (`TxStream.ackedTo`), a reply or an ERR under its SEQ (`Ends.of_underSeq`), and
a group whose RTO has passed, with its stream failed (`failStream_frame`) or waiting (`mem_noteDue_fastReopened`). -/
theorem acknowledgementsRepliesAndTimeoutsAreHandled : Obligations.AcknowledgementsRepliesAndTimeoutsAreHandled := by
  unfold Obligations.AcknowledgementsRepliesAndTimeoutsAreHandled
  refine ⟨?ack, ?reply, ?err, ?rto⟩
  case ack =>
    intro k v s hv hack hclear
    refine ⟨fun hx => Ends.of_settle (exec_ackReceive_alone hv hack hx) hclear rfl, fun x hx hcum hfailed hbits => ?_⟩
    refine Ends.of_settle (exec_ackReceive_plain hv hack hx hcum hfailed hbits) hclear ⟨x.ackedTo (hSeq v.hdr), ?_, rfl, rfl, ?_, ?_⟩
    · rw [txOf_modTx (fun t => by exact ⟨rfl, rfl⟩)]
      exact congrArg _ hx
    · exact fun g hg hseq => TxStream.acked_of_mem_ackedTo hg hseq
    · exact fun g hg hseq hacked => TxStream.mem_ackedTo hg hseq hacked
  case reply =>
    intro k v x s hv htype hop hfirst hclear u hx
    have hexec := exec_getRspReceive_first hv (by simp [isRsp, htype, hop]) hfirst
    refine Ends.of_underSeq (f := (replyWritten · v)) hexec hx hclear
      ((clear_replyWritten ..).trans ((clear_recorded ..).trans hclear))
      ⟨(rxOf_replyWritten ..).trans (rxOf_recorded hx v.port), fun g htag hgen => ?_⟩
    rw [replyWritten_stale (s := recorded u v.port v.hdr) htag hgen]
    exact ⟨rfl, rfl⟩
  case err =>
    intro k v x s hv htype hop hclear u hx
    refine Ends.of_underSeq (f := (errNoted · v)) (exec_errReceive_waiting hv htype hop) hx hclear
      ((clear_errNoted ..).trans ((clear_recorded ..).trans hclear))
      ⟨(rxOf_errNoted ..).trans (rxOf_recorded hx v.port), fun y g id hy hg hid => ?_⟩
    rw [errNoted_named (s := recorded u v.port v.hdr) hy hg hid]
    rfl
  case rto =>
    intro dest lkey seq x g s hx hg hdue hruns hclear
    have hexec := exec_rtoExpiry_due hx hg hdue hruns
    refine ⟨fun hsends => ?_, fun hsends hroute => ?_⟩
    · obtain ⟨stage, hops, slices, hfailed⟩ := failStream_frame s dest lkey
      rw [if_pos hsends, hfailed] at hexec
      refine Ends.of_settle hexec hclear ⟨⟨{ x with failed := true, groups := [], todo := [] }, ?_, rfl, rfl, rfl⟩, ?_, ?_, rfl⟩
      · exact (txOf_modTx (fun t => by exact ⟨rfl, rfl⟩) s dest lkey).trans (congrArg _ hx)
      · simp [lkeyOf]
      · exact fun a ha hon => err_of_mem_failedOps ha hon
    · have hmatch := List.find?_some hg
      simp only [Bool.and_eq_true, decide_eq_true_eq] at hmatch
      obtain ⟨hseq, -⟩ := hmatch
      rw [if_neg (Nat.not_le.mpr hsends), resendGroup_unrouted (s := fastReopened s dest lkey seq) hroute, hseq] at hexec
      obtain ⟨y, hy, hyfailed, hmem⟩ := mem_noteDue_fastReopened hx (List.mem_of_find?_eq_some hg) hseq
      exact Ends.of_settle hexec hclear ⟨⟨y, _, hy, hyfailed, hmem, hseq, rfl, rfl⟩, rfl, rfl⟩

end Sys2Proof.Machine
end

section
/-! PROOFS. A step takes the front of the queue (O1); links, half bridges, routes and regulation windows change (O34). -/
namespace Sys2Proof.Machine

/-- Settles O1: the step's case of a queue that is not empty. -/
theorem stepRunsFrontCommand : Obligations.StepRunsFrontCommand := by
  unfold Obligations.StepRunsFrontCommand
  intro c rest s hqueue
  unfold step
  rw [hqueue]

/-- An event of a unit that the configuration holds has its effect where its condition holds. -/
theorem unitRes_occurs {b c : Bool} {s t : State} (hb : b = true) (hc : c = true) : unitRes b s c t = settle t := by
  rw [unitRes, if_pos hb, guardRes, if_pos hc]

/-! ## BRIDGE_TRANSFER_RECEIVE (R601) -/

/-- What a bridge writes lies beside what an event raises. -/
theorem raise_bridge (s : State) (b : List (Nat × Bridge)) (src inst detail : Nat) :
    raise { s with bridge := b } src inst detail = { raise s src inst detail with bridge := b } := by
  unfold raise
  dsimp only
  split <;> rfl

theorem bridge_raise (s : State) (src inst detail : Nat) : (raise s src inst detail).bridge = s.bridge := by
  unfold raise
  split <;> rfl

/-! ## ROUTE_WRITE (R363) -/

/-- What a write of `v` to word `w` makes of a route. -/
def Route.written (r : Route) (w : Nat) (v : Word) : Route :=
  if w = 0 then ⟨bit v 63, field v 32 16, field v 0 18, r.dmac⟩ else { r with dmac := field v 0 48 }

/-- A route other than `i` is valid and has the destination of `r`. -/
def routeTwice (s : State) (i : Nat) (r : Route) : Bool := r.valid && (s.links.routes.any fun x => x.1 ≠ i && x.2.valid && x.2.dest = r.dest)

theorem putRoute_eq (s : State) (i w : Nat) (v : Word) : putRoute s i w v =
    let r := (mget Route.zero s.links.routes i).written w v
    if routeTwice s i r then s else modLinks s fun l => { l with routes := mset Route.zero l.routes i r } := rfl

/-! ## REGULATION_WINDOW (R376, R377, R383) -/

theorem BwMaster.window_zero : BwMaster.zero.window = BwMaster.zero := by decide

/-- A window leaves a master the requests that waited, at most, and installs a changed budget. -/
theorem BwMaster.window_spec (b : BwMaster) : b.window.used ≤ b.owed ∧ b.window.wentOver = false ∧ b.window.next = none ∧
    ∀ x, b.next = some x → (b.window.valid, b.window.isSealed, b.window.slice, b.window.budget) = x := by
  unfold BwMaster.window
  rcases hnext : b.next with _ | ⟨v, sl, n, x⟩
  · exact ⟨Nat.min_le_left .., rfl, hnext, fun _ => (nomatch ·)⟩
  · refine ⟨(Nat.min_le_left ..).trans ?_, rfl, rfl, fun y hy => Option.some.inj hy⟩
    dsimp only
    split
    · exact Nat.le_refl _
    · exact Nat.zero_le _

/-- Below every key of a list nothing is listed. -/
theorem mget_of_mabove {α : Type} (d : α) {m : List (Nat × α)} {a k : Nat} (h : mabove a m = true) (hk : k ≤ a) : mget d m k = d := by
  induction m with
  | nil => rfl
  | cons e m ih =>
    simp only [mabove, Bool.and_eq_true, decide_eq_true_eq] at h
    obtain ⟨he, hm⟩ := h
    have hne : e.1 ≠ k := by omega
    exact (if_neg hne).trans (ih hm)

/-- Of a table in canonical form every entry is changed, and an unlisted one where `f` leaves the default. -/
theorem mget_mmapAll {α : Type} [DecidableEq α] {d : α} {f : Nat → α → α} {m : List (Nat × α)} (hm : mwf d m = true) (k : Nat) (hd : f k d = d) :
    mget d (mmapAll d f m) k = f k (mget d m k) := by
  induction m with
  | nil => exact hd.symm
  | cons e m ih =>
    obtain ⟨a, v⟩ := e
    simp only [mwf, Bool.and_eq_true] at hm
    obtain ⟨⟨habove, -⟩, hm⟩ := hm
    have htail := ih hm
    unfold mmapAll at htail ⊢
    by_cases hak : a = k
    · subst hak
      rw [mget_of_mabove d habove (Nat.le_refl a), hd] at htail
      by_cases hf : f a v = d <;> simp [hf, mget, htail]
    · by_cases hf : f a v = d <;> simp [hf, mget, hak, htail]

/-- The memory ports' budgets stand above those of engines and links. -/
theorem mget_agentBudgets (l : List Nat) (masters : List (Nat × BwMaster)) {k : Nat} (hk : k < 768) :
    mget BwMaster.zero (l.foldl (fun t m => mmod BwMaster.zero t (768 + m) fun b => { b with valid := true, budget := 160 }) masters) k =
      mget BwMaster.zero masters k :=
  foldl_keeps (fun t => mget BwMaster.zero t k) (fun _ m => mget_mmod_other _ _ _ (by omega)) l masters

/-- Settles O34: each change is the command's effect where its condition holds; a window's budgets are `mget_mmapAll`'s with `BwMaster.window_spec`. -/
theorem linkPortsBridgeRoutesAndWindowsChange : Obligations.LinkPortsBridgeRoutesAndWindowsChange := by
  unfold Obligations.LinkPortsBridgeRoutesAndWindowsChange
  refine ⟨?up, ?bridge, ?d2d, ?route, ?window⟩
  case up =>
    intro p up s hp hup hclear
    exact Ends.of_unit (s := s) rfl (decide_eq_true hp) (decide_eq_true hup) hclear rfl
  case bridge =>
    intro h flit ctl chk freed s hh hhalves hruns hsafe hclear b cred bad
    let moved := mset Bridge.reset s.bridge h ⟨cred - 1, (b.expect + 1) % 65536⟩
    have hexec : ∀ t, (bad → t = { raise s 9 h (field chk 48 16) with bridge := moved }) → (¬ bad → t = { s with bridge := moved }) →
        exec (.bridgeTransferReceive h flit ctl chk freed) s = settle t := by
      intro t htaken hgood
      refine (unitRes_occurs (by simpa [hhalves] using hh) (by simp [hruns, hsafe])).trans (congrArg settle ?_)
      by_cases hbad : bad
      · refine (if_pos ?_).trans ((raise_bridge ..).trans (htaken hbad).symm)
        simp only [Bool.or_eq_true, decide_eq_true_eq, or_assoc]
        exact hbad
      · refine (if_neg ?_).trans (hgood hbad).symm
        simp only [Bool.or_eq_true, decide_eq_true_eq, or_assoc]
        exact hbad
    have hother : ∀ k, k ≠ h → mget Bridge.reset moved k = mget Bridge.reset s.bridge k := fun k hk => mget_mset_other _ _ _ hk
    by_cases hbad : bad
    · refine Ends.of_settle (hexec _ (fun _ => rfl) (absurd hbad)) ((clear_eq_of_sv (raise_sv ..)).trans hclear)
        ⟨mget_mset_same .., hother, absurd hbad, fun _ => ?_⟩
      rw [← bridge_raise s 9 h (field chk 48 16)]
    · exact Ends.of_settle (hexec _ (absurd · hbad) fun _ => rfl) hclear ⟨mget_mset_same .., hother, fun _ => rfl, (absurd · hbad)⟩
  case d2d =>
    intro h s hh hd2d hclear
    exact Ends.of_here (s := s) rfl (by simp [hh, hd2d]) ((clear_eq_of_sv (raise_sv ..)).trans hclear) rfl
  case route =>
    intro path i w v s hreach hi hw hclear old new twice
    obtain ⟨ck, hck⟩ := awake_frame s
    have hnew : new = (mget Route.zero (awake s).links.routes i).written w v := rfl
    have htwice : twice = routeTwice (awake s) i new := by rw [hck]; rfl
    have hexec : exec (.routeWrite path i w v) s = settle (putRoute (awake s) i w v) :=
      (secWriteAt_reach (present := true) hreach (by simp [hi, hw]) _).trans rfl
    rw [putRoute_eq] at hexec
    simp only [← hnew, ← htwice] at hexec
    cases h : twice
    · rw [h] at hexec
      refine Ends.of_settle hexec ((clear_awake s).trans hclear) ⟨(nomatch ·), fun _ => ⟨mget_mset_same .., fun k hk => ?_, ?_⟩⟩
      · rw [hck]; exact mget_mset_other _ _ _ hk
      · rw [hck]; rfl
    · rw [h] at hexec
      exact Ends.of_settle hexec ((clear_awake s).trans hclear) ⟨fun _ => rfl, (nomatch ·)⟩
  case window =>
    intro h s hh hruns hend hclear
    refine Ends.of_unit (s := s) rfl (decide_eq_true hh) (by simp [hruns, hend]) hclear
      ⟨mget_mmod_same 0 s.bw.winAt h (· + 4096), fun hwf k hk => ?_, BwMaster.window_spec, fun a ha hhalf => ?_, rfl⟩
    · refine (mget_agentBudgets _ _ (by omega)).trans ((mget_mmapAll hwf k ?_).trans ?_)
      · split
        · exact BwMaster.window_zero
        · rfl
      · simp only [decide_eq_true_eq]
    · obtain ⟨b, -, rfl⟩ := List.mem_map.mp ha
      by_cases hb : s.cfg.halfOfCluster (b.eng / 4) = h
      · rw [if_pos hb]
      · rw [if_neg hb] at hhalf
        exact absurd hhalf hb

end Sys2Proof.Machine
end

section
/-! PROOFS. Completions of the memory ports and their readiness (O31). -/
namespace Sys2Proof.Machine

@[simp] theorem raise_offMemory (s : State) (src inst detail : Nat) (slice : Option Nat) (inj : Bool) :
    (raise s src inst detail slice inj).offMemory = s.offMemory := by
  unfold raise
  split <;> rfl

/-- A port's record is the memory engines' own. -/
theorem portOf_of_sv {s t : State} (h : t.sv = s.sv) (m : Nat) : portOf t m = portOf s m :=
  congrArg (fun v : Selvage => mget MemPort.reset v.ports m) h

/-! ## MEMORY_COMPLETION (R590, R604) -/

section
variable {s : State} {port sub tag : Nat} {write err : Bool} {data : Beat} (hsub : s.cfg.hasSub port sub = true)
include hsub

/-- What a completion names among the outstanding tags is what it completes. -/
theorem exec_memoryCompletion_hit {g : Tag}
    (hhit : ((portOf s port).tags.find? fun t => tag / 1024 = sub && t.sub = sub && t.num = tag % 1024 && t.write = write) = some g) :
    exec (.memoryCompletion port sub tag write err data) s = settle (completeTag s port sub g err data) ∧ g.num = tag % 1024 ∧ g.write = write := by
  refine ⟨?_, ?_⟩
  · show execMemoryCompletion port sub tag write err data s = _
    unfold execMemoryCompletion hereRes
    rw [if_pos hsub, hhit]
  · have hnamed := List.find?_some hhit
    simp only [Bool.and_eq_true, decide_eq_true_eq] at hnamed
    obtain ⟨⟨-, hnum⟩, hwrite⟩ := hnamed
    exact ⟨hnum, hwrite⟩

theorem exec_memoryCompletion_stray
    (hhit : ((portOf s port).tags.find? fun t => tag / 1024 = sub && t.sub = sub && t.num = tag % 1024 && t.write = write) = none)
    (hleft : (sub, tag % 1024, write) ∉ (portOf s port).left) :
    exec (.memoryCompletion port sub tag write err data) s = settle (badCompletion s port sub) := by
  show execMemoryCompletion port sub tag write err data s = _
  unfold execMemoryCompletion hereRes
  rw [if_pos hsub, hhit]
  dsimp only
  rw [if_neg (by simp [hleft])]
end

/-- An access under the region entry of its translation changes the memory side only, and presents what it presents. -/
theorem underEntry_spec {s u : State} {i : Option Nat} {old : Option Region} {f : State → State} {P : Option Out → Prop}
    (hu : u.offMemory = s.offMemory) (hf : ∀ v : State, (f v).offMemory = v.offMemory ∧ P (presented (f v))) :
    MemoryOnly s (underEntry u i old f) ∧ P (presented (underEntry u i old f)) := by
  unfold underEntry
  split
  next i x =>
    obtain ⟨hmem, hP⟩ := hf { u with regions := minsert u.regions i x }
    refine ⟨memoryOnly_iff.mpr (Eq.trans ?_ hu), hP⟩
    exact congrArg (fun v : State => { v with regions := u.regions }) hmem
  next => exact ⟨memoryOnly_iff.mpr ((hf u).1.trans hu), (hf u).2⟩

/-- The read that waits for the beat answers once it has come. -/
theorem completeTag_read (s : State) (m sub : Nat) {g : Tag} {q : MemReq} (hwrite : g.write = false) (hwait : g.wait = some (.read q)) (err : Bool)
    (data : Beat) : MemoryOnly s (completeTag s m sub g err data) ∧
      ∃ c d, presented (completeTag s m sub g err data) = some (.reply q.attr c d) := by
  unfold completeTag
  simp only [hwrite, hwait, Bool.false_eq_true, if_false]
  refine underEntry_spec (P := fun o => ∃ c d, o = some (.reply q.attr c d)) ?_ fun v => ⟨?_, presented_answer ..⟩
  · cases err <;> rfl
  · exact (answer_offMemory ..).trans (offMemory_of_around (around_of_lasting (svReadFor_lasting ..)))

/-! ## MP_READY_FALL (R591, R592) -/

theorem mpErrAll_offMemory (s : State) (m : Nat) : (mpErrAll s m).offMemory = s.offMemory :=
  foldl_keeps State.offMemory (fun t i => by split <;> simp) (List.range 4) s

/-- Settles O31: a completion is `completeTag` of the tag it names (`exec_memoryCompletion_hit`), whose waiting read answers (`completeTag_read`), or
is counted; a fall of MP_READY changes the level and raises events. -/
theorem portCompletionsAndReadinessChangeThePort : Obligations.PortCompletionsAndReadinessChangeThePort := by
  unfold Obligations.PortCompletionsAndReadinessChangeThePort
  refine ⟨?completion, ?fall, ?rise⟩
  case completion =>
    intro port sub tag write err data s hsub hit
    refine ⟨fun g hhit hw he hclear => ?_, fun g hhit hw he hretried hclear => ?_, fun g q hhit hw hwait hclear => ?_, fun hhit hleft hclear => ?_⟩
    · obtain ⟨hexec, hnum, hwrite⟩ := exec_memoryCompletion_hit (err := err) (data := data) hsub hhit
      have hdrop : completeTag s port sub g err data = dropTag s port sub (tag % 1024) := by simp [completeTag, hwrite, hw, he, hnum]
      rw [hdrop] at hexec
      exact Ends.of_settle hexec hclear rfl
    · subst hw he
      obtain ⟨hexec, hnum, hwrite⟩ := exec_memoryCompletion_hit (err := true) (data := data) hsub hhit
      simp only [completeTag, hwrite, hretried, hnum, errResponse, if_true, Bool.not_true, Bool.not_false, Bool.false_eq_true,
        if_false] at hexec
      refine Ends.of_settle hexec ((clear_eq_of_sv (raise_sv ..)).trans hclear) ?_
      simp only [portOf_of_sv (raise_sv ..), portOf_modPort, raise_sv, true_and]
      rfl
    · obtain ⟨hexec, -, hwrite⟩ := exec_memoryCompletion_hit (err := err) (data := data) hsub hhit
      exact Ends.of_settle hexec hclear (completeTag_read s port sub (hwrite.trans hw) hwait err data)
    · exact Ends.of_settle (exec_memoryCompletion_stray hsub hhit hleft) ((clear_eq_of_sv (raise_sv ..)).trans hclear) rfl
  case fall =>
    intro port s hport hready hclear
    let u := modPort s port fun p => { p with ready := false }
    have hspec : ∀ t : State, t.sv = u.sv → t.offMemory = s.offMemory →
        portOf t port = { portOf s port with ready := false } ∧ (∀ k, k ≠ port → portOf t k = portOf s k) ∧ t.sv.beats = s.sv.beats ∧
          MemoryOnly s t := fun t hsv hmem =>
      ⟨(portOf_of_sv hsv port).trans (portOf_modPort ..), fun k hk => (portOf_of_sv hsv k).trans (portOf_modPort_ne s _ hk),
        (congrArg Selvage.beats hsv).trans rfl, memoryOnly_iff.mpr hmem⟩
    by_cases hlow : (lowPorts u).contains port
    · have hexec : exec (.mpReadyFall port) s = settle (mpErrAll u port) :=
        (unitRes_occurs (decide_eq_true hport) hready).trans (congrArg settle (if_pos hlow))
      exact Ends.of_settle hexec ((clear_eq_of_sv (mpErrAll_sv ..)).trans hclear) (hspec _ (mpErrAll_sv ..) (mpErrAll_offMemory ..))
    · have hexec : exec (.mpReadyFall port) s = settle u :=
        (unitRes_occurs (decide_eq_true hport) hready).trans (congrArg settle (if_neg hlow))
      exact Ends.of_settle hexec hclear (hspec _ rfl rfl)
  case rise =>
    intro port s hport hready hclear
    exact Ends.of_unit (s := s) rfl (decide_eq_true hport) (by simp [hready]) hclear rfl

end Sys2Proof.Machine
end

section
/-! PROOFS. What faults of contexts, teardowns, fences and host port traffic leave alone of the block's control: its pins, life cycle, clock unit and
fault collector. -/
namespace Sys2Proof.Machine

/-- The block's control: the build parameters, the pins, the life-cycle controller, the clock unit but for the governor's queue, and the fault
collector but for the events that wait and what a capture reports. -/
def State.control (s : State) : Cfg × Pins × Lc × Ck × Fc :=
  (s.cfg, s.pins, s.lc, { s.ck with gov := [] }, { s.fc with lines := [], capSeq := 0, capFlags := 0, capBytes := 0 })

theorem control_of_inward {s t : State} (h : t.inward = s.inward) : t.control = s.control := (congrArg State.control h :)
theorem control_of_aside {s t : State} (h : t.aside = s.aside) : t.control = s.control := (congrArg State.control h :)
theorem control_of_besideSlices {s t : State} (h : t.besideSlices = s.besideSlices) : t.control = s.control := (congrArg State.control h :)

/-- A state reached as the first part of an answer. -/
theorem control_of_eq {β : Type} {p : State × β} {s t : State} {b : β} (e : p = (t, b)) (h : p.1.control = s.control) : t.control = s.control := by
  rwa [e] at h

section
variable (s : State)

@[simp] theorem raise_control (src inst detail : Nat) (slice : Option Nat) (inj : Bool) : (raise s src inst detail slice inj).control = s.control :=
  control_of_aside (raise_aside ..)
@[simp] theorem modCtx_control (c : Nat) (f : Ctx → Ctx) : (modCtx s c f).control = s.control := rfl
@[simp] theorem modEng_control (e : Nat) (f : Engine → Engine) : (modEng s e f).control = s.control := rfl
@[simp] theorem modCl_control (k : Nat) (f : Cluster → Cluster) : (modCl s k f).control = s.control := rfl
@[simp] theorem modPort_control (m : Nat) (f : MemPort → MemPort) : (modPort s m f).control = s.control := rfl
@[simp] theorem modTally_control (h : Nat) (f : Tally → Tally) : (modTally s h f).control = s.control := rfl
@[simp] theorem modSlice_control (n : Nat) (f : Slice → Slice) : (modSlice s n f).control = s.control := rfl
@[simp] theorem modQueue_control (q : Nat) (f : Queue → Queue) : (modQueue s q f).control = s.control := rfl
@[simp] theorem modRing_control (p : Nat) (f : PortRing → PortRing) : (modRing s p f).control = s.control := rfl
@[simp] theorem modHport_control (p : Nat) (f : HPort → HPort) : (modHport s p f).control = s.control := rfl
@[simp] theorem modHk_control (p : Nat) (f : HostKeys → HostKeys) : (modHk s p f).control = s.control := rfl
@[simp] theorem modBead_control (b : Nat) (f : Bead → Bead) : (modBead s b f).control = s.control := rfl
@[simp] theorem modLinks_control (f : Links → Links) : (modLinks s f).control = s.control := rfl
@[simp] theorem reportChanged_control (n : Nat) : (reportChanged s n).control = s.control := rfl
@[simp] theorem hostPost_control (p addr : Nat) (bs : List Byte) : (hostPost s p addr bs).control = s.control := control_of_inward (hostPost_inward ..)
@[simp] theorem hostEvent_control (p vec : Nat) : (hostEvent s p vec).control = s.control := control_of_inward (hostEvent_inward ..)
@[simp] theorem ringFetch_control (p : Nat) : (ringFetch s p).control = s.control := control_of_inward (ringFetch_inward ..)
@[simp] theorem refreshSlices_control (old : State) : (refreshSlices old s).control = s.control :=
  control_of_besideSlices (refreshSlices_besideSlices ..)
@[simp] theorem drawBool_control : (drawBool s).1.control = s.control := rfl
@[simp] theorem drbg_control (w : Nat) : (drbg s w).1.control = s.control := rfl

@[simp] theorem writeStatus_control (a : StatusAt) (code result : Nat) : (writeStatus s a code result).control = s.control := by
  unfold writeStatus
  dsimp only
  split <;> split <;> simp

@[simp] theorem finishRing_control (n : Nat) (r : RingId) : (finishRing s n r).control = s.control := by
  cases r with
  | queue => rfl
  | port p => exact (ringFetch_control ..).trans rfl

/-! ## Fences and queues (R437, R441) -/

@[simp] theorem presentWord_control (h off : Nat) : (presentWord s h off).control = s.control := rfl

@[simp] theorem fenceErr_control (f code : Nat) : (fenceErr s f code).control = s.control := by
  unfold fenceErr; split <;> rfl

@[simp] theorem queueErr_control (q code : Nat) : (queueErr s q code).control = s.control := rfl

theorem ringPacket_aside (slice : Nat) (q : Queue) (k : Nat) : (ringPacket s slice q k).1.aside = s.aside := by
  unfold ringPacket
  split <;> rename_i e <;> exact aside_of_eq e (memRead_aside ..)

@[simp] theorem discardPackets_control (slice qn : Nat) (q : Queue) (code : Nat) : (discardPackets s slice qn q code).control = s.control := by
  unfold discardPackets
  dsimp only
  rw [modQueue_control]
  have hpackets : ∀ (t : State) (i : Nat), (match ringPacket t slice q (q.head + b2n q.busy + i) with
      | (t, ws) => match packetSignal ws with
        | some f => fenceErr t f code
        | none => t).control = t.control := fun t i => by
    rcases hread : ringPacket t slice q (q.head + b2n q.busy + i) with ⟨u, ws⟩
    replace hread := control_of_eq hread (control_of_aside (ringPacket_aside ..))
    dsimp only
    split
    · exact (fenceErr_control ..).trans hread
    · exact hread
  split
  · refine (foldl_keeps State.control (fun t m => ?_) _ _).trans (foldl_keeps State.control hpackets _ s)
    split <;> simp
  · exact foldl_keeps State.control hpackets _ s

/-! ## Teardowns and faults (R180, R446) -/

@[simp] theorem tearAdvance_control (c : Nat) : (tearAdvance s c).control = s.control := by
  unfold tearAdvance
  dsimp only
  split
  · split
    · refine (modCtx_control ..).trans (Eq.trans (b := (ite _ s _ : State).control) rfl ?_)
      split
      · rfl
      · refine foldl_keeps State.control (fun t h => foldl_keeps State.control (fun t f => ?_) _ t) _ s
        split <;> simp
    · rfl
  · rfl

@[simp] theorem tearStart_control (c code : Nat) (status : Option StatusAt) (relive : Bool) : (tearStart s c code status relive).control = s.control := by
  unfold tearStart
  dsimp only
  rw [tearAdvance_control]
  exact (foldl_keeps State.control (fun t (q : Nat × Queue) => discardPackets_control t _ _ _ _) _ _).trans rfl

@[simp] theorem markFaulted_control (c fcode : Nat) : (markFaulted s c fcode).control = s.control := by
  unfold markFaulted
  dsimp only
  rw [fenceErr_control]
  exact (foldl_keeps State.control (fun t (q : Nat × Queue) => queueErr_control t _ _) _ _).trans rfl

@[simp] theorem abandonTile_control (e c gen : Nat) : (abandonTile s e c gen).control = s.control := by
  unfold abandonTile
  dsimp only
  split <;> rfl

@[simp] theorem directRecover_control (c : Nat) : (directRecover s c).control = s.control := by
  unfold directRecover
  split <;> simp

@[simp] theorem failCtx_control (c fcode : Nat) : (failCtx s c fcode).control = s.control := by
  unfold failCtx
  dsimp only
  split <;> split <;> simp

@[simp] theorem failEngine_control (e : Nat) : (failEngine s e).control = s.control := by
  unfold failEngine
  split
  · split <;> simp
  · rfl

/-! ## Safe states (R523) -/

@[simp] theorem dropFrames_control (i : Nat) : (dropFrames s i).control = s.control := rfl

@[simp] theorem failCluster_control (k : Nat) : (failCluster s k).control = s.control :=
  foldl_keeps State.control (fun t _ => failEngine_control t _) _ s

@[simp] theorem putBeat_control (m sub phys : Nat) (b : Beat) : (putBeat s m sub phys b).control = s.control := rfl

@[simp] theorem poisonPresented_control (i : Nat) : (poisonPresented s i).control = s.control := by
  unfold poisonPresented
  dsimp only
  repeat' split
  all_goals simp

@[simp] theorem enterSafe_control (k i : Nat) : (enterSafe s k i).control = s.control := by
  unfold enterSafe
  split
  case h_5 => exact foldl_keeps State.control poisonPresented_control _ s
  all_goals simp

end

end Sys2Proof.Machine
end

section
/-! PROOFS. What fences and reactions leave alone of the block's control, and what a block reset makes of the pins, the clock unit, the regions and
the keys. -/
namespace Sys2Proof.Machine

/-- The fault collector but for the events that wait, fences, holds and captures. -/
def Fc.reckoned (f : Fc) : Fc :=
  { f with lines := [], engFenced := [], subFenced := [], linkFenced := [], hostFenced := [], clFenced := [], fencedBy := [], safe := [],
           capSeq := 0, capFlags := 0, capBytes := 0 }

/-- The fault collector but for what events leave in it: the latched bits and the first record too. -/
def Fc.steady (f : Fc) : Fc := { f.reckoned with status := 0, first := default }

/-- The block's control but for the events that wait, fences, holds and captures. -/
def State.reckoned (s : State) : Cfg × Pins × Lc × Ck × Fc := (s.cfg, s.pins, s.lc, { s.ck with gov := [] }, s.fc.reckoned)

/-- The block's control but for what events leave in the fault collector. -/
def State.steady (s : State) : Cfg × Pins × Lc × Ck × Fc := (s.cfg, s.pins, s.lc, { s.ck with gov := [] }, s.fc.steady)

theorem reckoned_of_control {s t : State} (h : t.control = s.control) : t.reckoned = s.reckoned :=
  congrArg (fun x : Cfg × Pins × Lc × Ck × Fc => (x.1, x.2.1, x.2.2.1, x.2.2.2.1, x.2.2.2.2.reckoned)) h

theorem steady_of_reckoned {s t : State} (h : t.reckoned = s.reckoned) : t.steady = s.steady :=
  congrArg (fun x : Cfg × Pins × Lc × Ck × Fc => (x.1, x.2.1, x.2.2.1, x.2.2.2.1, x.2.2.2.2.steady)) h

theorem steady_of_control {s t : State} (h : t.control = s.control) : t.steady = s.steady := steady_of_reckoned (reckoned_of_control h)

/-- The regions, the keys, and whether an access waits. -/
def State.keyed (s : State) : List (Nat × Region) × List (Nat × Kid) × Bool := (s.regions, s.sv.kids, s.sv.stuck)

theorem keyed_of_inward {s t : State} (h : t.inward = s.inward) : t.keyed = s.keyed := (congrArg State.keyed h :)

theorem keyed_of_besideSlices {s t : State} (h : t.besideSlices = s.besideSlices) : t.keyed = s.keyed := (congrArg State.keyed h :)

/-! ## Fences (R525, R630) -/

section
variable (s : State)

@[simp] theorem answer_control (a : Attr) (x : SvRes) : (answer s a x).control = s.control := by
  obtain ⟨es, os, h⟩ := answer_frame s a x
  rw [h]
  rfl

@[simp] theorem failWaiting_control (w : Waiting) : (failWaiting s w).control = s.control := by
  cases w <;> exact answer_control ..

@[simp] theorem checkDone_control (c : Nat) : (checkDone s c).control = s.control := by
  unfold checkDone
  dsimp only
  repeat' split
  all_goals simp

theorem fenceEngine_reckoned (e : Nat) : (fenceEngine s e).reckoned = s.reckoned := by
  unfold fenceEngine
  dsimp only
  refine Eq.trans ?_ (reckoned_of_control (failEngine_control s e))
  split <;> rfl

theorem fenceCluster_reckoned (k : Nat) : (fenceCluster s k).reckoned = s.reckoned := by
  have hframe (t : State) (gov fenced : List Nat) (es : List (Nat × Engine)) :
      ({ t with ck := { t.ck with gov := gov }, engines := es, fc := { t.fc with clFenced := fenced } } : State).reckoned = t.reckoned := rfl
  have hhomes (l : List Nat) (t : State) :
      (l.foldl (fun t c => if (ctxOf t c).state = .live then failCtx t c cFENCED_UNIT else t) t).control = t.control :=
    foldl_keeps State.control (fun t c => by split <;> simp) l t
  have hgone (l : List (Nat × Nat)) (t : State) :
      (l.foldl (fun t o => if (ctxOf t o.1).gen = o.2 then checkDone t o.1 else t) t).control = t.control :=
    foldl_keeps State.control (fun t o => by split <;> simp) l t
  unfold fenceCluster
  dsimp only
  rw [hframe]
  apply reckoned_of_control
  rw [hgone, modCl_control, hhomes, failCluster_control]

theorem fenceSub_reckoned (i : Nat) : (fenceSub s i).reckoned = s.reckoned :=
  (reckoned_of_control (foldl_keeps State.control failWaiting_control _ _)).trans rfl

theorem bounceFenced_control (p : Nat) (b : Bounce) : (bounceFenced s p b).control = s.control := by
  unfold bounceFenced
  repeat' split
  all_goals simp

theorem fwFail_control (op result : Nat) : (fwFail s op result).control = s.control := rfl

theorem fenceHost_reckoned (p : Nat) : (fenceHost s p).reckoned = s.reckoned := by
  have hframe (t : State) (fenced : List Nat) : ({ t with fc := { t.fc with hostFenced := fenced } } : State).reckoned = t.reckoned := rfl
  have hbounce (l : List Bounce) (t : State) : (l.foldl (fun t b => bounceFenced t p b) t).control = t.control :=
    foldl_keeps State.control (fun t b => bounceFenced_control t p b) l t
  have hring : (if (hportOf s p).tags.any fun t => t.reader = .ring then modRing s p fun r => { r with fetchPending := true } else s).control =
      s.control := by split <;> rfl
  unfold fenceHost
  dsimp only
  rw [hframe]
  apply reckoned_of_control
  rw [modHport_control]
  split
  · split
    · rw [fwFail_control, modHk_control, hbounce, hring]
    · rw [modHk_control, hbounce, hring]
  · rw [modHk_control, hbounce, hring]

theorem fenceUnit_reckoned (k i : Nat) : (fenceUnit s k i).reckoned = s.reckoned := by
  unfold fenceUnit
  split
  · exact fenceEngine_reckoned ..
  · exact fenceCluster_reckoned ..
  · rfl
  · exact fenceHost_reckoned ..
  · exact fenceSub_reckoned ..
  · exact foldl_keeps State.reckoned fenceSub_reckoned _ s

theorem fenceBy_reckoned (b k i : Nat) : (fenceBy s b k i).reckoned = s.reckoned :=
  (reckoned_of_control (refreshSlices_control ..)).trans (fenceUnit_reckoned s k i)

theorem fenceBy_steady (b k i : Nat) : (fenceBy s b k i).steady = s.steady := steady_of_reckoned (fenceBy_reckoned s b k i)

/-! ## Reactions (R522, R529) -/

theorem setStatus_steady (bits : Nat) : (setStatus s bits).steady = s.steady := by
  unfold setStatus
  dsimp only
  split
  · split
    · exact (steady_of_control (hostEvent_control ..)).trans rfl
    · rfl
  · rfl

theorem latchEvent_steady (l : ErrLine) (r : Nat) : (latchEvent s l r).steady = s.steady := setStatus_steady _ _

theorem holdUnit_reckoned (b k i : Nat) : (holdUnit s b k i).reckoned = s.reckoned :=
  (reckoned_of_control (enterSafe_control _ k i)).trans rfl

theorem mpErrFence_steady (i detail : Nat) : (mpErrFence s i detail).steady =
    { s with fc := { s.fc with cnt := mmod (0, 0) s.fc.cnt 16 fun x => (satAdd (2 ^ 32 - 1) x.1 1, satAdd 65535 x.2 1) } }.steady :=
  (fenceBy_steady ..).trans (latchEvent_steady ..)

/-! ## Regions and keys -/

theorem setStatus_inward (bits : Nat) : (setStatus s bits).inward =
    { s with fc := { s.fc with status := s.fc.status ||| BitVec.ofNat 64 bits } }.inward := by
  unfold setStatus
  dsimp only
  split
  · split
    · exact hostEvent_inward ..
    · rfl
  · rfl

theorem latchEvent_keyed (l : ErrLine) (r : Nat) : (latchEvent s l r).keyed = s.keyed :=
  (keyed_of_inward (setStatus_inward _ _)).trans rfl

theorem fenceSub_keyed (i : Nat) : (fenceSub s i).keyed = s.keyed := by
  refine (foldl_keeps State.keyed (fun t w => ?_) _ _).trans rfl
  cases w with
  | read r =>
    obtain ⟨es, os, h⟩ := answer_frame t r.attr (.fail cFENCED_UNIT)
    exact (congrArg State.keyed h).trans rfl
  | partialWrite r m d =>
    obtain ⟨es, os, h⟩ := answer_frame t r.attr (.fail cFENCED_UNIT)
    exact (congrArg State.keyed h).trans rfl

theorem refreshSlices_keyed (old : State) : (refreshSlices old s).keyed = s.keyed := keyed_of_besideSlices (refreshSlices_besideSlices ..)

theorem fenceBy_sub_keyed (b i : Nat) : (fenceBy s b 5 i).keyed = s.keyed := by
  have hframe (t : State) (by' : List (Nat × Nat × Nat)) : ({ t with fc := { t.fc with fencedBy := by' } } : State).keyed = t.keyed := rfl
  unfold fenceBy
  dsimp only
  rw [refreshSlices_keyed, hframe]
  exact fenceSub_keyed s i

theorem mpErrFence_keyed (i detail : Nat) : (mpErrFence s i detail).keyed = s.keyed :=
  (fenceBy_sub_keyed ..).trans (latchEvent_keyed ..)

end
end Sys2Proof.Machine
end

section
/-! PROOFS. FC_CMD and the ladder (R533, R539): the copy that takes an operation, the end of operations, and the running steps. -/
namespace Sys2Proof.Machine

/-! ## The running steps -/

section
variable {s t : State}

theorem ladderOf_of_ladder (h : t.fc.ladder = s.fc.ladder) (step target : Nat) : ladderOf t step target = ladderOf s step target := by
  simp only [ladderOf, h]

@[simp] theorem ladderOf_dropLadder (s : State) (step target : Nat) : ladderOf (dropLadder s step target) step target = none := by
  unfold ladderOf dropLadder
  rw [List.find?_eq_none]
  intro l hl
  have h := (List.mem_filter.mp hl).2
  simpa [imp_iff_not_or] using h

theorem ladderOf_pushLadder_same {l : Ladder} (h : ladderOf s l.step l.target = none) : ladderOf (pushLadder s l) l.step l.target = some l := by
  have hnone : s.fc.ladder.find? (fun x => x.step = l.step && x.target = l.target) = none := h
  simp [ladderOf, pushLadder, List.find?_append, hnone]

theorem ladderOf_pushLadder_ne {l : Ladder} {step target : Nat} (h : l.step ≠ step) : ladderOf (pushLadder s l) step target = ladderOf s step target := by
  simp [ladderOf, pushLadder, List.find?_append, h]

theorem ladderOf_pushLadder_isSome {l : Ladder} {step target : Nat} (h : (ladderOf s step target).isSome = true) :
    (ladderOf (pushLadder s l) step target).isSome = true := by
  obtain ⟨x, hx⟩ := Option.isSome_iff_exists.mp h
  have hfind : s.fc.ladder.find? (fun x => x.step = step && x.target = target) = some x := hx
  simp [ladderOf, pushLadder, List.find?_append, hfind]

theorem ladderOf_joinLadder_isSome (s : State) (a b : Nat) (copy : Option Nat) (step target : Nat) :
    (ladderOf (joinLadder s a b copy) step target).isSome = (ladderOf s step target).isSome := by
  unfold ladderOf joinLadder
  dsimp only
  rw [List.find?_map, Option.isSome_map]
  congr 2
  funext l
  dsimp only [Function.comp]
  split <;> rfl

/-! ## The end of operations -/

/-- No operation of FC_CMD waits. -/
def fcIdle (s : State) : Prop := ∀ k ∈ [4, 0, 1, 2, 3], (fcCopyOf s k).cmd = none

theorem fcIdle_of_copies (h : t.fc.copies = s.fc.copies) (hs : fcIdle s) : fcIdle t := by
  simpa only [fcIdle, fcCopyOf, h] using hs

theorem fcEnd_frame (s : State) (copy : Option Nat) (r : Nat) : ∃ cs, fcEnd s copy r = { s with fc := { s.fc with copies := cs } } := by
  cases copy with
  | none => exact ⟨s.fc.copies, rfl⟩
  | some k => exact ⟨_, rfl⟩

theorem fcEnd_cmd (s : State) (copy : Option Nat) (r k : Nat) (h : (fcCopyOf s k).cmd = none) : (fcCopyOf (fcEnd s copy r) k).cmd = none := by
  cases copy with
  | none => exact h
  | some j =>
    by_cases hk : k = j
    · subst hk
      exact congrArg FcCopy.cmd (fcCopyOf_modFcCopy s k _)
    · exact (congrArg FcCopy.cmd (fcCopyOf_modFcCopy_ne s _ hk)).trans h

theorem fcIdle_fcEnd (h : fcIdle s) (copy : Option Nat) (r : Nat) : fcIdle (fcEnd s copy r) := fun k hk => fcEnd_cmd s copy r k (h k hk)

/-- The copy of an operation that ends holds its RESULT. -/
theorem fcCopyOf_fcEnd (s : State) {copy : Option Nat} {k : Nat} (h : copy = some k) (r : Nat) :
    fcCopyOf (fcEnd s copy r) k = { fcCopyOf s k with busy := false, cmd := none, result := r } := by
  subst h
  exact fcCopyOf_modFcCopy s k _

theorem foldl_fcEnd (l : List Ladder) (s : State) (r : Nat) :
    ∃ cs, l.foldl (fun t l => fcEnd t l.copy r) s = { s with fc := { s.fc with copies := cs } } ∧
      ∀ k, (mget FcCopy.zero s.fc.copies k).cmd = none → (mget FcCopy.zero cs k).cmd = none := by
  induction l generalizing s with
  | nil => exact ⟨s.fc.copies, rfl, fun _ h => h⟩
  | cons x l ih =>
    obtain ⟨cs, hcs⟩ := fcEnd_frame s x.copy r
    obtain ⟨ds, hds, hcmd⟩ := ih (fcEnd s x.copy r)
    refine ⟨ds, hds.trans (by rw [hcs]), fun k hk => hcmd k (fcEnd_cmd s x.copy r k hk)⟩

/-- Ending steps changes the ladder, and ends the operations of their copies. -/
theorem endSteps_frame (s : State) (which : Ladder → Bool) (r : Nat) :
    ∃ cs, endSteps s which r = { s with fc := { s.fc with ladder := s.fc.ladder.filter fun l => !(which l), copies := cs } } ∧
      ∀ k, (mget FcCopy.zero s.fc.copies k).cmd = none → (mget FcCopy.zero cs k).cmd = none :=
  foldl_fcEnd (s.fc.ladder.filter which) { s with fc := { s.fc with ladder := s.fc.ladder.filter fun l => !(which l) } } r

/-- Steps that no copy asked for end with no answer. -/
theorem endSteps_unasked (h : ∀ l ∈ s.fc.ladder, l.copy = none) (which : Ladder → Bool) (r : Nat) :
    endSteps s which r = { s with fc := { s.fc with ladder := s.fc.ladder.filter fun l => !(which l) } } := by
  have hfold (ls : List Ladder) (t : State) (hls : ∀ l ∈ ls, l.copy = none) : ls.foldl (fun t l => fcEnd t l.copy r) t = t := by
    induction ls generalizing t with
    | nil => rfl
    | cons l ls ih =>
      rw [List.foldl_cons, hls l (List.mem_cons_self ..)]
      exact ih t fun x hx => hls x (List.mem_cons_of_mem _ hx)
  exact hfold _ _ fun l hl => h l (List.mem_filter.mp hl).1

/-! ## The next operation -/

theorem fcDrive_idle (h : fcIdle s) (n : Nat) : fcDrive n s = s := by
  cases n with
  | zero => rfl
  | succ n =>
    have hfind : [4, 0, 1, 2, 3].find? (fun k => (fcCopyOf s k).cmd.isSome) = none := by
      rw [List.find?_eq_none]
      intro k hk
      simp [h k hk]
    unfold fcDrive
    rw [hfind]
    split <;> rfl

theorem fcDrive_awaited (h : (s.fc.ladder.any fun l => l.copy.isSome) = true) (n : Nat) : fcDrive n s = s := by
  cases n with
  | zero => rfl
  | succ n => exact if_pos h

/-- The state in which the operation written over `path` runs. -/
def fcStarted (path : Path) (op kind target : Nat) (s : State) : State :=
  modFcCopy (fcTaken path op kind target s) (copyKey path) fun c => { c with cmd := none }

variable {path : Path}

/-- A write that finds its copy free starts its operation. -/
theorem fcCmd_free (h : fcFree path s = true) (op kind target : Nat) :
    fcCmd path op kind target s = settle (fcDrive 5 (fcTaken path op kind target s)) := by
  simp only [fcFree, Bool.and_eq_true, Bool.not_eq_true', decide_eq_true_eq] at h
  obtain ⟨⟨⟨⟨⟨⟨hup, hjtag⟩, hopen⟩, -⟩, hbusy⟩, -⟩, -⟩ := h
  obtain ⟨ck, hck⟩ := awake_frame s
  have hopen : lcOpen (awake s) = true := by rw [hck]; exact hopen
  have hbusy : (fcCopyOf (awake s) (copyKey path)).busy = false := by rw [hck]; exact hbusy
  have hcfg : (awake s).cfg = s.cfg := by rw [hck]
  simp only [fcCmd, hup, hjtag, hopen, hbusy, hcfg, fcTaken, Bool.not_true, Bool.false_eq_true, decide_false, Bool.or_self, if_false]

/-- Of a path, the one that FC_CMD holds an operation of. -/
theorem find_taken (h : fcFree path s = true) (op kind target : Nat) :
    [4, 0, 1, 2, 3].find? (fun k => (fcCopyOf (fcTaken path op kind target s) k).cmd.isSome) = some (copyKey path) := by
  simp only [fcFree, Bool.and_eq_true, decide_eq_true_eq] at h
  obtain ⟨⟨⟨⟨-, hkey⟩, -⟩, hcmds⟩, -⟩ := h
  obtain ⟨ck, hck⟩ := awake_frame s
  have hmem : copyKey path ∈ [4, 0, 1, 2, 3] := by
    simp only [List.mem_cons, List.not_mem_nil, or_false]
    omega
  have hown : (fcCopyOf (fcTaken path op kind target s) (copyKey path)).cmd.isSome = true := by simp [fcTaken]
  rcases hfind : [4, 0, 1, 2, 3].find? fun k => (fcCopyOf (fcTaken path op kind target s) k).cmd.isSome with _ | k
  · exact absurd hown (List.find?_eq_none.mp hfind _ hmem)
  · by_cases hk : k = copyKey path
    · rw [hk]
    · have hsome := List.find?_some hfind
      have hnone : (fcCopyOf s k).cmd.isNone = true := List.all_eq_true.mp hcmds k (List.mem_of_find?_eq_some hfind)
      have hsame : fcCopyOf (fcTaken path op kind target s) k = fcCopyOf s k := by
        unfold fcTaken
        rw [fcCopyOf_modFcCopy_ne _ _ hk, hck]
        rfl
      rw [hsame] at hsome
      simp_all

theorem fcDrive_taken (h : fcFree path s = true) (op kind target : Nat) :
    fcDrive 5 (fcTaken path op kind target s) = fcDrive 4 (fcRun (fcTaken path op kind target s) (copyKey path)) := by
  have hfind := find_taken h op kind target
  simp only [fcFree, Bool.and_eq_true] at h
  obtain ⟨-, hladder⟩ := h
  obtain ⟨ck, hck⟩ := awake_frame s
  have hladder : ((fcTaken path op kind target s).fc.ladder.any fun l => l.copy.isSome) = false := by
    rw [fcTaken, hck, List.any_eq_false]
    intro l hl
    simpa using List.all_eq_true.mp hladder l hl
  refine (if_neg (by simp [hladder])).trans ?_
  rw [hfind]

theorem fcTaken_cmd (s : State) (path : Path) (op kind target : Nat) :
    (fcCopyOf (fcTaken path op kind target s) (copyKey path)).cmd = some (op, kind, target, pathSecure s.cfg path) := by
  unfold fcTaken
  rw [fcCopyOf_modFcCopy]

theorem fcStarted_frame (s : State) (path : Path) (op kind target : Nat) :
    ∃ cs, fcStarted path op kind target s = { awake s with fc := { s.fc with copies := cs } } := by
  obtain ⟨ck, hck⟩ := awake_frame s
  unfold fcStarted fcTaken
  rw [hck]
  exact ⟨_, rfl⟩

theorem fcStarted_copy (s : State) (path : Path) (op kind target : Nat) :
    let c := fcCopyOf (fcStarted path op kind target s) (copyKey path)
    c.busy = true ∧ c.lastOp = op ∧ c.cmd = none := by
  unfold fcStarted fcTaken
  rw [fcCopyOf_modFcCopy, fcCopyOf_modFcCopy]
  exact ⟨rfl, rfl, rfl⟩

theorem fcStarted_idle (h : fcFree path s = true) (op kind target : Nat) : fcIdle (fcStarted path op kind target s) := by
  simp only [fcFree, Bool.and_eq_true] at h
  obtain ⟨⟨-, hcmds⟩, -⟩ := h
  obtain ⟨ck, hck⟩ := awake_frame s
  intro k hk
  by_cases hkey : k = copyKey path
  · subst hkey
    exact (fcStarted_copy s path op kind target).2.2
  · have hnone : (fcCopyOf s k).cmd = none := Option.isNone_iff_eq_none.mp (List.all_eq_true.mp hcmds k hk)
    unfold fcStarted fcTaken
    rw [fcCopyOf_modFcCopy_ne _ _ hkey, fcCopyOf_modFcCopy_ne _ _ hkey, hck]
    exact hnone

/-- The operation that a write started ends with a RESULT, whatever ran meanwhile. -/
theorem fcAnswered_fcEnd {v : State} {op kind target : Nat} (h : v.fc.copies = (fcStarted path op kind target s).fc.copies) (r : Nat) :
    fcAnswered path op r (fcEnd v (some (copyKey path)) r) := by
  obtain ⟨-, hop, -⟩ := fcStarted_copy s path op kind target
  have hcopy : fcCopyOf v (copyKey path) = fcCopyOf (fcStarted path op kind target s) (copyKey path) := by simp only [fcCopyOf, h]
  unfold fcAnswered
  rw [fcCopyOf_fcEnd v rfl r, hcopy]
  exact ⟨rfl, hop, rfl⟩

/-- An operation that ends at once changes the collector alone. -/
theorem fcEnd_fcStarted (op kind target : Nat) (copy : Option Nat) (r : Nat) :
    { fcEnd (fcStarted path op kind target s) copy r with fc := s.fc } = awake s := by
  obtain ⟨ds, hds⟩ := fcEnd_frame (fcStarted path op kind target s) copy r
  obtain ⟨cs, hcs⟩ := fcStarted_frame s path op kind target
  obtain ⟨ck, hck⟩ := awake_frame s
  rw [hds, hcs, hck]

end
end Sys2Proof.Machine
end

section
/-! PROOFS. Block resets (R536, R575): what they make of pins, clock unit, collector, regions and keys; and what the reset, emergency and clock pins
change (O58). -/
namespace Sys2Proof.Machine

/-! ## Phases 2 and 3 -/

/-- The pins, the clock unit but for the governor's queue, the collector but for what events leave in it, the regions and the keys. -/
def State.resting (s : State) : Cfg × Pins × Ck × Fc × List (Nat × Region) × List (Nat × Kid) × Bool :=
  (s.cfg, s.pins, { s.ck with gov := [] }, { s.fc.steady with cnt := [] }, s.keyed)

theorem resting_of_steady {s t : State} (h : t.steady = s.steady) (hk : t.keyed = s.keyed) : t.resting = s.resting := by
  have h := congrArg (fun x : Cfg × Pins × Lc × Ck × Fc => (x.1, x.2.1, x.2.2.2.1, { x.2.2.2.2 with cnt := [] })) h
  simp only [Prod.mk.injEq] at h
  obtain ⟨hcfg, hpins, hck, hfc⟩ := h
  exact Prod.ext hcfg (Prod.ext hpins (Prod.ext hck (Prod.ext hfc hk)))

section
variable (s : State)

theorem mpErrFence_resting (i detail : Nat) : (mpErrFence s i detail).resting = s.resting :=
  (resting_of_steady (mpErrFence_steady s i detail) (mpErrFence_keyed s i detail)).trans rfl

theorem fenceReserved_resting : (fenceReserved s).resting = s.resting :=
  foldl_keeps State.resting (fun t m => by
    split
    · exact foldl_keeps State.resting (fun t i => mpErrFence_resting t i _) _ t
    · rfl) _ s

theorem raise_resting (src inst detail : Nat) (slice : Option Nat) : (raise s src inst detail slice).resting = s.resting := by
  obtain ⟨ls, h⟩ := raise_frame s src inst detail slice false
  rw [h]
  rfl

theorem selectRoot_resting : (selectRoot s).1.resting = s.resting := by
  unfold selectRoot
  dsimp only
  repeat' split
  all_goals rfl

theorem drawKeys_resting : (drawKeys s).resting = s.resting := by
  have hroot := selectRoot_resting s
  unfold drawKeys
  generalize selectRoot s = r at hroot ⊢
  obtain ⟨u, root, k⟩ := r
  refine (foldl_keeps State.resting (fun t i => ?_) _ _).trans ?_
  · rfl
  · exact hroot

theorem resetLc_resting : (resetLc s).resting = s.resting := by
  unfold resetLc
  dsimp only
  split
  · exact (raise_resting ..).trans rfl
  · rfl

/-- The state as phase 4 of its block reset begins. -/
def phase4Begun : State := { s with ck := { s.ck with rst := s.ck.rst.map fun r => { r with phase := 4, ready := s.fc.sclk } } }

theorem phase4Begun_resting {s t : State} (h : t.resting = s.resting) : (phase4Begun t).resting = (phase4Begun s).resting :=
  congrArg (fun x : Cfg × Pins × Ck × Fc × List (Nat × Region) × List (Nat × Kid) × Bool =>
    (x.1, x.2.1, { x.2.2.1 with rst := x.2.2.1.rst.map fun r : RstRun => { r with phase := 4, ready := x.2.2.2.1.sclk } }, x.2.2.2)) h

theorem resetPhase3_resting : (resetPhase3 s).resting = (phase4Begun s).resting := by
  have h : (fenceReserved (drawKeys (resetLc s))).resting = s.resting :=
    (fenceReserved_resting _).trans ((drawKeys_resting _).trans (resetLc_resting s))
  have hframe (t : State) (ks : Ks) : ({ t with ks := ks, ck := (phase4Begun t).ck } : State).resting = (phase4Begun t).resting := rfl
  exact (hframe ..).trans (phase4Begun_resting h)

/-- What phases 2 and 3 of a block reset leave of the state. -/
def restartOf (cold : Bool) : Cfg × Pins × Ck × Fc × List (Nat × Region) × List (Nat × Kid) × Bool :=
  let fc := resetFc cold s.fc
  (s.cfg, s.pins, { resetCk cold s.ck with gov := [], rst := some (if s.pins.tamperN then ⟨4, cold, fc.sclk, fc.sclk⟩ else ⟨2, cold, fc.sclk, 0⟩) },
    { fc.steady with cnt := [] }, [], [], false)

/-- Build parameters, pins, clock unit and collector. -/
def State.clocked : Cfg × Pins × Ck × Fc := (s.cfg, s.pins, s.ck, s.fc)

theorem answerHeld_clocked : (answerHeld s).clocked = s.clocked :=
  foldl_keeps State.clocked (fun t _ => foldl_keeps State.clocked (fun u c => by rfl) _ t) _ s

theorem otpStop_clocked : (otpStop s).clocked = s.clocked := by
  unfold otpStop
  split <;> rfl

theorem restartOf_of_clocked {s t : State} (h : t.clocked = s.clocked) (cold : Bool) : restartOf t cold = restartOf s cold := by
  simp only [State.clocked, Prod.mk.injEq] at h
  obtain ⟨hcfg, hpins, hck, hfc⟩ := h
  simp only [restartOf, hcfg, hpins, hck, hfc]

theorem restartOf_of_control {s t : State} (h : t.control = s.control) (cold : Bool) : restartOf t cold = restartOf s cold := by
  simp only [State.control, Prod.mk.injEq] at h
  obtain ⟨hcfg, hpins, -, hck, hfc⟩ := h
  have hck : { resetCk cold t.ck with gov := [], rst := none } = { resetCk cold s.ck with gov := [], rst := none } := by
    cases cold
    · exact congrArg (fun k => { resetCk false k with gov := [], rst := none }) hck
    · exact congrArg (fun k => { resetCk true k with gov := [], rst := none }) hck
  have hsclk : (resetFc cold t.fc).sclk = (resetFc cold s.fc).sclk := by
    cases cold
    · exact (congrArg Fc.sclk hfc :)
    · rfl
  have hfc : { (resetFc cold t.fc).steady with cnt := [] } = { (resetFc cold s.fc).steady with cnt := [] } := by
    cases cold
    · exact congrArg (fun f => { (resetFc false f).steady with cnt := [] }) hfc
    · rfl
  have hck (r : Option RstRun) : { resetCk cold t.ck with gov := [], rst := r } = { resetCk cold s.ck with gov := [], rst := r } :=
    congrArg (fun k : Ck => { k with rst := r }) hck
  unfold restartOf
  dsimp only
  rw [hcfg, hpins, hsclk, hfc, hck]

/-- A block reset runs to the begin of phase 4; while TAMPER_N is low, to the end of phase 2 (R626). -/
theorem resetUnits_resting (cold : Bool) : (resetUnits s cold).resting = restartOf s cold := by
  refine Eq.trans ?_ (restartOf_of_clocked ((answerHeld_clocked _).trans (otpStop_clocked s)) cold)
  have hphase2 : (resetPhase2 s cold).pins = (answerHeld (otpStop s)).pins := rfl
  unfold resetUnits
  dsimp only
  rw [hphase2]
  unfold restartOf
  dsimp only
  cases (answerHeld (otpStop s)).pins.tamperN
  · rfl
  · exact (resetPhase3_resting _).trans rfl

theorem capture_control (cause : Nat) (slices : List Nat) (last : Bool) : (capture s cause slices last).control = s.control := by
  unfold capture
  dsimp only
  split
  · rfl
  · split
    · rfl
    · exact (hostPost_control ..).trans rfl


/-! ## Warm resets (R536) -/

/-- The state in which a warm reset begins: every step has ended, and it is the one that runs. -/
def warmBegun (copy : Option Nat) : State := pushLadder (endSteps s (fun _ => true) 5) ⟨4, 0, s.fc.sclk, copy, []⟩

theorem warmBegun_frame (copy : Option Nat) : ∃ cs, warmBegun s copy = { s with fc := { s.fc with ladder := [⟨4, 0, s.fc.sclk, copy, []⟩], copies := cs } } ∧
    ∀ k, (mget FcCopy.zero s.fc.copies k).cmd = none → (mget FcCopy.zero cs k).cmd = none := by
  obtain ⟨cs, hcs, hcmd⟩ := endSteps_frame s (fun _ => true) 5
  refine ⟨cs, ?_, hcmd⟩
  unfold warmBegun
  rw [hcs]
  simp [pushLadder]

theorem awake_kept : (awake s).pins = s.pins ∧ (awake s).fc = s.fc ∧ (awake s).ck.rst = s.ck.rst ∧ (awake s).ck.warmCount = s.ck.warmCount := by
  unfold awake
  split <;> exact ⟨rfl, rfl, rfl, rfl⟩

/-- A warm reset runs to phase 4, or is held at the end of phase 2; it is counted, and no other step runs. -/
theorem warmReset_spec (cause last : Nat) (copy : Option Nat) :
    let t := warmReset s cause last copy
    t.ck.rst = some (if s.pins.tamperN then ⟨4, false, s.fc.sclk, s.fc.sclk⟩ else ⟨2, false, s.fc.sclk, 0⟩) ∧ t.ck.lastCause = last ∧
      t.ck.warmCount = satAdd (2 ^ 32 - 1) s.ck.warmCount 1 ∧ t.fc.ladder = [⟨4, 0, s.fc.sclk, copy, []⟩] ∧ t.fc.copies = (warmBegun s copy).fc.copies ∧
      clear t = true := by
  obtain ⟨cs, hbegun, -⟩ := warmBegun_frame s copy
  have hsclk : (endSteps s (fun _ => true) 5).fc.sclk = s.fc.sclk := by
    obtain ⟨ds, hds, -⟩ := endSteps_frame s (fun _ => true) 5
    rw [hds]
  let w := warmBegun s copy
  let u := resetUnits (capture w cause (usedSlices w) true) false
  have ht : warmReset s cause last copy =
      { u with ck := { u.ck with warmCount := satAdd (2 ^ 32 - 1) u.ck.warmCount 1, lastCause := last } } := by
    unfold warmReset
    dsimp only
    rw [hsclk]
    rfl
  have hu : u.resting = restartOf w false := (resetUnits_resting _ _).trans (restartOf_of_control (capture_control ..) false)
  generalize u = u at ht hu
  rw [ht, hbegun]
  simp only [w, hbegun] at hu
  simp only [State.resting, restartOf, Prod.mk.injEq] at hu
  obtain ⟨-, -, hck, hfc, hkeyed⟩ := hu
  refine ⟨(congrArg Ck.rst hck :), rfl, ?_, (congrArg Fc.ladder hfc :), (congrArg Fc.copies hfc :), ?_⟩
  · exact congrArg (satAdd (2 ^ 32 - 1) · 1) (congrArg Ck.warmCount hck :)
  · have hstuck : u.sv.stuck = false := (congrArg (fun x : List (Nat × Region) × List (Nat × Kid) × Bool => x.2.2) hkeyed :)
    simp [clear, hstuck]

/-! ## The clock monitor (R563) -/

theorem bit_or_pow (w : Word) {b : Nat} (hb : b < 64) : bit (w ||| BitVec.ofNat 64 (2 ^ b)) b = true := by
  rw [bit, BitVec.getLsbD_or, BitVec.getLsbD_ofNat, Nat.testBit_two_pow_self]
  simp [hb]

theorem setStatus_status (bits : Nat) : (setStatus s bits).fc.status = s.fc.status ||| BitVec.ofNat 64 bits :=
  (congrArg (fun t : State => t.fc.status) (setStatus_inward s bits) :)

theorem latchEvent_status (l : ErrLine) (r : Nat) : (latchEvent s l r).fc.status = s.fc.status ||| BitVec.ofNat 64 (2 ^ l.src) := setStatus_status _ _

/-- A latched event's bit is set. -/
theorem bit_latchEvent (r : Nat) {l : ErrLine} (hl : l.src < 64) : bit (latchEvent s l r).fc.status l.src = true := by
  rw [latchEvent_status]
  exact bit_or_pow _ hl

theorem holdBlock_control : (holdBlock s).control = { s with fc := { s.fc with blockSafe := true } }.control := by
  unfold holdBlock
  split
  case isTrue h =>
    have hfc : { s.fc with blockSafe := true } = s.fc := by rw [← h]
    rw [hfc]
  case isFalse h =>
    dsimp only
    rw [foldl_keeps State.control dropFrames_control, foldl_keeps State.control failEngine_control]

/-- What the clock monitor leaves of the block once ROOTCLK is absent. -/
theorem clockLost_steady : (clockLost s).steady =
    { s with pins := { s.pins with rootclk := 1 }, ck := { s.ck with clkFault := true }, fc := { s.fc with blockSafe := true } }.steady := by
  let u := latchEvent (modPins s fun p => { p with rootclk := 1 }) ⟨34, 0, none, 0, false, s.fc.sclk⟩ 3
  have hu : u.steady = (modPins s fun p => { p with rootclk := 1 }).steady := latchEvent_steady ..
  have hheld : (holdBlock u).steady = { u with fc := { u.fc with blockSafe := true } }.steady := steady_of_control (holdBlock_control u)
  have hheld := congrArg (fun x : Cfg × Pins × Lc × Ck × Fc => (x.1, x.2.1, x.2.2.1, { x.2.2.2.1 with clkFault := true }, x.2.2.2.2)) hheld
  have hu := congrArg (fun x : Cfg × Pins × Lc × Ck × Fc =>
    (x.1, x.2.1, x.2.2.1, { x.2.2.2.1 with clkFault := true }, { x.2.2.2.2 with blockSafe := true })) hu
  exact hheld.trans hu

theorem clockLost_bit : bit (clockLost s).fc.status 34 = true := by
  let u := latchEvent (modPins s fun p => { p with rootclk := 1 }) ⟨34, 0, none, 0, false, s.fc.sclk⟩ 3
  have hheld : (holdBlock u).fc.status = u.fc.status :=
    (congrArg (fun x : Cfg × Pins × Lc × Ck × Fc => x.2.2.2.2.status) (holdBlock_control u) :)
  have hbit : bit u.fc.status 34 = true := bit_latchEvent (l := ⟨34, 0, none, 0, false, s.fc.sclk⟩) _ 3 (Nat.lt_of_sub_eq_succ rfl)
  show bit (holdBlock u).fc.status 34 = true
  rw [hheld, hbit]

/-- With the block safe state held already, the clock monitor leaves regions and keys alone. -/
theorem clockLost_keyed (h : s.fc.blockSafe = true) : (clockLost s).keyed = s.keyed := by
  let u := latchEvent (modPins s fun p => { p with rootclk := 1 }) ⟨34, 0, none, 0, false, s.fc.sclk⟩ 3
  have hsafe : u.fc.blockSafe = true :=
    (congrArg (fun x : Cfg × Pins × Lc × Ck × Fc => x.2.2.2.2.blockSafe) (latchEvent_steady (modPins s fun p => { p with rootclk := 1 }) _ 3) :).trans h
  have hheld : holdBlock u = u := if_pos hsafe
  have hu : u.keyed = s.keyed := (latchEvent_keyed ..).trans rfl
  have hframe (t : State) : (modCk t fun k => { k with clkFault := true }).keyed = t.keyed := rfl
  exact (hframe _).trans ((congrArg State.keyed hheld).trans hu)

/-! ## The emergency pins (R573, R574) -/

theorem builtSlices_nodup : (builtSlices s).Nodup := List.nodup_range.filter _

/-- Each of a list of slices counts. -/
theorem ksSlice_foldl_modKsSlice (f : KSlice → KSlice) {l : List Nat} (hl : l.Nodup) (n : Nat) :
    ksSlice (l.foldl (fun t k => modKsSlice t k f) s) n = if n ∈ l then f (ksSlice s n) else ksSlice s n := by
  have h : (l.foldl (fun t k => modKsSlice t k f) s).ks.slices = l.foldl (fun m k => mmod KSlice.zero m k f) s.ks.slices := by
    clear hl
    induction l generalizing s with
    | nil => rfl
    | cons k l ih => exact ih _
  unfold ksSlice
  rw [h, mget_foldl_mmod KSlice.zero f n l hl]

/-- The state after a fall of THERM_EMRG_N, before the slices' reports count it. -/
def thermFallen : State :=
  { s with pins := { s.pins with thermN := false }, emergQuiet := 0,
           ck := { s.ck with thermEvt := satAdd 65535 s.ck.thermEvt 1, thermHigh := 0, thermLow := if 1000 ≤ s.ck.thermHigh then 0 else s.ck.thermLow } }

/-- The state after a fall of PWR_EMRG_N, before the slices' reports count it. -/
def pwrFallen : State :=
  { s with pins := { s.pins with pwrN := false }, emergQuiet := 0,
           ck := { s.ck with pwrEvt := satAdd 65535 s.ck.pwrEvt 1, pwrHigh := 0, pwrLow := if 1000 ≤ s.ck.pwrHigh then 0 else s.ck.pwrLow } }

/-- Pins, clock unit, and whether an access waits. -/
def State.edges : Pins × Ck × Bool := (s.pins, s.ck, clear s)

theorem foldl_modKsSlice_edges (f : KSlice → KSlice) (l : List Nat) : (l.foldl (fun t k => modKsSlice t k f) s).edges = s.edges :=
  foldl_keeps State.edges (fun _ _ => by rfl) l s

end

/-- Settles O58: what a reset leaves is `resetUnits_resting`'s and `warmReset_spec`'s, what the clock monitor leaves `clockLost_steady`'s. -/
theorem pinsAndClocksChangeTheBlock : Obligations.PinsAndClocksChangeTheBlock := by
  unfold Obligations.PinsAndClocksChangeTheBlock
  refine ⟨?coldFall, ?coldRise, ?warm, ?emergency, ?rootclk, ?opp, ?oppDone⟩
  case coldFall =>
    intro s hcold hclear
    exact Ends.of_guard (s := s) rfl hcold hclear ⟨rfl, rfl, rfl, rfl, rfl, rfl, rfl⟩
  case coldRise =>
    intro s hcold
    let u := resetUnits s true
    let v : State := { u with pins := { u.pins with coldN := true }, ck := { u.ck with lastCause := 1 } }
    have hu : u.resting = restartOf s true := resetUnits_resting s true
    simp only [State.resting, restartOf, State.keyed, Prod.mk.injEq] at hu
    obtain ⟨-, hpins, hck, hfc, hregions, hkids, hstuck⟩ := hu
    have hsafe : v.fc.blockSafe = true := (congrArg Fc.blockSafe hfc :)
    have hrst : v.ck.rst = some ⟨if s.pins.tamperN then 4 else 2, true, 0, 0⟩ := by
      refine (congrArg Ck.rst hck :).trans ?_
      dsimp only
      split <;> rfl
    by_cases hroot : s.pins.rootclk = 1
    · have hlost : v.pins.rootclk = 1 := (congrArg Pins.rootclk hpins :).trans hroot
      have hsteady := clockLost_steady v
      have hkeyed := clockLost_keyed v hsafe
      simp only [State.steady, State.keyed, Prod.mk.injEq] at hsteady hkeyed
      obtain ⟨-, hpins', -, hck', hfc'⟩ := hsteady
      obtain ⟨hregions', hkids', hstuck'⟩ := hkeyed
      refine Ends.of_guard (s := s) (t := clockLost v) (congrArg (guardRes s (!s.pins.coldN)) (if_pos hlost)) (by simp [hcold]) ?_
        ⟨(congrArg Pins.coldN hpins' :), (congrArg Ck.rst hck' :).trans hrst, (congrArg Ck.lastCause hck' :), hregions'.trans hregions,
          hkids'.trans hkids, (congrArg Fc.blockSafe hfc' :), fun _ => (congrArg Ck.clkFault hck' :)⟩
      simp [clear, hstuck'.trans hstuck]
    · have hkept : ¬ v.pins.rootclk = 1 := fun h => hroot ((congrArg Pins.rootclk hpins :).symm.trans h)
      refine Ends.of_guard (s := s) (t := v) (congrArg (guardRes s (!s.pins.coldN)) (if_neg hkept)) (by simp [hcold]) ?_
        ⟨rfl, hrst, rfl, hregions, hkids, hsafe, (absurd · hroot)⟩
      simp [clear, show v.sv.stuck = false from hstuck]
  case warm =>
    intro s hclear
    by_cases hskip : (s.pins.trayPwrReq || s.ck.rst.isSome || s.ck.clkFault || !s.pins.coldN) = true
    · refine Ends.of_settle (t := s) (congrArg settle (if_pos hskip)) hclear ⟨fun _ => rfl, fun htray hrst hfault hc => ?_⟩
      simp [htray, hrst, hfault, hc] at hskip
    · obtain ⟨hpins, hfc, hrst, hcount⟩ := awake_kept s
      have hidle : (awake s).ck.rst.isSome = false := by
        rw [hrst]
        simp only [Bool.or_eq_true, not_or, Bool.not_eq_true] at hskip
        exact hskip.1.1.2
      obtain ⟨hrun, hcause, hwarm, -, -, hends⟩ := warmReset_spec (awake s) 2 2 none
      rw [hpins, hfc] at hrun
      rw [hcount] at hwarm
      have hexec : exec .blkWarmNFall s = settle (warmReset (awake s) 2 2 none) :=
        congrArg settle ((if_neg hskip).trans (if_neg (by simp [hidle])))
      refine Ends.of_settle hexec hends ⟨fun h => absurd ?_ hskip, fun _ _ _ _ => ⟨hrun, hcause, hwarm⟩⟩
      simpa [Option.isSome_iff_ne_none, or_assoc] using h
  case emergency =>
    intro s hclear
    have hnodup := builtSlices_nodup s
    refine ⟨fun h => ?_, fun h => ?_, fun h => ?_, fun h => ?_, fun hunit hpos hduty => ?_⟩
    · exact Ends.of_guard (s := s) rfl (by simp [h]) hclear rfl
    · let u := thermFallen s
      let t := (builtSlices s).foldl (fun t n => modKsSlice t n fun k => { k with therm := k.therm + 1 }) u
      have ht : t.edges = u.edges := foldl_modKsSlice_edges u _ _
      simp only [State.edges, Prod.mk.injEq] at ht
      obtain ⟨hpins, hck, hends⟩ := ht
      refine Ends.of_guard (s := s) (t := t) rfl (by simp [h]) (hends.trans hclear)
        ⟨hpins, (congrArg Ck.thermEvt hck :), (congrArg Ck.pwrEvt hck :), fun n => ?_⟩
      rw [ksSlice_foldl_modKsSlice u _ hnodup n]
      split <;> rfl
    · exact Ends.of_guard (s := s) rfl (by simp [h]) hclear rfl
    · let u := pwrFallen s
      let t := (builtSlices s).foldl (fun t n => modKsSlice t n fun k => { k with power := k.power + 1 }) u
      have ht : t.edges = u.edges := foldl_modKsSlice_edges u _ _
      simp only [State.edges, Prod.mk.injEq] at ht
      obtain ⟨hpins, hck, hends⟩ := ht
      refine Ends.of_guard (s := s) (t := t) rfl (by simp [h]) (hends.trans hclear)
        ⟨hpins, (congrArg Ck.pwrEvt hck :), (congrArg Ck.thermEvt hck :), fun n => ?_⟩
      rw [ksSlice_foldl_modKsSlice u _ hnodup n]
      split <;> rfl
    · exact Ends.of_guard (s := s) rfl (by simp [hunit, hpos, hduty]) hclear rfl
  case rootclk =>
    intro s
    refine ⟨fun hroot hcold hclear => ?_, fun hroot hclear => ?_, fun hroot hclear => ?_⟩
    · have hsteady := clockLost_steady s
      simp only [State.steady, Prod.mk.injEq] at hsteady
      obtain ⟨-, hpins, -, hck, hfc⟩ := hsteady
      have habsent : (clockLost s).pins.rootclk = 1 := (congrArg Pins.rootclk hpins :)
      exact Ends.of_guard (s := s) rfl (by simp [hroot, hcold]) hclear
        ⟨habsent, (congrArg Ck.clkFault hck :), (congrArg Fc.blockSafe hfc :), clockLost_bit s, if_pos habsent⟩
    · let u := modPins s fun p => { p with rootclk := 2 }
      obtain ⟨ls, hls⟩ := raise_frame u 34 0 0 none false
      refine Ends.of_guard (s := s) (t := raise u 34 0 0) rfl (by simp [hroot]) ((clear_eq_of_sv (raise_sv ..)).trans hclear) ⟨?_, ?_, ?_⟩
      · rw [hls]; rfl
      · simpa using raise_waits u 34 0 0 none false
      · rw [hls]; rfl
    · exact Ends.of_guard (s := s) rfl (by simp [hroot]) hclear rfl
  case opp =>
    intro path v s hreach hclear may
    obtain ⟨ck, hck⟩ := awake_frame s
    have hbusy : (awake s).ck.busy = s.ck.busy := by unfold awake; split <;> rfl
    have hends : clear (awake s) = true := (clear_awake s).trans hclear
    have hmay : (((List.range 16).all fun n => (sliceOf (awake s) n).state = .free || (sliceOf (awake s) n).state = .direct) &&
        ((awake s).cfg.engineList.all fun e => engState (engOf (awake s) e) ≠ 3) && decide (field v 0 3 ≤ 5) && !(awake s).ck.busy) = true ↔ may := by
      rw [hbusy, hck]
      simp [may, and_assoc]
      rfl
    by_cases h : may
    · refine Ends.of_settle ((secWrite_reach hreach _).trans (congrArg settle (if_pos (hmay.mpr h)))) hends ⟨fun _ => rfl, (absurd h)⟩
    · exact Ends.of_settle ((secWrite_reach hreach _).trans (congrArg settle (if_neg fun hc => h (hmay.mp hc)))) hends ⟨(absurd · h), fun _ => rfl⟩
  case oppDone =>
    intro s hbusy hrst hclear
    exact Ends.of_guard (s := s) rfl (by simp [hbusy, hrst]) hclear rfl

end Sys2Proof.Machine
end

section
/-! PROOFS. UNFENCE (O55): the unit returned to service, and how the operation is answered. -/
namespace Sys2Proof.Machine

section
variable (s : State)

/-! ## Engine resets (R534) and the block's control -/

theorem engClear_control (e : Nat) : (engClear s e).control = s.control := by
  unfold engClear
  dsimp only
  split
  · split <;> rfl
  · rfl

theorem engineReset_control (e : Nat) : (engineReset s e).control = s.control := by
  unfold engineReset
  dsimp only
  split
  · split
    · exact (engClear_control ..).trans rfl
    · rw [tearAdvance_control, engClear_control]
      split
      · rfl
      · exact (tearStart_control ..).trans rfl
  · exact (engClear_control ..).trans rfl

/-! ## The unit returns to service (R526) -/

/-- The fenced units of a kind of 1 to 4. -/
def unitsFenced (kind : Nat) (u : State) : List Nat :=
  if kind = 1 then u.fc.engFenced else if kind = 2 then u.fc.clFenced else if kind = 3 then u.fc.linkFenced else u.fc.hostFenced

theorem engineCleared_control (e : Nat) :
    (if s.cfg.hasEngine e then modEng (engineReset s e) e fun g => { g with phase := .on } else s).control = s.control := by
  split
  · exact (modEng_control ..).trans (engineReset_control s e)
  · rfl

theorem fc_of_control {s t : State} (h : t.control = s.control) : { t.fc with lines := [], capSeq := 0, capFlags := 0, capBytes := 0 } =
    { s.fc with lines := [], capSeq := 0, capFlags := 0, capBytes := 0 } :=
  congrArg (fun x : Cfg × Pins × Lc × Ck × Fc => x.2.2.2.2) h

/-- A unit that returns to service is fenced no more; no other unit of its kind, and no copy of FC_CMD, changes. -/
theorem unfenceUnit_fenced {kind : Nat} (h1 : 1 ≤ kind) (h4 : kind ≤ 4) (i : Nat) :
    unitsFenced kind (unfenceUnit s kind i) = sdel (unitsFenced kind s) i ∧ (unfenceUnit s kind i).fc.copies = s.fc.copies := by
  obtain rfl | rfl | rfl | rfl : kind = 1 ∨ kind = 2 ∨ kind = 3 ∨ kind = 4 := by omega
  · have h := fc_of_control (engineCleared_control s i)
    exact ⟨congrArg (sdel · i) (congrArg Fc.engFenced h :), (congrArg Fc.copies h :)⟩
  · have h := fc_of_control (foldl_keeps State.control (fun t j => engineCleared_control t (4 * i + j)) (List.range 4) s)
    exact ⟨congrArg (sdel · i) (congrArg Fc.clFenced h :), (congrArg Fc.copies h :)⟩
  · exact ⟨rfl, rfl⟩
  · exact ⟨rfl, rfl⟩

/-! ## The operation (R539, R546) -/

/-- The state in which a unit has returned to service, before its slices follow. -/
def unfenced (kind i : Nat) : State :=
  let t := unfenceUnit s kind i
  { t with fc := { t.fc with fencedBy := t.fc.fencedBy.filter fun f => f.2 ≠ (kind, i) } }

theorem fc_of_besideSlices {s t : State} (h : t.besideSlices = s.besideSlices) : t.fc = s.fc := (congrArg State.fc h :)

theorem refreshSlices_fc (old : State) : (refreshSlices old s).fc = s.fc := fc_of_besideSlices (refreshSlices_besideSlices ..)

/-- The unit is fenced no more, and the copies of FC_CMD are as before. -/
theorem unfenced_spec {kind : Nat} (h1 : 1 ≤ kind) (h4 : kind ≤ 4) (i : Nat) :
    unitsFenced kind (refreshSlices s (unfenced s kind i)) = sdel (unitsFenced kind s) i ∧
      (refreshSlices s (unfenced s kind i)).fc.copies = s.fc.copies := by
  have hfc := refreshSlices_fc (unfenced s kind i) s
  unfold unitsFenced
  rw [hfc]
  exact unfenceUnit_fenced s h1 h4 i

theorem unitsFenced_fcEnd (kind : Nat) (copy : Option Nat) (r : Nat) : unitsFenced kind (fcEnd s copy r) = unitsFenced kind s := by
  obtain ⟨cs, h⟩ := fcEnd_frame s copy r
  rw [h]
  rfl

/-- Without a step of the ladder, UNFENCE of a unit is answered 1 where the unit is not fenced and 4 where a latched source fenced it; otherwise the
unit returns to service. -/
theorem unfence_eq {kind i : Nat} (h1 : 1 ≤ kind) (h4 : kind ≤ 4) (hunit : hasUnit s.cfg kind i = true) (hladder : s.fc.ladder = []) :
    unfence s kind i =
      if (unitsFenced kind s).contains i = false then (s, 1)
      else if s.fc.fencedBy.any (fun f => f.2 = (kind, i) && bit s.fc.status f.1) then (s, 4)
      else (refreshSlices s (unfenced s kind i), 0) := by
  have hpresent : ¬ (!(decide (1 ≤ kind) && decide (kind ≤ 4) && hasUnit s.cfg kind i)) = true := by simp [h1, h4, hunit]
  have hstep : ∃ p : Ladder → Bool, unfence s kind i =
      if (!((unitsFenced kind s).contains i) || s.fc.ladder.any p) = true then (s, 1)
      else if s.fc.fencedBy.any (fun f => f.2 = (kind, i) && bit s.fc.status f.1) then (s, 4)
      else (refreshSlices s (unfenced s kind i), 0) := by
    obtain rfl | rfl | rfl | rfl : kind = 1 ∨ kind = 2 ∨ kind = 3 ∨ kind = 4 := by omega
    all_goals exact ⟨_, if_neg hpresent⟩
  obtain ⟨p, hp⟩ := hstep
  rw [hp, hladder]
  simp only [List.any_nil, Bool.or_false, Bool.not_eq_true']

theorem unfence_absent {kind i : Nat} (h : kind = 0 ∨ 4 < kind ∨ hasUnit s.cfg kind i = false) : unfence s kind i = (s, 3) := by
  refine if_pos ?_
  rcases h with rfl | h | h
  · rfl
  · simp [Nat.not_le.mpr h]
  · simp [h]

/-- Where the block safe state is not held, FC_CMD runs an UNFENCE of the secure world, and answers another 2. -/
theorem fcRun_unfence (path : Path) (kind i : Nat) (hsafe : s.fc.blockSafe = false) :
    let u := fcStarted path 5 kind i s
    fcRun (fcTaken path 5 kind i s) (copyKey path) =
      if pathSecure s.cfg path then fcEnd (unfence u kind i).1 (some (copyKey path)) (unfence u kind i).2 else fcEnd u (some (copyKey path)) 2 := by
  have hsafe : (fcStarted path 5 kind i s).fc.blockSafe = false := by
    obtain ⟨cs, hcs⟩ := fcStarted_frame s path 5 kind i
    rw [hcs]
    exact hsafe
  unfold fcRun
  rw [fcTaken_cmd]
  refine (if_neg (by decide)).trans ((if_neg ?_).trans ?_)
  · simp [show (modFcCopy (fcTaken path 5 kind i s) (copyKey path) fun c => { c with cmd := none }).fc.blockSafe = false from hsafe]
  · cases hsec : pathSecure s.cfg path <;> rfl

end

/-- Settles O55: the operation runs at once, as `unfence_eq` says, and no other waits. -/
theorem unfenceReturnsUnitsToService : Obligations.UnfenceReturnsUnitsToService := by
  unfold Obligations.UnfenceReturnsUnitsToService
  intro path kind i s hfree hladder hsafe hclear fenced
  let u := fcStarted path 5 kind i s
  have hexec : exec (.unfence path kind i) s = settle (fcDrive 5 (fcTaken path 5 kind i s)) := fcCmd_free hfree 5 kind i
  have hidle : fcIdle u := fcStarted_idle hfree 5 kind i
  have hdrive := fcDrive_taken hfree 5 kind i
  rw [fcRun_unfence s path kind i hsafe] at hdrive
  have hanswer (r : Nat) (h : unfence u kind i = (u, r)) (hsec : pathSecure s.cfg path = true) :
      fcDrive 5 (fcTaken path 5 kind i s) = fcEnd u (some (copyKey path)) r := by
    rw [hdrive, if_pos hsec, h]
    exact fcDrive_idle (fcIdle_fcEnd hidle _ _) 4
  obtain ⟨cs, hu⟩ := fcStarted_frame s path 5 kind i
  obtain ⟨ck, hck⟩ := awake_frame s
  have hcfg : u.cfg = s.cfg := by rw [show u = _ from hu, hck]
  refine Ends.of_settle hexec hclear ⟨fun hsec => ?_, fun hsec => ⟨fun habsent => ?_, fun h1 h4 hunit => ?_⟩⟩
  · rw [hdrive, if_neg (by simp [hsec]), fcDrive_idle (fcIdle_fcEnd hidle _ _) 4]
    exact ⟨fcAnswered_fcEnd rfl 2, fcEnd_fcStarted 5 kind i _ 2⟩
  · rw [hanswer 3 (unfence_absent u (by rwa [hcfg])) hsec]
    exact ⟨fcAnswered_fcEnd rfl 3, fcEnd_fcStarted 5 kind i _ 3⟩
  · have hlist : unitsFenced kind u = fenced s := by rw [show u = _ from hu, hck]; rfl
    have hsame : u.fc.fencedBy = s.fc.fencedBy ∧ u.fc.status = s.fc.status ∧ u.fc.ladder = [] := by
      rw [show u = _ from hu]
      exact ⟨rfl, rfl, hladder⟩
    obtain ⟨hby, hstatus, hsteps⟩ := hsame
    have heq := unfence_eq u h1 h4 (by rwa [hcfg]) hsteps
    rw [hlist, hby, hstatus] at heq
    refine ⟨fun hout => ?_, fun hin hlatched => ?_, fun hin hgone => ?_⟩
    · rw [hanswer 1 (heq.trans (if_pos hout)) hsec]
      exact ⟨fcAnswered_fcEnd rfl 1, fcEnd_fcStarted 5 kind i _ 1⟩
    · have hkept : ¬ (fenced s).contains i = false := by rw [hin]; exact Bool.noConfusion
      have hby : s.fc.fencedBy.any (fun f => f.2 = (kind, i) && bit s.fc.status f.1) = true := by
        obtain ⟨f, hf, hunit, hbit⟩ := hlatched
        exact List.any_eq_true.mpr ⟨f, hf, by simp [hunit, hbit]⟩
      rw [hanswer 4 (heq.trans ((if_neg hkept).trans (if_pos hby))) hsec]
      exact ⟨fcAnswered_fcEnd rfl 4, fcEnd_fcStarted 5 kind i _ 4⟩
    · have hkept : ¬ (fenced s).contains i = false := by rw [hin]; exact Bool.noConfusion
      have hby : ¬ s.fc.fencedBy.any (fun f => f.2 = (kind, i) && bit s.fc.status f.1) = true := by
        rw [Bool.not_eq_true, List.any_eq_false]
        intro f hf h
        simp only [Bool.and_eq_true, decide_eq_true_eq] at h
        exact Bool.noConfusion ((hgone f hf h.1).symm.trans h.2)
      have hdone := heq.trans ((if_neg hkept).trans (if_neg hby))
      obtain ⟨hlists, hcopies⟩ := unfenced_spec u h1 h4 i
      let v := refreshSlices u (unfenced u kind i)
      have hdrive : fcDrive 5 (fcTaken path 5 kind i s) = fcEnd v (some (copyKey path)) 0 := by
        rw [hdrive, if_pos hsec, hdone]
        exact fcDrive_idle (fcIdle_fcEnd (fcIdle_of_copies hcopies hidle) _ _) 4
      rw [hdrive]
      exact ⟨fcAnswered_fcEnd hcopies 0, (unitsFenced_fcEnd ..).trans (hlists.trans (by rw [hlist, sdel]))⟩

end Sys2Proof.Machine
end

section
/-! PROOFS. The end of a teardown, stage by stage (R446, R450), and what engine and slice resets leave alone of the block's control (R534, R535). -/
namespace Sys2Proof.Machine

/-! ## Stages of the end of a teardown -/

section
variable (s : State) (c : Nat)

/-- The end of a teardown makes the context LIVE again (R450). -/
def relives : Bool := ((ctxOf s c).tear.map (·.relive)).getD false && directCtx s 0

/-- Cached translations and memory objects of the context's generation `gen` go. -/
def namesGone (gen : Nat) : State :=
  { s with
    atu := s.atu.filter fun a => !(a.ctx = c && a.gen = gen),
    engines := s.engines.map fun e => (e.1, { e.2 with icache := e.2.icache.filter fun k => !(k.2.1 = c && k.2.2 = gen) }),
    memObjs := s.memObjs.filter fun o => !(o.2.ctx = c && o.2.gen = gen) }

/-- Its queues and their rods go. -/
def queuesGone (gen : Nat) : State :=
  let s := (queuesOf s c gen).foldl (fun t q => endRod t q.1) s
  { s with queues := s.queues.filter fun q => !(q.2.ctx = c && q.2.gen = gen) }

/-- Its granules of the Tally memories go, or are zeroed where the context lives again. -/
def granulesGone (relive : Bool) : State :=
  (List.range s.cfg.halves).foldl (fun t h => modTally t h fun y =>
    let a := mget (0, 0) y.alloc c
    if relive then zeroGranules y a.1 a.2 else { y with alloc := mdel y.alloc c }) s

/-- A program launched from a port ring ends. -/
def progGone (x : Ctx) : State :=
  match x.prog with
  | some p => match p.ring with
    | .port _ =>
      let s := match p.status with
        | some at' => writeStatus s at' cTORN_DOWN 0
        | none => s
      finishRing s p.packets p.ring
    | .queue _ => s
  | none => s

/-- The fences of a context that lives again pass to its next generation. -/
def fencesKept (relive : Bool) (gen : Nat) : State :=
  if relive then
    (List.range s.cfg.halves).foldl (fun t h => modTally t h fun y =>
      { y with fences := y.fences.map fun f =>
          if f.2.state ≠ 0 && f.2.ctx = c && f.2.gen = gen && f.2.slice = 0 then (f.1, { f.2 with gen := (gen + 1) % 256 }) else f }) s
  else s

/-- The context under its next generation. -/
def ctxFreed (relive : Bool) (x y : Ctx) : Ctx :=
  if relive then
    { Ctx.zero with state := .live, gen := (x.gen + 1) % 256, ffence := y.ffence, key := y.key, acc := y.acc, lastEnd := y.lastEnd, sched := y.sched }
  else { Ctx.zero with gen := (x.gen + 1) % 256, slice := y.slice, acc := y.acc, ffence := y.ffence }

/-- The packet that asked for the teardown has ended. -/
def tearAnswered (x : Ctx) : State :=
  match x.tear.bind (·.status) with
  | some at' => finishRing (writeStatus s at' 0 0) 1 (.port at'.port)
  | none => s

/-- The state of a torn-down context's end up to the record of the context. -/
def tearReleased : State :=
  let x := ctxOf s c
  fencesKept (progGone (releaseRegions (granulesGone (queuesGone (namesGone s c x.gen) c x.gen) c (relives s c)) c x.gen) x) c (relives s c) x.gen

theorem tearEnd_eq : tearEnd s c =
    tearAnswered (modCtx (reportChanged (tearReleased s c) (ctxOf s c).slice) c (ctxFreed (relives s c) (ctxOf s c))) (ctxOf s c) := rfl

/-! ## The block's control -/

theorem endRod_control (q : Nat) : (endRod s q).control = s.control := by
  unfold endRod
  split
  · dsimp only
    split
    · refine Eq.trans rfl (foldl_keeps State.control (fun t b => ?_) _ s)
      split <;> rfl
    · rfl
  · rfl

theorem releaseRegions_control (gen : Nat) : (releaseRegions s c gen).control = s.control := by
  unfold releaseRegions
  refine foldl_keeps State.control (fun t k => foldl_keeps State.control (fun u i => ?_) _ t) _ s
  dsimp only
  split <;> rfl

theorem queuesGone_control (gen : Nat) : (queuesGone s c gen).control = s.control :=
  (foldl_keeps State.control (fun t (q : Nat × Queue) => endRod_control t q.1) (queuesOf s c gen) s :)

theorem granulesGone_control (relive : Bool) : (granulesGone s c relive).control = s.control :=
  foldl_keeps State.control (fun t h => modTally_control t h _) _ s

theorem progGone_control (x : Ctx) : (progGone s x).control = s.control := by
  unfold progGone
  split
  · split
    · dsimp only
      split <;> simp
    · rfl
  · rfl

theorem fencesKept_control (relive : Bool) (gen : Nat) : (fencesKept s c relive gen).control = s.control := by
  unfold fencesKept
  split
  · exact foldl_keeps State.control (fun t h => modTally_control t h _) _ s
  · rfl

theorem tearAnswered_control (x : Ctx) : (tearAnswered s x).control = s.control := by
  unfold tearAnswered
  split <;> simp

theorem tearEnd_control : (tearEnd s c).control = s.control := by
  rw [tearEnd_eq, tearAnswered_control, modCtx_control, reportChanged_control, tearReleased, fencesKept_control, progGone_control,
    releaseRegions_control, granulesGone_control, queuesGone_control]
  rfl

/-! ## Slice resets (R535) -/

theorem dropStages_control (p : StageKey → Bool) : (dropStages s p).control = s.control := modLinks_control ..

theorem linkForget_control (id : Nat) : (linkForget s id).control = s.control := by
  unfold linkForget
  rw [modLinks_control, dropStages_control]

theorem freeStreams_control (lkey : Nat) : (freeStreams s lkey).control = s.control :=
  (modLinks_control ..).trans ((dropStages_control _ _).trans rfl)

theorem cutOps_control (gen : Nat) : (cutOps s c gen).control = s.control := by
  have hforget (l : List AsyncOp) (t : State) : (l.foldl (fun t a => linkForget t a.id) t).control = t.control :=
    foldl_keeps State.control (fun t (a : AsyncOp) => linkForget_control t a.id) l t
  have hframe (t : State) (as : List AsyncOp) (es : List ReqErr) (cs : List (Nat × Cluster)) :
      ({ t with asyncs := as, reqErrs := es, clusters := cs } : State).control = t.control := rfl
  unfold cutOps
  dsimp only
  rw [hframe, hforget]
  refine foldl_keeps State.control (fun t a => ?_) _ s
  split
  case h_4 =>
    split
    · exact (control_of_aside (moveHupd_aside ..)).trans (drawBool_control t)
    · exact drawBool_control t
  case h_5 => rfl
  all_goals exact control_of_aside (moveAsync_aside ..)

theorem cutCtx_control : (cutCtx s c).control = s.control := by
  unfold cutCtx
  dsimp only
  rw [tearEnd_control, tearAdvance_control, cutOps_control]
  split
  · rfl
  · exact tearStart_control ..

theorem cpStateEnd_control (n : Nat) : (cpStateEnd s n).control = s.control := by
  unfold cpStateEnd
  split
  · split <;> rfl
  · rfl

theorem sliceReset_control (n : Nat) : (sliceReset s n).control = s.control := by
  have hstart (l : List Nat) (t : State) : (l.foldl (fun t c => if (ctxOf t c).state = .tearing then t else
      tearStart t c cTORN_DOWN none (directCtx t n)) t).control = t.control :=
    foldl_keeps State.control (fun t c => by split <;> simp) l t
  have hclear (l : List Nat) (t : State) : (l.foldl engClear t).control = t.control := foldl_keeps State.control engClear_control l t
  have hcut (l : List Nat) (t : State) : (l.foldl cutCtx t).control = t.control := foldl_keeps State.control cutCtx_control l t
  have hbolt (l : List Nat) (t : State) :
      (l.foldl (fun t k => modCl t k fun x => { x with bolt := [], boltBad := [], shuttle := [] }) t).control = t.control :=
    foldl_keeps State.control (fun t k => modCl_control t k _) l t
  have hfree (l : List Nat) (b : Nat) (t : State) : (l.foldl (fun t i => freeStreams t (b + i)) t).control = t.control :=
    foldl_keeps State.control (fun t i => freeStreams_control t _) l t
  unfold sliceReset
  dsimp only
  rw [hfree, hbolt, hcut, hclear, hstart, modSlice_control, capture_control]

end
end Sys2Proof.Machine
end

section
/-! PROOFS. The steps of the ladder (O54): how a step starts, and how each command and timeout ends. -/
namespace Sys2Proof.Machine

section
variable {s t : State}

theorem ladder_of_control (h : t.control = s.control) : t.fc.ladder = s.fc.ladder := (congrArg Fc.ladder (fc_of_control h) :)

theorem copies_of_control (h : t.control = s.control) : t.fc.copies = s.fc.copies := (congrArg Fc.copies (fc_of_control h) :)

theorem fcCopyOf_of_copies (h : t.fc.copies = s.fc.copies) (k : Nat) : fcCopyOf t k = fcCopyOf s k := by simp only [fcCopyOf, h]

/-! ## Engine resets start (R534) -/

theorem engClear_eng (s : State) (e : Nat) : (engOf (engClear s e) e).phase = .resetting ∧ (engOf (engClear s e) e).ctx = none := by
  have h : engOf (engClear s e) e = { Engine.idle with phase := .resetting, removing := (engOf s e).removing, runStart := s.pclk } := by
    unfold engClear
    dsimp only
    split
    · split
      · exact (engOf_modCtx ..).trans (engOf_modEng s e _)
      · exact engOf_modEng s e _
    · exact engOf_modEng s e _
  rw [h]
  exact ⟨rfl, rfl⟩

/-- An engine that is reset is in reset, and runs no context. -/
theorem engineReset_eng (s : State) (e : Nat) : (engOf (engineReset s e) e).phase = .resetting ∧ (engOf (engineReset s e) e).ctx = none := by
  have hstand (u : State) (c : Nat) : (engOf (tearAdvance u c) e).phase = (engOf u e).phase ∧ (engOf (tearAdvance u c) e).ctx = (engOf u e).ctx := by
    have h := congrFun (congrArg (fun x : List (Nat × Region) × List (Nat × Slice) × (Nat → Engine) => x.2.2) (tearAdvance_standing u c)) e
    exact ⟨(congrArg Engine.phase h :), (congrArg Engine.ctx h :)⟩
  unfold engineReset
  dsimp only
  split
  · split
    · exact engClear_eng ..
    · rw [(hstand _ _).1, (hstand _ _).2]
      exact engClear_eng ..
  · exact engClear_eng ..

theorem startEngineReset_new {e : Nat} (h : ladderOf s 2 e = none) (copy : Option Nat) :
    startEngineReset s e copy = engineReset (pushLadder s ⟨2, e, s.fc.sclk, copy, []⟩) e := if_neg (by simp [h])

theorem startEngineReset_step (s : State) (e : Nat) (copy : Option Nat) : (ladderOf (startEngineReset s e copy) 2 e).isSome = true := by
  rcases h : ladderOf s 2 e with _ | l
  · rw [startEngineReset_new h, ladderOf_of_ladder (ladder_of_control (engineReset_control ..))]
    exact Option.isSome_iff_exists.mpr ⟨_, ladderOf_pushLadder_same (l := ⟨2, e, s.fc.sclk, copy, []⟩) h⟩
  · rw [startEngineReset, if_pos (by simp [h]), ladderOf_joinLadder_isSome, h]
    rfl

/-- The steps that run keep running as an engine reset starts. -/
theorem startEngineReset_keeps {step target : Nat} (h : (ladderOf s step target).isSome = true) (e : Nat) (copy : Option Nat) :
    (ladderOf (startEngineReset s e copy) step target).isSome = true := by
  unfold startEngineReset
  split
  · rwa [ladderOf_joinLadder_isSome]
  · rw [ladderOf_of_ladder (ladder_of_control (engineReset_control ..))]
    exact ladderOf_pushLadder_isSome h

/-! ## Slice resets start (R535) -/

/-- The state in which a slice reset begins: the engine resets of the slice have ended, and it runs. -/
def sliceBegun (s : State) (n : Nat) (copy : Option Nat) : State :=
  pushLadder (endSteps s (fun l => l.step = 2 && dHasEngine (descOf s n) l.target) 5) ⟨3, n, s.fc.sclk, copy, dEngines (descOf s n)⟩

theorem sliceBegun_frame (s : State) (n : Nat) (copy : Option Nat) : ∃ cs, sliceBegun s n copy = { s with fc := { s.fc with
      ladder := (s.fc.ladder.filter fun l => !(l.step = 2 && dHasEngine (descOf s n) l.target)) ++ [⟨3, n, s.fc.sclk, copy, dEngines (descOf s n)⟩],
      copies := cs } } ∧
    ∀ k, (mget FcCopy.zero s.fc.copies k).cmd = none → (mget FcCopy.zero cs k).cmd = none := by
  obtain ⟨cs, hcs, hcmd⟩ := endSteps_frame s (fun l => l.step = 2 && dHasEngine (descOf s n) l.target) 5
  refine ⟨cs, ?_, hcmd⟩
  unfold sliceBegun
  rw [hcs]
  rfl

theorem startSliceReset_new {n : Nat} (h : ladderOf s 3 n = none) (copy : Option Nat) :
    startSliceReset s n copy = cpStateEnd (sliceReset (sliceBegun s n copy) n) n := by
  obtain ⟨cs, hcs, -⟩ := endSteps_frame s (fun l => l.step = 2 && dHasEngine (descOf s n) l.target) 5
  refine (if_neg (by simp [h])).trans ?_
  unfold sliceBegun
  dsimp only
  rw [hcs]

theorem startSliceReset_control {n : Nat} (h : ladderOf s 3 n = none) (copy : Option Nat) :
    (startSliceReset s n copy).control = (sliceBegun s n copy).control := by
  rw [startSliceReset_new h, cpStateEnd_control, sliceReset_control]

theorem ladderOf_filter {which : Ladder → Bool} {step target : Nat} (h : ∀ l : Ladder, l.step = step → l.target = target → which l = true)
    (ls : List Ladder) :
    (ls.filter which).find? (fun l => l.step = step && l.target = target) = ls.find? fun l => l.step = step && l.target = target := by
  rw [List.find?_filter]
  congr 1
  funext l
  by_cases hl : l.step = step ∧ l.target = target
  · simp [hl.1, hl.2, h l hl.1 hl.2]
  · simp_all

/-- A slice reset that no earlier one joins runs under its own record. -/
theorem startSliceReset_ladder {n : Nat} (h : ladderOf s 3 n = none) (copy : Option Nat) :
    ladderOf (startSliceReset s n copy) 3 n = some ⟨3, n, s.fc.sclk, copy, dEngines (descOf s n)⟩ := by
  obtain ⟨cs, hbegun, -⟩ := sliceBegun_frame s n copy
  rw [ladderOf_of_ladder (ladder_of_control (startSliceReset_control h copy)), hbegun]
  have hnone := ladderOf_filter (which := fun l => !(l.step = 2 && dHasEngine (descOf s n) l.target)) (step := 3) (target := n)
    (fun l hl _ => by simp [hl]) s.fc.ladder
  have h : s.fc.ladder.find? (fun l => l.step = 3 && l.target = n) = none := h
  rw [ladderOf, List.find?_append, hnone, h]
  simp

theorem startSliceReset_step (s : State) (n : Nat) (copy : Option Nat) : (ladderOf (startSliceReset s n copy) 3 n).isSome = true := by
  rcases h : ladderOf s 3 n with _ | l
  · rw [startSliceReset_ladder h]
    rfl
  · rw [startSliceReset, if_pos (by simp [h]), ladderOf_joinLadder_isSome, h]
    rfl

/-- No engine reset starts with a slice reset. -/
theorem startSliceReset_engines {e : Nat} (h : ladderOf s 2 e = none) (n : Nat) (copy : Option Nat) :
    ladderOf (startSliceReset s n copy) 2 e = none := by
  rcases hn : ladderOf s 3 n with _ | l
  · obtain ⟨cs, hbegun, -⟩ := sliceBegun_frame s n copy
    rw [ladderOf_of_ladder (ladder_of_control (startSliceReset_control hn copy)), hbegun]
    have h := List.find?_eq_none.mp h
    refine List.find?_eq_none.mpr fun l hl => ?_
    rcases List.mem_append.mp hl with hl | hl
    · exact h l (List.mem_filter.mp hl).1
    · simp [List.mem_singleton.mp hl]
  · rw [startSliceReset, if_pos (by simp [hn]), ← Option.not_isSome_iff_eq_none, ladderOf_joinLadder_isSome, h]
    simp

theorem startSliceReset_idle (h : fcIdle s) (n : Nat) (copy : Option Nat) : fcIdle (startSliceReset s n copy) := by
  rcases hn : ladderOf s 3 n with _ | l
  · obtain ⟨cs, hbegun, hcmd⟩ := sliceBegun_frame s n copy
    have hcopies : (startSliceReset s n copy).fc.copies = cs := (copies_of_control (startSliceReset_control hn copy)).trans (by rw [hbegun])
    intro k hk
    rw [fcCopyOf, hcopies]
    exact hcmd k (h k hk)
  · rw [startSliceReset, if_pos (by simp [hn])]
    exact fcIdle_of_copies rfl h

/-! ## Warm resets start (R536) -/

theorem startWarmReset_idle (h : fcIdle s) (cause last : Nat) (copy : Option Nat) : fcIdle (startWarmReset s cause last copy) := by
  unfold startWarmReset
  split
  · exact fcIdle_of_copies rfl h
  · obtain ⟨-, -, -, -, hcopies, -⟩ := warmReset_spec s cause last copy
    obtain ⟨cs, hbegun, hcmd⟩ := warmBegun_frame s copy
    intro k hk
    rw [fcCopyOf, hcopies, hbegun]
    exact hcmd k (h k hk)

/-- No lower step starts with a warm reset. -/
theorem startWarmReset_lower {step target : Nat} (hstep : step ≠ 4) (h : ladderOf s step target = none) (cause last : Nat) (copy : Option Nat) :
    ladderOf (startWarmReset s cause last copy) step target = none := by
  unfold startWarmReset
  split
  · rw [← Option.not_isSome_iff_eq_none, ladderOf_joinLadder_isSome, h]
    simp
  · obtain ⟨-, -, -, hladder, -, -⟩ := warmReset_spec s cause last copy
    rw [ladderOf, hladder]
    simp [Ne.symm hstep]

theorem clear_startWarmReset (h : clear s = true) (cause last : Nat) (copy : Option Nat) : clear (startWarmReset s cause last copy) = true := by
  unfold startWarmReset
  split
  · exact h
  · obtain ⟨-, -, -, -, -, hends⟩ := warmReset_spec s cause last copy
    exact hends

/-! ## Memory ports that are not ready (R537) -/

theorem fenceSub_fc (s : State) (i : Nat) : (fenceSub s i).fc = { s.fc with subFenced := sins s.fc.subFenced i } := by
  refine (foldl_keeps State.fc (fun t w => ?_) _ _).trans rfl
  cases w with
  | read r =>
    obtain ⟨es, os, h⟩ := answer_frame t r.attr (.fail cFENCED_UNIT)
    exact (congrArg State.fc h :)
  | partialWrite r m d =>
    obtain ⟨es, os, h⟩ := answer_frame t r.attr (.fail cFENCED_UNIT)
    exact (congrArg State.fc h :)

theorem latchEvent_fc (s : State) (l : ErrLine) (r : Nat) :
    ∃ first, (latchEvent s l r).fc = { s.fc with first := first, status := s.fc.status ||| BitVec.ofNat 64 (2 ^ l.src) } :=
  ⟨_, (congrArg State.fc (setStatus_inward _ _) :)⟩

theorem fenceBy_sub_fc (s : State) (b i : Nat) :
    (fenceBy s b 5 i).fc = { s.fc with subFenced := sins s.fc.subFenced i, fencedBy := s.fc.fencedBy ++ [(b, 5, i)] } :=
  (refreshSlices_fc _ _).trans (congrArg (fun f : Fc => { f with fencedBy := f.fencedBy ++ [(b, 5, i)] }) (fenceSub_fc s i))

/-- MP_ERR is latched, and the sub-channel fenced. -/
theorem mpErrFence_fc (s : State) (i detail : Nat) :
    (mpErrFence s i detail).fc.subFenced = sins s.fc.subFenced i ∧
      (mpErrFence s i detail).fc.status = s.fc.status ||| BitVec.ofNat 64 (2 ^ 16) := by
  let l : ErrLine := ⟨16, i, none, detail, false, s.fc.sclk⟩
  let v : State := { s with fc := { s.fc with cnt := mmod (0, 0) s.fc.cnt 16 fun x => (satAdd (2 ^ 32 - 1) x.1 1, satAdd 65535 x.2 1) } }
  have hfence : (mpErrFence s i detail).fc = _ := fenceBy_sub_fc (latchEvent v l 2) 16 i
  obtain ⟨first, hlatch⟩ := latchEvent_fc v l 2
  rw [hlatch] at hfence
  rw [hfence]
  exact ⟨rfl, rfl⟩

/-- The sub-channels of a list are fenced one after the other; a first one latches MP_ERR. -/
theorem foldl_mpErrFence {l : List Nat} {s t : State} (h : l.foldl (fun t i => mpErrFence t i 0) s = t) :
    t.resting = s.resting ∧ (∀ i, i ∈ s.fc.subFenced ∨ i ∈ l → i ∈ t.fc.subFenced) ∧
      (l ≠ [] ∨ bit s.fc.status 16 = true → bit t.fc.status 16 = true) := by
  induction l generalizing s with
  | nil =>
    subst h
    exact ⟨rfl, fun i hi => hi.resolve_right (nomatch ·), fun h => h.resolve_left (· rfl)⟩
  | cons i l ih =>
    rw [List.foldl_cons] at h
    obtain ⟨hrest, hsubs, hbit⟩ := ih h
    obtain ⟨hfenced, hstatus⟩ := mpErrFence_fc s i 0
    have hlatched : bit (mpErrFence s i 0).fc.status 16 = true := by
      rw [hstatus]
      exact bit_or_pow _ (by decide)
    refine ⟨hrest.trans (mpErrFence_resting ..), fun j hj => hsubs j ?_, fun _ => hbit (.inr hlatched)⟩
    rw [hfenced, mem_sins]
    simpa [or_assoc] using hj

/-! ## Units leave reset (R52) -/

/-- Slices, memory engines, clock unit and collector. -/
def State.service (s : State) : List (Nat × Slice) × Selvage × Ck × Fc := (s.slices, s.sv, s.ck, s.fc)

theorem modTally_service (s : State) (h : Nat) (f : Tally → Tally) : (modTally s h f).service = s.service := rfl

theorem directSetup_service (s : State) : (directSetup s).service = s.service := by
  unfold directSetup
  dsimp only
  refine (foldl_keeps State.service (fun t h => ?_) _ _ :).trans (foldl_keeps State.service (fun t p => ?_) _ s)
  · exact modTally_service ..
  · exact (modTally_service ..).trans rfl

/-- The block reset has ended, and with it the block safe state. -/
def resetReleased (s : State) : State := { s with ck := { s.ck with rst := none }, fc := { s.fc with blockSafe := false } }

/-- Slice 0 is DIRECT, with all memory under identifier 0 and a fresh key. -/
def directEntered (s : State) : State :=
  let win := windowNow s
  let (s, k) := drbg s 256
  { s with
    sv := { s.sv with kids := [(0, { Kid.zero with state := .installed, key := some k })] },
    regions := [(0, directRegion s.cfg.subs.length win)],
    slices := [(0, { Slice.zero with desc := directDesc s.cfg win, state := .direct })] }

theorem leaveReset_eq (s : State) : leaveReset s =
    if s.lc.current = 5 || s.lc.current = 15 then resetReleased s else directSetup (directEntered (resetReleased s)) := rfl

theorem leaveReset_spec (s : State) :
    (leaveReset s).ck.rst = none ∧ (leaveReset s).fc = { s.fc with blockSafe := false } ∧ clear (leaveReset s) = clear s ∧
      (s.lc.current ≠ 5 → s.lc.current ≠ 15 → (sliceOf (leaveReset s) 0).state = .direct ∧ (kidOf (leaveReset s) 0).state = .installed ∧
        (kidOf (leaveReset s) 0).key.isSome = true) := by
  rw [leaveReset_eq]
  split
  case isTrue h =>
    refine ⟨rfl, rfl, rfl, fun h5 h15 => ?_⟩
    simp [h5, h15] at h
  case isFalse h =>
    have hsetup := directSetup_service (directEntered (resetReleased s))
    simp only [State.service, Prod.mk.injEq] at hsetup
    obtain ⟨hslices, hsv, hck, hfc⟩ := hsetup
    refine ⟨congrArg Ck.rst hck, hfc, (clear_eq_of_sv hsv).trans rfl, fun _ _ => ⟨?_, ?_, ?_⟩⟩
    · rw [sliceOf, hslices]
      rfl
    · rw [kidOf, hsv]
      rfl
    · rw [kidOf, hsv]
      rfl

end
end Sys2Proof.Machine
end

section
/-! PROOFS. Resets run their steps and end (O54). -/
namespace Sys2Proof.Machine

section
variable {s : State} {path : Path}

/-! ## The operations of FC_CMD (R539) -/

/-- FC_CMD starts the reset of an engine for who may ask for it, where no wider step runs. -/
theorem fcRun_engineReset {e : Nat} (he : s.cfg.hasEngine e = true)
    (hmay : fcMay s (copyKey path) (pathSecure s.cfg path) (engSlice s e) = true) (hsafe : s.fc.blockSafe = false)
    (hsteps : (s.fc.ladder.any fun l => 4 ≤ l.step || (l.step = 3 && engSlice s e = some l.target)) = false) :
    fcRun (fcTaken path 1 0 e s) (copyKey path) = startEngineReset (fcStarted path 1 0 e s) e (some (copyKey path)) := by
  obtain ⟨cs, hu⟩ := fcStarted_frame s path 1 0 e
  obtain ⟨ck, hck⟩ := awake_frame s
  rw [hck] at hu
  unfold fcRun
  rw [fcTaken_cmd]
  refine (if_neg (by decide)).trans ((if_neg ?_).trans ((if_neg ?_).trans ((if_neg ?_).trans (if_neg ?_))))
  all_goals rw [show (modFcCopy (fcTaken path 1 0 e s) (copyKey path) fun c => { c with cmd := none }) = _ from hu]
  · simp [hsafe]
  · simp [he]
  · show ¬ (!(fcMay s (copyKey path) (pathSecure s.cfg path) (engSlice s e))) = true
    simp [hmay]
  · show ¬ (s.fc.ladder.any fun l => 4 ≤ l.step || (l.step = 3 && engSlice s e = some l.target)) = true
    simp [hsteps]

theorem fcRun_sliceReset {n : Nat} (hn : n < 16) (hmay : fcMay s (copyKey path) (pathSecure s.cfg path) (some n) = true)
    (hsafe : s.fc.blockSafe = false) (hsteps : (s.fc.ladder.any fun l => 4 ≤ l.step) = false) (hused : (sliceOf s n).state ≠ .free) :
    fcRun (fcTaken path 2 0 n s) (copyKey path) = startSliceReset (fcStarted path 2 0 n s) n (some (copyKey path)) := by
  obtain ⟨cs, hu⟩ := fcStarted_frame s path 2 0 n
  obtain ⟨ck, hck⟩ := awake_frame s
  rw [hck] at hu
  have hu' : (modFcCopy (fcTaken path 2 0 n s) (copyKey path) fun c => { c with cmd := none }) = _ := hu
  unfold fcRun
  rw [fcTaken_cmd]
  refine (if_neg (by decide)).trans ((if_neg ?_).trans ((if_neg (Nat.not_le.mpr hn)).trans ((if_neg ?_).trans ((if_neg ?_).trans (if_neg ?_)))))
  all_goals rw [hu']
  · simp [hsafe]
  · show ¬ (!(fcMay s (copyKey path) (pathSecure s.cfg path) (some n))) = true
    simp [hmay]
  · show ¬ (s.fc.ladder.any fun l => 4 ≤ l.step) = true
    simp [hsteps]
  · exact hused

theorem fcRun_warmReset (hsec : pathSecure s.cfg path = true) :
    fcRun (fcTaken path 3 0 0 s) (copyKey path) = startWarmReset (fcStarted path 3 0 0 s) 1 3 (some (copyKey path)) := by
  unfold fcRun
  rw [fcTaken_cmd, hsec]
  exact (if_neg (by decide)).trans (if_neg (by simp))

theorem fcRun_powerCycle (hsec : pathSecure s.cfg path = true) :
    fcRun (fcTaken path 4 0 0 s) (copyKey path) = fcEnd (startPowerCycle (fcStarted path 4 0 0 s)) (some (copyKey path)) 0 := by
  unfold fcRun
  rw [fcTaken_cmd, hsec]
  exact (if_neg (by decide)).trans (if_neg (by simp))

theorem ladderOf_fcEnd (s : State) (copy : Option Nat) (r step target : Nat) : ladderOf (fcEnd s copy r) step target = ladderOf s step target := by
  obtain ⟨cs, h⟩ := fcEnd_frame s copy r
  rw [h]
  rfl

theorem clear_fcEnd (s : State) (copy : Option Nat) (r : Nat) : clear (fcEnd s copy r) = clear s := by
  obtain ⟨cs, h⟩ := fcEnd_frame s copy r
  rw [h]
  rfl

/-- A step on behalf of a copy keeps the other copies waiting. -/
theorem fcDrive_step {l : Ladder} {step target : Nat} (h : ladderOf s step target = some l) (hcopy : l.copy.isSome = true) (n : Nat) :
    fcDrive n s = s := fcDrive_awaited (List.any_eq_true.mpr ⟨l, List.mem_of_find?_eq_some h, hcopy⟩) n

/-! ## Commands -/

theorem engineReset_ends (hfree : fcFree path s = true) {e : Nat} (he : s.cfg.hasEngine e = true)
    (hmay : fcMay s (copyKey path) (pathSecure s.cfg path) (engSlice s e) = true) (hsafe : s.fc.blockSafe = false)
    (hsteps : (s.fc.ladder.any fun l => 4 ≤ l.step || (l.step = 3 && engSlice s e = some l.target) || (l.step = 2 && l.target = e)) = false)
    (hclear : clear (fcDrive 5 (fcTaken path 1 0 e s)) = true) :
    Ends (.engineReset path e) s fun t =>
      (engOf t e).phase = .resetting ∧ (engOf t e).ctx = none ∧ ladderOf t 2 e = some ⟨2, e, s.fc.sclk, some (copyKey path), []⟩ ∧
      (fcCopyOf t (copyKey path)).busy = true ∧ (fcCopyOf t (copyKey path)).lastOp = 1 := by
  obtain ⟨cs, hu⟩ := fcStarted_frame s path 1 0 e
  obtain ⟨hbusy, hop, -⟩ := fcStarted_copy s path 1 0 e
  have hdrive := fcDrive_taken hfree 1 0 e
  have hwider : (s.fc.ladder.any fun l => 4 ≤ l.step || (l.step = 3 && engSlice s e = some l.target)) = false := by
    rw [List.any_eq_false] at hsteps ⊢
    exact fun l hl h => hsteps l hl (by simp [h])
  rw [fcRun_engineReset he hmay hsafe hwider] at hdrive
  generalize fcStarted path 1 0 e s = u at hu hbusy hop hdrive
  have hnone : ladderOf u 2 e = none := by
    rw [hu]
    refine List.find?_eq_none.mpr fun l hl h => List.any_eq_false.mp hsteps l hl ?_
    simp [h]
  have hsclk : u.fc.sclk = s.fc.sclk := by rw [hu]
  rw [startEngineReset_new hnone, hsclk] at hdrive
  have hcontrol := engineReset_control (pushLadder u ⟨2, e, s.fc.sclk, some (copyKey path), []⟩) e
  have heng := engineReset_eng (pushLadder u ⟨2, e, s.fc.sclk, some (copyKey path), []⟩) e
  have hladder := ladderOf_pushLadder_same (l := ⟨2, e, s.fc.sclk, some (copyKey path), []⟩) hnone
  rw [← ladderOf_of_ladder (ladder_of_control hcontrol)] at hladder
  rw [fcDrive_step hladder rfl] at hdrive
  refine Ends.of_settle (fcCmd_free hfree 1 0 e) hclear ?_
  rw [hdrive, fcCopyOf_of_copies (copies_of_control hcontrol)]
  exact ⟨heng.1, heng.2, hladder, hbusy, hop⟩

theorem sliceReset_ends (hfree : fcFree path s = true) {n : Nat} (hn : n < 16)
    (hmay : fcMay s (copyKey path) (pathSecure s.cfg path) (some n) = true) (hsafe : s.fc.blockSafe = false)
    (hsteps : (s.fc.ladder.any fun l => 4 ≤ l.step || (l.step = 3 && l.target = n)) = false) (hused : (sliceOf s n).state ≠ .free)
    (hclear : clear (fcDrive 5 (fcTaken path 2 0 n s)) = true) :
    Ends (.sliceReset path n) s fun t =>
      ladderOf t 3 n = some ⟨3, n, s.fc.sclk, some (copyKey path), dEngines (descOf s n)⟩ ∧
      (fcCopyOf t (copyKey path)).busy = true ∧ (fcCopyOf t (copyKey path)).lastOp = 2 := by
  obtain ⟨cs, hu⟩ := fcStarted_frame s path 2 0 n
  obtain ⟨ck, hck⟩ := awake_frame s
  rw [hck] at hu
  obtain ⟨hbusy, hop, -⟩ := fcStarted_copy s path 2 0 n
  have hunasked : ∀ l ∈ s.fc.ladder, l.copy = none := by
    simp only [fcFree, Bool.and_eq_true] at hfree
    obtain ⟨-, hladder⟩ := hfree
    exact fun l hl => Option.isNone_iff_eq_none.mp (List.all_eq_true.mp hladder l hl)
  have hwider : (s.fc.ladder.any fun l => 4 ≤ l.step) = false := by
    rw [List.any_eq_false] at hsteps ⊢
    exact fun l hl h => hsteps l hl (by simp [h])
  have hdrive := fcDrive_taken hfree 2 0 n
  rw [fcRun_sliceReset hn hmay hsafe hwider hused] at hdrive
  generalize fcStarted path 2 0 n s = u at hu hbusy hop hdrive
  have hnone : ladderOf u 3 n = none := by
    rw [hu]
    refine List.find?_eq_none.mpr fun l hl h => List.any_eq_false.mp hsteps l hl ?_
    simp [h]
  have hladder := startSliceReset_ladder hnone (some (copyKey path))
  rw [fcDrive_step hladder rfl] at hdrive
  have hcopies : (startSliceReset u n (some (copyKey path))).fc.copies = u.fc.copies := by
    refine (copies_of_control (startSliceReset_control hnone _)).trans ?_
    unfold sliceBegun
    rw [endSteps_unasked (by rw [hu]; exact hunasked)]
    rfl
  have hsame : u.fc.sclk = s.fc.sclk ∧ descOf u n = descOf s n := by
    rw [hu]
    exact ⟨rfl, rfl⟩
  rw [hsame.1, hsame.2] at hladder
  refine Ends.of_settle (fcCmd_free hfree 2 0 n) hclear ?_
  rw [hdrive, fcCopyOf_of_copies hcopies]
  exact ⟨hladder, hbusy, hop⟩

theorem warmReset_ends (hfree : fcFree path s = true) (hsec : pathSecure s.cfg path = true) (hrst : s.ck.rst = none) :
    Ends (.warmReset path) s fun t =>
      t.ck.rst = some (if s.pins.tamperN then ⟨4, false, s.fc.sclk, s.fc.sclk⟩ else ⟨2, false, s.fc.sclk, 0⟩) ∧ t.ck.lastCause = 3 ∧
      t.ck.warmCount = satAdd (2 ^ 32 - 1) s.ck.warmCount 1 ∧ (ladderOf t 4 0).isSome = true := by
  obtain ⟨cs, hu⟩ := fcStarted_frame s path 3 0 0
  obtain ⟨hpins, hfc, hidle, hcount⟩ := awake_kept s
  have hdrive := fcDrive_taken hfree 3 0 0
  rw [fcRun_warmReset hsec, hu] at hdrive
  rw [startWarmReset, if_neg (by simp [hidle, hrst])] at hdrive
  generalize hw : ({ awake s with fc := { s.fc with copies := cs } } : State) = w at hdrive
  obtain ⟨hrun, hcause, hwarm, hladder, -, hends⟩ := warmReset_spec w 1 3 (some (copyKey path))
  have hstep : ladderOf (warmReset w 1 3 (some (copyKey path))) 4 0 = some ⟨4, 0, w.fc.sclk, some (copyKey path), []⟩ := by
    rw [ladderOf, hladder]
    rfl
  rw [fcDrive_step hstep rfl] at hdrive
  have hkept : w.pins = s.pins ∧ w.fc.sclk = s.fc.sclk ∧ w.ck.warmCount = s.ck.warmCount := by
    rw [← hw]
    exact ⟨hpins, rfl, hcount⟩
  obtain ⟨hpins, hsclk, hcount⟩ := hkept
  rw [hpins, hsclk] at hrun
  rw [hcount] at hwarm
  refine Ends.of_settle ((fcCmd_free hfree 3 0 0).trans (congrArg settle hdrive)) hends ⟨hrun, hcause, hwarm, ?_⟩
  rw [hstep]
  rfl

theorem powerCycle_ends (hfree : fcFree path s = true) (hsec : pathSecure s.cfg path = true) (hclear : clear s = true) :
    Ends (.powerCycle path) s fun t =>
      t.pins = { s.pins with trayPwrReq := true } ∧ fcAnswered path 4 0 t ∧ { t with pins := s.pins, fc := s.fc } = awake s := by
  let u := fcStarted path 4 0 0 s
  have hcopies : (startPowerCycle u).fc.copies = u.fc.copies := rfl
  have hidle : fcIdle (startPowerCycle u) := fcIdle_of_copies hcopies (fcStarted_idle hfree 4 0 0)
  have hdrive := fcDrive_taken hfree 4 0 0
  rw [fcRun_powerCycle hsec, fcDrive_idle (fcIdle_fcEnd hidle _ _)] at hdrive
  have hanswer : fcAnswered path 4 0 (fcEnd (startPowerCycle u) (some (copyKey path)) 0) := fcAnswered_fcEnd (v := startPowerCycle u) hcopies 0
  obtain ⟨cs, hu⟩ := fcStarted_frame s path 4 0 0
  obtain ⟨ck, hck⟩ := awake_frame s
  obtain ⟨ds, hds⟩ := fcEnd_frame (startPowerCycle u) (some (copyKey path)) 0
  have hu : u = { s with ck := ck, fc := { s.fc with copies := cs } } := hu.trans (by rw [hck])
  rw [hu] at hds
  refine Ends.of_settle ((fcCmd_free hfree 4 0 0).trans (congrArg settle hdrive)) ?_ ⟨?_, hanswer, ?_⟩
  · rw [hu, hds]
    exact hclear
  · rw [hu, hds]
    rfl
  · rw [hu, hds, hck]
    rfl

/-! ## Ends of steps -/

/-- The slice resets that wait for an engine wait for it no more. -/
def engineNoted (s : State) (e : Nat) : State :=
  { s with fc := { s.fc with ladder := s.fc.ladder.map fun l => if l.step = 3 then { l with engines := l.engines.filter (· ≠ e) } else l } }

theorem ladderOf_engineNoted (s : State) (e target : Nat) : ladderOf (engineNoted s e) 2 target = ladderOf s 2 target := by
  unfold ladderOf engineNoted
  dsimp only
  rw [List.find?_map]
  have hsame : ((fun l : Ladder => l.step = 2 && l.target = target) ∘ fun l : Ladder =>
      if l.step = 3 then { l with engines := l.engines.filter (· ≠ e) } else l) = fun l => l.step = 2 && l.target = target := by
    funext l
    dsimp only [Function.comp]
    split <;> rfl
  rw [hsame]
  rcases h : s.fc.ladder.find? fun l => l.step = 2 && l.target = target with _ | l
  · rw [h]
    rfl
  · have hstep := List.find?_some h
    simp only [Bool.and_eq_true, decide_eq_true_eq] at hstep
    rw [h]
    simp [hstep.1]

theorem engineResetDone_ends {e : Nat} (he : s.cfg.hasEngine e = true) (hidle : fcIdle s) (hphase : (engOf s e).phase = .resetting)
    (hrst : s.ck.rst = none) (hclear : clear s = true) :
    Ends (.engineResetDone e) s fun t =>
      (engOf t e).phase = .on ∧ OnlyEngine e { s with fc := t.fc } t ∧ ladderOf t 2 e = none ∧
      ∀ l k, ladderOf s 2 e = some l → l.copy = some k → (fcCopyOf t k).busy = false ∧ (fcCopyOf t k).result = 0 := by
  let v := modEng s e fun g => { g with phase := .on, runStart := s.pclk }
  let w := engineNoted v e
  have hladder : ladderOf w 2 e = ladderOf s 2 e := ladderOf_engineNoted v e e
  have hw : fcIdle w := fcIdle_of_copies rfl hidle
  have hother (k : Nat) (hk : k ≠ e) : engOf v k = engOf s k := engOf_modEng_ne s _ hk
  have hon : engOf v e = { engOf s e with phase := .on, runStart := s.pclk } := engOf_modEng s e _
  have hon : (engOf v e).phase = .on := congrArg Engine.phase hon
  have hexec : exec (.engineResetDone e) s = unitRes (s.cfg.hasEngine e) s ((engOf s e).phase = .resetting && s.ck.rst.isNone)
      (match ladderOf w 2 e with
       | some l => fcDrive 5 (fcEnd (dropLadder w 2 e) l.copy 0)
       | none => w) := rfl
  rw [hladder] at hexec
  rcases hl : ladderOf s 2 e with _ | l
  · rw [hl] at hexec
    exact Ends.of_unit hexec he (by simp [hphase, hrst]) hclear ⟨hon, ⟨rfl, hother⟩, hladder.trans hl, fun _ _ h => (nomatch h)⟩
  · rw [hl] at hexec
    dsimp only at hexec
    rw [fcDrive_idle (fcIdle_fcEnd (s := dropLadder w 2 e) (fcIdle_of_copies rfl hw) _ _)] at hexec
    obtain ⟨cs, hcs⟩ := fcEnd_frame (dropLadder w 2 e) l.copy 0
    refine Ends.of_unit hexec he (by simp [hphase, hrst]) ((clear_fcEnd ..).trans hclear) ⟨?_, ?_, ?_, ?_⟩
    · rw [hcs]
      exact hon
    · rw [hcs]
      exact ⟨rfl, hother⟩
    · rw [ladderOf_fcEnd]
      exact ladderOf_dropLadder w 2 e
    · intro x k hx hcopy
      obtain rfl := Option.some.inj hx
      rw [fcCopyOf_fcEnd _ hcopy]
      exact ⟨rfl, rfl⟩

/-- An engine reset that has run too long leads to a reset of the engine's slice, or of the block. -/
theorem engrstTo_ends {e : Nat} {l : Ladder} (hidle : fcIdle s) (hl : ladderOf s 2 e = some l) (hlate : 200000 + l.start ≤ s.fc.sclk)
    (hclear : clear s = true)
    (hslice : ∀ n, engSlice s e = some n → clear (startSliceReset (fcEnd (dropLadder (raise s 29 e 0 (some n)) 2 e) l.copy 6) n none) = true) :
    Ends (.engrstTo e) s fun t => ladderOf t 2 e = none ∧
      (∀ n, engSlice s e = some n → (ladderOf t 3 n).isSome = true) ∧
      (engSlice s e = none → s.ck.rst = none → t.ck.rst.isSome = true ∧ t.ck.lastCause = 4) := by
  obtain ⟨ls, hraise⟩ := raise_frame s 29 e 0 (engSlice s e) false
  let v := dropLadder (raise s 29 e 0 (engSlice s e)) 2 e
  let w := fcEnd v l.copy 6
  obtain ⟨cs, hcs⟩ := fcEnd_frame v l.copy 6
  have hv : v = { s with fc := { s.fc with lines := ls, ladder := s.fc.ladder.filter fun x => !(x.step = 2 && x.target = e) } } := by
    show dropLadder (raise s 29 e 0 (engSlice s e)) 2 e = _
    rw [hraise]
    rfl
  rw [hv] at hcs
  have hw : w = _ := (congrArg (fun u => fcEnd u l.copy 6) hv).trans hcs
  have hidle : fcIdle w := fcIdle_fcEnd (fcIdle_of_copies (by rw [hv]) hidle) l.copy 6
  have hnone : ladderOf w 2 e = none := (ladderOf_fcEnd v l.copy 6 2 e).trans (ladderOf_dropLadder _ 2 e)
  have hsame : engSlice w e = engSlice s e ∧ w.ck.rst = s.ck.rst ∧ clear w = clear s := by
    rw [hw]
    exact ⟨rfl, rfl, rfl⟩
  obtain ⟨hholder, hrst, hends⟩ := hsame
  have hexec : exec (.engrstTo e) s = guardRes s (200000 + l.start ≤ s.fc.sclk)
      (fcDrive 5 (match engSlice w e with
         | some n => startSliceReset w n none
         | none => startWarmReset w 3 4 none)) := by
    show (match ladderOf s 2 e with | none => _ | some l => _) = _
    rw [hl] <;> rfl
  rw [hholder] at hexec
  rcases hn : engSlice s e with _ | n
  · rw [hn] at hexec
    dsimp only at hexec
    rw [fcDrive_idle (startWarmReset_idle hidle _ _ _)] at hexec
    refine Ends.of_guard hexec (decide_eq_true hlate) (clear_startWarmReset (hends.trans hclear) ..)
      ⟨startWarmReset_lower (by decide) hnone .., fun _ h => (nomatch h), fun _ hr => ?_⟩
    obtain ⟨hrun, hcause, -⟩ := warmReset_spec w 3 4 none
    rw [startWarmReset, if_neg (by simp [hrst, hr]), hrun]
    exact ⟨rfl, hcause⟩
  · rw [hn] at hexec
    dsimp only at hexec
    rw [fcDrive_idle (startSliceReset_idle hidle _ _)] at hexec
    refine Ends.of_guard hexec (decide_eq_true hlate) ?_
      ⟨startSliceReset_engines hnone .., fun m hm => ?_, fun h => (nomatch h)⟩
    · have h := hslice n hn
      rw [← hn] at h
      exact h
    · obtain rfl := Option.some.inj hm
      exact startSliceReset_step ..

theorem changeEnd_control (s : State) (n : Nat) : (changeEnd s n).control = s.control := by
  have hslm (t : State) (x : Slm) : ({ t with slm := x } : State).control = t.control := rfl
  have hs2 (t : State) (x : List S2Ent) : ({ t with s2 := x } : State).control = t.control := rfl
  have hmark (t : State) (es : List Nat) (on : Bool) : (markRemoving t es on).control = t.control :=
    foldl_keeps State.control (fun t e => modEng_control t e _) es t
  unfold changeEnd
  dsimp only
  rw [hslm, reportChanged_control, refreshSlices_control, hs2, modSlice_control, hmark]

/-- A slice that its reset left CHANGING is in service again, or its CHANGE ends. -/
def serviceResumed (s : State) (n : Nat) : State :=
  let x := sliceOf s n
  if x.state = .changing then
    (if x.changeTo.isEmpty then refreshSlices s (modSlice s n fun y => { y with state := .active }) else changeEnd s n)
  else s

theorem serviceResumed_control (s : State) (n : Nat) : (serviceResumed s n).control = s.control := by
  unfold serviceResumed
  dsimp only
  split
  · split
    · exact (refreshSlices_control ..).trans (modSlice_control ..)
    · exact changeEnd_control ..
  · rfl

theorem clear_of_keyed {t : State} (h : t.keyed = s.keyed) : clear t = clear s :=
  congrArg (fun x : List (Nat × Region) × List (Nat × Kid) × Bool => !x.2.2) h

theorem clear_serviceResumed (s : State) (n : Nat) : clear (serviceResumed s n) = clear s := by
  unfold serviceResumed
  dsimp only
  split
  · split
    · exact (clear_of_keyed (refreshSlices_keyed ..)).trans rfl
    · exact clear_eq_of_sv (changeEnd_sv ..)
  · rfl

theorem sliceResetDone_ends {n : Nat} {l : Ladder} (hl : ladderOf s 3 n = some l) (hidle : fcIdle s) (hrst : s.ck.rst = none)
    (hengines : l.engines = []) (htags : ∀ p ∈ s.sv.ports, ∀ g ∈ p.2.tags, g.attr.slice ≠ n ∨ g.attr.kind = 3)
    (hhops : ∀ h ∈ s.links.hops, hopSlice s h ≠ some n) (hclear : clear s = true) :
    Ends (.sliceResetDone n) s fun t => ladderOf t 3 n = none ∧
        (∀ k, l.copy = some k → (fcCopyOf t k).busy = false ∧ (fcCopyOf t k).result = 0) ∧
        ((sliceOf s n).state = .changing → (sliceOf s n).changeTo = [] → (sliceOf t n).state = .active ∨ (sliceOf t n).state = .degraded) := by
  let w := fcEnd (dropLadder s 3 n) l.copy 0
  obtain ⟨cs, hcs⟩ := fcEnd_frame (dropLadder s 3 n) l.copy 0
  have hslice : sliceOf w n = sliceOf s n := by
    rw [show w = _ from hcs]
    rfl
  have hcontrol := serviceResumed_control w n
  have hidle : fcIdle (serviceResumed w n) :=
    fcIdle_of_copies (copies_of_control hcontrol) (fcIdle_fcEnd (s := dropLadder s 3 n) (fcIdle_of_copies rfl hidle) l.copy 0)
  have hexec : exec (.sliceResetDone n) s = guardRes s
      (l.engines.isEmpty && s.ck.rst.isNone && (s.sv.ports.all fun p => p.2.tags.all fun t => t.attr.slice ≠ n || t.attr.kind = 3) &&
        s.links.hops.all fun h => hopSlice s h ≠ some n) (fcDrive 5 (serviceResumed w n)) := by
    show (match ladderOf s 3 n with | none => _ | some l => _) = _
    rw [hl] <;> rfl
  rw [fcDrive_idle hidle] at hexec
  refine Ends.of_guard hexec ?_ ?_ ⟨?_, fun k hk => ?_, fun hstate hto => ?_⟩
  · simp only [hengines, hrst, List.isEmpty_nil, Option.isNone_none, Bool.and_eq_true, List.all_eq_true, Bool.or_eq_true, decide_eq_true_eq, true_and]
    exact ⟨htags, hhops⟩
  · rw [clear_serviceResumed]
    exact (clear_fcEnd ..).trans hclear
  · rw [ladderOf_of_ladder (ladder_of_control hcontrol), ladderOf_fcEnd, ladderOf_dropLadder]
  · rw [fcCopyOf_of_copies (copies_of_control hcontrol), fcCopyOf_fcEnd _ hk]
    exact ⟨rfl, rfl⟩
  · rw [serviceResumed, hslice, if_pos hstate, hto]
    have hserves := congrArg Prod.snd (service_refreshSlices w (modSlice w n fun y => { y with state := .active }) n)
    exact hserves.mpr (.inl (congrArg Slice.state (sliceOf_modSlice w n _)))

theorem slrstTo_ends {n : Nat} {l : Ladder} (hl : ladderOf s 3 n = some l) (hidle : fcIdle s) (hrst : s.ck.rst = none)
    (hlate : 2000000 + l.start ≤ s.fc.sclk) :
    Ends (.slrstTo n) s fun t => ladderOf t 3 n = none ∧ t.ck.rst.isSome = true ∧ t.ck.lastCause = 4 := by
  obtain ⟨ls, hraise⟩ := raise_frame s 30 n 0 (some n) false
  let v := dropLadder (raise s 30 n 0 (some n)) 3 n
  let w := fcEnd v l.copy 6
  obtain ⟨cs, hcs⟩ := fcEnd_frame v l.copy 6
  have hv : v.fc.copies = s.fc.copies ∧ v.ck = s.ck := by
    show (dropLadder (raise s 30 n 0 (some n)) 3 n).fc.copies = _ ∧ (dropLadder (raise s 30 n 0 (some n)) 3 n).ck = _
    rw [hraise]
    exact ⟨rfl, rfl⟩
  have hw : w.ck.rst = none := by
    rw [show w = _ from hcs]
    exact (congrArg Ck.rst hv.2).trans hrst
  have hidle : fcIdle w := fcIdle_fcEnd (fcIdle_of_copies hv.1 hidle) l.copy 6
  have hnone : ladderOf w 3 n = none := (ladderOf_fcEnd v l.copy 6 3 n).trans (ladderOf_dropLadder _ 3 n)
  have hexec : exec (.slrstTo n) s = guardRes s (2000000 + l.start ≤ s.fc.sclk) (fcDrive 5 (startWarmReset w 3 4 none)) := by
    show (match ladderOf s 3 n with | none => _ | some l => _) = _
    rw [hl]
  have hlower := startWarmReset_lower (by decide) hnone 3 4 none
  rw [fcDrive_idle (startWarmReset_idle hidle _ _ _), startWarmReset, if_neg (by simp [hw])] at hexec
  rw [startWarmReset, if_neg (by simp [hw])] at hlower
  obtain ⟨hrun, hcause, -, -, -, hends⟩ := warmReset_spec w 3 4 none
  refine Ends.of_guard hexec (decide_eq_true hlate) hends ⟨hlower, ?_, hcause⟩
  rw [hrun]
  rfl

theorem warmResetTimeout_ends {l : Ladder} (hl : ladderOf s 4 0 = some l) (hidle : fcIdle s) (hlate : 1100000000 + l.start ≤ s.fc.sclk)
    (hclear : clear s = true) :
    Ends .warmResetTimeout s fun t => t.pins = { s.pins with trayPwrReq := true } ∧ ladderOf t 4 0 = none ∧
      { t with pins := s.pins, fc := s.fc } = s := by
  let w := startPowerCycle (fcEnd (dropLadder s 4 0) l.copy 6)
  obtain ⟨cs, hcs⟩ := fcEnd_frame (dropLadder s 4 0) l.copy 6
  have hidle : fcIdle w := fcIdle_of_copies rfl (fcIdle_fcEnd (s := dropLadder s 4 0) (fcIdle_of_copies rfl hidle) l.copy 6)
  have hexec : exec .warmResetTimeout s = guardRes s (1100000000 + l.start ≤ s.fc.sclk) (fcDrive 5 w) := by
    show (match ladderOf s 4 0 with | none => _ | some l => _) = _
    rw [hl]
  rw [fcDrive_idle hidle] at hexec
  refine Ends.of_guard hexec (decide_eq_true hlate) ?_ ⟨?_, ?_, ?_⟩
  · exact (clear_fcEnd (dropLadder s 4 0) l.copy 6).trans hclear
  · show (startPowerCycle (fcEnd (dropLadder s 4 0) l.copy 6)).pins = _
    rw [hcs]
    rfl
  · exact (ladderOf_fcEnd (dropLadder s 4 0) l.copy 6 4 0).trans (ladderOf_dropLadder s 4 0)
  · show { startPowerCycle (fcEnd (dropLadder s 4 0) l.copy 6) with pins := s.pins, fc := s.fc } = s
    rw [hcs]
    rfl

/-- The engine resets of a list start one after the other. -/
theorem foldl_startEngineReset (es : List Nat) (s : State) :
    (∀ e, (ladderOf s 2 e).isSome = true → (ladderOf (es.foldl (fun v e => startEngineReset v e none) s) 2 e).isSome = true) ∧
      ∀ e ∈ es, (ladderOf (es.foldl (fun v e => startEngineReset v e none) s) 2 e).isSome = true := by
  induction es generalizing s with
  | nil => exact ⟨fun _ h => h, fun _ h => (nomatch h)⟩
  | cons x es ih =>
    obtain ⟨hkeep, hall⟩ := ih (startEngineReset s x none)
    refine ⟨fun e he => hkeep e (startEngineReset_keeps he x none), fun e he => ?_⟩
    rcases List.mem_cons.mp he with rfl | he
    · exact hkeep e (startEngineReset_step s e none)
    · exact hall e he

theorem teardownTimeout_ends {c : Nat} {td : Teardown} (htear : (ctxOf s c).tear = some td) (hlate : td.late = false)
    (hover : 80000 + td.start ≤ s.pclk) {es : List Nat} {u : State}
    (hes : es = s.cfg.engineList.filter fun e => (engOf s e).ctx = some (c, (ctxOf s c).gen))
    (hu : u = raise (modCtx s c fun y => { y with tear := some { td with late := true } }) 28 c 0 (some (ctxOf s c).slice))
    (hclear : clear (if es = [] then startSliceReset u (ctxOf s c).slice none else es.foldl (fun v e => startEngineReset v e none) u) = true) :
    Ends (.teardownTimeout c) s fun t => (es = [] → (ladderOf t 3 (ctxOf s c).slice).isSome = true) ∧
      ∀ e ∈ es, (ladderOf t 2 e).isSome = true := by
  have hsame : (u.cfg.engineList.filter fun e => (engOf u e).ctx = some (c, (ctxOf s c).gen)) = es := by
    obtain ⟨ls, hls⟩ := raise_frame (modCtx s c fun y => { y with tear := some { td with late := true } }) 28 c 0 (some (ctxOf s c).slice) false
    rw [hu, hls, hes]
    rfl
  have hexec : exec (.teardownTimeout c) s = guardRes s (!td.late && 80000 + td.start ≤ s.pclk)
      (if es = [] then startSliceReset u (ctxOf s c).slice none else es.foldl (fun v e => startEngineReset v e none) u) := by
    show (match (ctxOf s c).tear with | none => _ | some td => _) = _
    rw [htear]
    dsimp only
    rw [← hu, hsame]
    cases es <;> rfl
  refine Ends.of_guard hexec (by simp [hlate, hover]) hclear ⟨fun h => ?_, fun e he => ?_⟩
  · rw [if_pos h]
    exact startSliceReset_step ..
  · rw [if_neg (List.ne_nil_of_mem he)]
    exact (foldl_startEngineReset es u).2 e he

theorem resetUnitsLeave_ends {r : RstRun} (hr : s.ck.rst = some r) (hphase : r.phase = 4) (hready : portsReady s = true)
    (hcold : s.pins.coldN = true) (hfault : s.ck.clkFault = false) (hidle : fcIdle s) (hclear : clear s = true) :
    Ends .resetUnitsLeave s fun t => t.ck.rst = none ∧ t.fc.blockSafe = false ∧ ladderOf t 4 0 = none ∧
      (s.lc.current ≠ 5 → s.lc.current ≠ 15 → (sliceOf t 0).state = .direct ∧ (kidOf t 0).state = .installed ∧ (kidOf t 0).key.isSome = true) := by
  obtain ⟨hrst, hfc, hends, hdirect⟩ := leaveReset_spec s
  let w := leaveReset s
  have hladder : ladderOf w 4 0 = ladderOf s 4 0 := ladderOf_of_ladder (congrArg Fc.ladder hfc :) 4 0
  have hw : fcIdle w := fcIdle_of_copies (congrArg Fc.copies hfc :) hidle
  have hexec : exec .resetUnitsLeave s = guardRes s
      ((s.ck.rst.map fun r => decide (r.phase = 4)).getD false && portsReady s && s.pins.coldN && !s.ck.clkFault)
      (match ladderOf w 4 0 with
       | some l => fcDrive 5 (fcEnd (dropLadder w 4 0) l.copy 0)
       | none => w) := rfl
  have hcond : ((s.ck.rst.map fun r => decide (r.phase = 4)).getD false && portsReady s && s.pins.coldN && !s.ck.clkFault) = true := by
    simp [hr, hphase, hready, hcold, hfault]
  rcases hl : ladderOf w 4 0 with _ | l
  · rw [hl] at hexec
    exact Ends.of_guard hexec hcond (hends.trans hclear) ⟨hrst, congrArg Fc.blockSafe hfc, hl, hdirect⟩
  · rw [hl] at hexec
    dsimp only at hexec
    rw [fcDrive_idle (fcIdle_fcEnd (s := dropLadder w 4 0) (fcIdle_of_copies rfl hw) _ _)] at hexec
    obtain ⟨cs, hcs⟩ := fcEnd_frame (dropLadder w 4 0) l.copy 0
    refine Ends.of_guard hexec hcond ((clear_fcEnd ..).trans (hends.trans hclear)) ⟨?_, ?_, ?_, ?_⟩
    · rw [hcs]
      exact hrst
    · rw [hcs]
      exact congrArg Fc.blockSafe hfc
    · rw [ladderOf_fcEnd, ladderOf_dropLadder]
    · rw [hcs]
      exact hdirect

end

/-- Settles O54: a step that starts is on the ladder, whatever its reset does, and one that ends is on it no more. -/
theorem resetsRunTheirStepsAndEnd : Obligations.ResetsRunTheirStepsAndEnd := by
  unfold Obligations.ResetsRunTheirStepsAndEnd
  intro idle
  refine ⟨fun path s hfree => ⟨?engineReset, ?sliceReset, ?warmReset, ?powerCycle⟩, fun e s he hidle => ⟨?engineDone, ?engineLate⟩,
    fun n l s hl hidle hrst => ⟨?sliceDone, ?sliceLate⟩, ?warmLate, ?teardownLate, ?portLate, ?unitsLeave⟩
  case engineReset => exact fun e he hmay hsafe hsteps hclear => engineReset_ends hfree he hmay hsafe hsteps hclear
  case sliceReset => exact fun n hn hmay hsafe hsteps hused hclear => sliceReset_ends hfree hn hmay hsafe hsteps hused hclear
  case warmReset => exact warmReset_ends hfree
  case powerCycle => exact powerCycle_ends hfree
  case engineDone => exact engineResetDone_ends he hidle
  case engineLate => exact fun l hl hlate hclear hslice => engrstTo_ends hidle hl hlate hclear hslice
  case sliceDone => exact fun hengines htags hhops _ hclear => sliceResetDone_ends hl hidle hrst hengines htags hhops hclear
  case sliceLate => exact slrstTo_ends hl hidle hrst
  case warmLate => exact fun l s hl hidle hlate hclear => warmResetTimeout_ends hl hidle hlate hclear
  case teardownLate => exact fun c td s htear hlate hover hclear => teardownTimeout_ends htear hlate hover rfl rfl hclear
  case portLate =>
    intro m r s hm hr hphase hlate hready hfenced hclear
    let t := (portSubs s.cfg m).foldl (fun t i => mpErrFence t i 0) s
    obtain ⟨hrest, hsubs, hbit⟩ := foldl_mpErrFence (t := t) rfl
    simp only [State.resting, State.keyed, Prod.mk.injEq] at hrest
    obtain ⟨hcfg, -, hck, -, -, -, hstuck⟩ := hrest
    have hwired : portSubs s.cfg m ≠ [] := by
      intro h
      simp [unitFenced, h] at hfenced
    refine Ends.of_unit (s := s) (t := t) rfl (decide_eq_true hm) ?_ ?_ ⟨?_, hbit (.inl hwired), (congrArg Ck.rst hck :)⟩
    · simp [hr, hphase, hlate, hready, hfenced]
    · simpa [clear, hstuck] using hclear
    · have hall : (portSubs t.cfg m).all t.fc.subFenced.contains = true := by
        rw [hcfg, List.all_eq_true]
        exact fun i hi => List.contains_iff_mem.mpr (hsubs i (.inr hi))
      exact hall
  case unitsLeave => exact fun r s hr hphase hready hcold hfault hidle hclear => resetUnitsLeave_ends hr hphase hready hcold hfault hidle hclear

end Sys2Proof.Machine
end

section
/-! PROOFS. Error events and returned errors (O53): what a reaction leaves of the counts and of FC_STATUS, the writes to FC_STATUS, FC_CTL and FC_INJECT,
and the fault of a LIVE context. -/
namespace Sys2Proof.Machine

section
variable (s : State)

/-! ## Reactions (R520, R522) -/

/-- The event counts and FC_STATUS. -/
def State.counts : List (Nat × (Nat × Nat)) × Word := (s.fc.cnt, s.fc.status)

theorem counts_of_reckoned {s t : State} (h : t.reckoned = s.reckoned) : t.counts = s.counts :=
  congrArg (fun x : Cfg × Pins × Lc × Ck × Fc => (x.2.2.2.2.cnt, x.2.2.2.2.status)) h

theorem counts_of_control {s t : State} (h : t.control = s.control) : t.counts = s.counts := counts_of_reckoned (reckoned_of_control h)

theorem enterBlockSafe_counts : (enterBlockSafe s).counts = s.counts := by
  unfold enterBlockSafe
  split
  · rfl
  · rw [counts_of_control (foldl_keeps State.control poisonPresented_control _ (holdBlock s)), counts_of_control (holdBlock_control s)]
    rfl

theorem cpErrEnd_counts : (cpErrEnd s).counts = s.counts := by
  unfold cpErrEnd
  split <;> rfl

/-- Whatever a reaction does to units, it counts nothing and latches only its own bit. -/
theorem react_counts {r : Nat} (hr : r ≠ 0) (l : ErrLine) : (react s l r).counts = (latchEvent s l r).counts := by
  have hcp (u : State) : (if l.src = 38 then cpErrEnd u else u).counts = u.counts := by
    split
    · exact cpErrEnd_counts u
    · rfl
  unfold react
  rw [if_neg hr]
  dsimp only
  rw [← hcp (latchEvent s l r)]
  generalize (if l.src = 38 then cpErrEnd (latchEvent s l r) else latchEvent s l r) = u
  split
  · rfl
  · split
    · split
      · rfl
      · exact enterBlockSafe_counts u
    · split
      · rfl
      · have hheld (k i : Nat) : (if r = 2 then u else holdUnit u l.src k i).counts = u.counts := by
          split
          · rfl
          · exact counts_of_reckoned (holdUnit_reckoned ..)
        split
        · exact hheld ..
        · exact (counts_of_reckoned (fenceBy_reckoned ..)).trans (hheld ..)

/-! ## Classification (R520) -/

/-- Events of the window so far. -/
def windowCount (l : ErrLine) : Nat :=
  let x := mget (0, 0) s.fc.inst (2048 * l.src + l.inst)
  if max (fcCfg s l.src).1 1 ≤ s.fc.sclk - x.2 then 0 else x.1

/-- The event is the N-th of its window. -/
def isSevere (l : ErrLine) : Bool := max (fcCfg s l.src).2.1 1 ≤ windowCount s l + 1

/-- The state in which the event is counted. -/
def eventCounted (l : ErrLine) : State :=
  let x := mget (0, 0) s.fc.inst (2048 * l.src + l.inst)
  { s with fc := { s.fc with
    inst := mset (0, 0) s.fc.inst (2048 * l.src + l.inst)
      (if isSevere s l then (0, 0) else (windowCount s l + 1, if windowCount s l = 0 then s.fc.sclk else x.2)),
    cnt := mmod (0, 0) s.fc.cnt l.src fun x => (satAdd (2 ^ 32 - 1) x.1 1, if isSevere s l then satAdd 65535 x.2 1 else x.2) } }

theorem classify_eq (l : ErrLine) : classify s l =
    if isSevere s l then react (eventCounted s l) l (fcCfg s l.src).2.2 else eventCounted s l := by
  unfold classify isSevere eventCounted isSevere windowCount
  simp only [decide_eq_true_eq]

theorem latchEvent_cnt (l : ErrLine) (r : Nat) : (latchEvent s l r).fc.cnt = s.fc.cnt :=
  (congrArg (fun x : Cfg × Pins × Lc × Ck × Fc => x.2.2.2.2.cnt) (latchEvent_steady s l r) :)

/-- A classified event is counted, and a severe one whose source reacts is latched. -/
theorem classify_counts (l : ErrLine) :
    (mget (0, 0) (classify s l).fc.cnt l.src).1 = satAdd (2 ^ 32 - 1) (mget (0, 0) s.fc.cnt l.src).1 1 ∧
    (mget (0, 0) (classify s l).fc.cnt l.src).2 = (if isSevere s l then satAdd 65535 (mget (0, 0) s.fc.cnt l.src).2 1 else (mget (0, 0) s.fc.cnt l.src).2) ∧
    (l.src < 64 → isSevere s l = true → (fcCfg s l.src).2.2 ≠ 0 → bit (classify s l).fc.status l.src = true) := by
  have hcounted : mget (0, 0) (eventCounted s l).fc.cnt l.src = (satAdd (2 ^ 32 - 1) (mget (0, 0) s.fc.cnt l.src).1 1,
      if isSevere s l then satAdd 65535 (mget (0, 0) s.fc.cnt l.src).2 1 else (mget (0, 0) s.fc.cnt l.src).2) :=
    mget_mmod_same (0, 0) s.fc.cnt l.src fun x => (satAdd (2 ^ 32 - 1) x.1 1, if isSevere s l then satAdd 65535 x.2 1 else x.2)
  have hcnt : (classify s l).fc.cnt = (eventCounted s l).fc.cnt := by
    rw [classify_eq]
    split
    · by_cases hr : (fcCfg s l.src).2.2 = 0
      · rw [react, if_pos hr]
      · exact (congrArg Prod.fst (react_counts (eventCounted s l) hr l) :).trans (latchEvent_cnt ..)
    · rfl
  rw [hcnt, hcounted]
  refine ⟨rfl, rfl, fun hl hsevere hr => ?_⟩
  have hstatus : (react (eventCounted s l) l (fcCfg s l.src).2.2).fc.status = (latchEvent (eventCounted s l) l (fcCfg s l.src).2.2).fc.status :=
    (congrArg Prod.snd (react_counts (eventCounted s l) hr l) :)
  rw [classify_eq, if_pos hsevere, hstatus]
  exact bit_latchEvent _ _ hl

/-- An event that is not severe, or whose source does not react, is counted and does nothing else. -/
theorem classify_quiet (l : ErrLine) (h : isSevere s l = false ∨ (fcCfg s l.src).2.2 = 0) : classify s l = eventCounted s l := by
  rw [classify_eq]
  rcases h with h | h
  · rw [h]
    rfl
  · rw [react, if_pos h, ite_self]

/-- What an event raised by a checker finds counts nothing, and latches bits but clears none. -/
theorem outsideEffect_counts (b inst detail : Nat) : (outsideEffect s b inst detail).fc.cnt = s.fc.cnt ∧
    ∀ k, bit s.fc.status k = true → bit (outsideEffect s b inst detail).fc.status k = true := by
  unfold outsideEffect
  split
  · exact ⟨rfl, fun _ h => h⟩
  · exact ⟨rfl, fun _ h => h⟩
  · split
    · exact ⟨rfl, fun _ h => h⟩
    · split
      · exact ⟨rfl, fun _ h => h⟩
      · refine ⟨(congrArg (fun x : Cfg × Pins × Lc × Ck × Fc => x.2.2.2.2.cnt) (setStatus_steady ..) :), fun k h => ?_⟩
        rw [setStatus_status]
        simp_all [bit]
  · exact ⟨rfl, fun _ h => h⟩

/-! ## The registers (R528, R530) -/

theorem testBit_foldl_or_pow (l : List Nat) (a n : Nat) : (l.foldl (fun a b => a ||| 2 ^ b) a).testBit n = (a.testBit n || l.contains n) := by
  induction l generalizing a with
  | nil => simp
  | cons b l ih => simp [ih, Nat.testBit_or, Nat.testBit_two_pow, Bool.or_assoc, eq_comm]

theorem fcWrite_secure {path : Path} (hup : pathUp (awake s) path = true) (hsec : pathSecure s.cfg path = true) (hopen : lcOpen s = true)
    (f : State → State) : fcWrite path f s = settle (f (awake s)) := by
  obtain ⟨ck, hck⟩ := awake_frame s
  have hcfg : (awake s).cfg = s.cfg := by rw [hck]
  have hopen : lcOpen (awake s) = true := by rw [hck]; exact hopen
  simp only [fcWrite, hup, hcfg, hsec, hopen, Bool.not_true, Bool.false_eq_true, if_false, Bool.and_self, if_true]

/-- The mask of the status bits whose level cause is asserted. -/
def stayMask : Nat := (levelBits s).foldl (fun a b => a ||| 2 ^ b) 0

/-- The state after a write of `v` to FC_STATUS, before host ports go on. -/
def statusCleared (v : Word) : State :=
  let st := s.fc.status &&& ~~~(v &&& ~~~(BitVec.ofNat 64 (stayMask s)))
  { s with fc := { s.fc with
    status := st, first := if st = 0 then { s.fc.first with valid := false } else s.fc.first,
    safe := s.fc.safe.filter fun h => bit st h.1, fencedBy := s.fc.fencedBy.filter fun h => bit st h.1 } }

/-- Host ports and port rings go on once a hold ends. -/
def portsResumed : State := resumeRings ((List.range s.cfg.hostPorts).foldl drainOut s)

theorem portsResumed_inward : (portsResumed s).inward = s.inward :=
  (resumeRings_inward ..).trans (foldl_keeps State.inward drainOut_inward _ s)

theorem bit_statusCleared (v : Word) {b : Nat} (hb : b < 64) :
    bit (statusCleared s v).fc.status b = (bit s.fc.status b && (!(bit v b) || (levelBits s).contains b)) := by
  have hstay : (BitVec.ofNat 64 (stayMask s)).getLsbD b = (levelBits s).contains b := by
    rw [BitVec.getLsbD_ofNat, stayMask, testBit_foldl_or_pow]
    simp [hb]
  show BitVec.getLsbD (s.fc.status &&& ~~~(v &&& ~~~(BitVec.ofNat 64 (stayMask s)))) b = _
  rw [BitVec.getLsbD_and, BitVec.getLsbD_not, BitVec.getLsbD_and, BitVec.getLsbD_not, hstay]
  simp [hb, bit]

/-- The state after a write to FC_CTL.LOCK. -/
def collectorLocked : State := { s with fc := { s.fc with lock := true, lockAt := if s.fc.lock then s.fc.lockAt else s.fc.sclk } }

/-- The state after a write of `v` to FC_INJECT. -/
def injectionArmed (v : Word) : State :=
  let w := v &&& BitVec.ofNat 64 injectMask
  { s with fc := { s.fc with inject := w, injLeft := if bit w 63 then max 1 (field w 16 8) else 0 } }

/-- ARM and COUNT are writable. -/
theorem inject_fields (v : Word) : bit (v &&& BitVec.ofNat 64 injectMask) 63 = bit v 63 ∧
    field (v &&& BitVec.ofNat 64 injectMask) 16 8 = field v 16 8 := by
  have hcount : ∀ i < 8, injectMask.testBit (16 + i) = true := by decide
  refine ⟨?_, Nat.eq_of_testBit_eq fun i => ?_⟩
  · simp [bit, injectMask]
  · have hmask : (BitVec.ofNat 64 injectMask).toNat = injectMask := by decide
    simp only [field, BitVec.toNat_and, hmask, Nat.testBit_mod_two_pow, Nat.testBit_shiftRight, Nat.testBit_and]
    by_cases hi : i < 8
    · rw [hcount i hi, Bool.and_true]
    · simp only [hi, decide_false, Bool.false_and]

/-! ## Returned errors (R180) -/

theorem ctxOf_abandonTile (e c gen k : Nat) : ctxOf (abandonTile s e c gen) k = ctxOf s k := by
  unfold abandonTile
  dsimp only
  split <;> rfl

theorem markFaulted_slice (c code : Nat) : (ctxOf (markFaulted s c code) c).slice = (ctxOf s c).slice := by
  let marked := modCtx (reportChanged s (ctxOf s c).slice) c fun y =>
    { y with state := .faulted, faultCode := code, prog := y.prog.map fun p => { p with ended := true } }
  obtain ⟨-, hctxs⟩ := Prod.ext_iff.mp (foldl_queueErr_keeps code (queuesOf marked c (ctxOf s c).gen) marked)
  have hmarked : (ctxOf marked c).slice = (ctxOf s c).slice := (congrArg Ctx.slice (ctxOf_modCtx (reportChanged s (ctxOf s c).slice) c _) :)
  have hctx := (congrArg Ctx.slice (ctxOf_of_ctxs hctxs c) :).trans hmarked
  unfold markFaulted
  dsimp only
  obtain ⟨w, hw⟩ := ctxOf_fenceErr (dropReady ((queuesOf marked c (ctxOf s c).gen).foldl (fun t q => queueErr t q.1 code) marked) c) (ctxOf s c).ffence code c
  exact (congrArg Ctx.slice hw :).trans hctx

theorem ctxOf_writeFaultRecord (e c gen : Nat) (bs : List Byte) (at' k : Nat) : ctxOf (writeFaultRecord s e c gen bs at') k = ctxOf s k := by
  unfold writeFaultRecord
  split
  · rfl
  · exact (congrArg (fun t : State => ctxOf t k) (memWrite_aside ..) :)

theorem writeFaultRecord_slices (e c gen : Nat) (bs : List Byte) (at' : Nat) : (writeFaultRecord s e c gen bs at').slices = s.slices := by
  unfold writeFaultRecord
  split
  · rfl
  · exact (congrArg State.slices (memWrite_aside ..) :)

/-- A returned ADDRESS error of a LIVE context outside direct mode marks it FAULTED, and its record is written. -/
theorem handleReqErr_live {c gen e sub addr : Nat} (hsub : 1 ≤ sub) (hsub' : sub ≤ 7) (hgen : (ctxOf s c).gen = gen)
    (hlive : (ctxOf s c).state = .live) (hdirect : directCtx s (ctxOf s c).slice = false) :
    ∃ (k : Nat) (inTile : Bool) (pc tpc step eclk : Nat),
      handleReqErr s ⟨c, gen, e, 0x200 + sub, addr⟩ =
        writeFaultRecord (markFaulted (abandonTile (draw s 11).1 k c gen) c (0x200 + sub)) k c gen
          (faultRecord 7 sub 0 k inTile true pc tpc addr step eclk) 0 := by
  let k := ((ctxOf s c).eng).getD e
  have hcode : codeOfFence (0x200 + sub) = (7, sub) := by
    have hkey : codeKey (0x200 + sub) = 0x200 + sub := Nat.mod_eq_of_lt (by omega)
    unfold codeOfFence
    simp only [hkey]
    rw [if_pos (by simp; omega)]
    simp
  have hrecover (w : State) (hslices : w.slices = s.slices) (hslice : (ctxOf w c).slice = (ctxOf s c).slice) : directRecover w c = w := by
    refine if_neg ?_
    rw [hslice, directCtx, sliceOf, hslices]
    exact Bool.eq_false_iff.mp hdirect
  let v := markFaulted (abandonTile (draw s 11).1 k c gen) c (0x200 + sub)
  have hkept : (abandonTile (draw s 11).1 k c gen).slices = s.slices := by
    unfold abandonTile
    dsimp only
    split <;> rfl
  have hslices : v.slices = s.slices :=
    (congrArg (fun x : List (Nat × Region) × List (Nat × Slice) × (Nat → Engine) => x.2.1) (markFaulted_standing ..) :).trans hkept
  have hslice : (ctxOf v c).slice = (ctxOf s c).slice := (markFaulted_slice ..).trans (congrArg Ctx.slice (ctxOf_abandonTile ..))
  unfold handleReqErr
  simp only [hgen, hlive, hcode]
  rw [if_neg (by simp), if_neg (by omega)]
  unfold faultCtx
  simp only [hgen, hlive, faultFenceCode, ne_eq, not_true, if_false, if_true]
  rw [hrecover]
  · exact ⟨_, _, _, _, _, _, rfl⟩
  · exact (writeFaultRecord_slices ..).trans hslices
  · exact (congrArg Ctx.slice (ctxOf_writeFaultRecord ..)).trans hslice

/-- An error under a stale generation does nothing. -/
theorem handleReqErr_stale {r : ReqErr} (h : (ctxOf s r.ctx).gen ≠ r.gen) : handleReqErr s r = s := if_pos (by simp [h])

end

/-- Settles O53: an event is counted as `classify_counts` says, whatever its reaction does, and a returned error is `handleReqErr_live`'s. -/
theorem errorEventsAndRequestErrorsAreHandled : Obligations.ErrorEventsAndRequestErrorsAreHandled := by
  unfold Obligations.ErrorEventsAndRequestErrorsAreHandled
  intro before severe counted
  refine ⟨?waiting, ?raised, ?registers, ?returned, ?stale⟩
  case waiting =>
    intro l s hnext hat hroot hclear
    let u : State := { s with fc := { s.fc with lines := s.fc.lines.erase l } }
    have hexec : exec (.errorEvent none) s = guardRes s (l.at' < s.fc.sclk && s.pins.rootclk ≠ 1) (classify u l) := by
      show (match nextEvent s.fc.lines with | none => _ | some l => _) = _
      rw [hnext]
    obtain ⟨hevents, hsevere, hbit⟩ := classify_counts u l
    refine Ends.of_guard hexec (by simp [hat, hroot]) hclear ⟨⟨hevents, hsevere, fun hl => hbit (by omega)⟩, fun hquiet => ?_⟩
    rw [classify_quiet u l hquiet]
    exact ⟨rfl, rfl, rfl⟩
  case raised =>
    intro b inst detail s hfrom hcold hroot hclear
    obtain ⟨hevents, hsevere, hbit⟩ := classify_counts s ⟨b, inst, none, detail, false, s.fc.sclk⟩
    obtain ⟨hcnt, hstatus⟩ := outsideEffect_counts (classify s ⟨b, inst, none, detail, false, s.fc.sclk⟩) b inst detail
    refine Ends.of_guard (s := s) rfl (by simp [hfrom, hcold, hroot]) hclear ⟨?_, ?_, fun hl hs hr => hstatus b (hbit (Nat.lt_trans hl (by decide)) hs hr)⟩
    · rw [hcnt]
      exact hevents
    · rw [hcnt]
      exact hsevere
  case registers =>
    intro path v s hup hsec hopen hclear
    have hends : clear (awake s) = true := (clear_awake s).trans hclear
    obtain ⟨ck, hck⟩ := awake_frame s
    refine ⟨?_, ?_, ?_⟩
    · have hexec : exec (.fcStatusClear path v) s = fcWrite path (fun s => portsResumed (statusCleared s v)) s := rfl
      have hin := portsResumed_inward (statusCleared (awake s) v)
      have hstuck : (portsResumed (statusCleared (awake s) v)).sv = (awake s).sv := (congrArg State.sv hin :)
      have hstatus : (portsResumed (statusCleared (awake s) v)).fc.status = (statusCleared (awake s) v).fc.status :=
        (congrArg (fun t : State => t.fc.status) hin :)
      refine Ends.of_settle (hexec.trans (fcWrite_secure s hup hsec hopen _)) ((clear_eq_of_sv hstuck).trans hends) fun b hb => ?_
      have hlevel : levelBits (awake s) = levelBits s := by unfold awake; split <;> rfl
      rw [hstatus, bit_statusCleared _ v hb, hlevel, hck]
    · have hexec : exec (.fcLock path) s = fcWrite path collectorLocked s := rfl
      refine Ends.of_settle (hexec.trans (fcWrite_secure s hup hsec hopen _)) hends ?_
      rw [hck]
      exact ⟨rfl, rfl, rfl⟩
    · have hexec : exec (.fcInjectArm path v) s = fcWrite path (fun s => injectionArmed s v) s := rfl
      obtain ⟨harm, hcount⟩ := inject_fields v
      refine Ends.of_settle (hexec.trans (fcWrite_secure s hup hsec hopen _)) hends ?_
      dsimp only [injectionArmed]
      rw [hck, harm, hcount]
  case returned =>
    intro c gen e code addr s he hlow hhigh
    have hcond : (0x201 ≤ code && code ≤ 0x207 || code = cPOISON || code = cFENCED_UNIT) = true := by simp [hlow, hhigh]
    refine ⟨fun hgen hclear => ?_, fun hgen hlive hdirect hclear => ?_⟩
    · have hstale := handleReqErr_stale s (r := ⟨c, gen, e, code, addr⟩) hgen
      exact Ends.of_unit (s := s) (t := s) (congrArg (unitRes _ s _) hstale) he hcond hclear rfl
    · obtain ⟨sub, rfl⟩ : ∃ sub, code = 0x200 + sub := ⟨code - 0x200, by omega⟩
      obtain ⟨k, inTile, pc, tpc, step, eclk, h⟩ := handleReqErr_live s (e := e) (addr := addr) (sub := sub) (by omega) (by omega) hgen hlive hdirect
      obtain ⟨hstate, hcode⟩ := markFaulted_ctx (abandonTile (draw s 11).1 k c gen) c (0x200 + sub)
      refine Ends.of_unit (s := s) rfl he hcond hclear ⟨_, k, inTile, pc, tpc, step, eclk, ?_, hstate, hcode⟩
      rw [h, Nat.add_sub_cancel_left]
  case stale =>
    intro r rest s hnext hgen hclear
    have hstale := handleReqErr_stale { s with reqErrs := rest } (r := r) hgen
    refine Ends.of_settle (t := { s with reqErrs := rest }) ?_ hclear rfl
    show (match s.reqErrs with | [] => _ | r :: rest => _) = _
    rw [hnext]
    exact congrArg settle hstale

end Sys2Proof.Machine
end

section
/-! PROOFS. Teardowns (O41): what their start leaves of the context, and what their end removes. -/
namespace Sys2Proof.Machine

/-! ## The start of a teardown (R446 steps 1 and 2) -/

section
variable {γ : Type} (π : State → γ)

/-- Discarding packets reads memory, and changes fences and queues. -/
theorem discardPackets_keeps (haside : ∀ s t : State, t.aside = s.aside → π t = π s) (hfence : ∀ t f code, π (fenceErr t f code) = π t)
    (hqueues : ∀ (t : State) qs, π { t with queues := qs } = π t) (s : State) (slice qn : Nat) (q : Queue) (code : Nat) :
    π (discardPackets s slice qn q code) = π s := by
  unfold discardPackets
  dsimp only
  refine (hqueues _ _).trans ?_
  have hpackets : ∀ (t : State) (i : Nat), π (match ringPacket t slice q (q.head + b2n q.busy + i) with
      | (t, ws) => match packetSignal ws with
        | some f => fenceErr t f code
        | none => t) = π t := fun t i => by
    have hread := haside _ _ (ringPacket_aside t slice q (q.head + b2n q.busy + i))
    dsimp only
    split
    · exact (hfence ..).trans hread
    · exact hread
  split
  · refine (foldl_keeps π (fun t m => ?_) _ _).trans (foldl_keeps π hpackets _ s)
    split
    · exact hqueues ..
    · rfl
  · exact foldl_keeps π hpackets _ s

end

section
variable (s : State) (c : Nat)

/-- The state as step 1 of a teardown marks its context. -/
def tearMarked (code : Nat) (status : Option StatusAt) (relive : Bool) : State :=
  modCtx (reportChanged s (ctxOf s c).slice) c fun y =>
    { y with state := .tearing, tear := some ⟨2, s.pclk, code, status, relive, false⟩, waitOn := none }

/-- The packets of the context's queues are discarded. -/
def tearDiscarded (x : Ctx) (code : Nat) : State := (queuesOf s c x.gen).foldl (fun t q => discardPackets t x.slice q.1 q.2 code) s

/-- Engines that run the context are asked to switch, and what has not started of it goes. -/
def tearAsked (gen : Nat) : State :=
  { s with
    engines := s.engines.map fun e =>
      if e.2.ctx = some (c, gen) then (e.1, { e.2 with switchReq := true, preempt := false, wait := none }) else e,
    asyncs := s.asyncs.filter fun a => !(a.ctx = c && a.gen = gen && a.queued),
    clusters := s.clusters.map fun k =>
      (k.1, { k.2 with shuttle := k.2.shuttle.filter fun o => !(o.ctx = c && o.gen = gen && !o.started) }),
    sched := { s.sched with ready := s.sched.ready.filter (· ≠ c) } }

theorem tearStart_eq (code : Nat) (status : Option StatusAt) (relive : Bool) : tearStart s c code status relive =
    tearAdvance (tearAsked (tearDiscarded (tearMarked s c code status relive) c (ctxOf s c) code) c (ctxOf s c).gen) c := rfl

/-- A context but for the wait in which it was switched out. -/
def ctxAsleep (k : Nat) : Ctx := { ctxOf s k with waitOn := none }

theorem ctxAsleep_fenceErr (k f code : Nat) : ctxAsleep (fenceErr s f code) k = ctxAsleep s k := by
  obtain ⟨w, h⟩ := ctxOf_fenceErr s f code k
  unfold ctxAsleep
  rw [h]

theorem ctxAsleep_tearDiscarded (k : Nat) (x : Ctx) (code : Nat) : ctxAsleep (tearDiscarded s c x code) k = ctxAsleep s k :=
  foldl_keeps (fun t => ctxAsleep t k) (fun t (q : Nat × Queue) => discardPackets_keeps (fun t => ctxAsleep t k)
    (fun _ _ h => (congrArg (fun t : State => ctxAsleep t k) h :)) (fun t f code => ctxAsleep_fenceErr t k f code) (fun _ _ => rfl)
    t x.slice q.1 q.2 code) _ s

/-- The fences with waits of a context that no engine runs are abandoned, and its receive windows close. -/
def tearAbandoned (gen slice code : Nat) (relive : Bool) : State :=
  let s := if relive then s
    else (List.range s.cfg.halves).foldl (fun t h =>
      (tallyOf t h).fences.foldl (fun t f =>
        let i := 131072 * h + f.1
        if f.2.state = 1 && f.2.ctx = c && f.2.gen = gen && f.2.slice = slice && hasWait t i then
          fenceErr t i (if code = cDEBUG_TEARDOWN then code else cABANDONED) else t) t) s
  { s with windows := s.windows.filter fun w => !(w.2.ctx = c && w.2.gen = gen) }

theorem tearAdvance_eq {td : Teardown} (h : (ctxOf s c).tear = some td) : tearAdvance s c =
    if td.step = 2 && !runsOn s c (ctxOf s c).gen then
      modCtx (tearAbandoned s c (ctxOf s c).gen (ctxOf s c).slice td.code td.relive) c fun y => { y with tear := some { td with step := 4 } }
    else s := by
  unfold tearAdvance
  dsimp only
  rw [h] <;> rfl

theorem ctxAsleep_tearAbandoned (gen slice code : Nat) (relive : Bool) (k : Nat) : ctxAsleep (tearAbandoned s c gen slice code relive) k = ctxAsleep s k := by
  unfold tearAbandoned
  dsimp only
  split
  · rfl
  · refine foldl_keeps (fun t => ctxAsleep t k) (fun t h => foldl_keeps (fun t => ctxAsleep t k) (fun t f => ?_) _ t) _ s
    split
    · exact ctxAsleep_fenceErr ..
    · rfl

/-- Steps 3 and 4 move the teardown on, and change nothing else of the context than its wait. -/
theorem tearAdvance_ctx {td : Teardown} (h : (ctxOf s c).tear = some td) :
    ∃ n, ctxAsleep (tearAdvance s c) c = { ctxAsleep s c with tear := some { td with step := n } } := by
  rw [tearAdvance_eq s c h]
  split
  · refine ⟨4, ?_⟩
    unfold ctxAsleep
    rw [ctxOf_modCtx]
    have hkept := ctxAsleep_tearAbandoned s c (ctxOf s c).gen (ctxOf s c).slice td.code td.relive c
    exact (congrArg (fun y : Ctx => { y with tear := some { td with step := 4 } }) hkept :)
  · refine ⟨td.step, ?_⟩
    unfold ctxAsleep
    rw [← h]

/-- A teardown that starts has its context TEARING. -/
theorem tearStart_ctx (code : Nat) (status : Option StatusAt) (relive : Bool) :
    (ctxOf (tearStart s c code status relive) c).state = .tearing ∧
      ∃ d, (ctxOf (tearStart s c code status relive) c).tear = some d ∧ d.relive = relive := by
  let u := tearAsked (tearDiscarded (tearMarked s c code status relive) c (ctxOf s c) code) c (ctxOf s c).gen
  have hu : ctxAsleep u c = { ctxOf s c with state := .tearing, tear := some ⟨2, s.pclk, code, status, relive, false⟩, waitOn := none } :=
    (ctxAsleep_tearDiscarded (tearMarked s c code status relive) c c (ctxOf s c) code).trans
      (congrArg (fun y : Ctx => { y with waitOn := none }) (ctxOf_modCtx (reportChanged s (ctxOf s c).slice) c _))
  have htear : (ctxOf u c).tear = some ⟨2, s.pclk, code, status, relive, false⟩ := (congrArg Ctx.tear hu :)
  obtain ⟨n, h⟩ := tearAdvance_ctx u c htear
  rw [tearStart_eq]
  exact ⟨(congrArg Ctx.state h :).trans (congrArg Ctx.state hu :), _, (congrArg Ctx.tear h :), rfl⟩

/-- The engines but for their waits, in a table's form. -/
def enginesAwake : List (Nat × Engine) := s.engines.map fun e => (e.1, { e.2 with wait := none })

theorem enginesAwake_fenceErr (f code : Nat) : enginesAwake (fenceErr s f code) = enginesAwake s := by
  have hword (t : State) (h off : Nat) : enginesAwake (presentWord t h off) = enginesAwake t := by
    obtain ⟨w, hw⟩ : ∃ w : WaitRec → WaitRec, (presentWord t h off).engines = t.engines.map fun e => (e.1, { e.2 with wait := e.2.wait.map w }) :=
      ⟨_, rfl⟩
    unfold enginesAwake
    rw [hw, List.map_map]
    rfl
  unfold fenceErr
  split
  · rfl
  · exact hword ..

theorem tearAdvance_asyncs : (tearAdvance s c).asyncs = s.asyncs :=
  tearAdvance_keeps State.asyncs (fun t f code => by unfold fenceErr; split <;> rfl) (fun _ _ => rfl) (fun _ _ _ => rfl) s c

theorem tearAdvance_clusters : (tearAdvance s c).clusters = s.clusters :=
  tearAdvance_keeps State.clusters (fun t f code => by unfold fenceErr; split <;> rfl) (fun _ _ => rfl) (fun _ _ _ => rfl) s c

theorem tearAdvance_engines : enginesAwake (tearAdvance s c) = enginesAwake s :=
  tearAdvance_keeps enginesAwake enginesAwake_fenceErr (fun _ _ => rfl) (fun _ _ _ => rfl) s c

/-- Nothing that has not started is left of a context whose teardown has started, and engines that run it are asked to switch. -/
theorem tearStart_ops (code : Nat) (status : Option StatusAt) (relive : Bool) :
    (∀ a ∈ (tearStart s c code status relive).asyncs, a.ctx = c → a.gen = (ctxOf s c).gen → a.queued = false) ∧
      (∀ k o, o ∈ (clOf (tearStart s c code status relive) k).shuttle → o.ctx = c → o.gen = (ctxOf s c).gen → o.started = true) ∧
      (∀ e g, (e, g) ∈ (tearStart s c code status relive).engines → g.ctx = some (c, (ctxOf s c).gen) → g.switchReq = true) := by
  rw [tearStart_eq]
  generalize tearDiscarded (tearMarked s c code status relive) c (ctxOf s c) code = v
  generalize (ctxOf s c).gen = gen
  refine ⟨fun a ha hc hgen => ?_, fun k o ho hc hgen => ?_, fun e g he hctx => ?_⟩
  · rw [tearAdvance_asyncs] at ha
    have h := (List.mem_filter.mp ha).2
    simpa [hc, hgen] using h
  · have hcl : clOf (tearAdvance (tearAsked v c gen) c) k =
        { clOf v k with shuttle := (clOf v k).shuttle.filter fun o => !(o.ctx = c && o.gen = gen && !o.started) } := by
      rw [clOf, tearAdvance_clusters]
      exact mget_map Cluster.zero (fun x => { x with shuttle := x.shuttle.filter fun o => !(o.ctx = c && o.gen = gen && !o.started) }) rfl v.clusters k
    rw [hcl] at ho
    have h := (List.mem_filter.mp ho).2
    simpa [hc, hgen] using h
  · have hmem : (e, { g with wait := none }) ∈ enginesAwake (tearAdvance (tearAsked v c gen) c) := List.mem_map.mpr ⟨(e, g), he, rfl⟩
    rw [tearAdvance_engines] at hmem
    obtain ⟨⟨e', g'⟩, hg', heq⟩ := List.mem_map.mp hmem
    obtain ⟨x, -, hx⟩ := List.mem_map.mp hg'
    simp only [Prod.mk.injEq] at heq
    obtain ⟨-, hsame⟩ := heq
    have hsctx : g'.ctx = g.ctx := (congrArg Engine.ctx hsame :)
    have hsreq : g'.switchReq = g.switchReq := (congrArg Engine.switchReq hsame :)
    rw [← hsreq]
    split at hx
    case isTrue =>
      obtain ⟨-, rfl⟩ := Prod.mk.inj hx
      rfl
    case isFalse hrun =>
      subst hx
      exact absurd (hsctx.trans hctx) hrun

/-- A teardown's start leaves a port ring as busy as it is. -/
theorem tearStart_busy (code : Nat) (status : Option StatusAt) (relive : Bool) (p : Nat) :
    (ringOf (tearStart s c code status relive) p).busy = (ringOf s p).busy := by
  have hfence (t : State) (f code : Nat) : (ringOf (fenceErr t f code) p).busy = (ringOf t p).busy :=
    (congrArg (fun x : (Nat → Option Queue) × (Nat → PortRing) × Selvage => (x.2.1 p).busy) (fenceErr_unheld t f code) :)
  have hdiscard (x : Ctx) (t : State) : (ringOf (tearDiscarded t c x code) p).busy = (ringOf t p).busy :=
    foldl_keeps (fun t => (ringOf t p).busy) (fun t (q : Nat × Queue) => discardPackets_keeps (fun t => (ringOf t p).busy)
      (fun _ _ h => (congrArg (fun t : State => (ringOf t p).busy) h :)) hfence (fun _ _ => rfl) t x.slice q.1 q.2 code) _ t
  rw [tearStart_eq, tearAdvance_keeps (fun t => (ringOf t p).busy) hfence (fun _ _ => rfl) (fun _ _ _ => rfl)]
  exact (hdiscard _ _).trans rfl

end

/-! ## The end of a teardown (R446 steps 5 and 6) -/

/-- Every element of a list makes its fact true, and no other undoes it. -/
theorem foldl_makes {σ β : Type} {P : β → σ → Prop} {f : σ → β → σ} (hkeep : ∀ x b b', P b x → P b (f x b')) (hmake : ∀ x b, P b (f x b))
    (l : List β) (x : σ) : ∀ b, b ∈ l ∨ P b x → P b (l.foldl f x) := by
  induction l generalizing x with
  | nil => exact fun b h => h.resolve_left (nomatch ·)
  | cons a l ih =>
    intro b h
    refine ih (f x a) b ?_
    rcases h with h | h
    · rcases List.mem_cons.mp h with rfl | h
      · exact .inr (hmake x b)
      · exact .inl h
    · exact .inr (hkeep x b a h)

section
variable (s : State) (c gen : Nat)

/-- Entry `i` of cluster `k` is no valid region of the context's generation. -/
def notHeld (k i : Nat) (t : State) : Prop := ¬ ((boltRegion t k i).valid = true ∧ (boltRegion t k i).ctx = c ∧ (boltRegion t k i).gen = gen)

/-- Release a region where the context holds it. -/
def releaseHeld (t : State) (k i : Nat) : State :=
  let r := boltRegion t k i
  if r.valid && r.ctx = c && r.gen = gen then releaseRegion t k i else t

theorem notHeld_releaseHeld (t : State) (k i : Nat) : notHeld c gen k i (releaseHeld c gen t k i) := by
  unfold notHeld releaseHeld
  dsimp only
  split
  case isTrue h =>
    rw [releaseRegion, boltRegion_modBoltRegion]
    split <;> simp_all
  case isFalse h => simpa [and_assoc] using h

theorem notHeld_releaseHeld_keeps {t : State} {k i : Nat} (h : notHeld c gen k i t) (k' i' : Nat) : notHeld c gen k i (releaseHeld c gen t k' i') := by
  by_cases hk : k = k' ∧ i = i'
  · obtain ⟨rfl, rfl⟩ := hk
    exact notHeld_releaseHeld c gen t k i
  · have hsame : boltRegion (releaseHeld c gen t k' i') k i = boltRegion t k i := by
      unfold releaseHeld
      dsimp only
      split
      · by_cases hkk : k = k'
        · subst hkk
          exact boltRegion_modBoltRegion_ne t k _ fun hi => hk ⟨rfl, hi⟩
        · rw [boltRegion, releaseRegion, modBoltRegion, clOf_modCl_ne _ _ hkk]
          rfl
      · rfl
    unfold notHeld
    rw [hsame]
    exact h

/-- No region of the context's generation stays valid. -/
theorem releaseRegions_notHeld {k i : Nat} (hk : k < s.cfg.clusters) (hi : i < 64) : notHeld c gen k i (releaseRegions s c gen) := by
  have heq : releaseRegions s c gen = (List.range s.cfg.clusters).foldl (fun t k => (List.range 64).foldl (fun t i => releaseHeld c gen t k i) t) s := rfl
  rw [heq]
  refine foldl_makes (P := fun k t => notHeld c gen k i t) (fun t k k' h => ?_) (fun t k => ?_) _ s k (.inl (List.mem_range.mpr hk))
  · exact List.foldlRecOn _ _ h fun u hu j _ => notHeld_releaseHeld_keeps c gen hu k' j
  · exact foldl_makes (P := fun i t => notHeld c gen k i t) (fun u i j h => notHeld_releaseHeld_keeps c gen h k j)
      (fun u i => notHeld_releaseHeld c gen u k i) _ t i (.inl (List.mem_range.mpr hi))

end

/-! ## What the stages of the end leave alone -/

/-- Contexts, queues, memory objects, cached translations, Bolt regions and the memory engines. -/
def State.holdings (s : State) : List (Nat × Ctx) × List (Nat × Queue) × List (Nat × MemObj) × List AtuEnt × List (Nat × Cluster) × Selvage :=
  (s.ctxs, s.queues, s.memObjs, s.atu, s.clusters, s.sv)

section
variable (s : State) (c : Nat)

theorem holdings_of_besideRings {s t : State} (h : t.besideRings = s.besideRings) : t.holdings = s.holdings := (congrArg State.holdings h :)

theorem granulesGone_holdings (relive : Bool) : (granulesGone s c relive).holdings = s.holdings :=
  foldl_keeps State.holdings (fun t h => by rfl) _ s

theorem progGone_holdings (x : Ctx) : (progGone s x).holdings = s.holdings := by
  unfold progGone
  rcases x.prog with _ | p
  · rfl
  · dsimp only
    rcases hring : p.ring with q | port
    · rfl
    · dsimp only
      split
      · exact holdings_of_besideRings ((finishRing_besideRings ..).trans (writeStatus_besideRings ..))
      · exact holdings_of_besideRings (finishRing_besideRings ..)

theorem fencesKept_holdings (relive : Bool) (gen : Nat) : (fencesKept s c relive gen).holdings = s.holdings := by
  unfold fencesKept
  split
  · exact foldl_keeps State.holdings (fun t h => by rfl) _ s
  · rfl

theorem tearAnswered_holdings (x : Ctx) : (tearAnswered s x).holdings = s.holdings := by
  unfold tearAnswered
  split
  · exact holdings_of_besideRings ((finishRing_besideRings ..).trans (writeStatus_besideRings ..))
  · rfl

theorem endRod_holdings (q : Nat) : (endRod s q).holdings = s.holdings := by
  unfold endRod
  split
  · dsimp only
    split
    · refine Eq.trans rfl (foldl_keeps State.holdings (fun t b => ?_) _ s)
      split <;> rfl
    · rfl
  · rfl

theorem queuesGone_holdings (gen : Nat) : (queuesGone s c gen).holdings =
    { s with queues := s.queues.filter fun q => !(q.2.ctx = c && q.2.gen = gen) }.holdings := by
  have h := foldl_keeps State.holdings (fun t (q : Nat × Queue) => endRod_holdings t q.1) (queuesOf s c gen) s
  have hrods := congrArg (fun x : List (Nat × Ctx) × List (Nat × Queue) × List (Nat × MemObj) × List AtuEnt × List (Nat × Cluster) × Selvage =>
    (x.1, x.2.1.filter fun q => !(q.2.ctx = c && q.2.gen = gen), x.2.2)) h
  exact hrods

theorem releaseRegions_holdings (gen : Nat) :
    (releaseRegions s c gen).ctxs = s.ctxs ∧ (releaseRegions s c gen).queues = s.queues ∧ (releaseRegions s c gen).memObjs = s.memObjs ∧
      (releaseRegions s c gen).atu = s.atu ∧ (releaseRegions s c gen).sv = s.sv := by
  have h := foldl_keeps (fun t : State => (t.ctxs, t.queues, t.memObjs, t.atu, t.sv)) (f := fun t k =>
    (List.range 64).foldl (fun t i => releaseHeld c gen t k i) t) (fun t k =>
    foldl_keeps (fun t : State => (t.ctxs, t.queues, t.memObjs, t.atu, t.sv)) (f := fun t i => releaseHeld c gen t k i) (fun u i => by
      unfold releaseHeld
      dsimp only
      split <;> rfl) _ t) (List.range s.cfg.clusters) s
  simp only [Prod.mk.injEq] at h
  exact h

/-- The state of a teardown's end as its regions are released. -/
def tearReleasing : State := granulesGone (queuesGone (namesGone s c (ctxOf s c).gen) c (ctxOf s c).gen) c (relives s c)

theorem tearReleasing_holdings : (tearReleasing s c).holdings =
    { s with
      atu := s.atu.filter fun a => !(a.ctx = c && a.gen = (ctxOf s c).gen),
      memObjs := s.memObjs.filter fun o => !(o.2.ctx = c && o.2.gen = (ctxOf s c).gen),
      queues := s.queues.filter fun q => !(q.2.ctx = c && q.2.gen = (ctxOf s c).gen) }.holdings :=
  (granulesGone_holdings ..).trans (queuesGone_holdings (namesGone s c (ctxOf s c).gen) c (ctxOf s c).gen)

theorem tearReleasing_cfg : (tearReleasing s c).cfg = s.cfg := by
  have h : (tearReleasing s c).control = s.control := (granulesGone_control ..).trans ((queuesGone_control ..).trans rfl)
  exact congrArg (fun x : Cfg × Pins × Lc × Ck × Fc => x.1) h

theorem tearReleased_holdings : (tearReleased s c).holdings = (releaseRegions (tearReleasing s c) c (ctxOf s c).gen).holdings :=
  (fencesKept_holdings ..).trans (progGone_holdings ..)

/-- The end of a teardown removes what the context's old generation holds, and leaves the contexts but for it alone. -/
theorem tearReleased_spec :
    (tearReleased s c).ctxs = s.ctxs ∧ (tearReleased s c).queues = (s.queues.filter fun q => !(q.2.ctx = c && q.2.gen = (ctxOf s c).gen)) ∧
      (tearReleased s c).memObjs = (s.memObjs.filter fun o => !(o.2.ctx = c && o.2.gen = (ctxOf s c).gen)) ∧
      (tearReleased s c).atu = (s.atu.filter fun a => !(a.ctx = c && a.gen = (ctxOf s c).gen)) ∧ (tearReleased s c).sv = s.sv ∧
      ∀ k i, k < s.cfg.clusters → i < 64 → notHeld c (ctxOf s c).gen k i (tearReleased s c) := by
  have hheld := tearReleased_holdings s c
  have hbefore := tearReleasing_holdings s c
  have hcfg := tearReleasing_cfg s c
  obtain ⟨hctxs, hqueues, hobjs, hatu, hsv⟩ := releaseRegions_holdings (tearReleasing s c) c (ctxOf s c).gen
  simp only [State.holdings, Prod.mk.injEq] at hheld hbefore
  obtain ⟨hc, hq, ho, ha, hcl, hs⟩ := hheld
  obtain ⟨hc', hq', ho', ha', -, hs'⟩ := hbefore
  refine ⟨hc.trans (hctxs.trans hc'), hq.trans (hqueues.trans hq'), ho.trans (hobjs.trans ho'), ha.trans (hatu.trans ha'), hs.trans (hsv.trans hs'),
    fun k i hk hi => ?_⟩
  have h := releaseRegions_notHeld (tearReleasing s c) c (ctxOf s c).gen (by rwa [hcfg]) hi
  unfold notHeld at h ⊢
  rwa [boltRegion_of_clusters hcl]

/-- The end of a teardown: the context stands under its next generation, and nothing of the old one is left. -/
theorem tearEnd_spec :
    (ctxOf (tearEnd s c) c) = ctxFreed (relives s c) (ctxOf s c) (ctxOf s c) ∧ (∀ k, k ≠ c → ctxOf (tearEnd s c) k = ctxOf s k) ∧
      (tearEnd s c).queues = (s.queues.filter fun q => !(q.2.ctx = c && q.2.gen = (ctxOf s c).gen)) ∧
      (tearEnd s c).memObjs = (s.memObjs.filter fun o => !(o.2.ctx = c && o.2.gen = (ctxOf s c).gen)) ∧
      (tearEnd s c).atu = (s.atu.filter fun a => !(a.ctx = c && a.gen = (ctxOf s c).gen)) ∧ (tearEnd s c).sv = s.sv ∧
      ∀ k i, k < s.cfg.clusters → i < 64 → notHeld c (ctxOf s c).gen k i (tearEnd s c) := by
  let u := modCtx (reportChanged (tearReleased s c) (ctxOf s c).slice) c (ctxFreed (relives s c) (ctxOf s c))
  have hend : (tearEnd s c).holdings = u.holdings := tearAnswered_holdings u (ctxOf s c)
  obtain ⟨hctxs, hqueues, hobjs, hatu, hsv, hregions⟩ := tearReleased_spec s c
  simp only [State.holdings, Prod.mk.injEq] at hend
  obtain ⟨hc, hq, ho, ha, hcl, hs⟩ := hend
  have hsame (k : Nat) : ctxOf (reportChanged (tearReleased s c) (ctxOf s c).slice) k = ctxOf s k := ctxOf_of_ctxs hctxs k
  refine ⟨?_, fun k hk => ?_, hq.trans hqueues, ho.trans hobjs, ha.trans hatu, hs.trans hsv, fun k i hk hi => ?_⟩
  · rw [ctxOf_of_ctxs hc, ctxOf_modCtx, hsame]
  · rw [ctxOf_of_ctxs hc, ctxOf_modCtx_ne _ _ hk, hsame]
  · have h := hregions k i hk hi
    unfold notHeld at h ⊢
    rwa [boltRegion_of_clusters hcl]

end

/-- Settles O41: the start of a teardown is `tearStart_ctx`'s and `tearStart_ops`', its end `tearEnd_spec`'s. -/
theorem teardownsReleaseTheContextAndRaiseItsGeneration : Obligations.TeardownsReleaseTheContextAndRaiseItsGeneration := by
  unfold Obligations.TeardownsReleaseTheContextAndRaiseItsGeneration
  refine ⟨?start, ?done⟩
  case start =>
    intro p ws s htakes hty c hfault hclear
    let u := modRing s p fun x => { x with busy := true }
    let status := some (statusOf s p (ringOf s p).head ws)
    have hpacket := packet_port (ok := (· = 0x82)) (body := fun s k =>
      match ctxFault s k (field (k.w 0) 16 11) (field (k.w 0) 32 8) true with
      | some code => .fail s code
      | none => .hold (tearStart (modRing s k.port fun x => { x with busy := true }) (field (k.w 0) 16 11) cTORN_DOWN
          (some (statusOf s k.port (ringOf s k.port).head ws)) false)) htakes (decide_eq_true hty) (by rw [hty]; decide)
    have hbody : (match ctxFault s (portPkt s p ws) c (field (ws.getD 0 0) 32 8) true with
      | some code => PRes.fail s code
      | none => PRes.hold (tearStart u c cTORN_DOWN status false)) = PRes.hold (tearStart u c cTORN_DOWN status false) := by rw [hfault]
    have hexec : exec (.ctxDestroy (.port p) ws) s = settle (tearStart u c cTORN_DOWN status false) :=
      hpacket.trans (congrArg (endPacket (portPkt s p ws)) hbody)
    obtain ⟨hstate, htear⟩ := tearStart_ctx u c cTORN_DOWN status false
    obtain ⟨hasyncs, hshuttle, hengines⟩ := tearStart_ops u c cTORN_DOWN status false
    refine Ends.of_settle hexec hclear ⟨hstate, htear, ?_, hasyncs, hshuttle, hengines⟩
    rw [tearStart_busy, ringOf_modRing]
  case done =>
    intro c td s htear hstep hdrained hclear
    obtain ⟨hself, hother, hqueues, hobjs, hatu, hsv, hregions⟩ := tearEnd_spec s c
    have hrelive : relives s c = (td.relive && directCtx s 0) := by simp [relives, htear]
    refine Ends.of_guard (s := s) (t := tearEnd s c) rfl (by simp [htear, hstep, hdrained]) ((clear_eq_of_sv hsv).trans hclear)
      ⟨?_, ?_, ?_, ?_, ?_, ?_, hregions, hother⟩
    · rw [hself, ctxFreed]
      split <;> rfl
    · rw [hself, ctxFreed]
      split <;> rfl
    · rw [hself, ctxFreed, hrelive]
      split <;> rfl
    · rw [hqueues]
      rintro q hq ⟨hctx, hgen⟩
      simpa [hctx, hgen] using (List.mem_filter.mp hq).2
    · rw [hobjs]
      rintro o ho ⟨hctx, hgen⟩
      simpa [hctx, hgen] using (List.mem_filter.mp ho).2
    · rw [hatu]
      rintro a ha ⟨hctx, hgen⟩
      simpa [hctx, hgen] using (List.mem_filter.mp ha).2

end Sys2Proof.Machine
end

section
/-! PROOFS. Rods, beads and quotas follow their packets (O43). -/
namespace Sys2Proof.Machine

/-! ## The bead store (R406 to R410) -/

/-- Passing a packet that changed the scheduling state alone leaves the rest as it was. -/
theorem schedPassed_rest {s u : State} {q : Nat} (hu : { s with sched := u.sched } = u) :
    { finishRing u 1 (.queue q) with queues := s.queues, sched := s.sched } = s := by
  rw [← hu]; rfl

/-- A packet that changed the scheduling state alone passes. -/
theorem ends_schedPassed {i : Instr} {s u : State} {q : Nat} {x : Queue} {k : Pkt} {P : State → Prop} (hq : queueOf s q = some x)
    (hclear : clear s = true) (hk : k.ring = .queue q) (hu : { s with sched := u.sched } = u) (h : exec i s = endPacket k (.done u 0))
    (hP : P (finishRing u 1 (.queue q))) :
    Ends i s fun t => QueuePassed q x t ∧ ({ t with queues := s.queues, sched := s.sched } = s ∧ OnlyQueue q s t) ∧ P t := by
  have hqueues : u.queues = s.queues := (congrArg State.queues hu).symm
  have hc : clear u = true := (congrArg clear hu).symm.trans hclear
  obtain ⟨t, ht, hpass, honly, hp⟩ := ends_queuePassed (P := fun t => { t with queues := s.queues, sched := s.sched } = s ∧ P t)
    hk h hc hq hqueues ⟨schedPassed_rest hu, hP⟩
  exact ⟨t, ht, hpass, ⟨hp.1, honly⟩, hp.2⟩

theorem beadOf_beadWaits (s : State) (b k : Nat) : beadOf (beadWaits s b) k = beadOf (modBead s b fun x => { x with state := 1 }) k := rfl

theorem beadOf_queuePassed (s : State) (q k : Nat) : beadOf (finishRing s 1 (.queue q)) k = beadOf s k := rfl

theorem order_beadWaits (s : State) (b : Nat) : (beadWaits s b).sched.order = s.sched.order.filter (· ≠ b) ++ [b] := rfl

/-- The bead that BEAD_ALLOC makes of the free bead `n`, its index written (R406, R409). -/
theorem beadAlloc_made {s u : State} {q n : Nat} {y : Bead} (hu : u.aside = s.aside) (hstate : y.state = 1) :
    let t := finishRing (beadWaits (modBead u n fun _ => y) n) 1 (.queue q)
    beadOf t n = y ∧ t.sched.order.getLast? = some n ∧ (∀ k, k ≠ n → beadOf t k = beadOf s k) ∧
      { t with queues := u.queues, sched := u.sched } = u := by
  have hbead (k : Nat) : beadOf u k = beadOf s k := (congrArg (beadOf · k) hu :)
  refine ⟨?bead, ?last, fun k hk => ?others, ?rest⟩
  case bead => rw [beadOf_queuePassed, beadOf_beadWaits, beadOf_modBead, beadOf_modBead, ← hstate]
  case last => exact (congrArg List.getLast? (order_beadWaits (modBead u n fun _ => y) n)).trans List.getLast?_concat
  case others => rw [beadOf_queuePassed, beadOf_beadWaits, beadOf_modBead_ne _ _ hk, beadOf_modBead_ne _ _ hk, hbead]
  case rest => exact schedPassed_rest (q := q) rfl

section packets
variable {q : Nat} {x : Queue} {ws : List Word} {s : State} (htakes : queueTakes s q x ws = true)
include htakes

/-- ROD_CONFIG of a queue without a rod (R408). -/
theorem execRodConfig_creates (hty : field (ws.getD 0 0) 0 8 = 0x40) {i : Nat} (hset : bit (ws.getD 0 0) 16 = false)
    (hpt : field (ws.getD 1 0) 16 16 ≠ 0) (hman : (shAddr (ws.getD 2 0)).isSome = true) (hrod : rodOf s q = none)
    (hfree : ((List.range 1024).find? fun i => !(s.sched.rods.any fun x => x.1 = i)) = some i) :
    exec (.rodConfig (.queue q) ws) s = endPacket (queuePkt s q x ws) (.done (putRod s i
      ⟨false, q, field (ws.getD 1 0) 0 13 + 1, field (ws.getD 1 0) 32 16, field (ws.getD 1 0) 16 16, ws.getD 2 0, 0, [], none⟩) 0) := by
  have hlegal : ¬ ((decide (field (ws.getD 1 0) 16 16 = 0) || (shAddr (ws.getD 2 0)).isNone) = true) := by
    rw [decide_eq_false hpt, Option.isNone_eq_false_iff.mpr hman]; decide
  show execRodConfig _ _ _ = _
  unfold execRodConfig
  rw [packet_queue htakes (by rw [hty]; rfl) (by rw [hty]; decide)]
  refine congrArg (endPacket _) ((if_neg (Bool.eq_false_iff.mp hset)).trans ((if_neg hlegal).trans ?_))
  simp only [Pkt.w, queuePkt, hrod, hfree]

theorem rodConfig_ends (hclear : clear s = true) (hty : field (ws.getD 0 0) 0 8 = 0x40) {i : Nat} (hset : bit (ws.getD 0 0) 16 = false)
    (hpt : field (ws.getD 1 0) 16 16 ≠ 0) (hman : (shAddr (ws.getD 2 0)).isSome = true) (hrod : rodOf s q = none)
    (hfree : ((List.range 1024).find? fun i => !(s.sched.rods.any fun x => x.1 = i)) = some i) :
    Ends (.rodConfig (.queue q) ws) s fun t => QueuePassed q x t ∧
      (i, (⟨false, q, field (ws.getD 1 0) 0 13 + 1, field (ws.getD 1 0) 32 16, field (ws.getD 1 0) 16 16, ws.getD 2 0, 0, [], none⟩ : Rod))
        ∈ t.sched.rods ∧ t.sched.beads = s.sched.beads ∧ OnlyQueue q s t ∧ { t with queues := s.queues, sched := s.sched } = s := by
  obtain ⟨t, ht, hpass, ⟨hrest, honly⟩, hrods, hbeads⟩ := ends_schedPassed
    (P := fun t => _ ∈ t.sched.rods ∧ t.sched.beads = s.sched.beads)
    (queueOf_of_takes htakes) hclear rfl rfl (execRodConfig_creates htakes hty hset hpt hman hrod hfree) ⟨mem_minsert_same .., rfl⟩
  exact ⟨t, ht, hpass, hrods, hbeads, honly, hrest⟩

/-- A bead packet that the bead's STATE allows (R409). -/
theorem beadPacket_taken {ty : Nat} {ok : Nat → Bool} {f : State → Nat → Pkt → State} (hty : field (ws.getD 0 0) 0 8 = ty) (hne : ty ≠ 0x11)
    (hslice : (beadOf s (field (ws.getD 0 0) 16 16)).slice = (ctxOf s x.ctx).slice) (h0 : (beadOf s (field (ws.getD 0 0) 16 16)).state ≠ 0)
    (hok : ok (beadOf s (field (ws.getD 0 0) 16 16)).state = true) :
    beadPacket ty ok f (.queue q) ws s =
      endPacket (queuePkt s q x ws) (.done (f s (field (ws.getD 0 0) 16 16) (queuePkt s q x ws)) 0) := by
  unfold beadPacket
  rw [packet_queue htakes (decide_eq_true hty) (hty ▸ hne)]
  have hmay : ¬ ((decide ((beadOf s (field (ws.getD 0 0) 16 16)).state = 0) ||
      decide ((beadOf s (field (ws.getD 0 0) 16 16)).slice ≠ (ctxOf s x.ctx).slice)) = true) := by
    rw [decide_eq_false h0, decide_eq_false (not_not_intro hslice)]; decide
  exact congrArg (endPacket _) ((if_neg hmay).trans (if_neg (by rw [Bool.not_eq_true', Bool.not_eq_false]; exact hok)))

/-- A bead packet that changes one bead passes with that bead changed. -/
theorem ends_beadPassed {i : Instr} {b : Nat} {k : Pkt} {f : Bead → Bead} {u : State} (hclear : clear s = true) (hk : k.ring = .queue q)
    (hu : { s with sched := u.sched } = u) (hbeads : u.sched.beads = (modBead s b f).sched.beads) (h : exec i s = endPacket k (.done u 0)) :
    Ends i s fun t => QueuePassed q x t ∧
      ({ t with queues := s.queues, sched := s.sched } = s ∧ OnlyQueue q s t ∧ ∀ k, k ≠ b → beadOf t k = beadOf s k) ∧
      beadOf t b = f (beadOf s b) := by
  have hbead (k : Nat) : beadOf (finishRing u 1 (.queue q)) k = beadOf (modBead s b f) k := congrArg (mget Bead.zero · k) hbeads
  obtain ⟨t, ht, hpass, ⟨hrest, honly⟩, hothers, hself⟩ := ends_schedPassed
    (P := fun t => (∀ k, k ≠ b → beadOf t k = beadOf s k) ∧ beadOf t b = f (beadOf s b)) (queueOf_of_takes htakes) hclear hk hu h
    ⟨fun k hk => (hbead k).trans (beadOf_modBead_ne s f hk), (hbead b).trans (beadOf_modBead s b f)⟩
  exact ⟨t, ht, hpass, ⟨hrest, honly, hothers⟩, hself⟩

/-- BEAD_ALLOC below the quota, with its index written (R406, R409). -/
theorem execBeadAlloc_taken (hty : field (ws.getD 0 0) 0 8 = 0x41) {n : Nat} (hkv : (ws.getD 3 0).toNat % 8 = 0)
    (hres : (ws.getD 5 0).toNat % 4 = 0) (hquota : beadCount s (ctxOf s x.ctx).slice < (slSchedOf s (ctxOf s x.ctx).slice).beadQuota)
    (hfree : ((List.range 65536).find? fun b => (beadOf s b).state = 0) = some n) {u : State}
    (hwrite : memWrite s (engWho s (lowestEng s (ctxOf s x.ctx).slice (homeCluster s (ctxOf s x.ctx).slice)) x.ctx x.gen 0) .va
      (ws.getD 5 0).toNat (leBytes 4 n) = (u, none)) :
    exec (.beadAlloc (.queue q) ws) s = endPacket (queuePkt s q x ws) (.done (beadWaits (modBead u n fun _ =>
      { slice := (ctxOf s x.ctx).slice, state := 1, leaveReq := false, rod := q, pos := field (ws.getD 1 0) 0 32,
        maxpos := field (ws.getD 1 0) 32 32, npages := field (ws.getD 2 0) 0 32, kvlist := (ws.getD 3 0).toNat, tag := ws.getD 4 0,
        upd := none }) n) 0) := by
  show execBeadAlloc _ _ _ = _
  unfold execBeadAlloc
  rw [packet_queue htakes (by rw [hty]; rfl) (by rw [hty]; decide)]
  simp only [Pkt.w, queuePkt, hkv, hres, hwrite, Nat.not_le.mpr hquota, hfree, ne_eq, not_true_eq_false, decide_false, Bool.or_self,
    Bool.false_eq_true, if_false]

theorem beadAlloc_ends (hty : field (ws.getD 0 0) 0 8 = 0x41) {n : Nat} (hkv : (ws.getD 3 0).toNat % 8 = 0)
    (hres : (ws.getD 5 0).toNat % 4 = 0) (hquota : beadCount s (ctxOf s x.ctx).slice < (slSchedOf s (ctxOf s x.ctx).slice).beadQuota)
    (hfree : ((List.range 65536).find? fun b => (beadOf s b).state = 0) = some n) {u : State} {e : Option Nat}
    (hwrite : memWrite s (engWho s (lowestEng s (ctxOf s x.ctx).slice (homeCluster s (ctxOf s x.ctx).slice)) x.ctx x.gen 0) .va
      (ws.getD 5 0).toNat (leBytes 4 n) = (u, e)) (hdone : e = none) (hclear : clear u = true) :
    Ends (.beadAlloc (.queue q) ws) s fun t => QueuePassed q x t ∧ OnlyQueue q s t ∧
      beadOf t n = { slice := (ctxOf s x.ctx).slice, state := 1, leaveReq := false, rod := q, pos := field (ws.getD 1 0) 0 32,
                     maxpos := field (ws.getD 1 0) 32 32, npages := field (ws.getD 2 0) 0 32, kvlist := (ws.getD 3 0).toNat,
                     tag := ws.getD 4 0, upd := none } ∧
      t.sched.order.getLast? = some n ∧ (∀ k, k ≠ n → beadOf t k = beadOf s k) ∧ { t with queues := u.queues, sched := u.sched } = u := by
  have haside : u.aside = s.aside := (congrArg (State.aside ∘ Prod.fst) hwrite.symm :).trans (memWrite_aside ..)
  have hqueues : u.queues = s.queues := (congrArg State.queues haside :)
  rw [hdone] at hwrite
  exact ends_queuePassed rfl (execBeadAlloc_taken htakes hty hkv hres hquota hfree hwrite) hclear (queueOf_of_takes htakes) hqueues
    (beadAlloc_made haside rfl)

end packets

/-! ## SLCFG_WRITE (R419, R420) -/

theorem slSchedOf_modSlSched (s : State) (n : Nat) (f : SlSched → SlSched) : slSchedOf (modSlSched s n f) n = f (slSchedOf s n) := by
  unfold slSchedOf modSlSched
  rw [find?_minsert_same]
  rfl

theorem slSchedOf_modSlSched_ne (s : State) {n k : Nat} (f : SlSched → SlSched) (h : k ≠ n) :
    slSchedOf (modSlSched s n f) k = slSchedOf s k := by
  unfold slSchedOf modSlSched
  rw [find?_minsert_ne _ _ h]

theorem slcfgWrite_ends {path : Path} {n : Nat} {v : Word} {s : State} (hreach : secReach path s = true) (hn : n < 16)
    (hsum : quotaSum s n (field v 32 17) ≤ 65536) (hcount : beadCount s n ≤ field v 32 17) (hclear : clear s = true) :
    Ends (.slcfgWrite path n v) s fun t =>
      slSchedOf t n = { slSchedOf s n with gangWait := field v 56 8, beadQuota := field v 32 17, qbe := field v 16 16, qlc := field v 0 16 } ∧
      (∀ k, k ≠ n → slSchedOf t k = slSchedOf s k) ∧ { t with sched := s.sched } = awake s := by
  obtain ⟨ck, hawake⟩ := awake_frame s
  have hkept : ¬ (65536 < quotaSum (awake s) n (field v 32 17) ∨ field v 32 17 < beadCount (awake s) n) := by
    rw [hawake]
    exact not_or_intro (Nat.not_lt.mpr hsum) (Nat.not_lt.mpr hcount)
  refine Ends.of_settle (t := modSlSched (awake s) n fun x =>
    { x with gangWait := field v 56 8, beadQuota := field v 32 17, qbe := field v 16 16, qlc := field v 0 16 }) ?_
    ((clear_awake s).trans hclear) ⟨?_, fun k hk => ?_, by rw [hawake]; rfl⟩
  · show execSlcfgWrite path n v s = _
    unfold execSlcfgWrite
    rw [secWriteAt_reach hreach (decide_eq_true hn), if_pos rfl, if_neg (by simpa using hkept)]
  · rw [slSchedOf_modSlSched, hawake]; rfl
  · rw [slSchedOf_modSlSched_ne _ _ hk, hawake]; rfl

/-! ## The obligation -/

/-- Settles O43: each packet's body is what its rule says, and a packet that changes the scheduling state passes with it. -/
theorem rodsAndBeadsFollowTheirPackets : Obligations.RodsAndBeadsFollowTheirPackets := by
  unfold Obligations.RodsAndBeadsFollowTheirPackets
  refine ⟨?_, fun path n v s hreach hn hsum hcount hclear => slcfgWrite_ends hreach hn hsum hcount hclear⟩
  intro q x ws s htakes hclear ty sl b y only
  refine ⟨?rod, ?alloc, fun hslice => ⟨?update, ?leave, ?free⟩⟩
  case rod => exact fun hty i hset hpt hman hrod hfree => rodConfig_ends htakes hclear hty hset hpt hman hrod hfree
  case alloc =>
    intro hty n hkv hres hquota hfree
    generalize hwrite : memWrite s _ _ _ _ = u
    exact fun hdone hwritten => beadAlloc_ends htakes hty hkv hres hquota hfree (hwrite.trans (Prod.eta u).symm) hdone hwritten
  case update =>
    intro hty hkv hstate
    have hst : (decide (y.state = 1) || decide (y.state = 2) || decide (y.state = 3)) = true := by simpa [or_assoc] using hstate
    have hexec : exec (.beadUpdate (.queue q) ws) s = _ := (if_neg (by rw [show (ws.getD 2 0).toNat % 8 = 0 from hkv]; simp)).trans
      (beadPacket_taken htakes hty (by decide) hslice (by show y.state ≠ 0; omega) hst)
    exact ends_beadPassed htakes hclear rfl rfl rfl hexec
  case leave =>
    intro hty hstate
    have hst : (decide (y.state = 1) || decide (y.state = 2) || decide (y.state = 3)) = true := by simpa [or_assoc] using hstate
    have hexec : exec (.beadLeave (.queue q) ws) s = endPacket (queuePkt s q x ws) (.done
        (if y.state = 2 then modBead s b fun z => { z with leaveReq := true } else beadState s b 4) 0) := by
      show execBeadLeave _ _ _ = _
      unfold execBeadLeave
      exact beadPacket_taken htakes hty (by decide) hslice (by show y.state ≠ 0; omega) hst
    by_cases hrun : y.state = 2
    · rw [if_pos hrun] at hexec ⊢
      exact ends_beadPassed (f := fun z => { z with leaveReq := true }) htakes hclear rfl rfl rfl hexec
    · rw [if_neg hrun] at hexec ⊢
      exact ends_beadPassed (u := beadState s b 4) (f := fun z => { z with state := 4 }) htakes hclear rfl rfl rfl hexec
  case free =>
    intro hty hstate
    have hst : (decide (y.state = 4) || decide (y.state = 5)) = true := by simpa using hstate
    have hexec : exec (.beadFree (.queue q) ws) s = endPacket (queuePkt s q x ws) (.done (modBead s b fun _ => Bead.zero) 0) := by
      show execBeadFree _ _ _ = _
      unfold execBeadFree
      exact beadPacket_taken htakes hty (by decide) hslice (by show y.state ≠ 0; omega) hst
    exact ends_beadPassed htakes hclear rfl rfl rfl hexec

end Sys2Proof.Machine
end

section
/-! PROOFS. The packets of a port ring manage contexts, queues, fences and memory objects (O40). -/
namespace Sys2Proof.Machine

/-- A packet of a port ring that is done is answered with its RESULT. -/
theorem ends_portAnswered {i : Instr} {s u : State} {p result : Nat} {ws : List Word} {P : State → Prop}
    (h : exec i s = endPacket (portPkt s p ws) (.done u result)) (hc : clear u = true) (hP : P u) :
    Ends i s fun t => ∃ u, Answered p ws 0 result u t ∧ P u :=
  Ends.of_settle (t := finishRing (writeStatus u (statusOf u p (ringOf u p).head ws) 0 result) 1 (.port p)) h
    ((clear_finishRing ..).trans ((clear_writeStatus ..).trans hc)) ⟨u, rfl, hP⟩

/-! ## Tally memories that are awake (R265, R267, R276) -/

/-- What decides whether the Tally memories take an access: the build, the memory engines and the memories' retention. -/
def State.tallyPower (s : State) : Cfg × Selvage × (Nat → Bool × Bool) :=
  (s.cfg, s.sv, fun h => ((tallyOf s h).retained, (tallyOf s h).waking))

theorem modTally_modTally (s : State) (h k : Nat) (f g : Tally → Tally) :
    ∃ tl, modTally (modTally s h f) k g = { s with tally := tl } := ⟨_, rfl⟩

theorem tallyReady_of_tallyPower {s t : State} (h : t.tallyPower = s.tallyPower) : tallyReady t = tallyReady s := by
  have hready (s : State) : tallyReady s = (!s.tallyPower.2.1.stuck &&
      (List.range s.tallyPower.1.halves).all fun h => !(s.tallyPower.2.2 h).1 && !(s.tallyPower.2.2 h).2) := rfl
  rw [hready, hready, h]

theorem modTally_tallyPower (s : State) (h : Nat) {f : Tally → Tally} (hf : ∀ t, ((f t).retained, (f t).waking) = (t.retained, t.waking)) :
    (modTally s h f).tallyPower = s.tallyPower := by
  have hat (k : Nat) : ((tallyOf (modTally s h f) k).retained, (tallyOf (modTally s h f) k).waking) =
      ((tallyOf s k).retained, (tallyOf s k).waking) := by
    by_cases hk : k = h
    · subst hk; rw [tallyOf_modTally, hf]
    · rw [tallyOf_modTally_ne _ _ hk]
  exact congrArg (fun g => (s.cfg, s.sv, g)) (funext hat)

theorem tallyReady_modTally {s : State} (hs : tallyReady s = true) (h : Nat) {f : Tally → Tally}
    (hf : ∀ t, ((f t).retained, (f t).waking) = (t.retained, t.waking)) : tallyReady (modTally s h f) = true :=
  (tallyReady_of_tallyPower (modTally_tallyPower s h hf)).trans hs

theorem clear_of_ready {s : State} (h : tallyReady s = true) : clear s = true := (Bool.and_eq_true _ _ ▸ h).1

section ready
variable {s : State} (hs : tallyReady s = true)
include hs

/-- An operation through a port of a Tally memory that is awake takes its slot at once. -/
theorem portSlot_ready {h : Nat} (hh : h < s.cfg.halves) (port : Nat) :
    portSlot s h port = modTally s h fun t => { t with ptr := (port + 1) % tallyPorts s.cfg h } := by
  unfold portSlot
  rw [awaitTally_awake hs hh]

/-- A context is given its granules in a Tally memory that is awake (R265). -/
theorem giveTally_ready {h c n : Nat} {t : State} (hgive : giveTally s h c n = some t) :
    (∃ tl, t = { s with tally := tl }) ∧ tallyReady t = true := by
  unfold giveTally at hgive
  split at hgive
  · cases hgive
    exact ⟨⟨s.tally, rfl⟩, hs⟩
  · split at hgive
    · cases hgive
    · next hhalf =>
      obtain ⟨b, -, rfl⟩ := Option.map_eq_some_iff.mp hgive
      rw [portSlot_ready hs (Nat.not_le.mp hhalf)]
      refine ⟨modTally_modTally .., ?_⟩
      refine tallyReady_modTally (tallyReady_modTally hs h ?_) h ?_ <;> exact fun _ => rfl

/-- A fence entry written through the control port holds what was written, and is presented to the waits (R267, R270). -/
theorem writeFence_ready {f : Nat} (hf : fenceHalf f < s.cfg.halves) (x : Fence) : ∃ tl,
    writeFence s f x = presentWord { s with tally := tl } (fenceHalf f) (16 * (f % 131072)) ∧ fenceOf { s with tally := tl } f = x := by
  unfold writeFence
  dsimp only
  rw [portSlot_ready hs hf]
  refine ⟨_, rfl, ?_⟩
  refine Eq.trans (congrArg (fun t : Tally => mget Fence.zero t.fences (f % 131072)) (tallyOf_modTally ..)) ?_
  exact fenceOf_modFence_same _ f fun _ => x

end ready

/-- A free fence lies in the half it was asked for. -/
theorem fenceHalf_freeFence {s : State} {h f : Nat} (hh : h < 2) (hfree : freeFence s h = some f) : fenceHalf f = h ∧ h < s.cfg.halves := by
  unfold freeFence at hfree
  split at hfree
  · cases hfree
  · next hhalf =>
    obtain ⟨i, hi, rfl⟩ := Option.map_eq_some_iff.mp hfree
    have hi : i < 131072 := List.mem_range.mp (List.mem_of_find?_eq_some hi)
    rw [Nat.add_comm]
    exact ⟨(fence_index hh hi).1, Nat.not_le.mp hhalf⟩

/-! ## The packets (R426, R427, R436, R437, R443) -/

section packets
variable {p : Nat} {ws : List Word} {s : State} (htakes : portTakes s p ws = true)
include htakes

theorem execQReset_taken {q : Nat} {x : Queue} (hty : field (ws.getD 0 0) 0 8 = 0x85) (hq : field (ws.getD 0 0) 16 13 = q)
    (hx : queueOf s q = some x) (hmay : portMay s p (ctxOf s x.ctx).slice = true) (hlive : (ctxOf s x.ctx).state = .live)
    (hgen : (ctxOf s x.ctx).gen = x.gen) : exec (.qReset (.port p) ws) s =
      endPacket (portPkt s p ws) (.done (modQueue s q fun y => { y with err := false, code := 0 }) 0) := by
  show execQReset _ _ _ = _
  unfold execQReset
  rw [packet_port htakes (by rw [hty]; rfl) (by rw [hty]; decide)]
  simp only [Pkt.w, portPkt, hq, queueFault, hx, hmay, hlive, hgen, decide_true, Bool.and_self, if_true]

theorem qReset_ends {q : Nat} {x : Queue} (hclear : clear s = true) (hty : field (ws.getD 0 0) 0 8 = 0x85)
    (hq : field (ws.getD 0 0) 16 13 = q) (hx : queueOf s q = some x) (hmay : portMay s p (ctxOf s x.ctx).slice = true)
    (hlive : (ctxOf s x.ctx).state = .live) (hgen : (ctxOf s x.ctx).gen = x.gen) :
    Ends (.qReset (.port p) ws) s fun t => ∃ u, Answered p ws 0 0 u t ∧ queueOf u q = some { x with err := false, code := 0 } ∧
      OnlyQueue q s u ∧ { u with queues := s.queues } = s :=
  ends_portAnswered (execQReset_taken htakes hty hq hx hmay hlive hgen) hclear
    ⟨(queueOf_modQueue ..).trans (congrArg (Option.map _) hx), onlyQueue_modQueue s q _, rfl⟩

theorem execQDestroy_taken {q : Nat} {x : Queue} (hty : field (ws.getD 0 0) 0 8 = 0x84) (hq : field (ws.getD 0 0) 16 13 = q)
    (hx : queueOf s q = some x) (hmay : portMay s p (ctxOf s x.ctx).slice = true) (hbusy : x.busy = false) :
    exec (.qDestroy (.port p) ws) s = endPacket (portPkt s p ws) (.done
      (let t := endRod (discardPackets s (ctxOf s x.ctx).slice q x cTORN_DOWN) q; { t with queues := mdel t.queues q }) 0) := by
  show execQDestroy _ _ _ = _
  unfold execQDestroy
  rw [packet_port htakes (by rw [hty]; rfl) (by rw [hty]; decide)]
  simp only [Pkt.w, portPkt, hq, queueFault, hx, hmay, hbusy, if_true, Bool.false_eq_true, if_false]

omit htakes in
theorem clear_endRod (s : State) (q : Nat) : clear (endRod s q) = clear s := by
  have hbeads (l : List Nat) : clear (l.foldl (fun (t : State) b =>
      if (beadOf t b).state = 2 then modBead t b fun x => { x with state := 5, leaveReq := false } else t) s) = clear s :=
    foldl_keeps clear (fun t b => by split <;> rfl) l s
  unfold endRod
  split
  · next i r h =>
    by_cases ho : r.isOpen = true
    · simp only [if_pos ho]
      exact hbeads r.beads
    · simp only [if_neg ho]
      rfl
  · rfl

theorem qDestroy_ends {q : Nat} {x : Queue} (hty : field (ws.getD 0 0) 0 8 = 0x84) (hq : field (ws.getD 0 0) 16 13 = q)
    (hx : queueOf s q = some x) (hmay : portMay s p (ctxOf s x.ctx).slice = true) (hbusy : x.busy = false)
    (hclear : clear (discardPackets s (ctxOf s x.ctx).slice q x cTORN_DOWN) = true) :
    Ends (.qDestroy (.port p) ws) s fun t => ∃ u, Answered p ws 0 0 u t ∧ queueOf u q = none :=
  ends_portAnswered (execQDestroy_taken htakes hty hq hx hmay hbusy) ((clear_endRod ..).trans hclear)
    (congrArg (Option.map Prod.snd) (find?_mdel_same ..))

/-- The queue that Q_CREATE makes (R436). -/
def queueMade (p : Nat) (ws : List Word) : Queue :=
  { err := false, lc := bit (ws.getD 0 0) 40, port := p, ctx := field (ws.getD 0 0) 16 11, gen := field (ws.getD 0 0) 32 8, code := 0,
    tail := 0, head := 0, base := (ws.getD 1 0).toNat, sizeCode := field (ws.getD 0 0) 44 4, headAddr := (ws.getD 2 0).toNat, headSeen := 0,
    busy := false, held := none, ext := none, stepOpen := false, opening := false, gang := none, since := 0 }

theorem execQCreate_taken (hty : field (ws.getD 0 0) 0 8 = 0x83) (hsize : field (ws.getD 0 0) 44 4 ≤ 12)
    (hbase : (ws.getD 1 0).toNat % (4096 * 2 ^ field (ws.getD 0 0) 44 4) = 0) (hbase' : (ws.getD 1 0).toNat < 2 ^ 44)
    (hhead : (ws.getD 2 0).toNat % 8 = 0) (hhead' : (ws.getD 2 0).toNat < 2 ^ 44)
    (hctx : ctxFault s (portPkt s p ws) (field (ws.getD 0 0) 16 11) (field (ws.getD 0 0) 32 8) false = none)
    (hcount : (queuesOf s (field (ws.getD 0 0) 16 11) (field (ws.getD 0 0) 32 8)).length < 16) {n : Nat}
    (hfree : ((List.range 8192).find? fun q => (queueOf s q).isNone) = some n) :
    exec (.qCreate (.port p) ws) s = endPacket (portPkt s p ws) (.done { s with queues := minsert s.queues n (queueMade p ws) } n) := by
  show execQCreate _ _ _ = _
  unfold execQCreate
  rw [packet_port htakes (by rw [hty]; rfl) (by rw [hty]; decide)]
  refine congrArg (endPacket _) ((if_neg ?legal).trans ?_)
  case legal =>
    delta Pkt.w portPkt
    simp only [Bool.or_eq_true, decide_eq_true_eq]
    omega
  · have hctx' : ctxFault s (portPkt s p ws) (field ((portPkt s p ws).w 0) 16 11) (field ((portPkt s p ws).w 0) 32 8) false = none := hctx
    simp only [hctx', hfree]
    exact if_neg (Nat.not_le.mpr hcount)

theorem qCreate_ends (hclear : clear s = true) (hty : field (ws.getD 0 0) 0 8 = 0x83) (hsize : field (ws.getD 0 0) 44 4 ≤ 12)
    (hbase : (ws.getD 1 0).toNat % (4096 * 2 ^ field (ws.getD 0 0) 44 4) = 0) (hbase' : (ws.getD 1 0).toNat < 2 ^ 44)
    (hhead : (ws.getD 2 0).toNat % 8 = 0) (hhead' : (ws.getD 2 0).toNat < 2 ^ 44)
    (hctx : ctxFault s (portPkt s p ws) (field (ws.getD 0 0) 16 11) (field (ws.getD 0 0) 32 8) false = none)
    (hcount : (queuesOf s (field (ws.getD 0 0) 16 11) (field (ws.getD 0 0) 32 8)).length < 16) {n : Nat}
    (hfree : ((List.range 8192).find? fun q => (queueOf s q).isNone) = some n) :
    Ends (.qCreate (.port p) ws) s fun t => ∃ u, Answered p ws 0 n u t ∧ queueOf u n = some (queueMade p ws) ∧ OnlyQueue n s u ∧
      { u with queues := s.queues } = s :=
  ends_portAnswered (execQCreate_taken htakes hty hsize hbase hbase' hhead hhead' hctx hcount hfree) hclear
    ⟨congrArg (Option.map Prod.snd) (find?_minsert_same ..), fun _ hk => congrArg (Option.map Prod.snd) (find?_minsert_ne _ _ hk), rfl⟩

/-! ### Fences -/

omit htakes in
/-- A fence entry written while no access waits leaves none waiting. -/
theorem writeFence_clear (hs : tallyReady s = true) {f : Nat} (hf : fenceHalf f < s.cfg.halves) (x : Fence) :
    clear (writeFence s f x) = true ∧ fenceOf (writeFence s f x) f = x := by
  obtain ⟨tl, hwrite, hfence⟩ := writeFence_ready hs hf x
  rw [hwrite]
  have hclear := clear_of_ready hs
  exact ⟨hclear, hfence⟩

theorem execFenceAlloc_taken {c gen n : Nat} (hty : field (ws.getD 0 0) 0 8 = 0x86) (hc : field (ws.getD 0 0) 16 11 = c)
    (hgen : field (ws.getD 0 0) 32 8 = gen) (hctx : ctxFault s (portPkt s p ws) c gen true = none)
    (hfree : freeFence s (field (ws.getD 0 0) 40 1) = some n) : exec (.fenceAlloc (.port p) ws) s =
      endPacket (portPkt s p ws) (.done (putFence s n (ws.getD 1 0) (ctxOf s c).slice c gen) n) := by
  subst hc hgen
  have hctx' : ctxFault s (portPkt s p ws) (field ((portPkt s p ws).w 0) 16 11) (field ((portPkt s p ws).w 0) 32 8) true = none := hctx
  have hfree' : freeFence s (field ((portPkt s p ws).w 0) 40 1) = some n := hfree
  show execFenceAlloc _ _ _ = _
  unfold execFenceAlloc
  rw [packet_port htakes (by rw [hty]; rfl) (by rw [hty]; decide)]
  simp only [hctx', hfree']
  rfl

theorem fenceAlloc_ends {c gen n : Nat} (hs : tallyReady s = true) (hty : field (ws.getD 0 0) 0 8 = 0x86)
    (hc : field (ws.getD 0 0) 16 11 = c) (hgen : field (ws.getD 0 0) 32 8 = gen) (hctx : ctxFault s (portPkt s p ws) c gen true = none)
    (hfree : freeFence s (field (ws.getD 0 0) 40 1) = some n) :
    Ends (.fenceAlloc (.port p) ws) s fun t => ∃ u, Answered p ws 0 n u t ∧ fenceOf u n = ⟨ws.getD 1 0, 1, 0, 0, (ctxOf s c).slice, c, gen⟩ := by
  obtain ⟨hhalf, hhalves⟩ := fenceHalf_freeFence (Nat.mod_lt _ (by decide)) hfree
  obtain ⟨hclear, hfence⟩ := writeFence_clear hs (hhalf ▸ hhalves) ⟨ws.getD 1 0, 1, 0, 0, (ctxOf s c).slice, c, gen⟩
  exact ends_portAnswered (execFenceAlloc_taken htakes hty hc hgen hctx hfree) hclear hfence

omit htakes in
theorem tallyReady_presentWord (s : State) (h off : Nat) : tallyReady (presentWord s h off) = tallyReady s := rfl

omit htakes in
theorem tallyReady_fenceErr (hs : tallyReady s = true) (f code : Nat) : tallyReady (fenceErr s f code) = true := by
  unfold fenceErr
  split
  · exact hs
  · rw [tallyReady_presentWord]
    exact tallyReady_modTally hs _ fun _ => rfl

theorem execFenceFree_taken {f : Nat} (hty : field (ws.getD 0 0) 0 8 = 0x87) (hf : field (ws.getD 1 0) 0 18 = f)
    (hmay : fenceMay s (portPkt s p ws) f = true) : exec (.fenceFree (.port p) ws) s =
      endPacket (portPkt s p ws) (.done (writeFence (if hasWait s f then fenceErr s f cABANDONED else s) f Fence.zero) 0) := by
  subst hf
  have hmay' : fenceMay s (portPkt s p ws) (field ((portPkt s p ws).w 1) 0 18) = true := hmay
  show execFenceFree _ _ _ = _
  unfold execFenceFree
  rw [packet_port htakes (by rw [hty]; rfl) (by rw [hty]; decide)]
  simp only [hmay', Bool.not_true, Bool.false_eq_true, if_false]
  rfl

theorem fenceFree_ends {f : Nat} (hs : tallyReady s = true) (hty : field (ws.getD 0 0) 0 8 = 0x87) (hf : field (ws.getD 1 0) 0 18 = f)
    (hmay : fenceMay s (portPkt s p ws) f = true) :
    Ends (.fenceFree (.port p) ws) s fun t => ∃ u, Answered p ws 0 0 u t ∧ fenceOf u f = Fence.zero := by
  have hready : tallyReady (if hasWait s f then fenceErr s f cABANDONED else s) = true ∧
      (if hasWait s f then fenceErr s f cABANDONED else s).cfg = s.cfg := by
    split
    · exact ⟨tallyReady_fenceErr hs f _, congrArg Prod.fst (fenceErr_fixed s f cABANDONED)⟩
    · exact ⟨hs, rfl⟩
  obtain ⟨hclear, hfence⟩ := writeFence_clear hready.1 (hready.2 ▸ fenceMay_half hmay) Fence.zero
  exact ends_portAnswered (execFenceFree_taken htakes hty hf hmay) hclear hfence

/-- What FENCE_CLEAR leaves of a fence whose Tally memory is awake (R443). -/
theorem execFenceClear_taken {f : Nat} (hs : tallyReady s = true) (hty : field (ws.getD 0 0) 0 8 = 0x88)
    (hf : field (ws.getD 1 0) 0 18 = f) (hmay : fenceMay s (portPkt s p ws) f = true) :
    ∃ tl, exec (.fenceClear (.port p) ws) s = endPacket (portPkt s p ws) (.done { s with tally := tl } 0) ∧
      fenceOf { s with tally := tl } f =
        if (fenceOf s f).state = 2 then { fenceOf s f with state := 1, code := 0 } else fenceOf s f := by
  subst hf
  have hmay' : fenceMay s (portPkt s p ws) (field ((portPkt s p ws).w 1) 0 18) = true := hmay
  have hexec : exec (.fenceClear (.port p) ws) s = endPacket (portPkt s p ws) (.done
      (let f := field (ws.getD 1 0) 0 18
       let t := portSlot s (fenceHalf f) (controlPort s.cfg (fenceHalf f))
       if (fenceOf t f).state = 2 then modFence t f fun x => { x with state := 1, code := 0 } else t) 0) := by
    show execFenceClear _ _ _ = _
    unfold execFenceClear
    rw [packet_port htakes (by rw [hty]; rfl) (by rw [hty]; decide)]
    exact congrArg (endPacket _) (if_neg (by rw [hmay']; decide))
  generalize field (ws.getD 1 0) 0 18 = f at hmay hexec
  have hslot (port : Nat) : fenceOf (modTally s (fenceHalf f) fun t => { t with ptr := port }) f = fenceOf s f :=
    (congrArg (fun t : Tally => mget Fence.zero t.fences (f % 131072)) (tallyOf_modTally ..) :)
  dsimp only at hexec
  rw [portSlot_ready hs (fenceMay_half hmay), hslot] at hexec
  by_cases herr : (fenceOf s f).state = 2
  · rw [if_pos herr] at hexec ⊢
    exact ⟨_, hexec, (fenceOf_modFence_same _ f _).trans (congrArg (fun x : Fence => { x with state := 1, code := 0 }) (hslot _))⟩
  · rw [if_neg herr] at hexec ⊢
    exact ⟨_, hexec, hslot _⟩

theorem fenceClear_ends {f : Nat} (hs : tallyReady s = true) (hty : field (ws.getD 0 0) 0 8 = 0x88) (hf : field (ws.getD 1 0) 0 18 = f)
    (hmay : fenceMay s (portPkt s p ws) f = true) :
    Ends (.fenceClear (.port p) ws) s fun t => ∃ u, Answered p ws 0 0 u t ∧ { u with tally := s.tally } = s ∧
      fenceOf u f = if (fenceOf s f).state = 2 then { fenceOf s f with state := 1, code := 0 } else fenceOf s f := by
  obtain ⟨tl, hexec, hfence⟩ := execFenceClear_taken htakes hs hty hf hmay
  have hclear := clear_of_ready hs
  exact ends_portAnswered hexec hclear ⟨rfl, hfence⟩

/-! ### Memory objects -/

theorem execMemFree_taken {h : Nat} {o : Nat × MemObj} (hty : field (ws.getD 0 0) 0 8 = 0x8A) (hh : field (ws.getD 0 0) 16 12 = h)
    (ho : (s.memObjs.find? fun o => o.1 = h) = some o) (hmay : portMay s p (ctxOf s o.2.ctx).slice = true) :
    exec (.memFree (.port p) ws) s = endPacket (portPkt s p ws) (.done { s with memObjs := mdel s.memObjs h } 0) := by
  show execMemFree _ _ _ = _
  unfold execMemFree
  rw [packet_port htakes (by rw [hty]; rfl) (by rw [hty]; decide)]
  simp only [Pkt.w, portPkt, hh, ho, hmay, if_true]

omit htakes in
theorem mem_mdel {α : Type} (l : List (Nat × α)) (k : Nat) (y : Nat × α) : y ∈ mdel l k ↔ y ∈ l ∧ y.1 ≠ k := by
  induction l with
  | nil => simp [mdel]
  | cons e l ih =>
    unfold mdel
    split
    · next h =>
      rw [ih, List.mem_cons]
      refine ⟨fun ⟨hy, hk⟩ => ⟨.inr hy, hk⟩, fun ⟨hy, hk⟩ => ⟨hy.resolve_left ?_, hk⟩⟩
      rintro rfl
      exact hk h
    · next h =>
      rw [List.mem_cons, List.mem_cons, ih]
      refine ⟨?_, fun ⟨hy, hk⟩ => hy.imp_right (⟨·, hk⟩)⟩
      rintro (rfl | ⟨hy, hk⟩)
      · exact ⟨.inl rfl, h⟩
      · exact ⟨.inr hy, hk⟩

omit htakes in
/-- An entry under a free key joins the others. -/
theorem mem_minsert_of_free {α : Type} {l : List (Nat × α)} {k : Nat} (v : α) (hfree : ∀ o ∈ l, o.1 ≠ k) {y : Nat × α} (hy : y ∈ l) :
    y ∈ minsert l k v := by
  induction l with
  | nil => cases hy
  | cons e l ih =>
    unfold minsert
    split
    · exact List.mem_cons_of_mem _ hy
    · rw [if_neg (hfree e List.mem_cons_self)]
      refine List.mem_cons.mpr ((List.mem_cons.mp hy).imp_right fun hy => ih (fun o ho => hfree o (List.mem_cons_of_mem _ ho)) hy)

/-- The memory object that MEM_OBJ records (R427). -/
def objMade (ws : List Word) : MemObj :=
  ⟨field (ws.getD 0 0) 16 11, field (ws.getD 0 0) 32 8, field (ws.getD 0 0) 40 8, (ws.getD 1 0).toNat, (ws.getD 2 0).toNat⟩

theorem execMemObj_taken {r : Region} {h : Nat} (hty : field (ws.getD 0 0) 0 8 = 0x89) (hbase : (ws.getD 1 0).toNat % 65536 = 0)
    (hsize : (ws.getD 2 0).toNat % 65536 = 0) (hsome : (ws.getD 2 0).toNat ≠ 0)
    (hctx : ctxFault s (portPkt s p ws) (field (ws.getD 0 0) 16 11) (field (ws.getD 0 0) 32 8) false = none)
    (hr : regionOf s (field (ws.getD 0 0) 40 8) = some r) (hslice : r.slice = (ctxOf s (field (ws.getD 0 0) 16 11)).slice)
    (hlo : mib2 * r.base ≤ (ws.getD 1 0).toNat) (hhi : (ws.getD 1 0).toNat + (ws.getD 2 0).toNat ≤ mib2 * (r.base + r.size))
    (hothers : ∀ o ∈ s.memObjs, (o.2.ctx = field (ws.getD 0 0) 16 11 ∧ o.2.gen = field (ws.getD 0 0) 32 8) ∨
      (ctxOf s o.2.ctx).slice ≠ (ctxOf s (field (ws.getD 0 0) 16 11)).slice ∨ (ws.getD 1 0).toNat + (ws.getD 2 0).toNat ≤ o.2.base ∨
      o.2.base + o.2.size ≤ (ws.getD 1 0).toNat)
    (hfree : ((List.range 4096).find? fun h => !(s.memObjs.any fun o => o.1 = h)) = some h) :
    exec (.memObj (.port p) ws) s = endPacket (portPkt s p ws) (.done { s with memObjs := minsert s.memObjs h (objMade ws) } h) := by
  have hctx' : ctxFault s (portPkt s p ws) (field ((portPkt s p ws).w 0) 16 11) (field ((portPkt s p ws).w 0) 32 8) false = none := hctx
  have hr' : regionOf s (field ((portPkt s p ws).w 0) 40 8) = some r := hr
  show execMemObj _ _ _ = _
  unfold execMemObj
  rw [packet_port htakes (by rw [hty]; rfl) (by rw [hty]; decide)]
  refine congrArg (endPacket _) ((if_neg ?legal).trans ?_)
  case legal =>
    delta Pkt.w portPkt
    simp only [Bool.or_eq_true, decide_eq_true_eq]
    omega
  simp only [hctx', hr', hfree]
  refine if_neg ?_
  delta Pkt.w portPkt
  simp only [Bool.or_eq_true, Bool.not_eq_true', Bool.and_eq_false_iff, decide_eq_false_iff_not, List.any_eq_true, Bool.and_eq_true,
    decide_eq_true_eq]
  rintro (((hout | hout) | hout) | ⟨o, ho, ⟨⟨hforeign, hsame⟩, hbelow⟩, habove⟩)
  · exact hout hslice
  · exact hout hlo
  · exact hout hhi
  · rcases hothers o ho with ⟨hctx, hgen⟩ | hother | hover | hunder
    · exact hforeign.elim (· hctx) (· hgen)
    · exact hother hsame
    · exact Nat.not_lt.mpr hover hbelow
    · exact Nat.not_lt.mpr hunder habove

omit htakes in
theorem memObj_ends {h : Nat} (hclear : clear s = true)
    (hexec : exec (.memObj (.port p) ws) s = endPacket (portPkt s p ws) (.done { s with memObjs := minsert s.memObjs h (objMade ws) } h))
    (hfree : ((List.range 4096).find? fun h => !(s.memObjs.any fun o => o.1 = h)) = some h) :
    Ends (.memObj (.port p) ws) s fun t => ∃ u, Answered p ws 0 h u t ∧ { u with memObjs := s.memObjs } = s ∧
      (h, objMade ws) ∈ u.memObjs ∧ ∀ o ∈ s.memObjs, o ∈ u.memObjs := by
  have hnone : ∀ o ∈ s.memObjs, o.1 ≠ h := by simpa using List.find?_some hfree
  exact ends_portAnswered hexec hclear ⟨rfl, mem_minsert_same .., fun o ho => mem_minsert_of_free _ hnone ho⟩

/-! ### CTX_CREATE (R424, R426, R494) -/

/-- The context that CTX_CREATE makes with the words `ws` and the fault fence `f` (R426). -/
def ctxMade (s : State) (ws : List Word) (f : Nat) : Ctx :=
  let c := field (ws.getD 0 0) 16 11
  let n := field (ws.getD 0 0) 28 4
  { Ctx.zero with state := .live, slice := n, gen := (ctxOf s c).gen, ffence := f, root := (ws.getD 1 0).toNat,
                  faultRec := (ws.getD 2 0).toNat, spill := (ws.getD 3 0).toNat, bolt := field (ws.getD 4 0) 0 8,
                  key := streamKeyOf s n c (ws.getD 5 0), lastEnd := s.pclk, sched := homeSched s n }

/-- The state after CTX_CREATE, its fence written in `v`. -/
def ctxPut (v : State) (n c : Nat) (x : Ctx) : State :=
  reportChanged (modKsSlice (modCtx v c fun _ => x) n fun y => { y with lived := sins y.lived c }) n

/-- The words of a CTX_CREATE meet the format of R426. -/
structure CtxWords (ws : List Word) : Prop where
  rootAligned : (ws.getD 1 0).toNat % 65536 = 0
  rootBelow : (ws.getD 1 0).toNat < 2 ^ 44
  recordAligned : (ws.getD 2 0).toNat % 64 = 0
  recordBelow : (ws.getD 2 0).toNat < 2 ^ 52
  spillAligned : (ws.getD 3 0).toNat % 1024 = 0
  spillBelow : (ws.getD 3 0).toNat < 2 ^ 44
  boltSome : 0 < field (ws.getD 4 0) 0 8
  boltAtMost : field (ws.getD 4 0) 0 8 ≤ 128
  tally0 : field (ws.getD 4 0) 8 11 ≤ 1024
  tally1 : field (ws.getD 4 0) 19 11 ≤ 1024

/-- The context identifier and slice of a CTX_CREATE of port `p` are free to use (R426, R494). -/
structure CtxPlace (s : State) (p : Nat) (ws : List Word) (c n : Nat) : Prop where
  may : portMay s p n = true
  ctxAbove : dCtxBase (descOf s n) ≤ c
  ctxBelow : c < dCtxBase (descOf s n) + dCtxCount (descOf s n)
  live : sliceLive s n = true
  isFree : (ctxOf s c).state = .free
  runs : runnable s n = true
  root : regionAt s n (ws.getD 1 0).toNat ≠ none
  spill : regionAt s n (ws.getD 3 0).toNat ≠ none

theorem execCtxCreate_taken {c n f : Nat} {s1 s2 : State} (hty : field (ws.getD 0 0) 0 8 = 0x81) (hc : field (ws.getD 0 0) 16 11 = c)
    (hn : field (ws.getD 0 0) 28 4 = n) (hwords : CtxWords ws) (hplace : CtxPlace s p ws c n)
    (hgive : giveTally s 0 c (field (ws.getD 4 0) 8 11) = some s1) (hgive' : giveTally s1 1 c (field (ws.getD 4 0) 19 11) = some s2)
    (hfree : freeFence s2 (field (ws.getD 0 0) 32 1) = some f) :
    exec (.ctxCreate (.port p) ws) s = endPacket (portPkt s p ws) (.done
      (let v := putFence s2 f 0 n c (ctxOf s c).gen
       ctxPut v n c { ctxMade s ws f with key := streamKeyOf v n c (ws.getD 5 0), lastEnd := v.pclk, sched := homeSched v n })
      (f + 2 ^ 18 * (ctxOf s c).gen)) := by
  subst hc hn
  obtain ⟨hr, hr', hf, hf', hs, hs', hb, hb', ht, ht'⟩ := hwords
  obtain ⟨hmay, hlo, hhi, hlive, hstate, hrun, hroot, hspill⟩ := hplace
  show execCtxCreate _ _ _ = _
  unfold execCtxCreate
  rw [packet_port htakes (by rw [hty]; rfl) (by rw [hty]; decide)]
  refine congrArg (endPacket _) ((if_neg ?format).trans ((if_neg ?permission).trans ((if_neg ?state).trans ?_)))
  case format =>
    delta Pkt.w portPkt
    simp only [Bool.or_eq_true, decide_eq_true_eq]
    omega
  case permission =>
    delta Pkt.w portPkt
    simp only [Bool.or_eq_true, decide_eq_true_eq]
    rintro ((hbarred | hunder) | hover)
    · exact absurd ((congrArg Bool.not hmay).symm.trans hbarred) (by decide)
    · exact Nat.not_lt.mpr hlo hunder
    · exact Nat.not_le.mpr hhi hover
  case state =>
    delta Pkt.w portPkt
    simp only [Bool.or_eq_true, decide_eq_true_eq, hlive, hstate, hrun, Bool.not_true, Bool.false_eq_true, Option.isNone_iff_eq_none,
      hroot, hspill, ne_eq, not_true_eq_false, or_self, not_false_eq_true]
  · simp only [Pkt.w, portPkt, hgive, hgive', hfree]
    rfl

omit htakes in
/-- What CTX_CREATE leaves of the contexts and the fault fence. -/
theorem ctxPut_spec {v : State} {n c f : Nat} {x : Ctx} (hv : ∃ tl h off, v = presentWord { s with tally := tl } h off) :
    ctxOf (ctxPut v n c x) c = x ∧ fenceOf (ctxPut v n c x) f = fenceOf v f ∧
      ∀ j, j ≠ c → { ctxOf (ctxPut v n c x) j with waitOn := (ctxOf s j).waitOn } = ctxOf s j := by
  refine ⟨ctxOf_modCtx v c fun _ => x, rfl, fun j hj => ?_⟩
  have hother : ctxOf (ctxPut v n c x) j = ctxOf v j := ctxOf_modCtx_ne v (fun _ => x) hj
  obtain ⟨tl, h, off, rfl⟩ := hv
  obtain ⟨w, hw⟩ := ctxOf_presentWord { s with tally := tl } h off j
  rw [hother, hw]
  rfl

theorem ctxCreate_ends {c n f : Nat} {s1 s2 : State} (hs : tallyReady s = true) (hty : field (ws.getD 0 0) 0 8 = 0x81)
    (hc : field (ws.getD 0 0) 16 11 = c) (hn : field (ws.getD 0 0) 28 4 = n) (hwords : CtxWords ws) (hplace : CtxPlace s p ws c n)
    (hgive : giveTally s 0 c (field (ws.getD 4 0) 8 11) = some s1) (hgive' : giveTally s1 1 c (field (ws.getD 4 0) 19 11) = some s2)
    (hfree : freeFence s2 (field (ws.getD 0 0) 32 1) = some f) :
    Ends (.ctxCreate (.port p) ws) s fun t => ∃ u, Answered p ws 0 (f + 2 ^ 18 * (ctxOf s c).gen) u t ∧ ctxOf u c = ctxMade s ws f ∧
      fenceOf u f = ⟨0, 1, 0, 0, n, c, (ctxOf s c).gen⟩ ∧ ∀ j, j ≠ c → { ctxOf u j with waitOn := (ctxOf s j).waitOn } = ctxOf s j := by
  have hexec := execCtxCreate_taken htakes hty hc hn hwords hplace hgive hgive' hfree
  obtain ⟨⟨tl1, rfl⟩, hs1⟩ := giveTally_ready hs hgive
  obtain ⟨⟨tl2, rfl⟩, hs2⟩ := giveTally_ready hs1 hgive'
  obtain ⟨hhalf, hhalves⟩ := fenceHalf_freeFence (Nat.mod_lt _ (by decide)) hfree
  obtain ⟨tl, hwrite, hfence⟩ := writeFence_ready hs2 (hhalf ▸ hhalves) ⟨0, 1, 0, 0, n, c, (ctxOf s c).gen⟩
  rw [putFence, hwrite] at hexec
  have hclear := clear_of_ready hs
  obtain ⟨hctx, hfences, hothers⟩ := ctxPut_spec (v := presentWord { s with tally := tl } (fenceHalf f) (16 * (f % 131072))) (n := n)
    (c := c) (f := f) (x := ctxMade s ws f) ⟨_, _, _, rfl⟩
  subst hc hn
  exact ends_portAnswered hexec hclear ⟨hctx, hfences.trans hfence, hothers⟩

end packets

/-! ## The obligation -/

/-- Settles O40: each packet's body is what its rule says, and the packet is answered with the state and RESULT that the body leaves. -/
theorem portRingPacketsManageObjects : Obligations.PortRingPacketsManageObjects := by
  unfold Obligations.PortRingPacketsManageObjects
  intro p ws s htakes hs w k ty c gen f q
  have hclear := clear_of_ready hs
  refine ⟨?create, ?qCreate, ?qDestroy, ?qReset, ?alloc, ?free, ?clears, ?memObj, ?memFree⟩
  case create =>
    intro hty s1 s2 ff n hr hr' hf hf' hsp hsp' hb hb' ht ht' hmay hlo hhi hlive hfree hrun hroot hspill hgive hgive' hff
    exact ctxCreate_ends htakes hs hty rfl rfl ⟨hr, hr', hf, hf', hsp, hsp', hb, hb', ht, ht'⟩
      ⟨hmay, hlo, hhi, hlive, hfree, hrun, hroot, hspill⟩ hgive hgive' hff
  case qCreate =>
    intro hty hsize hbase hbase' hhead hhead' hctx hcount n hn
    obtain ⟨t, ht, u, hu, hq, honly, hrest⟩ := qCreate_ends htakes hclear hty hsize hbase hbase' hhead hhead' hctx hcount hn
    exact ⟨t, ht, u, _, hu, hq, rfl, rfl, rfl, rfl, rfl, rfl, rfl, rfl, rfl, rfl, honly, hrest⟩
  case qDestroy => exact fun hty x hx hmay hbusy hdone => qDestroy_ends htakes hty rfl hx hmay hbusy hdone
  case qReset => exact fun hty x hx hmay hlive hgen => qReset_ends htakes hclear hty rfl hx hmay hlive hgen
  case alloc => exact fun hty hctx n hn => fenceAlloc_ends htakes hs hty rfl rfl hctx hn
  case free => exact fun hty hmay => fenceFree_ends htakes hs hty rfl hmay
  case clears => exact fun hty hmay => fenceClear_ends htakes hs hty rfl hmay
  case memObj =>
    intro hty r h hbase hsize hsome hctx hr hslice hlo hhi hothers hfree
    exact memObj_ends hclear (execMemObj_taken htakes hty hbase hsize hsome hctx hr hslice hlo hhi hothers hfree) hfree
  case memFree =>
    exact fun hty o ho hmay => ends_portAnswered (execMemFree_taken htakes hty rfl ho hmay) hclear ⟨rfl, mem_mdel _ _⟩

end Sys2Proof.Machine
end

section
/-! PROOFS. Steps and gangs open and close (O42). -/
namespace Sys2Proof.Machine

/-! ## Rods opened and steps started (R391, R410, R411) -/

theorem queues_of_aside {s t : State} (h : t.aside = s.aside) : t.queues = s.queues := (congrArg State.queues h :)

theorem buildRod_queues (s : State) (slice q : Nat) (r : Rod) : (buildRod s slice q r).1.queues = s.queues := by
  have hmod (f : Bead → Bead) (l : List Nat) (s : State) : (l.foldl (fun t b => modBead t b f) s).queues = s.queues :=
    foldl_keeps State.queues (fun t b => (rfl : (modBead t b f).queues = _)) l s
  have hstate (st : Nat) (l : List Nat) (s : State) : (l.foldl (fun t b => beadState t b st) s).queues = s.queues :=
    foldl_keeps State.queues (fun t b => (rfl : (beadState t b st).queues = _)) l s
  have hwaits (l : List Nat) (s : State) : (l.foldl beadWaits s).queues = s.queues :=
    foldl_keeps State.queues (fun t b => (rfl : (beadWaits t b).queues = _)) l s
  unfold buildRod
  simp only [hmod, hstate, hwaits]

theorem rodWrite_queues (s : State) (slice c gen : Nat) (a : Word) (bs : List Byte) : (rodWrite s slice c gen a bs).1.queues = s.queues := by
  have hslot (k : Nat) : (boltSlot s k).queues = s.queues := by unfold boltSlot; split <;> rfl
  unfold rodWrite
  split
  · rfl
  · exact queues_of_aside (memWrite_aside ..)
  · dsimp only
    split
    · rfl
    · exact hslot _

/-- A rod that opens leaves the queues, and counts the step that it opens for. -/
theorem openRod_opens {s u : State} {slice c gen q : Nat} (h : openRod s slice c gen q = (u, none)) : u.queues = s.queues ∧
    (rodOf s q = none → u = s) ∧ ∀ i r, rodOf s q = some (i, r) → ∃ r', (i, r') ∈ u.sched.rods ∧ r'.isOpen = true ∧ r'.steps = r.steps + 1 := by
  unfold openRod at h
  rcases hrod : rodOf s q with _ | ⟨i, r⟩
  · rw [hrod] at h
    cases h
    exact ⟨rfl, fun _ => rfl, fun _ _ => (nomatch ·)⟩
  · simp only [hrod] at h
    have hwrite := (rodWrite_queues (buildRod s slice q r).1 slice c gen r.manifest (manifestBytes (buildRod s slice q r).1 r
      (buildRod s slice q r).2.1 (buildRod s slice q r).2.2)).trans (buildRod_queues s slice q r)
    split at h
    next t ht =>
      rw [ht] at hwrite
      cases h
      refine ⟨hwrite, (nomatch ·), fun j r' hj => ?_⟩
      cases hj
      exact ⟨_, mem_minsert_same .., rfl, rfl⟩
    next t code ht => cases h

/-- A step whose rod opens is open, and its STEP_OPEN has passed. -/
theorem startStep_opens {s u : State} {q : Nat} {x : Queue} (hq : queueOf s q = some x)
    (h : openRod s (ctxOf s x.ctx).slice x.ctx x.gen q = (u, none)) :
    startStep s q = finishRing (modQueue u q fun y => { y with stepOpen := true, opening := false, gang := none }) 1 (.queue q) := by
  unfold startStep
  simp only [hq, h]

/-! ## STEP_OPEN (R390 to R392) -/

section stepOpen
variable {q : Nat} {x : Queue} {ws : List Word} {s : State} (htakes : queueTakes s q x ws = true) (hty : field (ws.getD 0 0) 0 8 = 1)
  (hstep : x.stepOpen = false) (hother : otherStep s x.ctx q = false)
include htakes hty hstep hother

/-- STEP_OPEN with COUNT 0 begins its queue's step. -/
theorem execStepOpen_alone (hcount : field (ws.getD 0 0) 16 8 = 0) (hva : ws.getD 1 0 = 0) :
    exec (.stepOpen (.queue q) ws) s = endPacket (queuePkt s q x ws) (.hold (beginStep s q x.ctx)) := by
  show execStepOpen _ _ _ = _
  unfold execStepOpen
  rw [packet_queue htakes (by rw [hty]; rfl) (by rw [hty]; decide)]
  have hq := queueOf_of_takes htakes
  refine congrArg (endPacket _) ((if_neg ?_).trans ((if_neg ?_).trans ((if_neg ?_).trans (if_pos hcount))))
  · have hva : (ws.getD 1 0).toNat = 0 := by rw [hva]; rfl
    delta Pkt.w queuePkt
    simp only [Bool.or_eq_true, Bool.and_eq_true, decide_eq_true_eq]
    omega
  · rw [hq, Option.map_some, hstep]; decide
  · exact Bool.eq_false_iff.mp hother

/-- STEP_OPEN of a gang that is read and legal makes its queue wait for it. -/
theorem execStepOpen_gang {bs : List Byte} {u : State} (hsome : 0 < field (ws.getD 0 0) 16 8) (hmost : field (ws.getD 0 0) 16 8 ≤ 192)
    (hva : (ws.getD 1 0).toNat % 8 = 0) (hfits : field (ws.getD 0 0) 16 8 ≤ (dEngines (descOf s (ctxOf s x.ctx).slice)).length)
    (hread : memRead s (engWho s (lowestEng s (ctxOf s x.ctx).slice (homeCluster s (ctxOf s x.ctx).slice)) x.ctx x.gen 0) .va
      (ws.getD 1 0).toNat (2 * field (ws.getD 0 0) 16 8) = (u, .ok bs))
    (hlist : gangListOk u (ctxOf s x.ctx).slice q (gangList bs (field (ws.getD 0 0) 16 8)) = true) :
    exec (.stepOpen (.queue q) ws) s =
      endPacket (queuePkt s q x ws) (.hold (modQueue u q fun y =>
        { y with gang := some (gangList bs (field (ws.getD 0 0) 16 8), u.pclk) })) := by
  show execStepOpen _ _ _ = _
  unfold execStepOpen
  rw [packet_queue htakes (by rw [hty]; rfl) (by rw [hty]; decide)]
  have hq := queueOf_of_takes htakes
  refine congrArg (endPacket _) ((if_neg ?format).trans ((if_neg ?closed).trans ((if_neg ?alone).trans ((if_neg ?gang).trans
    ((if_neg ?fits).trans ?_)))))
  case format =>
    delta Pkt.w queuePkt
    simp only [Bool.or_eq_true, Bool.and_eq_true, decide_eq_true_eq]
    omega
  case closed => rw [hq, Option.map_some, hstep]; decide
  case alone => exact Bool.eq_false_iff.mp hother
  case gang => exact Nat.pos_iff_ne_zero.mp hsome
  case fits => exact Nat.not_lt.mpr hfits
  · simp only [Pkt.w, queuePkt, hread, hlist]
    rfl

/-- STEP_OPEN on an engine that keeps its context (R391). -/
theorem stepOpen_starts (hcount : field (ws.getD 0 0) 16 8 = 0) (hva : ws.getD 1 0 = 0) {u : State}
    (heng : (ctxOf s x.ctx).eng.isSome = true) (hstay : leaving s x.ctx = false)
    (hopen : openRod s (ctxOf s x.ctx).slice x.ctx x.gen q = (u, none)) (hclear : clear u = true) :
    Ends (.stepOpen (.queue q) ws) s fun t => QueuePassed q x t ∧ (∃ y, queueOf t q = some y ∧ y.stepOpen = true ∧ y.gang = none) ∧
      (rodOf s q = none → { t with queues := s.queues } = s) ∧
      ∀ i r, rodOf s q = some (i, r) → ∃ r', (i, r') ∈ t.sched.rods ∧ r'.isOpen = true ∧ r'.steps = r.steps + 1 := by
  have hq := queueOf_of_takes htakes
  obtain ⟨hqueues, hsame, hrod⟩ := openRod_opens hopen
  have hqu : queueOf u q = some x := (congrArg (fun l => (l.find? fun e => e.1 = q).map Prod.snd) hqueues).trans hq
  have hexec := execStepOpen_alone htakes hty hstep hother hcount hva
  rw [beginStep, if_pos (by rw [heng, hstay]; rfl), startStep_opens hq hopen] at hexec
  have hmarked : queueOf (modQueue u q fun y => { y with stepOpen := true, opening := false, gang := none }) q =
      some { x with stepOpen := true, opening := false, gang := none } := by rw [queueOf_modQueue, hqu]; rfl
  refine Ends.of_settle hexec hclear ⟨queuePassed_finishRing hmarked rfl rfl, ?marked, fun hnone => ?rest, hrod⟩
  case marked => exact ⟨_, (queueOf_modQueue ..).trans (congrArg (Option.map _) hmarked), rfl, rfl⟩
  case rest => rw [hsame hnone]; rfl

omit htakes hty hstep hother in
/-- A context that becomes ready for the packet of a ring joins the ready ones, and the requests of R397 follow. -/
theorem readied (s : State) (c : Nat) (r : RingId) :
    ∃ sc en, lcRequests (addReadyFor s c r) = { s with sched := sc, engines := en } ∧ c ∈ sc.ready := by
  obtain ⟨en, hreq⟩ := lcRequests_frame (addReadyFor s c r)
  obtain ⟨sc, hadd⟩ := addReadyFor_frame s c r
  have hready := mem_ready_addReadyFor s c r
  rw [hadd] at hready hreq
  rw [hadd, hreq]
  exact ⟨sc, en, rfl, hready⟩

/-- STEP_OPEN of a context that no engine holds, or whose engine gives it up: the queue waits for the context to be placed (R391). -/
theorem stepOpen_waits (hcount : field (ws.getD 0 0) 16 8 = 0) (hva : ws.getD 1 0 = 0)
    (haway : (ctxOf s x.ctx).eng.isSome = false ∨ leaving s x.ctx = true) (hclear : clear s = true) :
    Ends (.stepOpen (.queue q) ws) s fun t => queueOf t q = some { x with opening := true } ∧ OnlyQueue q s t ∧ x.ctx ∈ t.sched.ready ∧
      { t with queues := s.queues, sched := s.sched, engines := s.engines } = s := by
  have hq := queueOf_of_takes htakes
  have hexec := execStepOpen_alone htakes hty hstep hother hcount hva
  have hcond : ((ctxOf s x.ctx).eng.isSome && !leaving s x.ctx) = false := by
    rcases haway with h | h <;> simp [h]
  rw [beginStep, if_neg (by rw [hcond]; decide)] at hexec
  have hqueue := (queueOf_modQueue s q fun y => { y with opening := true }).trans (congrArg (Option.map _) hq)
  have honly := onlyQueue_modQueue s q fun y => { y with opening := true }
  obtain ⟨sc, en, hlast, hready⟩ := readied (modQueue s q fun y => { y with opening := true }) x.ctx (.queue q)
  rw [hlast] at hexec
  exact Ends.of_settle hexec hclear ⟨hqueue, honly, hready, rfl⟩

/-- STEP_OPEN of a legal gang that is read without a wait (R392). -/
theorem stepOpen_joins {bs : List Byte} {u : State} {a : Acc (List Byte)} (hsome : 0 < field (ws.getD 0 0) 16 8)
    (hmost : field (ws.getD 0 0) 16 8 ≤ 192) (hva : (ws.getD 1 0).toNat % 8 = 0)
    (hfits : field (ws.getD 0 0) 16 8 ≤ (dEngines (descOf s (ctxOf s x.ctx).slice)).length)
    (hread : memRead s (engWho s (lowestEng s (ctxOf s x.ctx).slice (homeCluster s (ctxOf s x.ctx).slice)) x.ctx x.gen 0) .va
      (ws.getD 1 0).toNat (2 * field (ws.getD 0 0) 16 8) = (u, a)) (hok : a = .ok bs)
    (hlist : gangListOk u (ctxOf s x.ctx).slice q (gangList bs (field (ws.getD 0 0) 16 8)) = true) (hclear : clear u = true) :
    Ends (.stepOpen (.queue q) ws) s fun t =>
      queueOf t q = some { x with gang := some (gangList bs (field (ws.getD 0 0) 16 8), s.pclk) } ∧ OnlyQueue q s t ∧
      { t with queues := u.queues } = u := by
  subst hok
  have haside : u.aside = s.aside := (congrArg (State.aside ∘ Prod.fst) hread.symm :).trans (memRead_aside ..)
  have hpclk : u.pclk = s.pclk := (congrArg State.pclk haside :)
  have hqueue (k : Nat) : queueOf u k = queueOf s k := congrArg (fun l => (l.find? fun e => e.1 = k).map Prod.snd) (queues_of_aside haside)
  refine Ends.of_settle (execStepOpen_gang htakes hty hstep hother hsome hmost hva hfits hread hlist) hclear
    ⟨?_, fun k hk => (queueOf_modQueue_ne u _ hk).trans (hqueue k), rfl⟩
  rw [queueOf_modQueue, hqueue, queueOf_of_takes htakes, hpclk, Option.map_some]

end stepOpen

/-! ## STEP_CLOSE (R412, R413, R416) -/

theorem execStepClose_taken {q : Nat} {x : Queue} {ws : List Word} {s : State} (htakes : queueTakes s q x ws = true)
    (hty : field (ws.getD 0 0) 0 8 = 2) (hrec : (ws.getD 1 0).toNat % 8 = 0) (hsig : bit (ws.getD 2 0) 63 = false)
    (hstep : x.stepOpen = true) (hrod : rodOf s q = none) : exec (.stepClose (.queue q) ws) s = endPacket (queuePkt s q x ws)
      (.done (countStep (modQueue s q fun x => { x with stepOpen := false }) (ctxOf s x.ctx).slice x.ctx) 0) := by
  have hsig' : bit ((queuePkt s q x ws).w 2) 63 = false := hsig
  have hopen : ((queueOf s q).map (·.stepOpen)).getD false = true := by rw [queueOf_of_takes htakes, Option.map_some, hstep]; rfl
  show execStepClose _ _ _ = _
  unfold execStepClose
  rw [packet_queue htakes (by rw [hty]; rfl) (by rw [hty]; decide)]
  refine congrArg (endPacket _) ((if_neg ?format).trans ((if_neg ?fence).trans ((if_neg ?closed).trans ?_)))
  case format =>
    rw [hrod]
    delta Pkt.w queuePkt
    simp only [Option.isSome_none, Bool.false_and, Bool.or_false, decide_eq_true_eq]
    omega
  case fence => rw [hsig']; simp
  case closed => rw [hopen]; simp
  · simp only [hrod, closeStep, hopen, hsig', Bool.false_eq_true, if_false, if_true]
    rfl

/-- A step close is counted in its slice and its context (R416). -/
theorem countStep_counts (s : State) (n c : Nat) :
    (slSchedOf (countStep s n c) n).steps = satAdd 0xFFFFFFFF (slSchedOf s n).steps 1 ∧
    ctxOf (countStep s n c) c = { ctxOf s c with
      lastEnd := s.pclk, acc := { (ctxOf s c).acc with steps := satAdd 0xFFFFFFFF (ctxOf s c).acc.steps 1, cur := 0 } } ∧
    ∀ k, k ≠ c → ctxOf (countStep s n c) k = ctxOf s k := by
  unfold countStep
  refine ⟨?slice, ?ctx, fun k hk => ?others⟩
  case slice => exact congrArg SlSched.steps (slSchedOf_modSlSched s n fun a => { a with steps := satAdd 0xFFFFFFFF a.steps 1 })
  case ctx =>
    dsimp only
    rw [ctxOf_modCtx, modAcc, ctxOf_modCtx]
    rfl
  case others =>
    dsimp only
    rw [ctxOf_modCtx_ne _ _ hk, modAcc, ctxOf_modCtx_ne _ _ hk]
    rfl

theorem countStep_frame (s : State) (n c : Nat) : ∃ cx sc, countStep s n c = { s with ctxs := cx, sched := sc } := ⟨_, _, rfl⟩

theorem onlyQueue_queuePassed (s : State) (q : Nat) : OnlyQueue q s (finishRing s 1 (.queue q)) := onlyQueue_modQueue s q _

theorem queueOf_queuePassed (s : State) (q : Nat) : queueOf (finishRing s 1 (.queue q)) q = (queueOf s q).map fun x =>
    { x with busy := false, ext := none, head := (x.head + 1) % 2 ^ 32, since := s.pclk } := queueOf_modQueue ..

theorem stepClose_ends {q : Nat} {x : Queue} {ws : List Word} {s : State} (htakes : queueTakes s q x ws = true)
    (hty : field (ws.getD 0 0) 0 8 = 2) (hrec : (ws.getD 1 0).toNat % 8 = 0) (hsig : bit (ws.getD 2 0) 63 = false)
    (hstep : x.stepOpen = true) (hrod : rodOf s q = none) (hclear : clear s = true) :
    Ends (.stepClose (.queue q) ws) s fun t => QueuePassed q x t ∧ OnlyQueue q s t ∧ (∃ y, queueOf t q = some y ∧ y.stepOpen = false) ∧
      (slSchedOf t (ctxOf s x.ctx).slice).steps = satAdd 0xFFFFFFFF (slSchedOf s (ctxOf s x.ctx).slice).steps 1 ∧
      (ctxOf t x.ctx).lastEnd = s.pclk ∧ (ctxOf t x.ctx).acc.steps = satAdd 0xFFFFFFFF (ctxOf s x.ctx).acc.steps 1 ∧
      (ctxOf t x.ctx).acc.cur = 0 ∧ (∀ k, k ≠ x.ctx → ctxOf t k = ctxOf s k) ∧
      { t with queues := s.queues, ctxs := s.ctxs, sched := s.sched } = s := by
  have hclosed : queueOf (modQueue s q fun x => { x with stepOpen := false }) q = some { x with stepOpen := false } := by
    rw [queueOf_modQueue, queueOf_of_takes htakes]; rfl
  have hexec := execStepClose_taken htakes hty hrec hsig hstep hrod
  obtain ⟨hslice, hctx, hothers⟩ := countStep_counts (modQueue s q fun x => { x with stepOpen := false }) (ctxOf s x.ctx).slice x.ctx
  obtain ⟨cx, sc, hframe⟩ := countStep_frame (modQueue s q fun x => { x with stepOpen := false }) (ctxOf s x.ctx).slice x.ctx
  rw [hframe] at hexec hslice hctx hothers
  refine ends_queueDone rfl hexec hclear
    ⟨queuePassed_finishRing hclosed rfl rfl, fun k hk => ?only, ?queue, hslice, ?ended, ?steps, ?cur, hothers, rfl⟩
  case only => exact (onlyQueue_queuePassed _ q k hk).trans (onlyQueue_modQueue s q (fun x => { x with stepOpen := false }) k hk)
  case queue => exact ⟨_, (queueOf_queuePassed ..).trans (congrArg (Option.map _) hclosed), rfl⟩
  case ended => exact congrArg Ctx.lastEnd hctx
  case steps => exact congrArg (fun y => y.acc.steps) hctx
  case cur => exact congrArg (fun y => y.acc.cur) hctx

/-! ## Gangs that time out (R392) -/

/-- A queue that a code has put into the error state, in no gang. -/
def Queue.Failed (code : Nat) (y : Queue) : Prop := y.err = true ∧ y.code = codeKey code ∧ y.gang = none

/-- Queue `k` in record `y` after member `m` of a gang has failed with a code: every queue of its gang fails with it, and `m` passes its
STEP_OPEN (R392). -/
def memberFailed (s : State) (m code k : Nat) (y : Queue) : Queue :=
  let z := if k = m || ((gangListOf s m).isSome && y.gang.map (·.1) = gangListOf s m) then
    { y with err := true, code := codeKey code, held := none, gang := none, ext := none, opening := false } else y
  if k = m then { z with busy := false, ext := none, head := (z.head + 1) % 2 ^ 32, since := s.pclk } else z

theorem queues_memberFailed (s : State) (m code : Nat) :
    (finishRing (queueErr s m code) 1 (.queue m)).queues = s.queues.map fun e => (e.1, memberFailed s m code e.1 e.2) := by
  show ((queueErr s m code).queues.map _) = _
  unfold queueErr
  rw [List.map_map]
  refine List.map_congr_left fun e _ => ?_
  unfold memberFailed
  simp only [Function.comp_def]
  split <;> split <;> rfl

theorem memberFailed_fails {s : State} {m code k : Nat} {y : Queue} (h : k = m ∨ y.Failed code) : (memberFailed s m code k y).Failed code := by
  unfold memberFailed
  dsimp only
  rcases h with rfl | ⟨herr, hcode, hgang⟩
  · rw [if_pos rfl, if_pos (by simp)]
    exact ⟨rfl, rfl, rfl⟩
  · split <;> split
    · exact ⟨rfl, rfl, rfl⟩
    · exact ⟨herr, hcode, hgang⟩
    · exact ⟨rfl, rfl, rfl⟩
    · exact ⟨herr, hcode, hgang⟩

theorem memberFailed_gang (s : State) (m code k : Nat) (y : Queue) :
    (memberFailed s m code k y).gang = y.gang ∨ (memberFailed s m code k y).gang = none := by
  unfold memberFailed
  dsimp only
  split <;> split
  · exact .inr rfl
  · exact .inl rfl
  · exact .inr rfl
  · exact .inl rfl

/-- Failing the members of a gang changes queues by number: each member fails, and no queue joins a gang. -/
theorem failGang_queues (code : Nat) (ms : List Nat) (s : State) : ∃ F : Nat → Queue → Queue,
    (failGang s ms code).queues = s.queues.map (fun e => (e.1, F e.1 e.2)) ∧ (∀ k y, k ∈ ms ∨ y.Failed code → (F k y).Failed code) ∧
    (∀ k y, (F k y).gang = y.gang ∨ (F k y).gang = none) ∧ { failGang s ms code with queues := s.queues } = s := by
  induction ms generalizing s with
  | nil => exact ⟨fun _ y => y, by simp [failGang], fun k y h => h.resolve_left (List.not_mem_nil), fun _ _ => .inl rfl, rfl⟩
  | cons m ms ih =>
    obtain ⟨F, hqueues, hfails, hgang, hrest⟩ := ih (finishRing (queueErr s m code) 1 (.queue m))
    refine ⟨fun k y => F k (memberFailed s m code k y), ?map, fun k y hk => hfails k _ ?failed, fun k y => ?gang, ?rest⟩
    case map =>
      rw [failGang, List.foldl_cons]
      refine hqueues.trans ?_
      rw [queues_memberFailed, List.map_map]
      rfl
    case failed =>
      by_cases hkm : k = m
      · exact .inr (memberFailed_fails (.inl hkm))
      · exact hk.imp (fun h => (List.mem_cons.mp h).resolve_left hkm) fun h => memberFailed_fails (.inr h)
    case gang =>
      rcases hgang k (memberFailed s m code k y) with h | h
      · exact (memberFailed_gang s m code k y).imp h.trans h.trans
      · exact .inr h
    case rest => exact (congrArg (fun t : State => { t with queues := s.queues }) hrest :)

/-- The least of the entries' times, no later than any of them. -/
theorem foldl_min_le {α : Type} (f : α → Option Nat) (l : List α) (a : Nat) {y : α} {v : Nat} (hy : y ∈ l) (hv : f y = some v) :
    l.foldl (fun a y => min a ((f y).getD a)) a ≤ v := by
  have hle (l : List α) (a : Nat) : l.foldl (fun a y => min a ((f y).getD a)) a ≤ a := by
    induction l generalizing a with
    | nil => exact Nat.le_refl a
    | cons z l ih => exact (ih _).trans (Nat.min_le_left ..)
  induction l generalizing a with
  | nil => cases hy
  | cons z l ih =>
    rw [List.foldl_cons]
    rcases List.mem_cons.mp hy with rfl | hy
    · refine (hle l _).trans ?_
      rw [hv]
      exact Nat.min_le_right ..
    · exact ih _ hy

theorem gangTimeout_ends {q at' : Nat} {l : List Nat} {x : Queue} {s : State} (hq : queueOf s q = some x) (hgang : x.gang = some (l, at'))
    (hwait : (slSchedOf s (ctxOf s x.ctx).slice).gangWait ≠ 0)
    (hdue : ∃ m ∈ s.queues, m.2.gang.map (·.1) = some l ∧
      (m.2.gang.map (·.2)).getD 0 + 800000 * (slSchedOf s (ctxOf s x.ctx).slice).gangWait ≤ s.pclk) (hclear : clear s = true) :
    Ends (.gangTimeout q) s fun t => (∀ m ∈ t.queues, m.2.gang.map (·.1) ≠ some l) ∧
      (∀ m y, queueOf s m = some y → y.gang.map (·.1) = some l →
        ∃ z, queueOf t m = some z ∧ z.err = true ∧ z.code = cGANG_TIMEOUT ∧ z.gang = none) ∧ { t with queues := s.queues } = s := by
  let mates := s.queues.filter fun x => (x.2.gang.map (·.1)) = some l
  have hmate {m : Nat × Queue} (hm : m ∈ s.queues) (hl : m.2.gang.map (·.1) = some l) : m ∈ mates := List.mem_filter.mpr ⟨hm, decide_eq_true hl⟩
  have hpassed : mates.foldl (fun a x => min a ((x.2.gang.map (·.2)).getD a)) s.pclk +
      800000 * (slSchedOf s (ctxOf s x.ctx).slice).gangWait ≤ s.pclk := by
    obtain ⟨m, hm, hl, htime⟩ := hdue
    obtain ⟨g, hg, -⟩ := Option.map_eq_some_iff.mp hl
    have hfirst := foldl_min_le (fun x : Nat × Queue => x.2.gang.map (·.2)) mates s.pclk (hmate hm hl) (v := g.2) (by rw [hg]; rfl)
    rw [hg] at htime
    exact (Nat.add_le_add_right hfirst _).trans htime
  obtain ⟨F, hqueues, hfails, hgangs, hrest⟩ := failGang_queues cGANG_TIMEOUT (mates.map (·.1)) s
  refine Ends.of_guard (t := failGang s (mates.map (·.1)) cGANG_TIMEOUT) (c := decide ((slSchedOf s (ctxOf s x.ctx).slice).gangWait ≠ 0) &&
    decide (mates.foldl (fun a x => min a ((x.2.gang.map (·.2)).getD a)) s.pclk +
      800000 * (slSchedOf s (ctxOf s x.ctx).slice).gangWait ≤ s.pclk)) ?exec (by simp [hwait, hpassed]) ?clear ⟨?none, ?failed, hrest⟩
  case exec =>
    have hof : gangOf s q = some (l, at') := by rw [gangOf, hq]; exact hgang
    show execGangTimeout q s = _
    unfold execGangTimeout
    simp only [hof, hq]
    rfl
  case clear => exact (congrArg clear hrest :).trans hclear
  case none =>
    intro m hm hl
    rw [hqueues] at hm
    obtain ⟨e, he, rfl⟩ := List.mem_map.mp hm
    rcases hgangs e.1 e.2 with h | h
    · have hmember : e.1 ∈ mates.map (·.1) := List.mem_map_of_mem (hmate he (h ▸ hl))
      obtain ⟨-, -, hnone⟩ := hfails e.1 e.2 (.inl hmember)
      rw [hnone] at hl
      cases hl
    · rw [h] at hl
      cases hl
  case failed =>
    intro m y hy hl
    obtain ⟨e, he, rfl⟩ := Option.map_eq_some_iff.mp hy
    have hkey : e.1 = m := by simpa using List.find?_some he
    have hmember : e.1 ∈ mates.map (·.1) := List.mem_map_of_mem (hmate (List.mem_of_find?_eq_some he) hl)
    obtain ⟨herr, hcode, hnone⟩ := hfails e.1 e.2 (.inl hmember)
    refine ⟨F e.1 e.2, ?_, herr, hcode.trans rfl, hnone⟩
    unfold queueOf
    rw [hqueues, find?_map_keepsKey _ _ (g := fun e => (e.1, F e.1 e.2)) fun _ => rfl, he]
    rfl

/-! ## Gangs that start (R392) -/

theorem length_eraseDups_le (l : List Nat) : l.eraseDups.length ≤ l.length ∧ (l.eraseDups.length = l.length → l.Nodup) := by
  generalize hn : l.length = n
  induction n using Nat.strong_induction_on generalizing l with
  | _ n ih =>
    cases l with
    | nil => exact ⟨hn ▸ Nat.le_refl _, fun _ => List.nodup_nil⟩
    | cons a l =>
      have hfilter := List.length_filter_le (fun b => !b == a) l
      rw [List.length_cons] at hn
      obtain ⟨hle, hnodup⟩ := ih _ (by omega) (l.filter fun b => !b == a) rfl
      rw [List.eraseDups_cons, List.length_cons]
      refine ⟨by omega, fun heq => ?_⟩
      have hall := List.length_filter_eq_length_iff.mp (show (l.filter fun b => !b == a).length = l.length by omega)
      have hsame : l.filter (fun b => !b == a) = l := List.filter_eq_self.mpr hall
      refine List.nodup_cons.mpr ⟨fun ha => by simpa using hall a ha, ?_⟩
      rw [← hsame]
      exact hnodup (by omega)

theorem nodup_of_eraseDups {l : List Nat} (h : l.eraseDups.length = l.length) : l.Nodup := (length_eraseDups_le l).2 h

/-- Attaching a context touches no other context and no other engine, and leaves the generation, the queues and the rods. -/
theorem attach_others (s : State) (e c : Nat) : (∀ k, k ≠ c → ctxOf (attach s e c) k = ctxOf s k) ∧
    (∀ k, k ≠ e → engOf (attach s e c) k = engOf s k) ∧ (attach s e c).sched.rods = s.sched.rods := by
  have hpushed (u : State) (F : Engine → Engine) (G : Ctx → Ctx) : (∀ k, k ≠ c → ctxOf (dropReady (modCtx (modEng u e F) c G) c) k = ctxOf u k) ∧
      ∀ k, k ≠ e → engOf (dropReady (modCtx (modEng u e F) c G) c) k = engOf u k :=
    ⟨fun k hk => ctxOf_modCtx_ne (modEng u e F) G hk, fun k hk => engOf_modEng_ne u F hk⟩
  unfold attach
  dsimp only
  split
  · exact ⟨(hpushed ..).1, (hpushed ..).2, rfl⟩
  · exact ⟨(hpushed ..).1, (hpushed ..).2, rfl⟩

/-- Contexts placed on engines one after the other, in pairs of a context and its engine. -/
def seatAll (s : State) (ps : List (Nat × Nat)) : State := ps.foldl (fun t p => attach t p.2 p.1) s

theorem seatAll_frame (ps : List (Nat × Nat)) (s : State) :
    ∃ en re cx sc, seatAll s ps = { s with engines := en, reqErrs := re, ctxs := cx, sched := sc } := by
  induction ps generalizing s with
  | nil => exact ⟨s.engines, s.reqErrs, s.ctxs, s.sched, rfl⟩
  | cons p ps ih =>
    obtain ⟨en, re, cx, sc, h⟩ := attach_frame s p.2 p.1
    obtain ⟨en', re', cx', sc', h'⟩ := ih (attach s p.2 p.1)
    exact ⟨en', re', cx', sc', h'.trans (by rw [h])⟩

/-- Distinct contexts placed on distinct engines sit where they were placed. -/
theorem seatAll_seats (ps : List (Nat × Nat)) (s : State) (hctxs : (ps.map Prod.fst).Nodup) (hengs : (ps.map Prod.snd).Nodup) :
    (∀ p ∈ ps, (ctxOf (seatAll s ps) p.1).eng = some p.2 ∧ (engOf (seatAll s ps) p.2).ctx = some (p.1, (ctxOf s p.1).gen)) ∧
    (∀ k, k ∉ ps.map Prod.fst → ctxOf (seatAll s ps) k = ctxOf s k) ∧ ∀ k, k ∉ ps.map Prod.snd → engOf (seatAll s ps) k = engOf s k := by
  induction ps generalizing s with
  | nil => exact ⟨fun _ h => (List.not_mem_nil h).elim, fun _ _ => rfl, fun _ _ => rfl⟩
  | cons p ps ih =>
    rw [List.map_cons, List.nodup_cons] at hctxs hengs
    obtain ⟨hseats, hothers, hidle⟩ := ih (attach s p.2 p.1) hctxs.2 hengs.2
    obtain ⟨hctx, heng, -⟩ := attach_others s p.2 p.1
    obtain ⟨hholds, hon, -⟩ := attach_seats s p.2 p.1
    refine ⟨fun r hr => ?seats, fun k hk => ?ctxs, fun k hk => ?engs⟩
    case seats =>
      rcases List.mem_cons.mp hr with rfl | hr
      · exact ⟨(congrArg Ctx.eng (hothers r.1 hctxs.1)).trans hon, (congrArg Engine.ctx (hidle r.2 hengs.1)).trans hholds.1⟩
      · have hne : r.1 ≠ p.1 := fun h => hctxs.1 (h ▸ List.mem_map_of_mem hr)
        obtain ⟨hsits, hruns⟩ := hseats r hr
        exact ⟨hsits, hruns.trans (by rw [hctx _ hne])⟩
    case ctxs =>
      rw [List.map_cons, List.mem_cons, not_or] at hk
      exact (hothers k hk.2).trans (hctx k hk.1)
    case engs =>
      rw [List.map_cons, List.mem_cons, not_or] at hk
      exact (hidle k hk.2).trans (heng k hk.1)

/-- The context of a queue. -/
def queueCtx (s : State) (q : Nat) : Nat := ((queueOf s q).map (·.ctx)).getD 0

theorem queueCtx_of {s : State} {q : Nat} {y : Queue} (h : queueOf s q = some y) : queueCtx s q = y.ctx := by rw [queueCtx, h]; rfl

/-- Member `m` of a gang placed on its engine and its rod opened, unless an earlier member's did not open (R392). -/
def gangSeat (acc : State × Option Nat) (m : Nat × Nat) : State × Option Nat :=
  match acc.2, queueOf acc.1 m.1 with
  | none, some x =>
    let t := attach acc.1 m.2 x.ctx
    openRod t (ctxOf t x.ctx).slice x.ctx x.gen m.1
  | _, _ => acc

/-- Members of a gang without rods are all placed. -/
theorem foldl_gangSeat {s : State} (ms : List (Nat × Nat)) (t : State) (hqueues : t.queues = s.queues) (hrods : t.sched.rods = s.sched.rods)
    (hnone : ∀ m ∈ ms, rodOf s m.1 = none ∧ (queueOf s m.1).isSome = true) :
    ms.foldl gangSeat (t, none) = (seatAll t (ms.map fun m => (queueCtx s m.1, m.2)), none) := by
  induction ms generalizing t with
  | nil => rfl
  | cons m ms ih =>
    obtain ⟨hrod, hsome⟩ := hnone m List.mem_cons_self
    obtain ⟨y, hy⟩ := Option.isSome_iff_exists.mp hsome
    obtain ⟨en, re, cx, sc, hframe⟩ := attach_frame t m.2 y.ctx
    have hrods' : (attach t m.2 y.ctx).sched.rods = s.sched.rods := (attach_others ..).2.2.trans hrods
    have hqueues' : (attach t m.2 y.ctx).queues = s.queues := (congrArg State.queues hframe :).trans hqueues
    have hty : queueOf t m.1 = some y := (congrArg (fun l => (l.find? fun e => e.1 = m.1).map Prod.snd) hqueues).trans hy
    have hno : rodOf (attach t m.2 y.ctx) m.1 = none := (congrArg (fun l => l.find? fun r => r.2.queue = m.1) hrods').trans hrod
    have hseat : gangSeat (t, none) m = (attach t m.2 y.ctx, none) := by
      simp only [gangSeat, hty, openRod, hno]
    rw [List.foldl_cons, hseat, ih _ hqueues' hrods' fun k hk => hnone k (List.mem_cons_of_mem _ hk), List.map_cons, queueCtx_of hy]
    rfl

/-- A queue whose step has opened with its gang. -/
def Queue.gangOpened (y : Queue) (now : Nat) : Queue :=
  { y with stepOpen := true, gang := none, busy := false, ext := none, head := (y.head + 1) % 2 ^ 32, since := now }

/-- The steps of a gang's members open, each once. -/
def openAll (s : State) (l : List Nat) : State :=
  l.foldl (fun t q => finishRing (modQueue t q fun x => { x with stepOpen := true, gang := none }) 1 (.queue q)) s

theorem openAll_queues (l : List Nat) (s : State) (hnodup : l.Nodup) :
    (∀ m ∈ l, queueOf (openAll s l) m = (queueOf s m).map fun y => y.gangOpened s.pclk) ∧
    (∀ m, m ∉ l → queueOf (openAll s l) m = queueOf s m) ∧ { openAll s l with queues := s.queues } = s := by
  induction l generalizing s with
  | nil => exact ⟨fun _ h => (List.not_mem_nil h).elim, fun _ _ => rfl, rfl⟩
  | cons q l ih =>
    obtain ⟨hq, hl⟩ := List.nodup_cons.mp hnodup
    have hother (k : Nat) (hk : k ≠ q) :
        queueOf (finishRing (modQueue s q fun x => { x with stepOpen := true, gang := none }) 1 (.queue q)) k = queueOf s k :=
      (onlyQueue_queuePassed _ q k hk).trans (onlyQueue_modQueue s q (fun x => { x with stepOpen := true, gang := none }) k hk)
    have hself : queueOf (finishRing (modQueue s q fun x => { x with stepOpen := true, gang := none }) 1 (.queue q)) q =
        (queueOf s q).map fun y => y.gangOpened s.pclk := by
      rw [queueOf_queuePassed, queueOf_modQueue, Option.map_map]
      rfl
    obtain ⟨hmembers, hothers, hrest⟩ := ih (finishRing (modQueue s q fun x => { x with stepOpen := true, gang := none }) 1 (.queue q)) hl
    refine ⟨fun m hm => ?members, fun m hm => ?others, ?rest⟩
    case members =>
      rcases List.mem_cons.mp hm with rfl | hm
      · exact (hothers m hq).trans hself
      · have hne : m ≠ q := fun h => hq (h ▸ hm)
        exact (hmembers m hm).trans (by rw [hother m hne]; rfl)
    case others =>
      rw [List.mem_cons, not_or] at hm
      exact (hothers m hm.2).trans (hother m hm.1)
    case rest => exact (congrArg (fun t : State => { t with queues := s.queues }) hrest :)

/-- A gang without rods starts: its contexts are placed and its steps open (R392). -/
theorem startGang_starts {s : State} {l place : List Nat} (hnone : ∀ m ∈ l.zip place, rodOf s m.1 = none ∧ (queueOf s m.1).isSome = true) :
    startGang s l place = openAll (seatAll s ((l.zip place).map fun m => (queueCtx s m.1, m.2))) l := by
  have hfold := foldl_gangSeat (l.zip place) s rfl rfl hnone
  change (match (l.zip place).foldl gangSeat (s, none) with
    | (t, code) => match code with
      | some code => failGang { t with engines := s.engines, ctxs := s.ctxs, sched := s.sched, reqErrs := s.reqErrs } l code
      | none => openAll t l) = _
  rw [hfold]

/-- The contexts of a gang's members with the engines named for them. -/
def gangPairs (s : State) (l place : List Nat) : List (Nat × Nat) := (l.zip place).map fun m => (queueCtx s m.1, m.2)

theorem gangPairs_fst (s : State) {l place : List Nat} (hlen : place.length = l.length) :
    (gangPairs s l place).map Prod.fst = l.map (queueCtx s) :=
  calc (gangPairs s l place).map Prod.fst = ((l.zip place).map Prod.fst).map (queueCtx s) := by
        rw [gangPairs, List.map_map, List.map_map]; rfl
    _ = l.map (queueCtx s) := by rw [List.map_fst_zip hlen.ge]

theorem gangPairs_snd (s : State) {l place : List Nat} (hlen : place.length = l.length) : (gangPairs s l place).map Prod.snd = place :=
  calc (gangPairs s l place).map Prod.snd = (l.zip place).map Prod.snd := by rw [gangPairs, List.map_map]; rfl
    _ = place := List.map_snd_zip hlen.le

theorem gangCtxs_eq {s : State} {l : List Nat} (h : ∀ m ∈ l, (queueOf s m).isSome = true) : gangCtxs s l = l.map (queueCtx s) := by
  unfold gangCtxs
  rw [← List.filterMap_eq_map]
  refine List.filterMap_congr fun m hm => ?_
  obtain ⟨y, hy⟩ := Option.isSome_iff_exists.mp (h m hm)
  rw [hy, Function.comp_apply, queueCtx_of hy]
  rfl

theorem isSome_of_gangReady {s : State} {l : List Nat} {m : Nat} (h : gangReady s l m = true) : (queueOf s m).isSome = true := by
  unfold gangReady at h
  cases hm : queueOf s m with
  | none => rw [hm] at h; cases h
  | some y => rfl

/-- A gang that can be placed starts (R392). -/
theorem execGangStart_starts {q at' : Nat} {l place : List Nat} {s : State} (hgang : gangOf s q = some (l, at'))
    (hlen : place.length = l.length) (hplace : place.eraseDups.length = place.length) (hctxs : (gangCtxs s l).eraseDups.length = l.length)
    (hhalves : s.cfg.halves ≠ 0) (hready : ∀ m e, (m, e) ∈ l.zip place → gangReady s l m = true ∧ gangPlace s m e = true) :
    exec (.gangStart q place) s = settle (startGang s l place) := by
  have hall : ((l.zip place).all fun x => gangReady s l x.1 && gangPlace s x.1 x.2) = true :=
    List.all_eq_true.mpr fun m hm => Bool.and_eq_true_iff.mpr (hready m.1 m.2 hm)
  show execGangStart q place s = _
  unfold execGangStart
  simp only [hgang, hlen, hplace, hctxs, hhalves, hall, guardRes, ne_eq, not_false_eq_true, decide_true, Bool.and_self, if_true]

theorem gangStart_ends {q at' : Nat} {l place : List Nat} {s : State} (hgang : gangOf s q = some (l, at')) (hlen : place.length = l.length)
    (hplace : place.eraseDups.length = place.length) (hnodup : l.Nodup) (hctxs : (gangCtxs s l).eraseDups.length = l.length)
    (hhalves : s.cfg.halves ≠ 0) (hrods : ∀ m ∈ l, rodOf s m = none)
    (hready : ∀ m e, (m, e) ∈ l.zip place → gangReady s l m = true ∧ gangPlace s m e = true) (hclear : clear s = true) :
    Ends (.gangStart q place) s fun t =>
      (∀ m e y, (m, e) ∈ l.zip place → queueOf s m = some y →
        (∃ z, queueOf t m = some z ∧ z.stepOpen = true ∧ z.gang = none ∧ z.head = (y.head + 1) % 2 ^ 32) ∧
        (ctxOf t y.ctx).eng = some e ∧ (engOf t e).ctx = some (y.ctx, (ctxOf s y.ctx).gen)) ∧
      { t with queues := s.queues, ctxs := s.ctxs, engines := s.engines, sched := s.sched, reqErrs := s.reqErrs } = s := by
  have hmem {m e : Nat} (hm : (m, e) ∈ l.zip place) : m ∈ l := (List.of_mem_zip hm).1
  have hsome (m : Nat) (hm : m ∈ l) : (queueOf s m).isSome = true := by
    obtain ⟨⟨m, e⟩, hme, rfl⟩ := List.mem_map.mp ((List.map_fst_zip hlen.ge).symm ▸ hm : m ∈ (l.zip place).map Prod.fst)
    exact isSome_of_gangReady (hready m e hme).1
  have hpctxs : ((gangPairs s l place).map Prod.fst).Nodup := by
    rw [gangPairs_fst s hlen, ← gangCtxs_eq hsome]
    exact nodup_of_eraseDups (hctxs.trans (by rw [gangCtxs_eq hsome, List.length_map]))
  have hpengs : ((gangPairs s l place).map Prod.snd).Nodup := by
    rw [gangPairs_snd s hlen]; exact nodup_of_eraseDups hplace
  have hstart := startGang_starts (l := l) (place := place) fun m hm => ⟨hrods m.1 (hmem hm), hsome m.1 (hmem hm)⟩
  obtain ⟨hseats, -, -⟩ := seatAll_seats (gangPairs s l place) s hpctxs hpengs
  obtain ⟨en, re, cx, sc, hframe⟩ := seatAll_frame (gangPairs s l place) s
  have hpairs : seatAll s ((l.zip place).map fun m => (queueCtx s m.1, m.2)) = seatAll s (gangPairs s l place) := rfl
  rw [hpairs, hframe] at hstart
  rw [hframe] at hseats
  obtain ⟨hopened, -, hrest⟩ := openAll_queues l { s with engines := en, reqErrs := re, ctxs := cx, sched := sc } hnodup
  have hexec := execGangStart_starts hgang hlen hplace hctxs hhalves hready
  rw [hstart] at hexec
  have hctx (k : Nat) : ctxOf (openAll { s with engines := en, reqErrs := re, ctxs := cx, sched := sc } l) k =
      ctxOf { s with engines := en, reqErrs := re, ctxs := cx, sched := sc } k := (congrArg (ctxOf · k) hrest :)
  have heng (k : Nat) : engOf (openAll { s with engines := en, reqErrs := re, ctxs := cx, sched := sc } l) k =
      engOf { s with engines := en, reqErrs := re, ctxs := cx, sched := sc } k := (congrArg (engOf · k) hrest :)
  refine Ends.of_settle hexec ((congrArg clear hrest :).trans hclear) ⟨fun m e y hm hy => ⟨?opened, ?seated⟩, ?rest⟩
  case opened =>
    refine ⟨y.gangOpened s.pclk, (hopened m (hmem hm)).trans (congrArg (Option.map _) hy), rfl, rfl, rfl⟩
  case seated =>
    have hpair : (y.ctx, e) ∈ gangPairs s l place := List.mem_map.mpr ⟨(m, e), hm, by rw [queueCtx_of hy]⟩
    rw [hctx, heng]
    exact hseats _ hpair
  case rest =>
    exact (congrArg (fun t : State => { t with ctxs := s.ctxs, engines := s.engines, sched := s.sched, reqErrs := s.reqErrs }) hrest :)

/-! ## The obligation -/

/-- Settles O42: a STEP_OPEN begins its queue's step or joins its gang; a gang is seated (`seatAll_seats`) and its steps open
(`openAll_queues`), or its members fail (`failGang_queues`); a STEP_CLOSE is counted. -/
theorem stepsAndGangsOpenAndClose : Obligations.StepsAndGangsOpenAndClose := by
  unfold Obligations.StepsAndGangsOpenAndClose
  refine ⟨?alone, ?gang, ?start, ?timeout, ?close⟩
  case alone =>
    intro q x ws s htakes hty hcount hva hstep hother
    exact ⟨fun u heng hstay hopen hclear => stepOpen_starts htakes hty hstep hother hcount hva heng hstay hopen hclear,
      fun haway hclear => stepOpen_waits htakes hty hstep hother hcount hva haway hclear⟩
  case gang =>
    intro q x ws bs s htakes hty n va sl r hsome hmost hva hstep hother hfits hok hlist hclear
    exact stepOpen_joins htakes hty hstep hother hsome hmost hva hfits (Prod.eta r).symm hok hlist hclear
  case start =>
    exact fun q at' l place s hgang hlen hplace hnodup hctxs hhalves hrods hready hclear =>
      gangStart_ends hgang hlen hplace hnodup hctxs hhalves hrods hready hclear
  case timeout => exact fun q at' l x s hq hgang hwait hdue hclear => gangTimeout_ends hq hgang hwait hdue hclear
  case close => exact fun q x ws s htakes hty hrec hsig hstep hrod hclear => stepClose_ends htakes hty hrec hsig hstep hrod hclear

end Sys2Proof.Machine
end

section
/-! PROOFS. The requests of the mailbox are answered (O46). -/
namespace Sys2Proof.Machine

/-! ## The response (R617, R618) -/

/-- What answering a mailbox request leaves alone: all but the mailboxes, how far each negotiation has come apart. -/
def State.besideMailbox (s : State) : State × (Nat → Nat) :=
  ({ s.inward with ks := { s.ks with ports := [] } }, fun p => (hkOf s p).spdm)

theorem modHk_besideMailbox (s : State) (p : Nat) {f : HostKeys → HostKeys} (hf : ∀ h, (f h).spdm = h.spdm) :
    (modHk s p f).besideMailbox = s.besideMailbox := by
  have hspdm (q : Nat) : (hkOf (modHk s p f) q).spdm = (hkOf s q).spdm := by
    by_cases hq : q = p
    · rw [hq, hkOf_modHk, hf]
    · rw [hkOf_modHk_ne _ _ hq]
  exact congrArg (Prod.mk _) (funext hspdm)

theorem besideMailbox_of_inward {s t : State} (h : t.inward = s.inward) : t.besideMailbox = s.besideMailbox := (congrArg State.besideMailbox h :)

theorem respond_besideMailbox (s : State) (p : Nat) (rsp : List Byte) : (respond s p rsp).besideMailbox = s.besideMailbox :=
  (besideMailbox_of_inward (hostEvent_inward ..)).trans (modHk_besideMailbox s p fun _ => rfl)

theorem responds_respond (s : State) (p : Nat) (rsp : List Byte) : Responds p rsp (respond s p rsp) := by
  have hhk : hkOf (respond s p rsp) p = { hkOf s p with mbxBusy := false, mbxDone := true, mbxStatus := 0,
                                                        rspLen := (rsp.take 4096).length, rsp := bwrite [] 0 (rsp.take 4096) } :=
    (congrArg (hkOf · p) (hostEvent_inward ..) :).trans (hkOf_modHk s p _)
  rw [Responds, hhk]
  exact ⟨rfl, rfl, rfl, rfl, bread_bwrite ..⟩

theorem spdmAnswer_besideMailbox (s : State) (p code : Nat) (content : List (List Byte)) :
    (spdmAnswer s p code content).besideMailbox = s.besideMailbox :=
  (respond_besideMailbox ..).trans (modHk_besideMailbox s p fun _ => rfl)

theorem responds_spdmAnswer (s : State) (p code : Nat) (content : List (List Byte)) :
    Responds p (Config.spdmBytes code content) (spdmAnswer s p code content) := responds_respond ..

section
variable {s t : State} (h : t.besideMailbox = s.besideMailbox)
include h

theorem clear_of_besideMailbox : clear t = clear s := (congrArg (fun x => clear x.1) h :)
theorem spdm_of_besideMailbox (p : Nat) : (hkOf t p).spdm = (hkOf s p).spdm := (congrArg (fun x => x.2 p) h :)
theorem ks_of_besideMailbox : { t.ks with ports := [] } = { s.ks with ports := [] } := (congrArg (fun x => x.1.ks) h :)
theorem sessions_of_besideMailbox : t.ks.sessions = s.ks.sessions := (congrArg (fun x => x.1.ks.sessions) h :)
theorem sessionOf_of_besideMailbox (k : Nat) : sessionOf t k = sessionOf s k := (congrArg (fun x => sessionOf x.1 k) h :)
theorem sv_of_besideMailbox : t.sv = s.sv := (congrArg (fun x => x.1.sv) h :)

end

/-! ## Requests (R483 to R486) -/

/-- A request that is in progress is answered by its body. -/
theorem ends_spdmReq {i : Instr} {p code : Nat} {body : State → State} {s u v : State} {P : State → Prop} (h : exec i s = spdmReq p code body s)
    (hp : p < s.cfg.hostPorts) (hat : spdmAt s p code = true) (hbody : body s = v) (hv : v.besideMailbox = u.besideMailbox)
    (hclear : clear u = true) (hP : P v) : Ends i s P := by
  subst hbody
  exact Ends.of_unit h (decide_eq_true hp) hat ((clear_of_besideMailbox hv).trans hclear) hP

theorem negotiated_full {p : Nat} {body : State → State} {s : State} (hfull : mailboxFull s = true) (h : (hkOf s p).spdm = 3) :
    negotiated p body s = body s := by
  unfold negotiated
  rw [if_neg (by simp [hfull]), if_neg (not_not_intro h)]

theorem negotiated_early {p : Nat} {body : State → State} {s : State} (hfull : mailboxFull s = true) (h : (hkOf s p).spdm ≠ 3) :
    negotiated p body s = answerErr s p 4 := by
  unfold negotiated
  rw [if_neg (by simp [hfull]), if_pos h]

section requests
variable {p : Nat} {s : State} (hp : p < s.cfg.hostPorts) (hclear : clear s = true)
include hp hclear

theorem getVersion_ends (hat : spdmAt s p 0x84 = true) : Ends (.getVersion p) s fun t =>
    Responds p (Config.spdmBytes 0x04 [leBytes 2 0x1300]) t ∧ (hkOf t p).spdm = 1 ∧ t.ks.sessions = s.ks.sessions := by
  have hanswer := spdmAnswer_besideMailbox (modHk s p fun h => { h with spdm := 1, transcript := [] }) p 0x04 [leBytes 2 0x1300]
  have hspdm := (spdm_of_besideMailbox hanswer p).trans (congrArg HostKeys.spdm (hkOf_modHk s p fun h => { h with spdm := 1, transcript := [] }))
  have hsessions := sessions_of_besideMailbox hanswer
  have hexec : exec (.getVersion p) s = spdmReq p 0x84 (fun s =>
      spdmAnswer (modHk s p fun h => { h with spdm := 1, transcript := [] }) p 0x04 [leBytes 2 0x1300]) s := rfl
  exact ends_spdmReq hexec hp hat rfl hanswer hclear ⟨responds_spdmAnswer .., hspdm, hsessions⟩

/-- A step of the negotiation, taken in its order or answered with the error 4 (R483). -/
theorem negotiation_ends {i : Instr} {code now rsp : Nat} {content : List (List Byte)} (hat : spdmAt s p code = true)
    (h : exec i s = spdmReq p code (fun s => if !(mailboxFull s) then answerErr s p 7 else if (hkOf s p).spdm ≠ now then answerErr s p 4
      else spdmAnswer (modHk s p fun h => { h with spdm := now + 1 }) p rsp content) s) (hfull : mailboxFull s = true) :
    Ends i s fun t => ((hkOf s p).spdm = now → Responds p (Config.spdmBytes rsp content) t ∧ (hkOf t p).spdm = now + 1) ∧
      ((hkOf s p).spdm ≠ now → Responds p (spdmErr 4) t ∧ (hkOf t p).spdm = (hkOf s p).spdm) := by
  by_cases hnow : (hkOf s p).spdm = now
  · have hanswer := spdmAnswer_besideMailbox (modHk s p fun h => { h with spdm := now + 1 }) p rsp content
    refine ends_spdmReq h hp hat ((if_neg (by simp [hfull])).trans (if_neg (not_not_intro hnow))) hanswer hclear
      ⟨fun _ => ⟨responds_spdmAnswer .., ?_⟩, fun hne => absurd hnow hne⟩
    rw [spdm_of_besideMailbox hanswer, hkOf_modHk]
  · have herr := respond_besideMailbox s p (spdmErr 4)
    exact ends_spdmReq h hp hat ((if_neg (by simp [hfull])).trans (if_pos hnow)) herr hclear
      ⟨fun heq => absurd heq hnow, fun _ => ⟨responds_respond .., spdm_of_besideMailbox herr p⟩⟩

section full
variable (hfull : mailboxFull s = true)
include hfull

omit hclear in
/-- A request of negotiated algorithms that has an answer without a further wait. -/
theorem ends_negotiated {i : Instr} {code : Nat} {body : State → State} {u v : State} {P : State → Prop} (hat : spdmAt s p code = true)
    (h : exec i s = spdmReq p code (negotiated p body) s) (hspdm : (hkOf s p).spdm = 3) (hbody : body s = v)
    (hv : v.besideMailbox = u.besideMailbox) (hu : clear u = true) (hP : P v) : Ends i s P :=
  ends_spdmReq h hp hat ((negotiated_full hfull hspdm).trans hbody) hv hu hP

theorem getDigests_ends (hat : spdmAt s p 0x81 = true) : Ends (.getDigests p) s fun t =>
    ((hkOf s p).spdm ≠ 3 → Responds p (spdmErr 4) t) ∧
    ∀ c, (hkOf s p).spdm = 3 → s.ks.cert = some c → Responds p (Config.spdmBytes 0x01 [shaBytes c]) t := by
  by_cases hspdm : (hkOf s p).spdm = 3
  · refine ends_negotiated hp hfull hat rfl hspdm rfl (spdmAnswer_besideMailbox ..) hclear ⟨fun hne => absurd hspdm hne, fun c _ hc => ?_⟩
    rw [hc]
    exact responds_spdmAnswer ..
  · exact ends_spdmReq rfl hp hat (negotiated_early hfull hspdm) (respond_besideMailbox ..) hclear
      ⟨fun _ => responds_respond .., fun _ heq => absurd heq hspdm⟩

theorem getCertificate_ends (hat : spdmAt s p 0x82 = true) (hspdm : (hkOf s p).spdm = 3) : Ends (.getCertificate p) s fun t =>
    (s.ks.cert = none → Responds p (spdmErr 1) t) ∧
    ∀ c, s.ks.cert = some c → reqByte s p 2 % 16 = 0 → reqByte s p 4 + 256 * reqByte s p 5 < c.length →
      ∃ rest, Responds p (Config.spdmBytes 0x02 (((c.drop (reqByte s p 4 + 256 * reqByte s p 5)).take
        (min (reqByte s p 6 + 256 * reqByte s p 7) 4096)) :: rest)) t := by
  rcases hcert : s.ks.cert with _ | c
  · refine ends_negotiated hp hfull hat rfl hspdm (v := answerErr s p 1) (by simp only [hcert]) (respond_besideMailbox ..) hclear
      ⟨fun _ => responds_respond .., fun _ => (nomatch ·)⟩
  · by_cases hbad : reqByte s p 2 % 16 ≠ 0 ∨ c.length ≤ reqByte s p 4 + 256 * reqByte s p 5
    · refine ends_negotiated hp hfull hat rfl hspdm (v := answerErr s p 1) ?_ (respond_besideMailbox ..) hclear
        ⟨(nomatch ·), fun d hd hslot hoff => ?_⟩
      · simp only [hcert]
        exact if_pos (by simpa using hbad)
      · cases hd
        omega
    · let part := (c.drop (reqByte s p 4 + 256 * reqByte s p 5)).take (min (reqByte s p 6 + 256 * reqByte s p 7) 4096)
      refine ends_negotiated hp hfull hat rfl hspdm (v := spdmAnswer s p 0x02 [part, leBytes 2 part.length,
        leBytes 2 (c.length - (reqByte s p 4 + 256 * reqByte s p 5) - part.length)]) ?_ (spdmAnswer_besideMailbox ..) hclear
        ⟨(nomatch ·), fun d hd _ _ => ?_⟩
      · simp only [hcert]
        exact if_neg (by simpa using hbad)
      · cases hd
        exact ⟨_, responds_spdmAnswer ..⟩

theorem challenge_ends {c : List Byte} (hat : spdmAt s p 0x83 = true) (hspdm : (hkOf s p).spdm = 3) (hcert : s.ks.cert = some c)
    (hfresh : s.ks.entropyFail = false) (hslot : reqByte s p 2 % 16 = 0) (hsum : reqByte s p 3 = 0 ∨ reqByte s p 3 = 0xFF) :
    Ends (.spdmChallenge p) s fun t => t.ks.drbg = s.ks.drbg + 1 ∧
      ∃ (nonce : BitVec 256) (sum sig : List Byte), Responds p (Config.spdmBytes 0x03 [shaBytes c, beBytes 32 nonce, sum, sig]) t ∧
        (reqByte s p 3 = 0 → sum = []) ∧ ∃ msg, sig = Config.ecdsaSign (devId s) msg := by
  have hlegal : ¬ ((decide (reqByte s p 2 % 16 ≠ 0) || !(decide (reqByte s p 3 = 0) || decide (reqByte s p 3 = 0xFF))) = true) := by
    rcases hsum with h | h <;> simp [hslot, h]
  let u := (drbg s 256).1
  let sum := if reqByte u p 3 = 0 then [] else shaBytes ((measBlocks u p 0xFF).getD []).flatten
  let content := [shaBytes c, beBytes 32 (drbg s 256).2, sum]
  let sig := Config.ecdsaSign (devId u) ((hkOf u p).transcript ++ reqBytes u p ++ Config.spdmBytes 0x03 content)
  have hanswer := spdmAnswer_besideMailbox u p 0x03 (content ++ [sig])
  have hdrbg : (spdmAnswer u p 0x03 (content ++ [sig])).ks.drbg = s.ks.drbg + 1 := (congrArg (fun x => x.1.ks.drbg) hanswer :)
  refine ends_negotiated hp hfull hat rfl hspdm ?body hanswer hclear ⟨hdrbg, (drbg s 256).2, sum, sig, responds_spdmAnswer .., ?plain, _, rfl⟩
  case body =>
    simp only [hcert]
    exact (if_neg (Bool.eq_false_iff.mp hfresh)).trans ((if_neg hlegal).trans rfl)
  case plain => exact fun hzero => if_pos hzero

theorem getMeasurements_ends {blocks : List (List Byte)} (hat : spdmAt s p 0xE0 = true) (hspdm : (hkOf s p).spdm = 3)
    (hfresh : s.ks.entropyFail = false) (hop : ((reqBytes s p).getD 3 0).toNat ≠ 0)
    (hblocks : measBlocks s p ((reqBytes s p).getD 3 0).toNat = some blocks) :
    Ends (.getMeasurements p none []) s fun t => ∃ (nonce : BitVec 256) (sig : List (List Byte)),
      Responds p (Config.spdmBytes 0x60 (blocks ++ [beBytes 32 nonce] ++ sig)) t ∧ (((reqBytes s p).getD 2 0).toNat % 2 = 0 → sig = []) := by
  let u := (drbg s 256).1
  let content := blocks ++ [beBytes 32 (drbg s 256).2]
  let sig := if ((reqBytes s p).getD 2 0).toNat % 2 = 1 then
    [Config.ecdsaSign (devId u) ((hkOf u p).transcript ++ reqBytes s p ++ Config.spdmBytes 0x60 content)] else []
  have hanswer := spdmAnswer_besideMailbox u p 0x60 (content ++ sig)
  refine ends_spdmReq (v := spdmAnswer u p 0x60 (content ++ sig)) (body := fun _ => spdmAnswer u p 0x60 (content ++ sig)) ?exec hp hat rfl
    hanswer hclear ⟨(drbg s 256).2, sig, responds_spdmAnswer .., fun heven => if_neg (by omega)⟩
  show execGetMeasurements p none [] s = _
  unfold execGetMeasurements spdmReq
  refine congrArg (unitRes _ s _) ((if_neg (by simp [hfull])).trans ((if_neg (not_not_intro hspdm)).trans ?_))
  simp only [if_neg hop, hblocks]
  exact (if_neg (Bool.eq_false_iff.mp hfresh)).trans rfl

/-! ## Sessions (R484) -/

theorem keyExchange_ends {c : List Byte} (hat : spdmAt s p 0xE4 = true) (hspdm : (hkOf s p).spdm = 3) (hcert : s.ks.cert = some c)
    (hroom : s.ks.sessions.length < 64) (hfresh : s.ks.entropyFail = false) :
    Ends (.keyExchange p) s fun t => ∃ k x, sessionOf t k = some x ∧ x.port = p ∧ x.finished = false ∧ x.bound = none ∧
      (hkOf t p).mbxDone = true ∧ (hkOf t p).mbxBusy = false := by
  let k := ((List.range 64).find? fun k => (sessionOf s k).isNone).getD 0
  let x : Session := { port := p, finished := false, bound := none, slot := none, seqIn := 0, seqOut := 0, ems := (drbg s 384).2, th2 := 0 }
  let v := (drbg s 384).1
  let u : State := { v with ks := { v.ks with sessions := minsert v.ks.sessions k x } }
  let w := (drbg u 384).1
  let content := [leBytes 2 k, Config.p384Public (drbg u 384).2]
  let sig := Config.ecdsaSign (devId w) ((hkOf w p).transcript ++ reqBytes w p ++ Config.spdmBytes 0x64 content)
  have hanswer := spdmAnswer_besideMailbox w p 0x64 (content ++ [sig])
  have hsession : sessionOf (spdmAnswer w p 0x64 (content ++ [sig])) k = some x :=
    (sessionOf_of_besideMailbox hanswer k).trans (congrArg (Option.map Prod.snd) (find?_minsert_same ..))
  obtain ⟨hbusy, hdone, -⟩ := responds_spdmAnswer w p 0x64 (content ++ [sig])
  refine ends_negotiated hp hfull hat rfl hspdm ?body hanswer hclear ⟨k, x, hsession, rfl, rfl, rfl, hdone, hbusy⟩
  simp only [hcert]
  exact (if_neg (Nat.not_le.mpr hroom)).trans ((if_neg (Bool.eq_false_iff.mp hfresh)).trans rfl)

end full

end requests

theorem sessionOf_closeSession (s : State) (k : Nat) : sessionOf (closeSession s k) k = none := by
  have hended : sessionOf (endSession s k) k = none := by
    unfold sessionOf endSession
    rw [List.find?_eq_none.mpr fun e he => by simpa using (List.mem_filter.mp he).2]
    rfl
  unfold closeSession
  dsimp only
  split
  · exact hended
  · exact hended

theorem clear_closeSession (s : State) (k : Nat) : clear (closeSession s k) = clear s := (congrArg clear (closeSession_keyless s k) :)

theorem finish_ends {p k : Nat} {body : List Byte} {x : Session} {s : State} (hp : p < s.cfg.hostPorts) (hat : securedAt s p k false = true)
    (hcode : (body.getD 1 0).toNat = 0xE5) (hx : sessionOf s k = some x) (hclear : clear s = true) :
    Ends (.finish p k body) s fun t =>
      (Config.finishVerifies x.ems (Config.sha384 ((hkOf s p).transcript ++ body)) body = true →
        sessionOf t k = some { x with finished := true, th2 := Config.sha384 ((hkOf s p).transcript ++ body) } ∧
        Responds p (Config.spdmBytes 0x165 [leBytes 2 k]) t) ∧
      (Config.finishVerifies x.ems (Config.sha384 ((hkOf s p).transcript ++ body)) body = false → sessionOf t k = none ∧
        Responds p (spdmErr 6) t) := by
  have hems : ((sessionOf s k).map (·.ems)).getD 0 = x.ems := by rw [hx]; rfl
  have hexec : exec (.finish p k body) s = unitRes (p < s.cfg.hostPorts) s (securedAt s p k false && (body.getD 1 0).toNat = 0xE5)
      (if Config.finishVerifies x.ems (Config.sha384 ((hkOf s p).transcript ++ body)) body then
        respondSecured (modSession s k fun x => { x with finished := true, th2 := Config.sha384 ((hkOf s p).transcript ++ body) }) p k 0x65 []
      else answerErr (closeSession s k) p 6) := by
    rw [← hems]; rfl
  have hcond : (securedAt s p k false && decide ((body.getD 1 0).toNat = 0xE5)) = true := by rw [hat, decide_eq_true hcode]; rfl
  generalize Config.sha384 ((hkOf s p).transcript ++ body) = th2 at hexec ⊢
  cases hverifies : Config.finishVerifies x.ems th2 body with
  | true =>
    rw [hverifies, if_pos rfl] at hexec
    have hanswer := respond_besideMailbox (modSession s k fun x => { x with finished := true, th2 := th2 }) p
      (Config.spdmBytes 0x165 [leBytes 2 k])
    refine Ends.of_unit hexec (decide_eq_true hp) hcond ((clear_of_besideMailbox hanswer).trans hclear) ⟨fun _ => ⟨?_, responds_respond ..⟩, (nomatch ·)⟩
    exact (sessionOf_of_besideMailbox hanswer k).trans ((sessionOf_modSession ..).trans (congrArg (Option.map _) hx))
  | false =>
    rw [hverifies, if_neg (by decide)] at hexec
    have hanswer := respond_besideMailbox (closeSession s k) p (spdmErr 6)
    refine Ends.of_unit hexec (decide_eq_true hp) hcond ((clear_of_besideMailbox hanswer).trans ((clear_closeSession s k).trans hclear))
      ⟨(nomatch ·), fun _ => ⟨?_, responds_respond ..⟩⟩
    exact (sessionOf_of_besideMailbox hanswer k).trans (sessionOf_closeSession s k)

/-! ## The obligation -/

/-- Settles O46: each request in progress is answered by its body (`ends_spdmReq`), and an answer leaves all but the mailbox alone
(`respond_besideMailbox`). -/
theorem mailboxRequestsAreAnsweredInOrder : Obligations.MailboxRequestsAreAnsweredInOrder := by
  unfold Obligations.MailboxRequestsAreAnsweredInOrder
  refine ⟨fun p s hp hclear => ⟨?version, ?capabilities, ?algorithms, ?digests, ?certificate, ?challenge, ?measurements, ?exchange⟩, ?finish⟩
  case version => exact fun hat => getVersion_ends hp hclear hat
  case capabilities => exact fun hat hfull => negotiation_ends hp hclear hat rfl hfull
  case algorithms => exact fun hat hfull => negotiation_ends hp hclear hat rfl hfull
  case digests => exact fun hat hfull => getDigests_ends hp hclear hfull hat
  case certificate => exact fun hat hfull hspdm => getCertificate_ends hp hclear hfull hat hspdm
  case challenge =>
    exact fun c hat hfull hspdm hcert hfresh hslot hsum => challenge_ends hp hclear hfull hat hspdm hcert hfresh hslot hsum
  case measurements =>
    exact fun blocks hat hfull hspdm hfresh hop hblocks => getMeasurements_ends hp hclear hfull hat hspdm hfresh hop hblocks
  case exchange =>
    exact fun c hat hfull hspdm hcert hroom hfresh => keyExchange_ends hp hclear hfull hat hspdm hcert hroom hfresh
  case finish => exact fun p k body x s hp hat hcode hx hclear => finish_ends hp hat hcode hx hclear

end Sys2Proof.Machine
end

section
/-! PROOFS. Key-delivery messages (O47): a build without a Tally half, whose key blobs no `tallyReady` speaks of. -/
namespace Sys2Proof.Machine

/-! ## A key is wrapped through the secure port of Tally memory 0 (R267, R476) -/

theorem awaitTally_sweepEn (s : State) (h : Nat) : (awaitTally s h).sv.sweepEn = s.sv.sweepEn := by
  unfold awaitTally
  split <;> rfl

theorem wrapBlob_sv (s : State) (b : Nat) (attr : Word) (key : Key) : (wrapBlob s b attr key).sv = (awaitTally s 0).sv := by
  unfold wrapBlob
  dsimp only
  refine (foldl_keeps State.sv (fun t w => ?_) _ _).trans ?_
  · rfl
  · rfl

/-- A memory key is installed, outside a sweep, once Tally memory 0 takes its blob. -/
theorem clear_installKey_memory {s : State} (hsweep : s.sv.sweepEn = false) (n o id : Nat) (tenant : Bool) (key : Key) :
    clear (installKey s 1 n o id tenant key) = clear (awaitTally s 0) := by
  have hwrap := wrapBlob_sv s id (attrWord s 1 n o tenant 0) key
  have hidle (u : State) (hu : u.sv.sweepEn = false) : recheckOver u n = u := by
    unfold recheckOver
    rw [hu]
    rfl
  show clear (reportChanged (recheckOver (modKid (wrapBlob s id (attrWord s 1 n o tenant 0) key) id _) n) n) = _
  generalize wrapBlob s id (attrWord s 1 n o tenant 0) key = v at hwrap ⊢
  have hsweep' : v.sv.sweepEn = false := by rw [hwrap, awaitTally_sweepEn, hsweep]
  rw [hidle (modKid v id _) hsweep']
  have hclear : clear v = clear (awaitTally s 0) := clear_eq_of_sv hwrap
  exact hclear

theorem clear_deliver (s : State) (p k code status : Nat) (body : List Byte) : clear (deliver s p k code status body) = clear s :=
  clear_of_besideMailbox (respond_besideMailbox ..)

/-! ## The counterexample -/

/-- A block without a Tally half, whose Tally memory 0 is in retention; session 7 of port 0 is bound to owner 0 of slice 0, whose sub-range is
identifier 0, and a message of the session is in the mailbox. -/
def halfless : State :=
  { State.reset with
    cfg := { lu48 with halves := 0 }
    tally := [(0, { Tally.zero with retained := true })]
    slices := [(0, { Slice.zero with state := .active })]
    fw := { State.reset.fw with procs := [(6, ⟨1, 0, 0, false⟩)] }
    ks := { State.reset.ks with
      sessions := [(7, ⟨0, true, some (0, 0), none, 0, 0, 0, 0⟩)]
      ports := [(0, { HostKeys.zero with mbxBusy := true, kind := 2, reqLen := 4, req := [(2, 7)] })]
      slices := [(0, { KSlice.zero with memSub := [(0, (0, 1))] })] }
    sv := { State.reset.sv with sweepEn := false } }

/-- KEY_PUT of memory identifier 0. -/
def putZero : List Byte := 1 :: List.replicate 34 0

theorem halfless_secured : securedAt halfless 0 7 true = true := by decide +kernel
theorem halfless_ready : tallyReady halfless = true := by decide +kernel
theorem halfless_live : sliceLive halfless 0 = true := by decide +kernel
theorem halfless_mayPut : inRange (subRange halfless 1 0 0).1 (subRange halfless 1 0 0).2 (natOfBytes ((putZero.drop 1).take 2)) = true ∧
    kidHeld halfless (natOfBytes ((putZero.drop 1).take 2)) false = false := by decide +kernel

/-- KEY_PUT of a memory key that the session may install. -/
theorem execKeyPut_installs {p k n o : Nat} {body : List Byte} {x : Session} {s : State} (hp : p < s.cfg.hostPorts)
    (hat : securedAt s p k true = true) (hx : sessionOf s k = some x) (hbound : x.bound = some (n, o)) (hlive : sliceLive s n = true)
    (hdebug : s.lc.dgOpen = false) (hlen : body.length = 35) (hkind : (body.getD 0 0).toNat = 1)
    (hrange : inRange (subRange s 1 n o).1 (subRange s 1 n o).2 (natOfBytes ((body.drop 1).take 2)) = true)
    (hheld : kidHeld s (natOfBytes ((body.drop 1).take 2)) false = false) : exec (.keyPut p k body) s =
      settle (deliver (installKey s 1 n o (natOfBytes ((body.drop 1).take 2)) true (keyOfBytes (body.drop 3))) p k 2 0 []) := by
  have hof : (sessionOf s k).bind (·.bound) = some (n, o) := by rw [hx]; exact hbound
  show execKeyPut p k body s = _
  unfold execKeyPut boundMessage message
  simp only [unitRes, guardRes, hp, hat, hof, hlive, hdebug, hlen, hkind, hrange, hheld, decide_true, Bool.true_or, if_true,
    Bool.false_eq_true, if_false, Bool.not_true, Bool.and_false, Bool.or_false, ne_eq, not_true_eq_false, decide_false]
  simp

/-- KEY_PUT there waits for the Tally memory to wake. -/
theorem exec_keyPut_halfless : exec (.keyPut 0 7 putZero) halfless = .refused .accessWaits := by
  have hclear : clear (deliver (installKey halfless 1 0 0 (natOfBytes ((putZero.drop 1).take 2)) true (keyOfBytes (putZero.drop 3))) 0 7 2 0 []) =
      false := (clear_deliver ..).trans ((clear_installKey_memory rfl ..).trans (by decide +kernel))
  refine (execKeyPut_installs (by decide) halfless_secured rfl rfl halfless_live rfl rfl rfl halfless_mayPut.1 halfless_mayPut.2).trans ?_
  exact if_pos (by simpa [clear] using hclear)

/-- Refutes O47: in `halfless` every hypothesis of KEY_PUT holds, since a build without a half has no Tally memory that `tallyReady` asks about,
and the wrapping of the key's blob waits for Tally memory 0, which sleeps. -/
theorem not_keyDeliveryMessagesAreAnsweredWithTheirEffect : ¬ Obligations.KeyDeliveryMessagesAreAnsweredWithTheirEffect := by
  unfold Obligations.KeyDeliveryMessagesAreAnsweredWithTheirEffect
  intro h
  obtain ⟨-, -, -, hbound⟩ := h 0 7 putZero _ halfless (by decide) halfless_secured rfl halfless_ready
  obtain ⟨hput, -⟩ := hbound 0 0 rfl (.inl halfless_live)
  obtain ⟨t, ht, -⟩ := hput rfl rfl rfl
  rw [exec_keyPut_halfless] at ht
  cases ht

end Sys2Proof.Machine
end

section
/-! PROOFS. The checkpoint engine (O56): what a command that is taken starts, what the end of its hash leaves, and the words of CP_OKEYs. -/
namespace Sys2Proof.Machine

/-! ## What the checkpoint engine's accesses leave of its own registers -/

theorem cp_of_aside {s t : State} (h : t.aside = s.aside) : t.cp = s.cp := (congrArg State.cp h :)

theorem bwCount_aside (s : State) (a : Attr) (n : Nat) : (bwCount s a n).aside = s.aside := aside_of_beside (bwCount_beside ..)

theorem cpLine_aside (s : State) (n : Nat) (p : Nat × Nat × Nat) : (cpLine s n p).1.aside = s.aside := by
  unfold cpLine
  split
  case h_1 e => exact aside_of_eq e (aside_of_beside (xlat2_beside ..))
  case h_2 t q e =>
    have ht : t.aside = s.aside := aside_of_eq e (aside_of_beside (xlat2_beside ..))
    have hcount (a : Attr) : (if subFenced t q.port q.sub then t else bwCount t a 1).aside = s.aside := by
      split
      · exact ht
      · exact (bwCount_aside ..).trans ht
    dsimp only
    split
    case h_1 e | h_2 e | h_3 e => exact (aside_of_eq e (svRead_aside ..)).trans (hcount _)

theorem cpLines_aside (n : Nat) (s : State) (l : List (Nat × Nat × Nat)) : (cpLines n s l).1.aside = s.aside := by
  induction l generalizing s with
  | nil => rfl
  | cons p l ih =>
    unfold cpLines
    split
    case h_1 e => exact aside_of_eq e (cpLine_aside ..)
    case h_2 t _ e =>
      have ht : t.aside = s.aside := aside_of_eq e (cpLine_aside ..)
      split
      case h_1 e | h_2 e => exact (aside_of_eq e (ih t)).trans ht

theorem cpReads_aside (n i : Nat) (s : State) (l : List (Nat × Nat)) : (cpReads n i s l).1.aside = s.aside := by
  induction l generalizing i s with
  | nil => rfl
  | cons x l ih =>
    unfold cpReads
    split
    case h_1 e => exact aside_of_eq e (cpLines_aside ..)
    case h_2 t _ e =>
      have ht : t.aside = s.aside := aside_of_eq e (cpLines_aside ..)
      split
      case h_1 e | h_2 e => exact (aside_of_eq e (ih (i + 1) t)).trans ht

theorem writeSmall_aside (n i : Nat) (s : State) (l : List (Nat × List Byte)) : (writeSmall n i s l).1.aside = s.aside := by
  induction l generalizing i s with
  | nil => rfl
  | cons x l ih =>
    unfold writeSmall
    split
    case h_1 e => exact aside_of_eq e (memWrite_aside ..)
    case h_2 t e => exact (ih (i + 1) t).trans (aside_of_eq e (memWrite_aside ..))

theorem setStepOf_cp (s : State) (c step : Nat) : (setStepOf s c step).cp = s.cp := by
  unfold setStepOf
  dsimp only
  split
  · exact cp_of_aside (boltWrite_aside ..)
  · split
    · exact cp_of_aside (memWrite_aside ..)
    · have hmod (t : State) (f : Ctx → Ctx) : (modCtx t c f).cp = t.cp := rfl
      exact (hmod ..).trans (cp_of_aside (memWrite_aside ..))

theorem cpReport_cp (s : State) (n : Nat) (f : KSlice → KSlice) : (cpReport s n f).cp = s.cp := rfl

theorem cpPayload_cp (s : State) (op n : Nat) (ws : List Word) (l : CapList) (base : Key) (data : List (List Byte)) :
    (cpPayload s op n ws l base data).1.cp = s.cp := by
  unfold cpPayload
  dsimp only
  split <;> rfl

/-! ## The end of a command (R560) -/

/-- The command of copy `k` has ended: no command runs, the copy holds none, and the other copies are as in `s`. -/
def CpEnded (k : Nat) (s t : State) : Prop := t.cp.run = none ∧ (cpCopyOf t k).cmd = none ∧ ∀ j, j ≠ k → cpCopyOf t j = cpCopyOf s j

theorem cpCopyOf_of_cp {s t : State} (h : t.cp = s.cp) (k : Nat) : cpCopyOf t k = cpCopyOf s k := congrArg (fun c : Cp => mget CpCopy.zero c.copies k) h

theorem cpEnded_cpEnd {s u : State} (h : u.cp = s.cp) (k result : Nat) : CpEnded k s (cpEnd u k result) := by
  refine ⟨rfl, congrArg CpCopy.cmd (cpCopyOf_modCpCopy ..), fun j hj => ?_⟩
  exact (cpCopyOf_modCpCopy_ne _ _ hj).trans (cpCopyOf_of_cp h j)

theorem cpResult_cpEnd (s : State) (k result : Nat) : (cpCopyOf (cpEnd s k result) k).result = result :=
  congrArg CpCopy.result (cpCopyOf_modCpCopy ..)

theorem CpEnded.failIdx {k : Nat} {s t : State} (h : CpEnded k s t) (f : CpCopy → Nat) :
    CpEnded k s (modCpCopy t k fun c => { c with failIdx := f c }) := by
  obtain ⟨hrun, hcmd, hother⟩ := h
  refine ⟨hrun, ?_, fun j hj => ?_⟩
  · rw [cpCopyOf_modCpCopy]
    exact hcmd
  · rw [cpCopyOf_modCpCopy_ne _ _ hj]
    exact hother j hj

theorem cpEnded_cpFail {s u : State} (h : u.cp = s.cp) (k result : Nat) (idx : Option Nat) : CpEnded k s (cpFail u k result idx) := by
  unfold cpFail
  split
  · exact (cpEnded_cpEnd h k result).failIdx _
  · have hd : (draw u 12).1.cp = s.cp := h
    exact (cpEnded_cpEnd hd k result).failIdx _

theorem cpEnded_cpWriteOut (s : State) (k op n : Nat) (ws : List Word) (l : CapList) (base : Key) :
    CpEnded k s (cpWriteOut s k op n ws l base) := by
  unfold cpWriteOut
  split
  case h_1 e => exact cpEnded_cpFail (cp_of_aside (aside_of_eq e (cpReads_aside ..))) ..
  case h_2 u data e =>
    have hu : u.cp = s.cp := cp_of_aside (aside_of_eq e (cpReads_aside ..))
    have hp := (cpPayload_cp u op n ws l base data).trans hu
    generalize cpPayload u op n ws l base data = p at hp
    obtain ⟨v, bytes⟩ := p
    dsimp only at hp ⊢
    split
    case h_1 e => exact cpEnded_cpFail ((cp_of_aside (aside_of_eq e (memWrite_aside ..))).trans hp) ..
    case h_2 w e =>
      have hw : w.cp = s.cp := (cp_of_aside (aside_of_eq e (memWrite_aside ..))).trans hp
      exact cpEnded_cpEnd ((cpReport_cp ..).trans hw) ..

theorem cpEnded_cpRestore {s u : State} (hu : u.cp = s.cp) (k n : Nat) (ws : List Word) (r : OpenRecord) (tag : Nat) :
    CpEnded k s (cpRestore u k n ws r tag) := by
  unfold cpRestore
  split
  case h_1 e => exact cpEnded_cpFail ((cp_of_aside (aside_of_eq e (cpReads_aside ..))).trans hu) ..
  case h_2 v data e =>
    have hv : v.cp = s.cp := (cp_of_aside (aside_of_eq e (cpReads_aside ..))).trans hu
    split
    · exact cpEnded_cpFail hv ..
    · split
      · exact cpEnded_cpEnd hv ..
      · dsimp only
        split
        · exact cpEnded_cpEnd hv ..
        · split
          · exact cpEnded_cpFail hv ..
          case h_2 w e =>
            have hw : w.cp = s.cp := (cp_of_aside (aside_of_eq e (writeSmall_aside ..))).trans hv
            refine cpEnded_cpEnd ((cpReport_cp ..).trans (Eq.trans ?_ hw)) ..
            exact foldl_keeps State.cp (fun (t : State) (c : Nat × Word) => (setStepOf_cp ..).trans (modCtx_cp ..)) r.ctxs w

theorem cpEnded_cpOpen (s : State) (k op n : Nat) (ws : List Word) (base : Key) : CpEnded k s (cpOpen s k op n ws base) := by
  unfold cpOpen
  dsimp only
  split
  · exact cpEnded_cpFail rfl ..
  split
  case h_1 e => exact cpEnded_cpFail (cp_of_aside (aside_of_eq e (cpLines_aside ..))) ..
  case h_2 u head e =>
    have hu : u.cp = s.cp := cp_of_aside (aside_of_eq e (cpLines_aside ..))
    split
    · exact cpEnded_cpEnd hu ..
    split
    · exact cpEnded_cpFail hu ..
    split
    case h_1 e => exact cpEnded_cpFail ((cp_of_aside (aside_of_eq e (cpLines_aside ..))).trans hu) ..
    case h_2 v bs e =>
      have hv : v.cp = s.cp := (cp_of_aside (aside_of_eq e (cpLines_aside ..))).trans hu
      split
      · exact cpEnded_cpEnd hv ..
      case h_2 r _ =>
        split
        case h_1 e => exact cpEnded_cpFail ((cp_of_aside (aside_of_eq e (cpLines_aside ..))).trans hv) ..
        case h_2 w st e =>
          have hw : w.cp = s.cp := (cp_of_aside (aside_of_eq e (cpLines_aside ..))).trans hv
          split
          · exact cpEnded_cpEnd hw ..
          split
          · exact cpEnded_cpRestore hw ..
          split
          · exact cpEnded_cpEnd hw ..
          · exact cpEnded_cpEnd ((cpReport_cp ..).trans hw) ..

/-! ## Waiting copies (R559) -/

/-- The copies in the order in which they are taken. -/
def NoneWaits (s : State) : Prop := ∀ k ∈ [4, 0, 1, 2, 3], (cpCopyOf s k).cmd = none

theorem cpDrive_running {s : State} (h : s.cp.run.isSome = true) (i : Nat) : cpDrive i s = s := by
  cases i with
  | zero => rfl
  | succ i => exact if_pos h

theorem cpDrive_rest {s : State} (h : NoneWaits s) (i : Nat) : cpDrive i s = s := by
  cases i with
  | zero => rfl
  | succ i =>
    have hfind : ([4, 0, 1, 2, 3].find? fun k => (cpCopyOf s k).cmd.isSome) = none :=
      List.find?_eq_none.mpr fun k hk => by simp [h k hk]
    unfold cpDrive
    rw [hfind]
    split <;> rfl

/-- The only waiting command is taken. -/
theorem cpDrive_takes {s : State} {k op n : Nat} {sec : Bool} (hrun : s.cp.run = none) (hk : k ∈ [4, 0, 1, 2, 3])
    (hcmd : (cpCopyOf s k).cmd = some (op, n, sec)) (hothers : ∀ j ∈ [4, 0, 1, 2, 3], j ≠ k → (cpCopyOf s j).cmd = none)
    (hclear : clear (cpStart s k op n sec) = true) (i : Nat) : cpDrive (i + 1) s = cpDrive i (cpStart s k op n sec) := by
  have hfind : ([4, 0, 1, 2, 3].find? fun j => (cpCopyOf s j).cmd.isSome) = some k := by
    cases hf : [4, 0, 1, 2, 3].find? fun j => (cpCopyOf s j).cmd.isSome with
    | none => simpa [hcmd] using List.find?_eq_none.mp hf k hk
    | some j =>
      have hj := List.find?_some hf
      by_cases hjk : j = k
      · rw [hjk]
      · simp [hothers j (List.mem_of_find?_eq_some hf) hjk] at hj
  have hstuck : ¬((cpStart s k op n sec).sv.stuck = true) := by simpa [clear] using hclear
  conv_lhs => unfold cpDrive
  rw [hrun, hfind]
  dsimp only
  rw [hcmd]
  exact if_neg hstuck

theorem noneWaits_of_ended {s t : State} {k : Nat} (h : CpEnded k s t) (hothers : ∀ j ∈ [4, 0, 1, 2, 3], j ≠ k → (cpCopyOf s j).cmd = none) :
    NoneWaits t := by
  obtain ⟨-, hcmd, hother⟩ := h
  intro j hj
  by_cases hjk : j = k
  · rw [hjk, hcmd]
  · rw [hother j hjk, hothers j hj hjk]

/-! ## The checks of a command that is taken (R549, R552, R559, R560) -/

section
variable {s : State} {k op n : Nat} {sec : Bool} (hop : 1 ≤ op ∧ op ≤ 4)
  (hmay : (if k < 4 then portMay s k n else sec && decide (dKind (descOf s n) = 0)) = true)
  (hslice : (sliceOf s n).state = .active ∨ (sliceOf s n).state = .degraded)

/-- The staging words of a copy. -/
def cpStage (s : State) (k : Nat) : List Word := (List.range 7).map fun w => mget 0 (cpCopyOf s k).stage w

/-- A command runs with its staged words and list. -/
def cpRun (s : State) (k op n : Nat) (ws : List Word) (l : CapList) : State := { s with cp := { s.cp with run := some (k, op, n, ws, l) } }

include hop hmay hslice

/-- A command that its path, its slice and the slice's state allow is answered by the checks of its base, STEP and list. -/
theorem cpStart_allowed : cpStart s k op n sec =
    if (cpBase s n).isNone then cpEnd s k 4
    else if op = 1 && (liveCtxs s n).any (fun c => (ctxOf s c).state = .live && ctxStep s c ≠ cpW (cpStage s k) 3 % 2 ^ 48) then cpEnd s k 10
    else if 2 < op then cpRun s k op n (cpStage s k) ⟨[], [], []⟩
    else match readCapList s n (cpW (cpStage s k) 0) with
      | (u, .inr (e, i)) => cpFail u k e i
      | (u, .inl l) =>
        if inRegion u n (cpW (cpStage s k) 1) (if op = 1 then recordSize l (recordCtxs u n).length else 128) true
        then cpRun u k op n (cpStage s k) l else cpFail u k 3 none := by
  have h1 : ¬((op = 0 || 4 < op) = true) := by
    simp only [Bool.or_eq_true, decide_eq_true_eq]
    omega
  have h2 : ¬((!(if k < 4 then portMay s k n else sec && decide (dKind (descOf s n) = 0))) = true) := by
    rw [hmay]
    decide
  have h3 : ¬((decide ((sliceOf s n).state ≠ .active) && decide ((sliceOf s n).state ≠ .degraded)) = true) := by
    rcases hslice with h | h <;> simp [h]
  unfold cpStart
  exact (if_neg h1).trans ((if_neg h2).trans ((if_neg h3).trans rfl))

theorem cpStart_baseless (hbase : cpBase s n = none) : cpStart s k op n sec = cpEnd s k 4 := by
  rw [cpStart_allowed hop hmay hslice, hbase]
  rfl

theorem cpStart_open (hbase : (cpBase s n).isSome = true) (hopen : 2 < op) :
    cpStart s k op n sec = cpRun s k op n (cpStage s k) ⟨[], [], []⟩ := by
  have hop1 : ¬((op = 1 && (liveCtxs s n).any fun c => (ctxOf s c).state = .live && ctxStep s c ≠ cpW (cpStage s k) 3 % 2 ^ 48) = true) := by
    have : op ≠ 1 := by omega
    simp [this]
  rw [cpStart_allowed hop hmay hslice, if_neg (by simpa [Option.isSome_iff_ne_none] using hbase), if_neg hop1, if_pos hopen]

theorem cpStart_listed {u : State} {l : CapList} (hbase : (cpBase s n).isSome = true) (hlist : op ≤ 2)
    (hstep : op = 1 → ∀ c ∈ liveCtxs s n, (ctxOf s c).state = .live → ctxStep s c = cpW (cpStage s k) 3 % 2 ^ 48)
    (hread : readCapList s n (cpW (cpStage s k) 0) = (u, .inl l))
    (hfits : inRegion u n (cpW (cpStage s k) 1) (if op = 1 then recordSize l (recordCtxs u n).length else 128) true = true) :
    cpStart s k op n sec = cpRun u k op n (cpStage s k) l := by
  have hsteps : ¬((op = 1 && (liveCtxs s n).any fun c => (ctxOf s c).state = .live && ctxStep s c ≠ cpW (cpStage s k) 3 % 2 ^ 48) = true) := by
    simp only [Bool.and_eq_true, List.any_eq_true, decide_eq_true_eq]
    rintro ⟨h1, c, hc, hlive, hne⟩
    exact hne (hstep h1 c hc hlive)
  rw [cpStart_allowed hop hmay hslice, if_neg (by simpa [Option.isSome_iff_ne_none] using hbase), if_neg hsteps, if_neg (by omega), hread]
  exact if_pos hfits

end

/-! ## A write to CP_CMD that is taken (R559) -/

@[simp] theorem awake_cp (s : State) : (awake s).cp = s.cp := by unfold awake; split <;> rfl

/-- The command stands in the copy of its path. -/
def cpTaken (s : State) (path : Path) (op n : Nat) : State :=
  modCpCopy (awake s) (copyKey path) fun c => { c with lastOp := op, cmd := some (op, n, pathSecure s.cfg path) }

theorem cpTaken_frame (s : State) (path : Path) (op n : Nat) : ∃ ck cs, cpTaken s path op n = { s with ck := ck, cp := { s.cp with copies := cs } } := by
  obtain ⟨ck, hck⟩ := awake_frame s
  exact ⟨ck, _, congrArg (fun u => modCpCopy u (copyKey path) fun c => { c with lastOp := op, cmd := some (op, n, pathSecure s.cfg path) }) hck⟩

theorem cpCopyOf_cpTaken (s : State) (path : Path) (op n : Nat) : cpCopyOf (cpTaken s path op n) (copyKey path) =
    { cpCopyOf s (copyKey path) with lastOp := op, cmd := some (op, n, pathSecure s.cfg path) } := by
  unfold cpTaken
  rw [cpCopyOf_modCpCopy, cpCopyOf_of_cp (awake_cp s)]

theorem cpCopyOf_cpTaken_ne (s : State) {path : Path} (op n : Nat) {j : Nat} (h : j ≠ copyKey path) :
    cpCopyOf (cpTaken s path op n) j = cpCopyOf s j :=
  (cpCopyOf_modCpCopy_ne _ _ h).trans (cpCopyOf_of_cp (awake_cp s) j)

theorem clear_cpTaken (s : State) (path : Path) (op n : Nat) : clear (cpTaken s path op n) = clear s := by
  obtain ⟨ck, cs, h⟩ := cpTaken_frame s path op n
  rw [h]
  rfl

/-- What differs from the awake block in the checkpoint registers alone. -/
theorem besideCp_eq {s u : State} {c : Cp} (h : u = { awake s with cp := c }) : { u with cp := s.cp } = awake s := by
  have hput (v : State) {x : Cp} (hx : v.cp = x) : ({ { v with cp := c } with cp := x } : State) = v := by
    rw [← hx]
  rw [h]
  exact hput (awake s) (awake_cp s)

section
variable {path : Path} {n : Nat} {s : State} (hup : pathUp (awake s) path = true) (hjtag : path ≠ .jtag) (hk : copyKey path ≤ 4)
  (hn : n < 16) (hheld : regHeld (awake s) = false) (hrun : s.cp.run = none) (hcmds : ∀ k ∈ [4, 0, 1, 2, 3], (cpCopyOf s k).cmd = none)

theorem copyKey_taken (hk : copyKey path ≤ 4) : copyKey path ∈ [4, 0, 1, 2, 3] := by
  generalize copyKey path = k at hk
  have : k = 0 ∨ k = 1 ∨ k = 2 ∨ k = 3 ∨ k = 4 := by omega
  rcases this with h | h | h | h | h <;> simp [h]

include hup hjtag hk hn hheld hcmds in
theorem cpCmd_taken {op : Nat} (hop : op < 16) : cpCmd path op n s = settle (cpDrive 5 (cpTaken s path op n)) := by
  have hup' : ¬((!(pathUp (awake s) path)) = true) := by simp [hup]
  have hheld' : ¬((decide (path = .jtag) || regHeld (awake s)) = true) := by simp [hjtag, hheld]
  have hcmd : ¬((cpCopyOf (awake s) (copyKey path)).cmd.isSome = true) := by
    rw [cpCopyOf_of_cp (awake_cp s), hcmds _ (copyKey_taken hk)]
    decide
  unfold cpCmd
  refine (if_neg hup').trans ((if_neg hheld').trans ((if_neg hcmd).trans ?_))
  rw [Nat.mod_eq_of_lt hop, Nat.mod_eq_of_lt hn, awake_cfg]
  rfl

include hk hrun hcmds in
/-- A command is taken at once where it is the only one, and its checks need not wait. -/
theorem cpDrive_cpTaken {op : Nat} {t : State} (hstart : cpStart (cpTaken s path op n) (copyKey path) op n (pathSecure s.cfg path) = t)
    (hclear : clear t = true) (hrest : t.cp.run.isSome = true ∨ NoneWaits t) : cpDrive 5 (cpTaken s path op n) = t := by
  have hrun' : (cpTaken s path op n).cp.run = none := by
    obtain ⟨ck, cs, h⟩ := cpTaken_frame s path op n
    rw [h]
    exact hrun
  have hothers : ∀ j ∈ [4, 0, 1, 2, 3], j ≠ copyKey path → (cpCopyOf (cpTaken s path op n) j).cmd = none := fun j hj hne => by
    rw [cpCopyOf_cpTaken_ne s op n hne]
    exact hcmds j hj
  have hcmd : (cpCopyOf (cpTaken s path op n) (copyKey path)).cmd = some (op, n, pathSecure s.cfg path) :=
    congrArg CpCopy.cmd (cpCopyOf_cpTaken s path op n)
  rw [cpDrive_takes hrun' (copyKey_taken hk) hcmd hothers (by rwa [hstart]), hstart]
  exact hrest.elim (cpDrive_running · 4) (cpDrive_rest · 4)

include hup hjtag hk hn hheld hrun hcmds in
theorem ends_cpTaken {i : Instr} {op : Nat} {t : State} {P : State → Prop} (hexec : exec i s = cpCmd path op n s) (hop : op < 16)
    (hstart : cpStart (cpTaken s path op n) (copyKey path) op n (pathSecure s.cfg path) = t) (hclear : clear t = true)
    (hrest : t.cp.run.isSome = true ∨ NoneWaits t) (hP : P t) : Ends i s P := by
  have htaken := cpCmd_taken hup hjtag hk hn hheld hcmds hop
  rw [cpDrive_cpTaken hk hrun hcmds hstart hclear hrest] at htaken
  exact .of_settle (hexec.trans htaken) hclear hP

end

section
variable (s : State) (path : Path) (op n : Nat)

theorem cpBase_cpTaken : cpBase (cpTaken s path op n) n = cpBase s n := by
  obtain ⟨ck, cs, h⟩ := cpTaken_frame s path op n
  rw [h]
  rfl

theorem cpStage_cpTaken : cpStage (cpTaken s path op n) (copyKey path) = cpStage s (copyKey path) := by
  unfold cpStage
  rw [cpCopyOf_cpTaken]

theorem sliceOf_cpTaken : sliceOf (cpTaken s path op n) n = sliceOf s n := by
  obtain ⟨ck, cs, h⟩ := cpTaken_frame s path op n
  rw [h]
  rfl

theorem liveCtxs_cpTaken : liveCtxs (cpTaken s path op n) n = liveCtxs s n := by
  obtain ⟨ck, cs, h⟩ := cpTaken_frame s path op n
  rw [h]
  rfl

theorem ctxOf_cpTaken (c : Nat) : ctxOf (cpTaken s path op n) c = ctxOf s c := by
  obtain ⟨ck, cs, h⟩ := cpTaken_frame s path op n
  rw [h]
  rfl

theorem mayCommand_cpTaken (h : if copyKey path < 4 then portMay s (copyKey path) n = true
      else pathSecure s.cfg path = true ∧ dKind (descOf s n) = 0) :
    (if copyKey path < 4 then portMay (cpTaken s path op n) (copyKey path) n
      else pathSecure s.cfg path && decide (dKind (descOf (cpTaken s path op n) n) = 0)) = true := by
  obtain ⟨ck, cs, htaken⟩ := cpTaken_frame s path op n
  have hport : portMay (cpTaken s path op n) (copyKey path) n = portMay s (copyKey path) n := by
    rw [htaken]
    rfl
  have hdesc : descOf (cpTaken s path op n) n = descOf s n := by
    rw [htaken]
    rfl
  rw [hport, hdesc]
  split at h
  next hlt =>
    rw [if_pos hlt]
    exact h
  next hge =>
    rw [if_neg hge]
    simp [h.1, h.2]

end

/-! ## The commands (R549, R552, R554, R555) -/

section
variable {path : Path} {n : Nat} {s : State} (hup : pathUp (awake s) path = true) (hjtag : path ≠ .jtag) (hk : copyKey path ≤ 4)
  (hn : n < 16) (hheld : regHeld (awake s) = false) (hrun : s.cp.run = none) (hcmds : ∀ k ∈ [4, 0, 1, 2, 3], (cpCopyOf s k).cmd = none)
  (hclear : clear s = true)
  (hmay : if copyKey path < 4 then portMay s (copyKey path) n = true else pathSecure s.cfg path = true ∧ dKind (descOf s n) = 0)
  (hslice : (sliceOf s n).state = .active ∨ (sliceOf s n).state = .degraded)

/-- A checkpoint command on slice `n`, with its OP. -/
def CpCommand (i : Instr) (path : Path) (op n : Nat) (s : State) : Prop := 1 ≤ op ∧ op ≤ 4 ∧ exec i s = cpCmd path op n s

theorem cpCommand_of_mem (path : Path) (n : Nat) (s : State) {c : Instr}
    (h : c ∈ ([.capture path n, .replicate path n, .confirm path n, .restore path n] : List Instr)) : ∃ op, CpCommand c path op n s := by
  simp only [List.mem_cons, List.not_mem_nil, or_false] at h
  rcases h with rfl | rfl | rfl | rfl
  · exact ⟨1, by decide, by decide, rfl⟩
  · exact ⟨2, by decide, by decide, rfl⟩
  · exact ⟨3, by decide, by decide, rfl⟩
  · exact ⟨4, by decide, by decide, rfl⟩

include hup hjtag hk hn hheld hrun hcmds hclear hmay hslice

theorem cpCommand_baseless {c : Instr} {op : Nat} (hc : CpCommand c path op n s) (hbase : cpBase s n = none) :
    Ends c s fun t => t.cp.run = none ∧ (cpCopyOf t (copyKey path)).cmd = none ∧ (cpCopyOf t (copyKey path)).result = 4 ∧
      { t with cp := s.cp } = awake s := by
  obtain ⟨hlo, hhi, hexec⟩ := hc
  have hstart := cpStart_baseless (sec := pathSecure s.cfg path) ⟨hlo, hhi⟩ (mayCommand_cpTaken s path op n hmay)
    (by rwa [sliceOf_cpTaken]) ((cpBase_cpTaken s path op n).trans hbase)
  have hended : CpEnded (copyKey path) (cpTaken s path op n) (cpEnd (cpTaken s path op n) (copyKey path) 4) := cpEnded_cpEnd rfl _ _
  have hclear' : clear (cpEnd (cpTaken s path op n) (copyKey path) 4) = true := (clear_cpTaken s path op n).trans hclear
  have hrest : NoneWaits (cpEnd (cpTaken s path op n) (copyKey path) 4) := noneWaits_of_ended hended fun j hj hne => by
    rw [cpCopyOf_cpTaken_ne s op n hne]
    exact hcmds j hj
  refine ends_cpTaken hup hjtag hk hn hheld hrun hcmds hexec (by omega) hstart hclear' (.inr hrest) ⟨hended.1, hended.2.1, cpResult_cpEnd .., ?_⟩
  exact besideCp_eq (s := s) (u := cpEnd (cpTaken s path op n) (copyKey path) 4) rfl

theorem cpCommand_opens {c : Instr} {op : Nat} (hc : CpCommand c path op n s) (hopen : 2 < op) (hbase : (cpBase s n).isSome = true) :
    Ends c s fun t => t.cp.run = some (copyKey path, op, n, cpStage s (copyKey path), ⟨[], [], []⟩) ∧ { t with cp := s.cp } = awake s := by
  obtain ⟨hlo, hhi, hexec⟩ := hc
  have hstart := cpStart_open (sec := pathSecure s.cfg path) ⟨hlo, hhi⟩ (mayCommand_cpTaken s path op n hmay)
    (by rwa [sliceOf_cpTaken]) (by rwa [cpBase_cpTaken]) hopen
  rw [cpStage_cpTaken] at hstart
  have hclear' : clear (cpRun (cpTaken s path op n) (copyKey path) op n (cpStage s (copyKey path)) ⟨[], [], []⟩) = true :=
    (clear_cpTaken s path op n).trans hclear
  refine ends_cpTaken hup hjtag hk hn hheld hrun hcmds hexec (by omega) hstart hclear' (.inl rfl) ⟨rfl, ?_⟩
  exact besideCp_eq (s := s) (u := cpRun (cpTaken s path op n) (copyKey path) op n (cpStage s (copyKey path)) ⟨[], [], []⟩) rfl

omit hclear in
theorem cpCommand_lists {c : Instr} {op : Nat} (hc : CpCommand c path op n s) (hlist : op ≤ 2) (hbase : (cpBase s n).isSome = true)
    {u : State} {l : CapList}
    (hstep : op = 1 → ∀ c ∈ liveCtxs s n, (ctxOf s c).state = .live →
      ctxStep (cpTaken s path op n) c = cpW (cpStage s (copyKey path)) 3 % 2 ^ 48)
    (hread : readCapList (cpTaken s path op n) n (cpW (cpStage s (copyKey path)) 0) = (u, .inl l)) (hu : clear u = true)
    (hfits : inRegion u n (cpW (cpStage s (copyKey path)) 1) (if op = 1 then recordSize l (recordCtxs u n).length else 128) true = true) :
    Ends c s fun t => t = cpRun u (copyKey path) op n (cpStage s (copyKey path)) l := by
  obtain ⟨hlo, hhi, hexec⟩ := hc
  have hstart := cpStart_listed (k := copyKey path) (sec := pathSecure s.cfg path) (u := u) (l := l) ⟨hlo, hhi⟩ (mayCommand_cpTaken s path op n hmay)
    (by rwa [sliceOf_cpTaken]) (by rwa [cpBase_cpTaken]) hlist
    (by simpa only [liveCtxs_cpTaken, ctxOf_cpTaken, cpStage_cpTaken] using hstep) (by rwa [cpStage_cpTaken]) (by rwa [cpStage_cpTaken])
  rw [cpStage_cpTaken] at hstart
  exact ends_cpTaken hup hjtag hk hn hheld hrun hcmds hexec (by omega) hstart hu (.inl rfl) rfl

end

/-! ## The end of the hash (R551, R558) -/

section
variable {k op n : Nat} {ws : List Word} {l : CapList} {s : State}

/-- What the running command does when its hash is done. -/
def cpFinish (s : State) (k op n : Nat) (ws : List Word) (l : CapList) : State :=
  match cpBase s n with
  | none => cpEnd s k 4
  | some base => if op ≤ 2 then cpWriteOut s k op n ws l base else cpOpen s k op n ws base

theorem cpEnded_cpFinish : CpEnded k s (cpFinish s k op n ws l) := by
  unfold cpFinish
  split
  · exact cpEnded_cpEnd rfl ..
  · split
    · exact cpEnded_cpWriteOut ..
    · exact cpEnded_cpOpen ..

/-- What the report of a slice takes of a CAPTURE or REPLICATE that succeeds (R558). -/
def cpSuccess (op : Nat) (ws : List Word) (tag : Nat) (x : KSlice) : KSlice :=
  if op = 1 then { x with cpStep := cpW ws 3 % 2 ^ 48, cpOwn := tag, cpPartner := 0, cpStatus := 0 } else x

/-- A CAPTURE or REPLICATE whose reads and write succeed. -/
theorem cpWriteOut_written {u v : State} {data : List (List Byte)} {base : Key} (hread : cpReads n 0 s (capRanges l) = (u, .inl data))
    (hwrite : memWrite (cpPayload u op n ws l base data).1 (blockWho n) .spa (cpW ws 1) (cpPayload u op n ws l base data).2 = (v, none)) :
    cpWriteOut s k op n ws l base = cpEnd (cpReport v n (cpSuccess op ws v.cp.fdtag)) k 0 := by
  unfold cpWriteOut
  rw [hread]
  dsimp only
  rw [hwrite]
  rfl

/-- The report of a slice takes `f`, and its REPORT_SEQ rises. -/
theorem ksSlice_cpReport (s : State) (n : Nat) (f : KSlice → KSlice) :
    ∃ y : KSlice, y = f (ksSlice s n) ∧ ksSlice (cpReport s n f) n = { y with seq := y.seq + 1 } := by
  have hmod (t : State) (g : KSlice → KSlice) : ksSlice (modKsSlice t n g) n = g (ksSlice t n) := mget_mmod_same ..
  exact ⟨ksSlice (modKsSlice s n f) n, hmod s f, hmod (modKsSlice s n f) fun x => { x with seq := x.seq + 1 }⟩

/-- The report of a slice after a CAPTURE. -/
theorem ksSlice_captured (v w : State) (k n result : Nat) (ws : List Word) (h : w = cpEnd (cpReport v n (cpSuccess 1 ws v.cp.fdtag)) k result) :
    (ksSlice w n).cpStep = cpW ws 3 % 2 ^ 48 ∧ (ksSlice w n).cpOwn = v.cp.fdtag := by
  have hend (u : State) : ksSlice (cpEnd u k result) n = ksSlice u n := rfl
  obtain ⟨y, hy, hreport⟩ := ksSlice_cpReport v n (cpSuccess 1 ws v.cp.fdtag)
  rw [h, hend, hreport, hy]
  exact ⟨rfl, rfl⟩

theorem checkpointHashDone_ends (hrun : s.cp.run = some (k, op, n, ws, l)) (hruns : blockRuns s = true) (hsafe : s.fc.blockSafe = false)
    (hentropy : op = 1 → s.ks.entropyFail = false) (hothers : ∀ j ∈ [4, 0, 1, 2, 3], j ≠ k → (cpCopyOf s j).cmd = none)
    (hclear : clear (cpFinish s k op n ws l) = true) : Ends .checkpointHashDone s fun t => t = cpFinish s k op n ws l := by
  have hexec : exec .checkpointHashDone s =
      guardRes s (blockRuns s && !s.fc.blockSafe && !(op = 1 && s.ks.entropyFail)) (cpDrive 5 (cpFinish s k op n ws l)) := by
    show execCheckpointHashDone s = _
    unfold execCheckpointHashDone
    rw [hrun]
    rfl
  rw [cpDrive_rest (noneWaits_of_ended cpEnded_cpFinish hothers)] at hexec
  have hcond : (blockRuns s && !s.fc.blockSafe && !(op = 1 && s.ks.entropyFail)) = true := by
    by_cases h1 : op = 1
    · simp [hruns, hsafe, hentropy h1]
    · simp [hruns, hsafe, h1]
  exact .of_guard hexec hcond hclear rfl

theorem clear_cpFinish (hclear : clear s = true)
    (h : ∀ base, cpBase s n = some base → clear (if op ≤ 2 then cpWriteOut s k op n ws l base else cpOpen s k op n ws base) = true) :
    clear (cpFinish s k op n ws l) = true := by
  unfold cpFinish
  split
  · exact hclear
  case h_2 base hbase => exact h base hbase

theorem cpFinish_baseless (hbase : cpBase s n = none) : cpFinish s k op n ws l = cpEnd s k 4 := by
  unfold cpFinish
  rw [hbase]

theorem cpFinish_written {u v : State} {data : List (List Byte)} {base : Key} (hop : op ≤ 2) (hbase : cpBase s n = some base)
    (hread : cpReads n 0 s (capRanges l) = (u, .inl data))
    (hwrite : memWrite (cpPayload u op n ws l base data).1 (blockWho n) .spa (cpW ws 1) (cpPayload u op n ws l base data).2 = (v, none)) :
    cpFinish s k op n ws l = cpEnd (cpReport v n (cpSuccess op ws v.cp.fdtag)) k 0 := by
  unfold cpFinish
  rw [hbase]
  exact (if_pos hop).trans (cpWriteOut_written hread hwrite)

end

/-! ## CP_OKEYs (R547, R559) -/

theorem cpOkeyWrite_ends {path : Path} {n w : Nat} {v : Word} {s : State} (hreach : secReach path s = true) (hn : n < 16) (hw : w < 4)
    (hclear : clear s = true) : Ends (.cpOkeyWrite path n w v) s fun t => { t with cp := s.cp } = awake s ∧
      (dKind (descOf s n) ≠ 0 → t.cp = s.cp) ∧
      (dKind (descOf s n) = 0 → mget 0 t.cp.okeys (4 * n + w) = v ∧ { t.cp with okeys := s.cp.okeys } = s.cp ∧
        ∀ j, j ≠ 4 * n + w → mget 0 t.cp.okeys j = mget 0 s.cp.okeys j) := by
  have hexec : exec (.cpOkeyWrite path n w v) s = settle (if dKind (descOf (awake s) n) ≠ 0 then awake s
      else { awake s with cp := { (awake s).cp with okeys := minsert (awake s).cp.okeys (4 * n + w) v } }) :=
    secWriteAt_reach hreach (by simp [hn, hw]) _
  rw [descOf_awake, awake_cp] at hexec
  by_cases hkind : dKind (descOf s n) = 0
  · rw [if_neg (not_not.mpr hkind)] at hexec
    refine .of_settle hexec ((clear_awake s).trans hclear) ⟨besideCp_eq rfl, fun h => absurd hkind h, fun _ => ⟨mget_minsert_same .., rfl, fun j hj => ?_⟩⟩
    exact mget_minsert_other 0 s.cp.okeys v hj
  · rw [if_pos hkind] at hexec
    exact .of_settle hexec ((clear_awake s).trans hclear) ⟨besideCp_eq rfl, fun _ => awake_cp s, fun h => absurd h hkind⟩

/-- Settles O56: a taken command is the only one, so its checks alone decide what it starts or ends with; the end of the hash ends whichever
command runs, and no other copy waits. -/
theorem checkpointCommandsRunAndEnd : Obligations.CheckpointCommandsRunAndEnd := by
  unfold Obligations.CheckpointCommandsRunAndEnd
  refine ⟨?commands, ?done, ?okeys⟩
  case commands =>
    intro path n s hup hjtag hk hn hheld hrun hcmds hclear k hmay hslice ws taken
    have hcapture : CpCommand (.capture path n) path 1 n s := ⟨by decide, by decide, rfl⟩
    have hreplicate : CpCommand (.replicate path n) path 2 n s := ⟨by decide, by decide, rfl⟩
    have hconfirm : CpCommand (.confirm path n) path 3 n s := ⟨by decide, by decide, rfl⟩
    have hrestore : CpCommand (.restore path n) path 4 n s := ⟨by decide, by decide, rfl⟩
    refine ⟨fun hbase c hc => ?_, fun hbase => ⟨?_, ?_, fun u l hstep hread hu hfits => ?_, fun u l hread hu hfits => ?_⟩⟩
    · obtain ⟨op, hop⟩ := cpCommand_of_mem path n s hc
      exact cpCommand_baseless hup hjtag hk hn hheld hrun hcmds hclear hmay hslice hop hbase
    · exact cpCommand_opens hup hjtag hk hn hheld hrun hcmds hclear hmay hslice hconfirm (by decide) hbase
    · exact cpCommand_opens hup hjtag hk hn hheld hrun hcmds hclear hmay hslice hrestore (by decide) hbase
    · exact cpCommand_lists hup hjtag hk hn hheld hrun hcmds hmay hslice hcapture (by decide) hbase (fun _ => hstep) hread hu hfits
    · exact cpCommand_lists hup hjtag hk hn hheld hrun hcmds hmay hslice hreplicate (by decide) hbase (fun h => absurd h (by decide))
        hread hu hfits
  case done =>
    intro k op n ws l s hrun hruns hsafe hentropy hothers hk hclear hfinish
    obtain ⟨t, hexec, ht⟩ := checkpointHashDone_ends hrun hruns hsafe hentropy hothers (clear_cpFinish hclear hfinish)
    obtain ⟨hnone, hcmd, -⟩ := (cpEnded_cpFinish : CpEnded k s (cpFinish s k op n ws l))
    refine ⟨t, hexec, ht ▸ hnone, ht ▸ hcmd, fun hbase => ?_, fun base u data v hop hbase hread hwrite => ?_⟩
    · rw [ht, cpFinish_baseless hbase]
      exact cpResult_cpEnd ..
    · have hsv (u : State) (f : KSlice → KSlice) : (cpEnd (cpReport u n f) k 0).sv = u.sv := rfl
      have hwritten := ht.trans (cpFinish_written (by omega) hbase hread hwrite)
      refine ⟨hwritten ▸ cpResult_cpEnd .., hwritten ▸ hsv v _, fun h1 => ?_⟩
      subst h1
      exact ksSlice_captured v t k n 0 ws hwritten
  case okeys =>
    intro path n w v s hreach hn hw hclear
    exact cpOkeyWrite_ends hreach hn hw hclear

end Sys2Proof.Machine
end

section
/-! PROOFS. The life-cycle controller, the debug unit and JTAG (O49): OTP writes (R507, R510), the opening of debug (R512, R513), EXTEST (R516)
and the scratchpad instrument (R505). -/
namespace Sys2Proof.Machine

/-! ## Lists and words -/

theorem getD_lmod_same {α : Type} (d : α) (f : α → α) {l : List α} {i : Nat} (h : i < l.length) : (lmod l i f).getD i d = f (l.getD i d) := by
  induction l generalizing i with
  | nil => exact absurd h (Nat.not_lt_zero i)
  | cons x l ih =>
    cases i with
    | zero => rfl
    | succ i => simpa [lmod] using ih (Nat.lt_of_succ_lt_succ h)

theorem getD_lmod_other {α : Type} (d : α) (f : α → α) (l : List α) {i j : Nat} (h : j ≠ i) : (lmod l i f).getD j d = l.getD j d := by
  induction l generalizing i j with
  | nil => rfl
  | cons x l ih =>
    cases i with
    | zero =>
      cases j with
      | zero => exact absurd rfl h
      | succ j => rfl
    | succ i =>
      cases j with
      | zero => rfl
      | succ j => simpa [lmod] using ih fun hji => h (congrArg Nat.succ hji)

theorem contains_sdel_same (l : List Nat) (k : Nat) : (sdel l k).contains k = false := by
  simp [sdel]

/-! ## One SCLK of the life-cycle controller (R507, R510) -/

/-- What an OTP write leaves in its word or slot. -/
def otpLeft (l : Lc) (r : LcRun) : Word := otpWord l r ||| (r.want &&& ~~~r.miss &&& BitVec.allOnes 64)

section
variable {s : State}

theorem lcDrive_due {c : Nat} (hrun : s.lc.run = none) (hdue : s.lc.due = some c) :
    lcDrive s = { s with lc := { s.lc with due := none, result := c } } := by
  unfold lcDrive
  rw [hrun, hdue]

theorem lcDrive_word {r : LcRun} (hrun : s.lc.run = some r) (htarget : r.target ≠ 0) (hnum : r.num < s.lc.words.length)
    (hleft : otpLeft s.lc r = r.want) : ∃ m, lcDrive s = { s with minSvn := m, lc := { s.lc with
      words := lmod s.lc.words r.num fun _ => r.want, run := none, due := none, pend := true, next := r.target, result := 0 } } := by
  have hprogram : otpProgram s r (BitVec.allOnes 64) = { s with
      minSvn := minSvnOf { s.lc with words := lmod s.lc.words r.num fun _ => r.want },
      lc := { s.lc with words := lmod s.lc.words r.num fun _ => r.want, run := none, due := none } } := by
    rw [← hleft]
    unfold otpProgram
    dsimp only
    rw [if_neg htarget]
    rfl
  have hread (l : Lc) (hl : l.words = lmod s.lc.words r.num fun _ => r.want) : ¬(otpWord l r ≠ r.want) := by
    unfold otpWord
    rw [not_not, if_neg htarget, hl]
    exact getD_lmod_same 0 (fun _ => r.want) hnum
  unfold lcDrive
  rw [hrun]
  dsimp only
  rw [hprogram]
  exact ⟨_, (if_neg (hread _ rfl)).trans (if_neg htarget)⟩

theorem lcDrive_svn {r : LcRun} {v : Word} (hrun : s.lc.run = some r) (htarget : r.target = 0) (hleft : otpLeft s.lc r = v) :
    (lcDrive s).lc.svn = mset 0 s.lc.svn r.num v ∧ (lcDrive s).lc.words = s.lc.words := by
  have hprogram : (otpProgram s r (BitVec.allOnes 64)).lc = { s.lc with svn := mset 0 s.lc.svn r.num v, run := none, due := none } := by
    rw [← hleft]
    unfold otpProgram
    dsimp only
    rw [if_pos htarget]
    rfl
  unfold lcDrive
  rw [hrun]
  dsimp only
  generalize otpProgram s r (BitVec.allOnes 64) = u at hprogram
  repeat' split
  all_goals exact ⟨(congrArg Lc.svn hprogram :), (congrArg Lc.words hprogram :)⟩

end

/-! ## LC_CMD (R506 to R510) -/

theorem transitionWord_target {frm target : Nat} {x : Nat × Nat} (h : transitionWord frm target = some x) : target ≠ 0 := by
  rintro rfl
  unfold transitionWord at h
  split at h <;> simp_all

/-- The lowest slot that is entirely zero. -/
theorem blankSlot_eq {l : Lc} {i : Nat} (hi : i < 32) (hblank : svnSlot l i = 0) (hlowest : ∀ j, j < i → svnSlot l j ≠ 0) :
    ((List.range 32).find? fun j => svnSlot l j = 0) = some i :=
  List.find?_range_eq_some.mpr ⟨by simpa using hblank, List.mem_range.mpr hi, fun j hj => by simpa using hlowest j hj⟩

/-- A command of the life-cycle controller runs its OTP write, or its RESULT is due. -/
def lcTaken (p : State × Nat) : State := if p.1.lc.run.isSome then p.1 else { p.1 with lc := { p.1.lc with due := some p.2 } }

section
variable {path : Path} {s : State} (hreach : secReach path s = true) (hsafe : s.fc.blockSafe = false) (hbusy : lcBusy s.lc = false)
  (hclear : clear s = true)

theorem lcIdle (hbusy : lcBusy s.lc = false) : s.lc.run = none ∧ s.lc.due = none := by
  simpa [lcBusy, and_comm] using hbusy

@[simp] theorem awake_lc (s : State) : (awake s).lc = s.lc := by unfold awake; split <;> rfl

include hreach hsafe hbusy in
theorem lcCmd_reach (body : State → State × Nat) : lcCmd path body s = settle (lcTaken (body (awake s))) := by
  simp only [secReach, Bool.and_eq_true, Bool.not_eq_true'] at hreach
  obtain ⟨⟨hup, hsec⟩, hheld⟩ := hreach
  have h1 : ¬((!(pathUp (awake s) path)) = true) := by simp [hup]
  have h2 : ¬((!(pathSecure (awake s).cfg path) || (awake s).fc.blockSafe || regHeld (awake s)) = true) := by
    simp [hsec, hsafe, hheld]
  have h3 : ¬(lcBusy (awake s).lc = true) := by simp [hbusy]
  unfold lcCmd
  exact (if_neg h1).trans ((if_neg h2).trans ((if_neg h3).trans rfl))

include hbusy in
/-- A command refused with a RESULT has it due at the next SCLK. -/
theorem lcTaken_refused (r : Nat) : lcTaken (awake s, r) = { awake s with lc := { s.lc with due := some r } } := by
  unfold lcTaken
  rw [awake_lc, (lcIdle hbusy).1]
  rfl

theorem lcTaken_started (r : LcRun) (htamper : s.pins.tamperN = true) :
    lcTaken (otpStart (awake s) r) = { awake s with lc := { s.lc with run := some r } } := by
  have hpins : (awake s).pins.tamperN = true := by rw [(awake_kept s).1, htamper]
  have hstart : otpStart (awake s) r = ({ awake s with lc := { (awake s).lc with run := some r } }, 7) := by
    unfold otpStart
    exact congrArg (·, 7) (if_pos hpins)
  rw [hstart, awake_lc]
  rfl

include hreach hsafe hbusy hclear

theorem transition_refused {target : Nat} (miss : Word) (hedge : transitionWord s.lc.current target = none) :
    Ends (.transition path target miss) s fun t =>
      t = { awake s with lc := { s.lc with due := some 1 } } ∧ lcDrive t = { awake s with lc := { s.lc with result := 1 } } := by
  have hexec : exec (.transition path target miss) s = settle { awake s with lc := { s.lc with due := some 1 } } := by
    show execTransition path target miss s = _
    unfold execTransition
    rw [lcCmd_reach hreach hsafe hbusy]
    dsimp only
    rw [awake_lc, hedge]
    exact congrArg settle (lcTaken_refused hbusy 1)
  obtain ⟨hrun, hdue⟩ := lcIdle hbusy
  refine .of_settle hexec ((clear_awake s).trans hclear) ⟨rfl, ?_⟩
  rw [lcDrive_due (s := { awake s with lc := { s.lc with due := some 1 } }) hrun rfl, ← hdue]

theorem transition_programs {target w : Nat} {miss : Word} (hedge : transitionWord s.lc.current target = some (w, 0)) (hpend : s.lc.pend = false)
    (htamper : s.pins.tamperN = true) (hw : w < s.lc.words.length) : Ends (.transition path target miss) s fun t =>
      t = { awake s with lc := { s.lc with run := some ⟨target, w, BitVec.allOnes 64, miss⟩ } } ∧
        (s.lc.words.getD w 0 ||| ~~~miss = BitVec.allOnes 64 →
          let u := lcDrive t
          u.lc.words.getD w 0 = BitVec.allOnes 64 ∧ (∀ k, k ≠ w → u.lc.words.getD k 0 = s.lc.words.getD k 0) ∧ u.lc.pend = true ∧
          u.lc.next = target ∧ u.lc.result = 0 ∧ u.lc.current = s.lc.current ∧ lcBusy u.lc = false ∧
          { u with lc := s.lc, minSvn := s.minSvn } = awake s) := by
  have hexec : exec (.transition path target miss) s =
      settle { awake s with lc := { s.lc with run := some ⟨target, w, BitVec.allOnes 64, miss⟩ } } := by
    show execTransition path target miss s = _
    unfold execTransition
    rw [lcCmd_reach hreach hsafe hbusy]
    refine congrArg settle ?_
    dsimp only
    rw [awake_lc, hedge]
    dsimp only
    rw [if_neg (by simp [hpend]), if_pos (rfl : 0 = 0)]
    dsimp only
    rw [if_neg (not_not.mpr rfl)]
    exact lcTaken_started ⟨target, w, BitVec.allOnes 64, miss⟩ htamper
  refine .of_settle hexec ((clear_awake s).trans hclear) ⟨rfl, fun hfull => ?_⟩
  have htarget := transitionWord_target hedge
  have hleft (l : Lc) (hl : l.words = s.lc.words) : otpLeft l ⟨target, w, BitVec.allOnes 64, miss⟩ = BitVec.allOnes 64 := by
    unfold otpLeft otpWord
    rw [if_neg htarget, hl, BitVec.and_allOnes, BitVec.allOnes_and]
    exact hfull
  obtain ⟨ck, hck⟩ := awake_frame s
  obtain ⟨m, hdrive⟩ := lcDrive_word (s := { awake s with lc := { s.lc with run := some ⟨target, w, BitVec.allOnes 64, miss⟩ } })
    rfl htarget hw (hleft _ rfl)
  rw [hdrive]
  refine ⟨getD_lmod_same 0 _ hw, fun k hk => getD_lmod_other 0 _ _ hk, rfl, rfl, rfl, rfl, rfl, ?_⟩
  rw [hck]

theorem raiseSvn_refused (miss : Word) (hstate : s.lc.current < 2 ∨ 4 < s.lc.current) :
    Ends (.raiseSvn path miss) s fun t => t = { awake s with lc := { s.lc with due := some 1 } } := by
  have hout : (!(decide (2 ≤ (awake s).lc.current) && decide ((awake s).lc.current ≤ 4))) = true := by
    simp only [awake_lc, Bool.not_eq_true', Bool.and_eq_false_iff, decide_eq_false_iff_not]
    omega
  have hexec : exec (.raiseSvn path miss) s = settle { awake s with lc := { s.lc with due := some 1 } } := by
    show execRaiseSvn path miss s = _
    unfold execRaiseSvn
    rw [lcCmd_reach hreach hsafe hbusy]
    refine congrArg settle ?_
    exact (congrArg lcTaken (if_pos hout)).trans (lcTaken_refused hbusy 1)
  exact .of_settle hexec ((clear_awake s).trans hclear) rfl

theorem raiseSvn_programs {miss : Word} {i : Nat} {im : FwImage} (hlo : 2 ≤ s.lc.current) (hhi : s.lc.current ≤ 4)
    (hraise : s.minSvn < s.lc.arg % 65536) (hfw : s.fw.running = some im) (him : s.lc.arg % 65536 ≤ im.svn) (hi : i < 32)
    (hblank : svnSlot s.lc i = 0) (hlowest : ∀ j, j < i → svnSlot s.lc j ≠ 0) (htamper : s.pins.tamperN = true) :
    let v := BitVec.ofNat 64 (s.lc.arg % 65536 + 65536 * (65535 - s.lc.arg % 65536))
    Ends (.raiseSvn path miss) s fun t => t = { awake s with lc := { s.lc with run := some ⟨0, i, v, miss⟩ } } ∧
      svnSlot (lcDrive t).lc i = v &&& ~~~miss ∧ (∀ j, j ≠ i → svnSlot (lcDrive t).lc j = svnSlot s.lc j) ∧
      (lcDrive t).lc.words = s.lc.words := by
  intro v
  obtain ⟨ck, hck⟩ := awake_frame s
  have hin : ¬((!(decide (2 ≤ (awake s).lc.current) && decide ((awake s).lc.current ≤ 4))) = true) := by
    simp [hlo, hhi]
  have hraises : ¬((decide ((awake s).lc.arg % 65536 ≤ (awake s).minSvn) ||
      (match (awake s).fw.running with | some im => decide (im.svn < (awake s).lc.arg % 65536) | none => true)) = true) := by
    rw [hck]
    simp only [hfw, Bool.or_eq_true, decide_eq_true_eq]
    omega
  have hexec : exec (.raiseSvn path miss) s = settle { awake s with lc := { s.lc with run := some ⟨0, i, v, miss⟩ } } := by
    show execRaiseSvn path miss s = _
    unfold execRaiseSvn
    rw [lcCmd_reach hreach hsafe hbusy]
    refine congrArg settle ?_
    refine (congrArg lcTaken ((if_neg hin).trans (if_neg hraises))).trans ?_
    rw [awake_lc, blankSlot_eq hi hblank hlowest]
    exact lcTaken_started ⟨0, i, v, miss⟩ htamper
  refine .of_settle hexec ((clear_awake s).trans hclear) ⟨rfl, ?_⟩
  have hleft (l : Lc) (hl : svnSlot l i = 0) : otpLeft l ⟨0, i, v, miss⟩ = v &&& ~~~miss := by
    unfold otpLeft otpWord
    rw [if_pos rfl, hl, BitVec.and_allOnes]
    exact BitVec.zero_or
  obtain ⟨hsvn, hwords⟩ := lcDrive_svn (s := { awake s with lc := { s.lc with run := some ⟨0, i, v, miss⟩ } }) rfl rfl (hleft _ hblank)
  refine ⟨?_, fun j hj => ?_, hwords⟩
  · exact (congrArg (fun m => mget 0 m i) hsvn).trans (mget_mset_same ..)
  · exact (congrArg (fun m => mget 0 m j) hsvn).trans (mget_mset_other _ _ _ hj)

end

/-! ## A dissolve leaves the block's control alone -/

section
variable (s : State)

theorem modSweeps_control (n : Nat) (f : List Sweep → List Sweep) : (modSweeps s n f).control = s.control :=
  foldl_keeps State.control (fun t m => modPort_control t m _) _ s

theorem markRemoving_control (engs : List Nat) (on : Bool) : (markRemoving s engs on).control = s.control :=
  foldl_keeps State.control (fun t e => modEng_control t e _) engs s

theorem dropChange_control (n : Nat) : (dropChange s n).control = s.control := by
  unfold dropChange
  split
  · rfl
  · have hend (t : State) : (slmEnd t 1).control = t.control := rfl
    dsimp only
    rw [hend, modSlice_control, markRemoving_control]

theorem tearSlice_control (n code : Nat) : (tearSlice s n code).control = s.control := by
  refine foldl_keeps State.control (fun t c => ?_) _ s
  split
  · exact modCtx_control ..
  · exact tearStart_control ..

theorem dissolveStart_control (n code : Nat) : (dissolveStart s n code).control = s.control := by
  unfold dissolveStart
  dsimp only
  rw [tearSlice_control, modSlice_control, modSweeps_control, dropChange_control, cpStateEnd_control]

theorem lc_of_control {s t : State} (h : t.control = s.control) : t.lc = s.lc := congrArg (fun c => c.2.2.1) h

theorem startDebug_lc (scope : Nat) : (startDebug s scope).lc = { s.lc with tearing := true, grant := scope } := by
  unfold startDebug
  refine foldl_keeps State.lc (fun t n => ?_) _ _
  split
  · exact lc_of_control (dissolveStart_control ..)
  · rfl

end

/-! ## DG_CMD (R512 to R514) -/

/-- DG_CMD is answered with the RESULT of what it did. -/
def dgAnswered (p : State × Nat) : State := { p.1 with lc := { p.1.lc with dgResult := p.2 } }

theorem dgAnswered_lc (p : State × Nat) : (dgAnswered p).lc = { p.1.lc with dgResult := p.2 } := rfl

theorem clear_dgAnswered {u : State} (r : Nat) (h : clear u = true) : clear (dgAnswered (u, r)) = true := h

theorem tokenResult_awake (s : State) (purpose : Nat) : tokenResult (awake s) purpose = tokenResult s purpose := by
  obtain ⟨ck, hck⟩ := awake_frame s
  rw [hck]
  rfl

theorem tokenBytes_awake (s : State) : tokenBytes (awake s) = tokenBytes s := by
  unfold tokenBytes
  rw [awake_lc]

/-- In PRODUCTION the token decides. -/
theorem openDebug_production {s : State} (hdg : s.lc.dgOpen = false) (htearing : s.lc.tearing = false) (hstate : s.lc.current = 3) :
    openDebug (awake s) = if tokenResult s 1 = 0 then (startDebug (verifyToken (awake s) 1).1 ((tokenBytes s).getD 5 0).toNat, 0)
      else ((verifyToken (awake s) 1).1, tokenResult s 1) := by
  unfold openDebug
  rw [if_neg (by simp [hdg, htearing]), if_neg (by simp [hstate]), tokenBytes_awake, ← tokenResult_awake]
  rfl

theorem verifyToken_lc (s : State) (purpose : Nat) : (verifyToken s purpose).1.lc =
    { s.lc with chal := none, fails := if tokenResult s purpose = 0 then s.lc.fails else satAdd 255 s.lc.fails 1 } := rfl

section
variable {path : Path} {s : State} (hup : pathUp (awake s) path = true) (hjtag : path = .jtag → s.lc.tap = 0x10)
  (hsec : dgSecure s.cfg path = true) (hrst : s.ck.rst = none) (hclk : s.ck.clkFault = false) (hopen : lcOpen s = true)

theorem awake_clkFault (s : State) : (awake s).ck.clkFault = s.ck.clkFault := by unfold awake; split <;> rfl

include hup hjtag hsec hrst hclk hopen in
theorem dgCmd_reach (body : State → State × Nat) : dgCmd path body s = settle (dgAnswered (body (awake s))) := by
  have h1 : ¬((decide (path = .jtag) && decide (s.lc.tap ≠ 0x10)) = true) := by
    simp only [Bool.and_eq_true, decide_eq_true_eq]
    rintro ⟨hpath, htap⟩
    exact htap (hjtag hpath)
  have h2 : ¬((!(pathUp (awake s) path)) = true) := by simp [hup]
  have hrst' : (awake s).ck.rst = none := by rw [(awake_kept s).2.2.1, hrst]
  have h3 : ¬((!(dgSecure (awake s).cfg path) || (awake s).ck.rst.isSome || (awake s).ck.clkFault) = true) := by
    simp [hsec, hrst', awake_clkFault, hclk]
  have hbody : (if lcOpen (awake s) = true then body (awake s) else (awake s, 5)) = body (awake s) := if_pos (by rwa [lcOpen_awake])
  unfold dgCmd
  exact (if_neg h1).trans ((if_neg h2).trans ((if_neg h3).trans (congrArg (fun p => settle (dgAnswered p)) hbody)))

include hup hjtag hsec hrst hclk hopen

theorem dgChallenge_ends (hclear : clear s = true) (hentropy : s.ks.entropyFail = false) : Ends (.dgChallenge path) s fun t =>
    t.lc.chal.isSome = true ∧ t.lc.dgResult = 0 ∧ t.ks.drbg = s.ks.drbg + 1 := by
  obtain ⟨ck, hck⟩ := awake_frame s
  have hgood : ¬((awake s).ks.entropyFail = true) := by
    rw [hck]
    simp [hentropy]
  refine .of_settle (t := dgAnswered ({ (drbg (awake s) 256).1 with lc := { (drbg (awake s) 256).1.lc with
    chal := some (drbg (awake s) 256).2 } }, 0)) ?_ ((clear_awake s).trans hclear) ⟨rfl, rfl, ?_⟩
  · show execDgChallenge path s = _
    unfold execDgChallenge
    rw [dgCmd_reach hup hjtag hsec hrst hclk hopen]
    exact congrArg (fun p => settle (dgAnswered p)) (if_neg hgood)
  · rw [hck]
    rfl

theorem debugOpen_reach : exec (.debugOpen path) s = settle (dgAnswered (openDebug (awake s))) :=
  dgCmd_reach hup hjtag hsec hrst hclk hopen openDebug

theorem debugOpen_again (hclear : clear s = true) (hdg : s.lc.dgOpen = true) : Ends (.debugOpen path) s fun t =>
    t = { awake s with lc := { s.lc with dgResult := 6 } } := by
  have hbody : openDebug (awake s) = (awake s, 6) := if_pos (by simp [hdg])
  have hexec := debugOpen_reach hup hjtag hsec hrst hclk hopen
  rw [hbody] at hexec
  refine .of_settle hexec ((clear_awake s).trans hclear) ?_
  unfold dgAnswered
  rw [awake_lc]

theorem debugOpen_elsewhere (hdg : s.lc.dgOpen = false) (htearing : s.lc.tearing = false) (hstate : s.lc.current ≠ 3)
    (hclear : clear (startDebug (awake s) 3) = true) : Ends (.debugOpen path) s fun t =>
    t.lc.tearing = true ∧ t.lc.grant = 3 ∧ t.lc.dgResult = 0 ∧ t.lc.dgOpen = false := by
  have hbody : openDebug (awake s) = (startDebug (awake s) 3, 0) :=
    (if_neg (by simp [hdg, htearing])).trans (if_pos (by rwa [awake_lc]))
  have hexec := debugOpen_reach hup hjtag hsec hrst hclk hopen
  rw [hbody] at hexec
  refine .of_settle hexec (clear_dgAnswered 0 hclear) ?_
  rw [dgAnswered_lc, startDebug_lc, awake_lc]
  exact ⟨rfl, rfl, rfl, hdg⟩

theorem debugOpen_production (hdg : s.lc.dgOpen = false) (htearing : s.lc.tearing = false) (hstate : s.lc.current = 3)
    (hclear : clear (openDebug (awake s)).1 = true) : Ends (.debugOpen path) s fun t =>
    t.lc.dgOpen = false ∧ t.lc.chal = none ∧ t.lc.dgResult = tokenResult s 1 ∧
      (tokenResult s 1 = 0 → t.lc.tearing = true ∧ t.lc.grant = ((tokenBytes s).getD 5 0).toNat) ∧
      (tokenResult s 1 ≠ 0 → t.lc.tearing = false ∧ t.lc.fails = satAdd 255 s.lc.fails 1 ∧ t.slices = s.slices) := by
  have hbody := openDebug_production (s := s) hdg htearing hstate
  refine .of_settle (debugOpen_reach hup hjtag hsec hrst hclk hopen) (clear_dgAnswered _ hclear) ?_
  by_cases htoken : tokenResult s 1 = 0
  · rw [if_pos htoken] at hbody
    have hlc : (dgAnswered (openDebug (awake s))).lc =
        { s.lc with chal := none, tearing := true, grant := ((tokenBytes s).getD 5 0).toNat, dgResult := 0 } := by
      rw [hbody, dgAnswered_lc, startDebug_lc, verifyToken_lc, tokenResult_awake, if_pos htoken, awake_lc]
    rw [hlc]
    exact ⟨hdg, rfl, htoken.symm, fun _ => ⟨rfl, rfl⟩, fun h => absurd htoken h⟩
  · rw [if_neg htoken] at hbody
    have hlc : (dgAnswered (openDebug (awake s))).lc =
        { s.lc with chal := none, fails := satAdd 255 s.lc.fails 1, dgResult := tokenResult s 1 } := by
      rw [hbody, dgAnswered_lc, verifyToken_lc, tokenResult_awake, if_neg htoken, awake_lc]
    have hslices : (dgAnswered (openDebug (awake s))).slices = s.slices := by
      obtain ⟨ck, hck⟩ := awake_frame s
      rw [hbody, hck]
      rfl
    rw [hlc, hslices]
    exact ⟨hdg, rfl, rfl, fun h => absurd h htoken, fun _ => ⟨htearing, rfl, rfl⟩⟩

end

theorem debugOpenComplete_ends {s : State} (htearing : s.lc.tearing = true) (hrst : s.ck.rst = none) (hfree : ∀ n < 16, guarded s n = false)
    (hclear : clear s = true) : Ends .debugOpenComplete s fun t =>
      t = { s with lc := { s.lc with tearing := false, dgOpen := true, scope := s.lc.grant } } := by
  have hcond : (s.lc.tearing && s.ck.rst.isNone && (List.range 16).all fun n => !(guarded s n)) = true := by
    simp only [htearing, hrst, Option.isNone_none, Bool.and_self, Bool.true_and, List.all_eq_true, List.mem_range, Bool.not_eq_true']
    exact hfree
  exact .of_guard (t := { s with lc := { s.lc with tearing := false, dgOpen := true, scope := s.lc.grant } }) rfl hcond hclear rfl

/-! ## JTAG_INSTRUCTION (R516, R628) -/

/-- What EXTEST does to engine `e`: its context is as last saved. -/
def extestEngine (t : State) (e : Nat) : State :=
  match (engOf t e).ctx with
  | some (c, gen) =>
    let t := modEng (engClear (abandonTile t e c gen) e) e fun g => { g with phase := .on }
    let t := if (ctxOf t c).state = .live then addReady t c else t
    tearAdvance t c
  | none => modEng t e fun g => { g with spad := [], spadBad := [], icache := [] }

theorem extestHold_eq (s : State) : extestHold s = s.cfg.engineList.foldl extestEngine s := rfl

section
variable {s : State}

theorem addReady_frame (s : State) (c : Nat) : ∃ sc, addReady s c = { s with sched := sc } := by
  unfold addReady addReadyAt
  split <;> exact ⟨_, rfl⟩

theorem clear_tearAdvance (s : State) (c : Nat) : clear (tearAdvance s c) = clear s :=
  tearAdvance_keeps clear clear_fenceErr (fun _ _ => rfl) (fun _ _ _ => rfl) s c

theorem clear_abandonTile (s : State) (e c gen : Nat) : clear (abandonTile s e c gen) = clear s := by
  unfold abandonTile
  dsimp only
  split <;> rfl

theorem clear_engClear (s : State) (e : Nat) : clear (engClear s e) = clear s := by
  unfold engClear
  dsimp only
  repeat' split
  all_goals rfl

theorem engOf_engClear_ne (s : State) {e k : Nat} (h : k ≠ e) : engOf (engClear s e) k = engOf s k := by
  have hidle (f : Engine → Engine) : engOf (modEng s e f) k = engOf s k := engOf_modEng_ne s f h
  unfold engClear
  dsimp only
  split
  · split
    · exact (engOf_modCtx ..).trans (hidle _)
    · exact hidle _
  · exact hidle _

theorem engCtx_of_standing {s t : State} (h : t.standing = s.standing) (k : Nat) : (engOf t k).ctx = (engOf s k).ctx :=
  congrArg (fun x => (x.2.2 k).ctx) h

/-- The engine whose context goes back is as reset, and idle. -/
def engHeld (t : State) (e c gen : Nat) : State := modEng (engClear (abandonTile t e c gen) e) e fun g => { g with phase := .on }

theorem engHeld_ctx (e c gen : Nat) : (engOf (engHeld s e c gen) e).ctx = none := by
  unfold engHeld
  rw [engOf_modEng]
  exact (engClear_eng ..).2

theorem engHeld_ctx_ne {e c gen k : Nat} (hctx : (engOf s e).ctx = some (c, gen)) (h : k ≠ e) :
    (engOf (engHeld s e c gen) k).ctx = (engOf s k).ctx := by
  unfold engHeld
  rw [engOf_modEng_ne _ _ h, engOf_engClear_ne _ h, engOf_abandonTile hctx, engOf_modEng_ne _ _ h]

/-- A context that lives waits to be placed again, and a teardown that waited for the engine goes on. -/
def extestReturn (t : State) (c : Nat) : State := tearAdvance (if (ctxOf t c).state = .live then addReady t c else t) c

theorem extestReturn_standing (t : State) (c : Nat) : (extestReturn t c).standing = t.standing := by
  unfold extestReturn
  rw [tearAdvance_standing]
  split
  · exact addReady_standing ..
  · rfl

theorem extestEngine_busy {e c gen : Nat} (h : (engOf s e).ctx = some (c, gen)) :
    extestEngine s e = extestReturn (engHeld s e c gen) c := by
  unfold extestEngine
  rw [h]
  rfl

theorem extestEngine_idle {e : Nat} (h : (engOf s e).ctx = none) :
    extestEngine s e = modEng s e fun g => { g with spad := [], spadBad := [], icache := [] } := by
  unfold extestEngine
  rw [h]

theorem clear_extestReturn (t : State) (c : Nat) : clear (extestReturn t c) = clear t := by
  unfold extestReturn
  rw [clear_tearAdvance]
  split
  · obtain ⟨sc, h⟩ := addReady_frame t c
    rw [h]
    rfl
  · rfl

theorem extestReturn_control (t : State) (c : Nat) : (extestReturn t c).control = t.control := by
  unfold extestReturn
  rw [tearAdvance_control]
  split
  · obtain ⟨sc, h⟩ := addReady_frame t c
    rw [h]
    rfl
  · rfl

theorem clear_extestEngine (t : State) (e : Nat) : clear (extestEngine t e) = clear t := by
  cases h : (engOf t e).ctx with
  | none =>
    rw [extestEngine_idle h]
    rfl
  | some x =>
    rw [extestEngine_busy h, clear_extestReturn]
    exact (clear_engClear ..).trans (clear_abandonTile ..)

theorem extestEngine_control (t : State) (e : Nat) : (extestEngine t e).control = t.control := by
  cases h : (engOf t e).ctx with
  | none =>
    rw [extestEngine_idle h]
    exact modEng_control ..
  | some x =>
    rw [extestEngine_busy h, extestReturn_control]
    exact (modEng_control ..).trans ((engClear_control ..).trans (abandonTile_control ..))

/-- EXTEST frees engine `e`, and gives no engine a context. -/
theorem extestEngine_ctx (t : State) (e : Nat) :
    (engOf (extestEngine t e) e).ctx = none ∧ ∀ k, (engOf t k).ctx = none → (engOf (extestEngine t e) k).ctx = none := by
  cases h : (engOf t e).ctx with
  | none =>
    have hkeep (k : Nat) (hk : (engOf t k).ctx = none) : (engOf (extestEngine t e) k).ctx = none := by
      rw [extestEngine_idle h]
      by_cases hke : k = e
      · rw [hke, engOf_modEng]
        exact h
      · rwa [engOf_modEng_ne _ _ hke]
    exact ⟨hkeep e h, hkeep⟩
  | some x =>
    obtain ⟨c, gen⟩ := x
    have hreturn := engCtx_of_standing (extestReturn_standing (engHeld t e c gen) c)
    rw [extestEngine_busy h]
    refine ⟨(hreturn e).trans (engHeld_ctx ..), fun k hk => (hreturn k).trans ?_⟩
    by_cases hke : k = e
    · rw [hke]
      exact engHeld_ctx ..
    · rwa [engHeld_ctx_ne h hke]

theorem foldl_extestEngine_ctx (l : List Nat) (t : State) {e : Nat} (h : e ∈ l ∨ (engOf t e).ctx = none) :
    (engOf (l.foldl extestEngine t) e).ctx = none := by
  induction l generalizing t with
  | nil => simpa using h
  | cons k l ih =>
    obtain ⟨hfreed, hkeep⟩ := extestEngine_ctx t k
    refine ih (extestEngine t k) ?_
    rcases h with hmem | hnone
    · rcases List.mem_cons.mp hmem with rfl | hmem
      · exact .inr hfreed
      · exact .inl hmem
    · exact .inr (hkeep e hnone)

/-- The instruction that a code selects: BYPASS beyond the table. -/
def tapOf (code : Nat) : Nat := if code = 1 ∨ code = 2 ∨ code = 3 ∨ code = 0x10 then code else 0xFF

/-- An instruction is selected. -/
def tapped (s : State) (code : Nat) : State := { s with lc := { s.lc with tap := tapOf code } }

theorem execJtagInstruction_eq (code : Nat) (s : State) : execJtagInstruction code s =
    settle (if tapOf code = 3 then extestHold (tapped s code) else if tapOf code = 1 then emit (tapped s code) (.instrument (idcode s.cfg))
      else tapped s code) := by
  have htap : (if (code = 1 || code = 2 || code = 3 || code = 0x10) = true then code else 0xFF) = tapOf code := by
    unfold tapOf
    simp [or_assoc]
  unfold execJtagInstruction
  dsimp only
  rw [htap]
  rfl

theorem tapOf_extest (code : Nat) : tapOf code = 3 ↔ code = 3 := by
  unfold tapOf
  split <;> omega

theorem jtagInstruction_ends (code : Nat) (hclear : clear s = true) : Ends (.jtagInstruction code) s fun t =>
    t.lc.tap = tapOf code ∧ (code ≠ 3 → { t with lc := s.lc, out := s.out } = s) ∧
      (code = 3 → ∀ e ∈ s.cfg.engineList, (engOf t e).ctx = none) := by
  have hexec : exec (.jtagInstruction code) s = execJtagInstruction code s := rfl
  rw [execJtagInstruction_eq] at hexec
  by_cases hext : code = 3
  · rw [if_pos ((tapOf_extest code).mpr hext), extestHold_eq] at hexec
    have hclear' : clear ((tapped s code).cfg.engineList.foldl extestEngine (tapped s code)) = true :=
      (foldl_keeps clear clear_extestEngine _ _).trans hclear
    refine .of_settle hexec hclear' ⟨?_, fun h => absurd hext h, fun _ e he => foldl_extestEngine_ctx _ _ (.inl he)⟩
    exact congrArg Lc.tap (lc_of_control (foldl_keeps State.control extestEngine_control _ (tapped s code)))
  · rw [if_neg (mt (tapOf_extest code).mp hext)] at hexec
    by_cases hid : tapOf code = 1
    · rw [if_pos hid] at hexec
      exact .of_settle (t := emit (tapped s code) (.instrument (idcode s.cfg))) hexec hclear ⟨rfl, fun _ => rfl, fun h => absurd h hext⟩
    · rw [if_neg hid] at hexec
      exact .of_settle (t := tapped s code) hexec hclear ⟨rfl, fun _ => rfl, fun h => absurd h hext⟩

/-! ## The scratchpad instrument (R505) -/

/-- A word of an engine's scratchpad is written; it is whole again. -/
def putSpadWord (a : Nat) (v : Word) (g : Engine) : Engine :=
  { g with spad := bwrite g.spad a (leBytes 8 v.toNat), spadBad := sdel g.spadBad (a / 8) }

theorem spadInstrument_ends {e a : Nat} (write : Bool) (v : Word) (he : s.cfg.hasEngine e = true) (htap : s.lc.tap = 0x10) (halign : a % 8 = 0)
    (ha : a < 2 ^ 20) (hclear : clear s = true) : Ends (.jtagInstrumentAccess (.spad e a) write v) s fun t =>
      (intrusive s = false → t = s) ∧
      (intrusive s = true → write = false → t = emit s (.instrument (BitVec.ofNat 64 (bnat (engOf s e).spad a 8)))) ∧
      (intrusive s = true → write = true → OnlyEngine e s t ∧ (engOf t e).spad = bwrite (engOf s e).spad a (leBytes 8 v.toNat) ∧
        (engOf t e).spadBad.contains (a / 8) = false) := by
  have hword : instIntrusive (.spad e a) write v s =
      if write = true then modEng s e (putSpadWord a v) else emit s (.instrument (BitVec.ofNat 64 (bnat (engOf s e).spad a 8))) := by
    have haddr : a / 8 * 8 = a := by omega
    unfold instIntrusive
    dsimp only
    rw [haddr, if_neg (by omega)]
    rfl
  have hexec : exec (.jtagInstrumentAccess (.spad e a) write v) s =
      settle (if intrusive s = true then instIntrusive (.spad e a) write v s else s) := by
    have hpresent : ¬((!(instPresent s.cfg (.spad e a))) = true) := by simp [instPresent, he]
    show execJtagInstrumentAccess (.spad e a) write v s = _
    unfold execJtagInstrumentAccess
    exact (if_neg hpresent).trans (if_neg (not_not.mpr htap))
  rw [hword] at hexec
  cases hin : intrusive s with
  | false =>
    rw [hin] at hexec
    exact .of_settle (t := s) hexec hclear ⟨fun _ => rfl, fun h => absurd h (by decide), fun h => absurd h (by decide)⟩
  | true =>
    rw [hin, if_pos rfl] at hexec
    cases write with
    | false =>
      exact .of_settle (t := emit s (.instrument (BitVec.ofNat 64 (bnat (engOf s e).spad a 8)))) hexec hclear
        ⟨fun h => absurd h (by decide), fun _ _ => rfl, fun _ h => absurd h (by decide)⟩
    | true =>
      obtain ⟨honly, heng⟩ := engineIs_modEng e (putSpadWord a v) s
      refine .of_settle (t := modEng s e (putSpadWord a v)) hexec hclear
        ⟨fun h => absurd h (by decide), fun _ h => absurd h (by decide), fun _ _ => ⟨honly, congrArg Engine.spad heng, ?_⟩⟩
      rw [heng]
      exact contains_sdel_same ..

end

/-- Settles O49: each command is its guard's open arm; the OTP writes end by one SCLK of the controller, and neither a dissolve nor EXTEST
reaches the life-cycle registers. -/
theorem lifeCycleDebugAndJtagCommandsComplete : Obligations.LifeCycleDebugAndJtagCommandsComplete := by
  unfold Obligations.LifeCycleDebugAndJtagCommandsComplete
  refine ⟨?transition, ?svn, ?debug, ?complete, ?jtag, ?instrument⟩
  case transition =>
    intro path target miss s hreach hsafe hbusy hclear
    exact ⟨transition_refused hreach hsafe hbusy hclear miss, fun w => transition_programs hreach hsafe hbusy hclear⟩
  case svn =>
    intro path miss s hreach hsafe hbusy hclear
    exact ⟨raiseSvn_refused hreach hsafe hbusy hclear miss, fun i im => raiseSvn_programs hreach hsafe hbusy hclear⟩
  case debug =>
    intro path s hup hjtag hsec hrst hclk hopen hclear
    exact ⟨dgChallenge_ends hup hjtag hsec hrst hclk hopen hclear, debugOpen_again hup hjtag hsec hrst hclk hopen hclear,
      debugOpen_elsewhere hup hjtag hsec hrst hclk hopen, debugOpen_production hup hjtag hsec hrst hclk hopen⟩
  case complete =>
    intro s htearing hrst hfree hclear
    exact debugOpenComplete_ends htearing hrst hfree hclear
  case jtag =>
    intro code s hclear
    exact jtagInstruction_ends code hclear
  case instrument =>
    intro e a write v s he htap halign ha hclear
    exact spadInstrument_ends write v he htap halign ha hclear

end Sys2Proof.Machine
end
